-- ==== Sys2Proof/Word.lean ====
section
/-! DEFINITION. The word types of the TX8 and their plainest arithmetic (R7, R9, R96, R109). -/
namespace Sys2Proof

/-- A scalar register, a register word, a system time (R31). -/
abbrev Word := BitVec 64
abbrev Byte := BitVec 8
/-- The bits of an FP32 value (type code 0x0 of R9). -/
abbrev F32 := BitVec 32
/-- A descriptor register (R102, R109). -/
abbrev Desc := BitVec 256
/-- A module of the system: module in bits 7 to 0, ward in bits 13 to 8 (R301, R322). -/
abbrev Member := BitVec 16
/-- The 128 bytes of a ticket, byte 0 in bits 7 to 0 (R463, R7). -/
abbrev Ticket := BitVec 1024
/-- The 512 bytes of a flit (R367). -/
abbrev FlitBits := BitVec 4096

/-- Bits `lo + w - 1` to `lo` of a number. -/
def bits (v lo w : Nat) : Nat := (v >>> lo) % 2 ^ w

/-- Bit `i` of a number. -/
def bitOf (v i : Nat) : Bool := v.testBit i

/-- Rounded-up quotient. -/
def ceilDiv (a b : Nat) : Nat := (a + b - 1) / b

/-- `a` rounded up to a multiple of `b`. -/
def roundUp (a b : Nat) : Nat := ceilDiv a b * b

/-- The little-endian number of a byte list (R7). -/
def leNat : List Byte → Nat
  | [] => 0
  | b :: bs => b.toNat + 256 * leNat bs

/-- The `n` bytes of a number, least significant first (R7). -/
def leBytes (n v : Nat) : List Byte :=
  (List.range n).map fun i => BitVec.ofNat 8 (v >>> (8 * i))

/-- The signed value of the low `w` bits of `v`. -/
def signedOf (w v : Nat) : Int :=
  let u := v % 2 ^ w
  if 2 * u < 2 ^ w then (u : Int) else (u : Int) - 2 ^ w

/-- Adds to a counter that saturates at `2 ^ w - 1`. -/
def satAdd (w a b : Nat) : Nat := min (a + b) (2 ^ w - 1)

end Sys2Proof
end

