-- ==== Sys2Proof/Syntax.lean ====
section
/-! DEFINITION. The commands of the block: one constructor of `Instr` for each row of the opcode table, with the operands the
row's rule names. A row of the instruction set carries the logical core whose sequencer issues it and the operand fields of
its format (R101); a row of an event carries what the event brings from outside the module. -/
namespace Sys2Proof

/-! ### Operand formats of the instruction word (R96, R101). CTRL and reserved bits are kept raw. -/

structure FmtA where
  pred : BitVec 3
  pneg : Bool
  xd : BitVec 6
  xa : BitVec 6
  xb : BitVec 6
  imm : BitVec 32
  deriving DecidableEq, Repr

structure FmtL where
  pred : BitVec 3
  pneg : Bool
  xd : BitVec 6
  imm : BitVec 44
  deriving DecidableEq, Repr

structure FmtB where
  pred : BitVec 3
  pneg : Bool
  off : BitVec 32
  /-- Bits 63 to 46, which the format marks zero. -/
  zero : BitVec 18
  deriving DecidableEq, Repr

structure FmtD where
  pred : BitVec 3
  pneg : Bool
  dA : BitVec 5
  dB : BitVec 5
  dC : BitVec 5
  dD : BitVec 5
  xa : BitVec 6
  xb : BitVec 6
  /-- CTRL, bits 63 to 46 of the word. -/
  ctrl : BitVec 18
  deriving DecidableEq, Repr

structure FmtY where
  pred : BitVec 3
  pneg : Bool
  qmask : BitVec 9
  xa : BitVec 6
  xb : BitVec 6
  imm : BitVec 16
  /-- CTRL, bits 63 to 51 of the word. -/
  ctrl : BitVec 13
  deriving DecidableEq, Repr

/-- What the row NOP carries: a NOP, or a word whose QUEUE and OP no table of R104 defines. The opcode table has no row for such
words, which the sequencer fetches and decodes like any other (R133; DESIGN CHOICE, assumption 16). -/
inductive NopWord where
  | nop (f : FmtA)
  | undef (w : Word)
  deriving DecidableEq, Repr

/-! ### Messages (R34, R306, R322, R343, R373) -/

/-- A frame packet (R34), with the time on the receiver's timebase at which it arrived (R37). -/
structure FramePkt where
  frame : BitVec 48
  hops : Nat
  period : Nat
  emit : Nat
  locked : Bool
  arrival : Nat
  deriving DecidableEq, Repr

/-- STEP_ABORT and the abort request (R322). -/
structure AbortMsg where
  step : Word
  attempt : BitVec 8
  cause : BitVec 8
  code : BitVec 16
  origin : Member
  named : Member
  bucket : BitVec 32
  request : Bool
  deriving DecidableEq, Repr

/-- The kinds of a deadline report and of an abort acknowledgement (R321, R324). -/
inductive LateKind where
  | late | waiting | done
  deriving DecidableEq, Repr

/-- A ready vote, hold, release: member, step and attempt (R53, R437). -/
structure MemberMsg where
  member : Member
  step : Word
  attempt : BitVec 8
  deriving DecidableEq, Repr

/-- A deadline report or abort acknowledgement. -/
structure KindMsg where
  member : Member
  step : Word
  attempt : BitVec 8
  kind : LateKind
  bucket : BitVec 32
  deriving DecidableEq, Repr

/-- A commit, repeat or resume designation (R53, R325, R438). -/
structure Designation where
  step : Word
  attempt : BitVec 8
  frame : Nat
  held : Bool
  escalated : List Member
  deriving DecidableEq, Repr

/-- A snapshot cut request (R409). -/
structure CutReq where
  frame : Nat
  tier1 : Bool
  tier2 : Bool
  snapId : BitVec 32
  deriving DecidableEq, Repr

/-- A reduction packet (R306). -/
structure RedPkt where
  bucket : BitVec 32
  step : BitVec 16
  attempt : BitVec 8
  comp : Bool
  nonfinite : Bool
  /-- STAGE: false reduce, true result. -/
  result : Bool
  packet : Nat
  srcRank : Nat
  lanes : List F32
  check : BitVec 32
  tail : BitVec 32
  deriving DecidableEq, Repr

/-- Where a reduction packet came from (R320, `RDU_LAST_FAIL.SOURCE`). -/
inductive RedSrc where
  | port (n : Fin 16)
  | knuckle (d : Fin 8)
  | hbm
  | adder
  deriving DecidableEq, Repr

/-- A Keyway packet (R343); `row` is empty for the close and refusal kinds. -/
structure KwyPkt where
  kind : Nat
  attempt : BitVec 8
  step : BitVec 16
  epoch : BitVec 16
  layer : Nat
  rank : Nat
  resolved : Bool
  rowType : BitVec 4
  expert : Nat
  dWard : Nat
  dModule : Nat
  dLcore : Nat
  origin : BitVec 32
  sourceRank : Nat
  combine : Nat
  record : Nat
  slot : Nat
  inbox : Nat
  code : BitVec 16
  row : List Byte
  deriving DecidableEq, Repr

/-- The messages of the control class. -/
inductive Ctl where
  | vote (m : MemberMsg)
  | commit (d : Designation)
  | abort (m : AbortMsg)
  | abortAck (m : KindMsg)
  | report (m : KindMsg)
  | repeatD (d : Designation)
  | resume (d : Designation)
  | hold (m : MemberMsg)
  | release (m : MemberMsg)
  | cut (c : CutReq)
  | heartbeat (m : Member)
  | heartbeatAck (m : Member)
  | powerNotice (m : Member)
  | retireNotice (m : Member)
  | mirror (queue : Nat) (seq : Word)
  | mirrorAck (queue : Nat) (seq : Word)
  | feedIds (a b : BitVec 16)
  /-- the completion that a holder returns, and its notice of a transfer that it has abandoned (R418, R419) -/
  | tier1Done (id : BitVec 32)
  | tier1Failed (id : BitVec 32)
  deriving DecidableEq, Repr

/-- What a fabric packet carries (KIND of R373). -/
inductive Body where
  /-- `keep` lists the bits of single bytes of the data that the write leaves as they are, by byte index -/
  | write (addr : Nat) (data : List Byte) (keep : List (Nat × Byte))
  | readReq (addr len : Nat)
  | readData (data : List Byte)
  | writeAck
  | catchSig (word : Word) (amount : BitVec 32)
  | refusal (code : BitVec 16) (addr : Nat)
  | reduction (p : RedPkt)
  | keyway (p : KwyPkt)
  | frame (p : FramePkt)
  | control (c : Ctl)
  /-- `ward`: the flow is that of unresolved Keyway packets to the sender's ward -/
  | deliveryAck (cls count : Nat) (ward : Bool)
  deriving DecidableEq, Repr

/-- A fabric packet: the header of R373 and its payload. -/
structure Packet where
  cls : BitVec 2
  vl : Bool
  hops : Nat
  dest : Member
  destDie : BitVec 4
  srcDie : BitVec 4
  src : Member
  attempt : BitVec 8
  step : BitVec 16
  tag : BitVec 16
  body : Body
  deriving DecidableEq, Repr

/-- A bitting record (R378). -/
structure Bitting where
  magic : BitVec 16
  verMin : Nat
  verMax : Nat
  peerKind : Nat
  port : Nat
  id : BitVec 16
  lanesGood : BitVec 8
  caps : BitVec 8
  deriving DecidableEq, Repr

/-- A codeword that an arriving flit overlaps (R366): whether it begins in this flit, and how many of its symbols are wrong. -/
structure Codeword where
  begins : Bool
  errors : Nat
  deriving DecidableEq, Repr

/-- A write that reaches a die's HBM, as the latch unit sees it (R399, R401). -/
inductive WritePath where
  | stream (lcore : Nat)
  | remote (src : Member)
  | reduction (unit : Nat)
  | core (lcore : Nat)
  | host
  | keyway
  | unit
  deriving DecidableEq, Repr

/-- The readings the Keeper takes in a tick (R499, R546, R552, R540), and the outcome of the step-list step it runs. -/
structure TickIn where
  /-- Quad sensors, 8 per die in die order. -/
  quadC : List (BitVec 8)
  uncoreC : List (BitVec 8)
  stackC : List (BitVec 8)
  hubC : List (BitVec 8)
  inletC : BitVec 8
  outletC : BitVec 8
  drawW : Nat
  dieDraw : List Nat
  /-- Measured frequency of each die in MHz. -/
  mhz : List Nat
  /-- `REF_CLK` against the backup in ppm. -/
  refPpm : Int
  /-- The words read for FEED_ID of feeds A and B; none where the read failed (R584). -/
  feedIdA : Option (BitVec 16)
  feedIdB : Option (BitVec 16)
  /-- Whether the test, command or check of the step-list step run in this tick passed. -/
  stepOk : Bool
  /-- Where a swapped part has failed its self-check, the core, port or die whose previous firmware fails too (R516). -/
  prevBad : Option (Fin 256)
  /-- Errors of the journal store since the last tick: those corrected, and the offsets of those that could not be (R494, R495). -/
  jnlCorrected : Nat
  jnlBad : List Nat
  deriving DecidableEq, Repr

/-- A 10 µs feed sample (R546). -/
structure FeedSample where
  mvA : Nat
  daA : Nat
  mvB : Nat
  daB : Nat
  deriving DecidableEq, Repr

/-- A host access through window MW (R272): a read of `len` bytes, or a write of bytes. -/
inductive MwAccess where
  | read (off len : Nat)
  | write (off : Nat) (data : List Byte)
  deriving DecidableEq, Repr

/-- A snapshot that comes from another module (R413, R414, R418, R452): the outcome of the checks of its hashes, its header and
sections, and the bytes of its data section by address. -/
structure SnapIn where
  headOk : Bool
  tableOk : Bool
  version : Nat
  id : BitVec 32
  module : Member
  frame : Nat
  next : Nat
  hash : List Byte
  cursor : Word
  lcores : Nat
  streams : List (List (Nat × Word))
  journal : List (Nat × Word × Word)
  extents : List (Nat × Nat)
  data : List (Nat × List Byte)
  deriving DecidableEq, Repr

/-- A namespace that the enumeration of archive port A finds (R420, R421): controller, id, bytes of an LBA, LBAs. -/
structure NsInfo where
  ctrl : Nat
  nsid : Nat
  lbaBytes : Nat
  lbas : Nat
  deriving DecidableEq, Repr

/-- A memory request of an NVMe controller (R420). -/
inductive ArcReq where
  | read (addr len : Nat)
  | write (addr : Nat) (data : List Byte)
  /-- An uncorrectable error that the port's AER finds. -/
  | error
  deriving DecidableEq, Repr

/-- The end of an NVMe command (R423): well or with an error, after the requests that the controllers made. -/
structure NvmeEnd where
  ok : Bool
  reqs : List ArcReq
  deriving DecidableEq, Repr

/-- A module from which no heartbeat came, and what the root says of it (R447): whether the root is silent too, and whether another
module holds it as its partner. -/
structure Silence where
  member : Member
  rootSilent : Bool
  paired : Bool
  deriving DecidableEq, Repr

/-- The kinds of host-port reset that R459 treats as loss of the host. -/
inductive LossCause where
  | link | hotReset | flr | d3hot
  deriving DecidableEq, Repr

/-- The commands: one constructor per row of the opcode table. -/
inductive Instr where
  -- frames, steps, snapshots, scheduled events
  | frameBoundary
  | frameInEdge (e : Nat)
  | framePacket (port : Fin 16) (p : FramePkt)
  | correctionWindowClose
  | readyVote
  | readyVoteReceived (m : MemberMsg)
  | commitDesignation (d : Designation)
  | commitBoundary
  | stepOpens
  | poolWaitExpiry
  | snapshotCut
  | collectiveLaunch (c : Fin 256)
  | fwaitFires (c : Fin 256)
  | loopWindowOpen (w : Fin 4)
  | loopWindowClose (w : Fin 4)
  | queryDeadlineExpiry (q : Fin 32) (seq : Word)
  | contributionDeadline (bucket : BitVec 32)
  | deadlineReport (m : KindMsg)
  | abortRequest (m : AbortMsg)
  | stepAbort (m : AbortMsg)
  | abortAcknowledgement (m : KindMsg)
  | collectionClose
  | repeatDesignation (d : Designation)
  | repeatOpen
  | recoveryHold (m : MemberMsg)
  | recoveryRelease (m : MemberMsg)
  | resumeDesignation (d : Designation)
  | loadTicket (q : Fin 32) (seq : Word)
  | postTicket (q : Fin 32) (seq : Word)
  | stopTicket (q : Fin 32) (seq : Word)
  | queryTicket (q : Fin 32) (seq : Word)
  | doublingSwap (phys : Fin 256)
  -- S queue
  | nop (c : Fin 256) (f : NopWord)
  | add (c : Fin 256) (f : FmtA)
  | sub (c : Fin 256) (f : FmtA)
  | and (c : Fin 256) (f : FmtA)
  | or (c : Fin 256) (f : FmtA)
  | xor (c : Fin 256) (f : FmtA)
  | shl (c : Fin 256) (f : FmtA)
  | shr (c : Fin 256) (f : FmtA)
  | sra (c : Fin 256) (f : FmtA)
  | mul (c : Fin 256) (f : FmtA)
  | mulhu (c : Fin 256) (f : FmtA)
  | min (c : Fin 256) (f : FmtA)
  | max (c : Fin 256) (f : FmtA)
  | li (c : Fin 256) (f : FmtL)
  | lui (c : Fin 256) (f : FmtL)
  | cmp (c : Fin 256) (f : FmtA)
  | plog (c : Fin 256) (f : FmtA)
  | ld (c : Fin 256) (f : FmtA)
  | st (c : Fin 256) (f : FmtA)
  | br (c : Fin 256) (f : FmtB)
  | brr (c : Fin 256) (f : FmtA)
  | call (c : Fin 256) (f : FmtB)
  | dld (c : Fin 256) (f : FmtD)
  | dst (c : Fin 256) (f : FmtD)
  | dins (c : Fin 256) (f : FmtD)
  | dext (c : Fin 256) (f : FmtD)
  | dmov (c : Fin 256) (f : FmtD)
  | dadv (c : Fin 256) (f : FmtD)
  | halt (c : Fin 256) (f : FmtA)
  | detent (c : Fin 256) (f : FmtY)
  | detentRelease (c : Fin 256)
  -- M queue
  | mma (c : Fin 256) (f : FmtD)
  | drain (c : Fin 256) (f : FmtD)
  | scaleRecordRead (c : Fin 256)
  | drainComplete (c : Fin 256)
  | hinge (c : Fin 256) (f : FmtD)
  | aclr (c : Fin 256) (f : FmtD)
  -- T queue
  | tkeys (c : Fin 256) (f : FmtD)
  | tprobe (c : Fin 256) (f : FmtD)
  | tclr (c : Fin 256) (f : FmtD)
  | tcap (c : Fin 256) (f : FmtD)
  -- V queue
  | vadd (c : Fin 256) (f : FmtD)
  | vsub (c : Fin 256) (f : FmtD)
  | vmul (c : Fin 256) (f : FmtD)
  | vfma (c : Fin 256) (f : FmtD)
  | vmin (c : Fin 256) (f : FmtD)
  | vmax (c : Fin 256) (f : FmtD)
  | vcmp (c : Fin 256) (f : FmtD)
  | vexp2 (c : Fin 256) (f : FmtD)
  | vlog2 (c : Fin 256) (f : FmtD)
  | vrsqrt (c : Fin 256) (f : FmtD)
  | vrcp (c : Fin 256) (f : FmtD)
  | vpadd (c : Fin 256) (f : FmtD)
  | vpred (c : Fin 256) (f : FmtD)
  | vpfold (c : Fin 256) (f : FmtD)
  | vpack (c : Fin 256) (f : FmtD)
  | vunpack (c : Fin 256) (f : FmtD)
  | vres (c : Fin 256) (f : FmtD)
  | vresadd (c : Fin 256) (f : FmtD)
  -- X queue
  | xload (c : Fin 256) (f : FmtD)
  | xstore (c : Fin 256) (f : FmtD)
  | xgather (c : Fin 256) (f : FmtD)
  | xscatter (c : Fin 256) (f : FmtD)
  | xpose (c : Fin 256) (f : FmtD)
  | xcopy (c : Fin 256) (f : FmtD)
  | stagingRead (c : Fin 256)
  | xTransferComplete (c : Fin 256)
  | remoteRefusal (c : Fin 256) (tag : BitVec 16) (code : BitVec 16) (addr : Nat)
  -- K queue
  | kroute (c : Fin 256) (f : FmtD)
  | ksendDispatch (c : Fin 256) (f : FmtD)
  | ksendAnswer (c : Fin 256) (f : FmtD)
  | kcomb (c : Fin 256) (f : FmtD)
  | kcombResumes (c : Fin 256)
  | kepoch (c : Fin 256) (f : FmtD)
  | kepochComplete (c : Fin 256)
  -- G queue
  | gred (c : Fin 256) (f : FmtD)
  | gallg (c : Fin 256) (f : FmtD)
  | gbcast (c : Fin 256) (f : FmtD)
  -- F queue
  | stepOpen (c : Fin 256) (f : FmtA)
  | stepCommit (c : Fin 256) (f : FmtA)
  | fwait (c : Fin 256) (f : FmtY)
  | fnow (c : Fin 256) (f : FmtA)
  -- C queue
  | csig (c : Fin 256) (f : FmtY)
  | csigSend (c : Fin 256)
  | cwait (c : Fin 256) (f : FmtY)
  | cwaitEnds (c : Fin 256) (idx : Fin 128)
  | cset (c : Fin 256) (f : FmtY)
  | cread (c : Fin 256) (f : FmtY)
  | catchSignal (word : Word) (amount : BitVec 32)
  | catchRefusal (c : Fin 256) (offset : Nat)
  -- core hardware
  | arrayHw (phys : Fin 256) (structure_ : BitVec 8)
  | accEccCorr (phys : Fin 256)
  | tbHw (phys : Fin 256) (engine : Bool)
  | tbEccCorr (phys : Fin 256)
  | scrEccCorr (phys : Fin 256)
  | scrHw (phys : Fin 256) (bank : Fin 48)
  | coreHw (phys : Fin 256)
  | portTurnPass (phys : Fin 256)
  -- memory
  | mwAccess (n : Fin 2) (a : MwAccess)
  | memCe (addr : Nat)
  | memUe (addr : Nat) (c : Option (Fin 256))
  | rowHammerRefresh (stack : Fin 32) (row : Nat)
  -- reduction
  | reductionPacket (d : Fin 8) (src : RedSrc) (p : RedPkt)
  | gredComplete (c : Fin 256)
  -- Keyway
  | keywayResolve (d : Fin 8) (p : KwyPkt)
  | dispatchArrival (d : Fin 8) (p : KwyPkt)
  | closeArrival (d : Fin 8) (p : KwyPkt)
  | answerArrival (d : Fin 8) (p : KwyPkt)
  | keywayRefusal (d : Fin 8) (p : KwyPkt)
  | kwHw (d : Fin 8)
  -- fabric
  | flitReceived (port : Fin 16) (flit : FlitBits) (cws : List Codeword)
  | retryTimeout (port : Fin 16)
  | progressTimeout (port : Fin 16)
  | laneFault (port : Fin 16) (lane : Fin 8)
  | fastRetrainDone (port : Fin 16) (lanes : BitVec 8) (recs : List Bitting) (delays : List Nat)
  | bringupStageDone (port : Fin 16) (lanes : BitVec 8) (delays : List Nat)
  | bittingRecord (port : Fin 16) (rec : Bitting)
  | bringupTimeout (port : Fin 16)
  | linkDown (port : Fin 16)
  | fabricPacket (arrivedOn : Option (Fin 16)) (p : Packet)
  | remoteWrite (port : Fin 16) (p : Packet)
  | remoteRead (port : Fin 16) (p : Packet)
  | readData (p : Packet)
  | writeAck (p : Packet)
  | deliveryAck (p : Packet)
  | retrain (port : Fin 16)
  -- latch and snapshots
  | firstTouch (addr : Nat) (data : List Byte) (path : WritePath)
  | latchCopyDone (d : Fin 8) (granule : Nat)
  | latchRestore
  | latchRestoreDone
  | latCut (value : Word)
  | cutRequest (r : CutReq)
  | tier1TransferDone (hashesOk : Bool) (snap : SnapIn)
  | tier1Completion (id : BitVec 32)
  | archiveLinkDown
  /-- `reqs`: the memory requests that the controllers have made of the port before -/
  | nvmeCompletion (e : NvmeEnd)
  -- failures
  | uncoreHw (d : Fin 8) (part : BitVec 8)
  | heartbeat (m : Member)
  /-- `rootSilent`: the root has not heard it either; `paired`: it has a tier-1 partner -/
  | heartbeatSilence (m : Silence)
  | ackSilence
  | noPortUpTimeout
  | powerNotice (m : Member)
  | retirementNotice (m : Member)
  | adoptionPullDone (partner : Member) (snap : Option SnapIn) (mirror : List (Fin 32 × BitVec 8 × Ticket × BitVec 16))
  -- tickets and hosts
  | sqTail (n : Fin 2) (q : Fin 32) (tail : BitVec 8) (slots : List (BitVec 8 × Ticket))
  | ticketRead (q : Fin 32)
  | mirrorEntry (q : Fin 32) (seq : Word) (t : Ticket) (state : BitVec 8) (status : BitVec 16)
  | mirrorAck (q : Fin 32)
  | mirrorTimeout (q : Fin 32)
  | slotDone (slot : Nat)
  | cqHead (n : Fin 2) (q : Fin 32) (head : BitVec 16)
  | msiGapExpiry (n : Fin 2) (vec : Fin 64)
  | hostHeartbeat (n : Fin 2) (value : BitVec 32)
  | hostHbSilence (n : Fin 2)
  | hostLinkLoss (n : Fin 2) (cause : LossCause)
  | take (n : Fin 2) (q : Fin 32)
  | resume (n : Fin 2) (q : Fin 32)
  -- Keeper
  | keeperTick (i : TickIn)
  | kprLockstep
  | keeperRestarted
  | csOpen (n : Fin 2) (tag : BitVec 8)
  | csCommit (n : Fin 2) (tag : BitVec 8)
  | csAbandon (n : Fin 2) (tag : BitVec 8)
  | restart (n : Fin 2) (tag : BitVec 8)
  | swapMicrocode (n : Fin 2) (tag : BitVec 8)
  | swapPortFw (n : Fin 2) (tag : BitVec 8)
  | swapUncoreFw (n : Fin 2) (tag : BitVec 8)
  | scrubPass (n : Fin 2) (tag : BitVec 8)
  | cmdUndefined (n : Fin 2) (cmd : BitVec 8) (tag : BitVec 8)
  | rsWrite (n : Fin 2) (addr : Nat) (value : Word) (size : Nat)
  | csApplyPoint
  | csStrobe
  | quiesceTimeout
  | errorRingRelease (fatal : Bool) (head : BitVec 16)
  -- clocks, power, thermal
  | refClkLost
  | refClkRestored
  | coastTimeout
  | powerSample (f : FeedSample)
  | feedLoss (feedB : Bool)
  | feedRestored (feedB : Bool)
  | domainSwitchDone (dom : Fin 80)
  | railTimeout (dom : Fin 80)
  | thermTrip (d : Option (Fin 8)) (sensor : BitVec 8)
  | thermTripClear (d : Option (Fin 8))
  | thermShutdown
  -- boot and security
  | fwStage (n : Fin 2) (tag : BitVec 8)
  | fwWrite (n : Fin 2) (tag : BitVec 8)
  | fwSelect (n : Fin 2) (tag : BitVec 8)
  | keygen (n : Fin 2) (tag : BitVec 8)
  | svnCommit (n : Fin 2) (tag : BitVec 8)
  | getVersion (e : Fin 3)
  | getCapabilities (e : Fin 3)
  | negotiateAlgorithms (e : Fin 3)
  | getDigests (e : Fin 3)
  | getCertificate (e : Fin 3) (slot : BitVec 8) (offset len : Nat)
  | challenge (e : Fin 3) (slot : BitVec 8) (nonce : BitVec 256)
  | getMeasurements (e : Fin 3) (index : BitVec 8) (signed : Bool) (nonce : BitVec 256)
  | spdmUnsupported (e : Fin 3) (code : BitVec 8)
  | powerUp (straps : BitVec 2) (feedA feedB : Bool)
  | perst (n : Fin 2)
  | modRstN
  | powerLoss
  | registerWrite (n : Fin 2) (addr : Nat) (value : Word) (size : Nat)
  | badRegisterAccess (n : Fin 2) (addr : Nat) (size : Nat) (write : Bool)
  -- completions named by rows of their own
  | mmaComplete (c : Fin 256)
  | hingeComplete (c : Fin 256)
  | tkeysComplete (c : Fin 256)
  | tprobeComplete (c : Fin 256)
  | ksendComplete (c : Fin 256)
  | scalarLoadReturn (c : Fin 256)
  | hostLinkUp (n : Fin 2)
  | perstRelease (n : Fin 2)
  | modRstNRelease
  | perstaNRelease
  | archiveLinkUp (controllers : Nat) (found : List NsInfo) (reqs : List ArcReq)
  | ackGapExpiry (d : Fin 8) (flow : Member) (cls : BitVec 2)
  | clkBackupBad
  deriving DecidableEq, Repr

end Sys2Proof
end

