-- ==== Sys2Proof/Decode.lean ====
section
/-! DEFINITION. The instruction word (R96, R97, R101) and the operations it names (R104, R117). The rows of the opcode table give no
bits of their own: the rows of the instruction set are spelled by the words of R96, decoded here for a logical core. -/
namespace Sys2Proof

/-! ### Common fields of the instruction word (R96) -/

def wQueue (w : Word) : Nat := (w.extractLsb' 0 4).toNat
def wOp (w : Word) : Nat := (w.extractLsb' 4 6).toNat
def wPred (w : Word) : BitVec 3 := w.extractLsb' 10 3
def wPneg (w : Word) : Bool := w.getLsbD 13

/-! ### Formats (R101) -/

def wordA (w : Word) : FmtA :=
  ⟨wPred w, wPneg w, w.extractLsb' 14 6, w.extractLsb' 20 6, w.extractLsb' 26 6, w.extractLsb' 32 32⟩
def wordL (w : Word) : FmtL := ⟨wPred w, wPneg w, w.extractLsb' 14 6, w.extractLsb' 20 44⟩
def wordB (w : Word) : FmtB := ⟨wPred w, wPneg w, w.extractLsb' 14 32, w.extractLsb' 46 18⟩
def wordD (w : Word) : FmtD :=
  ⟨wPred w, wPneg w, w.extractLsb' 14 5, w.extractLsb' 19 5, w.extractLsb' 24 5, w.extractLsb' 29 5, w.extractLsb' 34 6,
    w.extractLsb' 40 6, w.extractLsb' 46 18⟩
def wordY (w : Word) : FmtY :=
  ⟨wPred w, wPneg w, w.extractLsb' 14 9, w.extractLsb' 23 6, w.extractLsb' 29 6, w.extractLsb' 35 16, w.extractLsb' 51 13⟩

/-! ### Operations (R104, R117) -/

/-- The S queue. -/
def decodeS (c : Fin 256) (w : Word) : Option Instr :=
  let a := wordA w
  let d := wordD w
  match wOp w with
  | 0x00 => some (.nop c (.nop a))
  | 0x01 => some (.add c a)
  | 0x02 => some (.sub c a)
  | 0x03 => some (.and c a)
  | 0x04 => some (.or c a)
  | 0x05 => some (.xor c a)
  | 0x06 => some (.shl c a)
  | 0x07 => some (.shr c a)
  | 0x08 => some (.sra c a)
  | 0x09 => some (.mul c a)
  | 0x0A => some (.mulhu c a)
  | 0x0B => some (.min c a)
  | 0x0C => some (.max c a)
  | 0x10 => some (.li c (wordL w))
  | 0x11 => some (.lui c (wordL w))
  | 0x18 => some (.cmp c a)
  | 0x19 => some (.plog c a)
  | 0x20 => some (.ld c a)
  | 0x21 => some (.st c a)
  | 0x28 => some (.br c (wordB w))
  | 0x29 => some (.brr c a)
  | 0x2A => some (.call c (wordB w))
  | 0x30 => some (.dld c d)
  | 0x31 => some (.dst c d)
  | 0x32 => some (.dins c d)
  | 0x33 => some (.dext c d)
  | 0x34 => some (.dmov c d)
  | 0x35 => some (.dadv c d)
  | 0x3E => some (.halt c a)
  | 0x3F => some (.detent c (wordY w))
  | _ => none

/-- The M, T and V queues. -/
def decodeMTV (c : Fin 256) (w : Word) : Option Instr :=
  let d := wordD w
  match wQueue w, wOp w with
  | 1, 0x00 => some (.mma c d)
  | 1, 0x01 => some (.drain c d)
  | 1, 0x02 => some (.hinge c d)
  | 1, 0x03 => some (.aclr c d)
  | 2, 0x00 => some (.tkeys c d)
  | 2, 0x01 => some (.tprobe c d)
  | 2, 0x02 => some (.tclr c d)
  | 2, 0x03 => some (.tcap c d)
  | 3, 0x00 => some (.vadd c d)
  | 3, 0x01 => some (.vsub c d)
  | 3, 0x02 => some (.vmul c d)
  | 3, 0x03 => some (.vfma c d)
  | 3, 0x04 => some (.vmin c d)
  | 3, 0x05 => some (.vmax c d)
  | 3, 0x06 => some (.vcmp c d)
  | 3, 0x08 => some (.vexp2 c d)
  | 3, 0x09 => some (.vlog2 c d)
  | 3, 0x0A => some (.vrsqrt c d)
  | 3, 0x0B => some (.vrcp c d)
  | 3, 0x10 => some (.vpadd c d)
  | 3, 0x11 => some (.vpred c d)
  | 3, 0x12 => some (.vpfold c d)
  | 3, 0x18 => some (.vpack c d)
  | 3, 0x19 => some (.vunpack c d)
  | 3, 0x20 => some (.vres c d)
  | 3, 0x21 => some (.vresadd c d)
  | _, _ => none

/-- The X, C, K, G and F queues. KSEND is two rows, by its control bit DIR. -/
def decodeXCKGF (c : Fin 256) (w : Word) : Option Instr :=
  let a := wordA w
  let d := wordD w
  let y := wordY w
  match wQueue w, wOp w with
  | 4, 0x00 => some (.xload c d)
  | 4, 0x01 => some (.xstore c d)
  | 4, 0x02 => some (.xgather c d)
  | 4, 0x03 => some (.xscatter c d)
  | 4, 0x04 => some (.xpose c d)
  | 4, 0x05 => some (.xcopy c d)
  | 5, 0x00 => some (.csig c y)
  | 5, 0x01 => some (.cwait c y)
  | 5, 0x02 => some (.cset c y)
  | 5, 0x03 => some (.cread c y)
  | 6, 0x00 => some (.kroute c d)
  | 6, 0x01 => some (if d.ctrl.getLsbD 0 then .ksendAnswer c d else .ksendDispatch c d)
  | 6, 0x02 => some (.kcomb c d)
  | 6, 0x03 => some (.kepoch c d)
  | 7, 0x00 => some (.gred c d)
  | 7, 0x01 => some (.gallg c d)
  | 7, 0x02 => some (.gbcast c d)
  | 8, 0x00 => some (.stepOpen c a)
  | 8, 0x01 => some (.stepCommit c a)
  | 8, 0x02 => some (.fwait c y)
  | 8, 0x03 => some (.fnow c a)
  | _, _ => none

/-- The instruction that a word names for logical core `c`; none where no table defines its QUEUE and OP. -/
def decodeWord (c : Fin 256) (w : Word) : Option Instr :=
  let q := wQueue w
  if q = 0 then decodeS c w else if q < 4 then decodeMTV c w else decodeXCKGF c w

/-- The command by which logical core `c` issues a word: every word has one. -/
def wordInstr (c : Fin 256) (w : Word) : Instr := (decodeWord c w).getD (.nop c (.undef w))

/-- The command that a word spells: an instruction word of 64 bits as logical core 0 issues it. The other rows of the table have no
words. -/
def decodeTableWord (nbits w : Nat) : Option Instr := if nbits = 64 then some (wordInstr 0 (BitVec.ofNat 64 w)) else none

end Sys2Proof
end

