-- ==== Sys2Proof/Machine/Num.lean ====
section
/-! DEFINITION. Exact arithmetic on binary fractions and its one rounding into each element format (R9, R106, R177 to R181,
R188, R192, R203, R610). A value is read from its bits, computed exactly, and narrowed once. -/
namespace Sys2Proof.Machine

/-- A value of a format: NaN, a signed infinity, or the exact number `(-1)^neg * m * 2^e`. -/
inductive Val where
  | nan
  | inf (neg : Bool)
  | fin (neg : Bool) (m : Nat) (e : Int)
  deriving DecidableEq, Repr

/-- An exact binary fraction `m * 2^e`. -/
structure Dy where
  m : Int
  e : Int
  deriving DecidableEq, Repr

def dyZero : Dy := ⟨0, 0⟩

/-- Sum of two binary fractions, exact. -/
def Dy.add (a b : Dy) : Dy :=
  let e := min a.e b.e
  ⟨a.m * 2 ^ (a.e - e).toNat + b.m * 2 ^ (b.e - e).toNat, e⟩

def Dy.mul (a b : Dy) : Dy := ⟨a.m * b.m, a.e + b.e⟩
def Dy.neg (a : Dy) : Dy := ⟨-a.m, a.e⟩
def Dy.sub (a b : Dy) : Dy := a.add b.neg
/-- Multiplication by a power of two. -/
def Dy.scale (a : Dy) (k : Int) : Dy := ⟨a.m, a.e + k⟩
/-- `a < b`, exactly. -/
def Dy.lt (a b : Dy) : Bool := (a.sub b).m < 0

/-- The number of a finite value. -/
def Val.dy : Val → Dy
  | .fin n m e => ⟨if n then -(m : Int) else m, e⟩
  | _ => dyZero

def Val.isNan : Val → Bool
  | .nan => true
  | _ => false

def Val.isInf : Val → Bool
  | .inf _ => true
  | _ => false

def Val.isFin : Val → Bool
  | .fin _ _ _ => true
  | _ => false

def Val.sign : Val → Bool
  | .nan => false
  | .inf n => n
  | .fin n _ _ => n

/-- `floor(log2 (m * 2^e))` for `m` above 0. -/
def topExp (m : Nat) (e : Int) : Int := (Nat.log2 m : Int) + e

/-- `floor(m * 2^e / 2^q)`, and whether anything was cut off. -/
def quantFloor (m : Nat) (e q : Int) : Nat × Bool :=
  if q ≤ e then (m * 2 ^ (e - q).toNat, false)
  else
    let s := (q - e).toNat
    if Nat.log2 m + 1 < s then (0, m != 0)
    else (m >>> s, m % 2 ^ s != 0)

/-- `m * 2^e / 2^q` to the nearest integer, ties to even. -/
def quantRne (m : Nat) (e q : Int) : Nat :=
  if q ≤ e then m * 2 ^ (e - q).toNat
  else
    let s := (q - e).toNat
    if Nat.log2 m + 1 < s then 0
    else
      let k := m >>> s
      let r := m % 2 ^ s
      let h := 2 ^ (s - 1)
      if r > h ∨ (r = h ∧ k % 2 = 1) then k + 1 else k

/-! ### IEEE binary formats: FP32, BF16, FP16 (R9) -/

/-- The value of an IEEE bit pattern with `eb` exponent and `fb` fraction bits. -/
def ieeeVal (eb fb : Nat) (b : Nat) : Val :=
  let neg := b.testBit (eb + fb)
  let ex := (b >>> fb) % 2 ^ eb
  let f := b % 2 ^ fb
  let bias : Int := 2 ^ (eb - 1) - 1
  if ex = 2 ^ eb - 1 then (if f = 0 then .inf neg else .nan)
  else if ex = 0 then .fin neg f (1 - bias - fb)
  else .fin neg (f + 2 ^ fb) ((ex : Int) - bias - fb)

/-- Rounds `(-1)^neg * m * 2^e` to nearest even into an IEEE format: subnormals kept, overflow to the signed infinity. -/
def ieeeRound (eb fb : Nat) (neg : Bool) (m : Nat) (e : Int) : Nat :=
  let bias : Int := 2 ^ (eb - 1) - 1
  let qmin : Int := 1 - bias - fb
  let sb := if neg then 2 ^ (eb + fb) else 0
  if m = 0 then sb
  else
    let q := max (topExp m e - fb) qmin
    let k := quantRne m e q
    let (k, q) := if k = 2 ^ (fb + 1) then (2 ^ fb, q + 1) else (k, q)
    if k < 2 ^ fb then sb + k
    else
      let ex := q + fb + bias
      if ex ≥ 2 ^ eb - 1 then sb + (2 ^ eb - 1) * 2 ^ fb
      else sb + ex.toNat * 2 ^ fb + (k - 2 ^ fb)

/-- The quiet NaN of R181 and R610. -/
def qnan : F32 := 0x7FC00000
def f32Zero : F32 := 0

def f32Val (b : F32) : Val := ieeeVal 8 23 b.toNat
def bf16Val (b : Nat) : Val := ieeeVal 8 7 b
def fp16Val (b : Nat) : Val := ieeeVal 5 10 b

/-- `rne32` (R177): one rounding to FP32, to nearest even. -/
def f32Of : Val → F32
  | .nan => qnan
  | .inf n => if n then 0xFF800000 else 0x7F800000
  | .fin n m e => BitVec.ofNat 32 (ieeeRound 8 23 n m e)

/-- Rounds an exact fraction to FP32; an exact zero takes the sign `zneg`. -/
def rne32z (zneg : Bool) (a : Dy) : F32 :=
  if a.m = 0 then f32Of (.fin zneg 0 0)
  else f32Of (.fin (decide (a.m < 0)) a.m.natAbs a.e)

def rne32 (a : Dy) : F32 := rne32z false a

def f32IsNan (b : F32) : Bool := (f32Val b).isNan
def f32IsInf (b : F32) : Bool := (f32Val b).isInf

/-- Sum of two values, exact where both are finite (IEEE 754 special cases; an exact zero is −0 only for two −0). -/
def Val.add (a b : Val) : Val :=
  match a, b with
  | .nan, _ => .nan
  | _, .nan => .nan
  | .inf n, .inf n' => if n = n' then .inf n else .nan
  | .inf n, _ => .inf n
  | _, .inf n => .inf n
  | .fin n m e, .fin n' m' e' =>
    let s := (Val.fin n m e).dy.add (Val.fin n' m' e').dy
    if s.m = 0 then .fin (n && n' && decide (m = 0 ∧ m' = 0)) 0 0
    else .fin (decide (s.m < 0)) s.m.natAbs s.e

def Val.neg : Val → Val
  | .nan => .nan
  | .inf n => .inf (!n)
  | .fin n m e => .fin (!n) m e

/-- Product of two values, exact where both are finite. -/
def Val.mul (a b : Val) : Val :=
  match a, b with
  | .nan, _ => .nan
  | _, .nan => .nan
  | .inf n, .fin n' m _ => if m = 0 then .nan else .inf (n != n')
  | .fin n m _, .inf n' => if m = 0 then .nan else .inf (n != n')
  | .inf n, .inf n' => .inf (n != n')
  | .fin n m e, .fin n' m' e' => .fin (n != n') (m * m') (e + e')

/-- Multiplication of a value by a power of two. -/
def Val.scale : Val → Int → Val
  | .nan, _ => .nan
  | .inf n, _ => .inf n
  | .fin n m e, k => .fin n m (e + k)

def fadd (a b : F32) : F32 := f32Of ((f32Val a).add (f32Val b))
def fsub (a b : F32) : F32 := f32Of ((f32Val a).add (f32Val b).neg)
def fmul (a b : F32) : F32 := f32Of ((f32Val a).mul (f32Val b))
/-- `a * b + c` with one rounding. -/
def ffma (a b c : F32) : F32 := f32Of (((f32Val a).mul (f32Val b)).add (f32Val c))

/-- Order of two values that are no NaN; −0 and +0 compare equal. -/
def Val.lt (a b : Val) : Bool :=
  match a, b with
  | .nan, _ => false
  | _, .nan => false
  | .inf n, .inf n' => n && !n'
  | .inf n, _ => n
  | _, .inf n => !n
  | a, b => a.dy.lt b.dy

def Val.eq (a b : Val) : Bool := !a.isNan && !b.isNan && !a.lt b && !b.lt a

/-- `a` ordered below `b` with −0 below +0 (R610). -/
def ltZ (a b : F32) : Bool :=
  (f32Val a).lt (f32Val b) || ((f32Val a).eq (f32Val b) && (f32Val a).sign && !(f32Val b).sign)

/-- VMIN and VMAX (R610). -/
def fmin (a b : F32) : F32 := if f32IsNan a || f32IsNan b then qnan else if ltZ b a then b else a
def fmax (a b : F32) : F32 := if f32IsNan a || f32IsNan b then qnan else if ltZ a b then b else a

/-! ### Correctly rounded functions (R106)

An irrational result lies strictly between two neighbouring multiples of `2^-k`; its rounding is that of the odd multiple of
`2^-(k+1)` between them, once `k` exceeds every rounding boundary. -/

/-- The first `s` fraction bits of `log2 y` for a `y` in `[1, 2)` held between `lo` and `hi` in units of `2^-P`; none where
the interval is too wide to decide a bit. -/
def logBits (P : Nat) : Nat → Nat → Nat → Nat → Option Nat
  | 0, _, _, acc => some acc
  | s + 1, lo, hi, acc =>
    let lo' := (lo * lo) >>> P
    let hi' := (hi * hi + 2 ^ P - 1) >>> P
    if lo' ≥ 2 ^ (P + 1) then logBits P s (lo' / 2) ((hi' + 1) / 2) (2 * acc + 1)
    else if hi' < 2 ^ (P + 1) then logBits P s lo' hi' (2 * acc)
    else none

/-- The same bits by exact squaring of `num / 2^k`. -/
def logBitsExact : Nat → Nat → Nat → Nat → Nat
  | 0, _, _, acc => acc
  | s + 1, num, k, acc =>
    if num * num ≥ 2 ^ (2 * k + 1) then logBitsExact s (num * num) (2 * k + 1) (2 * acc + 1)
    else logBitsExact s (num * num) (2 * k) (2 * acc)

/-- `floor(2^s * log2 (num / 2^k))` for `num / 2^k` in `[1, 2)`. -/
def log2Floor (s num k : Nat) : Nat :=
  let P := 2 * s + 128 + k
  match logBits P s (num * 2 ^ (P - k)) (num * 2 ^ (P - k)) 0 with
  | some v => v
  | none => logBitsExact s num k 0

/-- log2 of a positive `m * 2^e`, rounded once (VLOG2). -/
def log2Pos (m : Nat) (e : Int) : F32 :=
  let k := Nat.log2 m
  let ex : Int := k + e
  if m = 2 ^ k then rne32 ⟨ex, 0⟩
  else rne32 ⟨ex * 2 ^ 97 + (2 * log2Floor 96 m k + 1 : Nat), -97⟩

def flog2 (a : F32) : F32 :=
  match f32Val a with
  | .nan => qnan
  | .inf true => qnan
  | .inf false => 0x7F800000
  | .fin n m e => if m = 0 then 0xFF800000 else if n then qnan else log2Pos m e

/-- The largest `M` below `2^(K+1)`, found bit by bit from `b`, with `M / 2^K ≤ 2^(n / 2^s)`. -/
def exp2Search (K s n : Nat) : Nat → Nat → Nat
  | 0, M => M
  | b + 1, M =>
    let M' := M + 2 ^ b
    exp2Search K s n b (if log2Floor s M' K < n then M' else M)

/-- 2^a for a finite `a = (-1)^neg * m * 2^e`, rounded once (VEXP2). -/
def exp2Fin (neg : Bool) (m : Nat) (e : Int) : F32 :=
  if m = 0 then 0x3F800000
  else if topExp m e ≥ 8 then (if neg then 0 else 0x7F800000)
  else if e ≥ 0 then
    let v : Int := (if neg then -(m : Int) else m) * 2 ^ e.toNat
    rne32 ⟨1, v⟩
  else
    let s := (-e).toNat
    let v : Int := if neg then -(m : Int) else m
    let i := v / 2 ^ s
    let n := (v % 2 ^ s).toNat
    if n = 0 then rne32 ⟨1, i⟩
    else
      let K := 40
      let M := exp2Search K s n K (2 ^ K)
      rne32 ⟨(2 * M + 1 : Nat), i - (K + 1)⟩

def fexp2 (a : F32) : F32 :=
  match f32Val a with
  | .nan => qnan
  | .inf n => if n then 0 else 0x7F800000
  | .fin n m e => exp2Fin n m e

/-- 1/a, rounded once (VRCP). -/
def frcp (a : F32) : F32 :=
  match f32Val a with
  | .nan => qnan
  | .inf n => if n then 0x80000000 else 0
  | .fin n m e =>
    if m = 0 then (if n then 0xFF800000 else 0x7F800000)
    else
      let q := 2 ^ 80 / m
      f32Of (.fin n (2 * q + (if 2 ^ 80 % m = 0 then 0 else 1)) (-e - 81))

/-- 1/√a, rounded once (VRSQRT). -/
def frsqrt (a : F32) : F32 :=
  match f32Val a with
  | .nan => qnan
  | .inf n => if n then qnan else 0
  | .fin n m e =>
    if m = 0 then (if n then 0xFF800000 else 0x7F800000)
    else if n then qnan
    else
      -- an even exponent, then floor(2^80 / √m)
      let (m, e) := if e % 2 = 0 then (m, e) else (2 * m, e - 1)
      let q := Nat.sqrt (2 ^ 160 / m)
      f32Of (.fin false (2 * q + (if q * q * m = 2 ^ 160 then 0 else 1)) (-(e / 2) - 81))

/-! ### Element formats (R9, R192) -/

/-- Element size in bits (R9). -/
def typeBits (ty : Nat) : Nat :=
  match ty with
  | 0 => 32
  | 1 => 16
  | 2 => 16
  | 5 => 6
  | 6 => 6
  | 7 => 4
  | 0xD => 6
  | 0xE => 6
  | 0xF => 4
  | _ => 8

def typeIsMx (ty : Nat) : Bool := ty ≥ 0xB && ty ≤ 0xF
def typeReserved (ty : Nat) : Bool := ty == 9 || ty == 0xA

/-- The plain format of an MX type. -/
def typePlain (ty : Nat) : Nat := if typeIsMx ty then ty - 8 else ty

/-- Value of a small format without infinities: sign, `eb` exponent and `fb` fraction bits. -/
def smallVal (eb fb : Nat) (b : Nat) : Val :=
  let neg := b.testBit (eb + fb)
  let ex := (b >>> fb) % 2 ^ eb
  let f := b % 2 ^ fb
  let bias : Int := 2 ^ (eb - 1) - 1
  if ex = 0 then .fin neg f (1 - bias - fb) else .fin neg (f + 2 ^ fb) ((ex : Int) - bias - fb)

/-- The value of an element of type `ty` (R9). -/
def elemVal (ty b : Nat) : Val :=
  match typePlain ty with
  | 0 => ieeeVal 8 23 b
  | 1 => ieeeVal 8 7 b
  | 2 => ieeeVal 5 10 b
  | 3 => if b % 128 = 127 then .nan else smallVal 4 3 b
  | 4 => ieeeVal 5 2 b
  | 5 => smallVal 3 2 b
  | 6 => smallVal 2 3 b
  | 7 => smallVal 2 1 b
  | _ => let v := signedOf 8 b; .fin (decide (v < 0)) v.natAbs 0

/-- Exponent and fraction widths of a floating element type. -/
def fmtEb (ty : Nat) : Nat :=
  match typePlain ty with
  | 0 => 8 | 1 => 8 | 2 => 5 | 3 => 4 | 4 => 5 | 5 => 3 | 6 => 2 | _ => 2
def fmtFb (ty : Nat) : Nat :=
  match typePlain ty with
  | 0 => 23 | 1 => 7 | 2 => 10 | 3 => 3 | 4 => 2 | 5 => 2 | 6 => 3 | _ => 1

/-- FMT_MAX of R192, as an integer significand and exponent. -/
def fmtMax (ty : Nat) : Nat × Int :=
  match typePlain ty with
  | 1 => (255, 120)
  | 2 => (2047, 5)
  | 3 => (7, 6)
  | 4 => (7, 13)
  | 5 => (7, 2)
  | 6 => (15, -1)
  | 7 => (3, 1)
  | _ => (127, 0)

/-- EMAX of R192. -/
def fmtEmax (ty : Nat) : Int :=
  let (m, e) := fmtMax ty
  topExp m e

/-- Lowest quantum exponent of a format: that of its subnormals; INT8 counts in units. -/
def fmtQmin (ty : Nat) : Int :=
  if typePlain ty = 8 then 0 else 1 - ((2 : Int) ^ (fmtEb ty - 1) - 1) - fmtFb ty

/-- The quantum exponent at a magnitude `m * 2^e`, exponent range unbounded above. -/
def fmtQuantum (ty m : Nat) (e : Int) : Int :=
  if typePlain ty = 8 then 0 else max (topExp m e - fmtFb ty) (fmtQmin ty)

/-- Bits of the magnitude `k * 2^q`, which the format represents, with a sign. -/
def fmtEncode (ty : Nat) (neg : Bool) (k : Nat) (q : Int) : Nat :=
  if typePlain ty = 8 then
    (if neg then (256 - k) % 256 else k)
  else
    let eb := fmtEb ty
    let fb := fmtFb ty
    let sb := if neg then 2 ^ (eb + fb) else 0
    if k = 0 then sb
    else
      let top := topExp k q
      let bias : Int := 2 ^ (eb - 1) - 1
      if top < 1 - bias then sb + (quantFloor k q (fmtQmin ty)).1
      else
        let f := (quantFloor k q (top - fb)).1
        sb + (top + bias).toNat * 2 ^ fb + (f - 2 ^ fb)

/-- Magnitude of `m * 2^e` rounded into a format: to nearest even, or by a 16-bit draw (R203). Result in the quantum. -/
def fmtRound (ty : Nat) (draw : Option Nat) (m : Nat) (e : Int) (neg : Bool) : Nat × Int :=
  let q := fmtQuantum ty m e
  match draw with
  | none => (quantRne m e q, q)
  | some r =>
    let (k, cut) := quantFloor m e q
    if !cut then (k, q)
    else
      -- threshold floor((x - lo) / (hi - lo) * 2^16), with lo and hi the neighbours of the signed value
      let s := (q - e).toNat
      let fracUp := (m % 2 ^ s) * 2 ^ 16
      if neg then
        let fr := ((2 ^ s - m % 2 ^ s) * 2 ^ 16) / 2 ^ s
        if r < fr then (k, q) else (k + 1, q)
      else if r < fracUp / 2 ^ s then (k + 1, q) else (k, q)

/-! ### Sums of products (R177, R178, R180) -/

/-- A full-width pair: sum and tail. -/
structure Pair where
  s : F32
  t : F32
  deriving DecidableEq, Repr

def pairZero : Pair := ⟨0, 0⟩

/-- Whether a product is ±0. -/
def Val.isZero : Val → Bool
  | .fin _ m _ => m == 0
  | _ => false

/-- The adder tree on the products of one group (R177, R178). -/
def groupSum (ps : List Val) : Pair :=
  if ps.any Val.isNan then ⟨qnan, 0⟩
  else if ps.any Val.isInf then
    let pos := ps.any fun p => p.isInf && !p.sign
    let neg := ps.any fun p => p.isInf && p.sign
    if pos && neg then ⟨qnan, 0⟩ else ⟨f32Of (.inf neg), 0⟩
  else
    let nz := ps.filter fun p => !p.isZero
    match nz.filterMap (fun p => match p with | .fin _ m e => some (topExp m e) | _ => none) with
    | [] => pairZero
    | x :: xs =>
      let u := xs.foldl max x - 50
      let g : Int := nz.foldl (fun acc p => match p with
        | .fin n m e => let k : Int := (quantFloor m e u).1; if n then acc - k else acc + k
        | _ => acc) 0
      let gh := rne32 ⟨g, u⟩
      if f32IsInf gh then ⟨gh, 0⟩
      else ⟨gh, rne32 ((Dy.mk g u).sub (f32Val gh).dy)⟩

/-- two_sum of R180. -/
def twoSum (a b : F32) : F32 × F32 :=
  let r := fadd a b
  let bv := fsub r a
  let av := fsub r bv
  (r, fadd (fsub a av) (fsub b bv))

/-- Special cases shared by compensated_add and VPADD (R180, R188). -/
def pairSpecial (s g : F32) : Option Pair :=
  let vs := f32Val s
  let vg := f32Val g
  if vs.isNan || vg.isNan then some ⟨qnan, 0⟩
  else if vs.isInf && vg.isInf && vs.sign != vg.sign then some ⟨qnan, 0⟩
  else if vs.isInf then some ⟨s, 0⟩
  else if vg.isInf then some ⟨g, 0⟩
  else none

/-- compensated_add of R180. -/
def compAdd (a g : Pair) : Pair :=
  match pairSpecial a.s g.s with
  | some p => p
  | none =>
    let (r, e) := twoSum a.s g.s
    if f32IsInf r then ⟨r, 0⟩ else ⟨r, fadd a.t (fadd e g.t)⟩

/-- VPADD of R188. -/
def pairAdd (a b : Pair) : Pair :=
  match pairSpecial a.s b.s with
  | some p => p
  | none =>
    let (r, e) := twoSum a.s b.s
    if f32IsInf r then ⟨r, 0⟩ else ⟨r, fadd e (fadd a.t b.t)⟩

/-- `s + t` of a pair, exact. -/
def Pair.val (p : Pair) : Val := (f32Val p.s).add (f32Val p.t)

/-- VPFOLD (R188): the pair rounded once to FP32. -/
def pairFold (p : Pair) : F32 := f32Of p.val

/-! ### Residue code (R312, R319) -/

/-- The modulus of the residue code. -/
def resMod : Nat := 2 ^ 31 - 1

/-! ### Random streams (R199) -/

/-- One round function input of Philox-4×32-10, ten rounds from `r` left. -/
def philoxRounds : Nat → Nat → Nat → Nat → Nat → Nat → Nat → List Nat
  | 0, c0, c1, c2, c3, _, _ => [c0, c1, c2, c3]
  | r + 1, c0, c1, c2, c3, k0, k1 =>
    let p0 := 0xD2511F53 * c0
    let p1 := 0xCD9E8D57 * c2
    let m := 2 ^ 32
    philoxRounds r ((p1 / m) ^^^ c1 ^^^ k0) (p1 % m) ((p0 / m) ^^^ c3 ^^^ k1) (p0 % m)
      ((k0 + 0x9E3779B9) % m) ((k1 + 0xBB67AE85) % m)

/-- Draw word at a position of a stream (R199). -/
def drawWord (key salt lcore stream pos : Nat) : Nat :=
  let q := pos / 4
  (philoxRounds 10 (q % 2 ^ 32) ((q >>> 32) % 2 ^ 30) (lcore % 2 ^ 16 + (stream % 256) * 2 ^ 16) (salt % 2 ^ 32)
    (key % 2 ^ 32) ((key >>> 32) % 2 ^ 32)).getD (pos % 4) 0

end Sys2Proof.Machine
end

