-- ==== Sys2Proof/Machine/Crypto.lean ====
section
/-! DEFINITION. Digests and checks that the manual names by their standards: SHA-256, HMAC-SHA-256, SipHash-2-4, CRC-32,
CRC-32C, CRC-64 (ECMA-182) and ECDSA on P-256 (R79, R334, R367, R386, R463, R564, R571). -/
namespace Sys2Proof.Machine

/-! ### SHA-256 (FIPS 180-4)

The eight working words are two histories of four words each, newest first: `a` to `d` and `e` to `h` of the standard. -/

/-- The constants of the 64 rounds, 32 bits each, that of round 0 lowest. -/
def shaConsts : Nat :=
  0xc67178f2bef9a3f7a4506ceb90befffa8cc7020884c8781478a5636f748f82ee682e6ff35b9cca4f4ed8aa4a391c0cb334b0bcb52748774c1e376c0819a4c116106aa070f40e3585d6990624d192e819c76c51a3c24b8b70a81a664ba2bfe8a192722c8581c2c92e766a0abb650a735453380d134d2c6dfc2e1b213827b70a851429296706ca6351d5a79147c6e00bf3bf597fc7b00327c8a831c66d983e515276f988da5cb0a9dc4a7484aa2de92c6f240ca1cc0fc19dc6efbe4786e49b69c1c19bf1749bdc06a780deb1fe72be5d74550c7dc3243185be12835b01d807aa98ab1c5ed5923f82a459f111f13956c25be9b5dba5b5c0fbcf71374491428a2f98

/-- The initial hash value, its first word lowest. -/
def shaStart : Nat := 0x5be0cd191f83d9ab9b05688c510e527fa54ff53a3c6ef372bb67ae856a09e667

/-- 32-bit word `i` of a packed table. -/
def packedWord (v i : Nat) : Nat := v >>> (32 * i) % 2 ^ 32

/-- Big-endian number of bytes, and back. -/
def beNat (bs : List Byte) : Nat := bs.foldl (fun v b => v * 256 + b.toNat) 0
def beBytes (n v : Nat) : List Byte := (leBytes n v).reverse

/-- Exclusive or of the rotations of a word to the right by some amounts: parts of the word written twice in a row. -/
def turns (x : Nat) (ns : List Nat) : Nat := ns.foldl (fun v n => v ^^^ (x * (2 ^ 32 + 1)) >>> n % 2 ^ 32) 0

/-- The next word of the message schedule, from those before it, newest first. -/
def shaNext (w : List Nat) : Nat :=
  let x := w.getD 1 0
  let y := w.getD 14 0
  (w.getD 6 0 + w.getD 15 0 + (turns x [17, 19] ^^^ x >>> 10) + (turns y [7, 18] ^^^ y >>> 3)) % 2 ^ 32

def shaExtend : Nat → List Nat → List Nat
  | 0, w => w
  | n + 1, w => shaExtend n (shaNext w :: w)

/-- One round, `k` the sum of its constant and its schedule word. -/
def shaTurn (v : List Nat × List Nat) (k : Nat) : List Nat × List Nat := match v with
  | ([p, q, r, last], [x, y, z, out]) =>
    let choice := z ^^^ (x &&& (y ^^^ z))
    let most := (p &&& q) ||| (r &&& (p ||| q))
    let sum := out + choice + k + turns x [25, 11, 6]
    ([(sum + most + turns p [22, 13, 2]) % 2 ^ 32, p, q, r], [(sum + last) % 2 ^ 32, x, y, z])
  | _ => v

/-- The hash value after one more block of 64 bytes. -/
def shaBlock (h : List Nat) (block : List Byte) : List Nat :=
  let first := (List.range 16).map fun i => packedWord (beNat block) (15 - i)
  let sched := (shaExtend 48 first.reverse).reverse
  let rounds := (List.range 64).map fun i => packedWord shaConsts i + sched.getD i 0
  let v := rounds.foldl shaTurn (h.take 4, h.drop 4)
  (h.zip (v.1 ++ v.2)).map fun x => (x.1 + x.2) % 2 ^ 32

/-- A message with its padding: a one bit, zeros up to 8 bytes before the end of a block, and its length in bits. -/
def shaPadded (m : List Byte) : List Byte :=
  m ++ 0x80 :: List.replicate ((119 - m.length % 64) % 64) 0 ++ beBytes 8 (8 * m.length)

/-- SHA-256 of a byte string. -/
def sha256 (m : List Byte) : List Byte :=
  let p := shaPadded m
  let start := (List.range 8).map (packedWord shaStart)
  ((List.range (p.length / 64)).foldl (fun h i => shaBlock h ((p.drop (64 * i)).take 64)) start).flatMap (beBytes 4)

/-- HMAC-SHA-256 (R571). -/
def hmac256 (key m : List Byte) : List Byte :=
  let k := if key.length > 64 then sha256 key else key
  let k := k ++ List.replicate (64 - k.length) 0
  sha256 ((k.map (· ^^^ 0x5c)) ++ sha256 ((k.map (· ^^^ 0x36)) ++ m))

/-! ### SipHash-2-4 (R334) -/

def rotl64 (x n : Nat) : Nat := ((x <<< n) ||| (x >>> (64 - n))) % 2 ^ 64

def sipRound (v : Nat × Nat × Nat × Nat) : Nat × Nat × Nat × Nat :=
  let (v0, v1, v2, v3) := v
  let v0 := (v0 + v1) % 2 ^ 64
  let v1 := rotl64 v1 13 ^^^ v0
  let v0 := rotl64 v0 32
  let v2 := (v2 + v3) % 2 ^ 64
  let v3 := rotl64 v3 16 ^^^ v2
  let v0 := (v0 + v3) % 2 ^ 64
  let v3 := rotl64 v3 21 ^^^ v0
  let v2 := (v2 + v1) % 2 ^ 64
  let v1 := rotl64 v1 17 ^^^ v2
  let v2 := rotl64 v2 32
  (v0, v1, v2, v3)

def sipWord (v : Nat × Nat × Nat × Nat) (m : Nat) : Nat × Nat × Nat × Nat :=
  let (v0, v1, v2, v3) := v
  let (v0, v1, v2, v3) := sipRound (sipRound (v0, v1, v2, v3 ^^^ m))
  (v0 ^^^ m, v1, v2, v3)

/-- SipHash-2-4 of a 16-byte message of two little-endian words. -/
def sipHash16 (k0 k1 m0 m1 : Nat) : Nat :=
  let v := (k0 ^^^ 0x736f6d6570736575, k1 ^^^ 0x646f72616e646f6d, k0 ^^^ 0x6c7967656e657261, k1 ^^^ 0x7465646279746573)
  let (v0, v1, v2, v3) := sipWord (sipWord (sipWord v m0) m1) (16 <<< 56)
  let (v0, v1, v2, v3) := sipRound (sipRound (sipRound (sipRound (v0, v1, v2 ^^^ 0xff, v3))))
  v0 ^^^ v1 ^^^ v2 ^^^ v3

/-! ### CRCs -/

/-- One byte of a reflected CRC with polynomial `poly`. -/
def crcRefByte (poly : Nat) (c : Nat) (b : Byte) : Nat :=
  (List.range 8).foldl (fun c _ => if c % 2 = 1 then (c >>> 1) ^^^ poly else c >>> 1) (c ^^^ b.toNat)

/-- CRC-32 with the IEEE 802.3 polynomial (R386). -/
def crc32 (m : List Byte) : Nat := m.foldl (crcRefByte 0xEDB88320) 0xFFFFFFFF ^^^ 0xFFFFFFFF
/-- CRC-32C (R463). -/
def crc32c (m : List Byte) : Nat := m.foldl (crcRefByte 0x82F63B78) 0xFFFFFFFF ^^^ 0xFFFFFFFF

/-- CRC-64 with the ECMA-182 polynomial, most significant bit first, from zero (R367; assumption 12). -/
def crc64 (m : List Byte) : Nat :=
  m.foldl (fun c b => (List.range 8).foldl (fun c _ =>
    if c ≥ 2 ^ 63 then ((c * 2) % 2 ^ 64) ^^^ 0x42F0E1EBA9EA3693 else c * 2) (c ^^^ (b.toNat <<< 56))) 0

/-! ### ECDSA on P-256 (R564, R571) -/

def p256p : Nat := 0xffffffff00000001000000000000000000000000ffffffffffffffffffffffff
def p256n : Nat := 0xffffffff00000000ffffffffffffffffbce6faada7179e84f3b9cac2fc632551
def p256b : Nat := 0x5ac635d8aa3a93e7b3ebbd55769886bc651d06b0cc53b0f63bce3c3e27d2604b
def p256g : Nat × Nat := (0x6b17d1f2e12c4247f8bce6e563a440f277037d812deb33a0f4a13945d898c296,
  0x4fe342e2fe1a7f9b8ee7eb4a7c0f9e162bce33576b315ececbb6406837bf51f5)

/-- `b ^ e mod m`, `k` bits of `e` from the top. -/
def powMod (b e m : Nat) : Nat → Nat
  | 0 => 1 % m
  | k + 1 =>
    let r := powMod b (e / 2) m k
    let r := r * r % m
    if e % 2 = 1 then r * b % m else r

def invMod (a m : Nat) : Nat := powMod (a % m) (m - 2) m 256

/-- Sum of two points; none is the point at infinity. -/
def ecAdd (a b : Option (Nat × Nat)) : Option (Nat × Nat) :=
  match a, b with
  | none, b => b
  | a, none => a
  | some (x1, y1), some (x2, y2) =>
    if x1 = x2 ∧ (y1 + y2) % p256p = 0 then none
    else
      let l := if x1 = x2 then (3 * x1 * x1 + (p256p - 3)) * invMod (2 * y1) p256p % p256p
               else (y2 + p256p - y1) * invMod (x2 + p256p - x1) p256p % p256p
      let x3 := (l * l + 2 * p256p - x1 - x2) % p256p
      some (x3, (l * (x1 + p256p - x3) + p256p - y1) % p256p)

/-- `k` times a point, `n` bits. -/
def ecMul (pt : Option (Nat × Nat)) (k : Nat) : Nat → Option (Nat × Nat)
  | 0 => none
  | n + 1 =>
    let h := ecMul pt (k / 2) n
    let h := ecAdd h h
    if k % 2 = 1 then ecAdd h pt else h

def ecOnCurve (q : Nat × Nat) : Bool :=
  decide (q.1 < p256p ∧ q.2 < p256p) && (q.2 * q.2 % p256p == (q.1 * q.1 * q.1 + (p256p - 3) * q.1 + p256b) % p256p)

/-- ECDSA verification of `(r, s)` over digest `h` with public key `q`. -/
def ecdsaVerify (q : Nat × Nat) (h r s : Nat) : Bool :=
  decide (1 ≤ r ∧ r < p256n ∧ 1 ≤ s ∧ s < p256n) && ecOnCurve q &&
  (let w := invMod s p256n
   match ecAdd (ecMul (some p256g) (h * w % p256n) 256) (ecMul (some q) (r * w % p256n) 256) with
   | some (x, _) => x % p256n == r
   | none => false)

/-- ECDSA signature of digest `h` with key `d` and nonce `k`. -/
def ecdsaSign (d h k : Nat) : Nat × Nat :=
  match ecMul (some p256g) k 256 with
  | some (x, _) =>
    let r := x % p256n
    (r, invMod k p256n * (h + r * d) % p256n)
  | none => (0, 0)

/-- Public key of a private key, 64 bytes, x then y. -/
def ecPub (d : Nat) : List Byte :=
  match ecMul (some p256g) d 256 with
  | some (x, y) => beBytes 32 x ++ beBytes 32 y
  | none => []

end Sys2Proof.Machine
end

