-- ==== Sys2Proof/Machine/Store.lean ====
section
/-! DEFINITION. Sparse data by key: a list of key and value pairs in one canonical form, keys strictly rising and no entry
equal to what an unlisted key reads as; and the module memory built on it (R19, R20). -/
namespace Sys2Proof.Machine

/-- Sparse data: pairs of a key and a value, in the canonical form of `smWf`. -/
abbrev SMap (α : Type) := List (Nat × α)

/-- The value at a key; `d k` where the key is unlisted. -/
def smGet {α : Type} (d : Nat → α) : SMap α → Nat → α
  | [], k => d k
  | (k', v) :: m, k => if k = k' then v else smGet d m k

/-- Inserts or replaces the value at a key. -/
def smPut {α : Type} : SMap α → Nat → α → SMap α
  | [], k, v => [(k, v)]
  | (k', v') :: m, k, v =>
    if k < k' then (k, v) :: (k', v') :: m
    else if k = k' then (k, v) :: m
    else (k', v') :: smPut m k v

/-- Removes every entry of a key. -/
def smErase {α : Type} : SMap α → Nat → SMap α
  | [], _ => []
  | (k', v') :: m, k => if k = k' then smErase m k else (k', v') :: smErase m k

/-- Writes a value and keeps the canonical form: a value equal to the unlisted one is no entry. -/
def smSet {α : Type} [DecidableEq α] (d : Nat → α) (m : SMap α) (k : Nat) (v : α) : SMap α :=
  if v = d k then smErase m k else smPut m k v

/-- Keys strictly rising from `lo`, and no entry equal to what its key reads as unlisted. -/
def smWf {α : Type} [DecidableEq α] (d : Nat → α) (lo : Nat) : SMap α → Bool
  | [] => true
  | (k, v) :: m => decide (lo ≤ k) && decide (v ≠ d k) && smWf d (k + 1) m

/-- The value at a key, if listed. -/
def smFind {α : Type} : SMap α → Nat → Option α
  | [], _ => none
  | (k', v) :: m, k => if k = k' then some v else smFind m k

/-- Applies a function to the value at position `n` of a list. -/
def listMod {α : Type} (l : List α) (n : Nat) (f : α → α) : List α :=
  match l, n with
  | [], _ => []
  | a :: l, 0 => f a :: l
  | a :: l, n + 1 => a :: listMod l n f

/-- The members of a list with their positions. -/
def enumFrom {α : Type} : Nat → List α → List (Nat × α)
  | _, [] => []
  | n, a :: l => (n, a) :: enumFrom (n + 1) l

/-- Position of the first member with a property. -/
def firstIdx {α : Type} (p : α → Bool) : List α → Option Nat
  | [] => none
  | a :: l => if p a then some 0 else (firstIdx p l).map (· + 1)

/-- Removes the member at a position. -/
def dropAt {α : Type} : List α → Nat → List α
  | [], _ => []
  | _ :: l, 0 => l
  | a :: l, n + 1 => a :: dropAt l n

end Sys2Proof.Machine
end

