-- ==== Sys2Proof/Machine/Regs.lean ====
section
/-! DEFINITION. The register space of the module (R597 to R606): for every register its module address, its fields with
their bit positions, access types (R11) and reset values, as the register maps of the chapters give them. Field names are
the manual's, with `_` for the dot. -/
namespace Sys2Proof.Machine

/-- The access types of R11. -/
inductive Acc where
  | ro | rw | w1c | w1s | wo | rs
  deriving DecidableEq, Repr

/-- One field of a register map: lowest bit, width, access type, reset value. -/
structure FDesc where
  lo : Nat
  w : Nat
  acc : Acc
  reset : Nat
  deriving DecidableEq, Repr

abbrev RegDesc := List FDesc

/-- A field of a register: the register's module address, its lowest bit and its width. -/
structure Fld where
  addr : Nat
  lo : Nat
  w : Nat
  deriving DecidableEq, Repr

/-- Module address of `CAPS_A` (R27, 01_module_organisation.md). -/
def rCAPS_A : Nat := 0x60008000000
def CAPS_A_DAMIM_LEVEL : Fld := ⟨rCAPS_A, 0, 8⟩
def CAPS_A_SILICON_REV : Fld := ⟨rCAPS_A, 8, 8⟩
def CAPS_A_CORE_COUNT : Fld := ⟨rCAPS_A, 16, 9⟩
def CAPS_A_STACK_MASK : Fld := ⟨rCAPS_A, 32, 32⟩
def descCAPS_A : RegDesc := [⟨0, 8, .ro, 2⟩, ⟨8, 8, .ro, 0⟩, ⟨16, 9, .ro, 256⟩, ⟨32, 32, .ro, 0⟩]
/-- Module address of `CAPS_B` (R28, 01_module_organisation.md). -/
def rCAPS_B : Nat := 0x60008000008
def CAPS_B_PORT_MASK : Fld := ⟨rCAPS_B, 0, 16⟩
def CAPS_B_PORT_COUNT : Fld := ⟨rCAPS_B, 16, 5⟩
def CAPS_B_STACK_COUNT : Fld := ⟨rCAPS_B, 24, 6⟩
def CAPS_B_TUMBLER : Fld := ⟨rCAPS_B, 32, 1⟩
def CAPS_B_KEYWAY : Fld := ⟨rCAPS_B, 33, 1⟩
def CAPS_B_COMP_WIRE : Fld := ⟨rCAPS_B, 34, 1⟩
def CAPS_B_LATCH : Fld := ⟨rCAPS_B, 35, 1⟩
def CAPS_B_LOOP : Fld := ⟨rCAPS_B, 36, 1⟩
def CAPS_B_HINGE : Fld := ⟨rCAPS_B, 37, 1⟩
def CAPS_B_STACK_GIB : Fld := ⟨rCAPS_B, 40, 8⟩
def CAPS_B_HOST_PORTS : Fld := ⟨rCAPS_B, 48, 4⟩
def CAPS_B_ARCHIVE_PORTS : Fld := ⟨rCAPS_B, 52, 4⟩
def CAPS_B_VARIANT : Fld := ⟨rCAPS_B, 56, 8⟩
def descCAPS_B : RegDesc := [⟨0, 16, .ro, 0⟩, ⟨16, 5, .ro, 0⟩, ⟨24, 6, .ro, 0⟩, ⟨32, 1, .ro, 0⟩, ⟨33, 1, .ro, 0⟩, ⟨34, 1, .ro, 1⟩, ⟨35, 1, .ro, 1⟩, ⟨36, 1, .ro, 1⟩, ⟨37, 1, .ro, 1⟩, ⟨40, 8, .ro, 128⟩, ⟨48, 4, .ro, 2⟩, ⟨52, 4, .ro, 1⟩, ⟨56, 8, .ro, 0⟩]
/-- Module address of `HUB_RESET` (R593, 19_module_electrical_mechanical.md). -/
def rHUB_RESET : Nat := 0x60008010000
def HUB_RESET_CAUSE : Fld := ⟨rHUB_RESET, 0, 3⟩
def HUB_RESET_HBM_RETAINED : Fld := ⟨rHUB_RESET, 3, 1⟩
def HUB_RESET_STRAP : Fld := ⟨rHUB_RESET, 8, 2⟩
def HUB_RESET_MODULE_RESETS : Fld := ⟨rHUB_RESET, 16, 16⟩
def HUB_RESET_POWER_UPS : Fld := ⟨rHUB_RESET, 32, 16⟩
def descHUB_RESET : RegDesc := [⟨0, 3, .ro, 0⟩, ⟨3, 1, .ro, 0⟩, ⟨8, 2, .ro, 0⟩, ⟨16, 16, .ro, 0⟩, ⟨32, 16, .ro, 0⟩]
/-- Module address of `FRM_CTRL` (R59, 02_frames_and_scheduled_time.md). -/
def rFRM_CTRL : Nat := 0x60008020000
def FRM_CTRL_ROLE : Fld := ⟨rFRM_CTRL, 0, 2⟩
def FRM_CTRL_ENABLE : Fld := ⟨rFRM_CTRL, 2, 1⟩
def FRM_CTRL_HOLD_MAX : Fld := ⟨rFRM_CTRL, 3, 5⟩
def FRM_CTRL_COMMIT_LEAD : Fld := ⟨rFRM_CTRL, 16, 16⟩
def FRM_CTRL_PARENT_MASK : Fld := ⟨rFRM_CTRL, 32, 16⟩
def descFRM_CTRL : RegDesc := [⟨0, 2, .rs, 0⟩, ⟨2, 1, .rs, 0⟩, ⟨3, 5, .rs, 4⟩, ⟨16, 16, .rs, 1024⟩, ⟨32, 16, .rs, 65535⟩]
/-- Module address of `FRM_STAT` (R59, 02_frames_and_scheduled_time.md). -/
def rFRM_STAT : Nat := 0x60008020008
def FRM_STAT_STATE : Fld := ⟨rFRM_STAT, 0, 3⟩
def FRM_STAT_LOCKED : Fld := ⟨rFRM_STAT, 3, 1⟩
def FRM_STAT_HOLD_COUNT : Fld := ⟨rFRM_STAT, 4, 5⟩
def FRM_STAT_PARENT_PORT : Fld := ⟨rFRM_STAT, 9, 4⟩
def FRM_STAT_LAST_LOSS : Fld := ⟨rFRM_STAT, 16, 4⟩
def FRM_STAT_HOPS : Fld := ⟨rFRM_STAT, 20, 4⟩
def FRM_STAT_LOSS : Fld := ⟨rFRM_STAT, 24, 1⟩
def descFRM_STAT : RegDesc := [⟨0, 3, .ro, 0⟩, ⟨3, 1, .ro, 0⟩, ⟨4, 5, .ro, 0⟩, ⟨9, 4, .ro, 0⟩, ⟨16, 4, .ro, 0⟩, ⟨20, 4, .ro, 0⟩, ⟨24, 1, .w1c, 0⟩]
/-- Module address of `FRM_NOW` (R59, 02_frames_and_scheduled_time.md). -/
def rFRM_NOW : Nat := 0x60008020010
def FRM_NOW_PHASE : Fld := ⟨rFRM_NOW, 0, 16⟩
def FRM_NOW_FRAME : Fld := ⟨rFRM_NOW, 16, 48⟩
def descFRM_NOW : RegDesc := [⟨0, 16, .ro, 0⟩, ⟨16, 48, .ro, 0⟩]
/-- Module address of `FRM_PERIOD` (R59, 02_frames_and_scheduled_time.md). -/
def rFRM_PERIOD : Nat := 0x60008020018
def FRM_PERIOD_MEASURED : Fld := ⟨rFRM_PERIOD, 0, 27⟩
def FRM_PERIOD_NOMINAL : Fld := ⟨rFRM_PERIOD, 32, 27⟩
def descFRM_PERIOD : RegDesc := [⟨0, 27, .ro, 0⟩, ⟨32, 27, .rw, 1000000⟩]
/-- Module address of `FRM_START` (R59, 02_frames_and_scheduled_time.md). -/
def rFRM_START : Nat := 0x60008020020
def FRM_START_START_FRAME : Fld := ⟨rFRM_START, 0, 48⟩
def descFRM_START : RegDesc := [⟨0, 48, .rw, 0⟩]
/-- Module address of `FRM_TICK_AT` (R59, 02_frames_and_scheduled_time.md). -/
def rFRM_TICK_AT : Nat := 0x60008020028
def FRM_TICK_AT_TICK : Fld := ⟨rFRM_TICK_AT, 0, 32⟩
def FRM_TICK_AT_SUBTICK : Fld := ⟨rFRM_TICK_AT, 32, 18⟩
def descFRM_TICK_AT : RegDesc := [⟨0, 32, .ro, 0⟩, ⟨32, 18, .ro, 0⟩]
/-- Module address of `FRM_COUNT` (R59, 02_frames_and_scheduled_time.md). -/
def rFRM_COUNT : Nat := 0x60008020030
def FRM_COUNT_LOCK_LOSSES : Fld := ⟨rFRM_COUNT, 0, 16⟩
def FRM_COUNT_LATE_EVENTS : Fld := ⟨rFRM_COUNT, 16, 16⟩
def FRM_COUNT_HOLDOVER_FRAMES : Fld := ⟨rFRM_COUNT, 32, 16⟩
def descFRM_COUNT : RegDesc := [⟨0, 16, .ro, 0⟩, ⟨16, 16, .ro, 0⟩, ⟨32, 16, .ro, 0⟩]
/-- Module address of `FRM_SKEW` (R59, 02_frames_and_scheduled_time.md). -/
def rFRM_SKEW : Nat := 0x60008020038
def FRM_SKEW_LAST_OFFSET : Fld := ⟨rFRM_SKEW, 0, 16⟩
def FRM_SKEW_MAX_ABS : Fld := ⟨rFRM_SKEW, 16, 16⟩
def descFRM_SKEW : RegDesc := [⟨0, 16, .ro, 0⟩, ⟨16, 16, .ro, 0⟩]
/-- Module address of `MEM_MW_BASE` (R282, 08_scratch_streams_layout.md). -/
def rMEM_MW_BASE (n : Nat) : Nat := 0x60008030000 + n * 0x8
def MEM_MW_BASE_BASE_GIB (n : Nat) : Fld := ⟨rMEM_MW_BASE n, 0, 12⟩
def descMEM_MW_BASE : RegDesc := [⟨0, 12, .rw, 0⟩]
/-- Module address of `RDU_STEP_CTRL` (R329, 10_gradient_reduction.md). -/
def rRDU_STEP_CTRL : Nat := 0x60008040000
def RDU_STEP_CTRL_ROOT : Fld := ⟨rRDU_STEP_CTRL, 0, 1⟩
def RDU_STEP_CTRL_NONFINITE_ACT : Fld := ⟨rRDU_STEP_CTRL, 1, 1⟩
def RDU_STEP_CTRL_RESTART_LEAD : Fld := ⟨rRDU_STEP_CTRL, 8, 8⟩
def descRDU_STEP_CTRL : RegDesc := [⟨0, 1, .rs, 0⟩, ⟨1, 1, .rs, 0⟩, ⟨8, 8, .rs, 4⟩]
/-- Module address of `RDU_STEP_STAT` (R329, 10_gradient_reduction.md). -/
def rRDU_STEP_STAT : Nat := 0x60008040008
def RDU_STEP_STAT_STEP : Fld := ⟨rRDU_STEP_STAT, 0, 32⟩
def RDU_STEP_STAT_ATTEMPT : Fld := ⟨rRDU_STEP_STAT, 32, 8⟩
def RDU_STEP_STAT_STATE : Fld := ⟨rRDU_STEP_STAT, 40, 3⟩
def RDU_STEP_STAT_LAST_CAUSE : Fld := ⟨rRDU_STEP_STAT, 48, 3⟩
def descRDU_STEP_STAT : RegDesc := [⟨0, 32, .ro, 0⟩, ⟨32, 8, .ro, 0⟩, ⟨40, 3, .ro, 0⟩, ⟨48, 3, .ro, 0⟩]
/-- Module address of `RDU_STEP_COUNT` (R329, 10_gradient_reduction.md). -/
def rRDU_STEP_COUNT : Nat := 0x60008040010
def RDU_STEP_COUNT_ABORTS : Fld := ⟨rRDU_STEP_COUNT, 0, 16⟩
def RDU_STEP_COUNT_DUP_ABORTS : Fld := ⟨rRDU_STEP_COUNT, 16, 16⟩
def RDU_STEP_COUNT_ESCALATIONS : Fld := ⟨rRDU_STEP_COUNT, 32, 16⟩
def descRDU_STEP_COUNT : RegDesc := [⟨0, 16, .ro, 0⟩, ⟨16, 16, .ro, 0⟩, ⟨32, 16, .ro, 0⟩]
/-- Module address of `RDU_ESCALATED` (R329, 10_gradient_reduction.md). -/
def rRDU_ESCALATED : Nat := 0x60008040018
def RDU_ESCALATED_MODULE : Fld := ⟨rRDU_ESCALATED, 0, 16⟩
def RDU_ESCALATED_STEP : Fld := ⟨rRDU_ESCALATED, 16, 48⟩
def descRDU_ESCALATED : RegDesc := [⟨0, 16, .ro, 65535⟩, ⟨16, 48, .ro, 0⟩]
/-- Module address of `FAB_ID` (R394, 12_fabric.md). -/
def rFAB_ID : Nat := 0x60008060000
def FAB_ID_WARD : Fld := ⟨rFAB_ID, 0, 6⟩
def FAB_ID_MODULE : Fld := ⟨rFAB_ID, 8, 8⟩
def FAB_ID_VALID : Fld := ⟨rFAB_ID, 16, 1⟩
def descFAB_ID : RegDesc := [⟨0, 6, .rs, 0⟩, ⟨8, 8, .rs, 0⟩, ⟨16, 1, .rs, 0⟩]
/-- Module address of `FAB_ROUTE` (R394, 12_fabric.md). -/
def rFAB_ROUTE : Nat := 0x60008060008
def FAB_ROUTE_BIAS_KIB : Fld := ⟨rFAB_ROUTE, 0, 16⟩
def FAB_ROUTE_ACK_GAP_NS : Fld := ⟨rFAB_ROUTE, 16, 16⟩
def descFAB_ROUTE : RegDesc := [⟨0, 16, .rs, 64⟩, ⟨16, 16, .rs, 256⟩]
/-- Module address of `FAB_COUNT` (R394, 12_fabric.md). -/
def rFAB_COUNT : Nat := 0x60008060010
def FAB_COUNT_NOROUTE : Fld := ⟨rFAB_COUNT, 0, 16⟩
def FAB_COUNT_HOPS : Fld := ⟨rFAB_COUNT, 16, 16⟩
def FAB_COUNT_STALE : Fld := ⟨rFAB_COUNT, 32, 16⟩
def descFAB_COUNT : RegDesc := [⟨0, 16, .ro, 0⟩, ⟨16, 16, .ro, 0⟩, ⟨32, 16, .ro, 0⟩]
/-- Module address of `FAB_WARD_TABLE` (R394, 12_fabric.md). -/
def rFAB_WARD_TABLE (w : Nat) : Nat := 0x60008061000 + w * 0x4
def FAB_WARD_TABLE_PORTS (w : Nat) : Fld := ⟨rFAB_WARD_TABLE w, 0, 16⟩
def descFAB_WARD_TABLE : RegDesc := [⟨0, 16, .rs, 0⟩]
/-- Module address of `FAB_LOCAL_TABLE` (R394, 12_fabric.md). -/
def rFAB_LOCAL_TABLE (m : Nat) : Nat := 0x60008061400 + m * 0x4
def FAB_LOCAL_TABLE_PORTS (m : Nat) : Fld := ⟨rFAB_LOCAL_TABLE m, 0, 16⟩
def descFAB_LOCAL_TABLE : RegDesc := [⟨0, 16, .rs, 0⟩]
/-- Module address of `LAT_POOL` (R428, 13_latch_snapshots.md). -/
def rLAT_POOL : Nat := 0x60008070000
def LAT_POOL_POOL_GIB : Fld := ⟨rLAT_POOL, 0, 11⟩
def LAT_POOL_HOLD_GIB : Fld := ⟨rLAT_POOL, 16, 11⟩
def LAT_POOL_WAIT_FRAMES : Fld := ⟨rLAT_POOL, 32, 8⟩
def descLAT_POOL : RegDesc := [⟨0, 11, .rs, 512⟩, ⟨16, 11, .rs, 0⟩, ⟨32, 8, .rs, 2⟩]
/-- Module address of `LAT_PAIR` (R428, 13_latch_snapshots.md). -/
def rLAT_PAIR : Nat := 0x60008070008
def LAT_PAIR_PARTNER_MODULE : Fld := ⟨rLAT_PAIR, 0, 8⟩
def LAT_PAIR_PARTNER_WARD : Fld := ⟨rLAT_PAIR, 8, 6⟩
def LAT_PAIR_ENABLE : Fld := ⟨rLAT_PAIR, 16, 1⟩
def LAT_PAIR_ALLOW_COFEED : Fld := ⟨rLAT_PAIR, 17, 1⟩
def descLAT_PAIR : RegDesc := [⟨0, 8, .rs, 0⟩, ⟨8, 6, .rs, 0⟩, ⟨16, 1, .rs, 0⟩, ⟨17, 1, .rs, 0⟩]
/-- Module address of `LAT_PAIR_STAT` (R428, 13_latch_snapshots.md). -/
def rLAT_PAIR_STAT : Nat := 0x60008070010
def LAT_PAIR_STAT_STATE : Fld := ⟨rLAT_PAIR_STAT, 0, 2⟩
def LAT_PAIR_STAT_COFEED : Fld := ⟨rLAT_PAIR_STAT, 2, 1⟩
def LAT_PAIR_STAT_HOLDING : Fld := ⟨rLAT_PAIR_STAT, 3, 1⟩
def LAT_PAIR_STAT_HELD : Fld := ⟨rLAT_PAIR_STAT, 16, 14⟩
def descLAT_PAIR_STAT : RegDesc := [⟨0, 2, .ro, 0⟩, ⟨2, 1, .ro, 0⟩, ⟨3, 1, .ro, 0⟩, ⟨16, 14, .ro, 0⟩]
/-- Module address of `LAT_CUT` (R428, 13_latch_snapshots.md). -/
def rLAT_CUT : Nat := 0x60008070018
def LAT_CUT_FRAME : Fld := ⟨rLAT_CUT, 0, 48⟩
def LAT_CUT_TIER1 : Fld := ⟨rLAT_CUT, 48, 1⟩
def LAT_CUT_TIER2 : Fld := ⟨rLAT_CUT, 49, 1⟩
def descLAT_CUT : RegDesc := [⟨0, 48, .wo, 0⟩, ⟨48, 1, .wo, 0⟩, ⟨49, 1, .wo, 0⟩]
/-- Module address of `LAT_CUT_ID` (R428, 13_latch_snapshots.md). -/
def rLAT_CUT_ID : Nat := 0x60008070020
def LAT_CUT_ID_SNAP_ID : Fld := ⟨rLAT_CUT_ID, 0, 32⟩
def descLAT_CUT_ID : RegDesc := [⟨0, 32, .rw, 0⟩]
/-- Module address of `LAT_CURSOR_ADDR` (R428, 13_latch_snapshots.md). -/
def rLAT_CURSOR_ADDR : Nat := 0x60008070028
def LAT_CURSOR_ADDR_ADDR : Fld := ⟨rLAT_CURSOR_ADDR, 0, 43⟩
def descLAT_CURSOR_ADDR : RegDesc := [⟨0, 43, .rw, 0⟩]
/-- Module address of `LAT_T1` (R428, 13_latch_snapshots.md). -/
def rLAT_T1 : Nat := 0x60008070030
def LAT_T1_RATE_GBS : Fld := ⟨rLAT_T1, 0, 16⟩
def descLAT_T1 : RegDesc := [⟨0, 16, .rs, 100⟩]
/-- Module address of `LAT_SNAP_STAT` (R428, 13_latch_snapshots.md). -/
def rLAT_SNAP_STAT : Nat := 0x60008070038
def LAT_SNAP_STAT_SNAP_ID : Fld := ⟨rLAT_SNAP_STAT, 0, 32⟩
def LAT_SNAP_STAT_T1 : Fld := ⟨rLAT_SNAP_STAT, 32, 2⟩
def LAT_SNAP_STAT_T2 : Fld := ⟨rLAT_SNAP_STAT, 34, 2⟩
def LAT_SNAP_STAT_CUT_TAKEN : Fld := ⟨rLAT_SNAP_STAT, 36, 1⟩
def LAT_SNAP_STAT_REALIGNS : Fld := ⟨rLAT_SNAP_STAT, 48, 16⟩
def descLAT_SNAP_STAT : RegDesc := [⟨0, 32, .ro, 0⟩, ⟨32, 2, .ro, 0⟩, ⟨34, 2, .ro, 0⟩, ⟨36, 1, .ro, 0⟩, ⟨48, 16, .ro, 0⟩]
/-- Module address of `ARC_CTRL` (R430, 13_latch_snapshots.md). -/
def rARC_CTRL : Nat := 0x60008080000
def ARC_CTRL_ENABLE : Fld := ⟨rARC_CTRL, 0, 1⟩
def ARC_CTRL_NSID : Fld := ⟨rARC_CTRL, 8, 32⟩
def ARC_CTRL_CTRL_SEL : Fld := ⟨rARC_CTRL, 40, 3⟩
def descARC_CTRL : RegDesc := [⟨0, 1, .rs, 0⟩, ⟨8, 32, .rs, 1⟩, ⟨40, 3, .rs, 0⟩]
/-- Module address of `ARC_SLOT` (R430, 13_latch_snapshots.md). -/
def rARC_SLOT : Nat := 0x60008080008
def ARC_SLOT_SLOT_LBAS : Fld := ⟨rARC_SLOT, 0, 40⟩
def descARC_SLOT : RegDesc := [⟨0, 40, .rs, 0⟩]
/-- Module address of `ARC_STAT` (R430, 13_latch_snapshots.md). -/
def rARC_STAT : Nat := 0x60008080010
def ARC_STAT_READY : Fld := ⟨rARC_STAT, 0, 1⟩
def ARC_STAT_SEALING : Fld := ⟨rARC_STAT, 1, 1⟩
def ARC_STAT_WIN_SLOT : Fld := ⟨rARC_STAT, 2, 1⟩
def ARC_STAT_WIN_VALID : Fld := ⟨rARC_STAT, 3, 1⟩
def ARC_STAT_LINK_UP : Fld := ⟨rARC_STAT, 4, 1⟩
def ARC_STAT_WIN_SNAP_ID : Fld := ⟨rARC_STAT, 8, 32⟩
def ARC_STAT_WIN_SEQ : Fld := ⟨rARC_STAT, 40, 24⟩
def descARC_STAT : RegDesc := [⟨0, 1, .ro, 0⟩, ⟨1, 1, .ro, 0⟩, ⟨2, 1, .ro, 0⟩, ⟨3, 1, .ro, 0⟩, ⟨4, 1, .ro, 0⟩, ⟨8, 32, .ro, 0⟩, ⟨40, 24, .ro, 0⟩]
/-- Module address of `ARC_COUNT` (R430, 13_latch_snapshots.md). -/
def rARC_COUNT : Nat := 0x60008080018
def ARC_COUNT_SEALS : Fld := ⟨rARC_COUNT, 0, 16⟩
def ARC_COUNT_ABANDONED : Fld := ⟨rARC_COUNT, 16, 16⟩
def ARC_COUNT_IO_ERRORS : Fld := ⟨rARC_COUNT, 32, 16⟩
def descARC_COUNT : RegDesc := [⟨0, 16, .ro, 0⟩, ⟨16, 16, .ro, 0⟩, ⟨32, 16, .ro, 0⟩]
/-- Module address of `TKT_CTRL` (R493, 15_host_tickets_loop_service.md). -/
def rTKT_CTRL : Nat := 0x60008090000
def TKT_CTRL_ENABLE : Fld := ⟨rTKT_CTRL, 0, 1⟩
def TKT_CTRL_HB_TICKS : Fld := ⟨rTKT_CTRL, 8, 8⟩
def TKT_CTRL_MIRROR_WAIT_US : Fld := ⟨rTKT_CTRL, 16, 16⟩
def TKT_CTRL_MSI_GAP_NS : Fld := ⟨rTKT_CTRL, 32, 16⟩
def descTKT_CTRL : RegDesc := [⟨0, 1, .rs, 0⟩, ⟨8, 8, .rs, 16⟩, ⟨16, 16, .rs, 100⟩, ⟨32, 16, .rs, 1000⟩]
/-- Module address of `TKT_HOST` (R493, 15_host_tickets_loop_service.md). -/
def rTKT_HOST (n : Nat) : Nat := 0x60008090008 + n * 0x8
def TKT_HOST_HEARTBEAT (n : Nat) : Fld := ⟨rTKT_HOST n, 0, 32⟩
def TKT_HOST_STATE (n : Nat) : Fld := ⟨rTKT_HOST n, 32, 2⟩
def TKT_HOST_LOSSES (n : Nat) : Fld := ⟨rTKT_HOST n, 40, 8⟩
def descTKT_HOST : RegDesc := [⟨0, 32, .rw, 0⟩, ⟨32, 2, .ro, 0⟩, ⟨40, 8, .ro, 0⟩]
/-- Module address of `TKT_LOOP_CFG` (R493, 15_host_tickets_loop_service.md). -/
def rTKT_LOOP_CFG : Nat := 0x60008090020
def TKT_LOOP_CFG_SLOT_BASE : Fld := ⟨rTKT_LOOP_CFG, 0, 37⟩
def TKT_LOOP_CFG_SLOTS : Fld := ⟨rTKT_LOOP_CFG, 48, 8⟩
def descTKT_LOOP_CFG : RegDesc := [⟨0, 37, .rs, 0⟩, ⟨48, 8, .rs, 0⟩]
/-- Module address of `TKT_LOOP_STAT` (R493, 15_host_tickets_loop_service.md). -/
def rTKT_LOOP_STAT : Nat := 0x60008090028
def TKT_LOOP_STAT_DISPATCHED : Fld := ⟨rTKT_LOOP_STAT, 0, 32⟩
def TKT_LOOP_STAT_LATE : Fld := ⟨rTKT_LOOP_STAT, 32, 16⟩
def TKT_LOOP_STAT_BUSY : Fld := ⟨rTKT_LOOP_STAT, 48, 16⟩
def descTKT_LOOP_STAT : RegDesc := [⟨0, 32, .ro, 0⟩, ⟨32, 16, .ro, 0⟩, ⟨48, 16, .ro, 0⟩]
/-- Module address of `TKT_LOOP_WIN` (R493, 15_host_tickets_loop_service.md). -/
def rTKT_LOOP_WIN (w : Nat) : Nat := 0x60008090040 + w * 0x8
def TKT_LOOP_WIN_OPEN (w : Nat) : Fld := ⟨rTKT_LOOP_WIN w, 0, 16⟩
def TKT_LOOP_WIN_CLOSE (w : Nat) : Fld := ⟨rTKT_LOOP_WIN w, 16, 16⟩
def TKT_LOOP_WIN_ENABLE (w : Nat) : Fld := ⟨rTKT_LOOP_WIN w, 32, 1⟩
def descTKT_LOOP_WIN : RegDesc := [⟨0, 16, .rs, 0⟩, ⟨16, 16, .rs, 0⟩, ⟨32, 1, .rs, 0⟩]
/-- Module address of `TKT_Q_CFG` (R493, 15_host_tickets_loop_service.md). -/
def rTKT_Q_CFG (q : Nat) : Nat := 0x60008090100 + q * 0x40
def TKT_Q_CFG_KIND (q : Nat) : Fld := ⟨rTKT_Q_CFG q, 0, 2⟩
def TKT_Q_CFG_VEC_H0 (q : Nat) : Fld := ⟨rTKT_Q_CFG q, 8, 6⟩
def TKT_Q_CFG_VEC_H1 (q : Nat) : Fld := ⟨rTKT_Q_CFG q, 16, 6⟩
def descTKT_Q_CFG : RegDesc := [⟨0, 2, .rs, 0⟩, ⟨8, 6, .rs, 0⟩, ⟨16, 6, .rs, 0⟩]
/-- Module address of `TKT_Q_CTRL` (R493, 15_host_tickets_loop_service.md). -/
def rTKT_Q_CTRL (q : Nat) : Nat := 0x60008090108 + q * 0x40
def TKT_Q_CTRL_TAKE (q : Nat) : Fld := ⟨rTKT_Q_CTRL q, 0, 1⟩
def TKT_Q_CTRL_YIELD (q : Nat) : Fld := ⟨rTKT_Q_CTRL q, 1, 1⟩
def TKT_Q_CTRL_RESUME (q : Nat) : Fld := ⟨rTKT_Q_CTRL q, 2, 1⟩
def descTKT_Q_CTRL : RegDesc := [⟨0, 1, .w1s, 0⟩, ⟨1, 1, .rw, 0⟩, ⟨2, 1, .w1s, 0⟩]
/-- Module address of `TKT_Q_STAT` (R493, 15_host_tickets_loop_service.md). -/
def rTKT_Q_STAT (q : Nat) : Nat := 0x60008090110 + q * 0x40
def TKT_Q_STAT_STATE (q : Nat) : Fld := ⟨rTKT_Q_STAT q, 0, 3⟩
def TKT_Q_STAT_OWNER (q : Nat) : Fld := ⟨rTKT_Q_STAT q, 3, 1⟩
def TKT_Q_STAT_HEAD (q : Nat) : Fld := ⟨rTKT_Q_STAT q, 8, 8⟩
def TKT_Q_STAT_RETAINED (q : Nat) : Fld := ⟨rTKT_Q_STAT q, 16, 12⟩
def descTKT_Q_STAT : RegDesc := [⟨0, 3, .ro, 0⟩, ⟨3, 1, .ro, 0⟩, ⟨8, 8, .ro, 0⟩, ⟨16, 12, .ro, 0⟩]
/-- Module address of `TKT_Q_ACCEPTED` (R493, 15_host_tickets_loop_service.md). -/
def rTKT_Q_ACCEPTED (q : Nat) : Nat := 0x60008090118 + q * 0x40
def TKT_Q_ACCEPTED_SEQ (q : Nat) : Fld := ⟨rTKT_Q_ACCEPTED q, 0, 64⟩
def descTKT_Q_ACCEPTED : RegDesc := [⟨0, 64, .ro, 0⟩]
/-- Module address of `TKT_Q_COMPLETE` (R493, 15_host_tickets_loop_service.md). -/
def rTKT_Q_COMPLETE (q : Nat) : Nat := 0x60008090120 + q * 0x40
def TKT_Q_COMPLETE_SEQ (q : Nat) : Fld := ⟨rTKT_Q_COMPLETE q, 0, 64⟩
def descTKT_Q_COMPLETE : RegDesc := [⟨0, 64, .ro, 0⟩]
/-- Module address of `TKT_CRING_BASE` (R493, 15_host_tickets_loop_service.md). -/
def rTKT_CRING_BASE (i : Nat) : Nat := 0x60008090A00 + i * 0x10
def TKT_CRING_BASE_BASE (i : Nat) : Fld := ⟨rTKT_CRING_BASE i, 0, 64⟩
def descTKT_CRING_BASE : RegDesc := [⟨0, 64, .rw, 0⟩]
/-- Module address of `TKT_CRING_CFG` (R493, 15_host_tickets_loop_service.md). -/
def rTKT_CRING_CFG (i : Nat) : Nat := 0x60008090A08 + i * 0x10
def TKT_CRING_CFG_SIZE_LOG2 (i : Nat) : Fld := ⟨rTKT_CRING_CFG i, 0, 4⟩
def TKT_CRING_CFG_ENABLE (i : Nat) : Fld := ⟨rTKT_CRING_CFG i, 4, 1⟩
def TKT_CRING_CFG_TAIL (i : Nat) : Fld := ⟨rTKT_CRING_CFG i, 16, 16⟩
def TKT_CRING_CFG_LOST (i : Nat) : Fld := ⟨rTKT_CRING_CFG i, 32, 16⟩
def descTKT_CRING_CFG : RegDesc := [⟨0, 4, .rw, 6⟩, ⟨4, 1, .rw, 0⟩, ⟨16, 16, .ro, 0⟩, ⟨32, 16, .ro, 0⟩]
/-- Module address of `JNL_CTRL` (R494, 15_host_tickets_loop_service.md). -/
def rJNL_CTRL : Nat := 0x600080A0000
def JNL_CTRL_MIRROR : Fld := ⟨rJNL_CTRL, 0, 1⟩
def JNL_CTRL_RETAIN_SNAP : Fld := ⟨rJNL_CTRL, 1, 1⟩
def descJNL_CTRL : RegDesc := [⟨0, 1, .rs, 1⟩, ⟨1, 1, .rs, 1⟩]
/-- Module address of `JNL_STAT` (R494, 15_host_tickets_loop_service.md). -/
def rJNL_STAT : Nat := 0x600080A0008
def JNL_STAT_READY : Fld := ⟨rJNL_STAT, 0, 1⟩
def JNL_STAT_MIRROR_UP : Fld := ⟨rJNL_STAT, 1, 1⟩
def JNL_STAT_HOLDING : Fld := ⟨rJNL_STAT, 2, 1⟩
def JNL_STAT_HELD : Fld := ⟨rJNL_STAT, 16, 14⟩
def JNL_STAT_UNMIRRORED : Fld := ⟨rJNL_STAT, 32, 32⟩
def descJNL_STAT : RegDesc := [⟨0, 1, .ro, 0⟩, ⟨1, 1, .ro, 0⟩, ⟨2, 1, .ro, 0⟩, ⟨16, 14, .ro, 0⟩, ⟨32, 32, .ro, 0⟩]
/-- Module address of `JNL_PEEK_ADDR` (R494, 15_host_tickets_loop_service.md). -/
def rJNL_PEEK_ADDR : Nat := 0x600080A0010
def JNL_PEEK_ADDR_OFFSET : Fld := ⟨rJNL_PEEK_ADDR, 6, 20⟩
def descJNL_PEEK_ADDR : RegDesc := [⟨6, 20, .rw, 0⟩]
/-- Module address of `JNL_COUNT` (R494, 15_host_tickets_loop_service.md). -/
def rJNL_COUNT : Nat := 0x600080A0018
def JNL_COUNT_WRITES : Fld := ⟨rJNL_COUNT, 0, 32⟩
def JNL_COUNT_CORRECTED : Fld := ⟨rJNL_COUNT, 32, 16⟩
def JNL_COUNT_LEAF_FAILS : Fld := ⟨rJNL_COUNT, 48, 16⟩
def descJNL_COUNT : RegDesc := [⟨0, 32, .ro, 0⟩, ⟨32, 16, .ro, 0⟩, ⟨48, 16, .ro, 0⟩]
/-- Module address of `JNL_PEEK_DATA` (R494, 15_host_tickets_loop_service.md). -/
def rJNL_PEEK_DATA (i : Nat) : Nat := 0x600080A0040 + i * 0x8
def JNL_PEEK_DATA_DATA (i : Nat) : Fld := ⟨rJNL_PEEK_DATA i, 0, 64⟩
def descJNL_PEEK_DATA : RegDesc := [⟨0, 64, .ro, 0⟩]
/-- Module address of `KPR_VERSION` (R528, 16_keeper_management.md). -/
def rKPR_VERSION : Nat := 0x600080B0000
def KPR_VERSION_FW_VERSION : Fld := ⟨rKPR_VERSION, 0, 16⟩
def KPR_VERSION_TICKET_FORMAT : Fld := ⟨rKPR_VERSION, 16, 8⟩
def KPR_VERSION_FABRIC_MIN : Fld := ⟨rKPR_VERSION, 24, 4⟩
def KPR_VERSION_FABRIC_MAX : Fld := ⟨rKPR_VERSION, 28, 4⟩
def KPR_VERSION_DAMIM : Fld := ⟨rKPR_VERSION, 32, 8⟩
def KPR_VERSION_SNAP_READ_MIN : Fld := ⟨rKPR_VERSION, 40, 4⟩
def KPR_VERSION_SNAP_WRITE : Fld := ⟨rKPR_VERSION, 44, 4⟩
def descKPR_VERSION : RegDesc := [⟨0, 16, .ro, 0⟩, ⟨16, 8, .ro, 1⟩, ⟨24, 4, .ro, 1⟩, ⟨28, 4, .ro, 2⟩, ⟨32, 8, .ro, 2⟩, ⟨40, 4, .ro, 1⟩, ⟨44, 4, .ro, 2⟩]
/-- Module address of `KPR_STAT` (R528, 16_keeper_management.md). -/
def rKPR_STAT : Nat := 0x600080B0008
def KPR_STAT_TICK : Fld := ⟨rKPR_STAT, 0, 32⟩
def KPR_STAT_LOCKSTEP_RESTARTS : Fld := ⟨rKPR_STAT, 32, 8⟩
def KPR_STAT_LISTS : Fld := ⟨rKPR_STAT, 40, 4⟩
def descKPR_STAT : RegDesc := [⟨0, 32, .ro, 0⟩, ⟨32, 8, .ro, 0⟩, ⟨40, 4, .ro, 0⟩]
/-- Module address of `KPR_POLICY` (R528, 16_keeper_management.md). -/
def rKPR_POLICY : Nat := 0x600080B0010
def KPR_POLICY_CLK_AUTO : Fld := ⟨rKPR_POLICY, 0, 1⟩
def KPR_POLICY_MAINT : Fld := ⟨rKPR_POLICY, 1, 1⟩
def KPR_POLICY_CE_LIMIT : Fld := ⟨rKPR_POLICY, 8, 8⟩
def KPR_POLICY_QUIESCE_TICKS : Fld := ⟨rKPR_POLICY, 16, 8⟩
def descKPR_POLICY : RegDesc := [⟨0, 1, .rs, 1⟩, ⟨1, 1, .rs, 1⟩, ⟨8, 8, .rs, 64⟩, ⟨16, 8, .rs, 4⟩]
/-- Module address of `KPR_CS_STAT` (R528, 16_keeper_management.md). -/
def rKPR_CS_STAT : Nat := 0x600080B0018
def KPR_CS_STAT_STATE : Fld := ⟨rKPR_CS_STAT, 0, 2⟩
def KPR_CS_STAT_OWNER : Fld := ⟨rKPR_CS_STAT, 2, 1⟩
def KPR_CS_STAT_FULL : Fld := ⟨rKPR_CS_STAT, 3, 1⟩
def KPR_CS_STAT_STAGED : Fld := ⟨rKPR_CS_STAT, 4, 13⟩
def KPR_CS_STAT_LAST_STATUS : Fld := ⟨rKPR_CS_STAT, 32, 16⟩
def descKPR_CS_STAT : RegDesc := [⟨0, 2, .ro, 0⟩, ⟨2, 1, .ro, 0⟩, ⟨3, 1, .ro, 0⟩, ⟨4, 13, .ro, 0⟩, ⟨32, 16, .ro, 0⟩]
/-- Module address of `KPR_CS_PEEK_ADDR` (R528, 16_keeper_management.md). -/
def rKPR_CS_PEEK_ADDR : Nat := 0x600080B0020
def KPR_CS_PEEK_ADDR_ADDR : Fld := ⟨rKPR_CS_PEEK_ADDR, 3, 40⟩
def descKPR_CS_PEEK_ADDR : RegDesc := [⟨3, 40, .rw, 0⟩]
/-- Module address of `KPR_CS_PEEK_DATA` (R528, 16_keeper_management.md). -/
def rKPR_CS_PEEK_DATA : Nat := 0x600080B0028
def KPR_CS_PEEK_DATA_DATA : Fld := ⟨rKPR_CS_PEEK_DATA, 0, 64⟩
def descKPR_CS_PEEK_DATA : RegDesc := [⟨0, 64, .ro, 0⟩]
/-- Module address of `KPR_CS_PEEK_MASK` (R528, 16_keeper_management.md). -/
def rKPR_CS_PEEK_MASK : Nat := 0x600080B0030
def KPR_CS_PEEK_MASK_MASK : Fld := ⟨rKPR_CS_PEEK_MASK, 0, 64⟩
def descKPR_CS_PEEK_MASK : RegDesc := [⟨0, 64, .ro, 0⟩]
/-- Module address of `KPR_CS_ID` (R528, 16_keeper_management.md). -/
def rKPR_CS_ID : Nat := 0x600080B0038
def KPR_CS_ID_CS_ID : Fld := ⟨rKPR_CS_ID, 0, 32⟩
def descKPR_CS_ID : RegDesc := [⟨0, 32, .ro, 0⟩]
/-- Module address of `KPR_CMD` (R528, 16_keeper_management.md). -/
def rKPR_CMD (n : Nat) : Nat := 0x600080B0040 + n * 0x20
def KPR_CMD_CMD (n : Nat) : Fld := ⟨rKPR_CMD n, 0, 8⟩
def KPR_CMD_TAG (n : Nat) : Fld := ⟨rKPR_CMD n, 8, 8⟩
def descKPR_CMD : RegDesc := [⟨0, 8, .wo, 0⟩, ⟨8, 8, .wo, 0⟩]
/-- Module address of `KPR_CMD_ARG0` (R528, 16_keeper_management.md). -/
def rKPR_CMD_ARG0 (n : Nat) : Nat := 0x600080B0048 + n * 0x20
def KPR_CMD_ARG0_ARG (n : Nat) : Fld := ⟨rKPR_CMD_ARG0 n, 0, 64⟩
def descKPR_CMD_ARG0 : RegDesc := [⟨0, 64, .rw, 0⟩]
/-- Module address of `KPR_CMD_ARG1` (R528, 16_keeper_management.md). -/
def rKPR_CMD_ARG1 (n : Nat) : Nat := 0x600080B0050 + n * 0x20
def KPR_CMD_ARG1_ARG (n : Nat) : Fld := ⟨rKPR_CMD_ARG1 n, 0, 64⟩
def descKPR_CMD_ARG1 : RegDesc := [⟨0, 64, .rw, 0⟩]
/-- Module address of `KPR_CMD_STAT` (R528, 16_keeper_management.md). -/
def rKPR_CMD_STAT (n : Nat) : Nat := 0x600080B0058 + n * 0x20
def KPR_CMD_STAT_BUSY (n : Nat) : Fld := ⟨rKPR_CMD_STAT n, 0, 1⟩
def KPR_CMD_STAT_OVERRUN (n : Nat) : Fld := ⟨rKPR_CMD_STAT n, 1, 1⟩
def KPR_CMD_STAT_TAG (n : Nat) : Fld := ⟨rKPR_CMD_STAT n, 8, 8⟩
def KPR_CMD_STAT_STATUS (n : Nat) : Fld := ⟨rKPR_CMD_STAT n, 16, 16⟩
def descKPR_CMD_STAT : RegDesc := [⟨0, 1, .ro, 0⟩, ⟨1, 1, .w1c, 0⟩, ⟨8, 8, .ro, 0⟩, ⟨16, 16, .ro, 0⟩]
/-- Module address of `KPR_SWAP_STAT` (R528, 16_keeper_management.md). -/
def rKPR_SWAP_STAT : Nat := 0x600080B0080
def KPR_SWAP_STAT_KIND : Fld := ⟨rKPR_SWAP_STAT, 0, 2⟩
def KPR_SWAP_STAT_ACTIVE : Fld := ⟨rKPR_SWAP_STAT, 2, 1⟩
def KPR_SWAP_STAT_LAST_STATUS : Fld := ⟨rKPR_SWAP_STAT, 16, 16⟩
def KPR_SWAP_STAT_SWAPS : Fld := ⟨rKPR_SWAP_STAT, 32, 16⟩
def descKPR_SWAP_STAT : RegDesc := [⟨0, 2, .ro, 0⟩, ⟨2, 1, .ro, 0⟩, ⟨16, 16, .ro, 0⟩, ⟨32, 16, .ro, 0⟩]
/-- Module address of `ERR_CTRL` (R529, 16_keeper_management.md). -/
def rERR_CTRL : Nat := 0x600080C0000
def ERR_CTRL_MASK_NF : Fld := ⟨rERR_CTRL, 0, 32⟩
def ERR_CTRL_MASK_F : Fld := ⟨rERR_CTRL, 32, 32⟩
def descERR_CTRL : RegDesc := [⟨0, 32, .rw, 4294967295⟩, ⟨32, 32, .rw, 4294967295⟩]
/-- Module address of `ERR_GEN` (R529, 16_keeper_management.md). -/
def rERR_GEN : Nat := 0x600080C0008
def ERR_GEN_HEAD : Fld := ⟨rERR_GEN, 0, 16⟩
def ERR_GEN_TAIL : Fld := ⟨rERR_GEN, 16, 16⟩
def descERR_GEN : RegDesc := [⟨0, 16, .rw, 0⟩, ⟨16, 16, .ro, 0⟩]
/-- Module address of `ERR_RSV` (R529, 16_keeper_management.md). -/
def rERR_RSV : Nat := 0x600080C0010
def ERR_RSV_HEAD : Fld := ⟨rERR_RSV, 0, 16⟩
def ERR_RSV_TAIL : Fld := ⟨rERR_RSV, 16, 16⟩
def descERR_RSV : RegDesc := [⟨0, 16, .rw, 0⟩, ⟨16, 16, .ro, 0⟩]
/-- Module address of `ERR_STAT` (R529, 16_keeper_management.md). -/
def rERR_STAT : Nat := 0x600080C0018
def ERR_STAT_SEQ_NEXT : Fld := ⟨rERR_STAT, 0, 32⟩
def ERR_STAT_FATAL_LOST : Fld := ⟨rERR_STAT, 32, 16⟩
def descERR_STAT : RegDesc := [⟨0, 32, .ro, 0⟩, ⟨32, 16, .ro, 0⟩]
/-- Module address of `ERR_PEND` (R529, 16_keeper_management.md). -/
def rERR_PEND : Nat := 0x600080C0020
def ERR_PEND_PENDING : Fld := ⟨rERR_PEND, 0, 32⟩
def descERR_PEND : RegDesc := [⟨0, 32, .ro, 0⟩]
/-- Module address of `ERR_LOST` (R529, 16_keeper_management.md). -/
def rERR_LOST (i : Nat) : Nat := 0x600080C0040 + i * 0x8
def ERR_LOST_LOST0 (i : Nat) : Fld := ⟨rERR_LOST i, 0, 16⟩
def ERR_LOST_LOST1 (i : Nat) : Fld := ⟨rERR_LOST i, 16, 16⟩
def ERR_LOST_LOST2 (i : Nat) : Fld := ⟨rERR_LOST i, 32, 16⟩
def ERR_LOST_LOST3 (i : Nat) : Fld := ⟨rERR_LOST i, 48, 16⟩
def descERR_LOST : RegDesc := [⟨0, 16, .ro, 0⟩, ⟨16, 16, .ro, 0⟩, ⟨32, 16, .ro, 0⟩, ⟨48, 16, .ro, 0⟩]
/-- Module address of `CLK_STAT` (R559, 17_clocks_power_thermal.md). -/
def rCLK_STAT : Nat := 0x600080F0000
def CLK_STAT_REF_OK : Fld := ⟨rCLK_STAT, 0, 1⟩
def CLK_STAT_COAST : Fld := ⟨rCLK_STAT, 1, 1⟩
def CLK_STAT_BACKUP_OK : Fld := ⟨rCLK_STAT, 2, 1⟩
def CLK_STAT_COAST_EVENT : Fld := ⟨rCLK_STAT, 3, 1⟩
def CLK_STAT_REF_PPM : Fld := ⟨rCLK_STAT, 8, 16⟩
def CLK_STAT_COASTS : Fld := ⟨rCLK_STAT, 24, 16⟩
def descCLK_STAT : RegDesc := [⟨0, 1, .ro, 0⟩, ⟨1, 1, .ro, 0⟩, ⟨2, 1, .ro, 0⟩, ⟨3, 1, .w1c, 0⟩, ⟨8, 16, .ro, 0⟩, ⟨24, 16, .ro, 0⟩]
/-- Module address of `CLK_CTRL` (R559, 17_clocks_power_thermal.md). -/
def rCLK_CTRL : Nat := 0x600080F0008
def CLK_CTRL_RETURN_TICKS : Fld := ⟨rCLK_CTRL, 0, 16⟩
def descCLK_CTRL : RegDesc := [⟨0, 16, .rs, 16⟩]
/-- Module address of `PWR_CTRL` (R560, 17_clocks_power_thermal.md). -/
def rPWR_CTRL : Nat := 0x60008100000
def PWR_CTRL_WATTS : Fld := ⟨rPWR_CTRL, 0, 16⟩
def PWR_CTRL_FEED_STEP : Fld := ⟨rPWR_CTRL, 16, 6⟩
def PWR_CTRL_IDLE_OFF : Fld := ⟨rPWR_CTRL, 22, 1⟩
def descPWR_CTRL : RegDesc := [⟨0, 16, .rs, 10800⟩, ⟨16, 6, .rs, 16⟩, ⟨22, 1, .rs, 1⟩]
/-- Module address of `PWR_STAT` (R560, 17_clocks_power_thermal.md). -/
def rPWR_STAT : Nat := 0x60008100008
def PWR_STAT_DRAW_W : Fld := ⟨rPWR_STAT, 0, 16⟩
def PWR_STAT_CAP_W : Fld := ⟨rPWR_STAT, 16, 16⟩
def PWR_STAT_CAPPED : Fld := ⟨rPWR_STAT, 32, 1⟩
def PWR_STAT_FEED_CAP : Fld := ⟨rPWR_STAT, 33, 1⟩
def descPWR_STAT : RegDesc := [⟨0, 16, .ro, 0⟩, ⟨16, 16, .ro, 10800⟩, ⟨32, 1, .ro, 0⟩, ⟨33, 1, .ro, 0⟩]
/-- Module address of `PWR_FEED_A` (R560, 17_clocks_power_thermal.md). -/
def rPWR_FEED_A : Nat := 0x60008100010
def PWR_FEED_A_FEED_ID : Fld := ⟨rPWR_FEED_A, 0, 16⟩
def PWR_FEED_A_ID_VALID : Fld := ⟨rPWR_FEED_A, 16, 1⟩
def PWR_FEED_A_PRESENT : Fld := ⟨rPWR_FEED_A, 17, 1⟩
def PWR_FEED_A_OV : Fld := ⟨rPWR_FEED_A, 18, 1⟩
def PWR_FEED_A_LOSS : Fld := ⟨rPWR_FEED_A, 19, 1⟩
def PWR_FEED_A_MILLIVOLTS : Fld := ⟨rPWR_FEED_A, 32, 16⟩
def PWR_FEED_A_DECIAMPS : Fld := ⟨rPWR_FEED_A, 48, 16⟩
def descPWR_FEED_A : RegDesc := [⟨0, 16, .ro, 0⟩, ⟨16, 1, .ro, 0⟩, ⟨17, 1, .ro, 0⟩, ⟨18, 1, .ro, 0⟩, ⟨19, 1, .w1c, 0⟩, ⟨32, 16, .ro, 0⟩, ⟨48, 16, .ro, 0⟩]
/-- Module address of `PWR_FEED_B` (R560, 17_clocks_power_thermal.md). -/
def rPWR_FEED_B : Nat := 0x60008100018
def PWR_FEED_B_FEED_ID : Fld := ⟨rPWR_FEED_B, 0, 16⟩
def PWR_FEED_B_ID_VALID : Fld := ⟨rPWR_FEED_B, 16, 1⟩
def PWR_FEED_B_PRESENT : Fld := ⟨rPWR_FEED_B, 17, 1⟩
def PWR_FEED_B_OV : Fld := ⟨rPWR_FEED_B, 18, 1⟩
def PWR_FEED_B_LOSS : Fld := ⟨rPWR_FEED_B, 19, 1⟩
def PWR_FEED_B_MILLIVOLTS : Fld := ⟨rPWR_FEED_B, 32, 16⟩
def PWR_FEED_B_DECIAMPS : Fld := ⟨rPWR_FEED_B, 48, 16⟩
def descPWR_FEED_B : RegDesc := [⟨0, 16, .ro, 0⟩, ⟨16, 1, .ro, 0⟩, ⟨17, 1, .ro, 0⟩, ⟨18, 1, .ro, 0⟩, ⟨19, 1, .w1c, 0⟩, ⟨32, 16, .ro, 0⟩, ⟨48, 16, .ro, 0⟩]
/-- Module address of `PWR_DOM_ON0` (R560, 17_clocks_power_thermal.md). -/
def rPWR_DOM_ON0 : Nat := 0x60008100020
def PWR_DOM_ON0_ON : Fld := ⟨rPWR_DOM_ON0, 0, 64⟩
def descPWR_DOM_ON0 : RegDesc := [⟨0, 64, .ro, 0⟩]
/-- Module address of `PWR_DOM_ON1` (R560, 17_clocks_power_thermal.md). -/
def rPWR_DOM_ON1 : Nat := 0x60008100028
def PWR_DOM_ON1_ON : Fld := ⟨rPWR_DOM_ON1, 0, 16⟩
def descPWR_DOM_ON1 : RegDesc := [⟨0, 16, .ro, 0⟩]
/-- Module address of `PWR_DOM_FAIL0` (R560, 17_clocks_power_thermal.md). -/
def rPWR_DOM_FAIL0 : Nat := 0x60008100030
def PWR_DOM_FAIL0_FAIL : Fld := ⟨rPWR_DOM_FAIL0, 0, 64⟩
def descPWR_DOM_FAIL0 : RegDesc := [⟨0, 64, .ro, 0⟩]
/-- Module address of `PWR_DOM_FAIL1` (R560, 17_clocks_power_thermal.md). -/
def rPWR_DOM_FAIL1 : Nat := 0x60008100038
def PWR_DOM_FAIL1_FAIL : Fld := ⟨rPWR_DOM_FAIL1, 0, 16⟩
def descPWR_DOM_FAIL1 : RegDesc := [⟨0, 16, .ro, 0⟩]
/-- Module address of `PWR_HUB_CTRL` (R560, 17_clocks_power_thermal.md). -/
def rPWR_HUB_CTRL : Nat := 0x60008100040
def PWR_HUB_CTRL_H0_ON : Fld := ⟨rPWR_HUB_CTRL, 0, 1⟩
def PWR_HUB_CTRL_H1_ON : Fld := ⟨rPWR_HUB_CTRL, 1, 1⟩
def PWR_HUB_CTRL_A_ON : Fld := ⟨rPWR_HUB_CTRL, 2, 1⟩
def descPWR_HUB_CTRL : RegDesc := [⟨0, 1, .rs, 1⟩, ⟨1, 1, .rs, 1⟩, ⟨2, 1, .rs, 1⟩]
/-- Module address of `PWR_COUNT` (R560, 17_clocks_power_thermal.md). -/
def rPWR_COUNT : Nat := 0x60008100048
def PWR_COUNT_FEED_LOSSES : Fld := ⟨rPWR_COUNT, 0, 16⟩
def PWR_COUNT_CAP_EVENTS : Fld := ⟨rPWR_COUNT, 16, 16⟩
def PWR_COUNT_SWITCHES : Fld := ⟨rPWR_COUNT, 32, 16⟩
def descPWR_COUNT : RegDesc := [⟨0, 16, .ro, 0⟩, ⟨16, 16, .ro, 0⟩, ⟨32, 16, .ro, 0⟩]
/-- Module address of `PWR_THERM_CTRL` (R560, 17_clocks_power_thermal.md). -/
def rPWR_THERM_CTRL : Nat := 0x60008100050
def PWR_THERM_CTRL_DIE_THROTTLE_C : Fld := ⟨rPWR_THERM_CTRL, 0, 8⟩
def PWR_THERM_CTRL_HBM_THROTTLE_C : Fld := ⟨rPWR_THERM_CTRL, 8, 8⟩
def PWR_THERM_CTRL_COOLANT_MAX_C : Fld := ⟨rPWR_THERM_CTRL, 16, 8⟩
def descPWR_THERM_CTRL : RegDesc := [⟨0, 8, .rs, 95⟩, ⟨8, 8, .rs, 85⟩, ⟨16, 8, .rs, 45⟩]
/-- Module address of `PWR_THERM_HUB` (R560, 17_clocks_power_thermal.md). -/
def rPWR_THERM_HUB : Nat := 0x60008100058
def PWR_THERM_HUB_HUB_C : Fld := ⟨rPWR_THERM_HUB, 0, 32⟩
def PWR_THERM_HUB_INLET_C : Fld := ⟨rPWR_THERM_HUB, 32, 8⟩
def PWR_THERM_HUB_OUTLET_C : Fld := ⟨rPWR_THERM_HUB, 40, 8⟩
def descPWR_THERM_HUB : RegDesc := [⟨0, 32, .ro, 0⟩, ⟨32, 8, .ro, 0⟩, ⟨40, 8, .ro, 0⟩]
/-- Module address of `SEC_STAT` (R577, 18_security_identity.md). -/
def rSEC_STAT : Nat := 0x60008110000
def SEC_STAT_BOOT_SLOT : Fld := ⟨rSEC_STAT, 0, 1⟩
def SEC_STAT_FALLBACK : Fld := ⟨rSEC_STAT, 1, 1⟩
def SEC_STAT_RECOVERY : Fld := ⟨rSEC_STAT, 2, 1⟩
def SEC_STAT_STAGED : Fld := ⟨rSEC_STAT, 3, 1⟩
def SEC_STAT_REVOKED : Fld := ⟨rSEC_STAT, 4, 4⟩
def SEC_STAT_LAST_CODE : Fld := ⟨rSEC_STAT, 16, 16⟩
def descSEC_STAT : RegDesc := [⟨0, 1, .ro, 0⟩, ⟨1, 1, .ro, 0⟩, ⟨2, 1, .ro, 0⟩, ⟨3, 1, .ro, 0⟩, ⟨4, 4, .ro, 0⟩, ⟨16, 16, .ro, 0⟩]
/-- Module address of `SEC_SVN` (R577, 18_security_identity.md). -/
def rSEC_SVN : Nat := 0x60008110008
def SEC_SVN_RUNNING : Fld := ⟨rSEC_SVN, 0, 32⟩
def SEC_SVN_FLOOR : Fld := ⟨rSEC_SVN, 32, 32⟩
def descSEC_SVN : RegDesc := [⟨0, 32, .ro, 0⟩, ⟨32, 32, .ro, 0⟩]
/-- Module address of `SEC_LOG` (R577, 18_security_identity.md). -/
def rSEC_LOG : Nat := 0x60008110010
def SEC_LOG_ENTRIES : Fld := ⟨rSEC_LOG, 0, 32⟩
def descSEC_LOG : RegDesc := [⟨0, 32, .ro, 0⟩]
/-- Module address of `SEC_LOG_PEEK` (R577, 18_security_identity.md). -/
def rSEC_LOG_PEEK : Nat := 0x60008110018
def SEC_LOG_PEEK_ENTRY : Fld := ⟨rSEC_LOG_PEEK, 0, 10⟩
def descSEC_LOG_PEEK : RegDesc := [⟨0, 10, .rw, 0⟩]
/-- Module address of `SEC_COUNT` (R577, 18_security_identity.md). -/
def rSEC_COUNT : Nat := 0x60008110080
def SEC_COUNT_SPDM_REQUESTS : Fld := ⟨rSEC_COUNT, 0, 16⟩
def SEC_COUNT_KEYGENS : Fld := ⟨rSEC_COUNT, 16, 16⟩
def SEC_COUNT_FLASH_WRITES : Fld := ⟨rSEC_COUNT, 32, 16⟩
def descSEC_COUNT : RegDesc := [⟨0, 16, .ro, 0⟩, ⟨16, 16, .ro, 0⟩, ⟨32, 16, .ro, 0⟩]
/-- Module address of `SEC_LOG_DATA` (R577, 18_security_identity.md). -/
def rSEC_LOG_DATA (i : Nat) : Nat := 0x60008110040 + i * 0x8
def SEC_LOG_DATA_DATA (i : Nat) : Fld := ⟨rSEC_LOG_DATA i, 0, 64⟩
def descSEC_LOG_DATA : RegDesc := [⟨0, 64, .ro, 0⟩]
/-- Module address of `MEM_CTRL` (R278, 08_scratch_streams_layout.md). -/
def rMEM_CTRL (d : Nat) : Nat := 0x60000030000 + d * 0x1000000
def MEM_CTRL_SCRUB_EN (d : Nat) : Fld := ⟨rMEM_CTRL d, 0, 1⟩
def MEM_CTRL_SCRUB_HOURS (d : Nat) : Fld := ⟨rMEM_CTRL d, 8, 8⟩
def MEM_CTRL_RH_THRESHOLD (d : Nat) : Fld := ⟨rMEM_CTRL d, 16, 16⟩
def MEM_CTRL_TURN_MAX (d : Nat) : Fld := ⟨rMEM_CTRL d, 32, 16⟩
def descMEM_CTRL : RegDesc := [⟨0, 1, .rs, 1⟩, ⟨8, 8, .rs, 24⟩, ⟨16, 16, .rs, 4096⟩, ⟨32, 16, .rs, 4096⟩]
/-- Module address of `MEM_XF_COUNT` (R279, 08_scratch_streams_layout.md). -/
def rMEM_XF_COUNT (d : Nat) : Nat := 0x60000030008 + d * 0x1000000
def MEM_XF_COUNT_DROPPED (d : Nat) : Fld := ⟨rMEM_XF_COUNT d, 0, 32⟩
def MEM_XF_COUNT_INDEX_OOR (d : Nat) : Fld := ⟨rMEM_XF_COUNT d, 32, 32⟩
def descMEM_XF_COUNT : RegDesc := [⟨0, 32, .ro, 0⟩, ⟨32, 32, .ro, 0⟩]
/-- Module address of `MEM_XF_LAST` (R280, 08_scratch_streams_layout.md). -/
def rMEM_XF_LAST (d : Nat) : Nat := 0x60000030010 + d * 0x1000000
def MEM_XF_LAST_CODE (d : Nat) : Fld := ⟨rMEM_XF_LAST d, 0, 4⟩
def MEM_XF_LAST_CORE (d : Nat) : Fld := ⟨rMEM_XF_LAST d, 4, 5⟩
def MEM_XF_LAST_OP (d : Nat) : Fld := ⟨rMEM_XF_LAST d, 12, 6⟩
def MEM_XF_LAST_FAULTS (d : Nat) : Fld := ⟨rMEM_XF_LAST d, 32, 32⟩
def descMEM_XF_LAST : RegDesc := [⟨0, 4, .ro, 0⟩, ⟨4, 5, .ro, 0⟩, ⟨12, 6, .ro, 0⟩, ⟨32, 32, .ro, 0⟩]
/-- Module address of `MEM_XF_ADDR` (R280, 08_scratch_streams_layout.md). -/
def rMEM_XF_ADDR (d : Nat) : Nat := 0x60000030018 + d * 0x1000000
def MEM_XF_ADDR_ADDR (d : Nat) : Fld := ⟨rMEM_XF_ADDR d, 0, 57⟩
def descMEM_XF_ADDR : RegDesc := [⟨0, 57, .ro, 0⟩]
/-- Module address of `MEM_STACK_STAT` (R281, 08_scratch_streams_layout.md). -/
def rMEM_STACK_STAT (d : Nat) (k : Nat) : Nat := 0x60000030100 + d * 0x1000000 + k * 0x40
def MEM_STACK_STAT_PRESENT (d : Nat) (k : Nat) : Fld := ⟨rMEM_STACK_STAT d k, 0, 1⟩
def MEM_STACK_STAT_FAILED (d : Nat) (k : Nat) : Fld := ⟨rMEM_STACK_STAT d k, 1, 1⟩
def MEM_STACK_STAT_CE_COUNT (d : Nat) (k : Nat) : Fld := ⟨rMEM_STACK_STAT d k, 16, 16⟩
def MEM_STACK_STAT_UE_COUNT (d : Nat) (k : Nat) : Fld := ⟨rMEM_STACK_STAT d k, 32, 16⟩
def descMEM_STACK_STAT : RegDesc := [⟨0, 1, .ro, 0⟩, ⟨1, 1, .ro, 0⟩, ⟨16, 16, .ro, 0⟩, ⟨32, 16, .ro, 0⟩]
/-- Module address of `MEM_STACK_SCRUB` (R281, 08_scratch_streams_layout.md). -/
def rMEM_STACK_SCRUB (d : Nat) (k : Nat) : Nat := 0x60000030108 + d * 0x1000000 + k * 0x40
def MEM_STACK_SCRUB_SCRUB_PASSES (d : Nat) (k : Nat) : Fld := ⟨rMEM_STACK_SCRUB d k, 0, 32⟩
def MEM_STACK_SCRUB_RH_REFRESHES (d : Nat) (k : Nat) : Fld := ⟨rMEM_STACK_SCRUB d k, 32, 32⟩
def descMEM_STACK_SCRUB : RegDesc := [⟨0, 32, .ro, 0⟩, ⟨32, 32, .ro, 0⟩]
/-- Module address of `RDU_UNIT` (R328, 10_gradient_reduction.md). -/
def rRDU_UNIT (d : Nat) : Nat := 0x60000040000 + d * 0x1000000
def RDU_UNIT_FENCED (d : Nat) : Fld := ⟨rRDU_UNIT d, 0, 1⟩
def RDU_UNIT_PARTNER_ACTIVE (d : Nat) : Fld := ⟨rRDU_UNIT d, 1, 1⟩
def RDU_UNIT_HOLD_BUF_KIB (d : Nat) : Fld := ⟨rRDU_UNIT d, 8, 16⟩
def descRDU_UNIT : RegDesc := [⟨0, 1, .ro, 0⟩, ⟨1, 1, .ro, 0⟩, ⟨8, 16, .ro, 2048⟩]
/-- Module address of `RDU_COUNT` (R328, 10_gradient_reduction.md). -/
def rRDU_COUNT (d : Nat) : Nat := 0x60000040008 + d * 0x1000000
def RDU_COUNT_PACKETS (d : Nat) : Fld := ⟨rRDU_COUNT d, 0, 32⟩
def RDU_COUNT_STALE (d : Nat) : Fld := ⟨rRDU_COUNT d, 32, 16⟩
def RDU_COUNT_CHECK_FAILS (d : Nat) : Fld := ⟨rRDU_COUNT d, 48, 8⟩
def RDU_COUNT_NONFINITE (d : Nat) : Fld := ⟨rRDU_COUNT d, 56, 8⟩
def descRDU_COUNT : RegDesc := [⟨0, 32, .ro, 0⟩, ⟨32, 16, .ro, 0⟩, ⟨48, 8, .ro, 0⟩, ⟨56, 8, .ro, 0⟩]
/-- Module address of `RDU_LAST_FAIL` (R328, 10_gradient_reduction.md). -/
def rRDU_LAST_FAIL (d : Nat) : Nat := 0x60000040010 + d * 0x1000000
def RDU_LAST_FAIL_BUCKET_ID (d : Nat) : Fld := ⟨rRDU_LAST_FAIL d, 0, 32⟩
def RDU_LAST_FAIL_PACKET (d : Nat) : Fld := ⟨rRDU_LAST_FAIL d, 32, 17⟩
def RDU_LAST_FAIL_KIND (d : Nat) : Fld := ⟨rRDU_LAST_FAIL d, 49, 2⟩
def RDU_LAST_FAIL_SOURCE (d : Nat) : Fld := ⟨rRDU_LAST_FAIL d, 51, 5⟩
def RDU_LAST_FAIL_ATTEMPT (d : Nat) : Fld := ⟨rRDU_LAST_FAIL d, 56, 8⟩
def descRDU_LAST_FAIL : RegDesc := [⟨0, 32, .ro, 0⟩, ⟨32, 17, .ro, 0⟩, ⟨49, 2, .ro, 0⟩, ⟨51, 5, .ro, 0⟩, ⟨56, 8, .ro, 0⟩]
/-- Module address of `KWY_CAP` (R362, 11_keyway_expert_routing.md). -/
def rKWY_CAP (d : Nat) : Nat := 0x60000050000 + d * 0x1000000
def KWY_CAP_MODE (d : Nat) : Fld := ⟨rKWY_CAP d, 0, 2⟩
def descKWY_CAP : RegDesc := [⟨0, 2, .rs, 0⟩]
/-- Module address of `KWY_WLT` (R363, 11_keyway_expert_routing.md). -/
def rKWY_WLT (d : Nat) : Nat := 0x60000050008 + d * 0x1000000
def KWY_WLT_ENABLE (d : Nat) : Fld := ⟨rKWY_WLT d, 0, 1⟩
def KWY_WLT_BASE (d : Nat) : Fld := ⟨rKWY_WLT d, 6, 37⟩
def descKWY_WLT : RegDesc := [⟨0, 1, .rs, 0⟩, ⟨6, 37, .rs, 0⟩]
/-- Module address of `KWY_COUNT` (R363, 11_keyway_expert_routing.md). -/
def rKWY_COUNT (d : Nat) : Nat := 0x60000050010 + d * 0x1000000
def KWY_COUNT_DROPPED (d : Nat) : Fld := ⟨rKWY_COUNT d, 0, 32⟩
def KWY_COUNT_NONE (d : Nat) : Fld := ⟨rKWY_COUNT d, 32, 16⟩
def KWY_COUNT_DUPLICATE (d : Nat) : Fld := ⟨rKWY_COUNT d, 48, 16⟩
def descKWY_COUNT : RegDesc := [⟨0, 32, .ro, 0⟩, ⟨32, 16, .ro, 0⟩, ⟨48, 16, .ro, 0⟩]
/-- Module address of `KWY_STALE` (R363, 11_keyway_expert_routing.md). -/
def rKWY_STALE (d : Nat) : Nat := 0x60000050018 + d * 0x1000000
def KWY_STALE_EPOCH (d : Nat) : Fld := ⟨rKWY_STALE d, 0, 32⟩
def KWY_STALE_ATTEMPT (d : Nat) : Fld := ⟨rKWY_STALE d, 32, 32⟩
def descKWY_STALE : RegDesc := [⟨0, 32, .ro, 0⟩, ⟨32, 32, .ro, 0⟩]
/-- Module address of `KWY_TRAFFIC` (R363, 11_keyway_expert_routing.md). -/
def rKWY_TRAFFIC (d : Nat) : Nat := 0x60000050020 + d * 0x1000000
def KWY_TRAFFIC_DISPATCHED (d : Nat) : Fld := ⟨rKWY_TRAFFIC d, 0, 32⟩
def KWY_TRAFFIC_ANSWERED (d : Nat) : Fld := ⟨rKWY_TRAFFIC d, 32, 32⟩
def descKWY_TRAFFIC : RegDesc := [⟨0, 32, .ro, 0⟩, ⟨32, 32, .ro, 0⟩]
/-- Module address of `KWY_LAST` (R363, 11_keyway_expert_routing.md). -/
def rKWY_LAST (d : Nat) : Nat := 0x60000050028 + d * 0x1000000
def KWY_LAST_CODE (d : Nat) : Fld := ⟨rKWY_LAST d, 0, 4⟩
def KWY_LAST_CORE (d : Nat) : Fld := ⟨rKWY_LAST d, 4, 5⟩
def KWY_LAST_OP (d : Nat) : Fld := ⟨rKWY_LAST d, 12, 6⟩
def KWY_LAST_FAULTS (d : Nat) : Fld := ⟨rKWY_LAST d, 32, 32⟩
def descKWY_LAST : RegDesc := [⟨0, 4, .ro, 0⟩, ⟨4, 5, .ro, 0⟩, ⟨12, 6, .ro, 0⟩, ⟨32, 32, .ro, 0⟩]
/-- Module address of `FAB_PORT_CTRL` (R395, 12_fabric.md). -/
def rFAB_PORT_CTRL (d : Nat) (k : Nat) : Nat := 0x60000060000 + d * 0x1000000 + k * 0x100
def FAB_PORT_CTRL_ENABLE (d : Nat) (k : Nat) : Fld := ⟨rFAB_PORT_CTRL d k, 0, 1⟩
def FAB_PORT_CTRL_DATELINE (d : Nat) (k : Nat) : Fld := ⟨rFAB_PORT_CTRL d k, 1, 1⟩
def FAB_PORT_CTRL_RETRAIN (d : Nat) (k : Nat) : Fld := ⟨rFAB_PORT_CTRL d k, 2, 1⟩
def FAB_PORT_CTRL_LANE_INVERT (d : Nat) (k : Nat) : Fld := ⟨rFAB_PORT_CTRL d k, 8, 8⟩
def descFAB_PORT_CTRL : RegDesc := [⟨0, 1, .rs, 0⟩, ⟨1, 1, .rs, 0⟩, ⟨2, 1, .wo, 0⟩, ⟨8, 8, .rs, 0⟩]
/-- Module address of `FAB_PORT_STAT` (R395, 12_fabric.md). -/
def rFAB_PORT_STAT (d : Nat) (k : Nat) : Nat := 0x60000060008 + d * 0x1000000 + k * 0x100
def FAB_PORT_STAT_STATE (d : Nat) (k : Nat) : Fld := ⟨rFAB_PORT_STAT d k, 0, 3⟩
def FAB_PORT_STAT_GROUP (d : Nat) (k : Nat) : Fld := ⟨rFAB_PORT_STAT d k, 3, 1⟩
def FAB_PORT_STAT_WIDTH (d : Nat) (k : Nat) : Fld := ⟨rFAB_PORT_STAT d k, 4, 4⟩
def FAB_PORT_STAT_LANES_GOOD (d : Nat) (k : Nat) : Fld := ⟨rFAB_PORT_STAT d k, 8, 8⟩
def FAB_PORT_STAT_VERSION (d : Nat) (k : Nat) : Fld := ⟨rFAB_PORT_STAT d k, 16, 4⟩
def FAB_PORT_STAT_FAIL_CAUSE (d : Nat) (k : Nat) : Fld := ⟨rFAB_PORT_STAT d k, 24, 4⟩
def FAB_PORT_STAT_DELAY_NS (d : Nat) (k : Nat) : Fld := ⟨rFAB_PORT_STAT d k, 32, 10⟩
def descFAB_PORT_STAT : RegDesc := [⟨0, 3, .ro, 0⟩, ⟨3, 1, .ro, 0⟩, ⟨4, 4, .ro, 0⟩, ⟨8, 8, .ro, 0⟩, ⟨16, 4, .ro, 0⟩, ⟨24, 4, .ro, 0⟩, ⟨32, 10, .ro, 0⟩]
/-- Module address of `FAB_PORT_PEER` (R395, 12_fabric.md). -/
def rFAB_PORT_PEER (d : Nat) (k : Nat) : Nat := 0x60000060010 + d * 0x1000000 + k * 0x100
def FAB_PORT_PEER_KIND (d : Nat) (k : Nat) : Fld := ⟨rFAB_PORT_PEER d k, 0, 2⟩
def FAB_PORT_PEER_PORT (d : Nat) (k : Nat) : Fld := ⟨rFAB_PORT_PEER d k, 8, 8⟩
def FAB_PORT_PEER_ID (d : Nat) (k : Nat) : Fld := ⟨rFAB_PORT_PEER d k, 16, 16⟩
def FAB_PORT_PEER_VERSION_MAX (d : Nat) (k : Nat) : Fld := ⟨rFAB_PORT_PEER d k, 32, 8⟩
def FAB_PORT_PEER_CAPS (d : Nat) (k : Nat) : Fld := ⟨rFAB_PORT_PEER d k, 40, 8⟩
def descFAB_PORT_PEER : RegDesc := [⟨0, 2, .ro, 0⟩, ⟨8, 8, .ro, 0⟩, ⟨16, 16, .ro, 0⟩, ⟨32, 8, .ro, 0⟩, ⟨40, 8, .ro, 0⟩]
/-- Module address of `FAB_PORT_ERR` (R395, 12_fabric.md). -/
def rFAB_PORT_ERR (d : Nat) (k : Nat) : Nat := 0x60000060018 + d * 0x1000000 + k * 0x100
def FAB_PORT_ERR_FEC_CORR (d : Nat) (k : Nat) : Fld := ⟨rFAB_PORT_ERR d k, 0, 32⟩
def FAB_PORT_ERR_FEC_UNCORR (d : Nat) (k : Nat) : Fld := ⟨rFAB_PORT_ERR d k, 32, 16⟩
def FAB_PORT_ERR_RETRIES (d : Nat) (k : Nat) : Fld := ⟨rFAB_PORT_ERR d k, 48, 16⟩
def descFAB_PORT_ERR : RegDesc := [⟨0, 32, .ro, 0⟩, ⟨32, 16, .ro, 0⟩, ⟨48, 16, .ro, 0⟩]
/-- Module address of `FAB_PORT_COUNT` (R395, 12_fabric.md). -/
def rFAB_PORT_COUNT (d : Nat) (k : Nat) : Nat := 0x60000060020 + d * 0x1000000 + k * 0x100
def FAB_PORT_COUNT_KWY_ABSENT (d : Nat) (k : Nat) : Fld := ⟨rFAB_PORT_COUNT d k, 0, 16⟩
def FAB_PORT_COUNT_PATH_FAILS (d : Nat) (k : Nat) : Fld := ⟨rFAB_PORT_COUNT d k, 16, 8⟩
def FAB_PORT_COUNT_LANE_EVENTS (d : Nat) (k : Nat) : Fld := ⟨rFAB_PORT_COUNT d k, 24, 8⟩
def FAB_PORT_COUNT_DOWN_EVENTS (d : Nat) (k : Nat) : Fld := ⟨rFAB_PORT_COUNT d k, 32, 8⟩
def descFAB_PORT_COUNT : RegDesc := [⟨0, 16, .ro, 0⟩, ⟨16, 8, .ro, 0⟩, ⟨24, 8, .ro, 0⟩, ⟨32, 8, .ro, 0⟩]
/-- Module address of `LAT_DIE_STAT` (R429, 13_latch_snapshots.md). -/
def rLAT_DIE_STAT (d : Nat) : Nat := 0x60000070000 + d * 0x1000000
def LAT_DIE_STAT_RESERVED (d : Nat) : Fld := ⟨rLAT_DIE_STAT d, 0, 24⟩
def LAT_DIE_STAT_CUT_HELD (d : Nat) : Fld := ⟨rLAT_DIE_STAT d, 24, 24⟩
def LAT_DIE_STAT_CHANNELS_BUSY (d : Nat) : Fld := ⟨rLAT_DIE_STAT d, 48, 4⟩
def descLAT_DIE_STAT : RegDesc := [⟨0, 24, .ro, 0⟩, ⟨24, 24, .ro, 0⟩, ⟨48, 4, .ro, 0⟩]
/-- Module address of `LAT_DIE_COUNT` (R429, 13_latch_snapshots.md). -/
def rLAT_DIE_COUNT (d : Nat) : Nat := 0x60000070008 + d * 0x1000000
def LAT_DIE_COUNT_COPIES (d : Nat) : Fld := ⟨rLAT_DIE_COUNT d, 0, 32⟩
def LAT_DIE_COUNT_STALL_MAX_NS (d : Nat) : Fld := ⟨rLAT_DIE_COUNT d, 32, 16⟩
def LAT_DIE_COUNT_RESTORES (d : Nat) : Fld := ⟨rLAT_DIE_COUNT d, 48, 16⟩
def descLAT_DIE_COUNT : RegDesc := [⟨0, 32, .ro, 0⟩, ⟨32, 16, .ro, 0⟩, ⟨48, 16, .ro, 0⟩]
/-- Module address of `CLK_DIE_CTRL` (R559, 17_clocks_power_thermal.md). -/
def rCLK_DIE_CTRL (d : Nat) : Nat := 0x60000080000 + d * 0x1000000
def CLK_DIE_CTRL_CEIL_STEP (d : Nat) : Fld := ⟨rCLK_DIE_CTRL d, 0, 6⟩
def descCLK_DIE_CTRL : RegDesc := [⟨0, 6, .rs, 32⟩]
/-- Module address of `CLK_DIE_STAT` (R559, 17_clocks_power_thermal.md). -/
def rCLK_DIE_STAT (d : Nat) : Nat := 0x60000080008 + d * 0x1000000
def CLK_DIE_STAT_STEP (d : Nat) : Fld := ⟨rCLK_DIE_STAT d, 0, 6⟩
def CLK_DIE_STAT_POLICY_STEP (d : Nat) : Fld := ⟨rCLK_DIE_STAT d, 8, 6⟩
def CLK_DIE_STAT_LIMIT_BY (d : Nat) : Fld := ⟨rCLK_DIE_STAT d, 16, 3⟩
def CLK_DIE_STAT_MEASURED_MHZ (d : Nat) : Fld := ⟨rCLK_DIE_STAT d, 32, 16⟩
def descCLK_DIE_STAT : RegDesc := [⟨0, 6, .ro, 4⟩, ⟨8, 6, .ro, 4⟩, ⟨16, 3, .ro, 1⟩, ⟨32, 16, .ro, 0⟩]
/-- Module address of `CLK_DIE_COUNT` (R559, 17_clocks_power_thermal.md). -/
def rCLK_DIE_COUNT (d : Nat) : Nat := 0x60000080010 + d * 0x1000000
def CLK_DIE_COUNT_STEP_CHANGES (d : Nat) : Fld := ⟨rCLK_DIE_COUNT d, 0, 32⟩
def CLK_DIE_COUNT_METER_FAULTS (d : Nat) : Fld := ⟨rCLK_DIE_COUNT d, 32, 16⟩
def descCLK_DIE_COUNT : RegDesc := [⟨0, 32, .ro, 0⟩, ⟨32, 16, .ro, 0⟩]
/-- Module address of `PWR_DIE_TEMP` (R560, 17_clocks_power_thermal.md). -/
def rPWR_DIE_TEMP (d : Nat) : Nat := 0x60000090000 + d * 0x1000000
def PWR_DIE_TEMP_QUAD_C0 (d : Nat) : Fld := ⟨rPWR_DIE_TEMP d, 0, 8⟩
def PWR_DIE_TEMP_QUAD_C1 (d : Nat) : Fld := ⟨rPWR_DIE_TEMP d, 8, 8⟩
def PWR_DIE_TEMP_QUAD_C2 (d : Nat) : Fld := ⟨rPWR_DIE_TEMP d, 16, 8⟩
def PWR_DIE_TEMP_QUAD_C3 (d : Nat) : Fld := ⟨rPWR_DIE_TEMP d, 24, 8⟩
def PWR_DIE_TEMP_QUAD_C4 (d : Nat) : Fld := ⟨rPWR_DIE_TEMP d, 32, 8⟩
def PWR_DIE_TEMP_QUAD_C5 (d : Nat) : Fld := ⟨rPWR_DIE_TEMP d, 40, 8⟩
def PWR_DIE_TEMP_QUAD_C6 (d : Nat) : Fld := ⟨rPWR_DIE_TEMP d, 48, 8⟩
def PWR_DIE_TEMP_QUAD_C7 (d : Nat) : Fld := ⟨rPWR_DIE_TEMP d, 56, 8⟩
def descPWR_DIE_TEMP : RegDesc := [⟨0, 8, .ro, 0⟩, ⟨8, 8, .ro, 0⟩, ⟨16, 8, .ro, 0⟩, ⟨24, 8, .ro, 0⟩, ⟨32, 8, .ro, 0⟩, ⟨40, 8, .ro, 0⟩, ⟨48, 8, .ro, 0⟩, ⟨56, 8, .ro, 0⟩]
/-- Module address of `PWR_DIE_TEMP2` (R560, 17_clocks_power_thermal.md). -/
def rPWR_DIE_TEMP2 (d : Nat) : Nat := 0x60000090008 + d * 0x1000000
def PWR_DIE_TEMP2_UNCORE_C (d : Nat) : Fld := ⟨rPWR_DIE_TEMP2 d, 0, 8⟩
def PWR_DIE_TEMP2_STACK_C0 (d : Nat) : Fld := ⟨rPWR_DIE_TEMP2 d, 8, 8⟩
def PWR_DIE_TEMP2_STACK_C1 (d : Nat) : Fld := ⟨rPWR_DIE_TEMP2 d, 16, 8⟩
def PWR_DIE_TEMP2_STACK_C2 (d : Nat) : Fld := ⟨rPWR_DIE_TEMP2 d, 24, 8⟩
def PWR_DIE_TEMP2_STACK_C3 (d : Nat) : Fld := ⟨rPWR_DIE_TEMP2 d, 32, 8⟩
def PWR_DIE_TEMP2_MAX_C (d : Nat) : Fld := ⟨rPWR_DIE_TEMP2 d, 40, 8⟩
def descPWR_DIE_TEMP2 : RegDesc := [⟨0, 8, .ro, 0⟩, ⟨8, 8, .ro, 0⟩, ⟨16, 8, .ro, 0⟩, ⟨24, 8, .ro, 0⟩, ⟨32, 8, .ro, 0⟩, ⟨40, 8, .ro, 0⟩]
/-- Module address of `PWR_DIE_STAT` (R560, 17_clocks_power_thermal.md). -/
def rPWR_DIE_STAT (d : Nat) : Nat := 0x60000090010 + d * 0x1000000
def PWR_DIE_STAT_THROTTLING (d : Nat) : Fld := ⟨rPWR_DIE_STAT d, 0, 1⟩
def PWR_DIE_STAT_TRIPPED (d : Nat) : Fld := ⟨rPWR_DIE_STAT d, 1, 1⟩
def PWR_DIE_STAT_DRAW_10W (d : Nat) : Fld := ⟨rPWR_DIE_STAT d, 8, 8⟩
def descPWR_DIE_STAT : RegDesc := [⟨0, 1, .ro, 0⟩, ⟨1, 1, .ro, 0⟩, ⟨8, 8, .ro, 0⟩]

/-- The registers by name. -/
inductive RegName where
  | CAPS_A | CAPS_B | HUB_RESET | FRM_CTRL | FRM_STAT | FRM_NOW
  | FRM_PERIOD | FRM_START | FRM_TICK_AT | FRM_COUNT | FRM_SKEW | MEM_MW_BASE
  | RDU_STEP_CTRL | RDU_STEP_STAT | RDU_STEP_COUNT | RDU_ESCALATED | FAB_ID | FAB_ROUTE
  | FAB_COUNT | FAB_WARD_TABLE | FAB_LOCAL_TABLE | LAT_POOL | LAT_PAIR | LAT_PAIR_STAT
  | LAT_CUT | LAT_CUT_ID | LAT_CURSOR_ADDR | LAT_T1 | LAT_SNAP_STAT | ARC_CTRL
  | ARC_SLOT | ARC_STAT | ARC_COUNT | TKT_CTRL | TKT_HOST | TKT_LOOP_CFG
  | TKT_LOOP_STAT | TKT_LOOP_WIN | TKT_Q_CFG | TKT_Q_CTRL | TKT_Q_STAT | TKT_Q_ACCEPTED
  | TKT_Q_COMPLETE | TKT_CRING_BASE | TKT_CRING_CFG | JNL_CTRL | JNL_STAT | JNL_PEEK_ADDR
  | JNL_COUNT | JNL_PEEK_DATA | KPR_VERSION | KPR_STAT | KPR_POLICY | KPR_CS_STAT
  | KPR_CS_PEEK_ADDR | KPR_CS_PEEK_DATA | KPR_CS_PEEK_MASK | KPR_CS_ID | KPR_CMD | KPR_CMD_ARG0
  | KPR_CMD_ARG1 | KPR_CMD_STAT | KPR_SWAP_STAT | ERR_CTRL | ERR_GEN | ERR_RSV
  | ERR_STAT | ERR_PEND | ERR_LOST | CLK_STAT | CLK_CTRL | PWR_CTRL
  | PWR_STAT | PWR_FEED_A | PWR_FEED_B | PWR_DOM_ON0 | PWR_DOM_ON1 | PWR_DOM_FAIL0
  | PWR_DOM_FAIL1 | PWR_HUB_CTRL | PWR_COUNT | PWR_THERM_CTRL | PWR_THERM_HUB | SEC_STAT
  | SEC_SVN | SEC_LOG | SEC_LOG_PEEK | SEC_COUNT | SEC_LOG_DATA | MEM_CTRL
  | MEM_XF_COUNT | MEM_XF_LAST | MEM_XF_ADDR | MEM_STACK_STAT | MEM_STACK_SCRUB | RDU_UNIT
  | RDU_COUNT | RDU_LAST_FAIL | KWY_CAP | KWY_WLT | KWY_COUNT | KWY_STALE
  | KWY_TRAFFIC | KWY_LAST | FAB_PORT_CTRL | FAB_PORT_STAT | FAB_PORT_PEER | FAB_PORT_ERR
  | FAB_PORT_COUNT | LAT_DIE_STAT | LAT_DIE_COUNT | CLK_DIE_CTRL | CLK_DIE_STAT | CLK_DIE_COUNT
  | PWR_DIE_TEMP | PWR_DIE_TEMP2 | PWR_DIE_STAT
  deriving DecidableEq, Repr

/-- A register found at an offset: its name and its instance within the block (queue, port, stack, entry; else 0). -/
structure RegAt where
  name : RegName
  inst : Nat
  deriving DecidableEq, Repr

/-- The register map of each register. -/
def RegName.desc : RegName → RegDesc
  | .CAPS_A => descCAPS_A
  | .CAPS_B => descCAPS_B
  | .HUB_RESET => descHUB_RESET
  | .FRM_CTRL => descFRM_CTRL
  | .FRM_STAT => descFRM_STAT
  | .FRM_NOW => descFRM_NOW
  | .FRM_PERIOD => descFRM_PERIOD
  | .FRM_START => descFRM_START
  | .FRM_TICK_AT => descFRM_TICK_AT
  | .FRM_COUNT => descFRM_COUNT
  | .FRM_SKEW => descFRM_SKEW
  | .MEM_MW_BASE => descMEM_MW_BASE
  | .RDU_STEP_CTRL => descRDU_STEP_CTRL
  | .RDU_STEP_STAT => descRDU_STEP_STAT
  | .RDU_STEP_COUNT => descRDU_STEP_COUNT
  | .RDU_ESCALATED => descRDU_ESCALATED
  | .FAB_ID => descFAB_ID
  | .FAB_ROUTE => descFAB_ROUTE
  | .FAB_COUNT => descFAB_COUNT
  | .FAB_WARD_TABLE => descFAB_WARD_TABLE
  | .FAB_LOCAL_TABLE => descFAB_LOCAL_TABLE
  | .LAT_POOL => descLAT_POOL
  | .LAT_PAIR => descLAT_PAIR
  | .LAT_PAIR_STAT => descLAT_PAIR_STAT
  | .LAT_CUT => descLAT_CUT
  | .LAT_CUT_ID => descLAT_CUT_ID
  | .LAT_CURSOR_ADDR => descLAT_CURSOR_ADDR
  | .LAT_T1 => descLAT_T1
  | .LAT_SNAP_STAT => descLAT_SNAP_STAT
  | .ARC_CTRL => descARC_CTRL
  | .ARC_SLOT => descARC_SLOT
  | .ARC_STAT => descARC_STAT
  | .ARC_COUNT => descARC_COUNT
  | .TKT_CTRL => descTKT_CTRL
  | .TKT_HOST => descTKT_HOST
  | .TKT_LOOP_CFG => descTKT_LOOP_CFG
  | .TKT_LOOP_STAT => descTKT_LOOP_STAT
  | .TKT_LOOP_WIN => descTKT_LOOP_WIN
  | .TKT_Q_CFG => descTKT_Q_CFG
  | .TKT_Q_CTRL => descTKT_Q_CTRL
  | .TKT_Q_STAT => descTKT_Q_STAT
  | .TKT_Q_ACCEPTED => descTKT_Q_ACCEPTED
  | .TKT_Q_COMPLETE => descTKT_Q_COMPLETE
  | .TKT_CRING_BASE => descTKT_CRING_BASE
  | .TKT_CRING_CFG => descTKT_CRING_CFG
  | .JNL_CTRL => descJNL_CTRL
  | .JNL_STAT => descJNL_STAT
  | .JNL_PEEK_ADDR => descJNL_PEEK_ADDR
  | .JNL_COUNT => descJNL_COUNT
  | .JNL_PEEK_DATA => descJNL_PEEK_DATA
  | .KPR_VERSION => descKPR_VERSION
  | .KPR_STAT => descKPR_STAT
  | .KPR_POLICY => descKPR_POLICY
  | .KPR_CS_STAT => descKPR_CS_STAT
  | .KPR_CS_PEEK_ADDR => descKPR_CS_PEEK_ADDR
  | .KPR_CS_PEEK_DATA => descKPR_CS_PEEK_DATA
  | .KPR_CS_PEEK_MASK => descKPR_CS_PEEK_MASK
  | .KPR_CS_ID => descKPR_CS_ID
  | .KPR_CMD => descKPR_CMD
  | .KPR_CMD_ARG0 => descKPR_CMD_ARG0
  | .KPR_CMD_ARG1 => descKPR_CMD_ARG1
  | .KPR_CMD_STAT => descKPR_CMD_STAT
  | .KPR_SWAP_STAT => descKPR_SWAP_STAT
  | .ERR_CTRL => descERR_CTRL
  | .ERR_GEN => descERR_GEN
  | .ERR_RSV => descERR_RSV
  | .ERR_STAT => descERR_STAT
  | .ERR_PEND => descERR_PEND
  | .ERR_LOST => descERR_LOST
  | .CLK_STAT => descCLK_STAT
  | .CLK_CTRL => descCLK_CTRL
  | .PWR_CTRL => descPWR_CTRL
  | .PWR_STAT => descPWR_STAT
  | .PWR_FEED_A => descPWR_FEED_A
  | .PWR_FEED_B => descPWR_FEED_B
  | .PWR_DOM_ON0 => descPWR_DOM_ON0
  | .PWR_DOM_ON1 => descPWR_DOM_ON1
  | .PWR_DOM_FAIL0 => descPWR_DOM_FAIL0
  | .PWR_DOM_FAIL1 => descPWR_DOM_FAIL1
  | .PWR_HUB_CTRL => descPWR_HUB_CTRL
  | .PWR_COUNT => descPWR_COUNT
  | .PWR_THERM_CTRL => descPWR_THERM_CTRL
  | .PWR_THERM_HUB => descPWR_THERM_HUB
  | .SEC_STAT => descSEC_STAT
  | .SEC_SVN => descSEC_SVN
  | .SEC_LOG => descSEC_LOG
  | .SEC_LOG_PEEK => descSEC_LOG_PEEK
  | .SEC_COUNT => descSEC_COUNT
  | .SEC_LOG_DATA => descSEC_LOG_DATA
  | .MEM_CTRL => descMEM_CTRL
  | .MEM_XF_COUNT => descMEM_XF_COUNT
  | .MEM_XF_LAST => descMEM_XF_LAST
  | .MEM_XF_ADDR => descMEM_XF_ADDR
  | .MEM_STACK_STAT => descMEM_STACK_STAT
  | .MEM_STACK_SCRUB => descMEM_STACK_SCRUB
  | .RDU_UNIT => descRDU_UNIT
  | .RDU_COUNT => descRDU_COUNT
  | .RDU_LAST_FAIL => descRDU_LAST_FAIL
  | .KWY_CAP => descKWY_CAP
  | .KWY_WLT => descKWY_WLT
  | .KWY_COUNT => descKWY_COUNT
  | .KWY_STALE => descKWY_STALE
  | .KWY_TRAFFIC => descKWY_TRAFFIC
  | .KWY_LAST => descKWY_LAST
  | .FAB_PORT_CTRL => descFAB_PORT_CTRL
  | .FAB_PORT_STAT => descFAB_PORT_STAT
  | .FAB_PORT_PEER => descFAB_PORT_PEER
  | .FAB_PORT_ERR => descFAB_PORT_ERR
  | .FAB_PORT_COUNT => descFAB_PORT_COUNT
  | .LAT_DIE_STAT => descLAT_DIE_STAT
  | .LAT_DIE_COUNT => descLAT_DIE_COUNT
  | .CLK_DIE_CTRL => descCLK_DIE_CTRL
  | .CLK_DIE_STAT => descCLK_DIE_STAT
  | .CLK_DIE_COUNT => descCLK_DIE_COUNT
  | .PWR_DIE_TEMP => descPWR_DIE_TEMP
  | .PWR_DIE_TEMP2 => descPWR_DIE_TEMP2
  | .PWR_DIE_STAT => descPWR_DIE_STAT

/-- The register at byte offset `o` of hub slot `slot` (R602, R603); none where no table of R602 assigns one (R598). -/
def hubRegAt (slot o : Nat) : Option RegAt :=
  match slot with
  | 0 =>
    if o = 0x0 then some ⟨.CAPS_A, 0⟩
    else if o = 0x8 then some ⟨.CAPS_B, 0⟩
    else none
  | 1 =>
    if o = 0x0 then some ⟨.HUB_RESET, 0⟩
    else none
  | 2 =>
    if o = 0x0 then some ⟨.FRM_CTRL, 0⟩
    else if o = 0x8 then some ⟨.FRM_STAT, 0⟩
    else if o = 0x10 then some ⟨.FRM_NOW, 0⟩
    else if o = 0x18 then some ⟨.FRM_PERIOD, 0⟩
    else if o = 0x20 then some ⟨.FRM_START, 0⟩
    else if o = 0x28 then some ⟨.FRM_TICK_AT, 0⟩
    else if o = 0x30 then some ⟨.FRM_COUNT, 0⟩
    else if o = 0x38 then some ⟨.FRM_SKEW, 0⟩
    else none
  | 3 =>
    if 0x0 ≤ o ∧ o < 0x10 ∧ (o - 0x0) % 0x8 = 0 then some ⟨.MEM_MW_BASE, ((o - 0x0) / 0x8)⟩
    else none
  | 4 =>
    if o = 0x0 then some ⟨.RDU_STEP_CTRL, 0⟩
    else if o = 0x8 then some ⟨.RDU_STEP_STAT, 0⟩
    else if o = 0x10 then some ⟨.RDU_STEP_COUNT, 0⟩
    else if o = 0x18 then some ⟨.RDU_ESCALATED, 0⟩
    else none
  | 6 =>
    if o = 0x0 then some ⟨.FAB_ID, 0⟩
    else if o = 0x8 then some ⟨.FAB_ROUTE, 0⟩
    else if o = 0x10 then some ⟨.FAB_COUNT, 0⟩
    else if 0x1000 ≤ o ∧ o < 0x1100 ∧ (o - 0x1000) % 0x4 = 0 then some ⟨.FAB_WARD_TABLE, ((o - 0x1000) / 0x4)⟩
    else if 0x1400 ≤ o ∧ o < 0x1800 ∧ (o - 0x1400) % 0x4 = 0 then some ⟨.FAB_LOCAL_TABLE, ((o - 0x1400) / 0x4)⟩
    else none
  | 7 =>
    if o = 0x0 then some ⟨.LAT_POOL, 0⟩
    else if o = 0x8 then some ⟨.LAT_PAIR, 0⟩
    else if o = 0x10 then some ⟨.LAT_PAIR_STAT, 0⟩
    else if o = 0x18 then some ⟨.LAT_CUT, 0⟩
    else if o = 0x20 then some ⟨.LAT_CUT_ID, 0⟩
    else if o = 0x28 then some ⟨.LAT_CURSOR_ADDR, 0⟩
    else if o = 0x30 then some ⟨.LAT_T1, 0⟩
    else if o = 0x38 then some ⟨.LAT_SNAP_STAT, 0⟩
    else none
  | 8 =>
    if o = 0x0 then some ⟨.ARC_CTRL, 0⟩
    else if o = 0x8 then some ⟨.ARC_SLOT, 0⟩
    else if o = 0x10 then some ⟨.ARC_STAT, 0⟩
    else if o = 0x18 then some ⟨.ARC_COUNT, 0⟩
    else none
  | 9 =>
    if o = 0x0 then some ⟨.TKT_CTRL, 0⟩
    else if 0x8 ≤ o ∧ o < 0x18 ∧ (o - 0x8) % 0x8 = 0 then some ⟨.TKT_HOST, ((o - 0x8) / 0x8)⟩
    else if o = 0x20 then some ⟨.TKT_LOOP_CFG, 0⟩
    else if o = 0x28 then some ⟨.TKT_LOOP_STAT, 0⟩
    else if 0x40 ≤ o ∧ o < 0x60 ∧ (o - 0x40) % 0x8 = 0 then some ⟨.TKT_LOOP_WIN, ((o - 0x40) / 0x8)⟩
    else if 0x100 ≤ o ∧ o < 0x900 ∧ (o - 0x100) % 0x40 = 0 then some ⟨.TKT_Q_CFG, ((o - 0x100) / 0x40)⟩
    else if 0x108 ≤ o ∧ o < 0x908 ∧ (o - 0x108) % 0x40 = 0 then some ⟨.TKT_Q_CTRL, ((o - 0x108) / 0x40)⟩
    else if 0x110 ≤ o ∧ o < 0x910 ∧ (o - 0x110) % 0x40 = 0 then some ⟨.TKT_Q_STAT, ((o - 0x110) / 0x40)⟩
    else if 0x118 ≤ o ∧ o < 0x918 ∧ (o - 0x118) % 0x40 = 0 then some ⟨.TKT_Q_ACCEPTED, ((o - 0x118) / 0x40)⟩
    else if 0x120 ≤ o ∧ o < 0x920 ∧ (o - 0x120) % 0x40 = 0 then some ⟨.TKT_Q_COMPLETE, ((o - 0x120) / 0x40)⟩
    else if 0xA00 ≤ o ∧ o < 0xE00 ∧ (o - 0xA00) % 0x10 = 0 then some ⟨.TKT_CRING_BASE, ((o - 0xA00) / 0x10)⟩
    else if 0xA08 ≤ o ∧ o < 0xE08 ∧ (o - 0xA08) % 0x10 = 0 then some ⟨.TKT_CRING_CFG, ((o - 0xA08) / 0x10)⟩
    else none
  | 10 =>
    if o = 0x0 then some ⟨.JNL_CTRL, 0⟩
    else if o = 0x8 then some ⟨.JNL_STAT, 0⟩
    else if o = 0x10 then some ⟨.JNL_PEEK_ADDR, 0⟩
    else if o = 0x18 then some ⟨.JNL_COUNT, 0⟩
    else if 0x40 ≤ o ∧ o < 0x80 ∧ (o - 0x40) % 0x8 = 0 then some ⟨.JNL_PEEK_DATA, ((o - 0x40) / 0x8)⟩
    else none
  | 11 =>
    if o = 0x0 then some ⟨.KPR_VERSION, 0⟩
    else if o = 0x8 then some ⟨.KPR_STAT, 0⟩
    else if o = 0x10 then some ⟨.KPR_POLICY, 0⟩
    else if o = 0x18 then some ⟨.KPR_CS_STAT, 0⟩
    else if o = 0x20 then some ⟨.KPR_CS_PEEK_ADDR, 0⟩
    else if o = 0x28 then some ⟨.KPR_CS_PEEK_DATA, 0⟩
    else if o = 0x30 then some ⟨.KPR_CS_PEEK_MASK, 0⟩
    else if o = 0x38 then some ⟨.KPR_CS_ID, 0⟩
    else if 0x40 ≤ o ∧ o < 0x80 ∧ (o - 0x40) % 0x20 = 0 then some ⟨.KPR_CMD, ((o - 0x40) / 0x20)⟩
    else if 0x48 ≤ o ∧ o < 0x88 ∧ (o - 0x48) % 0x20 = 0 then some ⟨.KPR_CMD_ARG0, ((o - 0x48) / 0x20)⟩
    else if 0x50 ≤ o ∧ o < 0x90 ∧ (o - 0x50) % 0x20 = 0 then some ⟨.KPR_CMD_ARG1, ((o - 0x50) / 0x20)⟩
    else if 0x58 ≤ o ∧ o < 0x98 ∧ (o - 0x58) % 0x20 = 0 then some ⟨.KPR_CMD_STAT, ((o - 0x58) / 0x20)⟩
    else if o = 0x80 then some ⟨.KPR_SWAP_STAT, 0⟩
    else none
  | 12 =>
    if o = 0x0 then some ⟨.ERR_CTRL, 0⟩
    else if o = 0x8 then some ⟨.ERR_GEN, 0⟩
    else if o = 0x10 then some ⟨.ERR_RSV, 0⟩
    else if o = 0x18 then some ⟨.ERR_STAT, 0⟩
    else if o = 0x20 then some ⟨.ERR_PEND, 0⟩
    else if 0x40 ≤ o ∧ o < 0x80 ∧ (o - 0x40) % 0x8 = 0 then some ⟨.ERR_LOST, ((o - 0x40) / 0x8)⟩
    else none
  | 15 =>
    if o = 0x0 then some ⟨.CLK_STAT, 0⟩
    else if o = 0x8 then some ⟨.CLK_CTRL, 0⟩
    else none
  | 16 =>
    if o = 0x0 then some ⟨.PWR_CTRL, 0⟩
    else if o = 0x8 then some ⟨.PWR_STAT, 0⟩
    else if o = 0x10 then some ⟨.PWR_FEED_A, 0⟩
    else if o = 0x18 then some ⟨.PWR_FEED_B, 0⟩
    else if o = 0x20 then some ⟨.PWR_DOM_ON0, 0⟩
    else if o = 0x28 then some ⟨.PWR_DOM_ON1, 0⟩
    else if o = 0x30 then some ⟨.PWR_DOM_FAIL0, 0⟩
    else if o = 0x38 then some ⟨.PWR_DOM_FAIL1, 0⟩
    else if o = 0x40 then some ⟨.PWR_HUB_CTRL, 0⟩
    else if o = 0x48 then some ⟨.PWR_COUNT, 0⟩
    else if o = 0x50 then some ⟨.PWR_THERM_CTRL, 0⟩
    else if o = 0x58 then some ⟨.PWR_THERM_HUB, 0⟩
    else none
  | 17 =>
    if o = 0x0 then some ⟨.SEC_STAT, 0⟩
    else if o = 0x8 then some ⟨.SEC_SVN, 0⟩
    else if o = 0x10 then some ⟨.SEC_LOG, 0⟩
    else if o = 0x18 then some ⟨.SEC_LOG_PEEK, 0⟩
    else if o = 0x80 then some ⟨.SEC_COUNT, 0⟩
    else if 0x40 ≤ o ∧ o < 0x80 ∧ (o - 0x40) % 0x8 = 0 then some ⟨.SEC_LOG_DATA, ((o - 0x40) / 0x8)⟩
    else none
  | _ => none

/-- The register at byte offset `o` of slot `slot` of a compute die region (R604). -/
def dieRegAt (slot o : Nat) : Option RegAt :=
  match slot with
  | 3 =>
    if o = 0x0 then some ⟨.MEM_CTRL, 0⟩
    else if o = 0x8 then some ⟨.MEM_XF_COUNT, 0⟩
    else if o = 0x10 then some ⟨.MEM_XF_LAST, 0⟩
    else if o = 0x18 then some ⟨.MEM_XF_ADDR, 0⟩
    else if 0x100 ≤ o ∧ o < 0x200 ∧ (o - 0x100) % 0x40 = 0 then some ⟨.MEM_STACK_STAT, ((o - 0x100) / 0x40)⟩
    else if 0x108 ≤ o ∧ o < 0x208 ∧ (o - 0x108) % 0x40 = 0 then some ⟨.MEM_STACK_SCRUB, ((o - 0x108) / 0x40)⟩
    else none
  | 4 =>
    if o = 0x0 then some ⟨.RDU_UNIT, 0⟩
    else if o = 0x8 then some ⟨.RDU_COUNT, 0⟩
    else if o = 0x10 then some ⟨.RDU_LAST_FAIL, 0⟩
    else none
  | 5 =>
    if o = 0x0 then some ⟨.KWY_CAP, 0⟩
    else if o = 0x8 then some ⟨.KWY_WLT, 0⟩
    else if o = 0x10 then some ⟨.KWY_COUNT, 0⟩
    else if o = 0x18 then some ⟨.KWY_STALE, 0⟩
    else if o = 0x20 then some ⟨.KWY_TRAFFIC, 0⟩
    else if o = 0x28 then some ⟨.KWY_LAST, 0⟩
    else none
  | 6 =>
    if 0x0 ≤ o ∧ o < 0x200 ∧ (o - 0x0) % 0x100 = 0 then some ⟨.FAB_PORT_CTRL, ((o - 0x0) / 0x100)⟩
    else if 0x8 ≤ o ∧ o < 0x208 ∧ (o - 0x8) % 0x100 = 0 then some ⟨.FAB_PORT_STAT, ((o - 0x8) / 0x100)⟩
    else if 0x10 ≤ o ∧ o < 0x210 ∧ (o - 0x10) % 0x100 = 0 then some ⟨.FAB_PORT_PEER, ((o - 0x10) / 0x100)⟩
    else if 0x18 ≤ o ∧ o < 0x218 ∧ (o - 0x18) % 0x100 = 0 then some ⟨.FAB_PORT_ERR, ((o - 0x18) / 0x100)⟩
    else if 0x20 ≤ o ∧ o < 0x220 ∧ (o - 0x20) % 0x100 = 0 then some ⟨.FAB_PORT_COUNT, ((o - 0x20) / 0x100)⟩
    else none
  | 7 =>
    if o = 0x0 then some ⟨.LAT_DIE_STAT, 0⟩
    else if o = 0x8 then some ⟨.LAT_DIE_COUNT, 0⟩
    else none
  | 8 =>
    if o = 0x0 then some ⟨.CLK_DIE_CTRL, 0⟩
    else if o = 0x8 then some ⟨.CLK_DIE_STAT, 0⟩
    else if o = 0x10 then some ⟨.CLK_DIE_COUNT, 0⟩
    else none
  | 9 =>
    if o = 0x0 then some ⟨.PWR_DIE_TEMP, 0⟩
    else if o = 0x8 then some ⟨.PWR_DIE_TEMP2, 0⟩
    else if o = 0x10 then some ⟨.PWR_DIE_STAT, 0⟩
    else none
  | _ => none

end Sys2Proof.Machine
end

