-- ==== Sys2Proof/Machine/Codes.lean ====
section
/-! DEFINITION. The error-record codes (R520): class in bits 15 to 8, row of the class's code table in bits 7 to 0; and
which of them are fatal records (R607). -/
namespace Sys2Proof.Machine

/-- A fault or status code (R520); 0 means success. -/
abbrev Code := BitVec 16

/-- Success (R520). -/
def cOK : Code := 0

/-- `ADDR_UNMAPPED` (R21). -/
def cADDR_UNMAPPED : Code := 0x0101
/-- `MEM_CE` (R274). -/
def cMEM_CE : Code := 0x1001
/-- `MEM_UE` (R275). -/
def cMEM_UE : Code := 0x1002
/-- `FRAME_LOST` (R60). -/
def cFRAME_LOST : Code := 0x0201
/-- `FRAME_SLIP` (R60). -/
def cFRAME_SLIP : Code := 0x0202
/-- `FRAME_PERIOD` (R60). -/
def cFRAME_PERIOD : Code := 0x0203
/-- `FRAME_SKEW` (R60). -/
def cFRAME_SKEW : Code := 0x0204
/-- `COMMIT_LATE` (R60). -/
def cCOMMIT_LATE : Code := 0x0205
/-- `LOAD_FORMAT` (R95). -/
def cLOAD_FORMAT : Code := 0x0301
/-- `LOAD_HASH` (R95). -/
def cLOAD_HASH : Code := 0x0302
/-- `LOAD_LEVEL` (R95). -/
def cLOAD_LEVEL : Code := 0x0303
/-- `LOAD_CAPS` (R95). -/
def cLOAD_CAPS : Code := 0x0304
/-- `LOAD_REGION` (R95). -/
def cLOAD_REGION : Code := 0x0305
/-- `LOAD_PLACEMENT` (R95). -/
def cLOAD_PLACEMENT : Code := 0x0306
/-- `STEP_REGION` (R95). -/
def cSTEP_REGION : Code := 0x0307
/-- `UNDEF_OP` (R134). -/
def cUNDEF_OP : Code := 0x0401
/-- `ABSENT_UNIT` (R134). -/
def cABSENT_UNIT : Code := 0x0402
/-- `TYPE_RESERVED` (R134). -/
def cTYPE_RESERVED : Code := 0x0403
/-- `DESC_FORMAT` (R134). -/
def cDESC_FORMAT : Code := 0x0404
/-- `CATCH_RANGE` (R134). -/
def cCATCH_RANGE : Code := 0x0405
/-- `BRANCH_TARGET` (R134). -/
def cBRANCH_TARGET : Code := 0x0406
/-- `STEP_SEQUENCE` (R134). -/
def cSTEP_SEQUENCE : Code := 0x0407
/-- `STEP_NUMBER` (R134). -/
def cSTEP_NUMBER : Code := 0x0408
/-- `STEP_WRITESET` (R134). -/
def cSTEP_WRITESET : Code := 0x0409
/-- `CATCH_OVERFLOW` (R134). -/
def cCATCH_OVERFLOW : Code := 0x040A
/-- `VEC_SHAPE` (R134). -/
def cVEC_SHAPE : Code := 0x040B
/-- `MM_PART` (R176). -/
def cMM_PART : Code := 0x0501
/-- `MM_OPERAND` (R176). -/
def cMM_OPERAND : Code := 0x0502
/-- `MM_MIX` (R176). -/
def cMM_MIX : Code := 0x0503
/-- `MM_FOLD` (R176). -/
def cMM_FOLD : Code := 0x0504
/-- `MM_SP24` (R176). -/
def cMM_SP24 : Code := 0x0505
/-- `MM_CONV` (R176). -/
def cMM_CONV : Code := 0x0506
/-- `MM_TRANSPOSE` (R176). -/
def cMM_TRANSPOSE : Code := 0x0507
/-- `ARRAY_HW` (R176). -/
def cARRAY_HW : Code := 0x0508
/-- `ACC_ECC_CORR` (R176). -/
def cACC_ECC_CORR : Code := 0x0509
/-- `ACC_FORM` (R207). -/
def cACC_FORM : Code := 0x0601
/-- `ACC_NAN` (R207). -/
def cACC_NAN : Code := 0x0602
/-- `ACC_OVERFLOW` (R207). -/
def cACC_OVERFLOW : Code := 0x0603
/-- `TB_FORMAT` (R238). -/
def cTB_FORMAT : Code := 0x0701
/-- `TB_TYPE` (R238). -/
def cTB_TYPE : Code := 0x0702
/-- `TB_SHAPE` (R238). -/
def cTB_SHAPE : Code := 0x0703
/-- `TB_KEYRING` (R238). -/
def cTB_KEYRING : Code := 0x0704
/-- `TB_CAP` (R238). -/
def cTB_CAP : Code := 0x0705
/-- `TB_HW` (R238). -/
def cTB_HW : Code := 0x0706
/-- `TB_ECC_CORR` (R238). -/
def cTB_ECC_CORR : Code := 0x0707
/-- `XF_SHAPE` (R271). -/
def cXF_SHAPE : Code := 0x0801
/-- `XF_ALIGN` (R271). -/
def cXF_ALIGN : Code := 0x0802
/-- `XF_WINDOW` (R271). -/
def cXF_WINDOW : Code := 0x0803
/-- `XF_OVERLAP` (R271). -/
def cXF_OVERLAP : Code := 0x0804
/-- `SCR_ECC_CORR` (R271). -/
def cSCR_ECC_CORR : Code := 0x0805
/-- `SCR_HW` (R271). -/
def cSCR_HW : Code := 0x0806
/-- `RD_SHAPE` (R330). -/
def cRD_SHAPE : Code := 0x0901
/-- `RD_BUCKET` (R330). -/
def cRD_BUCKET : Code := 0x0902
/-- `RD_NONFINITE` (R330). -/
def cRD_NONFINITE : Code := 0x0903
/-- `RD_CHECK` (R330). -/
def cRD_CHECK : Code := 0x0904
/-- `RD_PATH` (R330). -/
def cRD_PATH : Code := 0x0905
/-- `STEP_LATE` (R330). -/
def cSTEP_LATE : Code := 0x0906
/-- `REPEAT_LATE` (R330). -/
def cREPEAT_LATE : Code := 0x0907
/-- `STEP_ESCALATE` (R330). -/
def cSTEP_ESCALATE : Code := 0x0908
/-- `KW_SHAPE` (R364). -/
def cKW_SHAPE : Code := 0x0A01
/-- `KW_LAYER` (R364). -/
def cKW_LAYER : Code := 0x0A02
/-- `KW_BUFFER` (R364). -/
def cKW_BUFFER : Code := 0x0A03
/-- `KW_EPOCH` (R364). -/
def cKW_EPOCH : Code := 0x0A04
/-- `KW_TABLE` (R364). -/
def cKW_TABLE : Code := 0x0A05
/-- `KW_HW` (R364). -/
def cKW_HW : Code := 0x0A06
/-- `FAB_LANE` (R396). -/
def cFAB_LANE : Code := 0x0B01
/-- `FAB_VERSION` (R396). -/
def cFAB_VERSION : Code := 0x0B02
/-- `FAB_DELAY` (R396). -/
def cFAB_DELAY : Code := 0x0B03
/-- `FAB_LINK_DOWN` (R396). -/
def cFAB_LINK_DOWN : Code := 0x0B04
/-- `FAB_NOROUTE` (R396). -/
def cFAB_NOROUTE : Code := 0x0B05
/-- `FAB_HOPS` (R396). -/
def cFAB_HOPS : Code := 0x0B06
/-- `FAB_ROUTE_PORT` (R396). -/
def cFAB_ROUTE_PORT : Code := 0x0B07
/-- `LAT_POOL` (R431). -/
def cLAT_POOL : Code := 0x0C01
/-- `SNAP_REFUSED` (R431). -/
def cSNAP_REFUSED : Code := 0x0C02
/-- `SNAP_ABANDONED` (R431). -/
def cSNAP_ABANDONED : Code := 0x0C03
/-- `SEAL_ABANDONED` (R431). -/
def cSEAL_ABANDONED : Code := 0x0C04
/-- `PAIR_COFEED` (R431). -/
def cPAIR_COFEED : Code := 0x0C05
/-- `STREAM_REALIGN` (R431). -/
def cSTREAM_REALIGN : Code := 0x0C06
/-- `SNAP_CORRUPT` (R431). -/
def cSNAP_CORRUPT : Code := 0x0C07
/-- `SNAP_FORMAT` (R431). -/
def cSNAP_FORMAT : Code := 0x0C08
/-- `SNAP_IMAGE` (R431). -/
def cSNAP_IMAGE : Code := 0x0C09
/-- `ARC_NS` (R431). -/
def cARC_NS : Code := 0x0C0A
/-- `ARC_IO` (R431). -/
def cARC_IO : Code := 0x0C0B
/-- `CORE_HW` (R456). -/
def cCORE_HW : Code := 0x0D01
/-- `CORE_FENCED` (R456). -/
def cCORE_FENCED : Code := 0x0D02
/-- `PLACEMENT_EXHAUSTED` (R456). -/
def cPLACEMENT_EXHAUSTED : Code := 0x0D03
/-- `STACK_FAILED` (R456). -/
def cSTACK_FAILED : Code := 0x0D04
/-- `UNCORE_HW` (R456). -/
def cUNCORE_HW : Code := 0x0D05
/-- `MODULE_LOST` (R456). -/
def cMODULE_LOST : Code := 0x0D06
/-- `MODULE_RETIRED` (R456). -/
def cMODULE_RETIRED : Code := 0x0D07
/-- `ADOPT_FAIL` (R456). -/
def cADOPT_FAIL : Code := 0x0D08
/-- `STEP_EXHAUSTED` (R456). -/
def cSTEP_EXHAUSTED : Code := 0x0D09
/-- `TKT_FORMAT` (R495). -/
def cTKT_FORMAT : Code := 0x0E01
/-- `TKT_KIND` (R495). -/
def cTKT_KIND : Code := 0x0E02
/-- `TKT_RANGE` (R495). -/
def cTKT_RANGE : Code := 0x0E03
/-- `SEQ_CONFLICT` (R495). -/
def cSEQ_CONFLICT : Code := 0x0E04
/-- `TKT_NOT_OWNER` (R495). -/
def cTKT_NOT_OWNER : Code := 0x0E05
/-- `LOAD_BUSY` (R495). -/
def cLOAD_BUSY : Code := 0x0E06
/-- `LOAD_INTERRUPTED` (R495). -/
def cLOAD_INTERRUPTED : Code := 0x0E07
/-- `NO_IMAGE` (R495). -/
def cNO_IMAGE : Code := 0x0E08
/-- `STOPPED` (R495). -/
def cSTOPPED : Code := 0x0E09
/-- `LATE` (R495). -/
def cLATE : Code := 0x0E0A
/-- `QUERY_LOST` (R495). -/
def cQUERY_LOST : Code := 0x0E0B
/-- `HOST_LOST` (R495). -/
def cHOST_LOST : Code := 0x0E0C
/-- `JNL_UNMIRRORED` (R495). -/
def cJNL_UNMIRRORED : Code := 0x0E0D
/-- `JNL_HW` (R495). -/
def cJNL_HW : Code := 0x0E0E
/-- `CS_BUSY` (R530). -/
def cCS_BUSY : Code := 0x0F01
/-- `CS_NOT_OWNER` (R530). -/
def cCS_NOT_OWNER : Code := 0x0F02
/-- `CS_FULL` (R530). -/
def cCS_FULL : Code := 0x0F03
/-- `CS_TIMEOUT` (R530). -/
def cCS_TIMEOUT : Code := 0x0F04
/-- `CS_LATE` (R530). -/
def cCS_LATE : Code := 0x0F05
/-- `CS_NO_STEP` (R530). -/
def cCS_NO_STEP : Code := 0x0F06
/-- `CS_VALUE` (R530). -/
def cCS_VALUE : Code := 0x0F07
/-- `KPR_LOCKSTEP` (R530). -/
def cKPR_LOCKSTEP : Code := 0x0F08
/-- `KPR_RESTARTED` (R530). -/
def cKPR_RESTARTED : Code := 0x0F09
/-- `KPR_BUSY` (R530). -/
def cKPR_BUSY : Code := 0x0F0A
/-- `KPR_CMD_UNDEF` (R530). -/
def cKPR_CMD_UNDEF : Code := 0x0F0B
/-- `SWAP_VERSION` (R530). -/
def cSWAP_VERSION : Code := 0x0F0C
/-- `SWAP_FAILED` (R530). -/
def cSWAP_FAILED : Code := 0x0F0D
/-- `LEAF_LOST` (R530). -/
def cLEAF_LOST : Code := 0x0F0E
/-- `KPR_NOT_RETIRED` (R530). -/
def cKPR_NOT_RETIRED : Code := 0x0F0F
/-- `CLK_REF_LOST` (R561). -/
def cCLK_REF_LOST : Code := 0x1101
/-- `CLK_REF_RESTORED` (R561). -/
def cCLK_REF_RESTORED : Code := 0x1102
/-- `CLK_BACKUP_BAD` (R561). -/
def cCLK_BACKUP_BAD : Code := 0x1103
/-- `CLK_METER` (R561). -/
def cCLK_METER : Code := 0x1104
/-- `PWR_FEED_LOST` (R561). -/
def cPWR_FEED_LOST : Code := 0x1105
/-- `PWR_FEED_RESTORED` (R561). -/
def cPWR_FEED_RESTORED : Code := 0x1106
/-- `PWR_FEED_OV` (R561). -/
def cPWR_FEED_OV : Code := 0x1107
/-- `PWR_CAP` (R561). -/
def cPWR_CAP : Code := 0x1108
/-- `PWR_DOMAIN` (R561). -/
def cPWR_DOMAIN : Code := 0x1109
/-- `THERM_THROTTLE` (R561). -/
def cTHERM_THROTTLE : Code := 0x110A
/-- `THERM_TRIP` (R561). -/
def cTHERM_TRIP : Code := 0x110B
/-- `THERM_SHUTDOWN` (R561). -/
def cTHERM_SHUTDOWN : Code := 0x110C
/-- `THERM_COOLANT` (R561). -/
def cTHERM_COOLANT : Code := 0x110D
/-- `THERM_SENSOR` (R561). -/
def cTHERM_SENSOR : Code := 0x110E
/-- `SEC_FORMAT` (R578). -/
def cSEC_FORMAT : Code := 0x1201
/-- `SEC_SIG` (R578). -/
def cSEC_SIG : Code := 0x1202
/-- `SEC_ROLLBACK` (R578). -/
def cSEC_ROLLBACK : Code := 0x1203
/-- `SEC_HASH` (R578). -/
def cSEC_HASH : Code := 0x1204
/-- `BOOT_FALLBACK` (R578). -/
def cBOOT_FALLBACK : Code := 0x1205
/-- `BOOT_RECOVERY` (R578). -/
def cBOOT_RECOVERY : Code := 0x1206
/-- `FLASH_IO` (R578). -/
def cFLASH_IO : Code := 0x1207

/-- FATAL is set exactly for the codes whose handling the tables name a fatal record (R607). -/
def Code.fatal (c : Code) : Bool :=
  c ∈ ([cMEM_UE, cARRAY_HW, cTB_HW, cSCR_HW, cRD_CHECK, cSTEP_ESCALATE, cKW_HW, cCORE_HW, cPLACEMENT_EXHAUSTED, cSTACK_FAILED, cUNCORE_HW, cMODULE_LOST, cMODULE_RETIRED, cADOPT_FAIL, cJNL_HW, cKPR_LOCKSTEP, cLEAF_LOST, cPWR_DOMAIN, cTHERM_TRIP, cTHERM_SHUTDOWN, cBOOT_RECOVERY] : List Code)

end Sys2Proof.Machine
end

