-- ==== Sys2Proof/Machine/CoreState.lean ====
section
/-! DEFINITION. The state of a logical core: its register files, queues, arrays, Tumblers, streams and catches (R102, R64,
R137, R199, R208, R116), and of a physical core (R88, R244, R434). -/
namespace Sys2Proof.Machine

/-- Hinge word: mode and the four partition tags (R143). -/
structure Hinge where
  mode : Nat
  tags : List Nat
  deriving DecidableEq, Repr

/-- The hinge word at ENTRY (R142). -/
def hingeReset : Hinge := ⟨0, [0, 0, 0, 0]⟩

/-- A catch (R118): counter, target and REARM. -/
structure Catch where
  counter : BitVec 32
  target : BitVec 32
  rearm : Bool
  deriving DecidableEq, Repr

/-- A catch as the loader sets it (R103). -/
def catchReset : Catch := ⟨0, 1, false⟩

/-- What `STEP.OPEN` saves (R73), with the byte offset of the instruction after it. -/
structure Saved where
  x : Vector Word 64
  p : BitVec 8
  d : Vector Desc 32
  hinge : Hinge
  streams : SMap Word
  pc : Nat
  deriving DecidableEq, Repr

/-- Operands captured at issue by a format D instruction (R99): the descriptors with their successors (R112), two
scalars and the control bits. -/
structure CapD where
  op : Nat
  dA : Desc
  dB : Desc
  dC : Desc
  dD : Desc
  sA : Desc
  sB : Desc
  sC : Desc
  sD : Desc
  xa : Word
  xb : Word
  ctrl : Nat
  deriving DecidableEq, Repr

/-- A wait of the C or F queue (R119, R123): on own catch `idx`, or on a system time. -/
inductive WaitOn where
  | reach (idx : Nat)
  | time (t : Word)
  deriving DecidableEq, Repr

/-- What a queue entry holds. -/
inductive Payload where
  /-- a format D instruction of queues M, T, V, X, K, G -/
  | ins (c : CapD)
  /-- a wait marker of the wait with issue number `n` (R119) -/
  | mark (n : Nat)
  | csig (word : Word) (amount : BitVec 32) (qmask : Nat)
  /-- CWAIT or FWAIT in its own queue -/
  | wait (on : WaitOn) (qmask : Nat)
  | cset (idx : Nat) (target : BitVec 32) (rearm clear : Bool)
  | cread (xd : Nat) (idx : Nat)
  | fnow (xd : Nat)
  | stepOpen (step : Word) (list : Word) (n : Nat) (saved : Saved)
  | stepCommit (step : Word)
  /-- a scalar load in the S queue, with the value read (R100) -/
  | load (xd : Nat) (v : Word)
  /-- an `ST` or `DST` held by the latch (R401) -/
  | store (addr : Nat) (data : List Byte)
  deriving DecidableEq, Repr

/-- The scale record of a DRAIN in the queue (R186). -/
inductive RecSt where
  | none
  | unread
  | behind (n : Nat)
  | read (bytes : List Byte)
  deriving DecidableEq, Repr

/-- A write on its way into memory: its bytes, the bits of some of them that stay as they are (place in `bs`, mask), whether it is
the FP32 addition of R261, and the path it takes through the latch (R401). -/
structure HWrite where
  a : Nat
  bs : List Byte
  keep : List (Nat × Byte)
  add : Bool
  path : WritePath
  deriving DecidableEq, Repr

/-- A transfer of the stream engine under way (R250): the tags of remote accesses that have not been answered, with address
and length; the bytes that remote reads have brought; whether only a remote preamble has been asked for; the byte ranges
of this module that the instruction writes; the writes not yet made, and the granule at whose latch the last one is held (R401). -/
structure Flight where
  tags : List (Nat × Nat × Nat)
  got : List (Nat × List Byte)
  pre : Bool
  dst : List (Nat × Nat)
  left : List HWrite
  hold : Option Nat
  deriving DecidableEq, Repr

def flightNone : Flight := ⟨[], [], false, [], [], none⟩

/-- A queue entry: what it holds, its issue number, its byte offset, and whether it has started. -/
structure QE where
  pl : Payload
  n : Nat
  pc : Nat
  started : Bool
  srec : RecSt
  /-- the record bytes and stream position that DRAIN_COMPLETE writes (R187, R201) -/
  recOut : Option (List Byte)
  streamOut : Option (Nat × Word)
  /-- second half of a folded pair (R153) -/
  paired : Bool
  /-- source bytes read ahead into the staging buffer (R248) -/
  staged : Option (List (Nat × List Byte))
  flight : Flight
  /-- it has passed the checks made when it reached the head of the G queue (R303) -/
  checked : Bool
  /-- the fault that the instruction raises when it reaches the head, and its first failing byte (R268, R280) -/
  err : Option (Code × Option Nat)
  deriving DecidableEq, Repr

/-- One entry of a keyring (R220). -/
structure KeyEnt where
  valid : Bool
  dense : Bool
  slab : Nat
  cols : BitVec 64
  deriving DecidableEq, Repr

/-- A keyring of a Tumbler (R208, R218): whether a TKEYS has loaded it, the panel's type, KBLOCKS, columns and dense
descriptor, and its keys. -/
structure Keyring where
  loaded : Bool
  ty : Nat
  kblocks : Nat
  desc : Desc
  keys : SMap KeyEnt
  deriving DecidableEq, Repr

def keyringEmpty : Keyring := ⟨false, 0, 0, 0, []⟩

/-- Why the sequencer issues nothing (R115, R119, R130, R132). -/
inductive Block where
  /-- a DETENT: queue mask, issue number, live-bank mask -/
  | detent (qmask n : Nat) (banks : Nat)
  /-- a CWAIT or FWAIT whose QMASK includes S -/
  | wait (n : Nat)
  /-- a STEP.COMMIT, until what was issued before it has completed -/
  | commit (n : Nat)
  /-- a HALT, until the queues are empty -/
  | halt
  deriving DecidableEq, Repr

/-- A GRED whose reduced share is not yet complete (R303). -/
structure GredOut where
  n : Nat
  bucket : BitVec 32
  first : Nat
  pc : Nat
  deriving DecidableEq, Repr

/-- A logical core of the loaded image. -/
structure LCore where
  pref : Nat
  phys : Nat
  /-- LOOP of its PLACEMENT entry (R81) -/
  loop : Bool
  codeBytes : Nat
  entry : Nat
  pc : Nat
  /-- next issue number -/
  seq : Nat
  x : Vector Word 64
  p : BitVec 8
  d : Vector Desc 32
  /-- the nine queues, each oldest first (R64) -/
  qs : List (List QE)
  /-- waits that have left their queue and have not ended (R119, R123) -/
  waits : List QE
  block : Option Block
  hinge : Hinge
  /-- the hinge word as set by the last HINGE issued (R73) -/
  hingeIssued : Hinge
  /-- accumulators: key ((array * 2 + set) * 64 + row) * 64 + column (R137) -/
  acc : SMap Pair
  /-- M and N of the last MMA into each partition and set, key 2 * part + set (R183) -/
  accDims : SMap (Nat × Nat)
  partStop : List Nat
  engStop : List Nat
  keyrings : List Keyring
  cap : Nat
  /-- issue numbers of the emptying events of R221 not yet taken effect -/
  emptyAt : List Nat
  streams : SMap Word
  catches : SMap Catch
  greds : List GredOut
  /-- what the last STEP.OPEN of the logical core saved, and the step it named -/
  saved : Option (Word × Saved)
  /-- the logical core has a step open -/
  inStep : Bool
  /-- the first STEP.OPEN has begun (R70) -/
  opened : Bool
  /-- a STEP.COMMIT has been issued and the next STEP.OPEN has not completed (R130) -/
  closing : Bool
  /-- it has executed the STEP.COMMIT of the open step and its share is ready (R130) -/
  ready : Bool
  halted : Bool
  /-- stopped by an abort, a fault or the end of the image -/
  stopped : Bool
  /-- on its physical core now; otherwise in its save area (R88) -/
  resident : Bool
  deriving DecidableEq, Repr

/-- A physical core: in service or fenced, stopped by a hardware fault until fenced, the side that holds the scratch port
(true: transfer side), and the corrected errors that count for R498. -/
structure PCore where
  fenced : Bool
  hwStopped : Bool
  xferSide : Bool
  deriving DecidableEq, Repr

def pcoreReset : PCore := ⟨false, false, false⟩

end Sys2Proof.Machine
end

