-- ==== Sys2Proof/Config.lean ====
section
/-! DEFINITION. What the manual leaves open: constants without a body, of which no proof can see a value. -/
namespace Sys2Proof

/-- Fresh values the manual leaves open, applied to the counter `State.freeCtr` (assumption 2). -/
opaque Config.freeValue : Nat → Word

/-- The byte at offset `i` of memory that holds no defined value, in fill epoch `n` (R73, R242; assumption 3). -/
opaque Config.freeByte : Nat → Nat → Byte

/-- Draw of the module in watts that the Keeper projects from the measured draw `w` at the steps in force to step `n` on
every die not held lower (R536; assumption 4). -/
opaque Config.projectDraw : (w : Nat) → (stepsNow : List Nat) → (n : Nat) → Nat

/-- The deputy of the root `r` as a member of the run that is neither of the two knows it (R441; assumption 14). -/
opaque Config.deputyKnown : (r : Member) → Option Member

/-- The payload of a packet of a kind whose layout the manual does not give, and what a receiver reads from it (assumption 13). -/
opaque Config.payloadLayout : Body → List Byte
opaque Config.payloadRead : (kind : Nat) → List Byte → Option Body

/-- Where a tier-1 transfer puts a granule of the held module, by its number, or, with none, the header and the sections, in the holder's
staging area: a byte offset in the die (R418; assumption 79). -/
opaque Config.stagingAt : Option Nat → Nat

/-- Address in HBM of the hub's buffer for archive commands (R420, R423; assumption 80). -/
opaque Config.arcBuffer : Nat

/-- Lag in ns of the frame replica of die `d` behind the hub's frame unit, taken modulo 41 (R42; assumption 7). -/
opaque Config.replicaLag : Nat → Nat

/-- Whether knuckle `i` holds the retrain that the Keeper gives it in tick `n` (R444; assumption 52). -/
opaque Config.knuckleRetrains : (i : Nat) → (n : Nat) → Bool

/-- The fused device secret, as a 256-bit number (R570; assumption 5). -/
opaque Config.deviceSecret : Nat

/-- Firmware public key `k` of the boot flash, 64 bytes, and its fused hash (R562, R564; assumption 5). -/
opaque Config.fwKey : Nat → List Byte
opaque Config.fwKeyHash : Nat → List Byte

/-- Bytes of a certificate of slot 0: root, intermediate, device and alias key certificate for alias key `d` and
measurement digest `m` (R570, R571; assumption 5). -/
opaque Config.certChain : (d : Nat) → (m : List Byte) → List Byte

/-- What the capabilities of the SPDM responder say of its timeout exponent (0), its transfer size (1) and its message size (2), which the
manual does not give (R575; assumption 18). -/
opaque Config.spdmLimit : Nat → Nat

/-- The per-signature nonce of the `k`-th signature the security engine makes (R576; assumption 5). -/
opaque Config.signNonce : Nat → Nat

end Sys2Proof
end

