-- ==== Sys2Proof/Machine/Mem.lean ====
section
/-! DEFINITION. Module memory: HBM and the scratch windows in the one physical address space of R19. A byte that nothing
has written reads as zero (assumption 6), or, inside a range that holds no defined value (R73), as a free byte. -/
namespace Sys2Proof.Machine

/-- A range of memory that holds no defined value: byte `lo + i` reads as `Config.freeByte ep (org + i)` until written. -/
structure Fill where
  lo : Nat
  len : Nat
  ep : Nat
  org : Nat
  deriving DecidableEq, Repr

/-- Memory: the written bytes in canonical form, and the ranges without a defined value, disjoint and rising. -/
structure Mem where
  cells : List Host.Cell
  fills : List Fill
  deriving DecidableEq, Repr

/-- What an unlisted address reads as. -/
def fillByte (fs : List Fill) (a : Nat) : Byte :=
  match fs.find? fun f => decide (f.lo ≤ a ∧ a < f.lo + f.len) with
  | some f => Config.freeByte f.ep (f.org + (a - f.lo))
  | none => 0

/-- One byte of memory. -/
def Mem.read (m : Mem) (a : Nat) : Byte := smGet (fillByte m.fills) m.cells a

/-- Whether an address lies in a range without a defined value. -/
def inFill (fs : List Fill) (a : Nat) : Bool := fs.any fun f => decide (f.lo ≤ a ∧ a < f.lo + f.len)

/-- The parts of a fill outside `[lo, hi)`. -/
def Fill.outside (lo hi : Nat) (f : Fill) : List Fill :=
  let l := min (f.lo + f.len) lo
  let r := max f.lo hi
  (if f.lo < l then [{ f with len := l - f.lo }] else []) ++
  (if r < f.lo + f.len then [{ lo := r, len := f.lo + f.len - r, ep := f.ep, org := f.org + (r - f.lo) }] else [])

/-- Inserts a fill in rising order. -/
def fillInsert (g : Fill) : List Fill → List Fill
  | [] => [g]
  | f :: fs => if g.lo < f.lo then g :: f :: fs else f :: fillInsert g fs

/-- Writes one byte: the fills give up the address, the entry is dropped when the byte is zero. -/
def Mem.write (m : Mem) (a : Nat) (v : Byte) : Mem :=
  if inFill m.fills a then
    { cells := smSet (fun _ => 0) m.cells a v, fills := m.fills.flatMap (Fill.outside a (a + 1)) }
  else { m with cells := smSet (fun _ => 0) m.cells a v }

/-- `n` bytes from an address. -/
def Mem.bytes (m : Mem) (a n : Nat) : List Byte := (List.range n).map fun i => m.read (a + i)

/-- Writes a run of bytes. -/
def Mem.writeBytes (m : Mem) : Nat → List Byte → Mem
  | _, [] => m
  | a, b :: bs => (m.write a b).writeBytes (a + 1) bs

/-- The little-endian number of `n` bytes (R7). -/
def Mem.readN (m : Mem) (a n : Nat) : Nat := leNat (m.bytes a n)
def Mem.writeN (m : Mem) (a n v : Nat) : Mem := m.writeBytes a (leBytes n v)

/-- Sets a range to zero. -/
def Mem.zero (m : Mem) (a n : Nat) : Mem :=
  { cells := m.cells.filter fun c => decide (¬ (a ≤ c.1 ∧ c.1 < a + n)),
    fills := m.fills.flatMap (Fill.outside a (a + n)) }

/-- A range becomes the given fill. -/
def Mem.fillIn (m : Mem) (f : Fill) : Mem :=
  if f.len = 0 then m
  else
    let z := m.zero f.lo f.len
    { z with fills := fillInsert f z.fills }

/-- A range loses its contents: it holds no defined value from now on (R73), in epoch `ep`. -/
def Mem.forget (m : Mem) (a n ep : Nat) : Mem := m.fillIn ⟨a, n, ep, 0⟩

/-- Places fills, then the bytes written inside and beside them. -/
def Mem.place (m : Mem) (fs : List Fill) (cs : List Host.Cell) : Mem :=
  cs.foldl (fun m c => m.write c.1 c.2) (fs.foldl Mem.fillIn m)

/-- Copies `n` bytes from `src` to `dst`, two ranges that do not meet, undefined contents included. -/
def Mem.copy (m : Mem) (src dst n : Nat) : Mem :=
  let fs := m.fills.filterMap fun f =>
    let l := max f.lo src
    let h := min (f.lo + f.len) (src + n)
    if l < h then some { lo := dst + (l - src), len := h - l, ep := f.ep, org := f.org + (l - f.lo) : Fill } else none
  let cs := m.cells.filter fun c => decide (src ≤ c.1 ∧ c.1 < src + n)
  (m.zero dst n).place fs (cs.map fun c => (dst + (c.1 - src), c.2))

/-- The written bytes of a range, as pairs. -/
def Mem.cellsIn (m : Mem) (a n : Nat) : List Host.Cell := m.cells.filter fun c => decide (a ≤ c.1 ∧ c.1 < a + n)

/-- Fills disjoint and rising from `lo`. -/
def fillsWf : Nat → List Fill → Bool
  | _, [] => true
  | lo, f :: fs => decide (lo ≤ f.lo) && decide (0 < f.len) && fillsWf (f.lo + f.len) fs

/-- The canonical form: addresses strictly rising, no zero entry, no entry inside a fill. -/
def Memory.wf (m : Mem) : Bool :=
  smWf (fun _ => 0) 0 m.cells && fillsWf 0 m.fills && m.cells.all fun c => !inFill m.fills c.1

end Sys2Proof.Machine
end

