-- ==== Sys2Proof/Machine/UnitState.lean ====
section
/-! DEFINITION. The state of the module's units beyond their registers: the loaded image, frame unit, step and reduction
state, fabric ports, latch, snapshots, tickets and journal, Keeper, error ring, clocks and power, security engine. -/
namespace Sys2Proof.Machine

/-! ### The image (R79 to R82, R198, R332, R333) -/

/-- A region of the image: base, length and kind code (R70, R82). -/
structure Region where
  base : Nat
  len : Nat
  kind : Nat
  deriving DecidableEq, Repr

/-- A random-stream table entry (R198). -/
structure StreamKey where
  key : Word
  salt : Nat
  draws : Nat
  offset : Word
  deriving DecidableEq, Repr

/-- A layer entry of the routing section (R333). -/
structure Layer where
  k0 : Word
  k1 : Word
  experts : Nat
  k : Nat
  wardBase : Nat
  epw : Nat
  quota : Nat
  sources : Nat
  rowBytes : Nat
  /-- bytes 0x20 to 0x3F are zero -/
  zeroOk : Bool
  deriving DecidableEq, Repr

/-- A POST written, or waiting to be written, into the post ring (R474). -/
structure PostRef where
  q : Nat
  seq : Word
  /-- its number among the image's POSTs; none until it is written into the ring -/
  idx : Option Nat
  deriving DecidableEq, Repr

/-- The loaded image and its ticket. -/
structure Image where
  level : Nat
  loopImage : Bool
  lcores : Nat
  hash : List Byte
  regions : List Region
  stepTree : List Member
  fanout : Nat
  streamKeys : List StreamKey
  layers : List Layer
  q : Nat
  seq : Word
  /-- the lost module's open LOAD that an adoption stands for (R473) -/
  twin : Option (Nat × Word)
  postBase : Nat
  postN : Nat
  consumedAddr : Nat
  posts : List PostRef
  postCount : Nat
  /-- a STOP waits for the next step commit (R475) -/
  stopReq : Option (Nat × Word)
  /-- a program fault met after the vote stops the image at the commit (R442): code and detail -/
  faultPend : Option (Code × Word)
  deriving DecidableEq, Repr

/-! ### Frame unit (R33 to R48) -/

/-- What the frame unit keeps beyond `FRM_`. Times in ns of the local timebase. -/
structure FrameSt where
  /-- current frame number (FRM_NOW.FRAME) -/
  f : Nat
  /-- boundary of the current frame, provisional length L0 and next boundary (R40) -/
  b : Nat
  len0 : Nat
  bNext : Nat
  /-- accepted correction of this frame: time and phase reached (R40) -/
  corr : Option (Nat × Nat)
  /-- last parent estimate and the frame it belongs to (R38) -/
  est : Option (Nat × Nat)
  /-- consecutive good boundaries (R44) -/
  good : Nat
  /-- frame number the parent (or the own count at ROOT) gives the current frame -/
  sysF : Option Nat
  /-- last hop count received on each port from a locked sender (R35) -/
  senders : SMap Nat
  parent : Option Nat
  /-- a parent estimate that came shortly before the boundary it belongs to, with the frame number it carries -/
  early : Option (Nat × Option Nat)
  /-- the correction window of the current frame has closed (R39) -/
  closed : Bool
  /-- the frame before: boundary, L0, next boundary, correction; for the die replicas (R42) -/
  prev : Option (Nat × Nat × Nat × Option (Nat × Nat))
  deriving DecidableEq, Repr

/-! ### Steps and reduction (R53, R300 to R327, R437 to R443) -/

/-- A share of a bucket launched by a GRED (R300, R302). -/
structure Share where
  lcore : Nat
  n : Nat
  first : Nat
  dA : Desc
  dD : Desc
  /-- packets whose result is written -/
  done : List Nat
  complete : Bool
  deriving DecidableEq, Repr

/-- A bucket launched in the open attempt. -/
structure Bucket where
  id : BitVec 32
  packets : Nat
  tree : Bool
  comp : Bool
  deadline : Nat
  shares : Nat
  group : List Member
  catchWord : Word
  statusAddr : Nat
  launched : List Share
  nonfinite : Bool
  failed : Bool
  done : Bool
  /-- a deadline report has been sent (R321) -/
  reported : Bool
  deriving DecidableEq, Repr

/-- A partial sum of the reduction tree (R310): bucket, packet, additions made on this member, lanes and residues. -/
structure Partial where
  bucket : BitVec 32
  packet : Nat
  adds : Nat
  lanes : List F32
  check : Nat
  tail : Nat
  nonfinite : Bool
  /-- the lanes that the unit added last, for its step check (R315) -/
  ins : Option (List F32 × List F32)
  deriving DecidableEq, Repr

/-- Why a hold of the module is in force (R437). -/
inductive HoldWhy where
  | quad (phys : Nat) | coast | lost (m : Member)
  deriving DecidableEq, Repr

/-- Step state of the module. -/
structure StepSt where
  /-- next step number (R127) -/
  next : Nat
  /-- the image has opened a step (R129) -/
  any : Bool
  attempt : Nat
  refFrame : Nat
  /-- write set of the open step: (base, granules) (R128) -/
  writeSet : List (Nat × Nat)
  /-- the open waits for pool space, frames left (R406) -/
  waitFrames : Option Nat
  /-- commit designation: step, frame (R53) -/
  commitF : Option (Nat × Nat)
  /-- repeat designation: attempt, frame, held (R325, R437) -/
  repeatF : Option (Nat × Nat × Bool)
  /-- lowest attempt of the open step not yet aborted by this module (R376) -/
  abortedBelow : Nat
  /-- STEP_ABORTs forwarded once: step, attempt, and whether the cause is PROGRAM (R322) -/
  seenAborts : List (Nat × Nat × Bool)
  /-- root: votes, and acknowledgements and reports, each with its attempt; closing frame of the collection (R325) -/
  votes : List (Member × Nat)
  acks : List (Member × LateKind × Nat)
  closeF : Option Nat
  prevLate : List Member
  gone : List Member
  holds : List Member
  /-- root: designation broadcast for the open attempt -/
  tallied : Bool
  /-- own Keeper: holds in force -/
  ownHolds : List HoldWhy
  /-- aborts put off to the next step's attempt 0 (R442) -/
  deferred : List (Option HoldWhy × Option Member)
  /-- stacks that gave a second error after the vote: they leave service once the step has committed or aborted (R442) -/
  failedStacks : List Nat
  /-- placement changes that take effect at the next restart or open (R93): logical core, physical core -/
  moves : List (Nat × Nat)
  /-- reduction unit assignments in force, by die (R311) -/
  unitOf : SMap Nat
  buckets : List Bucket
  partials : List Partial
  /-- packets held at the receiving die (R307) -/
  heldPkts : List (Nat × RedSrc × RedPkt)
  deriving DecidableEq, Repr

/-! ### Fabric (R365 to R393) -/

/-- A flit of the link (R367). -/
structure Flit where
  seq : Nat
  idle : Bool
  ack : Nat
  nak : Bool
  credits : List Nat
  payload : List Byte
  deriving DecidableEq, Repr

/-- A payload flit in the retry buffer (R368), with the packets that have bytes in it. -/
structure SentFlit where
  credits : List Nat
  payload : List Byte
  pkts : List Packet
  deriving DecidableEq, Repr

/-- A packet in a receive buffer (R370), its class and virtual lane on the link and the credits it holds there, and whether it has been
routed: then it waits at its die for its row. -/
structure RxPkt where
  p : Packet
  lane : Nat
  units : Nat
  routed : Bool
  deriving DecidableEq, Repr

/-- A fabric port beyond its registers. -/
structure Port where
  /-- packets handed to the port of which no byte has been sent, oldest first -/
  txq : List Packet
  /-- the packet under way, with its bytes not yet sent -/
  cur : Option (Packet × List Byte)
  /-- retry buffer: payload flits not acknowledged, oldest first, the oldest with sequence number `txAck + 1` -/
  retry : List SentFlit
  /-- how many of them have been sent since the last resend began -/
  txNext : Nat
  /-- last acknowledged own sequence number -/
  txAck : Nat
  /-- the flit that the port last put on its lanes -/
  out : Option Flit
  /-- next sequence number expected -/
  rxNext : Nat
  /-- a NAK has answered the current gap, and a NAK is due in the next flit -/
  nakSent : Bool
  nakDue : Bool
  /-- received bytes of a packet not yet whole, and the packets in the receive buffers -/
  rxBytes : List Byte
  rx : List RxPkt
  /-- credits that the other end has granted, and returns owed to it, by class and virtual lane in 64-byte units -/
  credits : List Nat
  returns : List Nat
  lastAck : Nat
  lastProgress : Nat
  stateAt : Nat
  /-- DELAY measurements made (R377) -/
  tries : Nat
  /-- a fast retrain is running (R381) -/
  fast : Bool
  /-- the copies of its own bitting record that the port sends, and the last record received (R378) -/
  recOut : List Bitting
  lastRec : Option Bitting
  /-- bring-up retries since the port left UP, and the tick of the last (R446) -/
  retries : Nat
  retryTick : Nat
  pathTicks : List Nat
  /-- a full bring-up is owed at the next gap between steps (R382, R384) -/
  retrainReq : Bool
  deriving DecidableEq, Repr

/-- A bound flow (R386, R387). -/
structure Flow where
  cls : Nat
  die : Nat
  dest : Nat
  port : Nat
  unacked : Nat
  deriving DecidableEq, Repr

/-- A remote transaction of this module (R375): tag, logical core, issue number, whether a read, remote address. -/
structure Txn where
  tag : Nat
  lcore : Nat
  n : Nat
  read : Bool
  addr : Nat
  deriving DecidableEq, Repr

/-- A flow as its destination acknowledges it (R375): the destination die, the source and its die, the class, and whether it is the flow
of unresolved Keyway packets to this ward. -/
structure AckKey where
  die : Nat
  src : Member
  cls : Nat
  srcDie : Nat
  ward : Bool
  deriving DecidableEq, Repr

structure FabSt where
  ports : SMap Port
  flows : List Flow
  txns : List Txn
  nextTag : Nat
  /-- packets delivered on this module and not yet handled by their row -/
  inbound : List Packet
  /-- delivery acknowledgements owed and the time of the last one sent, by flow (R375) -/
  ackOwed : List (AckKey × Nat)
  ackLast : List (AckKey × Nat)
  /-- cut requests seen and forwarded once (R409) -/
  seenCuts : List (BitVec 32)
  /-- designations of a deputy that this module has flooded or passed on once (R441) -/
  seenDesig : List Ctl
  /-- writes of other modules that the latch holds: their acknowledgement is owed (R401) -/
  heldIn : List Packet
  deriving DecidableEq, Repr

/-! ### Latch and snapshots (R397 to R427) -/

inductive GState where
  | free | protect | copying | copied
  deriving DecidableEq, Repr

/-- A latch map entry (R397), with the pool granules of its copies and the writes held on it. -/
structure Gran where
  st : GState
  t1 : Bool
  t2 : Bool
  stepCopy : Option Nat
  cutCopy : Option Nat
  /-- written since the last completed tier-1 copy (R410) -/
  dirty : Bool
  held : List HWrite
  deriving DecidableEq, Repr

def granReset : Gran := ⟨.free, false, false, none, none, true, []⟩

/-- A copy in progress or waiting for a channel (R399, R400). -/
structure CopyJob where
  gran : Nat
  pool : Nat
  step : Bool
  cut : Bool
  running : Bool
  start : Nat
  deriving DecidableEq, Repr

/-- An entry of the copy directory (R404), by pool granule. -/
structure DirEnt where
  source : Nat
  step : Bool
  cut : Bool
  attempt : Nat
  stepNo : Nat
  deriving DecidableEq, Repr

/-- The values recorded at a cut (R412). -/
structure CutRec where
  frame : Nat
  tier1 : Bool
  tier2 : Bool
  id : BitVec 32
  cursor : Word
  nextStep : Nat
  streams : List (SMap Word)
  journal : List (Nat × Word × Word)
  deriving DecidableEq, Repr

/-- A snapshot of a module (R413, R414), its data section as the written bytes and undefined ranges of its extents. -/
structure Snap where
  version : Nat
  id : BitVec 32
  module : Member
  frame : Nat
  next : Nat
  hash : List Byte
  cursor : Word
  lcores : Nat
  streams : List (SMap Word)
  journal : List (Nat × Word × Word)
  extents : List (Nat × Nat)
  data : Mem
  /-- outcome of the checks of MAGIC and HEADER_HASH, of TABLE_HASH, and of the chunk hashes (R425) -/
  headOk : Bool
  tableOk : Bool
  chunksOk : Bool
  deriving DecidableEq, Repr

/-- The holder's side of tier 1 (R417 to R419): the held module, header and sections of the copy area and of the staging area (the
granules themselves lie in the hold area of HBM), the granules of the staging area written in this transfer with their place in the
copy area, the record's state (0 none, 1 STAGED, 2 APPLIED). -/
structure HoldArea where
  held : Option Member
  copy : Option Snap
  staging : Option Snap
  staged : List (Nat × Nat)
  recState : Nat
  deriving DecidableEq, Repr

structure LatSt where
  map : SMap Gran
  jobs : List CopyJob
  dir : SMap DirEnt
  /-- cut requests accepted for boundaries to come (R409) -/
  cuts : List CutReq
  taken : Option CutRec
  /-- tier-1 transfer of the taken cut under way: what it sends -/
  t1 : Option Snap
  /-- granules that it has not sent yet; none when the sections are sent too; and those that it has sent (R411, R418, R419) -/
  t1Left : Option (List Nat)
  t1Sent : List Nat
  /-- last complete tier-1 copy of this module, in its partner's copy area, and that partner -/
  t1Copy : Option Snap
  t1Holder : Option Member
  hold : HoldArea
  restoring : Bool
  epoch : Nat
  /-- half-lines of HBM that hold an uncorrectable error, numbered by address / 32, rising (R275) -/
  badHalf : List Nat
  deriving DecidableEq, Repr

/-- A seal leaf (R422). -/
structure SealLeaf where
  magic : Nat
  version : Nat
  slot : Nat
  seq : Nat
  id : BitVec 32
  module : Member
  imageLbas : Nat
  headerHash : List Byte
  check : List Byte
  deriving DecidableEq, Repr

/-- What an NVMe namespace holds (R421): its leaves, none where an interrupted write has torn one, and the snapshots in its slots. -/
structure NsData where
  leafA : Option SealLeaf
  leafB : Option SealLeaf
  slots : SMap Snap
  deriving DecidableEq, Repr

def nsEmpty : NsData := ⟨none, none, []⟩

/-- The NVMe commands that the port uses (R421). -/
inductive NvmeOp where
  | read | write | flush
  deriving DecidableEq, Repr

/-- A command in flight: its parts, each an LBA, the bus address of its buffer and its bytes, and the granules that it writes. -/
structure NvmeCmd where
  op : NvmeOp
  parts : List (Nat × Nat × Nat)
  grans : List Nat
  deriving DecidableEq, Repr

/-- Archive port and the NVMe namespaces behind it. -/
structure ArcSt where
  /-- controllers and namespaces that enumeration has found -/
  ctrls : Nat
  found : List NsInfo
  /-- contents of the namespaces, by controller and id -/
  spaces : SMap NsData
  /-- the seal in progress: target slot, target leaf A, stage -/
  sealJob : Option (Nat × Bool × Nat)
  sealSnap : Option Snap
  cmd : Option NvmeCmd
  /-- tick of the last training of a link that is down (R420) -/
  retrainTick : Nat
  perst : Bool
  deriving DecidableEq, Repr

/-! ### Failures (R437 to R455) -/

structure PeerSt where
  /-- tick of the last heartbeat from each module heard, and of the last acknowledgement -/
  beats : SMap Nat
  ackTick : Nat
  /-- last tick in which a port was UP; none before the first (R448) -/
  downSince : Option Nat
  retired : Bool
  lost : List Member
  /-- this module has adopted an identity and no resume has come since (R441) -/
  heir : Bool
  /-- adoption pull under way: lost module, snapshot id, and the LOAD's queue and sequence number -/
  adopting : Option (Member × BitVec 32 × Nat × Word)
  /-- tick of the first MEM_UE of each stack (R443) -/
  ueTick : SMap Nat
  /-- ticks of RD_PATH failures of each knuckle since its last retrain (R444) -/
  knuckle : SMap (List Nat)
  dieFenced : List Nat
  /-- hub knuckles that are down, by the instance numbers of R522 (R17) -/
  hubDown : List Nat
  deriving DecidableEq, Repr

/-! ### Tickets, journal, completion rings (R457 to R492) -/

/-- A completion entry (R470). -/
structure CEnt where
  seq : Word
  queue : Nat
  kind : Nat
  phase : Bool
  running : Bool
  mirrored : Bool
  status : Code
  notice : Nat
  detail : Word
  time : Word
  deriving DecidableEq, Repr

/-- A completion ring in host memory (R470, R471): entries posted, oldest first, with CQ_HEAD. -/
structure CRing where
  ents : List CEnt
  count : Nat
  head : Nat
  lostOwed : Nat
  deriving DecidableEq, Repr

/-- A ticket between read and acceptance (R476). -/
structure Accepting where
  t : Ticket
  sentAt : Nat
  deriving DecidableEq, Repr

structure TQueue where
  slots : SMap Ticket
  tail : Nat
  wait : Option Accepting
  /-- index in the journal of the next entry written -/
  jNext : Nat
  deriving DecidableEq, Repr

/-- A journal entry (R478). -/
structure JEntry where
  t : Ticket
  state : Nat
  mirrored : Bool
  dispatched : Bool
  status : Code
  acceptTime : Word
  completeTime : Word
  detail : Word
  deriving DecidableEq, Repr

/-- A leaf of a two-leaf record (R517): sequence number, contents before 0x1D8, and whether its CHECK is correct. -/
structure Leaf where
  seq : Nat
  body : List Byte
  ok : Bool
  deriving DecidableEq, Repr

structure Rec2 where
  a : Option Leaf
  b : Option Leaf
  deriving DecidableEq, Repr

/-- A query in a slot (R488, R491). -/
structure SlotSt where
  q : Nat
  seq : Word
  /-- completed with LATE while dispatched -/
  running : Bool
  /-- set back to undispatched when its core was fenced: the query is dispatched again to this slot (R492) -/
  again : Bool
  deriving DecidableEq, Repr

structure HostSt where
  queues : List TQueue
  rings : SMap CRing
  /-- last firing of each vector of each port and vectors owed a message (R472) -/
  vecLast : SMap Nat
  vecOwed : List (Nat × Nat)
  /-- MSI-X messages sent: port, vector -/
  msix : List (Nat × Nat)
  hbTick : List Nat
  slots : SMap SlotSt
  /-- windows open now (R489) -/
  winOpen : List Nat
  linkUp : List Bool
  perst : List Bool
  /-- accepted WORK tickets that have not taken effect, in order of acceptance (R462) -/
  ready : List (Nat × Word)
  /-- accepted queries that wait for dispatch (R489) -/
  queries : List (Nat × Word)
  /-- queues that wait for their host to refill HBM (R481) -/
  refill : List Nat
  /-- data returned to host reads, by port, oldest first -/
  reads : List (Nat × List Byte)
  deriving DecidableEq, Repr

structure JnlSt where
  /-- own journals, by queue * 2048 + index -/
  own : SMap JEntry
  mirror : SMap JEntry
  /-- control area slots (R518) -/
  recs : SMap Rec2
  /-- fatal copies: index, record bytes as a number -/
  fatal : SMap Nat
  deriving DecidableEq, Repr

/-! ### Keeper and error ring (R496 to R527) -/

inductive ListOp where
  | quad (phys : Nat)
  | adoption
  | swapMicro | swapPort | swapUncore
  | tier2
  | tier1
  | scrub
  | fwStage | fwWrite | fwSelect | keygen
  deriving DecidableEq, Repr

/-- A step list (R502): operation, class, steps left, and the command it serves. -/
structure StepList where
  op : ListOp
  cls : Nat
  left : Nat
  /-- done so far; for a quad check the cores that failed -/
  done : Nat
  fails : List Nat
  port : Option (Nat × BitVec 8)
  arg0 : Word
  arg1 : Word
  deriving DecidableEq, Repr

/-- A command waiting for the Keeper (R504, R590). -/
structure KCmd where
  port : Nat
  cmd : BitVec 8
  tag : BitVec 8
  deriving DecidableEq, Repr

/-- A change set (R507 to R513). -/
structure ChangeSet where
  owner : Nat
  /-- staged words: value and mask by register address -/
  staged : SMap (Word × Word)
  full : Bool
  /-- the commit: its tag, and the step at whose commit boundary the set is applied if it waits for one (R510) -/
  commit : Option (BitVec 8 × Nat × Bool)
  /-- tick at which quiescing began -/
  since : Nat
  deriving DecidableEq, Repr

structure KprSt where
  up : Bool
  tickStart : Nat
  lists : List StepList
  cmds : List KCmd
  cs : Option ChangeSet
  /-- corrected-error ticks of each physical core (R498) -/
  ces : SMap (List Nat)
  fenceAtCommit : List Nat
  /-- tick at which the last scrub pass of each die began (R276) -/
  scrubTicks : List Nat
  deriving DecidableEq, Repr

/-- An error record (R521). -/
structure ERec where
  seq : Nat
  code : Code
  fatal : Bool
  locked : Bool
  journaled : Bool
  coalesced : Bool
  source : Nat
  count : Nat
  firstTick : Nat
  span : Nat
  time : Word
  detail : Word
  copy : Nat
  deriving DecidableEq, Repr

structure ErrSt where
  /-- records by ring index -/
  recs : SMap ERec
  /-- records written in the general area and in the reserve; the TAILs show their low 16 bits (R523) -/
  written : Nat
  writtenF : Nat
  /-- classes that have sent a message in this tick: non-fatal, fatal -/
  sentNf : List Nat
  sentF : List Nat
  pendNf : List Nat
  pendF : List Nat
  deriving DecidableEq, Repr

/-! ### Clocks, power, thermal (R531 to R557) -/

structure PwrSt where
  feedA : Bool
  feedB : Bool
  /-- ticks within 40 to 60 V of a lost feed -/
  backTicks : List Nat
  /-- consecutive samples above 105 % of the cap; the limiter acts (R548) -/
  overCap : Nat
  capEpisode : Bool
  /-- the limit of `FEED_STEP` is in force (R550) -/
  feedHold : Bool
  policy : List Nat
  limiter : Nat
  thermal : List Nat
  coolTicks : List Nat
  throttling : List Bool
  /-- tripped dies and, last, the hub (R555); ticks that a sensor has been at or above its trip temperature with its die at
  step 4 (R556), by sensor -/
  trips : List Bool
  tripTicks : SMap Nat
  meterOff : List Nat
  meterHold : List Bool
  coastTicks : Nat
  goodTicks : Nat
  /-- last reading of each sensor, and ticks until one that failed counts as normal (R553) -/
  prevC : SMap Nat
  sensorBad : SMap Nat
  /-- domain switches under way: domain, on -/
  switching : List (Nat × Bool)
  /-- domains whose switch-on has been held from its start (R545) -/
  heldOn : List Nat
  fencedDoms : List Nat
  deriving DecidableEq, Repr

/-! ### Security engine (R562 to R576) -/

/-- A bundle as its checks see it (R563, R564): the SHA-256 of its header, SVN, VERSION and component hashes, and the
outcome of the checks that do not depend on the floor (0 or a code). -/
structure Bundle where
  header : List Byte
  svn : Nat
  version : Nat
  comps : List (Nat × List Byte)
  verdict : Code
  hashOk : Bool
  deriving DecidableEq, Repr

/-- A selector leaf (R565). -/
structure SelLeaf where
  magic : Nat
  version : Nat
  slot : Nat
  seq : Nat
  header : List Byte
  check : List Byte
  deriving DecidableEq, Repr

/-- Bytes 0x000 to 0xFDF of a leaf. -/
def selLeafBody (l : SelLeaf) : List Byte :=
  let b := leBytes 4 l.magic ++ leBytes 2 l.version ++ leBytes 1 l.slot ++ leBytes 1 0 ++ leBytes 8 l.seq ++ l.header
  b ++ List.replicate (0xFE0 - b.length) 0

/-- The leaf that names a slot, with the hash of the header of its bundle. -/
def selLeaf (slot seq : Nat) (header : List Byte) : SelLeaf :=
  let l : SelLeaf := ⟨0x4C455342, 1, slot, seq, header, []⟩
  { l with check := sha256 (selLeafBody l) }

/-- An attestation log entry (R573). -/
structure LogEnt where
  kind : Nat
  level : Nat
  index : Nat
  time : Word
  subject : Word
  hash : List Byte
  deriving DecidableEq, Repr

/-- An SPDM response (R575): endpoint, response code, payload. -/
structure SpdmResp where
  endpoint : Nat
  code : Nat
  payload : List Byte
  deriving DecidableEq, Repr

structure SecSt where
  leafA : Option SelLeaf
  leafB : Option SelLeaf
  bundles : SMap Bundle
  running : Option Bundle
  /-- staged bundle: the hash of its header, its address and its length (R569) -/
  staged : Option (List Byte × Nat × Nat)
  /-- measurements 1 to 4 -/
  meas : List (List Byte)
  digest : List Byte
  log : List LogEnt
  count : Nat
  /-- measurements 1 to 4 as they stood when the alias key in force was derived (R571) -/
  akMeas : List (List Byte)
  signs : Nat
  /-- connection state of each endpoint: version, capabilities, algorithms negotiated -/
  conns : List Nat
  /-- transcript of each endpoint -/
  script : List (List Byte)
  out : List SpdmResp
  deriving DecidableEq, Repr

/-- What the fuses hold (R26, R564): variant code of R29, silicon revision and the revocation word. The key hashes and the device
secret are constants of `Config`. -/
structure Fuses where
  variant : Nat
  rev : Nat
  revoked : Nat
  deriving DecidableEq, Repr

/-- Power and reset (R588 to R593). -/
structure PowerSt where
  powered : Bool
  /-- MOD_RST_N held low -/
  inReset : Bool
  pwrOk : Bool
  recovery : Bool
  /-- a power-up waits at its 21 ms row for MOD_RST_N (R591), and power was lost during a module reset -/
  cold : Bool
  lossInReset : Bool
  deriving DecidableEq, Repr

end Sys2Proof.Machine
end

