-- ==== Sys2Proof/Machine/State.lean ====
section
/-! DEFINITION. The state of the module, the reasons a step can stop, and the state after reset. -/
namespace Sys2Proof.Machine

/-- Faults of a step. No command of this block ends in a fault: what the manual calls a fault is a code that the command
records in the state. -/
inductive Fault where
  /-- Raised by nothing; kept so that the outcome type names one. Safe: a fault only stops. -/
  | none
  deriving DecidableEq, Repr

/-- Refusals of a step. -/
inductive Refusal where
  /-- Raised by an arm of `exec` whose row has no meaning yet, naming the row. Safe: it only stops. -/
  | notModelled (mnemonic : String)
  deriving DecidableEq, Repr

/-- The module. -/
structure State where
  /-- commands waiting, first in, first out -/
  pending : List Instr
  /-- local timebase in ns, 1 GHz (R37, R531) -/
  now : Nat
  /-- the model's own counter of free values taken (assumption 2) -/
  freeCtr : Nat
  power : PowerSt
  fuses : Fuses
  /-- register words by module address, where they differ from reset (R597) -/
  regs : SMap Word
  mem : Mem
  img : Option Image
  lcores : List LCore
  pcores : SMap PCore
  frame : FrameSt
  step : StepSt
  fab : FabSt
  kwyCache : SMap Word
  lat : LatSt
  arc : ArcSt
  peer : PeerSt
  host : HostSt
  jnl : JnlSt
  kpr : KprSt
  err : ErrSt
  pwr : PwrSt
  sec : SecSt
  deriving DecidableEq, Repr

/-- The fuses of the part modelled at reset: a TX8-4096K of the first silicon release (assumption 8). -/
def fusesReset : Fuses := ⟨1, 1, 0⟩

/-- The bundle in the boot flash at reset, valid under R564 (assumption 9). -/
def bundleReset : Bundle :=
  ⟨List.replicate 32 0, 0, 0x21010001, (List.range 4).map fun k => (k + 1, List.replicate 32 0), 0, true⟩

def portReset : Port :=
  { txq := [], cur := none, retry := [], txNext := 0, txAck := 4095, out := none, rxNext := 0, nakSent := false, nakDue := false,
    rxBytes := [], rx := [], credits := [2048, 2048, 2048, 2048, 1024, 1024, 256, 256], returns := List.replicate 8 0, lastAck := 0,
    lastProgress := 0, stateAt := 0, tries := 0, fast := false, recOut := [], lastRec := none, retries := 0, retryTick := 0,
    pathTicks := [], retrainReq := false }

def frameReset : FrameSt := ⟨0, 0, 1000000, 1000000, none, none, 0, none, [], none, none, false, none⟩

def stepReset : StepSt :=
  { next := 1, any := false, attempt := 0, refFrame := 0, writeSet := [], waitFrames := none, commitF := none,
    repeatF := none, abortedBelow := 0, seenAborts := [], votes := [], acks := [],
    closeF := none, prevLate := [], gone := [], holds := [], tallied := false, ownHolds := [],
    deferred := [], failedStacks := [], moves := [], unitOf := [], buckets := [], partials := [], heldPkts := [] }

def fabReset : FabSt := ⟨[], [], [], 0, [], [], [], [], [], []⟩
def latReset : LatSt := ⟨[], [], [], [], none, none, none, [], none, none, ⟨none, none, none, [], 0⟩, false, 1, []⟩
def arcReset : ArcSt := ⟨0, [], [], none, none, none, 0, true⟩
def peerReset : PeerSt := ⟨[], 0, none, false, [], false, none, [], [], [], []⟩
def hostReset : HostSt :=
  ⟨List.replicate 32 ⟨[], 0, none, 0⟩, [], [], [], [], [0, 0], [], [], [false, false], [true, true], [], [], [], []⟩
def jnlReset : JnlSt := ⟨[], [], [], []⟩
def kprReset : KprSt := ⟨true, 0, [], [], none, [], [], List.replicate 8 0⟩
def errReset : ErrSt := ⟨[], 0, 0, [], [], [], []⟩
def pwrReset : PwrSt :=
  ⟨true, true, [0, 0], 0, false, false, List.replicate 8 4, 0, List.replicate 8 32, List.replicate 8 0,
    List.replicate 8 false, List.replicate 9 false, [], List.replicate 8 0, List.replicate 8 false, 0, 0, [], [], [], [], []⟩
def secReset : SecSt :=
  { leafA := some (selLeaf 0 1 (List.replicate 32 0)), leafB := none, bundles := [(0, bundleReset)],
    running := some bundleReset, staged := none, meas := List.replicate 4 (List.replicate 32 0),
    digest := List.replicate 32 0, log := [], count := 0, akMeas := List.replicate 4 (List.replicate 32 0), signs := 0,
    conns := [0, 0, 0], script := [[], [], []], out := [] }

/-- The module after power-up, as R588 leaves it: powered, the Keeper running, every register at its reset value, no image
loaded, memory with nothing listed (assumptions 6 to 10). -/
def State.reset : State :=
  { pending := [], now := 0, freeCtr := 0, power := ⟨true, false, true, false, false, false⟩, fuses := fusesReset, regs := [],
    mem := ⟨[], []⟩, img := none, lcores := [], pcores := [], frame := frameReset, step := stepReset, fab := fabReset,
    kwyCache := [], lat := latReset, arc := arcReset, peer := peerReset, host := hostReset, jnl := jnlReset,
    kpr := kprReset, err := errReset, pwr := pwrReset, sec := secReset }

end Sys2Proof.Machine
end

