-- ==== Sys2Proof/Machine/Packet.lean ====
section
/-! DEFINITION. Fabric packets as bytes: the header of R373 and the payloads of R306 and R343, and how a receiver reads them back
from the payload bytes of flits (R367). -/
namespace Sys2Proof.Machine

/-- `n` bytes at offset `o` of a record, little-endian. -/
def bodyNat (b : List Byte) (o n : Nat) : Nat := leNat ((b.drop o).take n)

/-- Payload bytes of a packet, for LENGTH and the queue lengths of R386 (assumption 13 for the kinds without a layout). -/
def payloadBytes (p : Packet) : Nat :=
  match p.body with
  | .write _ d _ => 8 + d.length
  | .readReq _ _ => 16
  | .readData d => d.length
  | .writeAck => 0
  | .catchSig _ _ => 16
  | .refusal _ _ => 16
  | .reduction r => if r.comp then 536 else 280
  | .keyway k => 64 + k.row.length
  | .frame _ => 24
  | .control _ => 32
  | .deliveryAck .. => 8

/-- Bytes of a packet on the link. -/
def packetSize (p : Packet) : Nat := 16 + payloadBytes p

/-- KIND of the header (R373). -/
def bodyKind : Body → Nat
  | .write .. => 0
  | .readReq .. => 1
  | .readData _ => 2
  | .writeAck => 3
  | .catchSig .. => 4
  | .refusal .. => 5
  | .reduction _ => 6
  | .keyway _ => 7
  | .frame _ => 8
  | .control _ => 9
  | .deliveryAck .. => 10

/-- A reduction packet (R306). -/
def redBytes (r : RedPkt) : List Byte :=
  leBytes 4 r.bucket.toNat ++ leBytes 2 r.step.toNat ++ leBytes 1 r.attempt.toNat ++
  leBytes 1 ((if r.comp then 1 else 0) + (if r.nonfinite then 2 else 0) + (if r.result then 4 else 0)) ++
  leBytes 4 r.packet ++ leBytes 2 r.srcRank ++ leBytes 2 0 ++ r.lanes.flatMap (fun w => leBytes 4 w.toNat) ++
  leBytes 4 r.check.toNat ++ leBytes 4 r.tail.toNat

/-- The reduction packet that bytes hold. -/
def redParse (b : List Byte) : RedPkt :=
  let flags := bodyNat b 7 1
  let n := if flags.testBit 0 then 128 else 64
  { bucket := BitVec.ofNat 32 (bodyNat b 0 4), step := BitVec.ofNat 16 (bodyNat b 4 2), attempt := BitVec.ofNat 8 (bodyNat b 6 1),
    comp := flags.testBit 0, nonfinite := flags.testBit 1, result := flags.testBit 2, packet := bodyNat b 8 4 % 2 ^ 17,
    srcRank := bodyNat b 0xC 2, lanes := (List.range n).map fun i => BitVec.ofNat 32 (bodyNat b (0x10 + 4 * i) 4),
    check := BitVec.ofNat 32 (bodyNat b (0x10 + 4 * n) 4), tail := BitVec.ofNat 32 (bodyNat b (0x14 + 4 * n) 4) }

/-- The 64-byte header of a Keyway packet (R343). -/
def kwyHeader (p : KwyPkt) : List Byte :=
  leBytes 1 p.kind ++ leBytes 1 p.attempt.toNat ++ leBytes 2 p.step.toNat ++ leBytes 2 p.epoch.toNat ++ leBytes 1 p.layer ++
  leBytes 1 (p.rank % 8 + (if p.resolved then 8 else 0) + 16 * p.rowType.toNat) ++ leBytes 2 p.expert ++ leBytes 1 p.dWard ++
  leBytes 1 p.dModule ++ leBytes 1 p.dLcore ++ leBytes 3 0 ++ leBytes 4 p.origin.toNat ++ leBytes 4 p.sourceRank ++
  leBytes 8 p.combine ++ leBytes 4 p.record ++ leBytes 4 p.slot ++ leBytes 8 p.inbox ++ leBytes 2 p.code.toNat ++ leBytes 14 0

/-- The header that 64 bytes hold. -/
def kwyParse (b : List Byte) : KwyPkt :=
  { kind := bodyNat b 0 1, attempt := BitVec.ofNat 8 (bodyNat b 1 1), step := BitVec.ofNat 16 (bodyNat b 2 2),
    epoch := BitVec.ofNat 16 (bodyNat b 4 2), layer := bodyNat b 6 1, rank := bodyNat b 7 1 % 8, resolved := (bodyNat b 7 1).testBit 3,
    rowType := BitVec.ofNat 4 (bodyNat b 7 1 / 16), expert := bodyNat b 8 2, dWard := bodyNat b 0xA 1, dModule := bodyNat b 0xB 1,
    dLcore := bodyNat b 0xC 1, origin := BitVec.ofNat 32 (bodyNat b 0x10 4), sourceRank := bodyNat b 0x14 4,
    combine := bodyNat b 0x18 8, record := bodyNat b 0x20 4, slot := bodyNat b 0x24 4, inbox := bodyNat b 0x28 8,
    code := BitVec.ofNat 16 (bodyNat b 0x30 2), row := [] }

/-- Payload of a packet: the layouts of R306 and R343, for the other kinds one that the manual does not give (assumption 13). -/
def payloadOf (p : Packet) : List Byte :=
  match p.body with
  | .reduction r => redBytes r
  | .keyway k => kwyHeader k ++ k.row
  | b =>
    let n := payloadBytes p
    (Config.payloadLayout b ++ List.replicate n 0).take n

/-- The header of a packet (R373). -/
def packetHeader (p : Packet) : List Byte :=
  leBytes 1 (p.cls.toNat + (if p.vl then 4 else 0)) ++ leBytes 1 p.hops ++ leBytes 2 (payloadBytes p) ++ leBytes 2 p.dest.toNat ++
  leBytes 1 p.destDie.toNat ++ leBytes 1 p.srcDie.toNat ++ leBytes 2 p.src.toNat ++ leBytes 1 (bodyKind p.body) ++
  leBytes 1 p.attempt.toNat ++ leBytes 2 p.step.toNat ++ leBytes 2 p.tag.toNat

/-- A packet on the link. -/
def packetBytes (p : Packet) : List Byte := packetHeader p ++ payloadOf p

/-- The body of a kind that payload bytes hold; `now` is the time at which a frame packet arrives. -/
def bodyParse (now kind : Nat) (b : List Byte) : Option Body :=
  if kind = 6 then some (.reduction (redParse b))
  else if kind = 7 then some (.keyway { kwyParse b with row := b.drop 64 })
  else if kind ≤ 10 then match Config.payloadRead kind b with
    | some (.frame f) => some (.frame { f with arrival := now })
    | x => x.filter fun x => bodyKind x == kind
  else none

/-- The packet at the front of the bytes, none while it is not whole, and the rest; a packet whose bytes are none of R373 is lost. -/
def packetParse (now : Nat) (b : List Byte) : Option (Option Packet × List Byte) :=
  let len := bodyNat b 2 2
  if b.length < 16 + len then none
  else
    let p := (bodyParse now (bodyNat b 0xA 1) ((b.drop 16).take len)).map fun x : Body =>
      { cls := BitVec.ofNat 2 (bodyNat b 0 1), vl := (bodyNat b 0 1).testBit 2, hops := bodyNat b 1 1,
        dest := BitVec.ofNat 16 (bodyNat b 4 2), destDie := BitVec.ofNat 4 (bodyNat b 6 1), srcDie := BitVec.ofNat 4 (bodyNat b 7 1),
        src := BitVec.ofNat 16 (bodyNat b 8 2), attempt := BitVec.ofNat 8 (bodyNat b 0xB 1), step := BitVec.ofNat 16 (bodyNat b 0xC 2),
        tag := BitVec.ofNat 16 (bodyNat b 0xE 2), body := x }
    some (p, b.drop (16 + len))

/-- What a sender puts behind its last packet in a flit that it does not fill: a byte that begins no header, since bits 7 to 3 of a
header's first byte are zero (DESIGN CHOICE, assumption 72). -/
def flitPad : Byte := 0xF8

/-- The whole packets of received bytes, and the bytes of one not yet whole. -/
def packetsParse (now : Nat) : Nat → List Byte → List Packet × List Byte
  | 0, b => ([], b)
  | fuel + 1, b =>
    match b with
    | [] => ([], [])
    | x :: rest =>
      if 8 ≤ x.toNat then packetsParse now fuel rest
      else if b.length < 16 then ([], b)
      else match packetParse now b with
        | none => ([], b)
        | some (p, rest) =>
          let (ps, left) := packetsParse now fuel rest
          (p.toList ++ ps, left)

/-- Index of a class and virtual lane among the eight of R367. -/
def laneIndex (p : Packet) : Nat := 2 * p.cls.toNat + (if p.vl then 1 else 0)

/-- Credits that a packet takes, in units of 64 bytes (R367; DESIGN CHOICE, assumption 73: each packet rounded up). -/
def packetUnits (p : Packet) : Nat := ceilDiv (packetSize p) 64

end Sys2Proof.Machine
end

