-- ==== Sys2Proof/Machine/Ops.lean ====
section
/-! DEFINITION. The named operations over the state: register words and fields, what the variant holds, system time, the
error ring, two-leaf records, Keeper messages, and the accessors of cores and units. -/
namespace Sys2Proof.Machine

/-! ### The variant (R1, R28, R29) -/

/-- STACK_MASK and PORT_MASK of the variant (R29). -/
def stackMask (f : Fuses) : Nat := if f.variant = 2 then 0x77777777 else 0xFFFFFFFF
def portMask (f : Fuses) : Nat := if f.variant = 2 then 0x7777 else 0xFFFF
/-- TUMBLER and KEYWAY, which are always equal (R30). -/
def hasTumbler (f : Fuses) : Bool := f.variant != 3

def hasStack (f : Fuses) (j : Nat) : Bool := decide (j < 32) && (stackMask f).testBit j
def hasPort (f : Fuses) (n : Nat) : Bool := decide (n < 16) && (portMask f).testBit n

/-! ### Register words (R11, R13, R597 to R599) -/

def regBase : Nat := 0x60000000000
def regEnd : Nat := 0x60009000000

/-- Region, slot and offset of an address in register space (R20). -/
def regRegion (a : Nat) : Nat := (a - regBase) / 0x1000000
def regSlot (a : Nat) : Nat := (a - regBase) / 0x10000 % 256
def regOff (a : Nat) : Nat := (a - regBase) % 0x10000

/-- The register at a module address: name and number, with the die for a die block. -/
def regLookup (a : Nat) : Option (RegAt × Nat) :=
  if a < regBase ∨ regEnd ≤ a then none
  else
    let r := regRegion a
    if r = 8 then (hubRegAt (regSlot a) (regOff a)).map fun x => (x, 8)
    else (dieRegAt (regSlot a) (regOff a)).map fun x => (x, r)

/-- The reset word that a register map gives. -/
def descReset (d : RegDesc) : Nat := d.foldl (fun v f => v ||| (f.reset <<< f.lo)) 0

/-- A unit, stack or port of the variant that is absent: its block reads as zero and ignores writes (R3). -/
def regAbsent (f : Fuses) (r : RegAt) (die : Nat) : Bool :=
  match r.name with
  | .KWY_CAP | .KWY_WLT | .KWY_COUNT | .KWY_STALE | .KWY_TRAFFIC | .KWY_LAST => !hasTumbler f
  | .MEM_STACK_STAT | .MEM_STACK_SCRUB => !hasStack f (4 * die + r.inst)
  | .FAB_PORT_CTRL | .FAB_PORT_STAT | .FAB_PORT_PEER | .FAB_PORT_ERR | .FAB_PORT_COUNT => !hasPort f (2 * die + r.inst)
  | _ => false

/-- The word of a register after reset (R597): the map's reset values, and where a map gives none, what R27 to R29, R281,
R493 and assumption 10 give. -/
def resetWord (f : Fuses) (a : Nat) : Word :=
  match regLookup a with
  | none => 0
  | some (r, die) =>
    if regAbsent f r die then 0
    else
      let v := descReset r.name.desc
      BitVec.ofNat 64 <| match r.name with
      | .CAPS_A => v ||| (f.rev <<< 8) ||| (stackMask f <<< 32)
      | .CAPS_B => v ||| portMask f ||| ((if f.variant = 2 then 12 else 16) <<< 16) |||
          ((if f.variant = 2 then 24 else 32) <<< 24) ||| ((if hasTumbler f then 3 else 0) <<< 32) ||| (f.variant <<< 56)
      | .TKT_Q_CFG => v ||| (r.inst <<< 8) ||| (r.inst <<< 16)
      | .TKT_Q_STAT => v ||| ((r.inst / 16) <<< 3)
      | .MEM_STACK_STAT => v ||| 1
      | .HUB_RESET => 1
      | .KPR_VERSION => v ||| 1
      | .PWR_DOM_ON1 => 0xFFFF
      | .SEC_STAT => v ||| (f.revoked <<< 4)
      | _ => v

/-- The word a register holds. -/
def getReg (s : State) (a : Nat) : Word := smGet (resetWord s.fuses) s.regs a

/-- Sets a register word. -/
def setReg (s : State) (a : Nat) (v : Word) : State := { s with regs := smSet (resetWord s.fuses) s.regs a v }

/-- `v` with its field replaced. -/
def putBits (v lo w x : Nat) : Nat := v - (bits v lo w <<< lo) + ((x % 2 ^ w) <<< lo)

/-- The value of a register field. -/
def fld (s : State) (f : Fld) : Nat := bits (getReg s f.addr).toNat f.lo f.w

/-- Whether a one-bit field is set. -/
def fldOn (s : State) (f : Fld) : Bool := fld s f != 0

/-- Sets a register field. -/
def setFld (f : Fld) (v : Nat) (s : State) : State :=
  setReg s f.addr (BitVec.ofNat 64 (putBits (getReg s f.addr).toNat f.lo f.w v))

/-- Adds to a saturating counter field. -/
def addFld (f : Fld) (n : Nat) (s : State) : State := setFld f (satAdd f.w (fld s f) n) s

/-! ### Power and reset (R588 to R593) -/

/-- The module is powered and MOD_RST_N is high. -/
def live (s : State) : Bool := s.power.powered && !s.power.inReset

/-! ### Free values -/

/-- The next value the manual leaves open. -/
def freeNow (s : State) : Word := Config.freeValue s.freeCtr
def freeStep (s : State) : State := { s with freeCtr := s.freeCtr + 1 }

/-! ### System time (R31, R40, R42) -/

/-- Phase at local time `t` of a frame that began at `b`, with provisional length `l`, next boundary `bn` and accepted
correction (R40). -/
def phaseAt (b l bn : Nat) (corr : Option (Nat × Nat)) (t : Nat) : Nat :=
  min 65535 (match corr with
    | none => if l = 0 then 0 else (t - b) * 65536 / l
    | some (t0, p0) => if bn - t0 = 0 then p0 else p0 + (t - t0) * (65536 - p0) / (bn - t0))

def phaseNow (s : State) : Nat := phaseAt s.frame.b s.frame.len0 s.frame.bNext s.frame.corr s.now

/-- A frame number and phase in the layout of R31. -/
def timeWord (f p : Nat) : Word := BitVec.ofNat 64 (f * 65536 + p)

def sysTime (s : State) : Word := timeWord s.frame.f (phaseNow s)

/-- The system time that the replica of die `d` holds (R42). -/
def replicaTime (s : State) (d : Nat) : Word :=
  let t := s.now - Config.replicaLag d % 41
  if s.frame.b ≤ t then timeWord s.frame.f (phaseAt s.frame.b s.frame.len0 s.frame.bNext s.frame.corr t)
  else match s.frame.prev with
    | some (b, l, bn, corr) => timeWord (s.frame.f - 1) (phaseAt b l bn corr t)
    | none => timeWord s.frame.f 0

/-- LOCKED or HOLDOVER (R43, R45). -/
def isLocked (s : State) : Bool := fld s FRM_STAT_STATE ≥ 2

/-- Current Keeper tick. -/
def tickNow (s : State) : Nat := fld s KPR_STAT_TICK

/-! ### The change set being applied (R509, R511) -/

/-- A change set is being applied that stages a register whose address has a property. -/
def csField (s : State) (p : Nat → Bool) : Bool :=
  fld s KPR_CS_STAT_STATE == 3 && match s.kpr.cs with
    | some c => c.staged.any fun w => p w.1
    | none => false

/-- It stages a register of slot `k` of die `d`. -/
def csDie (s : State) (d k : Nat) : Bool := csField s fun a => regRegion a == d && regSlot a == k

/-! ### Power domains (R541, R542) -/

/-- Whether a domain is switched on. -/
def domOn (s : State) (dom : Nat) : Bool :=
  if dom < 64 then (fld s PWR_DOM_ON0_ON).testBit dom else (fld s PWR_DOM_ON1_ON).testBit (dom - 64)

/-- The quad domain of a physical core is on. -/
def quadOn (s : State) (p : Nat) : Bool := domOn s (p / 4)

/-! ### Cores -/

def getL (s : State) (c : Nat) : Option LCore := s.lcores[c]?
def setL (c : Nat) (l : LCore) (s : State) : State := { s with lcores := s.lcores.set c l }
def modL (c : Nat) (f : LCore → LCore) (s : State) : State := { s with lcores := listMod s.lcores c f }
def modAllL (f : LCore → LCore) (s : State) : State := { s with lcores := s.lcores.map f }

def getP (s : State) (p : Nat) : PCore := smGet (fun _ => pcoreReset) s.pcores p
def modP (p : Nat) (f : PCore → PCore) (s : State) : State :=
  { s with pcores := smSet (fun _ => pcoreReset) s.pcores p (f (getP s p)) }

/-- Die of a logical core: a logical core never leaves it (R87). -/
def LCore.die (l : LCore) : Nat := l.pref / 32

def dieOf (s : State) (c : Nat) : Nat := match getL s c with
  | some l => l.die
  | none => 0

/-- Scratch window of a logical core: that of its PREF_CORE, wherever it runs (R20; assumption 11). -/
def winBase (l : LCore) : Nat := 0x40000000000 + l.pref * 0x800000
def scratchBytes : Nat := 0x600000

/-- Register `x[r]`; x0 reads as zero (R102). -/
def readX (l : LCore) (r : BitVec 6) : Word := if r = 0 then 0 else l.x.get r.toFin
/-- Writes `x[r]`; writes to x0 are discarded (R102). -/
def writeX (r : BitVec 6) (v : Word) (l : LCore) : LCore := if r = 0 then l else { l with x := l.x.set r.toNat v r.isLt }
/-- Predicate `p[r]`; p0 reads as 1 (R102). -/
def readP (l : LCore) (r : BitVec 3) : Bool := if r = 0 then true else l.p.getLsbD r.toNat
def writeP (r : BitVec 3) (v : Bool) (l : LCore) : LCore :=
  if r = 0 then l
  else
    let m : BitVec 8 := 1#8 <<< r.toNat
    { l with p := if v then l.p ||| m else l.p &&& ~~~m }
def readD (l : LCore) (r : BitVec 5) : Desc := l.d.get r.toFin
def writeD (r : BitVec 5) (v : Desc) (l : LCore) : LCore := { l with d := l.d.set r.toNat v r.isLt }

/-- Queue codes (R97). -/
def qS : Nat := 0
def qM : Nat := 1
def qT : Nat := 2
def qV : Nat := 3
def qX : Nat := 4
def qC : Nat := 5
def qK : Nat := 6
def qG : Nat := 7
def qF : Nat := 8

def queue (l : LCore) (q : Nat) : List QE := l.qs.getD q []
def setQueue (q : Nat) (es : List QE) (l : LCore) : LCore := { l with qs := l.qs.set q es }
def modQueue (q : Nat) (f : List QE → List QE) (l : LCore) : LCore := { l with qs := listMod l.qs q f }

/-- Image level of the running image; 2 when none is loaded. -/
def imgLevel (s : State) : Nat := match s.img with
  | some i => i.level
  | none => 2

/-- The logical core has executed HALT with no step open, and with that has left the set that takes part in steps (R74). -/
def leftSteps (l : LCore) : Bool := l.halted || (l.block == some .halt && !l.inStep)

/-- A logical core that takes part in steps (R74). -/
def takesPart (s : State) (l : LCore) : Bool := imgLevel s == 2 && !l.loop && !leftSteps l

/-- A range of memory loses its contents: it holds no defined value from now on (R73, R89, R242). -/
def forgetRange (a n : Nat) (s : State) : State :=
  { s with mem := s.mem.forget a n s.lat.epoch, lat := { s.lat with epoch := s.lat.epoch + 1 } }

/-! ### Granules, stacks and pool (R20, R403) -/

def granBytes : Nat := 0x40000
def stackBytes : Nat := 0x2000000000
def hbmEnd : Nat := 0x40000000000

/-- Stack of an HBM address, and die of a stack (R20). -/
def stackOf (a : Nat) : Nat := a / stackBytes
def dieOfAddr (a : Nat) : Nat := a / 0x8000000000

/-- Whether a range lies in present HBM as one piece or empty (R21). -/
def hbmRange (f : Fuses) (a n : Nat) : Bool :=
  decide (a + n ≤ hbmEnd) &&
  (n == 0 || ((List.range (stackOf (a + n - 1) - stackOf a + 1)).all fun i => hasStack f (stackOf a + i)))

/-- Stacks present on a die. -/
def dieStacks (f : Fuses) : Nat := if f.variant = 2 then 3 else 4

/-- End of die `d`'s present HBM, and P(d), the lowest address of its share of the pool (R90, R403). -/
def dieHbmEnd (f : Fuses) (d : Nat) : Nat := d * 0x8000000000 + dieStacks f * stackBytes
def poolShare (s : State) : Nat := fld s LAT_POOL_POOL_GIB / 8 * 0x40000000
def holdShare (s : State) : Nat := fld s LAT_POOL_HOLD_GIB / 8 * 0x40000000
def poolBase (s : State) (d : Nat) : Nat := dieHbmEnd s.fuses d - poolShare s
/-- Start of the latch part, above the hold area (R403). -/
def latchBase (s : State) (d : Nat) : Nat := poolBase s d + holdShare s
def latchBytes (s : State) : Nat := poolShare s - holdShare s
/-- Bytes of the copy directory (R404), whole granules of the latch part after it, and the address of pool granule `i`. -/
def dirBytes (s : State) : Nat := latchBytes s / 16384
def poolGrans (s : State) : Nat := (latchBytes s - dirBytes s) / granBytes
def poolGranAddr (s : State) (d i : Nat) : Nat := latchBase s d + dirBytes s + i * granBytes

/-- The save area of a logical core (R90). -/
def saveArea (s : State) (pref : Nat) : Nat := poolBase s (pref / 32) - 0x10000000 + (pref % 32) * 0x800000

/-! ### Two-leaf records (R517 to R519) -/

def Leaf.serial (l : Leaf) : List Byte := l.body

/-- The winning leaf. -/
def recWinner (r : Rec2) : Option Leaf :=
  match r.a, r.b with
  | some a, some b =>
    if a.ok && b.ok then (if a.seq ≥ b.seq then some a else some b) else if a.ok then some a else if b.ok then some b else none
  | some a, none => if a.ok then some a else none
  | none, some b => if b.ok then some b else none
  | none, none => none

/-- Whether leaf A wins. -/
def recAWins (r : Rec2) : Bool :=
  match r.a, recWinner r with
  | some a, some w => a.ok && a.seq == w.seq
  | _, _ => false

/-- A write goes to the leaf that is not winning, with SEQ one above the winner's; the first goes to leaf A. -/
def recPut (r : Rec2) (body : List Byte) : Rec2 :=
  match recWinner r with
  | none => { r with a := some ⟨1, body, true⟩ }
  | some w =>
    let l : Leaf := ⟨w.seq + 1, body, true⟩
    if recAWins r then { r with b := some l } else { r with a := some l }

def recEmpty : Rec2 := ⟨none, none⟩

/-- Contents of record slot `k`; none when it was never written or is lost. -/
def jnlRec (s : State) (k : Nat) : Option (List Byte) := (recWinner (smGet (fun _ => recEmpty) s.jnl.recs k)).map (·.body)

/-- Writes record slot `k` of the journal store (R518), counted in `JNL_COUNT.WRITES`. -/
def jnlPut (k : Nat) (body : List Byte) (s : State) : State :=
  addFld JNL_COUNT_WRITES 1
    { s with jnl := { s.jnl with recs := smPut s.jnl.recs k (recPut (smGet (fun _ => recEmpty) s.jnl.recs k) body) } }

/-! ### Keeper messages (R472, R506) -/

/-- Sends MSI-X vector `v` on port `n`: a port without its link sends nothing. -/
def sendMsi (n v : Nat) (s : State) : State :=
  { s with host := { s.host with msix := if s.host.linkUp.getD n false then s.host.msix ++ [(n, v)] else s.host.msix } }

/-! ### The error ring (R520 to R527) -/

/-- SOURCE (R522). -/
def srcOf (die unit inst : Nat) : Nat := die % 16 + 16 * (unit % 16) + 256 * (inst % 256)
def srcNamed (die unit inst : Nat) (m : Member) : Nat := srcOf die unit inst + 65536 * (m.toNat % 16384) + 2 ^ 30

def genArea : Nat := 4032
def rsvArea : Nat := 64

/-- The ring slot of count `c` of an area (R523). -/
def errSlot (fatal : Bool) (c : Nat) : Nat := if fatal then 4032 + c % rsvArea else c % genArea

def errHead (s : State) (fatal : Bool) : Nat := if fatal then fld s ERR_RSV_HEAD else fld s ERR_GEN_HEAD
/-- Records written in an area: the count of which TAIL is the low 16 bits. -/
def errCount (s : State) (fatal : Bool) : Nat := if fatal then s.err.writtenF else s.err.written
def errTail (s : State) (fatal : Bool) : Nat := if fatal then fld s ERR_RSV_TAIL else fld s ERR_GEN_TAIL

/-- Records not released. -/
def errUsed (s : State) (fatal : Bool) : Nat := (errTail s fatal + 65536 - errHead s fatal) % 65536

/-- The newest of the last 16 unreleased records with the same SOURCE and CODE (R524). -/
def errMatch (s : State) (fatal : Bool) (code : Code) (src : Nat) : Option Nat :=
  let n := min 16 (errUsed s fatal)
  ((List.range n).map fun i => errSlot fatal (errCount s fatal - (i + 1))).find? fun k =>
    match smFind s.err.recs k with
    | some r => r.code == code && r.source == src
    | none => false

/-- The 32 bytes of a record (R521). -/
def ERec.serial (r : ERec) : List Byte :=
  leBytes 4 r.seq ++ leBytes 2 r.code.toNat ++
  leBytes 2 ((if r.fatal then 1 else 0) + (if r.locked then 2 else 0) + (if r.journaled then 4 else 0) +
    (if r.coalesced then 8 else 0)) ++
  leBytes 4 r.source ++ leBytes 2 r.count ++ leBytes 2 r.span ++ leBytes 8 r.time.toNat ++ leBytes 8 r.detail.toNat

/-- Index of the next fatal copy, and copies written (slot 34 of R518). -/
def copyNext (s : State) : Nat × Nat := match jnlRec s 34 with
  | some b => (bodyNat b 0 4, bodyNat b 8 8)
  | none => (0, 0)

/-- Copies a fatal record to the journal store (R526). -/
def fatalCopy (r : ERec) (s : State) : State :=
  let (k, n) := copyNext s
  addFld JNL_COUNT_WRITES 1
    (jnlPut 34 (leBytes 4 ((k + 1) % 32768) ++ leBytes 4 0 ++ leBytes 8 (n + 1))
      { s with jnl := { s.jnl with fatal := smPut s.jnl.fatal k (leNat r.serial) } })

/-- Sends vector 60 or 61 for a class on every port whose mask bit is set (R527). -/
def errSend (fatal : Bool) (cls : Nat) (s : State) : State :=
  let m := if fatal then fld s ERR_CTRL_MASK_F else fld s ERR_CTRL_MASK_NF
  if m.testBit cls then sendMsi 1 (if fatal then 60 else 61) (sendMsi 0 (if fatal then 60 else 61) s) else s

/-- ERR_PEND as the pending classes give it. -/
def errPendReg (s : State) : State :=
  setFld ERR_PEND_PENDING ((s.err.pendNf ++ s.err.pendF).foldl (fun v c => v ||| 2 ^ c) 0) s

/-- Marks a class pending: the first mark in a tick sends at once, later ones at the next tick boundary (R527). -/
def errMark (fatal : Bool) (cls : Nat) (s : State) : State :=
  if fatal then
    if s.err.sentF.contains cls then
      errPendReg { s with err := { s.err with pendF := if s.err.pendF.contains cls then s.err.pendF else s.err.pendF ++ [cls] } }
    else errSend true cls { s with err := { s.err with sentF := s.err.sentF ++ [cls] } }
  else
    if s.err.sentNf.contains cls then
      errPendReg { s with err := { s.err with pendNf := if s.err.pendNf.contains cls then s.err.pendNf else s.err.pendNf ++ [cls] } }
    else errSend false cls { s with err := { s.err with sentNf := s.err.sentNf ++ [cls] } }

/-- Adds to the lost counter of a class (R525). -/
def errLost (cls : Nat) (s : State) : State := addFld ⟨rERR_LOST (cls / 4), 16 * (cls % 4), 16⟩ 1 s

/-- Reports a code to the error ring: coalesced, recorded, or counted lost (R524 to R527). -/
def report (code : Code) (src : Nat) (detail : Word) (s : State) : State :=
  let fatal := code.fatal
  let cls := code.toNat / 256
  match errMatch s fatal code src with
  | some k =>
    match smFind s.err.recs k with
    | none => s
    | some r =>
      let r := { r with count := satAdd 16 r.count 1, span := min (tickNow s - r.firstTick) 65535, detail := detail,
                        coalesced := true }
      let s := { s with err := { s.err with recs := smPut s.err.recs k r } }
      let s := if fatal then
          addFld JNL_COUNT_WRITES 1 { s with jnl := { s.jnl with fatal := smPut s.jnl.fatal r.copy (leNat r.serial) } }
        else s
      errMark fatal cls s
  | none =>
    let r : ERec := { seq := fld s ERR_STAT_SEQ_NEXT, code := code, fatal := fatal, locked := isLocked s, journaled := fatal,
                      coalesced := false, source := src, count := 1, firstTick := tickNow s, span := 0, time := sysTime s,
                      detail := detail, copy := (copyNext s).1 }
    let full := errUsed s fatal ≥ (if fatal then rsvArea else genArea)
    let s := if fatal then fatalCopy r s else s
    if full then
      let s := errLost cls s
      if fatal then addFld ERR_STAT_FATAL_LOST 1 s else s
    else
      let s := { s with err := { s.err with recs := smPut s.err.recs (errSlot fatal (errCount s fatal)) r } }
      let s := { s with err := if fatal then { s.err with writtenF := s.err.writtenF + 1 } else { s.err with written := s.err.written + 1 } }
      let s := if fatal then setFld ERR_RSV_TAIL (fld s ERR_RSV_TAIL + 1) s else setFld ERR_GEN_TAIL (fld s ERR_GEN_TAIL + 1) s
      errMark fatal cls (setFld ERR_STAT_SEQ_NEXT (fld s ERR_STAT_SEQ_NEXT + 1) s)

/-- Report that names a logical core's physical core, unit `u` of R522. -/
def reportCore (code : Code) (u : Nat) (phys : Nat) (detail : Word) (s : State) : State :=
  report code (srcOf (phys / 32) u (phys % 32)) detail s

/-- One nanosecond of the local timebase passes (R37; assumption 1). -/
def idle (s : State) : State := { s with now := s.now + 1 }

/-- Own identity (R385). -/
def ownId (s : State) : Member := BitVec.ofNat 16 (fld s FAB_ID_WARD * 256 + fld s FAB_ID_MODULE)

/-- The partner named by `LAT_PAIR`, when the pairing is in force (R416). -/
def partner (s : State) : Option Member :=
  if fld s LAT_PAIR_STAT_STATE = 1 then
    some (BitVec.ofNat 16 (fld s LAT_PAIR_PARTNER_WARD * 256 + fld s LAT_PAIR_PARTNER_MODULE))
  else none

end Sys2Proof.Machine
end

