-- ==== Sys2Proof/Machine/Operands.lean ====
section
/-! DEFINITION. Descriptors (R109 to R113): fields, well-formedness, positions, extents; element reads and writes through
them; and the address checks of the decoders (R21, R241, R253). -/
namespace Sys2Proof.Machine

/-! ### Fields (R109) -/

def dF (d : Desc) (lo w : Nat) : Nat := bits d.toNat lo w
def dBase (d : Desc) : Nat := dF d 0 37 * 64
def dType (d : Desc) : Nat := dF d 37 4
def dRank (d : Desc) : Nat := dF d 41 3
def dZeroPad (d : Desc) : Bool := dF d 44 1 != 0
def dSparse (d : Desc) : Bool := dF d 45 1 != 0
def dBits (d : Desc) : Nat := typeBits (dType d)

/-- Window length of dimension `i`; dimension 0 in elements (R109, R112). -/
def dLen (d : Desc) (i : Nat) : Nat :=
  match i with
  | 0 => (dF d 46 6 + 1) * 512 / dBits d
  | 1 => dF d 52 10 + 1
  | 2 => dF d 62 10 + 1
  | 3 => dF d 72 8 + 1
  | _ => dF d 80 8 + 1

/-- First valid position and end of the valid range; dimensions 3 and 4 are wholly valid (R109, R110). -/
def dLo (d : Desc) (i : Nat) : Nat :=
  match i with
  | 0 => dF d 88 4
  | 1 => dF d 103 4
  | 2 => dF d 118 4
  | _ => 0
def dEnd (d : Desc) (i : Nat) : Nat :=
  match i with
  | 0 => dF d 92 11
  | 1 => dF d 107 11
  | 2 => dF d 122 11
  | _ => dLen d i

/-- Stride of dimension `i` in elements (R109). -/
def dStride (d : Desc) (i : Nat) : Nat :=
  match i with
  | 0 => 1
  | 1 => dF d 133 30
  | 2 => dF d 163 30
  | 3 => dF d 193 30
  | _ => dF d 223 30

def dDims (d : Desc) : List Nat := List.range (dRank d)

/-- Window lengths of the dimensions below RANK. -/
def dLens (d : Desc) : List Nat := (dDims d).map (dLen d)

/-! ### Well-formedness (R112, R113, R133) -/

/-- The rules of R112 that one descriptor meets by itself, TYPE apart. -/
def descShapeOk (d : Desc) : Bool :=
  decide (1 ≤ dRank d ∧ dRank d ≤ 5) && dF d 253 3 == 0 &&
  decide ((dF d 46 6 + 1) * 512 % dBits d = 0) && decide (dLen d 0 ≤ 1024) &&
  (List.range (min (dRank d) 3)).all fun i => decide (dLo d i ≤ dEnd d i ∧ dEnd d i ≤ dLen d i)

/-- The rules of R112 for the successor of an MX descriptor. -/
def succOk (d s : Desc) : Bool :=
  dType s == 8 && !dSparse s && dRank s == dRank d && dF s 46 6 == 0 &&
  ((List.range (dRank d)).all fun i => i == 0 || dLen s i == dLen d i) &&
  ((List.range (min (dRank d) 3)).all fun i => i == 0 || (dLo s i == dLo d i && dEnd s i == dEnd d i)) &&
  dLo s 0 == dLo d 0 / 32 && dEnd s 0 == ceilDiv (dEnd d 0) 32

/-- The first breach of R112 in a descriptor register's operand, with its successor, in the order of R133 step 3. -/
def descErr (r : BitVec 5) (d s : Desc) : Option Code :=
  if typeReserved (dType d) then some cTYPE_RESERVED
  else if !descShapeOk d then some cDESC_FORMAT
  else if typeIsMx (dType d) then
    if r = 31 then some cDESC_FORMAT
    else if typeReserved (dType s) then some cTYPE_RESERVED
    else if !descShapeOk s then some cDESC_FORMAT
    else if !succOk d s then some cDESC_FORMAT
    else none
  else none

/-! ### Positions (R110) -/

/-- Element index of a window position. -/
def posIndex (d : Desc) (w : List Nat) : Nat :=
  (enumFrom 0 w).foldl (fun v p => if p.1 < dRank d then v + p.2 * dStride d p.1 else v) 0

/-- Whether a position is valid (R110). -/
def posValid (d : Desc) (w : List Nat) : Bool :=
  (enumFrom 0 w).all fun p => decide (dLo d p.1 ≤ p.2 ∧ p.2 < dEnd d p.1)

/-- The `n`-th position of a window with lengths `lens`, dimension 0 innermost. -/
def posAt : List Nat → Nat → List Nat
  | [], _ => []
  | l :: ls, n => n % l :: posAt ls (n / l)

def windowSize (lens : List Nat) : Nat := lens.foldl (· * ·) 1

/-- Every window position, dimension 0 innermost. -/
def positions (lens : List Nat) : List (List Nat) := (List.range (windowSize lens)).map (posAt lens)

/-- The valid range is empty in some dimension (R256). -/
def validEmpty (d : Desc) : Bool := (dDims d).any fun i => decide (dEnd d i ≤ dLo d i)

/-- Extent: first byte and length of the bytes that valid positions occupy (R252); length 0 when empty. -/
def extent (d : Desc) : Nat × Nat :=
  if validEmpty d then (dBase d, 0)
  else
    let lo := posIndex d ((dDims d).map (dLo d))
    let hi := posIndex d ((dDims d).map fun i => dEnd d i - 1)
    let a := dBase d + lo * dBits d / 8
    let b := dBase d + (hi * dBits d + dBits d - 1) / 8
    (a, b + 1 - a)

/-- Two byte ranges meet. -/
def rangesMeet (a b : Nat × Nat) : Bool := decide (0 < a.2 ∧ 0 < b.2 ∧ a.1 < b.1 + b.2 ∧ b.1 < a.1 + a.2)

/-- `[a, a + n)` lies inside `[b, b + m)`. -/
def rangeIn (a n b m : Nat) : Bool := n == 0 || decide (b ≤ a ∧ a + n ≤ b + m)

/-! ### Elements -/

/-- Bits `w` wide at bit address `8 * base + i` of memory (R7, R110). -/
def readBits (m : Mem) (base i w : Nat) : Nat :=
  let a := base + i / 8
  bits (m.readN a ((i % 8 + w + 7) / 8)) (i % 8) w

/-- The bytes that hold bits `w` wide at bit address `8 * base + i`, with those bits replaced. -/
def bitBytes (m : Mem) (base i w v : Nat) : Nat × List Byte :=
  let a := base + i / 8
  let n := (i % 8 + w + 7) / 8
  (a, leBytes n (putBits (m.readN a n) (i % 8) w v))

/-- Bit pattern of the element at a position, valid or not. -/
def elemAt (m : Mem) (d : Desc) (w : List Nat) : Nat := readBits m (dBase d) (posIndex d w * dBits d) (dBits d)

/-- Writes the element at a position. -/
def putElem (d : Desc) (w : List Nat) (v : Nat) (m : Mem) : Mem :=
  let (a, bs) := bitBytes m (dBase d) (posIndex d w * dBits d) (dBits d) v
  m.writeBytes a bs

/-- The nearest valid position (R255). -/
def clampPos (d : Desc) (w : List Nat) : List Nat :=
  (enumFrom 0 w).map fun p => if p.1 < 3 then min (max p.2 (dLo d p.1)) (dEnd d p.1 - 1) else p.2

/-- The pattern read at a position: clamped or zero outside the valid window (R255, R256). -/
def elemPad (m : Mem) (zp : Bool) (d : Desc) (w : List Nat) : Nat :=
  if validEmpty d then 0
  else if posValid d w then elemAt m d w
  else if zp then 0 else elemAt m d (clampPos d w)

/-- The pattern the operand loader reads: zero outside the valid window (R148). -/
def elemZero (m : Mem) (d : Desc) (w : List Nat) : Nat := if posValid d w then elemAt m d w else 0

/-! ### Address checks (R21, R23, R241, R253) -/

/-- A range lies wholly in the logical core's own scratch window (R241). -/
def inOwnScratch (l : LCore) (a n : Nat) : Bool := rangeIn a n (winBase l) scratchBytes

/-- What an address names for a load or store of a core. -/
inductive Where where
  | hbm | own | otherScratch | unmapped
  deriving DecidableEq, Repr

/-- Decodes a range for a core's `LD`, `ST`, `DLD` or `DST` (R19 to R21, R241). -/
def whereIs (s : State) (l : LCore) (a n : Nat) : Where :=
  if hbmRange s.fuses a n && decide (a + n ≤ hbmEnd) then .hbm
  else if inOwnScratch l a n then .own
  else if decide (0x40000000000 ≤ a ∧ a + n ≤ 0x40080000000 ∧ ¬ rangeIn a n (winBase l) 0x800000) then .otherScratch
  else .unmapped

/-! ### Image regions (R70 to R72, R128, R130) -/

def regionOf (i : Image) (a n : Nat) : Option Region := i.regions.find? fun r => rangeIn a n r.base r.len

/-- A range lies in a region of kind `k`. -/
def inKind (s : State) (k a n : Nat) : Bool :=
  match s.img with
  | some i => i.regions.any fun r => r.kind == k && rangeIn a n r.base r.len
  | none => false

/-- A granule is named in the open step's write set (R128). -/
def inWriteSet (s : State) (g : Nat) : Bool :=
  s.step.writeSet.any fun e => decide (e.1 ≤ g * granBytes ∧ g * granBytes < e.1 + e.2 * granBytes)

/-- Granules that a byte range meets. -/
def granulesOf (a n : Nat) : List Nat :=
  if n = 0 then [] else (List.range ((a + n - 1) / granBytes - a / granBytes + 1)).map fun i => a / granBytes + i

/-- The sequencer stands at a STEP.COMMIT whose share is not ready. -/
def commitWaits (l : LCore) : Bool := match l.block with
  | some (.commit _) => true
  | _ => false

/-- Whether the module's image allows a store to a PERSISTENT granule now, for the logical core that stores (R70, R128, R130, R78).
While a STEP.COMMIT still waits for what was issued before it, the stores that start were issued inside the step region. None is a
store from another module: inside a step it keeps to the write set, and while the image has opened none it comes from a core before its
first STEP.OPEN. -/
def persistentOk (s : State) (l : Option LCore) (a n : Nat) : Bool :=
  match l with
  | some l =>
    if imgLevel s = 1 then true
    else if l.loop then false
    else if l.closing && !commitWaits l then false
    else if l.inStep then (granulesOf a n).all (inWriteSet s)
    else !l.opened
  | none => imgLevel s == 1 ||
      (if fld s RDU_STEP_STAT_STATE = 0 then !s.step.any else (granulesOf a n).all (inWriteSet s))

/-- Whether a store to a range is allowed now (R71). -/
def storeAllowed (s : State) (l : Option LCore) (a n : Nat) : Bool :=
  n == 0 ||
  match s.img with
  | none => false
  | some i =>
    match regionOf i a n with
    | none => false
    | some r => if r.kind = 1 then true else if r.kind = 0 then persistentOk s l a n else false

end Sys2Proof.Machine
end

