-- ==== Sys2Proof/Machine/LatOps.lean ====
section
/-! DEFINITION. The latch unit (R397 to R411): the map entry of a granule, first-touch copies, held writes, the copy directory,
protection at a step's open, release at its commit, and rollback. Every write into HBM passes through `hbmPut`. -/
namespace Sys2Proof.Machine

/-- Latch map entry of granule `g`, numbered by address / 256 KiB. -/
def getGran (s : State) (g : Nat) : Gran := smGet (fun _ => granReset) s.lat.map g
def setGran (g : Nat) (e : Gran) (s : State) : State :=
  { s with lat := { s.lat with map := smSet (fun _ => granReset) s.lat.map g e } }
def dieOfGran (g : Nat) : Nat := dieOfAddr (g * granBytes)

/-- Key of pool granule `i` of die `d` in the copy directory. -/
def poolKey (d i : Nat) : Nat := d * 0x1000000 + i
def poolAddrOf (s : State) (k : Nat) : Nat := poolGranAddr s (k / 0x1000000) (k % 0x1000000)

/-- Pool granules of a die in use: those with a directory entry, and those of running copies. -/
def poolUsed (s : State) (d : Nat) : List Nat :=
  (s.lat.dir.filter fun e => e.1 / 0x1000000 == d).map (·.1 % 0x1000000) ++
  (s.lat.jobs.filter fun j => j.running && dieOfGran j.gran == d).map (·.pool % 0x1000000)

/-- The lowest free pool granule of a die. -/
def poolFree (s : State) (d : Nat) : Option Nat :=
  let used := poolUsed s d
  ((List.range (used.length + 1)).find? fun i => !used.contains i).filter fun i => decide (i < poolGrans s)

/-- The 16 bytes of a directory entry (R404); zero where there is none. -/
def dirSerial (e : Option DirEnt) : List Byte :=
  match e with
  | none => List.replicate 16 0
  | some e =>
    leBytes 8 (e.source * granBytes / 64 + (if e.step then 2 ^ 37 else 0) + (if e.cut then 2 ^ 38 else 0) + e.attempt % 256 * 2 ^ 39) ++
    leBytes 8 (e.stepNo % 2 ^ 48)

/-- Writes or clears a directory entry, in the map and in the copy directory in HBM (R404). -/
def dirPut (k : Nat) (e : Option DirEnt) (s : State) : State :=
  let dir := match e with
    | some e => smPut s.lat.dir k e
    | none => smErase s.lat.dir k
  { s with lat := { s.lat with dir := dir },
           mem := s.mem.writeBytes (latchBase s (k / 0x1000000) + 16 * (k % 0x1000000)) (dirSerial e) }

def jobsOn (s : State) (d : Nat) : List CopyJob := s.lat.jobs.filter fun j => dieOfGran j.gran == d

/-- CHANNELS_BUSY and CUT_HELD of a die's latch unit (R429). -/
def latStat (d : Nat) (s : State) : State :=
  let busy := ((jobsOn s d).filter (·.running)).length
  let held := (s.lat.dir.filter fun e => e.1 / 0x1000000 == d && e.2.cut).length
  setFld (LAT_DIE_STAT_CUT_HELD d) held (setFld (LAT_DIE_STAT_CHANNELS_BUSY d) busy s)

/-- Starts waiting copies of a die in arrival order while a channel and a pool granule are free (R400). -/
def jobsStart (d : Nat) : Nat → State → State
  | 0, s => s
  | fuel + 1, s =>
    if ((jobsOn s d).filter (·.running)).length ≥ 8 then s
    else
      match s.lat.jobs.find? (fun j => dieOfGran j.gran == d && !j.running), poolFree s d with
      | some j, some i =>
        let jobs := s.lat.jobs.map fun k => if k = j then { k with running := true, pool := poolKey d i } else k
        jobsStart d fuel { s with lat := { s.lat with jobs := jobs } }
      | _, _ => s

/-! ### Uncorrectable errors (R275) -/

/-- A range of HBM meets a half-line with an uncorrectable error. -/
def hbmBad (s : State) (a n : Nat) : Bool := n != 0 && s.lat.badHalf.any fun h => decide (a / 32 ≤ h ∧ h ≤ (a + n - 1) / 32)

/-- A write of a range clears the error of every half-line that it covers whole. -/
def clearBad (a n : Nat) (s : State) : State :=
  { s with lat := { s.lat with badHalf := s.lat.badHalf.filter fun h => !decide (a ≤ 32 * h ∧ 32 * h + 32 ≤ a + n) } }

/-- The half-line at an address is found to hold an error. -/
def markBad (a : Nat) (s : State) : State :=
  { s with lat := { s.lat with badHalf :=
      (s.lat.badHalf.filter fun h => decide (h < a / 32)) ++ a / 32 :: s.lat.badHalf.filter fun h => decide (a / 32 < h) } }

/-! ### Writes -/

/-- The bytes of a write with the bits it leaves as they are. -/
def keepBytes (m : Mem) (a : Nat) (data : List Byte) (keep : List (Nat × Byte)) : List Byte :=
  (enumFrom 0 data).map fun x => match keep.find? fun k => k.1 == x.1 with
    | some k => (x.2 &&& ~~~k.2) ||| (m.read (a + x.1) &&& k.2)
    | none => x.2

/-- What a write leaves in memory where it lands. A NaN sum is written as 0x7FC00000 (R261). -/
def HWrite.bytes (w : HWrite) (m : Mem) : List Byte :=
  if w.add then leBytes 4 (fadd (BitVec.ofNat 32 (m.readN w.a 4)) (BitVec.ofNat 32 (leNat w.bs))).toNat else keepBytes m w.a w.bs w.keep

/-- Makes a write in memory. -/
def HWrite.put (w : HWrite) (m : Mem) : Mem := m.writeBytes w.a (w.bytes m)

/-- A plain write of bytes. -/
def plainWrite (path : WritePath) (a : Nat) (bs : List Byte) : HWrite := ⟨a, bs, [], false, path⟩

/-- The part of a write that lies in granule `g`. -/
def HWrite.within (w : HWrite) (g : Nat) : HWrite :=
  let lo := max w.a (g * granBytes)
  let hi := min (w.a + w.bs.length) ((g + 1) * granBytes)
  { w with a := lo, bs := (w.bs.drop (lo - w.a)).take (hi - lo),
           keep := (w.keep.filter fun k => decide (lo ≤ w.a + k.1 ∧ w.a + k.1 < hi)).map fun k => (w.a + k.1 - lo, k.2) }

/-- A write split at granule borders. -/
def HWrite.split (w : HWrite) : List HWrite := (granulesOf w.a w.bs.length).map w.within

/-- Lands bytes in HBM: the granule becomes dirty (R410), and half-lines written whole lose their errors (R275). -/
def hbmLand (a : Nat) (bs : List Byte) (s : State) : State :=
  let s := (granulesOf a bs.length).foldl (fun s g => setGran g { getGran s g with dirty := true } s) s
  clearBad a bs.length { s with mem := s.mem.writeBytes a bs }

/-- Lands a write in HBM. -/
def granLand (w : HWrite) (s : State) : State := hbmLand w.a (w.bytes s.mem) s

/-- Whether a write to the granule must be preceded by a copy (R399, R411). -/
def needsCopy (e : Gran) : Bool := e.st == .protect || ((e.t1 || e.t2) && e.cutCopy.isNone)

/-- A first touch: the granule enters COPYING with some writes held, and its copy waits for a channel (R399, R400). -/
def granCopy (g : Nat) (held : List HWrite) (s : State) : State :=
  let e := getGran s g
  let j : CopyJob := ⟨g, 0, e.st == .protect, (e.t1 || e.t2) && e.cutCopy.isNone, false, s.now⟩
  let s := setGran g { e with st := .copying, held := held } s
  let s := { s with lat := { s.lat with jobs := s.lat.jobs ++ [j] } }
  latStat (dieOfGran g) (jobsStart (dieOfGran g) 8 s)

/-- Whether a write to granule `g` is held: a copy of it is under way, or must come first (R399, R411). -/
def mustHold (s : State) (g : Nat) : Bool := (getGran s g).st == .copying || needsCopy (getGran s g)

/-- A write to one granule: held while a copy runs or waits, behind the writes that reached the latch before it, else landed
(R399). -/
def granPut (g : Nat) (w : HWrite) (s : State) : State :=
  let e := getGran s g
  if e.st = .copying then setGran g { e with held := e.held ++ [w] } s
  else if needsCopy e then granCopy g [w] s
  else granLand w s

/-- A write into HBM, split at granule borders. -/
def hbmWrite (w : HWrite) (s : State) : State := (granulesOf w.a w.bs.length).foldl (fun s g => granPut g (w.within g) s) s

/-- A write of bytes into HBM by a unit of the die. -/
def hbmPut (a : Nat) (bs : List Byte) (s : State) : State := hbmWrite (plainWrite .unit a bs) s

/-- Whether the latch holds a write to some granule that the range meets. -/
def latHolds (s : State) (a n : Nat) : Bool := (granulesOf a n).any fun g => (getGran s g).st == .copying

/-- The granules of HBM that some ranges meet. -/
def rangeGrans (rs : List (Nat × Nat)) : List Nat := rs.flatMap fun r => if r.1 < hbmEnd then granulesOf r.1 r.2 else []

/-- A read, add and write must wait until every granule it writes can be written at once (R262, R399): none where it can go
on; `some none` where it waits for copies already under way; else the state with the first touches it makes. -/
def latAwait (rs : List (Nat × Nat)) (s : State) : Option (Option State) :=
  let gs := (rangeGrans rs).eraseDups.filter fun g => (getGran s g).st == .copying || needsCopy (getGran s g)
  let new := gs.filter fun g => !((getGran s g).st == .copying)
  if gs = [] then none
  else if new = [] then some none
  else some (some (new.foldl (fun s g => granCopy g [] s) s))

/-- A write of bytes to HBM or to a scratch window. -/
def memPut (a : Nat) (bs : List Byte) (s : State) : State :=
  if a < hbmEnd then hbmPut a bs s else { s with mem := s.mem.writeBytes a bs }

/-- Releases a cut copy that no longer holds a cut (R411), unless it is also the step copy. -/
def cutRelease (g : Nat) (s : State) : State :=
  let e := getGran s g
  match e.cutCopy with
  | none => s
  | some k =>
    if e.t1 || e.t2 then s
    else
      let s := if e.stepCopy = some k then dirPut k ((smFind s.lat.dir k).map fun x => { x with cut := false }) s else dirPut k none s
      latStat (dieOfGran g) (jobsStart (dieOfGran g) 8 (setGran g { e with cutCopy := none } s))

/-- Clears a cut bit of a granule: tier 1 as it is sent, tier 2 as it is written (R411). -/
def cutClear (tier1 : Bool) (g : Nat) (s : State) : State :=
  let e := getGran s g
  cutRelease g (setGran g (if tier1 then { e with t1 := false } else { e with t2 := false }) s)

/-- The end of a copy (R399): the content goes to the pool, its directory entry is written, the granule leaves COPYING and
the held writes land in their order. -/
def copyDone (j : CopyJob) (s : State) : State :=
  let d := dieOfGran j.gran
  let ent : DirEnt := ⟨j.gran, j.step, j.cut, s.step.attempt, s.step.next⟩
  let s := clearBad (poolAddrOf s j.pool) granBytes
    { s with mem := s.mem.copy (j.gran * granBytes) (poolAddrOf s j.pool) granBytes, lat := { s.lat with jobs := s.lat.jobs.filter (· != j) } }
  let s := dirPut j.pool (some ent) s
  let e := getGran s j.gran
  let sc := if j.step then some j.pool else e.stepCopy
  let st : GState := if sc.isSome then .copied else .free
  let held := e.held
  let s := setGran j.gran { e with st := st, stepCopy := sc, cutCopy := if j.cut then some j.pool else e.cutCopy, held := [] } s
  let s := held.foldl (fun s w => granLand w s) s
  let s := addFld (LAT_DIE_COUNT_COPIES d) 1 s
  let wait := s.now - j.start
  let s := if fld s (LAT_DIE_COUNT_STALL_MAX_NS d) < wait then setFld (LAT_DIE_COUNT_STALL_MAX_NS d) (min wait 65535) s else s
  latStat d (jobsStart d 8 (cutRelease j.gran s))

/-- Granules of a write set, each once. -/
def writeSetGranules (ws : List (Nat × Nat)) : List Nat :=
  (ws.flatMap fun e => (List.range e.2).map fun i => e.1 / granBytes + i).eraseDups

/-- Pool granules that die `d` reserves for a write set (R405): two for a granule with a cut bit and no cut copy. -/
def reserveOf (s : State) (ws : List (Nat × Nat)) (d : Nat) : Nat :=
  ((writeSetGranules ws).filter fun g => dieOfGran g == d).foldl (fun n g =>
    let e := getGran s g
    n + if (e.t1 || e.t2) && e.cutCopy.isNone then 2 else 1) 0

/-- A die's reservation for a write set exceeds its whole latch part (R405). -/
def reserveOver (s : State) (ws : List (Nat × Nat)) : Bool := (List.range 8).any fun d => decide (poolGrans s < reserveOf s ws d)

/-- The reservation fits beside the copies that the die holds for other granules or for cuts (R406). -/
def reserveFits (s : State) (ws : List (Nat × Nat)) : Bool :=
  let gs := writeSetGranules ws
  let step := gs.filterMap fun g => (getGran s g).stepCopy
  (List.range 8).all fun d =>
    let mine := (step.filter fun k => k / 0x1000000 == d).length
    decide (reserveOf s ws d + (poolUsed s d).length ≤ poolGrans s + mine)

/-- When a write set is taken up, its granules pass from FREE to PROTECTED (R398), and the reservations are made (R405). A cut
copy in progress serves as the step copy too. `old` is the write set protected before. -/
def latProtect (old new : List (Nat × Nat)) (s : State) : State :=
  let s := (List.range 8).foldl (fun s d => setFld (LAT_DIE_STAT_RESERVED d) (reserveOf s (old ++ new) d) s) s
  let had := writeSetGranules old
  ((writeSetGranules new).filter fun g => !had.contains g).foldl (fun s g =>
    let e := getGran s g
    if e.st = .copying then
      { s with lat := { s.lat with jobs := s.lat.jobs.map fun j => if j.gran = g then { j with step := true } else j } }
    else setGran g { e with st := .protect } s) s

/-- A copy that no cut needs any more is given up: its granule returns to FREE and the writes it held land (R398). -/
def copyDrop (g : Nat) (s : State) : State :=
  let held := (getGran s g).held
  let s := { s with lat := { s.lat with jobs := s.lat.jobs.filter fun j => j.gran != g } }
  held.foldl (fun s w => granLand w s) (setGran g { getGran s g with st := .free, stepCopy := none, held := [] } s)

/-- At the commit the write set returns to FREE; a step copy that is no cut copy is released (R398, R411). A copy still under way goes on
only as a cut copy. -/
def latCommit (s : State) : State :=
  let s := s.lat.map.foldl (fun s p =>
    let g := p.1
    let e := getGran s g
    let s := match e.stepCopy with
      | none => s
      | some k =>
        if e.cutCopy = some k then dirPut k ((smFind s.lat.dir k).map fun x => { x with step := false }) s else dirPut k none s
    if e.st = .copying then
      if s.lat.jobs.any fun j => j.gran == g && j.cut then
        let s := { s with lat := { s.lat with jobs := s.lat.jobs.map fun j => if j.gran = g then { j with step := false } else j } }
        setGran g { e with stepCopy := none } s
      else copyDrop g s
    else setGran g { e with st := .free, stepCopy := none } s) s
  (List.range 8).foldl (fun s d => latStat d (jobsStart d 8 (setFld (LAT_DIE_STAT_RESERVED d) 0 s))) s

/-- Cancels the writes that copies hold and the copies themselves (R402, R407): the granules return to what they were. -/
def latCancel (s : State) : State :=
  let s := s.lat.jobs.foldl (fun s j =>
    let e := getGran s j.gran
    setGran j.gran { e with st := if j.step then .protect else if e.stepCopy.isSome then .copied else .free, held := [] } s) s
  let s := { s with lat := { s.lat with jobs := [] } }
  (List.range 8).foldl (fun s d => latStat d s) s

/-- Writes every granule with a step copy of the attempt back from it (R407); states and copies stay. -/
def latWriteBack (s : State) : State :=
  let s := s.lat.map.foldl (fun s p =>
    match p.2.stepCopy with
    | some k => clearBad (p.1 * granBytes) granBytes { s with mem := s.mem.copy (poolAddrOf s k) (p.1 * granBytes) granBytes }
    | none => s) s
  (List.range 8).foldl (fun s d =>
    if s.lat.map.any (fun p => dieOfGran p.1 == d && p.2.stepCopy.isSome) then addFld (LAT_DIE_COUNT_RESTORES d) 1 s else s) s

/-- An empty latch: entries FREE with clear cut bits and no copies (R408, R427); `keepDirty` keeps nothing else. -/
def latClear (s : State) : State :=
  let s := s.lat.dir.foldl (fun s e => dirPut e.1 none s) s
  let s := { s with lat := { s.lat with map := [], jobs := [], dir := [] } }
  (List.range 8).foldl (fun s d => latStat d (setFld (LAT_DIE_STAT_RESERVED d) 0 s)) s

end Sys2Proof.Machine
end

