-- ==== Sys2Proof/Machine/SendOps.lean ====
section
/-! DEFINITION. Sending through the fabric: the mesh of dies (R15, R16), routing and flow binding (R386, R387), packets in the
header of R373, and the control messages of the step tree (R53, R322, R613). -/
namespace Sys2Proof.Machine

/-- The dies that traffic from die `a` to die `b` passes after `a`: along the column to the row of `b`, then along that row
(R16). -/
def meshPath (a b : Nat) : List Nat :=
  (if a / 2 ≤ b / 2 then (List.range (b / 2 - a / 2)).map fun i => a + 2 * (i + 1)
   else (List.range (a / 2 - b / 2)).map fun i => a - 2 * (i + 1)) ++
  (if a % 2 = b % 2 then [] else [b])

/-- Knuckle hops between two compute dies. -/
def meshHops (a b : Nat) : Nat := (meshPath a b).length

/-- The hub knuckle that carries the hub's traffic for compute die `d`, by the instance numbers of R522: 10 is H–C3, 11 is H–C4; the
other one while that is down (R17). -/
def hubKnuckle (s : State) (d : Nat) : Nat :=
  let own := if d < 4 then 10 else 11
  if s.peer.hubDown.contains own then 21 - own else own

/-- The dies that traffic from the hub to die `d` passes: the far end of the hub knuckle, then the mesh (R17). -/
def hubPath (s : State) (d : Nat) : List Nat :=
  let far := if hubKnuckle s d = 10 then 3 else 4
  far :: meshPath far d

/-- Knuckle hops from a die of the module, 8 for the hub, to a compute die. -/
def hopsFrom (s : State) (a d : Nat) : Nat := if a = 8 then (hubPath s d).length else meshHops a d

/-- Knuckle between compute dies `d` and `e`, by the instance numbers of R522. -/
def knuckleInst (d e : Nat) : Nat :=
  let lo := min d e
  if d / 2 = e / 2 then lo / 2 else if lo % 2 = 0 then 4 + lo / 2 else 7 + lo / 2

/-- Lower-numbered of the two dies that knuckle `i` joins, by the instance numbers of R522; none for a hub knuckle. -/
def knuckleDie (i : Nat) : Option Nat :=
  if i < 4 then some (2 * i) else if i < 7 then some (2 * (i - 4)) else if i < 10 then some (2 * (i - 7) + 1) else none

/-- The knuckle over which traffic of compute die `a` reaches die `b` (R16). -/
def lastKnuckle (a b : Nat) : Nat := knuckleInst ((a :: meshPath a b).dropLast.getLastD b) b

def getPort (s : State) (n : Nat) : Port := smGet (fun _ => portReset) s.fab.ports n
def setPort (n : Nat) (p : Port) (s : State) : State :=
  { s with fab := { s.fab with ports := smSet (fun _ => portReset) s.fab.ports n p } }
def modPort (n : Nat) (f : Port → Port) (s : State) : State := setPort n (f (getPort s n)) s

/-- Fields of port `n`'s sub-block, which lies in die `n / 2`. -/
def pState (n : Nat) : Fld := FAB_PORT_STAT_STATE (n / 2) (n % 2)
def pVersion (n : Nat) : Fld := FAB_PORT_STAT_VERSION (n / 2) (n % 2)
def pCaps (n : Nat) : Fld := FAB_PORT_PEER_CAPS (n / 2) (n % 2)

def portUp (s : State) (n : Nat) : Bool := hasPort s.fuses n && fld s (pState n) == 6

/-- Bytes that wait at a port to be sent (R386). -/
def queuedBytes (p : Port) : Nat := p.txq.foldl (fun n k => n + packetSize k) ((p.cur.map fun x => x.2.length).getD 0)

def memberWard (m : Member) : Nat := bits m.toNat 8 6
def memberModule (m : Member) : Nat := bits m.toNat 0 8

/-- Whether a port's link carries a packet's class, and a compensated reduction packet (R380, R386). -/
def portSuits (s : State) (p : Packet) (n : Nat) : Bool :=
  (p.cls != 2 || (fld s (pVersion n) ≥ 2 && (fld s (pCaps n)).testBit 0)) &&
  (match p.body with
   | .reduction r => !r.comp || (fld s (pVersion n) ≥ 2 && (fld s (pCaps n)).testBit 1)
   | _ => true)

def portCarries (s : State) (p : Packet) (n : Nat) : Bool := portUp s n && portSuits s p n

/-- The egress set of R386 for a packet not delivered on this module. -/
def routeSet (s : State) (p : Packet) : List Nat :=
  let set := if memberWard p.dest ≠ fld s FAB_ID_WARD then fld s (FAB_WARD_TABLE_PORTS (memberWard p.dest))
             else fld s (FAB_LOCAL_TABLE_PORTS (memberModule p.dest))
  (List.range 16).filter fun n => set.testBit n && portCarries s p n

/-- Delivered here, and neither forwarded nor to be resolved (R386). -/
def forHere (s : State) (p : Packet) : Bool :=
  memberWard p.dest == fld s FAB_ID_WARD && p.destDie != 14 && memberModule p.dest == fld s FAB_ID_MODULE

/-- The flow key of a packet: its destination module, or its destination ward when unresolved (R373). -/
def flowDest (p : Packet) : Nat := if p.destDie = 14 then 0x10000 + memberWard p.dest else p.dest.toNat

/-- The member of a set with least cost, lowest port on a tie (R386). -/
def cheapest (s : State) (die : Nat) : List Nat → Option Nat
  | [] => none
  | n :: ns =>
    let cost := fun n => queuedBytes (getPort s n) + fld s FAB_ROUTE_BIAS_KIB * 1024 * hopsFrom s die (n / 2)
    match cheapest s die ns with
    | none => some n
    | some m => if cost m < cost n then some m else some n

/-- The 6 bytes hashed for transit and control traffic (R386). -/
def hashKey (p : Packet) : List Byte :=
  leBytes 2 p.src.toNat ++ leBytes 1 p.srcDie.toNat ++ leBytes 2 p.dest.toNat ++ leBytes 1 p.cls.toNat

def hashedPort (p : Packet) (set : List Nat) : Option Nat :=
  if set = [] then none else set[crc32 (hashKey p) % set.length]?

def enqueue (n : Nat) (p : Packet) (s : State) : State := modPort n (fun q => { q with txq := q.txq ++ [p] }) s

/-- Sends a packet from a die of this module (R386); none where no route exists (R389). A flow's port that cannot carry the packet is no
route for it, since another port could break the flow's order (DESIGN CHOICE, assumption 74). -/
def sendFrom (die : Nat) (p : Packet) (s : State) : Option State :=
  let set := routeSet s p
  let cls := p.cls.toNat
  if set = [] then none
  else if cls < 3 then
    match s.fab.flows.find? fun f => f.cls == cls && f.die == die && f.dest == flowDest p with
    | some f =>
      if portSuits s p f.port then
        let s := { s with fab := { s.fab with flows := s.fab.flows.map fun g => if g = f then { g with unacked := g.unacked + 1 } else g } }
        some (enqueue f.port p s)
      else none
    | none =>
      match cheapest s die set with
      | none => none
      | some n =>
        let s := { s with fab := { s.fab with flows := s.fab.flows ++ [⟨cls, die, flowDest p, n, 1⟩] } }
        some (enqueue n p s)
  else (hashedPort p set).map fun n => enqueue n p s

/-- A packet of this module with the header of R373. -/
def mkPacket (s : State) (cls : BitVec 2) (dest : Member) (destDie srcDie : Nat) (tag : Nat) (b : Body) : Packet :=
  { cls := cls, vl := false, hops := 0, dest := dest, destDie := BitVec.ofNat 4 destDie, srcDie := BitVec.ofNat 4 srcDie,
    src := ownId s, attempt := BitVec.ofNat 8 s.step.attempt, step := BitVec.ofNat 16 (fld s RDU_STEP_STAT_STEP),
    tag := BitVec.ofNat 16 tag, body := b }

/-- Delivers a packet to this module, to be handled by its row. -/
def deliver (p : Packet) (s : State) : State := { s with fab := { s.fab with inbound := s.fab.inbound ++ [p] } }

/-- Sends a packet that no instruction sends. R389 gives an instruction without a route a fault and counts packets in transit; the manual
gives nothing for this one, which is not sent (DESIGN CHOICE, assumption 75). -/
def sendOrDrop (die : Nat) (p : Packet) (s : State) : State := (sendFrom die p s).getD s

/-- Sends a control message to a module, itself included. -/
def sendCtl (m : Member) (c : Ctl) (s : State) : State :=
  let p := mkPacket s 3 m 15 8 0 (.control c)
  if m = ownId s then deliver p s else sendOrDrop 8 p s

/-- Tag of a control message that every module takes and passes on itself (assumption 13). -/
def floodTag : Nat := 0xFFFF

/-- Sends a control message on every active port (R322). -/
def floodCtl (c : Ctl) (s : State) : State :=
  (List.range 16).foldl (fun s n => if portUp s n then enqueue n (mkPacket s 3 0 15 8 floodTag (.control c)) s else s) s

/-- A packet for whichever module it reaches: a frame packet or a flooded message. -/
def forAnyone (p : Packet) : Bool := match p.body with
  | .frame _ => true
  | .control _ => p.tag.toNat == floodTag
  | _ => false

/-- Sends a packet of the control class to a module, as `sendCtl` does. -/
def sendPlain (m : Member) (destDie srcDie : Nat) (b : Body) (s : State) : State :=
  sendOrDrop srcDie (mkPacket s 3 m destDie srcDie 0 b) s

/-- `n` packets of a flow are acknowledged: at zero the flow is unbound (R387). -/
def flowAck (cls die dest n : Nat) (s : State) : State :=
  let fs := s.fab.flows.map fun f => if f.cls = cls ∧ f.die = die ∧ f.dest = dest then { f with unacked := f.unacked - n } else f
  { s with fab := { s.fab with flows := fs.filter fun f => f.unacked != 0 } }

/-! ### Receiving (R307, R358, R375, R376) -/

/-- Sends the delivery acknowledgement owed for a flow, if any. -/
def ackSend (k : AckKey) (s : State) : State :=
  match s.fab.ackOwed.find? fun x => x.1 == k with
  | none => s
  | some (_, n) =>
    let s := { s with fab := { s.fab with ackOwed := s.fab.ackOwed.filter fun x => x.1 != k,
                                          ackLast := (k, s.now) :: s.fab.ackLast.filter fun x => x.1 != k } }
    sendPlain k.src k.srcDie k.die (.deliveryAck k.cls n k.ward) s

/-- A dispatch or close of another ward belongs to the flow of the ward that it was sent to (R373); one of this ward was resolved at its
source (R344). -/
def wardFlow (s : State) (p : Packet) : Bool := match p.body with
  | .keyway k => (k.kind == 0 || k.kind == 2) && memberWard p.src != fld s FAB_ID_WARD
  | _ => false

/-- A packet that no answer acknowledges has reached its die: its acknowledgement is sent at once, or with others of its flow at the end
of the gap (R375). -/
def ackOwe (d : Nat) (p : Packet) (s : State) : State :=
  if p.src = ownId s then s
  else
    let k : AckKey := ⟨d, p.src, p.cls.toNat, p.srcDie.toNat, wardFlow s p⟩
    let owed := match s.fab.ackOwed.find? fun x => x.1 == k with
      | some x => x.2
      | none => 0
    let s := { s with fab := { s.fab with ackOwed := (k, owed + 1) :: s.fab.ackOwed.filter fun x => x.1 != k } }
    match s.fab.ackLast.find? fun x => x.1 == k with
    | some x => if x.2 + fld s FAB_ROUTE_ACK_GAP_NS ≤ s.now then ackSend k s else s
    | none => ackSend k s

/-- How a packet's STEP and ATTEMPT stand to the module's: `.lt` older, `.gt` not yet opened (R307, R358). -/
def pktAge (s : State) (step : BitVec 16) (attempt : BitVec 8) : Ordering :=
  let own := fld s RDU_STEP_STAT_STEP % 65536
  let back := (own + 65536 - step.toNat) % 65536
  if back = 0 then (if attempt.toNat < s.step.abortedBelow then .lt else compare attempt.toNat s.step.attempt)
  else if back < 32768 then .lt else .gt

/-- A packet leaves the receive buffer of a port: its credits are owed to the other end (R307, R356, R358, R370). -/
def rxLeave (r : RxPkt) (q : Port) : Port :=
  { q with rx := q.rx.erase r, returns := listMod q.returns r.lane (· + r.units) }

/-- A packet that waited at its die leaves the receive buffer in which it came, if any. -/
def creditBack (p : Packet) (s : State) : State :=
  match s.fab.ports.findSome? fun x => (x.2.rx.find? fun r => r.routed && r.p == p).map fun r => (x.1, r) with
  | some (n, r) => modPort n (rxLeave r) s
  | none => s

/-- A packet goes off the packets delivered here; its place in a receive buffer stays as it is. -/
def setAside (p : Packet) (s : State) : State :=
  match firstIdx (fun k => k == p) s.fab.inbound with
  | some i => { s with fab := { s.fab with inbound := dropAt s.fab.inbound i } }
  | none => s

/-- Takes a packet with a body off the packets delivered here. -/
def takeInbound (f : Packet → Bool) (s : State) : Option Packet × State :=
  match firstIdx f s.fab.inbound with
  | none => (none, s)
  | some i =>
    let t := { s with fab := { s.fab with inbound := dropAt s.fab.inbound i } }
    match s.fab.inbound[i]? with
    | some p => (some p, creditBack p t)
    | none => (none, t)

/-- The packet carries a control message. -/
def ctlIs (c : Ctl) (p : Packet) : Bool := p.body == .control c

/-- A control message is taken off the packets delivered here, if it came in one. -/
def takeCtl (c : Ctl) (s : State) : State := (takeInbound (ctlIs c) s).2

/-- Packets of one flow to one die (R373, R374). -/
def sameFlow (a b : Packet) : Bool := a.cls == b.cls && a.src == b.src && a.srcDie == b.srcDie && a.destDie == b.destDie

/-- No earlier packet of its flow still waits at the die of the packet that `f` finds; with no such packet there is no order to
keep (R374). -/
def inOrder (f : Packet → Bool) (s : State) : Bool :=
  match firstIdx f s.fab.inbound with
  | none => true
  | some i => match s.fab.inbound[i]? with
    | some p => !(s.fab.inbound.take i).any (sameFlow p)
    | none => true

/-- What a row does with the packet that `f` finds, when it is that packet's turn; until then nothing (R374). -/
def ordered (f : Packet → Bool) (s t : State) : State := if inOrder f s then t else s

/-! ### The step tree (R613, R441) -/

def treeOf (s : State) : List Member := match s.img with
  | some i => i.stepTree
  | none => []

def rootOf (s : State) : Option Member := (treeOf s).head?

/-- Position of the own module in the step tree. -/
def ownRank (s : State) : Option Nat := firstIdx (· == ownId s) (treeOf s)

def isRoot (s : State) : Bool := fldOn s RDU_STEP_CTRL_ROOT

/-- The deputy is the root's tier-1 partner (R441): the root names its own partner, and the module that holds the root's tier-1 copy
is the deputy itself. The manual gives other members no register or table that names it: what they know is a free value (assumption
14). -/
def deputyOf (s : State) : Option Member :=
  if isRoot s then partner s
  else match rootOf s with
    | none => none
    | some r => if s.lat.hold.held == some r then some (ownId s) else Config.deputyKnown r

/-- Sends a message to the root and the deputy (R441). -/
def sendRoot (c : Ctl) (s : State) : State :=
  let s := match rootOf s with
    | some m => sendCtl m c s
    | none => s
  match deputyOf s with
  | some m => sendCtl m c s
  | none => s

/-- Forwards a designation to the children of the own rank (R613). -/
def sendChildren (c : Ctl) (s : State) : State :=
  match ownRank s, s.img with
  | some r, some i =>
    ((enumFrom 0 i.stepTree).filter fun p => decide (p.1 > 0) && i.fanout != 0 && (p.1 - 1) / i.fanout == r).foldl
      (fun s p => sendCtl p.2 c s) s
  | _, _ => s

/-- The run has more than one module (R136). -/
def multiModule (s : State) : Bool := decide ((treeOf s).length > 1)

end Sys2Proof.Machine
end

