-- ==== Sys2Proof/Machine/Snap.lean ====
section
/-! DEFINITION. Snapshots and seal leaves as bytes, and their places on an NVMe namespace (R413, R414, R421, R422). -/
namespace Sys2Proof.Machine

/-! ### Extents -/

/-- The PERSISTENT regions of an image as extents: base and granules, base ascending. -/
def persistExtents (i : Image) : List (Nat × Nat) :=
  ((i.regions.filter fun r => r.kind == 0).map fun r => (r.base, r.len / granBytes)).mergeSort fun a b => a.1 ≤ b.1

def extentGrans (es : List (Nat × Nat)) : List Nat := es.flatMap fun e => (List.range e.2).map (e.1 / granBytes + ·)

/-- The part of memory inside some extents. -/
def memIn (es : List (Nat × Nat)) (m : Mem) : Mem :=
  { cells := m.cells.filter fun c => es.any fun e => decide (e.1 ≤ c.1 ∧ c.1 < e.1 + e.2 * granBytes),
    fills := m.fills.flatMap fun f => es.filterMap fun e =>
      let l := max f.lo e.1
      let h := min (f.lo + f.len) (e.1 + e.2 * granBytes)
      if l < h then some { lo := l, len := h - l, ep := f.ep, org := f.org + (l - f.lo) : Fill } else none }

/-! ### Sections and header (R413, R414) -/

/-- The section of stream positions (R414). -/
def streamSection (x : Snap) : List Byte :=
  (List.range x.lcores).flatMap fun c => (List.range 256).flatMap fun n => leBytes 8 (smGet (fun _ => 0) (x.streams.getD c []) n).toNat

def journalSection (x : Snap) : List Byte :=
  x.journal.flatMap fun j => leBytes 2 j.1 ++ leBytes 6 0 ++ leBytes 8 j.2.1.toNat ++ leBytes 8 j.2.2.toNat ++ leBytes 8 0

def extentSection (x : Snap) : List Byte := x.extents.flatMap fun e => leBytes 8 e.1 ++ leBytes 4 e.2 ++ leBytes 4 0

/-- SHA-256 of each 64 MiB of the data section. -/
def chunkHashes (x : Snap) : List Byte :=
  let gs := x.extents.flatMap fun e => (List.range e.2).map fun k => e.1 + k * granBytes
  (List.range (ceilDiv gs.length 256)).flatMap fun c =>
    sha256 (((gs.drop (256 * c)).take 256).flatMap fun g => x.data.bytes g granBytes)

/-- The header of R413 before HEADER_HASH. -/
def snapHeader (x : Snap) : List Byte :=
  let gs := x.extents.foldl (fun n e => n + e.2) 0
  leBytes 4 0x50414E53 ++ leBytes 2 x.version ++ leBytes 2 4096 ++ leBytes 4 x.id.toNat ++ leBytes 2 x.module.toNat ++ leBytes 2 0 ++
  leBytes 8 x.frame ++ leBytes 8 x.next ++ x.hash ++ leBytes 8 x.cursor.toNat ++ leBytes 2 x.lcores ++ leBytes 2 x.journal.length ++
  leBytes 4 x.extents.length ++ leBytes 8 gs ++ leBytes 8 (ceilDiv gs 256) ++
  sha256 (streamSection x ++ journalSection x ++ extentSection x ++ chunkHashes x) ++ List.replicate 3936 0

/-- HEADER_HASH of a snapshot. -/
def headerHash (x : Snap) : List Byte := sha256 (snapHeader x)

/-- Zeros to the next boundary of 4,096 bytes. -/
def padBlock (b : List Byte) : List Byte := b ++ List.replicate (ceilDiv b.length 4096 * 4096 - b.length) 0

/-- Header of a snapshot, 4,096 bytes. -/
def snapHead (x : Snap) : List Byte := snapHeader x ++ headerHash x

/-- The three sections before the data, each from a boundary of 4,096 bytes; the chunk hash list follows the extent table. -/
def snapSections (x : Snap) : List Byte :=
  padBlock (streamSection x) ++ padBlock (journalSection x) ++ padBlock (extentSection x ++ chunkHashes x)

/-- Bytes before the granule data, and LBAs of the whole snapshot. -/
def snapFront (x : Snap) : Nat := 4096 + (snapSections x).length
def snapLbas (x : Snap) : Nat := (snapFront x + (extentGrans x.extents).length * granBytes) / 4096

/-! ### Seal leaves (R422) -/

/-- A leaf before its CHECK. -/
def sealLeafBody (l : SealLeaf) : List Byte :=
  leBytes 4 l.magic ++ leBytes 2 l.version ++ leBytes 1 l.slot ++ leBytes 1 0 ++ leBytes 8 l.seq ++ leBytes 4 l.id.toNat ++
  leBytes 2 l.module.toNat ++ leBytes 2 0 ++ leBytes 8 l.imageLbas ++ l.headerHash ++ List.replicate 4000 0

/-- A leaf as it lies on its LBA. -/
def sealLeafBytes (l : SealLeaf) : List Byte := sealLeafBody l ++ l.check

/-- MAGIC, VERSION, SLOT and CHECK are correct. -/
def SealLeaf.valid (l : SealLeaf) : Bool :=
  l.magic == 0x4C414553 && l.version == 1 && decide (l.slot ≤ 1) && l.check == sha256 (sealLeafBody l)

/-- The leaf that names a snapshot in a slot. -/
def sealLeaf (slot seq : Nat) (x : Snap) : SealLeaf :=
  let l : SealLeaf := ⟨0x4C414553, 1, slot, seq, x.id, x.module, snapLbas x, headerHash x, []⟩
  { l with check := sha256 (sealLeafBody l) }

/-! ### The namespace (R421) -/

/-- Key of the namespace that `ARC_CTRL` names. -/
def nsKey (s : State) : Nat := fld s ARC_CTRL_CTRL_SEL * 2 ^ 32 + fld s ARC_CTRL_NSID
def getNs (s : State) : NsData := smGet (fun _ => nsEmpty) s.arc.spaces (nsKey s)
def setNs (n : NsData) (s : State) : State :=
  { s with arc := { s.arc with spaces := smSet (fun _ => nsEmpty) s.arc.spaces (nsKey s) n } }

/-- First LBA of a slot; leaf A lies on LBA 0 and leaf B on LBA 1. -/
def slotLba (s : State) (k : Nat) : Nat := 256 + k * fld s ARC_SLOT_SLOT_LBAS

/-- The namespace as enumeration has found it, when it can be used: on a controller that was found, with LBAs of 4,096 bytes, and
with room for two slots. -/
def nsAccepted (s : State) : Bool :=
  decide (fld s ARC_CTRL_CTRL_SEL < s.arc.ctrls) && s.arc.found.any fun n => n.ctrl == fld s ARC_CTRL_CTRL_SEL && n.nsid == fld s ARC_CTRL_NSID &&
    n.lbaBytes == 4096 && decide (slotLba s 2 ≤ n.lbas)

/-- The winning leaf of a namespace, and whether it is leaf A. -/
def sealWinner (n : NsData) : Option (SealLeaf × Bool) :=
  match n.leafA.filter SealLeaf.valid, n.leafB.filter SealLeaf.valid with
  | some x, some y => if y.seq ≤ x.seq then some (x, true) else some (y, false)
  | some x, none => some (x, true)
  | none, some y => some (y, false)
  | none, none => none

end Sys2Proof.Machine
end

