-- ==== Sys2Proof/Machine/TktOps.lean ====
section
/-! DEFINITION. Tickets, completion entries and the journal (R463 to R480): what every unit that completes a ticket calls. -/
namespace Sys2Proof.Machine

/-! ### Ticket fields (R463) -/

def tF (t : Ticket) (off n : Nat) : Nat := bits t.toNat (8 * off) (8 * n)
def tKind (t : Ticket) : Nat := tF t 0 1
def tQueue (t : Ticket) : Nat := tF t 2 2
def tSeq (t : Ticket) : Word := BitVec.ofNat 64 (tF t 8 8)
def tDeadline (t : Ticket) : Word := BitVec.ofNat 64 (tF t 0x10 8)
def tArgAddr (t : Ticket) : Nat := tF t 0x18 8
def tArgBytes (t : Ticket) : Nat := tF t 0x20 4
def tResBytes (t : Ticket) : Nat := tF t 0x24 4
def tResAddr (t : Ticket) : Nat := tF t 0x28 8
def tSnapId (t : Ticket) : Nat := tF t 0x30 4
def tTier (t : Ticket) : Nat := tF t 0x34 1
def tFlags (t : Ticket) : Nat := tF t 0x35 1
def tConsumed (t : Ticket) : Nat := tF t 0x38 8
def tBytes (t : Ticket) : List Byte := leBytes 128 t.toNat

/-! ### MSI-X of the queues (R472) -/

/-- Raises vector `v` on port `n`: at once, or when its gap ends. -/
def raiseVec (n v : Nat) (s : State) : State :=
  let k := 64 * n + v
  let due := match smFind s.host.vecLast k with
    | none => true
    | some t => decide (t + fld s TKT_CTRL_MSI_GAP_NS ≤ s.now)
  if due then sendMsi n v { s with host := { s.host with vecLast := smPut s.host.vecLast k s.now } }
  else if s.host.vecOwed.contains (n, v) then s
  else { s with host := { s.host with vecOwed := s.host.vecOwed ++ [(n, v)] } }

/-! ### Completion rings (R470, R471) -/

def ringReset : CRing := ⟨[], 0, 0, 0⟩
def getRing (s : State) (n q : Nat) : CRing := smGet (fun _ => ringReset) s.host.rings (32 * n + q)
def setRing (n q : Nat) (r : CRing) (s : State) : State :=
  { s with host := { s.host with rings := smSet (fun _ => ringReset) s.host.rings (32 * n + q) r } }

def ringSize (s : State) (n q : Nat) : Nat := 2 ^ fld s (TKT_CRING_CFG_SIZE_LOG2 (32 * n + q))
def ringOn (s : State) (n q : Nat) : Bool := fldOn s (TKT_CRING_CFG_ENABLE (32 * n + q))
def ringHasRoom (s : State) (n q : Nat) : Bool :=
  let r := getRing s n q
  decide (r.count - r.head < ringSize s n q) && s.host.linkUp.getD n false

/-- A completion entry before PHASE is set. -/
def mkEnt (s : State) (q : Nat) (seq : Word) (kind : Nat) (status : Code) (notice : Nat) (detail : Word)
    (running mirrored : Bool) : CEnt :=
  ⟨seq, q, kind, false, running, mirrored, status, notice, detail, sysTime s⟩

/-- Writes an entry into the ring of one port (R470); the ring has room. -/
def ringWrite (n q : Nat) (e : CEnt) (s : State) : State :=
  let r := getRing s n q
  let size := ringSize s n q
  let e := { e with phase := r.count / size % 2 == 0 }
  let s := setRing n q { r with ents := r.ents ++ [e], count := r.count + 1 } s
  let s := setFld (TKT_CRING_CFG_TAIL (32 * n + q)) ((r.count + 1) % size) s
  raiseVec n (if n = 0 then fld s (TKT_Q_CFG_VEC_H0 q) else fld s (TKT_Q_CFG_VEC_H1 q)) s

/-- Posts the NOTICE RING_OVERFLOW that a ring owes, when it has room (R471). -/
def ringOverflow (n q : Nat) (s : State) : State :=
  let r := getRing s n q
  if r.lostOwed ≠ 0 ∧ ringHasRoom s n q then
    ringWrite n q (mkEnt s q 0 6 cOK 5 (BitVec.ofNat 64 r.lostOwed) false false) (setRing n q { r with lostOwed := 0 } s)
  else s

/-- Posts an entry on one port's ring, or counts it lost. -/
def postOn (n q : Nat) (e : CEnt) (s : State) : State :=
  if !ringOn s n q then s
  else
    let s := ringOverflow n q s
    if ringHasRoom s n q then ringWrite n q e s
    else
      let r := getRing s n q
      addFld (TKT_CRING_CFG_LOST (32 * n + q)) 1 (setRing n q { r with lostOwed := r.lostOwed + 1 } s)

/-- Posts an entry to both hosts. -/
def post (q : Nat) (e : CEnt) (s : State) : State := postOn 1 q e (postOn 0 q e s)

def postNotice (q notice count : Nat) (s : State) : State := post q (mkEnt s q 0 6 cOK notice (BitVec.ofNat 64 count) false false) s

/-! ### Journal (R477 to R479, R518) -/

def getTQ (s : State) (q : Nat) : TQueue := s.host.queues.getD q ⟨[], 0, none, 0⟩
def modTQ (q : Nat) (f : TQueue → TQueue) (s : State) : State :=
  { s with host := { s.host with queues := listMod s.host.queues q f } }

/-- Entries of queue `q`, with their keys. -/
def jEntries (s : State) (q : Nat) : List (Nat × JEntry) := s.jnl.own.filter fun e => e.1 / 2048 == q

def jFind (s : State) (q : Nat) (seq : Word) : Option (Nat × JEntry) := (jEntries s q).find? fun e => tSeq e.2.t == seq

/-- Whether the queue is mirrored now (R476). -/
def mirrored (s : State) (q : Nat) : Bool :=
  fld s (TKT_Q_CFG_KIND q) == 1 && fldOn s JNL_CTRL_MIRROR && fld s LAT_PAIR_STAT_STATE == 1

/-- Writes a journal entry (R478), and its mirror where the queue is mirrored (R476). -/
def jWrite (key : Nat) (e : JEntry) (s : State) : State :=
  let s := addFld JNL_COUNT_WRITES 1 { s with jnl := { s.jnl with own := smPut s.jnl.own key e } }
  match partner s with
  | some m => if mirrored s (key / 2048) then sendCtl m (.mirror (key / 2048) (tSeq e.t)) s else s
  | none => s

/-- The queue's tickets not yet complete, in SEQ order. -/
def openTickets (s : State) (q : Nat) : List JEntry :=
  ((jEntries s q).map (·.2)).filter (fun e => e.state == 1) |>.mergeSort fun a b => (tSeq a.t).toNat ≤ (tSeq b.t).toNat

/-- Highest SEQ below which every ticket of the queue is complete. -/
def completeSeq (s : State) (q : Nat) : Word :=
  match openTickets s q with
  | [] => getReg s (rTKT_Q_ACCEPTED q)
  | e :: _ =>
    let below := ((jEntries s q).map fun x => tSeq x.2.t).filter fun w => decide (w.toNat < (tSeq e.t).toNat)
    BitVec.ofNat 64 (max (below.foldl (fun v w => max v w.toNat) 0) (min (getReg s (rTKT_Q_COMPLETE q)).toNat ((tSeq e.t).toNat - 1)))

/-- Index of the oldest retained entry. -/
def oldestEntry (s : State) (q : Nat) : Nat :=
  match ((jEntries s q).map fun e => ((tSeq e.2.t).toNat, e.1 % 2048)).mergeSort fun a b => a.1 ≤ b.1 with
  | [] => (getTQ s q).jNext
  | x :: _ => x.2

/-- Writes the queue's control block from its registers (R478, R518). -/
def ctlBlock (q : Nat) (s : State) : State :=
  jnlPut q (leBytes 1 (fld s (TKT_Q_STAT_OWNER q)) ++ leBytes 1 (fld s (TKT_Q_CFG_KIND q)) ++
    leBytes 1 (fld s (TKT_Q_STAT_STATE q)) ++ leBytes 5 0 ++ leBytes 8 (getReg s (rTKT_Q_ACCEPTED q)).toNat ++
    leBytes 8 (getReg s (rTKT_Q_COMPLETE q)).toNat ++ leBytes 2 (oldestEntry s q) ++ leBytes 1 (fld s (TKT_Q_STAT_HEAD q))) s

/-- The snapshot that the winning seal leaf of this module names, once its seal has ended. -/
def sealedSnap (s : State) : Option Snap := match sealWinner (getNs s) with
  | some (l, _) => if l.module = ownId s ∧ !s.arc.sealSnap.any (fun x => x.id == l.id) then smFind (getNs s).slots l.slot else none
  | none => none

/-- Snapshots complete at every tier in force, by their journal positions: tier 1 when paired, tier 2 when `ARC_CTRL.ENABLE` is 1, and
the cut itself when neither is. -/
def snapsComplete (s : State) : List (List (Nat × Word × Word)) :=
  let t1 := fld s LAT_PAIR_STAT_STATE == 1
  match t1, fldOn s ARC_CTRL_ENABLE with
  | true, e => (s.lat.t1Copy.filter fun x => !e || (sealedSnap s).any fun y => y.id == x.id).toList.map (·.journal)
  | false, true => (sealedSnap s).toList.map (·.journal)
  | false, false => s.lat.taken.toList.map (·.journal)

/-- A snapshot complete at every tier in force records the ticket as complete (R479). -/
def snapRecords (s : State) (q : Nat) (seq : Word) : Bool :=
  (snapsComplete s).any fun js => js.any fun j => j.1 == q && decide (seq.toNat ≤ j.2.2.toNat)

/-- Releases the journal entries that are no longer retained (R479), and sets RETAINED and FULL. -/
def jRetain (q : Nat) (s : State) : State :=
  let keep := s.jnl.own.filter fun e =>
    e.1 / 2048 != q || e.2.state == 1 || (fldOn s JNL_CTRL_RETAIN_SNAP && !snapRecords s q (tSeq e.2.t))
  let s := { s with jnl := { s.jnl with own := keep } }
  let n := (jEntries s q).length
  let s := setFld (TKT_Q_STAT_RETAINED q) (min n 4095) s
  if n ≥ 2048 ∧ fld s (TKT_Q_STAT_STATE q) = 1 then setFld (TKT_Q_STAT_STATE q) 4 s
  else if n < 2048 ∧ fld s (TKT_Q_STAT_STATE q) = 4 then setFld (TKT_Q_STAT_STATE q) 1 s
  else s

/-- Completes an accepted ticket (R469): the journal entry first, then one COMPLETE entry to both hosts. -/
def completeTicket (q : Nat) (seq : Word) (status : Code) (detail : Word) (running : Bool) (s : State) : State :=
  match jFind s q seq with
  | none => s
  | some (k, e) =>
    if e.state = 2 then s
    else
      let s := jWrite k { e with state := 2, status := status, completeTime := sysTime s, detail := detail } s
      let s := setReg s (rTKT_Q_COMPLETE q) (completeSeq s q)
      let s := ctlBlock q s
      let s := if status = cLATE then addFld TKT_LOOP_STAT_LATE 1 s else s
      let s := post q (mkEnt s q seq 2 status 0 detail running e.mirrored) s
      jRetain q s

/-- DETAIL of a completion with an image fault (R470). -/
def faultDetail (c queue pc : Nat) : Word := BitVec.ofNat 64 (c % 256 + 256 * (queue % 16) + 65536 * (pc % 2 ^ 32))

/-! ### Query slots (R488 to R491) -/

def slotAddr (s : State) (k : Nat) : Nat := fld s TKT_LOOP_CFG_SLOT_BASE * 64 + (k - 1) * 256

/-- LOOP logical cores in ascending order. -/
def loopCores (s : State) : List Nat := ((enumFrom 0 s.lcores).filter fun p => p.2.loop).map (·.1)

/-- The logical core that serves slot `k` (R488). -/
def slotServer (s : State) (k : Nat) : Option Nat :=
  let l := loopCores s
  if l = [] then none else l[(k - 1) % l.length]?

/-- BUSY as the slots give it. -/
def slotBusy (s : State) : State := setFld TKT_LOOP_STAT_BUSY s.host.slots.length s

/-- Returns a slot to FREE. -/
def slotFree (k : Nat) (s : State) : State :=
  slotBusy { s with host := { s.host with slots := smErase s.host.slots k }, mem := s.mem.write (slotAddr s k + 0x0A) 0 }

/-- Ends the query of a slot with a status: COMPLETE, or RELEASE when it had completed with `LATE` (R490, R491). -/
def slotEnd (k : Nat) (status : Code) (detail : Word) (s : State) : State :=
  match smFind s.host.slots k with
  | none => s
  | some sl =>
    if sl.running then slotFree k (post sl.q (mkEnt s sl.q sl.seq 5 cOK 0 0 false false) s)
    else slotFree k (completeTicket sl.q sl.seq status detail false s)

end Sys2Proof.Machine
end

