-- ==== Sys2Proof/Machine/Loop.lean ====
section
/-! DEFINITION. Signals to catches (R118, R120, R121), and the dispatch of queries to slots (R488 to R492), which needs them. -/
namespace Sys2Proof.Machine

/-! ### Catches (R118, R120, R121) -/

def catchOf (l : LCore) (i : Nat) : Catch := smGet (fun _ => catchReset) l.catches i
def setCatch (i : Nat) (k : Catch) (l : LCore) : LCore := { l with catches := smSet (fun _ => catchReset) l.catches i k }

/-- At or above its target. -/
def catchReached (k : Catch) : Bool := decide (k.target.toNat ≤ k.counter.toNat)

/-- Adds to a catch of logical core `c`; a sum above 2^32 − 1 stays there and is recorded. -/
def catchAdd (c i : Nat) (amount : BitVec 32) (s : State) : State :=
  match getL s c with
  | none => s
  | some l =>
    let k := catchOf l i
    let n := k.counter.toNat + amount.toNat
    let s := setL c (setCatch i { k with counter := BitVec.ofNat 32 (min n (2 ^ 32 - 1)) } l) s
    if n ≥ 2 ^ 32 then reportCore cCATCH_OVERFLOW 0 l.phys (BitVec.ofNat 64 (c * 65536 + i)) s else s

/-! ### Dispatch (R488, R489, R492) -/

/-- A deadline has expired (R47, R52). -/
def tktLate (s : State) (t : Ticket) : Bool := isLocked s && decide ((tDeadline t).toNat < (sysTime s).toNat)

/-- The waiting queries that can be dispatched, in the order of R489. -/
def queriesDue (s : State) : List (Nat × Word × Ticket) :=
  let ts := s.host.queries.filterMap fun x => (jFind s x.1 x.2).map fun e => (x.1, x.2, e.2.t)
  (ts.filter fun x => !tktLate s x.2.2).mergeSort fun a b =>
    let k := fun (x : Nat × Word × Ticket) => ((tDeadline x.2.2).toNat * 32 + x.1) * 2 ^ 64 + x.2.1.toNat
    k a ≤ k b

/-- The lowest FREE slot. -/
def freeSlot (s : State) : Option Nat :=
  ((List.range (fld s TKT_LOOP_CFG_SLOTS)).map (· + 1)).find? fun k => (smFind s.host.slots k).isNone

/-- The 256 bytes of a slot entry at dispatch, STATE last in time. -/
def slotBytes (q : Nat) (seq : Word) (t : Ticket) : List Byte :=
  leBytes 8 seq.toNat ++ leBytes 2 q ++ leBytes 1 1 ++ List.replicate 117 0 ++ tBytes t

/-- QUERY_DISPATCH: the query goes to the slot, and catch 127 of the serving logical core is signalled. -/
def queryDispatch (k : Nat) (x : Nat × Word × Ticket) (s : State) : State :=
  let s := hbmPut (slotAddr s k) (slotBytes x.1 x.2.1 x.2.2) s
  let s := { s with host := { s.host with slots := smPut s.host.slots k ⟨x.1, x.2.1, false, false⟩,
                                          queries := s.host.queries.filter (· != (x.1, x.2.1)) } }
  let s := match jFind s x.1 x.2.1 with
    | some (j, e) => jWrite j { e with dispatched := true } s
    | none => s
  let s := addFld TKT_LOOP_STAT_DISPATCHED 1 (slotBusy s)
  match slotServer s k with
  | some c => catchAdd c 127 1 s
  | none => s

/-- The slot of a fenced core whose query is dispatched again now: the lowest whose logical core is in service on its new placement
(R492). -/
def againSlot (s : State) : Option (Nat × Nat × Word × Ticket) :=
  s.host.slots.findSome? fun x => match jFind s x.2.q x.2.seq, (slotServer s x.1).bind (getL s) with
    | some e, some l => if x.2.again && !tktLate s e.2.t && !(getP s l.phys).fenced && !(getP s l.phys).hwStopped
        then some (x.1, x.2.q, x.2.seq, e.2.t) else none
    | _, _ => none

/-- Queries go to their slots of old, and to FREE slots, while a window is open (R489, R492). -/
def dispatchAll : Nat → State → State
  | 0, s => s
  | fuel + 1, s =>
    if !isLocked s || s.host.winOpen == [] || loopCores s == [] then s
    else match againSlot s, queriesDue s, freeSlot s with
      | some (k, x), _, _ => dispatchAll fuel (queryDispatch k x s)
      | none, x :: _, some k => dispatchAll fuel (queryDispatch k x s)
      | _, _, _ => s

/-- Every query that can be dispatched now is (R489). -/
def dispatchNow (s : State) : State := dispatchAll (s.host.queries.length + s.host.slots.length + 1) s

/-- Ends the query of a slot, and dispatches to it (R489, R490). -/
def slotOver (k : Nat) (status : Code) (detail : Word) (s : State) : State := dispatchNow (slotEnd k status detail s)

end Sys2Proof.Machine
end

