-- ==== Sys2Proof/Machine/StopOps.lean ====
section
/-! DEFINITION. Stopping an image (R135, R136, R442, R475), and the faults that complete a loop query in its place (R172, R270,
R490). -/
namespace Sys2Proof.Machine

/-- `RDU_STEP_STAT.STATE`: 0 idle, 1 open, 2 voted, 3 restoring, 4 awaiting repeat (R329). -/
def stepState (s : State) : Nat := fld s RDU_STEP_STAT_STATE

/-- A step is open on the module. -/
def stepIsOpen (s : State) : Bool := stepState s != 0

/-- No step is open from now on: the state is idle and STEP is that of the last commit. -/
def stepIdle (s : State) : State :=
  setFld RDU_STEP_STAT_STEP (s.step.next - 1) (setFld RDU_STEP_STAT_STATE 0 s)

/-- The message of R322 for the open step and attempt. -/
def abortMsg (s : State) (cause : Nat) (code : Code) (named : Member) (bucket : BitVec 32) (request : Bool) : AbortMsg :=
  ⟨BitVec.ofNat 64 s.step.next, BitVec.ofNat 8 s.step.attempt, BitVec.ofNat 8 cause, code, ownId s, named, bucket, request⟩

def noMember : Member := 0xFFFF

/-- Restores an open step's granules from their step copies, releases the copies and closes the step without a commit (R135).
Writes that the latch still holds are cancelled. -/
def stepDrop (s : State) : State :=
  if stepIsOpen s then
    let s := latCommit (latWriteBack (latCancel s))
    stepIdle s
  else s

/-- Completes a ticket and the one it stands for (R473). -/
def completeLoad (i : Image) (status : Code) (detail : Word) (s : State) : State :=
  let s := completeTicket i.q i.seq status detail false s
  match i.twin with
  | some (q, seq) => completeTicket q seq status detail false s
  | none => s

/-- Scale records of the DRAINs that have started, which complete when the image stops (R135, R187). -/
def recordsLand (s : State) : State :=
  (s.lcores.flatMap fun l => queue l qM).foldl (fun s e => match e.pl, e.recOut with
    | .ins c, some b => if e.started then hbmPut c.xa.toNat b s else s
    | _, _ => s) s

/-- Writes that started instructions of the X and G queues have left to make, which they make when the image stops (R135, R401). -/
def transfersLand (s : State) : State :=
  (s.lcores.flatMap fun l => (queue l qX ++ queue l qG).flatMap (·.flight.left)).foldl (fun s w => hbmWrite w s) s

/-- Stops the image: started instructions complete, its step is dropped, its cores stop, and its slots are free; its tickets are as they
were (R135, R448). -/
def imageOff (s : State) : State :=
  let s := stepDrop (transfersLand (recordsLand s))
  let st := { stepReset with next := s.step.next, unitOf := s.step.unitOf, seenAborts := s.step.seenAborts }
  { s with img := none, lcores := [], step := st, fab := { s.fab with txns := [] }, lat := { s.lat with restoring := false } }

/-- Ends the image: it stops, its LOAD completes with a status, every POST it has not consumed and every query it was serving
complete with `NO_IMAGE` (R475; assumption 15), and a STOP that waited completes. -/
def imageEnd (status : Code) (detail : Word) (s : State) : State :=
  match s.img with
  | none => s
  | some i =>
    let s := completeLoad i status detail (imageOff s)
    let s := i.posts.foldl (fun s p => completeTicket p.q p.seq cNO_IMAGE 0 false s) s
    let s := s.host.slots.foldl (fun s p => slotEnd p.1 cNO_IMAGE 0 s) s
    match i.stopReq with
    | some (q, seq) => completeTicket q seq cOK 0 false s
    | none => s

/-- Unit of R522 that a queue's faults name: the arrays for M, the Tumblers for T, the stream engine for X, else the core. -/
def queueUnit (q : Nat) : Nat := if q = qM then 1 else if q = qT then 2 else if q = qX then 4 else 0

/-- Floods a STEP_ABORT, or passes one on, once for its attempt; one with cause PROGRAM once more (R322, R324). -/
def abortFlood (m : AbortMsg) (s : State) : State :=
  let k := (m.step.toNat, m.attempt.toNat, m.cause == 3)
  if s.step.seenAborts.contains k then s
  else floodCtl (.abort { m with request := false }) { s with step := { s.step with seenAborts := k :: s.step.seenAborts } }

/-- A program fault is flooded where the image spans modules (R136). -/
def programFlood (code : Code) (s : State) : State :=
  if multiModule s then abortFlood (abortMsg s 3 code noMember 0 false) s else s

/-- DETAIL of the error record of a fault: that of the ticket, with what goes with it in bits 63 to 48 (R354; DESIGN CHOICE, assumption
77). -/
def recordDetail (c queue pc aux : Nat) : Word := faultDetail c queue pc ||| BitVec.ofNat 64 (aux % 65536 * 2 ^ 48)

/-- A program fault of a logical core (R135, R136): reported, flooded where the image spans modules, and the image stops. A
module that has voted sends an abort request, and stops the logical core now and the image at the commit instead (R323, R442). -/
def programFaultAux (c queue pc : Nat) (code : Code) (aux : Nat) (s : State) : State :=
  let s := match getL s c with
    | some l => reportCore code (queueUnit queue) l.phys (recordDetail c queue pc aux) s
    | none => s
  if stepState s = 2 then
    let s := modL c (fun l => { l with stopped := true }) s
    let s := sendRoot (.abort (abortMsg s 3 code noMember 0 true)) s
    match s.img with
    | some i => match i.faultPend with
      | some _ => s
      | none => { s with img := some { i with faultPend := some (code, faultDetail c queue pc) } }
    | none => s
  else
    let s := programFlood code s
    let s := if stepIsOpen s then addFld RDU_STEP_COUNT_ABORTS 1 (setFld RDU_STEP_STAT_LAST_CAUSE 3 s) else s
    imageEnd code (faultDetail c queue pc) s

def programFault (c queue pc : Nat) (code : Code) (s : State) : State := programFaultAux c queue pc code 0 s

/-- Ends the query in slot `k` with a fault code (R490). -/
def slotFault (k c queue pc : Nat) (code : Code) (aux : Nat) (s : State) : State :=
  let s := match getL s c with
    | some l => reportCore code (queueUnit queue) l.phys (recordDetail c queue pc aux) s
    | none => s
  slotOver k code (faultDetail c queue pc) s

/-- The lowest dispatched slot that logical core `c` serves. -/
def servedSlot (s : State) (c : Nat) : Option Nat :=
  (s.host.slots.find? fun p => !p.2.again && slotServer s p.1 == some c).map (·.1)

/-- A stream, vector or Keyway fault of a logical core (R270, R490): the query that a LOOP core serves completes with the
code; any other core's fault stops the image. -/
def unitFaultAux (c queue pc : Nat) (code : Code) (aux : Nat) (s : State) : State :=
  match getL s c with
  | none => s
  | some l =>
    match (if l.loop then servedSlot s c else none) with
    | some k => slotFault k c queue pc code aux s
    | none => programFaultAux c queue pc code aux s

def unitFault (c queue pc : Nat) (code : Code) (s : State) : State := unitFaultAux c queue pc code 0 s

end Sys2Proof.Machine
end

