-- ==== Sys2Proof/Machine/Seq.lean ====
section
/-! DEFINITION. The scalar sequencer (R96 to R100, R133): what every instruction passes at issue, and placing a captured
instruction in its queue (R64, R99). The command supplies the word at the program counter (assumption 16). -/
namespace Sys2Proof.Machine

/-- What a word needs at issue: its queue, predicate, whether its encoding is undefined (R101, R104), its level, and the
scalar registers it reads or writes (R100). -/
structure Req where
  q : Nat
  pred : BitVec 3
  pneg : Bool
  undef : Bool
  level : Nat
  regs : List (BitVec 6)
  deriving DecidableEq, Repr

/-- The instruction is passed: the next word is 8 bytes on, and the next issue number one higher. -/
def nextWord (l : LCore) : LCore := { l with pc := l.pc + 8, seq := l.seq + 1 }

/-- The sequencer can issue: the logical core runs, on a core in service, and nothing stops issue (R115, R119, R130). -/
def seqReady (s : State) (l : LCore) : Bool :=
  s.img.isSome && !l.halted && !l.stopped && l.resident && l.block.isNone && !(getP s l.phys).fenced && !(getP s l.phys).hwStopped &&
  quadOn s l.phys

/-- Register that an entry of queues S, C and F writes when it completes. -/
def writesReg : Payload → Option Nat
  | .load xd _ => some xd
  | .cread xd _ => some xd
  | .fnow xd => some xd
  | _ => none

/-- A write of the register is pending (R100). -/
def regPending (l : LCore) (r : BitVec 6) : Bool :=
  r != 0 && l.qs.any fun es => es.any fun e => writesReg e.pl == some r.toNat

/-- A store of the S queue is held by the latch (R401). -/
def storeHeld (l : LCore) : Bool :=
  (queue l qS).any fun e => match e.pl with
    | .store _ _ => true
    | _ => false

/-- p[PRED] XOR PNEG (R98). -/
def enabled (l : LCore) (r : Req) : Bool := readP l r.pred != r.pneg

/-- Issues one word: the checks of R133 in order, the predicate, the registers pending, then `act`. An instruction that must
wait leaves the state as it is, and its sender sends it again. -/
def seqIssue (c : Nat) (r : Req) (act : LCore → State → State) (s : State) : State :=
  match getL s c with
  | none => s
  | some l =>
    if !seqReady s l then s
    else if l.pc + 8 > l.codeBytes then programFault c qS l.pc cBRANCH_TARGET s
    else if r.undef || decide (imgLevel s < r.level) then programFault c r.q l.pc cUNDEF_OP s
    else if (r.q == qT || r.q == qK) && !hasTumbler s.fuses then programFault c r.q l.pc cABSENT_UNIT s
    else if !enabled l r then setL c (nextWord l) s
    else if r.q == qS && storeHeld l then s
    else if r.regs.any (regPending l) then s
    else act l s

/-- Register number one above: the successor of an MX-typed operand (R112). -/
def nextD (l : LCore) (r : BitVec 5) : Desc := readD l (r + 1)

/-- R133 step 3 over the descriptor operands read. -/
def operandErr (l : LCore) (rs : List (BitVec 5)) : Option Code := rs.findSome? fun r => descErr r (readD l r) (nextD l r)

/-- Issues an S-queue operation that reads descriptor register `r`: the register is checked as every descriptor operand is (R113). -/
def readsDesc (c : Nat) (r : BitVec 5) (act : LCore → State → State) (l : LCore) (s : State) : State :=
  match operandErr l [r] with
  | some code => programFault c qS l.pc code s
  | none => act l s

/-- Room for one more entry (R64). -/
def queueRoom (l : LCore) (q : Nat) : Bool := decide ((queue l q).length < 16)

def newEntry (l : LCore) (pl : Payload) : QE :=
  { pl := pl, n := l.seq, pc := l.pc, started := false, srec := .none, recOut := none, streamOut := none, paired := false,
    staged := none, flight := flightNone, checked := false, err := none }

/-- Places an entry in a queue. -/
def pushQ (q : Nat) (e : QE) (l : LCore) : LCore := modQueue q (fun es => es ++ [e]) l

/-! ### Scalar operations (R104) -/

def ctrlZero (n : Nat) (f : FmtD) : Bool := f.ctrl.toNat >>> n == 0

/-- b = x[xb] + IMM32 (R101). -/
def opB (l : LCore) (f : FmtA) : Word := readX l f.xb + f.imm.signExtend 64

def reqA (f : FmtA) (undef : Bool) (regs : List (BitVec 6)) : Req := ⟨qS, f.pred, f.pneg, undef, 1, regs⟩
def reqD (q level : Nat) (f : FmtD) (undef : Bool) (regs : List (BitVec 6)) : Req := ⟨q, f.pred, f.pneg, undef, level, regs⟩

/-- An S-queue operation xd ← op xa b, complete in the next cycle. -/
def scalarOp (c : Nat) (f : FmtA) (op : Word → Word → Word) (s : State) : State :=
  seqIssue c (reqA f false [f.xd, f.xa, f.xb])
    (fun l s => setL c (writeX f.xd (op (readX l f.xa) (opB l f)) (nextWord l)) s) s

/-- The code with which a core's load or store of `n` bytes at `a` faults, if any (R21, R71, R105, R241). -/
def accessErr (s : State) (c : Nat) (l : LCore) (a n : Nat) (write : Bool) : Option Code :=
  if a % n ≠ 0 then some cXF_ALIGN
  else match whereIs s l a n with
    | .own => none
    | .otherScratch => some cXF_WINDOW
    | .unmapped => some cADDR_UNMAPPED
    | .hbm => if write && !storeAllowed s (getL s c) a n then some cSTEP_REGION else none

/-- Performs a core's store: at once, or, where the latch copies the granule first, as an entry that holds the S queue until
it lands (R401). -/
def scalarStore (c : Nat) (l : LCore) (a : Nat) (bs : List Byte) (s : State) : State :=
  let s := memPut a bs s
  if decide (a < hbmEnd) && latHolds s a bs.length then
    setL c (pushQ qS { newEntry l (.store a bs) with started := true } (nextWord l)) s
  else setL c (nextWord l) s

/-- Branches to a byte offset of the CODE section (R105). -/
def branchTo (c : Nat) (l : LCore) (target : Int) (s : State) : State :=
  if 0 ≤ target ∧ target < l.codeBytes ∧ target % 8 = 0 then setL c { nextWord l with pc := target.toNat } s
  else programFault c qS l.pc cBRANCH_TARGET s

def fieldPos (f : FmtD) : Nat := bits f.ctrl.toNat 0 8
def fieldLen (f : FmtD) : Nat := bits f.ctrl.toNat 8 6 + 1
def fieldUndef (f : FmtD) : Bool := !ctrlZero 14 f || decide (fieldPos f + fieldLen f > 256)

/-- DADV (R110, R111): the moved descriptor, or none where it raises `DESC_FORMAT`. -/
def dadv (d : Desc) (i : Nat) (x : Word) : Option Desc :=
  let adv : Int := x.toInt * dStride d i * dBits d
  let a : Int := dBase d + adv / 8
  if adv % 512 ≠ 0 ∨ dRank d ≤ i ∨ a < 0 ∨ 2 ^ 43 ≤ a then none
  else some (BitVec.ofNat 256 (putBits d.toNat 0 37 (a / 64).toNat))

end Sys2Proof.Machine
end

