-- ==== Sys2Proof/Machine/Matrix.lean ====
section
/-! DEFINITION. The matrix arrays (R137 to R173, R611): partitions, operands, the group sums of a pass, and poison. -/
namespace Sys2Proof.Machine

/-! ### Partitions (R138, R139, R145) -/

/-- Partitions of the mode in force; a level-1 image has one (R145). -/
def partCount (level mode : Nat) : Nat :=
  if level = 1 then 1 else match mode with
    | 0 => 4
    | 1 => 2
    | 2 => 2
    | _ => 1

/-- Shape M × N of a partition's output block. -/
def partShape (level mode : Nat) : Nat × Nat :=
  if level = 1 then (64, 64) else match mode with
    | 0 => (64, 64)
    | 1 => (128, 64)
    | 2 => (64, 128)
    | 3 => (128, 128)
    | 4 => (256, 64)
    | _ => (64, 256)

/-- Array, row and column that hold output (i, j) of a partition's block (R139). -/
def accLoc (mode part i j : Nat) : Nat × Nat × Nat :=
  match mode with
  | 0 => (part, i, j)
  | 1 => (part + 2 * (i / 64), i % 64, j)
  | 2 => (2 * part + j / 64, i, j % 64)
  | 3 => (2 * (i / 64) + j / 64, i % 64, j % 64)
  | 4 => (i / 64, i % 64, j)
  | _ => (j / 64, i, j % 64)

/-- Arrays of a partition. -/
def partArrays (level mode part : Nat) : List Nat :=
  if level = 1 then [0, 1, 2, 3] else match mode with
    | 0 => [part]
    | 1 => [part, part + 2]
    | 2 => [2 * part, 2 * part + 1]
    | _ => [0, 1, 2, 3]

def accKey (array set row col : Nat) : Nat := ((array * 2 + set) * 64 + row) * 64 + col

/-- The pair at output (i, j) of a partition's set. -/
def accGet (l : LCore) (mode part set i j : Nat) : Pair :=
  let (a, r, c) := accLoc mode part i j
  smGet (fun _ => pairZero) l.acc (accKey a set r c)

def accPut (mode part set i j : Nat) (v : Pair) (l : LCore) : LCore :=
  let (a, r, c) := accLoc mode part i j
  { l with acc := smSet (fun _ => pairZero) l.acc (accKey a set r c) v }

/-- Clears a set of some arrays to +0 with +0 tails. -/
def accClear (arrays : List Nat) (set : Nat) (l : LCore) : LCore :=
  { l with acc := l.acc.filter fun e => !(e.1 / 4096 % 2 == set && arrays.contains (e.1 / 8192)) }

/-- What a HINGE does to the accumulators and stopped partitions (R141, R73). -/
def accClearAll (l : LCore) : LCore := { l with acc := [], accDims := [], partStop := [], engStop := [] }

/-! ### Control fields (R104) -/

def mPart (c : CapD) : Nat := bits c.ctrl 0 2
def mSet (c : CapD) : Nat := bits c.ctrl 2 1
def mZero (c : CapD) : Bool := c.ctrl.testBit 3
def mTA (c : CapD) : Bool := c.ctrl.testBit 4
def mTB (c : CapD) : Bool := c.ctrl.testBit 5
def mSp24 (c : CapD) : Bool := c.ctrl.testBit 6
def mConv (c : CapD) : Bool := c.ctrl.testBit 7
def dForm (c : CapD) : Nat := bits c.ctrl 3 2
def dRound (c : CapD) : Bool := c.ctrl.testBit 5

/-! ### Operands (R146 to R149, R163 to R169) -/

/-- Classes of the rows of R149: 0 FP32, 1 BF16, 2 FP16, 3 FP8, 4 FP6 and FP4, 5 INT8. -/
def typeClass (t : Nat) : Nat :=
  match typePlain t with
  | 0 => 0
  | 1 => 1
  | 2 => 2
  | 3 => 3
  | 4 => 3
  | 5 => 4
  | 6 => 4
  | 7 => 4
  | _ => 5

/-- Group width of a type (R160). -/
def groupWidth (t : Nat) : Nat :=
  match typeClass t with
  | 0 => 4
  | 1 => 8
  | 2 => 8
  | _ => 16

def mixAllowed (a b : Nat) : Bool :=
  let x := typeClass a
  let y := typeClass b
  if x = 0 ∨ y = 0 then x == y
  else if x = 5 ∨ y = 5 then x == y
  else if x ≤ 2 ∧ y ≤ 2 then x == y
  else true

/-- Whether the valid extent of a descriptor, and of its successor for an MX type, lies in the own window (R147, R241). -/
def descOwn (l : LCore) (d succ : Desc) : Bool :=
  let e := extent d
  let f := extent succ
  inOwnScratch l e.1 e.2 && (!typeIsMx (dType d) || inOwnScratch l f.1 f.2)

/-- M and K of operand A, or N and K of operand B when `b` (R146). -/
def operandShape (d : Desc) (tr b : Bool) : Option (Nat × Nat) :=
  let r := dRank d
  let k2 := if r = 3 then dLen d 2 else 1
  if tr then (if r = 2 then (if b then some (dLen d 1, dLen d 0) else some (dLen d 0, dLen d 1)) else none)
  else if r = 2 ∨ r = 3 then
    (if b && !typeIsMx (dType d) then some (dLen d 0, dLen d 1 * k2) else some (dLen d 1, dLen d 0 * k2))
  else none

/-- Window position of element (row, k): row is m of A, n of B. -/
def operandPos (d : Desc) (tr b : Bool) (row k : Nat) : List Nat :=
  let kFirst := if b && !typeIsMx (dType d) then tr else !tr
  let split := dRank d == 3
  if kFirst then
    (if split then [k % dLen d 0, row, k / dLen d 0] else [k, row])
  else (if split then [row, k % dLen d 1, k / dLen d 1] else [row, k])

/-- An operand element at a position: zero outside the valid window, else the element, times its block scale for an MX type
(R148, R179). -/
def operandVal (m : Mem) (d succ : Desc) (w : List Nat) : Val :=
  if !posValid d w then .fin false 0 0
  else
    let v := elemVal (dType d) (elemAt m d w)
    if typeIsMx (dType d) then
      let x := elemAt m succ (match w with | w0 :: ws => (w0 / 32) :: ws | [] => [])
      if x = 255 then .nan else v.scale ((x : Int) - 127)
    else v

/-- A level of a loop record (R166): COUNT, STEP, DIM, ROLE. -/
structure ConvLevel where
  count : Nat
  step : Int
  dim : Nat
  role : Nat
  deriving DecidableEq, Repr

/-- A loop record: CIN, the levels in force, PAD(0) to PAD(4). -/
structure ConvRec where
  cin : Nat
  levels : List ConvLevel
  pad : List Nat
  deriving DecidableEq, Repr

/-- Reads a loop record; none where it breaks R166 for a tensor of rank `r`. -/
def convRead (m : Mem) (l : LCore) (x : Word) (r : Nat) : Option ConvRec :=
  let a := x.toNat
  if a % 64 ≠ 0 ∨ ¬ inOwnScratch l a 64 then none
  else
    let b := m.bytes a 64
    let cin := bodyNat b 0 2
    let n := bodyNat b 2 1
    let lev := fun i => (⟨bodyNat b (8 + 8 * i) 2, signedOf 16 (bodyNat b (0xA + 8 * i) 2), bodyNat b (0xC + 8 * i) 1,
      bodyNat b (0xD + 8 * i) 1⟩ : ConvLevel)
    let ok := decide (1 ≤ cin ∧ cin ≤ 1024 ∧ 1 ≤ n ∧ n ≤ 5) && bodyNat b 3 5 == 0 &&
      ((List.range n).all fun i =>
        let v := lev i
        decide (1 ≤ v.count ∧ v.count ≤ 1024 ∧ 1 ≤ v.dim ∧ v.dim ≤ 4 ∧ v.dim < r ∧ v.role ≤ 1) && bodyNat b (0xE + 8 * i) 2 == 0) &&
      ((List.range 5).all fun i => decide (i < n) || bodyNat b (8 + 8 * i) 8 == 0) &&
      bodyNat b 0x30 1 == 0 && bodyNat b 0x35 11 == 0
    if ok then some ⟨cin, (List.range n).map lev, (List.range 5).map fun d => bodyNat b (0x30 + d) 1⟩ else none

/-- Product of the COUNTs of the levels of a role. -/
def convCount (c : ConvRec) (role : Nat) : Nat := (c.levels.filter fun v => v.role == role).foldl (fun n v => n * v.count) 1

/-- Iterations i(l) of the levels for (m, k), level 0 first (R167). -/
def convIter : List ConvLevel → Nat → Nat → List Nat
  | [], _, _ => []
  | v :: vs, r, q =>
    if v.role = 0 then (r % v.count) :: convIter vs (r / v.count) q else (q % v.count) :: convIter vs r (q / v.count)

/-- The position of dA for (m, k); none where a coordinate is negative. -/
def convPos (c : ConvRec) (rank m k : Nat) : Option (List Nat) :=
  let its := convIter c.levels m (k / c.cin)
  let w := fun d => ((c.levels.zip its).foldl (fun (t : Int) p => if p.1.dim = d then t + p.2 * p.1.step else t) 0) -
    (c.pad.getD d 0 : Nat)
  let ws := (List.range (rank - 1)).map fun i => w (i + 1)
  if ws.any fun x => decide (x < 0) then none else some (k % c.cin :: ws.map Int.toNat)

/-- What an MMA reads: its shape, group width and operand elements, and for each row the first group of four expanded
positions whose metadata is bad (R165). -/
structure MmaOps where
  m : Nat
  n : Nat
  k : Nat
  g : Nat
  a : Nat → Nat → Val
  b : Nat → Nat → Val
  bad : Nat → Option Nat

/-- The metadata byte for expanded positions 8j to 8j + 7 of a row; none outside dC's valid window. -/
def sp24Byte (mem : Mem) (dC : Desc) (row j : Nat) : Option Nat :=
  if posValid dC [j, row] then some (elemAt mem dC [j, row]) else none

/-- First and second kept position of group `q` of four expanded positions. -/
def sp24Pair (byte q : Nat) : Nat × Nat := (bits byte (4 * (q % 2)) 2, bits byte (4 * (q % 2) + 2) 2)

/-- First group of a row whose positions are not strictly ascending. -/
def sp24Bad (mem : Mem) (dC : Desc) (kExp row : Nat) : Option Nat :=
  (List.range (kExp / 4)).find? fun q => match sp24Byte mem dC row (q / 2) with
    | some b => !decide ((sp24Pair b q).1 < (sp24Pair b q).2)
    | none => false

/-- An element of the expanded A (R163, R164). -/
def sp24Val (mem : Mem) (c : CapD) (row k : Nat) : Val :=
  match sp24Byte mem c.dC row (k / 8) with
  | none => .fin false 0 0
  | some b =>
    let p := sp24Pair b (k / 4)
    if k % 4 = p.1 then operandVal mem c.dA c.sA (operandPos c.dA false false row (k / 4 * 2))
    else if k % 4 = p.2 then operandVal mem c.dA c.sA (operandPos c.dA false false row (k / 4 * 2 + 1))
    else .fin false 0 0

/-- A stored window that the loader can present transposed (R169). -/
def transposable (d : Desc) : Bool :=
  decide (dLen d 0 ≤ 64 ∧ dLen d 1 ≤ 64 ∧ dBits d ≤ 16) && !typeIsMx (dType d)

/-- Checks 2 to 6 of R611, and what the MMA reads. A metadata descriptor has RANK 2, and its dimension 0 window may be longer than one
byte per eight expanded positions (DESIGN CHOICE, assumption 62); a convolution's rows past M, which a block computes and no drain
stores, read as zero (DESIGN CHOICE, assumption 66). -/
def mmaOps (s : State) (l : LCore) (c : CapD) : Except Code MmaOps :=
  let mem := s.mem
  let own := descOwn l c.dA c.sA && descOwn l c.dB c.sB && (!mSp24 c || (let e := extent c.dC; inOwnScratch l e.1 e.2))
  let shA := operandShape c.dA (mTA c) false
  let shB := operandShape c.dB (mTB c) true
  if !own || dSparse c.dA || dSparse c.dB then .error cMM_OPERAND
  else match shB with
  | none => .error cMM_OPERAND
  | some (n, kB) =>
    let kA := shA.map fun x => if mSp24 c then 2 * x.2 else x.2
    if decide (1024 < n) || (!mConv c && (shA.isNone || kA != some kB || decide (1024 < (shA.map (·.1)).getD 0))) then
      .error cMM_OPERAND
    else if !mixAllowed (dType c.dA) (dType c.dB) then .error cMM_MIX
    else
      let m0 := (shA.map (·.1)).getD 0
      if mSp24 c && (dType c.dA == 0 || dType c.dB == 0 || mTA c || mConv c || kB % 8 != 0 || dType c.dC != 8 ||
          dRank c.dC != 2 || dSparse c.dC || dLen c.dC 1 != m0 || decide (dLen c.dC 0 < kB / 8)) then .error cMM_SP24
      else
        let cv := if mConv c then convRead mem l c.xa (dRank c.dA) else none
        let convBad := mConv c && (mTA c || match cv with
          | none => true
          | some r => decide (1024 < convCount r 0) || r.cin * convCount r 1 != kB)
        if convBad then .error cMM_CONV
        else if (mTA c && !transposable c.dA) || (mTB c && !transposable c.dB) then .error cMM_TRANSPOSE
        else
          let bV := fun col k => operandVal mem c.dB c.sB (operandPos c.dB (mTB c) true col k)
          let g := min (groupWidth (dType c.dA)) (groupWidth (dType c.dB))
          match cv with
          | some r =>
            let aV := fun row k => match convPos r (dRank c.dA) row k with
              | some w => if row < convCount r 0 then operandVal mem c.dA c.sA w else .fin false 0 0
              | none => .fin false 0 0
            .ok ⟨convCount r 0, n, kB, g, aV, bV, fun _ => none⟩
          | none =>
            if mSp24 c then .ok ⟨m0, n, kB, g, sp24Val mem c, bV, sp24Bad mem c.dC kB⟩
            else .ok ⟨m0, n, kB, g, fun row k => operandVal mem c.dA c.sA (operandPos c.dA (mTA c) false row k), bV, fun _ => none⟩

/-- M and N that an MMA's operands name, whether or not it passes its checks (R144, R166). -/
def mmaExtent (s : State) (l : LCore) (c : CapD) : Option (Nat × Nat) :=
  match operandShape c.dB (mTB c) true with
  | none => none
  | some (n, _) =>
    if mConv c then (convRead s.mem l c.xa (dRank c.dA)).map fun r => (convCount r 0, n)
    else (operandShape c.dA (mTA c) false).map fun a => (a.1, n)

/-! ### Passes (R150 to R155) -/

/-- Adds the groups below `lim` of output (i, j) onto a pair, in ascending K order (R151, R177, R180). -/
def accumulate (o : MmaOps) (lim i j : Nat) (p : Pair) : Pair :=
  (List.range (min lim (ceilDiv o.k o.g))).foldl (fun p kg =>
    compAdd p (groupSum ((List.range (min o.g (o.k - kg * o.g))).map fun x => (o.a i (kg * o.g + x)).mul (o.b j (kg * o.g + x))))) p

/-- First row and column of each pass's block, N-block outer and M-block inner (R150). -/
def passBlocks (m n pm pn : Nat) : List (Nat × Nat) :=
  (List.range (ceilDiv n pn)).flatMap fun q => (List.range (ceilDiv m pm)).map fun p => (p * pm, q * pn)

/-- The first bad group of an SP24 pass over rows r0 up, in groups of g, if any (R165). -/
def passBad (o : MmaOps) (r0 pm : Nat) : Option Nat :=
  (List.range (min pm (o.m - r0))).foldl (fun acc i => match o.bad (r0 + i), acc with
    | some q, some k => some (min k (4 * q / o.g))
    | some q, none => some (4 * q / o.g)
    | none, acc => acc) none

/-- The positions of a block of M rows and N columns. -/
def cellsOf (m n : Nat) : List (Nat × Nat) := (List.range m).flatMap fun i => (List.range n).map fun j => (i, j)

/-! ### Poison (R171, R173) -/

def poisonWord (t : Nat) : Nat :=
  match t with
  | 0 => 0x7FC00BAD
  | 1 => 0x7FC1
  | 2 => 0x7E01
  | 3 => 0x7F
  | 4 => 0x7F
  | _ => 0

/-- The destination of a DRAIN meets R183 for M rows and N columns. -/
def drainDestOk (l : LCore) (c : CapD) (m n : Nat) : Bool :=
  let f := dForm c
  let t := dType c.dD
  descOwn l c.dD c.sD && dRank c.dD == 2 && decide (m ≤ dLen c.dD 1) && decide ((if f = 0 then 2 * n else n) ≤ dLen c.dD 0) &&
  !dSparse c.dD && (if f = 2 then t != 0 && !typeReserved t else t == 0) &&
  (f != 0 || (dLo c.dD 0 % 2 == 0 && dEnd c.dD 0 % 2 == 0))

/-- Poisons the positions of a DRAIN's valid window whose output (row, column) satisfies `sel`. -/
def poisonWhere (l : LCore) (c : CapD) (m n : Nat) (sel : Nat → Nat → Bool) (s : State) : State :=
  if !drainDestOk l c m n then s
  else
    let d := c.dD
    let mem := (positions (dLens d)).foldl (fun mem w =>
      let col := w.getD 0 0
      let row := w.getD 1 0
      if posValid d w && sel row (if dForm c = 0 then col / 2 else col) then
        let mem := putElem d w (poisonWord (dType d)) mem
        if typeIsMx (dType d) then putElem c.sD [col / 32, row] 255 mem else mem
      else mem) s.mem
    { s with mem := mem }

/-- A block of a pass contains an output. -/
def inBlock (b : Nat × Nat) (pm pn i j : Nat) : Bool := decide (b.1 ≤ i ∧ i < b.1 + pm ∧ b.2 ≤ j ∧ j < b.2 + pn)

/-- A data fault stops the partition and completes the slot of its tag, or, with tag 0, stops the image (R171, R172). -/
def partFault (c : Nat) (part pc : Nat) (code : Code) (s : State) : State :=
  match getL s c with
  | none => s
  | some l =>
    let s := setL c { l with partStop := if l.partStop.contains part then l.partStop else l.partStop ++ [part] } s
    let tag := l.hinge.tags.getD part 0
    if tag = 0 then programFault c qM pc code s else slotFault tag c qM pc code 0 s

end Sys2Proof.Machine
end

