-- ==== Sys2Proof/Machine/Drain.lean ====
section
/-! DEFINITION. Drains (R182 to R206): scale records, the three forms, quantization, stochastic rounding and traps. -/
namespace Sys2Proof.Machine

/-! ### Scale records (R190, R191) -/

structure ScaleRec where
  hist : List Nat
  ty : Nat
  mode : Nat
  margin : Nat
  count : Nat
  head : Nat
  flags : Nat
  inSe : Int
  fixedSe : Int
  appliedSe : Int
  sat : Nat
  nan : Nat
  uses : Nat
  deriving DecidableEq, Repr

def recRead (b : List Byte) : ScaleRec :=
  ⟨(List.range 16).map fun n => bodyNat b (4 * n) 4, bodyNat b 0x40 1, bodyNat b 0x41 1, bodyNat b 0x42 1, bodyNat b 0x43 1,
   bodyNat b 0x44 1, bodyNat b 0x45 1, signedOf 16 (bodyNat b 0x46 2), signedOf 16 (bodyNat b 0x48 2),
   signedOf 16 (bodyNat b 0x4A 2), bodyNat b 0x4C 4, bodyNat b 0x50 4, bodyNat b 0x54 4⟩

/-- The 128 bytes of a record. -/
def recBytes (r : ScaleRec) : List Byte :=
  r.hist.flatMap (leBytes 4) ++ leBytes 1 r.ty ++ leBytes 1 r.mode ++ leBytes 1 r.margin ++ leBytes 1 r.count ++
  leBytes 1 r.head ++ leBytes 1 r.flags ++ leBytes 2 (r.inSe % 65536).toNat ++ leBytes 2 (r.fixedSe % 65536).toNat ++
  leBytes 2 (r.appliedSe % 65536).toNat ++ leBytes 4 r.sat ++ leBytes 4 r.nan ++ leBytes 4 r.uses ++ leBytes 40 0

def recScaling (r : ScaleRec) : Nat := bits r.mode 0 2
def recSat (r : ScaleRec) : Bool := r.mode.testBit 2
def recNanTrap (r : ScaleRec) : Bool := r.mode.testBit 3
def recOvfTrap (r : ScaleRec) : Bool := r.mode.testBit 4

/-- The valid history entries: the COUNT entries that precede HEAD in ring order. -/
def recHist (r : ScaleRec) : List Nat := (List.range r.count).map fun i => r.hist.getD ((r.head + 32 - (i + 1)) % 16) 0

/-- The record makes a FORM 2 drain find its own amax (R193, R195). -/
def recMeasures (r : ScaleRec) : Bool := recScaling r == 2 || (recScaling r == 0 && r.count == 0)

/-- Breaches of R191 apart from a reserved TYPE. -/
def recBad (r : ScaleRec) (b : List Byte) (form destTy : Nat) : Bool :=
  (form == 2 && r.ty != destTy) || recScaling r == 3 || decide (15 < r.margin) || decide (16 < r.count) || decide (15 < r.head) ||
  decide (r.inSe < -254 ∨ 254 < r.inSe) || decide (r.fixedSe < -127 ∨ 127 < r.fixedSe) || decide (15 < r.ty) ||
  decide (31 < r.mode) || decide (3 < r.flags) || bodyNat b 0x58 40 != 0 ||
  (recHist r).any fun h => h.testBit 31 || decide (h / 2 ^ 23 = 255)

/-- The address of a DRAIN's record is one that a record may have: HBM of the module, on a 128-byte boundary, inside a PERSISTENT
or TRANSIENT region of the image (R185). -/
def recPlaced (s : State) (a : Nat) : Bool :=
  a % 128 == 0 && decide (a < hbmEnd) && hbmRange s.fuses a 128 && (inKind s 0 a 128 || inKind s 1 a 128)

/-! ### Scale exponents (R193, R197) -/

/-- SE from an amax, an FP32 pattern of a non-negative finite value. -/
def seOf (ty a margin : Nat) : Int :=
  let f : Int := match f32Val (BitVec.ofNat 32 a) with
    | .fin _ m e =>
      if m = 0 then 0
      else
        let ea := topExp m e
        let (fm, fe) := fmtMax ty
        -- A / 2^ea > MMAX
        let big := (Dy.mk fm (fe + ea - fmtEmax ty)).lt ⟨m, e⟩
        fmtEmax ty - ea - (if big then 1 else 0)
    | _ => 0
  min (max (f - margin) (-127)) 127

/-- |rne32(x)| as an FP32 pattern, 0 where it is NaN or infinite (R194). -/
def magOf (x : Val) : Nat :=
  let y := f32Of x
  if f32IsNan y || f32IsInf y then 0 else y.toNat % 2 ^ 31

/-! ### One element (R192, R203, R204) -/

/-- An element's bits, and what it adds: NaN count, saturation count, and whether OVF_TRAP's condition holds with SAT 0. -/
structure ElemOut where
  bits : Nat
  nan : Nat
  sat : Nat
  ovf : Bool
  deriving DecidableEq, Repr

def nanBits (ty : Nat) : Nat :=
  match ty with
  | 1 => 0x7FC0
  | 2 => 0x7E00
  | 3 => 0x7F
  | 4 => 0x7E
  | _ => 0

/-- The signed FMT_MAX of a type. -/
def maxBits (ty : Nat) (neg : Bool) : Nat :=
  let (m, e) := fmtMax ty
  fmtEncode ty neg m e

/-- What an infinite output becomes (R204). -/
def infBits (ty : Nat) (sat neg : Bool) : Nat :=
  if sat then maxBits ty neg
  else match ty with
    | 1 => if neg then 0xFF80 else 0x7F80
    | 2 => if neg then 0xFC00 else 0x7C00
    | 4 => if neg then 0xFC else 0x7C
    | 3 => if neg then 0xFF else 0x7F
    | _ => maxBits ty neg

/-- Narrows an exact value to an element. -/
def quantElem (ty : Nat) (sat : Bool) (draw : Option Nat) (x : Val) : ElemOut :=
  match x with
  | .nan => ⟨nanBits ty, 1, 0, false⟩
  | .inf neg => ⟨infBits ty sat neg, 1, 0, !sat⟩
  | .fin neg m e =>
    if m = 0 then ⟨fmtEncode ty neg 0 0, 0, 0, false⟩
    else
      let (k, q) := fmtRound ty draw m e neg
      let (fm, fe) := fmtMax ty
      if (Dy.mk fm fe).lt ⟨k, q⟩ then
        if sat || !(ty == 1 || ty == 2 || ty == 4) then ⟨maxBits ty neg, 0, 1, !sat⟩ else ⟨infBits ty false neg, 1, 0, true⟩
      else ⟨fmtEncode ty neg k q, 0, 0, false⟩

/-! ### A drain -/

/-- A trap that a drain meets: its code, the blocks in which it was met, and the first block whose drain had not started. -/
structure Trap where
  code : Code
  hit : List Nat
  rest : Nat
  deriving DecidableEq, Repr

/-- A trap leaves block `i` as poison (R171, R206). -/
def Trap.poisons (t : Trap) (i : Nat) : Bool := t.hit.contains i || decide (t.rest ≤ i)

/-- What a drain writes and leaves: the destination elements and scale bytes by position, the record and the draw words
used, or the trap it met. -/
structure DrainOut where
  writes : List (List Nat × Nat)
  scales : List (List Nat × Nat)
  recOut : Option ScaleRec
  words : Nat
  trap : Option Trap
  deriving DecidableEq, Repr

/-- Outputs of a block inside M × N and the valid window. -/
def drainCells (c : CapD) (m n pm pn : Nat) (b : Nat × Nat) : List (Nat × Nat) :=
  ((List.range (min pm (m - b.1))).flatMap fun i => (List.range (min pn (n - b.2))).map fun j => (b.1 + i, b.2 + j)).filter
    fun p => posValid c.dD [if dForm c = 0 then 2 * p.2 else p.2, p.1]

/-- (s + t) × 2^IN_SE of an output, exact. -/
def outVal (p : Pair) (inSe : Int) : Val := p.val.scale inSe

/-- The 16-bit draw of destination position (col, row) (R202). -/
def drawOf (key salt lcore stream p0 width col row : Nat) : Nat :=
  let n := row * width + col
  let w := drawWord key salt lcore stream (p0 + n / 2)
  if n % 2 = 0 then w % 65536 else w / 65536

/-- Block `i` of a drain meets a trap, where `wave` blocks drain together (R145): the other blocks of its wave are drained as usual. Of
two traps in one wave the code is that of the first block (DESIGN CHOICE, assumption 67). -/
def trapAt (wave i : Nat) (code : Code) (t : Option Trap) : Trap :=
  match t with
  | some t => { t with hit := t.hit ++ [i] }
  | none => ⟨code, [i], (i / wave + 1) * wave⟩

/-- The whole drain: `blocks` in drain order, `wave` of them at a time, `out` the pair of an output, `draw` the draw of a position
when SROUND holds. In FORM 0 the sum s of a pair alone makes it a NaN or an infinite output (DESIGN CHOICE, assumption 65). -/
def drainRun (c : CapD) (rec : Option ScaleRec) (wave : Nat) (blocks : List (Nat × Nat)) (m n pm pn : Nat) (out : Nat → Nat → Pair)
    (draw : Nat → Nat → Option Nat) : DrainOut :=
  let form := dForm c
  let ty := dType c.dD
  let mx := typeIsMx ty
  let inSe := match rec with
    | some r => if form = 0 then 0 else r.inSe
    | none => 0
  let nanT := (rec.map recNanTrap).getD false
  let ovfT := (rec.map recOvfTrap).getD false
  let sat := (rec.map recSat).getD false
  let amax := (blocks.flatMap (drainCells c m n pm pn)).foldl (fun a p => max a (magOf (outVal (out p.1 p.2) inSe))) 0
  let measured := (rec.map recMeasures).getD false
  let se : Int := match rec with
    | some r =>
      if form ≠ 2 || mx then 0
      else if recScaling r = 1 then r.fixedSe
      else if measured then seOf ty amax r.margin
      else seOf ty ((recHist r).foldl max 0) r.margin
    | none => 0
  -- one block: elements, scale bytes, counts and the trap it meets
  let one := fun (b : Nat × Nat) =>
    let cells := drainCells c m n pm pn b
    if form = 0 then
      let ws := cells.flatMap fun p =>
        let o := out p.1 p.2
        let o := if f32IsNan o.s then ⟨qnan, 0⟩ else if f32IsInf o.s then ⟨o.s, 0⟩ else o
        [([2 * p.2, p.1], o.s.toNat), ([2 * p.2 + 1, p.1], o.t.toNat)]
      (ws, ([] : List (List Nat × Nat)), 0, 0, cells.any (fun p => f32IsNan (out p.1 p.2).s),
        cells.any (fun p => f32IsInf (out p.1 p.2).s))
    else if form = 1 then
      let ws := cells.map fun p => ([p.2, p.1], (f32Of (outVal (out p.1 p.2) inSe)).toNat)
      (ws, [], 0, 0, ws.any (fun w => f32IsNan (BitVec.ofNat 32 w.2)), ws.any (fun w => f32IsInf (BitVec.ofNat 32 w.2)))
    else
      let vals := cells.map fun p => (p, outVal (out p.1 p.2) inSe)
      -- MX groups of 32 columns: amax and whether a NaN lies in them
      let grp := fun (p : Nat × Nat) => vals.filter fun v => v.1.1 == p.1 && v.1.2 / 32 == p.2 / 32
      let gNan := fun p => (grp p).any fun v => v.2.isNan
      let gX := fun p => -(seOf ty ((grp p).foldl (fun a v => max a (magOf v.2)) 0) 0)
      let es := vals.map fun v =>
        if mx && gNan v.1 then
          (v.1, (⟨0, if v.2.isFin then 0 else 1, 0, v.2.isInf && !sat⟩ : ElemOut))
        else (v.1, quantElem ty sat (draw v.1.2 v.1.1) (v.2.scale (if mx then -(gX v.1) else se)))
      let ws := es.map fun e => ([e.1.2, e.1.1], e.2.bits)
      let sc := if mx then cells.map fun p => ([p.2 / 32, p.1], if gNan p then 255 else (gX p + 127).toNat) else []
      (ws, sc, es.foldl (fun n e => n + e.2.nan) 0, es.foldl (fun n e => n + e.2.sat) 0, vals.any (fun v => v.2.isNan),
        es.any (fun e => e.2.ovf))
  let step := fun (acc : DrainOut × Nat × Nat × Nat) (b : Nat × Nat) =>
    let (o, nn, sn, i) := acc
    if (o.trap.map fun t => decide (t.rest ≤ i)).getD false then acc
    else
      let (ws, sc, n1, s1, hasNan, hasOvf) := one b
      if nanT && hasNan then ({ o with trap := some (trapAt wave i cACC_NAN o.trap) }, nn, sn, i + 1)
      else if ovfT && hasOvf then ({ o with trap := some (trapAt wave i cACC_OVERFLOW o.trap) }, nn, sn, i + 1)
      else ({ o with writes := o.writes ++ ws, scales := o.scales ++ sc }, nn + n1, sn + s1, i + 1)
  let (o, nn, sn, _) := blocks.foldl step (⟨[], [], none, 0, none⟩, 0, 0, 0)
  let newRec := match rec with
    | some r =>
      if form = 2 then some { r with
        hist := r.hist.set r.head amax, head := (r.head + 1) % 16, count := min (r.count + 1) 16,
        appliedSe := if mx then 0 else se, uses := satAdd 32 r.uses 1, sat := satAdd 32 r.sat sn, nan := satAdd 32 r.nan nn,
        flags := (if mx || recScaling r ≠ 0 then bits r.flags 0 1 else if r.count = 0 then 1 else 0) +
          (if r.flags.testBit 1 || decide (0 < sn) then 2 else 0) }
      else none
    | none => none
  { o with recOut := newRec, words := if form = 2 && dRound c then ceilDiv (dLen c.dD 0 * dLen c.dD 1) 2 else 0 }

/-- Puts a drain's elements and scale bytes into scratch. -/
def drainStore (c : CapD) (o : DrainOut) (s : State) : State :=
  let mem := o.writes.foldl (fun m w => putElem c.dD w.1 w.2 m) s.mem
  { s with mem := o.scales.foldl (fun m w => putElem c.sD w.1 w.2 m) mem }

end Sys2Proof.Machine
end

