-- ==== Sys2Proof/Machine/MatrixQ.lean ====
section
/-! DEFINITION. The M queue (R153, R157, R171, R186, R187, R244): starting its instructions. An instruction's whole effect is
computed when it starts; its completion makes room for what waits on it (assumption 17). -/
namespace Sys2Proof.Machine

/-! ### Queue entries -/

/-- The oldest entry of a queue that has not started, with its place. -/
def headOf (l : LCore) (q : Nat) : Option (Nat × QE) :=
  (enumFrom 0 (queue l q)).find? fun p => !p.2.started

def setEntry (q i : Nat) (e : QE) (l : LCore) : LCore := modQueue q (fun es => es.set i e) l
def dropEntry (q i : Nat) (l : LCore) : LCore := modQueue q (fun es => dropAt es i) l

/-- The logical core's queues run: it is on a core in service and nothing has stopped it. -/
def coreRuns (s : State) (l : LCore) : Bool :=
  s.img.isSome && !l.stopped && l.resident && !(getP s l.phys).fenced && !(getP s l.phys).hwStopped && quadOn s l.phys

/-! ### The scratch port (R244, R245) -/

/-- The entry is an instruction of queues M, T, V, X, K or G that has started and not completed. -/
def underWay (e : QE) : Bool := e.started && match e.pl with
  | .ins _ => true
  | _ => false

/-- A started instruction of the side's queues has not completed. -/
def sideBusy (l : LCore) (xfer : Bool) : Bool := (if xfer then [qX, qK] else [qM, qT, qV]).any fun q => (queue l q).any underWay

/-- Gives the port to a side, when it holds it or the other side is idle; none where it must wait for the turn to pass. -/
def takePort (l : LCore) (xfer : Bool) (s : State) : Option State :=
  if (getP s l.phys).xferSide = xfer then some s
  else if sideBusy l (!xfer) then none
  else some (modP l.phys (fun p => { p with xferSide := xfer }) s)

/-! ### Conflicts between M-queue instructions (R157) -/

/-- A started instruction that stops `c` from starting. -/
def mConflict (c : CapD) (folded : Bool) (e : QE) : Bool :=
  match e.pl with
  | .ins b =>
    if b.op = 2 then true
    else if mPart b ≠ mPart c then false
    else if folded || e.paired then true
    else match c.op, b.op with
      | 0, 0 => true
      | 0, _ => mSet b == mSet c
      | 1, 0 => mSet b == mSet c
      | 1, _ => true
      | _, _ => mSet b == mSet c
  | _ => false

def mBlocked (l : LCore) (c : CapD) (folded : Bool) (i : Nat) : Bool :=
  ((queue l qM).take i).any fun e => e.started && mConflict c folded e

/-- M and N that a DRAIN of a set is checked against (R183): those of the last MMA into it, else the partition's shape. -/
def drainDims (level : Nat) (l : LCore) (c : CapD) : Nat × Nat :=
  smGet (fun _ => partShape level l.hinge.mode) l.accDims (2 * mPart c + mSet c)

def setDims (part set : Nat) (v : Nat × Nat) (l : LCore) : LCore := { l with accDims := smPut l.accDims (2 * part + set) v }

/-- The M and N of an MMA that stores nothing, for the check of a DRAIN that is discarded behind it (R171, R183); the DRAIN of a
folded pair names no set (R154). -/
def namedDims (s : State) (c : CapD) (l : LCore) : LCore :=
  match mmaExtent s l c with
  | none => l
  | some (m, n) =>
    let (pm, pn) := partShape (imgLevel s) l.hinge.mode
    let l := setDims (mPart c) (mSet c) (m, n) l
    if decide (pm < m ∨ pn < n) then setDims (mPart c) (1 - mSet c) (m, n) l else l

/-- A later DRAIN behind one that leaves without writing the record reads it from HBM (R186). -/
def unbehind (n : Nat) (r : RecSt) (l : LCore) : LCore :=
  modQueue qM (fun es => es.map fun e => if e.srec = .behind n then { e with srec := r } else e) l

/-! ### DRAIN -/

/-- Checks 2 to 5 of R611 for a DRAIN of M rows and N columns. -/
def drainCheck (s : State) (l : LCore) (c : CapD) (rec : Option (List Byte)) (m n : Nat) : Option Code :=
  if !drainDestOk l c m n then some cACC_FORM
  else if c.xa = 0 then (if dForm c = 2 then some cACC_FORM else none)
  else if !recPlaced s c.xa.toNat then some cACC_FORM
  else match rec with
    | none => some cACC_FORM
    | some b =>
      let r := recRead b
      if typeReserved (r.ty % 16) then some cTYPE_RESERVED
      else if recBad r b (dForm c) (dType c.dD) then some cACC_FORM
      else if dForm c = 2 && !storeAllowed s (some l) c.xa.toNat 128 then some cSTEP_REGION
      else none

def recOf (e : QE) : Option (List Byte) := match e.srec with
  | .read b => some b
  | _ => none

/-- The record of a DRAIN is in hand, or it needs none. -/
def recReady (e : QE) : Bool := match e.srec with
  | .none => true
  | .read _ => true
  | _ => false

/-- The position at which the next drain of a stream starts: after the ranges that started drains hold (R201). -/
def streamStart (l : LCore) (n : Nat) : Nat :=
  ((queue l qM).foldl (fun p e => match e.streamOut with
    | some (k, w) => if k = n then w else p
    | none => p) (smGet (fun _ => 0) l.streams n)).toNat

/-- Runs a drain: the outputs in scratch, and the entry as it waits for completion; or the trap it meets. A FORM 2 drain
without a record meets none: it is refused at its start (R183). -/
def drainDo (s : State) (ci : Nat) (l : LCore) (e : QE) (c : CapD) (blocks : List (Nat × Nat)) (m n pm pn : Nat)
    (out : Nat → Nat → Pair) : State × QE × Option Trap :=
  let stream := c.xb.toNat % 256
  let p0 := streamStart l stream
  let key := (s.img.map fun i => i.streamKeys.getD stream ⟨0, 0, 0, 0⟩).getD ⟨0, 0, 0, 0⟩
  let draw := fun col row =>
    if dForm c = 2 && dRound c then some (drawOf key.key.toNat key.salt ci stream p0 (dLen c.dD 0) col row) else none
  let o := drainRun c ((recOf e).map recRead) (if imgLevel s = 1 then 4 else 1) blocks m n pm pn out draw
  let e := { e with started := true, recOut := o.recOut.map recBytes,
                    streamOut := if o.words = 0 then none else some (stream, BitVec.ofNat 64 (p0 + o.words)) }
  (drainStore c o s, e, o.trap)

/-- Starts a DRAIN outside a folded pair. -/
def startDrain (ci i : Nat) (l : LCore) (e : QE) (c : CapD) (s : State) : Option State :=
  let level := imgLevel s
  let part := mPart c
  let (m, n) := drainDims level l c
  if l.partStop.contains part then
    some (setL ci (unbehind e.n .unread (dropEntry qM i l)) (poisonWhere l c m n (fun _ _ => true) s))
  else if mBlocked l c false i || !recReady e then none
  else
    match takePort l false s with
    | none => none
    | some s =>
      let drop := fun (s : State) => modL ci (fun l => unbehind e.n .unread (dropEntry qM i l)) s
      match drainCheck s l c (recOf e) m n with
      | some code =>
        let (pm, pn) := partShape level l.hinge.mode
        some (partFault ci part e.pc code (drop (poisonWhere l c m n (inBlock (0, 0) pm pn) s)))
      | none =>
        let (pm, pn) := partShape level l.hinge.mode
        let out := fun r k => if decide (r < pm ∧ k < pn) then accGet l l.hinge.mode part (mSet c) r k else pairZero
        let (s', e', trap) := drainDo s ci l e c [(0, 0)] m n (max pm m) (max pn n) out
        match trap with
        | some t => some (partFault ci part e.pc t.code (drop (poisonWhere l c m n (inBlock (0, 0) pm pn) s)))
        | none => some (setL ci (setEntry qM i e' l) s')

/-! ### MMA -/

/-- A single-pass MMA (R152): the new accumulators, adding only the groups below `lim`. The block is computed in full, past M and N
too (R150). -/
def mmaSingle (l : LCore) (c : CapD) (o : MmaOps) (level lim : Nat) : LCore :=
  let mode := l.hinge.mode
  let part := mPart c
  let set := mSet c
  let base := if mZero c then accClear (if level = 1 then [0] else partArrays level mode part) set l else l
  let shape := partShape level mode
  (cellsOf shape.1 shape.2).foldl (fun acc p => accPut mode part set p.1 p.2 (accumulate o lim p.1 p.2 (accGet base mode part set p.1 p.2)) acc) base

/-- A folded pair's sums (R154, R155): from +0, or preloaded from the destination; +0 outside its valid window. -/
def foldedOut (m : Mem) (c d : CapD) (o : MmaOps) (i j : Nat) : Pair :=
  let p0 : Pair :=
    if mZero c || !posValid d.dD [2 * j, i] then pairZero
    else ⟨BitVec.ofNat 32 (elemAt m d.dD [2 * j, i]), BitVec.ofNat 32 (elemAt m d.dD [2 * j + 1, i])⟩
  accumulate o (ceilDiv o.k o.g) i j p0

/-- Starts a folded MMA with the DRAIN behind it (R153 to R155, R171, R206). A block that meets a trap is drained before a later pass
finds bad metadata, so the trap is the fault (DESIGN CHOICE, assumption 63); at level 1 the passes of a wave run together (R145). -/
def startPair (ci i : Nat) (l : LCore) (e d : QE) (c cd : CapD) (o : MmaOps) (s : State) : Option State :=
  let level := imgLevel s
  let part := mPart c
  let (pm, pn) := partShape level l.hinge.mode
  let blocks := passBlocks o.m o.n pm pn
  let drop := fun (s : State) => modL ci (fun l => unbehind d.n .unread (dropEntry qM i (dropEntry qM (i + 1) l))) s
  if !mZero c && dForm cd ≠ 0 then some (partFault ci part e.pc cMM_FOLD (modL ci (fun l => dropEntry qM i (namedDims s c l)) s))
  else if !recReady d then none
  else
    match takePort l false s with
    | none => none
    | some s =>
      match drainCheck s l cd (recOf d) o.m o.n with
      | some code => some (partFault ci part d.pc code (drop (poisonWhere l cd o.m o.n (fun _ _ => true) s)))
      | none =>
        let bad := (enumFrom 0 blocks).find? fun b => (passBad o b.2.1 pm).isSome
        let measured := dForm cd == 2 && !typeIsMx (dType cd.dD) && (((recOf d).map recRead).map recMeasures).getD false
        let nGood := match bad with
          | some (k, _) => if measured then 0 else if level = 1 then k / 4 * 4 else k
          | none => blocks.length
        let (s', d', trap) := drainDo s ci l d cd (blocks.take nGood) o.m o.n pm pn (foldedOut s.mem c cd o)
        let poison := fun (sel : Nat → Bool) (s : State) =>
          poisonWhere l cd o.m o.n (fun r q => (enumFrom 0 blocks).any fun b => sel b.1 && inBlock b.2 pm pn r q) s
        match trap, bad with
        | some t, _ => some (partFault ci part d.pc t.code (drop (poison (fun k => t.poisons k || decide (nGood ≤ k)) s')))
        | none, some _ => some (partFault ci part e.pc cMM_SP24 (drop (poison (fun k => decide (nGood ≤ k)) s')))
        | none, none =>
          let arrays := partArrays level l.hinge.mode part
          let l' := accClear arrays 0 (accClear arrays 1 l)
          let l' := { l' with accDims := smErase (smErase l'.accDims (2 * part)) (2 * part + 1) }
          let l' := setEntry qM i { e with started := true, paired := true } (setEntry qM (i + 1) { d' with paired := true } l')
          some (setL ci l' s')

/-- An MMA that needs more than one pass, as far as its operands name M and N (R153). -/
def mmaFolded (s : State) (l : LCore) (c : CapD) : Bool :=
  let shape := partShape (imgLevel s) l.hinge.mode
  match mmaExtent s l c with
  | some e => decide (shape.1 < e.1 ∨ shape.2 < e.2)
  | none => false

/-- The DRAIN of the same partition behind a folded MMA, which it pairs with (R153). -/
def pairBehind (part : Nat) (d : QE) : Option CapD :=
  match d.pl with
  | .ins cd => if cd.op = 1 ∧ mPart cd = part then some cd else none
  | _ => none

/-- Starts an MMA that fits one pass (R152, R165). -/
def startSingle (ci i : Nat) (l : LCore) (e : QE) (c : CapD) (o : MmaOps) (s : State) : Option State :=
  let level := imgLevel s
  let part := mPart c
  match takePort l false s with
  | none => none
  | some s =>
    match passBad o 0 (partShape level l.hinge.mode).1 with
    | some kg =>
      some (partFault ci part e.pc cMM_SP24 (modL ci (fun l => dropEntry qM i l)
        (setL ci (setDims part (mSet c) (o.m, o.n) (mmaSingle l c o level kg)) s)))
    | none =>
      let l' := setDims part (mSet c) (o.m, o.n) (mmaSingle l c o level (ceilDiv o.k o.g))
      some (setL ci (setEntry qM i { e with started := true } l') s)

/-- Starts an MMA at the head of the M queue: the start, and with it each check of R611, comes for a folded one only once the entry
behind it exists, or once nothing can be issued there (R153). -/
def startMma (ci i : Nat) (l : LCore) (e : QE) (c : CapD) (s : State) : Option State :=
  let part := mPart c
  let folded := mmaFolded s l c
  let drop := fun (s : State) => modL ci (fun l => dropEntry qM i l) s
  let fault := fun (code : Code) => partFault ci part e.pc code (drop (setL ci (namedDims s c l) s))
  if l.partStop.contains part then some (drop (setL ci (namedDims s c l) s))
  else if mBlocked l c folded i then none
  else
    match (queue l qM)[i + 1]?, folded with
    | none, true => if e.err.isSome then some (fault cMM_FOLD) else none
    | behind, _ =>
      match mmaOps s l c with
      | .error code => some (fault code)
      | .ok o =>
        if !folded then startSingle ci i l e c o s
        else match behind.bind fun d => (pairBehind part d).map fun cd => (d, cd) with
          | some (d, cd) => startPair ci i l e d c cd o s
          | none => some (fault cMM_FOLD)

/-- HINGE (R141): once nothing is left before it, the mode and tags are set, the accumulators cleared and the partitions
restarted. -/
def startHinge (ci i : Nat) (l : LCore) (e : QE) (c : CapD) (s : State) : Option State :=
  if i ≠ 0 then none
  else
    let h : Hinge := ⟨bits c.ctrl 0 3, (List.range 4).map fun k => bits c.xa.toNat (16 * k) 16⟩
    some (setL ci (setEntry qM i { e with started := true } { accClearAll l with hinge := h }) s)

/-- ACLR (R158), in the model complete as it starts. -/
def startAclr (ci i : Nat) (l : LCore) (c : CapD) (s : State) : Option State :=
  let part := mPart c
  if l.partStop.contains part then some (setL ci (dropEntry qM i l) s)
  else if mBlocked l c false i then none
  else
    let arrays := if imgLevel s = 1 then [0] else partArrays (imgLevel s) l.hinge.mode part
    some (setL ci (dropEntry qM i (accClear arrays (mSet c) l)) s)

/-- Starts the next instruction of the M queue, if it can start (R140, R157). -/
def startM (ci : Nat) (s : State) : Option State :=
  match getL s ci with
  | none => none
  | some l =>
    if !coreRuns s l then none
    else match headOf l qM with
      | none => none
      | some (i, e) =>
        match e.pl with
        | .ins c =>
          if ((queue l qM).take i).any (fun b => match b.pl with | .ins x => x.op == 2 | _ => false) then none
          else if c.op = 2 then startHinge ci i l e c s
          else if partCount (imgLevel s) l.hinge.mode ≤ mPart c then some (programFault ci qM e.pc cMM_PART s)
          else if c.op = 0 then startMma ci i l e c s
          else if c.op = 1 then startDrain ci i l e c s
          else startAclr ci i l c s
        | _ => none

end Sys2Proof.Machine
end

