-- ==== Sys2Proof/Machine/Catch.lean ====
section
/-! DEFINITION. Catches, and the waits of the C and F queues (R65 to R67, R116 to R124). -/
namespace Sys2Proof.Machine

/-! ### Catch address words (R116, R122) -/

def cwIndex (w : Word) : Nat := bits w.toNat 0 7
def cwLcore (w : Word) : Nat := bits w.toNat 16 8
def cwRemote (w : Word) : Bool := w.getLsbD 24
def cwMember (w : Word) : Member := BitVec.ofNat 16 (bits w.toNat 32 6 * 256 + bits w.toNat 38 8)
def cwZero (w : Word) : Bool := bits w.toNat 7 9 == 0 && bits w.toNat 25 7 == 0 && bits w.toNat 46 18 == 0

/-- LOGICAL_CORES of the image. -/
def lcoreCount (s : State) : Nat := match s.img with
  | some i => i.lcores
  | none => 0

/-- What makes a CSIG raise `CATCH_RANGE` at issue. -/
def csigBad (s : State) (w : Word) : Bool := !cwZero w || (!cwRemote w && decide (lcoreCount s ≤ cwLcore w))

/-! ### Conditions on masked queues (R66, R67, R115) -/

/-- An entry is an instruction, and no wait marker. -/
def isMark : Payload → Bool
  | .mark _ => true
  | _ => false

/-- The queue of a wait: F for a FWAIT, else C. -/
def waitQueue : Payload → Nat
  | .wait (.time _) _ => qF
  | _ => qC

/-- Every instruction with an issue number below `n`, in the queues of a mask, has completed. A CWAIT or FWAIT is an instruction of its
own queue and completes when its wait ends, also when it has left the queue; its markers in other queues are no instructions (DEDUCED,
assumption 56). -/
def queuesDone (l : LCore) (mask n : Nat) : Bool :=
  ((enumFrom 0 l.qs).all fun p => !mask.testBit p.1 || p.2.all fun e => isMark e.pl || decide (n ≤ e.n)) &&
  (l.waits.all fun e => !mask.testBit (waitQueue e.pl) || decide (n ≤ e.n)) &&
  (!mask.testBit qG || l.greds.all fun g => decide (n ≤ g.n))

/-! ### Waits (R119, R123) -/

def waitMask : Payload → Nat
  | .wait _ m => m
  | _ => 0

/-- Other queues that a wait of queue `q` marks; S has no entry, since the wait stops issue. -/
def markedQueues (q mask : Nat) : List Nat := [qM, qT, qV, qX, qC, qK, qG, qF].filter fun k => k != q && mask.testBit k

/-- Places a wait of queue `q`: its entry, its markers, and the stop of issue when QMASK includes S; none where a queue it
needs is full. -/
def placeWait (l : LCore) (q : Nat) (on : WaitOn) (mask : Nat) : Option LCore :=
  let qs := q :: markedQueues q mask
  if qs.all (queueRoom l) then
    let l' := (markedQueues q mask).foldl (fun l' k => pushQ k (newEntry l (.mark l.seq)) l') (pushQ q (newEntry l (.wait on mask)) l)
    some { nextWord l' with block := if mask.testBit qS then some (.wait l.seq) else none,
                            emptyAt := if mask.testBit qS then l'.emptyAt ++ [l.seq] else l'.emptyAt }
  else none

/-- Arms a wait that has reached the head of its queue: it stays there when its QMASK includes the queue, else it leaves. It leaves,
and can end, only from the head, although its markers stand from its issue on: the queue executes in the order issued (R64, R119;
DEDUCED, assumption 57). -/
def armWait (ci q i : Nat) (l : LCore) (e : QE) (s : State) : State :=
  if (waitMask e.pl).testBit q then setL ci (setEntry q i { e with started := true } l) s
  else setL ci { dropEntry q i l with waits := l.waits ++ [{ e with started := true }] } s

/-- The wait with issue number `n` has ended: its markers and entries leave, and issue goes on. -/
def endWait (n : Nat) (l : LCore) : LCore :=
  { l with qs := l.qs.map fun es => es.filter fun e => match e.pl with
             | .mark k => k != n
             | .wait _ _ => e.n != n
             | _ => true,
           waits := l.waits.filter fun e => e.n != n,
           block := if l.block = some (.wait n) then none else l.block }

/-- Armed waits, oldest first. -/
def armedWaits (l : LCore) : List QE :=
  (l.waits ++ (queue l qC ++ queue l qF).filter fun e => e.started).mergeSort fun a b => a.n ≤ b.n

/-- The oldest armed CWAIT on catch `idx`, once the catch is reached. -/
def reachedWait (l : LCore) (idx : Nat) : Option QE :=
  if !catchReached (catchOf l idx) then none
  else (armedWaits l).find? fun e => match e.pl with
    | .wait (.reach i) _ => i == idx
    | _ => false

/-- A wait on a system time is over: the die's replica has reached it, in LOCKED or HOLDOVER (R47, R123). -/
def timeReached (s : State) (die : Nat) (t : Word) : Bool := isLocked s && decide (t.toNat ≤ (replicaTime s die).toNat)

/-- System time of a FWAIT. -/
def waitTime (e : QE) : Nat := match e.pl with
  | .wait (.time t) _ => t.toNat
  | _ => 0

/-- Armed FWAITs whose time is reached, oldest first. -/
def reachedTimes (s : State) (l : LCore) : List QE :=
  (armedWaits l).filter fun e => match e.pl with
    | .wait (.time t) _ => timeReached s l.die t
    | _ => false

/-- The one of them that fires first: the earliest time, the oldest on a tie (R51, R123). -/
def firedWait (s : State) (l : LCore) : Option QE :=
  (reachedTimes s l).foldl (fun m e => match m with
    | some x => if waitTime e < waitTime x then some e else some x
    | none => some e) none

/-! ### The C queue (R117) -/

/-- Starts the next instruction of the C queue: CSET and CREAD complete at once, a CWAIT is armed, a CSIG waits to be sent. -/
def startC (ci : Nat) (s : State) : Option State :=
  match getL s ci with
  | none => none
  | some l =>
    if !coreRuns s l then none
    else match queue l qC with
      | [] => none
      | e :: _ =>
        match e.pl with
        | .cset i t rearm clear =>
          let k := catchOf l i
          some (setL ci (dropEntry qC 0 (setCatch i ⟨if clear then 0 else k.counter, t, rearm⟩ l)) s)
        | .cread xd i => some (setL ci (writeX (BitVec.ofNat 6 xd) ((catchOf l i).counter.zeroExtend 64) (dropEntry qC 0 l)) s)
        | .wait _ _ => if e.started then none else some (armWait ci qC 0 l e s)
        | _ => none

end Sys2Proof.Machine
end

