-- ==== Sys2Proof/Machine/Keyway.lean ====
section
/-! DEFINITION. The Keyway (R331 to R364): routing keys, KROUTE, dispatch and answer, combine buffers, inboxes, and the K queue. -/
namespace Sys2Proof.Machine

/-! ### Faults (R360, R362) -/

def kwyCode (code : Code) : Option Nat :=
  if code = cKW_SHAPE then some 1 else if code = cKW_LAYER then some 2 else if code = cKW_BUFFER then some 3
  else if code = cKW_EPOCH then some 4 else if code = cKW_TABLE then some 5 else none

/-- A Keyway fault of an instruction: `KWY_LAST`, then R270. `aux` is the CODE of a bad record, which goes with the fault record (R354). -/
def kFault (ci pc op : Nat) (code : Code) (aux : Nat) (s : State) : State :=
  match getL s ci with
  | none => s
  | some l =>
    let d := l.phys / 32
    let (k, s) := match kwyCode code with
      | some k => (k, s)
      | none => ((freeNow s).toNat, freeStep s)
    unitFaultAux ci qK pc code aux
      (addFld (KWY_LAST_FAULTS d) 1 (setFld (KWY_LAST_OP d) op (setFld (KWY_LAST_CORE d) (l.phys % 32) (setFld (KWY_LAST_CODE d) k s))))

/-! ### Layers (R333) -/

def layerOk (v : Layer) : Bool :=
  v.zeroOk && decide (1 ≤ v.experts ∧ v.experts ≤ 4096 ∧ 1 ≤ v.k ∧ v.k ≤ 8 ∧ v.k ≤ v.experts ∧ 1 ≤ v.epw ∧ v.epw ≤ 4096 ∧
    1 ≤ v.quota ∧ v.quota ≤ 4096 ∧ 1 ≤ v.sources ∧ v.sources ≤ 4194304 ∧ 64 ≤ v.rowBytes ∧ v.rowBytes ≤ 4096 ∧
    v.rowBytes % 64 = 0 ∧ v.wardBase + (v.experts - 1) / v.epw < 64)

/-- Layer entry `n` of the image, when it meets R333. -/
def layerOf (s : State) (n : Nat) : Option Layer := (s.img.bind fun i => i.layers[n]?).filter layerOk

/-! ### KROUTE (R334 to R340) -/

/-- Probe sequence of a token (R334, R335). -/
def probeSeq (v : Layer) (n id : Nat) : List Nat :=
  let h := sipHash16 v.k0.toNat v.k1.toNat id n
  let a := h % 2 ^ 32
  let b := h / 2 ^ 32 % 2 ^ 32 / 2 * 2 + 1
  (List.range 16).map fun j => v.experts * ((a + j * b) % 2 ^ 32) / 2 ^ 32

/-- One rank's outcome: status, expert, slot. -/
structure Choice where
  status : Nat
  expert : Nat
  slot : Nat
  deriving DecidableEq, Repr

/-- What routing one token carries from rank to rank. -/
structure RouteSt where
  seq : List Nat
  tried : List Nat
  counts : Nat → Nat

/-- The choice of one rank (R337): `left` is what remains of the probe sequence. -/
def routeRank (drop : Bool) (limit quota : Nat) : List Nat → List Nat → (Nat → Nat) → Choice × RouteSt
  | [], tried, cs => (⟨2, 0, 0⟩, ⟨[], tried, cs⟩)
  | e :: left, tried, cs =>
    if tried.length = limit then (⟨2, 0, 0⟩, ⟨e :: left, tried, cs⟩)
    else if tried.contains e then routeRank drop limit quota left tried cs
    else if cs e < quota then
      (⟨0, e, cs e⟩, ⟨left, e :: tried, fun x => if x = e then cs e + 1 else cs x⟩)
    else if drop then (⟨1, e, 0⟩, ⟨left, e :: tried, cs⟩)
    else routeRank drop limit quota left (e :: tried) cs

def routeRanks (drop : Bool) (limit quota : Nat) : Nat → RouteSt → List Choice × RouteSt
  | 0, st => ([], st)
  | n + 1, st =>
    let (c, st) := routeRank drop limit quota st.seq st.tried st.counts
    let (cs, st) := routeRanks drop limit quota n st
    (c :: cs, st)

/-- A choice record (R338), as its 16 words. -/
def choiceWords (v : Layer) (n tries : Nat) (cs : List Choice) : List Nat :=
  let acc := (cs.filter fun c => c.status == 0).length
  let ws := (enumFrom 0 cs).map fun p =>
    p.2.expert + p.1 * 2 ^ 12 + (if p.2.status = 0 then 2 ^ 15 else 0) + p.2.slot * 2 ^ 16 + p.2.status * 2 ^ 28
  (v.k + acc * 16 + tries * 256 + n * 65536) :: ws ++ List.replicate (15 - ws.length) 0

/-- The valid positions of dimension 0 of a rank-1 tensor. -/
def validList (d : Desc) : List Nat := (List.range (dEnd d 0 - dLo d 0)).map fun i => dLo d 0 + i

def inOwn (l : LCore) (d : Desc) : Bool := let e := extent d; inOwnScratch l e.1 e.2

/-- Quota counters (R336): rank 1, FP32 words, own scratch, a valid window of at least E elements. -/
def countersOk (l : LCore) (d : Desc) (experts : Nat) : Bool :=
  dType d == 0 && dRank d == 1 && !dSparse d && inOwn l d && decide (experts ≤ dEnd d 0 - dLo d 0)

/-- Choice records or slot headers: rank 2, FP32 words, own scratch, 16 elements by at least `n` rows. -/
def recordsOk (l : LCore) (d : Desc) (n : Nat) : Bool :=
  dType d == 0 && dRank d == 2 && !dSparse d && inOwn l d && dLen d 0 == 16 && decide (n ≤ dLen d 1)

/-- Counter of expert `e`: the counters begin at the first valid element. -/
def counterAt (m : Mem) (d : Desc) (e : Nat) : Nat := elemAt m d [dLo d 0 + e]

/-- Writes a row of 32-bit words where it is valid. -/
def putRow (d : Desc) (row : Nat) (ws : List Nat) (m : Mem) : Mem :=
  (enumFrom 0 ws).foldl (fun m p => if posValid d [p.1, row] then putElem d [p.1, row] p.2 m else m) m

/-- Routes one token: its choice record and the counters after it, in memory. -/
def routeToken (drop : Bool) (v : Layer) (n : Nat) (c : CapD) (m : Mem) (id row : Nat) : Mem × Nat × Nat :=
  let limit := if drop then v.k else 2 * v.k
  let (cs, st) := routeRanks drop limit v.quota v.k ⟨probeSeq v n id, [], fun e => counterAt m c.dC e⟩
  let m := cs.foldl (fun m x => if x.status = 0 then putElem c.dC [dLo c.dC 0 + x.expert] (x.slot + 1) m else m) m
  (putRow c.dD row (choiceWords v n st.tried.length cs) m, (cs.filter fun x => x.status != 0).length,
   (cs.filter fun x => x.status == 2).length)

def krouteErr (s : State) (l : LCore) (c : CapD) : Option Code :=
  let shape0 := dType c.dA == 0 && dRank c.dA == 1 && !dSparse c.dA && inOwn l c.dA &&
    recordsOk l c.dD (validList c.dA).length && dType c.dC == 0 && dRank c.dC == 1 && !dSparse c.dC && inOwn l c.dC
  if !shape0 then some cKW_SHAPE
  else match layerOf s c.xa.toNat with
    | none => some cKW_LAYER
    | some v => if countersOk l c.dC v.experts then none else some cKW_SHAPE

def krouteRun (s : State) (l : LCore) (c : CapD) : State :=
  match layerOf s c.xa.toNat with
  | none => s
  | some v =>
    let m := if c.ctrl.testBit 0 then (List.range v.experts).foldl (fun m e => putElem c.dC [dLo c.dC 0 + e] 0 m) s.mem else s.mem
    let drop := fld s (KWY_CAP_MODE l.die) == 0
    let ids := (validList c.dA).map fun p => elemAt s.mem c.dA [p]
    let (m, dropped, nones) := (enumFrom 0 ids).foldl (fun (acc : Mem × Nat × Nat) p =>
      let (m, d, k) := routeToken drop v c.xa.toNat c acc.1 p.2 p.1
      (m, acc.2.1 + d, acc.2.2 + k)) (m, 0, 0)
    addFld (KWY_COUNT_NONE l.die) nones (addFld (KWY_COUNT_DROPPED l.die) dropped { s with mem := m })

/-! ### Combine buffers (R351 to R353) -/

structure CBuf where
  addr : Nat
  epoch : Nat
  advances : Nat
  rank : Nat
  records : Nat
  rowBytes : Nat
  k : Nat
  layer : Nat
  zeroOk : Bool
  deriving DecidableEq, Repr

def bufRead (m : Mem) (a : Nat) : CBuf :=
  let b := m.bytes a 64
  ⟨a, bodyNat b 0 2, bodyNat b 2 2, bodyNat b 4 4, bodyNat b 8 4, bodyNat b 0xC 4, bodyNat b 0x10 1, bodyNat b 0x11 1,
   bodyNat b 0x12 46 == 0⟩

def bufStride (b : CBuf) : Nat := 64 + b.k * b.rowBytes
def recAddr (b : CBuf) (i : Nat) : Nat := b.addr + 64 + i * bufStride b
def slotAt (b : CBuf) (i r : Nat) : Nat := recAddr b i + 64 + r * b.rowBytes

def recEpoch (m : Mem) (a : Nat) : Nat := m.readN a 2
def recExpected (m : Mem) (a : Nat) : Nat := (m.read (a + 2)).toNat
def recArrived (m : Mem) (a : Nat) : Nat := (m.read (a + 3)).toNat
def recDone (m : Mem) (a : Nat) : Bool := recExpected m a == recArrived m a

/-- `KW_BUFFER` for a buffer of layer `v` whose records `first` to `first + n − 1` are named (R360). -/
def bufBad (s : State) (l : LCore) (b : CBuf) (v : Layer) (first n : Nat) : Bool :=
  b.addr % 64 != 0 || dieOfAddr b.addr != l.die || !hbmRange s.fuses b.addr (64 + b.records * bufStride b) ||
  !inKind s 1 b.addr (64 + b.records * bufStride b) || !b.zeroOk || b.k != v.k ||
  !(b.rowBytes == v.rowBytes || b.rowBytes == 2 * v.rowBytes) || decide (v.sources ≤ b.rank ∨ b.records < first + n)

/-- The header of a buffer can be read. -/
def bufReadable (s : State) (a : Nat) : Bool := hbmRange s.fuses a 64

/-! ### Packets (R343) -/

/-- The module of an ORIGIN. -/
def originOf (p : KwyPkt) : Member := BitVec.ofNat 16 (bits p.origin.toNat 0 14)

/-- Sends a Keyway packet from die `die`; one for this module is delivered (R344, R386). -/
def kwySend (die : Nat) (dest : Member) (destDie tag : Nat) (k : KwyPkt) (s : State) : Option State :=
  let p := mkPacket s 2 dest destDie die tag (.keyway k)
  if destDie = 14 then (if memberWard dest = fld s FAB_ID_WARD then some (deliver p s) else sendFrom die p s)
  else if dest = ownId s then some (deliver p s) else sendFrom die p s

/-! ### KSEND (R342, R348, R350, R352) -/

def ksAnswer (c : CapD) : Bool := c.ctrl.testBit 0
def ksClose (c : CapD) : Bool := c.ctrl.testBit 1
def ksFirst (c : CapD) : Nat := bits c.ctrl 2 16
def ksEpoch (c : CapD) : BitVec 16 := BitVec.ofNat 16 c.xb.toNat

/-- Rows of dA's valid window. -/
def rowsOf (d : Desc) : Nat := dEnd d 1 - dLo d 1
/-- Bytes of row `i` of dA's valid window, padded as R255 sets out. -/
def rowBytesOf (m : Mem) (d : Desc) (i : Nat) : List Byte :=
  (List.range (dLen d 0)).flatMap fun k => leBytes (dBits d / 8) (elemPad m (dZeroPad d) d [k, dLo d 1 + i])

/-- Word `w` of choice record or slot header `i`. -/
def recWord (m : Mem) (d : Desc) (i w : Nat) : Nat := elemPad m (dZeroPad d) d [w, i]

def ksRowsOk (l : LCore) (d : Desc) : Bool :=
  (dType d == 0 || dType d == 1) && dRank d == 2 && !dSparse d && inOwn l d

/-- The check of a dispatch (R342, R352, R360). -/
def ksendErr (s : State) (l : LCore) (c : CapD) : Option Code :=
  let n := rowsOf c.dA
  if !ksRowsOk l c.dA || !recordsOk l c.dB n then some cKW_SHAPE
  else if !bufReadable s c.xa.toNat then some cKW_BUFFER
  else
    let b := bufRead s.mem c.xa.toNat
    match layerOf s b.layer with
    | none => some cKW_LAYER
    | some v =>
      if dLen c.dA 0 * dBits c.dA / 8 ≠ v.rowBytes ∨ (ksClose c ∧ ¬ countersOk l c.dC v.experts) then some cKW_SHAPE
      else if bufBad s l b v (ksFirst c) n ||
          ((List.range n).any fun i => let w := recWord s.mem c.dB i 0; w % 16 != b.k || bits w 16 8 != b.layer) then some cKW_BUFFER
      else if ksEpoch c ≠ BitVec.ofNat 16 b.epoch then some cKW_EPOCH
      else none

/-- The accepted ranks of a choice record: rank, expert, slot. -/
def acceptedRanks (m : Mem) (d : Desc) (i k : Nat) : List (Nat × Nat × Nat) :=
  ((List.range k).map fun r => (r, recWord m d i (1 + r))).filter (fun p => bits p.2 15 1 == 1) |>.map
    fun p => (p.1, bits p.2 0 12, bits p.2 16 12)

def baseKwy (s : State) (ci : Nat) (b : CBuf) (v : Layer) (c : CapD) (e : Nat) : KwyPkt :=
  { kind := 0, attempt := BitVec.ofNat 8 s.step.attempt, step := BitVec.ofNat 16 (fld s RDU_STEP_STAT_STEP), epoch := ksEpoch c,
    layer := b.layer, rank := 0, resolved := false, rowType := BitVec.ofNat 4 (dType c.dA), expert := e,
    dWard := v.wardBase + e / v.epw, dModule := 0, dLcore := 0, origin := BitVec.ofNat 32 ((ownId s).toNat + ci * 65536),
    sourceRank := b.rank, combine := b.addr, record := 0, slot := 0, inbox := 0, code := 0, row := [] }

/-- Sends packets of a logical core, whose number is their tag, in order; the state as far as it came, and whether every one had a route. -/
def kwySendAll (die tag : Nat) : List (Member × Nat × KwyPkt) → State → State × Bool
  | [], s => (s, true)
  | (m, dd, k) :: ps, s => match kwySend die m dd tag k s with
    | none => (s, false)
    | some s => kwySendAll die tag ps (if k.kind = 0 then addFld (KWY_TRAFFIC_DISPATCHED die) 1 s else s)

def dispatchPkts (s : State) (ci : Nat) (b : CBuf) (v : Layer) (c : CapD) (i : Nat) : List (Member × Nat × KwyPkt) :=
  (acceptedRanks s.mem c.dB i b.k).map fun q =>
    let k := baseKwy s ci b v c q.2.1
    (BitVec.ofNat 16 (k.dWard * 256), 14, { k with rank := q.1, record := ksFirst c + i, slot := q.2.2, row := rowBytesOf s.mem c.dA i })

/-- RECORD of a close, which names no record: by it the origin tells the refusal of a close from that of a dispatch, which the manual's
header does not (R359; DESIGN CHOICE, assumption 76). -/
def closeRecord : Nat := 0xFFFFFFFF

def closePkts (s : State) (ci : Nat) (b : CBuf) (v : Layer) (c : CapD) : List (Member × Nat × KwyPkt) :=
  (List.range v.experts).map fun e =>
    let k := baseKwy s ci b v c e
    (BitVec.ofNat 16 (k.dWard * 256), 14, { k with kind := 2, record := closeRecord, slot := counterAt s.mem c.dC e })

/-- The record header that a dispatch writes (R352). -/
def recordHeader (m : Mem) (c : CapD) (b : CBuf) (i : Nat) : List Byte :=
  leBytes 2 (ksEpoch c).toNat ++ leBytes 1 ((acceptedRanks m c.dB i b.k).foldl (fun v q => v + 2 ^ q.1) 0) ++ leBytes 61 0

/-- Rows of a dispatch in order: the record header, then the packets; stops at the first without a route. -/
def ksendRows (ci : Nat) (l : LCore) (b : CBuf) (v : Layer) (c : CapD) : Nat → Nat → State → State × Bool
  | 0, _, s => (s, true)
  | n + 1, i, s =>
    let s := hbmPut (recAddr b (ksFirst c + i)) (recordHeader s.mem c b i) s
    let (s, ok) := kwySendAll l.die ci (dispatchPkts s ci b v c i) s
    if ok then ksendRows ci l b v c n (i + 1) s else (s, false)

/-- The headers of an answer's rows. -/
def answerHeader (m : Mem) (c : CapD) (i : Nat) : KwyPkt :=
  kwyParse ((List.range 16).flatMap fun w => leBytes 4 (recWord m c.dB i w))

def kanswerErr (s : State) (l : LCore) (c : CapD) : Option Code :=
  let n := rowsOf c.dA
  if !ksRowsOk l c.dA || !recordsOk l c.dB n then some cKW_SHAPE
  else
    let vs := (List.range n).map fun i => layerOf s (answerHeader s.mem c i).layer
    if vs.any fun v => (v.map fun x => x.rowBytes != dLen c.dA 0 * dBits c.dA / 8) == some true then some cKW_SHAPE
    else if vs.any Option.isNone then some cKW_LAYER
    else none

/-- Answer packets (R350): with the header's origin, record, rank, EPOCH, STEP and ATTEMPT. -/
def answerPkts (s : State) (c : CapD) : List (Member × Nat × KwyPkt) :=
  (List.range (rowsOf c.dA)).map fun i =>
    let h := answerHeader s.mem c i
    (originOf h, dieOfAddr h.combine, { h with kind := 1, rowType := BitVec.ofNat 4 (dType c.dA), code := 0, row := rowBytesOf s.mem c.dA i })

/-! ### KCOMB (R354) and KEPOCH (R355) -/

def kcFirst (c : CapD) : Nat := bits c.ctrl 2 16

def kcombErr (s : State) (l : LCore) (c : CapD) : Option Code :=
  let d := c.dD
  if dType d != 0 || dRank d != 2 || dSparse d || !inOwn l d then some cKW_SHAPE
  else if !bufReadable s c.xa.toNat then some cKW_BUFFER
  else
    let b := bufRead s.mem c.xa.toNat
    if dLen d 0 * 4 ≠ b.rowBytes then some cKW_SHAPE
    else match layerOf s b.layer with
      | none => some cKW_LAYER
      | some v => if bufBad s l b v (kcFirst c) (rowsOf d) then some cKW_BUFFER else none

/-- Every record in KCOMB's range has all its answers. -/
def kcombReady (s : State) (c : CapD) : Bool :=
  let b := bufRead s.mem c.xa.toNat
  (List.range (rowsOf c.dD)).all fun i => recDone s.mem (recAddr b (kcFirst c + i))

/-- One element of a combined row: the slots of the accepted ranks, summed in rank order. -/
def combElem (m : Mem) (b : CBuf) (i j : Nat) : F32 :=
  let w := frcp (f32Of (.fin false b.k 0))
  (List.range b.k).foldl (fun acc r =>
    if (recExpected m (recAddr b i)).testBit r then ffma w (BitVec.ofNat 32 (m.readN (slotAt b i r + 4 * j) 4)) acc else acc) 0

/-- Writes the rows in order; the fault of the first bad record, with the CODE that the record holds. -/
def kcombRows (b : CBuf) (c : CapD) : Nat → Nat → Mem → Mem × Option (Code × Nat)
  | 0, _, m => (m, none)
  | n + 1, i, m =>
    let r := kcFirst c + i
    if recEpoch m (recAddr b r) ≠ b.epoch then (m, some (cKW_EPOCH, 0))
    else if (m.read (recAddr b r + 4)).getLsbD 0 then (m, some (cKW_TABLE, m.readN (recAddr b r + 6) 2))
    else
      let row := dLo c.dD 1 + i
      kcombRows b c n (i + 1) ((List.range (dLen c.dD 0)).foldl (fun acc j =>
        if posValid c.dD [j, row] then putElem c.dD [j, row] (combElem m b r j).toNat acc else acc) m)

def kepochErr (s : State) (l : LCore) (c : CapD) : Option Code :=
  if !bufReadable s c.xa.toNat then some cKW_BUFFER
  else
    let b := bufRead s.mem c.xa.toNat
    match layerOf s b.layer with
    | none => some cKW_LAYER
    | some v => if bufBad s l b v 0 0 then some cKW_BUFFER else if b.advances = 65535 then some cKW_EPOCH else none

/-- Every record of the epoch that the last KEPOCH replaced is drained. -/
def kepochDrained (s : State) (c : CapD) : Bool :=
  let b := bufRead s.mem c.xa.toNat
  let old := (b.epoch + 65535) % 65536
  (List.range b.records).all fun i => recEpoch s.mem (recAddr b i) != old || recDone s.mem (recAddr b i)

/-! ### The K queue -/

/-- An instruction at the head that fails leaves the queue and raises its fault. -/
def kFail (ci i : Nat) (e : QE) (c : CapD) (code : Code) (s : State) : State :=
  kFault ci e.pc c.op code 0 (modL ci (dropEntry qK i) s)

/-- KCOMB once its records are complete. -/
def kcombDo (ci i : Nat) (e : QE) (c : CapD) (s : State) : State :=
  let b := bufRead s.mem c.xa.toNat
  let (m, code) := kcombRows b c (rowsOf c.dD) 0 s.mem
  let s := { s with mem := m }
  match code with
  | some (code, aux) => kFault ci e.pc c.op code aux (modL ci (dropEntry qK i) s)
  | none => modL ci (dropEntry qK i) s

/-- Writes that a K instruction makes in HBM, which wait as R399 sets out. -/
def kWrites (s : State) (c : CapD) : List (Nat × Nat) :=
  let b := bufRead s.mem c.xa.toNat
  if c.op = 1 && !ksAnswer c then (List.range (rowsOf c.dA)).map fun i => (recAddr b (ksFirst c + i), 64)
  else if c.op = 3 then [(b.addr, 4)] else []

def kBegun (ci i : Nat) (e : QE) (s : State) : State := modL ci (setEntry qK i { e with started := true }) s

/-- Runs a checked K instruction. -/
def kDo (ci i : Nat) (l : LCore) (e : QE) (c : CapD) (s : State) : State :=
  let b := bufRead s.mem c.xa.toNat
  match c.op with
  | 0 => modL ci (dropEntry qK i) (krouteRun s l c)
  | 1 =>
    if ksAnswer c then
      let (s, ok) := kwySendAll l.die ci (answerPkts s c) s
      if ok then kBegun ci i e s else kFail ci i e c cFAB_NOROUTE s
    else match layerOf s b.layer with
      | none => s
      | some v =>
        let (s, ok) := ksendRows ci l b v c (rowsOf c.dA) 0 s
        let (s, ok) := if ok && ksClose c then kwySendAll l.die ci (closePkts s ci b v c) s else (s, ok)
        if ok then kBegun ci i e s else kFail ci i e c cFAB_NOROUTE s
  | 2 => if kcombReady s c then kcombDo ci i e c s else kBegun ci i e s
  | _ => kBegun ci i e (hbmPut b.addr (leBytes 2 (b.epoch + 1) ++ leBytes 2 (b.advances + 1)) s)

def kErr (s : State) (l : LCore) (c : CapD) : Option Code :=
  match c.op with
  | 0 => krouteErr s l c
  | 1 => if ksAnswer c then kanswerErr s l c else ksendErr s l c
  | 2 => kcombErr s l c
  | _ => kepochErr s l c

/-- Starts the head of the K queue; an instruction behind one that is not complete waits (R64, R355). -/
def startK (ci : Nat) (s : State) : Option State :=
  match getL s ci with
  | none => none
  | some l =>
    if !coreRuns s l then none
    else match queue l qK with
      | [] => none
      | e :: _ =>
        match e.pl with
        | .ins c =>
          if e.started then none
          else match takePort l true s with
            | none => none
            | some s => match kErr s l c with
              | some code => some (kFail ci 0 e c code s)
              | none => match latAwait (kWrites s c) s with
                | some r => r
                | none => some (kDo ci 0 l e c s)
        | _ => none

/-! ### The ward-local expert table (R344, R345) -/

/-- Entry (n, e) as die `d`'s resolver reads it: from its cache, else from HBM into the cache. -/
def kwyEntry (d n e : Nat) (s : State) : Word × State :=
  let key := d * 2 ^ 20 + n * 4096 + e
  match smFind s.kwyCache key with
  | some w => (w, s)
  | none =>
    let w := BitVec.ofNat 64 (s.mem.readN (fld s (KWY_WLT_BASE d) * 64 + (n * 4096 + e) * 8) 8)
    (w, { s with kwyCache := smPut s.kwyCache key w })

/-- A refusal of a dispatch or close, back to its origin (R359). -/
def kwyRefuse (d : Nat) (p : KwyPkt) (s : State) : State :=
  let k : KwyPkt := { p with kind := 3, code := cKW_TABLE, row := [] }
  (kwySend d (originOf p) (dieOfAddr p.combine) 0 k s).getD s

/-! ### The inbox (R346, R347) -/

/-- Address of source entry `r`. -/
def srcEntryAt (p : KwyPkt) : Nat := p.inbox + 0x40 + 4 * p.sourceRank
def inboxSlotAt (v : Layer) (p : KwyPkt) : Nat :=
  p.inbox + 0x40 + roundUp (4 * v.sources) 64 + (64 + v.rowBytes) * (p.sourceRank * v.quota + p.slot)

/-- A source entry after a row (`close` none) or a close with its count; DONE set first zeroes it. -/
def srcEntryNext (w : Nat) (close : Option Nat) : Nat × Bool :=
  let w := if w.testBit 27 then 0 else w
  let w := match close with
    | none => putBits w 0 13 (bits w 0 13 + 1)
    | some n => putBits (putBits w 13 13 n) 26 1 1
  if w.testBit 26 && bits w 0 13 == bits w 13 13 then (putBits w 27 1 1, true) else (w, false)

/-- Applies a row or close to its source entry, and signals the close catch when the source is done. -/
def srcEntryApply (d : Nat) (p : KwyPkt) (close : Option Nat) (s : State) : State :=
  let a := srcEntryAt p
  let (w, done) := srcEntryNext (s.mem.readN a 4) close
  let s := hbmPut a (leBytes 4 w) s
  if done then
    let (t, s) := kwyEntry d p.layer p.expert s
    catchAdd p.dLcore (bits t.toNat 16 7) 1 s
  else s

/-- Whether bytes lie in a TRANSIENT region of the image and in present stacks (R359). -/
def inboxOk (s : State) (a n : Nat) : Bool := hbmRange s.fuses a n && inKind s 1 a n

/-! ### The combine unit (R353, R356, R359) -/

/-- A row as FP32 words: BF16 widened exactly. -/
def widenRow (ty : BitVec 4) (row : List Byte) : List Byte :=
  if ty = 0 then row else (List.range (row.length / 2)).flatMap fun i => leBytes 2 0 ++ (row.drop (2 * i)).take 2

/-- What the combine unit does with an answer or refusal of the open step and attempt. -/
def combineApply (d : Nat) (p : KwyPkt) (s : State) : State :=
  let b := bufRead s.mem p.combine
  let a := recAddr b p.record
  let bit := 2 ^ p.rank
  let expected := (recExpected s.mem a).testBit p.rank
  let arrived := (recArrived s.mem a).testBit p.rank
  let recEq := recEpoch s.mem a == p.epoch.toNat
  let mark := fun (s : State) => hbmPut (a + 3) [BitVec.ofNat 8 (recArrived s.mem a + bit)] s
  if p.kind = 3 ∧ p.record = closeRecord then s
  else if p.kind = 3 then
    if recEq && expected && !arrived then
      let s := mark s
      if b.epoch = p.epoch.toNat then hbmPut (a + 4) ([(s.mem.read (a + 4)) ||| 1, 0] ++ leBytes 2 p.code.toNat) s else s
    else s
  else if b.epoch ≠ p.epoch.toNat ∨ !recEq then
    let s := addFld (KWY_STALE_EPOCH d) 1 s
    if recEq && expected && !arrived then mark s else s
  else if !expected then s
  else if arrived then addFld (KWY_COUNT_DUPLICATE d) 1 s
  else addFld (KWY_TRAFFIC_ANSWERED d) 1 (mark (hbmPut (slotAt b p.record p.rank) ((widenRow p.rowType p.row).take b.rowBytes) s))

end Sys2Proof.Machine
end

