-- ==== Sys2Proof/Machine/StepOps.lean ====
section
/-! DEFINITION. Aborting an attempt of a step (R321 to R327, R437, R442): what every origin and receiver of a STEP_ABORT does. -/
namespace Sys2Proof.Machine

/-- A member's message for the open step and attempt. -/
def ownMsg (s : State) : MemberMsg := ⟨ownId s, BitVec.ofNat 64 s.step.next, BitVec.ofNat 8 s.step.attempt⟩
def ownKind (s : State) (k : LateKind) (bucket : BitVec 32) : KindMsg :=
  ⟨ownId s, BitVec.ofNat 64 s.step.next, BitVec.ofNat 8 s.step.attempt, k, bucket⟩

/-- Shares of a bucket that this module has launched, all of them. -/
def bucketLaunched (b : Bucket) : Bool := b.shares == b.launched.length

/-- The kind of an abort acknowledgement or deadline report (R321, R324): DONE when the module had voted, LATE when a share of
the bucket concerned, or of a bucket it has begun to launch, is not launched, else WAITING. -/
def lateKind (s : State) (bucket : BitVec 32) : LateKind :=
  if stepState s = 2 then .done
  else if bucket ≠ 0 then
    match s.step.buckets.find? fun b => b.id == bucket with
    | some b => if bucketLaunched b then .waiting else .late
    | none => .late
  else if s.step.buckets.any fun b => !bucketLaunched b then .late else .waiting

/-- The frame whose boundary closes the root's collection (R325), for an abort that leaves it now. -/
def closeFrame (s : State) : Nat :=
  if phaseNow s ≤ 65536 - fld s FRM_CTRL_COMMIT_LEAD then s.frame.f + 1 else s.frame.f + 2

/-- The module acts as root: it is the root, once the first resume after its adoption has come where it is a replacement, or it is the
deputy and the root is lost (R441). -/
def actsRoot (s : State) : Bool :=
  (isRoot s && !s.peer.heir) || match rootOf s with
    | some r => s.peer.lost.contains r && s.lat.hold.held == some r
    | none => false

/-- Sets STATE, with STEP and ATTEMPT of the open attempt. -/
def setStepState (v : Nat) (s : State) : State :=
  setFld RDU_STEP_STAT_STATE v (setFld RDU_STEP_STAT_ATTEMPT s.step.attempt (setFld RDU_STEP_STAT_STEP s.step.next s))

/-- Stops a logical core that takes part in the aborted step (R324): one that has executed the step's STEP.OPEN loses what its
queues hold and restarts under R73; another stays where it is until the repeat. -/
def stopForAbort (l : LCore) : LCore :=
  if l.loop || leftSteps l then l
  else if l.inStep then { l with stopped := true, qs := l.qs.map fun _ => [], waits := [], block := none, greds := [], ready := false }
  else { l with stopped := true, greds := [] }

/-- Issue numbers whose remote answers are now discarded (R376). -/
def dropStoppedTxns (s : State) : State :=
  { s with fab := { s.fab with txns := s.fab.txns.filter fun t => match getL s t.lcore with
      | some l => !(l.stopped && l.inStep)
      | none => false } }

/-- A hold or its release names the open step and the attempt that it delays, the next one (R437, R438; DEDUCED, assumption 19). -/
def holdMsg (s : State) : MemberMsg := { ownMsg s with attempt := BitVec.ofNat 8 (s.step.attempt + 1) }

/-- A recovery hold of this module's Keeper (R437). -/
def holdSend (why : HoldWhy) (s : State) : State :=
  if s.step.ownHolds.contains why then s
  else sendRoot (.hold (holdMsg s)) { s with step := { s.step with ownHolds := s.step.ownHolds ++ [why] } }

/-- The release of a recovery hold: it is sent once no other hold of the module is in force (R437, R438). -/
def holdRelease (why : HoldWhy) (s : State) : State :=
  let ds := s.step.deferred.map fun d => if d.1 = some why then (none, d.2) else d
  let s := { s with step := { s.step with deferred := ds } }
  if s.step.ownHolds.contains why then
    let s := { s with step := { s.step with ownHolds := s.step.ownHolds.filter fun w => w != why } }
    if s.step.ownHolds = [] then sendRoot (.release (holdMsg s)) s else s
  else s

/-- DETAIL with which an abort with cause PROGRAM completes the LOAD: that of the own fault where it is the own module's; on the other
modules, to which the message brings the code alone, 0 (DESIGN CHOICE, assumption 60). -/
def abortDetail (m : AbortMsg) (s : State) : Word :=
  match s.img.bind (·.faultPend) with
  | some (code, det) => if m.origin = ownId s ∧ code = m.code then det else 0
  | none => 0

/-- What the first STEP_ABORT of the open attempt does on a module (R324). Recovery paths begun after the
vote send their holds now (R437, R442). The deputy notes the closing frame too: it may have to act as root (R441). -/
def abortTake (m : AbortMsg) (s : State) : State :=
  let s := if multiModule s then abortFlood m s else s
  let s := if stepState s = 1 ∨ stepState s = 2 then addFld RDU_STEP_COUNT_ABORTS 1 s else s
  let s := if stepIsOpen s then setFld RDU_STEP_STAT_LAST_CAUSE m.cause.toNat s else s
  if m.cause = 3 then imageEnd m.code (abortDetail m s) s
  else
    let kind := lateKind s m.bucket
    let root := actsRoot s || deputyOf s == some (ownId s)
    let s := { s with step := { s.step with closeF := if root && s.step.closeF.isNone then some (closeFrame s) else s.step.closeF } }
    let s := sendRoot (.abortAck (ownKind s kind m.bucket)) s
    let s := dropStoppedTxns (modAllL stopForAbort s)
    let st := { s.step with buckets := [], partials := [], heldPkts := [], commitF := none }
    let st := { st with abortedBelow := st.attempt + 1 }
    let s := setStepState 3 (latCancel { s with step := { st with deferred := [] } })
    st.deferred.foldl (fun s d => match d.1 with
      | some h => holdSend h s
      | none => s) s

/-- A STEP_ABORT of the open attempt takes effect. At that of attempt 15 the acting root ends the run (R440). -/
def abortHere (m : AbortMsg) (s : State) : State :=
  let t := abortTake m s
  if m.cause ≠ 3 ∧ actsRoot s ∧ 15 ≤ s.step.attempt then abortTake (abortMsg t 3 cSTEP_EXHAUSTED noMember 0 false) t else t

/-- The module originates a STEP_ABORT for its open attempt, or, once it has voted, an abort request (R323). An attempt already
aborted needs none. -/
def originate (cause : Nat) (named : Member) (bucket : BitVec 32) (s : State) : State :=
  if stepState s = 2 then sendRoot (.abort (abortMsg s cause 0 named bucket true)) s
  else if stepState s = 1 then abortHere (abortMsg s cause 0 named bucket false) s
  else s

/-- The Keeper's abort with cause LOSS, with a hold where a recovery path must finish first (R434, R443, R450); after the vote
it is also put off to the next step's attempt 0, should the commit come (R442). -/
def lossAbort (hold : Option HoldWhy) (named : Member) (s : State) : State :=
  if !stepIsOpen s then s
  else if stepState s = 2 then
    originate 4 named 0 { s with step := { s.step with deferred := s.step.deferred ++ [(hold, if named = noMember then none else some named)] } }
  else
    let s := originate 4 named 0 s
    match hold with
    | some h => holdSend h s
    | none => s

/-- Units that add the packets of dies whose own unit is fenced, for the next attempt or step (R311): the other die of the row, else
the nearest healthy unit, the lower die on a tie. -/
def unitAssign (s : State) : SMap Nat :=
  let ok := fun d => !fldOn s (RDU_UNIT_FENCED d)
  ((List.range 8).filter fun d => !ok d).map fun d =>
    let row := d / 2 * 2 + 1 - d % 2
    let near := ((List.range 8).filter ok).mergeSort fun a b => meshHops d a * 8 + a ≤ meshHops d b * 8 + b
    (d, if ok row then row else near.headD d)

/-- The assignment of the fenced dies' packets comes into force, and each unit shows whether it adds any of them (R311, R328). -/
def assignUnits (s : State) : State :=
  let m := unitAssign s
  let s := { s with step := { s.step with unitOf := m } }
  (List.range 8).foldl (fun s u => setFld (RDU_UNIT_PARTNER_ACTIVE u) (if m.any fun p => p.2 == u && p.1 != u then 1 else 0) s) s

end Sys2Proof.Machine
end

