-- ==== Sys2Proof/Machine/Tile.lean ====
section
/-! DEFINITION. The block-sparse tile (R209 to R217): preamble, mask area, payload, and the blocks it holds. -/
namespace Sys2Proof.Machine

/-- A preamble (R210), as read. -/
structure Tile where
  addr : Nat
  form : Nat
  tyByte : Nat
  flags : Nat
  lines : Nat
  kblocks : Nat
  groups : Nat
  present : Nat
  maxLine : Nat
  payOff : Nat
  bytes : Nat
  /-- the bytes that must be zero are zero -/
  zeroOk : Bool
  deriving DecidableEq, Repr

def tileRead (m : Mem) (a : Nat) : Tile :=
  let b := m.bytes a 64
  ⟨a, bodyNat b 0 1, bodyNat b 1 1, bodyNat b 2 1, bodyNat b 4 2, bodyNat b 8 4, bodyNat b 0xC 4, bodyNat b 0x10 4,
   bodyNat b 0x14 4, bodyNat b 0x18 8, bodyNat b 0x20 8, bodyNat b 3 1 == 0 && bodyNat b 6 2 == 0 && bodyNat b 0x28 24 == 0⟩

def tileTy (t : Tile) : Nat := t.tyByte % 16
def tileEscape (t : Tile) : Bool := t.flags.testBit 0
def tileBlockBytes (ty : Nat) : Nat := typeBits ty

/-- The five types of the Tumblers (R223). -/
def tumblerType (ty : Nat) : Bool := ty == 1 || ty == 2 || ty == 3 || ty == 4 || ty == 8

/-- GROUPS, PAYLOAD_OFFSET and TILE_BYTES of a form (R210). -/
def tileGroups (form lines kblocks : Nat) : Nat := if form = 0 then lines * ceilDiv kblocks 64 else kblocks
def tilePayOff (escape : Bool) (groups : Nat) : Nat := if escape then 64 else roundUp (64 + 8 * groups) 64
def tileSize (escape : Bool) (ty groups present : Nat) : Nat := roundUp (tilePayOff escape groups + present * tileBlockBytes ty) 64

/-- The preamble meets R210 and R214, its TYPE's low bits apart. -/
def tileOk (t : Tile) : Bool :=
  t.zeroOk && decide (t.form ≤ 1 ∧ t.tyByte < 16 ∧ t.flags ≤ 1) &&
  decide (1 ≤ t.lines ∧ t.lines ≤ (if t.form = 0 then 256 else 64) ∧ 1 ≤ t.kblocks ∧ t.kblocks ≤ 131072) &&
  t.groups == tileGroups t.form t.lines t.kblocks && (!tileEscape t || t.present == t.lines * t.kblocks) &&
  t.payOff == tilePayOff (tileEscape t) t.groups && t.bytes == tileSize (tileEscape t) (tileTy t) t.groups t.present

/-- A descriptor with SPARSE at 1 meets R215, apart from its TYPE against the preamble's. -/
def sparseDescOk (d : Desc) : Bool := dSparse d && dRank d == 1 && dF d 44 1 == 0 && dF d 46 207 == 0

/-- Mask of a group (R211). -/
def tileMask (m : Mem) (t : Tile) (g : Nat) : Nat := m.readN (t.addr + 64 + 8 * g) 8

/-- A stored block: line, block index, and its place in the payload. -/
structure TileBlock where
  line : Nat
  kb : Nat
  idx : Nat
  deriving DecidableEq, Repr

/-- Line and block index of bit `b` of group `g`. -/
def tileCoord (t : Tile) (g b : Nat) : Nat × Nat :=
  if t.form = 0 then (let w := ceilDiv t.kblocks 64; (g / w, 64 * (g % w) + b)) else (b, g)

/-- Line and block index lie inside the tile. -/
def tileIn (t : Tile) (p : Nat × Nat) : Bool := decide (p.1 < t.lines ∧ p.2 < t.kblocks)

/-- The stored blocks in payload order (R212, R214). -/
def tileBlocks (m : Mem) (t : Tile) : List TileBlock :=
  let cs := (List.range t.groups).flatMap fun g =>
    let mask := tileMask m t g
    ((List.range 64).filter fun b => if tileEscape t then tileIn t (tileCoord t g b) else mask.testBit b).map (tileCoord t g)
  (enumFrom 0 cs).map fun p => ⟨p.2.1, p.2.2, p.1⟩

/-- Bits of element `q` of the block at payload place `idx`. -/
def tileElem (m : Mem) (t : Tile) (idx q : Nat) : Nat :=
  let w := typeBits (tileTy t)
  readBits m (t.addr + t.payOff + idx * tileBlockBytes (tileTy t)) (q * w) w

/-- A block all of whose elements have an all-zero pattern (R213). -/
def tileBlockZero (m : Mem) (t : Tile) (b : TileBlock) : Bool := (List.range 8).all fun q => tileElem m t b.idx q == 0

/-- The stored block at which a scan meets a mask bit out of range or a line above MAX_LINE_BLOCKS (R211, R235, R238). -/
def tileBadAt (m : Mem) (t : Tile) : Option TileBlock :=
  let bs := tileBlocks m t
  ((enumFrom 1 bs).find? fun p => !tileIn t (p.2.line, p.2.kb) ||
    decide (t.maxLine < ((bs.take p.1).filter fun b => b.line == p.2.line && !(tileEscape t && tileBlockZero m t b)).length)).map (·.2)

/-- The scan of the masks (R211, R235, R238): no bit out of range, popcounts equal to PRESENT, no line above MAX_LINE_BLOCKS. -/
def tileScanOk (m : Mem) (t : Tile) : Bool :=
  let bs := tileBlocks m t
  let counted := if tileEscape t then bs.filter fun b => !tileBlockZero m t b else bs
  bs.all (fun b => tileIn t (b.line, b.kb)) && bs.length == t.present &&
  (List.range t.lines).all fun r => decide ((counted.filter fun b => b.line == r).length ≤ t.maxLine)

end Sys2Proof.Machine
end

