-- ==== Sys2Proof/Machine/Stream.lean ====
section
/-! DEFINITION. The stream engine (R215 to R217, R239 to R271, R107): descriptor check, the data each operation moves, remote
transfers, the staging buffer and stream faults. -/
namespace Sys2Proof.Machine

/-! ### Faults (R268, R270, R280) -/

/-- `MEM_XF_LAST.CODE`; none for `FAB_NOROUTE`, to which R280 gives no number. -/
def xfCode (code : Code) : Option Nat :=
  if code = cXF_SHAPE then some 1 else if code = cXF_ALIGN then some 2 else if code = cXF_WINDOW then some 3
  else if code = cXF_OVERLAP then some 4 else if code = cADDR_UNMAPPED then some 5 else if code = cSTEP_REGION then some 6
  else if code = cTB_FORMAT then some 7 else if code = cTYPE_RESERVED then some 8 else none

/-- Records the last stream-engine fault of a die (R280). A field for which the rule names no value is a free value. -/
def xfLast (phys op : Nat) (code : Code) (addr : Option Nat) (s : State) : State :=
  let d := phys / 32
  let (k, s) := match xfCode code with
    | some k => (k, s)
    | none => ((freeNow s).toNat, freeStep s)
  let (a, s) := match addr with
    | some a => (a, s)
    | none => ((freeNow s).toNat, freeStep s)
  setFld (MEM_XF_ADDR_ADDR d) a (addFld (MEM_XF_LAST_FAULTS d) 1 (setFld (MEM_XF_LAST_OP d) op
    (setFld (MEM_XF_LAST_CORE d) (phys % 32) (setFld (MEM_XF_LAST_CODE d) k s))))

/-- A fault handled as one of the stream engine (R270): of the instruction of queue `q` at byte offset `pc`. -/
def streamFault (ci q pc op : Nat) (code : Code) (addr : Option Nat) (s : State) : State :=
  match getL s ci with
  | none => s
  | some l => unitFault ci q pc code (xfLast l.phys op code addr s)

/-- A stream-engine fault of the logical core's X-queue instruction at byte offset `pc`. -/
def xFault (ci pc op : Nat) (code : Code) (addr : Option Nat) (s : State) : State := streamFault ci qX pc op code addr s

/-! ### Placement (R107, R253) -/

inductive Side where
  | hbm | scratch | remote | bad
  deriving DecidableEq, Repr

/-- A byte range of an operand at descriptor check. -/
structure XRange where
  a : Nat
  n : Nat
  side : Side
  dst : Bool
  deriving DecidableEq, Repr

/-- Why a descriptor check fails: code and first failing byte. -/
abbrev XErr := Code × Option Nat

def xScratchKind (a : Nat) : Bool := decide (hbmEnd ≤ a ∧ a < 0x40080000000)

/-- The module a global prefix names (R107). -/
def prefixMember (x : Word) : Member := BitVec.ofNat 16 (bits x.toNat 51 6 * 256 + bits x.toNat 43 8)
def prefixBad (x : Word) : Bool := decide (bits x.toNat 0 43 ≠ 0 ∨ bits x.toNat 57 7 ≠ 0)

/-- The instruction's HBM side lies in another module (R23, R107). -/
def xRemote (s : State) (c : CapD) : Bool :=
  decide (c.op ≤ 1) && c.xa != 0 && (prefixBad c.xa || prefixMember c.xa != ownId s)

/-- The global address of a remote byte, for `MEM_XF_ADDR`. -/
def xGlobal (c : CapD) (a : Nat) : Nat := bits c.xa.toNat 43 14 * 2 ^ 43 + a

def xUsesB (c : CapD) : Bool := c.op == 2 || c.op == 3
def xDim (c : CapD) : Nat := bits c.ctrl 0 3
def xPerm (c : CapD) (o : Nat) : Nat := bits c.ctrl (3 * o) 3
/-- A dense-to-sparse XCOPY (R217). -/
def xCompress (c : CapD) : Bool := c.op == 5 && !dSparse c.dA && dSparse c.dD
/-- The successors' block scales move too (R254). -/
def xScales (c : CapD) : Bool := c.op != 4 && c.op != 3 && !dSparse c.dA && !dSparse c.dD && typeIsMx (dType c.dA)

/-- Bytes of the escape form of a compressed tile (R217). -/
def xEscape (c : CapD) : Nat :=
  tileSize true (dType c.dD) 0 (dLen c.dA 1 * ceilDiv (dLen c.dA 0) 8)

/-- The side of an operand (R253): 0 dA, 1 dB, 2 dD. -/
def xSide (c : CapD) (remote : Bool) (which a aFirst : Nat) : Side :=
  let either := if xScratchKind a then Side.scratch else .hbm
  let hbmSide := if remote then Side.remote else .hbm
  match c.op, which with
  | 0, 0 => hbmSide
  | 0, _ => .scratch
  | 1, 0 => .scratch
  | 1, _ => hbmSide
  | 2, 0 => either
  | 2, _ => .scratch
  | 3, 2 => either
  | 3, _ => .scratch
  | 4, 0 => either
  | 4, _ => if xScratchKind a == xScratchKind aFirst then either else .bad
  | _, _ => either

/-- Whether the preambles of the sparse operands can be read: that of dA, and that of dD where its bytes as they are matter. -/
structure Readable where
  a : Bool
  b : Bool
  d : Bool
  deriving DecidableEq, Repr

/-- The preamble that a sparse operand's BASE points at lies where that operand may lie (R21, R253). -/
def preReadable (s : State) (l : LCore) (c : CapD) (which : Nat) (d : Desc) : Bool :=
  match xSide c (xRemote s c) which (dBase d) (dBase c.dA) with
  | .scratch => inOwnScratch l (dBase d) 64
  | .remote => !prefixBad c.xa && decide (dBase d + 64 ≤ hbmEnd)
  | .hbm => hbmRange s.fuses (dBase d) 64
  | .bad => false

def readableOf (s : State) (l : LCore) (c : CapD) : Readable :=
  ⟨preReadable s l c 0 c.dA, preReadable s l c 1 c.dB, preReadable s l c 2 c.dD⟩

/-- First byte and length of an operand (R215, R252); of a sparse operand whose preamble cannot be read, the preamble. -/
def xBytes (m : Mem) (c : CapD) (ok : Readable) (which : Nat) : Nat × Nat :=
  let tile := fun _ : Unit => if ok.a then (tileRead m (dBase c.dA)).bytes else 64
  if which = 0 then (if dSparse c.dA then (dBase c.dA, tile ()) else extent c.dA)
  else if which = 1 then extent c.dB
  else if dSparse c.dD then (dBase c.dD, if xCompress c then xEscape c else tile ())
  else extent c.dD

/-- The operand ranges in the order checked; an empty extent passes every check (R252). -/
def xRanges (m : Mem) (c : CapD) (ok : Readable) (remote : Bool) : List XRange :=
  let r := fun which (p : Nat × Nat) dst =>
    if p.2 = 0 then [] else [(⟨p.1, p.2, xSide c remote which p.1 (xBytes m c ok 0).1, dst⟩ : XRange)]
  r 0 (xBytes m c ok 0) false ++ (if xUsesB c then r 1 (xBytes m c ok 1) false else []) ++ r 2 (xBytes m c ok 2) true ++
  (if xScales c then r 0 (extent c.sA) false ++ r 2 (extent c.sD) true else [])

/-! ### Shapes (R254, R258, R260, R264, R216, R217) -/

def sameShape (a d : Desc) (skip : Nat → Bool) : Bool :=
  dRank a == dRank d && dType a == dType d && (dDims a).all fun i => skip i || dLen a i == dLen d i

/-- Shapes, types, dimension and permutation, as far as the preambles can be read. -/
def xShapeOk (m : Mem) (c : CapD) (ok : Readable) : Bool :=
  let sparse := dSparse c.dA || dSparse c.dD || (xUsesB c && dSparse c.dB)
  let r := dRank c.dA
  if sparse then
    if !(c.op == 0 || c.op == 1 || c.op == 5) then false
    else if dSparse c.dA && dSparse c.dD then true
    else if c.op != 5 then false
    else if xCompress c then
      r == 2 && dType c.dA == dType c.dD && (!ok.d || decide (dLen c.dA 1 ≤ if m.read (dBase c.dD) = 0 then 256 else 64))
    else dRank c.dD == 2 && (!ok.a || dType c.dD == tileTy (tileRead m (dBase c.dA)))
  else match c.op with
    | 2 =>
      decide (1 ≤ xDim c ∧ xDim c < r) && dRank c.dB == 1 && dType c.dB == 0 && sameShape c.dA c.dD (· == xDim c) &&
      dLen c.dD (xDim c) == dLen c.dB 0
    | 3 =>
      decide (1 ≤ xDim c ∧ xDim c < r) && dRank c.dB == 1 && dType c.dB == 0 && dType c.dA == 0 &&
      sameShape c.dA c.dD (· == xDim c) && dLen c.dA (xDim c) == dLen c.dB 0
    | 4 =>
      let p := xPerm c
      dRank c.dD == r && dType c.dD == dType c.dA && decide (dBits c.dA % 8 = 0) && !typeIsMx (dType c.dA) &&
      ((List.range r).all fun i => (List.range r).any fun o => p o == i) &&
      ((List.range 5).all fun o => decide (o < r) || p o == 0) &&
      ((List.range r).all fun o => dLen c.dD o == dLen c.dA (p o))
    | _ => sameShape c.dA c.dD (fun _ => false)

/-- The in-place transpose (R266). -/
def xInPlace (c : CapD) : Bool :=
  c.op == 4 && c.dA == c.dD && dRank c.dA == 2 && xPerm c 0 == 1 && xPerm c 1 == 0 && dLen c.dA 0 == dLen c.dA 1 &&
  dLo c.dA 0 == 0 && dLo c.dA 1 == 0 && dEnd c.dA 0 == dEnd c.dA 1

/-! ### Descriptor check (R268) -/

/-- The first byte of a store range that the image does not allow (R71). -/
def storeBad (s : State) (l : LCore) (a n : Nat) : Nat :=
  match s.img.bind fun i => i.regions.find? fun r => decide (r.base ≤ a ∧ a < r.base + r.len) with
  | none => a
  | some r =>
    let inside := min n (r.base + r.len - a)
    if !storeAllowed s (some l) a 1 then a
    else match (granulesOf a inside).find? fun g => !storeAllowed s (some l) (max a (g * granBytes)) 1 with
      | some g => max a (g * granBytes)
      | none => r.base + r.len

def subByteBad (d : Desc) : Bool :=
  !dSparse d && dBits d % 8 != 0 && (List.range (dRank d)).any fun i => decide (1 ≤ i ∧ dStride d i * dBits d % 8 ≠ 0)

/-- Check 1 of a sparse operand that names a tile (R114). -/
def tileTypeErr (m : Mem) (d : Desc) (readable : Bool) : Option XErr :=
  if readable && typeReserved (tileTy (tileRead m (dBase d))) then some (cTYPE_RESERVED, none) else none

/-- Check 2 of a sparse operand that names a tile (R210, R215). -/
def tileFormErr (m : Mem) (d : Desc) (readable : Bool) : Option XErr :=
  let t := tileRead m (dBase d)
  if !sparseDescOk d || (readable && (!tileOk t || !tumblerType (tileTy t) || dType d != tileTy t)) then some (cTB_FORMAT, none) else none

/-- Check 2 of a sparse destination that a copy writes whole (R216, R217). -/
def sparseDstErr (m : Mem) (c : CapD) (ok : Readable) : Option XErr :=
  if !sparseDescOk c.dD then some (cTB_FORMAT, none)
  else if xCompress c then
    (if (!ok.d || decide ((m.read (dBase c.dD)).toNat ≤ 1)) && tumblerType (dType c.dD) then none else some (cTB_FORMAT, none))
  else if dSparse c.dA && ok.a && dType c.dD != tileTy (tileRead m (dBase c.dA)) then some (cTB_FORMAT, none)
  else none

/-- Checks 1 and 2: of each operand with SPARSE at 1, in the order dA, dB, dD. The destination of XLOAD, XSTORE and XCOPY is written with
its preamble; every other sparse operand names a tile that is there. -/
def sparseErrs (m : Mem) (c : CapD) (ok : Readable) : Option XErr :=
  let copy := c.op ≤ 1 ∨ c.op = 5
  let tiles := (if dSparse c.dA then [(c.dA, ok.a)] else []) ++ (if xUsesB c && dSparse c.dB then [(c.dB, ok.b)] else []) ++
    (if dSparse c.dD ∧ ¬ copy then [(c.dD, ok.d)] else [])
  ((tiles.map fun t => tileTypeErr m t.1 t.2) ++ (tiles.map fun t => tileFormErr m t.1 t.2) ++
    [if dSparse c.dD ∧ copy then sparseDstErr m c ok else none]).findSome? id

/-- The first byte of a scratch range outside the own window (R241). -/
def windowErr (l : LCore) (r : XRange) : Option XErr :=
  let b := winBase l
  match r.side with
  | .bad => some (cXF_WINDOW, some r.a)
  | .scratch => if rangeIn r.a r.n b 0x800000 then none
                else some (cXF_WINDOW, some (if b ≤ r.a ∧ r.a < b + 0x800000 then b + 0x800000 else r.a))
  | _ => none

/-- The first byte of a range of HBM that lies in an absent stack or above HBM (R21). -/
def firstAbsent (f : Fuses) (a n : Nat) : Nat :=
  match (List.range (stackOf (a + n - 1) - stackOf a + 1)).find? fun i => decide (hbmEnd ≤ (stackOf a + i) * stackBytes) || !hasStack f (stackOf a + i) with
  | some i => max a ((stackOf a + i) * stackBytes)
  | none => a

/-- The first byte of a range that no address of the map covers (R21). -/
def mapErr (s : State) (l : LCore) (c : CapD) (r : XRange) : Option XErr :=
  match r.side with
  | .scratch => if inOwnScratch l r.a r.n then none
                else some (cADDR_UNMAPPED, some (max r.a (winBase l + scratchBytes)))
  | .remote => if r.a + r.n ≤ hbmEnd then none else some (cADDR_UNMAPPED, some (xGlobal c (if hbmEnd ≤ r.a then r.a else hbmEnd)))
  | _ => if hbmRange s.fuses r.a r.n then none else some (cADDR_UNMAPPED, some (firstAbsent s.fuses r.a r.n))

def regionErr (s : State) (l : LCore) (r : XRange) : Option XErr :=
  if r.dst && r.side == .hbm && !storeAllowed s (some l) r.a r.n then some (cSTEP_REGION, some (storeBad s l r.a r.n)) else none

/-- Check 8: the destination meets dA or dB, or a successor of them. -/
def overlapErr (c : CapD) (rs : List XRange) : Option XErr :=
  if c.op ≤ 1 || xInPlace c then none
  else rs.findSome? fun r => if !r.dst then none else
    rs.findSome? fun q => if q.dst || !rangesMeet (r.a, r.n) (q.a, q.n) then none else some (cXF_OVERLAP, some (max r.a q.a))

/-- The descriptor check of an X-queue instruction over memory `m`, which holds what the source reads. -/
def xCheck (s : State) (l : LCore) (c : CapD) (m : Mem) : Except XErr (List XRange) :=
  let remote := xRemote s c
  let ok := readableOf s l c
  let firsts : List (Option XErr) :=
    [ sparseErrs m c ok,
      if xShapeOk m c ok then none else some (cXF_SHAPE, none),
      if subByteBad c.dA || subByteBad c.dD then some (cXF_ALIGN, none) else none ]
  match firsts.findSome? id with
  | some e => .error e
  | none =>
    let rs := xRanges m c ok remote
    let rest : List (Option XErr) :=
      [ rs.findSome? (windowErr l),
        if remote && prefixBad c.xa then some (cADDR_UNMAPPED, none) else rs.findSome? (mapErr s l c),
        rs.findSome? (regionErr s l),
        overlapErr c rs ]
    match rest.findSome? id with
    | some e => .error e
    | none => .ok rs

/-! ### Data -/

/-- Bits written: at bit `idx` of base `base`, `w` wide; `add` makes it the FP32 addition of R261. -/
structure XW where
  base : Nat
  idx : Nat
  w : Nat
  v : Nat
  add : Bool
  deriving DecidableEq, Repr

/-- What an instruction writes, with the elements dropped and the indices out of range (R257, R259, R261). -/
structure XData where
  ws : List XW
  dropped : Nat
  oor : Nat
  deriving DecidableEq, Repr

/-- Bits of byte `i` of `w` bits that begin at bit `off` of byte 0 which lie outside them. -/
def outsideBits (off w i : Nat) : Byte :=
  (List.range 8).foldl (fun (v : Byte) b => if off ≤ 8 * i + b ∧ 8 * i + b < off + w then v else v ||| (1#8 <<< b)) 0

/-- The bytes that the bits make, on their way into memory. -/
def XW.write (ci : Nat) (x : XW) : HWrite :=
  let off := x.idx % 8
  let n := (off + x.w + 7) / 8
  ⟨x.base + x.idx / 8, leBytes n (x.v * 2 ^ off),
    ([0, n - 1].eraseDups.filter fun i => outsideBits off x.w i != 0).map fun i => (i, outsideBits off x.w i), x.add, .stream ci⟩

def XW.apply (m : Mem) (x : XW) : Mem := (x.write 0).put m

def xwAt (d : Desc) (w : List Nat) (v : Nat) (add : Bool) : XW := ⟨dBase d, posIndex d w * dBits d, dBits d, v, add⟩

/-- Destination positions inside the valid window with the source value `f` gives, and the count of the others. -/
def moveWith (d : Desc) (f : List Nat → Nat) : XData :=
  let ps := positions (dLens d)
  ⟨(ps.filter (posValid d)).map fun w => xwAt d w (f w) false, (ps.filter fun w => !posValid d w).length, 0⟩

/-- Index `j` of an index tensor, inside its valid window (R258). -/
def xIndex (m : Mem) (b : Desc) (j : Nat) : Option Nat := if posValid b [j] then some (elemAt m b [j]) else none

/-- The range of dA in dimension `dim` (R259). -/
def idxInRange (a : Desc) (dim t : Nat) : Bool := decide (dLo a dim ≤ t ∧ t < dEnd a dim)

/-- A table read with w_D replaced (R255, R256, R259). -/
def tableRead (m : Mem) (zp : Bool) (a : Desc) (dim t : Nat) (w : List Nat) : Nat :=
  if validEmpty a then 0
  else if dim ≥ 3 ∧ dLen a dim ≤ t then (if zp then 0 else elemPad m zp a (w.set dim (dLen a dim - 1)))
  else elemPad m zp a (w.set dim t)

def gatherWith (m : Mem) (zp : Bool) (a b d : Desc) (dim : Nat) : XData :=
  let mv := moveWith d fun w => tableRead m zp a dim ((xIndex m b (w.getD dim 0)).getD (w.getD dim 0)) w
  let rows := ((positions (dLens d)).filter (posValid d)).map (·.drop 1) |>.eraseDups
  let oor := rows.filter fun r => match xIndex m b (r.getD (dim - 1) 0) with
    | some t => !idxInRange a dim t
    | none => false
  { mv with oor := oor.length }

/-- XSCATTER (R261): index positions in ascending order, and within each the positions of dA in flattened order. -/
def scatterWith (m : Mem) (a b d : Desc) (dim : Nat) : XData :=
  let ps := (positions (dLens a)).filter (posValid a)
  (List.range (dLen b 0)).foldl (fun x j =>
    match xIndex m b j with
    | none => x
    | some t =>
      let mine := ps.filter fun w => w.getD dim 0 == j
      let hit := mine.filter fun w => posValid d (w.set dim t)
      let miss := mine.length - hit.length
      ⟨x.ws ++ hit.map fun w => xwAt d (w.set dim t) (elemAt m a w) true, x.dropped + miss, x.oor + if miss = 0 then 0 else 1⟩)
    ⟨[], 0, 0⟩

/-- The source position of a permuted output (R264). -/
def permPos (c : CapD) (w : List Nat) : List Nat :=
  (List.range (dRank c.dA)).map fun i => ((enumFrom 0 w).find? fun p => xPerm c p.1 == i).elim 0 (·.2)

/-- Bytes as writes. -/
def byteWrites (a : Nat) (bs : List Byte) : List XW := (enumFrom 0 bs).map fun p => ⟨a + p.1, 0, 8, p.2.toNat, false⟩

/-- The tile that a dense source compresses to (R210 to R214, R217). -/
def compressBytes (m : Mem) (c : CapD) : List Byte :=
  let a := c.dA
  let form := (m.read (dBase c.dD)).toNat
  let ty := dType c.dD
  let w := typeBits ty
  let lines := dLen a 1
  let kbs := ceilDiv (dLen a 0) 8
  let groups := tileGroups form lines kbs
  let elem := fun line k => if k < dLen a 0 then elemZero m a [k, line] else 0
  let blk := fun (p : Nat × Nat) => (List.range 8).foldl (fun v q => v + elem p.1 (8 * p.2 + q) * 2 ^ (q * w)) 0
  let t : Tile := ⟨0, form, ty, 0, lines, kbs, groups, 0, 0, 0, 0, true⟩
  let coords := fun g => ((List.range 64).map fun b => (b, tileCoord t g b)).filter fun p => tileIn t p.2
  let live := fun g => (coords g).filter fun p => blk p.2 != 0
  let all := (List.range groups).flatMap coords
  let present := (List.range groups).flatMap live
  let maxLine := (List.range lines).foldl (fun v r => max v (present.filter fun p => p.2.1 == r).length) 0
  let escape := decide (tileSize false ty groups present.length > tileSize true ty groups (lines * kbs))
  let stored := if escape then all else present
  let size := tileSize escape ty groups stored.length
  let head := leBytes 1 form ++ leBytes 1 ty ++ leBytes 1 (if escape then 1 else 0) ++ leBytes 1 0 ++ leBytes 2 lines ++ leBytes 2 0 ++
    leBytes 4 kbs ++ leBytes 4 groups ++ leBytes 4 stored.length ++ leBytes 4 maxLine ++ leBytes 8 (tilePayOff escape groups) ++
    leBytes 8 size ++ leBytes 24 0
  let masks := if escape then []
    else (List.range groups).flatMap fun g => leBytes 8 ((live g).foldl (fun v p => v + 2 ^ p.1) 0)
  let area := masks ++ List.replicate (tilePayOff escape groups - 64 - masks.length) 0
  let body := head ++ area ++ stored.flatMap fun p => leBytes w (blk p.2)
  body ++ List.replicate (size - body.length) 0

/-- An expanded tile (R217): absent blocks are +0, and so is what lies beyond the tile. -/
def expandWith (m : Mem) (c : CapD) : XData :=
  let t := tileRead m (dBase c.dA)
  let bs := tileBlocks m t
  moveWith c.dD fun w =>
    match bs.find? fun b => b.line == w.getD 1 0 && b.kb == w.getD 0 0 / 8 with
    | some b => tileElem m t b.idx (w.getD 0 0 % 8)
    | none => 0

/-- Everything the instruction writes, read from memory `m`. -/
def xData (m : Mem) (c : CapD) : XData :=
  let zp := dZeroPad c.dA
  if dSparse c.dA && dSparse c.dD then ⟨byteWrites (dBase c.dD) (m.bytes (dBase c.dA) (tileRead m (dBase c.dA)).bytes), 0, 0⟩
  else if xCompress c then ⟨byteWrites (dBase c.dD) (compressBytes m c), 0, 0⟩
  else if dSparse c.dA then expandWith m c
  else
    let main := match c.op with
      | 2 => gatherWith m zp c.dA c.dB c.dD (xDim c)
      | 3 => scatterWith m c.dA c.dB c.dD (xDim c)
      | 4 => moveWith c.dD fun w => elemPad m zp c.dA (permPos c w)
      | _ => moveWith c.dD fun w => elemPad m zp c.dA w
    if !xScales c then main
    else
      let sc := if c.op = 2 then gatherWith m zp c.sA c.dB c.sD (xDim c) else moveWith c.sD fun w => elemPad m zp c.sA w
      { main with ws := main.ws ++ sc.ws }

/-- Bytes of one write. -/
def XW.bytes (x : XW) : Nat × Nat := (x.base + x.idx / 8, (x.idx % 8 + x.w + 7) / 8)

/-- Joins a byte range to a list of ranges, the last first, where it continues the last one. -/
def joinRange (rs : List (Nat × Nat)) (r : Nat × Nat) : List (Nat × Nat) :=
  match rs with
  | (a, n) :: rs => if a ≤ r.1 ∧ r.1 ≤ a + n then (a, max n (r.1 + r.2 - a)) :: rs else r :: (a, n) :: rs
  | [] => [r]

/-- The byte ranges that the writes meet, in their order. -/
def xRuns (ws : List XW) : List (Nat × Nat) := (ws.foldl (fun rs x => joinRange rs x.bytes) []).reverse

/-- Whether bit `i` of byte `a` is written. -/
def xBitWritten (ws : List XW) (a i : Nat) : Bool :=
  ws.any fun x => decide (8 * x.base + x.idx ≤ 8 * a + i ∧ 8 * a + i < 8 * x.base + x.idx + x.w)

/-- Bits of byte `a` that no write covers, where it is not written whole. -/
def keepBits (ws : List XW) (a : Nat) : Nat :=
  let here := ws.filter fun x => decide (x.bytes.1 ≤ a ∧ a < x.bytes.1 + x.bytes.2)
  (List.range 8).foldl (fun v i => if xBitWritten here a i then v else v + 2 ^ i) 0

/-- Counts DROPPED and INDEX_OOR of the die (R279). -/
def xCount (die : Nat) (x : XData) (s : State) : State :=
  addFld (MEM_XF_COUNT_INDEX_OOR die) x.oor (addFld (MEM_XF_COUNT_DROPPED die) x.dropped s)

/-- Makes writes in their order as far as the first whose granule the latch holds: that one stays with the latch, and what follows it
waits with the instruction (R399, R401). -/
def xPush : List HWrite → State → (List HWrite × Option Nat) × State
  | [], s => (([], none), s)
  | w :: ws, s =>
    if hbmEnd ≤ w.a then xPush ws { s with mem := w.put s.mem }
    else if mustHold s (w.a / granBytes) then ((ws, some (w.a / granBytes)), granPut (w.a / granBytes) w s)
    else xPush ws (granLand w s)

/-- The writes of an instruction, none of which crosses a granule border. -/
def xWrites (ci : Nat) (x : XData) : List HWrite := x.ws.flatMap fun w => (w.write ci).split

/-! ### Remote transfers (R107, R216, R250, R269, R375) -/

/-- Splits a byte range at the multiples of 4,096, so that no packet ends inside a line (R68, R373). -/
def pieces (a n : Nat) : List (Nat × Nat) :=
  if n = 0 then []
  else (List.range ((a + n - 1) / 4096 - a / 4096 + 1)).map fun i =>
    let lo := max a ((a / 4096 + i) * 4096)
    (lo, min (a + n) ((a / 4096 + i + 1) * 4096) - lo)

/-- Byte ranges of the valid rows of a descriptor (R251). -/
def rowRanges (d : Desc) : List (Nat × Nat) :=
  if validEmpty d then []
  else
    let outer := positions ((dLens d).drop 1)
    (outer.map fun w => dLo d 0 :: w).filter (posValid d) |>.map fun w =>
      let i := posIndex d w * dBits d
      let j := posIndex d (withFirst w (dEnd d 0 - 1)) * dBits d
      (dBase d + i / 8, (j + dBits d - 1) / 8 - i / 8 + 1)
where
  withFirst (w : List Nat) (x : Nat) : List Nat := match w with
    | [] => []
    | _ :: ws => x :: ws

/-- Registers a remote access of an instruction and sends its packet; none where no route exists (R389). -/
def xSend (ci n : Nat) (die : Nat) (dest : Member) (read : Bool) (a len : Nat) (b : Body) (s : State) : Option (State × (Nat × Nat × Nat)) :=
  let tag := s.fab.nextTag
  let p := mkPacket s 0 dest (dieOfAddr a) die tag b
  (sendFrom die p s).map fun s =>
    ({ s with fab := { s.fab with nextTag := (tag + 1) % 65536, txns := s.fab.txns ++ [⟨tag, ci, n, read, a⟩] } }, (tag, a, len))

/-- Sends a list of accesses, collecting their tags; the address of the first that has no route. -/
def xSendAll (ci n die : Nat) (dest : Member) (read : Bool) :
    List (Nat × Nat × Body) → List (Nat × Nat × Nat) → State → Except Nat (State × List (Nat × Nat × Nat))
  | [], tags, s => .ok (s, tags)
  | (a, len, b) :: rest, tags, s =>
    match xSend ci n die dest read a len b s with
    | none => .error a
    | some (s, t) => xSendAll ci n die dest read rest (tags ++ [t]) s

def readReqs (rs : List (Nat × Nat)) : List (Nat × Nat × Body) :=
  rs.flatMap fun r => (pieces r.1 r.2).map fun q => (q.1, q.2, Body.readReq q.1 q.2)

/-- Source ranges of a remote XLOAD. -/
def xSources (m : Mem) (c : CapD) : List (Nat × Nat) :=
  if dSparse c.dA then [(dBase c.dA, (tileRead m (dBase c.dA)).bytes)]
  else rowRanges c.dA ++ if xScales c then rowRanges c.sA else []

/-- The write packets of a remote XSTORE. -/
def writeReqs (m : Mem) (x : XData) : List (Nat × Nat × Body) :=
  let m' := x.ws.foldl XW.apply m
  (xRuns x.ws).flatMap fun r => (pieces r.1 r.2).map fun q =>
    let keep := ([q.1, q.1 + q.2 - 1].eraseDups.filter fun a => keepBits x.ws a != 0).map fun a => (a - q.1, BitVec.ofNat 8 (keepBits x.ws a))
    (q.1, q.2, Body.write q.1 (m'.bytes q.1 q.2) keep)

/-! ### Starting (R244, R247, R248, R268) -/

/-- Ranges of this module that an instruction writes. -/
def xDstLocal (rs : List XRange) : List (Nat × Nat) := (rs.filter fun r => r.dst && r.side != .remote).map fun r => (r.a, r.n)

/-- An earlier instruction of the queue that has started and is not complete writes bytes that this one reads or writes (R248). -/
def xBehind (l : LCore) (i : Nat) (rs : List XRange) : Bool :=
  ((queue l qX).take i).any fun e => e.started && e.flight.dst.any fun d =>
    rs.any fun r => r.side != .remote && rangesMeet (r.a, r.n) d

/-- A range of HBM that the instruction reads holds an uncorrectable error, so that the read does not complete (R275). -/
def xBad (s : State) (c : CapD) (rs : List XRange) : Bool :=
  rs.any fun r => r.side == .hbm && (!r.dst || c.op == 3) && hbmBad s r.a r.n

/-- The instruction has writes left to make, or one that the latch holds (R401). -/
def xHolding (e : QE) : Bool := e.flight.left != [] || e.flight.hold.isSome

/-- Memory as the instruction reads it: bytes read ahead or brought by remote reads lie over it. -/
def overlay (m : Mem) (bs : List (Nat × List Byte)) : Mem := bs.foldl (fun m p => m.writeBytes p.1 p.2) m

/-- An instruction at the head of the queue that fails: it leaves the queue and raises its fault (R268, R270). -/
def xFail (ci i : Nat) (e : QE) (c : CapD) (err : XErr) (s : State) : State :=
  xFault ci e.pc c.op err.1 err.2 (modL ci (dropEntry qX i) s)

def xBegun (e : QE) (tags : List (Nat × Nat × Nat)) (pre : Bool) (dst : List (Nat × Nat)) : QE :=
  { e with started := true, flight := ⟨tags, [], pre, dst, [], none⟩ }

/-- The instruction at place `i` makes the writes it has left, as far as the latch lets it. -/
def xWrite (ci i : Nat) (e : QE) (ws : List HWrite) (s : State) : State :=
  let ((left, hold), s) := xPush ws s
  modL ci (setEntry qX i { e with flight := { e.flight with got := [], left := left, hold := hold } }) s

/-- Drops and takes the first `k` bytes of a list of ranges. -/
def dropBytes : Nat → List (Nat × Nat) → List (Nat × Nat)
  | _, [] => []
  | k, (a, n) :: rs => if n ≤ k then dropBytes (k - n) rs else (a + k, n - k) :: rs

/-- The part of the first `k` bytes of a list of ranges that ends with a 64-byte line or with a range (R68). -/
def takeLines : Nat → List (Nat × Nat) → List (Nat × Nat)
  | _, [] => []
  | k, (a, n) :: rs =>
    if n ≤ k then (a, n) :: takeLines (k - n) rs
    else if a < (a + k) / 64 * 64 then [(a, (a + k) / 64 * 64 - a)] else []

/-- Bytes read ahead for an instruction. -/
def readAhead (e : QE) : Nat := (e.staged.getD []).foldl (fun n p => n + p.2.length) 0

/-- Starts a checked instruction. The scratch port is taken where an operand lies in scratch (R244). -/
def xStart (ci i : Nat) (l : LCore) (e : QE) (c : CapD) (m : Mem) (rs : List XRange) (s : State) : Option State :=
  if xBehind l i rs || xBad s c rs then none
  else
    (if rs.any (·.side == .scratch) then takePort l true s else some s).map fun s =>
      let x := xData m c
      let e := xBegun e [] false (xDstLocal rs)
      if !xRemote s c then xWrite ci i e (xWrites ci x) (xCount l.die x s)
      else
        let reqs := if c.op = 0 then readReqs (dropBytes (readAhead e) (xSources m c)) else writeReqs m x
        match xSendAll ci e.n l.die (prefixMember c.xa) (c.op == 0) reqs [] s with
        | .error a => xFail ci i e c (cFAB_NOROUTE, some (xGlobal c a)) s
        | .ok (s, tags) =>
          let e := { e with flight := { e.flight with tags := tags } }
          if c.op = 0 && tags != [] then modL ci (setEntry qX i e) s
          else xWrite ci i e (if c.op = 0 then xWrites ci x else []) (xCount l.die x s)

/-- A remote XLOAD of a sparse tile first asks for the preamble, where that can be read at all (R216). -/
def xAsksPreamble (s : State) (l : LCore) (e : QE) (c : CapD) : Bool :=
  xRemote s c && c.op == 0 && dSparse c.dA && e.staged.isNone && preReadable s l c 0 c.dA

/-- Starts the instruction at place `i`, the first that has not started. One that was read ahead has been checked (R268). -/
def xBegin (ci i : Nat) (l : LCore) (e : QE) (c : CapD) (s : State) : Option State :=
  match e.err with
  | some err => some (xFail ci i e c err s)
  | none =>
    if e.flight.tags != [] then none
    else if xAsksPreamble s l e c then
      (takePort l true s).map fun s =>
        match xSendAll ci e.n l.die (prefixMember c.xa) true (readReqs [(dBase c.dA, 64)]) [] s with
        | .error a => xFail ci i e c (cFAB_NOROUTE, some (xGlobal c a)) s
        | .ok (s, tags) => modL ci (setEntry qX i (xBegun e tags true [])) s
    else
      let m := overlay s.mem (e.staged.getD [])
      if e.staged.isSome then xStart ci i l e c m (xRanges m c (readableOf s l c) (xRemote s c)) s
      else match xCheck s l c m with
        | .error err => some (xFail ci i e c err s)
        | .ok rs => xStart ci i l e c m rs s

/-- The instruction that holds at a write of its own goes on once its latch has let that write pass (R401). -/
def xResume (ci i : Nat) (e : QE) (s : State) : Option State :=
  match e.flight.hold with
  | some g => if (getGran s g).st = .copying then none else some (xWrite ci i e e.flight.left s)
  | none => some (xWrite ci i e e.flight.left s)

/-- Starts the next instruction of the X queue, if it can start: none while an earlier one holds at a write (R401), nor while a change
set on the die's `MEM_` block is applied (R511). -/
def startX (ci : Nat) (s : State) : Option State :=
  match getL s ci with
  | none => none
  | some l =>
    if !coreRuns s l then none
    else match (enumFrom 0 (queue l qX)).find? fun p => xHolding p.2 with
      | some (i, e) => xResume ci i e s
      | none =>
        if csDie s l.die 3 then none
        else match headOf l qX with
          | none => none
          | some (i, e) => match e.pl with
            | .ins c => xBegin ci i l e c s
            | _ => none

/-! ### Remote answers -/

/-- The entry of the X queue with an issue number, and its place. -/
def xEntry (l : LCore) (n : Nat) : Option (Nat × QE) := (enumFrom 0 (queue l qX)).find? fun p => p.2.n == n

/-- Takes the transaction of a tag off the list of those not answered. -/
def txnTake (tag : Nat) (s : State) : State :=
  { s with fab := { s.fab with txns := s.fab.txns.filter fun t => t.tag != tag } }

/-- Bytes in the staging buffer, and those asked for. -/
def stagedBytes (l : LCore) : Nat :=
  (queue l qX).foldl (fun n e => n + readAhead e + if e.started then 0 else e.flight.tags.foldl (fun n t => n + t.2.2) 0) 0

/-- An instruction whose bytes are fetched fails its check or has no route: at once where it has started, else when it reaches the head
(R268). -/
def xArriveFail (ci i : Nat) (e : QE) (c : CapD) (err : XErr) (s : State) : State :=
  if e.started then xFail ci i e c err s else modL ci (setEntry qX i { e with err := some err, flight := flightNone }) s

/-- The source bytes that may be fetched now: all of them, or for an instruction that has not started what the buffer has room for. -/
def xFetch (l : LCore) (e : QE) (src : List (Nat × Nat)) : List (Nat × Nat) :=
  if e.started then src else takeLines (65536 - stagedBytes l) src

/-- All reads of a remote XLOAD have been answered: the preamble is checked and the tile asked for, or the bytes go to scratch, or,
for an instruction that has not started, into the staging buffer. -/
def xArrived (ci i : Nat) (l : LCore) (e : QE) (c : CapD) (s : State) : State :=
  let m := overlay s.mem (e.staged.getD [] ++ e.flight.got)
  if e.flight.pre then
    match xCheck s l c m with
    | .error err => xArriveFail ci i e c err s
    | .ok rs =>
      match xSendAll ci e.n l.die (prefixMember c.xa) true (readReqs (xFetch l e (xSources m c))) [] s with
      | .error a => xArriveFail ci i e c (cFAB_NOROUTE, some (xGlobal c a)) s
      | .ok (s, tags) => modL ci (setEntry qX i { e with flight := ⟨tags, [], false, xDstLocal rs, [], none⟩ }) s
  else if e.started then
    let x := xData m c
    xWrite ci i e (xWrites ci x) (xCount l.die x s)
  else modL ci (setEntry qX i { e with staged := some e.flight.got, flight := flightNone }) s

/-- An answer to a remote access of the X queue: the read's bytes, or a write's acknowledgement. -/
def xAnswer (t : Txn) (data : List Byte) (s : State) : State :=
  match getL s t.lcore with
  | none => s
  | some l =>
    match xEntry l t.n with
    | none => s
    | some (i, e) =>
      match e.pl with
      | .ins c =>
        let f := e.flight
        let f := { f with tags := f.tags.filter fun x => x.1 != t.tag, got := if t.read then f.got ++ [(t.addr, data)] else f.got }
        let e := { e with flight := f }
        let s := modL t.lcore (setEntry qX i e) s
        if t.read && f.tags == [] then xArrived t.lcore i l e c s else s
      | _ => s

/-! ### The staging buffer (R248) -/

/-- Where a range lies: a global address for the HBM side of a remote access, else a module address (R8). -/
def xPlace (s : State) (c : CapD) (r : XRange) : Nat × Nat := (if r.side == .remote && xRemote s c then xGlobal c r.a else r.a, r.n)

/-- The destination of an instruction of the X queue that has not completed, for the overlap test; none where it is a tile whose size
rests on a preamble that an instruction before it may still write. -/
def xDestOf (s : State) (l : LCore) (e : QE) : Option (List (Nat × Nat)) :=
  match e.pl with
  | .ins c =>
    if !e.started && dSparse c.dA then none
    else
      let rs := xRanges s.mem c (readableOf s l c) (xRemote s c)
      some (if e.started then e.flight.dst ++ ((rs.filter fun r => r.dst && r.side == .remote).map (xPlace s c))
        else (rs.filter (·.dst)).map (xPlace s c))
  | _ => some []

/-- The source extents of instruction `i` keep clear of the destinations of every earlier one (R248). -/
def stageClear (s : State) (l : LCore) (i : Nat) (src : List (Nat × Nat)) : Bool :=
  ((queue l qX).take i).all fun e => match xDestOf s l e with
    | some ds => ds.all fun d => src.all fun r => !rangesMeet r d
    | none => false

/-- An XLOAD or XGATHER that has not been read ahead. -/
def stageNext (e : QE) : Bool := match e.pl with
  | .ins c => !e.started && e.staged.isNone && e.err.isNone && e.flight.tags == [] && (c.op == 0 || c.op == 2)
  | _ => true

/-- Reads ahead for instruction `i`: first its check, whose failure is raised when it reaches the head (R268), then source bytes of HBM
while the buffer has room; from another module they are asked for, a tile's preamble first. -/
def stageFor (ci i : Nat) (l : LCore) (e : QE) (c : CapD) (s : State) : State :=
  let remote := xRemote s c
  let room := 65536 - stagedBytes l
  let pre := xAsksPreamble s l e c
  let rs := xRanges s.mem c (readableOf s l c) remote
  let hbm := fun (rs : List XRange) => rs.filter fun r => !r.dst && (r.side == .hbm || r.side == .remote)
  let src := if pre then [(xGlobal c (dBase c.dA), 64)] else (hbm rs).map (xPlace s c)
  let first := dSparse c.dA && !stageClear s l i [(if remote then xGlobal c (dBase c.dA) else dBase c.dA, 64)]
  if room < 64 || first || !stageClear s l i src || xBad s c rs then s
  else if pre then
    match xSendAll ci e.n l.die (prefixMember c.xa) true (readReqs [(dBase c.dA, 64)]) [] s with
    | .error a => xArriveFail ci i e c (cFAB_NOROUTE, some (xGlobal c a)) s
    | .ok (s, tags) => modL ci (setEntry qX i { e with flight := ⟨tags, [], true, [], [], none⟩ }) s
  else match xCheck s l c s.mem with
    | .error err => modL ci (setEntry qX i { e with err := some err }) s
    | .ok rs =>
      if remote then
        match xSendAll ci e.n l.die (prefixMember c.xa) true (readReqs (takeLines room (xSources s.mem c))) [] s with
        | .error a => xArriveFail ci i e c (cFAB_NOROUTE, some (xGlobal c a)) s
        | .ok (s, tags) =>
          modL ci (setEntry qX i (if tags = [] then { e with staged := some [] } else { e with flight := ⟨tags, [], false, [], [], none⟩ })) s
      else
        let bs := (takeLines room ((hbm rs).map fun r => (r.a, r.n))).map fun r => (r.1, s.mem.bytes r.1 r.2)
        modL ci (setEntry qX i { e with staged := some bs }) s

/-- STAGING_READ: the first instruction of the queue that may be read ahead, in queue order; a wait marker stops the read. -/
def stageRead (ci : Nat) (s : State) : State :=
  match getL s ci with
  | none => s
  | some l =>
    if !coreRuns s l then s
    else match (enumFrom 0 (queue l qX)).find? fun p => stageNext p.2 with
      | none => s
      | some (i, e) => match e.pl with
        | .ins c => stageFor ci i l e c s
        | _ => s

end Sys2Proof.Machine
end

