-- ==== Sys2Proof/Machine/Flags.lean ====
section
/-! DEFINITION. The block has no flags register. Its conditions are the COND field of CMP, the logic field of PLOG and the
condition field of VCMP (R104, R610). -/
namespace Sys2Proof.Machine

/-- CMP: `a COND b`; none for the undefined codes 6 and 7 (R104). -/
def cmpCond (cond : Nat) (a b : Word) : Option Bool :=
  match cond with
  | 0 => some (a == b)
  | 1 => some (a != b)
  | 2 => some (a.slt b)
  | 3 => some (a.sle b)
  | 4 => some (a.ult b)
  | 5 => some (a.ule b)
  | _ => none

/-- PLOG: IMM32[1:0] 0 AND, 1 OR, 2 XOR, 3 AND-NOT (R104). -/
def plogOp (op : Nat) (a b : Bool) : Bool :=
  match op with
  | 0 => a && b
  | 1 => a || b
  | 2 => a != b
  | _ => a && !b

/-- VCMP: 1.0 or 0.0 by CTRL[49:47]: 0 EQ, 1 NE, 2 LT, 3 LE; with a NaN, NE alone is 1.0 (R104, R610). -/
def vcmp (cond : Nat) (a b : F32) : F32 :=
  let va := f32Val a
  let vb := f32Val b
  let t := match cond with
    | 0 => va.eq vb
    | 1 => !va.eq vb
    | 2 => va.lt vb
    | _ => va.lt vb || va.eq vb
  if t then 0x3F800000 else 0

end Sys2Proof.Machine
end

