-- ==== Sys2Proof/Machine/Vector.lean ====
section
/-! DEFINITION. The vector engine and the V queue (R104, R106, R188, R312, R319, R608 to R610). A V instruction is complete as it
starts. -/
namespace Sys2Proof.Machine

/-! ### Residues (R312, R319) -/

/-- A 31-bit word rotated left. -/
def rotl31 (m k : Nat) : Nat := (m * 2 ^ k) % 2 ^ 31 + (m * 2 ^ k) / 2 ^ 31

/-- The residue r(x) of an FP32 value (R312). -/
def residue (x : F32) : Nat :=
  let b := bits x.toNat 23 8
  let f := bits x.toNat 0 23
  if b = 255 then 0
  else
    let (m, b1) := if b = 0 then (f, 1) else (2 ^ 23 + f, b)
    let r := rotl31 m ((b1 + 30) % 31) % resMod
    if x.getLsbD 31 && r != 0 then resMod - r else r

/-- VRESADD of two raw words (R319). -/
def resAdd (a b : F32) : F32 :=
  if a.getLsbD 31 || b.getLsbD 31 then 0x80000000 else BitVec.ofNat 32 ((a.toNat + b.toNat) % resMod)

/-! ### Operands (R608, R609) -/

/-- Operations of the V queue by OP. -/
def vScalarOk (op : Nat) : Bool := decide (op ≤ 6) || op == 0x10 || op == 0x21
def vReadsB (op : Nat) : Bool := vScalarOk op
def vReadsC (op : Nat) : Bool := op == 3
/-- Operands are full-width pairs. -/
def vPairs (op : Nat) : Bool := op == 0x10 || op == 0x11 || op == 0x12
def vScalar (c : CapD) : Bool := c.ctrl.testBit 0
def vSel (c : CapD) : Nat := bits c.ctrl 1 3

/-- Descriptors a V operation reads, dD last (R608). -/
def vDescs (c : CapD) : List Desc :=
  [c.dA] ++ (if vReadsB c.op && !vScalar c then [c.dB] else []) ++ (if vReadsC c.op then [c.dC] else []) ++ [c.dD]

/-- Same RANK and window lengths in every dimension in which `skip` does not hold. -/
def sameWindows (a b : Desc) (skip : Nat → Bool) : Bool :=
  dRank a == dRank b && ((dDims a).all fun i => skip i || dLen a i == dLen b i)

def evenWindow (d : Desc) : Bool := dLo d 0 % 2 == 0 && dEnd d 0 % 2 == 0

/-- The types and shapes of R609. -/
def vShapeOk (c : CapD) : Bool :=
  let ds := vDescs c
  (ds.all fun d => !dSparse d) &&
  match c.op with
  | 0x10 => ds.all fun d => dType d == 0 && sameWindows c.dA d (fun _ => false) && evenWindow d
  | 0x11 => dType c.dA == 0 && dType c.dD == 0 && decide (vSel c < dRank c.dA) && sameWindows c.dA c.dD (fun i => i == vSel c) &&
      evenWindow c.dA && evenWindow c.dD
  | 0x12 => dType c.dA == 0 && dType c.dD == 0 && sameWindows c.dA c.dD (fun i => i == 0) &&
      decide (dLen c.dA 0 ≤ 2 * dLen c.dD 0) && evenWindow c.dA
  | 0x18 => dType c.dA == 0 && dType c.dD == 1 && sameWindows c.dA c.dD (fun i => i == 0) && decide (dLen c.dA 0 ≤ dLen c.dD 0)
  | 0x19 => dType c.dA == 1 && dType c.dD == 0 && sameWindows c.dA c.dD (fun _ => false)
  | _ => ds.all fun d => dType d == 0 && sameWindows c.dA d (fun _ => false)

/-- The checks of a V operation, with the first failing byte (R241, R609): windows, the unmapped tail of the own one, shapes. -/
def vErr (l : LCore) (c : CapD) : Option XErr :=
  let rs := (vDescs c).filterMap fun d => let e := extent d; if e.2 = 0 then none else some (⟨e.1, e.2, .scratch, false⟩ : XRange)
  (rs.findSome? (windowErr l)).orElse fun _ =>
    (rs.findSome? fun r => if inOwnScratch l r.a r.n then none else some (cADDR_UNMAPPED, some (max r.a (winBase l + scratchBytes)))).orElse fun _ =>
      if vShapeOk c then none else some (cVEC_SHAPE, none)

/-! ### Results -/

/-- A word that is NaN is written as the quiet NaN (R610). -/
def quiet (x : F32) : F32 := if f32IsNan x then qnan else x

def vUnary (op : Nat) (a : F32) : F32 :=
  match op with
  | 0x08 => fexp2 a
  | 0x09 => flog2 a
  | 0x0A => frsqrt a
  | 0x0B => frcp a
  | _ => BitVec.ofNat 32 (residue a)

def vBinary (op cond : Nat) (a b c : F32) : F32 :=
  match op with
  | 0 => fadd a b
  | 1 => fsub a b
  | 2 => fmul a b
  | 3 => ffma a b c
  | 4 => fmin a b
  | 5 => fmax a b
  | 6 => vcmp cond a b
  | _ => resAdd a b

/-- An FP32 source element at a window position (R255, R256). -/
def srcWord (m : Mem) (d : Desc) (w : List Nat) : F32 := BitVec.ofNat 32 (elemPad m (dZeroPad d) d w)

/-- A window position with dimension 0 replaced. -/
def withDim0 (w : List Nat) (x : Nat) : List Nat := match w with
  | [] => []
  | _ :: ws => x :: ws

/-- The pair at the position of pair `j` (R609). -/
def srcPair (m : Mem) (d : Desc) (w : List Nat) (j : Nat) : Pair :=
  if validEmpty d then pairZero
  else if posValid d (withDim0 w (2 * j)) then ⟨BitVec.ofNat 32 (elemAt m d (withDim0 w (2 * j))), BitVec.ofNat 32 (elemAt m d (withDim0 w (2 * j + 1)))⟩
  else if dZeroPad d then pairZero
  else
    let p := clampPos d (withDim0 w (2 * j))
    let k := (p.headD 0) / 2
    ⟨BitVec.ofNat 32 (elemAt m d (withDim0 p (2 * k))), BitVec.ofNat 32 (elemAt m d (withDim0 p (2 * k + 1)))⟩

/-- VPRED along dimension `dim` at the other coordinates of `w` (R188). -/
def predPair (m : Mem) (d : Desc) (dim : Nat) (w : List Nat) : Pair :=
  let n := if dim = 0 then dLen d 0 / 2 else dLen d dim
  let ps := (List.range n).filterMap fun k =>
    let w' := if dim = 0 then withDim0 w (2 * k) else w.set dim k
    if posValid d w' then some (⟨BitVec.ofNat 32 (elemAt m d w'), BitVec.ofNat 32 (elemAt m d (withDim0 w' (w'.headD 0 + 1)))⟩ : Pair) else none
  match ps with
  | [] => pairZero
  | p :: ps => ps.foldl pairAdd p

/-- Every destination element of a V operation and its value, inside dD's valid window (R257). -/
def vWrites (m : Mem) (c : CapD) : List (List Nat × Nat) :=
  let d := c.dD
  let ws := (positions (dLens d)).filter (posValid d)
  let bWord : F32 := BitVec.ofNat 32 (c.xa.toNat % 2 ^ 32)
  match c.op with
  | 0x10 =>
    ws.map fun w =>
      let j := w.headD 0 / 2
      let b := if vScalar c then ⟨bWord, 0⟩ else srcPair m c.dB w j
      let p := pairAdd (srcPair m c.dA w j) b
      (w, (if w.headD 0 % 2 = 0 then quiet p.s else quiet p.t).toNat)
  | 0x11 =>
    let dim := vSel c
    (ws.filter fun w => if dim = 0 then decide (w.headD 0 < 2) else w.getD dim 0 == 0).map fun w =>
      let p := predPair m c.dA dim (withDim0 w (w.headD 0 / 2 * 2))
      (w, (if w.headD 0 % 2 = 0 then quiet p.s else quiet p.t).toNat)
  | 0x12 =>
    (ws.filter fun w => decide (2 * w.headD 0 < dLen c.dA 0)).map fun w => (w, (pairFold (srcPair m c.dA w (w.headD 0))).toNat)
  | 0x18 =>
    (ws.filter fun w => decide (w.headD 0 < dLen c.dA 0)).map fun w =>
      let v := f32Val (srcWord m c.dA w)
      (w, match v with
        | .nan => 0x7FC0
        | .inf n => if n then 0xFF80 else 0x7F80
        | .fin n k e => ieeeRound 8 7 n k e)
  | 0x19 =>
    ws.map fun w =>
      let x := elemPad m (dZeroPad c.dA) c.dA w
      (w, (quiet (BitVec.ofNat 32 (x * 65536))).toNat)
  | op =>
    ws.map fun w =>
      let a := srcWord m c.dA w
      if vReadsB op then
        let b := if vScalar c then bWord else srcWord m c.dB w
        (w, (vBinary op (vSel c) a b (if vReadsC op then srcWord m c.dC w else 0)).toNat)
      else (w, (vUnary op a).toNat)

/-- Starts and completes the next instruction of the V queue, if it can start. -/
def startV (ci : Nat) (s : State) : Option State :=
  match getL s ci with
  | none => none
  | some l =>
    if !coreRuns s l then none
    else match headOf l qV with
      | none => none
      | some (i, e) =>
        match e.pl with
        | .ins c =>
          match takePort l false s with
          | none => none
          | some s =>
            let s := setL ci (dropEntry qV i l) s
            match vErr l c with
            | some err => some (streamFault ci qV e.pc c.op err.1 err.2 s)
            | none => some { s with mem := (vWrites s.mem c).foldl (fun m w => putElem c.dD w.1 w.2 m) s.mem }
        | _ => none

end Sys2Proof.Machine
end

