-- ==== Sys2Proof/Machine/Reduce.lean ====
section
/-! DEFINITION. Gradient reduction (R300 to R321): buckets and shares, the orders of RING and TREE2, the adders and their residue
checks, final checks, and the G queue. -/
namespace Sys2Proof.Machine

/-! ### Bucket records (R300, R301) -/

structure BRec where
  id : BitVec 32
  packets : Nat
  order : Nat
  flags : Nat
  deadline : Nat
  shares : Nat
  groupAddr : Nat
  members : Nat
  catchWord : Word
  statusAddr : Nat
  zeroOk : Bool
  deriving DecidableEq, Repr

def brecRead (m : Mem) (a : Nat) : BRec :=
  let b := m.bytes a 64
  ⟨BitVec.ofNat 32 (bodyNat b 0 4), bodyNat b 4 4, bodyNat b 8 1, bodyNat b 9 1, bodyNat b 0xA 2, bodyNat b 0xC 2, bodyNat b 0x10 8,
   bodyNat b 0x18 2, BitVec.ofNat 64 (bodyNat b 0x20 8), bodyNat b 0x28 8,
   bodyNat b 0xE 2 == 0 && bodyNat b 0x1A 6 == 0 && bodyNat b 0x30 16 == 0⟩

def groupRead (m : Mem) (r : BRec) : List Nat := (List.range r.members).map fun i => m.readN (r.groupAddr + 2 * i) 2

/-- Entries with equal ward are consecutive. -/
def wardsRun : List Nat → Bool
  | [] => true
  | w :: ws => wardsRun ws && ((ws.dropWhile fun x => x == w).all fun x => x != w)

def brecOk (s : State) (a : Nat) (r : BRec) : Bool :=
  decide (a % 64 = 0) && inKind s 2 a 64 && r.zeroOk &&
  decide (1 ≤ r.packets ∧ r.packets ≤ 131072 ∧ r.order ≤ 1 ∧ r.flags ≤ 1 ∧ 1 ≤ r.deadline ∧ 1 ≤ r.shares ∧ r.shares ≤ 256 ∧
    r.groupAddr % 64 = 0 ∧ 2 ≤ r.members ∧ r.members ≤ 16384) &&
  inKind s 2 r.groupAddr (2 * r.members) && cwZero r.catchWord && !cwRemote r.catchWord &&
  decide (cwLcore r.catchWord < lcoreCount s) &&
  (r.statusAddr == 0 || (decide (r.statusAddr % 8 = 0) && inKind s 1 r.statusAddr 8)) &&
  (let g := groupRead s.mem r
   (g.all fun e => decide (e < 16384)) && ((g.filter fun e => e == (ownId s).toNat).length == 1) &&
   (r.order == 0 || wardsRun (g.map fun e => e / 256)))

/-! ### Shares (R302) -/

def gComp (c : CapD) : Bool := c.ctrl.testBit 0
def gFirst (c : CapD) : Nat := bits c.ctrl 1 17
/-- Packets of a share: its outer positions. -/
def sharePackets (d : Desc) : Nat := dLen d 1 * if dRank d = 3 then dLen d 2 else 1
/-- Outer position of packet `k` of a share, dimension 1 fastest. -/
def packetPos (d : Desc) (k : Nat) : List Nat := if dRank d = 3 then [k % dLen d 1, k / dLen d 1] else [k]

def ownHbm (s : State) (d : Desc) : Bool := let e := extent d; e.2 == 0 || hbmRange s.fuses e.1 e.2

/-- R302: types, ranks, the dimension-0 window, the same shape, and dA and dD equal or apart. -/
def gredShapeOk (c : CapD) : Bool :=
  dType c.dA == 0 && !dSparse c.dA && (dRank c.dA == 2 || dRank c.dA == 3) && dLen c.dA 0 == (if gComp c then 128 else 64) &&
  dType c.dD == 0 && !dSparse c.dD && dRank c.dD == dRank c.dA && ((dDims c.dA).all fun i => dLen c.dA i == dLen c.dD i) &&
  (let e := extent c.dA; decide (e.1 + e.2 ≤ hbmEnd)) && (let e := extent c.dD; decide (e.1 + e.2 ≤ hbmEnd)) &&
  (c.dA == c.dD || !rangesMeet (extent c.dA) (extent c.dD))

/-- The checks of R303 at the head, then the address map and the regions (R21, R71). -/
def gredErr (s : State) (l : LCore) (c : CapD) : Option Code :=
  if !gredShapeOk c then some cRD_SHAPE
  else
    let a := c.xa.toNat
    let r := brecRead s.mem a
    let n := sharePackets c.dA
    let first := gFirst c
    let overlap := match s.step.buckets.find? fun b => b.id == r.id with
      | some b => b.launched.any fun h => decide (first < h.first + sharePackets h.dA ∧ h.first < first + n)
      | none => false
    if !brecOk s a r || (gComp c != (r.flags == 1)) || decide (r.packets < first + n) || overlap then some cRD_BUCKET
    else if !ownHbm s c.dA || !ownHbm s c.dD then some cADDR_UNMAPPED
    else let e := extent c.dD; if storeAllowed s (some l) e.1 e.2 then none else some cSTEP_REGION

/-! ### Who adds and who sends (R309, R310) -/

/-- What one member does for one packet: the ranks whose partials it adds, in order; the rank it sends its sum to, none when
it holds the result; the ranks it sends the result to. -/
structure RedPlan where
  recvs : List Nat
  up : Option Nat
  down : List Nat
  deriving DecidableEq, Repr

/-- RING: chunk `j` of R members, for own rank `m` (R309). -/
def ringPlan (r j m : Nat) : RedPlan :=
  let next := (m + 1) % r
  ⟨if m = (j + 1) % r then [] else [(m + r - 1) % r], if m = j then none else some next, if next = j then [] else [next]⟩

/-- Chunk of a packet (R309). -/
def chunkOf (r packets p : Nat) : Nat := ((List.range r).find? fun j => decide (p < (j + 1) * packets / r)).getD 0

/-- Members of a binary tree of `n` from which `i` receives, in order of distance (R310). -/
def binRecvs (n i : Nat) : List Nat :=
  ((List.range 15).filter fun d => decide (2 ^ d < n ∧ i % 2 ^ (d + 1) = 0 ∧ i + 2 ^ d < n)).map fun d => i + 2 ^ d
/-- The member to which `i`, not 0, sends. -/
def binParent (i : Nat) : Nat :=
  match (List.range 15).find? fun d => decide (i % 2 ^ (d + 1) ≠ 0) with
  | some d => i - 2 ^ d
  | none => 0

/-- First ranks of the ward groups of TREE2 (R310). -/
def leadersOf : Nat → Option Nat → List Nat → List Nat
  | _, _, [] => []
  | i, prev, w :: ws => if prev = some w then leadersOf (i + 1) prev ws else i :: leadersOf (i + 1) (some w) ws

/-- TREE2 for own rank `m` of a group with the given wards. -/
def treePlan (wards : List Nat) (m : Nat) : RedPlan :=
  let ls := leadersOf 0 none wards
  let g := (ls.filter fun x => decide (x ≤ m)).length - 1
  let lead := ls.getD g 0
  let n := (ls.getD (g + 1) wards.length) - lead
  let inner := (binRecvs n (m - lead)).map fun i => lead + i
  if m ≠ lead then ⟨inner, some (lead + binParent (m - lead)), inner⟩
  else
    let outer := (binRecvs ls.length g).map fun k => ls.getD k 0
    ⟨inner ++ outer, if g = 0 then none else some (ls.getD (binParent g) 0), inner ++ outer⟩

/-- Own rank in a bucket's group. -/
def groupRank (s : State) (b : Bucket) : Nat := (firstIdx (· == ownId s) b.group).getD 0

def planOf (s : State) (b : Bucket) (p : Nat) : RedPlan :=
  let m := groupRank s b
  if b.tree then treePlan (b.group.map memberWard) m else ringPlan b.group.length (chunkOf b.group.length b.packets p) m

/-! ### Packets and adders (R312 to R317) -/

def modM (a : Nat) : Nat := a % resMod
def laneSum (ls : List F32) : Nat := modM (ls.foldl (fun v x => v + residue x) 0)

/-- The invariant of R315, and the words it refuses (R316). -/
def redInvariant (p : RedPkt) : Bool :=
  decide (p.check.toNat < resMod ∧ p.tail.toNat < resMod) && modM (laneSum p.lanes + p.tail.toNat) == p.check.toNat

def laneFinite (x : F32) : Bool := (f32Val x).isFin

/-- Residue of an exact value, a multiple of 2^−149 (R312). -/
def exactRes (x : Dy) : Nat := ((x.m * 2 ^ (x.e + 149).toNat) % (resMod : Int)).toNat

/-- What the rounded word `w` leaves of the sum of two finite words, exact (R313). -/
def errOf (u v w : F32) : Dy := ((f32Val u).dy.add (f32Val v).dy).sub (f32Val w).dy

/-- The residue of what rounding drops of a sum (R313). -/
def sumErr (u v : F32) : Nat := exactRes (errOf u v (fadd u v))

/-- One plain lane: the sum, and the residue it drops. A lane that is not finite has residue 0, and what its inputs carried is
dropped (R317). -/
def addLane (u v : F32) : F32 × Nat :=
  let w := fadd u v
  if laneFinite w then (w, sumErr u v) else (w, residue u + residue v)

/-- Every word that a pair addition handles is finite. -/
def pairFinite (a b p : Pair) : Bool := [a.s, a.t, b.s, b.t, p.s, p.t].all laneFinite

/-- One compensated lane: the pair, and the residue it drops (R314). -/
def addPairLane (a b : Pair) : Pair × Nat :=
  let p := pairAdd a b
  if pairFinite a b p then (p, sumErr a.t b.t + sumErr (twoSum a.s b.s).2 (fadd a.t b.t))
  else
    let r := residue a.s + residue a.t + residue b.s + residue b.t
    (p, r + (resMod - residue p.s) + (resMod - residue p.t))

/-! ### The step check (R315) -/

/-- An exact error is at most half an ulp of the word `w`. -/
def halfUlp (w : F32) (e : Dy) : Bool :=
  let half : Dy := ⟨1, (max (bits w.toNat 23 8) 1 : Int) - 151⟩
  !half.lt e && !half.lt e.neg

/-- One rounded sum in the unit's output buffer: `w` stands for u + v. -/
def sumStepOk (u v w : F32) : Bool :=
  modM (residue w + sumErr u v) == modM (residue u + residue v) && halfUlp w (errOf u v w)

/-- The step check of a plain lane; a lane that is not finite has residue 0 (R317). -/
def laneStepOk (u v w : F32) : Bool := !([u, v, w].all laneFinite) || sumStepOk u v w

/-- The step check of a compensated lane: the sum, q, and the error word. -/
def pairStepOk (a b p : Pair) : Bool :=
  let q := fadd a.t b.t
  !pairFinite a b p || (sumStepOk a.s b.s p.s && sumStepOk a.t b.t q && sumStepOk (twoSum a.s b.s).2 q p.t)

/-- Lanes of a compensated packet as pairs. -/
def lanePairs : List F32 → List Pair
  | s :: t :: ls => ⟨s, t⟩ :: lanePairs ls
  | _ => []

/-- The adder: packet `u`, arriving, and `v`, the own contribution (R313, R314, R317). -/
def redAdd (u v : RedPkt) : RedPkt :=
  let (lanes, dropped) : List F32 × Nat :=
    if u.comp then
      let rs := (lanePairs u.lanes).zipWith addPairLane (lanePairs v.lanes)
      (rs.flatMap fun r => [r.1.s, r.1.t], rs.foldl (fun n r => n + r.2) 0)
    else
      let rs := u.lanes.zipWith addLane v.lanes
      (rs.map (·.1), rs.foldl (fun n r => n + r.2) 0)
  { v with lanes := lanes, nonfinite := u.nonfinite || v.nonfinite || !lanes.all laneFinite,
           check := BitVec.ofNat 32 (modM (u.check.toNat + v.check.toNat)),
           tail := BitVec.ofNat 32 (modM (u.tail.toNat + v.tail.toNat + dropped)) }

/-- The step check of an adder's output lanes `w` for the inputs `u` and `v`. -/
def lanesStepOk (comp : Bool) (u v w : List F32) : Bool :=
  if comp then (((lanePairs u).zip (lanePairs v)).zip (lanePairs w)).all fun x => pairStepOk x.1.1 x.1.2 x.2
  else ((u.zip v).zip w).all fun x => laneStepOk x.1.1 x.1.2 x.2

/-! ### State of the buckets -/

def getBucket (s : State) (id : BitVec 32) : Option Bucket := s.step.buckets.find? fun b => b.id == id
def modBucket (id : BitVec 32) (f : Bucket → Bucket) (s : State) : State :=
  { s with step := { s.step with buckets := s.step.buckets.map fun b => if b.id = id then f b else b } }

/-- The launched share that holds a packet. -/
def shareOf (b : Bucket) (p : Nat) : Option Share :=
  b.launched.find? fun h => decide (h.first ≤ p ∧ p < h.first + sharePackets h.dA)

def modShare (id : BitVec 32) (n lcore : Nat) (f : Share → Share) (s : State) : State :=
  modBucket id (fun b => { b with launched := b.launched.map fun h => if h.n = n ∧ h.lcore = lcore then f h else h }) s

/-- The reduction unit that adds the packets of a die (R311). -/
def unitFor (s : State) (d : Nat) : Nat := smGet id s.step.unitOf d

/-- Own contribution of a packet, as a packet (R302, R313). -/
def ownPacket (s : State) (b : Bucket) (h : Share) (p : Nat) : RedPkt :=
  let w := packetPos h.dA (p - h.first)
  let lanes := (List.range (dLen h.dA 0)).map fun i => (BitVec.ofNat 32 (elemZero s.mem h.dA (i :: w)) : F32)
  { bucket := b.id, step := BitVec.ofNat 16 (fld s RDU_STEP_STAT_STEP), attempt := BitVec.ofNat 8 s.step.attempt, comp := b.comp,
    nonfinite := !lanes.all laneFinite, result := false, packet := p, srcRank := groupRank s b, lanes := lanes,
    check := BitVec.ofNat 32 (laneSum lanes), tail := 0 }

/-- Die whose HBM holds the local contribution of a packet. -/
def packetDie (h : Share) (p : Nat) : Nat := dieOfAddr (dBase h.dA + posIndex h.dA (0 :: packetPos h.dA (p - h.first)) * 4) % 8

/-! ### Failures (R320) -/

def redSrcCode : RedSrc → Nat
  | .port n => n
  | .knuckle d => 16 + d
  | .hbm => 24
  | .adder => 25

/-- The stack that holds the local contribution of a packet at die `d`. -/
def packetStack (s : State) (d : Nat) (p : RedPkt) : Nat :=
  match (getBucket s p.bucket).bind fun b => shareOf b p.packet with
  | some h => stackOf (dBase h.dA + posIndex h.dA (0 :: packetPos h.dA (p.packet - h.first)) * 4) % 32
  | none => 4 * d

/-- Fences a reduction unit; another takes its packets from the next attempt or step on (R311, R328). -/
def unitFence (d : Nat) (s : State) : State := setFld (RDU_UNIT_FENCED d) 1 s

/-- The part that a failed check blames (R320): the unit that added, or the path by which the packet came. -/
def redBlame (d u : Nat) (src : RedSrc) (p : RedPkt) (s : State) : State :=
  let det := BitVec.ofNat 64 (p.bucket.toNat + p.packet * 2 ^ 32)
  match src with
  | .adder => unitFence u (report cRD_CHECK (srcOf u 8 0) det s)
  | .port n =>
    modPort n (fun q => { q with pathTicks := tickNow s :: q.pathTicks })
      (addFld (FAB_PORT_COUNT_PATH_FAILS (n / 2) (n % 2)) 1 (report cRD_PATH (srcOf (n / 2) 7 n) det s))
  | .knuckle k =>
    let i := lastKnuckle k d
    report cRD_PATH (srcOf ((knuckleDie i).getD 8) 6 i) det
      { s with peer := { s.peer with knuckle := smPut s.peer.knuckle i (tickNow s :: (smFind s.peer.knuckle i).getD []) } }
  | .hbm => report cRD_PATH (srcOf d 5 (packetStack s d p)) det s

/-- What `RDU_LAST_FAIL` and the counter of unit `u` record of a failed check (R320). -/
def redRecord (u kind : Nat) (src : RedSrc) (p : RedPkt) (s : State) : State :=
  setFld (RDU_LAST_FAIL_BUCKET_ID u) p.bucket.toNat (setFld (RDU_LAST_FAIL_PACKET u) p.packet
    (setFld (RDU_LAST_FAIL_KIND u) kind (setFld (RDU_LAST_FAIL_SOURCE u) (redSrcCode src)
    (setFld (RDU_LAST_FAIL_ATTEMPT u) p.attempt.toNat (addFld (RDU_COUNT_CHECK_FAILS u) 1 s)))))

/-- A failed check of kind 1 step, 2 input, 3 final, on a packet at die `d` (R320): the part blamed is recorded, the bucket takes
no more results, and the step aborts with cause CHECK. -/
def redFail (d kind : Nat) (src : RedSrc) (p : RedPkt) (s : State) : State :=
  let u := unitFor s d
  originate 2 noMember p.bucket
    (modBucket p.bucket (fun b => { b with failed := true }) (redBlame d u src p (redRecord u kind src p s)))

/-! ### Results (R304, R318) -/

/-- Writes of results by reduction unit `u` that the latch holds (R401). -/
def heldReds (s : State) (u : Nat) : Nat :=
  s.lat.map.foldl (fun n e => n + (e.2.held.filter fun w => w.path == .reduction u).length) 0

/-- A unit that has 16 writes held stops until one is released (R401). -/
def unitStopped (s : State) (u : Nat) : Bool := decide (16 ≤ heldReds s u)

/-- Unit `u` writes a packet's result into dD: the valid words through the latch, the others counted (R302). -/
def redWrite (u die : Nat) (h : Share) (p : RedPkt) (s : State) : State :=
  let d := h.dD
  let w := packetPos d (p.packet - h.first)
  let ok := posValid d (dLo d 0 :: w) && decide (dLo d 0 < dEnd d 0)
  let n := if ok then dEnd d 0 - dLo d 0 else 0
  let s := if ok then
      hbmWrite (plainWrite (.reduction u) (dBase d + posIndex d (dLo d 0 :: w) * 4)
        (((p.lanes.drop (dLo d 0)).take n).flatMap fun x => leBytes 4 x.toNat)) s
    else s
  addFld (MEM_XF_COUNT_DROPPED die) (dLen d 0 - n) s

/-- Sends a reduction packet to a rank of the group. -/
def redSend (b : Bucket) (die rank : Nat) (p : RedPkt) (s : State) : Option State :=
  let k := mkPacket s 1 (b.group.getD rank 0) 15 die 0 (.reduction p)
  (sendFrom die k s).map fun s => if p.nonfinite then addFld (RDU_COUNT_NONFINITE die) 1 s else s

/-- Sends to several ranks; false at the first without a route. -/
def redSendAll (b : Bucket) (die : Nat) (p : RedPkt) : List Nat → State → State × Bool
  | [], s => (s, true)
  | r :: rs, s => match redSend b die r p s with
    | none => (s, false)
    | some s => redSendAll b die p rs s

/-- A program fault of the GRED that launched a share. -/
def shareFault (h : Share) (code : Code) (s : State) : State :=
  let pc := match getL s h.lcore with
    | some l => ((l.greds.find? fun g => g.n == h.n).map (·.pc)).getD 0
    | none => 0
  programFault h.lcore qG pc code s

/-- A result at its final receiver: NONFINITE acts, the words are written, and the result goes on (R309, R310, R318). -/
def redResult (b : Bucket) (h : Share) (p : RedPkt) (s : State) : State :=
  let u := unitFor s (packetDie h p.packet)
  if p.nonfinite && !fldOn s RDU_STEP_CTRL_NONFINITE_ACT then shareFault h cRD_NONFINITE s
  else
    let s := if b.failed then s else redWrite u (dieOf s h.lcore) h p s
    let s := modBucket b.id (fun b => { b with nonfinite := b.nonfinite || p.nonfinite }) s
    let s := modShare b.id h.n h.lcore (fun h => { h with done := if h.done.contains p.packet then h.done else h.done ++ [p.packet] }) s
    let out := { p with result := true, srcRank := groupRank s b }
    let (s, ok) := redSendAll b u out (planOf s b p.packet).down s
    if ok then s else shareFault h cFAB_NOROUTE s

/-! ### Adding (R307, R309, R310) -/

def getPartial (s : State) (id : BitVec 32) (p : Nat) : Option Partial :=
  s.step.partials.find? fun x => x.bucket == id && x.packet == p
def putPartial (x : Partial) (s : State) : State :=
  { s with step := { s.step with partials := x :: s.step.partials.filter fun y => !(y.bucket == x.bucket && y.packet == x.packet) } }

def partialPkt (own : RedPkt) (x : Partial) : RedPkt :=
  { own with lanes := x.lanes, check := BitVec.ofNat 32 x.check, tail := BitVec.ofNat 32 x.tail, nonfinite := x.nonfinite }
def pktPartial (id : BitVec 32) (adds : Nat) (p : RedPkt) : Partial :=
  ⟨id, p.packet, adds, p.lanes, p.check.toNat, p.tail.toNat, p.nonfinite, none⟩

/-- The sum of an arriving packet and what the unit holds, with the lanes it was made from. -/
def addPartial (id : BitVec 32) (adds : Nat) (u v : RedPkt) : Partial :=
  { pktPartial id adds (redAdd u v) with ins := some (u.lanes, v.lanes) }

/-- The packet in the output buffer of a unit fails its step check, or the invariant (R315). -/
def stepCheckFails (s : State) (p : RedPkt) : Bool :=
  !redInvariant p || match (getPartial s p.bucket p.packet).bind (·.ins) with
    | some (u, v) => !lanesStepOk p.comp u v p.lanes
    | none => false

/-- Carries a packet of a launched share as far as the packets held allow and its unit runs: adds each partial in its order, and sends the
sum, or hands over the result. -/
def redAdvance (id : BitVec 32) (p : Nat) : Nat → State → State
  | 0, s => s
  | fuel + 1, s =>
    match getBucket s id with
    | none => s
    | some b => match shareOf b p with
      | none => s
      | some h =>
        let plan := planOf s b p
        let own := ownPacket s b h p
        let x := (getPartial s id p).getD (pktPartial id 0 own)
        let u := unitFor s (packetDie h p)
        if plan.recvs.length < x.adds || unitStopped s u then s
        else if x.adds = plan.recvs.length then
          let s := putPartial { x with adds := x.adds + 1 } s
          let out := partialPkt own x
          match plan.up with
          | none => redResult b h out s
          | some r => (redSend b u r out s).getD (shareFault h cFAB_NOROUTE s)
        else
          let from_ := plan.recvs.getD x.adds 0
          match s.step.heldPkts.find? fun k => k.2.2.bucket == id && k.2.2.packet == p && !k.2.2.result && k.2.2.srcRank == from_ with
          | none => putPartial x s
          | some k =>
            let s := { s with step := { s.step with heldPkts := s.step.heldPkts.filter fun y => y != k } }
            let s := addFld (RDU_COUNT_PACKETS u) 1 s
            redAdvance id p fuel (putPartial (addPartial id (x.adds + 1) k.2.2 (partialPkt own x)) s)

/-- A checked packet of the open attempt whose share is launched (R309, R310). -/
def redTake (d : Nat) (src : RedSrc) (p : RedPkt) (s : State) : State :=
  match getBucket s p.bucket with
  | none => s
  | some b => match shareOf b p.packet with
    | none => s
    | some h =>
      if b.failed then s
      else if p.result then
        if h.done.contains p.packet then s
        else if unitStopped s (unitFor s (packetDie h p.packet)) then { s with step := { s.step with heldPkts := s.step.heldPkts ++ [(d, src, p)] } }
        else redResult b h p s
      else redAdvance p.bucket p.packet 40 { s with step := { s.step with heldPkts := s.step.heldPkts ++ [(d, src, p)] } }

/-- Bytes in a die's hold buffer (R307). -/
def heldBytes (s : State) (d : Nat) : Nat :=
  (s.step.heldPkts.filter fun k => k.1 == d).foldl (fun n k => n + if k.2.2.comp then 536 else 280) 0

/-- A packet of the attempt arrives before its share is launched: held while the buffer has room; none where it has not. -/
def redHold (d : Nat) (src : RedSrc) (p : RedPkt) (s : State) : Option State :=
  let n := if p.comp then 536 else 280
  if heldBytes s d + n ≤ fld s (RDU_UNIT_HOLD_BUF_KIB d) * 1024 then
    some { s with step := { s.step with heldPkts := s.step.heldPkts ++ [(d, src, p)] } }
  else none

/-! ### Launch (R303, R304) -/

/-- Takes up the packets of a launched share: its own contributions with the partials held for them, then the results held. -/
def redShare (id : BitVec 32) (h : Share) (s : State) : State :=
  let n := sharePackets h.dA
  let s := (List.range n).foldl (fun s i => redAdvance id (h.first + i) 40 s) s
  let early := s.step.heldPkts.filter fun k => k.2.2.bucket == id && k.2.2.result && decide (h.first ≤ k.2.2.packet ∧ k.2.2.packet < h.first + n)
  early.foldl (fun s k => redTake k.1 k.2.1 k.2.2
    { s with step := { s.step with heldPkts := s.step.heldPkts.filter fun y => y != k } }) s

/-- A GRED that passes its checks hands its share to the reduction units and leaves the queue. -/
def gredLaunch (ci : Nat) (e : QE) (c : CapD) (s : State) : State :=
  let r := brecRead s.mem c.xa.toNat
  let h : Share := ⟨ci, e.n, gFirst c, c.dA, c.dD, [], false⟩
  let b : Bucket := (getBucket s r.id).getD ⟨r.id, r.packets, r.order == 1, r.flags == 1, r.deadline, r.shares,
    (groupRead s.mem r).map (BitVec.ofNat 16), r.catchWord, r.statusAddr, [], false, false, false, false⟩
  let b := { b with launched := b.launched ++ [h] }
  let s := { s with step := { s.step with buckets := s.step.buckets.filter (fun x => x.id != r.id) ++ [b] } }
  let s := modL ci (fun l => { l with greds := l.greds ++ [⟨e.n, r.id, h.first, e.pc⟩] }) s
  redShare r.id h s

/-- A unit that had stopped goes on once a write of its has left the latch (R401). -/
def redRetry (s : State) : State :=
  s.step.buckets.foldl (fun s b => b.launched.foldl (fun s h => redShare b.id h s) s) s

/-! ### GALLG, GBCAST, and the G queue (R104, R108) -/

/-- The tensor that a GALLG or GBCAST writes. -/
def gOut (c : CapD) : Desc := if c.op = 1 then c.dD else c.dA

/-- The code of one operand of a GALLG or GBCAST: one in a scratch window other than the own breaks R241, one that lies neither in
present HBM nor in the scratch part of the own window R21. -/
def gPlaceErr (s : State) (l : LCore) (d : Desc) : Option Code :=
  let e := extent d
  if e.2 == 0 || hbmRange s.fuses e.1 e.2 || inOwnScratch l e.1 e.2 then none
  else if xScratchKind e.1 && !rangeIn e.1 e.2 (winBase l) 0x800000 then some cXF_WINDOW
  else some cADDR_UNMAPPED

/-- The operands of a GALLG or GBCAST lie where they may, and what it writes is allowed (R21, R71, R241). -/
def gmoveErr (s : State) (l : LCore) (c : CapD) : Option Code :=
  let out := extent (gOut c)
  ((if c.op = 1 then [c.dA, c.dD] else [c.dA]).findSome? (gPlaceErr s l)).orElse fun _ =>
    if decide (out.1 < hbmEnd) && !storeAllowed s (some l) out.1 out.2 then some cSTEP_REGION else none

/-- Gives the valid positions of a descriptor undefined contents, row by row; granules of HBM become dirty (R410). -/
def forgetValid (d : Desc) (s : State) : State :=
  (rowRanges d).foldl (fun s r =>
    let s := if r.1 < hbmEnd then (granulesOf r.1 r.2).foldl (fun s g => setGran g { getGran s g with dirty := true } s) s else s
    forgetRange r.1 r.2 s) s

/-- What a GALLG or GBCAST writes is not for one module to say: in a run of several, what the other members contribute, and where in dD it
goes (assumption 51). The source of a broadcast keeps its dA. -/
def gOpen (s : State) (c : CapD) : Bool := multiModule s && (c.op == 1 || ownRank s != some c.xa.toNat)

/-- The writes of a GALLG or GBCAST that one module makes: in a run of one module the gathered tensor is dA itself, and the broadcast
leaves dA as it is. -/
def gWrites (ci : Nat) (c : CapD) (m : Mem) : List HWrite :=
  if c.op = 1 then
    ((positions (dLens c.dD)).filter (posValid c.dD)).flatMap fun w =>
      ((xwAt c.dD w (elemPad m (dZeroPad c.dA) c.dA w) false).write ci).split
  else []

/-- The G operation at the head makes writes, as far as the latch lets it, and leaves the queue once all have taken place (R401). -/
def gWrite (ci : Nat) (e : QE) (ws : List HWrite) (s : State) : State :=
  let ((left, hold), s) := xPush ws s
  modL ci (if left = [] ∧ hold = none then dropEntry qG 0
    else setEntry qG 0 { e with started := true, flight := { e.flight with left := left, hold := hold } }) s

/-- A GALLG or GBCAST that has been checked and may start. -/
def gmoveStart (ci : Nat) (l : LCore) (e : QE) (c : CapD) (s : State) : Option State :=
  let out := extent (gOut c)
  match (if gOpen s c then latAwait [out] s else none) with
  | some r => r
  | none =>
    (if [c.dA, gOut c].any (fun d => xScratchKind (extent d).1) then takePort l true s else some s).map fun s =>
      if gOpen s c then forgetValid (gOut c) (modL ci (dropEntry qG 0) s) else gWrite ci e (gWrites ci c s.mem) s

/-- What the head of the G queue does once its launch time is reached: up to 64 GREDs of a logical core are outstanding (R303). -/
def gStart (ci : Nat) (l : LCore) (e : QE) (c : CapD) (s : State) : Option State :=
  if c.op = 0 then
    if 64 ≤ l.greds.length || (let a := extent c.dA; hbmBad s a.1 a.2) then none else some (gredLaunch ci e c (modL ci (dropEntry qG 0) s))
  else gmoveStart ci l e c s

/-- The head of the G queue holds at a write of its own until its latch has let that write pass (R401). -/
def gResume (ci : Nat) (e : QE) (s : State) : Option State :=
  match e.flight.hold with
  | some g => if (getGran s g).st = .copying then none else some (gWrite ci e e.flight.left s)
  | none => some (gWrite ci e e.flight.left s)

/-- The head of the G queue: checked once, when it reaches the head (R303); then started when it names no launch time. One that names a
time waits for COLLECTIVE_LAUNCH (R108). -/
def startG (ci : Nat) (s : State) : Option State :=
  match getL s ci with
  | none => none
  | some l =>
    if !coreRuns s l then none
    else match queue l qG with
      | [] => none
      | e :: _ =>
        match e.pl with
        | .ins c =>
          if e.started then gResume ci e s
          else if !e.checked then
            match (if c.op = 0 then gredErr s l c else gmoveErr s l c) with
            | some code => some (programFault ci qG e.pc code (modL ci (dropEntry qG 0) s))
            | none => some (modL ci (setEntry qG 0 { e with checked := true }) s)
          else if c.xb = 0 then gStart ci l e c s
          else none
        | _ => none

end Sys2Proof.Machine
end

