-- ==== Sys2Proof/Machine/Steps.lean ====
section
/-! DEFINITION. Step regions on the module (R53, R70 to R74, R125 to R132, R398, R405, R406, R614): executing STEP.OPEN and
STEP.COMMIT, opening a step, and committing it; and the F queue. -/
namespace Sys2Proof.Machine

/-! ### Write sets (R125, R126) -/

/-- Entry `i` of a write-set list: base, granules, and whether its fields are well formed. -/
def wsEntry (m : Mem) (a i : Nat) : Nat × Nat × Bool :=
  let b := m.readN (a + 16 * i) 8
  let g := m.readN (a + 16 * i + 8) 4
  (b, g, decide (b % granBytes = 0 ∧ b < 2 ^ 43 ∧ g ≠ 0) && m.readN (a + 16 * i + 12) 4 == 0)

/-- The entry lies wholly inside one PERSISTENT region. -/
def wsInRegion (s : State) (e : Nat × Nat) : Bool := match s.img with
  | some i => i.regions.any fun r => r.kind == 0 && rangeIn e.1 (e.2 * granBytes) r.base r.len
  | none => false

def wsOverlap : List (Nat × Nat) → Bool
  | [] => false
  | e :: es => (es.any fun x => rangesMeet (e.1, e.2 * granBytes) (x.1, x.2 * granBytes)) || wsOverlap es

/-- The write set of a STEP.OPEN; none where it raises `STEP_WRITESET` (R126). -/
def wsList (s : State) (l : LCore) (list : Word) (n : Nat) : Option (List (Nat × Nat)) :=
  let a := list.toNat
  if n = 0 ∨ 1024 < n ∨ a % 64 ≠ 0 then none
  else if !inOwnScratch l a (16 * n) && !hbmRange s.fuses a (16 * n) then none
  else
    let es := (List.range n).map (wsEntry s.mem a)
    let ws := es.map fun e => (e.1, e.2.1)
    if (es.all fun e => e.2.2) && ws.all (wsInRegion s) && !wsOverlap ws then some ws else none

/-! ### Opening (R129, R398, R405, R406) -/

/-- The entry of a STEP.OPEN that a logical core has executed and that waits for its step to open. -/
def waitingOpen (l : LCore) : Option QE := match queue l qF with
  | e :: _ => match e.pl with
    | .stepOpen _ _ _ _ => if e.started then some e else none
    | _ => none
  | [] => none

/-- Write set entries that an executed STEP.OPEN holds. -/
def openEntries (e : QE) : List (Nat × Nat) := e.flight.dst.map fun r => (r.1, r.2 / granBytes)

/-- The logical cores whose executed STEP.OPEN waits, with their entries. -/
def waitingOpens (s : State) : List (Nat × QE) :=
  (enumFrom 0 s.lcores).filterMap fun p => (waitingOpen p.2).map fun e => (p.1, e)

/-- Every logical core that takes part has executed its STEP.OPEN (R129). -/
def allOpened (s : State) : Bool :=
  let ps := s.lcores.filter (takesPart s)
  ps != [] && ps.all fun l => (waitingOpen l).isSome

/-- A STEP.OPEN whose step is open completes: the logical core has the step open. -/
def openDone (c : Nat) (s : State) : State :=
  modL c (fun l => { dropEntry qF 0 l with inStep := true, closing := false, ready := false }) s

/-- Takes the waiting STEP.OPENs into the write set, protects their granules and completes them. -/
def takeOpens (s : State) : State :=
  let os := waitingOpens s
  let add := os.flatMap fun p => openEntries p.2
  let s := latProtect s.step.writeSet add s
  let s := { s with step := { s.step with writeSet := s.step.writeSet ++ add, waitFrames := none } }
  os.foldl (fun s p => openDone p.1 s) s

/-- What waits to be taken into the write set exceeds a die's whole latch part: every logical core raises `LAT_POOL` at its STEP.OPEN,
a program fault (R405). The first one's ends the image. -/
def poolFault (s : State) : State :=
  match waitingOpens s with
  | [] => s
  | (c, e) :: os =>
    programFault c qF e.pc cLAT_POOL (os.foldl (fun s o => match getL s o.1 with
      | some l => reportCore cLAT_POOL (queueUnit qF) l.phys (recordDetail o.1 qF o.2.pc 0) s
      | none => s) s)

/-- Aborts put off to this step's attempt 0 (R442): originated as the step opens, with the holds they name. -/
def runDeferred (s : State) : State :=
  let ds := s.step.deferred
  let s := { s with step := { s.step with deferred := [] } }
  ds.foldl (fun s d =>
    let s := originate 4 (d.2.getD noMember) 0 s
    match d.1 with
    | some h => holdSend h s
    | none => s) s

/-- State of a step that opens now, nothing collected. Its attempt is 0, or that of the resume designation that a replacement has
received (R452). -/
def stepBegin (ref : Nat) (s : State) : State :=
  let att := (s.step.repeatF.map (·.1)).getD 0
  let st := { s.step with any := true, attempt := att, refFrame := ref, commitF := none, repeatF := none }
  let lost := st.ownHolds.filter fun w => match w with
    | .lost _ => true
    | _ => false
  let st := { st with abortedBelow := att, ownHolds := lost, writeSet := [] }
  setStepState 1 { s with step := { st with buckets := [], partials := [], heldPkts := [] } }

/-- Whether the waiting STEP.OPENs can be taken into the write set: over the latch part, short of space, or fitting. -/
inductive OpenRoom where
  | over | short | fits
  deriving DecidableEq, Repr

def openRoom (s : State) : OpenRoom :=
  let ws := s.step.writeSet ++ (waitingOpens s).flatMap fun p => openEntries p.2
  if reserveOver s ws then .over else if reserveFits s ws then .fits else .short

/-- A replacement waits for the frame that its resume designation names (R438, R452). -/
def resumeWaits (s : State) : Bool := match s.step.repeatF with
  | some (_, f, held) => held || !isLocked s || decide (s.frame.f < f)
  | none => false

/-- The open, or the taking of STEP.OPENs into an open step, while it may have to wait for pool space (R405, R406). -/
def openTry (s : State) : State :=
  let first := !stepIsOpen s
  if first && (s.step.any || !allOpened s || resumeWaits s) then s
  else if waitingOpens s = [] then s
  else match openRoom s with
    | .over => poolFault s
    | .short => if s.step.waitFrames.isSome then s
                else { s with step := { s.step with waitFrames := some (fld s LAT_POOL_WAIT_FRAMES) } }
    | .fits => if first then runDeferred (takeOpens (stepBegin (s.frame.f + 1) s)) else takeOpens s

/-! ### Executing STEP.OPEN and STEP.COMMIT (R73, R130, R614) -/

/-- Every DRAIN issued before `n` has completed or faulted (R73). -/
def drainsDone (l : LCore) (n : Nat) : Bool :=
  (queue l qM).all fun e => decide (n ≤ e.n) || (match e.pl with | .ins c => c.op != 1 | _ => true)

/-- The stream positions of a logical core in a snapshot whose next step is `step`. -/
def snapStreams (ci : Nat) (step : Nat) (m : SMap Word) (x : Snap) : Snap :=
  if x.next = step then { x with streams := x.streams.set ci m } else x

/-- A STEP.OPEN has saved the stream positions that a cut before its step records (R412). -/
def cutStreams (ci : Nat) (step : Nat) (m : SMap Word) (s : State) : State :=
  let taken := s.lat.taken.map fun c => if c.nextStep = step then { c with streams := c.streams.set ci m } else c
  { s with lat := { s.lat with taken := taken, t1 := s.lat.t1.map (snapStreams ci step m) },
           arc := { s.arc with sealSnap := s.arc.sealSnap.map (snapStreams ci step m) } }

/-- STEP.OPEN at the head of the F queue: its checks in the order of R614, what it saves, and its wait for the step. -/
def openHead (ci : Nat) (l : LCore) (e : QE) (step list : Word) (n : Nat) (sv : Saved) (s : State) : Option State :=
  let fail := fun code => some (programFault ci qF e.pc code (modL ci (dropEntry qF 0) s))
  if !drainsDone l e.n then none
  else if l.loop || l.inStep then fail cSTEP_SEQUENCE
  else if step.toNat ≠ s.step.next then fail cSTEP_NUMBER
  else match wsList s l list n with
    | none => fail cSTEP_WRITESET
    | some ws =>
      let e' := { e with started := true, flight := { flightNone with dst := ws.map fun w => (w.1, w.2 * granBytes) } }
      let l' := { setEntry qF 0 e' l with opened := true, saved := some (step, sv) }
      some (openTry (cutStreams ci step.toNat sv.streams (setL ci l' s)))

/-- STEP.COMMIT at the head of the F queue. -/
def commitHead (ci : Nat) (l : LCore) (e : QE) (step : Word) (s : State) : Option State :=
  let fail := fun code => some (programFault ci qF e.pc code (modL ci (dropEntry qF 0) s))
  if !e.started then
    if l.loop || !l.inStep then fail cSTEP_SEQUENCE
    else if step.toNat ≠ s.step.next then fail cSTEP_NUMBER
    else some (modL ci (setEntry qF 0 { e with started := true }) s)
  else if !l.ready && queuesDone l 0x1FF e.n then
    some (modL ci (fun l => { l with ready := true, block := if l.block = some (.commit e.n) then none else l.block }) s)
  else none

/-- Starts what the F queue holds at its head. -/
def startF (ci : Nat) (s : State) : Option State :=
  match getL s ci with
  | none => none
  | some l =>
    if !coreRuns s l then none
    else match queue l qF with
      | [] => none
      | e :: _ =>
        match e.pl with
        | .fnow xd => some (setL ci (writeX (BitVec.ofNat 6 xd) (replicaTime s l.die) (dropEntry qF 0 l)) s)
        | .wait _ _ => if e.started then none else some (armWait ci qF 0 l e s)
        | .stepOpen step list n sv => if e.started then none else openHead ci l e step list n sv s
        | .stepCommit step => commitHead ci l e step s
        | _ => none

/-! ### Ready (R305) and commit (R54, R131) -/

/-- Every bucket launched in the attempt is done, and every logical core that takes part is ready. -/
def shareReady (s : State) : Bool :=
  stepState s == 1 && (s.step.buckets.all fun b => b.done) &&
  (let ps := s.lcores.filter (takesPart s); ps != [] && ps.all fun l => l.ready)

/-- A logical core's STEP.COMMIT completes at the commit. -/
def commitDone (l : LCore) : LCore :=
  if l.ready then
    let drop := match queue l qF with
      | e :: _ => match e.pl with
        | .stepCommit _ => true
        | _ => false
      | [] => false
    { (if drop then dropEntry qF 0 l else l) with inStep := false, ready := false }
  else l

/-- A logical core at its ENTRY (R103, R142, R200, R221). -/
def coreAtEntry (s : State) (ci pref phys : Nat) (loop : Bool) (codeBytes entry : Nat) (streams : SMap Word) : LCore :=
  let x : Vector Word 64 := ((Vector.replicate 64 0).set 1 (BitVec.ofNat 64 ci)).set 2 (BitVec.ofNat 64 (lcoreCount s))
  { pref := pref, phys := phys, loop := loop, codeBytes := codeBytes, entry := entry, pc := entry, seq := 0,
    x := x.set 3 (BitVec.ofNat 64 (saveArea s pref + 0x7FF000)), p := 0, d := Vector.replicate 32 0,
    qs := List.replicate 9 [], waits := [], block := none, hinge := hingeReset, hingeIssued := hingeReset, acc := [],
    accDims := [], partStop := [], engStop := [], keyrings := [keyringEmpty, keyringEmpty], cap := 512, emptyAt := [],
    streams := streams, catches := [], greds := [], saved := none, inStep := false, opened := false, closing := false,
    ready := false, halted := false, stopped := false, resident := true }

/-- Stream positions at data cursor 0: each stream's OFFSET (R200). -/
def streamOffsets (i : Image) : SMap Word :=
  (enumFrom 0 i.streamKeys).foldl (fun m p => smSet (fun _ => 0) m p.1 p.2.offset) []

/-- Which logical core of each physical core runs first (R91): the lowest numbered of those that have not halted. -/
def placeResident (p : Nat) (s : State) : State :=
  let first := firstIdx (fun l : LCore => l.phys == p && !l.halted) s.lcores
  { s with lcores := (enumFrom 0 s.lcores).map fun x => if x.2.phys = p then { x.2 with resident := some x.1 == first } else x.2 }

/-- A logical core restarts at its ENTRY on its core, with its scratch zero (R242), its catches as they were. -/
def restartEntry (ci : Nat) (s : State) : State :=
  match getL s ci, s.img with
  | some l, some i =>
    let r := coreAtEntry s ci l.pref l.phys l.loop l.codeBytes l.entry (streamOffsets i)
    setL ci { r with catches := l.catches, resident := l.resident } { s with mem := s.mem.zero (winBase l) scratchBytes }
  | _, _ => s

/-- One placement change takes effect (R93). A logical core whose state its faulted core has lost, and that no step region
restores, restarts at its ENTRY. -/
def applyMove (s : State) (m : Nat × Nat) : State :=
  match getL s m.1 with
  | none => s
  | some l =>
    let lost := (getP s l.phys).hwStopped
    let s := setL m.1 { l with phys := m.2 } s
    if lost && (l.loop || !s.step.any) then restartEntry m.1 s else s

/-- Placement changes take effect (R93). -/
def applyMoves (s : State) : State :=
  let ms := s.step.moves
  let s := ms.foldl applyMove { s with step := { s.step with moves := [] } }
  dispatchNow ((ms.map (·.2)).eraseDups.foldl (fun s p => placeResident p s) s)

/-- Opens the next step at the boundary at which its predecessor commits (R129), when logical cores take part. -/
def openNext (s : State) : State :=
  if (s.lcores.filter (takesPart s)) = [] then stepIdle s else runDeferred (stepBegin s.frame.f s)

/-- The step commits: its latch copies are released, its STEP.COMMITs complete, and the number advances. -/
def commitCore (s : State) : State :=
  let s := latCommit (modAllL commitDone s)
  let st := { s.step with next := s.step.next + 1, attempt := 0, votes := [], acks := [], closeF := none, prevLate := [] }
  let st := { st with gone := [], holds := [], tallied := false, commitF := none }
  stepIdle (assignUnits { s with step := st })

end Sys2Proof.Machine
end

