-- ==== Sys2Proof/Machine/Tumbler.lean ====
section
/-! DEFINITION. The Tumbler engines and the T queue (R208, R218 to R236, R612). -/
namespace Sys2Proof.Machine

def tEng (c : CapD) : Nat := bits c.ctrl 0 1
def tZero (c : CapD) : Bool := c.ctrl.testBit 1

def keyringOf (l : LCore) (e : Nat) : Keyring := l.keyrings.getD e keyringEmpty
def setKeyring (e : Nat) (k : Keyring) (l : LCore) : LCore := { l with keyrings := l.keyrings.set e k }

/-- Empties both keyrings and returns the cap to 512 (R221). -/
def emptyKeyrings (l : LCore) : LCore := { l with keyrings := [keyringEmpty, keyringEmpty], cap := 512 }

/-- Takes effect of the emptying events whose earlier T-queue instructions have all completed (R221). -/
def emptyDue (l : LCore) : LCore :=
  let due := l.emptyAt.filter fun n => !(queue l qT).any fun e => decide (e.n < n)
  if due = [] then l else emptyKeyrings { l with emptyAt := l.emptyAt.filter fun n => !due.contains n }

/-! ### Checks at the start (R612) -/

/-- Checks 2 to 4 of a sparse operand: the reserved type, the descriptor and preamble, the type. -/
def sparseErr (m : Mem) (d : Desc) (typeOk : Nat → Bool) : Option Code :=
  let t := tileRead m (dBase d)
  if typeReserved (tileTy t) then some cTYPE_RESERVED
  else if !sparseDescOk d || !tileOk t || dType d != tileTy t then some cTB_FORMAT
  else if !tumblerType (tileTy t) || !typeOk (tileTy t) then some cTB_TYPE
  else none

/-- K of a dense B panel (R146). -/
def panelK (d : Desc) : Nat := dLen d 1 * (if dRank d = 3 then dLen d 2 else 1)

def tkeysErr (m : Mem) (l : LCore) (d : Desc) : Option Code :=
  if dSparse d then
    match sparseErr m d (fun _ => true) with
    | some e => some e
    | none =>
      let t := tileRead m (dBase d)
      if t.form = 1 && inOwnScratch l t.addr t.bytes then none else some cTB_SHAPE
  else if !tumblerType (dType d) then some cTB_TYPE
  else
    let e := extent d
    if (dRank d == 2 || dRank d == 3) && dLen d 0 == 64 && panelK d % 8 == 0 && decide (panelK d ≤ 32768) && inOwnScratch l e.1 e.2 then
      none
    else some cTB_SHAPE

/-- TPROBE's destination meets R222 for M rows. -/
def probeDestOk (l : LCore) (d : Desc) (m : Nat) : Bool :=
  let e := extent d
  dType d == 0 && dRank d == 2 && !dSparse d && inOwnScratch l e.1 e.2 && decide (m ≤ dLen d 1 ∧ 128 ≤ dLen d 0) &&
  dLo d 0 % 2 == 0 && dEnd d 0 % 2 == 0

/-- The fault with which a TPROBE starts (R222, R612); a keyring that TKEYS loaded from a panel without a non-zero slab is not empty
(DEDUCED, assumption 93). -/
def tprobeErr (m : Mem) (l : LCore) (c : CapD) : Option Code :=
  let k := keyringOf l (tEng c)
  if !k.loaded then some cTB_KEYRING
  else
    let t := tileRead m (dBase c.dA)
    -- a dense dA has no preamble: it breaks R222's requirement
    if !dSparse c.dA then (if tumblerType (dType c.dA) && mixAllowed (dType c.dA) k.ty then some cTB_SHAPE else some cTB_TYPE)
    else match sparseErr m c.dA (fun ty => mixAllowed ty k.ty) with
      | some e => some e
      | none =>
        if t.form == 0 && inOwnScratch l t.addr t.bytes && t.kblocks == k.kblocks && probeDestOk l c.dD t.lines &&
          c.xa.toNat / 2 ^ 32 == 0 then none
        else some cTB_SHAPE

/-! ### TKEYS (R218 to R220) -/

/-- The fault of a TKEYS over a PANEL tile whose slabs `kbs` hold a key, in the order of the scan: the slab of the 4,097th key comes
before every later mask (R219, R612). PRESENT is held against the popcounts when the scan ends (DESIGN CHOICE, assumption 68). -/
def keyScanErr (m : Mem) (t : Tile) (kbs : List Nat) : Option Code :=
  match kbs[4096]?, tileBadAt m t with
  | some k, some b => if b.kb ≤ k then some cTB_FORMAT else some cTB_KEYRING
  | some _, none => some cTB_KEYRING
  | none, _ => if tileScanOk m t then none else some cTB_FORMAT

/-- The keyring that a TKEYS loads, or the fault it meets during the load. -/
def tkeysLoad (m : Mem) (l : LCore) (d : Desc) : Except Code Keyring :=
  if dSparse d then
    let t := tileRead m (dBase d)
    let bs := (tileBlocks m t).filter fun b => !tileBlockZero m t b
    let kbs := (List.range t.kblocks).filter fun kb => bs.any fun b => b.kb == kb
    match keyScanErr m t kbs with
    | some code => .error code
    | none =>
      let ent := fun kb =>
        let here := (tileBlocks m t).filter fun b => b.kb == kb
        (⟨true, false, t.addr + t.payOff + (here.map (·.idx)).headD 0 * tileBlockBytes (tileTy t) - winBase l,
          here.foldl (fun v b => v ||| (1#64 <<< b.line)) 0⟩ : KeyEnt)
      .ok ⟨true, tileTy t, t.kblocks, d, kbs.map fun kb => (kb, ent kb)⟩
  else
    let n := panelK d / 8
    if 4096 < n then .error cTB_KEYRING
    else
      let ent := fun kb => (⟨true, true, dBase d + posIndex d (operandPos d false true 0 (8 * kb)) * dBits d / 8 - winBase l,
        BitVec.allOnes 64⟩ : KeyEnt)
      .ok ⟨true, dType d, n, d, (List.range n).map fun kb => (kb, ent kb)⟩

/-! ### TPROBE (R224) -/

/-- A column block of a dense panel holds only all-zero patterns, positions outside the valid window among them: it counts as absent,
as the same block of a tile would be (R214, R226). -/
def denseZero (m : Mem) (d : Desc) (kb j : Nat) : Bool :=
  (List.range 8).all fun q => let w := operandPos d false true j (8 * kb + q); !posValid d w || elemAt m d w == 0

/-- B(8 kb + q, j) of the panel, or none for an absent or zero column block. -/
def panelElem (m : Mem) (l : LCore) (k : Keyring) (e : KeyEnt) (kb j q : Nat) : Option Val :=
  if e.dense then
    if denseZero m k.desc kb j then none else some (operandVal m k.desc 0 (operandPos k.desc false true j (8 * kb + q)))
  else if !e.cols.getLsbD j then none
  else
    let w := typeBits k.ty
    let idx := ((List.range j).filter fun i => e.cols.getLsbD i).length
    let a := winBase l + e.slab + idx * w
    if m.readN a w = 0 then none else some (elemVal k.ty (readBits m a (q * w) w))

/-- The selected blocks of row `r` in ascending block index (R232). -/
def probeRow (m : Mem) (t : Tile) (cap first count r : Nat) : List TileBlock :=
  let row := ((tileBlocks m t).filter fun b => b.line == r && !tileBlockZero m t b)
  ((enumFrom 0 row).filter fun p => decide (first ≤ p.1 / cap) && (count == 0 || decide (p.1 / cap < first + count))).map (·.2)

/-- One output pair after its row's selected, matched blocks. -/
def probeOut (m : Mem) (l : LCore) (k : Keyring) (t : Tile) (row : List TileBlock) (j : Nat) (p0 : Pair) : Pair :=
  row.foldl (fun p b =>
    match smFind k.keys b.kb with
    | none => p
    | some e =>
      let ps := (List.range 8).map fun q => match panelElem m l k e b.kb j q with
        | some v => (elemVal (tileTy t) (tileElem m t b.idx q)).mul v
        | none => .fin false 0 0
      if ps.all Val.isZero then p else compAdd p (groupSum ps)) p0

/-- The result of a TPROBE in scratch, as memory, or the fault met in the scan. With ZERO at 0 an output that no group touches keeps
its starting pair, the payload of a NaN included (DESIGN CHOICE, assumption 64). -/
def tprobeRun (m : Mem) (l : LCore) (c : CapD) : Except Code Mem :=
  let t := tileRead m (dBase c.dA)
  let k := keyringOf l (tEng c)
  if !tileScanOk m t then .error cTB_FORMAT
  else
    let first := bits c.xa.toNat 0 16
    let count := bits c.xa.toNat 16 16
    .ok ((List.range t.lines).foldl (fun acc i =>
      let row := probeRow m t l.cap first count i
      (List.range 64).foldl (fun acc j =>
        if posValid c.dD [2 * j, i] then
          let p0 : Pair := if tZero c then pairZero
            else ⟨BitVec.ofNat 32 (elemAt m c.dD [2 * j, i]), BitVec.ofNat 32 (elemAt m c.dD [2 * j + 1, i])⟩
          let p := probeOut m l k t row j p0
          putElem c.dD [2 * j + 1, i] p.t.toNat (putElem c.dD [2 * j, i] p.s.toNat acc)
        else acc) acc) m)

/-! ### Faults (R235, R236) -/

/-- Poisons a TPROBE's destination, if it passes R222. -/
def probePoison (l : LCore) (c : CapD) (s : State) : State :=
  let t := tileRead s.mem (dBase c.dA)
  if !probeDestOk l c.dD t.lines then s
  else { s with mem := (positions (dLens c.dD)).foldl (fun m w => if posValid c.dD w then putElem c.dD w (poisonWord 0) m else m) s.mem }

/-- A data fault stops the engine and completes the ticket of its partition's tag. -/
def engFault (ci eng pc : Nat) (code : Code) (s : State) : State :=
  match getL s ci with
  | none => s
  | some l =>
    let s := setL ci { l with engStop := if l.engStop.contains eng then l.engStop else l.engStop ++ [eng] } s
    let tag := l.hinge.tags.getD (min eng (partCount (imgLevel s) l.hinge.mode - 1)) 0
    if tag = 0 then programFault ci qT pc code s else slotFault tag ci qT pc code 0 s

/-! ### The T queue (R227) -/

/-- A started instruction of the queue holds engine `eng`. -/
def engBusy (l : LCore) (eng i : Nat) : Bool :=
  ((queue l qT).take i).any fun e => e.started && (match e.pl with | .ins b => tEng b == eng | _ => false)

def startTkeys (ci i : Nat) (l : LCore) (e : QE) (c : CapD) (s : State) : Option State :=
  let eng := tEng c
  if l.engStop.contains eng then some (setL ci (dropEntry qT i l) s)
  else if engBusy l eng i then none
  else
    match takePort l false s with
    | none => none
    | some s =>
      let l0 := setKeyring eng keyringEmpty l
      let fail := fun code => some (engFault ci eng e.pc code (setL ci (dropEntry qT i l0) s))
      match tkeysErr s.mem l c.dB with
      | some code => fail code
      | none =>
        match tkeysLoad s.mem l c.dB with
        | .error code => fail code
        | .ok k => some (setL ci (setEntry qT i { e with started := true } (setKeyring eng k l)) s)

def startTprobe (ci i : Nat) (l : LCore) (e : QE) (c : CapD) (s : State) : Option State :=
  let eng := tEng c
  if l.engStop.contains eng then some (probePoison l c (setL ci (dropEntry qT i l) s))
  else if engBusy l eng i then none
  else
    match takePort l false s with
    | none => none
    | some s =>
      let fail := fun code => some (engFault ci eng e.pc code (probePoison l c (setL ci (dropEntry qT i l) s)))
      match tprobeErr s.mem l c with
      | some code => fail code
      | none =>
        match tprobeRun s.mem l c with
        | .error code => fail code
        | .ok m => some (setL ci (setEntry qT i { e with started := true } l) { s with mem := m })

/-- Starts the next instruction of the T queue, if it can start. -/
def startT (ci : Nat) (s : State) : Option State :=
  match getL s ci with
  | none => none
  | some l =>
    if !coreRuns s l then none
    else
      let l := emptyDue l
      let s := setL ci l s
      match headOf l qT with
      | none => none
      | some (i, e) =>
        if l.emptyAt.any (fun n => decide (n ≤ e.n)) then none
        else match e.pl with
          | .ins c =>
            if c.op = 0 then startTkeys ci i l e c s
            else if c.op = 1 then startTprobe ci i l e c s
            else if c.op = 2 then
              if l.engStop.contains (tEng c) then some (setL ci (dropEntry qT i l) s)
              else if engBusy l (tEng c) i then none
              else some (setL ci (setKeyring (tEng c) keyringEmpty (dropEntry qT i l)) s)
            else
              let v := c.xa.toNat
              if 64 ≤ v ∧ v ≤ 4096 then some (setL ci { dropEntry qT i l with cap := v } s)
              else some (programFault ci qT e.pc cTB_CAP s)
          | _ => none

end Sys2Proof.Machine
end

