-- ==== Sys2Proof/Machine/Pump.lean ====
section
/-! DEFINITION. Starting what the queues hold (R64, R247): each queue in its order, as far as it goes; and the end of a logical
core (R74, R104, R473). -/
namespace Sys2Proof.Machine

/-- Starts one instruction of a logical core, the queues taken in the order of their codes. -/
def startOne (ci : Nat) (s : State) : Option State :=
  [startM, startT, startV, startX, startC, startK, startG, startF].findSome? fun f => f ci s

def startAll (ci : Nat) : Nat → State → State
  | 0, s => s
  | fuel + 1, s => match startOne ci s with
    | none => s
    | some s => startAll ci fuel s

/-- A HALT whose queues are empty ends the logical core. The last core to halt ends the
image, whose LOAD completes. -/
def coreEnd (ci : Nat) (s : State) : State :=
  match getL s ci with
  | none => s
  | some l =>
    if l.block = some .halt ∧ !l.stopped ∧ l.qs.all List.isEmpty then
      let s := setL ci { l with halted := true, block := none } s
      if s.lcores.all fun l => l.halted then imageEnd cOK 0 s else openTry s
    else s

/-- Starts everything of a logical core that can start now. -/
def pump (ci : Nat) (s : State) : State := coreEnd ci (startAll ci 256 (modL ci emptyDue s))

/-- Starts everything on the module that can start now. -/
def pumpAll (s : State) : State := (List.range s.lcores.length).foldl (fun s c => pump c s) s

/-- Takes the oldest started instruction with a property out of a queue, with what follows from its end. -/
def finishWhere (ci q : Nat) (p : QE → Bool) (s : State) : State :=
  match getL s ci with
  | none => s
  | some l =>
    match firstIdx p (queue l q) with
    | none => s
    | some i => pump ci (setL ci (dropEntry q i l) s)

/-- A started format D instruction with the operation code. -/
def startedOp (op : Nat) (e : QE) : Bool := e.started && match e.pl with
  | .ins c => c.op == op
  | _ => false

end Sys2Proof.Machine
end

