-- ==== Sys2Proof/Machine/Issue.lean ====
section
/-! DEFINITION. Issue of the instructions of the queues (R99, R113, R133): operand capture, descriptor checks, and the place in
the queue. -/
namespace Sys2Proof.Machine

/-- Operands of a format D instruction as they stand at issue (R99). -/
def capD (op : Nat) (l : LCore) (f : FmtD) (ctrl : Nat) : CapD :=
  { op := op, dA := readD l f.dA, dB := readD l f.dB, dC := readD l f.dC, dD := readD l f.dD,
    sA := nextD l f.dA, sB := nextD l f.dB, sC := nextD l f.dC, sD := nextD l f.dD,
    xa := readX l f.xa, xb := readX l f.xb, ctrl := ctrl }

/-- What a format D instruction needs at issue. -/
structure DSpec where
  q : Nat
  op : Nat
  level : Nat
  undef : Bool
  /-- scalar registers read -/
  regs : List (BitVec 6)
  /-- descriptor registers read -/
  descs : List (BitVec 5)
  ctrl : Nat
  deriving DecidableEq, Repr

/-- Issues a format D instruction into its queue. `adj` adjusts the new entry and the logical core. -/
def issueD (c : Nat) (f : FmtD) (d : DSpec) (adj : LCore → QE → QE × LCore) (s : State) : State :=
  seqIssue c (reqD d.q d.level f d.undef d.regs)
    (fun l s =>
      match operandErr l d.descs with
      | some code => programFault c d.q l.pc code s
      | none =>
        if queueRoom l d.q then
          let (e, l') := adj l (newEntry l (.ins (capD d.op l f d.ctrl)))
          pump c (setL c (pushQ d.q e (nextWord l')) s)
        else s) s

/-- No adjustment. -/
def plainD (l : LCore) (e : QE) : QE × LCore := (e, l)

/-- A specification with every control bit as the word has it. -/
def dspec (q op level : Nat) (f : FmtD) (undef : Bool) (regs : List (BitVec 6)) (descs : List (BitVec 5)) : DSpec :=
  ⟨q, op, level, undef, regs, descs, f.ctrl.toNat⟩

/-- `MM_FOLD` of a folded MMA that waits for the entry behind it (R153): marked on the last entry of the M queue. -/
def mmFold (l : LCore) : LCore :=
  let es := queue l qM
  match es.getLast? with
  | some e => match e.pl with
    | .ins c => if c.op = 0 && !e.started then setEntry qM (es.length - 1) { e with err := some (cMM_FOLD, none) } l else l
    | _ => l
  | none => l

end Sys2Proof.Machine
end

