-- ==== Sys2Proof/Machine/Scalar.lean ====
section
/-! DEFINITION. The S queue (R104, R105): one meaning for each operation but HALT and DETENT. -/
namespace Sys2Proof.Machine

abbrev Out := Host.Outcome State Fault Refusal

/-- The answer of an event on a module that has power and is out of reset; else nothing happens. -/
def liveNext (s t : State) : Out := .next (if live s then t else s)

/-- What a word that no table defines needs at issue. -/
def undefReq (w : Word) : Req := ⟨wQueue w, wPred w, wPneg w, true, 1, []⟩

/-- NOP, or a word that no table defines, which raises `UNDEF_OP` whatever its predicate (R98, R133). -/
def execNop (c : Fin 256) (f : NopWord) (s : State) : Out :=
  .next (match f with
    | .nop f => seqIssue c (reqA f false []) (fun l s => setL c (nextWord l) s) s
    | .undef w => seqIssue c (undefReq w) (fun _ s => s) s)

def execAdd (c : Fin 256) (f : FmtA) (s : State) : Out := .next (scalarOp c f (fun a b => a + b) s)
def execSub (c : Fin 256) (f : FmtA) (s : State) : Out := .next (scalarOp c f (fun a b => a - b) s)
def execAnd (c : Fin 256) (f : FmtA) (s : State) : Out := .next (scalarOp c f (fun a b => a &&& b) s)
def execOr (c : Fin 256) (f : FmtA) (s : State) : Out := .next (scalarOp c f (fun a b => a ||| b) s)
def execXor (c : Fin 256) (f : FmtA) (s : State) : Out := .next (scalarOp c f (fun a b => a ^^^ b) s)
def execShl (c : Fin 256) (f : FmtA) (s : State) : Out := .next (scalarOp c f (fun a b => a <<< (b.toNat % 64)) s)
def execShr (c : Fin 256) (f : FmtA) (s : State) : Out := .next (scalarOp c f (fun a b => a >>> (b.toNat % 64)) s)
def execSra (c : Fin 256) (f : FmtA) (s : State) : Out := .next (scalarOp c f (fun a b => a.sshiftRight (b.toNat % 64)) s)
def execMul (c : Fin 256) (f : FmtA) (s : State) : Out := .next (scalarOp c f (fun a b => a * b) s)
def execMulhu (c : Fin 256) (f : FmtA) (s : State) : Out :=
  .next (scalarOp c f (fun a b => BitVec.ofNat 64 (a.toNat * b.toNat / 2 ^ 64)) s)
def execMin (c : Fin 256) (f : FmtA) (s : State) : Out := .next (scalarOp c f (fun a b => if a.sle b then a else b) s)
def execMax (c : Fin 256) (f : FmtA) (s : State) : Out := .next (scalarOp c f (fun a b => if a.sle b then b else a) s)

def execLi (c : Fin 256) (f : FmtL) (s : State) : Out :=
  .next (seqIssue c ⟨qS, f.pred, f.pneg, false, 1, [f.xd]⟩
    (fun l s => setL c (writeX f.xd (f.imm.signExtend 64) (nextWord l)) s) s)

/-- LUI: xd[63:20] ← IMM44; xd[19:0] kept. -/
def execLui (c : Fin 256) (f : FmtL) (s : State) : Out :=
  .next (seqIssue c ⟨qS, f.pred, f.pneg, false, 1, [f.xd]⟩
    (fun l s => setL c (writeX f.xd (f.imm ++ (readX l f.xd).extractLsb' 0 20) (nextWord l)) s) s)

/-- CMP: pd in [16:14] and COND in [19:17] of the word, which are the halves of the xd field. -/
def execCmp (c : Fin 256) (f : FmtA) (s : State) : Out :=
  .next (seqIssue c (reqA f (decide (f.xd.toNat / 8 ≥ 6)) [f.xa, f.xb])
    (fun l s => match cmpCond (f.xd.toNat / 8) (readX l f.xa) (opB l f) with
      | some v => setL c (writeP (BitVec.ofNat 3 f.xd.toNat) v (nextWord l)) s
      | none => s) s)

/-- PLOG: pd in [16:14], pa in [22:20], pb in [28:26]. -/
def execPlog (c : Fin 256) (f : FmtA) (s : State) : Out :=
  .next (seqIssue c (reqA f false [])
    (fun l s => setL c (writeP (BitVec.ofNat 3 f.xd.toNat)
      (plogOp (f.imm.toNat % 4) (readP l (BitVec.ofNat 3 f.xa.toNat)) (readP l (BitVec.ofNat 3 f.xb.toNat))) (nextWord l)) s) s)

/-- LD: the value read waits in the S queue until SCALAR_LOAD_RETURN (R100). -/
def execLd (c : Fin 256) (f : FmtA) (s : State) : Out :=
  .next (seqIssue c (reqA f false [f.xd, f.xa])
    (fun l s =>
      let a := (readX l f.xa + f.imm.signExtend 64).toNat
      match accessErr s c l a 8 false with
      | some code => programFault c qS l.pc code s
      | none =>
        if queueRoom l qS then
          let bad := decide (a < hbmEnd) && hbmBad s a 8
          setL c (pushQ qS { newEntry l (.load f.xd.toNat (BitVec.ofNat 64 (s.mem.readN a 8))) with
            started := true, err := if bad then some (cMEM_UE, some a) else none } (nextWord l)) s
        else s) s)

def execSt (c : Fin 256) (f : FmtA) (s : State) : Out :=
  .next (seqIssue c (reqA f false [f.xa, f.xb])
    (fun l s =>
      let a := (readX l f.xa + f.imm.signExtend 64).toNat
      match accessErr s c l a 8 true with
      | some code => programFault c qS l.pc code s
      | none => if queueRoom l qS then scalarStore c l a (leBytes 8 (readX l f.xb).toNat) s else s) s)

def execBr (c : Fin 256) (f : FmtB) (s : State) : Out :=
  .next (seqIssue c ⟨qS, f.pred, f.pneg, f.zero != 0, 1, []⟩ (fun l s => branchTo c l ((l.pc : Int) + 8 * f.off.toInt) s) s)

def execBrr (c : Fin 256) (f : FmtA) (s : State) : Out :=
  .next (seqIssue c (reqA f false [f.xa]) (fun l s => branchTo c l (readX l f.xa).toNat s) s)

def execCall (c : Fin 256) (f : FmtB) (s : State) : Out :=
  .next (seqIssue c ⟨qS, f.pred, f.pneg, f.zero != 0, 1, [63]⟩
    (fun l s => branchTo c (writeX 63 (BitVec.ofNat 64 (l.pc + 8)) l) ((l.pc : Int) + 8 * f.off.toInt) s) s)

def execDld (c : Fin 256) (f : FmtD) (s : State) : Out :=
  .next (seqIssue c (reqD qS 1 f (!ctrlZero 0 f) [f.xa])
    (fun l s =>
      let a := (readX l f.xa).toNat
      match accessErr s c l a 32 false with
      | some code => programFault c qS l.pc code s
      | none =>
        if decide (a < hbmEnd) && hbmBad s a 32 then s
        else setL c (writeD f.dA (BitVec.ofNat 256 (s.mem.readN a 32)) (nextWord l)) s) s)

def execDst (c : Fin 256) (f : FmtD) (s : State) : Out :=
  .next (seqIssue c (reqD qS 1 f (!ctrlZero 0 f) [f.xa])
    (readsDesc c f.dA fun l s =>
      let a := (readX l f.xa).toNat
      match accessErr s c l a 32 true with
      | some code => programFault c qS l.pc code s
      | none => if queueRoom l qS then scalarStore c l a (leBytes 32 (readD l f.dA).toNat) s else s) s)

/-- DINS: dA[POS + LEN − 1 : POS] ← xb. It writes dA and is not taken to read it, so that a descriptor can be built field by field
(DEDUCED, assumption 58). -/
def execDins (c : Fin 256) (f : FmtD) (s : State) : Out :=
  .next (seqIssue c (reqD qS 1 f (fieldUndef f) [f.xb])
    (fun l s => setL c (writeD f.dA
      (BitVec.ofNat 256 (putBits (readD l f.dA).toNat (fieldPos f) (fieldLen f) (readX l f.xb).toNat)) (nextWord l)) s) s)

/-- DEXT: xa ← dA[POS + LEN − 1 : POS], zero-extended. -/
def execDext (c : Fin 256) (f : FmtD) (s : State) : Out :=
  .next (seqIssue c (reqD qS 1 f (fieldUndef f) [f.xa])
    (readsDesc c f.dA fun l s => setL c (writeX f.xa (BitVec.ofNat 64 (bits (readD l f.dA).toNat (fieldPos f) (fieldLen f))) (nextWord l)) s) s)

def execDmov (c : Fin 256) (f : FmtD) (s : State) : Out :=
  .next (seqIssue c (reqD qS 1 f (!ctrlZero 0 f) [])
    (readsDesc c f.dB fun l s => setL c (writeD f.dA (readD l f.dB) (nextWord l)) s) s)

/-- DADV: dA.BASE advanced by x[xb] elements of dimension CTRL[48:46] (R110, R111). -/
def execDadv (c : Fin 256) (f : FmtD) (s : State) : Out :=
  .next (seqIssue c (reqD qS 1 f (!ctrlZero 3 f) [f.xb])
    (readsDesc c f.dA fun l s => match dadv (readD l f.dA) (bits f.ctrl.toNat 0 3) (readX l f.xb) with
      | some d => setL c (writeD f.dA d (nextWord l)) s
      | none => programFault c qS l.pc cDESC_FORMAT s) s)

end Sys2Proof.Machine
end

