-- ==== Sys2Proof/Machine/FCRows.lean ====
section
/-! DEFINITION. The rows of the C and F queues, HALT and DETENT (R104, R115 to R124, R130, R132, R153, R393). -/
namespace Sys2Proof.Machine

/-- R101 for format Y: control bits that the instruction does not define are zero. -/
def yZero (n : Nat) (f : FmtY) : Bool := f.ctrl.toNat >>> n == 0
def reqY (q level : Nat) (f : FmtY) (undef : Bool) (regs : List (BitVec 6)) : Req := ⟨q, f.pred, f.pneg, undef, level, regs⟩
def reqF (level : Nat) (f : FmtA) (regs : List (BitVec 6)) : Req := ⟨qF, f.pred, f.pneg, false, level, regs⟩

/-- Places an entry in a queue at issue, when it has room. -/
def placeEntry (c q : Nat) (l : LCore) (pl : Payload) (s : State) : State :=
  if queueRoom l q then pump c (setL c (pushQ q (newEntry l pl) (nextWord l)) s) else s

/-- Places a wait at issue, when every queue it needs has room (R119, R123). -/
def placeWaitIn (c q : Nat) (l : LCore) (on : WaitOn) (mask : Nat) (s : State) : State :=
  match placeWait l q on mask with
  | some l => pump c (setL c l s)
  | none => s

/-! ### C queue (R117) -/

def execCsig (c : Fin 256) (f : FmtY) (s : State) : Out :=
  .next (seqIssue c (reqY qC 1 f (!yZero 0 f) [f.xa, f.xb])
    (fun l s =>
      let w := readX l f.xa
      if csigBad s w then programFault c qC l.pc cCATCH_RANGE s
      else placeEntry c qC l (.csig w ((readX l f.xb + f.imm.zeroExtend 64).truncate 32) f.qmask.toNat) s) s)

def execCwait (c : Fin 256) (f : FmtY) (s : State) : Out :=
  .next (seqIssue c (reqY qC 1 f (!yZero 0 f) [])
    (fun l s => placeWaitIn c qC l (.reach (f.imm.toNat % 128)) f.qmask.toNat s) s)

def execCset (c : Fin 256) (f : FmtY) (s : State) : Out :=
  .next (seqIssue c (reqY qC 1 f (!yZero 2 f) [f.xa])
    (fun l s => placeEntry c qC l
      (.cset (f.imm.toNat % 128) ((readX l f.xa).truncate 32) (f.ctrl.getLsbD 0) (f.ctrl.getLsbD 1)) s) s)

def execCread (c : Fin 256) (f : FmtY) (s : State) : Out :=
  .next (seqIssue c (reqY qC 1 f (!yZero 0 f) [f.xa])
    (fun l s => placeEntry c qC l (.cread f.xa.toNat (f.imm.toNat % 128)) s) s)

/-- Sends the signal at the head of the C queue once its condition holds (R67): to the die's own catch array, or in a packet
(R393). -/
def csigSend (ci : Nat) (s : State) : State :=
  match getL s ci with
  | none => s
  | some l =>
    if !coreRuns s l then s
    else match queue l qC with
      | [] => s
      | e :: _ =>
        match e.pl with
        | .csig w amount mask =>
          if !queuesDone l mask e.n then s
          else
            let s := setL ci (dropEntry qC 0 l) s
            let dest := if cwRemote w then cwMember w else ownId s
            let p := mkPacket s 0 dest 15 l.die s.fab.nextTag (.catchSig w amount)
            if !cwRemote w || forHere s p then pump ci (deliver p s)
            else match sendFrom l.die p s with
              | none => pump ci (unitFault ci qC e.pc cFAB_NOROUTE s)
              | some s =>
                let t : Txn := ⟨s.fab.nextTag, ci, e.n, false, e.pc⟩
                pump ci { s with fab := { s.fab with nextTag := (s.fab.nextTag + 1) % 65536, txns := s.fab.txns ++ [t] } }
        | _ => s

def execCsigSend (c : Fin 256) (s : State) : Out := .next (csigSend c s)

/-- A CWAIT whose catch is reached ends; with REARM the counter falls by the target (R118, R119). -/
def cwaitEnds (ci idx : Nat) (s : State) : State :=
  match getL s ci with
  | none => s
  | some l =>
    if !coreRuns s l then s
    else match reachedWait l idx with
      | none => s
      | some e =>
        let k := catchOf l idx
        let l := if k.rearm then setCatch idx { k with counter := k.counter - k.target } l else l
        pump ci (setL ci (endWait e.n l) s)

def execCwaitEnds (c : Fin 256) (idx : Fin 128) (s : State) : Out := .next (cwaitEnds c idx s)

/-! ### Signals that arrive (R92, R120 to R122, R375, R376, R393) -/

/-- A packet of the open step whose attempt this module has aborted (R376). -/
def pktStale (s : State) (p : Packet) : Bool :=
  stepIsOpen s && p.step.toNat == s.step.next % 65536 && decide (p.attempt.toNat < s.step.abortedBelow)

/-- Answers a packet of another module from a die, with the tag it came with. -/
def answerPkt (p : Packet) (die : Nat) (b : Body) (s : State) : State :=
  let k := mkPacket s 0 p.src p.srcDie.toNat die p.tag.toNat b
  if p.src = ownId s then deliver k s else sendOrDrop die k s

/-- Acknowledges the writes of other modules that have left the latch; each leaves its receive buffer (R401). -/
def heldAcks (s : State) : State :=
  let done := s.fab.heldIn.filter fun p => match p.body with
    | .write a data _ => !latHolds s a data.length
    | _ => true
  done.foldl (fun s p => match p.body with
    | .write a _ _ => answerPkt p (dieOfAddr a % 8) .writeAck (creditBack p s)
    | _ => s) { s with fab := { s.fab with heldIn := s.fab.heldIn.filter fun p => !done.contains p } }

/-- Adds to a catch when the image has the logical core. -/
def signalHere (w : Word) (amount : BitVec 32) (s : State) : State :=
  if cwLcore w < lcoreCount s then catchAdd (cwLcore w) (cwIndex w) amount s else s

def catchSignal (w : Word) (amount : BitVec 32) (s : State) : State :=
  let (p, s) := takeInbound (fun p => p.body == .catchSig w amount) s
  match p.filter fun p => p.src != ownId s with
  | none => signalHere w amount s
  | some p =>
    let die := dieOf s (cwLcore w)
    if pktStale s p then answerPkt p die .writeAck (addFld FAB_COUNT_STALE 1 s)
    else if lcoreCount s ≤ cwLcore w then answerPkt p die (.refusal cCATCH_RANGE 0) s
    else answerPkt p die .writeAck (signalHere w amount s)

def execCatchSignal (word : Word) (amount : BitVec 32) (s : State) : Out :=
  .next (ordered (fun p => p.body == .catchSig word amount) s (catchSignal word amount s))

/-- The signal of a remote CSIG at the offset that has no answer yet. -/
def sentSignal (ci offset : Nat) (s : State) : Option Txn :=
  s.fab.txns.find? fun t => t.lcore == ci && t.addr == offset && !t.read

/-- The refusal of the signal (R122). -/
def refusedSignal (ci offset : Nat) (s : State) (p : Packet) : Bool :=
  (sentSignal ci offset s).any fun t => p.tag.toNat == t.tag && p.body == .refusal cCATCH_RANGE 0

/-- CATCH_REFUSAL (R122): the logical core takes `CATCH_RANGE` as a fault of the CSIG at the offset. -/
def catchRefusal (ci offset : Nat) (s : State) : State :=
  match sentSignal ci offset s with
  | none => s
  | some t =>
    let (p, s) := takeInbound (refusedSignal ci offset s) s
    let s := match p with
      | some p => ackOwe (dieOf s ci) p (flowAck 0 (dieOf s ci) p.src.toNat 1 s)
      | none => s
    programFault ci qC offset cCATCH_RANGE (txnTake t.tag s)

def execCatchRefusal (c : Fin 256) (offset : Nat) (s : State) : Out :=
  .next (ordered (refusedSignal c offset s) s (catchRefusal c offset s))

/-! ### F queue (R104, R123, R124) -/

def execFwait (c : Fin 256) (f : FmtY) (s : State) : Out :=
  .next (seqIssue c (reqY qF 2 f (!yZero 0 f) [f.xa])
    (fun l s => placeWaitIn c qF l (.time (readX l f.xa + f.imm.zeroExtend 64)) f.qmask.toNat s) s)

def execFnow (c : Fin 256) (f : FmtA) (s : State) : Out :=
  .next (seqIssue c (reqF 2 f [f.xd]) (fun l s => placeEntry c qF l (.fnow f.xd.toNat) s) s)

/-- The FWAIT with issue number `n` ends. -/
def fwaitEnd (ci n : Nat) (s : State) : State :=
  match getL s ci with
  | none => s
  | some l => if coreRuns s l && (reachedTimes s l).any (fun e => e.n == n) then pump ci (setL ci (endWait n l) s) else s

/-- STEP.OPEN: what it saves stands at its place in program order (R73), its stream positions as the DRAINs issued before it leave
them (`streamMoved`); the F queue checks it (R614). -/
def execStepOpen (c : Fin 256) (f : FmtA) (s : State) : Out :=
  .next (seqIssue c (reqF 2 f [f.xa, f.xb])
    (fun l s =>
      let sv : Saved := ⟨l.x, l.p, l.d, l.hingeIssued, l.streams, l.pc + 8⟩
      placeEntry c qF l (.stepOpen (readX l f.xa) (readX l f.xb) f.imm.toNat sv) s) s)

/-- STEP.COMMIT (R130): a detent of all nine queues, which empties the keyrings. -/
def execStepCommit (c : Fin 256) (f : FmtA) (s : State) : Out :=
  .next (seqIssue c (reqF 2 f [f.xa])
    (fun l s =>
      if queueRoom l qF then
        let l' := { mmFold l with closing := true, block := some (.commit l.seq), emptyAt := l.emptyAt ++ [l.seq] }
        pump c (setL c (pushQ qF (newEntry l (.stepCommit (readX l f.xa))) (nextWord l')) s)
      else s) s)

/-! ### HALT and DETENT -/

/-- The logical core has a step open in program order (R132): the last step instruction issued is a STEP.OPEN. -/
def stepOpenIssued (l : LCore) : Bool :=
  match (queue l qF).reverse.findSome? (fun e => match e.pl with
    | .stepOpen _ _ _ _ => some true
    | .stepCommit _ => some false
    | _ => none) with
  | some b => b
  | none => l.inStep

def execHalt (c : Fin 256) (f : FmtA) (s : State) : Out :=
  .next (seqIssue c (reqA f false [])
    (fun l s =>
      if stepOpenIssued l then programFault c qS l.pc cSTEP_SEQUENCE s
      else pump c (setL c { nextWord (mmFold l) with block := some .halt } s)) s)

def execDetent (c : Fin 256) (f : FmtY) (s : State) : Out :=
  .next (seqIssue c (reqY qS 1 f (!yZero 0 f) [f.xa])
    (fun l s =>
      let l' := if f.qmask.toNat.testBit qM then mmFold l else l
      let l' := { l' with block := some (.detent f.qmask.toNat l.seq ((readX l f.xa).toNat % 2 ^ 48)), emptyAt := l.emptyAt ++ [l.seq] }
      pump c (setL c (nextWord l') s)) s)

/-- SCALAR_LOAD_RETURN (R100): the oldest load of the S queue writes its register; one that met an uncorrectable error does not return
(R275). -/
def loadReturn (ci : Nat) (s : State) : State :=
  match getL s ci with
  | none => s
  | some l =>
    match firstIdx (fun e : QE => (writesReg e.pl).isSome && e.err.isNone) (queue l qS) with
    | none => s
    | some i =>
      match (queue l qS)[i]?.map QE.pl with
      | some (Payload.load xd v) => pump ci (setL ci (writeX (BitVec.ofNat 6 xd) v (dropEntry qS i l)) s)
      | _ => s

def execScalarLoadReturn (c : Fin 256) (s : State) : Out := .next (loadReturn c s)

/-- An instruction of the side could start but for the scratch port: the side has a ready access (R245). -/
def sideReady (ci : Nat) (xfer : Bool) (s : State) : Bool :=
  (if xfer then [startX, startK, startG] else [startM, startT, startV]).any fun f => (f ci s).isSome

/-- PORT_TURN_PASS (R245): the scratch port passes to the other side when that side has a ready access. -/
def portPass (phys : Nat) (s : State) : State :=
  let ci := firstIdx (fun l : LCore => l.phys == phys && l.resident) s.lcores
  match ci.bind (getL s ·), ci with
  | some l, some ci =>
    let other := !(getP s phys).xferSide
    let t := modP l.phys (fun p => { p with xferSide := other }) s
    if sideReady ci other t then pump ci t else s
  | _, _ => s

def execPortTurnPass (phys : Fin 256) (s : State) : Out := .next (portPass phys s)

end Sys2Proof.Machine
end

