-- ==== Sys2Proof/Machine/FrameOps.lean ====
section
/-! DEFINITION. The frame unit (R31 to R46, R50): boundaries, corrections, parents, and the lock state. Times are in ns of the
local timebase. -/
namespace Sys2Proof.Machine

def fState (s : State) : Nat := fld s FRM_STAT_STATE
def fRole (s : State) : Nat := fld s FRM_CTRL_ROLE
def fEnabled (s : State) : Bool := fldOn s FRM_CTRL_ENABLE

/-- Sets STATE and LOCKED. -/
def setFState (v : Nat) (s : State) : State := setFld FRM_STAT_LOCKED (if 2 ≤ v then 1 else 0) (setFld FRM_STAT_STATE v s)

def modFrame (f : FrameSt → FrameSt) (s : State) : State := { s with frame := f s.frame }

/-- Provisional length of a frame that begins now (R40, R43). -/
def frameLen (s : State) : Nat :=
  if fState s = 0 ∨ fld s FRM_PERIOD_MEASURED = 0 then fld s FRM_PERIOD_NOMINAL else fld s FRM_PERIOD_MEASURED

/-- The frame unit in FREE, counting from frame 0 (R43). -/
def frameFree (s : State) : State :=
  let n := fld s FRM_PERIOD_NOMINAL
  setFState 0 (modFrame (fun _ => { frameReset with b := s.now, len0 := n, bNext := s.now + n })
    (setFld FRM_STAT_HOLD_COUNT 0 (setFld FRM_PERIOD_MEASURED 0 (setFld FRM_STAT_HOPS 0 s))))

/-- A loss of lock (R46): the unit drops to ACQUIRE. -/
def frameLoss (cause : Nat) (code : Code) (s : State) : State :=
  let s := setFld FRM_STAT_LOSS 1 (setFld FRM_STAT_LAST_LOSS cause (addFld FRM_COUNT_LOCK_LOSSES 1 s))
  let s := modFrame (fun f => { f with good := 0, sysF := some f.f }) (setFld FRM_STAT_HOLD_COUNT 0 (setFState 1 s))
  report code (srcOf 8 11 0) (sysTime s) s

def absDiff (a b : Nat) : Nat := if a ≤ b then b - a else a - b

/-- The measured period is in the range of R44 and R46. -/
def periodOk (p : Nat) : Bool := decide (100000 ≤ p ∧ p ≤ 100000000)

/-- The first cause of R46 that a correction gives a locked unit, in the order of its table: frame number, period, offset. -/
def lossCause (s : State) (e : Nat) (num : Option Nat) (p : Option Nat) : Option (Nat × Code) :=
  let last := fld s FRM_PERIOD_MEASURED
  if num.any (· != s.frame.f) then some (2, cFRAME_SLIP)
  else if p.any fun p => !periodOk p || decide (last ≠ 0 ∧ last < 1000 * absDiff p last) then some (3, cFRAME_PERIOD)
  else if 500 < absDiff e s.frame.b then some (4, cFRAME_SKEW)
  else none

/-- A PULSE module in holdover since its parent port went down: edges do not end that, only a packet of a new parent lets the next one
do so (R37). -/
def awaitsParent (s : State) : Bool := fRole s == 1 && fState s == 3 && s.frame.parent.isNone

/-- What a correction does to the lock state (R44 to R46), with the period it measures. -/
def lockStep (e : Nat) (num : Option Nat) (p : Option Nat) (s : State) : State :=
  let st := fState s
  if st = 0 then
    -- FREE to ACQUIRE: at ROOT the next boundary bears START_FRAME
    let n := if fRole s = 2 then some ((fld s FRM_START_START_FRAME + 2 ^ 48 - 1) % 2 ^ 48) else num
    modFrame (fun f => { f with good := 0, sysF := n }) (setFState 1 s)
  else if st = 1 then
    let agree := match num, s.frame.sysF with
      | some a, some b => a == b
      | none, some _ => true
      | _, none => false
    let ok := agree && decide (absDiff e s.frame.b ≤ 250) && p.any periodOk
    let good := if ok then s.frame.good + 1 else 0
    let s := modFrame (fun f => { f with good := good, sysF := match num with | some a => some a | none => f.sysF }) s
    if 3 ≤ good ∧ (fRole s = 2 ∨ s.frame.parent.isSome) then
      let s := modFrame (fun f => { f with f := f.sysF.getD f.f, good := 0 }) s
      setFld FRM_SKEW_MAX_ABS 0 (setFld FRM_STAT_HOLD_COUNT 0 (setFState 2 s))
    else s
  else
    match lossCause s e num p with
    | some (c, code) => frameLoss c code s
    | none => if awaitsParent s then s else setFld FRM_STAT_HOLD_COUNT 0 (setFState 2 s)

/-- A correction for the current frame with parent estimate `e`, accepted at time `t` (R38, R40). An offset that does not fit 16 bits
is written modulo 2^16 to LAST_OFFSET, and counts as 65,535 in MAX_ABS; a period that does not fit 27 bits is written as 2^27 − 1: the
manual gives neither (DESIGN CHOICE, assumption 54). -/
def frameCorrect (e t : Nat) (num : Option Nat) (s : State) : State :=
  let p := s.frame.est.map fun x => (e - x.1) / max 1 (s.frame.f - x.2)
  let len := p.getD (frameLen s)
  let off := (e : Int) - s.frame.b
  let ph := phaseAt s.frame.b s.frame.len0 s.frame.bNext none t
  let s := lockStep e num p s
  let s := modFrame (fun f => { f with est := some (e, f.f), corr := some (t, ph), bNext := max (e + len) (t + 1) }) s
  let s := match p with
    | some p => setFld FRM_PERIOD_MEASURED (min p (2 ^ 27 - 1)) s
    | none => s
  let a := min off.natAbs 65535
  setFld FRM_SKEW_MAX_ABS (max a (fld s FRM_SKEW_MAX_ABS)) (setFld FRM_SKEW_LAST_OFFSET (off % 65536).toNat s)

/-- Takes a parent estimate when it comes (R39): in FREE at any phase; else up to phase 4,096, or, in the last 4,096 phase units
of a frame, for the boundary to come. -/
def frameEstimate (e t : Nat) (num : Option Nat) (s : State) : State :=
  let s := { s with now := max s.now t }
  let ph := phaseNow s
  if fState s = 0 then (if s.frame.corr.isSome then s else frameCorrect e s.now num s)
  else if ph ≤ 4096 then (if s.frame.corr.isSome || s.frame.closed then s else frameCorrect e s.now num s)
  else if 65536 - 4096 ≤ ph then modFrame (fun f => { f with early := some (e, num) }) s
  else s

/-! ### Parents (R35 to R37) -/

/-- The port with the lowest hop count, the lowest port on a tie. -/
def bestSender : SMap Nat → Option Nat
  | [] => none
  | (n, h) :: m => match bestSender m with
    | none => some n
    | some k => if smGet (fun _ => 8) m k < h then some k else some n

/-- A port goes down: it supplies no parent, and a locked module is in holdover until a packet of the best remaining port. -/
def parentLost (n : Nat) (s : State) : State :=
  let was := s.frame.parent == some n
  let s := modFrame (fun f => { f with senders := smErase f.senders n, parent := if was then none else f.parent }) s
  if was && fRole s != 2 && fState s == 2 then setFState 3 s else s

/-! ### Boundaries -/

/-- The frame packet of a boundary on one port (R34, R372, R380): ahead of what is queued, but for the rest of a packet of which a part is
sent already (DESIGN CHOICE, assumption 72). The emission offset is a free value. -/
def sendFrame (s : State) (n : Nat) : State :=
  if !portUp s n then s
  else
    let v1 := decide (fld s (pVersion n) < 2)
    let p : FramePkt := ⟨BitVec.ofNat 48 s.frame.f, if v1 then 0 else fld s FRM_STAT_HOPS, if v1 then 0 else fld s FRM_PERIOD_MEASURED,
      if v1 then 0 else (freeNow s).toNat, true, 0⟩
    let k := mkPacket s 3 0 15 8 0 (.frame p)
    freeStep (modPort n (fun q => { q with txq := k :: q.txq }) s)

/-- The boundary b(f+1): the next frame begins (R38, R40, R50). -/
def frameBegin (s : State) : State :=
  let s := { s with now := max s.now s.frame.bNext }
  let len := frameLen s
  let s := modFrame (fun f =>
    let g := { f with f := (f.f + 1) % 2 ^ 48, b := f.bNext, len0 := len, bNext := f.bNext + len, corr := none, early := none }
    let n := f.sysF.map fun n => (n + 1) % 2 ^ 48
    { g with closed := false, sysF := n, prev := some (f.b, f.len0, f.bNext, f.corr) }) s
  setFld FRM_TICK_AT_SUBTICK (s.now - s.kpr.tickStart) (setFld FRM_TICK_AT_TICK (tickNow s) s)

/-- FRAME_BOUNDARY: the boundary, a correction that came just before it, and the frame packets of a locked module. -/
def frameBoundary (s : State) : State :=
  let early := s.frame.early
  let s := frameBegin s
  let s := match early with
    | some (e, num) => frameCorrect e s.frame.b num s
    | none => s
  let s := { s with step := { s.step with waitFrames := s.step.waitFrames.map (· - 1) } }
  if isLocked s then (List.range 16).foldl sendFrame s else s

/-- Consecutive holdover frames allowed (R45). -/
def holdLimit (s : State) : Nat :=
  let p := fld s FRM_PERIOD_MEASURED
  if p = 0 then fld s FRM_CTRL_HOLD_MAX else min (fld s FRM_CTRL_HOLD_MAX) (100000000 / p)

/-- CORRECTION_WINDOW_CLOSE (R39, R45): phase 4,096 passes. Without a correction the boundary counts as missing. A frame that a PULSE
module spends in holdover because it has no parent counts as a holdover frame too (R37; DEDUCED, assumption 55). -/
def windowClose (s : State) : State :=
  if s.frame.closed then s
  else
    let t := s.frame.b + ceilDiv (4097 * s.frame.len0) 65536
    let s := modFrame (fun f => { f with closed := true }) { s with now := if s.frame.corr.isSome then s.now else max s.now t }
    if s.frame.corr.isSome && !awaitsParent s then s
    else match fState s with
      | 0 => s
      | 1 => modFrame (fun f => { f with good := 0 }) s
      | _ =>
        let s := addFld FRM_COUNT_HOLDOVER_FRAMES 1 (addFld FRM_STAT_HOLD_COUNT 1 (setFState 3 s))
        if holdLimit s < fld s FRM_STAT_HOLD_COUNT then frameLoss 1 cFRAME_LOST s else s

end Sys2Proof.Machine
end

