-- ==== Sys2Proof/Machine/Fabric.lean ====
section
/-! DEFINITION. The fabric ports (R365 to R392, R446): flits and retry, bring-up, loss of a link, and the routing of packets. -/
namespace Sys2Proof.Machine

/-! ### Port fields -/

def pGroup (n : Nat) : Fld := FAB_PORT_STAT_GROUP (n / 2) (n % 2)
def pWidth (n : Nat) : Fld := FAB_PORT_STAT_WIDTH (n / 2) (n % 2)
def pLanes (n : Nat) : Fld := FAB_PORT_STAT_LANES_GOOD (n / 2) (n % 2)
def pCause (n : Nat) : Fld := FAB_PORT_STAT_FAIL_CAUSE (n / 2) (n % 2)
def pDelay (n : Nat) : Fld := FAB_PORT_STAT_DELAY_NS (n / 2) (n % 2)
def pEnable (n : Nat) : Fld := FAB_PORT_CTRL_ENABLE (n / 2) (n % 2)
def pRetries (n : Nat) : Fld := FAB_PORT_ERR_RETRIES (n / 2) (n % 2)
def portSrc (n : Nat) : Nat := srcOf (n / 2) 7 n

/-- A port of the variant whose link is up or in a fast retrain. -/
def portLive (s : State) (n : Nat) : Bool := hasPort s.fuses n && (portUp s n || (getPort s n).fast)

/-- Enters a bring-up state. -/
def portState (n v : Nat) (s : State) : State := modPort n (fun p => { p with stateAt := s.now }) (setFld (pState n) v s)

/-! ### Loss of a link (R383) -/

/-- A packet carries the open step and attempt. -/
def pktOpen (s : State) (p : Packet) : Bool :=
  stepIsOpen s && p.step.toNat == s.step.next % 65536 && p.attempt.toNat == s.step.attempt % 256

/-- A port leaves UP other than by a fast retrain: what it held is lost, flows are unbound, and the step aborts when the module's
open attempt was among it. The port goes to state `v`; its bring-up is retried under R446. -/
def portDown (n v : Nat) (s : State) : State :=
  let q := getPort s n
  let lost := (q.retry.flatMap (·.pkts) ++ (q.cur.map (·.1)).toList ++ q.txq).any (pktOpen s)
  let s := setPort n { portReset with rx := q.rx.map fun r => { r with units := 0 }, retries := 1, retryTick := tickNow s,
                                      pathTicks := q.pathTicks } s
  let s := { s with fab := { s.fab with flows := s.fab.flows.filter fun f => f.port != n } }
  let s := portState n v (addFld (FAB_PORT_COUNT_DOWN_EVENTS (n / 2) (n % 2)) 1 s)
  let s := parentLost n (report cFAB_LINK_DOWN (portSrc n) 0 s)
  if lost then originate 4 noMember 0 s else s

/-- Enters FAILED with a cause of `FAIL_CAUSE`, its record if it has one. -/
def portFail (n cause : Nat) (code : Option Code) (s : State) : State :=
  let s := match code with
    | some c => report c (portSrc n) 0 s
    | none => s
  let s := setFld (pCause n) cause s
  let s := if (getPort s n).fast then portDown n 7 s else portState n 7 s
  -- the third retry of R446 failed: the port stays DISABLED
  if (getPort s n).retries = 4 then modPort n (fun p => { p with retries := 0 }) (portState n 0 s) else s

/-- The full bring-up from DISABLED (R377, R382). -/
def portBringup (n : Nat) (s : State) : State :=
  let s := if portLive s n then portDown n 0 s else s
  if fldOn s (pEnable n) && hasPort s.fuses n && !s.peer.retired then portState n 1 (setFld (pCause n) 0 s) else portState n 0 s

/-! ### Width and delay (R377, R379) -/

/-- Width and lane group that a mask of good lanes leaves. -/
def lanesWidth (m : Nat) : Option (Nat × Nat) :=
  if m = 255 then some (8, 0) else if m % 16 = 15 then some (4, 0) else if m / 16 = 15 then some (4, 1) else none

/-- Link delay of 16 samples of round trip less turnaround; none when they must be taken again. -/
def linkDelay (tries : Nat) (ds : List Nat) : Option Nat :=
  if ds.length ≠ 16 then none
  else if 20 < ds.foldl max 0 - ds.foldl min (ds.headD 0) && decide (tries < 4) then none
  else some (ds.foldl (· + ·) 0 / 32)

/-- The own bitting record (R378, R385). -/
def ownBitting (s : State) (n : Nat) : Bitting :=
  { magic := 0x4254, verMin := fld s KPR_VERSION_FABRIC_MIN, verMax := fld s KPR_VERSION_FABRIC_MAX, peerKind := 0, port := n,
    id := ownId s, lanesGood := BitVec.ofNat 8 (fld s (pLanes n)),
    caps := BitVec.ofNat 8 (fld s CAPS_B_KEYWAY + 2 * fld s CAPS_B_COMP_WIRE + 4) }

/-- The port enters BITTING: it sends its record eight times, and awaits the other end's (R378). -/
def bittingBegin (n : Nat) (s : State) : State :=
  modPort n (fun p => { p with recOut := List.replicate 8 (ownBitting s n), lastRec := none, tries := 0 }) s

/-- The record accepted of those received: the first that comes twice in succession and bears MAGIC (R378). -/
def bittingAgreed : List Bitting → Option Bitting
  | a :: b :: rs => if a = b ∧ a.magic = 0x4254 then some a else bittingAgreed (b :: rs)
  | _ => none

/-- Lanes of the port that carry traffic: a fast retrain uses no other (R381, R382). -/
def lanesInUse (s : State) (n : Nat) : Nat :=
  if fld s (pWidth n) = 8 then 255 else if fld s (pGroup n) = 0 then 15 else 240

/-- Takes the partner's record (R378): the fields of `FAB_PORT_PEER`, the version and the width. -/
def bittingAccept (n : Nat) (r : Bitting) (s : State) : State :=
  let d := n / 2
  let i := n % 2
  let s := setFld (FAB_PORT_PEER_KIND d i) r.peerKind (setFld (FAB_PORT_PEER_PORT d i) r.port (setFld (FAB_PORT_PEER_ID d i) r.id.toNat
    (setFld (FAB_PORT_PEER_VERSION_MAX d i) r.verMax (setFld (FAB_PORT_PEER_CAPS d i) r.caps.toNat s))))
  let v := min 2 r.verMax
  if v < max 1 r.verMin then portFail n 2 (some cFAB_VERSION) s
  else match lanesWidth (fld s (pLanes n) &&& r.lanesGood.toNat) with
    | none => portFail n 1 (some cFAB_LANE) s
    | some (w, g) => setFld (pVersion n) v (setFld (pWidth n) w (setFld (pGroup n) g s))

/-- The port reaches UP with a measured delay, or fails for it. -/
def portDelay (n delay : Nat) (s : State) : State :=
  let s := setFld (pDelay n) (min delay 1023) s
  if 1000 < delay then portFail n 3 (some cFAB_DELAY) s
  else
    let s := modPort n (fun p => { p with fast := false, retries := 0, tries := 0, lastAck := s.now, lastProgress := s.now }) s
    portState n 6 s

def fastStart (n : Nat) (s : State) : State :=
  if portUp s n then
    modPort n (fun p => { p with fast := true, tries := 0 }) (portState n 2 (addFld (FAB_PORT_COUNT_LANE_EVENTS (n / 2) (n % 2)) 1 s))
  else s

/-! ### Flits (R366 to R370). A port puts one flit on its lanes for each that it receives, since both directions of a link run at one
rate (DESIGN CHOICE, assumption 71). -/

/-- A flit on the link (R367). -/
def flitBits (f : Flit) : FlitBits :=
  let b := leBytes 2 (f.seq + (if f.idle then 4096 else 0)) ++ leBytes 2 (f.ack + (if f.nak then 4096 else 0)) ++
    f.credits.flatMap (leBytes 2 ·) ++ f.payload
  BitVec.ofNat 4096 (leNat (b ++ leBytes 8 (crc64 b)))

/-- Position of the oldest queued packet for which there are credits; no packet overtakes one of its class and virtual lane (R370). -/
def readyPkt (credits : List Nat) : List Nat → List Packet → Option Nat
  | _, [] => none
  | blocked, p :: ps =>
    let i := laneIndex p
    if !blocked.contains i && decide (packetUnits p ≤ credits.getD i 0) then some 0
    else (readyPkt credits (i :: blocked) ps).map (· + 1)

/-- Packs packets into the payload of a flit without gaps (R367); a packet takes its credits when its first byte is sent. -/
def flitFill : Nat → Port → List Byte → List Packet → Port × List Byte × List Packet
  | 0, p, bs, ks => (p, bs, ks)
  | fuel + 1, p, bs, ks =>
    if 484 ≤ bs.length then (p, bs, ks)
    else match p.cur with
      | some (k, left) =>
        let m := 484 - bs.length
        flitFill fuel { p with cur := if left.length ≤ m then none else some (k, left.drop m) } (bs ++ left.take m) (ks ++ [k])
      | none => match readyPkt p.credits [] p.txq with
        | none => (p, bs, ks)
        | some i => match p.txq[i]? with
          | none => (p, bs, ks)
          | some k =>
            flitFill fuel { p with txq := dropAt p.txq i, cur := some (k, packetBytes k),
                                   credits := listMod p.credits (laneIndex k) (· - packetUnits k) } bs ks

/-- Sends a payload flit of the retry buffer, the one numbered `i` of those not acknowledged. -/
def flitOut (i : Nat) (f : SentFlit) (p : Port) : Port :=
  let w : Flit := ⟨(p.txAck + 1 + i) % 4096, false, (p.rxNext + 4095) % 4096, p.nakDue, f.credits, f.payload⟩
  { p with out := some w, nakDue := false, txNext := i + 1 }

/-- The next flit of a port: one to be sent again, a new one while the retry buffer has room, else an idle flit (R367, R368). -/
def flitSend (now : Nat) (p : Port) : Port :=
  match p.retry[p.txNext]? with
  | some f => flitOut p.txNext f p
  | none =>
    let (q, bs, ks) := if p.retry.length < 1024 then flitFill 64 p [] [] else (p, [], [])
    let q := { q with returns := List.replicate 8 0 }
    if bs = [] then
      { q with out := some ⟨(p.txAck + p.retry.length) % 4096, true, (p.rxNext + 4095) % 4096, p.nakDue, p.returns, List.replicate 484 flitPad⟩,
               nakDue := false }
    else
      let f : SentFlit := ⟨p.returns, bs ++ List.replicate (484 - bs.length) flitPad, ks⟩
      let q := if p.retry = [] then { q with lastAck := now, lastProgress := now } else q
      flitOut p.retry.length f { q with retry := q.retry ++ [f] }

/-- ACK and NAK of a flit taken (R368): acknowledged flits leave the retry buffer, and a NAK sends the rest again. -/
def flitAck (now a : Nat) (p : Port) : Port :=
  let fresh := (a % 4096 + 4096 - p.txAck) % 4096
  let p := if fresh = 0 ∨ p.retry.length < fresh then p
    else { p with txAck := a % 4096, retry := p.retry.drop fresh, txNext := p.txNext - fresh, lastAck := now, lastProgress := now }
  if a.testBit 12 then { p with txNext := 0 } else p

/-- The packets that a payload flit completes go to the receive buffers of the port (R370). -/
def flitPackets (now : Nat) (payload : List Byte) (p : Port) : Port :=
  let b := p.rxBytes ++ payload
  let (ps, left) := packetsParse now b.length b
  { p with rxBytes := left, rx := p.rx ++ ps.map fun k => ⟨k, laneIndex k, packetUnits k, false⟩ }

/-- A flit that is discarded: the first of a gap is answered with a NAK (R368). -/
def flitDiscard (p : Port) : Port := { p with nakDue := p.nakDue || !p.nakSent, nakSent := true }

/-- Codewords that the FEC corrected, and that it could not (R366, R395). -/
def fecCount (n : Nat) (cws : List Codeword) (s : State) : State :=
  let own := cws.filter (·.begins)
  addFld (FAB_PORT_ERR_FEC_UNCORR (n / 2) (n % 2)) (own.filter fun c => decide (15 < c.errors)).length
    (addFld (FAB_PORT_ERR_FEC_CORR (n / 2) (n % 2)) (own.filter fun c => decide (1 ≤ c.errors ∧ c.errors ≤ 15)).length s)

/-- What a port takes from a flit: a bad one, and a payload flit out of sequence, is discarded whole. -/
def flitTake (now : Nat) (b : List Byte) (bad : Bool) (p : Port) : Port :=
  let w := bodyNat b 0 2
  let idle := decide (w / 4096 ≠ 0)
  if bad || (!idle && w % 4096 != p.rxNext) then flitDiscard p
  else
    let p := flitAck now (bodyNat b 2 2) p
    let p := { p with credits := (enumFrom 0 p.credits).map fun x => x.2 + bodyNat b (4 + 2 * x.1) 2 }
    if idle then p else flitPackets now ((b.drop 0x14).take 484) { p with rxNext := (p.rxNext + 1) % 4096, nakSent := false }

/-- FLIT_RECEIVED: a flit is bad by its CRC or by an uncorrectable codeword that it overlaps. A NAK taken begins a resend episode where
anything is unacknowledged. -/
def flitReceived (n : Nat) (flit : FlitBits) (cws : List Codeword) (s : State) : State :=
  if !portUp s n then s
  else
    let b := leBytes 512 flit.toNat
    let bad := cws.any (fun c => decide (15 < c.errors)) || bodyNat b 0x1F8 8 != crc64 (b.take 0x1F8)
    let p := getPort s n
    let q := flitTake s.now b bad p
    let again := q.txNext < p.txNext - (p.retry.length - q.retry.length)
    let s := setPort n (flitSend s.now q) (fecCount n cws s)
    if again then addFld (pRetries n) 1 s else s

/-! ### Routing (R386 to R391) -/

/-- Drops a packet in transit (R388, R389). -/
def dropTransit (f : Fld) (code : Code) (src : Nat) (p : Packet) (s : State) : State :=
  report code src (BitVec.ofNat 64 p.dest.toNat) (addFld f 1 s)

/-- Forwards a packet that is not for this module. -/
def forwardPkt (src : Nat) (p : Packet) (s : State) : State :=
  if 32 ≤ p.hops + 1 then dropTransit FAB_COUNT_HOPS cFAB_HOPS src p s
  else
    let p := { p with hops := p.hops + 1 }
    match hashedPort p (routeSet s p) with
    | some n => enqueue n p s
    | none => dropTransit FAB_COUNT_NOROUTE cFAB_NOROUTE src p s

/-- To be resolved on this module (R344, R386). -/
def toResolve (s : State) (p : Packet) : Bool := p.destDie == 14 && memberWard p.dest == fld s FAB_ID_WARD

/-- Where a packet stands in a port's receive buffers: behind another of its flow it waits (R374); one that the command brings without
its flits has its place in the buffer all the same. -/
def rxPlace (q : Port) (p : Packet) : Option (List RxPkt × RxPkt) :=
  match firstIdx (fun r => !r.routed && r.p == p) q.rx with
  | none => some (q.rx, ⟨p, laneIndex p, packetUnits p, false⟩)
  | some i => if (q.rx.take i).any fun r => !r.routed && sameFlow r.p p then none else (q.rx[i]?).map fun r => (dropAt q.rx i, r)

/-- A packet has arrived on a port, or is sent by this module. One that stays at this module keeps its place in the receive buffer; any
other leaves it. -/
def routePacket (port : Option Nat) (p : Packet) (s : State) : State :=
  match port with
  | some n =>
    if !portUp s n then s
    else match rxPlace (getPort s n) p with
      | none => s
      | some (rest, r) =>
        let p := { p with vl := p.vl || fldOn s (FAB_PORT_CTRL_DATELINE (n / 2) (n % 2)) }
        let gone := modPort n (fun q => { q with rx := rest, returns := listMod q.returns r.lane (· + r.units) }) s
        if p.cls = 2 && !hasTumbler s.fuses then addFld (FAB_PORT_COUNT_KWY_ABSENT (n / 2) (n % 2)) 1 gone
        else if forHere s p || toResolve s p || forAnyone p then
          deliver p (modPort n (fun q => { q with rx := rest ++ [{ r with p := p, routed := true }] }) s)
        else forwardPkt (portSrc n) p gone
  | none =>
    if forHere s p || toResolve s p then deliver p s else sendOrDrop (p.srcDie.toNat % 8) p s

end Sys2Proof.Machine
end

