-- ==== Sys2Proof/Machine/Arrivals.lean ====
section
/-! DEFINITION. Packets that reach this module: remote reads and writes and their answers (R21, R71, R375, R376, R387) and Keyway
packets (R344 to R347, R353, R356 to R359). -/
namespace Sys2Proof.Machine

/-- Takes a packet off those delivered here. -/
def takePacket (p : Packet) (s : State) : State := (takeInbound (fun k => k == p) s).2

/-- What a row does with a packet, in the order of its flow (R374). -/
def inFlow (p : Packet) (s t : State) : State := ordered (fun k => k == p) s t

/-! ### Remote accesses -/

/-- A write of the held module into the staging area, the upper half of a die's hold area (R417, R418; assumption 79). -/
def holdWrite (s : State) (p : Packet) (a n : Nat) : Bool :=
  s.lat.hold.held == some p.src && (List.range 8).any fun d => rangeIn a n (poolBase s d + holdShare s / 2) (holdShare s / 2)

/-- The granules of the staging area that a write of a transfer reaches, each with its place in the copy area. -/
def holdNote (p : Packet) (a n : Nat) (s : State) : State :=
  if !holdWrite s p a n then s
  else
    let new := (granulesOf a n).map fun g => (g, g - holdShare s / 2 / granBytes)
    { s with lat := { s.lat with hold := { s.lat.hold with staged := s.lat.hold.staged ++ new.filter fun x => !s.lat.hold.staged.contains x } } }

/-- The credits of a packet that is off the packets delivered here return if it was one of them (R370). -/
def backIf (p : Packet) (s t : State) : State := if s.fab.inbound.contains p then creditBack p t else t

/-- A write of another module: refused, or made through the latch; its acknowledgement waits until it has taken place, and so do its
credits (R250, R401). -/
def remoteWrite (p : Packet) (s : State) : State :=
  match p.body with
  | .write a data keep =>
    let die := dieOfAddr a % 8
    if pktStale s p then answerPkt p die .writeAck (addFld FAB_COUNT_STALE 1 (takePacket p s))
    else if !hbmRange s.fuses a data.length then answerPkt p die (.refusal cADDR_UNMAPPED a) (takePacket p s)
    else if !holdWrite s p a data.length && !storeAllowed s none a data.length then answerPkt p die (.refusal cSTEP_REGION a) (takePacket p s)
    else
      let t := holdNote p a data.length (hbmWrite ⟨a, data, keep, false, .remote p.src⟩ (setAside p s))
      if latHolds t a data.length then { t with fab := { t.fab with heldIn := t.fab.heldIn ++ [p] } }
      else answerPkt p die .writeAck (backIf p s t)
  | _ => s

def execRemoteWrite (_port : Fin 16) (p : Packet) (s : State) : Out := liveNext s (inFlow p s (remoteWrite p s))

/-- A read of another module: one that meets an uncorrectable error is not answered (R275). -/
def remoteRead (p : Packet) (s : State) : State :=
  match p.body with
  | .readReq a n =>
    let die := dieOfAddr a % 8
    if !hbmRange s.fuses a n then answerPkt p die (.refusal cADDR_UNMAPPED a) (takePacket p s)
    else if hbmBad s a n then s
    else answerPkt p die (.readData (s.mem.bytes a n)) (takePacket p s)
  | _ => s

def execRemoteRead (_port : Fin 16) (p : Packet) (s : State) : Out := liveNext s (inFlow p s (remoteRead p s))

/-- The answer to an access of this module: it acknowledges the access, is itself acknowledged as a packet that no answer answers (R375),
and the instruction goes on unless it was stopped. -/
def answered (p : Packet) (read : Bool) (data : List Byte) (s : State) : State :=
  let s := ackOwe p.destDie.toNat p (flowAck 0 p.destDie.toNat p.src.toNat 1 (takePacket p s))
  match s.fab.txns.find? fun t => t.tag == p.tag.toNat && t.read == read with
  | none => s
  | some t => pump t.lcore (xAnswer t data (txnTake t.tag s))

def execReadData (p : Packet) (s : State) : Out :=
  liveNext s (match p.body with
    | .readData data => inFlow p s (answered p true data s)
    | _ => s)

def execWriteAck (p : Packet) (s : State) : Out :=
  liveNext s (match p.body with
    | .writeAck => inFlow p s (answered p false [] s)
    | _ => s)

/-- DELIVERY_ACK (R375, R387): the flow to the module, or for unresolved Keyway packets the flow to its ward. -/
def deliveryAck (p : Packet) (s : State) : State :=
  match p.body with
  | .deliveryAck cls n ward =>
    flowAck cls p.destDie.toNat (if ward then 0x10000 + memberWard p.src else p.src.toNat) n (takePacket p s)
  | _ => s

def execDeliveryAck (p : Packet) (s : State) : Out := liveNext s (inFlow p s (deliveryAck p s))

/-! ### Keyway -/

/-- The packet that brought a Keyway payload, kept where it is. -/
def kwyFrom (s : State) (f : Packet → Bool) (p : KwyPkt) : Option Packet := s.fab.inbound.find? fun k => f k && k.body == .keyway p

/-- A Keyway packet at its die: it waits for the attempt it names, in its receive buffer and with its credits, or is dropped as older, or
is acted on; with either its credits go back (R356, R358). -/
def kwyArrive (d : Nat) (p : KwyPkt) (ranges : List (Nat × Nat)) (act : State → State) (s : State) : State :=
  if !hasTumbler s.fuses then s
  else
    let k := kwyFrom s (fun k => k.destDie != 14) p
    let take := fun (s : State) => match k with
      | some k => ackOwe d k (takePacket k s)
      | none => s
    ordered (fun k => k.destDie != 14 && k.body == .keyway p) s (match pktAge s p.step p.attempt with
      | .gt => s
      | .lt => addFld (KWY_STALE_ATTEMPT d) 1 (take s)
      | .eq => match latAwait ranges s with
        | some r => r.getD s
        | none => act (take s))

/-- A packet that a KSEND of logical core `ci` sent and that this module resolved has no route: the instruction raises it (R389). -/
def ksendNoRoute (ci : Nat) (s : State) : State :=
  match getL s ci with
  | none => s
  | some l => match queue l qK with
    | [] => s
    | e :: _ => match e.pl with
      | .ins c => if e.started && c.op == 1 then pump ci (kFail ci 0 e c cFAB_NOROUTE s) else s
      | _ => s

/-- KEYWAY_RESOLVE (R344, R359): the ingress die reads its table entry, and the packet goes on to its target. -/
def keywayResolve (d : Nat) (p : KwyPkt) (s : State) : State :=
  if !hasTumbler s.fuses then s
  else
    let k := (kwyFrom s (fun k => k.destDie == 14) p).getD (mkPacket s 2 (BitVec.ofNat 16 (fld s FAB_ID_WARD * 256)) 14 d 0 (.keyway p))
    let s := takePacket k s
    let (w, s) := if fldOn s (KWY_WLT_ENABLE d) then kwyEntry d p.layer p.expert s else (0, s)
    if !w.getLsbD 23 then kwyRefuse d p (ackOwe d k s)
    else
      let inbox := bits w.toNat 24 37 * 64
      let p := { p with resolved := true, dModule := bits w.toNat 0 8, dLcore := bits w.toNat 8 8, inbox := inbox }
      let dest := BitVec.ofNat 16 (fld s FAB_ID_WARD * 256 + p.dModule)
      let q := { k with dest := dest, destDie := BitVec.ofNat 4 (dieOfAddr inbox % 8), body := .keyway p }
      if forHere s q then deliver q s
      else if k.src = ownId s then match sendFrom d q s with
        | some s => s
        | none => ksendNoRoute k.tag.toNat s
      else forwardPkt (srcOf d 9 0) q s

def execKeywayResolve (d : Fin 8) (p : KwyPkt) (s : State) : Out :=
  liveNext s (ordered (fun k => k.destDie == 14 && k.body == .keyway p) s (keywayResolve d p s))

/-- DISPATCH_ARRIVAL (R346, R347, R359): header and row go to their slot, and the source entry counts the row. -/
def execDispatchArrival (d : Fin 8) (p : KwyPkt) (s : State) : Out :=
  liveNext s (match layerOf s p.layer with
    | none => kwyArrive d p [] (kwyRefuse d p) s
    | some v =>
      let a := inboxSlotAt v p
      let n := 64 + v.rowBytes
      if inboxOk s a n && inboxOk s (srcEntryAt p) 4 then
        kwyArrive d p [(a, n), (srcEntryAt p, 4)] (fun s =>
          srcEntryApply d p none (hbmPut a (kwyHeader p ++ p.row.take v.rowBytes) s)) s
      else kwyArrive d p [] (kwyRefuse d p) s)

/-- CLOSE_ARRIVAL (R347, R348). -/
def execCloseArrival (d : Fin 8) (p : KwyPkt) (s : State) : Out :=
  liveNext s (if inboxOk s (srcEntryAt p) 4 then kwyArrive d p [(srcEntryAt p, 4)] (srcEntryApply d p (some p.slot)) s
    else kwyArrive d p [] (kwyRefuse d p) s)

/-- Ranges that an answer or refusal writes: its slot and its record. A refused close writes nothing. -/
def combineRanges (s : State) (p : KwyPkt) : List (Nat × Nat) :=
  let b := bufRead s.mem p.combine
  if p.record = closeRecord then [] else [(recAddr b p.record, 64), (slotAt b p.record p.rank, b.rowBytes)]

def execAnswerArrival (d : Fin 8) (p : KwyPkt) (s : State) : Out :=
  liveNext s (kwyArrive d p (combineRanges s p) (combineApply d { p with kind := 1 }) s)

/-- KEYWAY_REFUSAL (R359): a refused close changes no record. -/
def execKeywayRefusal (d : Fin 8) (p : KwyPkt) (s : State) : Out :=
  liveNext s (kwyArrive d p (combineRanges s p) (combineApply d { p with kind := 3 }) s)

end Sys2Proof.Machine
end

