-- ==== Sys2Proof/Machine/FailOps.lean ====
section
/-! DEFINITION. Parts that leave service (R86, R87, R433 to R436, R443 to R448, R542): fencing, new placements, stack errors, and
the loss and retirement of the module. -/
namespace Sys2Proof.Machine

/-! ### Step lists of the Keeper (R502, R503) -/

/-- `KPR_STAT.LISTS`; a second list of an operation waits until the first has ended and does not count yet. -/
def listsReg (s : State) : State :=
  setFld KPR_STAT_LISTS ((s.kpr.lists.map fun l => match l.op with | .quad _ => ListOp.quad 0 | o => o).eraseDups.length +
    if fld s KPR_CS_STAT_STATE = 3 then 1 else 0) s

def hasList (s : State) (op : ListOp) : Bool := s.kpr.lists.any fun l => l.op == op

/-- Starts a step list of `n` steps. -/
def listStart (op : ListOp) (cls n : Nat) (port : Option (Nat × BitVec 8)) (a0 a1 : Word) (s : State) : State :=
  listsReg { s with kpr := { s.kpr with lists := s.kpr.lists ++ [⟨op, cls, n, 0, [], port, a0, a1⟩] } }

def listEnd (op : ListOp) (s : State) : State :=
  listsReg { s with kpr := { s.kpr with lists := s.kpr.lists.filter fun l => l.op != op } }

/-! ### Power domains of a part that leaves service (R542, R543) -/

def setDom (dom : Nat) (on : Bool) (s : State) : State :=
  let put := fun v k => if on then v ||| 2 ^ k else v - (v &&& 2 ^ k)
  if dom < 64 then setFld PWR_DOM_ON0_ON (put (fld s PWR_DOM_ON0_ON) dom) s
  else setFld PWR_DOM_ON1_ON (put (fld s PWR_DOM_ON1_ON) (dom - 64)) s

/-- No domain is switched on while the feed cap is in force or a die is tripped (R545). -/
def domHeld (s : State) : Bool := fldOn s PWR_STAT_FEED_CAP || s.pwr.trips.any id

/-- Begins to switch a domain, in place of a switch of it under way; DOMAIN_SWITCH_DONE ends it. A switch-on is held from its start where
it cannot begin (R545). -/
def domSwitch (dom : Nat) (on : Bool) (s : State) : State :=
  let rest := s.pwr.switching.filter fun x => x.1 != dom
  let held := s.pwr.heldOn.filter (· != dom)
  { s with pwr := { s.pwr with switching := if domOn s dom == on then rest else rest ++ [(dom, on)],
                               heldOn := if on && domOn s dom != on && domHeld s then held ++ [dom] else held } }

/-- Switch-ons held from their start begin once the condition has cleared. -/
def heldStart (s : State) : State := if domHeld s then s else { s with pwr := { s.pwr with heldOn := [] } }

/-- Switches a domain off for a fence: it stays off until the next reset. -/
def domFence (dom : Nat) (s : State) : State :=
  if s.pwr.fencedDoms.contains dom then s
  else domSwitch dom false { s with pwr := { s.pwr with fencedDoms := s.pwr.fencedDoms ++ [dom] } }

/-! ### Placement (R86, R87) -/

/-- Cores that R86 tries for a logical core on `p`: the quad's others, then the other quads of the die, nearest first, the lower on
a tie. -/
def moveOrder (p : Nat) : List Nat :=
  let d := p / 32 * 32
  let q := p % 32 / 4
  let near := ((List.range 8).filter (· != q)).mergeSort fun a b => 8 * absDiff a q + a ≤ 8 * absDiff b q + b
  ((List.range 4).map (d + 4 * q + ·)).filter (· != p) ++ near.flatMap fun k => (List.range 4).map (d + 4 * k + ·)

/-- Where a logical core of a fenced core moves, given where the others are. -/
def moveTarget (s : State) (ls : List LCore) (l : LCore) : Option Nat :=
  (moveOrder l.phys).find? fun p =>
    !(getP s p).fenced && match ls.filter fun k => k.phys == p with
      | [k] => k.loop == l.loop
      | _ => false

/-- Moves every logical core that stands on a fenced core and has not halted, lowest number first: the moves, and whether each
found a core. -/
def movesFor (s : State) : List (Nat × Nat) × Bool :=
  let r := (enumFrom 0 s.lcores).foldl (fun (a : List LCore × List (Nat × Nat) × Bool) x =>
    if !(getP s x.2.phys).fenced || x.2.halted then a
    else match moveTarget s a.1 x.2 with
      | some p => (listMod a.1 x.1 fun l => { l with phys := p }, a.2.1 ++ [(x.1, p)], a.2.2)
      | none => (a.1, a.2.1, false)) (s.lcores, [], true)
  r.2

/-! ### Module loss and retirement (R447, R448) -/

/-- A port of a retiring module sends the notice as its last flit and goes to DISABLED. -/
def portRetire (n : Nat) (s : State) : State :=
  if portLive s n then
    let q := getPort s n
    let notice := mkPacket s 3 0 15 8 floodTag (.control (.retireNotice (ownId s)))
    let last := flitSend s.now { q with txq := [notice], cur := none, txNext := q.retry.length }
    modPort n (fun p => { p with out := last.out, retries := 0 }) (portDown n 0 s)
  else if hasPort s.fuses n then modPort n (fun p => { p with retries := 0 }) (portState n 0 s) else s

/-- The module retires: it stops its image, sends its notice, disables its ports and records it. Its tickets stay open in the
journal, for a replacement (R473). -/
def retire (s : State) : State :=
  if s.peer.retired then s
  else
    let s := { imageOff s with host := { s.host with slots := [] } }
    let s := (List.range 16).foldl (fun s n => portRetire n s) s
    report cMODULE_RETIRED (srcOf 8 13 0) 0 { s with peer := { s.peer with retired := true } }

/-- The own Keeper declares its module lost. -/
def moduleLoss (s : State) : State :=
  if s.peer.retired then s else retire (report cMODULE_LOST (srcNamed 8 13 0 (ownId s)) 0 s)

/-- The partner, or the root where a module has no partner, declares another module lost (R447, R450). -/
def declareLost (m : Member) (s : State) : State :=
  if s.peer.lost.contains m || s.peer.retired then s
  else
    let s := { s with peer := { s.peer with lost := s.peer.lost ++ [m] } }
    let s := report cMODULE_LOST (srcNamed 8 13 0 m) 0 s
    if stepIsOpen s then lossAbort (some (.lost m)) m s else holdSend (.lost m) s

/-! ### Fencing -/

/-- A query that a fenced core was serving is to be dispatched again to its slot; one that has completed with `LATE` is over (R491,
R492). -/
def slotUndispatch (s : State) (k : Nat) : State := match smFind s.host.slots k with
  | none => s
  | some sl =>
    if sl.running then slotEnd k cLATE 0 s
    else match jFind s sl.q sl.seq with
      | some (j, e) => jWrite j { e with dispatched := false } { s with host := { s.host with slots := smPut s.host.slots k { sl with again := true } } }
      | none => s

/-- The slots that the logical cores of a fenced core serve (R492). -/
def slotsUndispatch (p : Nat) (s : State) : State :=
  ((s.host.slots.filter fun x => ((slotServer s x.1).bind fun c => (getL s c).map (·.phys)) == some p).map (·.1)).foldl slotUndispatch s

/-- A quad whose four cores are fenced is switched off (R542). -/
def quadFenced (p : Nat) (s : State) : State :=
  if (List.range 4).all fun i => (getP s (p / 4 * 4 + i)).fenced then domFence (p / 4) s else s

/-- DETAIL of `CORE_FENCED`: the moves that R86 gives now, 16 bits each, logical core then core. -/
def fenceDetail (p : Nat) (s : State) : Word :=
  let mine := ((movesFor s).1.filter fun m => ((getL s m.1).map (·.phys)) == some p).take 2
  BitVec.ofNat 64 (mine.foldr (fun m v => m.1 + m.2 * 65536 + v * 2 ^ 32) 0)

/-- Takes a core out of service. -/
def fenceOff (p : Nat) (s : State) : State :=
  let s := modP p (fun c => { c with fenced := true }) s
  quadFenced p (slotsUndispatch p (report cCORE_FENCED (srcOf (p / 32) 0 (p % 32)) (fenceDetail p s) s))

/-- A level-1 image is loaded. -/
def levelOne (s : State) : Bool := imgLevel s == 1

/-- Fences a core for a hardware fault (R174, R434): the step aborts with a hold and the quad check starts. -/
def fenceCore (p : Nat) (s : State) : State :=
  if (getP s p).fenced then s
  else listStart (.quad p) 0 1800 none 0 0 (lossAbort (some (.quad p)) noMember (fenceOff p s))

/-- A core hardware fault: the core stops every queue, and the Keeper fences it when it runs. A level-1 image on the core ends with
the fault (R78). -/
def coreFault (p : Nat) (code : Code) (unit : Nat) (detail : Nat) (s : State) : State :=
  if (getP s p).hwStopped || (getP s p).fenced then s
  else
    let s := report code (srcOf (p / 32) unit (p % 32)) (BitVec.ofNat 64 detail) s
    let s := modP p (fun c => { c with hwStopped := true }) s
    let ends := levelOne s && s.lcores.any fun l => l.phys == p && !l.halted
    let s := if s.kpr.up then fenceCore p s else s
    if ends then imageEnd code 0 s else s

/-- New placement after a fence; the module is lost when a logical core finds no core (R436). -/
def replace (s : State) : State :=
  let (ms, ok) := movesFor s
  if ok then { s with step := { s.step with moves := ms } }
  else moduleLoss (report cPLACEMENT_EXHAUSTED (srcOf 8 13 0) 0 s)

/-- Placement changes that no step has to wait for: no step is open and none was. -/
def moveIdle (s : State) : State := if stepIsOpen s then s else pumpAll (applyMoves s)

/-- One step of a quad check (R435): of its 1,800 steps the first three blocks of 600 test the other cores, the last step the
shared structures. -/
def quadStep (p : Nat) (done : Nat) (ok : Bool) (s : State) : State :=
  if ok then s
  else if done < 1799 then
    let others := ((List.range 4).map (p / 4 * 4 + ·)).filter (· != p)
    let t := others.getD (done / 600) p
    if (getP s t).fenced then s else lossAbort (some (.quad p)) noMember (fenceOff t (modP t (fun c => { c with hwStopped := true }) s))
  else
    let s := ((List.range 4).map (p / 4 * 4 + ·)).foldl (fun s t =>
      if (getP s t).fenced then s else lossAbort (some (.quad p)) noMember (fenceOff t (modP t (fun c => { c with hwStopped := true }) s))) s
    domFence (p / 4) s

/-- The end of a quad check: the new placement, and the release of its hold. -/
def quadDone (p : Nat) (s : State) : State := holdRelease (.quad p) (moveIdle (replace (listEnd (.quad p) s)))

/-- A die's uncore is out of service (R445, R542). -/
def fenceDie (d : Nat) (s : State) : State :=
  let s := { s with peer := { s.peer with dieFenced := if s.peer.dieFenced.contains d then s.peer.dieFenced else s.peer.dieFenced ++ [d] } }
  moduleLoss (domFence (64 + d) s)

/-- An uncore hardware fault (R361, R445). -/
def uncoreFault (d unit part : Nat) (code : Code) (s : State) : State :=
  fenceDie d (report code (srcOf d unit 0) (BitVec.ofNat 64 part) s)

/-! ### Stacks (R443) -/

/-- Stack `j` has given an error within the last 1,024 ticks. -/
def stackAgain (s : State) (j : Nat) : Bool := match smFind s.peer.ueTick j with
  | some t => decide (tickNow s < t + 1024)
  | none => false

/-- Stack `j` is taken out of service, and the module is lost. -/
def stackOut (j : Nat) (s : State) : State :=
  moduleLoss (report cSTACK_FAILED (srcOf (j / 4) 5 j) 0 (setFld (MEM_STACK_STAT_FAILED (j / 4) (j % 4)) 1 s))

/-- The tick of an error of stack `j` is kept. -/
def stackNote (j : Nat) (s : State) : State := { s with peer := { s.peer with ueTick := smPut s.peer.ueTick j (tickNow s) } }

/-- An uncorrectable error of stack `j`: the first aborts the step, a second within 1,024 ticks or one in a step copy that a rollback
reads takes the stack out of service: after the vote once the step has committed or aborted, which an abort request asks for (R442). -/
def stackError (j : Nat) (rollback : Bool) (s : State) : State :=
  if stackAgain s j || rollback then
    if stepState s = 2 then originate 4 noMember 0 { s with step := { s.step with failedStacks := s.step.failedStacks ++ [j] } }
    else stackOut j s
  else lossAbort none noMember (stackNote j s)

/-- The stacks whose second error came after the vote leave service. -/
def stacksOut (s : State) : State :=
  if stepState s = 2 then s
  else s.step.failedStacks.foldl (fun s j => stackOut j s) { s with step := { s.step with failedStacks := [] } }

/-! ### Holds that end with a replacement (R450, R452) -/

/-- The hold for a lost module ends. The deputy acts for a lost root until the resume that follows (R441). -/
def lostDone (m : Member) (s : State) : State :=
  let acts := rootOf s == some m && s.step.ownHolds.contains (.lost m)
  holdRelease (.lost m) (if acts then s else { s with peer := { s.peer with lost := s.peer.lost.filter (· != m) } })

end Sys2Proof.Machine
end

