-- ==== Sys2Proof/Machine/SecOps.lean ====
section
/-! DEFINITION. Bundles and the boot flash, identity keys, measurements and the attestation log (R562 to R574). -/
namespace Sys2Proof.Machine

/-! ### Bundles (R563, R564) -/

def hashSize : Nat := 32
def zeroBytes (b : List Byte) : Bool := b.all (· == 0)
def slice (b : List Byte) (o n : Nat) : List Byte := (b.drop o).take n

/-- Component table entry `i` of a header: kind, offset, length, hash, and whether its reserved bytes are zero. -/
def bundleEntry (h : List Byte) (i : Nat) : Nat × Nat × Nat × List Byte × Bool :=
  let e := slice h (0x40 + 48 * i) 48
  (bodyNat e 0 1, bodyNat e 4 4, bodyNat e 8 4, slice e 16 32, zeroBytes (slice e 1 3) && zeroBytes (slice e 12 4))

/-- Check 1 of R564 on a header of which `n` bytes of bundle are given. -/
def bundleFormat (h : List Byte) (n : Nat) : Bool :=
  let c := bodyNat h 6 1
  let len := bodyNat h 0x10 8
  bodyNat h 0 4 == 0x4C444E42 && bodyNat h 4 2 == 1 && decide (1 ≤ c ∧ c ≤ 8) && decide (bodyNat h 7 1 ≤ 3) &&
  zeroBytes (slice h 0x18 40) && zeroBytes (slice h (0x40 + 48 * c) (48 * (8 - c))) &&
  decide (512 ≤ len ∧ len ≤ 0x10000000 ∧ len ≤ n) &&
  (List.range c).all fun i =>
    let e := bundleEntry h i
    e.2.2.2.2 && decide (1 ≤ e.1 ∧ e.1 ≤ 4 ∧ e.2.1 + e.2.2.1 ≤ len)

/-- Check 2 of R564: the key's hash, its revocation and the signature. -/
def bundleSigned (f : Fuses) (h : List Byte) : Bool :=
  let k := bodyNat h 7 1
  let key := Config.fwKey k
  sha256 key == Config.fwKeyHash k && !f.revoked.testBit k &&
  ecdsaVerify (beNat (slice key 0 32), beNat (slice key 32 32)) (beNat (sha256 (h.take 0x1C0))) (beNat (slice h 0x1C0 32))
    (beNat (slice h 0x1E0 32))

/-- The bundle whose `n` bytes lie at address `a`. -/
def bundleAt (f : Fuses) (m : Mem) (a n : Nat) : Bundle :=
  let h := m.bytes a 512
  let es := (List.range (min 8 (bodyNat h 6 1))).map (bundleEntry h)
  { header := sha256 h, svn := bodyNat h 8 4, version := bodyNat h 0xC 4, comps := es.map fun e => (e.1, e.2.2.2.1),
    verdict := if !bundleFormat h n then cSEC_FORMAT else if !bundleSigned f h then cSEC_SIG else 0,
    hashOk := es.all fun e => sha256 (m.bytes (a + e.2.1) e.2.2.1) == e.2.2.2.1 }

/-- The first failing check of R564, 0 when the bundle is valid. -/
def bundleCode (floor : Nat) (b : Bundle) : Code :=
  if b.verdict ≠ 0 then b.verdict else if b.svn < floor then cSEC_ROLLBACK else if !b.hashOk then cSEC_HASH else 0

/-- A bundle for boot holds one component of each of the four kinds. -/
def bundleForBoot (b : Bundle) : Bool := b.comps.length == 4 && [1, 2, 3, 4].all fun k => b.comps.any fun c => c.1 == k

/-- R564 for boot: a bundle without the four components fails check 1. -/
def bootCode (floor : Nat) (b : Bundle) : Code :=
  if b.verdict = 0 ∧ !bundleForBoot b then cSEC_FORMAT else bundleCode floor b

/-- The component hash of a kind. -/
def compHash (b : Bundle) (k : Nat) : List Byte := ((b.comps.find? fun c => c.1 == k).map (·.2)).getD (List.replicate 32 0)

/-- The SVN floor of journal slot 38 (R568). -/
def svnFloor (s : State) : Nat := match jnlRec s 38 with
  | some b => bodyNat b 0 4
  | none => 0

/-! ### Selector leaves (R565) -/

/-- A leaf whose MAGIC, VERSION, SLOT and CHECK are correct. -/
def selValid (l : Option SelLeaf) : Option SelLeaf :=
  l.filter fun x => x.magic == 0x4C455342 && x.version == 1 && decide (x.slot ≤ 1) && x.check == sha256 (selLeafBody x)

/-- The winning selector leaf, and whether it is leaf A. -/
def selWinner (x : SecSt) : Option (SelLeaf × Bool) :=
  match selValid x.leafA, selValid x.leafB with
  | some a, some b => if b.seq ≤ a.seq then some (a, true) else some (b, false)
  | some a, none => some (a, true)
  | none, some b => some (b, false)
  | none, none => none

/-- Writes the leaf that is not winning to name a slot, SEQ one above the winner's. -/
def selWrite (slot : Nat) (header : List Byte) (s : State) : State :=
  let l := fun seq => some (selLeaf slot seq header)
  { s with sec := match selWinner s.sec with
      | some (w, true) => { s.sec with leafB := l (w.seq + 1) }
      | some (w, false) => { s.sec with leafA := l (w.seq + 1) }
      | none => { s.sec with leafA := l 1 } }

/-- The last code of the chapter, `SEC_STAT.LAST_CODE`. -/
def secCode (c : Code) (s : State) : State := if c = 0 then s else setFld SEC_STAT_LAST_CODE c.toNat s

/-! ### Measurements, keys and the log (R570 to R574) -/

/-- Measurement 5: the capability words and the revocation word. -/
def meas5 (s : State) : List Byte :=
  sha256 (leBytes 8 (getReg s rCAPS_A).toNat ++ leBytes 8 (getReg s rCAPS_B).toNat ++ leBytes 4 s.fuses.revoked)

/-- M: the digest of measurements 1 to 5, with those of the key in force or of now. -/
def measDigest (ms : List (List Byte)) (s : State) : List Byte := sha256 (ms.flatten ++ meas5 s)

/-- Round `i` of the derivation of R571. -/
def aliasRound (m : List Byte) (i : Nat) : Nat :=
  beNat (hmac256 (beBytes 32 Config.deviceSecret) (("TX8-ALIAS".toList.map fun c => BitVec.ofNat 8 c.toNat) ++ m ++ leBytes 4 i))

def aliasOk (d : Nat) : Bool := decide (1 ≤ d ∧ d < p256n)

/-- The first accepted round. -/
def aliasFirst (m : List Byte) : Nat → Nat → Nat
  | _, 0 => 0
  | i, fuel + 1 => if aliasOk (aliasRound m i) then aliasRound m i else aliasFirst m (i + 1) fuel

/-- The alias key in force. -/
def aliasKey (s : State) : Nat := aliasFirst (measDigest s.sec.akMeas s) 0 (2 ^ 32)

/-- The 64 bytes of a log entry (R573). -/
def LogEnt.serial (e : LogEnt) : List Byte :=
  leBytes 1 e.kind ++ leBytes 1 e.level ++ leBytes 2 0 ++ leBytes 4 e.index ++ leBytes 8 e.time.toNat ++ leBytes 8 e.subject.toNat ++
  leBytes 8 0 ++ e.hash

/-- Appends to the attestation log, with measurements 6 and 7 (R573, R574). -/
def logAppend (kind level : Nat) (subject : Word) (hash : List Byte) (s : State) : State :=
  let e : LogEnt := ⟨kind, level, s.sec.count, sysTime s, subject, hash⟩
  let log := s.sec.log ++ [e]
  setFld SEC_LOG_ENTRIES (s.sec.count + 1)
    { s with sec := { s.sec with log := log.drop (log.length - 1024), count := s.sec.count + 1,
                                 digest := sha256 (s.sec.digest ++ e.serial) } }

/-- The entry that `SEC_LOG_PEEK` names, by its place among the 1,024; zeros where none was written. -/
def logPeek (s : State) : List Byte :=
  match s.sec.log.find? fun e => e.index % 1024 == fld s SEC_LOG_PEEK_ENTRY with
  | some e => e.serial
  | none => List.replicate 64 0

/-- Measurement `k` as reported: 1 to 4 are zero in recovery (R572, R576). -/
def measurement (s : State) (k : Nat) : List Byte :=
  if k ≤ 4 then (if s.power.recovery then List.replicate 32 0 else s.sec.meas.getD (k - 1) (List.replicate 32 0))
  else if k = 5 then meas5 s
  else if k = 6 then s.sec.digest
  else leBytes 8 s.sec.count

/-! ### Boot (R566, R567) -/

/-- What the boot ROM finds in a slot, with the header hash that a leaf requires. -/
def bootTry (s : State) (slot : Nat) (header : Option (List Byte)) : Code :=
  match smFind s.sec.bundles slot with
  | none => cSEC_FORMAT
  | some b =>
    let c := bootCode (svnFloor s) b
    if c ≠ 0 then c else if header.any (· != b.header) then cSEC_HASH else 0

/-- The bundle of a slot runs: its components are loaded and measured, the Keeper starts, and the alias key is derived. -/
def bootRun (slot : Nat) (fallback : Bool) (s : State) : State :=
  match smFind s.sec.bundles slot with
  | none => s
  | some b =>
    let ms := [1, 2, 3, 4].map (compHash b)
    let s := { s with sec := { s.sec with running := some b, meas := ms, akMeas := ms }, power := { s.power with recovery := false },
                      kpr := { s.kpr with up := true } }
    let s := setFld SEC_STAT_BOOT_SLOT slot (setFld SEC_STAT_FALLBACK (if fallback then 1 else 0) s)
    setFld SEC_SVN_RUNNING b.svn (setFld SEC_SVN_FLOOR (svnFloor s) (setReg s rKPR_VERSION
      (BitVec.ofNat 64 (putBits (getReg s rKPR_VERSION).toNat 0 32 b.version))))

/-- Recovery: the Keeper does not run. -/
def bootRecovery (s : State) : State :=
  let s := { s with power := { s.power with recovery := true }, kpr := { s.kpr with up := false }, sec := { s.sec with running := none } }
  let s := setFld SEC_SVN_FLOOR (svnFloor s) (setFld SEC_STAT_RECOVERY 1 s)
  report cBOOT_RECOVERY (srcOf 8 15 0) 0 (secCode cBOOT_RECOVERY s)

/-- BOOT (R566). -/
def boot (s : State) : State :=
  let (a, h) : Nat × Option (List Byte) := match selWinner s.sec with
    | some (w, _) => (w.slot, some w.header)
    | none => (0, none)
  let c := bootTry s a h
  if c = 0 then bootRun a false s
  else
    let s := report cBOOT_FALLBACK (srcOf 8 15 0) (BitVec.ofNat 64 (a + 65536 * c.toNat)) (secCode cBOOT_FALLBACK (secCode c s))
    let c := bootTry s (1 - a) none
    if c = 0 then bootRun (1 - a) true s else bootRecovery (secCode c s)

end Sys2Proof.Machine
end

