-- ==== Sys2Proof/Machine/CutOps.lean ====
section
/-! DEFINITION. Snapshot cuts and what carries them away (R58, R406, R409 to R424): cut bits, the snapshot taken, the tier-1
transfer and the seal. -/
namespace Sys2Proof.Machine

/-! ### What a cut captures (R410, R412 to R414) -/

/-- Memory with every granule that the open step has touched as at the latch point. -/
def latchMem (s : State) : Mem :=
  s.lat.map.foldl (fun m p => match p.2.stepCopy with
    | some k => m.copy (poolAddrOf s k) (p.1 * granBytes) granBytes
    | none => m) s.mem

/-- Stream positions of a logical core in the cut state: those of the STEP.OPEN of the next step, when it has executed it. -/
def cutPositions (s : State) (l : LCore) : SMap Word := match l.saved with
  | some (n, sv) => if n.toNat = s.step.next then sv.streams else l.streams
  | none => l.streams

/-- Journal positions: last accepted and last complete of every queue. -/
def cutJournal (s : State) : List (Nat × Word × Word) :=
  (List.range 32).map fun q => (q, getReg s (rTKT_Q_ACCEPTED q), getReg s (rTKT_Q_COMPLETE q))

/-- The snapshot of a cut. -/
def cutSnap (s : State) (i : Image) (r : CutReq) : Snap :=
  let m := latchMem s
  let es := persistExtents i
  { version := 2, id := r.snapId, module := ownId s, frame := r.frame, next := s.step.next, hash := i.hash,
    cursor := BitVec.ofNat 64 (m.readN (fld s LAT_CURSOR_ADDR_ADDR) 8), lcores := i.lcores,
    streams := s.lcores.map (cutPositions s), journal := cutJournal s, extents := es, data := memIn es m,
    headOk := true, tableOk := true, chunksOk := true }

/-! ### Cut bits (R410, R411, R419) -/

/-- Sets the cut bits of a granule, and marks its step copy, or the copy it is being given, as a cut copy; an older cut copy of the
granule is released (DEDUCED, assumption 34). -/
def cutMark (t1 t2 : Bool) (s : State) (g : Nat) : State :=
  let e := getGran s g
  let e := { e with t1 := e.t1 || (t1 && e.dirty), t2 := e.t2 || t2, dirty := e.dirty && !t1 }
  if !(e.t1 || e.t2) then setGran g e s
  else
    let s := { s with lat := { s.lat with jobs := s.lat.jobs.map fun j => if j.gran = g then { j with cut := true } else j } }
    match e.stepCopy with
    | some k =>
      let s := match e.cutCopy with
        | some c => if c = k then s else dirPut c none s
        | none => s
      dirPut k ((smFind s.lat.dir k).map fun x => { x with cut := true }) (setGran g { e with cutCopy := some k } s)
    | none => setGran g e s

/-- Clears a cut bit on every granule. With `again` the granules of tier 1 are dirty again. -/
def cutClearAll (tier1 again : Bool) (s : State) : State :=
  s.lat.map.foldl (fun s p =>
    let on := if tier1 then p.2.t1 else p.2.t2
    if !on then s
    else
      let s := if again then setGran p.1 { getGran s p.1 with dirty := true } s else s
      cutClear tier1 p.1 s) s

/-! ### Tier 1 (R416 to R419) -/

/-- Fields of `LAT_SNAP_STAT` change for the snapshot that it shows, the last requested one (R428). -/
def snapStat (id : BitVec 32) (f : State → State) (s : State) : State := if fld s LAT_SNAP_STAT_SNAP_ID = id.toNat then f s else s

/-- The tier-1 transfer of the taken cut is abandoned: what it has sent is not in the copy area, so those granules are dirty too. -/
def t1Abandon (s : State) : State :=
  match s.lat.t1 with
  | none => s
  | some x =>
    let s := s.lat.t1Sent.foldl (fun s g => setGran g { getGran s g with dirty := true } s) s
    let s := cutClearAll true true (listEnd .tier1 { s with lat := { s.lat with t1 := none, t1Left := none, t1Sent := [] } })
    report cSNAP_ABANDONED (srcOf 8 10 0) 0 (snapStat x.id (setFld LAT_SNAP_STAT_T1 3) s)

/-- Every retained journal entry that the last snapshot now records is released (R479). -/
def retainAll (s : State) : State := (List.range 32).foldl (fun s q => jRetain q s) s

/-- The completion of the partner: tier 1 is complete. -/
def t1Complete (id : BitVec 32) (s : State) : State :=
  match s.lat.t1 with
  | none => s
  | some x =>
    if x.id ≠ id then s
    else
      let s := { s with lat := { s.lat with t1 := none, t1Left := none, t1Sent := [], t1Copy := some x, t1Holder := partner s } }
      retainAll (snapStat id (setFld LAT_SNAP_STAT_T1 2) (cutClearAll true false (listEnd .tier1 s)))

/-- TIER1_COMPLETION (R418), or the holder's notice that it has abandoned the transfer (R419). -/
def t1Answer (id : BitVec 32) (s : State) : State :=
  if s.fab.inbound.any (ctlIs (.tier1Failed id)) then
    let s := takeCtl (.tier1Failed id) s
    if s.lat.t1.any fun x => x.id == id then t1Abandon s else s
  else t1Complete id (takeCtl (.tier1Done id) s)

/-- Sends bytes to a die of another module as data-class writes of at most 4,096 bytes. -/
def dataSend (m : Member) (die destDie a : Nat) (bs : List Byte) (s : State) : State :=
  (List.range (ceilDiv bs.length 4096)).foldl (fun s i =>
    let tag := s.fab.nextTag
    sendOrDrop die (mkPacket s 0 m destDie die tag (.write (a + 4096 * i) ((bs.drop (4096 * i)).take 4096) []))
      { s with fab := { s.fab with nextTag := (tag + 1) % 65536 } }) s

/-- Place in the holder's staging area, on the same die: of a granule, and of the header and the sections, on die C0 (assumption 79). -/
def stagingAddr (d : Nat) (g : Option Nat) : Nat := d * 0x8000000000 + Config.stagingAt g % 0x8000000000

/-- The cut copy of a granule where one exists, and the live granule otherwise. -/
def cutBytes (s : State) (g : Nat) : List Byte := match (getGran s g).cutCopy with
  | some k => s.mem.bytes (poolAddrOf s k) granBytes
  | none => s.mem.bytes (g * granBytes) granBytes

/-- Sends one granule of the transfer, whose T1 bit is clear from then on. -/
def t1SendGran (m : Member) (s : State) (g : Nat) : State :=
  let d := dieOfGran g
  cutClear true g (dataSend m d d (stagingAddr d (some g)) (cutBytes s g) s)

/-- What the transfer sends in a tick: granules in ascending address order, `LAT_T1.RATE_GBS` of them, which is that many GB/s, then
the header and the sections (R418; assumption 34). -/
def t1Tick (s : State) : State :=
  match s.lat.t1, s.lat.t1Left, partner s with
  | some x, some [], some m =>
    dataSend m 8 0 (stagingAddr 0 none) (snapHead x ++ snapSections x) { s with lat := { s.lat with t1Left := none } }
  | some _, some gs, some m =>
    let n := fld s LAT_T1_RATE_GBS
    (gs.take n).foldl (t1SendGran m) { s with lat := { s.lat with t1Left := some (gs.drop n), t1Sent := s.lat.t1Sent ++ gs.take n } }
  | _, _, _ => s

/-- The tier-1 record, slot 32: snapshot id, held module, state 1 STAGED or 2 APPLIED (R418; assumption 13). -/
def t1Record (x : Snap) (st : Nat) (s : State) : State :=
  jnlPut 32 (leBytes 4 x.id.toNat ++ leBytes 2 x.module.toNat ++ leBytes 1 st)
    { s with lat := { s.lat with hold := { s.lat.hold with recState := st } } }

/-- A snapshot as it comes from another module. -/
def snapOf (chunksOk : Bool) (x : SnapIn) : Snap :=
  { version := x.version, id := x.id, module := x.module, frame := x.frame, next := x.next, hash := x.hash, cursor := x.cursor,
    lcores := x.lcores, streams := x.streams, journal := x.journal, extents := x.extents,
    data := x.data.foldl (fun m w => m.writeBytes w.1 w.2) ⟨[], []⟩, headOk := x.headOk, tableOk := x.tableOk, chunksOk := chunksOk }

/-- The staged granules of a die fit its staging area, half of its hold area (R417). -/
def stagingFits (s : State) (x : Snap) : Bool :=
  (List.range 8).all fun d =>
    decide ((x.extents.filter fun e => dieOfAddr e.1 == d).foldl (fun n e => n + e.2 * granBytes) 0 ≤ holdShare s / 2)

/-- Copies a staged granule into the copy area. -/
def stagedCopy (s : State) (g : Nat × Nat) : State :=
  clearBad (g.2 * granBytes) granBytes { s with mem := s.mem.copy (g.1 * granBytes) (g.2 * granBytes) granBytes }

/-- Copies the staged granules into the copy area and completes the transfer (R418, R419). -/
def stagedApply (s : State) : State :=
  match s.lat.hold.staging with
  | none => s
  | some x =>
    let s := s.lat.hold.staged.foldl stagedCopy s
    let s := { s with lat := { s.lat with hold := { s.lat.hold with copy := some x, staging := none, staged := [] } } }
    sendCtl x.module (.tier1Done x.id) (t1Record x 2 s)

/-- The holder abandons a transfer, its copy area as it was, and tells the held module so (R419; DESIGN CHOICE, assumption 34). -/
def stagedReject (x : Snap) (s : State) : State :=
  let s := { s with lat := { s.lat with hold := { s.lat.hold with staged := [] } } }
  sendCtl x.module (.tier1Failed x.id) (report cSNAP_ABANDONED (srcOf 8 10 0) (BitVec.ofNat 64 x.id.toNat) s)

/-- The holder has every die's granules, which lie in its staging area, and the header and sections. -/
def t1TransferDone (ok : Bool) (x : SnapIn) (s : State) : State :=
  let x := snapOf ok x
  if s.lat.hold.held ≠ some x.module then s
  else if !ok || !stagingFits s x then stagedReject x s
  else stagedApply (t1Record x 1 { s with lat := { s.lat with hold := { s.lat.hold with staging := some x } } })

/-- A pairing comes into force at the other module: this one holds its copy from now on (R416, R417; assumption 81). -/
def holdBegin (m : Member) (s : State) : State :=
  match s.lat.hold.held with
  | some _ => s
  | none =>
    let s := { s with lat := { s.lat with hold := { latReset.hold with held := some m } } }
    setFld LAT_PAIR_STAT_HOLDING 1 (setFld LAT_PAIR_STAT_HELD m.toNat s)

/-- A pairing has ended at the other module. -/
def holdEnd (m : Member) (s : State) : State :=
  if s.lat.hold.held ≠ some m then s
  else setFld LAT_PAIR_STAT_HOLDING 0 (setFld LAT_PAIR_STAT_HELD 0 { s with lat := { s.lat with hold := latReset.hold } })

/-! ### Tier 2 (R420 to R424) -/

/-- The `WIN_` fields of `ARC_STAT`. -/
def arcWin (s : State) : State :=
  match sealWinner (getNs s) with
  | some (l, _) => setFld ARC_STAT_WIN_VALID 1 (setFld ARC_STAT_WIN_SLOT l.slot (setFld ARC_STAT_WIN_SNAP_ID l.id.toNat
      (setFld ARC_STAT_WIN_SEQ l.seq s)))
  | none => setFld ARC_STAT_WIN_VALID 0 s

/-- Brings up the namespace (R421). -/
def arcEnable (s : State) : State :=
  if !fldOn s ARC_CTRL_ENABLE || !fldOn s ARC_STAT_LINK_UP then setFld ARC_STAT_READY 0 s
  else if nsAccepted s then arcWin (setFld ARC_STAT_READY 1 s)
  else report cARC_NS (srcOf 8 10 0) 0 (setFld ARC_STAT_READY 0 s)

/-- The seal-running record, slot 33: zeros when no seal runs (R423; assumption 13). -/
def sealRecord (slot : Nat) (leafA running : Bool) (s : State) : State :=
  jnlPut 33 (if running then leBytes 1 1 ++ leBytes 1 slot ++ leBytes 1 (if leafA then 0 else 1) else leBytes 3 0) s

/-- A seal ends without its leaf (R406, R424): what it wrote is discarded and its record cleared. -/
def sealAbandon (s : State) : State :=
  match s.arc.sealJob with
  | none => s
  | some (slot, leafA, stage) =>
    let shown := s.arc.sealSnap.any fun x => fld s LAT_SNAP_STAT_SNAP_ID == x.id.toNat
    let s := { s with arc := { s.arc with sealJob := none, sealSnap := none, cmd := none } }
    let s := if 2 ≤ stage then sealRecord slot leafA false s else s
    let s := cutClearAll false false (listEnd .tier2 (setFld ARC_STAT_SEALING 0 (addFld ARC_COUNT_ABANDONED 1 s)))
    report cSEAL_ABANDONED (srcOf 8 13 0) 0 (if shown then setFld LAT_SNAP_STAT_T2 3 s else s)

/-- Starts the seal of a snapshot: its step list reads the leaves first. -/
def sealStart (x : Snap) (s : State) : State :=
  listStart .tier2 2 0 none 0 0 (setFld ARC_STAT_SEALING 1
    { s with arc := { s.arc with sealJob := some (0, true, 0), sealSnap := some x, cmd := none } })

/-- Granules whose T2 is set, in ascending order. -/
def sealLeft (s : State) : List Nat := (s.lat.map.filter fun p => p.2.t2).map (·.1)

/-- Target slot and target leaf A of a seal (R423). -/
def sealTarget (n : NsData) : Nat × Bool := match sealWinner n with
  | some (l, a) => (1 - l.slot, !a)
  | none => (0, true)

/-- Where a granule's data goes and comes from: its LBA, and the cut copy, or the live granule. -/
def sealPart (s : State) (slot : Nat) (x : Snap) (g : Nat) : Nat × Nat × Nat :=
  let i := (firstIdx (· == g) (extentGrans x.extents)).getD 0
  let a := match (getGran s g).cutCopy with
    | some k => poolAddrOf s k
    | none => g * granBytes
  (slotLba s slot + (snapFront x + i * granBytes) / 4096, a, granBytes)

/-- The seal gives the namespace a command at a stage of its list. -/
def sealIssue (job : Nat × Bool × Nat) (c : NvmeCmd) (s : State) : State :=
  { s with arc := { s.arc with sealJob := some job, cmd := some c } }

/-- A command on one run of LBAs from the hub's buffer. -/
def hubCmd (op : NvmeOp) (lba n : Nat) : NvmeCmd := ⟨op, if n = 0 then [] else [(lba, Config.arcBuffer, n)], []⟩

/-- One step of the seal list (R423, R502): the stages are 0 both leaves, 1 the record, 2 the sections, 3 the granule data, at most 28 MiB
in one step, 4 the header, 5 a Flush, 6 the leaf, 7 a Flush, 8 the end. A snapshot too large for its slot would run into the other one:
its seal is abandoned (DESIGN CHOICE, assumption 78). -/
def sealStep (s : State) : State :=
  match s.arc.sealJob, s.arc.sealSnap with
  | some (slot, leafA, stage), some x =>
    let header := sealIssue (slot, leafA, 4) (hubCmd .write (slotLba s slot) 4096) s
    match stage with
    | 0 => sealIssue (slot, leafA, 0) (hubCmd .read 0 8192) s
    | 1 =>
      if fld s ARC_SLOT_SLOT_LBAS < snapLbas x then sealAbandon s
      else
        let (slot, leafA) := sealTarget (getNs s)
        let n := getNs s
        let s := setNs { n with slots := smErase n.slots slot } s
        sealRecord slot leafA true { s with arc := { s.arc with sealJob := some (slot, leafA, 2) } }
    | 2 => sealIssue (slot, leafA, 2) (hubCmd .write (slotLba s slot + 1) (snapSections x).length) s
    | 3 =>
      let gs := (sealLeft s).take 112
      if gs = [] then header else sealIssue (slot, leafA, 3) ⟨.write, gs.map (sealPart s slot x), gs⟩ s
    | 4 => header
    | 5 => sealIssue (slot, leafA, 5) (hubCmd .flush 0 0) s
    | 6 =>
      let n := getNs s
      sealIssue (slot, leafA, 6) (hubCmd .write (if leafA then 0 else 1) 4096)
        (setNs (if leafA then { n with leafA := none } else { n with leafB := none }) s)
    | 7 => sealIssue (slot, leafA, 7) (hubCmd .flush 0 0) s
    | _ =>
      let s := sealRecord slot leafA false { s with arc := { s.arc with sealJob := none, sealSnap := none } }
      let s := addFld ARC_COUNT_SEALS 1 (setFld ARC_STAT_SEALING 0 (listEnd .tier2 s))
      retainAll (snapStat x.id (setFld LAT_SNAP_STAT_T2 2) s)
  | _, _ => s

/-- The list is ready: it does not wait for a completion. -/
def sealReady (s : State) : Bool := s.arc.sealJob.isSome && s.arc.cmd.isNone

/-- What the completed command of a stage leaves in the namespace and in the cut bits: the granules written have their T2 cleared, the
header makes the slot's snapshot whole, and the leaf names it with SEQ one above the winner's. -/
def sealWritten (slot : Nat) (leafA : Bool) (stage : Nat) (c : NvmeCmd) (x : Snap) (s : State) : State :=
  let n := getNs s
  match stage with
  | 3 => c.grans.foldl (fun s g => cutClear false g s) s
  | 4 => setNs { n with slots := smPut n.slots slot x } s
  | 6 =>
    let l := sealLeaf slot (((sealWinner n).map fun w => w.1.seq).getD 0 + 1) x
    arcWin (setNs (if leafA then { n with leafA := some l } else { n with leafB := some l }) s)
  | _ => s

/-- The command of the seal ends well, and the seal goes on to its next stage. -/
def sealCompletion (s : State) : State :=
  match s.arc.sealJob, s.arc.sealSnap, s.arc.cmd with
  | some (slot, leafA, stage), some x, some c =>
    let s := sealWritten slot leafA stage c x s
    { s with arc := { s.arc with cmd := none, sealJob := some (slot, leafA, if stage = 3 then 3 else stage + 1) } }
  | _, _, _ => s

/-- A controller may reach a range: in HBM, inside a buffer of the command in flight. -/
def arcReaches (s : State) (a n : Nat) : Bool :=
  hbmRange s.fuses a n && s.arc.cmd.any fun c => c.parts.any fun p => rangeIn a n p.2.1 p.2.2

/-- A memory request of a controller: done, or refused as unsupported and recorded. An uncorrectable error is recorded too (R420). -/
def arcInbound (s : State) (r : ArcReq) : State :=
  let refuse := report cARC_IO (srcOf 8 10 0)
  match r with
  | .read a n => if arcReaches s a n then s else refuse (BitVec.ofNat 64 a) s
  | .write a bs => if arcReaches s a bs.length then hbmPut a bs s else refuse (BitVec.ofNat 64 a) s
  | .error => refuse 0 s

/-- An NVMe command completes (R420, R423, R424), after the requests that the controllers made. -/
def nvmeCompletion (ok : Bool) (reqs : List ArcReq) (s : State) : State :=
  let s := reqs.foldl arcInbound s
  if ok then sealCompletion s
  else
    let s := report cARC_IO (srcOf 8 10 0) 0 (addFld ARC_COUNT_IO_ERRORS 1 s)
    if s.arc.cmd.isSome then sealAbandon s else s

/-- The archive link is lost (R420). -/
def archiveDown (s : State) : State :=
  if !fldOn s ARC_STAT_LINK_UP then s
  else
    let s := setFld ARC_STAT_READY 0 (setFld ARC_STAT_LINK_UP 0 { s with arc := { s.arc with retrainTick := tickNow s } })
    if fldOn s ARC_CTRL_ENABLE then sealAbandon (report cARC_IO (srcOf 8 10 0) 0 s) else s

/-- While the port is enabled and its link down, the Keeper trains it again in each 1,024 ticks (R420). -/
def arcRetrain (s : State) : State :=
  if fldOn s ARC_CTRL_ENABLE && !fldOn s ARC_STAT_LINK_UP && decide (s.arc.retrainTick + 1024 ≤ tickNow s) then
    { s with arc := { s.arc with retrainTick := tickNow s } }
  else s

/-! ### The cut (R57, R58, R409 to R411) -/

/-- A cut request is accepted. -/
def cutAccept (r : CutReq) (s : State) : State :=
  let s := setFld LAT_SNAP_STAT_CUT_TAKEN 0 (setFld LAT_SNAP_STAT_SNAP_ID r.snapId.toNat s)
  let s := setFld LAT_SNAP_STAT_T2 (if r.tier2 then 1 else 0) (setFld LAT_SNAP_STAT_T1 (if r.tier1 then 1 else 0) s)
  { s with lat := { s.lat with cuts := s.lat.cuts ++ [r] } }

def cutRefuse (r : CutReq) (s : State) : State := report cSNAP_REFUSED (srcOf 8 10 0) (BitVec.ofNat 64 r.snapId.toNat) s

/-- The earliest accepted cut whose boundary has come (R47). -/
def cutDue (s : State) : Option CutReq :=
  if !isLocked s then none
  else (s.lat.cuts.mergeSort fun a b => a.frame ≤ b.frame).find? fun r => decide (r.frame ≤ s.frame.f)

/-- An earlier snapshot's tier that a cut wants anew is abandoned (R412). -/
def cutDisplace (r : CutReq) (s : State) : State :=
  let s := { s with lat := { s.lat with cuts := s.lat.cuts.filter (· != r) } }
  let s := if r.tier1 then t1Abandon s else s
  if r.tier2 then sealAbandon s else s

/-- `LAT_SNAP_STAT` of a cut whose tiers go on (`p1`, `p2`) or are abandoned with a record. -/
def cutStat (r : CutReq) (p1 p2 : Bool) (s : State) : State :=
  let s := snapStat r.snapId (fun s => setFld LAT_SNAP_STAT_T2 (if p2 then 1 else if r.tier2 then 3 else 0)
    (setFld LAT_SNAP_STAT_T1 (if p1 then 1 else if r.tier1 then 3 else 0) s)) s
  let s := if r.tier1 && !p1 then report cSNAP_ABANDONED (srcOf 8 10 0) (BitVec.ofNat 64 r.snapId.toNat) s else s
  if r.tier2 && !p2 then report cSEAL_ABANDONED (srcOf 8 13 0) (BitVec.ofNat 64 r.snapId.toNat) s else s

/-- The values of a cut are recorded and its granules marked (R411, R412). -/
def cutRecord (x : Snap) (r : CutReq) (p1 p2 : Bool) (s : State) : State :=
  let c : CutRec := ⟨r.frame, r.tier1, r.tier2, r.snapId, x.cursor, x.next, x.streams, x.journal⟩
  let s := (extentGrans x.extents).foldl (cutMark p1 p2) s
  let s := (List.range 8).foldl (fun s d => latStat d s) s
  let s := snapStat r.snapId (setFld LAT_SNAP_STAT_CUT_TAKEN 1) s
  { s with lat := { s.lat with taken := some c } }

/-- The transfers of a cut begin. -/
def cutSend (x : Snap) (p1 p2 : Bool) (s : State) : State :=
  let s := if p1 then listStart .tier1 2 0 none 0 0 { s with lat := { s.lat with
      t1 := some x, t1Left := some ((s.lat.map.filter fun p => p.2.t1).map (·.1)), t1Sent := [] } } else s
  if p2 then sealStart x s else s

/-- The cut at its boundary. A tier that an earlier cut still has pending is abandoned when the new cut wants it too. -/
def takeCut (r : CutReq) (s : State) : State :=
  let s := cutDisplace r s
  let p1 := r.tier1 && s.img.isSome && fld s LAT_PAIR_STAT_STATE == 1
  let p2 := r.tier2 && s.img.isSome && fldOn s ARC_STAT_READY
  let s := cutStat r p1 p2 s
  match s.img with
  | none => s
  | some i =>
    let x := cutSnap s i r
    cutSend x p1 p2 (cutRecord x r p1 p2 s)

/-- Abandons the pending tier that R406 names first, the oldest snapshot's and tier 2 before tier 1, if one is pending. -/
def tierAbandon (s : State) : Option State :=
  match s.arc.sealSnap, s.lat.t1 with
  | some x, some y => some (if x.frame ≤ y.frame then sealAbandon s else t1Abandon s)
  | some _, none => some (sealAbandon s)
  | none, some _ => some (t1Abandon s)
  | none, none => none

end Sys2Proof.Machine
end

