-- ==== Sys2Proof/Machine/StepRows.lean ====
section
/-! DEFINITION. Votes, commits, aborts and repeats of a step (R53 to R58, R129 to R131, R305, R321 to R327, R398, R406, R407, R434 to
R442, R474, R475, R510), and the latch and snapshot rows (R397 to R424). -/
namespace Sys2Proof.Machine

/-! ### Messages -/

/-- It came as a flooded message. -/
def wasFlooded (s : State) (c : Ctl) : Bool :=
  s.fab.inbound.any fun p => p.body == .control c && p.tag.toNat == floodTag

/-- A message for the open step and attempt of this module. -/
def msgNow (s : State) (step : Word) (attempt : BitVec 8) : Bool :=
  step.toNat == s.step.next && attempt.toNat == s.step.attempt

/-- Floods a designation, which this module then knows. -/
def desigFlood (c : Ctl) (s : State) : State := floodCtl c { s with fab := { s.fab with seenDesig := c :: s.fab.seenDesig } }

/-- The acting root sends a designation: the root down the tree, the deputy on every port (R441). -/
def designate (c : Ctl) (s : State) : State := if isRoot s then sendChildren c s else desigFlood c s

/-- A designation goes on: down the tree, or on every port when it was flooded. -/
def passOn (c : Ctl) (s : State) : State := if wasFlooded s c then desigFlood c (takeCtl c s) else sendChildren c (takeCtl c s)

/-- Another copy of a flooded designation: like every flooded message it is passed on and acted on once (R322, R441; DEDUCED, assumption
91). -/
def desigSeen (s : State) (c : Ctl) : Bool := wasFlooded s c && s.fab.seenDesig.contains c

/-- What a designation does where it arrives for the first time; another copy is taken and dropped. -/
def desigOnce (c : Ctl) (s t : State) : State := if desigSeen s c then takeCtl c s else t

/-! ### Posts (R474) -/

/-- The committed value of the image's consumption index; 0 without a post ring. -/
def consumed (s : State) (i : Image) : Nat := if i.postN = 0 then 0 else (latchMem s).readN i.consumedAddr 8

/-- Writes the waiting POSTs that the committed consumption index leaves room for, in order. -/
def postWrite (s : State) : State :=
  match s.img with
  | none => s
  | some i =>
    i.posts.foldl (fun s p =>
      match p.idx, s.img, jFind s p.q p.seq with
      | none, some i, some (_, e) =>
        if i.postCount < consumed s i + i.postN then
          let ps := i.posts.map fun x => if x = p then { x with idx := some i.postCount } else x
          let s := hbmPut (i.postBase + i.postCount % i.postN * 128) (tBytes e.t) s
          { s with img := some { i with posts := ps, postCount := i.postCount + 1 } }
        else s
      | _, _, _ => s) s

/-- After a commit: every POST below the consumption index completes, and waiting ones take the room (R474). -/
def postsCommit (s : State) : State :=
  match s.img with
  | none => s
  | some i =>
    let c := consumed s i
    let done := i.posts.filter fun p => match p.idx with
      | some n => decide (n < c)
      | none => false
    let s := done.foldl (fun s p => completeTicket p.q p.seq cOK 0 false s) s
    let s := match s.img with
      | some i => { s with img := some { i with posts := i.posts.filter fun p => !done.contains p } }
      | none => s
    postWrite s

/-! ### Opening after a commit (R93, R129, R510, R513, R515) -/

/-- A committed change set whose apply point is the commit of a step before the next one holds the gap until it is applied or
abandoned. -/
def csHolds (s : State) : Bool := match s.kpr.cs.bind (·.commit) with
  | some (_, n, waits) => waits && decide (n < s.step.next)
  | none => false

/-- A live swap takes the gap at the commit boundary (R515). -/
def swapHolds (s : State) : Bool := hasList s .swapMicro || hasList s .swapUncore

/-- Cores over their corrected-error limit are fenced between steps (R498). -/
def ceFence (s : State) : State :=
  let ps := s.kpr.fenceAtCommit
  if ps = [] then s
  else
    let s := { s with kpr := { s.kpr with fenceAtCommit := [] } }
    replace (ps.foldl (fun s p => if (getP s p).fenced then s else fenceOff p s) s)

/-- The next step opens, unless a change set or a swap holds the gap; placement changes take effect first. -/
def openGap (s : State) : State :=
  if stepIsOpen s || !s.step.any then s
  else if csHolds s || swapHolds s then s
  else openNext (applyMoves s)

/-! ### Bring-ups owed at a moment without an open step (R382, R384, R444, R446) -/

/-- Two failures within 1,024 ticks among those since the last bring-up, newest first (R384, R444). -/
def twoFails : List Nat → Bool
  | t :: u :: r => decide (t < u + 1024) || twoFails (u :: r)
  | _ => false

/-- A bring-up that was asked for while a step was open or that two path failures call for, or the next retry of a port that
left UP. -/
def portOwed (s : State) (n : Nat) : State :=
  let p := getPort s n
  if !hasPort s.fuses n then s
  else if p.retrainReq then modPort n (fun p => { p with retries := 0, retrainReq := false }) (portBringup n s)
  else if twoFails p.pathTicks then modPort n (fun p => { p with pathTicks := [] }) (portBringup n s)
  else if fldOn s (pEnable n) && (fld s (pState n) == 0 || fld s (pState n) == 7) && decide (1 ≤ p.retries ∧ p.retries ≤ 3) &&
      (p.retries == 1 || decide (p.retryTick + 1024 ≤ tickNow s)) then
    modPort n (fun q => { q with retries := p.retries + 1, retryTick := tickNow s }) (portBringup n s)
  else s

/-- A retrain of knuckle `i`, whose count of failures starts again. One that fails takes the uncore of the lower-numbered die out
of service; a failed hub knuckle fences nothing: it is down, and the hub's traffic takes the other one (R17, R444). -/
def knuckleRetrain (s : State) (i : Nat) : State :=
  let s := { s with peer := { s.peer with knuckle := s.peer.knuckle.filter fun k => k.1 != i } }
  if Config.knuckleRetrains i (tickNow s) then s
  else match knuckleDie i with
    | some d => fenceDie d s
    | none => { s with peer := { s.peer with hubDown := i :: s.peer.hubDown } }

/-- The Keeper starts what it owes the ports and the knuckles, when it runs and no step is open. -/
def portsOwed (s : State) : State :=
  if stepIsOpen s || !s.kpr.up || s.peer.retired then s
  else
    let s := (List.range 16).foldl portOwed s
    ((s.peer.knuckle.filter fun k => twoFails k.2).map (·.1)).foldl knuckleRetrain s

/-- Stores of the S queue that no longer wait for the latch have landed (R401). -/
def storesLanded (s : State) : State :=
  modAllL (fun l => modQueue qS (fun es => es.filter fun e => match e.pl with
    | .store a bs => latHolds s a bs.length
    | _ => true) l) s

/-! ### Commit (R54, R131) -/

/-- The open step commits on the module, cuts due at the boundary are taken, and the next step opens. -/
def commitDo (s : State) : State :=
  let s := stacksOut (postsCommit (heldAcks (storesLanded (commitCore s))))
  match s.img with
  | none => s
  | some i =>
    match i.faultPend, i.stopReq with
    | some (code, det), _ => imageEnd code det (programFlood code s)
    | none, some _ => imageEnd cSTOPPED 0 s
    | none, none =>
      let s := match cutDue s with
        | some r => takeCut r s
        | none => s
      let s := ceFence s
      pumpAll (openGap (portsOwed s))

/-- A commit whose frame has come. -/
def commitReady (s : State) : Bool :=
  isLocked s && match s.step.commitF with
    | some (n, f) => n == s.step.next && decide (f ≤ s.frame.f) && stepState s == 2
    | none => false

def execCommitBoundary (s : State) : Out := liveNext s (if commitReady s then commitDo s else s)

/-- READY_VOTE (R53, R305). -/
def readyVote (s : State) : State :=
  if !shareReady s then s
  else sendRoot (.vote (ownMsg s)) (setStepState 2 s)

def execReadyVote (s : State) : Out := liveNext s (readyVote s)

/-- Members whose vote the tally needs (R613). -/
def tallyOk (s : State) : Bool :=
  (treeOf s).all fun m => s.step.gone.contains m || s.step.votes.contains (m, s.step.attempt)

/-- A commit designation reaches this module, or is its own: applied at its boundary, or at once when its frame has begun (R56). -/
def commitTake (d : Designation) (s : State) : State :=
  if !(stepState s == 2 && msgNow s d.step d.attempt) || s.step.commitF.isSome then s
  else
    let s := { s with step := { s.step with commitF := some (s.step.next, d.frame) } }
    if isLocked s && decide (d.frame ≤ s.frame.f) then
      commitDo (report cCOMMIT_LATE (srcOf 8 11 0) (BitVec.ofNat 64 s.step.next) (addFld FRM_COUNT_LATE_EVENTS 1 s))
    else s

/-- The commit frame of a tally complete now (R53). -/
def commitFrame (s : State) : Nat := closeFrame s

/-- The acting root designates the commit once it holds every vote. -/
def tally (s : State) : State :=
  if !actsRoot s || s.step.tallied || !tallyOk s || treeOf s = [] then s
  else
    let d : Designation := ⟨BitVec.ofNat 64 s.step.next, BitVec.ofNat 8 s.step.attempt, commitFrame s, false, []⟩
    commitTake d (designate (.commit d) { s with step := { s.step with tallied := true } })

/-- READY_VOTE_RECEIVED (R53). -/
def voteReceived (m : MemberMsg) (s : State) : State :=
  let s := takeCtl (.vote m) s
  if m.step.toNat ≠ s.step.next then s
  else
    let v := (m.member, m.attempt.toNat)
    tally (if s.step.votes.contains v then s else { s with step := { s.step with votes := s.step.votes ++ [v] } })

def execReadyVoteReceived (m : MemberMsg) (s : State) : Out := liveNext s (ordered (ctlIs (.vote m)) s (voteReceived m s))

/-- COMMIT_DESIGNATION (R54, R56, R613). -/
def commitDesignation (d : Designation) (s : State) : State :=
  if msgNow s d.step d.attempt && s.step.commitF.isNone && stepState s == 2 then commitTake d (passOn (.commit d) s)
  else takeCtl (.commit d) s

def execCommitDesignation (d : Designation) (s : State) : Out := liveNext s (ordered (ctlIs (.commit d)) s (commitDesignation d s))

/-! ### Opening -/

def execStepOpens (s : State) : Out := liveNext s (pumpAll (openTry (if stepIsOpen s then s else applyMoves s)))

/-- Tiers are abandoned until the reservation fits (R406). -/
def poolAbandon : Nat → State → State
  | 0, s => openTry s
  | fuel + 1, s =>
    if openRoom s = .short then match tierAbandon s with
      | some s => poolAbandon fuel s
      | none => openTry s
    else openTry s

def execPoolWaitExpiry (s : State) : Out :=
  liveNext s (if s.step.waitFrames = some 0 then pumpAll (poolAbandon 2 s) else s)

/-! ### Aborts (R321 to R326) -/

/-- CONTRIBUTION_DEADLINE (R47, R52, R321). The deadline of a bucket that no GRED has launched is in the compiled schedule alone. -/
def contributionDeadline (id : BitVec 32) (s : State) : State :=
  if !isLocked s || stepState s != 1 then s
  else match s.step.buckets.find? fun b => b.id == id with
    | none => sendRoot (.report (ownKind s .late id)) (report cSTEP_LATE (srcOf 8 8 0) (BitVec.ofNat 64 id.toNat) s)
    | some b =>
      if b.done || b.reported || !decide ((s.step.refFrame + b.deadline) * 65536 < (sysTime s).toNat) then s
      else
        let k := lateKind s id
        let bs := s.step.buckets.map fun x => if x.id = id then { x with reported := true } else x
        let s := { s with step := { s.step with buckets := bs } }
        let s := if k = .late then report cSTEP_LATE (srcOf 8 8 0) (BitVec.ofNat 64 id.toNat) s else s
        sendRoot (.report (ownKind s k id)) s

/-- The root records a report or an acknowledgement. -/
def ackNote (m : KindMsg) (s : State) : State :=
  let a := (m.member, m.kind, m.attempt.toNat)
  if m.step.toNat ≠ s.step.next ∨ s.step.acks.contains a then s else { s with step := { s.step with acks := s.step.acks ++ [a] } }

/-- The attempt can still be aborted by the root (R323). -/
def canFlood (s : State) : Bool := actsRoot s && !s.step.tallied && (stepState s == 1 || stepState s == 2)

/-- DEADLINE_REPORT: the first of an attempt makes the root abort it (R323). -/
def deadlineReport (m : KindMsg) (s : State) : State :=
  let s := ackNote m (takeCtl (.report m) s)
  if canFlood s && msgNow s m.step m.attempt then
    abortHere (abortMsg s 1 0 (if m.kind = .late then m.member else noMember) m.bucket false) s
  else s

def execDeadlineReport (m : KindMsg) (s : State) : Out := liveNext s (ordered (ctlIs (.report m)) s (deadlineReport m s))

/-- ABORT_REQUEST (R323). -/
def abortRequest (m : AbortMsg) (s : State) : State :=
  let s := takeCtl (.abort m) s
  if canFlood s && msgNow s m.step m.attempt then abortHere { m with request := false } s else s

def execAbortRequest (m : AbortMsg) (s : State) : Out := liveNext s (ordered (ctlIs (.abort m)) s (abortRequest m s))

/-- A program fault of a module that has committed already: the image stops here at the same commit (R136, R442). -/
def faultAtCommit (m : AbortMsg) (s : State) : State :=
  { s with img := s.img.map fun i => if i.faultPend.isSome then i else { i with faultPend := some (m.code, 0) } }

/-- STEP_ABORT (R131, R136, R322, R324, R440). The first for the open attempt aborts it, and one with cause PROGRAM stops the image in any
attempt of the step; another for an attempt already aborted is counted. A module that can do neither still passes the message on. -/
def stepAbort (m : AbortMsg) (s : State) : State :=
  let s := takeCtl (.abort m) s
  let here := s.img.isSome && m.step.toNat == s.step.next
  if m.request then s
  else if here && (m.cause == 3 || m.attempt.toNat == s.step.attempt && (stepState s == 1 || stepState s == 2)) then abortHere m s
  else if here && decide (m.attempt.toNat < s.step.abortedBelow) then addFld RDU_STEP_COUNT_DUP_ABORTS 1 s
  else if s.img.isSome && m.cause == 3 && m.step.toNat == s.step.next + 1 then abortFlood m (faultAtCommit m s)
  else abortFlood m s

def execStepAbort (m : AbortMsg) (s : State) : Out := liveNext s (ordered (ctlIs (.abort m)) s (stepAbort m s))

def execAbortAcknowledgement (m : KindMsg) (s : State) : Out :=
  liveNext s (ordered (ctlIs (.abortAck m)) s (ackNote m (takeCtl (.abortAck m) s)))

/-! ### Restore and repeat (R73, R93, R242, R327, R407) -/

def execLatchRestore (s : State) : Out :=
  liveNext s (if stepState s == 3 && !s.lat.restoring then
    let s := latWriteBack s
    { s with lat := { s.lat with restoring := true } }
  else s)

/-- A logical core restarts after its STEP.OPEN with what that saved (R73, R200, R221). -/
def restartSaved (s : State) (ci : Nat) : State :=
  match getL s ci with
  | none => s
  | some l =>
    if l.loop || leftSteps l then s
    else match l.inStep, l.saved with
      | true, some (_, sv) =>
        let l := { l with x := sv.x, p := sv.p, d := sv.d, hinge := sv.hinge, hingeIssued := sv.hinge, streams := sv.streams }
        let l := { l with pc := sv.pc, qs := List.replicate 9 [], waits := [], block := none, acc := [], accDims := [] }
        let l := { l with partStop := [], engStop := [], keyrings := [keyringEmpty, keyringEmpty], cap := 512, emptyAt := [] }
        let l := { l with greds := [], closing := false, ready := false, stopped := false }
        forgetRange (winBase l) scratchBytes (setL ci l s)
      | _, _ => setL ci { l with stopped := false } s

/-- The query slots, which no repeat touches. -/
def slotRange (s : State) : Nat × Nat := (slotAddr s 1, 256 * fld s TKT_LOOP_CFG_SLOTS)

/-- TRANSIENT regions hold no defined value at a repeat (R73); the slot table stays as the ticket unit and the LOOP cores have it. -/
def forgetTransient (s : State) : State :=
  match s.img with
  | none => s
  | some i =>
    let t := slotRange s
    (i.regions.filter fun r => r.kind == 1).foldl (fun s r =>
      if rangesMeet (r.base, r.len) t then
        let lo := max r.base t.1
        let hi := min (r.base + r.len) (t.1 + t.2)
        forgetRange hi (r.base + r.len - hi) (forgetRange r.base (lo - r.base) s)
      else forgetRange r.base r.len s) s

/-- The attempt that the designation names opens (R327). -/
def repeatOpen (attempt frame : Nat) (late : Bool) (s : State) : State :=
  let s := forgetTransient (applyMoves s)
  let s := (List.range s.lcores.length).foldl restartSaved s
  let st := { s.step with attempt := attempt, refFrame := frame, repeatF := none, tallied := false, holds := [] }
  let s := assignUnits { s with step := { st with closeF := none, abortedBelow := attempt } }
  let s := if late then report cREPEAT_LATE (srcOf 8 13 0) (BitVec.ofNat 64 s.step.next) s else s
  pumpAll (setStepState 1 s)

/-- The designated repeat frame has begun. -/
def repeatDue (s : State) : Option (Nat × Nat) :=
  if !isLocked s then none
  else match s.step.repeatF with
    | some (a, f, false) => if f ≤ s.frame.f then some (a, f) else none
    | _ => none

/-- REPEAT_OPEN (R327): a restore that still runs makes the open late; a replacement opens its first step (R452). -/
def execRepeatOpen (s : State) : Out :=
  liveNext s (match repeatDue s with
    | some (a, f) => if stepState s = 4 then repeatOpen a f false s else if stepState s = 0 then pumpAll (openTry s) else s
    | none => s)

/-- The restore is over: the step state says so (R327, R407). -/
def restoreEnd (s : State) : State := setStepState 4 { s with lat := { s.lat with restoring := false } }

/-- LATCH_RESTORE_DONE (R327, R407). -/
def latchRestoreDone (s : State) : State :=
  if !(stepState s == 3 && s.lat.restoring) then s
  else match repeatDue (restoreEnd s) with
    | some (a, f) => repeatOpen a f true (restoreEnd s)
    | none => restoreEnd s

def execLatchRestoreDone (s : State) : Out := liveNext s (latchRestoreDone s)

/-- Escalated members: this one takes the module-loss path, as the partner does for the one it holds (R326). -/
def escalate (ms : List Member) (s : State) : State :=
  if ms.contains (ownId s) then moduleLoss s
  else match s.lat.hold.held with
    | some p => if ms.contains p then declareLost p s else s
    | none => s

/-- A repeat designation (R325, R437, R439). -/
def repeatTake (d : Designation) (s : State) : State :=
  let st := stepState s
  let a := d.attempt.toNat
  let same := d.step.toNat == s.step.next
  if same && (st == 3 || st == 4) && a == s.step.attempt + 1 then
    let s := { s with step := { s.step with repeatF := some (a, d.frame, d.held), gone := s.step.gone ++ d.escalated } }
    let s := escalate d.escalated s
    match repeatDue s with
    | some (a, f) => if stepState s = 4 then repeatOpen a f true s else s
    | none => s
  else if same && d.held && (st == 1 || st == 2) && a == s.step.attempt then
    let s := abortHere (abortMsg s 4 0 noMember 0 false) s
    { s with step := { s.step with repeatF := some (a, d.frame, true), closeF := none } }
  else s

def execRepeatDesignation (d : Designation) (s : State) : Out :=
  liveNext s (ordered (ctlIs (.repeatD d)) s (desigOnce (.repeatD d) s (repeatTake d (passOn (.repeatD d) s))))

/-- Members that reported or acknowledged LATE in the attempt, and members from which the root holds nothing (R325). -/
def lateMembers (s : State) : List Member :=
  (treeOf s).filter fun m => !s.step.gone.contains m && s.step.acks.contains (m, .late, s.step.attempt)
def missingMembers (s : State) : List Member :=
  (treeOf s).filter fun m => m != ownId s && !s.step.gone.contains m && !s.step.votes.contains (m, s.step.attempt) &&
    !(s.step.acks.any fun a => a.1 == m && a.2.2 == s.step.attempt)

/-- The root records an escalation (R326), and counts it where its `ROOT` is 1 (R329). -/
def escalateNote (s : State) (m : Member) : State :=
  let s := if fldOn s RDU_STEP_CTRL_ROOT then addFld RDU_STEP_COUNT_ESCALATIONS 1 s else s
  let s := setFld RDU_ESCALATED_MODULE m.toNat (setFld RDU_ESCALATED_STEP s.step.next s)
  report cSTEP_ESCALATE (srcNamed 8 13 0 m) (BitVec.ofNat 64 s.step.next) s

/-- COLLECTION_CLOSE (R325, R326, R437, R440). -/
def collectionClose (s : State) : State :=
  match s.step.closeF with
  | none => s
  | some f =>
    if !actsRoot s || !isLocked s || s.frame.f < f then s
    else
      let bad := (lateMembers s ++ missingMembers s).eraseDups
      let esc := bad.filter s.step.prevLate.contains
      let s := esc.foldl escalateNote { s with step := { s.step with closeF := none, prevLate := bad } }
      let held := s.step.holds != []
      let d : Designation := ⟨BitVec.ofNat 64 s.step.next, BitVec.ofNat 8 (s.step.attempt + 1), s.frame.f + fld s RDU_STEP_CTRL_RESTART_LEAD,
        held, esc⟩
      repeatTake d (designate (.repeatD d) s)

def execCollectionClose (s : State) : Out := liveNext s (collectionClose s)

/-! ### Holds (R437 to R439) -/

/-- RECOVERY_HOLD: before the designation it marks it, after it the designation goes out again, HELD. -/
def recoveryHold (m : MemberMsg) (s : State) : State :=
  let s := takeCtl (.hold m) s
  if m.step.toNat ≠ s.step.next ∨ m.attempt.toNat ≠ s.step.attempt + 1 then s
  else
    let s := { s with step := { s.step with holds := if s.step.holds.contains m.member then s.step.holds else s.step.holds ++ [m.member] } }
    match actsRoot s, s.step.repeatF with
    | true, some (a, f, false) =>
      if s.frame.f < f then
        let d : Designation := ⟨BitVec.ofNat 64 s.step.next, BitVec.ofNat 8 a, f, true, []⟩
        designate (.repeatD d) { s with step := { s.step with repeatF := some (a, f, true) } }
      else s
    | _, _ => s

def execRecoveryHold (m : MemberMsg) (s : State) : Out := liveNext s (ordered (ctlIs (.hold m)) s (recoveryHold m s))

/-- With a resume a replacement of the root is root again, and the deputy no longer acts for it (R441). -/
def rootBack (s : State) : State :=
  { s with peer := { s.peer with heir := false, lost := s.peer.lost.filter fun m => s.step.ownHolds.contains (.lost m) || rootOf s != some m } }

/-- A resume designation: the held attempt opens at its frame (R438). -/
def resumeTake (d : Designation) (s : State) : State :=
  match s.step.repeatF with
  | some (a, _, true) =>
    if d.step.toNat = s.step.next ∧ d.attempt.toNat = a then rootBack { s with step := { s.step with repeatF := some (a, d.frame, false) } } else s
  | none =>
    if d.step.toNat = s.step.next ∧ !s.step.any ∧ s.img.isSome then
      rootBack { s with step := { s.step with repeatF := some (d.attempt.toNat, d.frame, false) } }
    else s
  | _ => s

/-- RECOVERY_RELEASE: with the last hold released the acting root resumes the attempt. -/
def recoveryRelease (m : MemberMsg) (s : State) : State :=
  let s := takeCtl (.release m) s
  if m.step.toNat ≠ s.step.next ∨ !s.step.holds.contains m.member then s
  else
    let s := { s with step := { s.step with holds := s.step.holds.filter (· != m.member) } }
    match s.step.repeatF with
    | some (a, _, true) =>
      if actsRoot s && s.step.holds == [] then
        let d : Designation := ⟨BitVec.ofNat 64 s.step.next, BitVec.ofNat 8 a, s.frame.f + fld s RDU_STEP_CTRL_RESTART_LEAD, false, []⟩
        resumeTake d (designate (.resume d) s)
      else s
    | _ => s

def execRecoveryRelease (m : MemberMsg) (s : State) : Out := liveNext s (ordered (ctlIs (.release m)) s (recoveryRelease m s))
def execResumeDesignation (d : Designation) (s : State) : Out :=
  liveNext s (ordered (ctlIs (.resume d)) s (desigOnce (.resume d) s (resumeTake d (passOn (.resume d) s))))

/-! ### Latch and snapshots -/

/-- FIRST_TOUCH (R399, R411): a write reaches a granule that must be copied first. -/
def execFirstTouch (addr : Nat) (data : List Byte) (path : WritePath) (s : State) : Out :=
  liveNext s (if hbmRange s.fuses addr data.length && (granulesOf addr data.length).any (fun g => needsCopy (getGran s g)) then
    hbmWrite (plainWrite path addr data) s else s)

/-- LATCH_COPY_DONE (R399): a copy that reads an uncorrectable error does not complete (R402). -/
def execLatchCopyDone (d : Fin 8) (granule : Nat) (s : State) : Out :=
  liveNext s (match s.lat.jobs.find? fun j => j.gran == granule && j.running && dieOfGran j.gran == d.val with
    | some j => if hbmBad s (granule * granBytes) granBytes then s else 
      let t := heldAcks (storesLanded (copyDone j s))
      pumpAll (if (List.range 8).any (unitStopped s) then redRetry t else t)
    | none => s)

/-- LAT_CUT (R47, R57, R409): the request this module makes. -/
def latCut (v : Word) (s : State) : State :=
  let r : CutReq := ⟨bits v.toNat 0 48, v.getLsbD 48, v.getLsbD 49, BitVec.ofNat 32 (fld s LAT_CUT_ID_SNAP_ID)⟩
  if !isLocked s || r.frame < s.frame.f + 2 then cutRefuse r s
  else
    let s := { s with fab := { s.fab with seenCuts := r.snapId :: s.fab.seenCuts } }
    cutAccept r (floodCtl (.cut r) s)

def execLatCut (value : Word) (s : State) : Out := liveNext s (latCut value s)

/-- CUT_REQUEST (R409): passed on once; accepted unless the module is not locked or frame F has begun. -/
def cutRequest (r : CutReq) (s : State) : State :=
  let s := takeCtl (.cut r) s
  if s.fab.seenCuts.contains r.snapId then s
  else
    let s := floodCtl (.cut r) { s with fab := { s.fab with seenCuts := r.snapId :: s.fab.seenCuts } }
    if !isLocked s || r.frame ≤ s.frame.f then cutRefuse r s else cutAccept r s

def execCutRequest (r : CutReq) (s : State) : Out := liveNext s (ordered (ctlIs (.cut r)) s (cutRequest r s))

def execTier1TransferDone (hashesOk : Bool) (snap : SnapIn) (s : State) : Out := liveNext s (t1TransferDone hashesOk snap s)
def execTier1Completion (id : BitVec 32) (s : State) : Out :=
  liveNext s (ordered (fun p => ctlIs (.tier1Done id) p || ctlIs (.tier1Failed id) p) s (t1Answer id s))
def execArchiveLinkDown (s : State) : Out := liveNext s (archiveDown s)
def execNvmeCompletion (e : NvmeEnd) (s : State) : Out := liveNext s (nvmeCompletion e.ok e.reqs s)

/-- ARCHIVE_LINK_UP (R420, R421). -/
def execArchiveLinkUp (controllers : Nat) (found : List NsInfo) (reqs : List ArcReq) (s : State) : Out :=
  liveNext s (if s.arc.perst then s
    else arcEnable (reqs.foldl arcInbound
      (setFld ARC_STAT_LINK_UP 1 { s with arc := { s.arc with ctrls := controllers, found := found } })))

end Sys2Proof.Machine
end

