-- ==== Sys2Proof/Machine/Loader.lean ====
section
/-! DEFINITION. The loader (R75 to R85, R90, R103, R198, R332, R333, R473, R487, R542, R613) and restore (R413 to R415, R425 to R427,
R482). -/
namespace Sys2Proof.Machine

/-! ### The image as it lies in HBM (R79 to R82) -/

/-- A section table entry: kind, offset, length, load address, and whether its reserved bytes are zero. -/
structure Sect where
  kind : Nat
  off : Nat
  len : Nat
  load : Nat
  zeroOk : Bool
  deriving DecidableEq, Repr

def sectAt (m : Mem) (a i : Nat) : Sect :=
  let b := m.bytes (a + 0x100 + 32 * i) 32
  ⟨bodyNat b 0 2, bodyNat b 8 8, bodyNat b 0x10 8, bodyNat b 0x18 8, zeroBytes (slice b 2 6)⟩

def sectCount (m : Mem) (a : Nat) : Nat := m.readN (a + 0x16) 1
def sects (m : Mem) (a : Nat) : List Sect := (List.range (min 8 (sectCount m a))).map (sectAt m a)
def sectOf (k : Nat) (ss : List Sect) : Option Sect := ss.find? fun x => x.kind == k
def sectNum (k : Nat) (ss : List Sect) : Nat := (ss.filter fun x => x.kind == k).length

def imgLevelAt (m : Mem) (a : Nat) : Nat := m.readN (a + 8) 1
def imgCores (m : Mem) (a : Nat) : Nat := m.readN (a + 0xA) 2
def imgBytes (m : Mem) (a : Nat) : Nat := m.readN (a + 0x18) 8
def imgTree (m : Mem) (a : Nat) : Nat := m.readN (a + 0x28) 8

/-! ### Check 1 of R83 -/

/-- A section is well formed and lies within the image. -/
def sectOk (len : Nat) (x : Sect) : Bool :=
  decide (1 ≤ x.kind ∧ x.kind ≤ 5) && x.zeroOk && decide (x.off % 64 = 0 ∧ 512 ≤ x.off ∧ x.off + x.len ≤ len) &&
  (x.kind == 4 || x.load == 0)

/-- The KEYS section's stream table and routing header (R198, R332). -/
def keysOk (m : Mem) (a len : Nat) : Bool :=
  decide (8192 ≤ len) && ((List.range 256).all fun n => m.readN (a + 32 * n + 0x18) 8 == 0) &&
  (len == 8192 ||
    (decide (8256 ≤ len) && decide (m.readN (a + 8192) 2 ≤ 256) && decide (m.readN (a + 8194) 1 ≤ 1) &&
      zeroBytes (m.bytes (a + 8195) 61) && decide (8256 + 64 * m.readN (a + 8192) 2 ≤ len)))

def loadFormat (m : Mem) (a n : Nat) : Bool :=
  let len := imgBytes m a
  let ss := sects m a
  decide (512 ≤ n) && m.readN a 4 == 0x4D494D44 && m.readN (a + 4) 2 == 1 && m.readN (a + 6) 2 == 512 && imgLevelAt m a != 0 &&
  decide (m.readN (a + 9) 1 ≤ 1) && decide (1 ≤ imgCores m a ∧ imgCores m a ≤ 256) && decide (m.readN (a + 0xC) 4 < 64) &&
  decide (1 ≤ sectCount m a ∧ sectCount m a ≤ 8) && m.readN (a + 0x17) 1 == 0 && decide (512 ≤ len ∧ len ≤ n) &&
  (imgLevelAt m a != 1 || imgTree m a == 0) && zeroBytes (m.bytes (a + 0x30) 16) && zeroBytes (m.bytes (a + 0x60) 160) &&
  zeroBytes (m.bytes (a + 0x100 + 32 * sectCount m a) (256 - 32 * sectCount m a)) && ss.all (sectOk len) &&
  sectNum 2 ss == 1 && sectNum 3 ss == 1 && decide (1 ≤ sectNum 1 ss) && decide (sectNum 5 ss ≤ 1) &&
  (match sectOf 5 ss with
   | some k => keysOk m (a + k.off) k.len
   | none => true)

/-! ### Checks 4 and 5 -/

def loadCaps (s : State) (m : Mem) (a : Nat) : Bool :=
  let sub := fun x y => x &&& y == x
  sub (m.readN (a + 0xC) 4) ((getReg s rCAPS_B).toNat >>> 32 &&& 63) && sub (m.readN (a + 0x10) 4) (stackMask s.fuses) &&
  sub (m.readN (a + 0x14) 2) (portMask s.fuses)

/-- Entry `i` of a REGIONS section, and whether its fields are well formed. -/
def regionAt (m : Mem) (a i : Nat) : Region × Bool :=
  let b := m.bytes (a + 16 * i) 16
  let r : Region := ⟨bodyNat b 0 8, bodyNat b 8 6, bodyNat b 0xE 1⟩
  (r, decide (r.base < 2 ^ 43 ∧ r.len ≠ 0 ∧ r.kind ≤ 2) && bodyNat b 0xF 1 == 0)

def regionsAt (m : Mem) (a len : Nat) : List (Region × Bool) := (List.range (len / 16)).map (regionAt m a)

/-- A range lies in present HBM below the save areas and the pool of every die (R90). -/
def loadable (s : State) (a n : Nat) : Bool :=
  hbmRange s.fuses a n && decide (a + n ≤ hbmEnd) && (List.range 8).all fun d =>
    let lo := poolBase s d - 0x10000000
    !rangesMeet (a, n) (lo, dieHbmEnd s.fuses d - lo)

def regionsDisjoint : List Region → Bool
  | [] => true
  | r :: rs => (rs.all fun x => !rangesMeet (r.base, r.len) (x.base, x.len)) && regionsDisjoint rs

def loadRegions (s : State) (m : Mem) (a : Nat) (x : Sect) : Bool :=
  let rs := regionsAt m (a + x.off) x.len
  decide (x.len % 16 = 0 ∧ x.len ≤ 16384) && (rs.all fun r => r.2 && loadable s r.1.base r.1.len &&
    (r.1.kind != 0 || decide (r.1.base % granBytes = 0 ∧ r.1.len % granBytes = 0))) && regionsDisjoint (rs.map (·.1))

/-- The ticket's post ring and consumption index (R474), and the DATA sections' targets. -/
def loadRings (s : State) (t : Ticket) (rs : List Region) (ss : List Sect) : Bool :=
  (tResBytes t == 0 ||
    ((rs.any fun r => r.kind == 2 && rangeIn (tResAddr t) (128 * tResBytes t) r.base r.len) && tConsumed t % 8 == 0 &&
      rs.any fun r => r.kind == 0 && rangeIn (tConsumed t) 8 r.base r.len)) &&
  ss.all fun x => x.kind != 4 || loadable s x.load x.len

/-! ### Check 6 -/

/-- A placement entry: PREF_CORE, LOOP, length of its code and ENTRY; none where it is malformed (R81). -/
def placeAt (m : Mem) (a : Nat) (ss : List Sect) (i : Nat) : Option (Nat × Bool × Nat × Nat) :=
  let b := m.bytes (a + 8 * i) 8
  let e := bodyNat b 4 4
  match ss[bodyNat b 2 2]? with
  | some c => if c.kind = 1 ∧ bodyNat b 1 1 ≤ 1 ∧ e % 8 = 0 ∧ e < c.len then some (bodyNat b 0 1, bodyNat b 1 1 == 1, c.len, e) else none
  | none => none

/-- The DATA sections as the loader copies them (R80). -/
def loadData (m : Mem) (a : Nat) (ss : List Sect) : Mem :=
  ss.foldl (fun k x => if x.kind = 4 then k.copy (a + x.off) x.load x.len else k) m

/-- The step tree table (R613): members and fanout, where it is well formed. -/
def treeAt (s : State) (m : Mem) (a : Nat) (rs : List Region) : Option (List Member × Nat) :=
  let n := m.readN a 2
  let f := m.readN (a + 2) 1
  let es := (List.range n).map fun i => m.readN (a + 0x40 + 2 * i) 2
  let ms := es.map fun e => (BitVec.ofNat 16 e : Member)
  if a % 64 = 0 ∧ 1 ≤ n ∧ n ≤ 16384 ∧ 2 ≤ f ∧ f ≤ 16 ∧ zeroBytes (m.bytes (a + 3) 61) ∧ es.all (· < 16384) ∧
      (rs.any fun r => r.kind == 2 && rangeIn a (0x40 + 2 * n) r.base r.len) ∧ (ms.filter (· == ownId s)).length = 1
  then some (ms, f) else none

/-- What a load that passes its checks places. -/
structure Plan where
  image : Image
  cores : List LCore
  capMode : Nat
  sections : List Sect
  addr : Nat
  deriving DecidableEq, Repr

/-- Random-stream table of the KEYS section; zeros without one. -/
def keysAt (m : Mem) (a : Nat) (k : Option Sect) : List StreamKey :=
  (List.range 256).map fun n => match k with
    | some x =>
      let b := m.bytes (a + x.off + 32 * n) 32
      ⟨BitVec.ofNat 64 (bodyNat b 0 8), bodyNat b 8 4, bodyNat b 0xC 4, BitVec.ofNat 64 (bodyNat b 0x10 8)⟩
    | none => ⟨0, 0, 0, 0⟩

/-- Layer entry at an address (R333). -/
def layerAt (m : Mem) (a : Nat) : Layer :=
  let b := m.bytes a 64
  { k0 := BitVec.ofNat 64 (bodyNat b 0 8), k1 := BitVec.ofNat 64 (bodyNat b 8 8), experts := bodyNat b 0x10 2, k := bodyNat b 0x12 1,
    wardBase := bodyNat b 0x13 1, epw := bodyNat b 0x14 2, quota := bodyNat b 0x16 2, sources := bodyNat b 0x18 4,
    rowBytes := bodyNat b 0x1C 4, zeroOk := zeroBytes (slice b 0x20 32) }

/-- Layers of the routing section and its CAP_MODE (R332). -/
def routingAt (m : Mem) (a : Nat) (k : Option Sect) : List Layer × Nat := match k with
  | some x => if x.len = 8192 then ([], 0)
    else ((List.range (m.readN (a + x.off + 8192) 2)).map fun n => layerAt m (a + x.off + 8256 + 64 * n), m.readN (a + x.off + 8194) 1)
  | none => ([], 0)

/-- Every logical core on a core (R85): on its PREF_CORE, or where R86 moves it from a fenced one. -/
def placeCores (s : State) (ls : List LCore) : Option (List LCore) :=
  let (ms, ok) := movesFor { s with lcores := ls }
  if ok then some (ms.foldl (fun ls m => listMod ls m.1 fun l => { l with phys := m.2 }) ls) else none

/-- The checks of R83 in their order, and what they let through. -/
def loadPlan (s : State) (q : Nat) (seq : Word) (t : Ticket) : Except Code Plan :=
  let a := tArgAddr t
  let m := s.mem
  if !loadFormat m a (tArgBytes t) then .error cLOAD_FORMAT
  else if sha256 (m.bytes (a + 0x200) (imgBytes m a - 0x200)) ≠ m.bytes (a + 0x40) 32 then .error cLOAD_HASH
  else if fld s CAPS_A_DAMIM_LEVEL < imgLevelAt m a then .error cLOAD_LEVEL
  else if !loadCaps s m a then .error cLOAD_CAPS
  else
    let ss := sects m a
    match sectOf 3 ss, sectOf 2 ss with
    | some rx, some px =>
      let rs := (regionsAt m (a + rx.off) rx.len).map (·.1)
      if !loadRegions s m a rx || !loadRings s t rs ss then .error cLOAD_REGION
      else
        let n := imgCores m a
        let ps := (List.range n).map (placeAt m (a + px.off) ss)
        let ok := ps.filterMap id
        let prefs := ok.map (·.1)
        let tree := if imgLevelAt m a = 2 then treeAt s (loadData m a ss) (imgTree m a) rs else some ([], 2)
        if px.len ≠ 8 * n ∨ ok.length ≠ n ∨ prefs.eraseDups.length ≠ n ∨ 64 < (ok.filter fun e => e.2.1).length then .error cLOAD_PLACEMENT
        else match tree with
          | none => .error cLOAD_PLACEMENT
          | some (ms, f) =>
            let (layers, cap) := routingAt m a (sectOf 5 ss)
            let i : Image := { level := imgLevelAt m a, loopImage := m.readN (a + 9) 1 == 1, lcores := n, hash := m.bytes (a + 0x40) 32,
                               regions := rs, stepTree := ms, fanout := f, streamKeys := keysAt m a (sectOf 5 ss), layers := layers,
                               q := q, seq := seq, twin := none, postBase := tResAddr t, postN := tResBytes t,
                               consumedAddr := tConsumed t, posts := [], postCount := 0, stopReq := none, faultPend := none }
            let s' := { s with img := some i }
            let ls := (enumFrom 0 ok).map fun e =>
              coreAtEntry s' e.1 e.2.1 e.2.1 e.2.2.1 e.2.2.2.1 e.2.2.2.2 (streamOffsets i)
            match placeCores s ls with
            | some ls => .ok ⟨i, ls, cap, ss, a⟩
            | none => .error cLOAD_PLACEMENT
    | _, _ => .error cLOAD_FORMAT

/-! ### Restore (R425 to R427) -/

/-- Position of one stream after a restore, and whether it was realigned; none where it rejects the snapshot (R415, R426). -/
def restoreStream (k : StreamKey) (version : Nat) (cursor p : Word) : Option (Word × Bool) :=
  let e := cursor * BitVec.ofNat 64 k.draws + k.offset
  if version = 1 then some (if k.draws = 0 then k.offset else e, false)
  else if k.draws = 0 then some (p, false)
  else
    let d := (p - e).toInt
    if d = 0 then some (p, false) else if d.natAbs < k.draws then some (e, true) else none

/-- Every stream of every logical core: positions by logical core and the streams realigned; none where one rejects. -/
def restoreStreams (i : Image) (x : Snap) : Option (List (SMap Word) × List (Nat × Nat)) :=
  let r := (List.range i.lcores).map fun c => (enumFrom 0 i.streamKeys).map fun k =>
    (k.1, restoreStream k.2 x.version x.cursor (smGet (fun _ => 0) (x.streams.getD c []) k.1))
  if r.any fun c => c.any fun k => k.2.isNone then none
  else some (r.map fun c => c.foldl (fun m k => smSet (fun _ => 0) m k.1 ((k.2.map (·.1)).getD 0)) [],
    (enumFrom 0 r).flatMap fun c => c.2.filterMap fun k => if (k.2.map (·.2)).getD false then some (c.1, k.1) else none)

/-- A snapshot that passed its checks: itself, the stream positions, and the streams realigned. -/
abbrev Restored := Snap × List (SMap Word) × List (Nat × Nat)

/-- The checks of R425; `id` is none where any snapshot of the image will do (R481). -/
def restoreCheck (i : Image) (own : Member) (id : Option (BitVec 32)) (x : Snap) : Except Code Restored :=
  if !x.headOk then .error cSNAP_CORRUPT
  else if x.version ≠ 1 ∧ x.version ≠ 2 then .error cSNAP_FORMAT
  else if id.any (· != x.id) || x.module != own then .error cSNAP_CORRUPT
  else if x.hash ≠ i.hash then .error cSNAP_IMAGE
  else if !x.tableOk || x.extents != persistExtents i || !x.chunksOk then .error cSNAP_CORRUPT
  else match restoreStreams i x with
    | some (st, re) => .ok (x, st, re)
    | none => .error cSNAP_CORRUPT

/-- The first of some snapshots that passes; the code of the last one rejected otherwise (R425). After `SNAP_IMAGE` no other tier is tried
(R431). -/
def restorePick (i : Image) (own : Member) (id : Option (BitVec 32)) : List Snap → Except Code Restored
  | [] => .error cSNAP_CORRUPT
  | x :: xs => match restoreCheck i own id x with
    | .ok r => .ok r
    | .error c => if xs = [] ∨ c = cSNAP_IMAGE then .error c else restorePick i own id xs

/-- The tier-1 copy that the partner holds of this module, and the snapshot that the winning leaf names. -/
def tier1Snap (s : State) : List Snap := if (partner s).isSome && partner s == s.lat.t1Holder then s.lat.t1Copy.toList else []
def tier2Snap (s : State) : List Snap :=
  if fldOn s ARC_STAT_READY then match sealWinner (getNs s) with
    | some (l, _) => (smFind (getNs s).slots l.slot).toList
    | none => []
  else []

/-- A co-feed exposed pairing whose feed was lost: recovery takes tier 2 (R419, R451). -/
def skipTier1 (s : State) : Bool := fldOn s LAT_PAIR_STAT_COFEED && (fldOn s PWR_FEED_A_LOSS || fldOn s PWR_FEED_B_LOSS)

/-- The snapshots that a restore of a tier tries, in order (R425). -/
def tierSnaps (s : State) (tier : Nat) (id : Option (BitVec 32)) : List Snap :=
  if tier = 1 then tier1Snap s ++ tier2Snap s
  else if tier = 2 then tier2Snap s
  else
    let t1 := if skipTier1 s then [] else (tier1Snap s).filter fun x => id.all (· == x.id)
    t1 ++ tier2Snap s

/-- Memory with the granules of a snapshot written. -/
def memRestore (x : Snap) (m : Mem) : Mem :=
  let z := x.extents.foldl (fun m e => m.zero e.1 (e.2 * granBytes)) m
  let d := memIn x.extents x.data
  z.place d.fills d.cells

/-! ### Starting the image -/

/-- The POSTs that a restore executes again: complete, above what the snapshot records as complete (R482; DEDUCED, assumption 92). -/
def rePosts (s : State) (x : Snap) : List PostRef :=
  let es := s.jnl.own.filter fun e => tKind e.2.t == 2 && e.2.state == 2 &&
    decide (((x.journal.find? fun j => j.1 == e.1 / 2048).map (·.2.2.toNat)).getD (getReg s (rTKT_Q_COMPLETE (e.1 / 2048))).toNat
      < (tSeq e.2.t).toNat)
  (es.mergeSort fun a b => a.2.acceptTime.toNat ≤ b.2.acceptTime.toNat).map fun e => ⟨e.1 / 2048, tSeq e.2.t, none⟩

/-- Quads that hold a logical core are switched on, idle ones off (R542). -/
def quadDomains (s : State) : State :=
  (List.range 64).foldl (fun s k =>
    if s.lcores.any (fun l => l.phys / 4 == k) then (if s.pwr.fencedDoms.contains k then s else domSwitch k true s)
    else if fldOn s PWR_CTRL_IDLE_OFF then domSwitch k false s else s) s

/-- Writes the ticket into the last 4 KiB of each save area and zeroes the scratch (R242, R473). -/
def coreMemory (t : Ticket) (s : State) (l : LCore) : State :=
  hbmPut (saveArea s l.pref + 0x7FF000) (tBytes t) { s with mem := s.mem.zero (winBase l) scratchBytes }

/-- Settings that the loader makes by an internal change set (R332, R487, R507). -/
def loadRegs (p : Plan) (t : Ticket) (s : State) : State :=
  let s := if hasTumbler s.fuses then (List.range 8).foldl (fun s d => setFld (KWY_CAP_MODE d) p.capMode s) s else s
  if p.image.loopImage then setFld LAT_CURSOR_ADDR_ADDR (tConsumed t) s else s

/-- The image is placed and every logical core starts at its ENTRY, fresh or from a snapshot (R84, R427, R473). -/
def imageStart (p : Plan) (t : Ticket) (r : Option Restored) (s : State) : State :=
  let m := s.mem
  let s := match r with
    | some _ => latClear (sealAbandon (t1Abandon s))
    | none => s
  let s := p.sections.foldl (fun s x => if x.kind = 4 then hbmPut x.load (m.bytes (p.addr + x.off) x.len) s else s) s
  let next := match r with
    | some x => x.1.next
    | none => 1
  let ls := match r with
    | some x => (enumFrom 0 p.cores).map fun c => { c.2 with streams := x.2.1.getD c.1 [] }
    | none => p.cores
  let s := p.cores.foldl (coreMemory t) (assignUnits { s with img := some p.image, lcores := ls, step := { stepReset with next := next } })
  let s := match r with
    | some x => { s with mem := memRestore x.1 s.mem }
    | none => s
  let s := stepIdle (loadRegs p t s)
  let s := ((p.cores.map (·.phys)).eraseDups).foldl (fun s k => placeResident k s) s
  let s := logAppend 1 p.image.level 0 p.image.hash (quadDomains s)
  match r with
  | none => s
  | some (x, _, re) =>
    let s := re.foldl (fun s k => 
      report cSTREAM_REALIGN (srcOf 8 13 0) (BitVec.ofNat 64 (k.1 + 65536 * k.2)) (addFld LAT_SNAP_STAT_REALIGNS 1 s)) s
    let s := logAppend 3 0 (BitVec.ofNat 64 x.id.toNat) (headerHash x) s
    let i := { p.image with posts := if p.image.postN = 0 then [] else rePosts s x, postCount := if p.image.postN = 0 then 0 else s.mem.readN p.image.consumedAddr 8 }
    postWrite { s with img := some i }

/-- A load whose checks and restore pass, or the code at which it stops; `cands` are the snapshots to restore from. -/
def loadTry (q : Nat) (seq : Word) (t : Ticket) (cands : Option (List Snap)) (id : Option (BitVec 32)) (s : State) : Except Code State :=
  match loadPlan s q seq t with
  | .error c => .error c
  | .ok p => match cands with
    | none => .ok (imageStart p t none s)
    | some xs => match restorePick p.image (ownId s) id xs with
      | .error c => .error c
      | .ok r => .ok (imageStart p t (some r) s)

/-- A code of R83, which also goes to the error ring (R95). -/
def loadRecord (c : Code) (s : State) : State := if c.toNat / 256 = 3 then report c (srcOf 8 13 0) 0 s else s

/-- The LOAD ends without an image. -/
def loadFails (q : Nat) (seq : Word) (c : Code) (s : State) : State := completeTicket q seq c 0 false (loadRecord c s)

/-- Loads, or completes the ticket with the code. -/
def loadRun (q : Nat) (seq : Word) (t : Ticket) (cands : Option (List Snap)) (id : Option (BitVec 32)) (s : State) : State :=
  match loadTry q seq t cands id s with
  | .ok s => s
  | .error c => loadFails q seq c s

end Sys2Proof.Machine
end

