-- ==== Sys2Proof/Machine/TktRows.lean ====
section
/-! DEFINITION. Tickets from the submission ring to their effect (R460 to R491): reading, checking, accepting, mirroring, the ticket
kinds, and loop service. -/
namespace Sys2Proof.Machine

/-! ### Submission (R464, R465) -/

/-- The module is powered, out of reset, and its host port `n` has its link. -/
def hostOn (s : State) (n : Nat) : Bool := s.power.powered && !s.power.inReset && s.host.linkUp.getD n false

/-- The port's windows are served: in recovery only what R567 names is. -/
def hostServed (s : State) (n : Nat) : Bool := hostOn s n && !s.power.recovery

/-- SQ_TAIL: the slots written since, and the doorbell (R461). -/
def sqTail (n q : Nat) (tail : BitVec 8) (slots : List (BitVec 8 × Ticket)) (s : State) : State :=
  if !hostServed s n then s
  else if fld s (TKT_Q_STAT_OWNER q) ≠ n then report cTKT_NOT_OWNER (srcOf 8 12 q) (BitVec.ofNat 64 n) s
  else modTQ q (fun x => { x with slots := slots.foldl (fun m p => smPut m p.1.toNat p.2) x.slots, tail := tail.toNat }) s

def execSqTail (n : Fin 2) (q : Fin 32) (tail : BitVec 8) (slots : List (BitVec 8 × Ticket)) (s : State) : Out :=
  liveNext s (sqTail n q tail slots s)

/-! ### Checks (R463, R466) -/

/-- CHECK: CRC-32C with CHECK taken as zero. -/
def tktCheck (t : Ticket) : Bool :=
  let b := tBytes t
  crc32c (b.take 4 ++ leBytes 4 0 ++ b.drop 8) == tF t 4 4

/-- KIND is defined and allowed by the queue's kind (R460). -/
def tktKindOk (s : State) (q : Nat) (t : Ticket) : Bool :=
  let k := tKind t
  (fld s (TKT_Q_CFG_KIND q) == 1 && (k == 1 || k == 2 || k == 4)) || (fld s (TKT_Q_CFG_KIND q) == 2 && k == 3)

/-- QUEUE matches, reserved bytes are zero, and so are the fields that the kind does not use. -/
def tktFormatOk (q : Nat) (t : Ticket) : Bool :=
  let k := tKind t
  tQueue t == q && tF t 1 1 == 0 &&
  (k == 3 || tF t 0x10 8 == 0) &&
  (k == 1 || k == 3 || tF t 0x24 12 == 0) &&
  (if k = 1 then decide (tTier t ≤ 3 ∧ tFlags t ≤ 1) && tF t 0x36 2 == 0 else tF t 0x30 16 == 0) &&
  (k != 4 || tF t 0x18 12 == 0)

/-- A range of a ticket lies inside present HBM and outside the latch pool. -/
def tktRange (s : State) (a n : Nat) : Bool :=
  hbmRange s.fuses a n && decide (a ≤ hbmEnd) &&
  (List.range 8).all fun d => !rangesMeet (a, n) (poolBase s d, dieHbmEnd s.fuses d - poolBase s d)

def tktRangeOk (s : State) (t : Ticket) : Bool :=
  tktRange s (tArgAddr t) (tArgBytes t) && (tKind t == 1 || decide (tArgBytes t ≤ 0x400000)) &&
  tktRange s (tResAddr t) (if tKind t = 1 then 128 * tResBytes t else tResBytes t)

/-! ### Acceptance (R467, R468, R476) -/

/-- Index of the next journal entry of a queue: the first free one from `jNext` on. -/
def jSlot (s : State) (q : Nat) : Nat :=
  let used := (jEntries s q).map fun e => e.1 % 2048
  let j := (getTQ s q).jNext
  (((List.range 2048).map fun i => (j + i) % 2048).find? fun i => !used.contains i).getD j

/-- The last writes of an acceptance: the control block, the ACCEPT entry; the ticket starts. -/
def tktAccept (q : Nat) (t : Ticket) (mir : Bool) (s : State) : State :=
  match jFind s q (tSeq t) with
  | none => s
  | some (k, e) =>
    let s := { s with jnl := { s.jnl with own := smPut s.jnl.own k { e with mirrored := mir, acceptTime := sysTime s } } }
    let s := if (getTQ s q).wait.isSome then addFld JNL_COUNT_WRITES 1 s else s
    let s := ctlBlock q (setReg s (rTKT_Q_ACCEPTED q) (tSeq t))
    let s := post q (mkEnt s q (tSeq t) 1 cOK 0 0 false mir) (modTQ q (fun x => { x with wait := none }) s)
    let s := if tKind t = 3 then s else { s with host := { s.host with ready := s.host.ready ++ [(q, tSeq t)] } }
    jRetain q s

/-- The first write of an acceptance: the journal entry. A mirrored queue waits for its partner. -/
def tktJournal (q : Nat) (t : Ticket) (s : State) : State :=
  let i := jSlot s q
  let s := modTQ q (fun x => { x with jNext := (i + 1) % 2048 }) s
  let s := jWrite (2048 * q + i) ⟨t, 1, false, false, 0, sysTime s, 0, 0⟩ s
  if mirrored s q then modTQ q (fun x => { x with wait := some ⟨t, s.now⟩ }) s else tktAccept q t false s

/-- A ticket that does not rise above the last accepted (R467). -/
def tktRepeat (q : Nat) (t : Ticket) (s : State) : State :=
  match jFind s q (tSeq t) with
  | none => post q (mkEnt s q (tSeq t) 3 cOK 0 0 false false) s
  | some (_, e) =>
    if e.t = t then post q (mkEnt s q (tSeq t) 3 e.status 0 (BitVec.ofNat 64 e.state) false e.mirrored) s
    else post q (mkEnt s q (tSeq t) 4 cSEQ_CONFLICT 0 0 false false) s

def tktReject (q : Nat) (t : Ticket) (c : Code) (s : State) : State := post q (mkEnt s q (tSeq t) 4 c 0 0 false false) s

/-- The checks of R466 in their order. -/
def tktTake (q : Nat) (t : Ticket) (s : State) : State :=
  if !tktCheck t then tktReject q t cTKT_FORMAT s
  else if !tktKindOk s q t then tktReject q t cTKT_KIND s
  else if !tktFormatOk q t then tktReject q t cTKT_FORMAT s
  else if (tSeq t).toNat ≤ (getReg s (rTKT_Q_ACCEPTED q)).toNat then tktRepeat q t s
  else if !tktRangeOk s t then tktReject q t cTKT_RANGE s
  else tktJournal q t s

/-- A change set that is being applied holds a `TKT_` or `JNL_` field: ring reads stop (R511). -/
def csStopsRings (s : State) : Bool :=
  csField s fun a => decide (0x60008090000 ≤ a ∧ a < 0x600080B0000)

/-- The ticket unit reads the queue's ring now (R465, R479, R590). -/
def ringReads (s : State) (q : Nat) : Bool :=
  s.power.powered && !s.power.inReset && !s.power.recovery && fldOn s TKT_CTRL_ENABLE && fldOn s JNL_STAT_READY &&
  fld s (TKT_Q_STAT_STATE q) == 1 && (getTQ s q).wait.isNone && !csStopsRings s

/-- TICKET_READ: the ticket at the queue's head. -/
def ticketRead (q : Nat) (s : State) : State :=
  let h := fld s (TKT_Q_STAT_HEAD q)
  if !ringReads s q || h == (getTQ s q).tail then s
  else
    let t := (smFind (getTQ s q).slots h).getD 0
    let s := modTQ q (fun x => { x with slots := smErase x.slots h }) (setFld (TKT_Q_STAT_HEAD q) (h + 1) s)
    tktTake q t s

def execTicketRead (q : Fin 32) (s : State) : Out := liveNext s (ticketRead q s)

/-- MIRROR_ENTRY: the holder writes another module's entry into its mirror area and acknowledges it (R476). -/
def mirrorEntry (q : Nat) (seq : Word) (t : Ticket) (state : Nat) (status : Code) (s : State) : State :=
  match takeInbound (fun p => p.body == .control (.mirror q seq)) s with
  | (none, _) => s
  | (some p, s) =>
    if fldOn s JNL_STAT_HOLDING && fld s JNL_STAT_HELD != p.src.toNat % 16384 then s
    else
      let mine := s.jnl.mirror.filter fun e => e.1 / 2048 == q
      let key := match mine.find? fun e => tSeq e.2.t == seq with
        | some e => e.1
        | none =>
          let used := mine.map fun e => e.1 % 2048
          2048 * q + ((List.range 2048).find? fun i => !used.contains i).getD 0
      let e : JEntry := ⟨t, state, true, false, status, sysTime s, sysTime s, 0⟩
      let s := setFld JNL_STAT_HOLDING 1 (setFld JNL_STAT_HELD p.src.toNat s)
      sendCtl p.src (.mirrorAck q seq) (addFld JNL_COUNT_WRITES 1 { s with jnl := { s.jnl with mirror := smPut s.jnl.mirror key e } })

def execMirrorEntry (q : Fin 32) (seq : Word) (t : Ticket) (state : BitVec 8) (status : BitVec 16) (s : State) : Out :=
  liveNext s (ordered (ctlIs (.mirror q seq)) s (mirrorEntry q seq t state.toNat status s))

/-- An acknowledgement for an entry of queue `q`. -/
def isMirrorAck (q : Nat) (p : Packet) : Bool := match p.body with
  | .control (.mirrorAck k _) => k == q
  | _ => false

/-- MIRROR_ACK: the partner has the entry. -/
def mirrorAck (q : Nat) (s : State) : State :=
  match takeInbound (isMirrorAck q) s with
  | (some p, s) => match p.body, (getTQ s q).wait with
    | .control (.mirrorAck _ seq), some w => if tSeq w.t = seq then tktAccept q w.t true s else s
    | _, _ => s
  | (none, s) => s

def execMirrorAck (q : Fin 32) (s : State) : Out := liveNext s (ordered (isMirrorAck q) s (mirrorAck q s))

/-- MIRROR_TIMEOUT: the ticket is accepted without a mirror. -/
def mirrorTimeout (q : Nat) (s : State) : State :=
  match (getTQ s q).wait with
  | none => s
  | some w =>
    if s.now < w.sentAt + 1000 * fld s TKT_CTRL_MIRROR_WAIT_US then s
    else tktAccept q w.t false (addFld JNL_STAT_UNMIRRORED 1 (report cJNL_UNMIRRORED (srcOf 8 12 q) (tSeq w.t) s))

def execMirrorTimeout (q : Fin 32) (s : State) : Out := liveNext s (mirrorTimeout q s)

/-! ### Work tickets (R462, R473 to R475) -/

/-- The WORK ticket that takes effect next, if it is this one: its journal entry (R462). It waits while its queue is to be refilled
(R481), while an adoption runs, in recovery and on a retired module. -/
def tktNext (s : State) (q : Nat) (seq : Word) (kind : Nat) : Option Ticket :=
  if s.host.ready.head? ≠ some (q, seq) || s.host.refill.contains q || s.peer.adopting.isSome || s.power.recovery || s.peer.retired then none
  else match jFind s q seq with
    | some (_, e) => if e.state = 1 ∧ tKind e.t = kind then some e.t else none
    | none => none

/-- The ticket takes effect. -/
def tktStart (s : State) : State := { s with host := { s.host with ready := s.host.ready.drop 1 } }

/-- An adoption (R452): the checks of the image, then the pull from the partner, which ADOPTION_PULL_DONE ends. -/
def adoptStart (q : Nat) (seq : Word) (t : Ticket) (s : State) : State :=
  match loadPlan s q seq t with
  | .error c => loadFails q seq c s
  | .ok _ => listStart .adoption 0 0 none 0 0
      { s with peer := { s.peer with adopting := some (ownId s, BitVec.ofNat 32 (tSnapId t), q, seq) } }

/-- LOAD_TICKET (R473). -/
def loadTicket (q : Nat) (seq : Word) (s : State) : State :=
  match tktNext s q seq 1 with
  | none => s
  | some t =>
    if s.img.isSome then completeTicket q seq cLOAD_BUSY 0 false (tktStart s)
    else if tFlags t = 1 then (if isLocked s then adoptStart q seq t (tktStart s) else s)
    else if tTier t = 0 then loadRun q seq t none none (tktStart s)
    else
      let id : Option (BitVec 32) := some (BitVec.ofNat 32 (tSnapId t))
      loadRun q seq t (some (tierSnaps s (tTier t) id)) id (tktStart s)

def execLoadTicket (q : Fin 32) (seq : Word) (s : State) : Out := liveNext s (loadTicket q seq s)

/-- POST_TICKET (R474, R475). -/
def postTicket (q : Nat) (seq : Word) (s : State) : State :=
  match tktNext s q seq 2 with
  | none => s
  | some _ => match s.img with
    | none => completeTicket q seq cNO_IMAGE 0 false (tktStart s)
    | some i => postWrite { tktStart s with img := some { i with posts := i.posts ++ [⟨q, seq, none⟩] } }

def execPostTicket (q : Fin 32) (seq : Word) (s : State) : Out := liveNext s (postTicket q seq s)

/-- STOP_TICKET (R475): at the next step commit, or at once when no step is open (assumption 92). -/
def stopTicket (q : Nat) (seq : Word) (s : State) : State :=
  match tktNext s q seq 4 with
  | none => s
  | some _ => match s.img with
    | none => completeTicket q seq cNO_IMAGE 0 false (tktStart s)
    | some i =>
      if i.stopReq.isSome then s
      else
        let s := { tktStart s with img := some { i with stopReq := some (q, seq) } }
        if stepIsOpen s then s else imageEnd cSTOPPED 0 s

def execStopTicket (q : Fin 32) (seq : Word) (s : State) : Out := liveNext s (stopTicket q seq s)

/-! ### Loop service (R488 to R492) -/

def dispatch (s : State) : State := pumpAll (dispatchNow s)

/-- QUERY_TICKET: the accepted query waits for dispatch, or completes with `LATE` (R489, R491). -/
def queryTicket (q : Nat) (seq : Word) (s : State) : State :=
  match jFind s q seq with
  | none => s
  | some (_, e) =>
    if e.state ≠ 1 || tKind e.t ≠ 3 || e.dispatched || s.host.queries.contains (q, seq) || seq.toNat > (getReg s (rTKT_Q_ACCEPTED q)).toNat then s
    else if tktLate s e.t then completeTicket q seq cLATE 0 false s
    else dispatch { s with host := { s.host with queries := s.host.queries ++ [(q, seq)] } }

def execQueryTicket (q : Fin 32) (seq : Word) (s : State) : Out := liveNext s (queryTicket q seq s)

/-- QUERY_DEADLINE_EXPIRY (R491). -/
def queryExpiry (q : Nat) (seq : Word) (s : State) : State :=
  match jFind s q seq with
  | none => s
  | some (_, e) =>
    if e.state ≠ 1 || tKind e.t ≠ 3 || !tktLate s e.t then s
    else match s.host.slots.find? fun x => x.2.q == q && x.2.seq == seq with
      | some (k, sl) =>
        if sl.again then slotFree k (completeTicket q seq cLATE 0 false s)
        else completeTicket q seq cLATE 0 true { s with host := { s.host with slots := smPut s.host.slots k { sl with running := true } } }
      | none => completeTicket q seq cLATE 0 false { s with host := { s.host with queries := s.host.queries.filter (· != (q, seq)) } }

/-- SLOT_DONE: STATE of the slot reads DONE (R490). -/
def slotDone (k : Nat) (s : State) : State :=
  if (smFind s.host.slots k).all (·.again) || s.mem.read (slotAddr s k + 0x0A) != 2 then s
  else dispatch (slotEnd k (BitVec.ofNat 16 (s.mem.readN (slotAddr s k + 0x0C) 2)) (BitVec.ofNat 64 (s.mem.readN (slotAddr s k + 0x10) 4)) s)

def execSlotDone (slot : Nat) (s : State) : Out := liveNext s (slotDone slot s)

/-- The phase lies inside window `w`, which is enabled (R489). -/
def inWindow (s : State) (w : Nat) : Bool :=
  fldOn s (TKT_LOOP_WIN_ENABLE w) && decide (fld s (TKT_LOOP_WIN_OPEN w) ≤ phaseNow s ∧ phaseNow s < fld s (TKT_LOOP_WIN_CLOSE w))

/-- LOOP_WINDOW_OPEN (R47, R489). -/
def windowOpen (w : Nat) (s : State) : State :=
  if !isLocked s || !inWindow s w || s.host.winOpen.contains w then s
  else dispatch { s with host := { s.host with winOpen := s.host.winOpen ++ [w] } }

end Sys2Proof.Machine
end

