-- ==== Sys2Proof/Machine/HostRows.lean ====
section
/-! DEFINITION. The hosts (R459, R461, R464, R470 to R472, R481, R483 to R485, R589): completion ring heads, interrupts, heartbeats, loss
and return of a port, and the ownership of queues. -/
namespace Sys2Proof.Machine

/-! ### Completion rings (R464, R471, R472) -/

/-- CQ_HEAD: the entries below the value are read; the value is taken modulo the ring size. -/
def cqHead (n q : Nat) (head : Nat) (s : State) : State :=
  if !hostServed s n then s
  else
    let r := getRing s n q
    let size := ringSize s n q
    let back := (r.count % size + size - head % size) % size
    let h := max r.head (r.count - back)
    ringOverflow n q (setRing n q { r with head := h } s)

def execCqHead (n : Fin 2) (q : Fin 32) (head : BitVec 16) (s : State) : Out := liveNext s (cqHead n q head.toNat s)

/-- MSI_GAP_EXPIRY: a vector that entries owe fires once (R472). -/
def msiGap (n v : Nat) (s : State) : State :=
  let due := match smFind s.host.vecLast (64 * n + v) with
    | some t => decide (t + fld s TKT_CTRL_MSI_GAP_NS ≤ s.now)
    | none => true
  if s.host.vecOwed.contains (n, v) && due then
    sendMsi n v { s with host := { s.host with vecOwed := s.host.vecOwed.filter (· != (n, v)),
                                               vecLast := smPut s.host.vecLast (64 * n + v) s.now } }
  else s

def execMsiGapExpiry (n : Fin 2) (vec : Fin 64) (s : State) : Out := liveNext s (msiGap n vec s)

/-! ### Heartbeats and loss (R459, R483) -/

def hbSet (n : Nat) (s : State) : State := { s with host := { s.host with hbTick := s.host.hbTick.set n (tickNow s) } }

/-- HOST_HEARTBEAT: the write restarts the silence count. -/
def hostHeartbeat (n : Nat) (v : BitVec 32) (s : State) : State :=
  if !hostServed s n then s else hbSet n (setFld (TKT_HOST_STATE n) 1 (setFld (TKT_HOST_HEARTBEAT n) v.toNat s))

def execHostHeartbeat (n : Fin 2) (value : BitVec 32) (s : State) : Out := liveNext s (hostHeartbeat n value s)

/-- A queue of the lost host: its unread slots are discarded and it is orphaned. -/
def orphan (n : Nat) (s : State) (q : Nat) : State :=
  if fld s (TKT_Q_STAT_OWNER q) ≠ n ∨ fld s (TKT_Q_STAT_STATE q) = 0 ∨ fld s (TKT_Q_STAT_STATE q) = 2 then s
  else
    let s := modTQ q (fun x => { x with slots := [], tail := fld s (TKT_Q_STAT_HEAD q) }) s
    let s := ctlBlock q (setFld (TKT_Q_STAT_STATE q) 2 s)
    postOn (1 - n) q (mkEnt s q 0 6 cOK 3 (BitVec.ofNat 64 (openTickets s q).length) false false) s

/-- Host `n` is lost. -/
def hostLost (n : Nat) (s : State) : State :=
  if fld s (TKT_HOST_STATE n) = 2 then s
  else
    let s := report cHOST_LOST (srcOf 8 12 (32 + n)) 0 (addFld (TKT_HOST_LOSSES n) 1 (setFld (TKT_HOST_STATE n) 2 s))
    (List.range 32).foldl (orphan n) s

/-- HOST_HB_SILENCE: no heartbeat for HB_TICKS ticks. -/
def execHostHbSilence (n : Fin 2) (s : State) : Out :=
  liveNext s (if fld s (TKT_HOST_STATE n) = 1 ∧ s.host.hbTick.getD n 0 + fld s TKT_CTRL_HB_TICKS ≤ tickNow s then hostLost n s else s)

/-- The port's link goes down, or its host interface is reset. -/
def hostDown (n : Nat) (s : State) : State :=
  if s.host.linkUp.getD n false then hostLost n { s with host := { s.host with linkUp := s.host.linkUp.set n false } } else s

/-- HOST_LINK_LOSS: link loss, hot reset, function-level reset and D3hot act alike (R459). -/
def execHostLinkLoss (n : Fin 2) (_cause : LossCause) (s : State) : Out := liveNext s (hostDown n s)

/-- HOST_LINK_UP: the port is up again, and owed RING_OVERFLOW notices go out where rings have room (R471, R589). -/
def hostLinkUp (n : Nat) (s : State) : State :=
  if !s.power.powered || s.power.inReset || s.host.perst.getD n true || !domOn s (73 + n) || s.host.linkUp.getD n false then s
  else
    let s := { s with host := { s.host with linkUp := s.host.linkUp.set n true } }
    let s := hbSet n (setFld (TKT_HOST_STATE n) 1 s)
    (List.range 32).foldl (fun s q => if ringOn s n q then ringOverflow n q s else s) s

def execHostLinkUp (n : Fin 2) (s : State) : Out := liveNext s (hostLinkUp n s)

/-! ### Ownership (R484) and refill (R481) -/

/-- TAKE by port `n`. -/
def take (n q : Nat) (s : State) : State :=
  if !hostServed s n || fld s (TKT_Q_STAT_OWNER q) == n then s
  else if fld s (TKT_Q_STAT_STATE q) ≠ 2 ∧ !fldOn s (TKT_Q_CTRL_YIELD q) then s
  else
    let st := if s.host.refill.contains q then 3 else if fld s (TKT_Q_CFG_KIND q) = 0 then 0
      else if 2048 ≤ (jEntries s q).length then 4 else 1
    let s := modTQ q (fun x => { x with slots := [], tail := 0 }) s
    let s := setFld (TKT_Q_STAT_OWNER q) n (setFld (TKT_Q_STAT_HEAD q) 0 (setFld (TKT_Q_CTRL_YIELD q) 0 s))
    let s := ctlBlock q (setFld (TKT_Q_STAT_STATE q) st s)
    postNotice q 4 (openTickets s q).length s

def execTake (n : Fin 2) (q : Fin 32) (s : State) : Out := liveNext s (take n q s)

/-- The open LOAD of a queue, the first by SEQ. -/
def openLoad (s : State) (q : Nat) : Option (Word × Ticket) :=
  ((openTickets s q).find? fun e => tKind e.t == 1 && s.host.ready.contains (q, tSeq e.t)).map fun e => (tSeq e.t, e.t)

/-- RESUME by the owner: REFILL ends, and the open LOAD resumes from the lowest tier that holds a snapshot of its image. -/
def resumeQueue (n q : Nat) (s : State) : State :=
  if !hostServed s n || fld s (TKT_Q_STAT_OWNER q) != n || fld s (TKT_Q_STAT_STATE q) != 3 then s
  else
    let s := { s with host := { s.host with refill := s.host.refill.filter (· != q) } }
    let s := ctlBlock q (setFld (TKT_Q_STAT_STATE q) (if 2048 ≤ (jEntries s q).length then 4 else 1) s)
    match openLoad s q with
    | none => s
    | some (seq, t) =>
      let s := { s with host := { s.host with ready := s.host.ready.filter (· != (q, seq)) } }
      if s.img.isSome then completeTicket q seq cLOAD_BUSY 0 false s else loadRun q seq t (some (tierSnaps s 3 none)) none s

def execResume (n : Fin 2) (q : Fin 32) (s : State) : Out := liveNext s (resumeQueue n q s)

end Sys2Proof.Machine
end

