-- ==== Sys2Proof/Machine/PeerRows.lean ====
section
/-! DEFINITION. Heartbeats, loss, retirement and adoption of modules (R447 to R454). -/
namespace Sys2Proof.Machine

/-- The modules to which this one sends heartbeats: its root, its deputy and its tier-1 partner. -/
def beatTargets (s : State) : List Member :=
  ((rootOf s).toList ++ (deputyOf s).toList ++ (partner s).toList).eraseDups.filter (· != ownId s)

/-- HEARTBEAT: a heartbeat is noted and acknowledged; an acknowledgement of the root or the partner restarts the count of R448. -/
def heartbeat (m : Member) (s : State) : State :=
  if s.peer.retired then s
  else match takeInbound (ctlIs (.heartbeat m)) s with
    | (some _, s) =>
      sendCtl m (.heartbeatAck (ownId s)) { s with peer := { s.peer with beats := smPut s.peer.beats m.toNat (tickNow s) } }
    | (none, s) => match takeInbound (ctlIs (.heartbeatAck m)) s with
      | (some _, s) => if rootOf s == some m || partner s == some m then { s with peer := { s.peer with ackTick := tickNow s } } else s
      | (none, s) => s

def execHeartbeat (m : Member) (s : State) : Out :=
  liveNext s (ordered (ctlIs (if s.fab.inbound.any (ctlIs (.heartbeat m)) then .heartbeat m else .heartbeatAck m)) s (heartbeat m s))

/-- This module declares the loss of `m` for which it holds a copy, being its tier-1 partner (R447). -/
def mayDeclare (s : State) (m : Member) : Bool := m != ownId s && s.lat.hold.held == some m

/-- The silence of `m` is its loss: to its partner when the root has not heard it either, and to the acting root when it has no
partner (R447; assumption 83). -/
def silenceCounts (s : State) (m : Member) (rootSilent paired : Bool) : Bool :=
  if mayDeclare s m then actsRoot s || rootSilent else m != ownId s && actsRoot s && (treeOf s).contains m && !paired

/-- The partner that held this module's copy is gone: the next tier-1 transfer sends every granule (R454). -/
def partnerGone (m : Member) (s : State) : State :=
  if partner s = some m then
    let s := t1Abandon s
    s.lat.map.foldl (fun s e => setGran e.1 { getGran s e.1 with dirty := true } s) { s with lat := { s.lat with t1Copy := none } }
  else s

/-- An adoption fails (R453). -/
def adoptFail (s : State) : State :=
  match s.peer.adopting with
  | none => s
  | some (m, id, q, seq) =>
    let s := listEnd .adoption { s with peer := { s.peer with adopting := none } }
    completeTicket q seq cADOPT_FAIL 0 false (report cADOPT_FAIL (srcNamed 8 13 0 m) (BitVec.ofNat 64 id.toNat) s)

/-- The partner from which a replacement pulls, as `LAT_PAIR` names it. -/
def pairPartner (s : State) : Member := BitVec.ofNat 16 (fld s LAT_PAIR_PARTNER_WARD * 256 + fld s LAT_PAIR_PARTNER_MODULE)

/-- A module is known to be gone. What follows where this one declares its loss: a deputy that holds the complete tally designates the
commit (R441). -/
def moduleGone (declares : Bool) (m : Member) (s : State) : State :=
  let s := partnerGone m s
  let s := if s.peer.adopting.isSome && pairPartner s == m then adoptFail s else s
  if declares then tally (declareLost m s) else s

/-- HEARTBEAT_SILENCE: no heartbeat from the module for 8 ticks. -/
def execHeartbeatSilence (m : Silence) (s : State) : Out :=
  liveNext s (if !s.peer.retired && silenceCounts s m.member m.rootSilent m.paired &&
      ((smFind s.peer.beats m.member.toNat).any fun t => decide (t + 8 ≤ tickNow s)) then
    moduleGone true m.member s else s)

/-- ACK_SILENCE: no acknowledgement for 4 ticks (R448). -/
def execAckSilence (s : State) : Out :=
  liveNext s (if beatTargets s != [] && decide (s.peer.ackTick + 4 ≤ tickNow s) then retire s else s)

/-- NO_PORT_UP_TIMEOUT: no port has been UP for 4 ticks (R448). -/
def execNoPortUpTimeout (s : State) : Out :=
  liveNext s (match s.peer.downSince with
    | some t => if (List.range 16).all (fun n => !portUp s n) ∧ t + 4 ≤ tickNow s then retire s else s
    | none => s)

/-- A notice that another module sends of itself: power notice or retirement notice. -/
def execPowerNotice (m : Member) (s : State) : Out :=
  liveNext s (if s.peer.retired then s else ordered (ctlIs (.powerNotice m)) s (moduleGone (mayDeclare s m) m (takeCtl (.powerNotice m) s)))

def execRetirementNotice (m : Member) (s : State) : Out :=
  liveNext s (if s.peer.retired then s else ordered (ctlIs (.retireNotice m)) s (moduleGone (mayDeclare s m) m (takeCtl (.retireNotice m) s)))

/-! ### Adoption (R452, R473) -/

/-- One entry of the partner's mirror becomes an entry of the own journal. -/
def mirrorInstall (s : State) (e : Nat × Nat × Ticket × Code) : State :=
  let (q, st, t, code) := e
  let i := jSlot s q
  let s := modTQ q (fun x => { x with jNext := (i + 1) % 2048 }) s
  let s := addFld JNL_COUNT_WRITES 1
    { s with jnl := { s.jnl with own := smPut s.jnl.own (2048 * q + i) ⟨t, st, true, false, code, sysTime s, sysTime s, 0⟩ } }
  let s := if (getReg s (rTKT_Q_ACCEPTED q)).toNat < (tSeq t).toNat then setReg s (rTKT_Q_ACCEPTED q) (tSeq t) else s
  if st = 1 ∧ (tKind t = 2 ∨ tKind t = 4) then { s with host := { s.host with ready := s.host.ready ++ [(q, tSeq t)] } } else s

/-- The lost module's open LOAD. -/
def mirrorLoad (es : List (Nat × Nat × Ticket × Code)) : Option (Nat × Word) :=
  (es.find? fun e => e.2.1 == 1 && tKind e.2.2.1 == 1).map fun e => (e.1, tSeq e.2.2.1)

def mirrorInstallAll (es : List (Nat × Nat × Ticket × Code)) (s : State) : State :=
  let s := es.foldl mirrorInstall s
  (es.map (·.1)).eraseDups.foldl (fun s q => jRetain q (ctlBlock q (setReg s (rTKT_Q_COMPLETE q) (completeSeq s q)))) s

/-- The pairing that the lost module had (R452 step 4). -/
def pairWith (m : Member) (s : State) : State :=
  let s := setFld LAT_PAIR_PARTNER_WARD (memberWard m) (setFld LAT_PAIR_PARTNER_MODULE (memberModule m) s)
  setFld LAT_PAIR_STAT_STATE 1 (setFld LAT_PAIR_ENABLE 1 s)

/-- The adopted image runs: the pull is over, and the partner is the pairing's, with the copy it sent (R452). -/
def pullLanded (from_ : Member) (x : Snap) (twin : Option (Nat × Word)) (s : State) : State :=
  let s := listEnd .adoption { s with peer := { s.peer with adopting := none, heir := true } }
  pairWith from_ { s with img := s.img.map fun i => { i with twin := twin },
                          lat := { s.lat with t1Copy := some x, t1Holder := some from_ } }

/-- The replacement has the snapshot, or the pull failed. -/
def pullDone (from_ : Member) (x : Option SnapIn) (es : List (Nat × Nat × Ticket × Code)) (s : State) : State :=
  match s.peer.adopting with
  | none => s
  | some (_, id, q, seq) =>
    match x, jFind s q seq with
    | some x, some (_, e) =>
      let s := mirrorInstallAll es s
      match loadTry q seq e.t (some [snapOf true x]) (some id) s with
      | .error _ =>
        let s := adoptFail s
        match mirrorLoad es with
        | some (q, seq) => completeTicket q seq cADOPT_FAIL 0 false s
        | none => s
      | .ok s =>
        pullLanded from_ (snapOf true x) (mirrorLoad es) s
    | _, _ => adoptFail s

/-- The partner from which a replacement pulled learns that the pull failed (R453). -/
def pullFailed (s : State) : State := match s.lat.hold.held with
  | some m => report cADOPT_FAIL (srcNamed 8 13 0 m) 0 s
  | none => s

/-- ADOPTION_PULL_DONE: at the partner, which then releases its hold, and at the replacement. -/
def adoptionPullDone (from_ : Member) (x : Option SnapIn) (es : List (Nat × Nat × Ticket × Code)) (s : State) : State :=
  if s.peer.adopting.isSome then pullDone from_ x es s
  else if from_ = ownId s then
    if x.isNone then pullFailed s
    else match s.lat.hold.held with
      | some m => lostDone m s
      | none => s
  else s

def execAdoptionPullDone (partner : Member) (snap : Option SnapIn) (mirror : List (Fin 32 × BitVec 8 × Ticket × BitVec 16)) (s : State) : Out :=
  liveNext s (adoptionPullDone partner snap (mirror.map fun e => (e.1.val, e.2.1.toNat, e.2.2.1, e.2.2.2)) s)

end Sys2Proof.Machine
end

