-- ==== Sys2Proof/Machine/PwrOps.lean ====
section
/-! DEFINITION. Clocks, power and thermal control (R534 to R558): the step in force, the policy, the cap, the sensors, and the records
kept in journal-store slots 36 and 37. -/
namespace Sys2Proof.Machine

/-! ### Histories (R558) -/

def putSlice (b : List Byte) (o n v : Nat) : List Byte := b.take o ++ leBytes n v ++ b.drop (o + n)

/-- Contents of slot 36, power history, and of slot 37, clock history; zeros before the first write. -/
def pwrHist (s : State) : List Byte := (jnlRec s 36).getD (List.replicate 0x24 0)
def clkHist (s : State) : List Byte := (jnlRec s 37).getD (List.replicate 0x10 0)

/-- Adds one to a counter of a history. -/
def histAdd (b : List Byte) (o n : Nat) : List Byte := putSlice b o n (satAdd (8 * n) (bodyNat b o n) 1)

/-- A feed loss and a trip, with their times; a shutdown; a coast with its time; a meter hold. -/
def noteFeedLoss (s : State) : State := jnlPut 36 (putSlice (histAdd (pwrHist s) 0 4) 0x10 8 (sysTime s).toNat) s
def noteTrip (s : State) : State := jnlPut 36 (putSlice (histAdd (pwrHist s) 4 4) 0x18 8 (sysTime s).toNat) s
def noteShutdown (s : State) : State := jnlPut 36 (histAdd (pwrHist s) 8 4) s
def noteCoast (s : State) : State := jnlPut 37 (putSlice (histAdd (clkHist s) 0 4) 8 8 (sysTime s).toNat) s
def noteMeterHold (s : State) : State := jnlPut 37 (histAdd (clkHist s) 4 4) s

/-- The peak temperatures, when one rises. -/
def notePeaks (die stack : Nat) (s : State) : State :=
  let b := pwrHist s
  let d := max die (bodyNat b 0x20 1)
  let t := max stack (bodyNat b 0x21 1)
  if d = bodyNat b 0x20 1 ∧ t = bodyNat b 0x21 1 then s else jnlPut 36 (putSlice (putSlice b 0x20 1 d) 0x21 1 t) s

/-! ### The step in force (R535) -/

def ceilStep (s : State) (d : Nat) : Nat := fld s (CLK_DIE_CTRL_CEIL_STEP d)
def coasting (s : State) : Bool := fldOn s CLK_STAT_COAST

/-- A die is held at step 4 by a trip of its own or of the hub (R555). -/
def dieTripped (s : State) (d : Nat) : Bool := s.pwr.trips.getD d false || s.pwr.trips.getD 8 false

/-- The lowest of some limits, the first on a tie: its code and value. -/
def lowest : List (Nat × Nat) → Nat × Nat
  | [] => (0, 32)
  | [x] => x
  | x :: xs => let y := lowest xs; if y.2 < x.2 then y else x

/-- The limits on a die but the power limiter's, by their codes of `LIMIT_BY`. -/
def otherLimits (s : State) (d : Nat) : List (Nat × Nat) :=
  [(0, ceilStep s d), (1, s.pwr.policy.getD d 4)] ++
  (if s.pwr.feedHold then [(3, fld s PWR_CTRL_FEED_STEP)] else []) ++ [(4, s.pwr.thermal.getD d 32)] ++
  (if dieTripped s d then [(5, 4)] else []) ++ (if coasting s then [(6, 4)] else []) ++
  (if s.pwr.meterHold.getD d false then [(7, 4)] else [])

/-- The limit in force: the power limiter lowers what the others give, down to step 4 (R548). -/
def limitOf (s : State) (d : Nat) : Nat × Nat :=
  let o := lowest (otherLimits s d)
  if s.pwr.limiter = 0 ∨ o.2 ≤ 4 then o else (2, max 4 (o.2 - s.pwr.limiter))

/-- `CLK_DIE_STAT` and `PWR_DIE_STAT` of a die as its limits give them. -/
def stepDie (s : State) (d : Nat) : State :=
  let (c, n) := limitOf s d
  let s := if n = fld s (CLK_DIE_STAT_STEP d) then s else addFld (CLK_DIE_COUNT_STEP_CHANGES d) 1 s
  let s := setFld (CLK_DIE_STAT_POLICY_STEP d) (s.pwr.policy.getD d 4) (setFld (CLK_DIE_STAT_LIMIT_BY d) c (setFld (CLK_DIE_STAT_STEP d) n s))
  setFld (PWR_DIE_STAT_TRIPPED d) (if dieTripped s d then 1 else 0)
    (setFld (PWR_DIE_STAT_THROTTLING d) (if s.pwr.thermal.getD d 32 < ceilStep s d then 1 else 0) s)

def stepsUpdate (s : State) : State := (List.range 8).foldl stepDie s
def stepsNow (s : State) : List Nat := (List.range 8).map fun d => fld s (CLK_DIE_STAT_STEP d)

/-- The cap in force (R547, R550). -/
def capUpdate (s : State) : State :=
  let w := fld s PWR_CTRL_WATTS
  setFld PWR_STAT_CAP_W (if fldOn s PWR_STAT_FEED_CAP then w * 55 / 100 else w) s

/-- The policy's target for a die: the highest step up to the ceiling whose projected draw is at most 97 % of the cap (R536). -/
def policyTarget (s : State) (draw d : Nat) : Nat :=
  let ok := fun n => decide (100 * Config.projectDraw draw (stepsNow s) n ≤ 97 * fld s PWR_STAT_CAP_W)
  (((List.range 33).filter fun n => decide (4 ≤ n ∧ n ≤ ceilStep s d)).reverse.find? ok).getD 4

/-- The policy pass: falls by any amount, rises by at most 4; nothing above 4 in a coast (R538); the ceiling without CLK_AUTO. -/
def policyPass (draw : Nat) (s : State) : State :=
  let p := (List.range 8).map fun d =>
    if !fldOn s KPR_POLICY_CLK_AUTO then ceilStep s d
    else if coasting s then 4
    else min (policyTarget s draw d) (s.pwr.policy.getD d 4 + 4)
  let w := { s.pwr with policy := p, limiter := if s.pwr.capEpisode then s.pwr.limiter else 0 }
  let hold := if fldOn s KPR_POLICY_CLK_AUTO then false else w.feedHold
  stepsUpdate { s with pwr := { w with feedHold := hold } }

/-! ### Clock meters and the reference (R537 to R540) -/

/-- Two readings in a row more than 2 % off: the fault is recorded, and the die is held (R535). -/
def meterFault (m d : Nat) (s : State) : State :=
  let s := { s with pwr := { s.pwr with meterOff := s.pwr.meterOff.set d 0 } }
  let s := report cCLK_METER (srcOf d 14 0x54) (BitVec.ofNat 64 m) (addFld (CLK_DIE_COUNT_METER_FAULTS d) 1 s)
  if s.pwr.meterHold.getD d false then s else noteMeterHold { s with pwr := { s.pwr with meterHold := s.pwr.meterHold.set d true } }

/-- The meter of a die: `CLK_METER` after two ticks more than 2 % off. -/
def meterDie (mhz : List Nat) (s : State) (d : Nat) : State :=
  let m := mhz.getD d 0
  let want := 125 * fld s (CLK_DIE_STAT_STEP d)
  let n := if 2 * want < 100 * absDiff m want then s.pwr.meterOff.getD d 0 + 1 else 0
  let s := setFld (CLK_DIE_STAT_MEASURED_MHZ d) (min m 65535) s
  if n < 2 then { s with pwr := { s.pwr with meterOff := s.pwr.meterOff.set d n } } else meterFault m d s

/-- The backup is found more than 200 ppm off (R539). -/
def backupBad (s : State) : State := report cCLK_BACKUP_BAD (srcOf 8 14 0x53) 0 (setFld CLK_STAT_BACKUP_OK 0 s)

/-- `REF_PPM` and what follows from it; ticks of a coast, and good ticks in it. -/
def refTick (ppm : Int) (s : State) : State :=
  let good := decide (ppm.natAbs ≤ 500)
  let s := setFld CLK_STAT_REF_PPM (ppm % 65536).toNat s
  let s := setFld CLK_STAT_REF_OK (if good then 1 else 0) s
  let s := if ppm.natAbs ≤ 200 then setFld CLK_STAT_BACKUP_OK 1 s else if fldOn s CLK_STAT_BACKUP_OK then backupBad s else s
  if coasting s then
    { s with pwr := { s.pwr with coastTicks := s.pwr.coastTicks + 1, goodTicks := if good then s.pwr.goodTicks + 1 else 0 } }
  else s

/-- The abort and the hold of a coast (R538), once for an attempt; an attempt that is aborted already is held. -/
def coastHold (s : State) : State :=
  if 3 ≤ stepState s then holdSend .coast s
  else if stepState s = 2 ∧ s.step.deferred.any (fun d => d.1 == some .coast) then s
  else if stepState s = 1 ∨ stepState s = 2 then lossAbort (some .coast) noMember s else s

/-! ### Sensors (R552 to R557) -/

/-- A sensor: its key, its die (8 the hub), its instance of R560, its reading, and its throttle and trip temperatures. -/
structure Sensor where
  key : Nat
  die : Nat
  inst : Nat
  raw : Nat
  limit : Nat
  trip : Nat
  stack : Bool
  deriving DecidableEq, Repr

def dieSensors (s : State) (i : TickIn) (d : Nat) : List Sensor :=
  let t := fld s PWR_THERM_CTRL_DIE_THROTTLE_C
  ((List.range 8).map fun q => ⟨16 * d + q, d, 0x60 + q, (i.quadC.getD (8 * d + q) 0).toNat, t, 110, false⟩) ++
  [⟨16 * d + 8, d, 0x68, (i.uncoreC.getD d 0).toNat, t, 110, false⟩] ++
  ((List.range 4).filter fun k => hasStack s.fuses (4 * d + k)).map fun k =>
    ⟨16 * d + 9 + k, d, 0x70 + k, (i.stackC.getD (4 * d + k) 0).toNat, fld s PWR_THERM_CTRL_HBM_THROTTLE_C, 105, true⟩

def hubSensors (s : State) (i : TickIn) : List Sensor :=
  (List.range 4).map fun k => ⟨128 + k, 8, 0x80 + k, (i.hubC.getD k 0).toNat, fld s PWR_THERM_CTRL_DIE_THROTTLE_C, 110, false⟩

/-- Inlet and outlet; they have no limits, and a failed one counts as 0. -/
def coolSensors (i : TickIn) : List Sensor := [⟨132, 8, 0x84, i.inletC.toNat, 0, 256, false⟩, ⟨133, 8, 0x85, i.outletC.toNat, 0, 256, false⟩]

/-- A reading that fails by R553, or the count of 16 normal readings after one. -/
def sensorCheck (s : State) (x : Sensor) : State :=
  let jump := match smFind s.pwr.prevC x.key with
    | some p => p != 0xFF && decide (20 < absDiff p x.raw)
    | none => false
  let bad := (smFind s.pwr.sensorBad x.key).getD 0
  let w := { s.pwr with prevC := smPut s.pwr.prevC x.key x.raw }
  if x.raw == 0xFF || jump then
    report cTHERM_SENSOR (srcOf x.die 14 x.inst) (BitVec.ofNat 64 x.raw) { s with pwr := { w with sensorBad := smPut w.sensorBad x.key 16 } }
  else { s with pwr := { w with sensorBad := if bad ≤ 1 then smErase w.sensorBad x.key else smPut w.sensorBad x.key (bad - 1) } }

/-- The temperature that the controls use. -/
def sensorC (s : State) (x : Sensor) : Nat := if (smFind s.pwr.sensorBad x.key).isSome then x.limit else x.raw

def highest (s : State) (xs : List Sensor) : Nat := xs.foldl (fun n x => max n (sensorC s x)) 0

/-- The temperature registers. -/
def tempRegs (i : TickIn) (s : State) : State :=
  let s := (List.range 8).foldl (fun s d =>
    let q := (List.range 8).foldl (fun v k => v + (i.quadC.getD (8 * d + k) 0).toNat * 256 ^ k) 0
    let st := (List.range 4).foldl (fun v k => if hasStack s.fuses (4 * d + k) then v + (i.stackC.getD (4 * d + k) 0).toNat * 256 ^ k else v) 0
    setFld (PWR_DIE_TEMP2_MAX_C d) (highest s (dieSensors s i d)) (setReg (setReg s (rPWR_DIE_TEMP d) (BitVec.ofNat 64 q))
      (rPWR_DIE_TEMP2 d) (BitVec.ofNat 64 ((i.uncoreC.getD d 0).toNat + st * 256)))) s
  let h := (List.range 4).foldl (fun v k => v + (i.hubC.getD k 0).toNat * 256 ^ k) 0
  setFld PWR_THERM_HUB_HUB_C h (setFld PWR_THERM_HUB_INLET_C i.inletC.toNat (setFld PWR_THERM_HUB_OUTLET_C i.outletC.toNat s))

/-- The thermal limit of a die (R554). -/
def thermalDie (i : TickIn) (s : State) (d : Nat) : State :=
  let xs := dieSensors s i d ++ hubSensors s i
  let old := s.pwr.thermal.getD d 32
  match xs.find? (fun x => decide (x.limit ≤ sensorC s x)) with
  | some x =>
    let w := { s.pwr with thermal := s.pwr.thermal.set d (max 4 (old - 1)), coolTicks := s.pwr.coolTicks.set d 0 }
    let s' := { s with pwr := { w with throttling := w.throttling.set d true } }
    if s.pwr.throttling.getD d false then s' else report cTHERM_THROTTLE (srcOf d 14 x.inst) (BitVec.ofNat 64 (sensorC s x)) s'
  | none =>
    let cool := if xs.all (fun x => decide (sensorC s x + 3 ≤ x.limit)) then s.pwr.coolTicks.getD d 0 + 1 else 0
    let new := if 4 ≤ cool then min 32 (old + 1) else old
    let w := { s.pwr with thermal := s.pwr.thermal.set d new, coolTicks := s.pwr.coolTicks.set d cool }
    { s with pwr := { w with throttling := w.throttling.set d (s.pwr.throttling.getD d false && decide (new < ceilStep s d)) } }

/-- Ticks at or above the trip temperature with the die at step 4 (R556). -/
def tripCount (s : State) (x : Sensor) : State :=
  let held := if x.die < 8 then fld s (CLK_DIE_STAT_STEP x.die) == 4 else (stepsNow s).all (· == 4)
  let n := (smFind s.pwr.tripTicks x.key).getD 0
  let m := if held && decide (x.trip ≤ sensorC s x) then smPut s.pwr.tripTicks x.key (n + 1) else smErase s.pwr.tripTicks x.key
  { s with pwr := { s.pwr with tripTicks := m } }

/-- What the Keeper does with the readings of a tick. -/
def thermalTick (i : TickIn) (s : State) : State :=
  let die := (List.range 8).flatMap (dieSensors s i)
  let all := die ++ hubSensors s i ++ coolSensors i
  let s := tempRegs i (all.foldl sensorCheck s)
  let s := (die ++ hubSensors s i).foldl tripCount ((List.range 8).foldl (thermalDie i) s)
  let inlet := (coolSensors i).headD ⟨132, 8, 0x84, 0, 0, 256, false⟩
  let s := if fld s PWR_THERM_CTRL_COOLANT_MAX_C < sensorC s inlet then
      report cTHERM_COOLANT (srcOf 8 14 0x84) (BitVec.ofNat 64 inlet.raw) s else s
  notePeaks (highest s (die.filter fun x => !x.stack)) (highest s (die.filter (·.stack))) s

/-! ### Feeds (R546 to R551, R584) -/

def feedFld (feedB : Bool) (a b : Fld) : Fld := if feedB then b else a
def fPresent (b : Bool) : Fld := feedFld b PWR_FEED_A_PRESENT PWR_FEED_B_PRESENT
def fLoss (b : Bool) : Fld := feedFld b PWR_FEED_A_LOSS PWR_FEED_B_LOSS
def fOv (b : Bool) : Fld := feedFld b PWR_FEED_A_OV PWR_FEED_B_OV
def fMv (b : Bool) : Fld := feedFld b PWR_FEED_A_MILLIVOLTS PWR_FEED_B_MILLIVOLTS
def fDa (b : Bool) : Fld := feedFld b PWR_FEED_A_DECIAMPS PWR_FEED_B_DECIAMPS
def fId (b : Bool) : Fld := feedFld b PWR_FEED_A_FEED_ID PWR_FEED_B_FEED_ID
def fValid (b : Bool) : Fld := feedFld b PWR_FEED_A_ID_VALID PWR_FEED_B_ID_VALID

def feedIn (s : State) (b : Bool) : Bool := if b then s.pwr.feedB else s.pwr.feedA
def setFeed (b v : Bool) (s : State) : State :=
  setFld (fPresent b) (if v then 1 else 0) { s with pwr := if b then { s.pwr with feedB := v } else { s.pwr with feedA := v } }

/-- A read of a feed's `FEED_ID` (R584). -/
def feedRead (b : Bool) (w : Option (BitVec 16)) (s : State) : State := match w with
  | some v => if v = 0 ∨ v = 0xFFFF then setFld (fValid b) 0 s else setFld (fValid b) 1 (setFld (fId b) v.toNat s)
  | none => setFld (fValid b) 0 s

/-- Ticks that a lost feed has lain within 40 to 60 V. -/
def feedTick (s : State) (b : Bool) : State :=
  let i := if b then 1 else 0
  let v := fld s (fMv b)
  let n := if !feedIn s b && decide (40000 ≤ v ∧ v ≤ 60000) then s.pwr.backTicks.getD i 0 + 1 else 0
  { s with pwr := { s.pwr with backTicks := s.pwr.backTicks.set i n } }

end Sys2Proof.Machine
end

