-- ==== Sys2Proof/Machine/PwrRows.lean ====
section
/-! DEFINITION. Rows of clocks, power and temperature (R537 to R556): reference loss, feeds and the power limiter, domains, trips. -/
namespace Sys2Proof.Machine

/-! ### The reference (R537 to R539) -/

/-- REF_CLK_LOST: the hub coasts on the backup at step 4. -/
def refLost (s : State) : State :=
  if coasting s then s
  else
    let ok := fldOn s CLK_STAT_BACKUP_OK
    let s := addFld CLK_STAT_COASTS 1 (setFld CLK_STAT_COAST_EVENT 1 (setFld CLK_STAT_COAST 1 (setFld CLK_STAT_REF_OK 0 s)))
    let s := stepsUpdate { s with pwr := { s.pwr with coastTicks := 0, goodTicks := 0 } }
    let s := noteCoast (report cCLK_REF_LOST (srcOf 8 14 0x52) 0 s)
    if !ok then moduleLoss s else if s.kpr.up then coastHold s else s

def execRefClkLost (s : State) : Out := liveNext s (refLost s)

/-- REF_CLK_RESTORED: the reference has been good for RETURN_TICKS ticks. -/
def execRefClkRestored (s : State) : Out :=
  liveNext s (if coasting s && s.kpr.up && decide (fld s CLK_CTRL_RETURN_TICKS ≤ s.pwr.goodTicks) then
    let s := report cCLK_REF_RESTORED (srcOf 8 14 0x52) 0 (setFld CLK_STAT_REF_OK 1 (setFld CLK_STAT_COAST 0 s))
    holdRelease .coast (stepsUpdate s)
  else s)

/-- COAST_TIMEOUT: 1,024 ticks of coast. -/
def execCoastTimeout (s : State) : Out := liveNext s (if coasting s && decide (1024 ≤ s.pwr.coastTicks) then moduleLoss s else s)

/-- CLK_BACKUP_BAD: the backup is more than 200 ppm off. -/
def execClkBackupBad (s : State) : Out := liveNext s (backupBad s)

/-! ### Feeds (R546 to R551) -/

/-- One feed's part of a sample. -/
def feedSample (b : Bool) (mv da : Nat) (s : State) : State :=
  let ov := decide (60000 < mv)
  let s := setFld (fMv b) (min mv 65535) (setFld (fDa b) (min da 65535) (setFld (fOv b) (if ov then 1 else 0) s))
  let s := setFld (fPresent b) (if feedIn s b then 1 else 0) s
  if feedIn s b && ov && decide (mv ≤ 63000) then report cPWR_FEED_OV (srcOf 8 14 (if b then 0x51 else 0x50)) (BitVec.ofNat 64 mv) s else s

/-- The power limiter at a sample of `w` watts (R548). -/
def limiterSample (w : Nat) (s : State) : State :=
  let cap := fld s PWR_STAT_CAP_W
  if s.pwr.capEpisode then
    if w ≤ cap then setFld PWR_STAT_CAPPED 0 { s with pwr := { s.pwr with capEpisode := false, overCap := 0 } }
    else stepsUpdate { s with pwr := { s.pwr with limiter := min 28 (s.pwr.limiter + 1) } }
  else
    let n := if 105 * cap < 100 * w then s.pwr.overCap + 1 else 0
    let s := { s with pwr := { s.pwr with overCap := n, capEpisode := decide (3 ≤ n) } }
    if n < 3 then s
    else report cPWR_CAP (srcOf 8 14 0) (BitVec.ofNat 64 w) (addFld PWR_COUNT_CAP_EVENTS 1 (setFld PWR_STAT_CAPPED 1 s))

/-- POWER_SAMPLE. -/
def execPowerSample (f : FeedSample) (s : State) : Out :=
  liveNext s (limiterSample ((f.mvA * f.daA + f.mvB * f.daB) / 10000) (feedSample true f.mvB f.daB (feedSample false f.mvA f.daA s)))

/-- What a feed's loss records (R550). -/
def feedDown (b : Bool) (s : State) : State :=
  noteFeedLoss (addFld PWR_COUNT_FEED_LOSSES 1 (setFld (fLoss b) 1
    (setFeed b false { s with pwr := { s.pwr with backTicks := s.pwr.backTicks.set (if b then 1 else 0) 0 } })))

/-- With the other feed alone, its cap applies and no die runs above `FEED_STEP` (R549, R550). -/
def feedLimit (s : State) : State :=
  let f := fld s PWR_CTRL_FEED_STEP
  let s := capUpdate (setFld PWR_STAT_FEED_CAP 1 s)
  stepsUpdate { s with pwr := { s.pwr with feedHold := true, policy := s.pwr.policy.map (min f) } }

/-- FEED_LOSS: the feed cap, or, with no feed left, the power notice (R449). -/
def feedLost (b : Bool) (s : State) : State :=
  if !feedIn s b then s
  else if feedIn (feedDown b s) (!b) then
    report cPWR_FEED_LOST (srcOf 8 14 (if b then 0x51 else 0x50)) 0 (feedLimit (feedDown b s))
  else floodCtl (.powerNotice (ownId s)) (feedDown b s)

def execFeedLoss (feedB : Bool) (s : State) : Out := liveNext s (feedLost feedB s)

/-- FEED_RESTORED: 16 ticks within 40 to 60 V. -/
def feedBack (b : Bool) (s : State) : State :=
  if feedIn s b || s.pwr.backTicks.getD (if b then 1 else 0) 0 < 16 then s
  else
    let s := setFeed b true s
    let s := if feedIn s (!b) then stepsUpdate (capUpdate (setFld PWR_STAT_FEED_CAP 0 { s with pwr := { s.pwr with feedHold := false } })) else s
    let s := heldStart s
    report cPWR_FEED_RESTORED (srcOf 8 14 (if b then 0x51 else 0x50)) 0 s

def execFeedRestored (feedB : Bool) (s : State) : Out := liveNext s (feedBack feedB s)

/-! ### Domains (R541 to R545) -/

/-- What a domain that has come on or gone off brings with it: the scratch of a quad's cores is zero (R543), a host port or the archive
port goes down with its domain (R545). -/
def domEffect (dom : Nat) (on : Bool) (s : State) : State :=
  if dom < 64 then
    if on then
      let m := (List.range 4).foldl (fun m i => m.zero (0x40000000000 + (4 * dom + i) * 0x800000) scratchBytes) s.mem
      pumpAll { s with mem := (s.lcores.filter fun l => l.phys / 4 == dom).foldl (fun m l => m.zero (winBase l) scratchBytes) m }
    else s
  else if on then s
  else if dom = 73 then hostDown 0 s
  else if dom = 74 then hostDown 1 s
  else if dom = 75 then { archiveDown s with arc := { (archiveDown s).arc with perst := true } }
  else s

/-- DOMAIN_SWITCH_DONE: the switch under way of a domain ends. One that has begun completes, whatever has come since (R545). -/
def domDone (dom : Nat) (s : State) : State :=
  match s.pwr.switching.find? fun x => x.1 == dom with
  | none => s
  | some (_, on) =>
    if s.pwr.heldOn.contains dom then s
    else
      let s := { s with pwr := { s.pwr with switching := s.pwr.switching.filter fun x => x.1 != dom } }
      domEffect dom on (addFld PWR_COUNT_SWITCHES 1 (setDom dom on s))

def execDomainSwitchDone (dom : Fin 80) (s : State) : Out := liveNext s (domDone dom s)

/-- The bit of a domain that failed. -/
def domFail (dom : Nat) (s : State) : State :=
  if dom < 64 then setFld PWR_DOM_FAIL0_FAIL (fld s PWR_DOM_FAIL0_FAIL ||| 2 ^ dom) s
  else setFld PWR_DOM_FAIL1_FAIL (fld s PWR_DOM_FAIL1_FAIL ||| 2 ^ (dom - 64)) s

/-- Fences a core whose quad cannot be powered (R544): no quad check follows. -/
def fenceDark (s : State) (p : Nat) : State :=
  if (getP s p).fenced then s else lossAbort none noMember (fenceOff p s)

/-- RAIL_TIMEOUT: the domain is left off. -/
def railTimeout (dom : Nat) (s : State) : State :=
  if !s.pwr.switching.contains (dom, true) || s.pwr.heldOn.contains dom then s
  else
    let w := { s.pwr with switching := s.pwr.switching.filter fun x => x.1 != dom }
    let s := { s with pwr := { w with fencedDoms := if w.fencedDoms.contains dom then w.fencedDoms else w.fencedDoms ++ [dom] } }
    let s := report cPWR_DOMAIN (srcOf 8 14 dom) (BitVec.ofNat 64 dom) (domFail dom s)
    if dom < 64 then moveIdle (replace (((List.range 4).map (4 * dom + ·)).foldl fenceDark s))
    else if dom < 72 then fenceDie (dom - 64) s
    else s

def execRailTimeout (dom : Fin 80) (s : State) : Out := liveNext s (railTimeout dom s)

/-! ### Trips (R555, R556) -/

/-- THERM_TRIP of a die, or of a hub sensor. -/
def thermTrip (d : Option (Fin 8)) (sensor : Nat) (s : State) : State :=
  let k := match d with
    | some d => d.val
    | none => 8
  let s := stepsUpdate { s with pwr := { s.pwr with trips := s.pwr.trips.set k true } }
  noteTrip (report cTHERM_TRIP (srcOf k 14 sensor) 0 s)

def execThermTrip (d : Option (Fin 8)) (sensor : BitVec 8) (s : State) : Out := liveNext s (thermTrip d sensor.toNat s)

/-- THERM_TRIP_CLEAR: every sensor is 10 °C below its trip temperature. -/
def execThermTripClear (d : Option (Fin 8)) (s : State) : Out :=
  liveNext s (let k := match d with
      | some d => d.val
      | none => 8
    heldStart (stepsUpdate { s with pwr := { s.pwr with trips := s.pwr.trips.set k false } }))

/-- Domains still on but PD72 and PD76. -/
def shutDomains (s : State) : Nat := ((List.range 80).filter fun k => domOn s k && k != 72 && k != 76).length

/-- THERM_SHUTDOWN: a sensor has been at its trip temperature for 4 ticks with its die at step 4. -/
def thermShutdown (s : State) : State :=
  match s.pwr.tripTicks.find? fun x => decide (4 ≤ x.2) with
  | none => s
  | some (k, _) =>
    if shutDomains s = 0 then s
    else
      let d := if k < 128 then k / 16 else 8
      let i := if 128 ≤ k then 0x80 + (k - 128) else if k % 16 < 9 then 0x60 + k % 16 else 0x70 + (k % 16 - 9)
      let s := moduleLoss (noteShutdown (report cTHERM_SHUTDOWN (srcOf d 14 i) 0 s))
      let s := archiveDown (hostDown 1 (hostDown 0 (addFld PWR_COUNT_SWITCHES (shutDomains s) s)))
      let s := setFld PWR_DOM_ON0_ON 0 (setFld PWR_DOM_ON1_ON 0x1100 { s with pwr := { s.pwr with switching := [], heldOn := [] } })
      { s with arc := { s.arc with perst := true } }

def execThermShutdown (s : State) : Out := liveNext s (thermShutdown s)

end Sys2Proof.Machine
end

