-- ==== Sys2Proof/Machine/CsOps.lean ====
section
/-! DEFINITION. The register space as a host reaches it (R11 to R13, R508, R597 to R601), and change sets (R507 to R513): staging, checks,
quiescing, the apply strobe and what it puts into effect. -/
namespace Sys2Proof.Machine

/-! ### Reading (R599, R601) -/

/-- The 512 bytes of a record leaf (R518). -/
def leafBytes (l : Option Leaf) : List Byte := match l with
  | none => List.replicate 512 0
  | some l =>
    let b := l.body ++ List.replicate (0x1D8 - l.body.length) 0 ++ leBytes 8 l.seq
    b ++ (if l.ok then sha256 b else (sha256 b).map fun x => ~~~x)

/-- The 256 bytes of a journal entry (R478). -/
def jBytes (e : Option JEntry) : List Byte := match e with
  | none => List.replicate 256 0
  | some e =>
    tBytes e.t ++ leBytes 1 e.state ++ leBytes 1 ((if e.mirrored then 1 else 0) + (if e.dispatched then 2 else 0)) ++
    leBytes 2 e.status.toNat ++ leBytes 4 0 ++ leBytes 8 e.acceptTime.toNat ++ leBytes 8 e.completeTime.toNat ++
    leBytes 8 e.detail.toNat ++ List.replicate 96 0

/-- The 64 bytes at an offset of the journal store (R477). -/
def jnlBytes (s : State) (off : Nat) : List Byte :=
  if off < 0x100000 then
    let r := smGet (fun _ => recEmpty) s.jnl.recs (off / 0x400)
    slice (leafBytes r.a ++ leafBytes r.b) (off % 0x400) 64
  else if off < 0x200000 then
    let k := (off - 0x100000) / 32
    leBytes 32 (smGet (fun _ => 0) s.jnl.fatal k) ++ leBytes 32 (smGet (fun _ => 0) s.jnl.fatal (k + 1))
  else if off < 0x1200000 then slice (jBytes (smFind s.jnl.own ((off - 0x200000) / 256))) (off % 256) 64
  else if off < 0x2200000 then slice (jBytes (smFind s.jnl.mirror ((off - 0x1200000) / 256))) (off % 256) 64
  else List.replicate 64 0

/-- Bits of a register map with an access type. -/
def accMask (d : RegDesc) (a : Acc) : Nat := d.foldl (fun v f => if f.acc = a then v ||| ((2 ^ f.w - 1) <<< f.lo) else v) 0

/-- The staged value and mask of a register word. -/
def stagedOf (s : State) (a : Nat) : Nat × Nat := match s.kpr.cs.bind fun c => smFind c.staged a with
  | some (v, m) => (v.toNat, m.toNat)
  | none => (0, 0)

/-- `v` with the bits under a mask taken from `x`. -/
def merge (v x m : Nat) : Nat := (v &&& ((2 ^ 64 - 1) ^^^ m)) ||| (x &&& m)

/-- The staged word merged with the value in effect (R508). -/
def mergedWord (s : State) (a : Nat) : Nat := let (v, m) := stagedOf s a; merge (getReg s a).toNat v m

/-- The addresses of the routing tables, whose registers are 32 bits wide. -/
def narrowReg (a : Nat) : Bool := decide ((0x60008061000 ≤ a ∧ a < 0x60008061100) ∨ (0x60008061400 ≤ a ∧ a < 0x60008061800))

/-- The word at the address of `KPR_CS_PEEK_ADDR`, whether its merged value or its mask; a word of a routing table holds two
registers. -/
def peekWord (s : State) (f : Nat → Nat) : Nat :=
  let a := fld s KPR_CS_PEEK_ADDR_ADDR * 8
  if narrowReg a then f a % 2 ^ 32 + (f (a + 4) % 2 ^ 32) * 2 ^ 32 else f a

/-- What an 8-byte read of a register returns. -/
def readReg (s : State) (a : Nat) : Nat :=
  if 0x600080D0000 ≤ a ∧ a < 0x600080F0000 then
    match smFind s.err.recs ((a - 0x600080D0000) / 32) with
    | some r => bodyNat r.serial (a % 32) 8
    | none => 0
  else match regLookup a with
    | none => 0
    | some (r, d) =>
      if regAbsent s.fuses r d then 0
      else
        let v := (getReg s a).toNat
        match r.name with
        | .FRM_NOW => (sysTime s).toNat
        | .SEC_LOG_DATA => bodyNat (logPeek s) (8 * r.inst) 8
        | .JNL_PEEK_DATA => bodyNat (jnlBytes s (fld s JNL_PEEK_ADDR_OFFSET * 64)) (8 * r.inst) 8
        | .KPR_CS_PEEK_DATA => peekWord s (mergedWord s)
        | .KPR_CS_PEEK_MASK => peekWord s fun a => (stagedOf s a).2
        | .JNL_STAT => putBits v 1 1 (if fldOn s JNL_CTRL_MIRROR && fld s LAT_PAIR_STAT_STATE == 1 then 1 else 0)
        | .TKT_Q_CTRL => putBits v 0 3 (bits v 1 1 * 2)
        | n => v - (v &&& accMask n.desc .wo)

/-! ### Writing (R11, R599) -/

/-- A register access is naturally aligned and of 4 or 8 bytes. -/
def accessOk (addr size : Nat) : Bool := (size == 4 || size == 8) && addr % size == 0

/-- The registers that a write reaches: address, the bits written, and the value in their place. -/
def accessParts (addr v size : Nat) : List (Nat × Nat × Nat) :=
  if narrowReg addr then
    (addr, 2 ^ 32 - 1, v % 2 ^ 32) :: if size = 8 then [(addr + 4, 2 ^ 32 - 1, v / 2 ^ 32 % 2 ^ 32)] else []
  else if size = 8 then [(addr, 2 ^ 64 - 1, v % 2 ^ 64)]
  else if addr % 8 = 4 then [(addr - 4, (2 ^ 32 - 1) <<< 32, (v % 2 ^ 32) <<< 32)]
  else [(addr, 2 ^ 32 - 1, v % 2 ^ 32)]

/-- Fields that a write leaves alone because a row of their own carries it (`HOST_HEARTBEAT`, `ERROR_RING_RELEASE`). -/
def ownRow (n : RegName) (f : FDesc) : Bool := match n with
  | .TKT_HOST | .ERR_GEN | .ERR_RSV => f.lo == 0
  | _ => false

/-- A value rule of an RW field that leaves the field unchanged (R59, R493). -/
def rwRefused (n : RegName) (f : FDesc) (x : Nat) : Bool := match n with
  | .FRM_PERIOD => f.lo == 32 && !decide (100000 ≤ x ∧ x ≤ 100000000)
  | .TKT_CRING_CFG => f.lo == 0 && !decide (6 ≤ x ∧ x ≤ 12)
  | _ => false

/-- Bits of an RW field that always are zero. -/
def rwZero (n : RegName) : Nat := match n with
  | .TKT_CRING_BASE => 31
  | .LAT_CURSOR_ADDR => 7
  | _ => 0

/-- One field of a write: RW stores, W1C clears, and the others do nothing here. -/
def fieldWrite (n : RegName) (m x : Nat) (v : Nat) (f : FDesc) : Nat :=
  let fm := ((2 ^ f.w - 1) <<< f.lo) &&& m
  if ownRow n f then v
  else match f.acc with
    | .rw => if rwRefused n f (bits (merge v x fm) f.lo f.w) then v else merge v (x - (x &&& rwZero n)) fm
    | .w1c => v - (v &&& x &&& fm)
    | _ => v

/-- A host's register write as the field types of R11 take it. -/
def regWrite (s : State) (p : Nat × Nat × Nat) : State := match regLookup p.1 with
  | none => s
  | some (r, d) =>
    if regAbsent s.fuses r d then s
    else setReg s p.1 (BitVec.ofNat 64 (r.name.desc.foldl (fieldWrite r.name p.2.1 p.2.2) (getReg s p.1).toNat))

/-! ### Staging (R507, R508) -/

/-- A field below a limit is staged as the limit. -/
def atLeast (lo w n v : Nat) : Nat := if bits v lo w < n then putBits v lo w n else v

/-- The value as it is staged. -/
def stageValue (n : RegName) (v : Nat) : Nat := match n with
  | .FRM_CTRL => if 16 < bits v 3 5 then putBits v 3 5 16 else v
  | .RDU_STEP_CTRL => atLeast 8 8 2 v
  | .FAB_ROUTE => atLeast 16 16 64 v
  | .LAT_T1 => atLeast 0 16 1 v
  | .TKT_CTRL => atLeast 8 8 2 v
  | .MEM_CTRL => atLeast 8 8 1 (atLeast 16 16 512 (atLeast 32 16 256 v))
  | .KPR_POLICY => atLeast 16 8 1 v
  | .CLK_CTRL => atLeast 0 16 4 v
  | _ => v

/-- Staged words, each once: the two registers of a table word count together. -/
def stagedWords (c : ChangeSet) : Nat := ((c.staged.map fun w => w.1 / 8).eraseDups).length

def csReg (s : State) : State := match s.kpr.cs with
  | some c => setFld KPR_CS_STAT_STAGED (stagedWords c) (setFld KPR_CS_STAT_FULL (if c.full then 1 else 0) s)
  | none => setFld KPR_CS_STAT_STAGED 0 (setFld KPR_CS_STAT_FULL 0 s)

/-- Stages the RS bits of one register; a word beyond 4,096 is dropped and marks the set. -/
def stage (s : State) (p : Nat × Nat × Nat) : State := match regLookup p.1, s.kpr.cs with
  | some (r, d), some c =>
    let m := accMask r.name.desc .rs &&& p.2.1
    if m = 0 ∨ regAbsent s.fuses r d then s
    else
      let (v0, m0) := stagedOf s p.1
      let w := (BitVec.ofNat 64 (merge v0 (stageValue r.name p.2.2) m), BitVec.ofNat 64 (m0 ||| m))
      let new := { c with staged := smPut c.staged p.1 w }
      csReg { s with kpr := { s.kpr with cs := some (if 4096 < stagedWords new then { c with full := true } else new) } }
  | _, _ => s

/-- Whether a write reaches an RS field. -/
def hitsRs (s : State) (p : Nat × Nat × Nat) : Bool := match regLookup p.1 with
  | some (r, d) => (accMask r.name.desc .rs &&& p.2.1) != 0 && !regAbsent s.fuses r d
  | none => false

/-- RS_WRITE. -/
def rsWrite (n addr v size : Nat) (s : State) : State :=
  if !hostServed s n || !accessOk addr size || !(accessParts addr v size).any (hitsRs s) then s
  else if fld s KPR_CS_STAT_STATE = 1 ∧ fld s KPR_CS_STAT_OWNER = n then (accessParts addr v size).foldl stage s
  else report cCS_NOT_OWNER (srcOf 8 13 0) (BitVec.ofNat 64 addr) s

/-! ### Commands' completion (R504) -/

/-- A command of port `n` completes. -/
def cmdDone (n : Nat) (status : Code) (s : State) : State :=
  sendMsi n 62 (setFld (KPR_CMD_STAT_BUSY n) 0 (setFld (KPR_CMD_STAT_STATUS n) status.toNat s))

/-- A status the manual does not state (assumption 2). -/
def cmdFree (n : Nat) (s : State) : State := cmdDone n ((freeNow s).setWidth 16) (freeStep s)

/-! ### Opening and checks (R507, R509) -/

/-- CS_OPEN. -/
def csOpen (n : Nat) (s : State) : State :=
  if fld s KPR_CS_STAT_STATE ≠ 0 then cmdDone n cCS_BUSY s
  else
    let id := (getReg s (rKPR_CMD_ARG0 n)).toNat % 2 ^ 32
    let s := { s with kpr := { s.kpr with cs := some ⟨n, [], false, none, 0⟩ } }
    cmdDone n cOK (csReg (setFld KPR_CS_ID_CS_ID id (setFld KPR_CS_STAT_OWNER n (setFld KPR_CS_STAT_STATE 1 s))))

/-- The end of a change set, with its status; the next step opens if the set held it. -/
def csEnd (status : Code) (s : State) : State :=
  let s := setFld KPR_CS_STAT_LAST_STATUS status.toNat (setFld KPR_CS_STAT_STATE 0 { s with kpr := { s.kpr with cs := none } })
  pumpAll (openGap (listsReg (csReg s)))

/-- The set is abandoned: its commit completes with a code. -/
def csAbandoned (code : Code) (s : State) : State := match s.kpr.cs with
  | some c => csEnd code (if c.commit.isSome then cmdDone c.owner code s else s)
  | none => s

/-- The value rule that a merged register word breaks (R509). -/
def valueCode (s : State) (r : RegAt) (v : Nat) : Code :=
  let bad : Bool := match r.name with
    | .FRM_CTRL => bits v 0 2 == 3
    | .KWY_CAP => decide (2 ≤ bits v 0 2)
    | .LAT_POOL =>
      let p := bits v 0 11
      let h := bits v 16 11
      s.img.isSome || p % 8 != 0 || !decide (64 ≤ p ∧ p ≤ 1536) || h % 8 != 0 || !decide (h + 64 ≤ p)
    | .TKT_LOOP_WIN => bits v 32 1 == 1 && decide (bits v 16 16 ≤ bits v 0 16)
    | .TKT_Q_CFG => bits v 0 2 == 3 || decide (59 < bits v 8 6) || decide (59 < bits v 16 6)
    | .CLK_DIE_CTRL => !decide (4 ≤ bits v 0 6 ∧ bits v 0 6 ≤ 32)
    | .PWR_CTRL => !decide (2000 ≤ bits v 0 16 ∧ bits v 0 16 ≤ 10800 ∧ 4 ≤ bits v 16 6 ∧ bits v 16 6 ≤ 32)
    | .PWR_THERM_CTRL => !decide (80 ≤ bits v 0 8 ∧ bits v 0 8 ≤ 100 ∧ 70 ≤ bits v 8 8 ∧ bits v 8 8 ≤ 90)
    | _ => false
  if bad then cCS_VALUE
  else match r.name with
    | .FAB_WARD_TABLE | .FAB_LOCAL_TABLE => if bits v 0 16 &&& portMask s.fuses = bits v 0 16 then 0 else cFAB_ROUTE_PORT
    | _ => 0

/-- The first staged register that breaks a rule. -/
def setCode (s : State) (c : ChangeSet) : Code :=
  (c.staged.filterMap fun w => (regLookup w.1).bind fun r =>
    let k := valueCode s r.1 (mergedWord s w.1)
    if k = 0 then none else some k).headD 0

/-- A set holds a field whose function quiesces at a commit boundary: `RDU_`, `KWY_`, `LAT_` but `LAT_POOL`, `ARC_` (R511). -/
def gapReg (a : Nat) : Bool :=
  if regRegion a = 8 then (regSlot a == 4 || regSlot a == 7 || regSlot a == 8) && a != rLAT_POOL
  else regSlot a == 4 || regSlot a == 5 || regSlot a == 7

/-! ### Pairing (R416, R585) -/

/-- Words of `LAT_PAIR` as the set would leave them, when it puts a pairing into force. -/
def pairSet (s : State) : Option Nat :=
  if (stagedOf s rLAT_PAIR).2 = 0 then none
  else let v := mergedWord s rLAT_PAIR; if bits v 16 1 = 1 then some v else none

/-- The module that `LAT_PAIR` names. -/
def pairMember (v : Nat) : Member := BitVec.ofNat 16 (bits v 8 6 * 256 + bits v 0 8)

/-- Own codes as they are sent: zero for one that is not valid. -/
def ownFeedIds (s : State) : BitVec 16 × BitVec 16 :=
  let id := fun b => if fldOn s (fValid b) then BitVec.ofNat 16 (fld s (fId b)) else 0
  (id false, id true)

/-- Tags of a request for feed codes and of its answer (assumption 13). -/
def idsAnswer : Nat := 1

/-- Tags of the notices that a pairing is in force and that it has ended (assumption 81). -/
def pairOn : Nat := 2
def pairOff : Nat := 3

/-- Sends the own codes to a module. -/
def sendIds (tag : Nat) (m : Member) (s : State) : State :=
  let (a, b) := ownFeedIds s
  sendOrDrop 8 (mkPacket s 3 m 15 8 tag (.control (.feedIds a b))) s

/-- The partner's answer, if it has come. -/
def idsFrom (s : State) (m : Member) : Option (BitVec 16 × BitVec 16) :=
  s.fab.inbound.findSome? fun p => match p.body with
    | .control (.feedIds a b) => if p.src = m ∧ p.tag.toNat = idsAnswer then some (a, b) else none
    | _ => none

/-- Two modules share a feed, or one of their codes is not known. -/
def coFed (own peer : BitVec 16 × BitVec 16) : Bool :=
  let ok := fun (x : BitVec 16) => x != 0 && x != 0xFFFF
  !(ok own.1 && ok own.2 && ok peer.1 && ok peer.2) || own.1 == peer.1 || own.1 == peer.2 || own.2 == peer.1 || own.2 == peer.2

/-- The answer is taken off the packets delivered here. -/
def idsTake (m : Member) (s : State) : State :=
  (takeInbound (fun p => match p.body with
    | .control (.feedIds _ _) => p.src == m && p.tag.toNat == idsAnswer
    | _ => false) s).2

/-! ### Commit (R509, R510) -/

/-- CS_COMMIT: the checks, and the wait for the apply point. -/
def csCommit (n : Nat) (tag : BitVec 8) (s : State) : State := match s.kpr.cs with
  | none => cmdFree n s
  | some c =>
    if c.owner ≠ n ∨ fld s KPR_CS_STAT_STATE ≠ 1 then cmdFree n s
    else
      let step := (getReg s (rKPR_CMD_ARG0 n)).toNat % 2 ^ 48
      let atStep := (getReg s (rKPR_CMD_ARG1 n)).getLsbD 0
      let code := if c.full then cCS_FULL else setCode s c
      let c' := { c with commit := some (tag, step, atStep) }
      let s' := { s with kpr := { s.kpr with cs := some c' } }
      if code ≠ 0 then csAbandoned code (if code = cFAB_ROUTE_PORT then report code (srcOf 8 13 0) 0 s' else s')
      else if atStep && s.img.isNone then csAbandoned cCS_NO_STEP s'
      else if atStep && decide (step < s.step.next) then cmdDone n cCS_LATE s
      else
        let gap := imgLevel s == 2 && s.img.isSome && c.staged.any fun w => gapReg w.1
        let c' := if atStep then c' else { c with commit := some (tag, s.step.next, gap) }
        let s := setFld KPR_CS_STAT_STATE 2 { s with kpr := { s.kpr with cs := some c' } }
        match pairSet s with
        | some v => sendIds 0 (pairMember v) s
        | none => s

/-- CS_ABANDON. The status with which the commit of a waiting set then completes is not stated. -/
def csAbandon (n : Nat) (s : State) : State := match fld s KPR_CS_STAT_STATE, s.kpr.cs with
  | 3, _ => cmdDone n cCS_BUSY s
  | 0, _ => cmdFree n s
  | _, some c => cmdDone n cOK (csEnd cOK (if c.commit.isSome then cmdFree c.owner s else s))
  | _, none => cmdFree n s

/-- The image of a set that waits for a step has stopped. -/
def csNoStep (s : State) : Bool := s.img.isNone && match s.kpr.cs.bind (·.commit) with
  | some (_, _, waits) => waits
  | none => false

/-- The apply point is reached, with the partner's codes known where a pairing needs them. -/
def csDue (s : State) : Bool :=
  fld s KPR_CS_STAT_STATE == 2 && (match s.kpr.cs.bind (·.commit) with
    | some (_, n, waits) => !waits || (decide (n < s.step.next) && !stepIsOpen s)
    | none => false) && match pairSet s with
    | some v => (idsFrom s (pairMember v)).isSome
    | none => true

/-- Ports that a set takes to DISABLED: all with `FAB_ID`, else those whose sub-block it holds (R511). -/
def csPorts (c : ChangeSet) : List Nat :=
  (List.range 16).filter fun n => c.staged.any fun w => w.1 == rFAB_ID || (regRegion w.1 == n / 2 && regSlot w.1 == 6 && regOff w.1 / 0x100 == n % 2)

/-- The co-feed check of a pairing: whether the set is refused, and whether the pairing is exposed. -/
def pairCheck (s : State) : Bool × Bool := match pairSet s with
  | none => (false, false)
  | some v =>
    let fed := coFed (ownFeedIds s) ((idsFrom s (pairMember v)).getD (0, 0))
    (fed && bits v 17 1 == 0, fed)

/-- CS_APPLY_POINT: quiescing begins; a co-fed pairing abandons the set. -/
def csApplyPoint (s : State) : State := match s.kpr.cs with
  | none => s
  | some c =>
    if csNoStep s && fld s KPR_CS_STAT_STATE == 2 && !(match c.commit with | some (_, n, _) => decide (n < s.step.next) | none => false) then
      csAbandoned cCS_NO_STEP s
    else if !csDue s then s
    else if (pairCheck s).1 then
      let m := ((pairSet s).map pairMember).getD 0
      let s := setFld LAT_PAIR_STAT_STATE 2 (idsTake m s)
      csAbandoned cPAIR_COFEED (report cPAIR_COFEED (srcOf 8 13 0) (BitVec.ofNat 64 m.toNat) s)
    else
      let s := setFld KPR_CS_STAT_STATE 3 { s with kpr := { s.kpr with cs := some { c with since := tickNow s } } }
      let s := listsReg s
      (csPorts c).foldl (fun s n => if portLive s n then portDown n 0 s else portState n 0 s) s

/-! ### Quiesce, strobe and restart (R509, R511) -/

/-- No X-queue instruction of a die has started and not ended. -/
def xIdle (s : State) (d : Nat) : Bool :=
  s.lcores.all fun l => l.die != d || (queue l qX).all fun e => !e.started

/-- Every function that the set holds is quiet. -/
def csQuiet (s : State) : Bool :=
  (List.range 8).all (fun d => !csDie s d 3 || xIdle s d) &&
  (!csField s (fun a => regRegion a == 8 && regSlot a == 8) || s.arc.sealJob.isNone) &&
  (!csStopsRings s || (List.range 32).all fun q => (getTQ s q).wait.isNone) &&
  (!csField s gapReg || !stepIsOpen s || imgLevel s != 2)

/-- A new KIND starts or stops its queue (R460, R465). -/
def queueKind (s : State) (q : Nat) : State :=
  let k := fld s (TKT_Q_CFG_KIND q)
  let st := fld s (TKT_Q_STAT_STATE q)
  let s := if k = 0 then setFld (TKT_Q_STAT_STATE q) 0 s else if st = 0 then setFld (TKT_Q_STAT_STATE q) 1 s else s
  ctlBlock q (jRetain q s)

/-- `LAT_PAIR` takes effect: a new partner is told, and gets every granule with the next transfer (R416, R454). -/
def pairApply (old : Nat) (fed : Bool) (s : State) : State :=
  let v := (getReg s rLAT_PAIR).toNat
  let was := bits old 16 1 == 1
  if bits v 16 1 = 0 then
    let s := setFld LAT_PAIR_STAT_COFEED 0 (setFld LAT_PAIR_STAT_STATE 0 (t1Abandon s))
    if was then sendIds pairOff (pairMember old) s else s
  else
    let s := setFld LAT_PAIR_STAT_COFEED (if fed then 1 else 0) (setFld LAT_PAIR_STAT_STATE 1 s)
    if was && pairMember old == pairMember v then s
    else
      let s := sendIds pairOn (pairMember v) (if was then sendIds pairOff (pairMember old) s else s)
      let s := t1Abandon s
      s.lat.map.foldl (fun s e => setGran e.1 { getGran s e.1 with dirty := true } s) s

/-- The hub domains that software switches (R541). -/
def hubDomains (s : State) : State :=
  domSwitch 75 (fldOn s PWR_HUB_CTRL_A_ON) (domSwitch 74 (fldOn s PWR_HUB_CTRL_H1_ON) (domSwitch 73 (fldOn s PWR_HUB_CTRL_H0_ON) s))

/-- What one staged register brings with it beyond its value. -/
def applyEffect (c : ChangeSet) (oldPair : Nat) (fed : Bool) (s : State) : State :=
  let has := fun (f : Nat → Bool) => c.staged.any fun w => f w.1
  let s := if has (· == rFRM_CTRL) then frameFree s else s
  let s := if has (· == rLAT_PAIR) then pairApply oldPair fed s else s
  let s := if has (fun a => regRegion a != 8 && a == rKWY_WLT (regRegion a)) then { s with kwyCache := [] } else s
  let s := if has (fun a => regRegion a == 8 && regSlot a == 8) then arcEnable s else s
  let s := if has (· == rPWR_HUB_CTRL) then hubDomains s else s
  let s := ((List.range 32).filter fun q => has (· == rTKT_Q_CFG q)).foldl queueKind s
  stepsUpdate (capUpdate s)

/-- Every staged value is in effect. -/
def csApply (c : ChangeSet) (s : State) : State :=
  c.staged.foldl (fun s w => setReg s w.1 (BitVec.ofNat 64 (merge (getReg s w.1).toNat w.2.1.toNat w.2.2.toNat))) s

/-- CS_STROBE: the set takes effect, and its functions restart. -/
def csStrobe (s : State) : State := match s.kpr.cs with
  | none => s
  | some c =>
    if fld s KPR_CS_STAT_STATE ≠ 3 || !csQuiet s then s
    else
      let fed := (pairCheck s).2
      let m := (pairSet s).map pairMember
      let old := (getReg s rLAT_PAIR).toNat
      let s := applyEffect c old fed (csApply c s)
      let s := match m with
        | some m => idsTake m s
        | none => s
      let s := { s with kpr := { s.kpr with cs := none } }
      let s := (csPorts c).foldl (fun s n => portBringup n s) s
      csEnd cOK (sendMsi c.owner 63 (if c.commit.isSome then cmdDone c.owner cOK s else s))

/-- QUIESCE_TIMEOUT: every function restarts unchanged. -/
def quiesceTimeout (s : State) : State := match s.kpr.cs with
  | none => s
  | some c =>
    if fld s KPR_CS_STAT_STATE ≠ 3 || csQuiet s || !decide (c.since + fld s KPR_POLICY_QUIESCE_TICKS ≤ tickNow s) then s
    else
      let s := csAbandoned cCS_TIMEOUT (report cCS_TIMEOUT (srcOf 8 13 0) 0 s)
      (csPorts c).foldl (fun s n => portBringup n s) s

end Sys2Proof.Machine
end

