-- ==== Sys2Proof/Machine/PartRows.lean ====
section
/-! DEFINITION. Reduction packets (R307, R313 to R320), hardware faults of cores and dies (R174, R175, R237, R243, R361, R434,
R445), and the HBM stacks (R272 to R277). -/
namespace Sys2Proof.Machine

/-! ### Reduction packets -/

/-- The packet that brought a reduction packet. -/
def redFrom (s : State) (p : RedPkt) : Option Packet := s.fab.inbound.find? fun k => k.body == .reduction p

/-- Credit goes back and the delivery is acknowledged. -/
def redConsume (d : Nat) (k : Option Packet) (s : State) : State := match k with
  | some k => ackOwe d k (takePacket k s)
  | none => s

/-- A failed check (R320): the stack of a bad contribution counts an error, whose abort is that of the check (R443), and a module without
a reduction unit is lost (R432). -/
def redFailed (d : Nat) (src : RedSrc) (p : RedPkt) (s : State) : State :=
  let kind := match src with
    | .adder => 1
    | _ => if p.result then 3 else 2
  let j := packetStack s d p
  let s := redFail d kind src p s
  match src with
  | .hbm => if stackAgain s j then stackOut j s else stackNote j s
  | .adder => if (List.range 8).all fun u => fldOn s (RDU_UNIT_FENCED u) then moduleLoss s else s
  | _ => s

/-- REDUCTION_PACKET: a packet at its die is dropped where its step or attempt is not the one open (R307), left waiting, checked, held, or
added and written. A packet from the unit's own adder stands in its output buffer, and a bad one fails the step check (R315). -/
def reductionPacket (d : Nat) (src : RedSrc) (p : RedPkt) (s : State) : State :=
  let k := redFrom s p
  let age := pktAge s p.step p.attempt
  if !(age == .eq && (stepState s == 1 || stepState s == 2)) then addFld (RDU_COUNT_STALE d) 1 (redConsume d k s)
  else match src with
    | .adder => if stepCheckFails s p then redFailed d src p (redConsume d k s) else s
    | _ =>
      if !redInvariant p then redFailed d src p (redConsume d k s)
      else if src = .hbm then s
      else
        if ((getBucket s p.bucket).bind fun b => shareOf b p.packet).isSome then pumpAll (redTake d src p (redConsume d k s))
        else match redHold d src p s with
          | some s => redConsume d k s
          | none => s

def execReductionPacket (d : Fin 8) (src : RedSrc) (p : RedPkt) (s : State) : Out :=
  liveNext s (ordered (fun k => k.body == .reduction p) s (reductionPacket d src p s))

/-! ### Core hardware -/

def execArrayHw (phys : Fin 256) (structure_ : BitVec 8) (s : State) : Out := liveNext s (coreFault phys cARRAY_HW 1 structure_.toNat s)
def execTbHw (phys : Fin 256) (engine : Bool) (s : State) : Out := liveNext s (coreFault phys cTB_HW 2 (if engine then 1 else 0) s)
def execScrHw (phys : Fin 256) (bank : Fin 48) (s : State) : Out := liveNext s (coreFault phys cSCR_HW 3 bank s)
def execCoreHw (phys : Fin 256) (s : State) : Out := liveNext s (coreFault phys cCORE_HW 0 0 s)

/-- A corrected error of a core: recorded, and counted for R498. -/
def coreCorrected (p : Nat) (code : Code) (unit : Nat) (s : State) : State :=
  let s := report code (srcOf (p / 32) unit (p % 32)) 0 s
  let t := tickNow s
  let old := (smFind s.kpr.ces p).getD []
  { s with kpr := { s.kpr with ces := smPut s.kpr.ces p (t :: old.filter fun u => decide (t < u + 1024)) } }

def execAccEccCorr (phys : Fin 256) (s : State) : Out := liveNext s (coreCorrected phys cACC_ECC_CORR 1 s)
def execTbEccCorr (phys : Fin 256) (s : State) : Out := liveNext s (coreCorrected phys cTB_ECC_CORR 2 s)
def execScrEccCorr (phys : Fin 256) (s : State) : Out := liveNext s (coreCorrected phys cSCR_ECC_CORR 3 s)

/-! ### Dies -/

def execKwHw (d : Fin 8) (s : State) : Out := liveNext s (if hasTumbler s.fuses then uncoreFault d 9 0 cKW_HW s else s)
def execUncoreHw (d : Fin 8) (part : BitVec 8) (s : State) : Out := liveNext s (uncoreFault d 13 part.toNat cUNCORE_HW s)

/-! ### HBM -/

/-- Data returned to a host's read. -/
def hostRead (n : Nat) (bs : List Byte) (s : State) : State := { s with host := { s.host with reads := s.host.reads ++ [(n, bs)] } }

/-- A host's access through MW (R272): reads of what is absent return ones, writes are dropped, and either records
`ADDR_UNMAPPED` (R21). A write that waits for the latch stays with the latch unit, and a read that meets an uncorrectable error returns
nothing (R275). -/
def mwAccess (n : Nat) (acc : MwAccess) (s : State) : State :=
  if !s.host.linkUp.getD n false then s
  else
    let base := fld s (MEM_MW_BASE_BASE_GIB n) * 2 ^ 30
    let bad := fun a => report cADDR_UNMAPPED (srcOf 8 12 (32 + n)) (BitVec.ofNat 64 a) s
    match acc with
    | .read off len =>
      if hbmRange s.fuses (base + off) len && decide (off + len ≤ 2 ^ 36) then
        if hbmBad s (base + off) len then s else hostRead n (s.mem.bytes (base + off) len) s
      else hostRead n (List.replicate len 0xFF) (bad (base + off))
    | .write off data =>
      if hbmRange s.fuses (base + off) data.length && decide (off + data.length ≤ 2 ^ 36) then
        hbmWrite (plainWrite .host (base + off) data) s
      else bad (base + off)

def execMwAccess (n : Fin 2) (a : MwAccess) (s : State) : Out := liveNext s (mwAccess n a s)

/-- A corrected HBM error (R274). -/
def execMemCe (addr : Nat) (s : State) : Out :=
  liveNext s (let j := stackOf addr
    if hasStack s.fuses j then
      addFld (MEM_STACK_STAT_CE_COUNT (j / 4) (j % 4)) 1 (report cMEM_CE (srcOf (j / 4) 5 j) (BitVec.ofNat 64 addr) s)
    else s)

/-- The logical core whose instruction met an uncorrectable error: the instruction does not complete. A level-1 image ends (R78);
a logical core that no repeat restarts stays stopped. -/
def ueStop (c : Nat) (s : State) : State :=
  if levelOne s then imageEnd cMEM_UE 0 s
  else modL c (fun l => if l.inStep then l else { l with stopped := true }) s

/-- A copy that read the error ends: the held writes never take place (R402). -/
def ueCopy (addr : Nat) (s : State) : State :=
  let g := addr / granBytes
  match s.lat.jobs.find? fun j => j.gran == g with
  | none => s
  | some j =>
    let e := getGran s g
    let st : GState := if j.step then .protect else if e.stepCopy.isSome then .copied else .free
    let s := setGran g { e with st := st, held := [] } { s with lat := { s.lat with jobs := s.lat.jobs.filter (· != j) } }
    latStat (dieOfGran g) (jobsStart (dieOfGran g) 8 s)

/-- An uncorrectable HBM error (R275, R402, R443): the half-line holds it until a write covers it whole (assumption 69). -/
def memUe (addr : Nat) (c : Option (Fin 256)) (s : State) : State :=
  let j := stackOf addr
  if !hasStack s.fuses j then s
  else
    let s := report cMEM_UE (srcOf (j / 4) 5 j) (BitVec.ofNat 64 addr) (markBad addr s)
    let copy := stepState s == 3 && rangeIn addr 1 (latchBase s (dieOfAddr addr)) (latchBytes s)
    let s := stackError j copy (ueCopy addr (addFld (MEM_STACK_STAT_UE_COUNT (j / 4) (j % 4)) 1 s))
    match c with
    | some c => ueStop c s
    | none => s

def execMemUe (addr : Nat) (c : Option (Fin 256)) (s : State) : Out := liveNext s (memUe addr c s)

/-- A targeted refresh (R277): the command stands for a row whose count of activations has reached `RH_THRESHOLD` (DESIGN CHOICE,
assumption 70). -/
def execRowHammerRefresh (stack : Fin 32) (_row : Nat) (s : State) : Out :=
  liveNext s (if hasStack s.fuses stack then addFld (MEM_STACK_SCRUB_RH_REFRESHES (stack / 4) (stack % 4)) 1 s else s)

end Sys2Proof.Machine
end

