-- ==== Sys2Proof/Machine/CsRows.lean ====
section
/-! DEFINITION. Rows of the register space and of change sets (R11, R21, R484, R507 to R513, R523, R599). -/
namespace Sys2Proof.Machine

/-! ### Register accesses of a host (R599) -/

/-- A queue's `TKT_Q_CTRL.YIELD` is its owner's consent (R484): the other port's write does not reach it. -/
def yieldForeign (s : State) (n : Nat) (a : Nat) : Bool := match regLookup a with
  | some (⟨.TKT_Q_CTRL, q⟩, _) => fld s (TKT_Q_STAT_OWNER q) != n
  | _ => false

/-- An address of window CW past the end of register space, which names nothing (R20, R21, R458). -/
def cwUnmapped (addr : Nat) : Bool := decide (regEnd ≤ addr)

/-- A host access that R21 or R599 refuses: a read returns all ones, a write is dropped, and the error ring records it. -/
def accessRefused (n addr size : Nat) (write : Bool) (s : State) : State :=
  let s := if write then s else hostRead n (List.replicate size 0xFF) s
  report cADDR_UNMAPPED (srcOf 8 12 (32 + n)) (BitVec.ofNat 64 addr) s

/-- Registers that a port reaches: in recovery `SEC_`, and the arguments of its commands (R567). -/
def writeServed (s : State) (n a : Nat) : Bool :=
  !s.power.recovery || regRegion a == 8 && regSlot a == 17 || a == rKPR_CMD_ARG0 n || a == rKPR_CMD_ARG1 n

/-- REGISTER_WRITE: every RW and W1C field that the write reaches acts under its type. -/
def registerWrite (n addr v size : Nat) (s : State) : State :=
  if !hostOn s n || !accessOk addr size then s
  else if cwUnmapped addr then accessRefused n addr size true s
  else ((accessParts addr v size).filter fun p => !yieldForeign s n p.1 && writeServed s n p.1).foldl regWrite s

def execRegisterWrite (n : Fin 2) (addr : Nat) (value : Word) (size : Nat) (s : State) : Out :=
  .next (registerWrite n addr value.toNat size s)

/-- BAD_REGISTER_ACCESS: a misaligned access, one of another size than 4 and 8 bytes, or one past the end of register space. -/
def badAccess (n addr size : Nat) (write : Bool) (s : State) : State :=
  if !hostOn s n || (accessOk addr size && !cwUnmapped addr) then s else accessRefused n addr size write s

def execBadRegisterAccess (n : Fin 2) (addr size : Nat) (write : Bool) (s : State) : Out := .next (badAccess n addr size write s)

/-! ### Change sets -/

def execRsWrite (n : Fin 2) (addr : Nat) (value : Word) (size : Nat) (s : State) : Out := .next (rsWrite n addr value.toNat size s)
def execCsApplyPoint (s : State) : Out := .next (if live s && s.kpr.up then csApplyPoint s else s)
def execCsStrobe (s : State) : Out := .next (if live s && s.kpr.up then csStrobe s else s)
def execQuiesceTimeout (s : State) : Out := .next (if live s && s.kpr.up then quiesceTimeout s else s)

/-! ### The error ring (R523) -/

/-- ERROR_RING_RELEASE: a HEAD from the old HEAD up to TAIL is taken; the records before it leave the ring. -/
def ringRelease (fatal : Bool) (head : Nat) (s : State) : State :=
  let h := errHead s fatal
  if (head + 65536 - h) % 65536 ≤ errUsed s fatal then setFld (if fatal then ERR_RSV_HEAD else ERR_GEN_HEAD) head s else s

def execErrorRingRelease (fatal : Bool) (head : BitVec 16) (s : State) : Out := liveNext s (ringRelease fatal head.toNat s)

end Sys2Proof.Machine
end

