-- ==== Sys2Proof/Machine/BootOps.lean ====
section
/-! DEFINITION. Reset and restart (R78, R408, R419, R424, R448, R473, R480 to R482, R491, R518, R519, R566, R588 to R593): what a reset
leaves, the power-up sequence, and the replay of tickets. -/
namespace Sys2Proof.Machine

/-! ### What a reset leaves (R408, R591) -/

/-- Memory after a reset that keeps HBM: scratch holds zeros when its quad comes on again (R543). -/
def hbmOnly (m : Mem) : Mem := m.zero hbmEnd 0x80000000

/-- Releases the pool copies of granules that belong to no open step. -/
def copiesRelease (s : State) : State :=
  s.lat.dir.foldl (fun s e => if e.2.step then dirPut e.1 (some { e.2 with cut := false }) s else dirPut e.1 none s) s

/-- Map entries that the restart reads from the copy directory (R408): the step copies stay; the open step's other granules are
protected. -/
def mapRestart (s : State) : SMap Gran :=
  let gs := writeSetGranules s.step.writeSet
  (gs.mergeSort (· ≤ ·)).map fun g => (g, match (s.lat.dir.find? fun e => e.2.source == g && e.2.step).map (·.1) with
    | some k => { granReset with st := .copied, stepCopy := some k }
    | none => { granReset with st := .protect })

/-- The reset of `LAT_POOL` leaves the latch parts where they are. -/
def poolStays (s : State) : Bool :=
  [LAT_POOL_POOL_GIB, LAT_POOL_HOLD_GIB].all fun f => fld s f == bits (resetWord s.fuses rLAT_POOL).toNat f.lo f.w

/-- The open step is written back from its copies (R407, R408). Pool contents stay; where the reset moves the latch parts, the restored
granules are protected anew (DEDUCED, assumption 82). -/
def latchRestart (s : State) : State :=
  let s := latWriteBack (latCancel s)
  let s := if poolStays s then copiesRelease s else { s with lat := { s.lat with dir := [] } }
  { s with lat := { s.lat with map := mapRestart s } }

/-- Every part at its reset state but HBM as given, the stores, the counter of free values, the queue, and what lies outside the
module: feeds, reset inputs, the partner's copy, and what has been sent. -/
def resetParts (m : Mem) (s : State) : State :=
  let z := State.reset
  let sec := { z.sec with leafA := s.sec.leafA, leafB := s.sec.leafB, bundles := s.sec.bundles, running := none, signs := s.sec.signs }
  let sec := { sec with out := s.sec.out }
  let lat := { z.lat with t1Copy := s.lat.t1Copy, t1Holder := s.lat.t1Holder, hold := s.lat.hold, epoch := s.lat.epoch }
  let host := { z.host with perst := s.host.perst, msix := s.host.msix, reads := s.host.reads }
  let z := { z with pending := s.pending, freeCtr := s.freeCtr, fuses := s.fuses, power := s.power, mem := m, jnl := s.jnl, sec := sec }
  let z := { z with arc := { z.arc with spaces := s.arc.spaces }, lat := lat, host := host }
  let z := { z with kpr := { z.kpr with up := false }, peer := { z.peer with retired := s.peer.retired } }
  let z := setFld JNL_STAT_HOLDING (fld s JNL_STAT_HOLDING) (setFld JNL_STAT_HELD (fld s JNL_STAT_HELD) z)
  setFeed true s.pwr.feedB (setFeed false s.pwr.feedA z)

/-- `HUB_RESET` after a reset: its counters stay (R593). -/
def hubRegs (o : State) (cause : Nat) (retained : Bool) (resets : Nat) (s : State) : State :=
  let s := setFld HUB_RESET_STRAP (fld o HUB_RESET_STRAP) (setFld HUB_RESET_POWER_UPS (fld o HUB_RESET_POWER_UPS) s)
  setFld HUB_RESET_CAUSE cause (setFld HUB_RESET_HBM_RETAINED (if retained then 1 else 0) (setFld HUB_RESET_MODULE_RESETS resets s))

/-- A logical core of an image that a reset stops: its queues and catches are empty. -/
def coreHeld (l : LCore) : LCore :=
  { l with stopped := true, qs := l.qs.map fun _ => [], waits := [], block := none, greds := [], ready := false, catches := [] }

/-- What a reset with HBM retained keeps of the image: it restarts from its latch point (R480). -/
def imageHeld (o : State) (s : State) : State := match o.img with
  | none => s
  | some i =>
    let st := { stepReset with next := o.step.next, any := o.step.any, attempt := o.step.attempt, refFrame := o.step.refFrame }
    let s := { s with img := some i, lcores := if i.level = 2 then o.lcores.map coreHeld else [] }
    if i.level = 2 ∧ stepIsOpen o then
      let s := { s with step := { st with writeSet := o.step.writeSet, abortedBelow := o.step.attempt + 1, closeF := some 0 } }
      setStepState 4 s
    else stepIdle { s with step := st }

/-- A reset that keeps HBM in self-refresh: MOD_RST_N, and the restart of a retired module (R448, R591). -/
def moduleReset (o : State) : State :=
  let o := if o.img.isSome && imgLevel o == 2 && stepIsOpen o then latchRestart o else latClear (latCancel o)
  let s := imageHeld o (resetParts (hbmOnly o.mem) o)
  let s := { s with lat := { s.lat with map := o.lat.map, dir := o.lat.dir, t1 := o.lat.t1, t1Sent := o.lat.t1Sent } }
  let s := (List.range 8).foldl (fun s d =>
    let own := o.lat.map.any fun p => dieOfGran p.1 == d && p.2.stepCopy.isSome
    latStat d (setFld (LAT_DIE_STAT_RESERVED d) (reserveOf s s.step.writeSet d)
      (setFld (LAT_DIE_COUNT_RESTORES d) (if own then 1 else 0) s))) s
  let qs := (o.host.slots.filter fun x => !x.2.running).map fun x => (x.2.q, x.2.seq)
  let adopt := match o.peer.adopting with
    | some (_, _, q, seq) => [(q, seq)]
    | none => []
  { s with host := { s.host with ready := adopt ++ o.host.ready, queries := o.host.queries ++ qs, slots := o.host.slots } }

/-! ### Replay (R473, R480, R481, R491) -/

/-- A queue as its control block has it (R480, R518, R519). What was written but not accepted is gone. -/
def queueRestore (s : State) (q : Nat) : State :=
  let r := smGet (fun _ => recEmpty) s.jnl.recs q
  match recWinner r with
  | none =>
    let s := { s with jnl := { s.jnl with own := s.jnl.own.filter fun e => e.1 / 2048 != q } }
    if r.a.isSome || r.b.isSome then report cLEAF_LOST (srcOf 8 13 0) (BitVec.ofNat 64 q) s else s
  | some l =>
    let b := l.body
    let h := bodyNat b 0x1A 1
    let s := setFld (TKT_Q_STAT_OWNER q) (bodyNat b 0 1) (setFld (TKT_Q_CFG_KIND q) (bodyNat b 1 1) (setFld (TKT_Q_STAT_STATE q) (bodyNat b 2 1) s))
    let s := setReg (setReg s (rTKT_Q_ACCEPTED q) (BitVec.ofNat 64 (bodyNat b 8 8))) (rTKT_Q_COMPLETE q) (BitVec.ofNat 64 (bodyNat b 0x10 8))
    let keep := s.jnl.own.filter fun e => e.1 / 2048 != q || decide ((tSeq e.2.t).toNat ≤ bodyNat b 8 8)
    let s := { s with jnl := { s.jnl with own := keep } }
    let top := ((jEntries s q).map fun e => ((tSeq e.2.t).toNat, e.1 % 2048)).mergeSort fun a b => b.1 ≤ a.1
    let s := modTQ q (fun x => { x with tail := h, jNext := (top.head?.map fun x => (x.2 + 1) % 2048).getD 0 }) (setFld (TKT_Q_STAT_HEAD q) h s)
    jRetain q s

/-- The controller reads every record: leaves found invalid are counted, and a record of another kind than a queue's whose leaves are both
lost takes its reset contents (R494, R519). -/
def leavesRead (s : State) : State :=
  let bad := fun (l : Option Leaf) => l.any fun x => !x.ok
  s.jnl.recs.foldl (fun s r =>
    let s := addFld JNL_COUNT_LEAF_FAILS ((if bad r.2.a then 1 else 0) + if bad r.2.b then 1 else 0) s
    if 32 ≤ r.1 ∧ (recWinner r.2).isNone then report cLEAF_LOST (srcOf 8 13 0) (BitVec.ofNat 64 r.1) s else s) s

/-- Open WORK tickets of every queue in their order of acceptance. -/
def openWork (s : State) : List (Nat × Word) :=
  let es := (List.range 32).flatMap fun q => (openTickets s q).filterMap fun e => if tKind e.t = 3 then none else some (q, e)
  (es.mergeSort fun a b =>
    let k := fun (x : Nat × JEntry) => (x.2.acceptTime.toNat * 32 + x.1) * 2 ^ 64 + (tSeq x.2.t).toNat
    k a ≤ k b).map fun x => (x.1, tSeq x.2.t)

/-- NOTICE REPLAY of every queue with open tickets. -/
def replayNotices (s : State) : State :=
  (List.range 32).foldl (fun s q => let n := (openTickets s q).length; if n = 0 then s else postNotice q 1 n s) s

/-- Records of operations that a restart ends: the tier-1 transfer (R419), the holder's staged copy (R419), and the seal (R424). -/
def recordsRestart (s : State) : State :=
  let s := if s.lat.hold.held.isSome then
      setFld LAT_PAIR_STAT_HOLDING 1 (setFld LAT_PAIR_STAT_HELD ((s.lat.hold.held.map (·.toNat)).getD 0) s) else s
  let s := if s.lat.hold.recState = 1 then stagedApply s else s
  let s := match jnlRec s 33 with
    | some b => if bodyNat b 0 1 = 0 then s
        else report cSEAL_ABANDONED (srcOf 8 13 0) 0 (addFld ARC_COUNT_ABANDONED 1 (sealRecord 0 true false s))
    | none => s
  if s.lat.t1.isSome then t1Abandon s else s

/-- A logical core after a reset: LOOP cores, and all while no step had opened, start at their ENTRY; the others wait for the repeat, or
go on where no step is open. -/
def coreRestart (s : State) (ci : Nat) : State :=
  match getL s ci with
  | none => s
  | some l =>
    if l.halted then s
    else if l.loop || !s.step.any then restartEntry ci s
    else if stepIsOpen s && l.inStep then s
    else setL ci { l with stopped := stepIsOpen s } s

/-- The image runs on after a reset that kept HBM (R480): its POSTs are written at their positions. -/
def imageRestart (s : State) : State := match s.img with
  | none => s
  | some i =>
    if i.level = 1 then imageEnd cLOAD_INTERRUPTED 0 s
    else if s.lcores.all (·.halted) then imageEnd cOK 0 s
    else
      let s := i.posts.foldl (fun s p => match p.idx, jFind s p.q p.seq with
        | some n, some (_, e) => hbmPut (i.postBase + n % max 1 i.postN * 128) (tBytes e.t) s
        | _, _ => s) s
      quadDomains ((List.range s.lcores.length).foldl coreRestart s)

/-- Tickets that had taken effect on an image that the module no longer holds. -/
def noImageTickets (retired : Bool) (s : State) : State :=
  if s.img.isSome then s
  else (openWork s).foldl (fun s x =>
    if s.host.ready.contains x then s
    else match jFind s x.1 x.2 with
      | some (_, e) => if tKind e.t = 1 then completeTicket x.1 x.2 (if retired then cMODULE_RETIRED else cLOAD_INTERRUPTED) 0 false s
          else completeTicket x.1 x.2 cNO_IMAGE 0 false s
      | none => s) s

/-- Queries that a fault of their partition had left running are released; dispatched ones wait again (R491). -/
def slotsRestart (s : State) : State :=
  let s := s.host.slots.foldl (fun s x => if x.2.running then post x.2.q (mkEnt s x.2.q x.2.seq 5 cOK 0 0 false false) s
    else match jFind s x.2.q x.2.seq with
      | some (k, e) => jWrite k { e with dispatched := false } s
      | none => s) s
  slotBusy { s with host := { s.host with slots := [] } }

/-- Replay with HBM intact. -/
def replayKept (retired : Bool) (s : State) : State := noImageTickets retired (imageRestart (slotsRestart s))

/-- Replay after HBM lost its contents (R481, R491): the WORK queues with open tickets wait for their host. -/
def replayLost (s : State) : State :=
  let s := match s.img with
    | some i => if i.level = 1 then completeLoad i cLOAD_INTERRUPTED 0 s else s
    | none => s
  let s := { s with img := none, lcores := [] }
  let s := (List.range 32).foldl (fun s q => (openTickets s q).foldl (fun s e =>
    if tKind e.t = 3 then completeTicket q (tSeq e.t) cQUERY_LOST 0 false s else s) s) s
  let w := openWork s
  let qs := (w.map (·.1)).eraseDups
  let s := { s with host := { s.host with ready := w, queries := [], slots := [] } }
  qs.foldl (fun s q => postNotice q 2 ((openTickets s q).length) (ctlBlock q (setFld (TKT_Q_STAT_STATE q) 3
    { s with host := { s.host with refill := s.host.refill ++ [q] } }))) s

/-- What follows the boot (R480): the journal is read, and its open tickets are executed again. In recovery no ticket runs. -/
def restartAfter (kept retired : Bool) (s : State) : State :=
  if s.power.recovery then s
  else
    let s := recordsRestart ((List.range 32).foldl queueRestore (leavesRead s))
    let s := { s with host := { s.host with refill := (List.range 32).filter fun q => fld s (TKT_Q_STAT_STATE q) == 3 } }
    let s := replayNotices s
    if kept then replayKept retired s else replayLost s

/-- A module that starts on one feed runs under the feed cap (R547, R550; DEDUCED, assumption 88). -/
def feedStart (s : State) : State := if s.pwr.feedA != s.pwr.feedB then feedLimit s else s

/-- From the 21 ms row of R588: boot, and what follows it. -/
def moduleStart (kept : Bool) (s : State) : State :=
  let r := s.peer.retired
  let s := { s with power := { s.power with inReset := false, pwrOk := true, cold := false, lossInReset := false },
                    peer := { s.peer with retired := false } }
  restartAfter kept r (feedStart (boot s))

/-- The power-up sequence from its 21 ms row (R588). -/
def powerSeq (s : State) : State := moduleStart false (hubRegs s (if s.power.lossInReset then 4 else 1) false (fld s HUB_RESET_MODULE_RESETS) s)

end Sys2Proof.Machine
end

