-- ==== Sys2Proof/Machine/BootRows.lean ====
section
/-! DEFINITION. Rows of power and reset (R588 to R592). -/
namespace Sys2Proof.Machine

/-- POWER_UP: the first feed reaches 40 V; while MOD_RST_N is held the sequence waits at its 21 ms row. -/
def powerUp (straps : Nat) (a b : Bool) (s : State) : State :=
  if s.power.powered || !(a || b) then s
  else
    let s := setFeed true b (setFeed false a { s with power := { s.power with powered := true, cold := true } })
    let n := bodyNat (pwrHist s) 0x22 2
    let s := jnlPut 36 (putSlice (pwrHist s) 0x22 2 (satAdd 16 n 1)) s
    let s := setFld HUB_RESET_STRAP straps (setFld HUB_RESET_POWER_UPS (satAdd 16 n 1) s)
    if s.power.inReset then s else powerSeq s

def execPowerUp (straps : BitVec 2) (feedA feedB : Bool) (s : State) : Out := .next (powerUp straps.toNat feedA feedB s)

/-- MOD_RST_N goes low. -/
def modRst (s : State) : State :=
  if s.power.inReset then s
  else if !s.power.powered then { s with power := { s.power with inReset := true } }
  else
    let r := moduleReset s
    let r := { r with power := { s.power with inReset := true, pwrOk := false }, arc := { r.arc with perst := true } }
    hubRegs s 2 true (satAdd 16 (fld s HUB_RESET_MODULE_RESETS) 1) r

def execModRstN (s : State) : Out := .next (modRst s)

/-- MOD_RST_N is released: the module restarts at the 21 ms row of its power-up. -/
def modRstRelease (s : State) : State :=
  if !s.power.inReset then s
  else if !s.power.powered then { s with power := { s.power with inReset := false } }
  else if s.power.cold then powerSeq s
  else moduleStart true s

def execModRstNRelease (s : State) : Out := .next (modRstRelease s)

/-- POWER_LOSS: everything but the stores is lost. What a level-1 image was is known from its ticket in the journal (R78). -/
def powerLoss (s : State) : State :=
  if !s.power.powered then s
  else
    let off : PowerSt := { powered := false, inReset := s.power.inReset, pwrOk := false, recovery := false, cold := false, lossInReset := s.power.inReset && !s.power.cold }
    let o := { s with pwr := { s.pwr with feedA := false, feedB := false }, lat := { s.lat with hold := latReset.hold },
                      peer := { s.peer with retired := false } }
    let r := resetParts ⟨[], []⟩ { o with host := { o.host with perst := [true, true] } }
    { r with power := off, img := if imgLevel s = 1 then s.img else none, arc := { r.arc with perst := true } }

def execPowerLoss (s : State) : Out := .next (powerLoss s)

/-- PERST: the host interface of the port is reset. -/
def execPerst (n : Fin 2) (s : State) : Out :=
  .next (let s := if live s then hostDown n s else s
    { s with host := { s.host with perst := s.host.perst.set n true } })

/-- PERST_RELEASE: not before PWR_OK is high. -/
def execPerstRelease (n : Fin 2) (s : State) : Out :=
  .next (if s.power.pwrOk then { s with host := { s.host with perst := s.host.perst.set n false } } else s)

/-- PERSTA_N_RELEASE: PWR_OK is high and PD75 on. -/
def execPerstaNRelease (s : State) : Out :=
  .next (if s.power.pwrOk && domOn s 75 then { s with arc := { s.arc with perst := false } } else s)

end Sys2Proof.Machine
end

