-- ==== Sys2Proof/Machine/Doubling.lean ====
section
/-! DEFINITION. Doubling (R88 to R92): the swap of a doubled core from one logical core to the other, and the release of a detent, at
which it can come. -/
namespace Sys2Proof.Machine

/-- A queue entry of a wait: an armed wait, its markers, or the step instructions that wait for their step (DEDUCED, assumption 45:
STEP.OPEN and STEP.COMMIT are waits of the F queue here, since a core that waits for its step could not otherwise give way to the other
logical core, on whose share the step depends). -/
def isWaitEntry (e : QE) : Bool := match e.pl with
  | .mark _ => true
  | .wait _ _ => e.started
  | .stepOpen _ _ _ _ => true
  | .stepCommit _ => e.started
  | _ => false

/-- What a wait waits for has been reached. -/
def waitOver (s : State) (l : LCore) (e : QE) : Bool := match e.pl with
  | .wait (.reach i) _ => catchReached (catchOf l i)
  | .wait (.time t) _ => timeReached s l.die t
  | _ => false

/-- The wait with issue number `n` is armed and what it waits for has been reached. -/
def waitMet (s : State) (l : LCore) (n : Nat) : Bool := (armedWaits l).any fun e => e.n == n && waitOver s l e

/-- The queues hold nothing but waits that have not been satisfied. -/
def onlyWait (s : State) (l : LCore) : Bool :=
  (l.qs.all fun es => es.all isWaitEntry) && l.greds.isEmpty && !(armedWaits l).any (waitOver s l)

/-- The running logical core stands at a swap point (R88): its sequencer is stopped at a detent or at a wait, and its queues hold
nothing but waits; or it has ended. -/
def swapPoint (s : State) (l : LCore) : Bool :=
  l.halted || match l.block with
    | some (.detent _ _ _) | some (.wait _) => onlyWait s l
    | _ => false

/-- A logical core that is swapped out is runnable (R91): it was saved at a detent, the wait at which it was saved is satisfied, or it
has not begun. -/
def runnable (s : State) (l : LCore) : Bool :=
  !l.halted && match l.block with
    | some (.wait n) => waitMet s l n
    | _ => true

/-- The other logical core of a doubled core is runnable. -/
def swapOwed (s : State) (l : LCore) : Bool :=
  s.lcores.any fun k => k.phys == l.phys && !k.resident && !k.stopped && runnable s k

/-- The live-bank mask at the swap point: that of the detent, or all 48 banks at a wait (R89). -/
def liveBanks (l : LCore) : Nat := match l.block with
  | some (.detent _ _ b) => b
  | _ => 2 ^ 48 - 1

def bankBytes : Nat := 131072

/-- Bytes that a swap moves each way (R89). -/
def swapBytesOut (l : LCore) : Nat :=
  504 + 1 + 1024 + 8 + 8 + 2048 + 262144 + bankBytes * ((List.range 48).filter (liveBanks l).testBit).length

/-- The departing logical core is saved: its save area holds what the hardware stores there, whose layout the manual does not give,
and banks that are not saved lose their contents. -/
def swapOut (l : LCore) (s : State) : State :=
  let s := forgetRange (saveArea s l.pref) (swapBytesOut l) s
  ((List.range 48).filter fun b => !(liveBanks l).testBit b).foldl (fun s b => forgetRange (winBase l + b * bankBytes) bankBytes s) s

/-- The detent at which a logical core stands is over. -/
def detentDone (l : LCore) : Bool := match l.block with
  | some (.detent mask n _) => queuesDone l mask n
  | _ => false

/-- The arriving logical core runs on from the detent at which it was saved, once that is over. -/
def swapIn (l : LCore) : LCore := { l with resident := true, block := if detentDone l then none else l.block }

/-- DETENT_RELEASE (R66, R115): what was issued before the detent in its queues has completed, and issue goes on. A doubled core at a
swap point first swaps when the other logical core is runnable (R91). -/
def detentRelease (ci : Nat) (s : State) : State :=
  match getL s ci with
  | none => s
  | some l => if coreRuns s l && detentDone l && !(swapPoint s l && swapOwed s l) then pump ci (setL ci { l with block := none } s) else s

def execDetentRelease (c : Fin 256) (s : State) : Out := .next (detentRelease c s)

/-- DOUBLING_SWAP: at a swap point the core goes on with the other logical core, when that is runnable. The save path moves through the
scratch port on the transfer side (R244). -/
def doublingSwap (p : Nat) (s : State) : State :=
  let here := (enumFrom 0 s.lcores).filter fun x => x.2.phys == p
  match here.find? (fun x => x.2.resident), here.find? (fun x => !x.2.resident && !x.2.halted) with
  | some (i, l), some (j, k) =>
    if l.stopped || k.stopped || !swapPoint s l || !runnable s k then s
    else match takePort l true s with
      | none => s
      | some s =>
        let s := if l.halted then s else swapOut l s
        pump j (modL j swapIn (modL i (fun l => { l with resident := false }) s))
  | _, _ => s

def execDoublingSwap (phys : Fin 256) (s : State) : Out := .next (doublingSwap phys s)

end Sys2Proof.Machine
end

