-- ==== Sys2Proof/Machine/FabricRows.lean ====
section
/-! DEFINITION. The rows of the fabric ports. -/
namespace Sys2Proof.Machine

def execFlitReceived (port : Fin 16) (flit : FlitBits) (cws : List Codeword) (s : State) : Out := liveNext s (flitReceived port flit cws s)

/-- RETRY_TIMEOUT (R368): 4 µs without a new ACK; everything unacknowledged is sent again. -/
def execRetryTimeout (port : Fin 16) (s : State) : Out :=
  liveNext s (let p := getPort s port
    if portUp s port && p.retry != [] && decide (p.lastAck + 4000 ≤ s.now) then
      addFld (pRetries port) 1 (setPort port { p with txNext := 0, lastAck := s.now } s)
    else s)

/-- PROGRESS_TIMEOUT (R369): 100 µs from the first flit that is not acknowledged, or the last progress since. -/
def execProgressTimeout (port : Fin 16) (s : State) : Out :=
  liveNext s (let p := getPort s port
    if portUp s port && p.retry != [] && decide (p.lastProgress + 100000 ≤ s.now) then fastStart port s else s)

/-- LANE_FAULT (R381): a lane in use. -/
def execLaneFault (port : Fin 16) (lane : Fin 8) (s : State) : Out :=
  liveNext s (if fld s (pWidth port) = 8 ∨ fld s (pGroup port) = lane.val / 4 then fastStart port s else s)

/-- What is not acknowledged is sent again after a fast retrain, an episode of R368. -/
def resendAll (n : Nat) (s : State) : State :=
  if (getPort s n).retry = [] then s else addFld (pRetries n) 1 (modPort n (fun p => { p with txNext := 0 }) s)

/-- FAST_RETRAIN_DONE (R381): TRAIN, BITTING and DELAY again, on those of the lanes in use that are good. -/
def fastDone (n : Nat) (lanes : Nat) (rs : List Bitting) (ds : List Nat) (s : State) : State :=
  if !(getPort s n).fast || !hasPort s.fuses n then s
  else match bittingAgreed rs, linkDelay (getPort s n).tries ds with
    | none, _ => s
    | some _, none => if ds.length = 16 then modPort n (fun p => { p with tries := p.tries + 1 }) s else s
    | some r, some d =>
      let w := fld s (pWidth n)
      let t := setFld (pLanes n) (lanes &&& lanesInUse s n) s
      let s := bittingAccept n r (modPort n (fun p => { p with recOut := List.replicate 8 (ownBitting t n) }) t)
      if fld s (pState n) = 7 ∨ !(getPort s n).fast then s
      else
        let s := if fld s (pWidth n) < w then report cFAB_LANE (portSrc n) 0 s else s
        portDelay n d (resendAll n s)

def execFastRetrainDone (port : Fin 16) (lanes : BitVec 8) (recs : List Bitting) (delays : List Nat) (s : State) : Out :=
  liveNext s (fastDone port lanes.toNat recs delays s)

/-- BRINGUP_STAGE_DONE (R377, R385): the port passes to the next state. -/
def stageDone (n lanes : Nat) (ds : List Nat) (s : State) : State :=
  if !hasPort s.fuses n || !fldOn s (pEnable n) || (getPort s n).fast then s
  else match fld s (pState n) with
    | 1 => portState n 2 s
    | 2 => portState n 3 (setFld (pLanes n) lanes s)
    | 3 => if fldOn s FAB_ID_VALID then
        bittingBegin n (portState n 4 (setFld (pVersion n) 0 s))
      else s
    | 4 => if fld s (pVersion n) ≠ 0 then portState n 5 s else s
    | 5 => match linkDelay (getPort s n).tries ds with
      | none => if ds.length = 16 then modPort n (fun p => { p with tries := p.tries + 1 }) s else s
      | some d => portDelay n d s
    | _ => s

def execBringupStageDone (port : Fin 16) (lanes : BitVec 8) (delays : List Nat) (s : State) : Out :=
  liveNext s (stageDone port lanes.toNat delays s)

/-- BITTING_RECORD (R378, R379): accepted as the second of two identical copies. -/
def bittingRecord (n : Nat) (r : Bitting) (s : State) : State :=
  if fld s (pState n) ≠ 4 ∨ !hasPort s.fuses n ∨ r.magic ≠ 0x4254 ∨ fld s (pVersion n) ≠ 0 then s
  else if (getPort s n).lastRec = some r then bittingAccept n r s
  else modPort n (fun p => { p with lastRec := some r }) s

def execBittingRecord (port : Fin 16) (rec : Bitting) (s : State) : Out := liveNext s (bittingRecord port rec s)

/-- Time limit of a bring-up state in ns; a fast retrain has 2 ms (R377, R381). -/
def stageLimit (s : State) (n : Nat) : Option Nat :=
  if (getPort s n).fast then some 2000000
  else match fld s (pState n) with
    | 1 => some 1000000
    | 2 => some 20000000
    | 3 => if fldOn s FAB_ID_VALID then some 1000000 else none
    | 4 => some 100000
    | 5 => some 100000
    | _ => none

def execBringupTimeout (port : Fin 16) (s : State) : Out :=
  liveNext s (match stageLimit s port with
    | some t => if (getPort s port).stateAt + t ≤ s.now then portFail port 4 none s else s
    | none => s)

def execLinkDown (port : Fin 16) (s : State) : Out := liveNext s (if portLive s port then portDown port 0 s else s)

def execFabricPacket (arrivedOn : Option (Fin 16)) (p : Packet) (s : State) : Out :=
  liveNext s (routePacket (arrivedOn.map (·.val)) p s)

/-- RETRAIN (R382, R446): at the first moment no step is open. -/
def execRetrain (port : Fin 16) (s : State) : Out :=
  liveNext s (if !hasPort s.fuses port then s
    else if stepIsOpen s then modPort port (fun p => { p with retrainReq := true, retries := 0 }) s
    else modPort port (fun p => { p with retries := 0 }) (portBringup port s))

/-- ACK_GAP_EXPIRY (R375): the held delivery acknowledgement of a flow is sent with its count. -/
def ackGap (d : Nat) (flow : Member) (cls : Nat) (s : State) : State :=
  (s.fab.ackOwed.filter fun x => x.1.die == d && x.1.src == flow && x.1.cls == cls).foldl (fun s x =>
    match s.fab.ackLast.find? fun y => y.1 == x.1 with
    | some y => if y.2 + fld s FAB_ROUTE_ACK_GAP_NS ≤ s.now then ackSend x.1 s else s
    | none => ackSend x.1 s) s

def execAckGapExpiry (d : Fin 8) (flow : Member) (cls : BitVec 2) (s : State) : Out := liveNext s (ackGap d flow cls.toNat s)

end Sys2Proof.Machine
end

