-- ==== Sys2Proof/Machine/KGRows.lean ====
section
/-! DEFINITION. The rows of the K and G queues (R104, R108, R303, R304, R336, R342, R350, R354, R355). -/
namespace Sys2Proof.Machine

def execKroute (c : Fin 256) (f : FmtD) (s : State) : Out :=
  .next (issueD c f (dspec qK 0 2 f (!ctrlZero 1 f) [f.xa] [f.dA, f.dC, f.dD]) plainD s)

/-- KSEND with DIR 0; dC is used when CLOSE is 1. -/
def execKsendDispatch (c : Fin 256) (f : FmtD) (s : State) : Out :=
  .next (issueD c f { dspec qK 1 2 f false [f.xa, f.xb] ([f.dA, f.dB] ++ if f.ctrl.getLsbD 1 then [f.dC] else []) with
    ctrl := putBits f.ctrl.toNat 0 1 0 } plainD s)

/-- KSEND with DIR 1: x[xb], dC, CLOSE and FIRST_RECORD are ignored (R350). -/
def execKsendAnswer (c : Fin 256) (f : FmtD) (s : State) : Out :=
  .next (issueD c f { dspec qK 1 2 f false [] [f.dA, f.dB] with ctrl := putBits f.ctrl.toNat 0 1 1 } plainD s)

def execKcomb (c : Fin 256) (f : FmtD) (s : State) : Out :=
  .next (issueD c f (dspec qK 2 2 f (bits f.ctrl.toNat 0 2 != 0) [f.xa] [f.dD]) plainD s)

def execKepoch (c : Fin 256) (f : FmtD) (s : State) : Out :=
  .next (issueD c f (dspec qK 3 2 f (!ctrlZero 0 f) [f.xa] []) plainD s)

/-- A packet that a KSEND of logical core `c` sent. -/
def ksendPkt (s : State) (c : Nat) (p : Packet) : Bool := p.cls == 2 && p.src == ownId s && p.tag.toNat == c

/-- A packet of a logical core has not left its die: it waits at a port of the die, or to be resolved (R342, R344). -/
def ksendLeft (s : State) (c : Nat) : Bool :=
  let die := dieOf s c
  let ports := [2 * die, 2 * die + 1].map (getPort s)
  !(ports.any (fun q => (q.txq ++ (q.cur.map (·.1)).toList).any (ksendPkt s c)) ||
    s.fab.inbound.any fun p => ksendPkt s c p && p.destDie == 14)

/-- KSEND_COMPLETE (R342): every packet has left the die, and every header written stands in HBM. -/
def execKsendComplete (c : Fin 256) (s : State) : Out :=
  .next (finishWhere c qK (fun e => startedOp 1 e && ksendLeft s c && match e.pl with
    | .ins k => !(kWrites s k).any fun w => latHolds s w.1 w.2
    | _ => false) s)

/-- The started K instruction at the head of a logical core's queue. -/
def kHead (s : State) (ci op : Nat) : Option (QE × CapD) :=
  match getL s ci with
  | none => none
  | some l => if !coreRuns s l then none else match queue l qK with
    | [] => none
    | e :: _ => match e.pl with
      | .ins c => if e.started && c.op == op then some (e, c) else none
      | _ => none

def execKcombResumes (c : Fin 256) (s : State) : Out :=
  .next (match kHead s c 2 with
    | none => s
    | some (e, k) => if kcombReady s k then pump c (kcombDo c 0 e k s) else s)

/-- KEPOCH_COMPLETE (R355): the epoch's advance stands in HBM and every record of the epoch before is drained. -/
def execKepochComplete (c : Fin 256) (s : State) : Out :=
  .next (match kHead s c 3 with
    | none => s
    | some (_, k) => if kepochDrained s k && !(kWrites s k).any (fun w => latHolds s w.1 w.2)
        then pump c (modL c (dropEntry qK 0) s) else s)

def execGred (c : Fin 256) (f : FmtD) (s : State) : Out :=
  .next (issueD c f (dspec qG 0 2 f false [f.xa, f.xb] [f.dA, f.dD]) plainD s)

def execGallg (c : Fin 256) (f : FmtD) (s : State) : Out :=
  .next (issueD c f (dspec qG 1 1 f (!ctrlZero 0 f) [f.xb] [f.dA, f.dD]) plainD s)

def execGbcast (c : Fin 256) (f : FmtD) (s : State) : Out :=
  .next (issueD c f (dspec qG 2 1 f (!ctrlZero 0 f) [f.xa, f.xb] [f.dA]) plainD s)

/-- The G operation at the head of a logical core's queue whose launch time is reached (R47, R108). -/
def launchDue (s : State) (ci : Nat) : Option (LCore × QE × CapD) :=
  match getL s ci with
  | none => none
  | some l => if !coreRuns s l then none else match queue l qG with
    | [] => none
    | e :: _ => match e.pl with
      | .ins c => if e.checked && !e.started && timeReached s l.die c.xb then some (l, e, c) else none
      | _ => none

def collectiveLaunch (ci : Nat) (s : State) : State :=
  match launchDue s ci with
  | none => s
  | some (l, e, c) => match gStart ci l e c s with
    | none => s
    | some s => pump ci s

/-! ### The end of a GRED (R304, R305) -/

/-- Every packet of a share has its result, and no write of one is held by the latch. -/
def shareDone (s : State) (h : Share) : Bool :=
  (List.range (sharePackets h.dA)).all (fun i => h.done.contains (h.first + i)) &&
  (let e := extent h.dD; !(decide (0 < e.2) && latHolds s e.1 e.2))

/-- The oldest GRED of a logical core whose share is reduced. -/
def gredReady (s : State) (ci : Nat) (l : LCore) : Option (GredOut × Bucket × Share) :=
  l.greds.findSome? fun g => match getBucket s g.bucket with
    | none => none
    | some b => (b.launched.find? fun h => h.n == g.n && h.lcore == ci && shareDone s h).map fun h => (g, b, h)

/-- BUCKET_DONE (R304): the status word is written and the catch signalled once every share of a bucket is complete. -/
def bucketDone (id : BitVec 32) (s : State) : State :=
  match getBucket s id with
  | none => s
  | some b =>
    if b.done || b.failed || !bucketLaunched b || b.launched.any (fun h => !h.complete) then s
    else
      let s := modBucket id (fun b => { b with done := true }) s
      let s := if b.statusAddr = 0 then s
        else memPut b.statusAddr (leBytes 8 (1 + (if b.nonfinite then 2 else 0) + 256 * (s.step.attempt % 256))) s
      catchAdd (cwLcore b.catchWord) (cwIndex b.catchWord) 1 s

def execGredComplete (c : Fin 256) (s : State) : Out :=
  .next (match getL s c with
    | none => s
    | some l => match gredReady s c l with
      | none => s
      | some (g, b, h) =>
        let s := modShare b.id h.n h.lcore (fun h => { h with complete := true }) s
        let s := setL c { l with greds := l.greds.filter fun x => x != g } s
        pump c (bucketDone b.id s))

end Sys2Proof.Machine
end

