-- ==== Sys2Proof/Machine/FrameRows.lean ====
section
/-! DEFINITION. Rows of the frame unit (R33 to R52): boundaries, edges, packets, the correction window, and the events that fire at
lock. -/
namespace Sys2Proof.Machine

/-! ### Events held until lock (R47, R48, R51) -/

/-- An event held until the frame unit locks (R47). -/
inductive HeldAct where
  | commit | repeatOpens
  | close (f : Nat)
  | cut (r : CutReq)
  | launch (ci n : Nat)
  | wait (ci n : Nat)
  | window (w : Nat)
  | query (q : Nat) (seq : Word)
  | deadline (id : BitVec 32)
  deriving DecidableEq, Repr

/-- A held event with its system time and its class of R51. -/
structure Held where
  time : Nat
  cls : Nat
  act : HeldAct
  deriving DecidableEq, Repr

/-- Whether the event is still to come. -/
def heldDue (s : State) : HeldAct → Bool
  | .commit => commitReady s
  | .repeatOpens => (repeatDue s).isSome && stepState s == 4
  | .close f => actsRoot s && s.step.closeF == some f
  | .cut r => s.lat.cuts.contains r
  | .launch ci n => (launchDue s ci).any fun x => x.2.1.n == n && (gStart ci x.1 x.2.1 x.2.2 s).isSome
  | .wait ci n => (getL s ci).any fun l => coreRuns s l && (reachedTimes s l).any fun x => x.n == n
  | .window w => inWindow s w && !s.host.winOpen.contains w
  | .query q seq => (jFind s q seq).any fun x => tktLate s x.2.t && x.2.state == 1
  | .deadline id => stepState s == 1 && (getBucket s id).any fun b => !b.done && !b.reported

/-- What the event does. A cut of the commit's boundary, which the commit takes with it, is counted too. -/
def heldFire (a : HeldAct) (s : State) : State :=
  match a with
  | .commit => let t := commitDo s; addFld FRM_COUNT_LATE_EVENTS (s.lat.cuts.length - t.lat.cuts.length) t
  | .repeatOpens => match repeatDue s with
    | some (a, f) => repeatOpen a f false s
    | none => s
  | .close _ => collectionClose s
  | .cut r => takeCut r s
  | .launch ci _ => collectiveLaunch ci s
  | .wait ci n => fwaitEnd ci n s
  | .window w => windowOpen w s
  | .query q seq => queryExpiry q seq s
  | .deadline id => contributionDeadline id s

/-- Commit boundary, repeat open, collection close and cuts. -/
def heldSteps (s : State) : List Held :=
  (match s.step.commitF with
   | some (_, f) => [⟨f * 65536, 2, .commit⟩]
   | none => []) ++
  (match s.step.repeatF with
   | some (_, f, false) => [⟨f * 65536, 2, .repeatOpens⟩]
   | _ => []) ++
  (match s.step.closeF with
   | some f => [⟨f * 65536, 2, .close f⟩]
   | none => []) ++
  s.lat.cuts.map fun r => ⟨r.frame * 65536, 3, .cut r⟩

/-- Collective launches and F-queue waits of a logical core. -/
def heldCore (s : State) (ci : Nat) : List Held := match getL s ci with
  | none => []
  | some l =>
    (match queue l qG with
     | e :: _ => match e.pl with
       | .ins c => [⟨c.xb.toNat, 4, .launch ci e.n⟩]
       | _ => []
     | [] => []) ++
    (armedWaits l).filterMap fun e => match e.pl with
      | .wait (.time t) _ => some ⟨t.toNat, 4, .wait ci e.n⟩
      | _ => none

/-- Windows of the loop service, query deadlines and contribution deadlines. -/
def heldRest (s : State) : List Held :=
  ((List.range 4).map fun w => ⟨s.frame.f * 65536 + fld s (TKT_LOOP_WIN_OPEN w), 5, .window w⟩) ++
  ((List.range 32).flatMap fun q => ((openTickets s q).filter fun e => tKind e.t == 3).map fun e =>
    ⟨(tDeadline e.t).toNat, 6, .query q (tSeq e.t)⟩) ++
  s.step.buckets.map fun b => ⟨(s.step.refFrame + b.deadline) * 65536, 6, .deadline b.id⟩

/-- System time at which an event falls due: a deadline expires when system time first exceeds it (R52). -/
def Held.due (h : Held) : Nat := if h.cls = 6 then h.time + 1 else h.time

def heldAll (s : State) : List Held := heldSteps s ++ (List.range s.lcores.length).flatMap (heldCore s) ++ heldRest s

/-- Events whose time is already past at lock, in order of system time and class. -/
def heldEvents (s : State) : List Held :=
  let now := (sysTime s).toNat
  ((heldAll s).filter fun h => decide (h.time < now)).mergeSort fun a b => a.due * 8 + a.cls ≤ b.due * 8 + b.cls

/-- An event of class `cls` that falls due at `due` takes effect after every event of a lower class that is due no later (R51). -/
def inTurn (s : State) (cls due : Nat) : Bool :=
  !isLocked s || (heldAll s).all fun h => !(decide (h.cls < cls ∧ h.due ≤ due) && decide (h.due ≤ (sysTime s).toNat) && heldDue s h.act)

/-- They fire at once; each is counted. -/
def fireHeld (s : State) : State :=
  (heldEvents s).foldl (fun s h => if heldDue s h.act then heldFire h.act (addFld FRM_COUNT_LATE_EVENTS 1 s) else s) s

/-- The held events fire when the unit has locked. -/
def lockFire (before : Nat) (s : State) : State := if before < 2 ∧ 2 ≤ fState s then fireHeld s else s

/-! ### Rows -/

/-- SNAPSHOT_CUT: a cut after a commit at the same boundary (R51, R58). -/
def execSnapshotCut (s : State) : Out :=
  liveNext s (match cutDue s with
    | some r => if inTurn s 3 (r.frame * 65536) then takeCut r s else s
    | none => s)

/-- COLLECTIVE_LAUNCH, after the commits and cuts of its time. -/
def execCollectiveLaunch (c : Fin 256) (s : State) : Out :=
  .next (match launchDue s c with
    | some (_, _, d) => if inTurn s 4 d.xb.toNat then collectiveLaunch c s else s
    | none => s)

/-- FWAIT_FIRES: the FWAIT that is due first (R123). -/
def fwaitFires (ci : Nat) (s : State) : State :=
  match (getL s ci).bind (firedWait s) with
  | some e => if inTurn s 4 (waitTime e) then fwaitEnd ci e.n s else s
  | none => s

def execFwaitFires (c : Fin 256) (s : State) : Out := .next (fwaitFires c s)

def execLoopWindowOpen (w : Fin 4) (s : State) : Out :=
  liveNext s (if inTurn s 5 (s.frame.f * 65536 + fld s (TKT_LOOP_WIN_OPEN w)) then windowOpen w s else s)

/-- LOOP_WINDOW_CLOSE: what was dispatched runs on. Without lock the windows are closed (R47). -/
def execLoopWindowClose (w : Fin 4) (s : State) : Out :=
  liveNext s (if s.host.winOpen.contains w.val && (!isLocked s || !inWindow s w) && inTurn s 5 (sysTime s).toNat then
    { s with host := { s.host with winOpen := s.host.winOpen.filter (· != w.val) } }
  else s)

def execQueryDeadlineExpiry (q : Fin 32) (seq : Word) (s : State) : Out :=
  liveNext s (match jFind s q seq with
    | some (_, e) => if inTurn s 6 ((tDeadline e.t).toNat + 1) then queryExpiry q seq s else s
    | none => s)

def execContributionDeadline (bucket : BitVec 32) (s : State) : Out :=
  liveNext s (if inTurn s 6 (match getBucket s bucket with
    | some b => (s.step.refFrame + b.deadline) * 65536 + 1
    | none => (sysTime s).toNat) then contributionDeadline bucket s else s)

def execFrameBoundary (s : State) : Out := liveNext s (lockFire (fState s) (frameBoundary s))
def execCorrectionWindowClose (s : State) : Out := liveNext s (windowClose s)

/-- FRAME_IN_EDGE: a rising edge at time `e`, at an enabled ROOT or PULSE module. -/
def frameInEdge (e : Nat) (s : State) : State :=
  if !fEnabled s || fRole s == 0 then s else lockFire (fState s) (frameEstimate e e none s)

def execFrameInEdge (e : Nat) (s : State) : Out := liveNext s (frameInEdge e s)

/-- The number of a frame packet at a PULSE module, which takes its boundaries from the edges (R35, R44, R46). -/
def pulseNumber (num : Nat) (s : State) : State :=
  -- a packet that comes shortly before the own boundary bears the number of the frame to come
  let n := if 65536 - 4096 ≤ phaseNow s then (num + 2 ^ 48 - 1) % 2 ^ 48 else num
  if 2 ≤ fState s then (if n = s.frame.f then s else frameLoss 2 cFRAME_SLIP s)
  else if fState s = 1 then
    modFrame (fun f => { f with good := if f.sysF.all (· == n) then f.good else 0, sysF := some n }) s
  else s

/-- FRAME_PACKET at a FOLLOW or PULSE module: the sender is noted, and the parent's packet corrects the unit. A sender keeps the hop
count of its last packet until its port goes down, also when its packets stop or it loses its lock: R35 gives no age at which a sender
counts no more (DESIGN CHOICE, assumption 53). -/
def framePacket (n : Nat) (p : FramePkt) (s : State) : State :=
  if !fEnabled s || fRole s == 2 || !portUp s n || !(fld s FRM_CTRL_PARENT_MASK).testBit n || fld s (pVersion n) < 2 ||
      !p.locked || 8 ≤ p.hops then s
  else
    let s := modFrame (fun f => { f with senders := smPut f.senders n p.hops, parent := bestSender (smPut f.senders n p.hops) }) s
    if s.frame.parent ≠ some n then s
    else
      let s := setFld FRM_STAT_PARENT_PORT n s
      if fRole s = 1 then pulseNumber p.frame.toNat s
      else
        let e := p.arrival - p.emit - fld s (pDelay n)
        lockFire (fState s) (frameEstimate e p.arrival (some p.frame.toNat) (setFld FRM_STAT_HOPS (p.hops + 1) s))

/-- It is taken off the packets delivered here, if it came in one. -/
def frameTake (p : FramePkt) (s : State) : State :=
  (takeInbound (fun k => match k.body with | .frame f => f.frame == p.frame | _ => false) s).2

def execFramePacket (port : Fin 16) (p : FramePkt) (s : State) : Out := liveNext s (framePacket port p (frameTake p s))

end Sys2Proof.Machine
end

