-- ==== Sys2Proof/Machine/KprOps.lean ====
section
/-! DEFINITION. The Keeper (R276, R437, R447, R448, R496 to R506, R514 to R516, R527, R568, R569, R571): commands, step lists, the tick,
and its restart. -/
namespace Sys2Proof.Machine

/-! ### Live swap (R514 to R516) -/

/-- A swap is a step list of its own operation; one exists at a time. -/
def hasSwap (s : State) : Bool := hasList s .swapMicro || hasList s .swapPort || hasList s .swapUncore

/-- R564 and R514 on a bundle for a swap of one kind of component. -/
def swapCode (s : State) (kind : Nat) (b : Bundle) : Code :=
  let c := if b.verdict = 0 ∧ !(b.comps.all fun x => x.1 == kind) then cSEC_FORMAT else bundleCode (svnFloor s) b
  if c ≠ 0 then c
  else if b.version / 65536 ≠ bits (getReg s rKPR_VERSION).toNat 16 16 then cSWAP_VERSION else 0

/-- The bundle of a command: outside present HBM none is there. -/
def bundleIn (s : State) (a n : Nat) : Option Bundle := if hbmRange s.fuses a (max n 512) then some (bundleAt s.fuses s.mem a n) else none

/-- The component kind, bundle bytes, and parts of a swap: all cores, the ports or the dies of ARG1. -/
def swapKind (op : ListOp) : Nat := match op with
  | .swapMicro => 2
  | .swapPort => 3
  | _ => 4
def swapBytes (s : State) (op : ListOp) (a0 a1 : Nat) : Nat := match op with
  | .swapMicro => a1
  | _ => s.mem.readN (a0 + 0x10) 8
def swapParts (s : State) (op : ListOp) (a1 : Nat) : List Nat := match op with
  | .swapMicro => [0]
  | .swapPort => (List.range 16).filter fun n => a1.testBit n && hasPort s.fuses n
  | _ => (List.range 8).filter a1.testBit

/-- A swap ends with a status. -/
def swapEnd (l : StepList) (status : Code) (s : State) : State :=
  let s := setFld KPR_SWAP_STAT_KIND 0 (setFld KPR_SWAP_STAT_ACTIVE 0 (setFld KPR_SWAP_STAT_LAST_STATUS status.toNat s))
  let s := listEnd l.op s
  match l.port with
  | some (n, _) => cmdDone n status s
  | none => s

/-- Starts a swap, or ends its command with the code of a check. -/
def swapStart (op : ListOp) (n : Nat) (tag : BitVec 8) (s : State) : State :=
  let a0 := getReg s (rKPR_CMD_ARG0 n)
  let a1 := getReg s (rKPR_CMD_ARG1 n)
  if hasSwap s then cmdDone n cKPR_BUSY s
  else
    let c := match bundleIn s a0.toNat (swapBytes s op a0.toNat a1.toNat) with
      | some b => swapCode s (swapKind op) b
      | none => cSEC_FORMAT
    if c ≠ 0 then
      cmdDone n c (setFld KPR_SWAP_STAT_LAST_STATUS c.toNat (if c = cSWAP_VERSION then s else secCode c s))
    else
      let k := max 1 (swapParts s op a1.toNat).length
      listStart op 1 k (some (n, tag)) a0 a1 (setFld KPR_SWAP_STAT_KIND (swapKind op - 1) (setFld KPR_SWAP_STAT_ACTIVE 1 s))

/-- A swap has replaced its last part: the measurement and its log entry change in one action (R574). -/
def swapDone (l : StepList) (s : State) : State :=
  let k := swapKind l.op
  let h := match bundleIn s l.arg0.toNat (swapBytes s l.op l.arg0.toNat l.arg1.toNat) with
    | some b => compHash b k
    | none => List.replicate 32 0
  let mask := (swapParts s l.op l.arg1.toNat).foldl (fun v p => v + 2 ^ p) 0
  let s := { s with sec := { s.sec with meas := s.sec.meas.set (k - 1) h } }
  let s := logAppend 2 k (if k = 2 then 0 else BitVec.ofNat 64 mask) h s
  swapEnd l cOK (addFld KPR_SWAP_STAT_SWAPS 1 s)

/-- A part whose previous firmware fails too: a core is fenced, a port goes to FAILED, and a die's uncore has a hardware fault (R516). -/
def swapBroken (op : ListOp) (p : Nat) (s : State) : State := match op with
  | .swapMicro => coreFault p cCORE_HW 0 0 s
  | .swapPort => if portLive s p then portDown p 7 s else portState p 7 s
  | _ => uncoreFault p 13 0 cUNCORE_HW s

/-- One part of a swap: one that fails its self-check gets its previous firmware back. `bad` is the part whose previous firmware fails
too. -/
def swapStep (l : StepList) (ok : Bool) (bad : Option Nat) (s : State) : State :=
  let s := if !ok then
      let s := swapEnd l cSWAP_FAILED (report cSWAP_FAILED (srcOf 8 13 0) (BitVec.ofNat 64 (swapKind l.op - 1)) s)
      match bad with
      | some p => if l.op = .swapMicro ∨ p ∈ swapParts s l.op l.arg1.toNat then swapBroken l.op p s else s
      | none => s
    else if l.done + 1 ≥ l.left then swapDone l s
    else s
  if hasSwap s then s else pumpAll (openGap s)

/-! ### Boot images and keys (R568, R569, R571) -/

def stagedReg (s : State) : State := setFld SEC_STAT_STAGED (if s.sec.staged.isSome then 1 else 0) s

/-- What FW_STAGE finds: the bundle's header hash is kept when it is valid. -/
def fwStaged (a n : Nat) (s : State) : Code × State := match bundleIn s a n with
  | none => (cSEC_FORMAT, s)
  | some b =>
    let c := bootCode (svnFloor s) b
    (c, if c = 0 then stagedReg { s with sec := { s.sec with staged := some (b.header, a, n) } } else s)

/-- The slot that the winning leaf does not name. -/
def otherSlot (s : State) : Nat := match selWinner s.sec with
  | some (w, _) => 1 - w.slot
  | none => 0

def slotErase (k : Nat) (s : State) : State := { s with sec := { s.sec with bundles := smErase s.sec.bundles k } }

/-- The end of FW_WRITE: the bundle is read back and checked, and the other leaf names its slot. -/
def fwWritten (s : State) : Code × State := match s.sec.staged with
  | none => (cSEC_HASH, s)
  | some (h, a, n) => match bundleIn s a n with
    | none => (cSEC_HASH, s)
    | some b =>
      if b.header ≠ h ∨ bootCode (svnFloor s) b ≠ 0 then (cSEC_HASH, s)
      else
        let k := otherSlot s
        let s := { s with sec := { s.sec with bundles := smPut s.sec.bundles k b } }
        (cOK, addFld SEC_COUNT_FLASH_WRITES 1 (selWrite k b.header s))

/-- FW_SELECT of a slot. -/
def fwSelected (k : Nat) (s : State) : Code × State := match smFind s.sec.bundles k with
  | none => (cSEC_FORMAT, s)
  | some b =>
    let c := bootCode (svnFloor s) b
    (c, if c = 0 then selWrite k b.header s else s)

/-- The new alias key is in force with its certificate. -/
def keyDone (s : State) : State :=
  let s := addFld SEC_COUNT_KEYGENS 1 { s with sec := { s.sec with akMeas := s.sec.meas } }
  logAppend 4 0 0 (sha256 (ecPub (aliasKey s))) s

/-- SVN_COMMIT: the floor rises to the SVN of the running bundle. -/
def svnCommit (s : State) : State := match s.sec.running with
  | none => s
  | some b =>
    let f := max (svnFloor s) b.svn
    setFld SEC_SVN_FLOOR f (jnlPut 38 (leBytes 4 f) s)

/-- A boot or key command ends: its list goes, a flash error is recorded, and its status is kept. -/
def secEnd (l : StepList) (r : Code × State) : State :=
  let s := listEnd l.op r.2
  let s := if r.1 = cFLASH_IO then report cFLASH_IO (srcOf 8 15 0) 0 s else s
  match l.port with
  | some (n, _) => cmdDone n r.1 (secCode r.1 s)
  | none => s

/-- A step of a boot or key list. -/
def secStep (l : StepList) (ok : Bool) (s : State) : State :=
  let last := l.done + 1 ≥ l.left
  match l.op with
  | .fwStage => if last then secEnd l (fwStaged l.arg0.toNat l.arg1.toNat s) else s
  | .fwWrite => if !ok then secEnd l (cFLASH_IO, s) else if last then secEnd l (fwWritten s) else s
  | .fwSelect => if !ok then secEnd l (cFLASH_IO, s) else secEnd l (fwSelected (l.arg0.toNat % 2) s)
  | .keygen => if aliasOk (aliasRound (measDigest s.sec.meas s) l.done) then secEnd l (cOK, keyDone s) else s
  | _ => s

def ceilSteps (n unit : Nat) : Nat := max 1 ((n + unit - 1) / unit)

/-- Starts one of the lists of R569; FW_WRITE and FW_SELECT exclude each other (R503). -/
def secStart (op : ListOp) (n : Nat) (tag : BitVec 8) (s : State) : State :=
  let a0 := getReg s (rKPR_CMD_ARG0 n)
  let a1 := getReg s (rKPR_CMD_ARG1 n)
  let both := (op == .fwWrite || op == .fwSelect) && (hasList s .fwWrite || hasList s .fwSelect)
  if hasList s op || both then cmdDone n cKPR_BUSY s
  else
    let go := fun k s => listStart op 4 k (some (n, tag)) a0 a1 s
    match op with
    | .fwStage => go (ceilSteps a1.toNat 0x100000) s
    | .fwWrite => match s.sec.staged with
      | some (_, _, m) => go (ceilSteps m 0x40000) (slotErase (otherSlot s) s)
      | none => cmdFree n s
    | _ => go 1 s

/-! ### Scrubbing (R276, R503) -/

/-- Steps of a pass: 32 MiB of each stack at a time. -/
def scrubSteps : Nat := 4096
def scrubStart (dies : Nat) (s : State) : State :=
  listStart .scrub 3 scrubSteps none (BitVec.ofNat 64 dies) 0 { s with kpr := { s.kpr with
    scrubTicks := (enumFrom 0 s.kpr.scrubTicks).map fun p => if dies.testBit p.1 then tickNow s else p.2 } }

def scrubDone (dies : Nat) (s : State) : State :=
  ((List.range 32).filter fun j => hasStack s.fuses j && dies.testBit (j / 4)).foldl (fun s j =>
    addFld (MEM_STACK_SCRUB_SCRUB_PASSES (j / 4) (j % 4)) 1 s) s

/-- Ticks in an hour, rounded up. -/
def hourTicks : Nat := 13732911

/-- The pass that `SCRUB_EN` of a die calls for, every `SCRUB_HOURS` hours. -/
def scrubAuto (s : State) : State :=
  let due := (List.range 8).filter fun d =>
    fldOn s (MEM_CTRL_SCRUB_EN d) && decide (s.kpr.scrubTicks.getD d 0 + fld s (MEM_CTRL_SCRUB_HOURS d) * hourTicks ≤ tickNow s)
  if hasList s .scrub || due = [] then s else scrubStart (due.foldl (fun v d => v + 2 ^ d) 0) s

/-! ### Commands (R504, R505) -/

/-- RESTART on a retired module (R448): every part but HBM and the stores is reset, and the module starts again. -/
def restart (n : Nat) (s : State) : State :=
  if !s.peer.retired then cmdDone n cKPR_NOT_RETIRED s
  else
    let r := moduleReset s
    let r := { r with arc := { r.arc with perst := true } }
    moduleStart true (hubRegs s 3 true (fld s HUB_RESET_MODULE_RESETS) r)

/-- A command code of R505 and R569. -/
def cmdKnown (c : Nat) : Bool :=
  [1, 2, 3, 4, 0x10, 0x11, 0x12, 0x20, 0x30, 0x31, 0x32, 0x33, 0x34].contains c

/-- The Keeper takes a command. -/
def cmdRun (s : State) (k : KCmd) : State :=
  let n := k.port
  match k.cmd.toNat with
  | 0x01 => csOpen n s
  | 0x02 => csCommit n k.tag s
  | 0x03 => csAbandon n s
  | 0x04 => restart n s
  | 0x10 => swapStart .swapMicro n k.tag s
  | 0x11 => swapStart .swapPort n k.tag s
  | 0x12 => swapStart .swapUncore n k.tag s
  | 0x20 => if hasList s .scrub then cmdDone n cKPR_BUSY s else cmdDone n cOK (scrubStart 255 s)
  | 0x30 => secStart .fwStage n k.tag s
  | 0x31 => secStart .fwWrite n k.tag s
  | 0x32 => secStart .fwSelect n k.tag s
  | 0x33 => secStart .keygen n k.tag s
  | 0x34 => cmdDone n cOK (svnCommit s)
  | _ => cmdDone n cKPR_CMD_UNDEF s

/-- The recovery service in ROM takes FW_STAGE and FW_WRITE (R567). -/
def romRun (n : Nat) (write : Bool) (s : State) : State :=
  if write then
    if s.sec.staged.isNone then cmdFree n s
    else
      let (c, t) := fwWritten (slotErase (otherSlot s) s)
      cmdDone n c (secCode c t)
  else
    let (c, t) := fwStaged (getReg s (rKPR_CMD_ARG0 n)).toNat (getReg s (rKPR_CMD_ARG1 n)).toNat s
    cmdDone n c (secCode c t)

/-- A write to `KPR_CMD_Hn`: dropped while a command runs; held while the Keeper does not run (R501, R590). In
recovery FW_STAGE and FW_WRITE alone are served (R567). -/
def cmdRow (n c : Nat) (tag : BitVec 8) (s : State) : State :=
  if !hostOn s n then s
  else if s.power.recovery && c != 0x30 && c != 0x31 then s
  else if fldOn s (KPR_CMD_STAT_BUSY n) then setFld (KPR_CMD_STAT_OVERRUN n) 1 s
  else
    let s := setFld (KPR_CMD_STAT_BUSY n) 1 (setFld (KPR_CMD_STAT_TAG n) tag.toNat s)
    let k : KCmd := ⟨n, BitVec.ofNat 8 c, tag⟩
    if s.power.recovery then romRun n (c == 0x31) s
    else if s.kpr.up then cmdRun s k
    else { s with kpr := { s.kpr with cmds := s.kpr.cmds ++ [k] } }

/-- Commands that waited for the Keeper. -/
def cmdsHeld (s : State) : State :=
  let ks := s.kpr.cmds
  ks.foldl cmdRun { s with kpr := { s.kpr with cmds := [] } }

/-! ### Step lists (R502, R503) -/

/-- A list can take a step: it waits for no hardware and for no moment without a step. -/
def listReady (s : State) (l : StepList) : Bool := match l.op with
  | .adoption | .tier1 => false
  | .quad _ => (s.kpr.lists.find? fun x => match x.op with | .quad _ => true | _ => false) == some l
  | .tier2 => sealReady s
  | .scrub => fldOn s KPR_POLICY_MAINT
  | .swapMicro | .swapUncore => !stepIsOpen s || imgLevel s != 2
  | _ => true

/-- The ready list with the lowest class, the one that has waited longest of them. -/
def listPick (s : State) : Option StepList :=
  let r := s.kpr.lists.filter (listReady s)
  let c := r.foldl (fun c l => min c l.cls) 8
  r.find? fun l => l.cls == c

/-- The list has taken a step and stands behind the others of its class; a quad check keeps its place before those that wait. -/
def listTurn (l : StepList) (s : State) : State :=
  let l' := { l with done := l.done + 1 }
  if !s.kpr.lists.contains l then s
  else match l.op with
    | .quad _ => { s with kpr := { s.kpr with lists := s.kpr.lists.map fun x => if x = l then l' else x } }
    | _ => { s with kpr := { s.kpr with lists := s.kpr.lists.filter (· != l) ++ [l'] } }

/-- What one step of a list does. -/
def listStep (l : StepList) (ok : Bool) (bad : Option Nat) (s : State) : State := match l.op with
  | .quad p =>
    let s := quadStep p l.done ok s
    if l.done + 1 ≥ l.left then quadDone p s else s
  | .tier2 => sealStep s
  | .scrub => if l.done + 1 ≥ l.left then listEnd .scrub (scrubDone l.arg0.toNat s) else s
  | .swapMicro | .swapPort | .swapUncore => swapStep l ok bad s
  | .adoption | .tier1 => s
  | _ => secStep l ok s

/-- The step of a tick. -/
def listTick (ok : Bool) (bad : Option Nat) (s : State) : State := match listPick s with
  | some l => listTurn l (listStep l ok bad s)
  | none => s

/-! ### The tick (R447, R448, R498, R499, R527) -/

/-- Messages put off to the tick boundary are sent (R527). -/
def errTick (s : State) : State :=
  let nf := s.err.pendNf
  let f := s.err.pendF
  let s := { s with err := { s.err with sentNf := nf, sentF := f, pendNf := [], pendF := [] } }
  errPendReg (f.foldl (fun s c => errSend true c s) (nf.foldl (fun s c => errSend false c s) s))

/-- Heartbeats, and the start of the watch over modules not yet heard (R447). -/
def beatTick (s : State) : State :=
  if s.peer.retired then s
  else
    let ts := beatTargets s
    let s := if ts = [] then { s with peer := { s.peer with ackTick := tickNow s } } else s
    let watch := (s.lat.hold.held.toList ++ if actsRoot s then treeOf s else []).filter (· != ownId s)
    let s := watch.foldl (fun s m =>
      if (smFind s.peer.beats m.toNat).isSome then s else { s with peer := { s.peer with beats := smPut s.peer.beats m.toNat (tickNow s) } }) s
    let s := if (List.range 16).any (portUp s) then { s with peer := { s.peer with downSince := some (tickNow s) } } else s
    ts.foldl (fun s m => sendCtl m (.heartbeat (ownId s)) s) s

/-- Cores that stopped while the Keeper did not run, and cores over their corrected-error limit (R434, R498, R501). -/
def fenceTick (s : State) : State :=
  let stopped := (s.pcores.filter fun p => p.2.hwStopped && !p.2.fenced).map (·.1)
  let s := stopped.foldl (fun s p => fenceCore p s) s
  let lim := fld s KPR_POLICY_CE_LIMIT
  let worn := if lim = 0 then [] else (s.kpr.ces.filter fun c =>
    decide (lim < c.2.length) && !(getP s c.1).fenced && !s.kpr.fenceAtCommit.contains c.1).map (·.1)
  let s := { s with kpr := { s.kpr with fenceAtCommit := s.kpr.fenceAtCommit ++ worn } }
  if stepIsOpen s || s.img.isSome then s else ceFence s

/-- FEED_ID words, read at the first tick and every 1,024 ticks (R584). -/
def idTick (i : TickIn) (s : State) : State :=
  if tickNow s = 1 ∨ tickNow s % 1024 = 0 then feedRead true i.feedIdB (feedRead false i.feedIdA s) else s

/-- A message about a pairing: a request for the feed codes is answered, an answer that no change set waits for is dropped, and the
notices that a pairing is in force or has ended take effect (R416; assumptions 13 and 81). -/
def idsHandle (p : Packet) (s : State) : State :=
  let t := takePacket p s
  if p.tag.toNat = 0 then sendIds idsAnswer p.src t
  else if p.tag.toNat = pairOn then holdBegin p.src t
  else if p.tag.toNat = pairOff then holdEnd p.src t
  else if (pairSet s).map pairMember = some p.src then s else t

/-- The Keeper handles the messages about pairings that have come, each in the order of its flow (R374). -/
def idsTick (s : State) : State :=
  (s.fab.inbound.filter fun p => match p.body with
    | .control (.feedIds _ _) => true
    | _ => false).foldl (fun s p => inFlow p s (idsHandle p s)) s

/-- Draw readings (R546). -/
def drawTick (i : TickIn) (s : State) : State :=
  (List.range 8).foldl (fun s d => setFld (PWR_DIE_STAT_DRAW_10W d) (min (i.dieDraw.getD d 0 / 10) 255) s) (setFld PWR_STAT_DRAW_W (min i.drawW 65535) s)

/-- The policy pass of a tick (R499, R534 to R557). -/
def policyTick (i : TickIn) (s : State) : State :=
  let s := refTick i.refPpm (thermalTick i s)
  let s := (List.range 8).foldl (meterDie i.mhz) (drawTick i s)
  let s := if coasting s then coastHold s else s
  beatTick (policyPass i.drawW (feedTick (feedTick s false) true))

/-- A tick boundary of the local timebase, counted by the hub. -/
def tickBegin (s : State) : State :=
  let t := s.kpr.tickStart + 262144
  let s := { s with now := max s.now t, kpr := { s.kpr with tickStart := max s.now t } }
  errTick (setFld KPR_STAT_TICK (tickNow s + 1) s)

/-- An error of the journal store that cannot be corrected: a fatal record, and a record leaf there is invalid (R495; DESIGN CHOICE,
assumption 84). -/
def jnlBad (s : State) (off : Nat) : State :=
  let k := off / 0x400
  let r := smGet (fun _ => recEmpty) s.jnl.recs k
  let lost := fun (l : Option Leaf) => some { l.getD ⟨0, [], false⟩ with ok := false }
  let r := if off % 0x400 < 0x200 then { r with a := lost r.a } else { r with b := lost r.b }
  let s := if off < 0x100000 then { s with jnl := { s.jnl with recs := smPut s.jnl.recs k r } } else s
  report cJNL_HW (srcOf 8 12 0) (BitVec.ofNat 64 off) s

/-- Errors of the journal store (R494, R495). -/
def jnlErrors (i : TickIn) (s : State) : State := i.jnlBad.foldl jnlBad (addFld JNL_COUNT_CORRECTED i.jnlCorrected s)

/-- KEEPER_TICK (R499). -/
def keeperTick (i : TickIn) (s : State) : State :=
  let s := jnlErrors i (tickBegin s)
  if !s.kpr.up then s
  else
    let s := stacksOut <| fenceTick (policyTick i (idTick i (setFld JNL_STAT_READY 1 s)))
    let s := t1Tick (arcRetrain (listTick i.stepOk (i.prevBad.map (·.val)) (scrubAuto s)))
    dispatch (portsOwed (idsTick (cmdsHeld s)))

/-! ### Lockstep (R501) -/

/-- KPR_LOCKSTEP: both Keeper cores stop; a second mismatch within 1,024 ticks is the module's loss. -/
def lockstep (s : State) : State :=
  if !s.kpr.up then s
  else
    let b := (jnlRec s 35).getD (leBytes 8 0)
    let prev := bodyNat b 4 4
    let again := fld s KPR_STAT_LOCKSTEP_RESTARTS ≠ 0 ∧ tickNow s < prev + 1024
    let s := jnlPut 35 (leBytes 4 prev ++ leBytes 4 (tickNow s)) (report cKPR_LOCKSTEP (srcOf 8 13 0) 0 s)
    let s := { s with kpr := { s.kpr with up := false } }
    if again then moduleLoss s else s

/-- A quad check starts again; the other lists end, and their commands with them. -/
def listRestart (s : State) : State :=
  let ls := s.kpr.lists
  let quads := (ls.filter fun l => match l.op with | .quad _ => true | _ => false).map fun l => { l with done := 0 }
  let s := listsReg { s with kpr := { s.kpr with lists := quads } }
  let s := if ls.any (fun l => l.op == .swapMicro || l.op == .swapPort || l.op == .swapUncore) then
      setFld KPR_SWAP_STAT_KIND 0 (setFld KPR_SWAP_STAT_ACTIVE 0 (setFld KPR_SWAP_STAT_LAST_STATUS cKPR_RESTARTED.toNat s)) else s
  ls.foldl (fun s l => match l.port with
    | some (n, _) => cmdDone n cKPR_RESTARTED s
    | none => s) s

/-- A change set that is open or committing ends with the restart; its functions go on unchanged (R512). -/
def csRestart (s : State) : State := match s.kpr.cs with
  | some c =>
    let applying := fld s KPR_CS_STAT_STATE = 3
    let s := csAbandoned cKPR_RESTARTED s
    if applying then (csPorts c).foldl (fun s n => portBringup n s) s else s
  | none => s

/-- KEEPER_RESTARTED. -/
def keeperRestarted (s : State) : State :=
  if s.kpr.up || s.power.recovery then s
  else
    let s := addFld KPR_STAT_LOCKSTEP_RESTARTS 1 { s with kpr := { s.kpr with up := true } }
    let s := adoptFail (t1Abandon (sealAbandon s))
    let s := if s.lat.hold.recState = 1 then stagedApply s else s
    pumpAll (openGap (cmdsHeld (csRestart (listRestart s))))

end Sys2Proof.Machine
end

