-- ==== Sys2Proof/Machine/KprRows.lean ====
section
/-! DEFINITION. Rows of the Keeper (R499, R501, R505, R569). -/
namespace Sys2Proof.Machine

def execKeeperTick (i : TickIn) (s : State) : Out := liveNext s (keeperTick i s)
def execKprLockstep (s : State) : Out := liveNext s (lockstep s)
def execKeeperRestarted (s : State) : Out := liveNext s (keeperRestarted s)

/-! ### Commands (R505): 0x01 to 0x04 -/

def execCsOpen (n : Fin 2) (tag : BitVec 8) (s : State) : Out := .next (cmdRow n 0x01 tag s)
def execCsCommit (n : Fin 2) (tag : BitVec 8) (s : State) : Out := .next (cmdRow n 0x02 tag s)
def execCsAbandon (n : Fin 2) (tag : BitVec 8) (s : State) : Out := .next (cmdRow n 0x03 tag s)
def execRestart (n : Fin 2) (tag : BitVec 8) (s : State) : Out := .next (cmdRow n 0x04 tag s)

/-! ### 0x10 to 0x20 -/

def execSwapMicrocode (n : Fin 2) (tag : BitVec 8) (s : State) : Out := .next (cmdRow n 0x10 tag s)
def execSwapPortFw (n : Fin 2) (tag : BitVec 8) (s : State) : Out := .next (cmdRow n 0x11 tag s)
def execSwapUncoreFw (n : Fin 2) (tag : BitVec 8) (s : State) : Out := .next (cmdRow n 0x12 tag s)
def execScrubPass (n : Fin 2) (tag : BitVec 8) (s : State) : Out := .next (cmdRow n 0x20 tag s)

/-! ### Boot and key commands (R569) -/

def execFwStage (n : Fin 2) (tag : BitVec 8) (s : State) : Out := .next (cmdRow n 0x30 tag s)
def execFwWrite (n : Fin 2) (tag : BitVec 8) (s : State) : Out := .next (cmdRow n 0x31 tag s)
def execFwSelect (n : Fin 2) (tag : BitVec 8) (s : State) : Out := .next (cmdRow n 0x32 tag s)
def execKeygen (n : Fin 2) (tag : BitVec 8) (s : State) : Out := .next (cmdRow n 0x33 tag s)
def execSvnCommit (n : Fin 2) (tag : BitVec 8) (s : State) : Out := .next (cmdRow n 0x34 tag s)

/-- CMD_UNDEFINED: any other code. -/
def execCmdUndefined (n : Fin 2) (cmd : BitVec 8) (tag : BitVec 8) (s : State) : Out :=
  .next (if cmdKnown cmd.toNat then s else cmdRow n cmd.toNat tag s)

end Sys2Proof.Machine
end

