-- ==== Sys2Proof/Machine/MRows.lean ====
section
/-! DEFINITION. The rows of the M and T queues (R104, R141, R153, R157 to R161, R186, R187, R221, R227). -/
namespace Sys2Proof.Machine

/-- PART is undefined at level 1 (R104). -/
def partUndef (s : State) (f : FmtD) : Bool := imgLevel s == 1 && bits f.ctrl.toNat 0 2 != 0

def execMma (c : Fin 256) (f : FmtD) (s : State) : Out :=
  let conv := f.ctrl.toNat.testBit 7
  let sp24 := f.ctrl.toNat.testBit 6
  .next (issueD c f (dspec qM 0 1 f (!ctrlZero 8 f || partUndef s f) (if conv then [f.xa] else [])
    ([f.dA, f.dB] ++ if sp24 then [f.dC] else [])) plainD s)

/-- A scale record already named by a DRAIN that has not completed (R186). -/
def recordBehind (l : LCore) (a : Word) : Option Nat :=
  ((queue l qM).reverse.find? fun e => match e.pl with
    | .ins b => b.op == 1 && b.xa == a
    | _ => false).map (·.n)

def drainEntry (l : LCore) (e : QE) : QE × LCore :=
  match e.pl with
  | .ins c =>
    if c.xa = 0 then (e, l)
    else match recordBehind l c.xa with
      | some n => ({ e with srec := .behind n }, l)
      | none => ({ e with srec := .unread }, l)
  | _ => (e, l)

def execDrain (c : Fin 256) (f : FmtD) (s : State) : Out :=
  let round := f.ctrl.toNat.testBit 5
  .next (issueD c f (dspec qM 1 1 f (!ctrlZero 6 f || bits f.ctrl.toNat 3 2 == 3 || partUndef s f)
    (f.xa :: if round then [f.xb] else []) [f.dD]) drainEntry s)

/-- SCALE_RECORD_READ (R186): the read of the oldest DRAIN that waits for its record returns; one that meets an uncorrectable error does
not (R275). -/
def recordRead (ci : Nat) (s : State) : State :=
  match getL s ci with
  | none => s
  | some l =>
    match firstIdx (fun e : QE => e.srec == .unread) (queue l qM) with
    | none => s
    | some i =>
      match (queue l qM)[i]? with
      | none => s
      | some e =>
        match e.pl with
        | .ins c =>
          let b := if recPlaced s c.xa.toNat then s.mem.bytes c.xa.toNat 128 else []
          if recPlaced s c.xa.toNat && hbmBad s c.xa.toNat 128 then s else pump ci (setL ci (setEntry qM i { e with srec := .read b } l) s)
        | _ => s

def execScaleRecordRead (c : Fin 256) (s : State) : Out := .next (recordRead c s)

/-- A DRAIN with issue number `n` moves stream `k` to position `w`, also in what a STEP.OPEN issued after it saves (R73, R200). -/
def streamMoved (n k : Nat) (w : Word) (l : LCore) : LCore :=
  let move := fun m => smSet (fun _ => 0) m k w
  modQueue qF (fun es => es.map fun e => match e.pl with
    | .stepOpen a b c sv => if n < e.n then { e with pl := .stepOpen a b c { sv with streams := move sv.streams } } else e
    | _ => e) { l with streams := move l.streams }

/-- The drain at place `i` leaves the queue, with the MMA it is paired with; its stream position and record pass on. -/
def drainPop (ci i : Nat) (l : LCore) (e : QE) (form : Nat) (s : State) : State :=
  let l := match e.streamOut with
    | some (k, w) => streamMoved e.n k w l
    | none => l
  let next : RecSt := match form, e.srec with
    | 2, .read b => .read b
    | _, _ => .unread
  let l := unbehind e.n next (dropEntry qM i l)
  pump ci (setL ci (if e.paired then dropEntry qM (i - 1) l else l) s)

/-- DRAIN_COMPLETE (R161, R187, R194): the record is stored, and once its store is visible the drain completes. -/
def drainFinish (ci : Nat) (s : State) : State :=
  match getL s ci with
  | none => s
  | some l =>
    match firstIdx (startedOp 1) (queue l qM) with
    | none => s
    | some i =>
      match (queue l qM)[i]? with
      | none => s
      | some e =>
        match e.pl with
        | .ins c =>
          let a := c.xa.toNat
          match e.recOut with
          | some bs =>
            let e := { e with recOut := none, srec := .read bs }
            let s := memPut a bs (setL ci (setEntry qM i e l) s)
            if latHolds s a 128 then s else drainPop ci i (setEntry qM i e l) e (dForm c) s
          | none => if dForm c = 2 && latHolds s a 128 then s else drainPop ci i l e (dForm c) s
        | _ => s

def execDrainComplete (c : Fin 256) (s : State) : Out := .next (drainFinish c s)

/-- MMA_COMPLETE (R161): the oldest started MMA outside a folded pair. -/
def execMmaComplete (c : Fin 256) (s : State) : Out :=
  .next (finishWhere c qM (fun e => startedOp 0 e && !e.paired) s)

/-- A HINGE issued sets the word that a later STEP.OPEN saves (R73), and empties the keyrings (R221). -/
def hingeEntry (l : LCore) (e : QE) : QE × LCore :=
  match e.pl with
  | .ins c => (e, { l with hingeIssued := ⟨bits c.ctrl 0 3, (List.range 4).map fun k => bits c.xa.toNat (16 * k) 16⟩,
                           emptyAt := l.emptyAt ++ [l.seq] })
  | _ => (e, l)

def execHinge (c : Fin 256) (f : FmtD) (s : State) : Out :=
  .next (issueD c f (dspec qM 2 2 f (!ctrlZero 3 f || decide (6 ≤ bits f.ctrl.toNat 0 3)) [f.xa] []) hingeEntry s)

def execHingeComplete (c : Fin 256) (s : State) : Out := .next (finishWhere c qM (startedOp 2) s)

def execAclr (c : Fin 256) (f : FmtD) (s : State) : Out :=
  .next (issueD c f (dspec qM 3 1 f (!ctrlZero 3 f) [] []) plainD s)

/-! ### T queue -/

def execTkeys (c : Fin 256) (f : FmtD) (s : State) : Out :=
  .next (issueD c f (dspec qT 0 2 f (!ctrlZero 1 f) [] [f.dB]) plainD s)

def execTprobe (c : Fin 256) (f : FmtD) (s : State) : Out :=
  .next (issueD c f (dspec qT 1 2 f (!ctrlZero 2 f) [f.xa] [f.dA, f.dD]) plainD s)

def execTclr (c : Fin 256) (f : FmtD) (s : State) : Out :=
  .next (issueD c f (dspec qT 2 2 f (!ctrlZero 1 f) [] []) plainD s)

def execTcap (c : Fin 256) (f : FmtD) (s : State) : Out :=
  .next (issueD c f (dspec qT 3 2 f (!ctrlZero 0 f) [f.xa] []) plainD s)

def execTkeysComplete (c : Fin 256) (s : State) : Out := .next (finishWhere c qT (startedOp 0) s)
def execTprobeComplete (c : Fin 256) (s : State) : Out := .next (finishWhere c qT (startedOp 1) s)

end Sys2Proof.Machine
end

