-- ==== Sys2Proof/Machine/SecRows.lean ====
section
/-! DEFINITION. The SPDM responder (R575, R576). Message codes and layouts are those of SPDM 1.2, which the manual names (PRESUMED,
assumption 18). -/
namespace Sys2Proof.Machine

/-- A message after its version byte: code, two parameters, and the rest. -/
def spdmMsg (code p1 p2 : Nat) (rest : List Byte) : List Byte := leBytes 1 code ++ leBytes 1 p1 ++ leBytes 1 p2 ++ rest

/-- Endpoint 0 is SMBus, 1 and 2 are H0 and H1; in recovery SPDM is served over SMBus only (R576). -/
def spdmOn (s : State) (e : Nat) : Bool := live s && (e == 0 || (hostOn s (e - 1) && !s.power.recovery))

def spdmConn (s : State) (e : Nat) : Nat := s.sec.conns.getD e 0
def setConn (e v : Nat) (s : State) : State := { s with sec := { s.sec with conns := s.sec.conns.set e v } }
def spdmScript (s : State) (e : Nat) : List Byte := s.sec.script.getD e []
def setScript (e : Nat) (b : List Byte) (s : State) : State := { s with sec := { s.sec with script := s.sec.script.set e b } }

/-- A response leaves the endpoint, and its request counts as served. -/
def spdmSend (e code : Nat) (payload : List Byte) (s : State) : State :=
  addFld SEC_COUNT_SPDM_REQUESTS 1 { s with sec := { s.sec with out := s.sec.out ++ [⟨e, code, payload⟩] } }

/-- ERROR with a code of the standard and its data. -/
def spdmError (e err data : Nat) (s : State) : State := spdmSend e 0x7F (leBytes 1 err ++ leBytes 1 data) s
def errInvalid : Nat := 0x01
def errUnexpected : Nat := 0x04
def errUnsupported : Nat := 0x07

/-- Answers a request that needs the connection in state `need`, with the response's parameters and rest; it joins the transcript. -/
def spdmAnswer (e need : Nat) (req : List Byte) (code : Nat) (payload : State → List Byte) (s : State) : State :=
  if !spdmOn s e then s
  else if spdmConn s e ≠ need then spdmError e errUnexpected 0 s
  else
    let p := payload s
    spdmSend e code p (setScript e (spdmScript s e ++ req ++ leBytes 1 code ++ p) s)

/-! ### Version, capabilities, algorithms -/

/-- GET_VERSION starts the connection anew; the module speaks version 1.2. -/
def getVersion (e : Nat) (s : State) : State :=
  if !spdmOn s e then s
  else
    let p := leBytes 2 0 ++ leBytes 1 0 ++ leBytes 1 1 ++ leBytes 2 0x1200
    spdmSend e 0x04 p (setConn e 1 (setScript e (spdmMsg 0x84 0 0 [] ++ leBytes 1 0x04 ++ p) s))

def execGetVersion (e : Fin 3) (s : State) : Out := .next (getVersion e s)

/-- CERT_CAP, CHAL_CAP, and MEAS_CAP with signatures. -/
def spdmFlags : Nat := 2 + 4 + 2 * 8

def getCapabilities (e : Nat) (s : State) : State :=
  let t := spdmAnswer e 1 (spdmMsg 0xE1 0 0 []) 0x61 (fun _ => leBytes 3 0 ++ leBytes 1 (Config.spdmLimit 0) ++ leBytes 2 0 ++ leBytes 4 spdmFlags ++ leBytes 4 (Config.spdmLimit 1) ++
      leBytes 4 (Config.spdmLimit 2)) s
  if spdmOn s e && spdmConn s e == 1 then setConn e 2 t else t

def execGetCapabilities (e : Fin 3) (s : State) : Out := .next (getCapabilities e s)

/-- ECDSA P-256, SHA-256, and the DMTF measurement specification. -/
def negotiateAlgorithms (e : Nat) (s : State) : State :=
  let t := spdmAnswer e 2 (spdmMsg 0xE3 0 0 []) 0x63
    (fun _ => leBytes 2 0 ++ leBytes 2 0x24 ++ leBytes 1 1 ++ leBytes 1 0 ++ leBytes 4 2 ++ leBytes 4 0x10 ++ leBytes 4 1 ++ leBytes 16 0) s
  if spdmOn s e && spdmConn s e == 2 then setConn e 3 t else t

def execNegotiateAlgorithms (e : Fin 3) (s : State) : Out := .next (negotiateAlgorithms e s)

/-! ### Certificates -/

/-- The chain of slot 0, with the alias key in force (R571). -/
def chain (s : State) : List Byte := Config.certChain (aliasKey s) (measDigest s.sec.akMeas s)

def execGetDigests (e : Fin 3) (s : State) : Out :=
  .next (spdmAnswer e 3 (spdmMsg 0x81 0 0 []) 0x01 (fun s => leBytes 1 0 ++ leBytes 1 1 ++ sha256 (chain s)) s)

/-- GET_CERTIFICATE: a portion of the chain; only slot 0 holds one. -/
def getCertificate (e slot off len : Nat) (s : State) : State :=
  if spdmOn s e && spdmConn s e == 3 && slot != 0 then spdmError e errInvalid 0 s
  else spdmAnswer e 3 (spdmMsg 0x82 slot 0 (leBytes 2 off ++ leBytes 2 len)) 0x02
    (fun s =>
      let c := chain s
      let p := slice c off len
      leBytes 2 0 ++ leBytes 2 p.length ++ leBytes 2 (c.length - off - p.length) ++ p) s

def execGetCertificate (e : Fin 3) (slot : BitVec 8) (offset len : Nat) (s : State) : Out :=
  .next (getCertificate e slot.toNat offset len s)

/-! ### Signed responses -/

/-- A fresh nonce of the responder: four free values. -/
def freshNonce (s : State) : List Byte × State :=
  ((List.range 4).flatMap (fun i => leBytes 8 (Config.freeValue (s.freeCtr + i)).toNat), { s with freeCtr := s.freeCtr + 4 })

/-- Signature of the alias key in force over a text, r then s. -/
def aliasSign (text : List Byte) (s : State) : List Byte × State :=
  let (r, t) := ecdsaSign (aliasKey s) (beNat (sha256 text)) (Config.signNonce s.sec.signs)
  (beBytes 32 r ++ beBytes 32 t, { s with sec := { s.sec with signs := s.sec.signs + 1 } })

/-- Sends a signed response: the signature covers the transcript, the request and the response before it. -/
def spdmSigned (e : Nat) (req : List Byte) (code : Nat) (payload : List Byte) (s : State) : State :=
  let (sig, s) := aliasSign (spdmScript s e ++ req ++ leBytes 1 code ++ payload) s
  spdmSend e code (payload ++ sig) s

/-- CHALLENGE of slot 0. -/
def challenge (e slot nonce : Nat) (s : State) : State :=
  if !spdmOn s e then s
  else if spdmConn s e ≠ 3 then spdmError e errUnexpected 0 s
  else if slot ≠ 0 then spdmError e errInvalid 0 s
  else
    let (n, t) := freshNonce s
    spdmSigned e (spdmMsg 0x83 slot 0 (leBytes 32 nonce)) 0x03 (leBytes 1 0 ++ leBytes 1 1 ++ sha256 (chain s) ++ n ++ leBytes 2 0) t

def execChallenge (e : Fin 3) (slot : BitVec 8) (nonce : BitVec 256) (s : State) : Out :=
  .next (challenge e slot.toNat nonce.toNat s)

/-- A measurement block: index, specification, size, value type, value. -/
def measBlock (s : State) (k : Nat) : List Byte :=
  let v := measurement s k
  leBytes 1 k ++ leBytes 1 1 ++ leBytes 2 (v.length + 3) ++ leBytes 1 (if k ≤ 4 then 1 else if k = 7 then 0x83 else 3) ++ leBytes 2 v.length ++ v

/-- The blocks that an index asks for: 0 the count alone, 255 all, else one; none for an index that is not reported. -/
def measBlocks (s : State) (index : Nat) : Option (Nat × List Byte) :=
  if index = 0 then some (0, [])
  else if index = 255 then some (7, (List.range 7).flatMap fun i => measBlock s (i + 1))
  else if index ≤ 7 then some (1, measBlock s index)
  else none

/-- GET_MEASUREMENTS, with a signature when the request asks for one. -/
def getMeasurements (e index : Nat) (signed : Bool) (nonce : Nat) (s : State) : State :=
  if !spdmOn s e then s
  else if spdmConn s e ≠ 3 then spdmError e errUnexpected 0 s
  else match measBlocks s index with
    | none => spdmError e errInvalid 0 s
    | some (n, b) =>
      let req := spdmMsg 0xE0 (if signed then 1 else 0) index (if signed then leBytes 32 nonce ++ leBytes 1 0 else [])
      let (r, t) := freshNonce s
      let p := leBytes 1 (if index = 0 then 7 else 0) ++ leBytes 1 0 ++ leBytes 1 n ++ leBytes 3 b.length ++ b ++ r ++ leBytes 2 0
      if signed then spdmSigned e req 0x60 p t
      else spdmSend e 0x60 p (setScript e (spdmScript s e ++ req ++ leBytes 1 0x60 ++ p) t)

def execGetMeasurements (e : Fin 3) (index : BitVec 8) (signed : Bool) (nonce : BitVec 256) (s : State) : Out :=
  .next (getMeasurements e index.toNat signed nonce.toNat s)

/-! ### Other requests -/

/-- Request codes that the responder supports (R575). -/
def spdmKnown (c : Nat) : Bool := [0x84, 0xE1, 0xE3, 0x81, 0x82, 0x83, 0xE0].contains c

/-- SPDM_UNSUPPORTED. -/
def execSpdmUnsupported (e : Fin 3) (code : BitVec 8) (s : State) : Out :=
  .next (if spdmOn s e && !spdmKnown code.toNat then spdmError e errUnsupported code.toNat s else s)

end Sys2Proof.Machine
end

