-- ==== Sys2Proof/Machine/VRows.lean ====
section
/-! DEFINITION. The rows of the V queue (R104, R608): issue of each vector operation. -/
namespace Sys2Proof.Machine

/-- Control bits that a V operation leaves undefined (R101, R104, R608): SCALAR where it is not defined, and CTRL[49:47] except
the condition of VCMP and the dimension of VPRED. -/
def vUndef (op : Nat) (f : FmtD) : Bool :=
  let c := f.ctrl.toNat
  !ctrlZero 4 f || (c.testBit 0 && !vScalarOk op) ||
  (if op = 6 then decide (4 ≤ bits c 1 3) else if op = 0x11 then false else bits c 1 3 != 0)

/-- Issues a V operation. -/
def issueV (c : Nat) (op level : Nat) (f : FmtD) (s : State) : State :=
  let scalar := f.ctrl.toNat.testBit 0
  let descs := [f.dA] ++ (if vReadsB op && !scalar then [f.dB] else []) ++ (if vReadsC op then [f.dC] else []) ++ [f.dD]
  issueD c f (dspec qV op level f (vUndef op f) (if scalar then [f.xa] else []) descs) plainD s

def execVadd (c : Fin 256) (f : FmtD) (s : State) : Out := .next (issueV c 0x0 1 f s)
def execVsub (c : Fin 256) (f : FmtD) (s : State) : Out := .next (issueV c 0x1 1 f s)
def execVmul (c : Fin 256) (f : FmtD) (s : State) : Out := .next (issueV c 0x2 1 f s)
def execVfma (c : Fin 256) (f : FmtD) (s : State) : Out := .next (issueV c 0x3 1 f s)
def execVmin (c : Fin 256) (f : FmtD) (s : State) : Out := .next (issueV c 0x4 1 f s)
def execVmax (c : Fin 256) (f : FmtD) (s : State) : Out := .next (issueV c 0x5 1 f s)
def execVcmp (c : Fin 256) (f : FmtD) (s : State) : Out := .next (issueV c 0x6 1 f s)
def execVexp2 (c : Fin 256) (f : FmtD) (s : State) : Out := .next (issueV c 0x8 1 f s)
def execVlog2 (c : Fin 256) (f : FmtD) (s : State) : Out := .next (issueV c 0x9 1 f s)
def execVrsqrt (c : Fin 256) (f : FmtD) (s : State) : Out := .next (issueV c 0xa 1 f s)
def execVrcp (c : Fin 256) (f : FmtD) (s : State) : Out := .next (issueV c 0xb 1 f s)
def execVpadd (c : Fin 256) (f : FmtD) (s : State) : Out := .next (issueV c 0x10 1 f s)
def execVpred (c : Fin 256) (f : FmtD) (s : State) : Out := .next (issueV c 0x11 1 f s)
def execVpfold (c : Fin 256) (f : FmtD) (s : State) : Out := .next (issueV c 0x12 1 f s)
def execVpack (c : Fin 256) (f : FmtD) (s : State) : Out := .next (issueV c 0x18 1 f s)
def execVunpack (c : Fin 256) (f : FmtD) (s : State) : Out := .next (issueV c 0x19 1 f s)
def execVres (c : Fin 256) (f : FmtD) (s : State) : Out := .next (issueV c 0x20 2 f s)
def execVresadd (c : Fin 256) (f : FmtD) (s : State) : Out := .next (issueV c 0x21 2 f s)

end Sys2Proof.Machine
end

