-- ==== Sys2Proof/Machine/XRows.lean ====
section
/-! DEFINITION. The rows of the X queue (R104, R107, R248, R250, R269). -/
namespace Sys2Proof.Machine

def execXload (c : Fin 256) (f : FmtD) (s : State) : Out :=
  .next (issueD c f (dspec qX 0 1 f (!ctrlZero 0 f) [f.xa] [f.dA, f.dD]) plainD s)

def execXstore (c : Fin 256) (f : FmtD) (s : State) : Out :=
  .next (issueD c f (dspec qX 1 1 f (!ctrlZero 0 f) [f.xa] [f.dA, f.dD]) plainD s)

def execXgather (c : Fin 256) (f : FmtD) (s : State) : Out :=
  .next (issueD c f (dspec qX 2 1 f (!ctrlZero 3 f) [] [f.dA, f.dB, f.dD]) plainD s)

def execXscatter (c : Fin 256) (f : FmtD) (s : State) : Out :=
  .next (issueD c f (dspec qX 3 1 f (!ctrlZero 3 f) [] [f.dA, f.dB, f.dD]) plainD s)

def execXpose (c : Fin 256) (f : FmtD) (s : State) : Out :=
  .next (issueD c f (dspec qX 4 1 f (!ctrlZero 15 f) [] [f.dA, f.dD]) plainD s)

def execXcopy (c : Fin 256) (f : FmtD) (s : State) : Out :=
  .next (issueD c f (dspec qX 5 1 f (!ctrlZero 0 f) [] [f.dA, f.dD]) plainD s)

def execStagingRead (c : Fin 256) (s : State) : Out := .next (stageRead c s)

/-- The oldest started X instruction whose accesses are all answered and whose writes have all taken place (R250). -/
def xDone (e : QE) : Bool := e.started && e.flight.tags == [] && !xHolding e

def execXTransferComplete (c : Fin 256) (s : State) : Out := .next (finishWhere c qX xDone s)

/-- The refusal of the access with a tag. -/
def refusalOf (tag : BitVec 16) (p : Packet) : Bool := p.tag == tag && match p.body with
  | .refusal _ _ => true
  | _ => false

/-- REMOTE_REFUSAL (R269, R375): the refusal of an access returns, and the instruction that made it raises its code. -/
def refuseX (ci : Nat) (tag : BitVec 16) (code : BitVec 16) (addr : Nat) (s : State) : State :=
  match s.fab.txns.find? fun t => t.tag == tag.toNat && t.lcore == ci with
  | none => s
  | some t =>
    let (p, s) := takeInbound (refusalOf tag) s
    let s := match p with
      | some p => ackOwe p.destDie.toNat p (flowAck 0 p.destDie.toNat p.src.toNat 1 s)
      | none => s
    let s := txnTake t.tag s
    match getL s ci with
    | none => s
    | some l =>
      match xEntry l t.n with
      | none => s
      | some (i, e) =>
        match e.pl with
        | .ins c =>
          let s := { s with fab := { s.fab with txns := s.fab.txns.filter fun u => !(u.lcore == ci && u.n == t.n) } }
          pump ci (xArriveFail ci i e c (code, some (xGlobal c addr)) s)
        | _ => s

def execRemoteRefusal (c : Fin 256) (tag code : BitVec 16) (addr : Nat) (s : State) : Out :=
  .next (ordered (refusalOf tag) s (refuseX c tag code addr s))

end Sys2Proof.Machine
end

