-- ==== Sys2Proof/Machine/Dispatch.lean ====
section
/-! DEFINITION. The dispatch of commands to their meanings: one arm per row of the opcode table. -/
namespace Sys2Proof.Machine

def exec (i : Instr) (s : State) : Host.Outcome State Fault Refusal :=
  match i with
  | .frameBoundary => Sys2Proof.Machine.execFrameBoundary s
  | .frameInEdge e => Sys2Proof.Machine.execFrameInEdge e s
  | .framePacket port p => Sys2Proof.Machine.execFramePacket port p s
  | .correctionWindowClose => Sys2Proof.Machine.execCorrectionWindowClose s
  | .readyVote => Sys2Proof.Machine.execReadyVote s
  | .readyVoteReceived m => Sys2Proof.Machine.execReadyVoteReceived m s
  | .commitDesignation d => Sys2Proof.Machine.execCommitDesignation d s
  | .commitBoundary => Sys2Proof.Machine.execCommitBoundary s
  | .stepOpens => Sys2Proof.Machine.execStepOpens s
  | .poolWaitExpiry => Sys2Proof.Machine.execPoolWaitExpiry s
  | .snapshotCut => Sys2Proof.Machine.execSnapshotCut s
  | .collectiveLaunch c => Sys2Proof.Machine.execCollectiveLaunch c s
  | .fwaitFires c => Sys2Proof.Machine.execFwaitFires c s
  | .loopWindowOpen w => Sys2Proof.Machine.execLoopWindowOpen w s
  | .loopWindowClose w => Sys2Proof.Machine.execLoopWindowClose w s
  | .queryDeadlineExpiry q seq => Sys2Proof.Machine.execQueryDeadlineExpiry q seq s
  | .contributionDeadline bucket => Sys2Proof.Machine.execContributionDeadline bucket s
  | .deadlineReport m => Sys2Proof.Machine.execDeadlineReport m s
  | .abortRequest m => Sys2Proof.Machine.execAbortRequest m s
  | .stepAbort m => Sys2Proof.Machine.execStepAbort m s
  | .abortAcknowledgement m => Sys2Proof.Machine.execAbortAcknowledgement m s
  | .collectionClose => Sys2Proof.Machine.execCollectionClose s
  | .repeatDesignation d => Sys2Proof.Machine.execRepeatDesignation d s
  | .repeatOpen => Sys2Proof.Machine.execRepeatOpen s
  | .recoveryHold m => Sys2Proof.Machine.execRecoveryHold m s
  | .recoveryRelease m => Sys2Proof.Machine.execRecoveryRelease m s
  | .resumeDesignation d => Sys2Proof.Machine.execResumeDesignation d s
  | .loadTicket q seq => Sys2Proof.Machine.execLoadTicket q seq s
  | .postTicket q seq => Sys2Proof.Machine.execPostTicket q seq s
  | .stopTicket q seq => Sys2Proof.Machine.execStopTicket q seq s
  | .queryTicket q seq => Sys2Proof.Machine.execQueryTicket q seq s
  | .doublingSwap phys => Sys2Proof.Machine.execDoublingSwap phys s
  | .nop c f => Sys2Proof.Machine.execNop c f s
  | .add c f => Sys2Proof.Machine.execAdd c f s
  | .sub c f => Sys2Proof.Machine.execSub c f s
  | .and c f => Sys2Proof.Machine.execAnd c f s
  | .or c f => Sys2Proof.Machine.execOr c f s
  | .xor c f => Sys2Proof.Machine.execXor c f s
  | .shl c f => Sys2Proof.Machine.execShl c f s
  | .shr c f => Sys2Proof.Machine.execShr c f s
  | .sra c f => Sys2Proof.Machine.execSra c f s
  | .mul c f => Sys2Proof.Machine.execMul c f s
  | .mulhu c f => Sys2Proof.Machine.execMulhu c f s
  | .min c f => Sys2Proof.Machine.execMin c f s
  | .max c f => Sys2Proof.Machine.execMax c f s
  | .li c f => Sys2Proof.Machine.execLi c f s
  | .lui c f => Sys2Proof.Machine.execLui c f s
  | .cmp c f => Sys2Proof.Machine.execCmp c f s
  | .plog c f => Sys2Proof.Machine.execPlog c f s
  | .ld c f => Sys2Proof.Machine.execLd c f s
  | .st c f => Sys2Proof.Machine.execSt c f s
  | .br c f => Sys2Proof.Machine.execBr c f s
  | .brr c f => Sys2Proof.Machine.execBrr c f s
  | .call c f => Sys2Proof.Machine.execCall c f s
  | .dld c f => Sys2Proof.Machine.execDld c f s
  | .dst c f => Sys2Proof.Machine.execDst c f s
  | .dins c f => Sys2Proof.Machine.execDins c f s
  | .dext c f => Sys2Proof.Machine.execDext c f s
  | .dmov c f => Sys2Proof.Machine.execDmov c f s
  | .dadv c f => Sys2Proof.Machine.execDadv c f s
  | .halt c f => Sys2Proof.Machine.execHalt c f s
  | .detent c f => Sys2Proof.Machine.execDetent c f s
  | .detentRelease c => Sys2Proof.Machine.execDetentRelease c s
  | .mma c f => Sys2Proof.Machine.execMma c f s
  | .drain c f => Sys2Proof.Machine.execDrain c f s
  | .scaleRecordRead c => Sys2Proof.Machine.execScaleRecordRead c s
  | .drainComplete c => Sys2Proof.Machine.execDrainComplete c s
  | .hinge c f => Sys2Proof.Machine.execHinge c f s
  | .aclr c f => Sys2Proof.Machine.execAclr c f s
  | .tkeys c f => Sys2Proof.Machine.execTkeys c f s
  | .tprobe c f => Sys2Proof.Machine.execTprobe c f s
  | .tclr c f => Sys2Proof.Machine.execTclr c f s
  | .tcap c f => Sys2Proof.Machine.execTcap c f s
  | .vadd c f => Sys2Proof.Machine.execVadd c f s
  | .vsub c f => Sys2Proof.Machine.execVsub c f s
  | .vmul c f => Sys2Proof.Machine.execVmul c f s
  | .vfma c f => Sys2Proof.Machine.execVfma c f s
  | .vmin c f => Sys2Proof.Machine.execVmin c f s
  | .vmax c f => Sys2Proof.Machine.execVmax c f s
  | .vcmp c f => Sys2Proof.Machine.execVcmp c f s
  | .vexp2 c f => Sys2Proof.Machine.execVexp2 c f s
  | .vlog2 c f => Sys2Proof.Machine.execVlog2 c f s
  | .vrsqrt c f => Sys2Proof.Machine.execVrsqrt c f s
  | .vrcp c f => Sys2Proof.Machine.execVrcp c f s
  | .vpadd c f => Sys2Proof.Machine.execVpadd c f s
  | .vpred c f => Sys2Proof.Machine.execVpred c f s
  | .vpfold c f => Sys2Proof.Machine.execVpfold c f s
  | .vpack c f => Sys2Proof.Machine.execVpack c f s
  | .vunpack c f => Sys2Proof.Machine.execVunpack c f s
  | .vres c f => Sys2Proof.Machine.execVres c f s
  | .vresadd c f => Sys2Proof.Machine.execVresadd c f s
  | .xload c f => Sys2Proof.Machine.execXload c f s
  | .xstore c f => Sys2Proof.Machine.execXstore c f s
  | .xgather c f => Sys2Proof.Machine.execXgather c f s
  | .xscatter c f => Sys2Proof.Machine.execXscatter c f s
  | .xpose c f => Sys2Proof.Machine.execXpose c f s
  | .xcopy c f => Sys2Proof.Machine.execXcopy c f s
  | .stagingRead c => Sys2Proof.Machine.execStagingRead c s
  | .xTransferComplete c => Sys2Proof.Machine.execXTransferComplete c s
  | .remoteRefusal c tag code addr => Sys2Proof.Machine.execRemoteRefusal c tag code addr s
  | .kroute c f => Sys2Proof.Machine.execKroute c f s
  | .ksendDispatch c f => Sys2Proof.Machine.execKsendDispatch c f s
  | .ksendAnswer c f => Sys2Proof.Machine.execKsendAnswer c f s
  | .kcomb c f => Sys2Proof.Machine.execKcomb c f s
  | .kcombResumes c => Sys2Proof.Machine.execKcombResumes c s
  | .kepoch c f => Sys2Proof.Machine.execKepoch c f s
  | .kepochComplete c => Sys2Proof.Machine.execKepochComplete c s
  | .gred c f => Sys2Proof.Machine.execGred c f s
  | .gallg c f => Sys2Proof.Machine.execGallg c f s
  | .gbcast c f => Sys2Proof.Machine.execGbcast c f s
  | .stepOpen c f => Sys2Proof.Machine.execStepOpen c f s
  | .stepCommit c f => Sys2Proof.Machine.execStepCommit c f s
  | .fwait c f => Sys2Proof.Machine.execFwait c f s
  | .fnow c f => Sys2Proof.Machine.execFnow c f s
  | .csig c f => Sys2Proof.Machine.execCsig c f s
  | .csigSend c => Sys2Proof.Machine.execCsigSend c s
  | .cwait c f => Sys2Proof.Machine.execCwait c f s
  | .cwaitEnds c idx => Sys2Proof.Machine.execCwaitEnds c idx s
  | .cset c f => Sys2Proof.Machine.execCset c f s
  | .cread c f => Sys2Proof.Machine.execCread c f s
  | .catchSignal word amount => Sys2Proof.Machine.execCatchSignal word amount s
  | .catchRefusal c offset => Sys2Proof.Machine.execCatchRefusal c offset s
  | .arrayHw phys structure_ => Sys2Proof.Machine.execArrayHw phys structure_ s
  | .accEccCorr phys => Sys2Proof.Machine.execAccEccCorr phys s
  | .tbHw phys engine => Sys2Proof.Machine.execTbHw phys engine s
  | .tbEccCorr phys => Sys2Proof.Machine.execTbEccCorr phys s
  | .scrEccCorr phys => Sys2Proof.Machine.execScrEccCorr phys s
  | .scrHw phys bank => Sys2Proof.Machine.execScrHw phys bank s
  | .coreHw phys => Sys2Proof.Machine.execCoreHw phys s
  | .portTurnPass phys => Sys2Proof.Machine.execPortTurnPass phys s
  | .mwAccess n a => Sys2Proof.Machine.execMwAccess n a s
  | .memCe addr => Sys2Proof.Machine.execMemCe addr s
  | .memUe addr c => Sys2Proof.Machine.execMemUe addr c s
  | .rowHammerRefresh stack row => Sys2Proof.Machine.execRowHammerRefresh stack row s
  | .reductionPacket d src p => Sys2Proof.Machine.execReductionPacket d src p s
  | .gredComplete c => Sys2Proof.Machine.execGredComplete c s
  | .keywayResolve d p => Sys2Proof.Machine.execKeywayResolve d p s
  | .dispatchArrival d p => Sys2Proof.Machine.execDispatchArrival d p s
  | .closeArrival d p => Sys2Proof.Machine.execCloseArrival d p s
  | .answerArrival d p => Sys2Proof.Machine.execAnswerArrival d p s
  | .keywayRefusal d p => Sys2Proof.Machine.execKeywayRefusal d p s
  | .kwHw d => Sys2Proof.Machine.execKwHw d s
  | .flitReceived port flit fecBad => Sys2Proof.Machine.execFlitReceived port flit fecBad s
  | .retryTimeout port => Sys2Proof.Machine.execRetryTimeout port s
  | .progressTimeout port => Sys2Proof.Machine.execProgressTimeout port s
  | .laneFault port lane => Sys2Proof.Machine.execLaneFault port lane s
  | .fastRetrainDone port lanes rec delays => Sys2Proof.Machine.execFastRetrainDone port lanes rec delays s
  | .bringupStageDone port lanes delays => Sys2Proof.Machine.execBringupStageDone port lanes delays s
  | .bittingRecord port rec => Sys2Proof.Machine.execBittingRecord port rec s
  | .bringupTimeout port => Sys2Proof.Machine.execBringupTimeout port s
  | .linkDown port => Sys2Proof.Machine.execLinkDown port s
  | .fabricPacket arrivedOn p => Sys2Proof.Machine.execFabricPacket arrivedOn p s
  | .remoteWrite port p => Sys2Proof.Machine.execRemoteWrite port p s
  | .remoteRead port p => Sys2Proof.Machine.execRemoteRead port p s
  | .readData p => Sys2Proof.Machine.execReadData p s
  | .writeAck p => Sys2Proof.Machine.execWriteAck p s
  | .deliveryAck p => Sys2Proof.Machine.execDeliveryAck p s
  | .retrain port => Sys2Proof.Machine.execRetrain port s
  | .firstTouch addr data path => Sys2Proof.Machine.execFirstTouch addr data path s
  | .latchCopyDone d granule => Sys2Proof.Machine.execLatchCopyDone d granule s
  | .latchRestore => Sys2Proof.Machine.execLatchRestore s
  | .latchRestoreDone => Sys2Proof.Machine.execLatchRestoreDone s
  | .latCut value => Sys2Proof.Machine.execLatCut value s
  | .cutRequest r => Sys2Proof.Machine.execCutRequest r s
  | .tier1TransferDone hashesOk snap => Sys2Proof.Machine.execTier1TransferDone hashesOk snap s
  | .tier1Completion id => Sys2Proof.Machine.execTier1Completion id s
  | .archiveLinkDown => Sys2Proof.Machine.execArchiveLinkDown s
  | .nvmeCompletion e => Sys2Proof.Machine.execNvmeCompletion e s
  | .uncoreHw d part => Sys2Proof.Machine.execUncoreHw d part s
  | .heartbeat m => Sys2Proof.Machine.execHeartbeat m s
  | .heartbeatSilence m => Sys2Proof.Machine.execHeartbeatSilence m s
  | .ackSilence => Sys2Proof.Machine.execAckSilence s
  | .noPortUpTimeout => Sys2Proof.Machine.execNoPortUpTimeout s
  | .powerNotice m => Sys2Proof.Machine.execPowerNotice m s
  | .retirementNotice m => Sys2Proof.Machine.execRetirementNotice m s
  | .adoptionPullDone partner snap mirror => Sys2Proof.Machine.execAdoptionPullDone partner snap mirror s
  | .sqTail n q tail slots => Sys2Proof.Machine.execSqTail n q tail slots s
  | .ticketRead q => Sys2Proof.Machine.execTicketRead q s
  | .mirrorEntry q seq t state status => Sys2Proof.Machine.execMirrorEntry q seq t state status s
  | .mirrorAck q => Sys2Proof.Machine.execMirrorAck q s
  | .mirrorTimeout q => Sys2Proof.Machine.execMirrorTimeout q s
  | .slotDone slot => Sys2Proof.Machine.execSlotDone slot s
  | .cqHead n q head => Sys2Proof.Machine.execCqHead n q head s
  | .msiGapExpiry n vec => Sys2Proof.Machine.execMsiGapExpiry n vec s
  | .hostHeartbeat n value => Sys2Proof.Machine.execHostHeartbeat n value s
  | .hostHbSilence n => Sys2Proof.Machine.execHostHbSilence n s
  | .hostLinkLoss n cause => Sys2Proof.Machine.execHostLinkLoss n cause s
  | .take n q => Sys2Proof.Machine.execTake n q s
  | .resume n q => Sys2Proof.Machine.execResume n q s
  | .keeperTick r => Sys2Proof.Machine.execKeeperTick r s
  | .kprLockstep => Sys2Proof.Machine.execKprLockstep s
  | .keeperRestarted => Sys2Proof.Machine.execKeeperRestarted s
  | .csOpen n tag => Sys2Proof.Machine.execCsOpen n tag s
  | .csCommit n tag => Sys2Proof.Machine.execCsCommit n tag s
  | .csAbandon n tag => Sys2Proof.Machine.execCsAbandon n tag s
  | .restart n tag => Sys2Proof.Machine.execRestart n tag s
  | .swapMicrocode n tag => Sys2Proof.Machine.execSwapMicrocode n tag s
  | .swapPortFw n tag => Sys2Proof.Machine.execSwapPortFw n tag s
  | .swapUncoreFw n tag => Sys2Proof.Machine.execSwapUncoreFw n tag s
  | .scrubPass n tag => Sys2Proof.Machine.execScrubPass n tag s
  | .cmdUndefined n cmd tag => Sys2Proof.Machine.execCmdUndefined n cmd tag s
  | .rsWrite n addr value size => Sys2Proof.Machine.execRsWrite n addr value size s
  | .csApplyPoint => Sys2Proof.Machine.execCsApplyPoint s
  | .csStrobe => Sys2Proof.Machine.execCsStrobe s
  | .quiesceTimeout => Sys2Proof.Machine.execQuiesceTimeout s
  | .errorRingRelease fatal head => Sys2Proof.Machine.execErrorRingRelease fatal head s
  | .refClkLost => Sys2Proof.Machine.execRefClkLost s
  | .refClkRestored => Sys2Proof.Machine.execRefClkRestored s
  | .coastTimeout => Sys2Proof.Machine.execCoastTimeout s
  | .powerSample f => Sys2Proof.Machine.execPowerSample f s
  | .feedLoss feedB => Sys2Proof.Machine.execFeedLoss feedB s
  | .feedRestored feedB => Sys2Proof.Machine.execFeedRestored feedB s
  | .domainSwitchDone dom => Sys2Proof.Machine.execDomainSwitchDone dom s
  | .railTimeout dom => Sys2Proof.Machine.execRailTimeout dom s
  | .thermTrip d sensor => Sys2Proof.Machine.execThermTrip d sensor s
  | .thermTripClear d => Sys2Proof.Machine.execThermTripClear d s
  | .thermShutdown => Sys2Proof.Machine.execThermShutdown s
  | .fwStage n tag => Sys2Proof.Machine.execFwStage n tag s
  | .fwWrite n tag => Sys2Proof.Machine.execFwWrite n tag s
  | .fwSelect n tag => Sys2Proof.Machine.execFwSelect n tag s
  | .keygen n tag => Sys2Proof.Machine.execKeygen n tag s
  | .svnCommit n tag => Sys2Proof.Machine.execSvnCommit n tag s
  | .getVersion e => Sys2Proof.Machine.execGetVersion e s
  | .getCapabilities e => Sys2Proof.Machine.execGetCapabilities e s
  | .negotiateAlgorithms e => Sys2Proof.Machine.execNegotiateAlgorithms e s
  | .getDigests e => Sys2Proof.Machine.execGetDigests e s
  | .getCertificate e slot offset len => Sys2Proof.Machine.execGetCertificate e slot offset len s
  | .challenge e slot nonce => Sys2Proof.Machine.execChallenge e slot nonce s
  | .getMeasurements e index signed nonce => Sys2Proof.Machine.execGetMeasurements e index signed nonce s
  | .spdmUnsupported e code => Sys2Proof.Machine.execSpdmUnsupported e code s
  | .powerUp straps feedA feedB => Sys2Proof.Machine.execPowerUp straps feedA feedB s
  | .perst n => Sys2Proof.Machine.execPerst n s
  | .modRstN => Sys2Proof.Machine.execModRstN s
  | .powerLoss => Sys2Proof.Machine.execPowerLoss s
  | .registerWrite n addr value size => Sys2Proof.Machine.execRegisterWrite n addr value size s
  | .badRegisterAccess n addr size write => Sys2Proof.Machine.execBadRegisterAccess n addr size write s
  | .mmaComplete c => Sys2Proof.Machine.execMmaComplete c s
  | .hingeComplete c => Sys2Proof.Machine.execHingeComplete c s
  | .tkeysComplete c => Sys2Proof.Machine.execTkeysComplete c s
  | .tprobeComplete c => Sys2Proof.Machine.execTprobeComplete c s
  | .ksendComplete c => Sys2Proof.Machine.execKsendComplete c s
  | .scalarLoadReturn c => Sys2Proof.Machine.execScalarLoadReturn c s
  | .hostLinkUp n => Sys2Proof.Machine.execHostLinkUp n s
  | .perstRelease n => Sys2Proof.Machine.execPerstRelease n s
  | .modRstNRelease => Sys2Proof.Machine.execModRstNRelease s
  | .perstaNRelease => Sys2Proof.Machine.execPerstaNRelease s
  | .archiveLinkUp controllers found reqs => Sys2Proof.Machine.execArchiveLinkUp controllers found reqs s
  | .ackGapExpiry d flow cls => Sys2Proof.Machine.execAckGapExpiry d flow cls s
  | .clkBackupBad => Sys2Proof.Machine.execClkBackupBad s

end Sys2Proof.Machine
end

