-- ==== Sys2Proof/Safety.lean ====
section
/-! DEFINITION. The terms in which claims about the module are made: the canonical form of a state, when a word can issue, and
what an instruction leaves behind. -/
namespace Sys2Proof.Machine

/-! ### Canonical form -/

/-- The register words and the memory of a state are in their canonical form. -/
def StateWf (s : State) : Prop := smWf (resetWord s.fuses) 0 s.regs = true ∧ Memory.wf s.mem = true

/-- What no command changes: the commands that wait, and the fuses. -/
def SameOutside (s t : State) : Prop := t.pending = s.pending ∧ t.fuses = s.fuses

/-! ### Issue of a word (R97, R98, R100, R101, R104, R133) -/

/-- The sequencer of logical core `c`, whose state is `l`, has a word to issue that lies in the CODE section. -/
def atWord (c : Nat) (l : LCore) (s : State) : Bool :=
  getL s c == some l && s.img.isSome && !l.halted && !l.stopped && l.resident && l.block.isNone &&
  !(getP s l.phys).fenced && !(getP s l.phys).hwStopped && quadOn s l.phys && decide (l.pc + 8 ≤ l.codeBytes)

/-- The word's encoding, level and unit pass the checks of R133. -/
def wordOk (r : Req) (s : State) : Bool :=
  !r.undef && decide (r.level ≤ imgLevel s) && (hasTumbler s.fuses || !(r.q == qT || r.q == qK))

/-- p[PRED] XOR PNEG (R98). -/
def predOn (l : LCore) (r : Req) : Bool := readP l r.pred != r.pneg

/-- The word issues now: nothing that R100 or R401 names makes it wait. -/
def canIssue (c : Nat) (l : LCore) (r : Req) (s : State) : Bool :=
  atWord c l s && wordOk r s && predOn l r && !(r.q == qS && storeHeld l) && !r.regs.any (regPending l)

/-- The logical core has nothing in its queues, no wait under way and no keyring emptying owed. -/
def coreEmpty (l : LCore) : Bool :=
  l.qs == List.replicate 9 [] && l.waits == [] && l.emptyAt == []

/-- For a row of the instruction set: the logical core that issues the word, and what R104 gives the operation: its queue, its
level, whether the encoding at hand is defined, and the scalar registers it reads or writes. -/
def issueOf (s : State) : Instr → Option (Fin 256 × Req)
  | .nop c (.nop f) => some (c, reqA f false [])
  | .nop c (.undef w) => some (c, undefReq w)
  | .add c f | .sub c f | .and c f | .or c f | .xor c f | .shl c f | .shr c f | .sra c f | .mul c f | .mulhu c f
  | .min c f | .max c f => some (c, reqA f false [f.xd, f.xa, f.xb])
  | .li c f | .lui c f => some (c, ⟨qS, f.pred, f.pneg, false, 1, [f.xd]⟩)
  | .cmp c f => some (c, reqA f (decide (f.xd.toNat / 8 ≥ 6)) [f.xa, f.xb])
  | .plog c f => some (c, reqA f false [])
  | .ld c f => some (c, reqA f false [f.xd, f.xa])
  | .st c f => some (c, reqA f false [f.xa, f.xb])
  | .br c f => some (c, ⟨qS, f.pred, f.pneg, f.zero != 0, 1, []⟩)
  | .brr c f => some (c, reqA f false [f.xa])
  | .call c f => some (c, ⟨qS, f.pred, f.pneg, f.zero != 0, 1, [63]⟩)
  | .dld c f | .dst c f => some (c, reqD qS 1 f (!ctrlZero 0 f) [f.xa])
  | .dins c f => some (c, reqD qS 1 f (fieldUndef f) [f.xb])
  | .dext c f => some (c, reqD qS 1 f (fieldUndef f) [f.xa])
  | .dmov c f => some (c, reqD qS 1 f (!ctrlZero 0 f) [])
  | .dadv c f => some (c, reqD qS 1 f (!ctrlZero 3 f) [f.xb])
  | .halt c f => some (c, reqA f false [])
  | .detent c f => some (c, reqY qS 1 f (!yZero 0 f) [f.xa])
  | .mma c f => some (c, reqD qM 1 f (!ctrlZero 8 f || partUndef s f) (if f.ctrl.toNat.testBit 7 then [f.xa] else []))
  | .drain c f => some (c, reqD qM 1 f (!ctrlZero 6 f || bits f.ctrl.toNat 3 2 == 3 || partUndef s f)
      (f.xa :: if f.ctrl.toNat.testBit 5 then [f.xb] else []))
  | .hinge c f => some (c, reqD qM 2 f (!ctrlZero 3 f || decide (6 ≤ bits f.ctrl.toNat 0 3)) [f.xa])
  | .aclr c f => some (c, reqD qM 1 f (!ctrlZero 3 f) [])
  | .tkeys c f => some (c, reqD qT 2 f (!ctrlZero 1 f) [])
  | .tprobe c f => some (c, reqD qT 2 f (!ctrlZero 2 f) [f.xa])
  | .tclr c f => some (c, reqD qT 2 f (!ctrlZero 1 f) [])
  | .tcap c f => some (c, reqD qT 2 f (!ctrlZero 0 f) [f.xa])
  | .vadd c f => some (c, vReq 0x0 1 f)
  | .vsub c f => some (c, vReq 0x1 1 f)
  | .vmul c f => some (c, vReq 0x2 1 f)
  | .vfma c f => some (c, vReq 0x3 1 f)
  | .vmin c f => some (c, vReq 0x4 1 f)
  | .vmax c f => some (c, vReq 0x5 1 f)
  | .vcmp c f => some (c, vReq 0x6 1 f)
  | .vexp2 c f => some (c, vReq 0x8 1 f)
  | .vlog2 c f => some (c, vReq 0x9 1 f)
  | .vrsqrt c f => some (c, vReq 0xa 1 f)
  | .vrcp c f => some (c, vReq 0xb 1 f)
  | .vpadd c f => some (c, vReq 0x10 1 f)
  | .vpred c f => some (c, vReq 0x11 1 f)
  | .vpfold c f => some (c, vReq 0x12 1 f)
  | .vpack c f => some (c, vReq 0x18 1 f)
  | .vunpack c f => some (c, vReq 0x19 1 f)
  | .vres c f => some (c, vReq 0x20 2 f)
  | .vresadd c f => some (c, vReq 0x21 2 f)
  | .xload c f | .xstore c f => some (c, reqD qX 1 f (!ctrlZero 0 f) [f.xa])
  | .xgather c f | .xscatter c f => some (c, reqD qX 1 f (!ctrlZero 3 f) [])
  | .xpose c f => some (c, reqD qX 1 f (!ctrlZero 15 f) [])
  | .xcopy c f => some (c, reqD qX 1 f (!ctrlZero 0 f) [])
  | .kroute c f => some (c, reqD qK 2 f (!ctrlZero 1 f) [f.xa])
  | .ksendDispatch c f => some (c, reqD qK 2 f false [f.xa, f.xb])
  | .ksendAnswer c f => some (c, reqD qK 2 f false [])
  | .kcomb c f => some (c, reqD qK 2 f (bits f.ctrl.toNat 0 2 != 0) [f.xa])
  | .kepoch c f => some (c, reqD qK 2 f (!ctrlZero 0 f) [f.xa])
  | .gred c f => some (c, reqD qG 2 f false [f.xa, f.xb])
  | .gallg c f => some (c, reqD qG 1 f (!ctrlZero 0 f) [f.xb])
  | .gbcast c f => some (c, reqD qG 1 f (!ctrlZero 0 f) [f.xa, f.xb])
  | .stepOpen c f => some (c, reqF 2 f [f.xa, f.xb])
  | .stepCommit c f => some (c, reqF 2 f [f.xa])
  | .fwait c f => some (c, reqY qF 2 f (!yZero 0 f) [f.xa])
  | .fnow c f => some (c, reqF 2 f [f.xd])
  | .csig c f => some (c, reqY qC 1 f (!yZero 0 f) [f.xa, f.xb])
  | .cwait c f => some (c, reqY qC 1 f (!yZero 0 f) [])
  | .cset c f => some (c, reqY qC 1 f (!yZero 2 f) [f.xa])
  | .cread c f => some (c, reqY qC 1 f (!yZero 0 f) [f.xa])
  | _ => none
where
  /-- The V operations (R608). -/
  vReq (op level : Nat) (f : FmtD) : Req :=
    reqD qV level f (vUndef op f) (if f.ctrl.toNat.testBit 0 then [f.xa] else [])

/-! ### What an instruction of the S queue leaves -/

/-- The logical core passes one word: only its register files, its pc and its issue number may differ. -/
def passed (c : Nat) (l l' : LCore) (s t : State) : Prop :=
  t = setL c l' s ∧ l' = { l with x := l'.x, p := l'.p, d := l'.d, pc := l.pc + 8, seq := l.seq + 1 }

/-- The word is passed and scalar register `rd` holds `v`; x0 reads as zero and every other register reads as before. -/
def WritesX (c : Nat) (l : LCore) (rd : BitVec 6) (v : Word) (s t : State) : Prop :=
  ∃ l', passed c l l' s t ∧ l'.p = l.p ∧ l'.d = l.d ∧ ∀ r, readX l' r = if r = rd ∧ rd ≠ 0 then v else readX l r

/-- The word is passed and predicate `rd` holds `v`; p0 reads as 1 and every other predicate reads as before. -/
def WritesP (c : Nat) (l : LCore) (rd : BitVec 3) (v : Bool) (s t : State) : Prop :=
  ∃ l', passed c l l' s t ∧ l'.x = l.x ∧ l'.d = l.d ∧ ∀ r, readP l' r = if r = rd ∧ rd ≠ 0 then v else readP l r

/-- The word is passed and descriptor register `rd` holds `v`; every other descriptor register reads as before. -/
def WritesD (c : Nat) (l : LCore) (rd : BitVec 5) (v : Desc) (s t : State) : Prop :=
  ∃ l', passed c l l' s t ∧ l'.x = l.x ∧ l'.p = l.p ∧ ∀ r, readD l' r = if r = rd then v else readD l r

/-! ### What an instruction of the other queues leaves (R64, R99, R244) -/

/-- The logical core once a word is passed. -/
def passedCore (l : LCore) : LCore := { l with pc := l.pc + 8, seq := l.seq + 1 }

/-- The logical core once a word is passed and stands alone in queue `q` of an otherwise empty logical core. -/
def issuedCore (q : Nat) (e : QE) (l : LCore) : LCore := { passedCore l with qs := (List.replicate 9 []).set q [e] }

/-- The entry of a format D operation, with the operands as they stand at issue (R99). -/
def entryD (op : Nat) (l : LCore) (f : FmtD) : QE := newEntry l (.ins (capD op l f f.ctrl.toNat))

/-- The only entry of the logical core's queues is `e`, in queue `q`. -/
def soleEntry (q : Nat) (e : QE) (l : LCore) : Bool :=
  l.qs == (List.replicate 9 []).set q [e] && l.waits == [] && l.emptyAt == [] && l.block != some .halt

/-- The scratch port of the logical core's physical core is on a side: `true` the transfer side (R244). -/
def portTo (xfer : Bool) (l : LCore) (s : State) : State :=
  if (getP s l.phys).xferSide = xfer then s else modP l.phys (fun p => { p with xferSide := xfer }) s

end Sys2Proof.Machine
end

