-- ==== Sys2Proof/Certificates/Slice0/Obligations.lean ====
section
/-! DEFINITION. The statements for the provers, in the order of the opcode table's families. A statement about an instruction
holds for every operand value its format admits; its conclusion gives the whole next state, so it is the frame as well. -/
open Sys2Proof Sys2Proof.Machine

/-! ### The block: queue of commands, canonical forms, reset -/

/-- A step executes the command at the front of the queue on the state with the queue's rest; an empty queue idles 1 ns of the
local timebase (DESIGN CHOICE, assumption 1). -/
def Obligations.StepRunsFrontCommand : Prop :=
  (∀ (i : Instr) (rest : List Instr) (s : State), s.pending = i :: rest → step s = exec i { s with pending := rest }) ∧
  (∀ s : State, s.pending = [] → step s = .next { s with now := s.now + 1 })

/-- Every command answers a next state, which leaves the queue and the fuses as they are and keeps the canonical form of the
register words and of the memory. -/
def Obligations.EveryCommandKeepsCanonicalForm : Prop :=
  ∀ (i : Instr) (s : State), ∃ t, exec i s = .next t ∧ SameOutside s t ∧ (StateWf s → StateWf t)

/-- Every step keeps the canonical form of the state, whatever waits in the queue. -/
def Obligations.StepKeepsCanonicalForm : Prop :=
  ∀ s : State, StateWf s → ∃ t, step s = .next t ∧ StateWf t ∧ t.fuses = s.fuses

/-- The state after reset is in canonical form. -/
def Obligations.ResetCanonicalForm : Prop := StateWf State.reset

/-! ### The S queue -/

/-- R98: a word whose predicate is off is passed and changes nothing else; an undefined encoding raises `UNDEF_OP`, and a word of
an absent unit `ABSENT_UNIT`, whatever the predicate. -/
def Obligations.DisabledInstructionOnlyPasses : Prop :=
  ∀ (i : Instr) (c : Fin 256) (r : Req) (s : State) (l : LCore), issueOf s i = some (c, r) → atWord c l s = true →
    (wordOk r s = true → predOn l r = false → exec i s = .next (setL c { l with pc := l.pc + 8, seq := l.seq + 1 } s)) ∧
    (r.undef = true ∨ imgLevel s < r.level → exec i s = .next (programFault c r.q l.pc cUNDEF_OP s)) ∧
    (r.undef = false → r.level ≤ imgLevel s → (r.q = qT ∨ r.q = qK) → hasTumbler s.fuses = false →
      exec i s = .next (programFault c r.q l.pc cABSENT_UNIT s))

/-- R105: a sequencer that comes to fetch past the last word of the CODE section raises `BRANCH_TARGET`.

R100: an instruction that reads or writes a register with a write pending changes nothing; its sender sends it again. -/
def Obligations.FetchFaultsAndPendingRegisters : Prop :=
  (∀ (i : Instr) (c : Fin 256) (r : Req) (s : State) (l : LCore), issueOf s i = some (c, r) → getL s c = some l →
    seqReady s l = true → l.codeBytes < l.pc + 8 → exec i s = .next (programFault c qS l.pc cBRANCH_TARGET s)) ∧
  (∀ (i : Instr) (c : Fin 256) (r : Req) (s : State) (l : LCore), issueOf s i = some (c, r) → atWord c l s = true →
    wordOk r s = true → predOn l r = true → r.regs.any (regPending l) = true → exec i s = .next s)

/-- R104: the scalar operations of format A, with b = x[xb] + IMM32 sign-extended; NOP does nothing but pass.

R104: LI loads IMM44 sign-extended; LUI replaces xd[63:20] and keeps xd[19:0].

R104: CMP writes pd = a COND b with pd and COND in the halves of the xd field; COND 6 and 7 are undefined. PLOG writes pd by
IMM32[1:0]. -/
def Obligations.ScalarAndPredicateOperations : Prop :=
  (∀ (c : Fin 256) (f : FmtA) (s : State) (l : LCore), canIssue c l (reqA f false []) s = true →
    exec (.nop c (.nop f)) s = .next (setL c { l with pc := l.pc + 8, seq := l.seq + 1 } s)) ∧
  (∀ (c : Fin 256) (f : FmtA) (s : State) (l : LCore), canIssue c l (reqA f false [f.xd, f.xa, f.xb]) s = true →
    let a := readX l f.xa
    let b := readX l f.xb + f.imm.signExtend 64
    (∃ t, exec (.add c f) s = .next t ∧ WritesX c l f.xd (a + b) s t) ∧
    (∃ t, exec (.sub c f) s = .next t ∧ WritesX c l f.xd (a - b) s t) ∧
    (∃ t, exec (.and c f) s = .next t ∧ WritesX c l f.xd (a &&& b) s t) ∧
    (∃ t, exec (.or c f) s = .next t ∧ WritesX c l f.xd (a ||| b) s t) ∧
    (∃ t, exec (.xor c f) s = .next t ∧ WritesX c l f.xd (a ^^^ b) s t) ∧
    (∃ t, exec (.shl c f) s = .next t ∧ WritesX c l f.xd (BitVec.ofNat 64 (a.toNat * 2 ^ (b.toNat % 64))) s t) ∧
    (∃ t, exec (.shr c f) s = .next t ∧ WritesX c l f.xd (BitVec.ofNat 64 (a.toNat / 2 ^ (b.toNat % 64))) s t) ∧
    (∃ t, exec (.sra c f) s = .next t ∧ WritesX c l f.xd (BitVec.ofInt 64 (a.toInt / 2 ^ (b.toNat % 64))) s t) ∧
    (∃ t, exec (.mul c f) s = .next t ∧ WritesX c l f.xd (BitVec.ofNat 64 (a.toNat * b.toNat)) s t) ∧
    (∃ t, exec (.mulhu c f) s = .next t ∧ WritesX c l f.xd (BitVec.ofNat 64 (a.toNat * b.toNat / 2 ^ 64)) s t) ∧
    (∃ t, exec (.min c f) s = .next t ∧ WritesX c l f.xd (if a.toInt ≤ b.toInt then a else b) s t) ∧
    (∃ t, exec (.max c f) s = .next t ∧ WritesX c l f.xd (if a.toInt ≤ b.toInt then b else a) s t)) ∧
  (∀ (c : Fin 256) (f : FmtL) (s : State) (l : LCore), canIssue c l ⟨qS, f.pred, f.pneg, false, 1, [f.xd]⟩ s = true →
    (∃ t, exec (.li c f) s = .next t ∧ WritesX c l f.xd (f.imm.signExtend 64) s t) ∧
    (∃ t v, exec (.lui c f) s = .next t ∧ WritesX c l f.xd v s t ∧ v.extractLsb' 20 44 = f.imm ∧
      v.extractLsb' 0 20 = (readX l f.xd).extractLsb' 0 20)) ∧
  (∀ (c : Fin 256) (f : FmtA) (s : State) (l : LCore), canIssue c l (reqA f (decide (f.xd.toNat / 8 ≥ 6)) [f.xa, f.xb]) s = true →
    let a := readX l f.xa
    let b := readX l f.xb + f.imm.signExtend 64
    let v := [decide (a = b), decide (a ≠ b), decide (a.toInt < b.toInt), decide (a.toInt ≤ b.toInt), decide (a.toNat < b.toNat),
      decide (a.toNat ≤ b.toNat)].getD (f.xd.toNat / 8) false
    ∃ t, exec (.cmp c f) s = .next t ∧ WritesP c l (f.xd.extractLsb' 0 3) v s t) ∧
  (∀ (c : Fin 256) (f : FmtA) (s : State) (l : LCore), canIssue c l (reqA f false []) s = true →
    let a := readP l (f.xa.extractLsb' 0 3)
    let b := readP l (f.xb.extractLsb' 0 3)
    let v := [a && b, a || b, a != b, a && !b].getD (f.imm.toNat % 4) false
    ∃ t, exec (.plog c f) s = .next t ∧ WritesP c l (f.xd.extractLsb' 0 3) v s t)

/-- R104, R105: a branch to a multiple of 8 inside the CODE section moves the pc there, and CALL leaves pc + 8 in x63; any other
target raises `BRANCH_TARGET`. -/
def Obligations.Branches : Prop :=
  (∀ (c : Fin 256) (f : FmtB) (s : State) (l : LCore), canIssue c l ⟨qS, f.pred, f.pneg, f.zero != 0, 1, []⟩ s = true →
    let target : Int := (l.pc : Int) + 8 * f.off.toInt
    (0 ≤ target ∧ target < l.codeBytes ∧ target % 8 = 0 →
      exec (.br c f) s = .next (setL c { l with pc := target.toNat, seq := l.seq + 1 } s)) ∧
    (¬ (0 ≤ target ∧ target < l.codeBytes ∧ target % 8 = 0) →
      exec (.br c f) s = .next (programFault c qS l.pc cBRANCH_TARGET s))) ∧
  (∀ (c : Fin 256) (f : FmtA) (s : State) (l : LCore), canIssue c l (reqA f false [f.xa]) s = true →
    let target := (readX l f.xa).toNat
    (target < l.codeBytes ∧ target % 8 = 0 →
      exec (.brr c f) s = .next (setL c { l with pc := target, seq := l.seq + 1 } s)) ∧
    (¬ (target < l.codeBytes ∧ target % 8 = 0) → exec (.brr c f) s = .next (programFault c qS l.pc cBRANCH_TARGET s))) ∧
  (∀ (c : Fin 256) (f : FmtB) (s : State) (l : LCore), canIssue c l ⟨qS, f.pred, f.pneg, f.zero != 0, 1, [63]⟩ s = true →
    let target : Int := (l.pc : Int) + 8 * f.off.toInt
    (0 ≤ target ∧ target < l.codeBytes ∧ target % 8 = 0 →
      ∃ l', exec (.call c f) s = .next (setL c l' s) ∧ l' = { l with x := l'.x, pc := target.toNat, seq := l.seq + 1 } ∧
        ∀ r, readX l' r = if r = 63 then BitVec.ofNat 64 (l.pc + 8) else readX l r) ∧
    (¬ (0 ≤ target ∧ target < l.codeBytes ∧ target % 8 = 0) →
      exec (.call c f) s = .next (programFault c qS l.pc cBRANCH_TARGET s)))

/-- R100, R104, R105: an aligned LD or DLD in the core's own scratch or present HBM. DLD writes its descriptor register at once;
LD puts the bytes into the S queue, and SCALAR_LOAD_RETURN writes the register. A misaligned one raises `XF_ALIGN` and reads
nothing. R275: one that meets an uncorrectable error does not complete: an LD stays in the S queue, and a DLD does not issue. -/
def Obligations.ScalarLoads : Prop :=
  (∀ (c : Fin 256) (f : FmtA) (s : State) (l : LCore), canIssue c l (reqA f false [f.xd, f.xa]) s = true →
    let a := (readX l f.xa + f.imm.signExtend 64).toNat
    (a % 8 = 0 → (whereIs s l a 8 = .own ∨ whereIs s l a 8 = .hbm ∧ hbmBad s a 8 = false) → (queue l qS).length < 16 →
      exec (.ld c f) s = .next (setL c { l with pc := l.pc + 8, seq := l.seq + 1, qs := listMod l.qs qS fun es =>
        es ++ [{ newEntry l (.load f.xd.toNat (BitVec.ofNat 64 (leNat (s.mem.bytes a 8)))) with started := true }] } s)) ∧
    (a % 8 ≠ 0 → exec (.ld c f) s = .next (programFault c qS l.pc cXF_ALIGN s))) ∧
  (∀ (c : Fin 256) (f : FmtD) (s : State) (l : LCore), canIssue c l (reqD qS 1 f (f.ctrl != 0) [f.xa]) s = true →
    let a := (readX l f.xa).toNat
    (a % 32 = 0 → (whereIs s l a 32 = .own ∨ whereIs s l a 32 = .hbm ∧ hbmBad s a 32 = false) →
      ∃ t, exec (.dld c f) s = .next t ∧ WritesD c l f.dA (BitVec.ofNat 256 (leNat (s.mem.bytes a 32))) s t) ∧
    (a % 32 = 0 → whereIs s l a 32 = .hbm → hbmBad s a 32 = true → exec (.dld c f) s = .next s) ∧
    (a % 32 ≠ 0 → exec (.dld c f) s = .next (programFault c qS l.pc cXF_ALIGN s))) ∧
  (∀ (c : Fin 256) (s : State) (l : LCore) (e : QE) (es : List QE) (rd : BitVec 6) (v : Word), getL s c = some l →
    coreEmpty { l with qs := l.qs.set qS [] } = true → l.block ≠ some .halt → queue l qS = e :: es → es = [] →
    e.pl = .load rd.toNat v →
    (e.err ≠ none → exec (.scalarLoadReturn c) s = .next s) ∧
    (e.err = none → ∃ l', exec (.scalarLoadReturn c) s = .next (setL c l' s) ∧ l' = { l with x := l'.x, qs := List.replicate 9 [] } ∧
      ∀ r, readX l' r = if r = rd ∧ rd ≠ 0 then v else readX l r))

/-- R104, R105, R399: an aligned ST or DST to the core's own scratch, or to HBM that the image may store to and the latch does not
copy first, writes its bytes, least significant first, and no other byte; the granule of HBM becomes dirty (R410), and a
half-line written whole is free of its error (R275). A misaligned one raises `XF_ALIGN` and
writes nothing. -/
def Obligations.ScalarStores : Prop :=
  (∀ (c : Fin 256) (f : FmtA) (s : State) (l : LCore), canIssue c l (reqA f false [f.xa, f.xb]) s = true →
    let a := (readX l f.xa + f.imm.signExtend 64).toNat
    let l' := { l with pc := l.pc + 8, seq := l.seq + 1 }
    let stored := fun m : Mem => m.bytes a 8 = leBytes 8 (readX l f.xb).toNat ∧ ∀ b, ¬ (a ≤ b ∧ b < a + 8) → m.read b = s.mem.read b
    (a % 8 = 0 → (queue l qS).length < 16 → Memory.wf s.mem = true →
      (whereIs s l a 8 = .own → ∃ m, exec (.st c f) s = .next (setL c l' { s with mem := m }) ∧ stored m) ∧
      (whereIs s l a 8 = .hbm → storeAllowed s (some l) a 8 = true → (getGran s (a / granBytes)).st ≠ .copying →
        needsCopy (getGran s (a / granBytes)) = false →
        ∃ m, exec (.st c f) s = .next (setL c l' (clearBad a 8
          (setGran (a / granBytes) { getGran s (a / granBytes) with dirty := true } { s with mem := m }))) ∧ stored m)) ∧
    (a % 8 ≠ 0 → exec (.st c f) s = .next (programFault c qS l.pc cXF_ALIGN s))) ∧
  (∀ (c : Fin 256) (f : FmtD) (s : State) (l : LCore), canIssue c l (reqD qS 1 f (f.ctrl != 0) [f.xa]) s = true →
    operandErr l [f.dA] = none →
    let a := (readX l f.xa).toNat
    let l' := { l with pc := l.pc + 8, seq := l.seq + 1 }
    let stored := fun m : Mem => m.bytes a 32 = leBytes 32 (readD l f.dA).toNat ∧ ∀ b, ¬ (a ≤ b ∧ b < a + 32) → m.read b = s.mem.read b
    (a % 32 = 0 → (queue l qS).length < 16 → Memory.wf s.mem = true →
      (whereIs s l a 32 = .own → ∃ m, exec (.dst c f) s = .next (setL c l' { s with mem := m }) ∧ stored m) ∧
      (whereIs s l a 32 = .hbm → storeAllowed s (some l) a 32 = true → (getGran s (a / granBytes)).st ≠ .copying →
        needsCopy (getGran s (a / granBytes)) = false →
        ∃ m, exec (.dst c f) s = .next (setL c l' (clearBad a 32
          (setGran (a / granBytes) { getGran s (a / granBytes) with dirty := true } { s with mem := m }))) ∧ stored m)) ∧
    (a % 32 ≠ 0 → exec (.dst c f) s = .next (programFault c qS l.pc cXF_ALIGN s)))

/-- R104, R110, R111: DINS, DEXT and DMOV move whole registers or bit fields of descriptor registers; DADV moves BASE by whole
64-byte units, and one it cannot move raises `DESC_FORMAT`. R113: DEXT, DMOV, DADV and DST check the descriptor that they read. -/
def Obligations.DescriptorOperations : Prop :=
  (∀ (c : Fin 256) (f : FmtD) (s : State) (l : LCore), canIssue c l (reqD qS 1 f (fieldUndef f) [f.xb]) s = true →
    ∃ t v, exec (.dins c f) s = .next t ∧ WritesD c l f.dA v s t ∧ ∀ i, v.getLsbD i =
      if fieldPos f ≤ i ∧ i < fieldPos f + fieldLen f then (readX l f.xb).getLsbD (i - fieldPos f) else (readD l f.dA).getLsbD i) ∧
  (∀ (c : Fin 256) (f : FmtD) (s : State) (l : LCore), canIssue c l (reqD qS 1 f (fieldUndef f) [f.xa]) s = true →
    operandErr l [f.dA] = none → ∃ t v, exec (.dext c f) s = .next t ∧ WritesX c l f.xa v s t ∧ ∀ i, v.getLsbD i =
      (decide (i < fieldLen f) && (readD l f.dA).getLsbD (fieldPos f + i))) ∧
  (∀ (c : Fin 256) (f : FmtD) (s : State) (l : LCore), canIssue c l (reqD qS 1 f (f.ctrl != 0) []) s = true →
    operandErr l [f.dB] = none → ∃ t, exec (.dmov c f) s = .next t ∧ WritesD c l f.dA (readD l f.dB) s t) ∧
  (∀ (c : Fin 256) (f : FmtD) (s : State) (l : LCore), canIssue c l (reqD qS 1 f (!ctrlZero 3 f) [f.xb]) s = true →
    operandErr l [f.dA] = none →
    let d := readD l f.dA
    let i := f.ctrl.toNat % 8
    let moved : Int := (readX l f.xb).toInt * dStride d i * dBits d
    let ok := moved % 512 = 0 ∧ i < dRank d ∧ 0 ≤ (dBase d : Int) + moved / 8 ∧ (dBase d : Int) + moved / 8 < 2 ^ 43
    (ok → ∃ t v, exec (.dadv c f) s = .next t ∧ WritesD c l f.dA v s t ∧ (dBase v : Int) = dBase d + moved / 8 ∧
      v.extractLsb' 37 219 = d.extractLsb' 37 219) ∧
    (¬ ok → exec (.dadv c f) s = .next (programFault c qS l.pc cDESC_FORMAT s))) ∧
  (∀ (c : Fin 256) (f : FmtD) (s : State) (l : LCore), ∀ row ∈ [(Instr.dst c f, f.dA), (.dext c f, f.dA), (.dmov c f, f.dB), (.dadv c f, f.dA)],
    ∀ r code, issueOf s row.1 = some (c, r) → canIssue c l r s = true → operandErr l [row.2] = some code →
    exec row.1 s = .next (programFault c qS l.pc code s))

/-! ### HALT, DETENT and the M queue -/

/-- R104, R132: HALT on a logical core with empty queues ends it, unless it has a step open, which is `STEP_SEQUENCE`; the last core
to halt ends the image with `OK`.

R115, R221: DETENT stops issue with its queue mask and live-bank mask and empties the keyrings once the T queue is empty; it is
released when what was issued before it in its queues has completed, and until then DETENT_RELEASE changes nothing. R91: nor does it
while a doubled core at its swap point owes the other logical core a swap. -/
def Obligations.HaltAndDetent : Prop :=
  (∀ (c : Fin 256) (f : FmtA) (s : State) (l : LCore), canIssue c l (reqA f false []) s = true → coreEmpty l = true →
    let s' := setL c { passedCore l with halted := true, block := none } s
    (l.inStep = false → exec (.halt c f) s = .next
      (if s'.lcores.all (fun l => l.halted) then imageEnd cOK 0 s' else openTry s')) ∧
    (l.inStep = true → exec (.halt c f) s = .next (programFault c qS l.pc cSTEP_SEQUENCE s))) ∧
  (∀ (c : Fin 256) (f : FmtY) (s : State) (l : LCore), canIssue c l (reqY qS 1 f (f.ctrl != 0) [f.xa]) s = true → coreEmpty l = true →
    exec (.detent c f) s = .next (setL c { emptyKeyrings (passedCore l) with
      block := some (.detent f.qmask.toNat l.seq ((readX l f.xa).toNat % 2 ^ 48)) } s)) ∧
  (∀ (c : Fin 256) (s : State) (l : LCore) (mask n banks : Nat), getL s c = some l → l.block = some (.detent mask n banks) →
    (coreRuns s l = true → coreEmpty l = true → (mask.testBit qG = true → l.greds = []) → (swapPoint s l && swapOwed s l) = false →
      exec (.detentRelease c) s = .next (setL c { l with block := none } s)) ∧
    (swapPoint s l = true → swapOwed s l = true → exec (.detentRelease c) s = .next s) ∧
    (queuesDone l mask n = false → exec (.detentRelease c) s = .next s))

/-- R141, R143, R158, R221: on an empty logical core HINGE clears every accumulator and restarts the partitions, sets mode and
tags, and empties the keyrings; ACLR clears one set of a running partition's arrays. -/
def Obligations.HingeAndClear : Prop :=
  (∀ (c : Fin 256) (f : FmtD) (s : State) (l : LCore), issueOf s (.hinge c f) = some (c, reqD qM 2 f (!ctrlZero 3 f ||
      decide (6 ≤ bits f.ctrl.toNat 0 3)) [f.xa]) → canIssue c l (reqD qM 2 f (!ctrlZero 3 f || decide (6 ≤ bits f.ctrl.toNat 0 3))
      [f.xa]) s = true → coreEmpty l = true →
    let h : Hinge := ⟨f.ctrl.toNat % 8, (List.range 4).map fun k => bits (readX l f.xa).toNat (16 * k) 16⟩
    exec (.hinge c f) s = .next (setL c { emptyKeyrings (issuedCore qM { entryD 2 l f with started := true } l) with
      hinge := h, hingeIssued := h, acc := [], accDims := [], partStop := [], engStop := [] } s)) ∧
  (∀ (c : Fin 256) (f : FmtD) (s : State) (l : LCore), canIssue c l (reqD qM 1 f (!ctrlZero 3 f) []) s = true → coreEmpty l = true →
    let k := capD 3 l f f.ctrl.toNat
    mPart k < partCount (imgLevel s) l.hinge.mode → l.partStop.contains (mPart k) = false →
    exec (.aclr c f) s = .next (setL c (accClear (if imgLevel s = 1 then [0] else partArrays (imgLevel s) l.hinge.mode (mPart k)) (mSet k)
      (passedCore l)) s))

/-- R152, R157, R171, R183, R244: an MMA of one pass that passes its checks accumulates its products into its set at its start,
with the scratch port on the compute side, and names M and N for the drain; one that names no partition of the mode raises
`MM_PART`. R153: an MMA that needs more than one pass, with no entry behind it, neither starts nor faults. -/
def Obligations.SinglePassMma : Prop :=
  ∀ (c : Fin 256) (f : FmtD) (s : State) (l : LCore) (r : Req), issueOf s (.mma c f) = some (c, r) → canIssue c l r s = true →
    coreEmpty l = true → operandErr l ([f.dA, f.dB] ++ if f.ctrl.toNat.testBit 6 then [f.dC] else []) = none →
    let e := entryD 0 l f
    let k := capD 0 l f f.ctrl.toNat
    let l1 := issuedCore qM e l
    let s1 := setL c l1 s
    let shape := partShape (imgLevel s) l.hinge.mode
    (∀ o, mPart k < partCount (imgLevel s) l.hinge.mode → mmaOps s1 l1 k = .ok o → l.partStop.contains (mPart k) = false →
      o.m ≤ shape.1 → o.n ≤ shape.2 → passBad o 0 shape.1 = none →
      exec (.mma c f) s = .next (setL c (setEntry qM 0 { e with started := true } (setDims (mPart k) (mSet k) (o.m, o.n)
        (mmaSingle l1 k o (imgLevel s) (ceilDiv o.k o.g)))) (portTo false l s1))) ∧
    (mPart k < partCount (imgLevel s) l.hinge.mode → l.partStop.contains (mPart k) = false → mmaFolded s1 l1 k = true →
      exec (.mma c f) s = .next s1) ∧
    (partCount (imgLevel s) l.hinge.mode ≤ mPart k → exec (.mma c f) s = .next (coreEnd c (programFault c qM l.pc cMM_PART s1)))

/-- R186, R187: a DRAIN that names a scale record waits in the queue until SCALE_RECORD_READ has brought the record's 128 bytes, which it
does not where the read meets an uncorrectable error (R275); one without a record that passes its checks stores its outputs at its start. -/
def Obligations.DrainStart : Prop :=
  (∀ (c : Fin 256) (f : FmtD) (s : State) (l : LCore) (r : Req), issueOf s (.drain c f) = some (c, r) → canIssue c l r s = true →
    coreEmpty l = true → operandErr l [f.dD] = none →
    let e := entryD 1 l f
    let k := capD 1 l f f.ctrl.toNat
    let l1 := issuedCore qM e l
    let s1 := setL c l1 s
    let mode := l.hinge.mode
    let shape := partShape (imgLevel s) mode
    let mn := drainDims (imgLevel s) l k
    let out := fun i j => if i < shape.1 ∧ j < shape.2 then accGet l mode (mPart k) (mSet k) i j else pairZero
    mPart k < partCount (imgLevel s) mode → l.partStop.contains (mPart k) = false →
    (k.xa ≠ 0 → exec (.drain c f) s = .next (setL c (issuedCore qM { e with srec := .unread } l) s)) ∧
    (k.xa = 0 → drainCheck (portTo false l s1) l1 k none mn.1 mn.2 = none →
      (drainDo (portTo false l s1) c l1 e k [(0, 0)] mn.1 mn.2 (max shape.1 mn.1) (max shape.2 mn.2) out).2.2 = none →
      ∃ t e', drainDo (portTo false l s1) c l1 e k [(0, 0)] mn.1 mn.2 (max shape.1 mn.1) (max shape.2 mn.2) out = (t, e', none) ∧
        exec (.drain c f) s = .next (setL c (issuedCore qM e' l) t))) ∧
  (∀ (c : Fin 256) (s : State) (l : LCore) (e : QE) (k : CapD), getL s c = some l → soleEntry qM e l = true → e.pl = .ins k →
    e.srec = .unread →
    let e' := { e with srec := .read (if recPlaced s k.xa.toNat then s.mem.bytes k.xa.toNat 128 else []) }
    (¬ (recPlaced s k.xa.toNat = true ∧ hbmBad s k.xa.toNat 128 = true) →
      exec (.scaleRecordRead c) s = .next (pump c (setL c { l with qs := (List.replicate 9 []).set qM [e'] } s))) ∧
    (recPlaced s k.xa.toNat = true → hbmBad s k.xa.toNat 128 = true → exec (.scaleRecordRead c) s = .next s)) ∧
  (∀ (c : Fin 256) (s : State) (l : LCore) (e : QE) (k : CapD) (bs : List Byte), getL s c = some l → soleEntry qM e l = true →
    e.pl = .ins k → k.op = 1 → e.started = true → e.paired = false → e.streamOut = none → e.recOut = some bs →
    let s' := memPut k.xa.toNat bs (setL c (setEntry qM 0 { e with recOut := none, srec := .read bs } l) s)
    latHolds s' k.xa.toNat 128 = false →
    exec (.drainComplete c) s = .next (setL c { l with qs := List.replicate 9 [] } s'))

/-! ### The T queue -/

/-- R218 to R227: on an empty logical core TKEYS loads the keyring of its engine from a panel that passes its checks, TPROBE writes
its result, TCLR empties the keyring, and TCAP sets the segment cap; a cap outside 64 to 4,096 raises `TB_CAP`. -/
def Obligations.TumblerOperations : Prop :=
  (∀ (c : Fin 256) (f : FmtD) (s : State) (l : LCore) (k : Keyring), canIssue c l (reqD qT 2 f (!ctrlZero 1 f) []) s = true →
    coreEmpty l = true → operandErr l [f.dB] = none → l.engStop.contains (f.ctrl.toNat % 2) = false →
    tkeysErr s.mem l (readD l f.dB) = none → tkeysLoad s.mem l (readD l f.dB) = .ok k →
    let l1 := issuedCore qT { entryD 0 l f with started := true } l
    exec (.tkeys c f) s = .next (setL c (setKeyring (f.ctrl.toNat % 2) k l1) (portTo false l s))) ∧
  (∀ (c : Fin 256) (f : FmtD) (s : State) (l : LCore) (m : Mem), canIssue c l (reqD qT 2 f (!ctrlZero 2 f) [f.xa]) s = true →
    coreEmpty l = true → operandErr l [f.dA, f.dD] = none → l.engStop.contains (f.ctrl.toNat % 2) = false →
    let k := capD 1 l f f.ctrl.toNat
    tprobeErr s.mem l k = none → tprobeRun s.mem l k = .ok m →
    exec (.tprobe c f) s = .next { portTo false l (setL c (issuedCore qT { entryD 1 l f with started := true } l) s) with mem := m }) ∧
  (∀ (c : Fin 256) (f : FmtD) (s : State) (l : LCore), canIssue c l (reqD qT 2 f (!ctrlZero 1 f) []) s = true →
    coreEmpty l = true → l.engStop.contains (f.ctrl.toNat % 2) = false →
    exec (.tclr c f) s = .next (setL c (setKeyring (f.ctrl.toNat % 2) keyringEmpty (passedCore l)) s)) ∧
  (∀ (c : Fin 256) (f : FmtD) (s : State) (l : LCore), canIssue c l (reqD qT 2 f (f.ctrl != 0) [f.xa]) s = true →
    coreEmpty l = true →
    (64 ≤ (readX l f.xa).toNat ∧ (readX l f.xa).toNat ≤ 4096 →
      exec (.tcap c f) s = .next (setL c { passedCore l with cap := (readX l f.xa).toNat } s)) ∧
    (¬ (64 ≤ (readX l f.xa).toNat ∧ (readX l f.xa).toNat ≤ 4096) →
      exec (.tcap c f) s = .next (coreEnd c (programFault c qT l.pc cTB_CAP (setL c (issuedCore qT (entryD 3 l f) l) s)))))

/-! ### The V queue -/

/-- R104, R257, R608 to R610: a V operation whose operands pass their checks writes every valid position of dD with its result
on those of its sources, and leaves everything else of the module as it is; one that fails a check writes nothing and faults as an
instruction of the stream engine does (R270). -/
def Obligations.VectorOperations : Prop :=
  ∀ (c : Fin 256) (f : FmtD) (s : State) (l : LCore), coreEmpty l = true → ∀ row ∈ [(Instr.vadd c f, 0x0), (.vsub c f, 0x1),
      (.vmul c f, 0x2), (.vfma c f, 0x3), (.vmin c f, 0x4), (.vmax c f, 0x5), (.vcmp c f, 0x6), (.vexp2 c f, 0x8), (.vlog2 c f, 0x9),
      (.vrsqrt c f, 0xa), (.vrcp c f, 0xb), (.vpadd c f, 0x10), (.vpred c f, 0x11), (.vpfold c f, 0x12), (.vpack c f, 0x18),
      (.vunpack c f, 0x19), (.vres c f, 0x20), (.vresadd c f, 0x21)], ∀ r, issueOf s row.1 = some (c, r) → canIssue c l r s = true →
    let op := row.2
    let k := capD op l f f.ctrl.toNat
    let reads := [f.dA] ++ (if vReadsB op && !vScalar k then [f.dB] else []) ++ (if vReadsC op then [f.dC] else []) ++ [f.dD]
    let s' := portTo false l (setL c (passedCore l) s)
    operandErr l reads = none →
    (vErr l k = none → exec row.1 s = .next { s' with mem := (vWrites s.mem k).foldl (fun m w => putElem k.dD w.1 w.2 m) s.mem }) ∧
    (∀ err, vErr l k = some err → exec row.1 s = .next (coreEnd c (streamFault c qV l.pc op err.1 err.2 s')))

/-- R106, R188, R312, R319, R608, R610: the value that a V operation gives each valid position w of dD, for the operations that work
position by position, from the source elements at w. -/
def Obligations.VectorResults : Prop :=
  ∀ (m : Mem) (k : CapD),
    let ws := (positions (dLens k.dD)).filter (posValid k.dD)
    let a := fun w => srcWord m k.dA w
    let b := fun w => if vScalar k then BitVec.ofNat 32 (k.xa.toNat % 2 ^ 32) else srcWord m k.dB w
    (k.op = 0 → vWrites m k = ws.map fun w => (w, (fadd (a w) (b w)).toNat)) ∧
    (k.op = 1 → vWrites m k = ws.map fun w => (w, (fsub (a w) (b w)).toNat)) ∧
    (k.op = 2 → vWrites m k = ws.map fun w => (w, (fmul (a w) (b w)).toNat)) ∧
    (k.op = 3 → vWrites m k = ws.map fun w => (w, (ffma (a w) (b w) (srcWord m k.dC w)).toNat)) ∧
    (k.op = 4 → vWrites m k = ws.map fun w => (w, (fmin (a w) (b w)).toNat)) ∧
    (k.op = 5 → vWrites m k = ws.map fun w => (w, (fmax (a w) (b w)).toNat)) ∧
    (k.op = 6 → vWrites m k = ws.map fun w => (w, (vcmp (bits k.ctrl 1 3) (a w) (b w)).toNat)) ∧
    (k.op = 8 → vWrites m k = ws.map fun w => (w, (fexp2 (a w)).toNat)) ∧
    (k.op = 9 → vWrites m k = ws.map fun w => (w, (flog2 (a w)).toNat)) ∧
    (k.op = 0xa → vWrites m k = ws.map fun w => (w, (frsqrt (a w)).toNat)) ∧
    (k.op = 0xb → vWrites m k = ws.map fun w => (w, (frcp (a w)).toNat)) ∧
    (k.op = 0x20 → vWrites m k = ws.map fun w => (w, residue (a w))) ∧
    (k.op = 0x21 → vWrites m k = ws.map fun w => (w, (resAdd (a w) (b w)).toNat))

/-! ### The X queue -/

/-- R107, R250 to R262: an X operation without a remote operand that passes its checks, and reads no half-line with an error, makes its
writes in their order at its start, with the scratch port on the transfer side where an operand lies in scratch, and stays in the
queue until XTRANSFER_COMPLETE.

R399, R401: where the latch holds none of them, all of them land at once. -/
def Obligations.LocalTransfers : Prop :=
  ∀ (c : Fin 256) (f : FmtD) (s : State) (l : LCore), coreEmpty l = true →
    ∀ row ∈ [(Instr.xload c f, 0, [f.dA, f.dD]), (.xstore c f, 1, [f.dA, f.dD]), (.xgather c f, 2, [f.dA, f.dB, f.dD]),
      (.xscatter c f, 3, [f.dA, f.dB, f.dD]), (.xpose c f, 4, [f.dA, f.dD]), (.xcopy c f, 5, [f.dA, f.dD])],
    ∀ r rs, issueOf s row.1 = some (c, r) → canIssue c l r s = true → operandErr l row.2.2 = none →
    let e := entryD row.2.1 l f
    let k := capD row.2.1 l f f.ctrl.toNat
    let l1 := issuedCore qX e l
    let s1 := setL c l1 s
    let x := xData s.mem k
    let e' := xBegun e [] false (xDstLocal rs)
    let s2 := xCount l.die x (if rs.any (·.side == .scratch) then portTo true l s1 else s1)
    csDie s l.die 3 = false → xRemote s k = false → xCheck s1 l1 k s.mem = .ok rs → xBad s k rs = false →
    exec row.1 s = .next (xWrite c 0 e' (xWrites c x) s2) ∧
    ((∀ w ∈ xWrites c x, w.a < hbmEnd → mustHold s (w.a / granBytes) = false) →
      exec row.1 s = .next (setL c (issuedCore qX e' l)
        ((xWrites c x).foldl (fun s w => if hbmEnd ≤ w.a then { s with mem := w.put s.mem } else granLand w s) s2)))

/-! ### The K and G queues -/

/-- R334 to R342, R350, R354, R355: a K operation that passes its checks, with no granule it writes held or to be copied first, runs
at its start: KROUTE routes its tokens and leaves, and the others do what they can now and wait for their completion. -/
def Obligations.KeywayOperations : Prop :=
  ∀ (c : Fin 256) (f : FmtD) (s : State) (l : LCore), coreEmpty l = true →
    ∀ row ∈ [(Instr.kroute c f, 0, f.ctrl.toNat, [f.dA, f.dC, f.dD]),
      (.ksendDispatch c f, 1, putBits f.ctrl.toNat 0 1 0, [f.dA, f.dB] ++ if f.ctrl.getLsbD 1 then [f.dC] else []),
      (.ksendAnswer c f, 1, putBits f.ctrl.toNat 0 1 1, [f.dA, f.dB]), (.kcomb c f, 2, f.ctrl.toNat, [f.dD]),
      (.kepoch c f, 3, f.ctrl.toNat, [])],
    ∀ r, issueOf s row.1 = some (c, r) → canIssue c l r s = true → operandErr l row.2.2.2 = none →
    let e := newEntry l (.ins (capD row.2.1 l f row.2.2.1))
    let k := capD row.2.1 l f row.2.2.1
    let l1 := issuedCore qK e l
    let s1 := portTo true l (setL c l1 s)
    kErr s1 l1 k = none → latAwait (kWrites s1 k) s1 = none → startOne c (kDo c 0 l1 e k s1) = none →
    exec row.1 s = .next (coreEnd c (kDo c 0 l1 e k s1))

/-- R104, R108, R300, R303, R304: a G operation is checked when it reaches the head of its queue. One that names no launch time then
runs: GRED launches its share, where its tensor holds no error (R275), and GALLG and GBCAST move their tensors. One that names a time
waits, and COLLECTIVE_LAUNCH runs it once the time is reached.

In a run of one module the gathered tensor is dA itself, and a broadcast leaves dA as it is; in a run of several the valid positions of
the destination hold values that one module does not determine (assumption 51). -/
def Obligations.CollectiveOperations : Prop :=
  (∀ (c : Fin 256) (f : FmtD) (s : State) (l : LCore), coreEmpty l = true →
    ∀ row ∈ [(Instr.gred c f, 0, [f.dA, f.dD]), (.gallg c f, 1, [f.dA, f.dD]), (.gbcast c f, 2, [f.dA])],
    ∀ r, issueOf s row.1 = some (c, r) → canIssue c l r s = true → operandErr l row.2.2 = none →
    let e := entryD row.2.1 l f
    let e' := { e with checked := true }
    let k := capD row.2.1 l f f.ctrl.toNat
    let l1 := issuedCore qG e l
    let s1 := setL c l1 s
    let port := fun s => if [k.dA, gOut k].any (fun d => xScratchKind (extent d).1) then portTo true l s else s
    (k.xb = 0 → row.2.1 = 0 → gredErr s1 l1 k = none → l.greds.length < 64 → hbmBad s (extent k.dA).1 (extent k.dA).2 = false →
      let t := gredLaunch c e' k (setL c (passedCore l) s)
      startOne c t = none → exec row.1 s = .next (coreEnd c t)) ∧
    (k.xb = 0 → row.2.1 ≠ 0 → gmoveErr s1 l1 k = none → gOpen s k = true → latAwait [extent (gOut k)] s = none →
      exec row.1 s = .next (forgetValid (gOut k) (setL c (passedCore l) (port s)))) ∧
    (k.xb = 0 → row.2.1 ≠ 0 → gmoveErr s1 l1 k = none → gOpen s k = false →
      exec row.1 s = .next (gWrite c e' (gWrites c k s.mem) (port (setL c (issuedCore qG e' l) s))) ∧
      ((∀ w ∈ gWrites c k s.mem, w.a < hbmEnd → mustHold s (w.a / granBytes) = false) → exec row.1 s = .next (setL c (passedCore l)
        ((gWrites c k s.mem).foldl (fun s w => if hbmEnd ≤ w.a then { s with mem := w.put s.mem } else granLand w s) (port s))))) ∧
    (k.xb ≠ 0 → (if row.2.1 = 0 then gredErr s1 l1 k else gmoveErr s1 l1 k) = none →
      exec row.1 s = .next (setL c (issuedCore qG e' l) s)) ∧
    (∀ code, (if row.2.1 = 0 then gredErr s1 l1 k else gmoveErr s1 l1 k) = some code →
      exec row.1 s = .next (coreEnd c (programFault c qG l.pc code (setL c (passedCore l) s))))) ∧
  (∀ (c : Fin 256) (s : State) (l : LCore) (e : QE) (k : CapD), getL s c = some l → coreRuns s l = true → soleEntry qG e l = true →
    e.pl = .ins k → e.checked = true → e.started = false → isLocked s = true →
    (k.xb.toNat ≤ (replicaTime s l.die).toNat → inTurn s 4 k.xb.toNat = true → k.op = 0 → l.greds.length < 64 →
      hbmBad s (extent k.dA).1 (extent k.dA).2 = false →
      exec (.collectiveLaunch c) s = .next (pump c (gredLaunch c e k (setL c { l with qs := List.replicate 9 [] } s)))) ∧
    (k.xb.toNat ≤ (replicaTime s l.die).toNat → inTurn s 4 k.xb.toNat = true → k.op ≠ 0 → ∀ t, gmoveStart c l e k s = some t →
      exec (.collectiveLaunch c) s = .next (pump c t)) ∧
    (¬ k.xb.toNat ≤ (replicaTime s l.die).toNat → exec (.collectiveLaunch c) s = .next s))

/-- R161, R227, R250, R342, R355: the completion of a started instruction that is alone in its queue empties the queue and changes
nothing else.

R354: a KCOMB that waits alone in the K queue combines its rows once every record in its range has all its answers, and leaves;
with an answer missing nothing changes.

R248: STAGING_READ reads the sources of the only transfer waiting, a local XLOAD or XGATHER, ahead while its checks pass and it reads
no half-line with an error; the bytes come from HBM as it stands, up to 64 KiB. -/
def Obligations.QueuesMoveOn : Prop :=
  (∀ (c : Fin 256) (s : State) (l : LCore) (e : QE) (k : CapD), getL s c = some l → e.started = true → e.pl = .ins k →
    let t := setL c { l with qs := List.replicate 9 [] } s
    (soleEntry qM e l = true → k.op = 0 → e.paired = false → exec (.mmaComplete c) s = .next t) ∧
    (soleEntry qM e l = true → k.op = 2 → exec (.hingeComplete c) s = .next t) ∧
    (soleEntry qT e l = true → k.op = 0 → exec (.tkeysComplete c) s = .next t) ∧
    (soleEntry qT e l = true → k.op = 1 → exec (.tprobeComplete c) s = .next t) ∧
    (soleEntry qX e l = true → xDone e = true → exec (.xTransferComplete c) s = .next t) ∧
    (soleEntry qK e l = true → k.op = 1 → ((kWrites s k).any fun w => latHolds s w.1 w.2) = false → ksendLeft s c = true →
      exec (.ksendComplete c) s = .next t) ∧
    (soleEntry qK e l = true → k.op = 3 → coreRuns s l = true → kepochDrained s k = true →
      ((kWrites s k).any fun w => latHolds s w.1 w.2) = false → exec (.kepochComplete c) s = .next t)) ∧
  (∀ (c : Fin 256) (s : State) (l : LCore) (e : QE) (k : CapD), getL s c = some l → coreRuns s l = true → soleEntry qK e l = true →
    e.started = true → e.pl = .ins k → k.op = 2 →
    (kcombReady s k = true → (kcombRows (bufRead s.mem k.xa.toNat) k (rowsOf k.dD) 0 s.mem).2 = none →
      exec (.kcombResumes c) s = .next (setL c { l with qs := List.replicate 9 [] }
        { s with mem := (kcombRows (bufRead s.mem k.xa.toNat) k (rowsOf k.dD) 0 s.mem).1 })) ∧
    (kcombReady s k = false → exec (.kcombResumes c) s = .next s)) ∧
  (∀ (c : Fin 256) (s : State) (l : LCore) (e : QE) (k : CapD) (rs : List XRange), getL s c = some l → coreRuns s l = true →
    soleEntry qX e l = true → e.started = false → e.staged = none → e.err = none → e.flight = flightNone → e.pl = .ins k →
    (k.op = 0 ∨ k.op = 2) → xRemote s k = false → xCheck s l k s.mem = .ok rs → xBad s k rs = false →
    ∃ bs, exec (.stagingRead c) s = .next (setL c { l with qs := (List.replicate 9 []).set qX [{ e with staged := some bs }] } s) ∧
      (∀ p ∈ bs, p.2 = s.mem.bytes p.1 p.2.length) ∧ (bs.map fun p => p.2.length).sum ≤ 65536)

/-! ### The C and F queues -/

/-- R117, R118: on an empty logical core CSET sets the target and REARM of a catch and clears its counter where asked, and CREAD
writes the counter, zero-extended, to its register.

R116, R117, R122: CSIG enters the C queue with its word and amount, or raises `CATCH_RANGE` at issue; sent, a signal to a catch
of the module is delivered here and the queue is empty.

R119, R123: a CWAIT or FWAIT that names no other queue leaves an empty logical core's queue at once and is armed; issue goes on.

R47, R51, R118, R119, R123: an armed wait, the only one of an otherwise empty logical core, ends when its catch is reached, taking the
target off a catch that rearms, or when its system time is reached and no earlier event still comes before it; before that nothing
changes. -/
def Obligations.CatchesAndWaits : Prop :=
  (∀ (c : Fin 256) (f : FmtY) (s : State) (l : LCore), canIssue c l (reqY qC 1 f (!yZero 2 f) [f.xa]) s = true → coreEmpty l = true →
    let i := f.imm.toNat % 128
    exec (.cset c f) s = .next (setL c (setCatch i ⟨if f.ctrl.getLsbD 1 then 0 else (catchOf l i).counter,
      (readX l f.xa).truncate 32, f.ctrl.getLsbD 0⟩ (passedCore l)) s)) ∧
  (∀ (c : Fin 256) (f : FmtY) (s : State) (l : LCore), canIssue c l (reqY qC 1 f (f.ctrl != 0) [f.xa]) s = true → coreEmpty l = true →
    ∃ t, exec (.cread c f) s = .next t ∧ WritesX c l f.xa ((catchOf l (f.imm.toNat % 128)).counter.zeroExtend 64) s t) ∧
  (∀ (c : Fin 256) (f : FmtY) (s : State) (l : LCore), canIssue c l (reqY qC 1 f (f.ctrl != 0) [f.xa, f.xb]) s = true →
    coreEmpty l = true →
    (csigBad s (readX l f.xa) = false → exec (.csig c f) s = .next (setL c (issuedCore qC (newEntry l
      (.csig (readX l f.xa) ((readX l f.xb + f.imm.zeroExtend 64).truncate 32) f.qmask.toNat)) l) s)) ∧
    (csigBad s (readX l f.xa) = true → exec (.csig c f) s = .next (programFault c qC l.pc cCATCH_RANGE s))) ∧
  (∀ (c : Fin 256) (s : State) (l : LCore) (e : QE) (w : Word) (amount : BitVec 32) (mask : Nat), getL s c = some l →
    coreRuns s l = true → soleEntry qC e l = true → e.pl = .csig w amount mask → cwRemote w = false →
    (queuesDone l mask e.n = true → exec (.csigSend c) s = .next (deliver (mkPacket s 0 (ownId s) 15 l.die s.fab.nextTag
      (.catchSig w amount)) (setL c { l with qs := List.replicate 9 [] } s))) ∧
    (queuesDone l mask e.n = false → exec (.csigSend c) s = .next s)) ∧
  (∀ (c : Fin 256) (f : FmtY) (s : State) (l : LCore), coreEmpty l = true → f.qmask = 0 →
    (canIssue c l (reqY qC 1 f (f.ctrl != 0) []) s = true → exec (.cwait c f) s = .next (setL c { passedCore l with
      waits := [{ newEntry l (.wait (.reach (f.imm.toNat % 128)) 0) with started := true }] } s)) ∧
    (canIssue c l (reqY qF 2 f (f.ctrl != 0) [f.xa]) s = true → exec (.fwait c f) s = .next (setL c { passedCore l with
      waits := [{ newEntry l (.wait (.time (readX l f.xa + f.imm.zeroExtend 64)) 0) with started := true }] } s))) ∧
  (∀ (c : Fin 256) (s : State) (l : LCore) (e : QE), getL s c = some l → coreRuns s l = true → l.qs = List.replicate 9 [] →
    l.waits = [e] → l.emptyAt = [] → l.block = none →
    (∀ i : Fin 128, e.pl = .wait (.reach i) 0 →
      let k := catchOf l i
      (k.target.toNat ≤ k.counter.toNat → exec (.cwaitEnds c i) s = .next (setL c { (if k.rearm then setCatch i { k with
        counter := k.counter - k.target } l else l) with waits := [] } s)) ∧
      (¬ k.target.toNat ≤ k.counter.toNat → exec (.cwaitEnds c i) s = .next s)) ∧
    (∀ t : Word, e.pl = .wait (.time t) 0 →
      (isLocked s = true → t.toNat ≤ (replicaTime s l.die).toNat → inTurn s 4 t.toNat = true → exec (.fwaitFires c) s = .next (setL c { l with waits := [] } s)) ∧
      (isLocked s = false → exec (.fwaitFires c) s = .next s)))

/-- R121: a signal that would take a counter above 2^32 - 1 leaves it at 2^32 - 1, and the die records `CATCH_OVERFLOW`, which is
no fatal record. Nothing else changes, but that a signal which another module's packet brought is taken and answered (R375). -/
def Obligations.CatchCounterSaturates : Prop :=
  (∀ (w : Word) (amount : BitVec 32) (s : State) (l : LCore), s.fab.inbound = [] → cwLcore w < lcoreCount s →
    getL s (cwLcore w) = some l →
    let k := catchOf l (cwIndex w)
    2 ^ 32 ≤ k.counter.toNat + amount.toNat → exec (.catchSignal w amount) s = .next (reportCore cCATCH_OVERFLOW 0 l.phys
      (BitVec.ofNat 64 (cwLcore w * 65536 + cwIndex w)) (setL (cwLcore w) (setCatch (cwIndex w) { k with counter := 0xFFFFFFFF } l) s))) ∧
  (∀ (w : Word) (amount : BitVec 32) (p : Packet) (s : State) (l : LCore), s.fab.inbound = [p] → p.body = .catchSig w amount →
    p.src ≠ ownId s → pktStale s p = false → cwLcore w < lcoreCount s → getL s (cwLcore w) = some l →
    let k := catchOf l (cwIndex w)
    2 ^ 32 ≤ k.counter.toNat + amount.toNat → exec (.catchSignal w amount) s = .next (answerPkt p (dieOf s (cwLcore w)) .writeAck
      (reportCore cCATCH_OVERFLOW 0 l.phys (BitVec.ofNat 64 (cwLcore w * 65536 + cwIndex w)) (setL (cwLcore w)
        (setCatch (cwIndex w) { k with counter := 0xFFFFFFFF } l) (takePacket p s))))) ∧
  Code.fatal cCATCH_OVERFLOW = false

/-- R92, R118, R120: a catch signal that comes from this module, or that no packet brought, adds to the counter of the catch it
names. R71, R122, R375: one that another module's packet brought does so as well and is acknowledged; that of an old attempt is counted
and only acknowledged, and one for a logical core out of range is refused.

R122, R269, R375: the refusal of a signal is a `CATCH_RANGE` fault of the CSIG that sent it; the refusal of a transfer's access
raises the code that came, against the instruction, which keeps it until it reaches the head of the queue where it has only been read
ahead (R268); with no such access open nothing changes. -/
def Obligations.SignalsAndRefusals : Prop :=
  (∀ (w : Word) (amount : BitVec 32) (s : State) (l : LCore), s.fab.inbound = [] → cwLcore w < lcoreCount s →
    getL s (cwLcore w) = some l →
    let k := catchOf l (cwIndex w)
    k.counter.toNat + amount.toNat < 2 ^ 32 → exec (.catchSignal w amount) s = .next (setL (cwLcore w) (setCatch (cwIndex w)
      { k with counter := k.counter + amount } l) s)) ∧
  (∀ (w : Word) (amount : BitVec 32) (p : Packet) (s : State), s.fab.inbound = [p] → p.body = .catchSig w amount → p.src ≠ ownId s →
    let die := dieOf s (cwLcore w)
    let s1 := takePacket p s
    (pktStale s p = true → exec (.catchSignal w amount) s = .next (answerPkt p die .writeAck (addFld FAB_COUNT_STALE 1 s1))) ∧
    (pktStale s p = false → lcoreCount s ≤ cwLcore w →
      exec (.catchSignal w amount) s = .next (answerPkt p die (.refusal cCATCH_RANGE 0) s1)) ∧
    (∀ l, pktStale s p = false → cwLcore w < lcoreCount s → getL s (cwLcore w) = some l →
      let k := catchOf l (cwIndex w)
      k.counter.toNat + amount.toNat < 2 ^ 32 → exec (.catchSignal w amount) s = .next (answerPkt p die .writeAck
        (setL (cwLcore w) (setCatch (cwIndex w) { k with counter := k.counter + amount } l) s1)))) ∧
  (∀ (c : Fin 256) (p : Packet) (s : State) (t : Txn), s.fab.inbound = [p] → s.fab.txns = [t] → t.lcore = c.val → p.tag.toNat = t.tag →
    (t.read = false → p.body = .refusal cCATCH_RANGE 0 → exec (.catchRefusal c t.addr) s = .next (programFault c qC t.addr cCATCH_RANGE
      (txnTake t.tag (ackOwe (dieOf s c) p (flowAck 0 (dieOf s c) p.src.toNat 1 (takePacket p s)))))) ∧
    (∀ code addr, p.body = .refusal code addr → exec (.remoteRefusal c p.tag code addr) s =
      exec (.remoteRefusal c p.tag code addr) (ackOwe p.destDie.toNat p (flowAck 0 p.destDie.toNat p.src.toNat 1 (takePacket p s))))) ∧
  (∀ (c : Fin 256) (s : State) (t : Txn), s.fab.inbound = [] → s.fab.txns = [t] → t.lcore = c.val → t.read = false →
    exec (.catchRefusal c t.addr) s = .next (programFault c qC t.addr cCATCH_RANGE (txnTake t.tag s))) ∧
  (∀ (c : Fin 256) (off : Nat) (s : State), s.fab.txns = [] → exec (.catchRefusal c off) s = .next s) ∧
  (∀ (c : Fin 256) (s : State) (l : LCore) (e : QE) (k : CapD) (t : Txn) (code : BitVec 16) (addr : Nat), s.fab.inbound = [] →
    s.fab.txns = [t] → t.lcore = c.val → t.tag < 65536 → getL s c = some l → soleEntry qX e l = true → e.n = t.n → e.pl = .ins k →
    let s' := { s with fab := { s.fab with txns := [] } }
    (e.started = true → exec (.remoteRefusal c (BitVec.ofNat 16 t.tag) code addr) s =
      .next (pump c (xFail c 0 e k (code, some (xGlobal k addr)) s'))) ∧
    (e.started = false → exec (.remoteRefusal c (BitVec.ofNat 16 t.tag) code addr) s = .next (pump c
      (setL c { l with qs := (List.replicate 9 []).set qX [{ e with err := some (code, some (xGlobal k addr)), flight := flightNone }] } s')))) ∧
  (∀ (c : Fin 256) (tag code : BitVec 16) (addr : Nat) (s : State), s.fab.txns = [] →
    exec (.remoteRefusal c tag code addr) s = .next s)

/-- R73, R124, R127 to R130, R614: FNOW writes the time that the die's replica holds. A STEP.OPEN of the next step number with a valid
write set saves the core's registers and waits for, or joins, the step. A STEP.COMMIT of the open step makes the core's share
ready. -/
def Obligations.StepInstructions : Prop :=
  (∀ (c : Fin 256) (f : FmtA) (s : State) (l : LCore), canIssue c l (reqF 2 f [f.xd]) s = true → coreEmpty l = true →
    ∃ t, exec (.fnow c f) s = .next t ∧ WritesX c l f.xd (replicaTime s l.die) s t) ∧
  (∀ (c : Fin 256) (f : FmtA) (s : State) (l : LCore) (ws : List (Nat × Nat)), canIssue c l (reqF 2 f [f.xa, f.xb]) s = true →
    coreEmpty l = true → l.loop = false → l.inStep = false → (readX l f.xa).toNat = s.step.next →
    let sv : Saved := ⟨l.x, l.p, l.d, l.hingeIssued, l.streams, l.pc + 8⟩
    let e := newEntry l (.stepOpen (readX l f.xa) (readX l f.xb) f.imm.toNat sv)
    let s1 := setL c (issuedCore qF e l) s
    wsList s1 (issuedCore qF e l) (readX l f.xb) f.imm.toNat = some ws →
    let e' := { e with started := true, flight := { flightNone with dst := ws.map fun w => (w.1, w.2 * granBytes) } }
    let l' := { issuedCore qF e' l with opened := true, saved := some (readX l f.xa, sv) }
    let t := openTry (cutStreams c s.step.next l.streams (setL c l' s))
    startOne c t = none → exec (.stepOpen c f) s = .next (coreEnd c t)) ∧
  (∀ (c : Fin 256) (f : FmtA) (s : State) (l : LCore), canIssue c l (reqF 2 f [f.xa]) s = true → coreEmpty l = true →
    l.loop = false → l.inStep = true → l.ready = false → l.greds = [] → (readX l f.xa).toNat = s.step.next →
    exec (.stepCommit c f) s = .next (setL c { emptyKeyrings (issuedCore qF { newEntry l (.stepCommit (readX l f.xa)) with
      started := true } l) with closing := true, ready := true, block := none } s))

/-! ### Register fields and the error ring -/

/-- A register field that is written reads as the value, cut to its width, and every field that shares no bit with it reads as
before; a counter field saturates (R11, R12). -/
def Obligations.RegisterFields : Prop :=
  ∀ (f g : Fld) (v : Nat) (s : State), f.lo + f.w ≤ 64 →
    fld (setFld f v s) f = v % 2 ^ f.w ∧ fld (addFld f v s) f = min (fld s f + v) (2 ^ f.w - 1) ∧
    (f.addr ≠ g.addr ∨ g.lo + g.w ≤ f.lo ∨ f.lo + f.w ≤ g.lo → fld (setFld f v s) g = fld s g ∧ fld (addFld f v s) g = fld s g)

/-- R520 to R525: a non-fatal code that none of the last 16 unreleased records coalesces, with room in the general area, takes the
ring slot at the tail with the next sequence number, its source, the system time and the detail, COUNT 1; tail and sequence
number go on by one. A report that coalesces updates the newest such record and writes no other. A full area takes no record and
counts in the lost counter of its class. What reporting a code writes is the error ring, registers, the journal store and messages
to hosts. -/
def Obligations.ReportRecordsCode : Prop :=
  ∀ (code : Code) (src : Nat) (detail : Word) (s : State), code.fatal = false →
    let t := report code src detail s
    let lost : Fld := ⟨rERR_LOST (code.toNat / 256 / 4), 16 * (code.toNat / 256 % 4), 16⟩
    (errMatch s false code src = none → errUsed s false < 4032 →
      (∃ r, smFind t.err.recs (s.err.written % 4032) = some r ∧ r.code = code ∧ r.source = src ∧ r.detail = detail ∧ r.count = 1 ∧
        r.seq = fld s ERR_STAT_SEQ_NEXT ∧ r.time = sysTime s ∧ r.fatal = false) ∧
      t.err.written = s.err.written + 1 ∧ fld t ERR_GEN_TAIL = (fld s ERR_GEN_TAIL + 1) % 65536 ∧ fld t ERR_STAT_SEQ_NEXT = (fld s ERR_STAT_SEQ_NEXT + 1) % 2 ^ 32) ∧
    (∀ k r, errMatch s false code src = some k → smFind s.err.recs k = some r →
      (∃ r', smFind t.err.recs k = some r' ∧ r' = { r with count := satAdd 16 r.count 1, span := r'.span, detail := detail, coalesced := true }) ∧
      (∀ j, j ≠ k → smFind t.err.recs j = smFind s.err.recs j) ∧ fld t ERR_GEN_TAIL = fld s ERR_GEN_TAIL) ∧
    (errMatch s false code src = none → 4032 ≤ errUsed s false → t.err.recs = s.err.recs ∧ fld t ERR_GEN_TAIL = fld s ERR_GEN_TAIL ∧
      (code.toNat < 0x1000 → fld t lost = min (fld s lost + 1) 65535)) ∧
    t.mem = s.mem ∧ t.lcores = s.lcores ∧ t.step = s.step ∧ t.img = s.img ∧ t.fab = s.fab ∧ t.frame = s.frame

/-! ### Frames (R33 to R52) -/

/-- R38, R40, R50: a FRAME_BOUNDARY without an early correction begins the next frame at b(f+1), which passes in local time; the
frame's tick is recorded, lock state, steps' cores and memory are as they were.

R39, R45: the close of a frame's correction window without a correction sends a locked unit into holdover, one frame further;
with a correction it only marks the window closed. -/
def Obligations.FramesBeginAndHoldOver : Prop :=
  (∀ s : State, live s = true → s.frame.early = none → ∃ t, exec .frameBoundary s = .next t ∧
    t.frame.f = (s.frame.f + 1) % 2 ^ 48 ∧ t.frame.b = s.frame.bNext ∧ t.frame.len0 = frameLen s ∧
    t.frame.bNext = s.frame.bNext + frameLen s ∧ t.frame.corr = none ∧ t.frame.closed = false ∧ t.now = max s.now s.frame.bNext ∧
    fld t FRM_TICK_AT_TICK = tickNow s % 2 ^ 32 ∧ fld t FRM_STAT_STATE = fld s FRM_STAT_STATE ∧
    t.lcores = s.lcores ∧ t.mem = s.mem ∧ t.img = s.img) ∧
  (∀ s : State, live s = true → s.frame.closed = false → s.frame.corr = none → 2 ≤ fld s FRM_STAT_STATE →
    fld s FRM_STAT_HOLD_COUNT + 1 ≤ holdLimit s → fld s FRM_STAT_HOLD_COUNT < 31 →
    ∃ t, exec .correctionWindowClose s = .next t ∧ fld t FRM_STAT_STATE = 3 ∧ fld t FRM_STAT_LOCKED = 1 ∧
      fld t FRM_STAT_HOLD_COUNT = fld s FRM_STAT_HOLD_COUNT + 1 ∧ t.frame = { s.frame with closed := true } ∧
      fld t FRM_COUNT_HOLDOVER_FRAMES = min (fld s FRM_COUNT_HOLDOVER_FRAMES + 1) 65535 ∧ t.mem = s.mem ∧ t.lcores = s.lcores) ∧
  (∀ s : State, live s = true → s.frame.closed = false → s.frame.corr.isSome = true →
    exec .correctionWindowClose s = .next { s with frame := { s.frame with closed := true } })

/-- R37, R38, R43, R44: the first parent estimate of a FREE unit, an edge or the parent's packet, is a correction: the unit goes to
ACQUIRE, and at ROOT the next boundary will bear START_FRAME. Edges of a unit that is off or follows a parent, and packets
from unlocked senders or with 8 hops or more, change nothing, but that the packet is taken from its port. -/
def Obligations.FirstEstimateStartsAcquire : Prop :=
  (∀ (e : Nat) (s : State), live s = true → fldOn s FRM_CTRL_ENABLE = true → fld s FRM_CTRL_ROLE ≠ 0 → fld s FRM_STAT_STATE = 0 →
    s.frame.corr = none → ∃ t, exec (.frameInEdge e) s = .next t ∧ fld t FRM_STAT_STATE = 1 ∧ fld t FRM_STAT_LOCKED = 0 ∧
      t.frame.est = some (e, s.frame.f) ∧ t.frame.f = s.frame.f ∧ t.now = max s.now e ∧
      (fld s FRM_CTRL_ROLE = 2 → t.frame.sysF = some ((fld s FRM_START_START_FRAME + 2 ^ 48 - 1) % 2 ^ 48)) ∧
      t.lcores = s.lcores ∧ t.mem = s.mem) ∧
  (∀ (e : Nat) (s : State), live s = true → fldOn s FRM_CTRL_ENABLE = false ∨ fld s FRM_CTRL_ROLE = 0 →
    exec (.frameInEdge e) s = .next s) ∧
  (∀ (n : Fin 16) (p : FramePkt) (s : State), live s = true → fldOn s FRM_CTRL_ENABLE = true →
    fld s FRM_CTRL_ROLE = 0 → portUp s n = true → (fld s FRM_CTRL_PARENT_MASK).testBit n = true → 2 ≤ fld s (pVersion n) →
    p.locked = true → p.hops < 8 → s.frame.senders = [] → fld s FRM_STAT_STATE = 0 → s.frame.corr = none →
    ∃ t, exec (.framePacket n p) s = .next t ∧ fld t FRM_STAT_STATE = 1 ∧ fld t FRM_STAT_PARENT_PORT = n.val ∧
      fld t FRM_STAT_HOPS = p.hops + 1 ∧ t.frame.parent = some n.val ∧
      t.frame.est = some (p.arrival - p.emit - fld s (pDelay n), s.frame.f) ∧ t.frame.sysF = some p.frame.toNat ∧ t.mem = s.mem) ∧
  (∀ (n : Fin 16) (p : FramePkt) (s : State), live s = true → p.locked = false ∨ 8 ≤ p.hops →
    exec (.framePacket n p) s = .next (frameTake p s) ∧ frameTake p s = { s with fab := (frameTake p s).fab } ∧
    (s.fab.inbound = [] → frameTake p s = s))

/-! ### Steps: vote, commit, abort, repeat (R53 to R58, R321 to R327, R437 to R442) -/

/-- R53, R305: a module whose cores' shares of the open attempt are all ready votes: its state is VOTED, and its vote goes to the
root and to the deputy, where the module knows it; a share not ready sends nothing.

R53, R613: the root records a vote of the open step once; it designates the commit as soon as every member not escalated has
voted for the open attempt, and not before. A vote of another step is dropped.

R54, R56: a voted module passes a commit designation of its attempt on and keeps it until its frame; one whose frame has begun is
late: it is recorded as `COMMIT_LATE` and the step commits at once. Another module only takes the message.

R54, R131, R474: at the designated frame a locked, voted module commits its step: what commits releases the latch copies and
advances the step number; what waited for the latch lands, completed POSTs are answered, a cut due is taken, and the next step opens
in the gap. R135, R442, R475: a fault that the module had after its vote, or a STOP, ends the image at that commit instead. Without
a designation that is due nothing happens. -/
def Obligations.StepsAreVotedAndCommit : Prop :=
  (∀ s : State, live s = true →
    (shareReady s = true → exec .readyVote s = .next (sendRoot (.vote ⟨ownId s, BitVec.ofNat 64 s.step.next,
      BitVec.ofNat 8 s.step.attempt⟩) (setStepState 2 s)) ∧ fld (setStepState 2 s) RDU_STEP_STAT_STATE = 2) ∧
    (shareReady s = false → exec .readyVote s = .next s)) ∧
  (∀ (m : MemberMsg) (s : State), live s = true → inOrder (ctlIs (.vote m)) s = true →
    let s1 := takeCtl (.vote m) s
    let v := (m.member, m.attempt.toNat)
    let s2 := if s.step.votes.contains v then s1 else { s1 with step := { s1.step with votes := s1.step.votes ++ [v] } }
    (m.step.toNat ≠ s.step.next → exec (.readyVoteReceived m) s = .next s1) ∧
    (m.step.toNat = s.step.next → actsRoot s2 = false ∨ tallyOk s2 = false → exec (.readyVoteReceived m) s = .next s2) ∧
    (m.step.toNat = s.step.next → actsRoot s2 = true → s.step.tallied = false → tallyOk s2 = true → treeOf s ≠ [] →
      let d : Designation := ⟨BitVec.ofNat 64 s.step.next, BitVec.ofNat 8 s.step.attempt, commitFrame s2, false, []⟩
      exec (.readyVoteReceived m) s = .next (commitTake d (designate (.commit d) { s2 with step := { s2.step with tallied := true } })))) ∧
  (∀ (d : Designation) (s : State), live s = true → inOrder (ctlIs (.commit d)) s = true →
    let s1 := passOn (.commit d) s
    let s2 := { s1 with step := { s.step with commitF := some (s.step.next, d.frame) } }
    (stepState s = 2 → d.step.toNat = s.step.next → d.attempt.toNat = s.step.attempt → s.step.commitF = none →
      (isLocked s = false ∨ s.frame.f < d.frame → exec (.commitDesignation d) s = .next s2) ∧
      (isLocked s = true → d.frame ≤ s.frame.f → exec (.commitDesignation d) s = .next (commitDo (report cCOMMIT_LATE (srcOf 8 11 0)
        (BitVec.ofNat 64 s.step.next) (addFld FRM_COUNT_LATE_EVENTS 1 s2))))) ∧
    (stepState s ≠ 2 ∨ d.step.toNat ≠ s.step.next ∨ d.attempt.toNat ≠ s.step.attempt ∨ s.step.commitF ≠ none →
      exec (.commitDesignation d) s = .next (takeCtl (.commit d) s))) ∧
  (∀ (s : State) (i : Image) (f : Nat), live s = true → isLocked s = true → stepState s = 2 → s.step.commitF = some (s.step.next, f) →
    f ≤ s.frame.f → s.img = some i → s.step.failedStacks = [] →
    let s1 := postsCommit (heldAcks (storesLanded (commitCore s)))
    let s2 := match cutDue s1 with
      | some r => takeCut r s1
      | none => s1
    (i.faultPend = none → i.stopReq = none → exec .commitBoundary s = .next (pumpAll (openGap (portsOwed (ceFence s2))))) ∧
    (∀ code det, i.faultPend = some (code, det) → exec .commitBoundary s = .next (imageEnd code det (programFlood code s1))) ∧
    (i.faultPend = none → i.stopReq ≠ none → exec .commitBoundary s = .next (imageEnd cSTOPPED 0 s1)) ∧
    (commitCore s).step.next = s.step.next + 1 ∧ (commitCore s).step.votes = [] ∧ (commitCore s).step.commitF = none ∧
    fld (commitCore s) RDU_STEP_STAT_STATE = 0 ∧ fld (commitCore s) RDU_STEP_STAT_STEP = s.step.next % 2 ^ 32) ∧
  (∀ s : State, live s = true → s.step.commitF = none → exec .commitBoundary s = .next s)

/-- R129, R406: STEP_OPENS opens the first step once every core that takes part waits in its STEP.OPEN and the write sets fit the
latch part, protecting their granules, and starts what can start; the new placements and what the loop service dispatches to them come
first. Until every core waits there, or while the open step has none waiting, nothing opens.
POOL_WAIT_EXPIRY abandons pending tiers until it fits, and only at zero frames left. -/
def Obligations.StepOpens : Prop :=
  (∀ s : State, live s = true → stepIsOpen s = false →
    let s1 := applyMoves s
    (stepIsOpen s1 = false → s1.step.any = false → allOpened s1 = true → resumeWaits s1 = false → waitingOpens s1 ≠ [] → openRoom s1 = .fits →
      exec .stepOpens s = .next (pumpAll (runDeferred (takeOpens (stepBegin (s1.frame.f + 1) s1))))) ∧
    (stepIsOpen s1 = false → s1.step.any = true ∨ allOpened s1 = false ∨ resumeWaits s1 = true → exec .stepOpens s = .next (pumpAll s1))) ∧
  (∀ s : State, live s = true → stepIsOpen s = false → s.step.moves = [] → loopCores s = [] →
    (s.step.any = false → allOpened s = true → resumeWaits s = false → openRoom s = .fits →
      exec .stepOpens s = .next (pumpAll (runDeferred (takeOpens (stepBegin (s.frame.f + 1) s))))) ∧
    (s.step.any = true ∨ allOpened s = false ∨ resumeWaits s = true → exec .stepOpens s = .next (pumpAll s))) ∧
  (∀ s : State, live s = true → stepIsOpen s = true →
    (waitingOpens s = [] → exec .stepOpens s = .next (pumpAll s)) ∧
    (waitingOpens s ≠ [] → openRoom s = .fits → exec .stepOpens s = .next (pumpAll (takeOpens s)))) ∧
  (∀ (n : Nat) (s : State), fld (stepBegin n s) RDU_STEP_STAT_STATE = 1 ∧ (stepBegin n s).step.refFrame = n ∧ (stepBegin n s).step.any = true ∧
    (stepBegin n s).step.buckets = []) ∧
  (∀ s : State, live s = true → s.step.waitFrames = some 0 → exec .poolWaitExpiry s = .next (pumpAll (poolAbandon 2 s))) ∧
  (∀ s : State, live s = true → s.step.waitFrames ≠ some 0 → exec .poolWaitExpiry s = .next s)

/-- R321, R324, R325: a launched bucket past its deadline is reported once, LATE with a record when a share is missing and WAITING
otherwise, after the events of a lower class that are due no later (R51); the root notes a report or acknowledgement of the open step
once.

R131, R136, R323, R324: the root turns the first deadline report or abort request of its open, untallied attempt into a
STEP_ABORT, and a module obeys a STEP_ABORT of its open attempt, and one with cause PROGRAM in any attempt of the open step: the
attempt is aborted here, the state RESTORING, the buckets gone and the acknowledgement sent. Another abort of an aborted attempt is
only counted, and a module without an image passes it on. -/
def Obligations.AttemptsAreAborted : Prop :=
  (∀ (s : State) (b : Bucket), live s = true → isLocked s = true → stepState s = 1 → s.step.buckets = [b] → b.done = false →
    b.reported = false → (s.step.refFrame + b.deadline) * 65536 < (sysTime s).toNat →
    inTurn s 6 ((s.step.refFrame + b.deadline) * 65536 + 1) = true → b.id ≠ 0 →
    let s1 := { s with step := { s.step with buckets := [{ b with reported := true }] } }
    let k := if b.shares = b.launched.length then LateKind.waiting else .late
    exec (.contributionDeadline b.id) s = .next (sendRoot (.report ⟨ownId s, BitVec.ofNat 64 s.step.next, BitVec.ofNat 8 s.step.attempt,
      k, b.id⟩) (if k = .late then report cSTEP_LATE (srcOf 8 8 0) (BitVec.ofNat 64 b.id.toNat) s1 else s1))) ∧
  (∀ (id : BitVec 32) (s : State), live s = true → isLocked s = false ∨ stepState s ≠ 1 →
    exec (.contributionDeadline id) s = .next s) ∧
  (∀ (m : KindMsg) (s : State), live s = true → inOrder (ctlIs (.abortAck m)) s = true →
    let s1 := takeCtl (.abortAck m) s
    (m.step.toNat = s.step.next → s.step.acks.contains (m.member, m.kind, m.attempt.toNat) = false →
      exec (.abortAcknowledgement m) s = .next { s1 with step := { s1.step with acks := s1.step.acks ++
        [(m.member, m.kind, m.attempt.toNat)] } }) ∧
    (m.step.toNat ≠ s.step.next → exec (.abortAcknowledgement m) s = .next s1)) ∧
  (∀ (m : KindMsg) (s : State), live s = true → inOrder (ctlIs (.report m)) s = true →
    let s1 := ackNote m (takeCtl (.report m) s)
    (canFlood s = true → msgNow s m.step m.attempt = true → exec (.deadlineReport m) s = .next (abortHere (abortMsg s1 1 0
      (if m.kind = .late then m.member else 0xFFFF) m.bucket false) s1)) ∧
    (canFlood s = false ∨ msgNow s m.step m.attempt = false → exec (.deadlineReport m) s = .next s1)) ∧
  (∀ (m : AbortMsg) (s : State), live s = true → inOrder (ctlIs (.abort m)) s = true →
    let s1 := takeCtl (.abort m) s
    (canFlood s = true → msgNow s m.step m.attempt = true → exec (.abortRequest m) s = .next (abortHere { m with request := false } s1)) ∧
    (canFlood s = false ∨ msgNow s m.step m.attempt = false → exec (.abortRequest m) s = .next s1)) ∧
  (∀ (m : AbortMsg) (s : State), live s = true → inOrder (ctlIs (.abort m)) s = true →
    let s1 := takeCtl (.abort m) s
    (m.request = true → exec (.stepAbort m) s = .next s1) ∧
    (m.request = false → s.img ≠ none → m.step.toNat = s.step.next →
      m.cause = 3 ∨ m.attempt.toNat = s.step.attempt ∧ (stepState s = 1 ∨ stepState s = 2) → exec (.stepAbort m) s = .next (abortHere m s1)) ∧
    (m.request = false → s.img ≠ none → m.step.toNat = s.step.next → m.cause ≠ 3 → m.attempt.toNat < s.step.abortedBelow →
      m.attempt.toNat ≠ s.step.attempt ∨ stepState s ≠ 1 ∧ stepState s ≠ 2 →
      exec (.stepAbort m) s = .next (addFld RDU_STEP_COUNT_DUP_ABORTS 1 s1)) ∧
    (m.request = false → s.img = none → exec (.stepAbort m) s = .next (abortFlood m s1))) ∧
  (∀ (m : AbortMsg) (s : State), s.step.deferred = [] → m.cause ≠ 3 → s.step.attempt < 15 ∨ actsRoot s = false →
    let t := abortHere m s
    fld t RDU_STEP_STAT_STATE = 3 ∧ t.step.buckets = [] ∧ t.step.commitF = none ∧ t.step.abortedBelow = s.step.attempt + 1 ∧
    t.step.next = s.step.next ∧ t.step.attempt = s.step.attempt ∧
    t.lcores = s.lcores.map stopForAbort)

/-- R325 to R327, R437 to R439: at the closing frame the acting root escalates members late or missing twice and designates the next
attempt, HELD when a hold is in force. A module that awaits the repeat passes the designation on and keeps it; another only passes it
on. Another copy of a designation that a deputy flooded is dropped (the model's choice, assumption 91).

R440: the abort of attempt 15 at the acting root ends the run instead, with a second STEP_ABORT of cause PROGRAM and code
`STEP_EXHAUSTED`. -/
def Obligations.RepeatsAreDesignated : Prop :=
  (∀ (s : State) (f : Nat), live s = true → s.step.closeF = some f → actsRoot s = true → isLocked s = true → f ≤ s.frame.f →
    lateMembers s = [] → missingMembers s = [] →
    let s1 := { s with step := { s.step with closeF := none, prevLate := [] } }
    let d : Designation := ⟨BitVec.ofNat 64 s.step.next, BitVec.ofNat 8 (s.step.attempt + 1), s.frame.f + fld s RDU_STEP_CTRL_RESTART_LEAD,
      s.step.holds != [], []⟩
    exec .collectionClose s = .next (repeatTake d (designate (.repeatD d) s1))) ∧
  (∀ (m : AbortMsg) (s : State), m.cause ≠ 3 → actsRoot s = true → 15 ≤ s.step.attempt →
    let t := abortTake m s
    abortHere m s = abortTake (abortMsg t 3 cSTEP_EXHAUSTED 0xFFFF 0 false) t ∧ (abortHere m s).img = none) ∧
  (∀ s : State, live s = true → s.step.closeF = none → exec .collectionClose s = .next s) ∧
  (∀ (d : Designation) (s : State), live s = true → inOrder (ctlIs (.repeatD d)) s = true →
    let s1 := passOn (.repeatD d) s
    (desigSeen s (.repeatD d) = true → exec (.repeatDesignation d) s = .next (takeCtl (.repeatD d) s)) ∧
    (desigSeen s (.repeatD d) = false → stepState s = 3 → d.step.toNat = s.step.next → d.attempt.toNat = s.step.attempt + 1 → d.escalated = [] →
      exec (.repeatDesignation d) s = .next { s1 with step := { s.step with repeatF := some (d.attempt.toNat, d.frame, d.held) } }) ∧
    (desigSeen s (.repeatD d) = false → d.step.toNat ≠ s.step.next → exec (.repeatDesignation d) s = .next s1))

/-- R242, R327, R407: LATCH_RESTORE writes the step's granules back from their copies; when it is done the module awaits the repeat,
and opens it late, with `REPEAT_LATE`, if its frame has begun. REPEAT_OPEN opens the designated attempt at its frame.

R437, R438: a hold of the attempt to come is noted, and one that comes after the designation makes the root send it again, HELD;
the release of the last hold makes the acting root resume the attempt at a new frame; a resume designation releases the
attempt a module holds, and tells a replacement without a step its first one; from then on a replaced root is root again (R441). -/
def Obligations.AttemptsAreRepeated : Prop :=
  (∀ s : State, live s = true → stepState s = 3 → s.lat.restoring = false →
    exec .latchRestore s = .next { latWriteBack s with lat := { (latWriteBack s).lat with restoring := true } }) ∧
  (∀ s : State, live s = true → stepState s ≠ 3 → exec .latchRestore s = .next s) ∧
  (∀ s : State, live s = true → stepState s = 3 → s.lat.restoring = true → s.step.repeatF = none →
    exec .latchRestoreDone s = .next (setStepState 4 { s with lat := { s.lat with restoring := false } })) ∧
  (∀ (s : State) (a f : Nat), live s = true → isLocked s = true → s.step.repeatF = some (a, f, false) → f ≤ s.frame.f →
    (stepState s = 4 → exec .repeatOpen s = .next (repeatOpen a f false s)) ∧
    (stepState s = 3 → s.lat.restoring = true →
      exec .latchRestoreDone s = .next (repeatOpen a f true (setStepState 4 { s with lat := { s.lat with restoring := false } })))) ∧
  (∀ s : State, live s = true → s.step.repeatF = none → exec .repeatOpen s = .next s) ∧
  (∀ (m : MemberMsg) (s : State), live s = true → m.step.toNat = s.step.next → m.attempt.toNat = s.step.attempt + 1 →
    s.step.repeatF = none → s.step.holds.contains m.member = false → inOrder (ctlIs (.hold m)) s = true →
    let s1 := takeCtl (.hold m) s
    exec (.recoveryHold m) s = .next { s1 with step := { s1.step with holds := s1.step.holds ++ [m.member] } }) ∧
  (∀ (m : MemberMsg) (s : State), live s = true → inOrder (ctlIs (.hold m)) s = true →
    m.step.toNat ≠ s.step.next ∨ m.attempt.toNat ≠ s.step.attempt + 1 → exec (.recoveryHold m) s = .next (takeCtl (.hold m) s)) ∧
  (∀ (m : MemberMsg) (s : State) (a f : Nat), live s = true → m.step.toNat = s.step.next → s.step.holds = [m.member] →
    s.step.repeatF = some (a, f, true) → inOrder (ctlIs (.release m)) s = true →
    let s1 := takeCtl (.release m) s
    let s2 := { s1 with step := { s1.step with holds := [] } }
    let d : Designation := ⟨BitVec.ofNat 64 s.step.next, BitVec.ofNat 8 a, s.frame.f + fld s RDU_STEP_CTRL_RESTART_LEAD, false, []⟩
    (actsRoot s2 = true → exec (.recoveryRelease m) s = .next (resumeTake d (designate (.resume d) s2))) ∧
    (actsRoot s2 = false → exec (.recoveryRelease m) s = .next s2)) ∧
  (∀ (d : Designation) (s : State) (a f : Nat), live s = true → inOrder (ctlIs (.resume d)) s = true → d.step.toNat = s.step.next →
    let s1 := passOn (.resume d) s
    (desigSeen s (.resume d) = true → exec (.resumeDesignation d) s = .next (takeCtl (.resume d) s)) ∧
    (desigSeen s (.resume d) = false → s.step.repeatF = some (a, f, true) → d.attempt.toNat = a → exec (.resumeDesignation d) s =
      .next (rootBack { s1 with step := { s.step with repeatF := some (a, d.frame, false) } })) ∧
    (desigSeen s (.resume d) = false → s.step.repeatF = none → s.step.any = false → s.img ≠ none → exec (.resumeDesignation d) s =
      .next (rootBack { s1 with step := { s.step with repeatF := some (d.attempt.toNat, d.frame, false) } })) ∧
    (desigSeen s (.resume d) = false → s.step.repeatF = some (a, f, false) → exec (.resumeDesignation d) s = .next s1)) ∧
  (∀ s : State, (rootBack s).peer.heir = false ∧ (rootBack s).step = s.step ∧ (rootBack s).lcores = s.lcores ∧ (rootBack s).mem = s.mem)

/-! ### Latch and snapshots (R397 to R424) -/

/-- R399: a write to a protected granule is held: the granule enters COPYING with the write in it, a copy job is queued, no byte of
the granule changes yet; a write to granules that need no copy is no first touch.

R399, R401: a copy that is done lands the writes held on its granule, and what waited for them goes on: acknowledgements are sent,
and a reduction unit that stopped for the latch tries again. A copy that reads a half-line in error does not complete (R402, R275), and
the end of a copy that does not run changes nothing. -/
def Obligations.FirstTouchIsCopied : Prop :=
  (∀ (addr : Nat) (data : List Byte) (path : WritePath) (s : State), live s = true → hbmRange s.fuses addr data.length = true →
    0 < data.length → addr % granBytes + data.length ≤ granBytes →
    let g := addr / granBytes
    let e := getGran s g
    e.st = .protect →
    ∃ t, exec (.firstTouch addr data path) s = .next t ∧ getGran t g = { e with st := .copying, held := [plainWrite path addr data] } ∧
      t.mem = s.mem ∧ t.lat.jobs.length = s.lat.jobs.length + 1 ∧ t.lcores = s.lcores) ∧
  (∀ (addr : Nat) (data : List Byte) (path : WritePath) (s : State), live s = true →
    (granulesOf addr data.length).any (fun g => needsCopy (getGran s g)) = false →
    exec (.firstTouch addr data path) s = .next s) ∧
  (∀ (d : Fin 8) (g : Nat) (j : CopyJob) (s : State), live s = true → s.lat.jobs = [j] → j.gran = g → j.running = true →
    dieOfGran g = d.val →
    let t := heldAcks (storesLanded (copyDone j s))
    (hbmBad s (g * granBytes) granBytes = false → exec (.latchCopyDone d g) s =
      .next (pumpAll (if (List.range 8).any (unitStopped s) then redRetry t else t))) ∧
    (hbmBad s (g * granBytes) granBytes = true → exec (.latchCopyDone d g) s = .next s)) ∧
  (∀ (d : Fin 8) (g : Nat) (s : State), live s = true → s.lat.jobs = [] → exec (.latchCopyDone d g) s = .next s)

/-- R47, R57, R409: a cut for frame F is accepted when it names a frame not yet begun, at least two frames ahead for a module's own
request, and refused with `SNAP_REFUSED` otherwise; it is passed on once.

R51, R58, R409 to R412: the earliest accepted cut whose frame has begun is taken at a locked module's boundary, after a commit due
there, with what R411 and R412 record; before that commit, or without a cut due, nothing happens. -/
def Obligations.CutsAreAcceptedAndTaken : Prop :=
  (∀ (v : Word) (s : State), live s = true →
    let r : CutReq := ⟨v.toNat % 2 ^ 48, v.getLsbD 48, v.getLsbD 49, BitVec.ofNat 32 (fld s LAT_CUT_ID_SNAP_ID)⟩
    (isLocked s = true → s.frame.f + 2 ≤ r.frame → exec (.latCut v) s = .next (cutAccept r (floodCtl (.cut r)
      { s with fab := { s.fab with seenCuts := r.snapId :: s.fab.seenCuts } }))) ∧
    (isLocked s = false ∨ r.frame < s.frame.f + 2 → exec (.latCut v) s = .next (report cSNAP_REFUSED (srcOf 8 10 0)
      (BitVec.ofNat 64 r.snapId.toNat) s))) ∧
  (∀ (r : CutReq) (s : State), live s = true → inOrder (ctlIs (.cut r)) s = true →
    let s1 := takeCtl (.cut r) s
    let s2 := floodCtl (.cut r) { s1 with fab := { s1.fab with seenCuts := r.snapId :: s1.fab.seenCuts } }
    (s1.fab.seenCuts.contains r.snapId = true → exec (.cutRequest r) s = .next s1) ∧
    (s1.fab.seenCuts.contains r.snapId = false → isLocked s = true → s.frame.f < r.frame →
      exec (.cutRequest r) s = .next (cutAccept r s2)) ∧
    (s1.fab.seenCuts.contains r.snapId = false → isLocked s = false ∨ r.frame ≤ s.frame.f →
      exec (.cutRequest r) s = .next (report cSNAP_REFUSED (srcOf 8 10 0) (BitVec.ofNat 64 r.snapId.toNat) s2))) ∧
  (∀ (r : CutReq) (s : State), let t := cutAccept r s
    t.lat.cuts = s.lat.cuts ++ [r] ∧ fld t LAT_SNAP_STAT_SNAP_ID = r.snapId.toNat ∧ fld t LAT_SNAP_STAT_CUT_TAKEN = 0 ∧
    fld t LAT_SNAP_STAT_T1 = (if r.tier1 then 1 else 0) ∧ fld t LAT_SNAP_STAT_T2 = (if r.tier2 then 1 else 0) ∧ t.mem = s.mem) ∧
  (∀ (r : CutReq) (s : State), live s = true → isLocked s = true → s.lat.cuts = [r] → r.frame ≤ s.frame.f →
    exec .snapshotCut s = .next (if inTurn s 3 (r.frame * 65536) then takeCut r s else s)) ∧
  (∀ (s : State) (f k : Nat), isLocked s = true → stepState s = 2 → s.step.commitF = some (s.step.next, f) → f ≤ s.frame.f →
    f * 65536 ≤ (sysTime s).toNat → f ≤ k → inTurn s 3 (k * 65536) = false) ∧
  (∀ (r : CutReq) (s : State), live s = true → isLocked s = true → s.lat.cuts = [r] → r.frame ≤ s.frame.f → s.step.commitF = none →
    s.step.repeatF = none → s.step.closeF = none → exec .snapshotCut s = .next (takeCut r s)) ∧
  (∀ s : State, live s = true → s.lat.cuts = [] → exec .snapshotCut s = .next s)

/-- R416 to R419: a tier-1 snapshot of the module that this one holds, whose hashes are right and that fits the staging area, is
recorded as staged, becomes the copy, its staged granules copied into the copy area, and is recorded as applied; the sender gets the
completion. One with wrong hashes or too large is `SNAP_ABANDONED` and keeps the copy; a snapshot of a module that it does not hold
changes nothing. A completion of the right id completes the sender's tier 1. That the holder tells the sender of a transfer it
abandons, which the sender then abandons too, is the model's choice (assumption 34).

R420 to R424: an archive link that comes up with `PERSTA_N` high is recorded and enabled; one lost clears LINK_UP and READY and
abandons a seal; an NVMe command that fails is counted and recorded as `ARC_IO`, and its seal is abandoned; one that ends well takes the
seal to its next stage. Both take effect after the requests that the controllers made. -/
def Obligations.SnapshotsLeaveTheModule : Prop :=
  (∀ (ok : Bool) (x : SnapIn) (s : State), live s = true →
    let y := snapOf ok x
    (s.lat.hold.held ≠ some x.module → exec (.tier1TransferDone ok x) s = .next s) ∧
    (s.lat.hold.held = some x.module → ok = true → stagingFits s y = true → ∃ t, exec (.tier1TransferDone ok x) s = .next t ∧
      t = stagedApply (t1Record y 1 { s with lat := { s.lat with hold := { s.lat.hold with staging := some y } } }) ∧
      t.lat.hold.copy = some y ∧ t.lat.hold.staging = none ∧ t.lat.hold.staged = [] ∧ t.lat.hold.held = some x.module ∧
      t.lat.hold.recState = 2) ∧
    (s.lat.hold.held = some x.module → ok = false ∨ stagingFits s y = false → ∃ t, exec (.tier1TransferDone ok x) s = .next t ∧
      t = sendCtl x.module (.tier1Failed x.id) (report cSNAP_ABANDONED (srcOf 8 10 0) (BitVec.ofNat 64 x.id.toNat)
        { s with lat := { s.lat with hold := { s.lat.hold with staged := [] } } }) ∧ t.lat.hold.copy = s.lat.hold.copy ∧ t.mem = s.mem)) ∧
  (∀ (x : Snap) (id : BitVec 32) (s : State), live s = true → s.lat.t1 = some x → s.fab.inbound = [] →
    (x.id = id → ∃ t, exec (.tier1Completion id) s = .next t ∧ t.lat.t1 = none ∧ t.lat.t1Left = none ∧ t.lat.t1Copy = some x ∧
      t.lat.t1Holder = partner s ∧ (fld s LAT_SNAP_STAT_SNAP_ID = id.toNat → fld t LAT_SNAP_STAT_T1 = 2)) ∧
    (x.id ≠ id → exec (.tier1Completion id) s = .next s)) ∧
  (∀ (x : Snap) (id : BitVec 32) (p : Packet) (s : State), live s = true → s.lat.t1 = some x → s.fab.inbound = [p] →
    p.body = .control (.tier1Failed id) → x.id = id →
    exec (.tier1Completion id) s = .next (t1Abandon (takeCtl (.tier1Failed id) s)) ∧ (t1Abandon (takeCtl (.tier1Failed id) s)).lat.t1 = none) ∧
  (∀ (n : Nat) (found : List NsInfo) (reqs : List ArcReq) (s : State), live s = true →
    (s.arc.perst = false → exec (.archiveLinkUp n found reqs) s = .next (arcEnable (reqs.foldl arcInbound
      (setFld ARC_STAT_LINK_UP 1 { s with arc := { s.arc with ctrls := n, found := found } })))) ∧
    (s.arc.perst = true → exec (.archiveLinkUp n found reqs) s = .next s)) ∧
  (∀ s : State, live s = true → fldOn s ARC_STAT_LINK_UP = true →
    let s1 := setFld ARC_STAT_READY 0 (setFld ARC_STAT_LINK_UP 0 { s with arc := { s.arc with retrainTick := tickNow s } })
    (fldOn s ARC_CTRL_ENABLE = false → exec .archiveLinkDown s = .next s1) ∧
    (fldOn s ARC_CTRL_ENABLE = true → exec .archiveLinkDown s = .next (sealAbandon (report cARC_IO (srcOf 8 10 0) 0 s1)))) ∧
  (∀ (reqs : List ArcReq) (s : State), live s = true →
    let s1 := reqs.foldl arcInbound s
    let s2 := report cARC_IO (srcOf 8 10 0) 0 (addFld ARC_COUNT_IO_ERRORS 1 s1)
    exec (.nvmeCompletion ⟨true, reqs⟩) s = .next (sealCompletion s1) ∧
    (s.arc.cmd = none → exec (.nvmeCompletion ⟨false, reqs⟩) s = .next s2) ∧
    (s.arc.cmd ≠ none → exec (.nvmeCompletion ⟨false, reqs⟩) s = .next (sealAbandon s2))) ∧
  (∀ (slot stage : Nat) (leafA : Bool) (x : Snap) (c : NvmeCmd) (s : State), live s = true → s.arc.sealJob = some (slot, leafA, stage) →
    s.arc.sealSnap = some x → s.arc.cmd = some c → ∃ t, exec (.nvmeCompletion ⟨true, []⟩) s = .next t ∧ t.arc.cmd = none ∧
      t.arc.sealJob = some (slot, leafA, if stage = 3 then 3 else stage + 1) ∧ t.arc.sealSnap = some x ∧ t.lcores = s.lcores)

/-! ### Reduction packets and Keyway packets (R304 to R320, R344 to R359) -/

/-- R307, R315, R320: a reduction packet whose step and attempt are not those open here is consumed and counted in `RDU_COUNT.STALE`;
one of the attempt is checked, blamed if its invariant fails, reduced when its share is launched, and held when it is not, while its
die's hold buffer has room; without room it waits in the port. A sum in a unit's output buffer is checked against what it was made from.
R374: a packet behind one of its flow waits.

R304: when the only share of a bucket, launched by the only GRED out of an otherwise empty logical core, is reduced, the GRED
ends, the bucket is done, and its catch is signalled once; while a packet has no result nothing changes. -/
def Obligations.ReductionPacketsAndShares : Prop :=
  (∀ (d : Fin 8) (src : RedSrc) (p : RedPkt) (s : State), live s = true →
    let from_ := s.fab.inbound.find? fun k => k.body == .reduction p
    let s1 := redConsume d from_ s
    let age := pktAge s p.step p.attempt
    let now := age = .eq ∧ (stepState s = 1 ∨ stepState s = 2)
    (inOrder (fun k => k.body == .reduction p) s = false → exec (.reductionPacket d src p) s = .next s) ∧
    (inOrder (fun k => k.body == .reduction p) s = true →
      (¬ now → exec (.reductionPacket d src p) s = .next (addFld (RDU_COUNT_STALE d) 1 s1)) ∧
      (now → src = .adder → exec (.reductionPacket d src p) s = .next (if stepCheckFails s p then redFailed d src p s1 else s)) ∧
      (now → src ≠ .adder → redInvariant p = false → exec (.reductionPacket d src p) s = .next (redFailed d src p s1)) ∧
      (now → src = .hbm → redInvariant p = true → exec (.reductionPacket d src p) s = .next s) ∧
      (now → redInvariant p = true → src ≠ .hbm → src ≠ .adder → ∀ b h, getBucket s p.bucket = some b → shareOf b p.packet = some h →
        exec (.reductionPacket d src p) s = .next (pumpAll (redTake d src p s1))) ∧
      (now → redInvariant p = true → src ≠ .hbm → src ≠ .adder → ((getBucket s p.bucket).bind fun b => shareOf b p.packet) = none →
        (heldBytes s d + (if p.comp then 536 else 280) ≤ fld s (RDU_UNIT_HOLD_BUF_KIB d) * 1024 → exec (.reductionPacket d src p) s =
          .next (redConsume d from_ { s with step := { s.step with heldPkts := s.step.heldPkts ++ [(d.val, src, p)] } })) ∧
        (¬ heldBytes s d + (if p.comp then 536 else 280) ≤ fld s (RDU_UNIT_HOLD_BUF_KIB d) * 1024 →
          exec (.reductionPacket d src p) s = .next s)))) ∧
  (∀ (d : Fin 8) (s : State), redConsume d none s = s) ∧
  (∀ (c : Fin 256) (s : State) (l : LCore) (g : GredOut) (b : Bucket) (h : Share), getL s c = some l → coreEmpty l = true →
    l.greds = [g] → s.step.buckets = [b] → b.id = g.bucket → b.launched = [h] → h.n = g.n → h.lcore = c.val → shareDone s h = true →
    b.shares = 1 → b.done = false → b.failed = false → b.statusAddr = 0 → l.block = none →
    cwLcore b.catchWord = c.val →
    let k := catchOf l (cwIndex b.catchWord)
    k.counter.toNat + 1 < 2 ^ 32 →
    exec (.gredComplete c) s = .next (setL c (setCatch (cwIndex b.catchWord) { k with counter := k.counter + 1 } { l with greds := [] })
      { s with step := { s.step with buckets := [{ b with launched := [{ h with complete := true }], done := true }] } })) ∧
  (∀ (c : Fin 256) (s : State) (l : LCore), getL s c = some l → gredReady s c l = none → exec (.gredComplete c) s = .next s)

/-- R344 to R348, R353, R356 to R359: a Keyway packet of an attempt not yet opened waits; an older one is consumed and counted; a
dispatch writes its header and row to its inbox slot and counts in its source entry, a close marks the entry, an answer or a
refusal is applied to its combine record, where the refusal of a close changes nothing, and what lies outside the layer's inbox is refused. An unresolved packet on a die
whose table is not enabled is refused. -/
def Obligations.KeywayPackets : Prop :=
  (∀ (d : Fin 8) (p : KwyPkt) (s : State), live s = true → hasTumbler s.fuses = true → s.fab.inbound = [] →
    let age := pktAge s p.step p.attempt
    let rows := [Instr.dispatchArrival d p, .closeArrival d p, .answerArrival d p, .keywayRefusal d p]
    (age = .gt → ∀ row ∈ rows, exec row s = .next s) ∧
    (age = .lt → ∀ row ∈ rows, exec row s = .next (addFld (KWY_STALE_ATTEMPT d) 1 s)) ∧
    (age = .eq →
      (∀ v, layerOf s p.layer = some v → inboxOk s (inboxSlotAt v p) (64 + v.rowBytes) = true → inboxOk s (srcEntryAt p) 4 = true →
        latAwait [(inboxSlotAt v p, 64 + v.rowBytes), (srcEntryAt p, 4)] s = none →
        exec (.dispatchArrival d p) s = .next (srcEntryApply d p none (hbmPut (inboxSlotAt v p) (kwyHeader p ++ p.row.take v.rowBytes) s))) ∧
      (layerOf s p.layer = none → exec (.dispatchArrival d p) s = .next (kwyRefuse d p s)) ∧
      (inboxOk s (srcEntryAt p) 4 = true → latAwait [(srcEntryAt p, 4)] s = none →
        exec (.closeArrival d p) s = .next (srcEntryApply d p (some p.slot) s)) ∧
      (inboxOk s (srcEntryAt p) 4 = false → exec (.closeArrival d p) s = .next (kwyRefuse d p s)) ∧
      (latAwait (combineRanges s p) s = none →
        exec (.answerArrival d p) s = .next (combineApply d { p with kind := 1 } s) ∧
        exec (.keywayRefusal d p) s = .next (combineApply d { p with kind := 3 } s)) ∧
      (p.record = closeRecord → exec (.keywayRefusal d p) s = .next s)) ∧
    (fldOn s (KWY_WLT_ENABLE d) = false → exec (.keywayResolve d p) s = .next (kwyRefuse d p s))) ∧
  (∀ (d : Fin 8) (p : KwyPkt) (k : Packet) (s : State), live s = true → hasTumbler s.fuses = true → s.fab.inbound = [k] →
    k.body = .keyway p → k.destDie ≠ 14 →
    ∀ row ∈ [Instr.dispatchArrival d p, .closeArrival d p, .answerArrival d p, .keywayRefusal d p],
      (pktAge s p.step p.attempt = .gt → exec row s = .next s) ∧
      (pktAge s p.step p.attempt = .lt → exec row s = .next (addFld (KWY_STALE_ATTEMPT d) 1 (ackOwe d k (takePacket k s)))))

/-! ### Hardware faults and memory (R174, R243, R244, R272 to R277, R434, R445) -/

/-- R174, R243, R434, R445: a hardware fault of a core not yet stopped is recorded, stops the core, and, with the Keeper running, fences
it; a level-1 image on it ends. A core already stopped or fenced changes nothing. A corrected error is recorded and counted
for the core. A die fault is recorded and fences the die.

R88 to R92, R244: at a swap point, that is halted, or stopped at a detent or a wait with nothing but waits in its queues, a doubled core
goes on with its other logical core if that is runnable and the scratch port is on the transfer side or free to pass to it: the one
leaves its core, the other takes it and runs on from its detent once that is over, and neither's registers change. Away from a swap
point nothing changes. -/
def Obligations.CoreFaultsAndSwaps : Prop :=
  (∀ (p : Fin 256) (st : BitVec 8) (engine : Bool) (bank : Fin 48) (s : State), live s = true →
    ∀ row ∈ [(Instr.arrayHw p st, cARRAY_HW, 1, st.toNat), (.tbHw p engine, cTB_HW, 2, if engine then 1 else 0),
      (.scrHw p bank, cSCR_HW, 3, bank.val), (.coreHw p, cCORE_HW, 0, 0)],
    let s1 := modP p (fun c => { c with hwStopped := true })
      (report row.2.1 (srcOf (p / 32) row.2.2.1 (p % 32)) (BitVec.ofNat 64 row.2.2.2) s)
    ((getP s p).hwStopped = true ∨ (getP s p).fenced = true → exec row.1 s = .next s) ∧
    ((getP s p).hwStopped = false → (getP s p).fenced = false →
      let s2 := if s.kpr.up then fenceCore p s1 else s1
      (levelOne s = false → exec row.1 s = .next s2) ∧ (getP s1 p).hwStopped = true ∧
      (levelOne s = true → (∃ l ∈ s.lcores, l.phys = p.val ∧ l.halted = false) → exec row.1 s = .next (imageEnd row.2.1 0 s2)))) ∧
  (∀ (p : Fin 256) (s : State), live s = true → ∀ row ∈ [(Instr.accEccCorr p, cACC_ECC_CORR, 1), (.tbEccCorr p, cTB_ECC_CORR, 2),
      (.scrEccCorr p, cSCR_ECC_CORR, 3)],
    ∃ t, exec row.1 s = .next t ∧ t = { report row.2.1 (srcOf (p / 32) row.2.2 (p % 32)) 0 s with kpr := t.kpr } ∧
      (∃ ts, smFind t.kpr.ces p = some (tickNow s :: ts)) ∧ t.mem = s.mem ∧ t.lcores = s.lcores ∧ t.step = s.step) ∧
  (∀ (d : Fin 8) (part : BitVec 8) (s : State), live s = true →
    exec (.uncoreHw d part) s = .next (fenceDie d (report cUNCORE_HW (srcOf d 13 0)
      (BitVec.ofNat 64 part.toNat) s)) ∧
    (hasTumbler s.fuses = true → exec (.kwHw d) s = .next (fenceDie d (report cKW_HW (srcOf d 9 0) 0 s))) ∧
    (hasTumbler s.fuses = false → exec (.kwHw d) s = .next s)) ∧
  (∀ (p : Fin 256) (s : State) (l k : LCore), s.lcores = [l, k] → l.phys = p.val → k.phys = p.val → l.resident = true →
    k.resident = false → k.halted = false → l.stopped = false → k.stopped = false →
    (∀ s1, swapPoint s l = true → runnable s k = true → takePort l true s = some s1 → exec (.doublingSwap p) s =
      .next (pump 1 { (if l.halted then s1 else swapOut l s1) with lcores := [{ l with resident := false }, swapIn k] })) ∧
    (swapPoint s l = true → runnable s k = true → (getP s p).xferSide = true → exec (.doublingSwap p) s =
      .next (pump 1 { (if l.halted then s else swapOut l s) with lcores := [{ l with resident := false }, swapIn k] })) ∧
    (swapPoint s l = false ∨ runnable s k = false ∨ takePort l true s = none → exec (.doublingSwap p) s = .next s) ∧
    (swapOut l s).lcores = s.lcores ∧ (swapOut l s).regs = s.regs ∧ swapIn k = { k with resident := true, block := (swapIn k).block } ∧
    ((swapIn k).block = k.block ∨ (swapIn k).block = none ∧ detentDone k = true))

/-- R21, R272, R399: a host reads present HBM through its window as it stands and writes it through the latch; what is absent reads as
ones, takes no write, and records `ADDR_UNMAPPED`; a port without its link does nothing.

R244, R245, R274, R275, R277, R402: a turn of the scratch port passes to the other side when that side has an access ready; a corrected
error of a present stack counts and is recorded, an uncorrectable one as well, and its half-line keeps it (assumption 69): a read of it
through the host's window returns nothing; a targeted refresh counts. An absent stack does nothing. -/
def Obligations.MemoryAccessesAndErrors : Prop :=
  (∀ (n : Fin 2) (s : State), live s = true →
    let base := fld s (MEM_MW_BASE_BASE_GIB n) * 2 ^ 30
    (s.host.linkUp.getD n false = false → ∀ a, exec (.mwAccess n a) s = .next s) ∧
    (s.host.linkUp.getD n false = true →
      (∀ off len, hbmRange s.fuses (base + off) len = true → off + len ≤ 2 ^ 36 →
        (hbmBad s (base + off) len = false → ∃ t, exec (.mwAccess n (.read off len)) s = .next t ∧
          t = { s with host := t.host } ∧ t.host.reads = s.host.reads ++ [(n.val, s.mem.bytes (base + off) len)]) ∧
        (hbmBad s (base + off) len = true → exec (.mwAccess n (.read off len)) s = .next s)) ∧
      (∀ off data, hbmRange s.fuses (base + off) data.length = true → off + data.length ≤ 2 ^ 36 →
        exec (.mwAccess n (.write off data)) s = .next (hbmWrite (plainWrite .host (base + off) data) s)) ∧
      (∀ off len, hbmRange s.fuses (base + off) len = false ∨ 2 ^ 36 < off + len → ∃ t, exec (.mwAccess n (.read off len)) s = .next t ∧
        t.host.reads = s.host.reads ++ [(n.val, List.replicate len 0xFF)] ∧ t.mem = s.mem) ∧
      (∀ off data, hbmRange s.fuses (base + off) data.length = false ∨ 2 ^ 36 < off + data.length →
        exec (.mwAccess n (.write off data)) s = .next (report cADDR_UNMAPPED (srcOf 8 12 (32 + n)) (BitVec.ofNat 64 (base + off)) s)))) ∧
  (∀ (p : Fin 256) (c : Nat) (s : State) (l : LCore), firstIdx (fun l : LCore => l.phys == p.val && l.resident) s.lcores = some c →
    getL s c = some l →
    let other := !(getP s p).xferSide
    let t := modP p (fun p => { p with xferSide := other }) s
    (sideReady c other t = true → exec (.portTurnPass p) s = .next (pump c t)) ∧
    (sideReady c other t = false → exec (.portTurnPass p) s = .next s)) ∧
  (∀ (addr : Nat) (c : Option (Fin 256)) (s : State), live s = true →
    let j := stackOf addr
    let rollback := stepState s == 3 && rangeIn addr 1 (latchBase s (dieOfAddr addr)) (latchBytes s)
    (hasStack s.fuses j = true →
      exec (.memCe addr) s = .next (addFld (MEM_STACK_STAT_CE_COUNT (j / 4) (j % 4)) 1
        (report cMEM_CE (srcOf (j / 4) 5 j) (BitVec.ofNat 64 addr) s)) ∧
      (s.lat.jobs = [] → c = none → exec (.memUe addr c) s = .next (stackError j rollback
        (addFld (MEM_STACK_STAT_UE_COUNT (j / 4) (j % 4)) 1 (report cMEM_UE (srcOf (j / 4) 5 j) (BitVec.ofNat 64 addr) (markBad addr s)))))) ∧
    (hasStack s.fuses j = false → exec (.memCe addr) s = .next s ∧ exec (.memUe addr c) s = .next s)) ∧
  (∀ (addr a n : Nat) (s : State), (hbmBad (markBad addr s) a n = true ↔ hbmBad s a n = true ∨ n ≠ 0 ∧ a / 32 ≤ addr / 32 ∧ addr / 32 ≤ (a + n - 1) / 32) ∧
    (a ≤ addr / 32 * 32 → addr / 32 * 32 + 32 ≤ a + n → hbmBad (clearBad a n s) addr 1 = false)) ∧
  (∀ (j : Fin 32) (row : Nat) (s : State), live s = true →
    (hasStack s.fuses j = true →
      exec (.rowHammerRefresh j row) s = .next (addFld (MEM_STACK_SCRUB_RH_REFRESHES (j / 4) (j % 4)) 1 s)) ∧
    (hasStack s.fuses j = false → exec (.rowHammerRefresh j row) s = .next s))

/-! ### The fabric (R365 to R392) -/

/-- R366 to R370, R381: a flit that is bad, by its CRC or an uncorrectable codeword, or a payload flit out of sequence, is discarded and
answered with one NAK; one in sequence gives its credits and its packets and is acknowledged; each flit is answered by one of the
port's own (that one goes out for each that comes in is the model's choice, assumption 71). The timeouts of a port with something
unacknowledged resend or retrain it, before their time nothing happens; a lane fault starts a fast retrain; a port that is not UP
ignores them all.

R377 to R385, R446: a present, enabled port passes from one bring-up state to the next, leaves ALIGN only with a valid identity, sends
its record, and reaches UP with its measured delay; the second of two equal bitting records is taken; a time limit that has passed fails
the port; a fast retrain keeps to the lanes in use, so that it never widens the port; a link that goes down leaves UP; a retrain brings
the port up in full, at once or when no step is open. -/
def Obligations.PortsRetryAndComeUp : Prop :=
  (∀ (n : Fin 16) (s : State), live s = true →
    let p := getPort s n
    (portUp s n = false → (∀ f cws, exec (.flitReceived n f cws) s = .next s) ∧ exec (.retryTimeout n) s = .next s ∧
      exec (.progressTimeout n) s = .next s ∧ ∀ l, exec (.laneFault n l) s = .next s) ∧
    (portUp s n = true →
      (∀ f cws, let b := leBytes 512 f.toNat
        let w := bodyNat b 0 2
        let bad := cws.any (fun c : Codeword => decide (15 < c.errors)) = true ∨ bodyNat b 0x1F8 8 ≠ crc64 (b.take 0x1F8)
        (bad ∨ w / 4096 = 0 ∧ w % 4096 ≠ p.rxNext → exec (.flitReceived n f cws) s =
          .next (setPort n (flitSend s.now (flitDiscard p)) (fecCount n cws s))) ∧
        (¬ bad → w / 4096 = 0 → w % 4096 = p.rxNext → bodyNat b 2 2 = p.txAck → p.txAck < 4096 → exec (.flitReceived n f cws) s =
          .next (setPort n (flitSend s.now (flitPackets s.now ((b.drop 0x14).take 484) { p with
            credits := (enumFrom 0 p.credits).map (fun x => x.2 + bodyNat b (4 + 2 * x.1) 2), rxNext := (p.rxNext + 1) % 4096,
            nakSent := false })) (fecCount n cws s)))) ∧
      (p.retry ≠ [] → p.lastAck + 4000 ≤ s.now →
        exec (.retryTimeout n) s = .next (addFld (pRetries n) 1 (setPort n { p with txNext := 0, lastAck := s.now } s))) ∧
      (p.retry = [] ∨ ¬ p.lastAck + 4000 ≤ s.now → exec (.retryTimeout n) s = .next s) ∧
      (p.retry ≠ [] → p.lastProgress + 100000 ≤ s.now → exec (.progressTimeout n) s = .next (fastStart n s) ∧
        (getPort (fastStart n s) n).fast = true ∧ fld (fastStart n s) (pState n) = 2) ∧
      (p.retry = [] ∨ ¬ p.lastProgress + 100000 ≤ s.now → exec (.progressTimeout n) s = .next s) ∧
      (∀ l : Fin 8, fld s (pWidth n) = 8 ∨ fld s (pGroup n) = l.val / 4 → exec (.laneFault n l) s = .next (fastStart n s)))) ∧
  (∀ (now : Nat) (p : Port), (flitDiscard p).nakSent = true ∧ (p.nakSent = false → (flitDiscard p).nakDue = true) ∧
    flitDiscard p = { p with nakDue := (flitDiscard p).nakDue, nakSent := true } ∧ (flitSend now p).nakDue = false ∧
    (flitSend now p).retry.length ≤ max 1024 p.retry.length ∧
    ∃ w, (flitSend now p).out = some w ∧ w.ack = (p.rxNext + 4095) % 4096 ∧ w.nak = p.nakDue ∧ (w.idle = true → w.credits = p.returns)) ∧
  (∀ (n : Fin 16) (s : State), live s = true → hasPort s.fuses n = true →
    let p := getPort s n
    (fldOn s (pEnable n) = true → p.fast = false →
      (∀ m ds, fld s (pState n) = 1 → exec (.bringupStageDone n m ds) s = .next (portState n 2 s)) ∧
      (∀ m ds, fld s (pState n) = 2 → exec (.bringupStageDone n m ds) s = .next (portState n 3 (setFld (pLanes n) m.toNat s))) ∧
      (∀ m ds, fld s (pState n) = 3 → fldOn s FAB_ID_VALID = false → exec (.bringupStageDone n m ds) s = .next s) ∧
      (∀ m ds, fld s (pState n) = 3 → fldOn s FAB_ID_VALID = true → ∃ t, exec (.bringupStageDone n m ds) s = .next t ∧
        fld t (pState n) = 4 ∧ fld t (pVersion n) = 0 ∧ (getPort t n).lastRec = none ∧ (getPort t n).recOut = List.replicate 8 (ownBitting s n) ∧ t.mem = s.mem) ∧
      (∀ m ds, fld s (pState n) = 4 → fld s (pVersion n) ≠ 0 → exec (.bringupStageDone n m ds) s = .next (portState n 5 s)) ∧
      (∀ m ds d, fld s (pState n) = 5 → linkDelay p.tries ds = some d → d ≤ 1000 → ∃ t, exec (.bringupStageDone n m ds) s = .next t ∧
        fld t (pState n) = 6 ∧ fld t (pDelay n) = d ∧ (getPort t n).retries = 0 ∧ t.mem = s.mem)) ∧
    (∀ r : Bitting, fld s (pState n) = 4 → r.magic = 0x4254 → fld s (pVersion n) = 0 →
      (p.lastRec = some r → exec (.bittingRecord n r) s = .next (bittingAccept n r s)) ∧
      (p.lastRec ≠ some r → exec (.bittingRecord n r) s = .next (modPort n (fun p => { p with lastRec := some r }) s))) ∧
    (∀ r : Bitting, fld s (pState n) ≠ 4 ∨ r.magic ≠ 0x4254 → exec (.bittingRecord n r) s = .next s) ∧
    (∀ limit, stageLimit s n = some limit → (p.stateAt + limit ≤ s.now → exec (.bringupTimeout n) s = .next (portFail n 4 none s)) ∧
      (¬ p.stateAt + limit ≤ s.now → exec (.bringupTimeout n) s = .next s)) ∧
    (∀ m rs r ds d w, p.fast = true → fld s (pState n) ≠ 7 → bittingAgreed rs = some r → linkDelay p.tries ds = some d → d ≤ 1000 →
      1 ≤ r.verMax → r.verMin ≤ min 2 r.verMax → lanesWidth (m.toNat &&& lanesInUse s n &&& r.lanesGood.toNat) = some w →
      (fld s (pWidth n) ≠ 8 → w.1 = 4) ∧ ∃ t, exec (.fastRetrainDone n m rs ds) s = .next t ∧ fld t (pState n) = 6 ∧
        fld t (pWidth n) = w.1 ∧ fld t (pDelay n) = d ∧ (getPort t n).fast = false ∧ t.mem = s.mem) ∧
    (∀ m rs ds, p.fast = false ∨ bittingAgreed rs = none → exec (.fastRetrainDone n m rs ds) s = .next s) ∧
    (portLive s n = true → exec (.linkDown n) s = .next (portDown n 0 s)) ∧
    (portLive s n = false → exec (.linkDown n) s = .next s) ∧
    (stepIsOpen s = true → exec (.retrain n) s = .next (modPort n (fun p => { p with retrainReq := true, retries := 0 }) s)) ∧
    (stepIsOpen s = false → exec (.retrain n) s = .next (modPort n (fun p => { p with retries := 0 }) (portBringup n s))))

/-- R388, R389, R391: a packet that is not for this module is forwarded with HOPS one higher on a port of its route; one without a route, or
that would reach HOPS 32, is dropped, counted and recorded. A module without a Keyway drops every Keyway-class packet that arrives and
counts it in `FAB_PORT_COUNT.KWY_ABSENT` of the arriving port, transit included. A packet that leaves the port gives its credits back
(R370), and one for this module keeps its place until it is acted on.

R374: a packet behind one of its flow waits in its port, and at its die. -/
def Obligations.PacketsAreForwarded : Prop :=
  (∀ (n : Fin 16) (p : Packet) (s : State), live s = true → portUp s n = true →
    (rxPlace (getPort s n) p = none → exec (.fabricPacket (some n) p) s = .next s) ∧
    (∀ rest r, rxPlace (getPort s n) p = some (rest, r) →
      let q := { p with vl := p.vl || fldOn s (FAB_PORT_CTRL_DATELINE (n / 2) (n % 2)) }
      let gone := modPort n (fun x => { x with rx := rest, returns := listMod x.returns r.lane (· + r.units) }) s
      (p.cls = 2 → hasTumbler s.fuses = false →
        exec (.fabricPacket (some n) p) s = .next (addFld (FAB_PORT_COUNT_KWY_ABSENT (n / 2) (n % 2)) 1 gone)) ∧
      (p.cls ≠ 2 ∨ hasTumbler s.fuses = true → forHere s q = false → toResolve s q = false → forAnyone q = false →
        (32 ≤ p.hops + 1 → exec (.fabricPacket (some n) p) s =
          .next (report cFAB_HOPS (portSrc n) (BitVec.ofNat 64 p.dest.toNat) (addFld FAB_COUNT_HOPS 1 gone))) ∧
        (∀ m, p.hops + 1 < 32 → hashedPort { q with hops := p.hops + 1 } (routeSet s { q with hops := p.hops + 1 }) = some m →
          exec (.fabricPacket (some n) p) s = .next (enqueue m { q with hops := p.hops + 1 } gone)) ∧
        (p.hops + 1 < 32 → hashedPort { q with hops := p.hops + 1 } (routeSet s { q with hops := p.hops + 1 }) = none →
          exec (.fabricPacket (some n) p) s =
            .next (report cFAB_NOROUTE (portSrc n) (BitVec.ofNat 64 p.dest.toNat) (addFld FAB_COUNT_NOROUTE 1 gone)))) ∧
      (p.cls ≠ 2 ∨ hasTumbler s.fuses = true → forHere s q = true ∨ toResolve s q = true ∨ forAnyone q = true →
        exec (.fabricPacket (some n) p) s = .next (deliver q
          (modPort n (fun x => { x with rx := rest ++ [{ r with p := q, routed := true }] }) s))))) ∧
  (∀ (p : Packet) (s : State), live s = true → forHere s p = true ∨ toResolve s p = true →
    exec (.fabricPacket none p) s = .next (deliver p s)) ∧
  (∀ (a : MemberMsg) (b : KindMsg) (e : AbortMsg) (d : Designation) (r : CutReq) (s : State), live s = true →
    ∀ row ∈ [(Instr.readyVoteReceived a, Ctl.vote a), (.commitDesignation d, .commit d), (.deadlineReport b, .report b), (.abortRequest e, .abort e),
      (.stepAbort e, .abort e), (.abortAcknowledgement b, .abortAck b), (.repeatDesignation d, .repeatD d), (.recoveryHold a, .hold a),
      (.recoveryRelease a, .release a), (.resumeDesignation d, .resume d), (.cutRequest r, .cut r)],
    inOrder (ctlIs row.2) s = false → exec row.1 s = .next s) ∧
  (∀ (n : Fin 16) (p : Packet) (s : State), live s = true → inOrder (fun k => k == p) s = false →
    ∀ row ∈ [Instr.remoteWrite n p, .remoteRead n p, .readData p, .writeAck p, .deliveryAck p], exec row s = .next s)

/-- R71, R375, R376, R387: a remote write of an old attempt is acknowledged, not made; one that the map or the region refuses is refused;
else it is made through the latch, and acknowledged once no granule of it is held there (R250, R401). A remote read is answered with the
bytes, or refused; one that meets a half-line in error is not answered (R275). An answer completes its access and is itself
acknowledged; an acknowledgement counts down its flow, to a module or to a ward; a held acknowledgement leaves after its gap. A packet
that a port delivered is taken first; a write that is made keeps its credits until it is acknowledged (R401). -/
def Obligations.RemoteAccesses : Prop :=
  (∀ (n : Fin 16) (p : Packet) (s : State), live s = true → s.fab.inbound = [p] →
    let s1 := takePacket p s
    (∀ a data keep, p.body = .write a data keep →
      let refused := pktStale s p = true ∨ hbmRange s.fuses a data.length = false ∨
        holdWrite s p a data.length = false ∧ storeAllowed s none a data.length = false
      let t := holdNote p a data.length (hbmWrite ⟨a, data, keep, false, .remote p.src⟩ (setAside p s))
      (refused → exec (.remoteWrite n p) s = exec (.remoteWrite n p) s1) ∧
      (¬refused → exec (.remoteWrite n p) s = .next (if latHolds t a data.length then { t with fab := { t.fab with heldIn := t.fab.heldIn ++ [p] } }
        else answerPkt p (dieOfAddr a % 8) .writeAck (creditBack p t)))) ∧
    setAside p s = { s with fab := { s.fab with inbound := [] } } ∧
    (∀ a len, p.body = .readReq a len →
      (hbmRange s.fuses a len = false ∨ hbmBad s a len = false → exec (.remoteRead n p) s = exec (.remoteRead n p) s1) ∧
      (hbmRange s.fuses a len = true → hbmBad s a len = true → exec (.remoteRead n p) s = .next s)) ∧
    (∀ data, p.body = .readData data → exec (.readData p) s = exec (.readData p) s1) ∧
    (p.body = .writeAck → exec (.writeAck p) s = exec (.writeAck p) s1) ∧
    (∀ cls k ward, p.body = .deliveryAck cls k ward → exec (.deliveryAck p) s = exec (.deliveryAck p) s1) ∧
    s1 = { s with fab := s1.fab } ∧ s1.fab.inbound = []) ∧
  ∀ (n : Fin 16) (p : Packet) (s : State), live s = true → s.fab.inbound = [] →
    (∀ a data keep, p.body = .write a data keep → let die := dieOfAddr a % 8
      (pktStale s p = true → exec (.remoteWrite n p) s = .next (answerPkt p die .writeAck (addFld FAB_COUNT_STALE 1 s))) ∧
      (pktStale s p = false → hbmRange s.fuses a data.length = false →
        exec (.remoteWrite n p) s = .next (answerPkt p die (.refusal cADDR_UNMAPPED a) s)) ∧
      (pktStale s p = false → hbmRange s.fuses a data.length = true → holdWrite s p a data.length = false →
        storeAllowed s none a data.length = false → exec (.remoteWrite n p) s = .next (answerPkt p die (.refusal cSTEP_REGION a) s)) ∧
      (pktStale s p = false → hbmRange s.fuses a data.length = true →
        holdWrite s p a data.length = true ∨ storeAllowed s none a data.length = true →
        let s1 := holdNote p a data.length (hbmWrite ⟨a, data, keep, false, .remote p.src⟩ s)
        exec (.remoteWrite n p) s = .next (if latHolds s1 a data.length then { s1 with fab := { s1.fab with heldIn := s1.fab.heldIn ++ [p] } }
          else answerPkt p die .writeAck s1))) ∧
    (∀ a len, p.body = .readReq a len →
      (hbmRange s.fuses a len = false → exec (.remoteRead n p) s = .next (answerPkt p (dieOfAddr a % 8) (.refusal cADDR_UNMAPPED a) s)) ∧
      (hbmRange s.fuses a len = true → hbmBad s a len = false →
        exec (.remoteRead n p) s = .next (answerPkt p (dieOfAddr a % 8) (.readData (s.mem.bytes a len)) s)) ∧
      (hbmRange s.fuses a len = true → hbmBad s a len = true → exec (.remoteRead n p) s = .next s)) ∧
    (let s1 := ackOwe p.destDie.toNat p (flowAck 0 p.destDie.toNat p.src.toNat 1 s)
     (s.fab.txns = [] → (∀ data, p.body = .readData data → exec (.readData p) s = .next s1) ∧
        (p.body = .writeAck → exec (.writeAck p) s = .next s1)) ∧
      (∀ t, s.fab.txns = [t] → t.tag = p.tag.toNat →
        (∀ data, p.body = .readData data → t.read = true → exec (.readData p) s = .next (pump t.lcore (xAnswer t data (txnTake t.tag s1)))) ∧
        (p.body = .writeAck → t.read = false → exec (.writeAck p) s = .next (pump t.lcore (xAnswer t [] (txnTake t.tag s1)))))) ∧
    (∀ f k ward, p.body = .deliveryAck f.cls k ward → s.fab.flows = [f] → f.die = p.destDie.toNat →
      f.dest = (if ward then 0x10000 + memberWard p.src else p.src.toNat) →
      exec (.deliveryAck p) s = .next { s with fab := { s.fab with flows :=
        (if f.unacked - k = 0 then [] else [{ f with unacked := f.unacked - k }]) } }) ∧
    (∀ (d : Fin 8) (m : Member) (cls : BitVec 2), s.fab.ackOwed = [] → exec (.ackGapExpiry d m cls) s = .next s) ∧
    (∀ (d : Fin 8) (m : Member) (cls : BitVec 2) (sd k t : Nat) (ward : Bool), let key : AckKey := ⟨d, m, cls.toNat, sd, ward⟩
      s.fab.ackOwed = [(key, k)] → s.fab.ackLast = [(key, t)] →
      (t + fld s FAB_ROUTE_ACK_GAP_NS ≤ s.now → exec (.ackGapExpiry d m cls) s = .next (ackSend key s)) ∧
      (s.now < t + fld s FAB_ROUTE_ACK_GAP_NS → exec (.ackGapExpiry d m cls) s = .next s))

/-! ### Loss of modules (R447 to R454) -/

/-- R447, R448, R449: a heartbeat is noted at its tick and acknowledged, and an acknowledgement of the root or the partner restarts this
module's own count; silence of a watched module for 8 ticks, heard neither by its partner nor by the root (what the root heard and
whether it has a partner are the command's operands, assumption 83), or its notice, makes this module know it gone; no acknowledgement, or no port UP, for 4 ticks retires this module; earlier nothing happens. A
retired module takes no notice of others. R452, R454: a pull without a snapshot fails the adoption; one for no adoption of this module
changes nothing. -/
def Obligations.ModulesAreWatched : Prop :=
  (∀ (m : Member) (p : Packet) (s : State), live s = true → s.peer.retired = false → s.fab.inbound = [p] →
    p.body = .control (.heartbeat m) → let s1 := takeCtl (.heartbeat m) s
    ∃ t, exec (.heartbeat m) s = .next t ∧ s1.fab.inbound = [] ∧
      t = sendCtl m (.heartbeatAck (ownId s)) { s1 with peer := { s.peer with beats := smPut s.peer.beats m.toNat (tickNow s) } } ∧
      smFind t.peer.beats m.toNat = some (tickNow s)) ∧
  (∀ (m : Member) (p : Packet) (s : State), live s = true → s.peer.retired = false → s.fab.inbound = [p] →
    p.body = .control (.heartbeatAck m) → rootOf s = some m ∨ partner s = some m →
    let s1 := takeCtl (.heartbeatAck m) s
    exec (.heartbeat m) s = .next { s1 with peer := { s.peer with ackTick := tickNow s } }) ∧
  (∀ (m : Member) (t : Nat) (s : State), live s = true → s.peer.retired = false → smFind s.peer.beats m.toNat = some t →
    ∀ silent paired, let counts := m ≠ ownId s ∧ (if s.lat.hold.held = some m then actsRoot s = true ∨ silent = true
      else actsRoot s = true ∧ (treeOf s).contains m = true ∧ paired = false)
    (counts → t + 8 ≤ tickNow s → exec (.heartbeatSilence ⟨m, silent, paired⟩) s = .next (moduleGone true m s)) ∧
    (¬ counts ∨ tickNow s < t + 8 → exec (.heartbeatSilence ⟨m, silent, paired⟩) s = .next s)) ∧
  (∀ s : State, live s = true →
    (beatTargets s ≠ [] → s.peer.ackTick + 4 ≤ tickNow s → exec .ackSilence s = .next (retire s)) ∧
    (beatTargets s = [] ∨ tickNow s < s.peer.ackTick + 4 → exec .ackSilence s = .next s)) ∧
  (∀ (t : Nat) (s : State), live s = true → s.peer.downSince = some t →
    ((∀ n, n < 16 → portUp s n = false) → t + 4 ≤ tickNow s → exec .noPortUpTimeout s = .next (retire s)) ∧
    (tickNow s < t + 4 → exec .noPortUpTimeout s = .next s)) ∧
  (∀ (m : Member) (s : State), live s = true →
    (s.peer.retired = false →
      (inOrder (ctlIs (.powerNotice m)) s = true →
        exec (.powerNotice m) s = .next (moduleGone (mayDeclare s m) m (takeCtl (.powerNotice m) s))) ∧
      (inOrder (ctlIs (.retireNotice m)) s = true →
        exec (.retirementNotice m) s = .next (moduleGone (mayDeclare s m) m (takeCtl (.retireNotice m) s)))) ∧
    (s.peer.retired = true → ∀ silent paired, ∀ row ∈ [Instr.heartbeat m, .powerNotice m, .retirementNotice m, .heartbeatSilence ⟨m, silent, paired⟩],
      exec row s = .next s)) ∧
  (∀ s : State, (retire s).peer.retired = true) ∧
  (∀ (m : Member) (es : List (Fin 32 × BitVec 8 × Ticket × BitVec 16)) (s : State), live s = true →
    (s.peer.adopting.isSome = true → exec (.adoptionPullDone m none es) s = .next (adoptFail s)) ∧
    (∀ x lost, s.peer.adopting = none → s.lat.hold.held = some lost → m = ownId s →
      exec (.adoptionPullDone m (some x) es) s = .next (lostDone lost s)) ∧
    (∀ lost, s.peer.adopting = none → s.lat.hold.held = some lost → m = ownId s →
      exec (.adoptionPullDone m none es) s = .next (report cADOPT_FAIL (srcNamed 8 13 0 lost) 0 s)) ∧
    (∀ x, s.peer.adopting = none → m ≠ ownId s → exec (.adoptionPullDone m x es) s = .next s))

/-! ### Tickets and hosts (R459 to R492) -/

/-- R461, R464, R465, R472: a tail doorbell of the owner puts the slots written into the ring; the other port's is dropped and
recorded. The ticket at the head leaves its slot and is taken by the checks of R466; a queue that is not read, or is empty,
changes nothing. A head doorbell of the completion ring that is up to date, and an owed vector before its gap, change nothing but
what they name.

R468, R476, R477: a mirror entry from the module held here, or from any when none is, is written into the mirror and acknowledged;
the partner's acknowledgement of the entry a queue waits for, or the end of the wait, accepts the ticket, the latter without
a mirror and recorded. -/
def Obligations.RingsAndMirrors : Prop :=
  (∀ (n : Fin 2) (q : Fin 32) (tail : BitVec 8) (slots : List (BitVec 8 × Ticket)) (s : State), live s = true → hostServed s n = true →
    (fld s (TKT_Q_STAT_OWNER q) = n.val → exec (.sqTail n q tail slots) s = .next (modTQ q (fun x => { x with
      slots := slots.foldl (fun m p => smPut m p.1.toNat p.2) x.slots, tail := tail.toNat }) s)) ∧
    (fld s (TKT_Q_STAT_OWNER q) ≠ n.val → exec (.sqTail n q tail slots) s = .next (report cTKT_NOT_OWNER (srcOf 8 12 q)
      (BitVec.ofNat 64 n) s))) ∧
  (∀ (q : Fin 32) (s : State), live s = true →
    let h := fld s (TKT_Q_STAT_HEAD q)
    (ringReads s q = true → h ≠ (getTQ s q).tail → exec (.ticketRead q) s = .next (tktTake q ((smFind (getTQ s q).slots h).getD 0)
      (modTQ q (fun x => { x with slots := smErase x.slots h }) (setFld (TKT_Q_STAT_HEAD q) (h + 1) s)))) ∧
    (ringReads s q = false ∨ h = (getTQ s q).tail → exec (.ticketRead q) s = .next s)) ∧
  (∀ (n : Fin 2) (q : Fin 32) (k : BitVec 16) (s : State), live s = true → hostServed s n = true → (getRing s n q).lostOwed = 0 →
    (getRing s n q).head ≤ (getRing s n q).count → (getRing s n q).count ≤ (getRing s n q).head + ringSize s n q →
    ∃ t r, exec (.cqHead n q k) s = .next t ∧ getRing t n q = r ∧ r.ents = (getRing s n q).ents ∧ r.count = (getRing s n q).count ∧
      (getRing s n q).head ≤ r.head ∧ r.head ≤ r.count ∧
      ((getRing s n q).head < r.head → r.head % ringSize s n q = k.toNat % ringSize s n q) ∧ t.mem = s.mem ∧ t.regs = s.regs) ∧
  (∀ (n : Fin 2) (v : Fin 64) (t : Nat) (s : State), live s = true → smFind s.host.vecLast (64 * n + v) = some t →
    (s.host.vecOwed = [(n.val, v.val)] → t + fld s TKT_CTRL_MSI_GAP_NS ≤ s.now → exec (.msiGapExpiry n v) s = .next (sendMsi n v
      { s with host := { s.host with vecOwed := [], vecLast := smPut s.host.vecLast (64 * n + v) s.now } })) ∧
    (s.host.vecOwed.contains (n.val, v.val) = false ∨ s.now < t + fld s TKT_CTRL_MSI_GAP_NS →
      exec (.msiGapExpiry n v) s = .next s)) ∧
  (∀ (q : Fin 32) (seq : Word) (t : Ticket) (state : BitVec 8) (status : BitVec 16) (p : Packet) (s : State), live s = true →
    s.fab.inbound = [p] → p.body = .control (.mirror q seq) → s.jnl.mirror = [] →
    fldOn s JNL_STAT_HOLDING = false ∨ fld s JNL_STAT_HELD = p.src.toNat % 16384 →
    ∃ u e, exec (.mirrorEntry q seq t state status) s = .next u ∧ u.jnl.mirror = [(2048 * q.val, e)] ∧ e.t = t ∧
      e.state = state.toNat ∧ e.status = status ∧ u.jnl.own = s.jnl.own ∧ fld u JNL_STAT_HOLDING = 1 ∧ u.mem = s.mem) ∧
  (∀ (q : Fin 32) (seq : Word) (t : Ticket) (state : BitVec 8) (status : BitVec 16) (s : State), live s = true →
    s.fab.inbound = [] → exec (.mirrorEntry q seq t state status) s = .next s) ∧
  (∀ (q : Fin 32) (p : Packet) (w : Accepting) (s : State), live s = true → s.fab.inbound = [p] →
    p.body = .control (.mirrorAck q (tSeq w.t)) → (getTQ s q).wait = some w →
    let s1 := (takeInbound (isMirrorAck q) s).2
    exec (.mirrorAck q) s = .next (tktAccept q w.t true s1) ∧ s1.fab.inbound = [] ∧ s1 = { s with fab := s1.fab }) ∧
  (∀ (q : Fin 32) (w : Accepting) (s : State), live s = true → (getTQ s q).wait = some w →
    (w.sentAt + 1000 * fld s TKT_CTRL_MIRROR_WAIT_US ≤ s.now → exec (.mirrorTimeout q) s = .next (tktAccept q w.t false
      (addFld JNL_STAT_UNMIRRORED 1 (report cJNL_UNMIRRORED (srcOf 8 12 q) (tSeq w.t) s)))) ∧
    (s.now < w.sentAt + 1000 * fld s TKT_CTRL_MIRROR_WAIT_US → exec (.mirrorTimeout q) s = .next s)) ∧
  (∀ (q : Fin 32) (s : State), live s = true → (getTQ s q).wait = none → exec (.mirrorTimeout q) s = .next s)

/-- R462, R473 to R475: the WORK ticket whose turn it is leaves the ready list and takes effect; a POST or STOP without an image, and a
LOAD beside one, complete with their code; a STOP outside a step ends the image at once. A ticket whose turn it is not waits. -/
def Obligations.WorkTicketsTakeEffect : Prop :=
  ∀ (q : Fin 32) (seq : Word) (s : State), live s = true →
    let s1 := { s with host := { s.host with ready := s.host.ready.drop 1 } }
    (tktNext s q seq 1 = none → exec (.loadTicket q seq) s = .next s) ∧
    (tktNext s q seq 2 = none → exec (.postTicket q seq) s = .next s) ∧
    (tktNext s q seq 4 = none → exec (.stopTicket q seq) s = .next s) ∧
    (∀ t, tktNext s q seq 1 = some t →
      (s.img.isSome = true → exec (.loadTicket q seq) s = .next (completeTicket q seq cLOAD_BUSY 0 false s1)) ∧
      (s.img = none → tFlags t = 0 → tTier t = 0 →
        (∀ p, loadPlan s1 q seq t = .ok p → exec (.loadTicket q seq) s = .next (imageStart p t none s1)) ∧
        (∀ c, loadPlan s1 q seq t = .error c → exec (.loadTicket q seq) s = .next (loadFails q seq c s1))) ∧
      (s.img = none → tFlags t = 1 → exec (.loadTicket q seq) s = .next (if isLocked s then adoptStart q seq t s1 else s))) ∧
    (∀ t, tktNext s q seq 2 = some t →
      (s.img = none → exec (.postTicket q seq) s = .next (completeTicket q seq cNO_IMAGE 0 false s1)) ∧
      (∀ i, s.img = some i →
        exec (.postTicket q seq) s = .next (postWrite { s1 with img := some { i with posts := i.posts ++ [⟨q, seq, none⟩] } }))) ∧
    (∀ t, tktNext s q seq 4 = some t →
      (s.img = none → exec (.stopTicket q seq) s = .next (completeTicket q seq cNO_IMAGE 0 false s1)) ∧
      (∀ i, s.img = some i → i.stopReq = none →
        let s2 := { s1 with img := some { i with stopReq := some (q.val, seq) } }
        exec (.stopTicket q seq) s = .next (if stepIsOpen s then s2 else imageEnd cSTOPPED 0 s2)))

/-- R51, R488 to R492: a service window opens when a locked module's phase lies in it and closes when it does not, after the events of a
lower class that are due no later; an accepted query waits until a window is open, is dispatched to the lowest free slot, and completes with `LATE` when its deadline has passed, in a slot
as well, which is free again at once where it was to be dispatched again; a slot that reads DONE ends its query. -/
def Obligations.LoopQueriesAreServed : Prop :=
  (∀ (w : Fin 4) (s : State), live s = true →
    (isLocked s = true → inWindow s w = true → s.host.winOpen.contains w.val = false →
      inTurn s 5 (s.frame.f * 65536 + fld s (TKT_LOOP_WIN_OPEN w)) = true →
      exec (.loopWindowOpen w) s = .next (dispatch { s with host := { s.host with winOpen := s.host.winOpen ++ [w.val] } })) ∧
    (isLocked s = false ∨ inWindow s w = false ∨ s.host.winOpen.contains w.val = true → exec (.loopWindowOpen w) s = .next s) ∧
    (s.host.winOpen = [w.val] → isLocked s = false ∨ inWindow s w = false ∧ inTurn s 5 (sysTime s).toNat = true →
      exec (.loopWindowClose w) s = .next { s with host := { s.host with winOpen := [] } }) ∧
    (s.host.winOpen.contains w.val = false → exec (.loopWindowClose w) s = .next s)) ∧
  (∀ s : State, dispatch s = pumpAll (dispatchNow s) ∧ (isLocked s = false ∨ s.host.winOpen = [] ∨ loopCores s = [] → dispatchNow s = s) ∧
    (s.host.queries = [] → s.host.slots = [] → dispatchNow s = s)) ∧
  (∀ (q : Fin 32) (seq : Word) (k : Nat) (e : JEntry) (s : State), live s = true → jFind s q seq = some (k, e) → e.state = 1 →
    tKind e.t = 3 →
    (e.dispatched = false → s.host.queries.contains (q.val, seq) = false → seq.toNat ≤ (getReg s (rTKT_Q_ACCEPTED q)).toNat →
      let s1 := { s with host := { s.host with queries := s.host.queries ++ [(q.val, seq)] } }
      (tktLate s e.t = true → exec (.queryTicket q seq) s = .next (completeTicket q seq cLATE 0 false s)) ∧
      (tktLate s e.t = false → isLocked s = false ∨ s.host.winOpen = [] ∨ loopCores s = [] →
        exec (.queryTicket q seq) s = .next (pumpAll s1)) ∧
      (∀ n, tktLate s e.t = false → isLocked s = true → s.host.winOpen ≠ [] → loopCores s ≠ [] → s.host.queries = [] →
        (∀ x ∈ s.host.slots, x.2.again = false) → freeSlot s = some n → exec (.queryTicket q seq) s = .next (pumpAll (queryDispatch n (q, seq, e.t) s1)))) ∧
    (e.dispatched = true → exec (.queryTicket q seq) s = .next s) ∧
    (tktLate s e.t = true → inTurn s 6 ((tDeadline e.t).toNat + 1) = true → s.host.slots = [] → exec (.queryDeadlineExpiry q seq) s = .next (completeTicket q seq cLATE 0 false
      { s with host := { s.host with queries := s.host.queries.filter (· != (q.val, seq)) } })) ∧
    (∀ n sl, tktLate s e.t = true → inTurn s 6 ((tDeadline e.t).toNat + 1) = true → s.host.slots = [(n, sl)] → sl.q = q.val → sl.seq = seq →
      (sl.again = false → exec (.queryDeadlineExpiry q seq) s = .next (completeTicket q seq cLATE 0 true
        { s with host := { s.host with slots := [(n, { sl with running := true })] } })) ∧
      (sl.again = true → exec (.queryDeadlineExpiry q seq) s = .next (slotFree n (completeTicket q seq cLATE 0 false s)))) ∧
    (tktLate s e.t = false → exec (.queryDeadlineExpiry q seq) s = .next s)) ∧
  (∀ (k : Nat) (s : State), live s = true →
    let a := slotAddr s k
    (∀ sl, smFind s.host.slots k = some sl → sl.again = false → s.mem.read (a + 0x0A) = 2 → exec (.slotDone k) s = .next (dispatch (slotEnd k
      (BitVec.ofNat 16 (s.mem.readN (a + 0x0C) 2)) (BitVec.ofNat 64 (s.mem.readN (a + 0x10) 4)) s))) ∧
    (s.mem.read (a + 0x0A) ≠ 2 → exec (.slotDone k) s = .next s))

/-- R459: a link loss, a hot reset, a function-level reset and a move to D3hot of a port are one and the same: the port's host is lost.
None of them resets the module or stops accepted work: image, cores, steps, memory and the journal's entries are as before. -/
def Obligations.HostLossIsOneEvent : Prop :=
  ∀ (n : Fin 2) (cause cause' : LossCause) (s : State), live s = true → s.host.linkUp.getD n false = true →
    exec (.hostLinkLoss n cause) s = exec (.hostLinkLoss n cause') s ∧
    exec (.hostLinkLoss n cause) s = .next (hostLost n { s with host := { s.host with linkUp := s.host.linkUp.set n false } }) ∧
    ∃ t, exec (.hostLinkLoss n cause) s = .next t ∧ t.img = s.img ∧ t.lcores = s.lcores ∧ t.pcores = s.pcores ∧ t.step = s.step ∧
      t.mem = s.mem ∧ t.jnl.own = s.jnl.own ∧ t.power = s.power ∧ t.host.ready = s.host.ready ∧ t.host.queries = s.host.queries

/-- R481, R483 to R485: a heartbeat marks its port's host present at this tick; silence of a present host for HB_TICKS ticks loses it,
earlier nothing happens; a port comes up when its domain is on; TAKE by the owner, or of a queue neither orphaned nor yielded, and
RESUME of a queue not in REFILL change nothing; TAKE makes the port the owner, RESUME ends REFILL. -/
def Obligations.HostsComeAndGo : Prop :=
  (∀ (n : Fin 2) (v : BitVec 32) (s : State), live s = true →
    (hostServed s n = true → ∃ t, exec (.hostHeartbeat n v) s = .next t ∧ fld t (TKT_HOST_STATE n) = 1 ∧
      fld t (TKT_HOST_HEARTBEAT n) = v.toNat ∧ t.host = { s.host with hbTick := s.host.hbTick.set n (tickNow s) } ∧ t.mem = s.mem) ∧
    (hostServed s n = false → exec (.hostHeartbeat n v) s = .next s)) ∧
  (∀ (n : Fin 2) (s : State), live s = true →
    (fld s (TKT_HOST_STATE n) = 1 → s.host.hbTick.getD n 0 + fld s TKT_CTRL_HB_TICKS ≤ tickNow s →
      exec (.hostHbSilence n) s = .next (hostLost n s)) ∧
    (fld s (TKT_HOST_STATE n) ≠ 1 ∨ tickNow s < s.host.hbTick.getD n 0 + fld s TKT_CTRL_HB_TICKS →
      exec (.hostHbSilence n) s = .next s)) ∧
  (∀ (n : Fin 2) (s : State), live s = true → s.host.perst.getD n true = false → domOn s (73 + n) = true →
    s.host.linkUp.getD n false = false → (∀ q, q < 32 → ringOn s n q = false) →
    ∃ t, exec (.hostLinkUp n) s = .next t ∧ t.host.linkUp = s.host.linkUp.set n true ∧ fld t (TKT_HOST_STATE n) = 1 ∧
      t.mem = s.mem ∧ t.lcores = s.lcores) ∧
  (∀ (n : Fin 2) (q : Fin 32) (s : State), hostServed s n = true →
    (fld s (TKT_Q_STAT_OWNER q) = n.val → exec (.take n q) s = .next s) ∧
    (fld s (TKT_Q_STAT_OWNER q) ≠ n.val → fld s (TKT_Q_STAT_STATE q) ≠ 2 → fldOn s (TKT_Q_CTRL_YIELD q) = false →
      exec (.take n q) s = .next s) ∧
    (fld s (TKT_Q_STAT_OWNER q) ≠ n.val → fld s (TKT_Q_STAT_STATE q) = 2 ∨ fldOn s (TKT_Q_CTRL_YIELD q) = true →
      ringOn s 0 q = false → ringOn s 1 q = false → ∃ t, exec (.take n q) s = .next t ∧ fld t (TKT_Q_STAT_OWNER q) = n.val ∧
        fld t (TKT_Q_STAT_HEAD q) = 0 ∧ fldOn t (TKT_Q_CTRL_YIELD q) = false ∧ (getTQ t q).slots = [] ∧ t.lcores = s.lcores) ∧
    (fld s (TKT_Q_STAT_OWNER q) ≠ n.val ∨ fld s (TKT_Q_STAT_STATE q) ≠ 3 → exec (.resume n q) s = .next s) ∧
    (fld s (TKT_Q_STAT_OWNER q) = n.val → fld s (TKT_Q_STAT_STATE q) = 3 → openLoad s q = none → (jEntries s q).length < 2048 →
      ∃ t, exec (.resume n q) s = .next t ∧ fld t (TKT_Q_STAT_STATE q) = 1 ∧ q.val ∉ t.host.refill ∧ t.lcores = s.lcores ∧
        t.mem = s.mem))

/-! ### The Keeper (R499 to R527, R569) -/

/-- R494, R495, R499, R501, R527: a tick counts, starts what its messages wait for, records the errors of the journal store, and, while the
Keeper runs, makes the tick's passes and one step of a list (that the errors come with the tick is the model's choice, assumption 84); a first lockstep mismatch stops the Keeper and nothing else of the module; a restart
runs it again. -/
def Obligations.KeeperTicksAndRestarts : Prop :=
  (∀ (r : TickIn) (s : State), live s = true → s.kpr.up = false → s.err.pendNf = [] → s.err.pendF = [] →
    fld s KPR_STAT_TICK + 1 < 2 ^ 32 → ∃ t, exec (.keeperTick r) s = .next t ∧ tickNow t = tickNow s + 1 ∧
      t.now = max s.now (s.kpr.tickStart + 262144) ∧ t.kpr.tickStart = t.now ∧ t.mem = s.mem ∧ t.lcores = s.lcores ∧
      t.step = s.step) ∧
  (∀ (r : TickIn) (s : State), live s = true → s.kpr.up = true →
    let s1 := jnlErrors r (tickBegin s)
    let s2 := stacksOut (fenceTick (policyTick r (idTick r (setFld JNL_STAT_READY 1 s1))))
    exec (.keeperTick r) s = .next (dispatch (portsOwed (idsTick (cmdsHeld (t1Tick (arcRetrain
      (listTick r.stepOk (r.prevBad.map (·.val)) (scrubAuto s2)))))))) ∧ s1.kpr.up = true) ∧
  (∀ s : State, live s = true →
    (s.kpr.up = false → exec .kprLockstep s = .next s) ∧
    (s.kpr.up = true → fld s KPR_STAT_LOCKSTEP_RESTARTS = 0 → ∃ t, exec .kprLockstep s = .next t ∧ t.kpr = { s.kpr with up := false } ∧
      t.mem = s.mem ∧ t.lcores = s.lcores ∧ t.step = s.step ∧ t.img = s.img ∧ t.peer = s.peer) ∧
    (s.kpr.up = true ∨ s.power.recovery = true → exec .keeperRestarted s = .next s) ∧
    (s.kpr.up = false → s.power.recovery = false → s.kpr.lists = [] → s.kpr.cmds = [] → s.kpr.cs = none → s.peer.adopting = none →
      s.arc.sealJob = none → s.lat.t1 = none → s.lat.hold.recState ≠ 1 → exec .keeperRestarted s = .next (pumpAll (openGap (listsReg
        (addFld KPR_STAT_LOCKSTEP_RESTARTS 1 { s with kpr := { s.kpr with up := true } }))))))

/-- R501, R504, R505, R590: a command written while another of its port runs is dropped and sets OVERRUN; one written while the Keeper
does not run is held; else it makes its port busy with its tag and the Keeper takes it.

R505, R507, R514, R569: what the Keeper does with a command it takes: CS_OPEN with no set open makes the port the owner of an empty
set, and is refused beside one; RESTART needs a retired module; a scrub pass starts one list; a swap, a boot or a key command is
refused while its kind runs, and a key command starts its list of class 4; SVN_COMMIT raises the floor to the running bundle's. An
undefined code completes with `KPR_CMD_UNDEF`. R567: in recovery only the staging and writing of a bundle is served. -/
def Obligations.KeeperCommands : Prop :=
  (∀ (n : Fin 2) (cmd tag : BitVec 8) (s : State), hostOn s n = true → s.power.recovery = false → cmdKnown cmd.toNat = false →
    ∀ row ∈ [(Instr.csOpen n tag, 0x01), (.csCommit n tag, 0x02), (.csAbandon n tag, 0x03), (.restart n tag, 0x04),
      (.swapMicrocode n tag, 0x10), (.swapPortFw n tag, 0x11), (.swapUncoreFw n tag, 0x12), (.scrubPass n tag, 0x20),
      (.fwStage n tag, 0x30), (.fwWrite n tag, 0x31), (.fwSelect n tag, 0x32), (.keygen n tag, 0x33), (.svnCommit n tag, 0x34),
      (.cmdUndefined n cmd tag, cmd.toNat)],
    let s1 := setFld (KPR_CMD_STAT_BUSY n) 1 (setFld (KPR_CMD_STAT_TAG n) tag.toNat s)
    (fldOn s (KPR_CMD_STAT_BUSY n) = true → exec row.1 s = .next (setFld (KPR_CMD_STAT_OVERRUN n) 1 s)) ∧
    (fldOn s (KPR_CMD_STAT_BUSY n) = false → s.kpr.up = false →
      exec row.1 s = .next { s1 with kpr := { s.kpr with cmds := s.kpr.cmds ++ [⟨n.val, BitVec.ofNat 8 row.2, tag⟩] } }) ∧
    (fldOn s (KPR_CMD_STAT_BUSY n) = false → s.kpr.up = true → exec row.1 s = .next (cmdRun s1 ⟨n.val, BitVec.ofNat 8 row.2, tag⟩))) ∧
  (∀ (n : Fin 2) (tag : BitVec 8) (s : State), s.power.recovery = false →
    let run := fun (c : Nat) => cmdRun s ⟨n.val, BitVec.ofNat 8 c, tag⟩
    (fld s KPR_CS_STAT_STATE ≠ 0 → run 0x01 = cmdDone n cCS_BUSY s) ∧
    (fld s KPR_CS_STAT_STATE = 0 → fld (run 0x01) KPR_CS_STAT_STATE = 1 ∧ fld (run 0x01) KPR_CS_STAT_OWNER = n.val ∧
      (run 0x01).kpr.cs = some ⟨n.val, [], false, none, 0⟩ ∧ fld (run 0x01) (KPR_CMD_STAT_BUSY n) = 0 ∧ (run 0x01).mem = s.mem) ∧
    (s.kpr.cs = none → run 0x02 = cmdFree n s) ∧
    (∀ c, s.kpr.cs = some c → c.owner = n.val → fld s KPR_CS_STAT_STATE = 1 → c.full = false → setCode s c = 0 →
      (getReg s (rKPR_CMD_ARG1 n)).getLsbD 0 = false →
      let gap := imgLevel s == 2 && s.img.isSome && c.staged.any fun w => gapReg w.1
      let s1 := setFld KPR_CS_STAT_STATE 2 { s with kpr := { s.kpr with cs := some { c with commit := some (tag, s.step.next, gap) } } }
      pairSet s1 = none → run 0x02 = s1) ∧
    (fld s KPR_CS_STAT_STATE = 3 → run 0x03 = cmdDone n cCS_BUSY s) ∧
    (∀ c, s.kpr.cs = some c → c.commit = none → fld s KPR_CS_STAT_STATE = 1 → run 0x03 = cmdDone n cOK (csEnd cOK s)) ∧
    (s.peer.retired = false → run 0x04 = cmdDone n cKPR_NOT_RETIRED s) ∧
    (hasSwap s = true → run 0x10 = cmdDone n cKPR_BUSY s ∧ run 0x11 = cmdDone n cKPR_BUSY s ∧ run 0x12 = cmdDone n cKPR_BUSY s) ∧
    (hasList s .scrub = true → run 0x20 = cmdDone n cKPR_BUSY s) ∧
    (hasList s .scrub = false → run 0x20 = cmdDone n cOK (scrubStart 255 s)) ∧
    (hasList s .fwStage = true → run 0x30 = cmdDone n cKPR_BUSY s) ∧
    (hasList s .fwWrite = true ∨ hasList s .fwSelect = true → run 0x31 = cmdDone n cKPR_BUSY s ∧ run 0x32 = cmdDone n cKPR_BUSY s) ∧
    (hasList s .keygen = false → run 0x33 = listStart .keygen 4 1 (some (n.val, tag)) (getReg s (rKPR_CMD_ARG0 n))
      (getReg s (rKPR_CMD_ARG1 n)) s) ∧
    run 0x34 = cmdDone n cOK (svnCommit s) ∧
    (∀ b, s.sec.running = some b → svnFloor s < 2 ^ 32 → b.svn < 2 ^ 32 →
      fld (svnCommit s) SEC_SVN_FLOOR = max (svnFloor s) b.svn ∧ svnFloor (svnCommit s) = max (svnFloor s) b.svn) ∧
    (∀ c, c < 256 → cmdKnown c = false → run c = cmdDone n cKPR_CMD_UNDEF s)) ∧
  (∀ (n : Fin 2) (tag : BitVec 8) (s : State), s.power.recovery = true →
    ∀ row ∈ [Instr.csOpen n tag, .csCommit n tag, .csAbandon n tag, .restart n tag, .swapMicrocode n tag, .swapPortFw n tag,
      .swapUncoreFw n tag, .scrubPass n tag, .fwSelect n tag, .keygen n tag, .svnCommit n tag], exec row s = .next s)

/-- R11, R12, R507 to R513: a write of staged fields is staged by the owner of the open set and recorded as `CS_NOT_OWNER` from anyone
else; a committed set waits for its moment, then quiesces, and its values are applied together when what it concerns is quiet;
past its time it is abandoned with `CS_TIMEOUT`. Without a set, or with the Keeper stopped, nothing happens. -/
def Obligations.ChangeSetsApply : Prop :=
  (∀ (n : Fin 2) (addr : Nat) (v : Word) (size : Nat) (s : State), hostServed s n = true → accessOk addr size = true →
    let ps := accessParts addr v.toNat size
    (ps.any (hitsRs s) = false → exec (.rsWrite n addr v size) s = .next s) ∧
    (ps.any (hitsRs s) = true →
      (fld s KPR_CS_STAT_STATE = 1 ∧ fld s KPR_CS_STAT_OWNER = n.val → exec (.rsWrite n addr v size) s = .next (ps.foldl stage s)) ∧
      (¬ (fld s KPR_CS_STAT_STATE = 1 ∧ fld s KPR_CS_STAT_OWNER = n.val) →
        exec (.rsWrite n addr v size) s = .next (report cCS_NOT_OWNER (srcOf 8 13 0) (BitVec.ofNat 64 addr) s)))) ∧
  (∀ s : State, s.kpr.cs = none ∨ s.kpr.up = false → exec .csApplyPoint s = .next s ∧ exec .csStrobe s = .next s ∧
    exec .quiesceTimeout s = .next s) ∧
  (∀ (c : ChangeSet) (s : State), live s = true → s.kpr.up = true → s.kpr.cs = some c →
    (fld s KPR_CS_STAT_STATE ≠ 2 → exec .csApplyPoint s = .next s) ∧
    (fld s KPR_CS_STAT_STATE ≠ 3 → exec .csStrobe s = .next s ∧ exec .quiesceTimeout s = .next s) ∧
    (csNoStep s = false → csDue s = true → pairSet s = none → csPorts c = [] → exec .csApplyPoint s = .next
      (listsReg (setFld KPR_CS_STAT_STATE 3 { s with kpr := { s.kpr with cs := some { c with since := tickNow s } } }))) ∧
    (fld s KPR_CS_STAT_STATE = 3 → csQuiet s = false →
      exec .csStrobe s = .next s ∧
      (csPorts c = [] → c.since + fld s KPR_POLICY_QUIESCE_TICKS ≤ tickNow s →
        exec .quiesceTimeout s = .next (csAbandoned cCS_TIMEOUT (report cCS_TIMEOUT (srcOf 8 13 0) 0 s))) ∧
      (¬ c.since + fld s KPR_POLICY_QUIESCE_TICKS ≤ tickNow s → exec .quiesceTimeout s = .next s)) ∧
    (fld s KPR_CS_STAT_STATE = 3 → csQuiet s = true → exec .quiesceTimeout s = .next s ∧
      (pairSet s = none → csPorts c = [] → c.commit = none →
        exec .csStrobe s = .next (csEnd cOK (sendMsi c.owner 63 { applyEffect c (getReg s rLAT_PAIR).toNat (pairCheck s).2 (csApply c s)
          with kpr := { (applyEffect c (getReg s rLAT_PAIR).toNat (pairCheck s).2 (csApply c s)).kpr with cs := none } })))))

/-- R11, R13, R523, R597 to R599: a host's register write reaches the parts of its registers under their fields' types and nothing
else; at an address that holds no register nothing changes; a misaligned access, one of another size or one past the end of register
space is recorded (R21), and a read of it returns ones. R567: in recovery a write reaches only the registers served then. A release of
the error ring from HEAD up to TAIL moves HEAD there, any other value changes nothing. -/
def Obligations.RegisterAccesses : Prop :=
  (∀ (n : Fin 2) (addr : Nat) (v : Word) (size : Nat) (s : State), hostOn s n = true →
    let refused := report cADDR_UNMAPPED (srcOf 8 12 (32 + n)) (BitVec.ofNat 64 addr) s
    (accessOk addr size = true → cwUnmapped addr = false →
      (∃ t, exec (.registerWrite n addr v size) s = .next t ∧ t = { s with regs := t.regs } ∧
        ∀ a, (∀ p ∈ accessParts addr v.toNat size, p.1 ≠ a) ∨ writeServed s n a = false → getReg t a = getReg s a) ∧
      (∀ a m x r d, accessParts addr v.toNat size = [(a, m, x)] → yieldForeign s n a = false → writeServed s n a = true →
        regLookup a = some (r, d) → regAbsent s.fuses r d = false → exec (.registerWrite n addr v size) s = .next (setReg s a
          (BitVec.ofNat 64 (r.name.desc.foldl (fieldWrite r.name m x) (getReg s a).toNat)))) ∧
      ((∀ p ∈ accessParts addr v.toNat size, regLookup p.1 = none) → exec (.registerWrite n addr v size) s = .next s) ∧
      (∀ w, exec (.badRegisterAccess n addr size w) s = .next s)) ∧
    (accessOk addr size = false → exec (.registerWrite n addr v size) s = .next s) ∧
    (accessOk addr size = true → cwUnmapped addr = true → exec (.registerWrite n addr v size) s = .next refused) ∧
    (accessOk addr size = false ∨ cwUnmapped addr = true → exec (.badRegisterAccess n addr size true) s = .next refused ∧
      ∃ t, exec (.badRegisterAccess n addr size false) s = .next t ∧ t.mem = s.mem ∧
        t.host.reads = s.host.reads ++ [(n.val, List.replicate size 0xFF)])) ∧
  (∀ (head : BitVec 16) (s : State), live s = true →
    ((head.toNat + 65536 - errHead s false) % 65536 ≤ errUsed s false →
      exec (.errorRingRelease false head) s = .next (setFld ERR_GEN_HEAD head.toNat s)) ∧
    (errUsed s false < (head.toNat + 65536 - errHead s false) % 65536 → exec (.errorRingRelease false head) s = .next s) ∧
    ((head.toNat + 65536 - errHead s true) % 65536 ≤ errUsed s true →
      exec (.errorRingRelease true head) s = .next (setFld ERR_RSV_HEAD head.toNat s)) ∧
    (errUsed s true < (head.toNat + 65536 - errHead s true) % 65536 → exec (.errorRingRelease true head) s = .next s))

/-! ### Clocks, power and temperature (R537 to R556) -/

/-- R537 to R539, R546 to R551: losing the reference with a good backup starts a coast, which ends when the reference has been good
long enough and loses the module after 1,024 ticks; a sample under the cap shows each feed; losing one feed of two puts
the feed cap in force, losing the last sends the power notice; a feed that has been good for 16 ticks is taken again.

R541 to R545, R555, R556: a switch under way ends with its domain in the new state, but a switch-on that was asked for under the feed
cap or a trip waits until they have cleared; a
rail that does not come up leaves its domain off, failed and out of service; a trip is shown and holds its die at step 4 or below;
four ticks at a trip temperature retire the module and switch all but PD72 and PD76 off. -/
def Obligations.ClocksPowerAndTrips : Prop :=
  (∀ s : State, live s = true →
    (coasting s = true → exec .refClkLost s = .next s) ∧
    (coasting s = false → fldOn s CLK_STAT_BACKUP_OK = true → s.kpr.up = false → ∃ t, exec .refClkLost s = .next t ∧
      coasting t = true ∧ fld t CLK_STAT_REF_OK = 0 ∧ fld t CLK_STAT_COAST_EVENT = 1 ∧ t.pwr.coastTicks = 0 ∧ t.mem = s.mem ∧
      t.lcores = s.lcores ∧ t.step = s.step ∧ t.peer = s.peer) ∧
    (coasting s = true → s.kpr.up = true → fld s CLK_CTRL_RETURN_TICKS ≤ s.pwr.goodTicks → s.step.ownHolds = [] → s.step.deferred = [] →
      ∃ t, exec .refClkRestored s = .next t ∧ coasting t = false ∧ fld t CLK_STAT_REF_OK = 1 ∧ t.mem = s.mem ∧ t.lcores = s.lcores) ∧
    (coasting s = false ∨ s.pwr.goodTicks < fld s CLK_CTRL_RETURN_TICKS → exec .refClkRestored s = .next s) ∧
    (coasting s = true → 1024 ≤ s.pwr.coastTicks → exec .coastTimeout s = .next (moduleLoss s)) ∧
    (coasting s = false ∨ s.pwr.coastTicks < 1024 → exec .coastTimeout s = .next s) ∧
    exec .clkBackupBad s = .next (report cCLK_BACKUP_BAD (srcOf 8 14 0x53) 0 (setFld CLK_STAT_BACKUP_OK 0 s))) ∧
  (∀ (f : FeedSample) (s : State), live s = true → f.mvA ≤ 60000 → f.mvB ≤ 60000 → f.daA ≤ 65535 → f.daB ≤ 65535 →
    s.pwr.capEpisode = false → 100 * ((f.mvA * f.daA + f.mvB * f.daB) / 10000) ≤ 105 * fld s PWR_STAT_CAP_W →
    ∃ t, exec (.powerSample f) s = .next t ∧ fld t (fMv false) = f.mvA ∧ fld t (fMv true) = f.mvB ∧ fld t (fDa false) = f.daA ∧
      fld t (fDa true) = f.daB ∧ fld t (fOv false) = 0 ∧ fld t (fOv true) = 0 ∧ t.pwr = { s.pwr with overCap := 0 } ∧
      t = { s with regs := t.regs, pwr := t.pwr }) ∧
  (∀ (b : Bool) (s : State), live s = true →
    (feedIn s b = false → exec (.feedLoss b) s = .next s) ∧
    (feedIn s b = true → feedIn s (!b) = true → ∃ t, exec (.feedLoss b) s = .next t ∧ feedIn t b = false ∧ feedIn t (!b) = true ∧
      fldOn t PWR_STAT_FEED_CAP = true ∧ fldOn t (fLoss b) = true ∧ t.mem = s.mem ∧ t.lcores = s.lcores) ∧
    (feedIn s b = true → feedIn s (!b) = false →
      exec (.feedLoss b) s = .next (floodCtl (.powerNotice (ownId s)) (feedDown b s)) ∧ feedIn (feedDown b s) b = false) ∧
    (feedIn s b = true ∨ s.pwr.backTicks.getD (if b then 1 else 0) 0 < 16 → exec (.feedRestored b) s = .next s) ∧
    (feedIn s b = false → 16 ≤ s.pwr.backTicks.getD (if b then 1 else 0) 0 → ∃ t, exec (.feedRestored b) s = .next t ∧
      feedIn t b = true ∧ (feedIn s (!b) = true → fldOn t PWR_STAT_FEED_CAP = false) ∧ t.mem = s.mem ∧ t.lcores = s.lcores)) ∧
  (∀ (d : Fin 80) (s : State), live s = true →
    (s.pwr.switching.find? (fun x => x.1 == d.val) = none → exec (.domainSwitchDone d) s = .next s) ∧
    (s.pwr.heldOn.contains d.val = true → exec (.domainSwitchDone d) s = .next s ∧ exec (.railTimeout d) s = .next s) ∧
    (s.pwr.switching = [(d.val, false)] → s.pwr.heldOn.contains d.val = false → d.val < 73 ∨ 76 ≤ d.val →
      ∃ t, exec (.domainSwitchDone d) s = .next t ∧ domOn t d = false ∧ t.pwr.switching = [] ∧ t.mem = s.mem ∧ t.lcores = s.lcores ∧
        ∀ e, e < 80 → e ≠ d.val → domOn t e = domOn s e) ∧
    (s.pwr.switching = [(d.val, true)] → s.pwr.heldOn.contains d.val = false → s.lcores = [] → ∃ t, exec (.domainSwitchDone d) s = .next t ∧
      domOn t d = true ∧ t.pwr.switching = [] ∧ (64 ≤ d.val → t.mem = s.mem)) ∧
    (s.pwr.switching.contains (d.val, true) = false → exec (.railTimeout d) s = .next s) ∧
    (s.pwr.switching = [(d.val, true)] → s.pwr.heldOn.contains d.val = false → 72 ≤ d.val → ∃ t, exec (.railTimeout d) s = .next t ∧ t.pwr.switching = [] ∧
      t.pwr.fencedDoms.contains d.val = true ∧ domOn t d = domOn s d ∧ t.mem = s.mem ∧ t.lcores = s.lcores)) ∧
  (∀ (x : Option (Fin 8)) (sensor : BitVec 8) (s : State), live s = true → s.pwr.trips.length = 9 →
    let k := match x with
      | some d => d.val
      | none => 8
    (∃ t, exec (.thermTrip x sensor) s = .next t ∧ t.pwr.trips = s.pwr.trips.set k true ∧ t.mem = s.mem ∧ t.lcores = s.lcores ∧
      ∀ d, d < 8 → (d = k ∨ k = 8) → fldOn t (PWR_DIE_STAT_TRIPPED d) = true ∧ fld t (CLK_DIE_STAT_STEP d) ≤ 4) ∧
    (let trips := s.pwr.trips.set k false
     let held := if fldOn s PWR_STAT_FEED_CAP || trips.any id then s.pwr.heldOn else []
     ∃ t, exec (.thermTripClear x) s = .next t ∧ t.pwr = { s.pwr with trips := trips, heldOn := held } ∧
      t = { s with regs := t.regs, pwr := t.pwr })) ∧
  (∀ s : State, live s = true →
    (s.pwr.tripTicks.find? (fun x => decide (4 ≤ x.2)) = none → exec .thermShutdown s = .next s) ∧
    (∀ k, s.pwr.tripTicks = [(k, 4)] → shutDomains s ≠ 0 → ∃ t, exec .thermShutdown s = .next t ∧ t.peer.retired = true ∧
      t.pwr.switching = [] ∧ t.arc.perst = true ∧ ∀ d, d < 80 → domOn t d = (d == 72 || d == 76)))

/-! ### Power-up, reset, and attestation (R575, R588 to R592) -/

/-- R449, R588 to R592: a feed powers the module up, in reset it waits; MOD_RST_N resets and holds the module and its release starts it
again; a loss of power leaves no memory and no logical core, and keeps the journal store, the bundles and the seals; host and archive
resets follow PERST and PERSTA_N. -/
def Obligations.PowerAndReset : Prop :=
  (∀ (straps : BitVec 2) (a b : Bool) (s : State),
    (s.power.powered = true ∨ (a = false ∧ b = false) → exec (.powerUp straps a b) s = .next s) ∧
    (s.power.powered = false → a = true ∨ b = true → s.power.inReset = true → ∃ t, exec (.powerUp straps a b) s = .next t ∧
      t.power = { s.power with powered := true, cold := true } ∧ feedIn t false = a ∧ feedIn t true = b ∧
      fld t HUB_RESET_STRAP = straps.toNat ∧ t.mem = s.mem ∧ t.lcores = s.lcores) ∧
    (s.power.powered = false → a = true ∨ b = true → s.power.inReset = false → ∃ u, exec (.powerUp straps a b) s = .next (powerSeq u) ∧
      u.power = { s.power with powered := true, cold := true } ∧ fld u HUB_RESET_STRAP = straps.toNat)) ∧
  (∀ s : State,
    (s.power.inReset = true → exec .modRstN s = .next s) ∧
    (s.power.inReset = false → s.power.powered = false → exec .modRstN s = .next { s with power := { s.power with inReset := true } }) ∧
    (s.power.inReset = false → s.power.powered = true → ∃ t, exec .modRstN s = .next t ∧ 
      t.power = { s.power with inReset := true, pwrOk := false } ∧ t.arc.perst = true ∧ fld t HUB_RESET_CAUSE = 2 ∧ fld t HUB_RESET_HBM_RETAINED = 1 ∧ t.kpr.up = false ∧
      t.fab = State.reset.fab) ∧
    (s.power.inReset = false → exec .modRstNRelease s = .next s) ∧
    (s.power.inReset = true → s.power.powered = true → exec .modRstNRelease s =
      .next (if s.power.cold then powerSeq s else moduleStart true s)) ∧
    (s.power.powered = false → exec .powerLoss s = .next s) ∧
    (s.power.powered = true → ∃ t, exec .powerLoss s = .next t ∧ t.power.powered = false ∧ t.power.pwrOk = false ∧ t.mem = ⟨[], []⟩ ∧
      t.lcores = [] ∧ t.jnl = s.jnl ∧ t.sec.bundles = s.sec.bundles ∧ t.sec.leafA = s.sec.leafA ∧ t.sec.leafB = s.sec.leafB ∧
      t.arc.spaces = s.arc.spaces ∧ t.host.perst = [true, true] ∧ t.arc.perst = true)) ∧
  (∀ (n : Fin 2) (s : State),
    (∃ t, exec (.perst n) s = .next t ∧ t.host.perst = s.host.perst.set n true ∧ t.mem = s.mem ∧ t.lcores = s.lcores) ∧
    (s.power.pwrOk = true → exec (.perstRelease n) s = .next { s with host := { s.host with perst := s.host.perst.set n false } }) ∧
    (s.power.pwrOk = false → exec (.perstRelease n) s = .next s ∧ exec .perstaNRelease s = .next s) ∧
    (s.power.pwrOk = true → domOn s 75 = true → exec .perstaNRelease s = .next { s with arc := { s.arc with perst := false } }))

/-- R571 to R576: an endpoint that is served answers each request with one response, counted, and joins it to the transcript; GET_VERSION
starts the connection, GET_CAPABILITIES and NEGOTIATE_ALGORITHMS bring it to where digests, certificates, challenges and
measurements are served; out of order a request is answered `UnexpectedRequest`, an unknown one `UnsupportedRequest`. Message
codes are those of SPDM 1.2 (PRESUMED, assumption 18); nonces are free values (assumptions 2 and 5). -/
def Obligations.SpdmAnswers : Prop :=
  ∀ (e : Fin 3) (s : State), spdmOn s e = true → s.sec.conns.length = 3 →
    let answers := fun (i : Instr) (code conn : Nat) => ∃ t r, exec i s = .next t ∧ t.sec.out = s.sec.out ++ [r] ∧ r.endpoint = e.val ∧
      r.code = code ∧ spdmConn t e = conn ∧
      fld t SEC_COUNT_SPDM_REQUESTS = min (fld s SEC_COUNT_SPDM_REQUESTS + 1) (2 ^ SEC_COUNT_SPDM_REQUESTS.w - 1) ∧
      t = { s with regs := t.regs, sec := t.sec, freeCtr := t.freeCtr }
    answers (.getVersion e) 0x04 1 ∧
    (spdmConn s e = 1 → answers (.getCapabilities e) 0x61 2) ∧
    (spdmConn s e = 2 → answers (.negotiateAlgorithms e) 0x63 3) ∧
    (spdmConn s e = 3 → answers (.getDigests e) 0x01 3 ∧ (∀ off len, answers (.getCertificate e 0 off len) 0x02 3) ∧
      (∀ nonce, answers (.challenge e 0 nonce) 0x03 3) ∧
      (∀ (i : BitVec 8) sg nonce, i.toNat ≤ 7 ∨ i = 255 → answers (.getMeasurements e i sg nonce) 0x60 3) ∧
      (∀ (slot : BitVec 8) off len, slot ≠ 0 → answers (.getCertificate e slot off len) 0x7F 3) ∧
      (∀ (i : BitVec 8) sg nonce, 7 < i.toNat → i ≠ 255 → answers (.getMeasurements e i sg nonce) 0x7F 3)) ∧
    (spdmConn s e ≠ 1 → answers (.getCapabilities e) 0x7F (spdmConn s e)) ∧
    (spdmConn s e ≠ 2 → answers (.negotiateAlgorithms e) 0x7F (spdmConn s e)) ∧
    (spdmConn s e ≠ 3 → answers (.getDigests e) 0x7F (spdmConn s e) ∧
      (∀ slot nonce, answers (.challenge e slot nonce) 0x7F (spdmConn s e)) ∧
      (∀ i sg nonce, answers (.getMeasurements e i sg nonce) 0x7F (spdmConn s e))) ∧
    (∀ code : BitVec 8, spdmKnown code.toNat = false → answers (.spdmUnsupported e code) 0x7F (spdmConn s e)) ∧
    (∀ code : BitVec 8, spdmKnown code.toNat = true → exec (.spdmUnsupported e code) s = .next s)

/-- R43, R461, R547, R588: what reset leaves: the frame unit FREE, unlocked, at frame 0; no step open; queues 0 to 15 with H0 and 16 to
31 with H1; the power limit at 10,800 W; no image, no logical core, nothing pending, all ports DISABLED, an empty error ring; the
module is powered and its Keeper runs. -/
def Obligations.ResetState : Prop :=
  let s := State.reset
  fld s FRM_STAT_STATE = 0 ∧ fld s FRM_STAT_LOCKED = 0 ∧ s.frame.f = 0 ∧ fld s RDU_STEP_STAT_STATE = 0 ∧
  ((List.range 16).all fun q => fld s (TKT_Q_STAT_OWNER q) == 0) = true ∧
  ((List.range 16).all fun q => fld s (TKT_Q_STAT_OWNER (q + 16)) == 1) = true ∧
  ((List.range 16).all fun n => fld s (pState n) == 0) = true ∧ fld s PWR_CTRL_WATTS = 10800 ∧ fld s (KWY_CAP_MODE 0) = 0 ∧
  s.img = none ∧ s.lcores = [] ∧ s.pending = [] ∧ s.err.recs = [] ∧ fld s ERR_GEN_TAIL = 0 ∧ s.kpr.cs = none ∧ live s = true

/-! ### Commands of a step, of the latch, of reduction, of the Keyway and of the Keeper, at their plainest -/

/-- Each command named here completes under these conditions on the state and its operands alone, with the effect named.

R53, R54, R131: a ready share is voted; a vote of the open step that does not complete the tally is noted; a commit designation of the
open step and attempt, before its frame, is kept; at its frame the step commits. R129, R406: the first step opens when every core waits;
an ended pool wait abandons tiers. R321 to R324, R136: a late bucket is reported; a report, a request or an abort of the open attempt
aborts it; an acknowledgement is noted. R325, R327, R437, R438: the collection closes and designates the next attempt; a designation is
kept, and opens the attempt at its frame; holds and releases are noted, and a resume designation gives the held attempt its frame.

R399, R407, R409: a first touch makes a copy; a copy that is done lands what was held; a restore writes back and ends; a cut that is far
enough ahead is accepted. R416 to R423: a tier-1 transfer becomes the copy, and its completion ends the sender's; the archive link comes
up and goes down; an NVMe command that ends well takes its seal on.

R304, R307: a packet of the attempt without its share is held; the last share of a bucket ends its GRED. R344 to R359: a Keyway packet
that a port delivered, or one made here, leaves the port and takes effect.

R505, R514, R569: RESTART of a retired module resets and starts it; a swap whose bundle passes the checks, and the staging, the writing and
the selecting of a firmware bundle, make the port busy and start their list; a swap whose bundle fails one ends with its code. -/
def Obligations.StepLatchAndPacketCommandsComplete : Prop :=
  (∀ s : State, live s = true →
    (shareReady s = true → ∃ t, exec .readyVote s = .next t ∧ fld t RDU_STEP_STAT_STATE = 2 ∧ t.mem = s.mem ∧ t.lcores = s.lcores) ∧
    (s.step.moves = [] → loopCores s = [] → stepIsOpen s = false → s.step.any = false → allOpened s = true → resumeWaits s = false →
      openRoom s = .fits → exec .stepOpens s = .next (pumpAll (runDeferred (takeOpens (stepBegin (s.frame.f + 1) s))))) ∧
    (s.step.waitFrames = some 0 → exec .poolWaitExpiry s = .next (pumpAll (poolAbandon 2 s))) ∧
    (∀ i f, isLocked s = true → stepState s = 2 → s.step.commitF = some (s.step.next, f) → f ≤ s.frame.f → s.img = some i →
      i.faultPend = none → i.stopReq = none → s.step.failedStacks = [] → s.lat.cuts = [] →
      let u := postsCommit (heldAcks (storesLanded (commitCore s)))
      exec .commitBoundary s = .next (pumpAll (openGap (portsOwed (ceFence u)))) ∧ u.step.next = s.step.next + 1) ∧
    (∀ b, isLocked s = true → stepState s = 1 → s.step.buckets = [b] → b.done = false → b.reported = false →
      (s.step.refFrame + b.deadline) * 65536 < (sysTime s).toNat → inTurn s 6 ((s.step.refFrame + b.deadline) * 65536 + 1) = true →
      b.id ≠ 0 → ∃ t, exec (.contributionDeadline b.id) s = .next t ∧ t.step.buckets = [{ b with reported := true }] ∧ t.mem = s.mem ∧
        t.lcores = s.lcores) ∧
    (∀ f, s.step.closeF = some f → actsRoot s = true → isLocked s = true → f ≤ s.frame.f → stepState s = 3 → lateMembers s = [] →
      missingMembers s = [] → s.step.next < 2 ^ 64 → s.step.attempt < 255 → ∃ t, exec .collectionClose s = .next t ∧
        t.step.repeatF = some (s.step.attempt + 1, s.frame.f + fld s RDU_STEP_CTRL_RESTART_LEAD, s.step.holds != []) ∧
        t.step.closeF = none ∧ t.lcores = s.lcores) ∧
    (∀ a f, isLocked s = true → s.step.repeatF = some (a, f, false) → f ≤ s.frame.f → stepState s = 4 →
      exec .repeatOpen s = .next (repeatOpen a f false s))) ∧
  (∀ (m : MemberMsg) (s : State), live s = true → m.step.toNat = s.step.next →
    (inOrder (ctlIs (.vote m)) s = true → actsRoot s = false ∨ s.step.tallied = true → ∃ t, exec (.readyVoteReceived m) s = .next t ∧
      (m.member, m.attempt.toNat) ∈ t.step.votes ∧ (∀ v ∈ s.step.votes, v ∈ t.step.votes) ∧ t.mem = s.mem ∧ t.lcores = s.lcores) ∧
    (inOrder (ctlIs (.hold m)) s = true → m.attempt.toNat = s.step.attempt + 1 → ∃ t, exec (.recoveryHold m) s = .next t ∧
      m.member ∈ t.step.holds ∧ t.mem = s.mem ∧ t.lcores = s.lcores) ∧
    (inOrder (ctlIs (.release m)) s = true → s.step.holds = [m.member] → actsRoot s = false → ∃ t, exec (.recoveryRelease m) s = .next t ∧
      t.step = { s.step with holds := [] } ∧ t.mem = s.mem ∧ t.lcores = s.lcores)) ∧
  (∀ (d : Designation) (s : State), live s = true → d.step.toNat = s.step.next →
    (inOrder (ctlIs (.commit d)) s = true → stepState s = 2 → d.attempt.toNat = s.step.attempt → s.step.commitF = none →
      isLocked s = false ∨ s.frame.f < d.frame → ∃ t, exec (.commitDesignation d) s = .next t ∧
        t.step = { s.step with commitF := some (s.step.next, d.frame) } ∧ t.mem = s.mem ∧ t.lcores = s.lcores) ∧
    (inOrder (ctlIs (.repeatD d)) s = true → desigSeen s (.repeatD d) = false → stepState s = 3 → d.attempt.toNat = s.step.attempt + 1 → d.escalated = [] →
      ∃ t, exec (.repeatDesignation d) s = .next t ∧ t.step = { s.step with repeatF := some (d.attempt.toNat, d.frame, d.held) } ∧
        t.mem = s.mem ∧ t.lcores = s.lcores) ∧
    (∀ a f, inOrder (ctlIs (.resume d)) s = true → desigSeen s (.resume d) = false → s.step.repeatF = some (a, f, true) → d.attempt.toNat = a →
      ∃ t, exec (.resumeDesignation d) s = .next t ∧ t.step = { s.step with repeatF := some (a, d.frame, false) } ∧ t.mem = s.mem ∧
        t.lcores = s.lcores)) ∧
  (∀ (m : KindMsg) (s : State), live s = true → m.step.toNat = s.step.next →
    (inOrder (ctlIs (.abortAck m)) s = true → ∃ t, exec (.abortAcknowledgement m) s = .next t ∧
      (m.member, m.kind, m.attempt.toNat) ∈ t.step.acks ∧ t.mem = s.mem ∧ t.lcores = s.lcores) ∧
    (inOrder (ctlIs (.report m)) s = true → canFlood s = true → m.attempt.toNat = s.step.attempt → s.step.deferred = [] →
      s.step.attempt < 15 → ∃ t, exec (.deadlineReport m) s = .next t ∧ fld t RDU_STEP_STAT_STATE = 3 ∧ t.step.buckets = [] ∧
        t.step.abortedBelow = s.step.attempt + 1 ∧ t.lcores = s.lcores.map stopForAbort)) ∧
  (∀ (m : AbortMsg) (s : State), live s = true → inOrder (ctlIs (.abort m)) s = true → m.step.toNat = s.step.next →
    m.attempt.toNat = s.step.attempt → m.cause ≠ 3 → s.step.deferred = [] → s.step.attempt < 15 →
    let aborted := fun t : State => fld t RDU_STEP_STAT_STATE = 3 ∧ t.step.buckets = [] ∧ t.step.abortedBelow = s.step.attempt + 1 ∧
      t.lcores = s.lcores.map stopForAbort
    (canFlood s = true → ∃ t, exec (.abortRequest m) s = .next t ∧ aborted t) ∧
    (m.request = false → s.img.isSome = true → stepState s = 1 ∨ stepState s = 2 → ∃ t, exec (.stepAbort m) s = .next t ∧ aborted t)) ∧
  (∀ (addr : Nat) (data : List Byte) (path : WritePath) (s : State), live s = true → hbmRange s.fuses addr data.length = true →
    0 < data.length → addr % granBytes + data.length ≤ granBytes → (getGran s (addr / granBytes)).st = .protect →
    ∃ t, exec (.firstTouch addr data path) s = .next t ∧ (getGran t (addr / granBytes)).st = .copying ∧ t.mem = s.mem ∧
      t.lcores = s.lcores) ∧
  (∀ (d : Fin 8) (j : CopyJob) (s : State), live s = true → s.lat.jobs = [j] → j.running = true → dieOfGran j.gran = d.val →
    hbmBad s (j.gran * granBytes) granBytes = false → (List.range 8).any (unitStopped s) = false →
    exec (.latchCopyDone d j.gran) s = .next (pumpAll (heldAcks (storesLanded (copyDone j s))))) ∧
  (∀ s : State, live s = true → stepState s = 3 →
    (s.lat.restoring = false → ∃ t, exec .latchRestore s = .next t ∧ t.lat.restoring = true ∧ t.step = s.step ∧ t.lcores = s.lcores) ∧
    (s.lat.restoring = true → s.step.repeatF = none → ∃ t, exec .latchRestoreDone s = .next t ∧ fld t RDU_STEP_STAT_STATE = 4 ∧
      t.lat.restoring = false ∧ t.mem = s.mem ∧ t.step = s.step ∧ t.lcores = s.lcores)) ∧
  (∀ (v : Word) (s : State), live s = true → isLocked s = true → s.frame.f + 2 ≤ v.toNat % 2 ^ 48 → ∃ t, exec (.latCut v) s = .next t ∧
    t.lat.cuts = s.lat.cuts ++ [⟨v.toNat % 2 ^ 48, v.getLsbD 48, v.getLsbD 49, BitVec.ofNat 32 (fld s LAT_CUT_ID_SNAP_ID)⟩] ∧
    t.mem = s.mem ∧ t.lcores = s.lcores) ∧
  (∀ (r : CutReq) (s : State), live s = true → inOrder (ctlIs (.cut r)) s = true → isLocked s = true → s.frame.f < r.frame →
    s.fab.seenCuts.contains r.snapId = false → ∃ t, exec (.cutRequest r) s = .next t ∧ t.lat.cuts = s.lat.cuts ++ [r] ∧ t.mem = s.mem ∧
      t.lcores = s.lcores) ∧
  (∀ (x : SnapIn) (s : State), live s = true → s.lat.hold.held = some x.module → stagingFits s (snapOf true x) = true →
    ∃ t, exec (.tier1TransferDone true x) s = .next t ∧ t.lat.hold.copy = some (snapOf true x) ∧ t.lat.hold.staging = none ∧
      t.lat.hold.recState = 2 ∧ t.lcores = s.lcores) ∧
  (∀ (x : Snap) (p : Packet) (s : State), live s = true → s.lat.t1 = some x → s.fab.inbound = [p] → p.body = .control (.tier1Done x.id) →
    ∃ t, exec (.tier1Completion x.id) s = .next t ∧ t.lat.t1 = none ∧ t.lat.t1Copy = some x) ∧
  (∀ (n : Nat) (found : List NsInfo) (reqs : List ArcReq) (s : State), live s = true → s.arc.perst = false →
    ∃ t, exec (.archiveLinkUp n found reqs) s = .next t ∧ fld t ARC_STAT_LINK_UP = 1 ∧ t.arc.ctrls = n ∧ t.arc.found = found ∧
      t.lcores = s.lcores) ∧
  (∀ s : State, live s = true → fldOn s ARC_STAT_LINK_UP = true → ∃ t, exec .archiveLinkDown s = .next t ∧ fld t ARC_STAT_LINK_UP = 0 ∧
    fld t ARC_STAT_READY = 0 ∧ t.lcores = s.lcores) ∧
  (∀ (slot stage : Nat) (leafA : Bool) (x : Snap) (c : NvmeCmd) (s : State), live s = true → s.arc.sealJob = some (slot, leafA, stage) →
    s.arc.sealSnap = some x → s.arc.cmd = some c → ∃ t, exec (.nvmeCompletion ⟨true, []⟩) s = .next t ∧ t.arc.cmd = none ∧
      t.arc.sealJob = some (slot, leafA, if stage = 3 then 3 else stage + 1)) ∧
  (∀ (d : Fin 8) (src : RedSrc) (p : RedPkt) (s : State), live s = true → inOrder (fun k => k.body == .reduction p) s = true →
    pktAge s p.step p.attempt = .eq → stepState s = 1 ∨ stepState s = 2 → redInvariant p = true → src ≠ .hbm → src ≠ .adder →
    ((getBucket s p.bucket).bind fun b => shareOf b p.packet) = none →
    heldBytes s d + (if p.comp then 536 else 280) ≤ fld s (RDU_UNIT_HOLD_BUF_KIB d) * 1024 →
    ∃ t, exec (.reductionPacket d src p) s = .next t ∧ t.step = { s.step with heldPkts := s.step.heldPkts ++ [(d.val, src, p)] } ∧
      t.mem = s.mem ∧ t.lcores = s.lcores) ∧
  (∀ (c : Fin 256) (s : State) (l : LCore) (g : GredOut) (b : Bucket) (h : Share), getL s c = some l → coreEmpty l = true →
    l.greds = [g] → s.step.buckets = [b] → b.id = g.bucket → b.launched = [h] → h.n = g.n → h.lcore = c.val → shareDone s h = true →
    b.shares = 1 → b.done = false → b.failed = false → b.statusAddr = 0 → l.block = none → cwLcore b.catchWord = c.val →
    (catchOf l (cwIndex b.catchWord)).counter.toNat + 1 < 2 ^ 32 → ∃ t, exec (.gredComplete c) s = .next t ∧
      t.step.buckets = [{ b with launched := [{ h with complete := true }], done := true }] ∧ t.mem = s.mem) ∧
  (∀ (d : Fin 8) (p : KwyPkt) (k : Packet) (s : State), live s = true → hasTumbler s.fuses = true → s.fab.inbound = [k] →
    k.body = .keyway p → let taken := takePacket k s
    (k.destDie = 14 → fldOn s (KWY_WLT_ENABLE d) = false → exec (.keywayResolve d p) s = .next (kwyRefuse d p (ackOwe d k taken))) ∧
    (k.destDie ≠ 14 → pktAge s p.step p.attempt = .eq →
      (∀ v, layerOf s p.layer = some v → inboxOk s (inboxSlotAt v p) (64 + v.rowBytes) = true → inboxOk s (srcEntryAt p) 4 = true →
        latAwait [(inboxSlotAt v p, 64 + v.rowBytes), (srcEntryAt p, 4)] s = none → exec (.dispatchArrival d p) s =
          .next (srcEntryApply d p none (hbmPut (inboxSlotAt v p) (kwyHeader p ++ p.row.take v.rowBytes) (ackOwe d k taken)))) ∧
      (inboxOk s (srcEntryAt p) 4 = true → latAwait [(srcEntryAt p, 4)] s = none →
        exec (.closeArrival d p) s = .next (srcEntryApply d p (some p.slot) (ackOwe d k taken))) ∧
      (latAwait (combineRanges s p) s = none →
        exec (.answerArrival d p) s = .next (combineApply d { p with kind := 1 } (ackOwe d k taken)) ∧
        exec (.keywayRefusal d p) s = .next (combineApply d { p with kind := 3 } (ackOwe d k taken))))) ∧
  (∀ (d : Fin 8) (p : KwyPkt) (w : Word) (s : State), live s = true → hasTumbler s.fuses = true → s.fab.inbound = [] →
    fldOn s (KWY_WLT_ENABLE d) = true → smFind s.kwyCache (d * 2 ^ 20 + p.layer * 4096 + p.expert) = some w → w.getLsbD 23 = true →
    w.toNat % 256 = fld s FAB_ID_MODULE → ∃ t q, exec (.keywayResolve d p) s = .next t ∧ t.fab.inbound = [q] ∧ q.body = .keyway { p with
      resolved := true, dModule := w.toNat % 256, dLcore := w.toNat / 256 % 256, inbox := w.toNat / 2 ^ 24 % 2 ^ 37 * 64 } ∧
      t.mem = s.mem ∧ t.lcores = s.lcores) ∧
  (∀ (n : Fin 2) (tag : BitVec 8) (s : State), hostOn s n = true → s.power.recovery = false → fldOn s (KPR_CMD_STAT_BUSY n) = false →
    s.kpr.up = true →
    let a0 := getReg s (rKPR_CMD_ARG0 n)
    let a1 := getReg s (rKPR_CMD_ARG1 n)
    let s1 := setFld (KPR_CMD_STAT_BUSY n) 1 (setFld (KPR_CMD_STAT_TAG n) tag.toNat s)
    let starts := fun (c : Instr) (op : ListOp) (cls k : Nat) => ∃ t, exec c s = .next t ∧
      t.kpr.lists = s.kpr.lists ++ [⟨op, cls, k, 0, [], some (n.val, tag), a0, a1⟩] ∧ fld t (KPR_CMD_STAT_BUSY n) = 1 ∧ t.mem = s.mem ∧
      t.lcores = s.lcores
    (s.peer.retired = true → exec (.restart n tag) s = .next (moduleStart true (hubRegs s1 3 true (fld s1 HUB_RESET_MODULE_RESETS)
      { moduleReset s1 with arc := { (moduleReset s1).arc with perst := true } }))) ∧
    (hasList s .fwStage = false → starts (.fwStage n tag) .fwStage 4 (ceilSteps a1.toNat 0x100000)) ∧
    (hasList s .fwWrite = false → hasList s .fwSelect = false → starts (.fwSelect n tag) .fwSelect 4 1 ∧
      ∀ h a m, s.sec.staged = some (h, a, m) → starts (.fwWrite n tag) .fwWrite 4 (ceilSteps m 0x40000)) ∧
    (hasSwap s = false → ∀ row ∈ [(Instr.swapMicrocode n tag, ListOp.swapMicro), (.swapPortFw n tag, .swapPort),
      (.swapUncoreFw n tag, .swapUncore)],
      let c : Code := match bundleIn s1 a0.toNat (swapBytes s1 row.2 a0.toNat a1.toNat) with
        | some b => swapCode s1 (swapKind row.2) b
        | none => cSEC_FORMAT
      exec row.1 s = .next (if c = 0 then listStart row.2 1 (max 1 (swapParts s1 row.2 a1.toNat).length) (some (n.val, tag)) a0 a1
          (setFld KPR_SWAP_STAT_KIND (swapKind row.2 - 1) (setFld KPR_SWAP_STAT_ACTIVE 1 s1))
        else cmdDone n c (setFld KPR_SWAP_STAT_LAST_STATUS c.toNat (if c = cSWAP_VERSION then s1 else secCode c s1)))))
end

