-- ==== Sys2Proof/Laws/Store.lean ====
section
/-! SUPPORT. The laws of sparse data: what a key reads as after an update, and that updates keep the canonical form. -/
namespace Sys2Proof.Machine

variable {α : Type}

theorem smGet_smPut_same (d : Nat → α) (m : SMap α) (k : Nat) (v : α) : smGet d (smPut m k v) k = v := by
  induction m with
  | nil => simp [smPut, smGet]
  | cons e m ih =>
    obtain ⟨k', v'⟩ := e
    simp only [smPut]
    split
    · simp [smGet]
    · split
      · simp [smGet]
      · rename_i h; simp [smGet, h, ih]

theorem smGet_smPut_other (d : Nat → α) (m : SMap α) (k : Nat) (v : α) {j : Nat} (h : j ≠ k) :
    smGet d (smPut m k v) j = smGet d m j := by
  induction m with
  | nil => simp [smPut, smGet, h]
  | cons e m ih =>
    obtain ⟨k', v'⟩ := e
    simp only [smPut]
    split
    · simp [smGet, h]
    · split
      · rename_i hk; subst hk; simp [smGet, h]
      · simp [smGet, ih]

theorem smGet_smErase_other (d : Nat → α) (m : SMap α) {k j : Nat} (h : j ≠ k) :
    smGet d (smErase m k) j = smGet d m j := by
  induction m with
  | nil => simp [smErase]
  | cons e m ih =>
    obtain ⟨k', v'⟩ := e
    simp only [smErase]
    split
    · rename_i hk; subst hk; rw [ih]; simp [smGet, h]
    · simp [smGet, ih]

theorem smGet_smErase_same (d : Nat → α) (m : SMap α) (k : Nat) : smGet d (smErase m k) k = d k := by
  induction m with
  | nil => rfl
  | cons e m ih =>
    obtain ⟨k', v'⟩ := e
    simp only [smErase]
    split
    · exact ih
    · rename_i hk; simp only [smGet, if_neg hk]; exact ih

variable [DecidableEq α]

theorem smWf_le (d : Nat → α) {lo lo' : Nat} {m : SMap α} (h : smWf d lo' m = true) (hl : lo ≤ lo') : smWf d lo m = true := by
  cases m with
  | nil => rfl
  | cons e m =>
    simp only [smWf, Bool.and_eq_true, decide_eq_true_eq] at h ⊢
    exact ⟨⟨by omega, h.1.2⟩, h.2⟩

theorem smGet_below (d : Nat → α) {lo : Nat} {m : SMap α} (h : smWf d lo m = true) {k : Nat} (hk : k < lo) : smGet d m k = d k := by
  induction m generalizing lo with
  | nil => rfl
  | cons e m ih =>
    obtain ⟨k', v'⟩ := e
    simp only [smWf, Bool.and_eq_true, decide_eq_true_eq] at h
    simp only [smGet]
    rw [if_neg (by omega)]
    exact ih h.2 (by omega)

/-- What a key reads as after a write. -/
theorem smGet_smSet (d : Nat → α) (m : SMap α) (k : Nat) (v : α) (j : Nat) :
    smGet d (smSet d m k v) j = if j = k then v else smGet d m j := by
  by_cases hj : j = k
  · subst hj
    simp only [smSet, if_true]
    split
    · rename_i hv; rw [smGet_smErase_same d m, hv]
    · exact smGet_smPut_same d m j v
  · simp only [smSet, if_neg hj]
    split
    · exact smGet_smErase_other d m hj
    · exact smGet_smPut_other d m k v hj

theorem smWf_smErase (d : Nat → α) {lo : Nat} {m : SMap α} (h : smWf d lo m = true) (k : Nat) : smWf d lo (smErase m k) = true := by
  induction m generalizing lo with
  | nil => rfl
  | cons e m ih =>
    obtain ⟨k', v'⟩ := e
    simp only [smWf, Bool.and_eq_true, decide_eq_true_eq] at h
    simp only [smErase]
    split
    · exact smWf_le d (ih h.2) (by omega)
    · simp only [smWf, Bool.and_eq_true, decide_eq_true_eq]; exact ⟨h.1, ih h.2⟩

theorem smWf_smPut (d : Nat → α) {lo : Nat} {m : SMap α} (h : smWf d lo m = true) {k : Nat} (hk : lo ≤ k) {v : α} (hv : v ≠ d k) :
    smWf d lo (smPut m k v) = true := by
  induction m generalizing lo with
  | nil => simp [smPut, smWf, hk, hv]
  | cons e m ih =>
    obtain ⟨k', v'⟩ := e
    simp only [smWf, Bool.and_eq_true, decide_eq_true_eq] at h
    simp only [smPut]
    split
    · simp only [smWf, Bool.and_eq_true, decide_eq_true_eq]
      exact ⟨⟨hk, hv⟩, ⟨by omega, h.1.2⟩, h.2⟩
    · split
      · rename_i h2; subst h2
        simp only [smWf, Bool.and_eq_true, decide_eq_true_eq]
        exact ⟨⟨hk, hv⟩, h.2⟩
      · simp only [smWf, Bool.and_eq_true, decide_eq_true_eq]
        exact ⟨h.1, ih h.2 (by omega)⟩

/-- A write keeps the canonical form. -/
theorem smWf_smSet (d : Nat → α) {lo : Nat} {m : SMap α} (h : smWf d lo m = true) {k : Nat} (hk : lo ≤ k) (v : α) :
    smWf d lo (smSet d m k v) = true := by
  simp only [smSet]
  split
  · exact smWf_smErase d h k
  · rename_i hv; exact smWf_smPut d h hk hv

/-- Two canonical maps that read alike are the same list. -/
theorem smWf_ext (d : Nat → α) {lo : Nat} {m n : SMap α} (hm : smWf d lo m = true) (hn : smWf d lo n = true)
    (h : ∀ k, smGet d m k = smGet d n k) : m = n := by
  induction m generalizing lo n with
  | nil =>
    cases n with
    | nil => rfl
    | cons e n =>
      obtain ⟨k, v⟩ := e
      have := h k
      simp only [smWf, Bool.and_eq_true, decide_eq_true_eq] at hn
      simp [smGet] at this
      exact absurd this.symm hn.1.2
  | cons e m ih =>
    obtain ⟨k, v⟩ := e
    simp only [smWf, Bool.and_eq_true, decide_eq_true_eq] at hm
    cases n with
    | nil =>
      have := h k
      simp [smGet] at this
      exact absurd this hm.1.2
    | cons e' n =>
      obtain ⟨k', v'⟩ := e'
      simp only [smWf, Bool.and_eq_true, decide_eq_true_eq] at hn
      have hkk : k = k' := by
        rcases Nat.lt_trichotomy k k' with hlt | heq | hgt
        · have h1 := h k
          simp only [smGet, if_true, if_neg (Nat.ne_of_lt hlt)] at h1
          rw [smGet_below d hn.2 (by omega)] at h1
          exact absurd h1 hm.1.2
        · exact heq
        · have h1 := h k'
          simp only [smGet, if_true, if_neg (Nat.ne_of_lt hgt)] at h1
          rw [smGet_below d hm.2 (by omega)] at h1
          exact absurd h1.symm hn.1.2
      subst hkk
      have hv : v = v' := by have := h k; simpa [smGet] using this
      subst hv
      rw [ih hm.2 hn.2]
      intro j
      by_cases hj : j = k
      · subst hj; rw [smGet_below d hm.2 (by omega), smGet_below d hn.2 (by omega)]
      · have := h j; simpa [smGet, hj] using this

end Sys2Proof.Machine
end

