-- ==== Sys2Proof/Laws/Mem.lean ====
section
/-! SUPPORT. The laws of memory: a read after a write, the bytes that each operation leaves alone, and that every operation
keeps the canonical form `Memory.wf`. -/
namespace Sys2Proof.Machine

/-! ### Ranges without a defined value -/

theorem fillsWf_le {lo lo' : Nat} {fs : List Fill} (h : fillsWf lo' fs = true) (hl : lo ≤ lo') : fillsWf lo fs = true := by
  cases fs with
  | nil => rfl
  | cons f fs =>
    simp only [fillsWf, Bool.and_eq_true, decide_eq_true_eq] at h ⊢
    exact ⟨⟨by omega, h.1.2⟩, h.2⟩

theorem inFill_cons (f : Fill) (fs : List Fill) (x : Nat) :
    inFill (f :: fs) x = (decide (f.lo ≤ x ∧ x < f.lo + f.len) || inFill fs x) := rfl

theorem inFill_append (fs gs : List Fill) (x : Nat) : inFill (fs ++ gs) x = (inFill fs x || inFill gs x) := by
  simp [inFill, List.any_append]

theorem inFill_outside (a b x : Nat) (_h : a ≤ b) (f : Fill) :
    inFill (Fill.outside a b f) x = (decide (f.lo ≤ x ∧ x < f.lo + f.len) && !decide (a ≤ x ∧ x < b)) := by
  unfold Fill.outside
  dsimp only
  rw [inFill_append]
  have h1 : inFill (if f.lo < min (f.lo + f.len) a then [{ f with len := min (f.lo + f.len) a - f.lo }] else []) x
      = decide (f.lo ≤ x ∧ x < min (f.lo + f.len) a) := by
    split
    · rw [inFill_cons]; simp only [inFill, List.any_nil, Bool.or_false]; exact decide_eq_decide.2 (by omega)
    · simp only [inFill, List.any_nil]; symm; rw [decide_eq_false_iff_not]; omega
  have h2 : inFill (if max f.lo b < f.lo + f.len then
        [{ lo := max f.lo b, len := f.lo + f.len - max f.lo b, ep := f.ep, org := f.org + (max f.lo b - f.lo) : Fill }] else []) x
      = decide (max f.lo b ≤ x ∧ x < f.lo + f.len) := by
    split
    · rw [inFill_cons]; simp only [inFill, List.any_nil, Bool.or_false]; exact decide_eq_decide.2 (by omega)
    · simp only [inFill, List.any_nil]; symm; rw [decide_eq_false_iff_not]; omega
  rw [h1, h2, Bool.eq_iff_iff]
  simp only [Bool.or_eq_true, Bool.and_eq_true, Bool.not_eq_true', decide_eq_true_eq, decide_eq_false_iff_not]
  omega

theorem inFill_cut (a b x : Nat) (h : a ≤ b) (fs : List Fill) :
    inFill (fs.flatMap (Fill.outside a b)) x = (inFill fs x && !decide (a ≤ x ∧ x < b)) := by
  induction fs with
  | nil => rfl
  | cons f fs ih => rw [List.flatMap_cons, inFill_append, inFill_outside a b x h, ih, inFill_cons, Bool.and_or_distrib_right]

theorem fillsWf_outside (a b : Nat) (h : a ≤ b) {lo : Nat} {f : Fill} {gs : List Fill} (hl : lo ≤ f.lo)
    (hg : fillsWf (f.lo + f.len) gs = true) : fillsWf lo (Fill.outside a b f ++ gs) = true := by
  unfold Fill.outside
  dsimp only
  split <;> split <;> simp only [List.nil_append, List.cons_append, fillsWf, Bool.and_eq_true, decide_eq_true_eq]
  · refine ⟨⟨hl, by omega⟩, ⟨by omega, by omega⟩, fillsWf_le hg (by omega)⟩
  · exact ⟨⟨hl, by omega⟩, fillsWf_le hg (by omega)⟩
  · exact ⟨⟨by omega, by omega⟩, fillsWf_le hg (by omega)⟩
  · exact fillsWf_le hg (by omega)

theorem fillsWf_cut (a b : Nat) (h : a ≤ b) {lo : Nat} {fs : List Fill} (hf : fillsWf lo fs = true) :
    fillsWf lo (fs.flatMap (Fill.outside a b)) = true := by
  induction fs generalizing lo with
  | nil => rfl
  | cons f fs ih =>
    simp only [fillsWf, Bool.and_eq_true, decide_eq_true_eq] at hf
    rw [List.flatMap_cons]
    exact fillsWf_outside a b h hf.1.1 (ih hf.2)

/-- A range clear of every fill. -/
def fillClear (lo n : Nat) (fs : List Fill) : Prop := ∀ x, lo ≤ x → x < lo + n → inFill fs x = false

theorem inFill_fillInsert (g : Fill) (fs : List Fill) (x : Nat) :
    inFill (fillInsert g fs) x = (decide (g.lo ≤ x ∧ x < g.lo + g.len) || inFill fs x) := by
  induction fs with
  | nil => rfl
  | cons f fs ih =>
    simp only [fillInsert]
    split
    · rfl
    · rw [inFill_cons, ih, inFill_cons]
      cases decide (f.lo ≤ x ∧ x < f.lo + f.len) <;> cases decide (g.lo ≤ x ∧ x < g.lo + g.len) <;> rfl

theorem fillsWf_fillInsert {lo : Nat} {g : Fill} {fs : List Fill} (hf : fillsWf lo fs = true) (hl : lo ≤ g.lo) (hg : 0 < g.len)
    (hc : fillClear g.lo g.len fs) : fillsWf lo (fillInsert g fs) = true := by
  induction fs generalizing lo with
  | nil => simp [fillInsert, fillsWf, hl, hg]
  | cons f fs ih =>
    have hf' := hf
    simp only [fillsWf, Bool.and_eq_true, decide_eq_true_eq] at hf'
    have hcf : f.lo + f.len ≤ g.lo ∨ g.lo + g.len ≤ f.lo := by
      by_cases h1 : f.lo + f.len ≤ g.lo
      · exact .inl h1
      · by_cases h2 : g.lo + g.len ≤ f.lo
        · exact .inr h2
        · have := hc (max f.lo g.lo) (by omega) (by omega)
          rw [inFill_cons, Bool.or_eq_false_iff, decide_eq_false_iff_not] at this
          omega
    simp only [fillInsert]
    split
    · simp only [fillsWf, Bool.and_eq_true, decide_eq_true_eq]
      exact ⟨⟨hl, hg⟩, ⟨by omega, hf'.1.2⟩, hf'.2⟩
    · simp only [fillsWf, Bool.and_eq_true, decide_eq_true_eq]
      refine ⟨hf'.1, ih hf'.2 (by omega) ?_⟩
      intro x h1 h2
      have := hc x h1 h2
      rw [inFill_cons, Bool.or_eq_false_iff] at this
      exact this.2

/-- Disjoint fills name an address at most once. -/
theorem fillByte_out {fs : List Fill} {x : Nat} (h : inFill fs x = false) : fillByte fs x = 0 := by
  induction fs with
  | nil => rfl
  | cons f fs ih =>
    rw [inFill_cons, Bool.or_eq_false_iff] at h
    have := ih h.2
    simp only [fillByte] at this ⊢
    rw [List.find?_cons_of_neg (by rw [h.1]; decide)]
    exact this

/-! ### The canonical form -/

theorem wf_iff (m : Mem) : Memory.wf m = true ↔
    smWf (fun _ => (0 : Byte)) 0 m.cells = true ∧ fillsWf 0 m.fills = true ∧ ∀ c ∈ m.cells, inFill m.fills c.1 = false := by
  simp [Memory.wf, Bool.and_eq_true, List.all_eq_true, and_assoc]

theorem mem_smErase {α : Type} {m : SMap α} {k : Nat} {e : Nat × α} (h : e ∈ smErase m k) : e ∈ m := by
  induction m with
  | nil => exact h
  | cons c m ih =>
    obtain ⟨k', v'⟩ := c
    simp only [smErase] at h
    split at h
    · exact List.mem_cons_of_mem _ (ih h)
    · rcases List.mem_cons.1 h with h | h
      · exact h ▸ List.mem_cons_self
      · exact List.mem_cons_of_mem _ (ih h)

theorem mem_smPut {α : Type} {m : SMap α} {k : Nat} {v : α} {e : Nat × α} (h : e ∈ smPut m k v) : e = (k, v) ∨ e ∈ m := by
  induction m with
  | nil => simpa [smPut] using h
  | cons c m ih =>
    obtain ⟨k', v'⟩ := c
    simp only [smPut] at h
    split at h
    · rcases List.mem_cons.1 h with h | h
      · exact .inl h
      · exact .inr h
    · split at h
      · rcases List.mem_cons.1 h with h | h
        · exact .inl h
        · exact .inr (List.mem_cons_of_mem _ h)
      · rcases List.mem_cons.1 h with h | h
        · exact .inr (h ▸ List.mem_cons_self)
        · rcases ih h with h | h
          · exact .inl h
          · exact .inr (List.mem_cons_of_mem _ h)

theorem mem_smSet {α : Type} [DecidableEq α] {d : Nat → α} {m : SMap α} {k : Nat} {v : α} {e : Nat × α}
    (h : e ∈ smSet d m k v) : e = (k, v) ∨ e ∈ m := by
  simp only [smSet] at h
  split at h
  · exact .inr (mem_smErase h)
  · exact mem_smPut h

theorem smWf_filter {α : Type} [DecidableEq α] (d : Nat → α) {lo : Nat} {m : SMap α} (h : smWf d lo m = true)
    (p : Nat × α → Bool) : smWf d lo (m.filter p) = true := by
  induction m generalizing lo with
  | nil => rfl
  | cons e m ih =>
    obtain ⟨k, v⟩ := e
    simp only [smWf, Bool.and_eq_true, decide_eq_true_eq] at h
    rw [List.filter_cons]
    split
    · simp only [smWf, Bool.and_eq_true, decide_eq_true_eq]; exact ⟨h.1, ih h.2⟩
    · exact smWf_le d (ih h.2) (by omega)

theorem write_wf {m : Mem} (h : Memory.wf m = true) (a : Nat) (v : Byte) : Memory.wf (m.write a v) = true := by
  rw [wf_iff] at h
  unfold Mem.write
  split
  · rw [wf_iff]
    refine ⟨smWf_smSet _ h.1 (Nat.zero_le _) v, fillsWf_cut _ _ (by omega) h.2.1, ?_⟩
    intro c hc
    dsimp only
    rw [inFill_cut _ _ _ (by omega)]
    rcases mem_smSet (d := fun _ => (0 : Byte)) hc with hc | hc
    · subst hc; simp
    · rw [h.2.2 c hc]; rfl
  · rename_i hn
    rw [wf_iff]
    refine ⟨smWf_smSet _ h.1 (Nat.zero_le _) v, h.2.1, ?_⟩
    intro c hc
    rcases mem_smSet (d := fun _ => (0 : Byte)) hc with hc | hc
    · subst hc; simpa using hn
    · exact h.2.2 c hc

theorem writeBytes_wf {m : Mem} (h : Memory.wf m = true) (a : Nat) (bs : List Byte) : Memory.wf (m.writeBytes a bs) = true := by
  induction bs generalizing m a with
  | nil => exact h
  | cons b bs ih => exact ih (write_wf h a b) (a + 1)

theorem writeN_wf {m : Mem} (h : Memory.wf m = true) (a n v : Nat) : Memory.wf (m.writeN a n v) = true := writeBytes_wf h _ _

theorem zero_wf {m : Mem} (h : Memory.wf m = true) (a n : Nat) : Memory.wf (m.zero a n) = true := by
  rw [wf_iff] at h
  rw [wf_iff]
  refine ⟨smWf_filter _ h.1 _, fillsWf_cut _ _ (by omega) h.2.1, ?_⟩
  intro c hc
  dsimp only [Mem.zero] at hc ⊢
  rw [inFill_cut _ _ _ (by omega), h.2.2 c (List.mem_of_mem_filter hc)]
  rfl

theorem zero_clear (m : Mem) (a n x : Nat) (h : a ≤ x ∧ x < a + n) : inFill (m.zero a n).fills x = false := by
  dsimp only [Mem.zero]
  rw [inFill_cut _ _ _ (by omega)]
  simp [h]

theorem zero_cells {m : Mem} {a n : Nat} {c : Host.Cell} (h : c ∈ (m.zero a n).cells) : ¬ (a ≤ c.1 ∧ c.1 < a + n) := by
  dsimp only [Mem.zero] at h
  have := (List.mem_filter.1 h).2
  exact of_decide_eq_true this

theorem fillIn_wf {m : Mem} (h : Memory.wf m = true) (f : Fill) : Memory.wf (m.fillIn f) = true := by
  unfold Mem.fillIn
  split
  · exact h
  · rename_i hn
    have hz := zero_wf h f.lo f.len
    dsimp only
    rw [wf_iff] at hz ⊢
    refine ⟨hz.1, fillsWf_fillInsert hz.2.1 (Nat.zero_le _) (Nat.pos_of_ne_zero hn) ?_, ?_⟩
    · intro x h1 h2; exact zero_clear m _ _ x ⟨h1, h2⟩
    · intro c hc
      dsimp only
      rw [inFill_fillInsert, hz.2.2 c hc, Bool.or_false, decide_eq_false_iff_not]
      exact zero_cells hc

theorem forget_wf {m : Mem} (h : Memory.wf m = true) (a n ep : Nat) : Memory.wf (m.forget a n ep) = true := fillIn_wf h _

theorem foldl_wf {β : Type} {f : Mem → β → Mem} (hf : ∀ m b, Memory.wf m = true → Memory.wf (f m b) = true) (l : List β) {m : Mem}
    (h : Memory.wf m = true) : Memory.wf (l.foldl f m) = true := by
  induction l generalizing m with
  | nil => exact h
  | cons b l ih => exact ih (hf m b h)

theorem place_wf {m : Mem} (h : Memory.wf m = true) (fs : List Fill) (cs : List Host.Cell) : Memory.wf (m.place fs cs) = true :=
  foldl_wf (fun _ c h => write_wf h c.1 c.2) cs (foldl_wf (fun _ f h => fillIn_wf h f) fs h)

theorem copy_wf {m : Mem} (h : Memory.wf m = true) (src dst n : Nat) : Memory.wf (m.copy src dst n) = true :=
  place_wf (zero_wf h dst n) _ _

/-! ### Reading -/

theorem smGet_default {α : Type} {d d' : Nat → α} {m : SMap α} {k : Nat} (h : d k = d' k) : smGet d m k = smGet d' m k := by
  induction m with
  | nil => exact h
  | cons e m ih => simp only [smGet, ih]

theorem smGet_smSet_other {α : Type} [DecidableEq α] (d d' : Nat → α) (m : SMap α) {k : Nat} (v : α) {j : Nat} (h : j ≠ k) :
    smGet d' (smSet d m k v) j = smGet d' m j := by
  simp only [smSet]
  split
  · exact smGet_smErase_other d' m h
  · exact smGet_smPut_other d' m k v h

theorem find_outside_append {a b x : Nat} (hx : ¬ (a ≤ x ∧ x < b)) (hab : a ≤ b) (f : Fill) (gs : List Fill) :
    fillByte (Fill.outside a b f ++ gs) x = if f.lo ≤ x ∧ x < f.lo + f.len then Config.freeByte f.ep (f.org + (x - f.lo)) else fillByte gs x := by
  unfold Fill.outside fillByte
  dsimp only
  by_cases h1 : f.lo < min (f.lo + f.len) a <;> by_cases h2 : max f.lo b < f.lo + f.len <;>
    simp only [h1, h2, if_true, if_false, List.nil_append, List.cons_append, List.find?_cons]
  · by_cases hi : f.lo ≤ x ∧ x < f.lo + f.len
    · by_cases hl : x < a
      · rw [decide_eq_true (by omega)]; simp only [if_pos hi]
      · rw [decide_eq_false (by omega), decide_eq_true (by omega)]; simp only [if_pos hi]
        congr 1; omega
    · rw [decide_eq_false (by omega), decide_eq_false (by omega)]; simp only [if_neg hi]
  · by_cases hi : f.lo ≤ x ∧ x < f.lo + f.len
    · rw [decide_eq_true (by omega)]; simp only [if_pos hi]
    · rw [decide_eq_false (by omega)]; simp only [if_neg hi]
  · by_cases hi : f.lo ≤ x ∧ x < f.lo + f.len
    · rw [decide_eq_true (by omega)]; simp only [if_pos hi]
      congr 1; omega
    · rw [decide_eq_false (by omega)]; simp only [if_neg hi]
  · rw [if_neg (by omega)]

theorem fillByte_cons (f : Fill) (fs : List Fill) (x : Nat) : fillByte (f :: fs) x =
    if f.lo ≤ x ∧ x < f.lo + f.len then Config.freeByte f.ep (f.org + (x - f.lo)) else fillByte fs x := by
  unfold fillByte
  rw [List.find?_cons]
  by_cases hi : f.lo ≤ x ∧ x < f.lo + f.len
  · rw [decide_eq_true hi, if_pos hi]
  · rw [decide_eq_false hi, if_neg hi]

/-- Cutting a range out of the fills leaves what every other address reads as. -/
theorem fillByte_cut {fs : List Fill} {a b x : Nat} (hab : a ≤ b) (hx : ¬ (a ≤ x ∧ x < b)) :
    fillByte (fs.flatMap (Fill.outside a b)) x = fillByte fs x := by
  induction fs with
  | nil => rfl
  | cons f fs ih => rw [List.flatMap_cons, find_outside_append hx hab, ih, fillByte_cons]

/-- A read after a write. -/
theorem read_write {m : Mem} (h : Memory.wf m = true) (a : Nat) (v : Byte) (b : Nat) :
    (m.write a v).read b = if b = a then v else m.read b := by
  have hc := (wf_iff m).1 h
  unfold Mem.write Mem.read
  split
  · rename_i hin
    dsimp only
    by_cases hb : b = a
    · subst hb
      rw [if_pos rfl]
      have hz : fillByte (m.fills.flatMap (Fill.outside b (b + 1))) b = 0 :=
        fillByte_out (by rw [inFill_cut _ _ _ (by omega)]; simp)
      rw [smGet_default (d' := fun _ => (0 : Byte)) (by rw [hz]), smGet_smSet]; simp
    · rw [if_neg hb, smGet_default (d' := fillByte m.fills) (fillByte_cut (by omega) (by omega))]
      exact smGet_smSet_other _ _ _ _ hb
  · rename_i hin
    dsimp only
    by_cases hb : b = a
    · subst hb
      rw [if_pos rfl, smGet_default (d' := fun _ => (0 : Byte)) (by rw [fillByte_out (by simpa using hin)]), smGet_smSet]; simp
    · rw [if_neg hb]; exact smGet_smSet_other _ _ _ _ hb

/-- A run of bytes leaves every address outside it alone. -/
theorem read_writeBytes_other {m : Mem} (h : Memory.wf m = true) (a : Nat) (bs : List Byte) {b : Nat}
    (hb : ¬ (a ≤ b ∧ b < a + bs.length)) : (m.writeBytes a bs).read b = m.read b := by
  induction bs generalizing m a with
  | nil => rfl
  | cons v bs ih =>
    rw [List.length_cons] at hb
    show ((m.write a v).writeBytes (a + 1) bs).read b = m.read b
    rw [ih (write_wf h a v) (a + 1) (by omega), read_write h, if_neg (by omega)]

/-- A run of bytes reads back. -/
theorem read_writeBytes_in {m : Mem} (h : Memory.wf m = true) (a : Nat) (bs : List Byte) {i : Nat} (hi : i < bs.length) :
    (m.writeBytes a bs).read (a + i) = bs[i] := by
  induction bs generalizing m a i with
  | nil => exact absurd hi (Nat.not_lt_zero _)
  | cons v bs ih =>
    show ((m.write a v).writeBytes (a + 1) bs).read (a + i) = _
    cases i with
    | zero => rw [read_writeBytes_other (write_wf h a v) (a + 1) bs (by omega), read_write h]; simp
    | succ i =>
      have := ih (write_wf h a v) (a + 1) (i := i) (by simpa using hi)
      rw [show a + (i + 1) = a + 1 + i by omega, this]; rfl

theorem read_zero (m : Mem) (a n : Nat) {b : Nat} (hb : ¬ (a ≤ b ∧ b < a + n)) : (m.zero a n).read b = m.read b := by
  unfold Mem.zero Mem.read
  dsimp only
  rw [smGet_default (d' := fillByte m.fills) (fillByte_cut (by omega) hb)]
  induction m.cells with
  | nil => rfl
  | cons c cs ih =>
    obtain ⟨k, v⟩ := c
    rw [List.filter_cons]
    split
    · simp only [smGet, ih]
    · rename_i hk
      simp only [decide_eq_true_eq, not_not] at hk
      rw [ih]; simp only [smGet]; rw [if_neg (by omega)]

end Sys2Proof.Machine
end

