-- ==== Sys2Proof/Laws/Kept.lean ====
section
/-! SUPPORT. What no command changes, and the canonical forms that every command keeps, as one relation between two states;
the lemmas `…_kept` say once for each shared operation that it stays within the relation. -/
namespace Sys2Proof.Machine

/-- The queue and the fuses are those of `z`, the registers and the memory are in canonical form if those of `z` are. -/
def KeptC (z : State) (p : List Instr) (f : Fuses) (r : SMap Word) (m : Mem) : Prop :=
  p = z.pending ∧ f = z.fuses ∧ (smWf (resetWord z.fuses) 0 z.regs = true → smWf (resetWord z.fuses) 0 r = true) ∧
    (Memory.wf z.mem = true → Memory.wf m = true)

def Kept (z s : State) : Prop := KeptC z s.pending s.fuses s.regs s.mem

variable {z : State}

theorem Kept.refl (z : State) : Kept z z := ⟨rfl, rfl, id, id⟩

theorem Kept.of {t : State} (h : KeptC z t.pending t.fuses t.regs t.mem) : Kept z t := h

theorem ite_kept {c : Prop} [Decidable c] {s t : State} (hs : c → Kept z s) (ht : ¬ c → Kept z t) :
    Kept z (if c then s else t) := by
  split
  · exact hs ‹_›
  · exact ht ‹_›

theorem iteK {c : Prop} [Decidable c] {s t : State} (hs : Kept z s) (ht : Kept z t) : Kept z (if c then s else t) :=
  ite_kept (fun _ => hs) fun _ => ht

theorem Kept.core {s : State} (h : Kept z s) : KeptC z s.pending s.fuses s.regs s.mem := h

theorem Kept.setMem {s : State} {m : Mem} (h : Kept z s) (hm : Memory.wf s.mem = true → Memory.wf m = true) :
    KeptC z s.pending s.fuses s.regs m := ⟨h.1, h.2.1, h.2.2.1, hm ∘ h.2.2.2⟩

theorem pwrUpd_kept {s : State} {p : PwrSt} (h : Kept z s) : Kept z { s with pwr := p } := h

theorem memUpd_kept {s : State} {m : Mem} (h : Kept z s) (hm : Memory.wf s.mem = true → Memory.wf m = true) :
    Kept z { s with mem := m } := ⟨h.1, h.2.1, h.2.2.1, hm ∘ h.2.2.2⟩

theorem setReg_kept {s : State} (h : Kept z s) (a : Nat) (v : Word) : Kept z (setReg s a v) := by
  refine ⟨h.1, h.2.1, fun hz => ?_, h.2.2.2⟩
  show smWf (resetWord z.fuses) 0 (smSet (resetWord s.fuses) s.regs a v) = true
  rw [h.2.1]
  exact smWf_smSet _ (h.2.2.1 hz) (Nat.zero_le _) v

theorem map_kept {f : State → State} {o : Option State} {t : State} (e : o.map f = some t) (ho : ∀ u, o = some u → Kept z u)
    (hf : ∀ u, Kept z u → Kept z (f u)) : Kept z t := by
  obtain ⟨u, hu, rfl⟩ := Option.map_eq_some_iff.1 e
  exact hf u (ho u hu)

theorem foldl_kept {β : Type} {f : State → β → State} (hf : ∀ s b, Kept z s → Kept z (f s b)) (l : List β) {s : State}
    (h : Kept z s) : Kept z (l.foldl f s) := by
  induction l generalizing s with
  | nil => exact h
  | cons b l ih => exact ih (hf s b h)

/-- The answer of a meaning is a next state within the relation. -/
def KeptOut (z : State) (o : Out) : Prop := ∃ t, o = .next t ∧ Kept z t

theorem next_kept {t : State} (h : Kept z t) : KeptOut z (.next t) := ⟨t, rfl, h⟩

theorem liveNext_kept {s t : State} (hs : Kept z s) (ht : Kept z t) : KeptOut z (liveNext s t) := by
  refine next_kept ?_
  split
  · exact ht
  · exact hs

end Sys2Proof.Machine
end

