-- ==== Sys2Proof/Laws/KeptOps.lean ====
section
/-! SUPPORT. The commands keep the queue, the fuses and the canonical forms (`Kept`): one lemma for each definition of
the shared operations and the sequencer. -/
namespace Sys2Proof.Machine

set_option linter.unusedTactic false
set_option linter.unreachableTactic false

variable {z : State}

/-! ### Ops -/

theorem setFld_kept {f : Fld} {v : Nat} {s : State} (hk : Kept z s) : Kept z (setFld f v s) := by
  unfold setFld; with_reducible repeat' first | assumption | apply setReg_kept

theorem addFld_kept {f : Fld} {n : Nat} {s : State} (hk : Kept z s) : Kept z (addFld f n s) := by
  unfold addFld; with_reducible repeat' first | assumption | apply setFld_kept

theorem freeStep_kept  {s : State} (hk : Kept z s) : Kept z (freeStep s) := hk

theorem setL_kept {c : Nat} {l : LCore} {s : State} (hk : Kept z s) : Kept z (setL c l s) := hk

theorem modL_kept {c : Nat} {f : LCore → LCore} {s : State} (hk : Kept z s) : Kept z (modL c f s) := hk

theorem modAllL_kept {f : LCore → LCore} {s : State} (hk : Kept z s) : Kept z (modAllL f s) := hk

theorem modP_kept {p : Nat} {f : PCore → PCore} {s : State} (hk : Kept z s) : Kept z (modP p f s) := hk

theorem forgetRange_kept {a n : Nat} {s : State} (hk : Kept z s) : Kept z (forgetRange a n s) := by
  unfold forgetRange; with_reducible repeat'
    first | assumption | (apply Kept.of; dsimp only) | apply Kept.setMem | refine fun _ => ?_ | apply forget_wf

theorem jnlPut_kept {k : Nat} {body : List Byte} {s : State} (hk : Kept z s) : Kept z (jnlPut k body s) := by
  unfold jnlPut; with_reducible repeat'
    first | assumption | apply addFld_kept | (apply Kept.of; dsimp only) | apply Kept.core

theorem sendMsi_kept {n v : Nat} {s : State} (hk : Kept z s) : Kept z (sendMsi n v s) := hk

theorem fatalCopy_kept {r : ERec} {s : State} (hk : Kept z s) : Kept z (fatalCopy r s) := by
  unfold fatalCopy; with_reducible repeat'
    first | assumption | apply addFld_kept | apply jnlPut_kept | (apply Kept.of; dsimp only) | apply Kept.core

theorem errSend_kept {fatal : Bool} {cls : Nat} {s : State} (hk : Kept z s) : Kept z (errSend fatal cls s) := by
  unfold errSend; with_reducible repeat' first | assumption | apply sendMsi_kept | apply iteK

theorem errPendReg_kept  {s : State} (hk : Kept z s) : Kept z (errPendReg s) := by
  unfold errPendReg; with_reducible repeat' first | assumption | apply setFld_kept

theorem errMark_kept {fatal : Bool} {cls : Nat} {s : State} (hk : Kept z s) : Kept z (errMark fatal cls s) := by
  unfold errMark
  repeat' first
    | with_reducible assumption
    | (with_reducible first | apply errPendReg_kept | apply errSend_kept)
    | (with_reducible refine ite_kept (fun _ => ?_) (fun _ => ?_))
    | (with_reducible apply Kept.of; dsimp only)
    | (with_reducible apply Kept.core)

theorem errLost_kept {cls : Nat} {s : State} (hk : Kept z s) : Kept z (errLost cls s) := by
  unfold errLost; with_reducible repeat' first | assumption | apply addFld_kept

theorem report_kept {code : Code} {src : Nat} {detail : Word} {s : State} (hk : Kept z s) : Kept z (report code src detail s) := by
  unfold report
  repeat' first
    | with_reducible assumption
    | (with_reducible first | apply addFld_kept | apply errLost_kept | apply errMark_kept | apply fatalCopy_kept | apply setFld_kept)
    | (with_reducible refine ite_kept (fun _ => ?_) (fun _ => ?_))
    | (with_reducible apply Kept.of; dsimp only)
    | (with_reducible apply Kept.core)
    | split

theorem reportCore_kept {code : Code} {u : Nat} {phys : Nat} {detail : Word} {s : State} (hk : Kept z s) : Kept z (reportCore code u phys detail s) := by
  unfold reportCore; with_reducible repeat' first | assumption | apply report_kept

theorem idle_kept  {s : State} (hk : Kept z s) : Kept z (idle s) := hk

/-! ### Operands -/

theorem putElem_wf {d : Desc} {w : List Nat} {v : Nat} {m : Mem} (hk : Memory.wf m = true) : Memory.wf (putElem d w v m) = true := by
  unfold putElem; with_reducible repeat' first | assumption | apply writeBytes_wf

/-! ### LatOps -/

theorem setGran_kept {g : Nat} {e : Gran} {s : State} (hk : Kept z s) : Kept z (setGran g e s) := hk

theorem dirPut_kept {k : Nat} {e : Option DirEnt} {s : State} (hk : Kept z s) : Kept z (dirPut k e s) := by
  unfold dirPut; with_reducible repeat'
    first | assumption | (apply Kept.of; dsimp only) | apply Kept.setMem | refine fun _ => ?_ | apply writeBytes_wf

theorem latStat_kept {d : Nat} {s : State} (hk : Kept z s) : Kept z (latStat d s) := by
  unfold latStat; with_reducible repeat' first | assumption | apply setFld_kept

theorem jobsStart_kept {d n : Nat} {s : State} (h : Kept z s) : Kept z (jobsStart d n s) := by
  induction n generalizing s with
  | zero => exact h
  | succ n ih =>
    unfold jobsStart
    split
    · exact h
    · split
      · exact ih h
      · exact h

theorem clearBad_kept {a n : Nat} {s : State} (hk : Kept z s) : Kept z (clearBad a n s) := hk

theorem markBad_kept {a : Nat} {s : State} (hk : Kept z s) : Kept z (markBad a s) := hk

theorem HWrite.put_wf {w : HWrite} {m : Mem} (hk : Memory.wf m = true) : Memory.wf (HWrite.put w m) = true := by
  unfold HWrite.put; with_reducible repeat' first | assumption | apply writeBytes_wf

theorem hbmLand_kept {a : Nat} {bs : List Byte} {s : State} (hk : Kept z s) : Kept z (hbmLand a bs s) := by
  unfold hbmLand
  repeat' first
    | with_reducible assumption
    | (with_reducible first | apply clearBad_kept | apply setGran_kept)
    | (with_reducible refine foldl_kept (fun _ _ _ => ?_) _ ?_)
    | (with_reducible apply Kept.of; dsimp only)
    | (with_reducible apply Kept.setMem)
    | (with_reducible refine fun _ => ?_)
    | (with_reducible apply writeBytes_wf)

theorem granLand_kept {w : HWrite} {s : State} (hk : Kept z s) : Kept z (granLand w s) := by
  unfold granLand; with_reducible repeat' first | assumption | apply hbmLand_kept

theorem granCopy_kept {g : Nat} {held : List HWrite} {s : State} (hk : Kept z s) : Kept z (granCopy g held s) := by
  unfold granCopy
  repeat' first
    | with_reducible assumption
    | (with_reducible first | apply jobsStart_kept | apply latStat_kept | apply setGran_kept)
    | (with_reducible apply Kept.of; dsimp only)
    | (with_reducible apply Kept.core)

theorem granPut_kept {g : Nat} {w : HWrite} {s : State} (hk : Kept z s) : Kept z (granPut g w s) := by
  unfold granPut; with_reducible repeat'
    first | assumption | apply granCopy_kept | apply granLand_kept | apply setGran_kept | apply iteK

theorem hbmWrite_kept {w : HWrite} {s : State} (hk : Kept z s) : Kept z (hbmWrite w s) := by
  unfold hbmWrite; with_reducible repeat'
    first | assumption | apply granPut_kept | refine foldl_kept (fun _ _ _ => ?_) _ ?_

theorem hbmPut_kept {a : Nat} {bs : List Byte} {s : State} (hk : Kept z s) : Kept z (hbmPut a bs s) := by
  unfold hbmPut; with_reducible repeat' first | assumption | apply hbmWrite_kept

theorem latAwait_kept {rs : List (Nat × Nat)} {s t : State} (h : Kept z s) (e : latAwait rs s = some (some t)) : Kept z t := by
  unfold latAwait at e
  dsimp only at e
  split at e
  · cases e
  · split at e
    · cases e
    · cases e
      exact foldl_kept (fun _ _ h => granCopy_kept h) _ h

theorem memPut_kept {a : Nat} {bs : List Byte} {s : State} (hk : Kept z s) : Kept z (memPut a bs s) := by
  unfold memPut
  repeat' first
    | with_reducible assumption
    | with_reducible apply hbmPut_kept
    | (with_reducible refine ite_kept (fun _ => ?_) (fun _ => ?_))
    | (with_reducible apply Kept.of; dsimp only)
    | (with_reducible apply Kept.setMem)
    | (with_reducible refine fun _ => ?_)
    | (with_reducible apply writeBytes_wf)

theorem cutRelease_kept {g : Nat} {s : State} (hk : Kept z s) : Kept z (cutRelease g s) := by
  unfold cutRelease
  repeat' first
    | with_reducible assumption
    | (with_reducible first | apply dirPut_kept | apply jobsStart_kept | apply latStat_kept | apply setGran_kept)
    | (with_reducible refine ite_kept (fun _ => ?_) (fun _ => ?_))
    | (with_reducible apply Kept.of; dsimp only)
    | (with_reducible apply Kept.core)
    | split

theorem cutClear_kept {tier1 : Bool} {g : Nat} {s : State} (hk : Kept z s) : Kept z (cutClear tier1 g s) := by
  unfold cutClear; with_reducible repeat' first | assumption | apply cutRelease_kept | apply setGran_kept

theorem copyDone_kept {j : CopyJob} {s : State} (hk : Kept z s) : Kept z (copyDone j s) := by
  unfold copyDone
  repeat' first
    | with_reducible assumption
    | (with_reducible first | apply addFld_kept | apply clearBad_kept | apply cutRelease_kept | apply dirPut_kept | apply granLand_kept | apply jobsStart_kept | apply latStat_kept | apply setFld_kept | apply setGran_kept)
    | (with_reducible refine foldl_kept (fun _ _ _ => ?_) _ ?_)
    | (with_reducible refine ite_kept (fun _ => ?_) (fun _ => ?_))
    | (with_reducible apply Kept.of; dsimp only)
    | (with_reducible apply Kept.setMem)
    | (with_reducible refine fun _ => ?_)
    | (with_reducible apply copy_wf)

theorem latProtect_kept {old new : List (Nat × Nat)} {s : State} (hk : Kept z s) : Kept z (latProtect old new s) := by
  unfold latProtect
  repeat' first
    | with_reducible assumption
    | (with_reducible first | apply setFld_kept | apply setGran_kept)
    | (with_reducible refine foldl_kept (fun _ _ _ => ?_) _ ?_)
    | (with_reducible refine ite_kept (fun _ => ?_) (fun _ => ?_))
    | (with_reducible apply Kept.of; dsimp only)
    | (with_reducible apply Kept.core)

theorem copyDrop_kept {g : Nat} {s : State} (hk : Kept z s) : Kept z (copyDrop g s) := by
  unfold copyDrop
  repeat' first
    | with_reducible assumption
    | (with_reducible first | apply granLand_kept | apply setGran_kept)
    | (with_reducible refine foldl_kept (fun _ _ _ => ?_) _ ?_)
    | (with_reducible apply Kept.of; dsimp only)
    | (with_reducible apply Kept.core)

theorem latCommit_kept  {s : State} (hk : Kept z s) : Kept z (latCommit s) := by
  unfold latCommit
  repeat' first
    | with_reducible assumption
    | (with_reducible first | apply copyDrop_kept | apply dirPut_kept | apply jobsStart_kept | apply latStat_kept | apply setFld_kept | apply setGran_kept)
    | (with_reducible refine foldl_kept (fun _ _ _ => ?_) _ ?_)
    | (with_reducible refine ite_kept (fun _ => ?_) (fun _ => ?_))
    | (with_reducible apply Kept.of; dsimp only)
    | (with_reducible apply Kept.core)
    | split

theorem latCancel_kept  {s : State} (hk : Kept z s) : Kept z (latCancel s) := by
  unfold latCancel
  repeat' first
    | with_reducible assumption
    | (with_reducible first | apply latStat_kept | apply setGran_kept)
    | (with_reducible refine foldl_kept (fun _ _ _ => ?_) _ ?_)
    | (with_reducible apply Kept.of; dsimp only)
    | (with_reducible apply Kept.core)

theorem latWriteBack_kept  {s : State} (hk : Kept z s) : Kept z (latWriteBack s) := by
  unfold latWriteBack
  repeat' first
    | with_reducible assumption
    | (with_reducible first | apply addFld_kept | apply clearBad_kept)
    | (with_reducible refine foldl_kept (fun _ _ _ => ?_) _ ?_)
    | (with_reducible refine ite_kept (fun _ => ?_) (fun _ => ?_))
    | (with_reducible apply Kept.of; dsimp only)
    | (with_reducible apply Kept.setMem)
    | (with_reducible refine fun _ => ?_)
    | (with_reducible apply copy_wf)
    | split

theorem latClear_kept  {s : State} (hk : Kept z s) : Kept z (latClear s) := by
  unfold latClear
  repeat' first
    | with_reducible assumption
    | (with_reducible first | apply dirPut_kept | apply latStat_kept | apply setFld_kept)
    | (with_reducible refine foldl_kept (fun _ _ _ => ?_) _ ?_)
    | (with_reducible apply Kept.of; dsimp only)
    | (with_reducible apply Kept.core)

/-! ### SendOps -/

theorem setPort_kept {n : Nat} {p : Port} {s : State} (hk : Kept z s) : Kept z (setPort n p s) := hk

theorem modPort_kept {n : Nat} {f : Port → Port} {s : State} (hk : Kept z s) : Kept z (modPort n f s) := by
  unfold modPort; with_reducible repeat' first | assumption | apply setPort_kept

theorem enqueue_kept {n : Nat} {p : Packet} {s : State} (hk : Kept z s) : Kept z (enqueue n p s) := by
  unfold enqueue; with_reducible repeat' first | assumption | apply modPort_kept

theorem sendFrom_kept {die : Nat} {p : Packet} {s t : State} (h : Kept z s) (e : sendFrom die p s = some t) : Kept z t := by
  unfold sendFrom at e
  dsimp only at e
  split at e
  · cases e
  · split at e
    · split at e
      · split at e
        · obtain rfl := Option.some.inj e
          with_reducible refine enqueue_kept ?_
          exact h.core
        · cases e
      · split at e
        · cases e
        · obtain rfl := Option.some.inj e
          with_reducible refine enqueue_kept ?_
          exact h.core
    · obtain ⟨n, -, rfl⟩ := Option.map_eq_some_iff.1 e
      exact enqueue_kept h

theorem deliver_kept {p : Packet} {s : State} (hk : Kept z s) : Kept z (deliver p s) := hk

theorem sendOrDrop_kept {die : Nat} {p : Packet} {s : State} (h : Kept z s) : Kept z (sendOrDrop die p s) := by
  unfold sendOrDrop
  cases e : sendFrom die p s with
  | none => exact h
  | some t => exact sendFrom_kept h e

theorem sendCtl_kept {m : Member} {c : Ctl} {s : State} (hk : Kept z s) : Kept z (sendCtl m c s) := by
  unfold sendCtl; with_reducible repeat' first | assumption | apply deliver_kept | apply sendOrDrop_kept | apply iteK

theorem floodCtl_kept {c : Ctl} {s : State} (hk : Kept z s) : Kept z (floodCtl c s) := by
  unfold floodCtl; with_reducible repeat'
    first | assumption | apply enqueue_kept | refine foldl_kept (fun _ _ _ => ?_) _ ?_ | apply iteK

theorem sendPlain_kept {m : Member} {destDie srcDie : Nat} {b : Body} {s : State} (hk : Kept z s) : Kept z (sendPlain m destDie srcDie b s) := by
  unfold sendPlain; with_reducible repeat' first | assumption | apply sendOrDrop_kept

theorem flowAck_kept {cls die dest n : Nat} {s : State} (hk : Kept z s) : Kept z (flowAck cls die dest n s) := hk

theorem ackSend_kept {k : AckKey} {s : State} (hk : Kept z s) : Kept z (ackSend k s) := by
  unfold ackSend; with_reducible repeat'
    first | assumption | apply sendPlain_kept | (apply Kept.of; dsimp only) | apply Kept.core | split

theorem ackOwe_kept {d : Nat} {p : Packet} {s : State} (hk : Kept z s) : Kept z (ackOwe d p s) := by
  unfold ackOwe; with_reducible repeat'
    first | assumption | apply ackSend_kept | apply iteK | (apply Kept.of; dsimp only) | apply Kept.core | split

theorem creditBack_kept {p : Packet} {s : State} (hk : Kept z s) : Kept z (creditBack p s) := by
  unfold creditBack; with_reducible repeat' first | assumption | apply modPort_kept | split

theorem setAside_kept {p : Packet} {s : State} (hk : Kept z s) : Kept z (setAside p s) := by
  unfold setAside; split
  · exact Kept.of hk.core
  · exact hk

theorem takeInbound_kept {f : Packet → Bool} {s : State} (hk : Kept z s) {x : Option Packet} {t : State} (e : takeInbound f s = (x, t)) : Kept z t := by
  unfold takeInbound at e
  try dsimp only at e
  repeat' split at e
  all_goals first
    | (cases e; done)
    | (cases e
       repeat' first
         | with_reducible assumption
         | with_reducible apply creditBack_kept
         | (with_reducible apply Kept.of; dsimp only)
         | (with_reducible apply Kept.core)
       done)

theorem takeInbound_kept1 {f : Packet → Bool} {s : State} (hk : Kept z s) : Kept z (takeInbound f s).2 := takeInbound_kept hk rfl

theorem takeCtl_kept {c : Ctl} {s : State} (hk : Kept z s) : Kept z (takeCtl c s) := by
  unfold takeCtl; with_reducible repeat' first | assumption | apply takeInbound_kept1

theorem ordered_kept {f : Packet → Bool} {s t : State} (hs : Kept z s) (ht : Kept z t) : Kept z (ordered f s t) := by
  unfold ordered; exact iteK ht hs

theorem sendRoot_kept {c : Ctl} {s : State} (hk : Kept z s) : Kept z (sendRoot c s) := by
  unfold sendRoot; with_reducible repeat'
    first | assumption | apply sendCtl_kept | (apply Kept.of; dsimp only) | apply Kept.core | split

theorem sendChildren_kept {c : Ctl} {s : State} (hk : Kept z s) : Kept z (sendChildren c s) := by
  unfold sendChildren; with_reducible repeat'
    first | assumption | apply sendCtl_kept | refine foldl_kept (fun _ _ _ => ?_) _ ?_ | split

/-! ### Snap -/

theorem setNs_kept {n : NsData} {s : State} (hk : Kept z s) : Kept z (setNs n s) := hk

/-! ### TktOps -/

theorem raiseVec_kept {n v : Nat} {s : State} (hk : Kept z s) : Kept z (raiseVec n v s) := by
  unfold raiseVec; with_reducible repeat'
    first | assumption | apply sendMsi_kept | apply iteK | (apply Kept.of; dsimp only) | apply Kept.core

theorem setRing_kept {n q : Nat} {r : CRing} {s : State} (hk : Kept z s) : Kept z (setRing n q r s) := hk

theorem ringWrite_kept {n q : Nat} {e : CEnt} {s : State} (hk : Kept z s) : Kept z (ringWrite n q e s) := by
  unfold ringWrite; with_reducible repeat'
    first | assumption | apply raiseVec_kept | apply setFld_kept | apply setRing_kept

theorem ringOverflow_kept {n q : Nat} {s : State} (hk : Kept z s) : Kept z (ringOverflow n q s) := by
  unfold ringOverflow; with_reducible repeat'
    first | assumption | apply ringWrite_kept | apply setRing_kept | apply iteK

theorem postOn_kept {n q : Nat} {e : CEnt} {s : State} (hk : Kept z s) : Kept z (postOn n q e s) := by
  unfold postOn
  repeat' first
    | with_reducible assumption
    | (with_reducible first | apply addFld_kept | apply ringOverflow_kept | apply ringWrite_kept | apply setRing_kept)
    | (with_reducible refine ite_kept (fun _ => ?_) (fun _ => ?_))

theorem post_kept {q : Nat} {e : CEnt} {s : State} (hk : Kept z s) : Kept z (post q e s) := by
  unfold post; with_reducible repeat' first | assumption | apply postOn_kept

theorem postNotice_kept {q notice count : Nat} {s : State} (hk : Kept z s) : Kept z (postNotice q notice count s) := by
  unfold postNotice; with_reducible repeat' first | assumption | apply post_kept

theorem modTQ_kept {q : Nat} {f : TQueue → TQueue} {s : State} (hk : Kept z s) : Kept z (modTQ q f s) := hk

theorem jWrite_kept {key : Nat} {e : JEntry} {s : State} (hk : Kept z s) : Kept z (jWrite key e s) := by
  unfold jWrite
  repeat' first
    | with_reducible assumption
    | (with_reducible first | apply addFld_kept | apply sendCtl_kept)
    | (with_reducible refine ite_kept (fun _ => ?_) (fun _ => ?_))
    | (with_reducible apply Kept.of; dsimp only)
    | (with_reducible apply Kept.core)
    | split

theorem ctlBlock_kept {q : Nat} {s : State} (hk : Kept z s) : Kept z (ctlBlock q s) := by
  unfold ctlBlock; with_reducible repeat' first | assumption | apply jnlPut_kept

theorem jRetain_kept {q : Nat} {s : State} (hk : Kept z s) : Kept z (jRetain q s) := by
  unfold jRetain; with_reducible repeat'
    first | assumption | apply setFld_kept | apply iteK | (apply Kept.of; dsimp only) | apply Kept.core

theorem completeTicket_kept {q : Nat} {seq : Word} {status : Code} {detail : Word} {running : Bool} {s : State} (hk : Kept z s) : Kept z (completeTicket q seq status detail running s) := by
  unfold completeTicket
  repeat' first
    | with_reducible assumption
    | (with_reducible first | apply addFld_kept | apply ctlBlock_kept | apply jRetain_kept | apply jWrite_kept | apply post_kept | apply setReg_kept)
    | (with_reducible refine ite_kept (fun _ => ?_) (fun _ => ?_))
    | (with_reducible apply Kept.of; dsimp only)
    | (with_reducible apply Kept.core)
    | split

theorem slotBusy_kept  {s : State} (hk : Kept z s) : Kept z (slotBusy s) := by
  unfold slotBusy; with_reducible repeat' first | assumption | apply setFld_kept

theorem slotFree_kept {k : Nat} {s : State} (hk : Kept z s) : Kept z (slotFree k s) := by
  unfold slotFree
  repeat' first
    | with_reducible assumption
    | with_reducible apply slotBusy_kept
    | (with_reducible apply Kept.of; dsimp only)
    | (with_reducible apply Kept.setMem)
    | (with_reducible refine fun _ => ?_)
    | (with_reducible apply write_wf)

theorem slotEnd_kept {k : Nat} {status : Code} {detail : Word} {s : State} (hk : Kept z s) : Kept z (slotEnd k status detail s) := by
  unfold slotEnd; with_reducible repeat'
    first | assumption | apply completeTicket_kept | apply post_kept | apply slotFree_kept | apply iteK | split

/-! ### Loop -/

theorem catchAdd_kept {c i : Nat} {amount : BitVec 32} {s : State} (hk : Kept z s) : Kept z (catchAdd c i amount s) := by
  unfold catchAdd
  repeat' first
    | with_reducible assumption
    | (with_reducible first | apply reportCore_kept | apply setL_kept)
    | (with_reducible refine ite_kept (fun _ => ?_) (fun _ => ?_))
    | (with_reducible apply Kept.of; dsimp only)
    | (with_reducible apply Kept.core)
    | split

theorem queryDispatch_kept {k : Nat} {x : Nat × Word × Ticket} {s : State} (hk : Kept z s) : Kept z (queryDispatch k x s) := by
  unfold queryDispatch
  repeat' first
    | with_reducible assumption
    | (with_reducible first | apply addFld_kept | apply catchAdd_kept | apply hbmPut_kept | apply jWrite_kept | apply slotBusy_kept)
    | (with_reducible apply Kept.of; dsimp only)
    | (with_reducible apply Kept.core)
    | split

theorem dispatchAll_kept {n : Nat} {s : State} (h : Kept z s) : Kept z (dispatchAll n s) := by
  induction n generalizing s with
  | zero => exact h
  | succ n ih =>
    unfold dispatchAll
    refine ite_kept (fun _ => h) fun _ => ?_
    split
    · exact ih (queryDispatch_kept h)
    · exact ih (queryDispatch_kept h)
    · exact h

theorem dispatchNow_kept  {s : State} (hk : Kept z s) : Kept z (dispatchNow s) := by
  unfold dispatchNow; with_reducible repeat' first | assumption | apply dispatchAll_kept

theorem slotOver_kept {k : Nat} {status : Code} {detail : Word} {s : State} (hk : Kept z s) : Kept z (slotOver k status detail s) := by
  unfold slotOver; with_reducible repeat' first | assumption | apply dispatchNow_kept | apply slotEnd_kept

/-! ### StopOps -/

theorem stepIdle_kept  {s : State} (hk : Kept z s) : Kept z (stepIdle s) := by
  unfold stepIdle; with_reducible repeat' first | assumption | apply setFld_kept

theorem stepDrop_kept  {s : State} (hk : Kept z s) : Kept z (stepDrop s) := by
  unfold stepDrop
  repeat' first
    | with_reducible assumption
    | (with_reducible first | apply latCancel_kept | apply latCommit_kept | apply latWriteBack_kept | apply stepIdle_kept)
    | (with_reducible refine ite_kept (fun _ => ?_) (fun _ => ?_))

theorem completeLoad_kept {i : Image} {status : Code} {detail : Word} {s : State} (hk : Kept z s) : Kept z (completeLoad i status detail s) := by
  unfold completeLoad; with_reducible repeat'
    first | assumption | apply completeTicket_kept | (apply Kept.of; dsimp only) | apply Kept.core | split

theorem recordsLand_kept  {s : State} (hk : Kept z s) : Kept z (recordsLand s) := by
  unfold recordsLand; with_reducible repeat'
    first | assumption | apply hbmPut_kept | refine foldl_kept (fun _ _ _ => ?_) _ ?_ | apply iteK | split

theorem transfersLand_kept  {s : State} (hk : Kept z s) : Kept z (transfersLand s) := by
  unfold transfersLand; with_reducible repeat'
    first | assumption | apply hbmWrite_kept | refine foldl_kept (fun _ _ _ => ?_) _ ?_

theorem imageOff_kept  {s : State} (hk : Kept z s) : Kept z (imageOff s) := by
  unfold imageOff
  repeat' first
    | with_reducible assumption
    | (with_reducible first | apply recordsLand_kept | apply stepDrop_kept | apply transfersLand_kept)
    | (with_reducible apply Kept.of; dsimp only)
    | (with_reducible apply Kept.core)

theorem imageEnd_kept {status : Code} {detail : Word} {s : State} (hk : Kept z s) : Kept z (imageEnd status detail s) := by
  unfold imageEnd
  repeat' first
    | with_reducible assumption
    | (with_reducible first | apply completeLoad_kept | apply completeTicket_kept | apply imageOff_kept | apply slotEnd_kept)
    | (with_reducible refine foldl_kept (fun _ _ _ => ?_) _ ?_)
    | (with_reducible apply Kept.of; dsimp only)
    | (with_reducible apply Kept.core)
    | split

theorem abortFlood_kept {m : AbortMsg} {s : State} (hk : Kept z s) : Kept z (abortFlood m s) := by
  unfold abortFlood; with_reducible repeat'
    first | assumption | apply floodCtl_kept | apply iteK | (apply Kept.of; dsimp only) | apply Kept.core

theorem programFlood_kept {code : Code} {s : State} (hk : Kept z s) : Kept z (programFlood code s) := by
  unfold programFlood; with_reducible repeat' first | assumption | apply abortFlood_kept | apply iteK

theorem programFaultAux_kept {c queue pc : Nat} {code : Code} {aux : Nat} {s : State} (hk : Kept z s) : Kept z (programFaultAux c queue pc code aux s) := by
  unfold programFaultAux
  repeat' first
    | with_reducible assumption
    | (with_reducible first | apply addFld_kept | apply imageEnd_kept | apply modL_kept | apply programFlood_kept | apply reportCore_kept | apply sendRoot_kept | apply setFld_kept)
    | (with_reducible refine ite_kept (fun _ => ?_) (fun _ => ?_))
    | (with_reducible apply Kept.of; dsimp only)
    | (with_reducible apply Kept.core)
    | split

theorem programFault_kept {c queue pc : Nat} {code : Code} {s : State} (hk : Kept z s) : Kept z (programFault c queue pc code s) := by
  unfold programFault; with_reducible repeat' first | assumption | apply programFaultAux_kept

theorem slotFault_kept {k c queue pc : Nat} {code : Code} {aux : Nat} {s : State} (hk : Kept z s) : Kept z (slotFault k c queue pc code aux s) := by
  unfold slotFault; with_reducible repeat' first | assumption | apply reportCore_kept | apply slotOver_kept | split

theorem unitFaultAux_kept {c queue pc : Nat} {code : Code} {aux : Nat} {s : State} (hk : Kept z s) : Kept z (unitFaultAux c queue pc code aux s) := by
  unfold unitFaultAux; with_reducible repeat'
    first | assumption | apply programFaultAux_kept | apply slotFault_kept | split

theorem unitFault_kept {c queue pc : Nat} {code : Code} {s : State} (hk : Kept z s) : Kept z (unitFault c queue pc code s) := by
  unfold unitFault; with_reducible repeat' first | assumption | apply unitFaultAux_kept

/-! ### Seq -/

theorem seqIssue_kept {c : Nat} {r : Req} {act : LCore → State → State} {s : State} (h : Kept z s)
    (ha : ∀ l s, Kept z s → Kept z (act l s)) : Kept z (seqIssue c r act s) := by
  unfold seqIssue
  split
  · exact h
  · exact ite_kept (fun _ => h) fun _ => ite_kept (fun _ => programFault_kept h) fun _ => ite_kept (fun _ => programFault_kept h)
      fun _ => ite_kept (fun _ => programFault_kept h) fun _ => ite_kept (fun _ => setL_kept h) fun _ => ite_kept (fun _ => h)
      fun _ => ite_kept (fun _ => h) fun _ => ha _ _ h

theorem readsDesc_kept {c : Nat} {r : BitVec 5} {act : LCore → State → State} {l : LCore} {s : State} (h : Kept z s)
    (ha : ∀ l s, Kept z s → Kept z (act l s)) : Kept z (readsDesc c r act l s) := by
  unfold readsDesc
  split
  · exact programFault_kept h
  · exact ha _ _ h

theorem scalarOp_kept {c : Nat} {f : FmtA} {op : Word → Word → Word} {s : State} (hk : Kept z s) : Kept z (scalarOp c f op s) := by
  unfold scalarOp; with_reducible repeat'
    first | assumption | apply setL_kept | refine seqIssue_kept ?_ (fun _ _ _ => ?_)

theorem scalarStore_kept {c : Nat} {l : LCore} {a : Nat} {bs : List Byte} {s : State} (hk : Kept z s) : Kept z (scalarStore c l a bs s) := by
  unfold scalarStore; with_reducible repeat' first | assumption | apply memPut_kept | apply setL_kept | apply iteK

theorem branchTo_kept {c : Nat} {l : LCore} {target : Int} {s : State} (hk : Kept z s) : Kept z (branchTo c l target s) := by
  unfold branchTo; with_reducible repeat' first | assumption | apply programFault_kept | apply setL_kept | apply iteK

end Sys2Proof.Machine
end

