-- ==== Sys2Proof/Laws/KeptQueues.lean ====
section
/-! SUPPORT. The commands keep the queue, the fuses and the canonical forms (`Kept`): one lemma for each definition of
what starts from the queues. -/
namespace Sys2Proof.Machine

set_option linter.unusedTactic false
set_option linter.unreachableTactic false

variable {z : State}

/-! ### Matrix -/

theorem poisonWhere_kept {l : LCore} {c : CapD} {m n : Nat} {sel : Nat → Nat → Bool} {s : State} (hk : Kept z s) : Kept z (poisonWhere l c m n sel s) := by
  unfold poisonWhere
  repeat' first
    | with_reducible assumption
    | (with_reducible refine ite_kept (fun _ => ?_) (fun _ => ?_))
    | (with_reducible apply Kept.of; dsimp only)
    | (with_reducible apply Kept.setMem)
    | (with_reducible refine fun _ => ?_)
    | (with_reducible apply putElem_wf)
    | (with_reducible refine foldl_wf (fun _ _ _ => ?_) _ ?_)
    | split

theorem partFault_kept {c : Nat} {part pc : Nat} {code : Code} {s : State} (hk : Kept z s) : Kept z (partFault c part pc code s) := by
  unfold partFault
  repeat' first
    | with_reducible assumption
    | (with_reducible first | apply programFault_kept | apply setL_kept | apply slotFault_kept)
    | (with_reducible refine ite_kept (fun _ => ?_) (fun _ => ?_))
    | (with_reducible apply Kept.of; dsimp only)
    | (with_reducible apply Kept.core)
    | split

/-! ### Drain -/

theorem drainStore_kept {c : CapD} {o : DrainOut} {s : State} (hk : Kept z s) : Kept z (drainStore c o s) := by
  unfold drainStore
  repeat' first
    | with_reducible assumption
    | (with_reducible apply Kept.of; dsimp only)
    | (with_reducible apply Kept.setMem)
    | (with_reducible refine fun _ => ?_)
    | (with_reducible apply putElem_wf)
    | (with_reducible refine foldl_wf (fun _ _ _ => ?_) _ ?_)

/-! ### MatrixQ -/

theorem takePort_kept {l : LCore} {xfer : Bool} {s : State} (hk : Kept z s) {t : State} (e : takePort l xfer s = some t) : Kept z t := by
  unfold takePort at e
  try dsimp only at e
  repeat' split at e
  all_goals first
    | (cases e; done)
    | (obtain rfl := Option.some.inj e
       repeat' first
         | with_reducible assumption
         | with_reducible apply modP_kept
       done)

theorem drainDo_kept1 {s : State} {ci : Nat} {l : LCore} {e : QE} {c : CapD} {blocks : List (Nat × Nat)} {m n pm pn : Nat}
    {out : Nat → Nat → Pair} (h : Kept z s) : Kept z (drainDo s ci l e c blocks m n pm pn out).1 := by
  unfold drainDo
  exact drainStore_kept h

theorem startDrain_kept {ci i : Nat} {l : LCore} {e : QE} {c : CapD} {s : State} (hk : Kept z s) {t : State} (e : startDrain ci i l e c s = some t) : Kept z t := by
  unfold startDrain at e
  try dsimp only at e
  repeat' split at e
  all_goals first
    | (cases e; done)
    | (obtain rfl := Option.some.inj e
       repeat' first
         | with_reducible assumption
         | (with_reducible first | apply modL_kept | apply partFault_kept | apply poisonWhere_kept | apply setL_kept)
         | (with_reducible apply drainDo_kept1)
         | (with_reducible refine takePort_kept ?_ (by with_reducible assumption))
       done)

theorem startPair_kept {ci i : Nat} {l : LCore} {e d : QE} {c cd : CapD} {o : MmaOps} {s : State} (hk : Kept z s) {t : State} (e : startPair ci i l e d c cd o s = some t) : Kept z t := by
  unfold startPair at e
  try dsimp only at e
  repeat' split at e
  all_goals first
    | (cases e; done)
    | (obtain rfl := Option.some.inj e
       repeat' first
         | with_reducible assumption
         | (with_reducible first | apply modL_kept | apply partFault_kept | apply poisonWhere_kept | apply setL_kept)
         | (with_reducible apply drainDo_kept1)
         | (with_reducible refine takePort_kept ?_ (by with_reducible assumption))
       done)

theorem startSingle_kept {ci i : Nat} {l : LCore} {e : QE} {c : CapD} {o : MmaOps} {s : State} (hk : Kept z s) {t : State} (e : startSingle ci i l e c o s = some t) : Kept z t := by
  unfold startSingle at e
  try dsimp only at e
  repeat' split at e
  all_goals first
    | (cases e; done)
    | (obtain rfl := Option.some.inj e
       repeat' first
         | with_reducible assumption
         | (with_reducible first | apply modL_kept | apply partFault_kept | apply setL_kept)
         | (with_reducible refine takePort_kept ?_ (by with_reducible assumption))
       done)

theorem startMma_kept {ci i : Nat} {l : LCore} {e : QE} {c : CapD} {s : State} (hk : Kept z s) {t : State} (e : startMma ci i l e c s = some t) : Kept z t := by
  unfold startMma at e
  try dsimp only at e
  repeat' split at e
  all_goals first
    | (refine startPair_kept ?_ e; with_reducible assumption)
    | (refine startSingle_kept ?_ e; with_reducible assumption)
    | (cases e; done)
    | (obtain rfl := Option.some.inj e
       repeat' first
         | with_reducible assumption
         | (with_reducible first | apply modL_kept | apply partFault_kept | apply setL_kept)
       done)

theorem startHinge_kept {ci i : Nat} {l : LCore} {e : QE} {c : CapD} {s : State} (hk : Kept z s) {t : State} (e : startHinge ci i l e c s = some t) : Kept z t := by
  unfold startHinge at e
  try dsimp only at e
  repeat' split at e
  all_goals first
    | (cases e; done)
    | (obtain rfl := Option.some.inj e
       repeat' first
         | with_reducible assumption
         | with_reducible apply setL_kept
       done)

theorem startAclr_kept {ci i : Nat} {l : LCore} {c : CapD} {s : State} (hk : Kept z s) {t : State} (e : startAclr ci i l c s = some t) : Kept z t := by
  unfold startAclr at e
  try dsimp only at e
  repeat' split at e
  all_goals first
    | (cases e; done)
    | (obtain rfl := Option.some.inj e
       repeat' first
         | with_reducible assumption
         | with_reducible apply setL_kept
       done)

theorem startM_kept {ci : Nat} {s : State} (hk : Kept z s) {t : State} (e : startM ci s = some t) : Kept z t := by
  unfold startM at e
  try dsimp only at e
  repeat' split at e
  all_goals first
    | (refine startAclr_kept ?_ e; with_reducible assumption)
    | (refine startDrain_kept ?_ e; with_reducible assumption)
    | (refine startHinge_kept ?_ e; with_reducible assumption)
    | (refine startMma_kept ?_ e; with_reducible assumption)
    | (cases e; done)
    | (obtain rfl := Option.some.inj e
       repeat' first
         | with_reducible assumption
         | with_reducible apply programFault_kept
       done)

/-! ### Tumbler -/

theorem tprobeRun_wf {m : Mem} {l : LCore} {c : CapD} (h : Memory.wf m = true) {m' : Mem} (e : tprobeRun m l c = .ok m') :
    Memory.wf m' = true := by
  unfold tprobeRun at e
  dsimp only at e
  split at e
  · cases e
  · cases e
    refine foldl_wf (fun _ _ h => foldl_wf (fun _ _ h => ?_) _ h) _ h
    split
    · exact putElem_wf (putElem_wf h)
    · exact h

theorem probePoison_kept {l : LCore} {c : CapD} {s : State} (hk : Kept z s) : Kept z (probePoison l c s) := by
  unfold probePoison
  repeat' first
    | with_reducible assumption
    | (with_reducible refine ite_kept (fun _ => ?_) (fun _ => ?_))
    | (with_reducible apply Kept.of; dsimp only)
    | (with_reducible apply Kept.setMem)
    | (with_reducible refine fun _ => ?_)
    | (with_reducible apply putElem_wf)
    | (with_reducible refine foldl_wf (fun _ _ _ => ?_) _ ?_)
    | split

theorem engFault_kept {ci eng pc : Nat} {code : Code} {s : State} (hk : Kept z s) : Kept z (engFault ci eng pc code s) := by
  unfold engFault
  repeat' first
    | with_reducible assumption
    | (with_reducible first | apply programFault_kept | apply setL_kept | apply slotFault_kept)
    | (with_reducible refine ite_kept (fun _ => ?_) (fun _ => ?_))
    | (with_reducible apply Kept.of; dsimp only)
    | (with_reducible apply Kept.core)
    | split

theorem startTkeys_kept {ci i : Nat} {l : LCore} {e : QE} {c : CapD} {s : State} (hk : Kept z s) {t : State} (e : startTkeys ci i l e c s = some t) : Kept z t := by
  unfold startTkeys at e
  try dsimp only at e
  repeat' split at e
  all_goals first
    | (cases e; done)
    | (obtain rfl := Option.some.inj e
       repeat' first
         | with_reducible assumption
         | (with_reducible first | apply engFault_kept | apply setL_kept)
         | (with_reducible refine takePort_kept ?_ (by with_reducible assumption))
       done)

theorem startTprobe_kept {ci i : Nat} {l : LCore} {e : QE} {c : CapD} {s t : State} (h : Kept z s)
    (eq : startTprobe ci i l e c s = some t) : Kept z t := by
  unfold startTprobe at eq
  dsimp only at eq
  repeat' split at eq
  all_goals first
    | (cases eq; done)
    | (obtain rfl := Option.some.inj eq; first
        | (with_reducible exact probePoison_kept (setL_kept h))
        | (with_reducible refine engFault_kept (probePoison_kept (setL_kept ?_)); exact takePort_kept h (by with_reducible assumption)))
    | skip
  obtain rfl := Option.some.inj eq
  have hs := takePort_kept h (by with_reducible assumption)
  exact setL_kept (memUpd_kept hs fun hm => tprobeRun_wf hm (by with_reducible assumption))

theorem startT_kept {ci : Nat} {s t : State} (h : Kept z s) (eq : startT ci s = some t) : Kept z t := by
  unfold startT at eq
  dsimp only at eq
  repeat' split at eq
  all_goals first
    | (cases eq; done)
    | (refine startTkeys_kept ?_ eq; exact setL_kept h)
    | (refine startTprobe_kept ?_ eq; exact setL_kept h)
    | (obtain rfl := Option.some.inj eq; first | (with_reducible exact setL_kept (setL_kept h)) | (with_reducible exact programFault_kept (setL_kept h)))

/-! ### Stream -/

theorem xfLast_kept {phys op : Nat} {code : Code} {addr : Option Nat} {s : State} (hk : Kept z s) : Kept z (xfLast phys op code addr s) := by
  unfold xfLast
  repeat' first
    | with_reducible assumption
    | (with_reducible first | apply addFld_kept | apply freeStep_kept | apply setFld_kept)
    | (with_reducible apply Kept.of; dsimp only)
    | (with_reducible apply Kept.core)
    | split

theorem streamFault_kept {ci q pc op : Nat} {code : Code} {addr : Option Nat} {s : State} (hk : Kept z s) : Kept z (streamFault ci q pc op code addr s) := by
  unfold streamFault; with_reducible repeat' first | assumption | apply unitFault_kept | apply xfLast_kept | split

theorem xFault_kept {ci pc op : Nat} {code : Code} {addr : Option Nat} {s : State} (hk : Kept z s) : Kept z (xFault ci pc op code addr s) := by
  unfold xFault; with_reducible repeat' first | assumption | apply streamFault_kept

theorem XW.apply_wf {m : Mem} {x : XW} (hk : Memory.wf m = true) : Memory.wf (XW.apply m x) = true := HWrite.put_wf hk

theorem xCount_kept {die : Nat} {x : XData} {s : State} (hk : Kept z s) : Kept z (xCount die x s) := by
  unfold xCount; with_reducible repeat' first | assumption | apply addFld_kept

theorem xPush_kept1 {ws : List HWrite} {s : State} (h : Kept z s) : Kept z (xPush ws s).2 := by
  induction ws generalizing s with
  | nil => exact h
  | cons w ws ih =>
    unfold xPush
    split
    · exact ih (memUpd_kept h HWrite.put_wf)
    · split
      · exact granPut_kept h
      · exact ih (granLand_kept h)

theorem xSend_kept {ci n die : Nat} {dest : Member} {read : Bool} {a len : Nat} {b : Body} {s : State} (h : Kept z s)
    {r : State × (Nat × Nat × Nat)} (e : xSend ci n die dest read a len b s = some r) : Kept z r.1 := by
  obtain ⟨t, ht, rfl⟩ := Option.map_eq_some_iff.1 e
  exact (sendFrom_kept h ht : Kept z t)

theorem xSendAll_kept {ci n die : Nat} {dest : Member} {read : Bool} {rs : List (Nat × Nat × Body)}
    {tags : List (Nat × Nat × Nat)} {s : State} (h : Kept z s) {r : State × List (Nat × Nat × Nat)}
    (e : xSendAll ci n die dest read rs tags s = .ok r) : Kept z r.1 := by
  induction rs generalizing tags s with
  | nil => cases e; exact h
  | cons a rs ih =>
    obtain ⟨a, len, b⟩ := a
    simp only [xSendAll] at e
    split at e
    · cases e
    · rename_i hx
      exact ih (xSend_kept h hx) e

theorem overlay_wf {bs : List (Nat × List Byte)} {m : Mem} (hk : Memory.wf m = true) : Memory.wf (overlay m bs) = true := by
  unfold overlay; with_reducible repeat'
    first | assumption | apply writeBytes_wf | refine foldl_wf (fun _ _ _ => ?_) _ ?_

theorem xFail_kept {ci i : Nat} {e : QE} {c : CapD} {err : XErr} {s : State} (hk : Kept z s) : Kept z (xFail ci i e c err s) := by
  unfold xFail; with_reducible repeat' first | assumption | apply modL_kept | apply xFault_kept

theorem xWrite_kept {ci i : Nat} {e : QE} {ws : List HWrite} {s : State} (h : Kept z s) : Kept z (xWrite ci i e ws s) :=
  modL_kept (xPush_kept1 h)

theorem xStart_kept {ci i : Nat} {l : LCore} {e : QE} {c : CapD} {m : Mem} {rs : List XRange} {s t : State} (h : Kept z s)
    (eq : xStart ci i l e c m rs s = some t) : Kept z t := by
  unfold xStart at eq
  dsimp only at eq
  split at eq
  · cases eq
  · refine map_kept eq (fun u hu => ?_) fun u hu => ?_
    · split at hu
      · exact takePort_kept h hu
      · obtain rfl := Option.some.inj hu; exact h
    · refine ite_kept (fun _ => xWrite_kept (xCount_kept hu)) fun _ => ?_
      split
      · exact xFail_kept hu
      · rename_i hx
        have ht := xSendAll_kept hu hx
        exact ite_kept (fun _ => modL_kept ht) fun _ => xWrite_kept (xCount_kept ht)

theorem xBegin_kept {ci i : Nat} {l : LCore} {e : QE} {c : CapD} {s t : State} (h : Kept z s)
    (eq : xBegin ci i l e c s = some t) : Kept z t := by
  unfold xBegin at eq
  dsimp only at eq
  split at eq
  · obtain rfl := Option.some.inj eq; exact xFail_kept h
  · split at eq
    · cases eq
    · split at eq
      · refine map_kept eq (fun _ hu => takePort_kept h hu) fun u hu => ?_
        split
        · exact xFail_kept hu
        · rename_i hx; exact modL_kept (xSendAll_kept hu hx)
      · split at eq
        · exact xStart_kept h eq
        · split at eq
          · obtain rfl := Option.some.inj eq; exact xFail_kept h
          · exact xStart_kept h eq

theorem xResume_kept {ci i : Nat} {e : QE} {s t : State} (h : Kept z s) (eq : xResume ci i e s = some t) : Kept z t := by
  unfold xResume at eq
  split at eq
  · split at eq
    · cases eq
    · obtain rfl := Option.some.inj eq; exact xWrite_kept h
  · obtain rfl := Option.some.inj eq; exact xWrite_kept h

theorem startX_kept {ci : Nat} {s t : State} (h : Kept z s) (eq : startX ci s = some t) : Kept z t := by
  unfold startX at eq
  repeat' split at eq
  all_goals first
    | (cases eq; done)
    | exact xResume_kept h eq
    | exact xBegin_kept h eq

theorem txnTake_kept {tag : Nat} {s : State} (hk : Kept z s) : Kept z (txnTake tag s) := hk

theorem xArriveFail_kept {ci i : Nat} {e : QE} {c : CapD} {err : XErr} {s : State} (hk : Kept z s) : Kept z (xArriveFail ci i e c err s) := by
  unfold xArriveFail; with_reducible repeat' first | assumption | apply modL_kept | apply xFail_kept | apply iteK

theorem xArrived_kept {ci i : Nat} {l : LCore} {e : QE} {c : CapD} {s : State} (h : Kept z s) : Kept z (xArrived ci i l e c s) := by
  unfold xArrived
  dsimp only
  split
  · split
    · exact xArriveFail_kept h
    · split
      · exact xArriveFail_kept h
      · rename_i hx; exact modL_kept (xSendAll_kept h hx)
  · exact iteK (xWrite_kept (xCount_kept h)) (modL_kept h)

theorem xAnswer_kept {t : Txn} {data : List Byte} {s : State} (hk : Kept z s) : Kept z (xAnswer t data s) := by
  unfold xAnswer
  repeat' first
    | with_reducible assumption
    | (with_reducible first | apply modL_kept | apply xArrived_kept)
    | (with_reducible refine ite_kept (fun _ => ?_) (fun _ => ?_))
    | (with_reducible apply Kept.of; dsimp only)
    | (with_reducible apply Kept.core)
    | split

theorem stageFor_kept {ci i : Nat} {l : LCore} {e : QE} {c : CapD} {s : State} (h : Kept z s) :
    Kept z (stageFor ci i l e c s) := by
  unfold stageFor
  dsimp only
  repeat' split
  all_goals first
    | exact h
    | exact xArriveFail_kept h
    | exact modL_kept h
    | (rename_i hx; exact modL_kept (xSendAll_kept h hx))
    | (rename_i hx _; exact modL_kept (xSendAll_kept h hx))

theorem stageRead_kept {ci : Nat} {s : State} (hk : Kept z s) : Kept z (stageRead ci s) := by
  unfold stageRead; with_reducible repeat' first | assumption | apply stageFor_kept | apply iteK | split

/-! ### Vector -/

theorem startV_kept {ci : Nat} {s : State} (hk : Kept z s) {t : State} (e : startV ci s = some t) : Kept z t := by
  unfold startV at e
  try dsimp only at e
  repeat' split at e
  all_goals first
    | (cases e; done)
    | (obtain rfl := Option.some.inj e
       repeat' first
         | with_reducible assumption
         | (with_reducible first | apply setL_kept | apply streamFault_kept)
         | (with_reducible refine takePort_kept ?_ (by with_reducible assumption))
         | (with_reducible apply Kept.of; dsimp only)
         | (with_reducible apply Kept.setMem)
         | (with_reducible refine fun _ => ?_)
         | (with_reducible apply putElem_wf)
         | (with_reducible refine foldl_wf (fun _ _ _ => ?_) _ ?_)
       done)

/-! ### Catch -/

theorem armWait_kept {ci q i : Nat} {l : LCore} {e : QE} {s : State} (hk : Kept z s) : Kept z (armWait ci q i l e s) := by
  unfold armWait; with_reducible repeat' first | assumption | apply setL_kept | apply iteK

theorem startC_kept {ci : Nat} {s : State} (hk : Kept z s) {t : State} (e : startC ci s = some t) : Kept z t := by
  unfold startC at e
  try dsimp only at e
  repeat' split at e
  all_goals first
    | (cases e; done)
    | (obtain rfl := Option.some.inj e
       repeat' first
         | with_reducible assumption
         | (with_reducible first | apply armWait_kept | apply setL_kept)
       done)

/-! ### Keyway -/

theorem kFault_kept {ci pc op : Nat} {code : Code} {aux : Nat} {s : State} (hk : Kept z s) : Kept z (kFault ci pc op code aux s) := by
  unfold kFault
  repeat' first
    | with_reducible assumption
    | (with_reducible first | apply addFld_kept | apply freeStep_kept | apply setFld_kept | apply unitFaultAux_kept)
    | (with_reducible apply Kept.of; dsimp only)
    | (with_reducible apply Kept.core)
    | split

theorem putRow_wf {d : Desc} {row : Nat} {ws : List Nat} {m : Mem} (hk : Memory.wf m = true) : Memory.wf (putRow d row ws m) = true := by
  unfold putRow; with_reducible repeat'
    first | assumption | apply putElem_wf | refine foldl_wf (fun _ _ _ => ?_) _ ?_ | split

theorem routeToken_wf {drop : Bool} {v : Layer} {n : Nat} {c : CapD} {m : Mem} {id row : Nat} (h : Memory.wf m = true) :
    Memory.wf (routeToken drop v n c m id row).1 = true := by
  unfold routeToken
  refine putRow_wf (foldl_wf (fun _ _ h => ?_) _ h)
  split
  · exact putElem_wf h
  · exact h

theorem krouteRun_kept {s : State} {l : LCore} {c : CapD} (h : Kept z s) : Kept z (krouteRun s l c) := by
  unfold krouteRun
  dsimp only
  split
  · exact h
  · refine addFld_kept (addFld_kept (memUpd_kept h fun hm => ?_))
    have h0 : Memory.wf (if c.ctrl.testBit 0 = true then
        (List.range (‹Layer›).experts).foldl (fun m e => putElem c.dC [dLo c.dC 0 + e] 0 m) s.mem else s.mem) = true := by
      split
      · exact foldl_wf (fun _ _ h => putElem_wf h) _ hm
      · exact hm
    suffices H : ∀ (ps : List (Nat × Nat)) (acc : Mem × Nat × Nat), Memory.wf acc.1 = true →
        Memory.wf (ps.foldl (fun (acc : Mem × Nat × Nat) p =>
          ((routeToken (fld s (KWY_CAP_MODE l.die) == 0) _ c.xa.toNat c acc.1 p.2 p.1).1,
            acc.2.1 + (routeToken (fld s (KWY_CAP_MODE l.die) == 0) _ c.xa.toNat c acc.1 p.2 p.1).2.1,
            acc.2.2 + (routeToken (fld s (KWY_CAP_MODE l.die) == 0) _ c.xa.toNat c acc.1 p.2 p.1).2.2)) acc).1 = true from
      H _ _ h0
    intro ps
    induction ps with
    | nil => exact fun _ h => h
    | cons p ps ih => exact fun acc h => ih _ (routeToken_wf h)

theorem kwySend_kept {die : Nat} {dest : Member} {destDie tag : Nat} {k : KwyPkt} {s : State} (hk : Kept z s) {t : State} (e : kwySend die dest destDie tag k s = some t) : Kept z t := by
  unfold kwySend at e
  try dsimp only at e
  repeat' split at e
  all_goals first
    | (refine sendFrom_kept ?_ e; with_reducible assumption)
    | (cases e; done)
    | (obtain rfl := Option.some.inj e
       repeat' first
         | with_reducible assumption
         | with_reducible apply deliver_kept
       done)

theorem kwySendAll_kept1 {die tag : Nat} {ps : List (Member × Nat × KwyPkt)} {s : State} (h : Kept z s) :
    Kept z (kwySendAll die tag ps s).1 := by
  induction ps generalizing s with
  | nil => exact h
  | cons p ps ih =>
    obtain ⟨m, dd, k⟩ := p
    simp only [kwySendAll]
    split
    · exact h
    · rename_i hx
      have ht := kwySend_kept h hx
      exact ih (ite_kept (fun _ => addFld_kept ht) fun _ => ht)

theorem ksendRows_kept1 {ci : Nat} {l : LCore} {b : CBuf} {v : Layer} {c : CapD} {n i : Nat} {s : State} (h : Kept z s) :
    Kept z (ksendRows ci l b v c n i s).1 := by
  induction n generalizing i s with
  | zero => exact h
  | succ n ih =>
    simp only [ksendRows]
    split
    · exact ih (kwySendAll_kept1 (hbmPut_kept h))
    · exact kwySendAll_kept1 (hbmPut_kept h)

theorem kcombRows_wf {b : CBuf} {c : CapD} {n i : Nat} {m : Mem} (h : Memory.wf m = true) :
    Memory.wf (kcombRows b c n i m).1 = true := by
  induction n generalizing i m with
  | zero => exact h
  | succ n ih =>
    simp only [kcombRows]
    split
    · exact h
    · split
      · exact h
      · refine ih (foldl_wf (fun _ _ h => ?_) _ h)
        split
        · exact putElem_wf (h)
        · exact h

theorem kFail_kept {ci i : Nat} {e : QE} {c : CapD} {code : Code} {s : State} (hk : Kept z s) : Kept z (kFail ci i e c code s) := by
  unfold kFail; with_reducible repeat' first | assumption | apply kFault_kept | apply modL_kept

theorem kcombDo_kept {ci i : Nat} {e : QE} {c : CapD} {s : State} (h : Kept z s) : Kept z (kcombDo ci i e c s) := by
  unfold kcombDo
  dsimp only
  have hm : Kept z { s with mem := (kcombRows (bufRead s.mem c.xa.toNat) c (rowsOf c.dD) 0 s.mem).1 } :=
    memUpd_kept h kcombRows_wf
  split
  · exact kFault_kept (modL_kept hm)
  · exact modL_kept hm

theorem kBegun_kept {ci i : Nat} {e : QE} {s : State} (hk : Kept z s) : Kept z (kBegun ci i e s) := by
  unfold kBegun; with_reducible repeat' first | assumption | apply modL_kept

theorem kDo_kept {ci i : Nat} {l : LCore} {e : QE} {c : CapD} {s : State} (hk : Kept z s) : Kept z (kDo ci i l e c s) := by
  unfold kDo
  repeat' first
    | with_reducible assumption
    | (with_reducible first | apply hbmPut_kept | apply kBegun_kept | apply kFail_kept | apply kcombDo_kept | apply krouteRun_kept | apply modL_kept)
    | (with_reducible apply ksendRows_kept1)
    | (with_reducible apply kwySendAll_kept1)
    | (with_reducible refine ite_kept (fun _ => ?_) (fun _ => ?_))
    | (with_reducible apply Kept.of; dsimp only)
    | (with_reducible apply Kept.core)
    | split

theorem startK_kept {ci : Nat} {s t : State} (h : Kept z s) (eq : startK ci s = some t) : Kept z t := by
  unfold startK at eq
  repeat' split at eq
  all_goals first
    | (cases eq; done)
    | skip
  · obtain rfl := Option.some.inj eq; exact kFail_kept (takePort_kept h (by with_reducible assumption))
  · subst eq; exact latAwait_kept (takePort_kept h (by with_reducible assumption)) (by with_reducible assumption)
  · obtain rfl := Option.some.inj eq; exact kDo_kept (takePort_kept h (by with_reducible assumption))

theorem kwyEntry_kept1 {d n e : Nat} {s : State} (h : Kept z s) : Kept z (kwyEntry d n e s).2 := by
  unfold kwyEntry
  dsimp only
  split <;> exact h

theorem kwyRefuse_kept {d : Nat} {p : KwyPkt} {s : State} (h : Kept z s) : Kept z (kwyRefuse d p s) := by
  unfold kwyRefuse
  dsimp only
  cases hx : kwySend d (originOf p) (dieOfAddr p.combine) 0 { p with kind := 3, code := cKW_TABLE, row := [] } s with
  | none => exact h
  | some t => exact kwySend_kept h hx

theorem srcEntryApply_kept {d : Nat} {p : KwyPkt} {close : Option Nat} {s : State} (hk : Kept z s) : Kept z (srcEntryApply d p close s) := by
  unfold srcEntryApply; with_reducible repeat'
    first | assumption | apply catchAdd_kept | apply hbmPut_kept | apply kwyEntry_kept1 | apply iteK

theorem combineApply_kept {d : Nat} {p : KwyPkt} {s : State} (hk : Kept z s) : Kept z (combineApply d p s) := by
  unfold combineApply; with_reducible repeat' first | assumption | apply addFld_kept | apply hbmPut_kept | apply iteK

/-! ### StepOps -/

theorem setStepState_kept {v : Nat} {s : State} (hk : Kept z s) : Kept z (setStepState v s) := by
  unfold setStepState; with_reducible repeat' first | assumption | apply setFld_kept

theorem dropStoppedTxns_kept  {s : State} (hk : Kept z s) : Kept z (dropStoppedTxns s) := hk

theorem holdSend_kept {why : HoldWhy} {s : State} (hk : Kept z s) : Kept z (holdSend why s) := by
  unfold holdSend; with_reducible repeat'
    first | assumption | apply sendRoot_kept | apply iteK | (apply Kept.of; dsimp only) | apply Kept.core

theorem holdRelease_kept {why : HoldWhy} {s : State} (hk : Kept z s) : Kept z (holdRelease why s) := by
  unfold holdRelease; with_reducible repeat'
    first | assumption | apply sendRoot_kept | apply iteK | (apply Kept.of; dsimp only) | apply Kept.core

theorem abortTake_kept {m : AbortMsg} {s : State} (hk : Kept z s) : Kept z (abortTake m s) := by
  unfold abortTake
  repeat' first
    | with_reducible assumption
    | (with_reducible first | apply abortFlood_kept | apply addFld_kept | apply dropStoppedTxns_kept | apply holdSend_kept | apply imageEnd_kept | apply latCancel_kept | apply modAllL_kept | apply sendRoot_kept | apply setFld_kept | apply setStepState_kept)
    | (with_reducible refine foldl_kept (fun _ _ _ => ?_) _ ?_)
    | (with_reducible refine ite_kept (fun _ => ?_) (fun _ => ?_))
    | (with_reducible apply Kept.of; dsimp only)
    | (with_reducible apply Kept.core)
    | split

theorem abortHere_kept {m : AbortMsg} {s : State} (hk : Kept z s) : Kept z (abortHere m s) := by
  unfold abortHere; with_reducible repeat' first | assumption | apply abortTake_kept | apply iteK

theorem originate_kept {cause : Nat} {named : Member} {bucket : BitVec 32} {s : State} (hk : Kept z s) : Kept z (originate cause named bucket s) := by
  unfold originate; with_reducible repeat'
    first | assumption | apply abortHere_kept | apply sendRoot_kept | apply iteK

theorem lossAbort_kept {hold : Option HoldWhy} {named : Member} {s : State} (hk : Kept z s) : Kept z (lossAbort hold named s) := by
  unfold lossAbort
  repeat' first
    | with_reducible assumption
    | (with_reducible first | apply holdSend_kept | apply originate_kept)
    | (with_reducible refine ite_kept (fun _ => ?_) (fun _ => ?_))
    | (with_reducible apply Kept.of; dsimp only)
    | (with_reducible apply Kept.core)
    | split

theorem assignUnits_kept  {s : State} (hk : Kept z s) : Kept z (assignUnits s) := by
  unfold assignUnits
  repeat' first
    | with_reducible assumption
    | with_reducible apply setFld_kept
    | (with_reducible refine foldl_kept (fun _ _ _ => ?_) _ ?_)
    | (with_reducible apply Kept.of; dsimp only)
    | (with_reducible apply Kept.core)

/-! ### Reduce -/

theorem modBucket_kept {id : BitVec 32} {f : Bucket → Bucket} {s : State} (hk : Kept z s) : Kept z (modBucket id f s) := hk

theorem modShare_kept {id : BitVec 32} {n lcore : Nat} {f : Share → Share} {s : State} (hk : Kept z s) : Kept z (modShare id n lcore f s) := by
  unfold modShare; with_reducible repeat' first | assumption | apply modBucket_kept

theorem unitFence_kept {d : Nat} {s : State} (hk : Kept z s) : Kept z (unitFence d s) := by
  unfold unitFence; with_reducible repeat' first | assumption | apply setFld_kept

theorem redBlame_kept {d u : Nat} {src : RedSrc} {p : RedPkt} {s : State} (hk : Kept z s) : Kept z (redBlame d u src p s) := by
  unfold redBlame
  repeat' first
    | with_reducible assumption
    | (with_reducible first | apply addFld_kept | apply modPort_kept | apply report_kept | apply unitFence_kept)
    | (with_reducible apply Kept.of; dsimp only)
    | (with_reducible apply Kept.core)
    | split

theorem redRecord_kept {u kind : Nat} {src : RedSrc} {p : RedPkt} {s : State} (hk : Kept z s) : Kept z (redRecord u kind src p s) := by
  unfold redRecord; with_reducible repeat' first | assumption | apply addFld_kept | apply setFld_kept

theorem redFail_kept {d kind : Nat} {src : RedSrc} {p : RedPkt} {s : State} (hk : Kept z s) : Kept z (redFail d kind src p s) := by
  unfold redFail; with_reducible repeat'
    first | assumption | apply modBucket_kept | apply originate_kept | apply redBlame_kept | apply redRecord_kept

theorem redWrite_kept {u die : Nat} {h : Share} {p : RedPkt} {s : State} (hk : Kept z s) : Kept z (redWrite u die h p s) := by
  unfold redWrite; with_reducible repeat' first | assumption | apply addFld_kept | apply hbmWrite_kept | apply iteK

theorem redSend_kept {b : Bucket} {die rank : Nat} {p : RedPkt} {s t : State} (h : Kept z s) (e : redSend b die rank p s = some t) :
    Kept z t := map_kept e (fun _ hu => sendFrom_kept h hu) fun _ hu => ite_kept (fun _ => addFld_kept hu) fun _ => hu

theorem redSendAll_kept1 {b : Bucket} {die : Nat} {p : RedPkt} {rs : List Nat} {s : State} (h : Kept z s) :
    Kept z (redSendAll b die p rs s).1 := by
  induction rs generalizing s with
  | nil => exact h
  | cons r rs ih =>
    simp only [redSendAll]
    split
    · exact h
    · rename_i hx; exact ih (redSend_kept h hx)

theorem shareFault_kept {h : Share} {code : Code} {s : State} (hk : Kept z s) : Kept z (shareFault h code s) := by
  unfold shareFault; with_reducible repeat' first | assumption | apply programFault_kept

theorem redResult_kept {b : Bucket} {h : Share} {p : RedPkt} {s : State} (hk : Kept z s) : Kept z (redResult b h p s) := by
  unfold redResult
  repeat' first
    | with_reducible assumption
    | (with_reducible first | apply modBucket_kept | apply modShare_kept | apply redWrite_kept | apply shareFault_kept)
    | (with_reducible apply redSendAll_kept1)
    | (with_reducible refine ite_kept (fun _ => ?_) (fun _ => ?_))

theorem putPartial_kept {x : Partial} {s : State} (hk : Kept z s) : Kept z (putPartial x s) := hk

theorem redAdvance_kept {id : BitVec 32} {p n : Nat} {s : State} (h : Kept z s) : Kept z (redAdvance id p n s) := by
  induction n generalizing s with
  | zero => exact h
  | succ n ih =>
    unfold redAdvance
    split
    · exact h
    · split
      · exact h
      · lift_lets
        intro plan own x u s1 out
        refine ite_kept (fun _ => h) fun _ => ite_kept (fun _ => ?_) fun _ => ?_
        · have h1 : Kept z s1 := putPartial_kept h
          clear_value s1
          split
          · exact redResult_kept h1
          · rename_i r _
            cases hx : redSend _ u r out s1 with
            | none => exact shareFault_kept h1
            | some t => exact redSend_kept h1 hx
        · split
          · exact putPartial_kept h
          · exact ih (putPartial_kept (addFld_kept (Kept.of h.core)))

theorem redTake_kept {d : Nat} {src : RedSrc} {p : RedPkt} {s : State} (hk : Kept z s) : Kept z (redTake d src p s) := by
  unfold redTake
  repeat' first
    | with_reducible assumption
    | (with_reducible first | apply redAdvance_kept | apply redResult_kept)
    | (with_reducible refine ite_kept (fun _ => ?_) (fun _ => ?_))
    | (with_reducible apply Kept.of; dsimp only)
    | (with_reducible apply Kept.core)
    | split

theorem redHold_kept {d : Nat} {src : RedSrc} {p : RedPkt} {s : State} (hk : Kept z s) {t : State} (e : redHold d src p s = some t) : Kept z t := by
  unfold redHold at e
  try dsimp only at e
  repeat' split at e
  all_goals first
    | (cases e; done)
    | (obtain rfl := Option.some.inj e
       repeat' first
         | with_reducible assumption
         | (with_reducible apply Kept.of; dsimp only)
         | (with_reducible apply Kept.core)
       done)

theorem redShare_kept {id : BitVec 32} {h : Share} {s : State} (hk : Kept z s) : Kept z (redShare id h s) := by
  unfold redShare
  repeat' first
    | with_reducible assumption
    | (with_reducible first | apply redAdvance_kept | apply redTake_kept)
    | (with_reducible refine foldl_kept (fun _ _ _ => ?_) _ ?_)
    | (with_reducible apply Kept.of; dsimp only)
    | (with_reducible apply Kept.core)

theorem gredLaunch_kept {ci : Nat} {e : QE} {c : CapD} {s : State} (hk : Kept z s) : Kept z (gredLaunch ci e c s) := by
  unfold gredLaunch; with_reducible repeat'
    first | assumption | apply modL_kept | apply redShare_kept | (apply Kept.of; dsimp only) | apply Kept.core

theorem redRetry_kept  {s : State} (hk : Kept z s) : Kept z (redRetry s) := by
  unfold redRetry; with_reducible repeat'
    first | assumption | apply redShare_kept | refine foldl_kept (fun _ _ _ => ?_) _ ?_

theorem forgetValid_kept {d : Desc} {s : State} (hk : Kept z s) : Kept z (forgetValid d s) := by
  unfold forgetValid
  repeat' first
    | with_reducible assumption
    | (with_reducible first | apply forgetRange_kept | apply setGran_kept)
    | (with_reducible refine foldl_kept (fun _ _ _ => ?_) _ ?_)
    | (with_reducible refine ite_kept (fun _ => ?_) (fun _ => ?_))

theorem gWrite_kept {ci : Nat} {e : QE} {ws : List HWrite} {s : State} (h : Kept z s) : Kept z (gWrite ci e ws s) :=
  modL_kept (xPush_kept1 h)

theorem gmoveStart_kept {ci : Nat} {l : LCore} {e : QE} {c : CapD} {s t : State} (h : Kept z s)
    (eq : gmoveStart ci l e c s = some t) : Kept z t := by
  unfold gmoveStart at eq
  dsimp only at eq
  split at eq
  · rename_i hr
    split at hr
    · exact latAwait_kept h (eq ▸ hr)
    · cases hr
  · refine map_kept eq (fun u hu => ?_) fun u hu => iteK (forgetValid_kept (modL_kept hu)) (gWrite_kept hu)
    split at hu
    · exact takePort_kept h hu
    · obtain rfl := Option.some.inj hu; exact h

theorem gStart_kept {ci : Nat} {l : LCore} {e : QE} {c : CapD} {s t : State} (h : Kept z s) (eq : gStart ci l e c s = some t) :
    Kept z t := by
  unfold gStart at eq
  split at eq
  · split at eq
    · cases eq
    · obtain rfl := Option.some.inj eq
      exact gredLaunch_kept (modL_kept h)
  · exact gmoveStart_kept h eq

theorem gResume_kept {ci : Nat} {e : QE} {s : State} (hk : Kept z s) {t : State} (e : gResume ci e s = some t) : Kept z t := by
  unfold gResume at e
  try dsimp only at e
  repeat' split at e
  all_goals first
    | (cases e; done)
    | (obtain rfl := Option.some.inj e
       repeat' first
         | with_reducible assumption
         | with_reducible apply gWrite_kept
       done)

theorem startG_kept {ci : Nat} {s : State} (hk : Kept z s) {t : State} (e : startG ci s = some t) : Kept z t := by
  unfold startG at e
  try dsimp only at e
  repeat' split at e
  all_goals first
    | (refine gResume_kept ?_ e; with_reducible assumption)
    | (refine gStart_kept ?_ e; with_reducible assumption)
    | (cases e; done)
    | (obtain rfl := Option.some.inj e
       repeat' first
         | with_reducible assumption
         | (with_reducible first | apply modL_kept | apply programFault_kept)
       done)

/-! ### Steps -/

theorem openDone_kept {c : Nat} {s : State} (hk : Kept z s) : Kept z (openDone c s) := by
  unfold openDone; with_reducible repeat' first | assumption | apply modL_kept

theorem takeOpens_kept  {s : State} (hk : Kept z s) : Kept z (takeOpens s) := by
  unfold takeOpens
  repeat' first
    | with_reducible assumption
    | (with_reducible first | apply latProtect_kept | apply openDone_kept)
    | (with_reducible refine foldl_kept (fun _ _ _ => ?_) _ ?_)
    | (with_reducible apply Kept.of; dsimp only)
    | (with_reducible apply Kept.core)

theorem poolFault_kept  {s : State} (hk : Kept z s) : Kept z (poolFault s) := by
  unfold poolFault
  repeat' first
    | with_reducible assumption
    | (with_reducible first | apply programFault_kept | apply reportCore_kept)
    | (with_reducible refine foldl_kept (fun _ _ _ => ?_) _ ?_)
    | split

theorem runDeferred_kept  {s : State} (hk : Kept z s) : Kept z (runDeferred s) := by
  unfold runDeferred
  repeat' first
    | with_reducible assumption
    | (with_reducible first | apply holdSend_kept | apply originate_kept)
    | (with_reducible refine foldl_kept (fun _ _ _ => ?_) _ ?_)
    | (with_reducible apply Kept.of; dsimp only)
    | (with_reducible apply Kept.core)
    | split

theorem stepBegin_kept {ref : Nat} {s : State} (hk : Kept z s) : Kept z (stepBegin ref s) := by
  unfold stepBegin; with_reducible repeat'
    first | assumption | apply setStepState_kept | (apply Kept.of; dsimp only) | apply Kept.core

theorem openTry_kept {s : State} (h : Kept z s) : Kept z (openTry s) := by
  unfold openTry
  with_reducible refine ite_kept (fun _ => h) fun _ => ite_kept (fun _ => h) fun _ => ?_
  split
  · with_reducible exact poolFault_kept h
  · with_reducible refine ite_kept (fun _ => h) (fun _ => ?_)
    exact h.core
  · with_reducible refine ite_kept (fun _ => ?_) (fun _ => ?_)
    · with_reducible exact runDeferred_kept (takeOpens_kept (stepBegin_kept h))
    · with_reducible exact takeOpens_kept h

theorem cutStreams_kept {ci : Nat} {step : Nat} {m : SMap Word} {s : State} (hk : Kept z s) : Kept z (cutStreams ci step m s) := hk

theorem openHead_kept {ci : Nat} {l : LCore} {e : QE} {step list : Word} {n : Nat} {sv : Saved} {s : State} (hk : Kept z s) {t : State} (e : openHead ci l e step list n sv s = some t) : Kept z t := by
  unfold openHead at e
  try dsimp only at e
  repeat' split at e
  all_goals first
    | (cases e; done)
    | (obtain rfl := Option.some.inj e
       repeat' first
         | with_reducible assumption
         | (with_reducible first | apply cutStreams_kept | apply modL_kept | apply openTry_kept | apply programFault_kept | apply setL_kept)
       done)

theorem commitHead_kept {ci : Nat} {l : LCore} {e : QE} {step : Word} {s : State} (hk : Kept z s) {t : State} (e : commitHead ci l e step s = some t) : Kept z t := by
  unfold commitHead at e
  try dsimp only at e
  repeat' split at e
  all_goals first
    | (cases e; done)
    | (obtain rfl := Option.some.inj e
       repeat' first
         | with_reducible assumption
         | (with_reducible first | apply modL_kept | apply programFault_kept)
       done)

theorem startF_kept {ci : Nat} {s : State} (hk : Kept z s) {t : State} (e : startF ci s = some t) : Kept z t := by
  unfold startF at e
  try dsimp only at e
  repeat' split at e
  all_goals first
    | (refine commitHead_kept ?_ e; with_reducible assumption)
    | (refine openHead_kept ?_ e; with_reducible assumption)
    | (cases e; done)
    | (obtain rfl := Option.some.inj e
       repeat' first
         | with_reducible assumption
         | (with_reducible first | apply armWait_kept | apply setL_kept)
       done)

theorem placeResident_kept {p : Nat} {s : State} (hk : Kept z s) : Kept z (placeResident p s) := hk

theorem restartEntry_kept {ci : Nat} {s : State} (hk : Kept z s) : Kept z (restartEntry ci s) := by
  unfold restartEntry
  repeat' first
    | with_reducible assumption
    | with_reducible apply setL_kept
    | (with_reducible apply Kept.of; dsimp only)
    | (with_reducible apply Kept.core)
    | (with_reducible apply Kept.setMem)
    | (with_reducible refine fun _ => ?_)
    | (with_reducible apply zero_wf)
    | split

theorem applyMove_kept {m : Nat × Nat} {s : State} (hk : Kept z s) : Kept z (applyMove s m) := by
  unfold applyMove
  repeat' first
    | with_reducible assumption
    | (with_reducible first | apply restartEntry_kept | apply setL_kept)
    | (with_reducible refine ite_kept (fun _ => ?_) (fun _ => ?_))
    | (with_reducible apply Kept.of; dsimp only)
    | (with_reducible apply Kept.core)
    | split

theorem applyMoves_kept  {s : State} (hk : Kept z s) : Kept z (applyMoves s) := by
  unfold applyMoves
  repeat' first
    | with_reducible assumption
    | (with_reducible first | apply applyMove_kept | apply dispatchNow_kept | apply placeResident_kept)
    | (with_reducible refine foldl_kept (fun _ _ _ => ?_) _ ?_)
    | (with_reducible apply Kept.of; dsimp only)
    | (with_reducible apply Kept.core)

theorem openNext_kept  {s : State} (hk : Kept z s) : Kept z (openNext s) := by
  unfold openNext; with_reducible repeat'
    first | assumption | apply runDeferred_kept | apply stepBegin_kept | apply stepIdle_kept | apply iteK

theorem commitCore_kept  {s : State} (hk : Kept z s) : Kept z (commitCore s) := by
  unfold commitCore
  repeat' first
    | with_reducible assumption
    | (with_reducible first | apply assignUnits_kept | apply latCommit_kept | apply modAllL_kept | apply stepIdle_kept)
    | (with_reducible apply Kept.of; dsimp only)
    | (with_reducible apply Kept.core)

/-! ### Pump -/

theorem startOne_kept {ci : Nat} {s t : State} (h : Kept z s) (e : startOne ci s = some t) : Kept z t := by
  obtain ⟨f, hf, hx⟩ := List.exists_of_findSome?_eq_some e
  simp only [List.mem_cons, List.not_mem_nil, or_false] at hf
  rcases hf with rfl | rfl | rfl | rfl | rfl | rfl | rfl | rfl
  · exact startM_kept h hx
  · exact startT_kept h hx
  · exact startV_kept h hx
  · exact startX_kept h hx
  · exact startC_kept h hx
  · exact startK_kept h hx
  · exact startG_kept h hx
  · exact startF_kept h hx

theorem startAll_kept {ci n : Nat} {s : State} (h : Kept z s) : Kept z (startAll ci n s) := by
  induction n generalizing s with
  | zero => exact h
  | succ n ih =>
    unfold startAll
    split
    · exact h
    · rename_i hx; exact ih (startOne_kept h hx)

theorem coreEnd_kept {ci : Nat} {s : State} (hk : Kept z s) : Kept z (coreEnd ci s) := by
  unfold coreEnd
  repeat' first
    | with_reducible assumption
    | (with_reducible first | apply imageEnd_kept | apply openTry_kept | apply setL_kept)
    | (with_reducible refine ite_kept (fun _ => ?_) (fun _ => ?_))
    | (with_reducible apply Kept.of; dsimp only)
    | (with_reducible apply Kept.core)
    | split

theorem pump_kept {ci : Nat} {s : State} (hk : Kept z s) : Kept z (pump ci s) := by
  unfold pump; with_reducible repeat' first | assumption | apply coreEnd_kept | apply modL_kept | apply startAll_kept

theorem pumpAll_kept  {s : State} (hk : Kept z s) : Kept z (pumpAll s) := by
  unfold pumpAll; with_reducible repeat'
    first | assumption | apply pump_kept | refine foldl_kept (fun _ _ _ => ?_) _ ?_

theorem finishWhere_kept {ci q : Nat} {p : QE → Bool} {s : State} (hk : Kept z s) : Kept z (finishWhere ci q p s) := by
  unfold finishWhere; with_reducible repeat' first | assumption | apply pump_kept | apply setL_kept | split

/-! ### Issue -/

theorem issueD_kept {c : Nat} {f : FmtD} {d : DSpec} {adj : LCore → QE → QE × LCore} {s : State} (hk : Kept z s) : Kept z (issueD c f d adj s) := by
  unfold issueD
  repeat' first
    | with_reducible assumption
    | (with_reducible first | apply programFault_kept | apply pump_kept | apply setL_kept)
    | (with_reducible refine seqIssue_kept ?_ (fun _ _ _ => ?_))
    | (with_reducible refine ite_kept (fun _ => ?_) (fun _ => ?_))
    | (with_reducible apply Kept.of; dsimp only)
    | (with_reducible apply Kept.core)
    | split

end Sys2Proof.Machine
end

