-- ==== Sys2Proof/Laws/KeptSteps.lean ====
section
/-! SUPPORT. The commands keep the queue, the fuses and the canonical forms (`Kept`): one lemma for each definition of
the rows of instructions, arrivals and steps. -/
namespace Sys2Proof.Machine

set_option linter.unusedTactic false
set_option linter.unreachableTactic false

variable {z : State}

/-! ### Scalar -/

theorem execNop_kept {c : Fin 256} {f : NopWord} {s : State} (hk : Kept z s) : KeptOut z (execNop c f s) := by
  unfold execNop; with_reducible repeat'
    first | assumption | apply next_kept | apply setL_kept | refine seqIssue_kept ?_ (fun _ _ _ => ?_) | split

theorem execAdd_kept {c : Fin 256} {f : FmtA} {s : State} (hk : Kept z s) : KeptOut z (execAdd c f s) := by
  unfold execAdd; with_reducible repeat' first | assumption | apply next_kept | apply scalarOp_kept

theorem execSub_kept {c : Fin 256} {f : FmtA} {s : State} (hk : Kept z s) : KeptOut z (execSub c f s) := by
  unfold execSub; with_reducible repeat' first | assumption | apply next_kept | apply scalarOp_kept

theorem execAnd_kept {c : Fin 256} {f : FmtA} {s : State} (hk : Kept z s) : KeptOut z (execAnd c f s) := by
  unfold execAnd; with_reducible repeat' first | assumption | apply next_kept | apply scalarOp_kept

theorem execOr_kept {c : Fin 256} {f : FmtA} {s : State} (hk : Kept z s) : KeptOut z (execOr c f s) := by
  unfold execOr; with_reducible repeat' first | assumption | apply next_kept | apply scalarOp_kept

theorem execXor_kept {c : Fin 256} {f : FmtA} {s : State} (hk : Kept z s) : KeptOut z (execXor c f s) := by
  unfold execXor; with_reducible repeat' first | assumption | apply next_kept | apply scalarOp_kept

theorem execShl_kept {c : Fin 256} {f : FmtA} {s : State} (hk : Kept z s) : KeptOut z (execShl c f s) := by
  unfold execShl; with_reducible repeat' first | assumption | apply next_kept | apply scalarOp_kept

theorem execShr_kept {c : Fin 256} {f : FmtA} {s : State} (hk : Kept z s) : KeptOut z (execShr c f s) := by
  unfold execShr; with_reducible repeat' first | assumption | apply next_kept | apply scalarOp_kept

theorem execSra_kept {c : Fin 256} {f : FmtA} {s : State} (hk : Kept z s) : KeptOut z (execSra c f s) := by
  unfold execSra; with_reducible repeat' first | assumption | apply next_kept | apply scalarOp_kept

theorem execMul_kept {c : Fin 256} {f : FmtA} {s : State} (hk : Kept z s) : KeptOut z (execMul c f s) := by
  unfold execMul; with_reducible repeat' first | assumption | apply next_kept | apply scalarOp_kept

theorem execMulhu_kept {c : Fin 256} {f : FmtA} {s : State} (hk : Kept z s) : KeptOut z (execMulhu c f s) := by
  unfold execMulhu; with_reducible repeat' first | assumption | apply next_kept | apply scalarOp_kept

theorem execMin_kept {c : Fin 256} {f : FmtA} {s : State} (hk : Kept z s) : KeptOut z (execMin c f s) := by
  unfold execMin; with_reducible repeat' first | assumption | apply next_kept | apply scalarOp_kept

theorem execMax_kept {c : Fin 256} {f : FmtA} {s : State} (hk : Kept z s) : KeptOut z (execMax c f s) := by
  unfold execMax; with_reducible repeat' first | assumption | apply next_kept | apply scalarOp_kept

theorem execLi_kept {c : Fin 256} {f : FmtL} {s : State} (hk : Kept z s) : KeptOut z (execLi c f s) := by
  unfold execLi; with_reducible repeat'
    first | assumption | apply next_kept | apply setL_kept | refine seqIssue_kept ?_ (fun _ _ _ => ?_)

theorem execLui_kept {c : Fin 256} {f : FmtL} {s : State} (hk : Kept z s) : KeptOut z (execLui c f s) := by
  unfold execLui; with_reducible repeat'
    first | assumption | apply next_kept | apply setL_kept | refine seqIssue_kept ?_ (fun _ _ _ => ?_)

theorem execCmp_kept {c : Fin 256} {f : FmtA} {s : State} (hk : Kept z s) : KeptOut z (execCmp c f s) := by
  unfold execCmp; with_reducible repeat'
    first | assumption | apply next_kept | apply setL_kept | refine seqIssue_kept ?_ (fun _ _ _ => ?_) | split

theorem execPlog_kept {c : Fin 256} {f : FmtA} {s : State} (hk : Kept z s) : KeptOut z (execPlog c f s) := by
  unfold execPlog; with_reducible repeat'
    first | assumption | apply next_kept | apply setL_kept | refine seqIssue_kept ?_ (fun _ _ _ => ?_)

theorem execLd_kept {c : Fin 256} {f : FmtA} {s : State} (hk : Kept z s) : KeptOut z (execLd c f s) := by
  unfold execLd
  repeat' first
    | with_reducible assumption
    | (with_reducible apply next_kept)
    | (with_reducible first | apply programFault_kept | apply setL_kept)
    | (with_reducible refine seqIssue_kept ?_ (fun _ _ _ => ?_))
    | (with_reducible refine ite_kept (fun _ => ?_) (fun _ => ?_))
    | (with_reducible apply Kept.of; dsimp only)
    | (with_reducible apply Kept.core)
    | split

theorem execSt_kept {c : Fin 256} {f : FmtA} {s : State} (hk : Kept z s) : KeptOut z (execSt c f s) := by
  unfold execSt
  repeat' first
    | with_reducible assumption
    | (with_reducible apply next_kept)
    | (with_reducible first | apply programFault_kept | apply scalarStore_kept)
    | (with_reducible refine seqIssue_kept ?_ (fun _ _ _ => ?_))
    | (with_reducible refine ite_kept (fun _ => ?_) (fun _ => ?_))
    | (with_reducible apply Kept.of; dsimp only)
    | (with_reducible apply Kept.core)
    | split

theorem execBr_kept {c : Fin 256} {f : FmtB} {s : State} (hk : Kept z s) : KeptOut z (execBr c f s) := by
  unfold execBr; with_reducible repeat'
    first | assumption | apply next_kept | apply branchTo_kept | refine seqIssue_kept ?_ (fun _ _ _ => ?_)

theorem execBrr_kept {c : Fin 256} {f : FmtA} {s : State} (hk : Kept z s) : KeptOut z (execBrr c f s) := by
  unfold execBrr; with_reducible repeat'
    first | assumption | apply next_kept | apply branchTo_kept | refine seqIssue_kept ?_ (fun _ _ _ => ?_)

theorem execCall_kept {c : Fin 256} {f : FmtB} {s : State} (hk : Kept z s) : KeptOut z (execCall c f s) := by
  unfold execCall; with_reducible repeat'
    first | assumption | apply next_kept | apply branchTo_kept | refine seqIssue_kept ?_ (fun _ _ _ => ?_)

theorem execDld_kept {c : Fin 256} {f : FmtD} {s : State} (hk : Kept z s) : KeptOut z (execDld c f s) := by
  unfold execDld
  repeat' first
    | with_reducible assumption
    | (with_reducible apply next_kept)
    | (with_reducible first | apply programFault_kept | apply setL_kept)
    | (with_reducible refine seqIssue_kept ?_ (fun _ _ _ => ?_))
    | (with_reducible refine ite_kept (fun _ => ?_) (fun _ => ?_))
    | (with_reducible apply Kept.of; dsimp only)
    | (with_reducible apply Kept.core)
    | split

theorem execDst_kept {c : Fin 256} {f : FmtD} {s : State} (hk : Kept z s) : KeptOut z (execDst c f s) := by
  unfold execDst
  repeat' first
    | with_reducible assumption
    | (with_reducible apply next_kept)
    | (with_reducible first | apply programFault_kept | apply scalarStore_kept)
    | (with_reducible refine seqIssue_kept ?_ (fun _ _ _ => ?_))
    | (with_reducible refine readsDesc_kept ?_ (fun _ _ _ => ?_))
    | (with_reducible refine ite_kept (fun _ => ?_) (fun _ => ?_))
    | (with_reducible apply Kept.of; dsimp only)
    | (with_reducible apply Kept.core)
    | split

theorem execDins_kept {c : Fin 256} {f : FmtD} {s : State} (hk : Kept z s) : KeptOut z (execDins c f s) := by
  unfold execDins; with_reducible repeat'
    first | assumption | apply next_kept | apply setL_kept | refine seqIssue_kept ?_ (fun _ _ _ => ?_)

theorem execDext_kept {c : Fin 256} {f : FmtD} {s : State} (hk : Kept z s) : KeptOut z (execDext c f s) := by
  unfold execDext
  repeat' first
    | with_reducible assumption
    | (with_reducible apply next_kept)
    | with_reducible apply setL_kept
    | (with_reducible refine seqIssue_kept ?_ (fun _ _ _ => ?_))
    | (with_reducible refine readsDesc_kept ?_ (fun _ _ _ => ?_))

theorem execDmov_kept {c : Fin 256} {f : FmtD} {s : State} (hk : Kept z s) : KeptOut z (execDmov c f s) := by
  unfold execDmov
  repeat' first
    | with_reducible assumption
    | (with_reducible apply next_kept)
    | with_reducible apply setL_kept
    | (with_reducible refine seqIssue_kept ?_ (fun _ _ _ => ?_))
    | (with_reducible refine readsDesc_kept ?_ (fun _ _ _ => ?_))

theorem execDadv_kept {c : Fin 256} {f : FmtD} {s : State} (hk : Kept z s) : KeptOut z (execDadv c f s) := by
  unfold execDadv
  repeat' first
    | with_reducible assumption
    | (with_reducible apply next_kept)
    | (with_reducible first | apply programFault_kept | apply setL_kept)
    | (with_reducible refine seqIssue_kept ?_ (fun _ _ _ => ?_))
    | (with_reducible refine readsDesc_kept ?_ (fun _ _ _ => ?_))
    | split

/-! ### FCRows -/

theorem placeEntry_kept {c q : Nat} {l : LCore} {pl : Payload} {s : State} (hk : Kept z s) : Kept z (placeEntry c q l pl s) := by
  unfold placeEntry; with_reducible repeat' first | assumption | apply pump_kept | apply setL_kept | apply iteK

theorem placeWaitIn_kept {c q : Nat} {l : LCore} {on : WaitOn} {mask : Nat} {s : State} (hk : Kept z s) : Kept z (placeWaitIn c q l on mask s) := by
  unfold placeWaitIn; with_reducible repeat' first | assumption | apply pump_kept | apply setL_kept | split

theorem execCsig_kept {c : Fin 256} {f : FmtY} {s : State} (hk : Kept z s) : KeptOut z (execCsig c f s) := by
  unfold execCsig
  repeat' first
    | with_reducible assumption
    | (with_reducible apply next_kept)
    | (with_reducible first | apply placeEntry_kept | apply programFault_kept)
    | (with_reducible refine seqIssue_kept ?_ (fun _ _ _ => ?_))
    | (with_reducible refine ite_kept (fun _ => ?_) (fun _ => ?_))

theorem execCwait_kept {c : Fin 256} {f : FmtY} {s : State} (hk : Kept z s) : KeptOut z (execCwait c f s) := by
  unfold execCwait; with_reducible repeat'
    first | assumption | apply next_kept | apply placeWaitIn_kept | refine seqIssue_kept ?_ (fun _ _ _ => ?_)

theorem execCset_kept {c : Fin 256} {f : FmtY} {s : State} (hk : Kept z s) : KeptOut z (execCset c f s) := by
  unfold execCset; with_reducible repeat'
    first | assumption | apply next_kept | apply placeEntry_kept | refine seqIssue_kept ?_ (fun _ _ _ => ?_)

theorem execCread_kept {c : Fin 256} {f : FmtY} {s : State} (hk : Kept z s) : KeptOut z (execCread c f s) := by
  unfold execCread; with_reducible repeat'
    first | assumption | apply next_kept | apply placeEntry_kept | refine seqIssue_kept ?_ (fun _ _ _ => ?_)

theorem csigSend_kept {ci : Nat} {s : State} (hk : Kept z s) : Kept z (csigSend ci s) := by
  unfold csigSend
  repeat' first
    | with_reducible assumption
    | (with_reducible first | apply deliver_kept | apply pump_kept | apply setL_kept | apply unitFault_kept)
    | (with_reducible refine sendFrom_kept ?_ (by with_reducible assumption))
    | (with_reducible refine ite_kept (fun _ => ?_) (fun _ => ?_))
    | (with_reducible apply Kept.of; dsimp only)
    | (with_reducible apply Kept.core)
    | split

theorem execCsigSend_kept {c : Fin 256} {s : State} (hk : Kept z s) : KeptOut z (execCsigSend c s) := by
  unfold execCsigSend; with_reducible repeat' first | assumption | apply next_kept | apply csigSend_kept

theorem cwaitEnds_kept {ci idx : Nat} {s : State} (hk : Kept z s) : Kept z (cwaitEnds ci idx s) := by
  unfold cwaitEnds
  repeat' first
    | with_reducible assumption
    | (with_reducible first | apply pump_kept | apply setL_kept)
    | (with_reducible refine ite_kept (fun _ => ?_) (fun _ => ?_))
    | (with_reducible apply Kept.of; dsimp only)
    | (with_reducible apply Kept.core)
    | split

theorem execCwaitEnds_kept {c : Fin 256} {idx : Fin 128} {s : State} (hk : Kept z s) : KeptOut z (execCwaitEnds c idx s) := by
  unfold execCwaitEnds; with_reducible repeat' first | assumption | apply next_kept | apply cwaitEnds_kept

theorem answerPkt_kept {p : Packet} {die : Nat} {b : Body} {s : State} (hk : Kept z s) : Kept z (answerPkt p die b s) := by
  unfold answerPkt; with_reducible repeat'
    first | assumption | apply deliver_kept | apply sendOrDrop_kept | apply iteK

theorem heldAcks_kept  {s : State} (hk : Kept z s) : Kept z (heldAcks s) := by
  unfold heldAcks
  repeat' first
    | with_reducible assumption
    | with_reducible apply answerPkt_kept
    | with_reducible apply creditBack_kept
    | (with_reducible refine foldl_kept (fun _ _ _ => ?_) _ ?_)
    | (with_reducible apply Kept.of; dsimp only)
    | (with_reducible apply Kept.core)
    | split

theorem signalHere_kept {w : Word} {amount : BitVec 32} {s : State} (hk : Kept z s) : Kept z (signalHere w amount s) := by
  unfold signalHere; with_reducible repeat' first | assumption | apply catchAdd_kept | apply iteK

theorem catchSignal_kept {w : Word} {amount : BitVec 32} {s : State} (hk : Kept z s) : Kept z (catchSignal w amount s) := by
  unfold catchSignal
  repeat' first
    | with_reducible assumption
    | (with_reducible first | apply addFld_kept | apply answerPkt_kept | apply signalHere_kept)
    | (with_reducible apply takeInbound_kept1)
    | (with_reducible refine ite_kept (fun _ => ?_) (fun _ => ?_))
    | (with_reducible apply Kept.of; dsimp only)
    | (with_reducible apply Kept.core)
    | split

theorem execCatchSignal_kept {word : Word} {amount : BitVec 32} {s : State} (hk : Kept z s) : KeptOut z (execCatchSignal word amount s) := by
  unfold execCatchSignal; with_reducible repeat'
    first | assumption | apply next_kept | apply catchSignal_kept | apply ordered_kept

theorem catchRefusal_kept {ci offset : Nat} {s : State} (hk : Kept z s) : Kept z (catchRefusal ci offset s) := by
  unfold catchRefusal
  repeat' first
    | with_reducible assumption
    | (with_reducible first | apply ackOwe_kept | apply flowAck_kept | apply programFault_kept | apply txnTake_kept)
    | (with_reducible apply takeInbound_kept1)
    | (with_reducible apply Kept.of; dsimp only)
    | (with_reducible apply Kept.core)
    | split

theorem execCatchRefusal_kept {c : Fin 256} {offset : Nat} {s : State} (hk : Kept z s) : KeptOut z (execCatchRefusal c offset s) := by
  unfold execCatchRefusal; with_reducible repeat'
    first | assumption | apply next_kept | apply catchRefusal_kept | apply ordered_kept

theorem execFwait_kept {c : Fin 256} {f : FmtY} {s : State} (hk : Kept z s) : KeptOut z (execFwait c f s) := by
  unfold execFwait; with_reducible repeat'
    first | assumption | apply next_kept | apply placeWaitIn_kept | refine seqIssue_kept ?_ (fun _ _ _ => ?_)

theorem execFnow_kept {c : Fin 256} {f : FmtA} {s : State} (hk : Kept z s) : KeptOut z (execFnow c f s) := by
  unfold execFnow; with_reducible repeat'
    first | assumption | apply next_kept | apply placeEntry_kept | refine seqIssue_kept ?_ (fun _ _ _ => ?_)

theorem fwaitEnd_kept {ci n : Nat} {s : State} (hk : Kept z s) : Kept z (fwaitEnd ci n s) := by
  unfold fwaitEnd; with_reducible repeat' first | assumption | apply pump_kept | apply setL_kept | apply iteK | split

theorem execStepOpen_kept {c : Fin 256} {f : FmtA} {s : State} (hk : Kept z s) : KeptOut z (execStepOpen c f s) := by
  unfold execStepOpen; with_reducible repeat'
    first | assumption | apply next_kept | apply placeEntry_kept | refine seqIssue_kept ?_ (fun _ _ _ => ?_)

theorem execStepCommit_kept {c : Fin 256} {f : FmtA} {s : State} (hk : Kept z s) : KeptOut z (execStepCommit c f s) := by
  unfold execStepCommit
  repeat' first
    | with_reducible assumption
    | (with_reducible apply next_kept)
    | (with_reducible first | apply pump_kept | apply setL_kept)
    | (with_reducible refine seqIssue_kept ?_ (fun _ _ _ => ?_))
    | (with_reducible refine ite_kept (fun _ => ?_) (fun _ => ?_))

theorem execHalt_kept {c : Fin 256} {f : FmtA} {s : State} (hk : Kept z s) : KeptOut z (execHalt c f s) := by
  unfold execHalt
  repeat' first
    | with_reducible assumption
    | (with_reducible apply next_kept)
    | (with_reducible first | apply programFault_kept | apply pump_kept | apply setL_kept)
    | (with_reducible refine seqIssue_kept ?_ (fun _ _ _ => ?_))
    | (with_reducible refine ite_kept (fun _ => ?_) (fun _ => ?_))

theorem execDetent_kept {c : Fin 256} {f : FmtY} {s : State} (hk : Kept z s) : KeptOut z (execDetent c f s) := by
  unfold execDetent
  repeat' first
    | with_reducible assumption
    | (with_reducible apply next_kept)
    | (with_reducible first | apply pump_kept | apply setL_kept)
    | (with_reducible refine seqIssue_kept ?_ (fun _ _ _ => ?_))

theorem loadReturn_kept {ci : Nat} {s : State} (hk : Kept z s) : Kept z (loadReturn ci s) := by
  unfold loadReturn; with_reducible repeat' first | assumption | apply pump_kept | apply setL_kept | split

theorem execScalarLoadReturn_kept {c : Fin 256} {s : State} (hk : Kept z s) : KeptOut z (execScalarLoadReturn c s) := by
  unfold execScalarLoadReturn; with_reducible repeat' first | assumption | apply next_kept | apply loadReturn_kept

theorem portPass_kept {phys : Nat} {s : State} (hk : Kept z s) : Kept z (portPass phys s) := by
  unfold portPass
  repeat' first
    | with_reducible assumption
    | (with_reducible first | apply modP_kept | apply pump_kept)
    | (with_reducible refine ite_kept (fun _ => ?_) (fun _ => ?_))
    | (with_reducible apply Kept.of; dsimp only)
    | (with_reducible apply Kept.core)
    | split

theorem execPortTurnPass_kept {phys : Fin 256} {s : State} (hk : Kept z s) : KeptOut z (execPortTurnPass phys s) := by
  unfold execPortTurnPass; with_reducible repeat' first | assumption | apply next_kept | apply portPass_kept

/-! ### FrameOps -/

theorem setFState_kept {v : Nat} {s : State} (hk : Kept z s) : Kept z (setFState v s) := by
  unfold setFState; with_reducible repeat' first | assumption | apply setFld_kept

theorem modFrame_kept {f : FrameSt → FrameSt} {s : State} (hk : Kept z s) : Kept z (modFrame f s) := hk

theorem frameFree_kept  {s : State} (hk : Kept z s) : Kept z (frameFree s) := by
  unfold frameFree; with_reducible repeat'
    first | assumption | apply modFrame_kept | apply setFState_kept | apply setFld_kept

theorem frameLoss_kept {cause : Nat} {code : Code} {s : State} (hk : Kept z s) : Kept z (frameLoss cause code s) := by
  unfold frameLoss
  repeat' first
    | with_reducible assumption
    | (with_reducible first | apply addFld_kept | apply modFrame_kept | apply report_kept | apply setFState_kept | apply setFld_kept)

theorem lockStep_kept {e : Nat} {num : Option Nat} {p : Option Nat} {s : State} (hk : Kept z s) : Kept z (lockStep e num p s) := by
  unfold lockStep
  repeat' first
    | with_reducible assumption
    | (with_reducible first | apply frameLoss_kept | apply modFrame_kept | apply setFState_kept | apply setFld_kept)
    | (with_reducible refine ite_kept (fun _ => ?_) (fun _ => ?_))
    | split

theorem frameCorrect_kept {e t : Nat} {num : Option Nat} {s : State} (hk : Kept z s) : Kept z (frameCorrect e t num s) := by
  unfold frameCorrect; with_reducible repeat'
    first | assumption | apply lockStep_kept | apply modFrame_kept | apply setFld_kept | split

theorem frameEstimate_kept {e t : Nat} {num : Option Nat} {s : State} (hk : Kept z s) : Kept z (frameEstimate e t num s) := by
  unfold frameEstimate
  repeat' first
    | with_reducible assumption
    | (with_reducible first | apply frameCorrect_kept | apply modFrame_kept)
    | (with_reducible refine ite_kept (fun _ => ?_) (fun _ => ?_))
    | (with_reducible apply Kept.of; dsimp only)
    | (with_reducible apply Kept.core)

theorem parentLost_kept {n : Nat} {s : State} (hk : Kept z s) : Kept z (parentLost n s) := by
  unfold parentLost; with_reducible repeat'
    first | assumption | apply modFrame_kept | apply setFState_kept | apply iteK

theorem sendFrame_kept {n : Nat} {s : State} (hk : Kept z s) : Kept z (sendFrame s n) := by
  unfold sendFrame; with_reducible repeat' first | assumption | apply freeStep_kept | apply modPort_kept | apply iteK

theorem frameBegin_kept  {s : State} (hk : Kept z s) : Kept z (frameBegin s) := by
  unfold frameBegin; with_reducible repeat'
    first | assumption | apply modFrame_kept | apply setFld_kept | (apply Kept.of; dsimp only) | apply Kept.core

theorem frameBoundary_kept  {s : State} (hk : Kept z s) : Kept z (frameBoundary s) := by
  unfold frameBoundary
  repeat' first
    | with_reducible assumption
    | (with_reducible first | apply frameBegin_kept | apply frameCorrect_kept | apply sendFrame_kept)
    | (with_reducible refine foldl_kept (fun _ _ _ => ?_) _ ?_)
    | (with_reducible refine ite_kept (fun _ => ?_) (fun _ => ?_))
    | (with_reducible apply Kept.of; dsimp only)
    | (with_reducible apply Kept.core)
    | split

theorem windowClose_kept  {s : State} (hk : Kept z s) : Kept z (windowClose s) := by
  unfold windowClose
  repeat' first
    | with_reducible assumption
    | (with_reducible first | apply addFld_kept | apply frameLoss_kept | apply modFrame_kept | apply setFState_kept)
    | (with_reducible refine ite_kept (fun _ => ?_) (fun _ => ?_))
    | (with_reducible apply Kept.of; dsimp only)
    | (with_reducible apply Kept.core)
    | split

/-! ### Fabric -/

theorem portState_kept {n v : Nat} {s : State} (hk : Kept z s) : Kept z (portState n v s) := by
  unfold portState; with_reducible repeat' first | assumption | apply modPort_kept | apply setFld_kept

theorem portDown_kept {n v : Nat} {s : State} (hk : Kept z s) : Kept z (portDown n v s) := by
  unfold portDown
  repeat' first
    | with_reducible assumption
    | (with_reducible first | apply addFld_kept | apply originate_kept | apply parentLost_kept | apply portState_kept | apply report_kept | apply setPort_kept)
    | (with_reducible refine ite_kept (fun _ => ?_) (fun _ => ?_))
    | (with_reducible apply Kept.of; dsimp only)
    | (with_reducible apply Kept.core)

theorem portFail_kept {n cause : Nat} {code : Option Code} {s : State} (hk : Kept z s) : Kept z (portFail n cause code s) := by
  unfold portFail
  repeat' first
    | with_reducible assumption
    | (with_reducible first | apply modPort_kept | apply portDown_kept | apply portState_kept | apply report_kept | apply setFld_kept)
    | (with_reducible refine ite_kept (fun _ => ?_) (fun _ => ?_))
    | split

theorem portBringup_kept {n : Nat} {s : State} (hk : Kept z s) : Kept z (portBringup n s) := by
  unfold portBringup; with_reducible repeat'
    first | assumption | apply portDown_kept | apply portState_kept | apply setFld_kept | apply iteK

theorem bittingBegin_kept {n : Nat} {s : State} (hk : Kept z s) : Kept z (bittingBegin n s) := by
  unfold bittingBegin; with_reducible repeat' first | assumption | apply modPort_kept

theorem bittingAccept_kept {n : Nat} {r : Bitting} {s : State} (hk : Kept z s) : Kept z (bittingAccept n r s) := by
  unfold bittingAccept; with_reducible repeat'
    first | assumption | apply portFail_kept | apply setFld_kept | apply iteK | split

theorem portDelay_kept {n delay : Nat} {s : State} (hk : Kept z s) : Kept z (portDelay n delay s) := by
  unfold portDelay
  repeat' first
    | with_reducible assumption
    | (with_reducible first | apply modPort_kept | apply portFail_kept | apply portState_kept | apply setFld_kept)
    | (with_reducible refine ite_kept (fun _ => ?_) (fun _ => ?_))

theorem fastStart_kept {n : Nat} {s : State} (hk : Kept z s) : Kept z (fastStart n s) := by
  unfold fastStart; with_reducible repeat'
    first | assumption | apply addFld_kept | apply modPort_kept | apply portState_kept | apply iteK

theorem fecCount_kept {n : Nat} {cws : List Codeword} {s : State} (hk : Kept z s) : Kept z (fecCount n cws s) := by
  unfold fecCount; with_reducible repeat' first | assumption | apply addFld_kept

theorem flitReceived_kept {n : Nat} {flit : FlitBits} {cws : List Codeword} {s : State} (hk : Kept z s) : Kept z (flitReceived n flit cws s) := by
  unfold flitReceived; with_reducible repeat'
    first | assumption | apply addFld_kept | apply fecCount_kept | apply setPort_kept | apply iteK

theorem dropTransit_kept {f : Fld} {code : Code} {src : Nat} {p : Packet} {s : State} (hk : Kept z s) : Kept z (dropTransit f code src p s) := by
  unfold dropTransit; with_reducible repeat' first | assumption | apply addFld_kept | apply report_kept

theorem forwardPkt_kept {src : Nat} {p : Packet} {s : State} (hk : Kept z s) : Kept z (forwardPkt src p s) := by
  unfold forwardPkt
  repeat' first
    | with_reducible assumption
    | (with_reducible first | apply dropTransit_kept | apply enqueue_kept)
    | (with_reducible refine ite_kept (fun _ => ?_) (fun _ => ?_))
    | (with_reducible apply Kept.of; dsimp only)
    | (with_reducible apply Kept.core)
    | split

theorem routePacket_kept {port : Option Nat} {p : Packet} {s : State} (hk : Kept z s) : Kept z (routePacket port p s) := by
  unfold routePacket
  repeat' first
    | with_reducible assumption
    | (with_reducible first | apply addFld_kept | apply deliver_kept | apply forwardPkt_kept | apply modPort_kept | apply sendOrDrop_kept)
    | (with_reducible refine ite_kept (fun _ => ?_) (fun _ => ?_))
    | (with_reducible apply Kept.of; dsimp only)
    | (with_reducible apply Kept.core)
    | split

/-! ### Arrivals -/

theorem takePacket_kept {p : Packet} {s : State} (hk : Kept z s) : Kept z (takePacket p s) := by
  unfold takePacket; with_reducible repeat' first | assumption | apply takeInbound_kept1

theorem inFlow_kept {p : Packet} {s t : State} (hs : Kept z s) (ht : Kept z t) : Kept z (inFlow p s t) := ordered_kept hs ht

theorem holdNote_kept {p : Packet} {a n : Nat} {s : State} (hk : Kept z s) : Kept z (holdNote p a n s) := by
  unfold holdNote; with_reducible repeat'
    first | assumption | apply iteK | (apply Kept.of; dsimp only) | apply Kept.core

theorem backIf_kept {p : Packet} {s t : State} (ht : Kept z t) : Kept z (backIf p s t) := by
  unfold backIf; exact iteK (creditBack_kept ht) ht

theorem remoteWrite_kept {p : Packet} {s : State} (h : Kept z s) : Kept z (remoteWrite p s) := by
  unfold remoteWrite
  split
  · refine iteK (answerPkt_kept (addFld_kept (takePacket_kept h))) (iteK (answerPkt_kept (takePacket_kept h))
      (iteK (answerPkt_kept (takePacket_kept h)) ?_))
    exact ite_kept (fun _ => Kept.of (holdNote_kept (hbmWrite_kept (setAside_kept h))).core)
      fun _ => answerPkt_kept (backIf_kept (holdNote_kept (hbmWrite_kept (setAside_kept h))))
  · exact h

theorem execRemoteWrite_kept {_port : Fin 16} {p : Packet} {s : State} (hk : Kept z s) : KeptOut z (execRemoteWrite _port p s) := by
  unfold execRemoteWrite; with_reducible repeat'
    first | assumption | apply liveNext_kept | apply inFlow_kept | apply remoteWrite_kept

theorem remoteRead_kept {p : Packet} {s : State} (hk : Kept z s) : Kept z (remoteRead p s) := by
  unfold remoteRead
  repeat' first
    | with_reducible assumption
    | (with_reducible first | apply answerPkt_kept | apply takePacket_kept)
    | (with_reducible refine ite_kept (fun _ => ?_) (fun _ => ?_))
    | (with_reducible apply Kept.of; dsimp only)
    | (with_reducible apply Kept.core)
    | split

theorem execRemoteRead_kept {_port : Fin 16} {p : Packet} {s : State} (hk : Kept z s) : KeptOut z (execRemoteRead _port p s) := by
  unfold execRemoteRead; with_reducible repeat'
    first | assumption | apply liveNext_kept | apply inFlow_kept | apply remoteRead_kept

theorem answered_kept {p : Packet} {read : Bool} {data : List Byte} {s : State} (hk : Kept z s) : Kept z (answered p read data s) := by
  unfold answered
  repeat' first
    | with_reducible assumption
    | (with_reducible first | apply ackOwe_kept | apply flowAck_kept | apply pump_kept | apply takePacket_kept | apply txnTake_kept | apply xAnswer_kept)
    | (with_reducible apply Kept.of; dsimp only)
    | (with_reducible apply Kept.core)
    | split

theorem execReadData_kept {p : Packet} {s : State} (hk : Kept z s) : KeptOut z (execReadData p s) := by
  unfold execReadData; with_reducible repeat'
    first | assumption | apply liveNext_kept | apply answered_kept | apply inFlow_kept | split

theorem execWriteAck_kept {p : Packet} {s : State} (hk : Kept z s) : KeptOut z (execWriteAck p s) := by
  unfold execWriteAck; with_reducible repeat'
    first | assumption | apply liveNext_kept | apply answered_kept | apply inFlow_kept | split

theorem deliveryAck_kept {p : Packet} {s : State} (hk : Kept z s) : Kept z (deliveryAck p s) := by
  unfold deliveryAck; with_reducible repeat' first | assumption | apply flowAck_kept | apply takePacket_kept | split

theorem execDeliveryAck_kept {p : Packet} {s : State} (hk : Kept z s) : KeptOut z (execDeliveryAck p s) := by
  unfold execDeliveryAck; with_reducible repeat'
    first | assumption | apply liveNext_kept | apply deliveryAck_kept | apply inFlow_kept

theorem kwyArrive_kept {d : Nat} {p : KwyPkt} {ranges : List (Nat × Nat)} {act : State → State} {s : State} (h : Kept z s)
    (ha : ∀ s, Kept z s → Kept z (act s)) : Kept z (kwyArrive d p ranges act s) := by
  unfold kwyArrive
  have ht : Kept z (match kwyFrom s (fun k => k.destDie != 14) p with
      | some k => ackOwe d k (takePacket k s)
      | none => s) := by
    split
    · exact ackOwe_kept (takePacket_kept h)
    · exact h
  with_reducible refine ite_kept (fun _ => h) fun _ => ordered_kept h ?_
  split
  · exact h
  · exact addFld_kept ht
  · split
    · rename_i r hr
      cases r with
      | none => exact h
      | some t => exact latAwait_kept h hr
    · exact ha _ ht

theorem ksendNoRoute_kept {ci : Nat} {s : State} (hk : Kept z s) : Kept z (ksendNoRoute ci s) := by
  unfold ksendNoRoute; with_reducible repeat'
    first | assumption | apply kFail_kept | apply pump_kept | apply iteK | split

theorem keywayResolve_kept {d : Nat} {p : KwyPkt} {s : State} (hk : Kept z s) : Kept z (keywayResolve d p s) := by
  unfold keywayResolve
  repeat' first
    | with_reducible assumption
    | (with_reducible first | apply ackOwe_kept | apply deliver_kept | apply forwardPkt_kept | apply ksendNoRoute_kept | apply kwyRefuse_kept | apply takePacket_kept)
    | (with_reducible apply kwyEntry_kept1)
    | (with_reducible refine sendFrom_kept ?_ (by with_reducible assumption))
    | (with_reducible refine ite_kept (fun _ => ?_) (fun _ => ?_))
    | (with_reducible apply Kept.of; dsimp only)
    | (with_reducible apply Kept.core)
    | split

theorem execKeywayResolve_kept {d : Fin 8} {p : KwyPkt} {s : State} (hk : Kept z s) : KeptOut z (execKeywayResolve d p s) := by
  unfold execKeywayResolve; with_reducible repeat'
    first | assumption | apply liveNext_kept | apply keywayResolve_kept | apply ordered_kept

theorem execDispatchArrival_kept {d : Fin 8} {p : KwyPkt} {s : State} (hk : Kept z s) : KeptOut z (execDispatchArrival d p s) := by
  unfold execDispatchArrival
  repeat' first
    | with_reducible assumption
    | (with_reducible apply liveNext_kept)
    | (with_reducible first | apply hbmPut_kept | apply kwyRefuse_kept | apply srcEntryApply_kept)
    | (with_reducible refine kwyArrive_kept ?_ (fun _ _ => ?_))
    | (with_reducible refine ite_kept (fun _ => ?_) (fun _ => ?_))
    | (with_reducible apply Kept.of; dsimp only)
    | (with_reducible apply Kept.core)
    | split

theorem execCloseArrival_kept {d : Fin 8} {p : KwyPkt} {s : State} (hk : Kept z s) : KeptOut z (execCloseArrival d p s) := by
  unfold execCloseArrival
  repeat' first
    | with_reducible assumption
    | (with_reducible apply liveNext_kept)
    | (with_reducible first | apply kwyRefuse_kept | apply srcEntryApply_kept)
    | (with_reducible refine kwyArrive_kept ?_ (fun _ _ => ?_))
    | (with_reducible refine ite_kept (fun _ => ?_) (fun _ => ?_))

theorem execAnswerArrival_kept {d : Fin 8} {p : KwyPkt} {s : State} (hk : Kept z s) : KeptOut z (execAnswerArrival d p s) := by
  unfold execAnswerArrival; with_reducible repeat'
    first | assumption | apply liveNext_kept | apply combineApply_kept | refine kwyArrive_kept ?_ (fun _ _ => ?_)

theorem execKeywayRefusal_kept {d : Fin 8} {p : KwyPkt} {s : State} (hk : Kept z s) : KeptOut z (execKeywayRefusal d p s) := by
  unfold execKeywayRefusal; with_reducible repeat'
    first | assumption | apply liveNext_kept | apply combineApply_kept | refine kwyArrive_kept ?_ (fun _ _ => ?_)

/-! ### FailOps -/

theorem listsReg_kept  {s : State} (hk : Kept z s) : Kept z (listsReg s) := by
  unfold listsReg; with_reducible repeat' first | assumption | apply setFld_kept

theorem listStart_kept {op : ListOp} {cls n : Nat} {port : Option (Nat × BitVec 8)} {a0 a1 : Word} {s : State} (hk : Kept z s) : Kept z (listStart op cls n port a0 a1 s) := by
  unfold listStart; with_reducible repeat'
    first | assumption | apply listsReg_kept | (apply Kept.of; dsimp only) | apply Kept.core

theorem listEnd_kept {op : ListOp} {s : State} (hk : Kept z s) : Kept z (listEnd op s) := by
  unfold listEnd; with_reducible repeat'
    first | assumption | apply listsReg_kept | (apply Kept.of; dsimp only) | apply Kept.core

theorem setDom_kept {dom : Nat} {on : Bool} {s : State} (hk : Kept z s) : Kept z (setDom dom on s) := by
  unfold setDom; with_reducible repeat' first | assumption | apply setFld_kept | apply iteK

theorem domSwitch_kept {dom : Nat} {on : Bool} {s : State} (hk : Kept z s) : Kept z (domSwitch dom on s) := hk

theorem heldStart_kept  {s : State} (hk : Kept z s) : Kept z (heldStart s) := by
  unfold heldStart; with_reducible repeat'
    first | assumption | apply iteK | (apply Kept.of; dsimp only) | apply Kept.core

theorem domFence_kept {dom : Nat} {s : State} (hk : Kept z s) : Kept z (domFence dom s) := by
  unfold domFence; with_reducible repeat'
    first | assumption | apply domSwitch_kept | apply iteK | (apply Kept.of; dsimp only) | apply Kept.core

theorem portRetire_kept {n : Nat} {s : State} (hk : Kept z s) : Kept z (portRetire n s) := by
  unfold portRetire; with_reducible repeat'
    first | assumption | apply modPort_kept | apply portDown_kept | apply portState_kept | apply iteK

theorem retire_kept  {s : State} (hk : Kept z s) : Kept z (retire s) := by
  unfold retire
  repeat' first
    | with_reducible assumption
    | (with_reducible first | apply imageOff_kept | apply portRetire_kept | apply report_kept)
    | (with_reducible refine foldl_kept (fun _ _ _ => ?_) _ ?_)
    | (with_reducible refine ite_kept (fun _ => ?_) (fun _ => ?_))
    | (with_reducible apply Kept.of; dsimp only)
    | (with_reducible apply Kept.core)

theorem moduleLoss_kept  {s : State} (hk : Kept z s) : Kept z (moduleLoss s) := by
  unfold moduleLoss; with_reducible repeat' first | assumption | apply report_kept | apply retire_kept | apply iteK

theorem declareLost_kept {m : Member} {s : State} (hk : Kept z s) : Kept z (declareLost m s) := by
  unfold declareLost
  repeat' first
    | with_reducible assumption
    | (with_reducible first | apply holdSend_kept | apply lossAbort_kept | apply report_kept)
    | (with_reducible refine ite_kept (fun _ => ?_) (fun _ => ?_))
    | (with_reducible apply Kept.of; dsimp only)
    | (with_reducible apply Kept.core)

theorem slotUndispatch_kept {k : Nat} {s : State} (hk : Kept z s) : Kept z (slotUndispatch s k) := by
  unfold slotUndispatch
  repeat' first
    | with_reducible assumption
    | (with_reducible first | apply jWrite_kept | apply slotEnd_kept)
    | (with_reducible refine ite_kept (fun _ => ?_) (fun _ => ?_))
    | (with_reducible apply Kept.of; dsimp only)
    | (with_reducible apply Kept.core)
    | split

theorem slotsUndispatch_kept {p : Nat} {s : State} (hk : Kept z s) : Kept z (slotsUndispatch p s) := by
  unfold slotsUndispatch; with_reducible repeat'
    first | assumption | apply slotUndispatch_kept | refine foldl_kept (fun _ _ _ => ?_) _ ?_

theorem quadFenced_kept {p : Nat} {s : State} (hk : Kept z s) : Kept z (quadFenced p s) := by
  unfold quadFenced; with_reducible repeat' first | assumption | apply domFence_kept | apply iteK

theorem fenceOff_kept {p : Nat} {s : State} (hk : Kept z s) : Kept z (fenceOff p s) := by
  unfold fenceOff; with_reducible repeat'
    first | assumption | apply modP_kept | apply quadFenced_kept | apply report_kept | apply slotsUndispatch_kept

theorem fenceCore_kept {p : Nat} {s : State} (hk : Kept z s) : Kept z (fenceCore p s) := by
  unfold fenceCore; with_reducible repeat'
    first | assumption | apply fenceOff_kept | apply listStart_kept | apply lossAbort_kept | apply iteK

theorem coreFault_kept {p : Nat} {code : Code} {unit : Nat} {detail : Nat} {s : State} (hk : Kept z s) : Kept z (coreFault p code unit detail s) := by
  unfold coreFault; with_reducible repeat'
    first | assumption | apply fenceCore_kept | apply imageEnd_kept | apply modP_kept | apply report_kept | apply iteK

theorem replace_kept  {s : State} (hk : Kept z s) : Kept z (replace s) := by
  unfold replace
  repeat' first
    | with_reducible assumption
    | (with_reducible first | apply moduleLoss_kept | apply report_kept)
    | (with_reducible refine ite_kept (fun _ => ?_) (fun _ => ?_))
    | (with_reducible apply Kept.of; dsimp only)
    | (with_reducible apply Kept.core)

theorem moveIdle_kept  {s : State} (hk : Kept z s) : Kept z (moveIdle s) := by
  unfold moveIdle; with_reducible repeat' first | assumption | apply applyMoves_kept | apply pumpAll_kept | apply iteK

theorem quadStep_kept {p : Nat} {done : Nat} {ok : Bool} {s : State} (hk : Kept z s) : Kept z (quadStep p done ok s) := by
  unfold quadStep
  repeat' first
    | with_reducible assumption
    | (with_reducible first | apply domFence_kept | apply fenceOff_kept | apply lossAbort_kept | apply modP_kept)
    | (with_reducible refine foldl_kept (fun _ _ _ => ?_) _ ?_)
    | (with_reducible refine ite_kept (fun _ => ?_) (fun _ => ?_))

theorem quadDone_kept {p : Nat} {s : State} (hk : Kept z s) : Kept z (quadDone p s) := by
  unfold quadDone; with_reducible repeat'
    first | assumption | apply holdRelease_kept | apply listEnd_kept | apply moveIdle_kept | apply replace_kept

theorem fenceDie_kept {d : Nat} {s : State} (hk : Kept z s) : Kept z (fenceDie d s) := by
  unfold fenceDie; with_reducible repeat'
    first | assumption | apply domFence_kept | apply moduleLoss_kept | (apply Kept.of; dsimp only) | apply Kept.core

theorem uncoreFault_kept {d unit part : Nat} {code : Code} {s : State} (hk : Kept z s) : Kept z (uncoreFault d unit part code s) := by
  unfold uncoreFault; with_reducible repeat' first | assumption | apply fenceDie_kept | apply report_kept

theorem stackOut_kept {j : Nat} {s : State} (hk : Kept z s) : Kept z (stackOut j s) := by
  unfold stackOut; with_reducible repeat'
    first | assumption | apply moduleLoss_kept | apply report_kept | apply setFld_kept

theorem stackNote_kept {j : Nat} {s : State} (hk : Kept z s) : Kept z (stackNote j s) := hk

theorem stackError_kept {j : Nat} {rollback : Bool} {s : State} (hk : Kept z s) : Kept z (stackError j rollback s) := by
  unfold stackError
  repeat' first
    | with_reducible assumption
    | (with_reducible first | apply lossAbort_kept | apply originate_kept | apply stackNote_kept | apply stackOut_kept)
    | (with_reducible refine ite_kept (fun _ => ?_) (fun _ => ?_))
    | (with_reducible apply Kept.of; dsimp only)
    | (with_reducible apply Kept.core)

theorem stacksOut_kept  {s : State} (hk : Kept z s) : Kept z (stacksOut s) := by
  unfold stacksOut
  repeat' first
    | with_reducible assumption
    | with_reducible apply stackOut_kept
    | (with_reducible refine foldl_kept (fun _ _ _ => ?_) _ ?_)
    | (with_reducible refine ite_kept (fun _ => ?_) (fun _ => ?_))
    | (with_reducible apply Kept.of; dsimp only)
    | (with_reducible apply Kept.core)

theorem lostDone_kept {m : Member} {s : State} (hk : Kept z s) : Kept z (lostDone m s) := by
  unfold lostDone; with_reducible repeat'
    first | assumption | apply holdRelease_kept | apply iteK | (apply Kept.of; dsimp only) | apply Kept.core

/-! ### CutOps -/

theorem latchMem_wf {s : State} (h : Memory.wf s.mem = true) : Memory.wf (latchMem s) = true := by
  unfold latchMem
  refine foldl_wf (fun _ _ h => ?_) _ h
  split
  · exact copy_wf h _ _ _
  · exact h

theorem cutMark_kept {t1 t2 : Bool} {g : Nat} {s : State} (hk : Kept z s) : Kept z (cutMark t1 t2 s g) := by
  unfold cutMark
  repeat' first
    | with_reducible assumption
    | (with_reducible first | apply dirPut_kept | apply setGran_kept)
    | (with_reducible refine ite_kept (fun _ => ?_) (fun _ => ?_))
    | (with_reducible apply Kept.of; dsimp only)
    | (with_reducible apply Kept.core)
    | split

theorem cutClearAll_kept {tier1 again : Bool} {s : State} (hk : Kept z s) : Kept z (cutClearAll tier1 again s) := by
  unfold cutClearAll
  repeat' first
    | with_reducible assumption
    | (with_reducible first | apply cutClear_kept | apply setGran_kept)
    | (with_reducible refine foldl_kept (fun _ _ _ => ?_) _ ?_)
    | (with_reducible refine ite_kept (fun _ => ?_) (fun _ => ?_))

theorem snapStat_kept {id : BitVec 32} {f : State → State} {s : State} (hf : ∀ s, Kept z s → Kept z (f s)) (hk : Kept z s) :
    Kept z (snapStat id f s) := iteK (hf s hk) hk

theorem t1Abandon_kept  {s : State} (hk : Kept z s) : Kept z (t1Abandon s) := by
  unfold t1Abandon
  repeat' first
    | with_reducible assumption
    | (with_reducible first | apply cutClearAll_kept | apply listEnd_kept | apply report_kept | apply setFld_kept | apply setGran_kept)
    | (with_reducible refine snapStat_kept (fun _ _ => ?_) ?_)
    | (with_reducible refine foldl_kept (fun _ _ _ => ?_) _ ?_)
    | (with_reducible apply Kept.of; dsimp only)
    | (with_reducible apply Kept.core)
    | split

theorem retainAll_kept  {s : State} (hk : Kept z s) : Kept z (retainAll s) := by
  unfold retainAll; with_reducible repeat'
    first | assumption | apply jRetain_kept | refine foldl_kept (fun _ _ _ => ?_) _ ?_

theorem t1Complete_kept {id : BitVec 32} {s : State} (hk : Kept z s) : Kept z (t1Complete id s) := by
  unfold t1Complete
  repeat' first
    | with_reducible assumption
    | (with_reducible first | apply cutClearAll_kept | apply listEnd_kept | apply retainAll_kept | apply setFld_kept)
    | (with_reducible refine snapStat_kept (fun _ _ => ?_) ?_)
    | (with_reducible refine ite_kept (fun _ => ?_) (fun _ => ?_))
    | (with_reducible apply Kept.of; dsimp only)
    | (with_reducible apply Kept.core)
    | split

theorem t1Answer_kept {id : BitVec 32} {s : State} (hk : Kept z s) : Kept z (t1Answer id s) := by
  unfold t1Answer; with_reducible repeat'
    first | assumption | apply t1Abandon_kept | apply t1Complete_kept | apply takeCtl_kept | apply iteK

theorem dataSend_kept {m : Member} {die destDie a : Nat} {bs : List Byte} {s : State} (hk : Kept z s) : Kept z (dataSend m die destDie a bs s) := by
  unfold dataSend
  repeat' first
    | with_reducible assumption
    | with_reducible apply sendOrDrop_kept
    | (with_reducible refine foldl_kept (fun _ _ _ => ?_) _ ?_)
    | (with_reducible apply Kept.of; dsimp only)
    | (with_reducible apply Kept.core)

theorem t1SendGran_kept {m : Member} {g : Nat} {s : State} (hk : Kept z s) : Kept z (t1SendGran m s g) := by
  unfold t1SendGran; with_reducible repeat' first | assumption | apply cutClear_kept | apply dataSend_kept

theorem t1Tick_kept  {s : State} (hk : Kept z s) : Kept z (t1Tick s) := by
  unfold t1Tick
  repeat' first
    | with_reducible assumption
    | (with_reducible first | apply dataSend_kept | apply t1SendGran_kept)
    | (with_reducible refine foldl_kept (fun _ _ _ => ?_) _ ?_)
    | (with_reducible apply Kept.of; dsimp only)
    | (with_reducible apply Kept.core)
    | split

theorem t1Record_kept {x : Snap} {st : Nat} {s : State} (hk : Kept z s) : Kept z (t1Record x st s) := by
  unfold t1Record; with_reducible repeat'
    first | assumption | apply jnlPut_kept | (apply Kept.of; dsimp only) | apply Kept.core

theorem stagedCopy_kept {g : Nat × Nat} {s : State} (hk : Kept z s) : Kept z (stagedCopy s g) := by
  unfold stagedCopy
  repeat' first
    | with_reducible assumption
    | with_reducible apply clearBad_kept
    | (with_reducible apply Kept.of; dsimp only)
    | (with_reducible apply Kept.setMem)
    | (with_reducible refine fun _ => ?_)
    | (with_reducible apply copy_wf)

theorem stagedApply_kept  {s : State} (hk : Kept z s) : Kept z (stagedApply s) := by
  unfold stagedApply
  repeat' first
    | with_reducible assumption
    | (with_reducible first | apply sendCtl_kept | apply stagedCopy_kept | apply t1Record_kept)
    | (with_reducible refine foldl_kept (fun _ _ _ => ?_) _ ?_)
    | (with_reducible apply Kept.of; dsimp only)
    | (with_reducible apply Kept.core)
    | split

theorem stagedReject_kept {x : Snap} {s : State} (hk : Kept z s) : Kept z (stagedReject x s) := by
  unfold stagedReject; with_reducible repeat'
    first | assumption | apply report_kept | apply sendCtl_kept | (apply Kept.of; dsimp only) | apply Kept.core

theorem t1TransferDone_kept {ok : Bool} {x : SnapIn} {s : State} (hk : Kept z s) : Kept z (t1TransferDone ok x s) := by
  unfold t1TransferDone
  repeat' first
    | with_reducible assumption
    | (with_reducible first | apply stagedApply_kept | apply stagedReject_kept | apply t1Record_kept)
    | (with_reducible refine ite_kept (fun _ => ?_) (fun _ => ?_))
    | (with_reducible apply Kept.of; dsimp only)
    | (with_reducible apply Kept.core)

theorem holdBegin_kept {m : Member} {s : State} (hk : Kept z s) : Kept z (holdBegin m s) := by
  unfold holdBegin; with_reducible repeat'
    first | assumption | apply setFld_kept | (apply Kept.of; dsimp only) | apply Kept.core | split

theorem holdEnd_kept {m : Member} {s : State} (hk : Kept z s) : Kept z (holdEnd m s) := by
  unfold holdEnd; with_reducible repeat'
    first | assumption | apply setFld_kept | apply iteK | (apply Kept.of; dsimp only) | apply Kept.core

theorem arcWin_kept  {s : State} (hk : Kept z s) : Kept z (arcWin s) := by
  unfold arcWin; with_reducible repeat' first | assumption | apply setFld_kept | split

theorem arcEnable_kept  {s : State} (hk : Kept z s) : Kept z (arcEnable s) := by
  unfold arcEnable; with_reducible repeat'
    first | assumption | apply arcWin_kept | apply report_kept | apply setFld_kept | apply iteK

theorem sealRecord_kept {slot : Nat} {leafA running : Bool} {s : State} (hk : Kept z s) : Kept z (sealRecord slot leafA running s) := by
  unfold sealRecord; with_reducible repeat' first | assumption | apply jnlPut_kept

theorem sealAbandon_kept  {s : State} (hk : Kept z s) : Kept z (sealAbandon s) := by
  unfold sealAbandon
  repeat' first
    | with_reducible assumption
    | (with_reducible first | apply addFld_kept | apply cutClearAll_kept | apply listEnd_kept | apply report_kept | apply sealRecord_kept | apply setFld_kept)
    | (with_reducible refine ite_kept (fun _ => ?_) (fun _ => ?_))
    | (with_reducible apply Kept.of; dsimp only)
    | (with_reducible apply Kept.core)
    | split

theorem sealStart_kept {x : Snap} {s : State} (hk : Kept z s) : Kept z (sealStart x s) := by
  unfold sealStart; with_reducible repeat'
    first | assumption | apply listStart_kept | apply setFld_kept | (apply Kept.of; dsimp only) | apply Kept.core

theorem sealIssue_kept {job : Nat × Bool × Nat} {c : NvmeCmd} {s : State} (hk : Kept z s) : Kept z (sealIssue job c s) := hk

theorem sealStep_kept  {s : State} (hk : Kept z s) : Kept z (sealStep s) := by
  unfold sealStep
  repeat' first
    | with_reducible assumption
    | (with_reducible first | apply addFld_kept | apply listEnd_kept | apply retainAll_kept | apply sealAbandon_kept | apply sealIssue_kept | apply sealRecord_kept | apply setFld_kept | apply setNs_kept)
    | (with_reducible refine snapStat_kept (fun _ _ => ?_) ?_)
    | (with_reducible refine ite_kept (fun _ => ?_) (fun _ => ?_))
    | (with_reducible apply Kept.of; dsimp only)
    | (with_reducible apply Kept.core)
    | split

theorem sealWritten_kept {slot : Nat} {leafA : Bool} {stage : Nat} {c : NvmeCmd} {x : Snap} {s : State} (hk : Kept z s) : Kept z (sealWritten slot leafA stage c x s) := by
  unfold sealWritten
  repeat' first
    | with_reducible assumption
    | (with_reducible first | apply arcWin_kept | apply cutClear_kept | apply setNs_kept)
    | (with_reducible refine foldl_kept (fun _ _ _ => ?_) _ ?_)
    | (with_reducible apply Kept.of; dsimp only)
    | (with_reducible apply Kept.core)
    | split

theorem sealCompletion_kept  {s : State} (hk : Kept z s) : Kept z (sealCompletion s) := by
  unfold sealCompletion; with_reducible repeat'
    first | assumption | apply sealWritten_kept | (apply Kept.of; dsimp only) | apply Kept.core | split

theorem arcInbound_kept {r : ArcReq} {s : State} (hk : Kept z s) : Kept z (arcInbound s r) := by
  unfold arcInbound
  repeat' first
    | with_reducible assumption
    | (with_reducible first | apply hbmPut_kept | apply report_kept)
    | (with_reducible refine ite_kept (fun _ => ?_) (fun _ => ?_))
    | (with_reducible apply Kept.of; dsimp only)
    | (with_reducible apply Kept.core)
    | split

theorem nvmeCompletion_kept {ok : Bool} {reqs : List ArcReq} {s : State} (hk : Kept z s) : Kept z (nvmeCompletion ok reqs s) := by
  unfold nvmeCompletion
  repeat' first
    | with_reducible assumption
    | (with_reducible first | apply addFld_kept | apply arcInbound_kept | apply report_kept | apply sealAbandon_kept | apply sealCompletion_kept)
    | (with_reducible refine foldl_kept (fun _ _ _ => ?_) _ ?_)
    | (with_reducible refine ite_kept (fun _ => ?_) (fun _ => ?_))

theorem archiveDown_kept  {s : State} (hk : Kept z s) : Kept z (archiveDown s) := by
  unfold archiveDown
  repeat' first
    | with_reducible assumption
    | (with_reducible first | apply report_kept | apply sealAbandon_kept | apply setFld_kept)
    | (with_reducible refine ite_kept (fun _ => ?_) (fun _ => ?_))
    | (with_reducible apply Kept.of; dsimp only)
    | (with_reducible apply Kept.core)

theorem arcRetrain_kept  {s : State} (hk : Kept z s) : Kept z (arcRetrain s) := by
  unfold arcRetrain; with_reducible repeat'
    first | assumption | apply iteK | (apply Kept.of; dsimp only) | apply Kept.core

theorem cutAccept_kept {r : CutReq} {s : State} (hk : Kept z s) : Kept z (cutAccept r s) := by
  unfold cutAccept; with_reducible repeat'
    first | assumption | apply setFld_kept | (apply Kept.of; dsimp only) | apply Kept.core

theorem cutRefuse_kept {r : CutReq} {s : State} (hk : Kept z s) : Kept z (cutRefuse r s) := by
  unfold cutRefuse; with_reducible repeat' first | assumption | apply report_kept

theorem cutDisplace_kept {r : CutReq} {s : State} (hk : Kept z s) : Kept z (cutDisplace r s) := by
  unfold cutDisplace
  repeat' first
    | with_reducible assumption
    | (with_reducible first | apply sealAbandon_kept | apply t1Abandon_kept)
    | (with_reducible refine ite_kept (fun _ => ?_) (fun _ => ?_))
    | (with_reducible apply Kept.of; dsimp only)
    | (with_reducible apply Kept.core)

theorem cutStat_kept {r : CutReq} {p1 p2 : Bool} {s : State} (hk : Kept z s) : Kept z (cutStat r p1 p2 s) := by
  unfold cutStat; with_reducible repeat'
    first | assumption | apply report_kept | apply setFld_kept | refine snapStat_kept (fun _ _ => ?_) ?_ | apply iteK

theorem cutRecord_kept {x : Snap} {r : CutReq} {p1 p2 : Bool} {s : State} (hk : Kept z s) : Kept z (cutRecord x r p1 p2 s) := by
  unfold cutRecord
  repeat' first
    | with_reducible assumption
    | (with_reducible first | apply cutMark_kept | apply latStat_kept | apply setFld_kept)
    | (with_reducible refine snapStat_kept (fun _ _ => ?_) ?_)
    | (with_reducible refine foldl_kept (fun _ _ _ => ?_) _ ?_)
    | (with_reducible apply Kept.of; dsimp only)
    | (with_reducible apply Kept.core)

theorem cutSend_kept {x : Snap} {p1 p2 : Bool} {s : State} (hk : Kept z s) : Kept z (cutSend x p1 p2 s) := by
  unfold cutSend
  repeat' first
    | with_reducible assumption
    | (with_reducible first | apply listStart_kept | apply sealStart_kept)
    | (with_reducible refine ite_kept (fun _ => ?_) (fun _ => ?_))
    | (with_reducible apply Kept.of; dsimp only)
    | (with_reducible apply Kept.core)

theorem takeCut_kept {r : CutReq} {s : State} (hk : Kept z s) : Kept z (takeCut r s) := by
  unfold takeCut
  repeat' first
    | with_reducible assumption
    | (with_reducible first | apply cutDisplace_kept | apply cutRecord_kept | apply cutSend_kept | apply cutStat_kept)
    | (with_reducible apply Kept.of; dsimp only)
    | (with_reducible apply Kept.core)
    | split

theorem tierAbandon_kept  {s : State} (hk : Kept z s) {t : State} (e : tierAbandon s = some t) : Kept z t := by
  unfold tierAbandon at e
  try dsimp only at e
  repeat' split at e
  all_goals first
    | (cases e; done)
    | (obtain rfl := Option.some.inj e
       repeat' first
         | with_reducible assumption
         | (with_reducible first | apply sealAbandon_kept | apply t1Abandon_kept)
       done)

/-! ### StepRows -/

theorem desigFlood_kept {c : Ctl} {s : State} (hk : Kept z s) : Kept z (desigFlood c s) := by
  unfold desigFlood; with_reducible repeat'
    first | assumption | apply floodCtl_kept | (apply Kept.of; dsimp only) | apply Kept.core

theorem designate_kept {c : Ctl} {s : State} (hk : Kept z s) : Kept z (designate c s) := by
  unfold designate; with_reducible repeat'
    first | assumption | apply desigFlood_kept | apply sendChildren_kept | apply iteK

theorem passOn_kept {c : Ctl} {s : State} (hk : Kept z s) : Kept z (passOn c s) := by
  unfold passOn; with_reducible repeat'
    first | assumption | apply desigFlood_kept | apply sendChildren_kept | apply takeCtl_kept | apply iteK

theorem desigOnce_kept {c : Ctl} {s t : State} (hk : Kept z s) (ht : Kept z t) : Kept z (desigOnce c s t) := by
  unfold desigOnce; with_reducible repeat'
    first | assumption | apply takeCtl_kept | apply iteK

theorem postWrite_kept  {s : State} (hk : Kept z s) : Kept z (postWrite s) := by
  unfold postWrite
  repeat' first
    | with_reducible assumption
    | with_reducible apply hbmPut_kept
    | (with_reducible refine foldl_kept (fun _ _ _ => ?_) _ ?_)
    | (with_reducible refine ite_kept (fun _ => ?_) (fun _ => ?_))
    | (with_reducible apply Kept.of; dsimp only)
    | (with_reducible apply Kept.core)
    | split

theorem postsCommit_kept  {s : State} (hk : Kept z s) : Kept z (postsCommit s) := by
  unfold postsCommit
  repeat' first
    | with_reducible assumption
    | (with_reducible first | apply completeTicket_kept | apply postWrite_kept)
    | (with_reducible refine foldl_kept (fun _ _ _ => ?_) _ ?_)
    | (with_reducible apply Kept.of; dsimp only)
    | (with_reducible apply Kept.core)
    | split

theorem ceFence_kept  {s : State} (hk : Kept z s) : Kept z (ceFence s) := by
  unfold ceFence
  repeat' first
    | with_reducible assumption
    | (with_reducible first | apply fenceOff_kept | apply replace_kept)
    | (with_reducible refine foldl_kept (fun _ _ _ => ?_) _ ?_)
    | (with_reducible refine ite_kept (fun _ => ?_) (fun _ => ?_))
    | (with_reducible apply Kept.of; dsimp only)
    | (with_reducible apply Kept.core)

theorem openGap_kept  {s : State} (hk : Kept z s) : Kept z (openGap s) := by
  unfold openGap; with_reducible repeat' first | assumption | apply applyMoves_kept | apply openNext_kept | apply iteK

theorem portOwed_kept {n : Nat} {s : State} (hk : Kept z s) : Kept z (portOwed s n) := by
  unfold portOwed; with_reducible repeat'
    first | assumption | apply modPort_kept | apply portBringup_kept | apply iteK

theorem knuckleRetrain_kept {i : Nat} {s : State} (hk : Kept z s) : Kept z (knuckleRetrain s i) := by
  unfold knuckleRetrain; with_reducible repeat'
    first | assumption | apply fenceDie_kept | apply iteK | (apply Kept.of; dsimp only) | apply Kept.core | split

theorem portsOwed_kept  {s : State} (hk : Kept z s) : Kept z (portsOwed s) := by
  unfold portsOwed
  repeat' first
    | with_reducible assumption
    | (with_reducible first | apply knuckleRetrain_kept | apply portOwed_kept)
    | (with_reducible refine foldl_kept (fun _ _ _ => ?_) _ ?_)
    | (with_reducible refine ite_kept (fun _ => ?_) (fun _ => ?_))

theorem storesLanded_kept  {s : State} (hk : Kept z s) : Kept z (storesLanded s) := by
  unfold storesLanded; with_reducible repeat' first | assumption | apply modAllL_kept

theorem commitDo_kept  {s : State} (hk : Kept z s) : Kept z (commitDo s) := by
  unfold commitDo
  repeat' first
    | with_reducible assumption
    | (with_reducible first | apply ceFence_kept | apply commitCore_kept | apply heldAcks_kept | apply imageEnd_kept | apply openGap_kept | apply portsOwed_kept | apply postsCommit_kept | apply programFlood_kept | apply pumpAll_kept | apply stacksOut_kept | apply storesLanded_kept | apply takeCut_kept)
    | (with_reducible apply Kept.of; dsimp only)
    | (with_reducible apply Kept.core)
    | split

theorem execCommitBoundary_kept  {s : State} (hk : Kept z s) : KeptOut z (execCommitBoundary s) := by
  unfold execCommitBoundary; with_reducible repeat'
    first | assumption | apply liveNext_kept | apply commitDo_kept | apply iteK

theorem readyVote_kept  {s : State} (hk : Kept z s) : Kept z (readyVote s) := by
  unfold readyVote; with_reducible repeat'
    first | assumption | apply sendRoot_kept | apply setStepState_kept | apply iteK

theorem execReadyVote_kept  {s : State} (hk : Kept z s) : KeptOut z (execReadyVote s) := by
  unfold execReadyVote; with_reducible repeat' first | assumption | apply liveNext_kept | apply readyVote_kept

theorem commitTake_kept {d : Designation} {s : State} (hk : Kept z s) : Kept z (commitTake d s) := by
  unfold commitTake
  repeat' first
    | with_reducible assumption
    | (with_reducible first | apply addFld_kept | apply commitDo_kept | apply report_kept)
    | (with_reducible refine ite_kept (fun _ => ?_) (fun _ => ?_))
    | (with_reducible apply Kept.of; dsimp only)
    | (with_reducible apply Kept.core)

theorem tally_kept  {s : State} (hk : Kept z s) : Kept z (tally s) := by
  unfold tally
  repeat' first
    | with_reducible assumption
    | (with_reducible first | apply commitTake_kept | apply designate_kept)
    | (with_reducible refine ite_kept (fun _ => ?_) (fun _ => ?_))
    | (with_reducible apply Kept.of; dsimp only)
    | (with_reducible apply Kept.core)

theorem voteReceived_kept {m : MemberMsg} {s : State} (hk : Kept z s) : Kept z (voteReceived m s) := by
  unfold voteReceived
  repeat' first
    | with_reducible assumption
    | (with_reducible first | apply takeCtl_kept | apply tally_kept)
    | (with_reducible refine ite_kept (fun _ => ?_) (fun _ => ?_))
    | (with_reducible apply Kept.of; dsimp only)
    | (with_reducible apply Kept.core)

theorem execReadyVoteReceived_kept {m : MemberMsg} {s : State} (hk : Kept z s) : KeptOut z (execReadyVoteReceived m s) := by
  unfold execReadyVoteReceived; with_reducible repeat'
    first | assumption | apply liveNext_kept | apply ordered_kept | apply voteReceived_kept

theorem commitDesignation_kept {d : Designation} {s : State} (hk : Kept z s) : Kept z (commitDesignation d s) := by
  unfold commitDesignation; with_reducible repeat'
    first | assumption | apply commitTake_kept | apply passOn_kept | apply takeCtl_kept | apply iteK

theorem execCommitDesignation_kept {d : Designation} {s : State} (hk : Kept z s) : KeptOut z (execCommitDesignation d s) := by
  unfold execCommitDesignation; with_reducible repeat'
    first | assumption | apply liveNext_kept | apply commitDesignation_kept | apply ordered_kept

theorem execStepOpens_kept  {s : State} (hk : Kept z s) : KeptOut z (execStepOpens s) := by
  unfold execStepOpens
  repeat' first
    | with_reducible assumption
    | (with_reducible apply liveNext_kept)
    | (with_reducible first | apply applyMoves_kept | apply openTry_kept | apply pumpAll_kept)
    | (with_reducible refine ite_kept (fun _ => ?_) (fun _ => ?_))

theorem poolAbandon_kept {n : Nat} {s : State} (h : Kept z s) : Kept z (poolAbandon n s) := by
  induction n generalizing s with
  | zero => exact openTry_kept h
  | succ n ih =>
    unfold poolAbandon
    refine ite_kept (fun _ => ?_) fun _ => openTry_kept h
    split
    · rename_i ht; exact ih (tierAbandon_kept h ht)
    · exact openTry_kept h

theorem execPoolWaitExpiry_kept {s : State} (h : Kept z s) : KeptOut z (execPoolWaitExpiry s) :=
  liveNext_kept h (ite_kept (fun _ => pumpAll_kept (poolAbandon_kept h)) fun _ => h)

theorem contributionDeadline_kept {id : BitVec 32} {s : State} (hk : Kept z s) : Kept z (contributionDeadline id s) := by
  unfold contributionDeadline
  repeat' first
    | with_reducible assumption
    | (with_reducible first | apply report_kept | apply sendRoot_kept)
    | (with_reducible refine ite_kept (fun _ => ?_) (fun _ => ?_))
    | (with_reducible apply Kept.of; dsimp only)
    | (with_reducible apply Kept.core)
    | split

theorem ackNote_kept {m : KindMsg} {s : State} (hk : Kept z s) : Kept z (ackNote m s) := by
  unfold ackNote; with_reducible repeat'
    first | assumption | apply iteK | (apply Kept.of; dsimp only) | apply Kept.core

theorem deadlineReport_kept {m : KindMsg} {s : State} (hk : Kept z s) : Kept z (deadlineReport m s) := by
  unfold deadlineReport; with_reducible repeat'
    first | assumption | apply abortHere_kept | apply ackNote_kept | apply takeCtl_kept | apply iteK

theorem execDeadlineReport_kept {m : KindMsg} {s : State} (hk : Kept z s) : KeptOut z (execDeadlineReport m s) := by
  unfold execDeadlineReport; with_reducible repeat'
    first | assumption | apply liveNext_kept | apply deadlineReport_kept | apply ordered_kept

theorem abortRequest_kept {m : AbortMsg} {s : State} (hk : Kept z s) : Kept z (abortRequest m s) := by
  unfold abortRequest; with_reducible repeat'
    first | assumption | apply abortHere_kept | apply takeCtl_kept | apply iteK

theorem execAbortRequest_kept {m : AbortMsg} {s : State} (hk : Kept z s) : KeptOut z (execAbortRequest m s) := by
  unfold execAbortRequest; with_reducible repeat'
    first | assumption | apply liveNext_kept | apply abortRequest_kept | apply ordered_kept

theorem faultAtCommit_kept {m : AbortMsg} {s : State} (hk : Kept z s) : Kept z (faultAtCommit m s) := hk

theorem stepAbort_kept {m : AbortMsg} {s : State} (hk : Kept z s) : Kept z (stepAbort m s) := by
  unfold stepAbort
  repeat' first
    | with_reducible assumption
    | (with_reducible first | apply abortFlood_kept | apply abortHere_kept | apply addFld_kept | apply faultAtCommit_kept | apply takeCtl_kept)
    | (with_reducible refine ite_kept (fun _ => ?_) (fun _ => ?_))

theorem execStepAbort_kept {m : AbortMsg} {s : State} (hk : Kept z s) : KeptOut z (execStepAbort m s) := by
  unfold execStepAbort; with_reducible repeat'
    first | assumption | apply liveNext_kept | apply ordered_kept | apply stepAbort_kept

theorem execAbortAcknowledgement_kept {m : KindMsg} {s : State} (hk : Kept z s) : KeptOut z (execAbortAcknowledgement m s) := by
  unfold execAbortAcknowledgement; with_reducible repeat'
    first | assumption | apply liveNext_kept | apply ackNote_kept | apply ordered_kept | apply takeCtl_kept

theorem execLatchRestore_kept  {s : State} (hk : Kept z s) : KeptOut z (execLatchRestore s) := by
  unfold execLatchRestore
  repeat' first
    | with_reducible assumption
    | (with_reducible apply liveNext_kept)
    | with_reducible apply latWriteBack_kept
    | (with_reducible refine ite_kept (fun _ => ?_) (fun _ => ?_))
    | (with_reducible apply Kept.of; dsimp only)
    | (with_reducible apply Kept.core)

theorem restartSaved_kept {ci : Nat} {s : State} (hk : Kept z s) : Kept z (restartSaved s ci) := by
  unfold restartSaved
  repeat' first
    | with_reducible assumption
    | (with_reducible first | apply forgetRange_kept | apply setL_kept)
    | (with_reducible refine ite_kept (fun _ => ?_) (fun _ => ?_))
    | (with_reducible apply Kept.of; dsimp only)
    | (with_reducible apply Kept.core)
    | split

theorem forgetTransient_kept  {s : State} (hk : Kept z s) : Kept z (forgetTransient s) := by
  unfold forgetTransient
  repeat' first
    | with_reducible assumption
    | with_reducible apply forgetRange_kept
    | (with_reducible refine foldl_kept (fun _ _ _ => ?_) _ ?_)
    | (with_reducible refine ite_kept (fun _ => ?_) (fun _ => ?_))
    | (with_reducible apply Kept.of; dsimp only)
    | (with_reducible apply Kept.core)
    | split

theorem repeatOpen_kept {attempt frame : Nat} {late : Bool} {s : State} (hk : Kept z s) : Kept z (repeatOpen attempt frame late s) := by
  unfold repeatOpen
  repeat' first
    | with_reducible assumption
    | (with_reducible first | apply applyMoves_kept | apply assignUnits_kept | apply forgetTransient_kept | apply pumpAll_kept | apply report_kept | apply restartSaved_kept | apply setStepState_kept)
    | (with_reducible refine foldl_kept (fun _ _ _ => ?_) _ ?_)
    | (with_reducible refine ite_kept (fun _ => ?_) (fun _ => ?_))
    | (with_reducible apply Kept.of; dsimp only)
    | (with_reducible apply Kept.core)

theorem execRepeatOpen_kept  {s : State} (hk : Kept z s) : KeptOut z (execRepeatOpen s) := by
  unfold execRepeatOpen
  repeat' first
    | with_reducible assumption
    | (with_reducible apply liveNext_kept)
    | (with_reducible first | apply openTry_kept | apply pumpAll_kept | apply repeatOpen_kept)
    | (with_reducible refine ite_kept (fun _ => ?_) (fun _ => ?_))
    | split

theorem restoreEnd_kept  {s : State} (hk : Kept z s) : Kept z (restoreEnd s) := by
  unfold restoreEnd; with_reducible repeat'
    first | assumption | apply setStepState_kept | (apply Kept.of; dsimp only) | apply Kept.core

theorem latchRestoreDone_kept  {s : State} (hk : Kept z s) : Kept z (latchRestoreDone s) := by
  unfold latchRestoreDone; with_reducible repeat'
    first | assumption | apply repeatOpen_kept | apply restoreEnd_kept | apply iteK | split

theorem execLatchRestoreDone_kept  {s : State} (hk : Kept z s) : KeptOut z (execLatchRestoreDone s) := by
  unfold execLatchRestoreDone; with_reducible repeat'
    first | assumption | apply liveNext_kept | apply latchRestoreDone_kept

theorem escalate_kept {ms : List Member} {s : State} (hk : Kept z s) : Kept z (escalate ms s) := by
  unfold escalate; with_reducible repeat'
    first | assumption | apply declareLost_kept | apply moduleLoss_kept | apply iteK | split

theorem repeatTake_kept {d : Designation} {s : State} (hk : Kept z s) : Kept z (repeatTake d s) := by
  unfold repeatTake
  repeat' first
    | with_reducible assumption
    | (with_reducible first | apply abortHere_kept | apply escalate_kept | apply repeatOpen_kept)
    | (with_reducible refine ite_kept (fun _ => ?_) (fun _ => ?_))
    | (with_reducible apply Kept.of; dsimp only)
    | (with_reducible apply Kept.core)
    | split

theorem execRepeatDesignation_kept {d : Designation} {s : State} (hk : Kept z s) : KeptOut z (execRepeatDesignation d s) := by
  unfold execRepeatDesignation; with_reducible repeat'
    first | assumption | apply liveNext_kept | apply ordered_kept | apply desigOnce_kept | apply passOn_kept | apply repeatTake_kept

theorem escalateNote_kept {m : Member} {s : State} (hk : Kept z s) : Kept z (escalateNote s m) := by
  unfold escalateNote; with_reducible repeat'
    first | assumption | apply addFld_kept | apply report_kept | apply setFld_kept | apply iteK

theorem collectionClose_kept  {s : State} (hk : Kept z s) : Kept z (collectionClose s) := by
  unfold collectionClose
  repeat' first
    | with_reducible assumption
    | (with_reducible first | apply designate_kept | apply escalateNote_kept | apply repeatTake_kept)
    | (with_reducible refine foldl_kept (fun _ _ _ => ?_) _ ?_)
    | (with_reducible refine ite_kept (fun _ => ?_) (fun _ => ?_))
    | (with_reducible apply Kept.of; dsimp only)
    | (with_reducible apply Kept.core)
    | split

theorem execCollectionClose_kept  {s : State} (hk : Kept z s) : KeptOut z (execCollectionClose s) := by
  unfold execCollectionClose; with_reducible repeat'
    first | assumption | apply liveNext_kept | apply collectionClose_kept

theorem recoveryHold_kept {m : MemberMsg} {s : State} (hk : Kept z s) : Kept z (recoveryHold m s) := by
  unfold recoveryHold
  repeat' first
    | with_reducible assumption
    | (with_reducible first | apply designate_kept | apply takeCtl_kept)
    | (with_reducible refine ite_kept (fun _ => ?_) (fun _ => ?_))
    | (with_reducible apply Kept.of; dsimp only)
    | (with_reducible apply Kept.core)
    | split

theorem execRecoveryHold_kept {m : MemberMsg} {s : State} (hk : Kept z s) : KeptOut z (execRecoveryHold m s) := by
  unfold execRecoveryHold; with_reducible repeat'
    first | assumption | apply liveNext_kept | apply ordered_kept | apply recoveryHold_kept

theorem rootBack_kept  {s : State} (hk : Kept z s) : Kept z (rootBack s) := hk

theorem resumeTake_kept {d : Designation} {s : State} (hk : Kept z s) : Kept z (resumeTake d s) := by
  unfold resumeTake; with_reducible repeat'
    first | assumption | apply rootBack_kept | apply iteK | (apply Kept.of; dsimp only) | apply Kept.core | split

theorem recoveryRelease_kept {m : MemberMsg} {s : State} (hk : Kept z s) : Kept z (recoveryRelease m s) := by
  unfold recoveryRelease
  repeat' first
    | with_reducible assumption
    | (with_reducible first | apply designate_kept | apply resumeTake_kept | apply takeCtl_kept)
    | (with_reducible refine ite_kept (fun _ => ?_) (fun _ => ?_))
    | (with_reducible apply Kept.of; dsimp only)
    | (with_reducible apply Kept.core)
    | split

theorem execRecoveryRelease_kept {m : MemberMsg} {s : State} (hk : Kept z s) : KeptOut z (execRecoveryRelease m s) := by
  unfold execRecoveryRelease; with_reducible repeat'
    first | assumption | apply liveNext_kept | apply ordered_kept | apply recoveryRelease_kept

theorem execResumeDesignation_kept {d : Designation} {s : State} (hk : Kept z s) : KeptOut z (execResumeDesignation d s) := by
  unfold execResumeDesignation; with_reducible repeat'
    first | assumption | apply liveNext_kept | apply ordered_kept | apply desigOnce_kept | apply passOn_kept | apply resumeTake_kept

theorem execFirstTouch_kept {addr : Nat} {data : List Byte} {path : WritePath} {s : State} (hk : Kept z s) : KeptOut z (execFirstTouch addr data path s) := by
  unfold execFirstTouch; with_reducible repeat'
    first | assumption | apply liveNext_kept | apply hbmWrite_kept | apply iteK

theorem execLatchCopyDone_kept {d : Fin 8} {granule : Nat} {s : State} (hk : Kept z s) : KeptOut z (execLatchCopyDone d granule s) := by
  unfold execLatchCopyDone
  repeat' first
    | with_reducible assumption
    | (with_reducible apply liveNext_kept)
    | (with_reducible first | apply copyDone_kept | apply heldAcks_kept | apply pumpAll_kept | apply redRetry_kept | apply storesLanded_kept)
    | (with_reducible refine ite_kept (fun _ => ?_) (fun _ => ?_))
    | (with_reducible apply Kept.of; dsimp only)
    | (with_reducible apply Kept.core)
    | split

theorem latCut_kept {v : Word} {s : State} (hk : Kept z s) : Kept z (latCut v s) := by
  unfold latCut
  repeat' first
    | with_reducible assumption
    | (with_reducible first | apply cutAccept_kept | apply cutRefuse_kept | apply floodCtl_kept)
    | (with_reducible refine ite_kept (fun _ => ?_) (fun _ => ?_))
    | (with_reducible apply Kept.of; dsimp only)
    | (with_reducible apply Kept.core)

theorem execLatCut_kept {value : Word} {s : State} (hk : Kept z s) : KeptOut z (execLatCut value s) := by
  unfold execLatCut; with_reducible repeat' first | assumption | apply liveNext_kept | apply latCut_kept

theorem cutRequest_kept {r : CutReq} {s : State} (hk : Kept z s) : Kept z (cutRequest r s) := by
  unfold cutRequest
  repeat' first
    | with_reducible assumption
    | (with_reducible first | apply cutAccept_kept | apply cutRefuse_kept | apply floodCtl_kept | apply takeCtl_kept)
    | (with_reducible refine ite_kept (fun _ => ?_) (fun _ => ?_))
    | (with_reducible apply Kept.of; dsimp only)
    | (with_reducible apply Kept.core)

theorem execCutRequest_kept {r : CutReq} {s : State} (hk : Kept z s) : KeptOut z (execCutRequest r s) := by
  unfold execCutRequest; with_reducible repeat'
    first | assumption | apply liveNext_kept | apply cutRequest_kept | apply ordered_kept

theorem execTier1TransferDone_kept {hashesOk : Bool} {snap : SnapIn} {s : State} (hk : Kept z s) : KeptOut z (execTier1TransferDone hashesOk snap s) := by
  unfold execTier1TransferDone; with_reducible repeat'
    first | assumption | apply liveNext_kept | apply t1TransferDone_kept

theorem execTier1Completion_kept {id : BitVec 32} {s : State} (hk : Kept z s) : KeptOut z (execTier1Completion id s) := by
  unfold execTier1Completion; with_reducible repeat'
    first | assumption | apply liveNext_kept | apply ordered_kept | apply t1Answer_kept

theorem execArchiveLinkDown_kept  {s : State} (hk : Kept z s) : KeptOut z (execArchiveLinkDown s) := by
  unfold execArchiveLinkDown; with_reducible repeat' first | assumption | apply liveNext_kept | apply archiveDown_kept

theorem execNvmeCompletion_kept {e : NvmeEnd} {s : State} (hk : Kept z s) : KeptOut z (execNvmeCompletion e s) := by
  unfold execNvmeCompletion; with_reducible repeat'
    first | assumption | apply liveNext_kept | apply nvmeCompletion_kept

theorem execArchiveLinkUp_kept {controllers : Nat} {found : List NsInfo} {reqs : List ArcReq} {s : State} (hk : Kept z s) :
    KeptOut z (execArchiveLinkUp controllers found reqs s) := by
  unfold execArchiveLinkUp
  repeat' first
    | with_reducible assumption
    | (with_reducible apply liveNext_kept)
    | (with_reducible first | apply arcEnable_kept | apply arcInbound_kept | apply setFld_kept)
    | (with_reducible refine foldl_kept (fun _ _ _ => ?_) _ ?_)
    | (with_reducible refine ite_kept (fun _ => ?_) (fun _ => ?_))
    | (with_reducible apply Kept.of; dsimp only)
    | (with_reducible apply Kept.core)

end Sys2Proof.Machine
end

