-- ==== Sys2Proof/Laws/KeptHost.lean ====
section
/-! SUPPORT. The commands keep the queue, the fuses and the canonical forms (`Kept`): one lemma for each definition of
the loader, tickets, hosts, peers, power and change sets. -/
namespace Sys2Proof.Machine

set_option linter.unusedTactic false
set_option linter.unreachableTactic false

variable {z : State}

/-! ### SecOps -/

theorem selWrite_kept {slot : Nat} {header : List Byte} {s : State} (hk : Kept z s) : Kept z (selWrite slot header s) := hk

theorem secCode_kept {c : Code} {s : State} (hk : Kept z s) : Kept z (secCode c s) := by
  unfold secCode; with_reducible repeat' first | assumption | apply setFld_kept | apply iteK

theorem logAppend_kept {kind level : Nat} {subject : Word} {hash : List Byte} {s : State} (hk : Kept z s) : Kept z (logAppend kind level subject hash s) := by
  unfold logAppend; with_reducible repeat'
    first | assumption | apply setFld_kept | (apply Kept.of; dsimp only) | apply Kept.core

theorem bootRun_kept {slot : Nat} {fallback : Bool} {s : State} (hk : Kept z s) : Kept z (bootRun slot fallback s) := by
  unfold bootRun; with_reducible repeat'
    first | assumption | apply setFld_kept | apply setReg_kept | (apply Kept.of; dsimp only) | apply Kept.core | split

theorem bootRecovery_kept  {s : State} (hk : Kept z s) : Kept z (bootRecovery s) := by
  unfold bootRecovery
  repeat' first
    | with_reducible assumption
    | (with_reducible first | apply report_kept | apply secCode_kept | apply setFld_kept)
    | (with_reducible apply Kept.of; dsimp only)
    | (with_reducible apply Kept.core)

theorem boot_kept  {s : State} (hk : Kept z s) : Kept z (boot s) := by
  unfold boot
  repeat' first
    | with_reducible assumption
    | (with_reducible first | apply bootRecovery_kept | apply bootRun_kept | apply report_kept | apply secCode_kept)
    | (with_reducible refine ite_kept (fun _ => ?_) (fun _ => ?_))

/-! ### Loader -/

theorem loadData_wf {a : Nat} {ss : List Sect} {m : Mem} (hk : Memory.wf m = true) : Memory.wf (loadData m a ss) = true := by
  unfold loadData; with_reducible repeat'
    first | assumption | apply copy_wf | refine foldl_wf (fun _ _ _ => ?_) _ ?_ | split

theorem memRestore_wf {x : Snap} {m : Mem} (hk : Memory.wf m = true) : Memory.wf (memRestore x m) = true := by
  unfold memRestore; with_reducible repeat'
    first | assumption | apply zero_wf | apply place_wf | refine foldl_wf (fun _ _ _ => ?_) _ ?_

theorem quadDomains_kept  {s : State} (hk : Kept z s) : Kept z (quadDomains s) := by
  unfold quadDomains; with_reducible repeat'
    first | assumption | apply domSwitch_kept | refine foldl_kept (fun _ _ _ => ?_) _ ?_ | apply iteK

theorem coreMemory_kept {t : Ticket} {l : LCore} {s : State} (hk : Kept z s) : Kept z (coreMemory t s l) := by
  unfold coreMemory
  repeat' first
    | with_reducible assumption
    | with_reducible apply hbmPut_kept
    | (with_reducible apply Kept.of; dsimp only)
    | (with_reducible apply Kept.setMem)
    | (with_reducible refine fun _ => ?_)
    | (with_reducible apply zero_wf)

theorem loadRegs_kept {p : Plan} {t : Ticket} {s : State} (hk : Kept z s) : Kept z (loadRegs p t s) := by
  unfold loadRegs; with_reducible repeat'
    first | assumption | apply setFld_kept | refine foldl_kept (fun _ _ _ => ?_) _ ?_ | apply iteK

theorem imageStart_kept {p : Plan} {t : Ticket} {r : Option Restored} {s : State} (hk : Kept z s) : Kept z (imageStart p t r s) := by
  unfold imageStart
  repeat' first
    | with_reducible assumption
    | (with_reducible first | apply addFld_kept | apply assignUnits_kept | apply coreMemory_kept | apply hbmPut_kept | apply latClear_kept | apply loadRegs_kept | apply logAppend_kept | apply placeResident_kept | apply postWrite_kept | apply quadDomains_kept | apply report_kept | apply sealAbandon_kept | apply stepIdle_kept | apply t1Abandon_kept)
    | (with_reducible refine foldl_kept (fun _ _ _ => ?_) _ ?_)
    | (with_reducible refine ite_kept (fun _ => ?_) (fun _ => ?_))
    | (with_reducible apply Kept.of; dsimp only)
    | (with_reducible apply Kept.core)
    | (with_reducible apply Kept.setMem)
    | (with_reducible refine fun _ => ?_)
    | (with_reducible apply memRestore_wf)
    | split

theorem loadTry_kept {q : Nat} {seq : Word} {t : Ticket} {cands : Option (List Snap)} {id : Option (BitVec 32)} {s s' : State}
    (h : Kept z s) (e : loadTry q seq t cands id s = .ok s') : Kept z s' := by
  unfold loadTry at e
  split at e
  · cases e
  · split at e
    · obtain rfl := Except.ok.inj e; with_reducible exact imageStart_kept h
    · split at e
      · cases e
      · obtain rfl := Except.ok.inj e; with_reducible exact imageStart_kept h

theorem loadRecord_kept {c : Code} {s : State} (hk : Kept z s) : Kept z (loadRecord c s) := by
  unfold loadRecord; with_reducible repeat' first | assumption | apply report_kept | apply iteK

theorem loadFails_kept {q : Nat} {seq : Word} {c : Code} {s : State} (hk : Kept z s) : Kept z (loadFails q seq c s) := by
  unfold loadFails; with_reducible repeat' first | assumption | apply completeTicket_kept | apply loadRecord_kept

theorem loadRun_kept {q : Nat} {seq : Word} {t : Ticket} {cands : Option (List Snap)} {id : Option (BitVec 32)} {s : State}
    (h : Kept z s) : Kept z (loadRun q seq t cands id s) := by
  unfold loadRun
  split
  · rename_i hx; exact loadTry_kept h hx
  · exact loadFails_kept h

/-! ### TktRows -/

theorem sqTail_kept {n q : Nat} {tail : BitVec 8} {slots : List (BitVec 8 × Ticket)} {s : State} (hk : Kept z s) : Kept z (sqTail n q tail slots s) := by
  unfold sqTail; with_reducible repeat' first | assumption | apply modTQ_kept | apply report_kept | apply iteK

theorem execSqTail_kept {n : Fin 2} {q : Fin 32} {tail : BitVec 8} {slots : List (BitVec 8 × Ticket)} {s : State} (hk : Kept z s) : KeptOut z (execSqTail n q tail slots s) := by
  unfold execSqTail; with_reducible repeat' first | assumption | apply liveNext_kept | apply sqTail_kept

theorem tktAccept_kept {q : Nat} {t : Ticket} {mir : Bool} {s : State} (hk : Kept z s) : Kept z (tktAccept q t mir s) := by
  unfold tktAccept
  repeat' first
    | with_reducible assumption
    | (with_reducible first | apply addFld_kept | apply ctlBlock_kept | apply jRetain_kept | apply modTQ_kept | apply post_kept | apply setReg_kept)
    | (with_reducible refine ite_kept (fun _ => ?_) (fun _ => ?_))
    | (with_reducible apply Kept.of; dsimp only)
    | (with_reducible apply Kept.core)
    | split

theorem tktJournal_kept {q : Nat} {t : Ticket} {s : State} (hk : Kept z s) : Kept z (tktJournal q t s) := by
  unfold tktJournal; with_reducible repeat'
    first | assumption | apply jWrite_kept | apply modTQ_kept | apply tktAccept_kept | apply iteK

theorem tktRepeat_kept {q : Nat} {t : Ticket} {s : State} (hk : Kept z s) : Kept z (tktRepeat q t s) := by
  unfold tktRepeat; with_reducible repeat' first | assumption | apply post_kept | apply iteK | split

theorem tktReject_kept {q : Nat} {t : Ticket} {c : Code} {s : State} (hk : Kept z s) : Kept z (tktReject q t c s) := by
  unfold tktReject; with_reducible repeat' first | assumption | apply post_kept

theorem tktTake_kept {q : Nat} {t : Ticket} {s : State} (hk : Kept z s) : Kept z (tktTake q t s) := by
  unfold tktTake; with_reducible repeat'
    first | assumption | apply tktJournal_kept | apply tktReject_kept | apply tktRepeat_kept | apply iteK

theorem ticketRead_kept {q : Nat} {s : State} (hk : Kept z s) : Kept z (ticketRead q s) := by
  unfold ticketRead; with_reducible repeat'
    first | assumption | apply modTQ_kept | apply setFld_kept | apply tktTake_kept | apply iteK

theorem execTicketRead_kept {q : Fin 32} {s : State} (hk : Kept z s) : KeptOut z (execTicketRead q s) := by
  unfold execTicketRead; with_reducible repeat' first | assumption | apply liveNext_kept | apply ticketRead_kept

theorem mirrorEntry_kept {q : Nat} {seq : Word} {t : Ticket} {state : Nat} {status : Code} {s : State} (hk : Kept z s) : Kept z (mirrorEntry q seq t state status s) := by
  unfold mirrorEntry
  repeat' first
    | with_reducible assumption
    | (with_reducible first | apply addFld_kept | apply sendCtl_kept | apply setFld_kept)
    | (with_reducible refine takeInbound_kept ?_ (by with_reducible assumption))
    | (with_reducible refine ite_kept (fun _ => ?_) (fun _ => ?_))
    | (with_reducible apply Kept.of; dsimp only)
    | (with_reducible apply Kept.core)
    | split

theorem execMirrorEntry_kept {q : Fin 32} {seq : Word} {t : Ticket} {state : BitVec 8} {status : BitVec 16} {s : State} (hk : Kept z s) : KeptOut z (execMirrorEntry q seq t state status s) := by
  unfold execMirrorEntry; with_reducible repeat'
    first | assumption | apply liveNext_kept | apply mirrorEntry_kept | apply ordered_kept

theorem mirrorAck_kept {q : Nat} {s : State} (hk : Kept z s) : Kept z (mirrorAck q s) := by
  unfold mirrorAck; with_reducible repeat'
    first | assumption | apply tktAccept_kept | refine takeInbound_kept ?_ (by assumption) | apply iteK | split

theorem execMirrorAck_kept {q : Fin 32} {s : State} (hk : Kept z s) : KeptOut z (execMirrorAck q s) := by
  unfold execMirrorAck; with_reducible repeat'
    first | assumption | apply liveNext_kept | apply mirrorAck_kept | apply ordered_kept

theorem mirrorTimeout_kept {q : Nat} {s : State} (hk : Kept z s) : Kept z (mirrorTimeout q s) := by
  unfold mirrorTimeout; with_reducible repeat'
    first | assumption | apply addFld_kept | apply report_kept | apply tktAccept_kept | apply iteK | split

theorem execMirrorTimeout_kept {q : Fin 32} {s : State} (hk : Kept z s) : KeptOut z (execMirrorTimeout q s) := by
  unfold execMirrorTimeout; with_reducible repeat' first | assumption | apply liveNext_kept | apply mirrorTimeout_kept

theorem tktStart_kept  {s : State} (hk : Kept z s) : Kept z (tktStart s) := hk

theorem adoptStart_kept {q : Nat} {seq : Word} {t : Ticket} {s : State} (hk : Kept z s) : Kept z (adoptStart q seq t s) := by
  unfold adoptStart
  repeat' first
    | with_reducible assumption
    | (with_reducible first | apply listStart_kept | apply loadFails_kept)
    | (with_reducible apply Kept.of; dsimp only)
    | (with_reducible apply Kept.core)
    | split

theorem loadTicket_kept {q : Nat} {seq : Word} {s : State} (hk : Kept z s) : Kept z (loadTicket q seq s) := by
  unfold loadTicket
  repeat' first
    | with_reducible assumption
    | (with_reducible first | apply adoptStart_kept | apply completeTicket_kept | apply loadRun_kept | apply tktStart_kept)
    | (with_reducible refine ite_kept (fun _ => ?_) (fun _ => ?_))
    | (with_reducible apply Kept.of; dsimp only)
    | (with_reducible apply Kept.core)
    | split

theorem execLoadTicket_kept {q : Fin 32} {seq : Word} {s : State} (hk : Kept z s) : KeptOut z (execLoadTicket q seq s) := by
  unfold execLoadTicket; with_reducible repeat' first | assumption | apply liveNext_kept | apply loadTicket_kept

theorem postTicket_kept {q : Nat} {seq : Word} {s : State} (hk : Kept z s) : Kept z (postTicket q seq s) := by
  unfold postTicket
  repeat' first
    | with_reducible assumption
    | (with_reducible first | apply completeTicket_kept | apply postWrite_kept | apply tktStart_kept)
    | (with_reducible apply Kept.of; dsimp only)
    | (with_reducible apply Kept.core)
    | split

theorem execPostTicket_kept {q : Fin 32} {seq : Word} {s : State} (hk : Kept z s) : KeptOut z (execPostTicket q seq s) := by
  unfold execPostTicket; with_reducible repeat' first | assumption | apply liveNext_kept | apply postTicket_kept

theorem stopTicket_kept {q : Nat} {seq : Word} {s : State} (hk : Kept z s) : Kept z (stopTicket q seq s) := by
  unfold stopTicket
  repeat' first
    | with_reducible assumption
    | (with_reducible first | apply completeTicket_kept | apply imageEnd_kept | apply tktStart_kept)
    | (with_reducible refine ite_kept (fun _ => ?_) (fun _ => ?_))
    | (with_reducible apply Kept.of; dsimp only)
    | (with_reducible apply Kept.core)
    | split

theorem execStopTicket_kept {q : Fin 32} {seq : Word} {s : State} (hk : Kept z s) : KeptOut z (execStopTicket q seq s) := by
  unfold execStopTicket; with_reducible repeat' first | assumption | apply liveNext_kept | apply stopTicket_kept

theorem dispatch_kept  {s : State} (hk : Kept z s) : Kept z (dispatch s) := by
  unfold dispatch; with_reducible repeat' first | assumption | apply dispatchNow_kept | apply pumpAll_kept

theorem queryTicket_kept {q : Nat} {seq : Word} {s : State} (hk : Kept z s) : Kept z (queryTicket q seq s) := by
  unfold queryTicket
  repeat' first
    | with_reducible assumption
    | (with_reducible first | apply completeTicket_kept | apply dispatch_kept)
    | (with_reducible refine ite_kept (fun _ => ?_) (fun _ => ?_))
    | (with_reducible apply Kept.of; dsimp only)
    | (with_reducible apply Kept.core)
    | split

theorem execQueryTicket_kept {q : Fin 32} {seq : Word} {s : State} (hk : Kept z s) : KeptOut z (execQueryTicket q seq s) := by
  unfold execQueryTicket; with_reducible repeat' first | assumption | apply liveNext_kept | apply queryTicket_kept

theorem queryExpiry_kept {q : Nat} {seq : Word} {s : State} (hk : Kept z s) : Kept z (queryExpiry q seq s) := by
  unfold queryExpiry
  repeat' first
    | with_reducible assumption
    | (with_reducible first | apply completeTicket_kept | apply slotFree_kept)
    | (with_reducible refine ite_kept (fun _ => ?_) (fun _ => ?_))
    | (with_reducible apply Kept.of; dsimp only)
    | (with_reducible apply Kept.core)
    | split

theorem slotDone_kept {k : Nat} {s : State} (hk : Kept z s) : Kept z (slotDone k s) := by
  unfold slotDone; with_reducible repeat' first | assumption | apply dispatch_kept | apply slotEnd_kept | apply iteK

theorem execSlotDone_kept {slot : Nat} {s : State} (hk : Kept z s) : KeptOut z (execSlotDone slot s) := by
  unfold execSlotDone; with_reducible repeat' first | assumption | apply liveNext_kept | apply slotDone_kept

theorem windowOpen_kept {w : Nat} {s : State} (hk : Kept z s) : Kept z (windowOpen w s) := by
  unfold windowOpen; with_reducible repeat'
    first | assumption | apply dispatch_kept | apply iteK | (apply Kept.of; dsimp only) | apply Kept.core

/-! ### HostRows -/

theorem cqHead_kept {n q : Nat} {head : Nat} {s : State} (hk : Kept z s) : Kept z (cqHead n q head s) := by
  unfold cqHead; with_reducible repeat' first | assumption | apply ringOverflow_kept | apply setRing_kept | apply iteK

theorem execCqHead_kept {n : Fin 2} {q : Fin 32} {head : BitVec 16} {s : State} (hk : Kept z s) : KeptOut z (execCqHead n q head s) := by
  unfold execCqHead; with_reducible repeat' first | assumption | apply liveNext_kept | apply cqHead_kept

theorem msiGap_kept {n v : Nat} {s : State} (hk : Kept z s) : Kept z (msiGap n v s) := by
  unfold msiGap; with_reducible repeat'
    first | assumption | apply sendMsi_kept | apply iteK | (apply Kept.of; dsimp only) | apply Kept.core

theorem execMsiGapExpiry_kept {n : Fin 2} {vec : Fin 64} {s : State} (hk : Kept z s) : KeptOut z (execMsiGapExpiry n vec s) := by
  unfold execMsiGapExpiry; with_reducible repeat' first | assumption | apply liveNext_kept | apply msiGap_kept

theorem hbSet_kept {n : Nat} {s : State} (hk : Kept z s) : Kept z (hbSet n s) := hk

theorem hostHeartbeat_kept {n : Nat} {v : BitVec 32} {s : State} (hk : Kept z s) : Kept z (hostHeartbeat n v s) := by
  unfold hostHeartbeat; with_reducible repeat' first | assumption | apply hbSet_kept | apply setFld_kept | apply iteK

theorem execHostHeartbeat_kept {n : Fin 2} {value : BitVec 32} {s : State} (hk : Kept z s) : KeptOut z (execHostHeartbeat n value s) := by
  unfold execHostHeartbeat; with_reducible repeat' first | assumption | apply liveNext_kept | apply hostHeartbeat_kept

theorem orphan_kept {n : Nat} {q : Nat} {s : State} (hk : Kept z s) : Kept z (orphan n s q) := by
  unfold orphan; with_reducible repeat'
    first | assumption | apply ctlBlock_kept | apply modTQ_kept | apply postOn_kept | apply setFld_kept | apply iteK

theorem hostLost_kept {n : Nat} {s : State} (hk : Kept z s) : Kept z (hostLost n s) := by
  unfold hostLost
  repeat' first
    | with_reducible assumption
    | (with_reducible first | apply addFld_kept | apply orphan_kept | apply report_kept | apply setFld_kept)
    | (with_reducible refine foldl_kept (fun _ _ _ => ?_) _ ?_)
    | (with_reducible refine ite_kept (fun _ => ?_) (fun _ => ?_))

theorem execHostHbSilence_kept {n : Fin 2} {s : State} (hk : Kept z s) : KeptOut z (execHostHbSilence n s) := by
  unfold execHostHbSilence; with_reducible repeat'
    first | assumption | apply liveNext_kept | apply hostLost_kept | apply iteK

theorem hostDown_kept {n : Nat} {s : State} (hk : Kept z s) : Kept z (hostDown n s) := by
  unfold hostDown; with_reducible repeat'
    first | assumption | apply hostLost_kept | apply iteK | (apply Kept.of; dsimp only) | apply Kept.core

theorem execHostLinkLoss_kept {n : Fin 2} {_cause : LossCause} {s : State} (hk : Kept z s) : KeptOut z (execHostLinkLoss n _cause s) := by
  unfold execHostLinkLoss; with_reducible repeat' first | assumption | apply liveNext_kept | apply hostDown_kept

theorem hostLinkUp_kept {n : Nat} {s : State} (hk : Kept z s) : Kept z (hostLinkUp n s) := by
  unfold hostLinkUp
  repeat' first
    | with_reducible assumption
    | (with_reducible first | apply hbSet_kept | apply ringOverflow_kept | apply setFld_kept)
    | (with_reducible refine foldl_kept (fun _ _ _ => ?_) _ ?_)
    | (with_reducible refine ite_kept (fun _ => ?_) (fun _ => ?_))
    | (with_reducible apply Kept.of; dsimp only)
    | (with_reducible apply Kept.core)

theorem execHostLinkUp_kept {n : Fin 2} {s : State} (hk : Kept z s) : KeptOut z (execHostLinkUp n s) := by
  unfold execHostLinkUp; with_reducible repeat' first | assumption | apply liveNext_kept | apply hostLinkUp_kept

theorem take_kept {n q : Nat} {s : State} (hk : Kept z s) : Kept z (take n q s) := by
  unfold take
  repeat' first
    | with_reducible assumption
    | (with_reducible first | apply ctlBlock_kept | apply modTQ_kept | apply postNotice_kept | apply setFld_kept)
    | (with_reducible refine ite_kept (fun _ => ?_) (fun _ => ?_))

theorem execTake_kept {n : Fin 2} {q : Fin 32} {s : State} (hk : Kept z s) : KeptOut z (execTake n q s) := by
  unfold execTake; with_reducible repeat' first | assumption | apply liveNext_kept | apply take_kept

theorem resumeQueue_kept {n q : Nat} {s : State} (hk : Kept z s) : Kept z (resumeQueue n q s) := by
  unfold resumeQueue
  repeat' first
    | with_reducible assumption
    | (with_reducible first | apply completeTicket_kept | apply ctlBlock_kept | apply loadRun_kept | apply setFld_kept)
    | (with_reducible refine ite_kept (fun _ => ?_) (fun _ => ?_))
    | (with_reducible apply Kept.of; dsimp only)
    | (with_reducible apply Kept.core)
    | split

theorem execResume_kept {n : Fin 2} {q : Fin 32} {s : State} (hk : Kept z s) : KeptOut z (execResume n q s) := by
  unfold execResume; with_reducible repeat' first | assumption | apply liveNext_kept | apply resumeQueue_kept

/-! ### PeerRows -/

theorem heartbeat_kept {m : Member} {s : State} (hk : Kept z s) : Kept z (heartbeat m s) := by
  unfold heartbeat
  repeat' first
    | with_reducible assumption
    | with_reducible apply sendCtl_kept
    | (with_reducible refine takeInbound_kept ?_ (by with_reducible assumption))
    | (with_reducible refine ite_kept (fun _ => ?_) (fun _ => ?_))
    | (with_reducible apply Kept.of; dsimp only)
    | (with_reducible apply Kept.core)
    | split

theorem execHeartbeat_kept {m : Member} {s : State} (hk : Kept z s) : KeptOut z (execHeartbeat m s) := by
  unfold execHeartbeat; with_reducible repeat'
    first | assumption | apply liveNext_kept | apply heartbeat_kept | apply ordered_kept

theorem partnerGone_kept {m : Member} {s : State} (hk : Kept z s) : Kept z (partnerGone m s) := by
  unfold partnerGone
  repeat' first
    | with_reducible assumption
    | (with_reducible first | apply setGran_kept | apply t1Abandon_kept)
    | (with_reducible refine foldl_kept (fun _ _ _ => ?_) _ ?_)
    | (with_reducible refine ite_kept (fun _ => ?_) (fun _ => ?_))
    | (with_reducible apply Kept.of; dsimp only)
    | (with_reducible apply Kept.core)

theorem adoptFail_kept  {s : State} (hk : Kept z s) : Kept z (adoptFail s) := by
  unfold adoptFail
  repeat' first
    | with_reducible assumption
    | (with_reducible first | apply completeTicket_kept | apply listEnd_kept | apply report_kept)
    | (with_reducible apply Kept.of; dsimp only)
    | (with_reducible apply Kept.core)
    | split

theorem moduleGone_kept {declares : Bool} {m : Member} {s : State} (hk : Kept z s) : Kept z (moduleGone declares m s) := by
  unfold moduleGone
  repeat' first
    | with_reducible assumption
    | (with_reducible first | apply adoptFail_kept | apply declareLost_kept | apply partnerGone_kept | apply tally_kept)
    | (with_reducible refine ite_kept (fun _ => ?_) (fun _ => ?_))

theorem execHeartbeatSilence_kept {m : Silence} {s : State} (hk : Kept z s) : KeptOut z (execHeartbeatSilence m s) := by
  unfold execHeartbeatSilence; with_reducible repeat'
    first | assumption | apply liveNext_kept | apply moduleGone_kept | apply iteK

theorem execAckSilence_kept  {s : State} (hk : Kept z s) : KeptOut z (execAckSilence s) := by
  unfold execAckSilence; with_reducible repeat'
    first | assumption | apply liveNext_kept | apply retire_kept | apply iteK

theorem execNoPortUpTimeout_kept  {s : State} (hk : Kept z s) : KeptOut z (execNoPortUpTimeout s) := by
  unfold execNoPortUpTimeout; with_reducible repeat'
    first | assumption | apply liveNext_kept | apply retire_kept | apply iteK | split

theorem execPowerNotice_kept {m : Member} {s : State} (hk : Kept z s) : KeptOut z (execPowerNotice m s) := by
  unfold execPowerNotice
  repeat' first
    | with_reducible assumption
    | (with_reducible apply liveNext_kept)
    | (with_reducible first | apply moduleGone_kept | apply ordered_kept | apply takeCtl_kept)
    | (with_reducible refine ite_kept (fun _ => ?_) (fun _ => ?_))

theorem execRetirementNotice_kept {m : Member} {s : State} (hk : Kept z s) : KeptOut z (execRetirementNotice m s) := by
  unfold execRetirementNotice
  repeat' first
    | with_reducible assumption
    | (with_reducible apply liveNext_kept)
    | (with_reducible first | apply moduleGone_kept | apply ordered_kept | apply takeCtl_kept)
    | (with_reducible refine ite_kept (fun _ => ?_) (fun _ => ?_))

theorem mirrorInstall_kept {e : Nat × Nat × Ticket × Code} {s : State} (hk : Kept z s) : Kept z (mirrorInstall s e) := by
  unfold mirrorInstall
  repeat' first
    | with_reducible assumption
    | (with_reducible first | apply addFld_kept | apply modTQ_kept | apply setReg_kept)
    | (with_reducible refine ite_kept (fun _ => ?_) (fun _ => ?_))
    | (with_reducible apply Kept.of; dsimp only)
    | (with_reducible apply Kept.core)

theorem mirrorInstallAll_kept {es : List (Nat × Nat × Ticket × Code)} {s : State} (hk : Kept z s) : Kept z (mirrorInstallAll es s) := by
  unfold mirrorInstallAll
  repeat' first
    | with_reducible assumption
    | (with_reducible first | apply ctlBlock_kept | apply jRetain_kept | apply mirrorInstall_kept | apply setReg_kept)
    | (with_reducible refine foldl_kept (fun _ _ _ => ?_) _ ?_)

theorem pairWith_kept {m : Member} {s : State} (hk : Kept z s) : Kept z (pairWith m s) := by
  unfold pairWith; with_reducible repeat' first | assumption | apply setFld_kept

theorem pullLanded_kept {from_ : Member} {x : Snap} {twin : Option (Nat × Word)} {s : State} (hk : Kept z s) : Kept z (pullLanded from_ x twin s) := by
  unfold pullLanded; with_reducible repeat'
    first | assumption | apply listEnd_kept | apply pairWith_kept | (apply Kept.of; dsimp only) | apply Kept.core

theorem pullDone_kept {from_ : Member} {x : Option SnapIn} {es : List (Nat × Nat × Ticket × Code)} {s : State} (h : Kept z s) :
    Kept z (pullDone from_ x es s) := by
  unfold pullDone
  split
  · exact h
  · split
    · have hm := mirrorInstallAll_kept (es := es) h
      simp only []
      split
      · split
        · exact completeTicket_kept (adoptFail_kept hm)
        · exact adoptFail_kept hm
      · rename_i ht
        with_reducible refine pullLanded_kept ?_
        exact loadTry_kept hm ht
    · exact adoptFail_kept h

theorem pullFailed_kept {s : State} (hk : Kept z s) : Kept z (pullFailed s) := by
  unfold pullFailed; with_reducible repeat' first | assumption | apply report_kept | split

theorem adoptionPullDone_kept {from_ : Member} {x : Option SnapIn} {es : List (Nat × Nat × Ticket × Code)} {s : State} (hk : Kept z s) : Kept z (adoptionPullDone from_ x es s) := by
  unfold adoptionPullDone; with_reducible repeat'
    first | assumption | apply lostDone_kept | apply pullDone_kept | apply pullFailed_kept | apply iteK | split

theorem execAdoptionPullDone_kept {partner : Member} {snap : Option SnapIn} {mirror : List (Fin 32 × BitVec 8 × Ticket × BitVec 16)} {s : State} (hk : Kept z s) : KeptOut z (execAdoptionPullDone partner snap mirror s) := by
  unfold execAdoptionPullDone; with_reducible repeat'
    first | assumption | apply liveNext_kept | apply adoptionPullDone_kept

/-! ### PwrOps -/

theorem noteFeedLoss_kept  {s : State} (hk : Kept z s) : Kept z (noteFeedLoss s) := by
  unfold noteFeedLoss; with_reducible repeat' first | assumption | apply jnlPut_kept

theorem noteTrip_kept  {s : State} (hk : Kept z s) : Kept z (noteTrip s) := by
  unfold noteTrip; with_reducible repeat' first | assumption | apply jnlPut_kept

theorem noteShutdown_kept  {s : State} (hk : Kept z s) : Kept z (noteShutdown s) := by
  unfold noteShutdown; with_reducible repeat' first | assumption | apply jnlPut_kept

theorem noteCoast_kept  {s : State} (hk : Kept z s) : Kept z (noteCoast s) := by
  unfold noteCoast; with_reducible repeat' first | assumption | apply jnlPut_kept

theorem noteMeterHold_kept  {s : State} (hk : Kept z s) : Kept z (noteMeterHold s) := by
  unfold noteMeterHold; with_reducible repeat' first | assumption | apply jnlPut_kept

theorem notePeaks_kept {die stack : Nat} {s : State} (hk : Kept z s) : Kept z (notePeaks die stack s) := by
  unfold notePeaks; with_reducible repeat' first | assumption | apply jnlPut_kept | apply iteK

theorem stepDie_kept {d : Nat} {s : State} (hk : Kept z s) : Kept z (stepDie s d) := by
  unfold stepDie; with_reducible repeat' first | assumption | apply addFld_kept | apply setFld_kept | apply iteK

theorem stepsUpdate_kept  {s : State} (hk : Kept z s) : Kept z (stepsUpdate s) := by
  unfold stepsUpdate; with_reducible repeat'
    first | assumption | apply stepDie_kept | refine foldl_kept (fun _ _ _ => ?_) _ ?_

theorem capUpdate_kept  {s : State} (hk : Kept z s) : Kept z (capUpdate s) := by
  unfold capUpdate; with_reducible repeat' first | assumption | apply setFld_kept

theorem policyPass_kept {draw : Nat} {s : State} (hk : Kept z s) : Kept z (policyPass draw s) := by
  unfold policyPass; with_reducible repeat'
    first | assumption | apply stepsUpdate_kept | (apply Kept.of; dsimp only) | apply Kept.core

theorem meterFault_kept {m d : Nat} {s : State} (h : Kept z s) : Kept z (meterFault m d s) := by
  unfold meterFault
  have h1 : Kept z (report cCLK_METER (srcOf d 14 0x54) (BitVec.ofNat 64 m) (addFld (CLK_DIE_COUNT_METER_FAULTS d) 1
      { s with pwr := { s.pwr with meterOff := s.pwr.meterOff.set d 0 } })) := by
    with_reducible exact report_kept (addFld_kept (pwrUpd_kept h))
  with_reducible refine ite_kept (fun _ => h1) fun _ => ?_
  with_reducible exact noteMeterHold_kept (pwrUpd_kept h1)

theorem meterDie_kept {mhz : List Nat} {d : Nat} {s : State} (hk : Kept z s) : Kept z (meterDie mhz s d) := by
  unfold meterDie
  repeat' first
    | with_reducible assumption
    | (with_reducible first | apply meterFault_kept | apply setFld_kept)
    | (with_reducible refine ite_kept (fun _ => ?_) (fun _ => ?_))
    | (with_reducible apply Kept.of; dsimp only)
    | (with_reducible apply Kept.core)

theorem backupBad_kept  {s : State} (hk : Kept z s) : Kept z (backupBad s) := by
  unfold backupBad; with_reducible repeat' first | assumption | apply report_kept | apply setFld_kept

theorem refTick_kept {ppm : Int} {s : State} (hk : Kept z s) : Kept z (refTick ppm s) := by
  unfold refTick
  repeat' first
    | with_reducible assumption
    | (with_reducible first | apply backupBad_kept | apply setFld_kept)
    | (with_reducible refine ite_kept (fun _ => ?_) (fun _ => ?_))
    | (with_reducible apply Kept.of; dsimp only)
    | (with_reducible apply Kept.core)

theorem coastHold_kept  {s : State} (hk : Kept z s) : Kept z (coastHold s) := by
  unfold coastHold; with_reducible repeat'
    first | assumption | apply holdSend_kept | apply lossAbort_kept | apply iteK

theorem sensorCheck_kept {x : Sensor} {s : State} (hk : Kept z s) : Kept z (sensorCheck s x) := by
  unfold sensorCheck; with_reducible repeat'
    first | assumption | apply report_kept | apply iteK | (apply Kept.of; dsimp only) | apply Kept.core

theorem tempRegs_kept {i : TickIn} {s : State} (hk : Kept z s) : Kept z (tempRegs i s) := by
  unfold tempRegs; with_reducible repeat'
    first | assumption | apply setFld_kept | apply setReg_kept | refine foldl_kept (fun _ _ _ => ?_) _ ?_

theorem thermalDie_kept {i : TickIn} {d : Nat} {s : State} (hk : Kept z s) : Kept z (thermalDie i s d) := by
  unfold thermalDie; with_reducible repeat'
    first | assumption | apply report_kept | apply iteK | (apply Kept.of; dsimp only) | apply Kept.core | split

theorem tripCount_kept {x : Sensor} {s : State} (hk : Kept z s) : Kept z (tripCount s x) := hk

theorem thermalTick_kept {i : TickIn} {s : State} (hk : Kept z s) : Kept z (thermalTick i s) := by
  unfold thermalTick
  repeat' first
    | with_reducible assumption
    | (with_reducible first | apply notePeaks_kept | apply report_kept | apply sensorCheck_kept | apply tempRegs_kept | apply thermalDie_kept | apply tripCount_kept)
    | (with_reducible refine foldl_kept (fun _ _ _ => ?_) _ ?_)
    | (with_reducible refine ite_kept (fun _ => ?_) (fun _ => ?_))

theorem setFeed_kept {b v : Bool} {s : State} (hk : Kept z s) : Kept z (setFeed b v s) := by
  unfold setFeed; with_reducible repeat'
    first | assumption | apply setFld_kept | (apply Kept.of; dsimp only) | apply Kept.core

theorem feedRead_kept {b : Bool} {w : Option (BitVec 16)} {s : State} (hk : Kept z s) : Kept z (feedRead b w s) := by
  unfold feedRead; with_reducible repeat' first | assumption | apply setFld_kept | apply iteK | split

theorem feedTick_kept {b : Bool} {s : State} (hk : Kept z s) : Kept z (feedTick s b) := hk

/-! ### PwrRows -/

theorem refLost_kept  {s : State} (hk : Kept z s) : Kept z (refLost s) := by
  unfold refLost
  repeat' first
    | with_reducible assumption
    | (with_reducible first | apply addFld_kept | apply coastHold_kept | apply moduleLoss_kept | apply noteCoast_kept | apply report_kept | apply setFld_kept | apply stepsUpdate_kept)
    | (with_reducible refine ite_kept (fun _ => ?_) (fun _ => ?_))
    | (with_reducible apply Kept.of; dsimp only)
    | (with_reducible apply Kept.core)

theorem execRefClkLost_kept  {s : State} (hk : Kept z s) : KeptOut z (execRefClkLost s) := by
  unfold execRefClkLost; with_reducible repeat' first | assumption | apply liveNext_kept | apply refLost_kept

theorem execRefClkRestored_kept  {s : State} (hk : Kept z s) : KeptOut z (execRefClkRestored s) := by
  unfold execRefClkRestored
  repeat' first
    | with_reducible assumption
    | (with_reducible apply liveNext_kept)
    | (with_reducible first | apply holdRelease_kept | apply report_kept | apply setFld_kept | apply stepsUpdate_kept)
    | (with_reducible refine ite_kept (fun _ => ?_) (fun _ => ?_))

theorem execCoastTimeout_kept  {s : State} (hk : Kept z s) : KeptOut z (execCoastTimeout s) := by
  unfold execCoastTimeout; with_reducible repeat'
    first | assumption | apply liveNext_kept | apply moduleLoss_kept | apply iteK

theorem execClkBackupBad_kept  {s : State} (hk : Kept z s) : KeptOut z (execClkBackupBad s) := by
  unfold execClkBackupBad; with_reducible repeat' first | assumption | apply liveNext_kept | apply backupBad_kept

theorem feedSample_kept {b : Bool} {mv da : Nat} {s : State} (hk : Kept z s) : Kept z (feedSample b mv da s) := by
  unfold feedSample; with_reducible repeat' first | assumption | apply report_kept | apply setFld_kept | apply iteK

theorem limiterSample_kept {w : Nat} {s : State} (hk : Kept z s) : Kept z (limiterSample w s) := by
  unfold limiterSample
  repeat' first
    | with_reducible assumption
    | (with_reducible first | apply addFld_kept | apply report_kept | apply setFld_kept | apply stepsUpdate_kept)
    | (with_reducible refine ite_kept (fun _ => ?_) (fun _ => ?_))
    | (with_reducible apply Kept.of; dsimp only)
    | (with_reducible apply Kept.core)

theorem execPowerSample_kept {f : FeedSample} {s : State} (hk : Kept z s) : KeptOut z (execPowerSample f s) := by
  unfold execPowerSample; with_reducible repeat'
    first | assumption | apply liveNext_kept | apply feedSample_kept | apply limiterSample_kept

theorem feedDown_kept {b : Bool} {s : State} (hk : Kept z s) : Kept z (feedDown b s) := by
  unfold feedDown
  repeat' first
    | with_reducible assumption
    | (with_reducible first | apply addFld_kept | apply noteFeedLoss_kept | apply setFeed_kept | apply setFld_kept)
    | (with_reducible apply Kept.of; dsimp only)
    | (with_reducible apply Kept.core)

theorem feedLimit_kept  {s : State} (hk : Kept z s) : Kept z (feedLimit s) := by
  unfold feedLimit
  repeat' first
    | with_reducible assumption
    | (with_reducible first | apply capUpdate_kept | apply setFld_kept | apply stepsUpdate_kept)
    | (with_reducible apply Kept.of; dsimp only)
    | (with_reducible apply Kept.core)

theorem feedLost_kept {b : Bool} {s : State} (hk : Kept z s) : Kept z (feedLost b s) := by
  unfold feedLost
  repeat' first
    | with_reducible assumption
    | (with_reducible first | apply feedDown_kept | apply feedLimit_kept | apply floodCtl_kept | apply report_kept)
    | (with_reducible refine ite_kept (fun _ => ?_) (fun _ => ?_))

theorem execFeedLoss_kept {feedB : Bool} {s : State} (hk : Kept z s) : KeptOut z (execFeedLoss feedB s) := by
  unfold execFeedLoss; with_reducible repeat' first | assumption | apply liveNext_kept | apply feedLost_kept

theorem feedBack_kept {b : Bool} {s : State} (hk : Kept z s) : Kept z (feedBack b s) := by
  unfold feedBack
  repeat' first
    | with_reducible assumption
    | (with_reducible first | apply capUpdate_kept | apply heldStart_kept | apply report_kept | apply setFeed_kept | apply setFld_kept | apply stepsUpdate_kept)
    | (with_reducible refine ite_kept (fun _ => ?_) (fun _ => ?_))
    | (with_reducible apply Kept.of; dsimp only)
    | (with_reducible apply Kept.core)

theorem execFeedRestored_kept {feedB : Bool} {s : State} (hk : Kept z s) : KeptOut z (execFeedRestored feedB s) := by
  unfold execFeedRestored; with_reducible repeat' first | assumption | apply liveNext_kept | apply feedBack_kept

theorem domEffect_kept {dom : Nat} {on : Bool} {s : State} (hk : Kept z s) : Kept z (domEffect dom on s) := by
  unfold domEffect
  repeat' first
    | with_reducible assumption
    | (with_reducible first | apply archiveDown_kept | apply hostDown_kept | apply pumpAll_kept)
    | (with_reducible refine ite_kept (fun _ => ?_) (fun _ => ?_))
    | (with_reducible apply Kept.of; dsimp only)
    | (with_reducible apply Kept.core)
    | (with_reducible apply Kept.setMem)
    | (with_reducible refine fun _ => ?_)
    | (with_reducible apply zero_wf)
    | (with_reducible refine foldl_wf (fun _ _ _ => ?_) _ ?_)

theorem domDone_kept {dom : Nat} {s : State} (hk : Kept z s) : Kept z (domDone dom s) := by
  unfold domDone
  repeat' first
    | with_reducible assumption
    | (with_reducible first | apply addFld_kept | apply domEffect_kept | apply setDom_kept)
    | (with_reducible refine ite_kept (fun _ => ?_) (fun _ => ?_))
    | (with_reducible apply Kept.of; dsimp only)
    | (with_reducible apply Kept.core)
    | split

theorem execDomainSwitchDone_kept {dom : Fin 80} {s : State} (hk : Kept z s) : KeptOut z (execDomainSwitchDone dom s) := by
  unfold execDomainSwitchDone; with_reducible repeat' first | assumption | apply liveNext_kept | apply domDone_kept

theorem domFail_kept {dom : Nat} {s : State} (hk : Kept z s) : Kept z (domFail dom s) := by
  unfold domFail; with_reducible repeat' first | assumption | apply setFld_kept | apply iteK

theorem fenceDark_kept {p : Nat} {s : State} (hk : Kept z s) : Kept z (fenceDark s p) := by
  unfold fenceDark; with_reducible repeat'
    first | assumption | apply fenceOff_kept | apply lossAbort_kept | apply iteK

theorem railTimeout_kept {dom : Nat} {s : State} (hk : Kept z s) : Kept z (railTimeout dom s) := by
  unfold railTimeout
  repeat' first
    | with_reducible assumption
    | (with_reducible first | apply domFail_kept | apply fenceDark_kept | apply fenceDie_kept | apply moveIdle_kept | apply replace_kept | apply report_kept)
    | (with_reducible refine foldl_kept (fun _ _ _ => ?_) _ ?_)
    | (with_reducible refine ite_kept (fun _ => ?_) (fun _ => ?_))
    | (with_reducible apply Kept.of; dsimp only)
    | (with_reducible apply Kept.core)

theorem execRailTimeout_kept {dom : Fin 80} {s : State} (hk : Kept z s) : KeptOut z (execRailTimeout dom s) := by
  unfold execRailTimeout; with_reducible repeat' first | assumption | apply liveNext_kept | apply railTimeout_kept

theorem thermTrip_kept {d : Option (Fin 8)} {sensor : Nat} {s : State} (hk : Kept z s) : Kept z (thermTrip d sensor s) := by
  unfold thermTrip
  repeat' first
    | with_reducible assumption
    | (with_reducible first | apply noteTrip_kept | apply report_kept | apply stepsUpdate_kept)
    | (with_reducible apply Kept.of; dsimp only)
    | (with_reducible apply Kept.core)

theorem execThermTrip_kept {d : Option (Fin 8)} {sensor : BitVec 8} {s : State} (hk : Kept z s) : KeptOut z (execThermTrip d sensor s) := by
  unfold execThermTrip; with_reducible repeat' first | assumption | apply liveNext_kept | apply thermTrip_kept

theorem execThermTripClear_kept {d : Option (Fin 8)} {s : State} (hk : Kept z s) : KeptOut z (execThermTripClear d s) := by
  unfold execThermTripClear
  repeat' first
    | with_reducible assumption
    | (with_reducible apply liveNext_kept)
    | (with_reducible first | apply heldStart_kept | apply stepsUpdate_kept)
    | (with_reducible apply Kept.of; dsimp only)
    | (with_reducible apply Kept.core)

theorem thermShutdown_kept  {s : State} (hk : Kept z s) : Kept z (thermShutdown s) := by
  unfold thermShutdown
  repeat' first
    | with_reducible assumption
    | (with_reducible first | apply addFld_kept | apply archiveDown_kept | apply hostDown_kept | apply moduleLoss_kept | apply noteShutdown_kept | apply report_kept | apply setFld_kept)
    | (with_reducible refine ite_kept (fun _ => ?_) (fun _ => ?_))
    | (with_reducible apply Kept.of; dsimp only)
    | (with_reducible apply Kept.core)
    | split

theorem execThermShutdown_kept  {s : State} (hk : Kept z s) : KeptOut z (execThermShutdown s) := by
  unfold execThermShutdown; with_reducible repeat' first | assumption | apply liveNext_kept | apply thermShutdown_kept

/-! ### CsOps -/

theorem regWrite_kept {p : Nat × Nat × Nat} {s : State} (hk : Kept z s) : Kept z (regWrite s p) := by
  unfold regWrite; with_reducible repeat' first | assumption | apply setReg_kept | apply iteK | split

theorem csReg_kept  {s : State} (hk : Kept z s) : Kept z (csReg s) := by
  unfold csReg; with_reducible repeat' first | assumption | apply setFld_kept | split

theorem stage_kept {p : Nat × Nat × Nat} {s : State} (hk : Kept z s) : Kept z (stage s p) := by
  unfold stage; with_reducible repeat'
    first | assumption | apply csReg_kept | apply iteK | (apply Kept.of; dsimp only) | apply Kept.core | split

theorem rsWrite_kept {n addr v size : Nat} {s : State} (hk : Kept z s) : Kept z (rsWrite n addr v size s) := by
  unfold rsWrite; with_reducible repeat'
    first | assumption | apply report_kept | apply stage_kept | refine foldl_kept (fun _ _ _ => ?_) _ ?_ | apply iteK

theorem cmdDone_kept {n : Nat} {status : Code} {s : State} (hk : Kept z s) : Kept z (cmdDone n status s) := by
  unfold cmdDone; with_reducible repeat' first | assumption | apply sendMsi_kept | apply setFld_kept

theorem cmdFree_kept {n : Nat} {s : State} (hk : Kept z s) : Kept z (cmdFree n s) := by
  unfold cmdFree; with_reducible repeat' first | assumption | apply cmdDone_kept | apply freeStep_kept

theorem csOpen_kept {n : Nat} {s : State} (hk : Kept z s) : Kept z (csOpen n s) := by
  unfold csOpen
  repeat' first
    | with_reducible assumption
    | (with_reducible first | apply cmdDone_kept | apply csReg_kept | apply setFld_kept)
    | (with_reducible refine ite_kept (fun _ => ?_) (fun _ => ?_))
    | (with_reducible apply Kept.of; dsimp only)
    | (with_reducible apply Kept.core)

theorem csEnd_kept {status : Code} {s : State} (hk : Kept z s) : Kept z (csEnd status s) := by
  unfold csEnd
  repeat' first
    | with_reducible assumption
    | (with_reducible first | apply csReg_kept | apply listsReg_kept | apply openGap_kept | apply pumpAll_kept | apply setFld_kept)
    | (with_reducible apply Kept.of; dsimp only)
    | (with_reducible apply Kept.core)

theorem csAbandoned_kept {code : Code} {s : State} (hk : Kept z s) : Kept z (csAbandoned code s) := by
  unfold csAbandoned; with_reducible repeat'
    first | assumption | apply cmdDone_kept | apply csEnd_kept | apply iteK | split

theorem sendIds_kept {tag : Nat} {m : Member} {s : State} (hk : Kept z s) : Kept z (sendIds tag m s) := by
  unfold sendIds; with_reducible repeat' first | assumption | apply sendOrDrop_kept

theorem idsTake_kept {m : Member} {s : State} (hk : Kept z s) : Kept z (idsTake m s) := by
  unfold idsTake; with_reducible repeat' first | assumption | apply takeInbound_kept1

theorem csCommit_kept {n : Nat} {tag : BitVec 8} {s : State} (hk : Kept z s) : Kept z (csCommit n tag s) := by
  unfold csCommit
  repeat' first
    | with_reducible assumption
    | (with_reducible first | apply cmdDone_kept | apply cmdFree_kept | apply csAbandoned_kept | apply report_kept | apply sendIds_kept | apply setFld_kept)
    | (with_reducible refine ite_kept (fun _ => ?_) (fun _ => ?_))
    | (with_reducible apply Kept.of; dsimp only)
    | (with_reducible apply Kept.core)
    | split

theorem csAbandon_kept {n : Nat} {s : State} (hk : Kept z s) : Kept z (csAbandon n s) := by
  unfold csAbandon; with_reducible repeat'
    first | assumption | apply cmdDone_kept | apply cmdFree_kept | apply csEnd_kept | apply iteK | split

theorem csApplyPoint_kept  {s : State} (hk : Kept z s) : Kept z (csApplyPoint s) := by
  unfold csApplyPoint
  repeat' first
    | with_reducible assumption
    | (with_reducible first | apply csAbandoned_kept | apply idsTake_kept | apply listsReg_kept | apply portDown_kept | apply portState_kept | apply report_kept | apply setFld_kept)
    | (with_reducible refine foldl_kept (fun _ _ _ => ?_) _ ?_)
    | (with_reducible refine ite_kept (fun _ => ?_) (fun _ => ?_))
    | (with_reducible apply Kept.of; dsimp only)
    | (with_reducible apply Kept.core)
    | split

theorem queueKind_kept {q : Nat} {s : State} (hk : Kept z s) : Kept z (queueKind s q) := by
  unfold queueKind; with_reducible repeat'
    first | assumption | apply ctlBlock_kept | apply jRetain_kept | apply setFld_kept | apply iteK

theorem pairApply_kept {old : Nat} {fed : Bool} {s : State} (hk : Kept z s) : Kept z (pairApply old fed s) := by
  unfold pairApply
  repeat' first
    | with_reducible assumption
    | (with_reducible first | apply sendIds_kept | apply setFld_kept | apply setGran_kept | apply t1Abandon_kept)
    | (with_reducible refine foldl_kept (fun _ _ _ => ?_) _ ?_)
    | (with_reducible refine ite_kept (fun _ => ?_) (fun _ => ?_))

theorem hubDomains_kept  {s : State} (hk : Kept z s) : Kept z (hubDomains s) := by
  unfold hubDomains; with_reducible repeat' first | assumption | apply domSwitch_kept

theorem applyEffect_kept {c : ChangeSet} {oldPair : Nat} {fed : Bool} {s : State} (hk : Kept z s) : Kept z (applyEffect c oldPair fed s) := by
  unfold applyEffect
  repeat' first
    | with_reducible assumption
    | (with_reducible first | apply arcEnable_kept | apply capUpdate_kept | apply frameFree_kept | apply hubDomains_kept | apply pairApply_kept | apply queueKind_kept | apply stepsUpdate_kept)
    | (with_reducible refine foldl_kept (fun _ _ _ => ?_) _ ?_)
    | (with_reducible refine ite_kept (fun _ => ?_) (fun _ => ?_))
    | (with_reducible apply Kept.of; dsimp only)
    | (with_reducible apply Kept.core)

theorem csApply_kept {c : ChangeSet} {s : State} (hk : Kept z s) : Kept z (csApply c s) := by
  unfold csApply; with_reducible repeat'
    first | assumption | apply setReg_kept | refine foldl_kept (fun _ _ _ => ?_) _ ?_

theorem csStrobe_kept  {s : State} (hk : Kept z s) : Kept z (csStrobe s) := by
  unfold csStrobe
  repeat' first
    | with_reducible assumption
    | (with_reducible first | apply applyEffect_kept | apply cmdDone_kept | apply csApply_kept | apply csEnd_kept | apply idsTake_kept | apply portBringup_kept | apply sendMsi_kept)
    | (with_reducible refine foldl_kept (fun _ _ _ => ?_) _ ?_)
    | (with_reducible refine ite_kept (fun _ => ?_) (fun _ => ?_))
    | (with_reducible apply Kept.of; dsimp only)
    | (with_reducible apply Kept.core)
    | split

theorem quiesceTimeout_kept  {s : State} (hk : Kept z s) : Kept z (quiesceTimeout s) := by
  unfold quiesceTimeout
  repeat' first
    | with_reducible assumption
    | (with_reducible first | apply csAbandoned_kept | apply portBringup_kept | apply report_kept)
    | (with_reducible refine foldl_kept (fun _ _ _ => ?_) _ ?_)
    | (with_reducible refine ite_kept (fun _ => ?_) (fun _ => ?_))
    | (with_reducible apply Kept.of; dsimp only)
    | (with_reducible apply Kept.core)
    | split

/-! ### PartRows -/

theorem redConsume_kept {d : Nat} {k : Option Packet} {s : State} (hk : Kept z s) : Kept z (redConsume d k s) := by
  unfold redConsume; with_reducible repeat' first | assumption | apply ackOwe_kept | apply takePacket_kept | split

theorem redFailed_kept {d : Nat} {src : RedSrc} {p : RedPkt} {s : State} (hk : Kept z s) : Kept z (redFailed d src p s) := by
  unfold redFailed
  repeat' first
    | with_reducible assumption
    | (with_reducible first | apply moduleLoss_kept | apply redFail_kept | apply stackNote_kept | apply stackOut_kept)
    | (with_reducible refine ite_kept (fun _ => ?_) (fun _ => ?_))
    | (with_reducible apply Kept.of; dsimp only)
    | (with_reducible apply Kept.core)
    | split

theorem reductionPacket_kept {d : Nat} {src : RedSrc} {p : RedPkt} {s : State} (hk : Kept z s) : Kept z (reductionPacket d src p s) := by
  unfold reductionPacket
  repeat' first
    | with_reducible assumption
    | (with_reducible first | apply addFld_kept | apply pumpAll_kept | apply redConsume_kept | apply redFailed_kept | apply redTake_kept)
    | (with_reducible refine redHold_kept ?_ (by with_reducible assumption))
    | (with_reducible refine ite_kept (fun _ => ?_) (fun _ => ?_))
    | split

theorem execReductionPacket_kept {d : Fin 8} {src : RedSrc} {p : RedPkt} {s : State} (hk : Kept z s) : KeptOut z (execReductionPacket d src p s) := by
  unfold execReductionPacket; with_reducible repeat'
    first | assumption | apply liveNext_kept | apply ordered_kept | apply reductionPacket_kept

theorem execArrayHw_kept {phys : Fin 256} {structure_ : BitVec 8} {s : State} (hk : Kept z s) : KeptOut z (execArrayHw phys structure_ s) := by
  unfold execArrayHw; with_reducible repeat' first | assumption | apply liveNext_kept | apply coreFault_kept

theorem execTbHw_kept {phys : Fin 256} {engine : Bool} {s : State} (hk : Kept z s) : KeptOut z (execTbHw phys engine s) := by
  unfold execTbHw; with_reducible repeat' first | assumption | apply liveNext_kept | apply coreFault_kept

theorem execScrHw_kept {phys : Fin 256} {bank : Fin 48} {s : State} (hk : Kept z s) : KeptOut z (execScrHw phys bank s) := by
  unfold execScrHw; with_reducible repeat' first | assumption | apply liveNext_kept | apply coreFault_kept

theorem execCoreHw_kept {phys : Fin 256} {s : State} (hk : Kept z s) : KeptOut z (execCoreHw phys s) := by
  unfold execCoreHw; with_reducible repeat' first | assumption | apply liveNext_kept | apply coreFault_kept

theorem coreCorrected_kept {p : Nat} {code : Code} {unit : Nat} {s : State} (hk : Kept z s) : Kept z (coreCorrected p code unit s) := by
  unfold coreCorrected; with_reducible repeat'
    first | assumption | apply report_kept | (apply Kept.of; dsimp only) | apply Kept.core

theorem execAccEccCorr_kept {phys : Fin 256} {s : State} (hk : Kept z s) : KeptOut z (execAccEccCorr phys s) := by
  unfold execAccEccCorr; with_reducible repeat' first | assumption | apply liveNext_kept | apply coreCorrected_kept

theorem execTbEccCorr_kept {phys : Fin 256} {s : State} (hk : Kept z s) : KeptOut z (execTbEccCorr phys s) := by
  unfold execTbEccCorr; with_reducible repeat' first | assumption | apply liveNext_kept | apply coreCorrected_kept

theorem execScrEccCorr_kept {phys : Fin 256} {s : State} (hk : Kept z s) : KeptOut z (execScrEccCorr phys s) := by
  unfold execScrEccCorr; with_reducible repeat' first | assumption | apply liveNext_kept | apply coreCorrected_kept

theorem execKwHw_kept {d : Fin 8} {s : State} (hk : Kept z s) : KeptOut z (execKwHw d s) := by
  unfold execKwHw; with_reducible repeat'
    first | assumption | apply liveNext_kept | apply uncoreFault_kept | apply iteK

theorem execUncoreHw_kept {d : Fin 8} {part : BitVec 8} {s : State} (hk : Kept z s) : KeptOut z (execUncoreHw d part s) := by
  unfold execUncoreHw; with_reducible repeat' first | assumption | apply liveNext_kept | apply uncoreFault_kept

theorem hostRead_kept {n : Nat} {bs : List Byte} {s : State} (hk : Kept z s) : Kept z (hostRead n bs s) := hk

theorem mwAccess_kept {n : Nat} {acc : MwAccess} {s : State} (hk : Kept z s) : Kept z (mwAccess n acc s) := by
  unfold mwAccess
  repeat' first
    | with_reducible assumption
    | (with_reducible first | apply hbmWrite_kept | apply hostRead_kept | apply report_kept)
    | (with_reducible refine ite_kept (fun _ => ?_) (fun _ => ?_))
    | (with_reducible apply Kept.of; dsimp only)
    | (with_reducible apply Kept.core)
    | split

theorem execMwAccess_kept {n : Fin 2} {a : MwAccess} {s : State} (hk : Kept z s) : KeptOut z (execMwAccess n a s) := by
  unfold execMwAccess; with_reducible repeat' first | assumption | apply liveNext_kept | apply mwAccess_kept

theorem execMemCe_kept {addr : Nat} {s : State} (hk : Kept z s) : KeptOut z (execMemCe addr s) := by
  unfold execMemCe; with_reducible repeat'
    first | assumption | apply liveNext_kept | apply addFld_kept | apply report_kept | apply iteK

theorem ueStop_kept {c : Nat} {s : State} (hk : Kept z s) : Kept z (ueStop c s) := by
  unfold ueStop; with_reducible repeat' first | assumption | apply imageEnd_kept | apply modL_kept | apply iteK

theorem ueCopy_kept {addr : Nat} {s : State} (hk : Kept z s) : Kept z (ueCopy addr s) := by
  unfold ueCopy
  repeat' first
    | with_reducible assumption
    | (with_reducible first | apply jobsStart_kept | apply latStat_kept | apply setGran_kept)
    | (with_reducible apply Kept.of; dsimp only)
    | (with_reducible apply Kept.core)
    | split

theorem memUe_kept {addr : Nat} {c : Option (Fin 256)} {s : State} (hk : Kept z s) : Kept z (memUe addr c s) := by
  unfold memUe
  repeat' first
    | with_reducible assumption
    | (with_reducible first | apply addFld_kept | apply markBad_kept | apply report_kept | apply stackError_kept | apply ueCopy_kept | apply ueStop_kept)
    | (with_reducible refine ite_kept (fun _ => ?_) (fun _ => ?_))
    | (with_reducible apply Kept.of; dsimp only)
    | (with_reducible apply Kept.core)
    | split

theorem execMemUe_kept {addr : Nat} {c : Option (Fin 256)} {s : State} (hk : Kept z s) : KeptOut z (execMemUe addr c s) := by
  unfold execMemUe; with_reducible repeat' first | assumption | apply liveNext_kept | apply memUe_kept

theorem execRowHammerRefresh_kept {stack : Fin 32} {_row : Nat} {s : State} (hk : Kept z s) : KeptOut z (execRowHammerRefresh stack _row s) := by
  unfold execRowHammerRefresh; with_reducible repeat'
    first | assumption | apply liveNext_kept | apply addFld_kept | apply iteK

/-! ### CsRows -/

theorem accessRefused_kept {n addr size : Nat} {write : Bool} {s : State} (hk : Kept z s) : Kept z (accessRefused n addr size write s) := by
  unfold accessRefused; with_reducible repeat'
    first | assumption | apply hostRead_kept | apply report_kept | apply iteK

theorem registerWrite_kept {n addr v size : Nat} {s : State} (hk : Kept z s) : Kept z (registerWrite n addr v size s) := by
  unfold registerWrite
  repeat' first
    | with_reducible assumption
    | (with_reducible first | apply accessRefused_kept | apply regWrite_kept)
    | (with_reducible refine foldl_kept (fun _ _ _ => ?_) _ ?_)
    | (with_reducible refine ite_kept (fun _ => ?_) (fun _ => ?_))

theorem execRegisterWrite_kept {n : Fin 2} {addr : Nat} {value : Word} {size : Nat} {s : State} (hk : Kept z s) : KeptOut z (execRegisterWrite n addr value size s) := by
  unfold execRegisterWrite; with_reducible repeat' first | assumption | apply next_kept | apply registerWrite_kept

theorem badAccess_kept {n addr size : Nat} {write : Bool} {s : State} (hk : Kept z s) : Kept z (badAccess n addr size write s) := by
  unfold badAccess; with_reducible repeat' first | assumption | apply accessRefused_kept | apply iteK

theorem execBadRegisterAccess_kept {n : Fin 2} {addr size : Nat} {write : Bool} {s : State} (hk : Kept z s) : KeptOut z (execBadRegisterAccess n addr size write s) := by
  unfold execBadRegisterAccess; with_reducible repeat' first | assumption | apply next_kept | apply badAccess_kept

theorem execRsWrite_kept {n : Fin 2} {addr : Nat} {value : Word} {size : Nat} {s : State} (hk : Kept z s) : KeptOut z (execRsWrite n addr value size s) := by
  unfold execRsWrite; with_reducible repeat' first | assumption | apply next_kept | apply rsWrite_kept

theorem execCsApplyPoint_kept  {s : State} (hk : Kept z s) : KeptOut z (execCsApplyPoint s) := by
  unfold execCsApplyPoint; with_reducible repeat'
    first | assumption | apply next_kept | apply csApplyPoint_kept | apply iteK

theorem execCsStrobe_kept  {s : State} (hk : Kept z s) : KeptOut z (execCsStrobe s) := by
  unfold execCsStrobe; with_reducible repeat' first | assumption | apply next_kept | apply csStrobe_kept | apply iteK

theorem execQuiesceTimeout_kept  {s : State} (hk : Kept z s) : KeptOut z (execQuiesceTimeout s) := by
  unfold execQuiesceTimeout; with_reducible repeat'
    first | assumption | apply next_kept | apply quiesceTimeout_kept | apply iteK

theorem ringRelease_kept {fatal : Bool} {head : Nat} {s : State} (hk : Kept z s) : Kept z (ringRelease fatal head s) := by
  unfold ringRelease; with_reducible repeat' first | assumption | apply setFld_kept | apply iteK

theorem execErrorRingRelease_kept {fatal : Bool} {head : BitVec 16} {s : State} (hk : Kept z s) : KeptOut z (execErrorRingRelease fatal head s) := by
  unfold execErrorRingRelease; with_reducible repeat'
    first | assumption | apply liveNext_kept | apply ringRelease_kept

end Sys2Proof.Machine
end

