-- ==== Sys2Proof/Laws/KeptRows.lean ====
section
/-! SUPPORT. The commands keep the queue, the fuses and the canonical forms (`Kept`): one lemma for each definition of
reset, and the remaining rows. -/
namespace Sys2Proof.Machine

set_option linter.unusedTactic false
set_option linter.unreachableTactic false

variable {z : State}

/-! ### BootOps -/

theorem hbmOnly_wf  {m : Mem} (hk : Memory.wf m = true) : Memory.wf (hbmOnly m) = true := by
  unfold hbmOnly; with_reducible repeat' first | assumption | apply zero_wf

theorem copiesRelease_kept  {s : State} (hk : Kept z s) : Kept z (copiesRelease s) := by
  unfold copiesRelease; with_reducible repeat'
    first | assumption | apply dirPut_kept | refine foldl_kept (fun _ _ _ => ?_) _ ?_ | apply iteK

theorem latchRestart_kept  {s : State} (hk : Kept z s) : Kept z (latchRestart s) := by
  unfold latchRestart
  repeat' first
    | with_reducible assumption
    | (with_reducible first | apply copiesRelease_kept | apply latCancel_kept | apply latWriteBack_kept)
    | (with_reducible refine ite_kept (fun _ => ?_) (fun _ => ?_))
    | (with_reducible apply Kept.of; dsimp only)
    | (with_reducible apply Kept.core)

theorem resetParts_kept {m : Mem} {s : State} (h : Kept z s) (hm : Memory.wf s.mem = true → Memory.wf m = true) :
    Kept z (resetParts m s) := by
  unfold resetParts
  with_reducible refine setFeed_kept (setFeed_kept (setFld_kept (setFld_kept ?_)))
  exact ⟨h.1, h.2.1, fun _ => rfl, hm ∘ h.2.2.2⟩

theorem hubRegs_kept {o : State} {cause : Nat} {retained : Bool} {resets : Nat} {s : State} (h : Kept z s) :
    Kept z (hubRegs o cause retained resets s) :=
  setFld_kept (setFld_kept (setFld_kept (setFld_kept (setFld_kept h))))

theorem imageHeld_kept {o s : State} (h : Kept z s) : Kept z (imageHeld o s) := by
  unfold imageHeld
  split
  · exact h
  · with_reducible refine ite_kept (fun _ => ?_) (fun _ => ?_)
    · with_reducible refine setStepState_kept ?_
      exact h.core
    · with_reducible refine stepIdle_kept ?_
      exact h.core

theorem resetImage_kept {o : State} (h : Kept z o) : Kept z (imageHeld o (resetParts (hbmOnly o.mem) o)) :=
  imageHeld_kept (resetParts_kept h hbmOnly_wf)

theorem moduleReset_kept {o : State} (h : Kept z o) : Kept z (moduleReset o) := by
  unfold moduleReset
  have ho : Kept z (if (o.img.isSome && imgLevel o == 2 && stepIsOpen o) = true then latchRestart o else latClear (latCancel o)) :=
    ite_kept (fun _ => latchRestart_kept h) fun _ => latClear_kept (latCancel_kept h)
  apply Kept.of
  simp only []
  with_reducible apply Kept.core
  with_reducible refine foldl_kept (fun _ _ hs => latStat_kept (setFld_kept (setFld_kept hs))) _ ?_
  exact (resetImage_kept ho).core

theorem queueRestore_kept {q : Nat} {s : State} (hk : Kept z s) : Kept z (queueRestore s q) := by
  unfold queueRestore
  repeat' first
    | with_reducible assumption
    | (with_reducible first | apply jRetain_kept | apply modTQ_kept | apply report_kept | apply setFld_kept | apply setReg_kept)
    | (with_reducible refine ite_kept (fun _ => ?_) (fun _ => ?_))
    | (with_reducible apply Kept.of; dsimp only)
    | (with_reducible apply Kept.core)
    | split

theorem leavesRead_kept  {s : State} (hk : Kept z s) : Kept z (leavesRead s) := by
  unfold leavesRead; with_reducible repeat'
    first | assumption | apply addFld_kept | apply report_kept | refine foldl_kept (fun _ _ _ => ?_) _ ?_ | apply iteK

theorem replayNotices_kept  {s : State} (hk : Kept z s) : Kept z (replayNotices s) := by
  unfold replayNotices; with_reducible repeat'
    first | assumption | apply postNotice_kept | refine foldl_kept (fun _ _ _ => ?_) _ ?_ | apply iteK

theorem recordsRestart_kept  {s : State} (hk : Kept z s) : Kept z (recordsRestart s) := by
  unfold recordsRestart
  repeat' first
    | with_reducible assumption
    | (with_reducible first | apply addFld_kept | apply report_kept | apply sealRecord_kept | apply setFld_kept | apply stagedApply_kept | apply t1Abandon_kept)
    | (with_reducible refine ite_kept (fun _ => ?_) (fun _ => ?_))
    | split

theorem coreRestart_kept {ci : Nat} {s : State} (hk : Kept z s) : Kept z (coreRestart s ci) := by
  unfold coreRestart; with_reducible repeat'
    first | assumption | apply restartEntry_kept | apply setL_kept | apply iteK | split

theorem imageRestart_kept  {s : State} (hk : Kept z s) : Kept z (imageRestart s) := by
  unfold imageRestart
  repeat' first
    | with_reducible assumption
    | (with_reducible first | apply coreRestart_kept | apply hbmPut_kept | apply imageEnd_kept | apply quadDomains_kept)
    | (with_reducible refine foldl_kept (fun _ _ _ => ?_) _ ?_)
    | (with_reducible refine ite_kept (fun _ => ?_) (fun _ => ?_))
    | (with_reducible apply Kept.of; dsimp only)
    | (with_reducible apply Kept.core)
    | split

theorem noImageTickets_kept {retired : Bool} {s : State} (hk : Kept z s) : Kept z (noImageTickets retired s) := by
  unfold noImageTickets; with_reducible repeat'
    first | assumption | apply completeTicket_kept | refine foldl_kept (fun _ _ _ => ?_) _ ?_ | apply iteK | split

theorem slotsRestart_kept  {s : State} (hk : Kept z s) : Kept z (slotsRestart s) := by
  unfold slotsRestart
  repeat' first
    | with_reducible assumption
    | (with_reducible first | apply jWrite_kept | apply post_kept | apply slotBusy_kept)
    | (with_reducible refine foldl_kept (fun _ _ _ => ?_) _ ?_)
    | (with_reducible refine ite_kept (fun _ => ?_) (fun _ => ?_))
    | (with_reducible apply Kept.of; dsimp only)
    | (with_reducible apply Kept.core)
    | split

theorem replayKept_kept {retired : Bool} {s : State} (hk : Kept z s) : Kept z (replayKept retired s) := by
  unfold replayKept; with_reducible repeat'
    first | assumption | apply imageRestart_kept | apply noImageTickets_kept | apply slotsRestart_kept

theorem replayLost_kept  {s : State} (hk : Kept z s) : Kept z (replayLost s) := by
  unfold replayLost
  repeat' first
    | with_reducible assumption
    | (with_reducible first | apply completeLoad_kept | apply completeTicket_kept | apply ctlBlock_kept | apply postNotice_kept | apply setFld_kept)
    | (with_reducible refine foldl_kept (fun _ _ _ => ?_) _ ?_)
    | (with_reducible refine ite_kept (fun _ => ?_) (fun _ => ?_))
    | (with_reducible apply Kept.of; dsimp only)
    | (with_reducible apply Kept.core)
    | split

theorem restartAfter_kept {kept retired : Bool} {s : State} (hk : Kept z s) : Kept z (restartAfter kept retired s) := by
  unfold restartAfter
  repeat' first
    | with_reducible assumption
    | (with_reducible first | apply leavesRead_kept | apply queueRestore_kept | apply recordsRestart_kept | apply replayKept_kept | apply replayLost_kept | apply replayNotices_kept)
    | (with_reducible refine foldl_kept (fun _ _ _ => ?_) _ ?_)
    | (with_reducible refine ite_kept (fun _ => ?_) (fun _ => ?_))
    | (with_reducible apply Kept.of; dsimp only)
    | (with_reducible apply Kept.core)

theorem feedStart_kept  {s : State} (hk : Kept z s) : Kept z (feedStart s) := by
  unfold feedStart; with_reducible repeat' first | assumption | apply feedLimit_kept | apply iteK

theorem moduleStart_kept {kept : Bool} {s : State} (hk : Kept z s) : Kept z (moduleStart kept s) := by
  unfold moduleStart
  repeat' first
    | with_reducible assumption
    | (with_reducible first | apply boot_kept | apply feedStart_kept | apply restartAfter_kept)
    | (with_reducible apply Kept.of; dsimp only)
    | (with_reducible apply Kept.core)

theorem powerSeq_kept  {s : State} (hk : Kept z s) : Kept z (powerSeq s) := by
  unfold powerSeq; with_reducible repeat' first | assumption | apply hubRegs_kept | apply moduleStart_kept

/-! ### BootRows -/

theorem powerUp_kept {straps : Nat} {a b : Bool} {s : State} (hk : Kept z s) : Kept z (powerUp straps a b s) := by
  unfold powerUp
  repeat' first
    | with_reducible assumption
    | (with_reducible first | apply jnlPut_kept | apply powerSeq_kept | apply setFeed_kept | apply setFld_kept)
    | (with_reducible refine ite_kept (fun _ => ?_) (fun _ => ?_))
    | (with_reducible apply Kept.of; dsimp only)
    | (with_reducible apply Kept.core)

theorem execPowerUp_kept {straps : BitVec 2} {feedA feedB : Bool} {s : State} (hk : Kept z s) : KeptOut z (execPowerUp straps feedA feedB s) := by
  unfold execPowerUp; with_reducible repeat' first | assumption | apply next_kept | apply powerUp_kept

theorem modRst_kept  {s : State} (hk : Kept z s) : Kept z (modRst s) := by
  unfold modRst
  repeat' first
    | with_reducible assumption
    | (with_reducible first | apply hubRegs_kept | apply moduleReset_kept)
    | (with_reducible refine ite_kept (fun _ => ?_) (fun _ => ?_))
    | (with_reducible apply Kept.of; dsimp only)
    | (with_reducible apply Kept.core)

theorem execModRstN_kept  {s : State} (hk : Kept z s) : KeptOut z (execModRstN s) := by
  unfold execModRstN; with_reducible repeat' first | assumption | apply next_kept | apply modRst_kept

theorem modRstRelease_kept  {s : State} (hk : Kept z s) : Kept z (modRstRelease s) := by
  unfold modRstRelease
  repeat' first
    | with_reducible assumption
    | (with_reducible first | apply moduleStart_kept | apply powerSeq_kept)
    | (with_reducible refine ite_kept (fun _ => ?_) (fun _ => ?_))
    | (with_reducible apply Kept.of; dsimp only)
    | (with_reducible apply Kept.core)

theorem execModRstNRelease_kept  {s : State} (hk : Kept z s) : KeptOut z (execModRstNRelease s) := by
  unfold execModRstNRelease; with_reducible repeat' first | assumption | apply next_kept | apply modRstRelease_kept

theorem powerLoss_kept {s : State} (h : Kept z s) : Kept z (powerLoss s) := by
  unfold powerLoss
  with_reducible refine ite_kept (fun _ => h) (fun _ => ?_)
  apply Kept.of
  simp only []
  with_reducible apply Kept.core
  exact resetParts_kept h.core fun _ => rfl

theorem execPowerLoss_kept  {s : State} (hk : Kept z s) : KeptOut z (execPowerLoss s) := by
  unfold execPowerLoss; with_reducible repeat' first | assumption | apply next_kept | apply powerLoss_kept

theorem execPerst_kept {n : Fin 2} {s : State} (hk : Kept z s) : KeptOut z (execPerst n s) := by
  unfold execPerst
  repeat' first
    | with_reducible assumption
    | (with_reducible apply next_kept)
    | with_reducible apply hostDown_kept
    | (with_reducible refine ite_kept (fun _ => ?_) (fun _ => ?_))
    | (with_reducible apply Kept.of; dsimp only)
    | (with_reducible apply Kept.core)

theorem execPerstRelease_kept {n : Fin 2} {s : State} (hk : Kept z s) : KeptOut z (execPerstRelease n s) := by
  unfold execPerstRelease; with_reducible repeat'
    first | assumption | apply next_kept | apply iteK | (apply Kept.of; dsimp only) | apply Kept.core

theorem execPerstaNRelease_kept  {s : State} (hk : Kept z s) : KeptOut z (execPerstaNRelease s) := by
  unfold execPerstaNRelease; with_reducible repeat'
    first | assumption | apply next_kept | apply iteK | (apply Kept.of; dsimp only) | apply Kept.core

/-! ### Doubling -/

theorem swapOut_kept {l : LCore} {s : State} (hk : Kept z s) : Kept z (swapOut l s) := by
  unfold swapOut; with_reducible repeat'
    first | assumption | apply forgetRange_kept | refine foldl_kept (fun _ _ _ => ?_) _ ?_

theorem detentRelease_kept {ci : Nat} {s : State} (hk : Kept z s) : Kept z (detentRelease ci s) := by
  unfold detentRelease; with_reducible repeat'
    first | assumption | apply pump_kept | apply setL_kept | apply iteK | split

theorem execDetentRelease_kept {c : Fin 256} {s : State} (hk : Kept z s) : KeptOut z (execDetentRelease c s) := by
  unfold execDetentRelease; with_reducible repeat' first | assumption | apply next_kept | apply detentRelease_kept

theorem doublingSwap_kept {p : Nat} {s : State} (hk : Kept z s) : Kept z (doublingSwap p s) := by
  unfold doublingSwap
  repeat' first
    | with_reducible assumption
    | (with_reducible first | apply modL_kept | apply pump_kept | apply swapOut_kept)
    | (with_reducible refine takePort_kept ?_ (by with_reducible assumption))
    | (with_reducible refine ite_kept (fun _ => ?_) (fun _ => ?_))
    | (with_reducible apply Kept.of; dsimp only)
    | (with_reducible apply Kept.core)
    | split

theorem execDoublingSwap_kept {phys : Fin 256} {s : State} (hk : Kept z s) : KeptOut z (execDoublingSwap phys s) := by
  unfold execDoublingSwap; with_reducible repeat' first | assumption | apply next_kept | apply doublingSwap_kept

/-! ### FabricRows -/

theorem execFlitReceived_kept {port : Fin 16} {flit : FlitBits} {cws : List Codeword} {s : State} (hk : Kept z s) : KeptOut z (execFlitReceived port flit cws s) := by
  unfold execFlitReceived; with_reducible repeat' first | assumption | apply liveNext_kept | apply flitReceived_kept

theorem execRetryTimeout_kept {port : Fin 16} {s : State} (hk : Kept z s) : KeptOut z (execRetryTimeout port s) := by
  unfold execRetryTimeout; with_reducible repeat'
    first | assumption | apply liveNext_kept | apply addFld_kept | apply setPort_kept | apply iteK

theorem execProgressTimeout_kept {port : Fin 16} {s : State} (hk : Kept z s) : KeptOut z (execProgressTimeout port s) := by
  unfold execProgressTimeout; with_reducible repeat'
    first | assumption | apply liveNext_kept | apply fastStart_kept | apply iteK

theorem execLaneFault_kept {port : Fin 16} {lane : Fin 8} {s : State} (hk : Kept z s) : KeptOut z (execLaneFault port lane s) := by
  unfold execLaneFault; with_reducible repeat'
    first | assumption | apply liveNext_kept | apply fastStart_kept | apply iteK

theorem resendAll_kept {n : Nat} {s : State} (hk : Kept z s) : Kept z (resendAll n s) := by
  unfold resendAll; with_reducible repeat' first | assumption | apply addFld_kept | apply modPort_kept | apply iteK

theorem fastDone_kept {n : Nat} {lanes : Nat} {rs : List Bitting} {ds : List Nat} {s : State} (hk : Kept z s) : Kept z (fastDone n lanes rs ds s) := by
  unfold fastDone
  repeat' first
    | with_reducible assumption
    | (with_reducible first | apply bittingAccept_kept | apply modPort_kept | apply portDelay_kept | apply report_kept | apply resendAll_kept | apply setFld_kept)
    | (with_reducible refine ite_kept (fun _ => ?_) (fun _ => ?_))
    | (with_reducible apply Kept.of; dsimp only)
    | (with_reducible apply Kept.core)
    | split

theorem execFastRetrainDone_kept {port : Fin 16} {lanes : BitVec 8} {recs : List Bitting} {delays : List Nat} {s : State} (hk : Kept z s) : KeptOut z (execFastRetrainDone port lanes recs delays s) := by
  unfold execFastRetrainDone; with_reducible repeat' first | assumption | apply liveNext_kept | apply fastDone_kept

theorem stageDone_kept {n lanes : Nat} {ds : List Nat} {s : State} (hk : Kept z s) : Kept z (stageDone n lanes ds s) := by
  unfold stageDone
  repeat' first
    | with_reducible assumption
    | (with_reducible first | apply bittingBegin_kept | apply modPort_kept | apply portDelay_kept | apply portState_kept | apply setFld_kept)
    | (with_reducible refine ite_kept (fun _ => ?_) (fun _ => ?_))
    | split

theorem execBringupStageDone_kept {port : Fin 16} {lanes : BitVec 8} {delays : List Nat} {s : State} (hk : Kept z s) : KeptOut z (execBringupStageDone port lanes delays s) := by
  unfold execBringupStageDone; with_reducible repeat' first | assumption | apply liveNext_kept | apply stageDone_kept

theorem bittingRecord_kept {n : Nat} {r : Bitting} {s : State} (hk : Kept z s) : Kept z (bittingRecord n r s) := by
  unfold bittingRecord; with_reducible repeat'
    first | assumption | apply bittingAccept_kept | apply modPort_kept | apply iteK

theorem execBittingRecord_kept {port : Fin 16} {rec : Bitting} {s : State} (hk : Kept z s) : KeptOut z (execBittingRecord port rec s) := by
  unfold execBittingRecord; with_reducible repeat' first | assumption | apply liveNext_kept | apply bittingRecord_kept

theorem execBringupTimeout_kept {port : Fin 16} {s : State} (hk : Kept z s) : KeptOut z (execBringupTimeout port s) := by
  unfold execBringupTimeout; with_reducible repeat'
    first | assumption | apply liveNext_kept | apply portFail_kept | apply iteK | split

theorem execLinkDown_kept {port : Fin 16} {s : State} (hk : Kept z s) : KeptOut z (execLinkDown port s) := by
  unfold execLinkDown; with_reducible repeat'
    first | assumption | apply liveNext_kept | apply portDown_kept | apply iteK

theorem execFabricPacket_kept {arrivedOn : Option (Fin 16)} {p : Packet} {s : State} (hk : Kept z s) : KeptOut z (execFabricPacket arrivedOn p s) := by
  unfold execFabricPacket; with_reducible repeat' first | assumption | apply liveNext_kept | apply routePacket_kept

theorem execRetrain_kept {port : Fin 16} {s : State} (hk : Kept z s) : KeptOut z (execRetrain port s) := by
  unfold execRetrain; with_reducible repeat'
    first | assumption | apply liveNext_kept | apply modPort_kept | apply portBringup_kept | apply iteK

theorem ackGap_kept {d : Nat} {flow : Member} {cls : Nat} {s : State} (hk : Kept z s) : Kept z (ackGap d flow cls s) := by
  unfold ackGap; with_reducible repeat'
    first | assumption | apply ackSend_kept | refine foldl_kept (fun _ _ _ => ?_) _ ?_ | apply iteK | split

theorem execAckGapExpiry_kept {d : Fin 8} {flow : Member} {cls : BitVec 2} {s : State} (hk : Kept z s) : KeptOut z (execAckGapExpiry d flow cls s) := by
  unfold execAckGapExpiry; with_reducible repeat' first | assumption | apply liveNext_kept | apply ackGap_kept

/-! ### KGRows -/

theorem execKroute_kept {c : Fin 256} {f : FmtD} {s : State} (hk : Kept z s) : KeptOut z (execKroute c f s) := by
  unfold execKroute; with_reducible repeat' first | assumption | apply next_kept | apply issueD_kept

theorem execKsendDispatch_kept {c : Fin 256} {f : FmtD} {s : State} (hk : Kept z s) : KeptOut z (execKsendDispatch c f s) := by
  unfold execKsendDispatch; with_reducible repeat' first | assumption | apply next_kept | apply issueD_kept

theorem execKsendAnswer_kept {c : Fin 256} {f : FmtD} {s : State} (hk : Kept z s) : KeptOut z (execKsendAnswer c f s) := by
  unfold execKsendAnswer; with_reducible repeat' first | assumption | apply next_kept | apply issueD_kept

theorem execKcomb_kept {c : Fin 256} {f : FmtD} {s : State} (hk : Kept z s) : KeptOut z (execKcomb c f s) := by
  unfold execKcomb; with_reducible repeat' first | assumption | apply next_kept | apply issueD_kept

theorem execKepoch_kept {c : Fin 256} {f : FmtD} {s : State} (hk : Kept z s) : KeptOut z (execKepoch c f s) := by
  unfold execKepoch; with_reducible repeat' first | assumption | apply next_kept | apply issueD_kept

theorem execKsendComplete_kept {c : Fin 256} {s : State} (hk : Kept z s) : KeptOut z (execKsendComplete c s) := by
  unfold execKsendComplete; with_reducible repeat' first | assumption | apply next_kept | apply finishWhere_kept

theorem execKcombResumes_kept {c : Fin 256} {s : State} (hk : Kept z s) : KeptOut z (execKcombResumes c s) := by
  unfold execKcombResumes; with_reducible repeat'
    first | assumption | apply next_kept | apply kcombDo_kept | apply pump_kept | apply iteK | split

theorem execKepochComplete_kept {c : Fin 256} {s : State} (hk : Kept z s) : KeptOut z (execKepochComplete c s) := by
  unfold execKepochComplete; with_reducible repeat'
    first | assumption | apply next_kept | apply modL_kept | apply pump_kept | apply iteK | split

theorem execGred_kept {c : Fin 256} {f : FmtD} {s : State} (hk : Kept z s) : KeptOut z (execGred c f s) := by
  unfold execGred; with_reducible repeat' first | assumption | apply next_kept | apply issueD_kept

theorem execGallg_kept {c : Fin 256} {f : FmtD} {s : State} (hk : Kept z s) : KeptOut z (execGallg c f s) := by
  unfold execGallg; with_reducible repeat' first | assumption | apply next_kept | apply issueD_kept

theorem execGbcast_kept {c : Fin 256} {f : FmtD} {s : State} (hk : Kept z s) : KeptOut z (execGbcast c f s) := by
  unfold execGbcast; with_reducible repeat' first | assumption | apply next_kept | apply issueD_kept

theorem collectiveLaunch_kept {ci : Nat} {s : State} (hk : Kept z s) : Kept z (collectiveLaunch ci s) := by
  unfold collectiveLaunch; with_reducible repeat'
    first | assumption | apply pump_kept | refine gStart_kept ?_ (by assumption) | split

theorem bucketDone_kept {id : BitVec 32} {s : State} (hk : Kept z s) : Kept z (bucketDone id s) := by
  unfold bucketDone
  repeat' first
    | with_reducible assumption
    | (with_reducible first | apply catchAdd_kept | apply memPut_kept | apply modBucket_kept)
    | (with_reducible refine ite_kept (fun _ => ?_) (fun _ => ?_))
    | (with_reducible apply Kept.of; dsimp only)
    | (with_reducible apply Kept.core)
    | split

theorem execGredComplete_kept {c : Fin 256} {s : State} (hk : Kept z s) : KeptOut z (execGredComplete c s) := by
  unfold execGredComplete
  repeat' first
    | with_reducible assumption
    | (with_reducible apply next_kept)
    | (with_reducible first | apply bucketDone_kept | apply modShare_kept | apply pump_kept | apply setL_kept)
    | (with_reducible apply Kept.of; dsimp only)
    | (with_reducible apply Kept.core)
    | split

/-! ### FrameRows -/

theorem heldFire_kept {a : HeldAct} {s : State} (hk : Kept z s) : Kept z (heldFire a s) := by
  unfold heldFire
  repeat' first
    | with_reducible assumption
    | (with_reducible first | apply addFld_kept | apply collectionClose_kept | apply collectiveLaunch_kept | apply commitDo_kept | apply contributionDeadline_kept | apply fwaitEnd_kept | apply queryExpiry_kept | apply repeatOpen_kept | apply takeCut_kept | apply windowOpen_kept)
    | (with_reducible apply Kept.of; dsimp only)
    | (with_reducible apply Kept.core)
    | split

theorem fireHeld_kept  {s : State} (hk : Kept z s) : Kept z (fireHeld s) := by
  unfold fireHeld
  repeat' first
    | with_reducible assumption
    | (with_reducible first | apply addFld_kept | apply heldFire_kept)
    | (with_reducible refine foldl_kept (fun _ _ _ => ?_) _ ?_)
    | (with_reducible refine ite_kept (fun _ => ?_) (fun _ => ?_))

theorem lockFire_kept {before : Nat} {s : State} (hk : Kept z s) : Kept z (lockFire before s) := by
  unfold lockFire; with_reducible repeat' first | assumption | apply fireHeld_kept | apply iteK

theorem execSnapshotCut_kept  {s : State} (hk : Kept z s) : KeptOut z (execSnapshotCut s) := by
  unfold execSnapshotCut; with_reducible repeat'
    first | assumption | apply liveNext_kept | apply takeCut_kept | apply iteK | split

theorem execCollectiveLaunch_kept {c : Fin 256} {s : State} (hk : Kept z s) : KeptOut z (execCollectiveLaunch c s) := by
  unfold execCollectiveLaunch; with_reducible repeat'
    first | assumption | apply next_kept | apply collectiveLaunch_kept | apply iteK | split

theorem fwaitFires_kept {ci : Nat} {s : State} (hk : Kept z s) : Kept z (fwaitFires ci s) := by
  unfold fwaitFires; with_reducible repeat' first | assumption | apply fwaitEnd_kept | apply iteK | split

theorem execFwaitFires_kept {c : Fin 256} {s : State} (hk : Kept z s) : KeptOut z (execFwaitFires c s) := by
  unfold execFwaitFires; with_reducible repeat' first | assumption | apply next_kept | apply fwaitFires_kept

theorem execLoopWindowOpen_kept {w : Fin 4} {s : State} (hk : Kept z s) : KeptOut z (execLoopWindowOpen w s) := by
  unfold execLoopWindowOpen; with_reducible repeat'
    first | assumption | apply liveNext_kept | apply windowOpen_kept | apply iteK

theorem execLoopWindowClose_kept {w : Fin 4} {s : State} (hk : Kept z s) : KeptOut z (execLoopWindowClose w s) := by
  unfold execLoopWindowClose; with_reducible repeat'
    first | assumption | apply liveNext_kept | apply iteK | (apply Kept.of; dsimp only) | apply Kept.core

theorem execQueryDeadlineExpiry_kept {q : Fin 32} {seq : Word} {s : State} (hk : Kept z s) : KeptOut z (execQueryDeadlineExpiry q seq s) := by
  unfold execQueryDeadlineExpiry; with_reducible repeat'
    first | assumption | apply liveNext_kept | apply queryExpiry_kept | apply iteK | split

theorem execContributionDeadline_kept {bucket : BitVec 32} {s : State} (hk : Kept z s) : KeptOut z (execContributionDeadline bucket s) := by
  unfold execContributionDeadline; with_reducible repeat'
    first | assumption | apply liveNext_kept | apply contributionDeadline_kept | apply iteK

theorem execFrameBoundary_kept  {s : State} (hk : Kept z s) : KeptOut z (execFrameBoundary s) := by
  unfold execFrameBoundary; with_reducible repeat'
    first | assumption | apply liveNext_kept | apply frameBoundary_kept | apply lockFire_kept

theorem execCorrectionWindowClose_kept  {s : State} (hk : Kept z s) : KeptOut z (execCorrectionWindowClose s) := by
  unfold execCorrectionWindowClose; with_reducible repeat'
    first | assumption | apply liveNext_kept | apply windowClose_kept

theorem frameInEdge_kept {e : Nat} {s : State} (hk : Kept z s) : Kept z (frameInEdge e s) := by
  unfold frameInEdge; with_reducible repeat'
    first | assumption | apply frameEstimate_kept | apply lockFire_kept | apply iteK

theorem execFrameInEdge_kept {e : Nat} {s : State} (hk : Kept z s) : KeptOut z (execFrameInEdge e s) := by
  unfold execFrameInEdge; with_reducible repeat' first | assumption | apply liveNext_kept | apply frameInEdge_kept

theorem pulseNumber_kept {num : Nat} {s : State} (hk : Kept z s) : Kept z (pulseNumber num s) := by
  unfold pulseNumber; with_reducible repeat'
    first | assumption | apply frameLoss_kept | apply modFrame_kept | apply iteK

theorem framePacket_kept {n : Nat} {p : FramePkt} {s : State} (hk : Kept z s) : Kept z (framePacket n p s) := by
  unfold framePacket
  repeat' first
    | with_reducible assumption
    | (with_reducible first | apply frameEstimate_kept | apply lockFire_kept | apply modFrame_kept | apply pulseNumber_kept | apply setFld_kept)
    | (with_reducible refine ite_kept (fun _ => ?_) (fun _ => ?_))

theorem frameTake_kept {p : FramePkt} {s : State} (hk : Kept z s) : Kept z (frameTake p s) := by
  unfold frameTake; with_reducible repeat' first | assumption | apply takeInbound_kept1

theorem execFramePacket_kept {port : Fin 16} {p : FramePkt} {s : State} (hk : Kept z s) : KeptOut z (execFramePacket port p s) := by
  unfold execFramePacket; with_reducible repeat'
    first | assumption | apply liveNext_kept | apply framePacket_kept | apply frameTake_kept

/-! ### KprOps -/

theorem swapEnd_kept {l : StepList} {status : Code} {s : State} (hk : Kept z s) : Kept z (swapEnd l status s) := by
  unfold swapEnd
  repeat' first
    | with_reducible assumption
    | (with_reducible first | apply cmdDone_kept | apply listEnd_kept | apply setFld_kept)
    | (with_reducible apply Kept.of; dsimp only)
    | (with_reducible apply Kept.core)
    | split

theorem swapStart_kept {op : ListOp} {n : Nat} {tag : BitVec 8} {s : State} (hk : Kept z s) : Kept z (swapStart op n tag s) := by
  unfold swapStart
  repeat' first
    | with_reducible assumption
    | (with_reducible first | apply cmdDone_kept | apply listStart_kept | apply secCode_kept | apply setFld_kept)
    | (with_reducible refine ite_kept (fun _ => ?_) (fun _ => ?_))

theorem swapDone_kept {l : StepList} {s : State} (hk : Kept z s) : Kept z (swapDone l s) := by
  unfold swapDone
  repeat' first
    | with_reducible assumption
    | (with_reducible first | apply addFld_kept | apply logAppend_kept | apply swapEnd_kept)
    | (with_reducible apply Kept.of; dsimp only)
    | (with_reducible apply Kept.core)

theorem swapBroken_kept {op : ListOp} {p : Nat} {s : State} (hk : Kept z s) : Kept z (swapBroken op p s) := by
  unfold swapBroken
  repeat' first
    | with_reducible assumption
    | (with_reducible first | apply coreFault_kept | apply portDown_kept | apply portState_kept | apply uncoreFault_kept)
    | (with_reducible refine ite_kept (fun _ => ?_) (fun _ => ?_))
    | split

theorem swapStep_kept {l : StepList} {ok : Bool} {bad : Option Nat} {s : State} (hk : Kept z s) : Kept z (swapStep l ok bad s) := by
  unfold swapStep
  repeat' first
    | with_reducible assumption
    | (with_reducible first | apply openGap_kept | apply pumpAll_kept | apply report_kept | apply swapBroken_kept | apply swapDone_kept | apply swapEnd_kept)
    | (with_reducible refine ite_kept (fun _ => ?_) (fun _ => ?_))
    | (with_reducible apply Kept.of; dsimp only)
    | (with_reducible apply Kept.core)
    | split

theorem stagedReg_kept  {s : State} (hk : Kept z s) : Kept z (stagedReg s) := by
  unfold stagedReg; with_reducible repeat' first | assumption | apply setFld_kept

theorem fwStaged_kept {a n : Nat} {s : State} (hk : Kept z s) {x : Code} {t : State} (e : fwStaged a n s = (x, t)) : Kept z t := by
  unfold fwStaged at e
  try dsimp only at e
  repeat' split at e
  all_goals first
    | (cases e; done)
    | (cases e
       repeat' first
         | with_reducible assumption
         | with_reducible apply stagedReg_kept
         | (with_reducible apply Kept.of; dsimp only)
         | (with_reducible apply Kept.core)
       done)

theorem fwStaged_kept1 {a n : Nat} {s : State} (hk : Kept z s) : Kept z (fwStaged a n s).2 := fwStaged_kept hk rfl

theorem slotErase_kept {k : Nat} {s : State} (hk : Kept z s) : Kept z (slotErase k s) := hk

theorem fwWritten_kept  {s : State} (hk : Kept z s) {x : Code} {t : State} (e : fwWritten s = (x, t)) : Kept z t := by
  unfold fwWritten at e
  try dsimp only at e
  repeat' split at e
  all_goals first
    | (cases e; done)
    | (cases e
       repeat' first
         | with_reducible assumption
         | (with_reducible first | apply addFld_kept | apply selWrite_kept)
         | (with_reducible apply Kept.of; dsimp only)
         | (with_reducible apply Kept.core)
       done)

theorem fwWritten_kept1  {s : State} (hk : Kept z s) : Kept z (fwWritten s).2 := fwWritten_kept hk rfl

theorem fwSelected_kept {k : Nat} {s : State} (hk : Kept z s) {x : Code} {t : State} (e : fwSelected k s = (x, t)) : Kept z t := by
  unfold fwSelected at e
  try dsimp only at e
  repeat' split at e
  all_goals first
    | (cases e; done)
    | (cases e
       repeat' first
         | with_reducible assumption
         | with_reducible apply selWrite_kept
       done)

theorem fwSelected_kept1 {k : Nat} {s : State} (hk : Kept z s) : Kept z (fwSelected k s).2 := fwSelected_kept hk rfl

theorem keyDone_kept  {s : State} (hk : Kept z s) : Kept z (keyDone s) := by
  unfold keyDone; with_reducible repeat'
    first | assumption | apply addFld_kept | apply logAppend_kept | (apply Kept.of; dsimp only) | apply Kept.core

theorem svnCommit_kept  {s : State} (hk : Kept z s) : Kept z (svnCommit s) := by
  unfold svnCommit; with_reducible repeat'
    first | assumption | apply jnlPut_kept | apply setFld_kept | (apply Kept.of; dsimp only) | apply Kept.core | split

theorem secEnd_kept {l : StepList} {r : Code × State} (h : Kept z r.2) : Kept z (secEnd l r) := by
  unfold secEnd
  have h1 : Kept z (if r.1 = cFLASH_IO then report cFLASH_IO (srcOf 8 15 0) 0 (listEnd l.op r.2) else listEnd l.op r.2) :=
    ite_kept (fun _ => report_kept (listEnd_kept h)) fun _ => listEnd_kept h
  simp only []
  split
  · with_reducible exact cmdDone_kept (secCode_kept h1)
  · exact h1

theorem secStep_kept {l : StepList} {ok : Bool} {s : State} (h : Kept z s) : Kept z (secStep l ok s) := by
  unfold secStep
  simp only []
  split
  · exact ite_kept (fun _ => secEnd_kept (fwStaged_kept1 h)) fun _ => h
  · exact ite_kept (fun _ => secEnd_kept h) fun _ => ite_kept (fun _ => secEnd_kept (fwWritten_kept1 h)) fun _ => h
  · exact ite_kept (fun _ => secEnd_kept h) fun _ => secEnd_kept (fwSelected_kept1 h)
  · exact ite_kept (fun _ => secEnd_kept (keyDone_kept h)) fun _ => h
  · exact h

theorem secStart_kept {op : ListOp} {n : Nat} {tag : BitVec 8} {s : State} (hk : Kept z s) : Kept z (secStart op n tag s) := by
  unfold secStart
  repeat' first
    | with_reducible assumption
    | (with_reducible first | apply cmdDone_kept | apply cmdFree_kept | apply listStart_kept | apply slotErase_kept)
    | (with_reducible refine ite_kept (fun _ => ?_) (fun _ => ?_))
    | (with_reducible apply Kept.of; dsimp only)
    | (with_reducible apply Kept.core)
    | split

theorem scrubStart_kept {dies : Nat} {s : State} (hk : Kept z s) : Kept z (scrubStart dies s) := by
  unfold scrubStart; with_reducible repeat'
    first | assumption | apply listStart_kept | (apply Kept.of; dsimp only) | apply Kept.core

theorem scrubDone_kept {dies : Nat} {s : State} (hk : Kept z s) : Kept z (scrubDone dies s) := by
  unfold scrubDone; with_reducible repeat'
    first | assumption | apply addFld_kept | refine foldl_kept (fun _ _ _ => ?_) _ ?_

theorem scrubAuto_kept  {s : State} (hk : Kept z s) : Kept z (scrubAuto s) := by
  unfold scrubAuto; with_reducible repeat' first | assumption | apply scrubStart_kept | apply iteK

theorem arcUpd_kept {s : State} {a : ArcSt} (h : Kept z s) : Kept z { s with arc := a } := h

theorem restart_kept {n : Nat} {s : State} (h : Kept z s) : Kept z (restart n s) := by
  unfold restart
  with_reducible refine ite_kept (fun _ => cmdDone_kept h) (fun _ => ?_)
  with_reducible exact moduleStart_kept (hubRegs_kept (arcUpd_kept (moduleReset_kept h)))

theorem cmdRun_kept {s : State} {k : KCmd} (h : Kept z s) : Kept z (cmdRun s k) := by
  unfold cmdRun
  simp only []
  repeat' first
    | with_reducible assumption
    | (with_reducible first | apply cmdDone_kept | apply csAbandon_kept | apply csCommit_kept | apply csOpen_kept | apply restart_kept | apply scrubStart_kept | apply secStart_kept | apply svnCommit_kept | apply swapStart_kept)
    | (with_reducible refine ite_kept (fun _ => ?_) (fun _ => ?_))
    | (with_reducible apply Kept.of; dsimp only)
    | (with_reducible apply Kept.core)
    | split
    | simp only []
    | dsimp only

theorem romRun_kept {n : Nat} {write : Bool} {s : State} (hk : Kept z s) : Kept z (romRun n write s) := by
  unfold romRun
  repeat' first
    | with_reducible assumption
    | (with_reducible first | apply cmdDone_kept | apply cmdFree_kept | apply secCode_kept | apply slotErase_kept)
    | (with_reducible apply fwStaged_kept1)
    | (with_reducible apply fwWritten_kept1)
    | (with_reducible refine ite_kept (fun _ => ?_) (fun _ => ?_))

theorem cmdRow_kept {n c : Nat} {tag : BitVec 8} {s : State} (hk : Kept z s) : Kept z (cmdRow n c tag s) := by
  unfold cmdRow
  repeat' first
    | with_reducible assumption
    | (with_reducible first | apply cmdRun_kept | apply romRun_kept | apply setFld_kept)
    | (with_reducible refine ite_kept (fun _ => ?_) (fun _ => ?_))
    | (with_reducible apply Kept.of; dsimp only)
    | (with_reducible apply Kept.core)

theorem cmdsHeld_kept  {s : State} (hk : Kept z s) : Kept z (cmdsHeld s) := by
  unfold cmdsHeld
  repeat' first
    | with_reducible assumption
    | with_reducible apply cmdRun_kept
    | (with_reducible refine foldl_kept (fun _ _ _ => ?_) _ ?_)
    | (with_reducible apply Kept.of; dsimp only)
    | (with_reducible apply Kept.core)

theorem listTurn_kept {l : StepList} {s : State} (hk : Kept z s) : Kept z (listTurn l s) := by
  unfold listTurn; with_reducible repeat'
    first | assumption | apply iteK | (apply Kept.of; dsimp only) | apply Kept.core | split

theorem listStep_kept {l : StepList} {ok : Bool} {bad : Option Nat} {s : State} (hk : Kept z s) : Kept z (listStep l ok bad s) := by
  unfold listStep
  repeat' first
    | with_reducible assumption
    | (with_reducible first | apply listEnd_kept | apply quadDone_kept | apply quadStep_kept | apply scrubDone_kept | apply sealStep_kept | apply secStep_kept | apply swapStep_kept)
    | (with_reducible refine ite_kept (fun _ => ?_) (fun _ => ?_))
    | (with_reducible apply Kept.of; dsimp only)
    | (with_reducible apply Kept.core)
    | split

theorem listTick_kept {ok : Bool} {bad : Option Nat} {s : State} (hk : Kept z s) : Kept z (listTick ok bad s) := by
  unfold listTick; with_reducible repeat' first | assumption | apply listStep_kept | apply listTurn_kept | split

theorem errTick_kept  {s : State} (hk : Kept z s) : Kept z (errTick s) := by
  unfold errTick
  repeat' first
    | with_reducible assumption
    | (with_reducible first | apply errPendReg_kept | apply errSend_kept)
    | (with_reducible refine foldl_kept (fun _ _ _ => ?_) _ ?_)
    | (with_reducible apply Kept.of; dsimp only)
    | (with_reducible apply Kept.core)

theorem beatTick_kept  {s : State} (hk : Kept z s) : Kept z (beatTick s) := by
  unfold beatTick
  repeat' first
    | with_reducible assumption
    | with_reducible apply sendCtl_kept
    | (with_reducible refine foldl_kept (fun _ _ _ => ?_) _ ?_)
    | (with_reducible refine ite_kept (fun _ => ?_) (fun _ => ?_))
    | (with_reducible apply Kept.of; dsimp only)
    | (with_reducible apply Kept.core)

theorem fenceTick_kept  {s : State} (hk : Kept z s) : Kept z (fenceTick s) := by
  unfold fenceTick
  repeat' first
    | with_reducible assumption
    | (with_reducible first | apply ceFence_kept | apply fenceCore_kept)
    | (with_reducible refine foldl_kept (fun _ _ _ => ?_) _ ?_)
    | (with_reducible refine ite_kept (fun _ => ?_) (fun _ => ?_))
    | (with_reducible apply Kept.of; dsimp only)
    | (with_reducible apply Kept.core)

theorem idTick_kept {i : TickIn} {s : State} (hk : Kept z s) : Kept z (idTick i s) := by
  unfold idTick; with_reducible repeat' first | assumption | apply feedRead_kept | apply iteK

theorem idsHandle_kept {p : Packet} {s : State} (hk : Kept z s) : Kept z (idsHandle p s) := by
  unfold idsHandle
  repeat' first
    | with_reducible assumption
    | (with_reducible first | apply holdBegin_kept | apply holdEnd_kept | apply sendIds_kept | apply takePacket_kept)
    | (with_reducible refine ite_kept (fun _ => ?_) (fun _ => ?_))

theorem idsTick_kept  {s : State} (hk : Kept z s) : Kept z (idsTick s) := by
  unfold idsTick; with_reducible repeat'
    first | assumption | apply idsHandle_kept | apply inFlow_kept | refine foldl_kept (fun _ _ _ => ?_) _ ?_

theorem drawTick_kept {i : TickIn} {s : State} (hk : Kept z s) : Kept z (drawTick i s) := by
  unfold drawTick; with_reducible repeat'
    first | assumption | apply setFld_kept | refine foldl_kept (fun _ _ _ => ?_) _ ?_

theorem policyTick_kept {i : TickIn} {s : State} (hk : Kept z s) : Kept z (policyTick i s) := by
  unfold policyTick
  repeat' first
    | with_reducible assumption
    | (with_reducible first | apply beatTick_kept | apply coastHold_kept | apply drawTick_kept | apply feedTick_kept | apply meterDie_kept | apply policyPass_kept | apply refTick_kept | apply thermalTick_kept)
    | (with_reducible refine foldl_kept (fun _ _ _ => ?_) _ ?_)
    | (with_reducible refine ite_kept (fun _ => ?_) (fun _ => ?_))

theorem tickBegin_kept  {s : State} (hk : Kept z s) : Kept z (tickBegin s) := by
  unfold tickBegin; with_reducible repeat'
    first | assumption | apply errTick_kept | apply setFld_kept | (apply Kept.of; dsimp only) | apply Kept.core

theorem jnlBad_kept {off : Nat} {s : State} (hk : Kept z s) : Kept z (jnlBad s off) := by
  unfold jnlBad; with_reducible repeat'
    first | assumption | apply report_kept | apply iteK | (apply Kept.of; dsimp only) | apply Kept.core

theorem jnlErrors_kept {i : TickIn} {s : State} (hk : Kept z s) : Kept z (jnlErrors i s) := by
  unfold jnlErrors; with_reducible repeat'
    first | assumption | apply addFld_kept | apply jnlBad_kept | refine foldl_kept (fun _ _ _ => ?_) _ ?_

theorem keeperTick_kept {i : TickIn} {s : State} (hk : Kept z s) : Kept z (keeperTick i s) := by
  unfold keeperTick
  repeat' first
    | with_reducible assumption
    | (with_reducible first | apply arcRetrain_kept | apply cmdsHeld_kept | apply dispatch_kept | apply fenceTick_kept | apply idTick_kept | apply idsTick_kept | apply jnlErrors_kept | apply listTick_kept | apply policyTick_kept | apply portsOwed_kept | apply scrubAuto_kept | apply setFld_kept | apply stacksOut_kept | apply t1Tick_kept | apply tickBegin_kept)
    | (with_reducible refine ite_kept (fun _ => ?_) (fun _ => ?_))

theorem lockstep_kept  {s : State} (hk : Kept z s) : Kept z (lockstep s) := by
  unfold lockstep
  repeat' first
    | with_reducible assumption
    | (with_reducible first | apply jnlPut_kept | apply moduleLoss_kept | apply report_kept)
    | (with_reducible refine ite_kept (fun _ => ?_) (fun _ => ?_))
    | (with_reducible apply Kept.of; dsimp only)
    | (with_reducible apply Kept.core)

theorem listRestart_kept  {s : State} (hk : Kept z s) : Kept z (listRestart s) := by
  unfold listRestart
  repeat' first
    | with_reducible assumption
    | (with_reducible first | apply cmdDone_kept | apply listsReg_kept | apply setFld_kept)
    | (with_reducible refine foldl_kept (fun _ _ _ => ?_) _ ?_)
    | (with_reducible refine ite_kept (fun _ => ?_) (fun _ => ?_))
    | (with_reducible apply Kept.of; dsimp only)
    | (with_reducible apply Kept.core)
    | split

theorem csRestart_kept  {s : State} (hk : Kept z s) : Kept z (csRestart s) := by
  unfold csRestart
  repeat' first
    | with_reducible assumption
    | (with_reducible first | apply csAbandoned_kept | apply portBringup_kept)
    | (with_reducible refine foldl_kept (fun _ _ _ => ?_) _ ?_)
    | (with_reducible refine ite_kept (fun _ => ?_) (fun _ => ?_))
    | (with_reducible apply Kept.of; dsimp only)
    | (with_reducible apply Kept.core)
    | split

theorem keeperRestarted_kept  {s : State} (hk : Kept z s) : Kept z (keeperRestarted s) := by
  unfold keeperRestarted
  repeat' first
    | with_reducible assumption
    | (with_reducible first | apply addFld_kept | apply adoptFail_kept | apply cmdsHeld_kept | apply csRestart_kept | apply listRestart_kept | apply openGap_kept | apply pumpAll_kept | apply sealAbandon_kept | apply stagedApply_kept | apply t1Abandon_kept)
    | (with_reducible refine ite_kept (fun _ => ?_) (fun _ => ?_))
    | (with_reducible apply Kept.of; dsimp only)
    | (with_reducible apply Kept.core)

/-! ### KprRows -/

theorem execKeeperTick_kept {i : TickIn} {s : State} (hk : Kept z s) : KeptOut z (execKeeperTick i s) := by
  unfold execKeeperTick; with_reducible repeat' first | assumption | apply liveNext_kept | apply keeperTick_kept

theorem execKprLockstep_kept  {s : State} (hk : Kept z s) : KeptOut z (execKprLockstep s) := by
  unfold execKprLockstep; with_reducible repeat' first | assumption | apply liveNext_kept | apply lockstep_kept

theorem execKeeperRestarted_kept  {s : State} (hk : Kept z s) : KeptOut z (execKeeperRestarted s) := by
  unfold execKeeperRestarted; with_reducible repeat'
    first | assumption | apply liveNext_kept | apply keeperRestarted_kept

theorem execCsOpen_kept {n : Fin 2} {tag : BitVec 8} {s : State} (hk : Kept z s) : KeptOut z (execCsOpen n tag s) := by
  unfold execCsOpen; with_reducible repeat' first | assumption | apply next_kept | apply cmdRow_kept

theorem execCsCommit_kept {n : Fin 2} {tag : BitVec 8} {s : State} (hk : Kept z s) : KeptOut z (execCsCommit n tag s) := by
  unfold execCsCommit; with_reducible repeat' first | assumption | apply next_kept | apply cmdRow_kept

theorem execCsAbandon_kept {n : Fin 2} {tag : BitVec 8} {s : State} (hk : Kept z s) : KeptOut z (execCsAbandon n tag s) := by
  unfold execCsAbandon; with_reducible repeat' first | assumption | apply next_kept | apply cmdRow_kept

theorem execRestart_kept {n : Fin 2} {tag : BitVec 8} {s : State} (hk : Kept z s) : KeptOut z (execRestart n tag s) := by
  unfold execRestart; with_reducible repeat' first | assumption | apply next_kept | apply cmdRow_kept

theorem execSwapMicrocode_kept {n : Fin 2} {tag : BitVec 8} {s : State} (hk : Kept z s) : KeptOut z (execSwapMicrocode n tag s) := by
  unfold execSwapMicrocode; with_reducible repeat' first | assumption | apply next_kept | apply cmdRow_kept

theorem execSwapPortFw_kept {n : Fin 2} {tag : BitVec 8} {s : State} (hk : Kept z s) : KeptOut z (execSwapPortFw n tag s) := by
  unfold execSwapPortFw; with_reducible repeat' first | assumption | apply next_kept | apply cmdRow_kept

theorem execSwapUncoreFw_kept {n : Fin 2} {tag : BitVec 8} {s : State} (hk : Kept z s) : KeptOut z (execSwapUncoreFw n tag s) := by
  unfold execSwapUncoreFw; with_reducible repeat' first | assumption | apply next_kept | apply cmdRow_kept

theorem execScrubPass_kept {n : Fin 2} {tag : BitVec 8} {s : State} (hk : Kept z s) : KeptOut z (execScrubPass n tag s) := by
  unfold execScrubPass; with_reducible repeat' first | assumption | apply next_kept | apply cmdRow_kept

theorem execFwStage_kept {n : Fin 2} {tag : BitVec 8} {s : State} (hk : Kept z s) : KeptOut z (execFwStage n tag s) := by
  unfold execFwStage; with_reducible repeat' first | assumption | apply next_kept | apply cmdRow_kept

theorem execFwWrite_kept {n : Fin 2} {tag : BitVec 8} {s : State} (hk : Kept z s) : KeptOut z (execFwWrite n tag s) := by
  unfold execFwWrite; with_reducible repeat' first | assumption | apply next_kept | apply cmdRow_kept

theorem execFwSelect_kept {n : Fin 2} {tag : BitVec 8} {s : State} (hk : Kept z s) : KeptOut z (execFwSelect n tag s) := by
  unfold execFwSelect; with_reducible repeat' first | assumption | apply next_kept | apply cmdRow_kept

theorem execKeygen_kept {n : Fin 2} {tag : BitVec 8} {s : State} (hk : Kept z s) : KeptOut z (execKeygen n tag s) := by
  unfold execKeygen; with_reducible repeat' first | assumption | apply next_kept | apply cmdRow_kept

theorem execSvnCommit_kept {n : Fin 2} {tag : BitVec 8} {s : State} (hk : Kept z s) : KeptOut z (execSvnCommit n tag s) := by
  unfold execSvnCommit; with_reducible repeat' first | assumption | apply next_kept | apply cmdRow_kept

theorem execCmdUndefined_kept {n : Fin 2} {cmd : BitVec 8} {tag : BitVec 8} {s : State} (hk : Kept z s) : KeptOut z (execCmdUndefined n cmd tag s) := by
  unfold execCmdUndefined; with_reducible repeat'
    first | assumption | apply next_kept | apply cmdRow_kept | apply iteK

/-! ### MRows -/

theorem execMma_kept {c : Fin 256} {f : FmtD} {s : State} (hk : Kept z s) : KeptOut z (execMma c f s) := by
  unfold execMma; with_reducible repeat' first | assumption | apply next_kept | apply issueD_kept

theorem execDrain_kept {c : Fin 256} {f : FmtD} {s : State} (hk : Kept z s) : KeptOut z (execDrain c f s) := by
  unfold execDrain; with_reducible repeat' first | assumption | apply next_kept | apply issueD_kept

theorem recordRead_kept {ci : Nat} {s : State} (hk : Kept z s) : Kept z (recordRead ci s) := by
  unfold recordRead
  repeat' first
    | with_reducible assumption
    | (with_reducible first | apply pump_kept | apply setL_kept)
    | (with_reducible refine ite_kept (fun _ => ?_) (fun _ => ?_))
    | (with_reducible apply Kept.of; dsimp only)
    | (with_reducible apply Kept.core)
    | split

theorem execScaleRecordRead_kept {c : Fin 256} {s : State} (hk : Kept z s) : KeptOut z (execScaleRecordRead c s) := by
  unfold execScaleRecordRead; with_reducible repeat' first | assumption | apply next_kept | apply recordRead_kept

theorem drainPop_kept {ci i : Nat} {l : LCore} {e : QE} {form : Nat} {s : State} (hk : Kept z s) : Kept z (drainPop ci i l e form s) := by
  unfold drainPop; with_reducible repeat' first | assumption | apply pump_kept | apply setL_kept

theorem drainFinish_kept {ci : Nat} {s : State} (hk : Kept z s) : Kept z (drainFinish ci s) := by
  unfold drainFinish
  repeat' first
    | with_reducible assumption
    | (with_reducible first | apply drainPop_kept | apply memPut_kept | apply setL_kept)
    | (with_reducible refine ite_kept (fun _ => ?_) (fun _ => ?_))
    | (with_reducible apply Kept.of; dsimp only)
    | (with_reducible apply Kept.core)
    | split

theorem execDrainComplete_kept {c : Fin 256} {s : State} (hk : Kept z s) : KeptOut z (execDrainComplete c s) := by
  unfold execDrainComplete; with_reducible repeat' first | assumption | apply next_kept | apply drainFinish_kept

theorem execMmaComplete_kept {c : Fin 256} {s : State} (hk : Kept z s) : KeptOut z (execMmaComplete c s) := by
  unfold execMmaComplete; with_reducible repeat' first | assumption | apply next_kept | apply finishWhere_kept

theorem execHinge_kept {c : Fin 256} {f : FmtD} {s : State} (hk : Kept z s) : KeptOut z (execHinge c f s) := by
  unfold execHinge; with_reducible repeat' first | assumption | apply next_kept | apply issueD_kept

theorem execHingeComplete_kept {c : Fin 256} {s : State} (hk : Kept z s) : KeptOut z (execHingeComplete c s) := by
  unfold execHingeComplete; with_reducible repeat' first | assumption | apply next_kept | apply finishWhere_kept

theorem execAclr_kept {c : Fin 256} {f : FmtD} {s : State} (hk : Kept z s) : KeptOut z (execAclr c f s) := by
  unfold execAclr; with_reducible repeat' first | assumption | apply next_kept | apply issueD_kept

theorem execTkeys_kept {c : Fin 256} {f : FmtD} {s : State} (hk : Kept z s) : KeptOut z (execTkeys c f s) := by
  unfold execTkeys; with_reducible repeat' first | assumption | apply next_kept | apply issueD_kept

theorem execTprobe_kept {c : Fin 256} {f : FmtD} {s : State} (hk : Kept z s) : KeptOut z (execTprobe c f s) := by
  unfold execTprobe; with_reducible repeat' first | assumption | apply next_kept | apply issueD_kept

theorem execTclr_kept {c : Fin 256} {f : FmtD} {s : State} (hk : Kept z s) : KeptOut z (execTclr c f s) := by
  unfold execTclr; with_reducible repeat' first | assumption | apply next_kept | apply issueD_kept

theorem execTcap_kept {c : Fin 256} {f : FmtD} {s : State} (hk : Kept z s) : KeptOut z (execTcap c f s) := by
  unfold execTcap; with_reducible repeat' first | assumption | apply next_kept | apply issueD_kept

theorem execTkeysComplete_kept {c : Fin 256} {s : State} (hk : Kept z s) : KeptOut z (execTkeysComplete c s) := by
  unfold execTkeysComplete; with_reducible repeat' first | assumption | apply next_kept | apply finishWhere_kept

theorem execTprobeComplete_kept {c : Fin 256} {s : State} (hk : Kept z s) : KeptOut z (execTprobeComplete c s) := by
  unfold execTprobeComplete; with_reducible repeat' first | assumption | apply next_kept | apply finishWhere_kept

/-! ### SecRows -/

theorem setConn_kept {e v : Nat} {s : State} (hk : Kept z s) : Kept z (setConn e v s) := hk

theorem setScript_kept {e : Nat} {b : List Byte} {s : State} (hk : Kept z s) : Kept z (setScript e b s) := hk

theorem spdmSend_kept {e code : Nat} {payload : List Byte} {s : State} (hk : Kept z s) : Kept z (spdmSend e code payload s) := by
  unfold spdmSend; with_reducible repeat'
    first | assumption | apply addFld_kept | (apply Kept.of; dsimp only) | apply Kept.core

theorem spdmError_kept {e err data : Nat} {s : State} (hk : Kept z s) : Kept z (spdmError e err data s) := by
  unfold spdmError; with_reducible repeat' first | assumption | apply spdmSend_kept

theorem spdmAnswer_kept {e need : Nat} {req : List Byte} {code : Nat} {payload : State → List Byte} {s : State} (hk : Kept z s) : Kept z (spdmAnswer e need req code payload s) := by
  unfold spdmAnswer; with_reducible repeat'
    first | assumption | apply setScript_kept | apply spdmError_kept | apply spdmSend_kept | apply iteK

theorem getVersion_kept {e : Nat} {s : State} (hk : Kept z s) : Kept z (getVersion e s) := by
  unfold getVersion; with_reducible repeat'
    first | assumption | apply setConn_kept | apply setScript_kept | apply spdmSend_kept | apply iteK

theorem execGetVersion_kept {e : Fin 3} {s : State} (hk : Kept z s) : KeptOut z (execGetVersion e s) := by
  unfold execGetVersion; with_reducible repeat' first | assumption | apply next_kept | apply getVersion_kept

theorem getCapabilities_kept {e : Nat} {s : State} (hk : Kept z s) : Kept z (getCapabilities e s) := by
  unfold getCapabilities; with_reducible repeat'
    first | assumption | apply setConn_kept | apply spdmAnswer_kept | apply iteK

theorem execGetCapabilities_kept {e : Fin 3} {s : State} (hk : Kept z s) : KeptOut z (execGetCapabilities e s) := by
  unfold execGetCapabilities; with_reducible repeat' first | assumption | apply next_kept | apply getCapabilities_kept

theorem negotiateAlgorithms_kept {e : Nat} {s : State} (hk : Kept z s) : Kept z (negotiateAlgorithms e s) := by
  unfold negotiateAlgorithms; with_reducible repeat'
    first | assumption | apply setConn_kept | apply spdmAnswer_kept | apply iteK

theorem execNegotiateAlgorithms_kept {e : Fin 3} {s : State} (hk : Kept z s) : KeptOut z (execNegotiateAlgorithms e s) := by
  unfold execNegotiateAlgorithms; with_reducible repeat'
    first | assumption | apply next_kept | apply negotiateAlgorithms_kept

theorem execGetDigests_kept {e : Fin 3} {s : State} (hk : Kept z s) : KeptOut z (execGetDigests e s) := by
  unfold execGetDigests; with_reducible repeat' first | assumption | apply next_kept | apply spdmAnswer_kept

theorem getCertificate_kept {e slot off len : Nat} {s : State} (hk : Kept z s) : Kept z (getCertificate e slot off len s) := by
  unfold getCertificate; with_reducible repeat'
    first | assumption | apply spdmAnswer_kept | apply spdmError_kept | apply iteK

theorem execGetCertificate_kept {e : Fin 3} {slot : BitVec 8} {offset len : Nat} {s : State} (hk : Kept z s) : KeptOut z (execGetCertificate e slot offset len s) := by
  unfold execGetCertificate; with_reducible repeat' first | assumption | apply next_kept | apply getCertificate_kept

theorem freshNonce_kept  {s : State} (hk : Kept z s) {x : List Byte} {t : State} (e : freshNonce s = (x, t)) : Kept z t := by
  unfold freshNonce at e
  try dsimp only at e
  repeat' split at e
  all_goals first
    | (cases e; done)
    | (cases e
       repeat' first
         | with_reducible assumption
         | (with_reducible apply Kept.of; dsimp only)
         | (with_reducible apply Kept.core)
       done)

theorem freshNonce_kept1  {s : State} (hk : Kept z s) : Kept z (freshNonce s).2 := freshNonce_kept hk rfl

theorem aliasSign_kept1 {text : List Byte} {s : State} (h : Kept z s) : Kept z (aliasSign text s).2 := by
  unfold aliasSign
  exact h.core

theorem spdmSigned_kept {e : Nat} {req : List Byte} {code : Nat} {payload : List Byte} {s : State} (hk : Kept z s) : Kept z (spdmSigned e req code payload s) := by
  unfold spdmSigned; with_reducible repeat' first | assumption | apply spdmSend_kept | apply aliasSign_kept1

theorem challenge_kept {e slot nonce : Nat} {s : State} (hk : Kept z s) : Kept z (challenge e slot nonce s) := by
  unfold challenge; with_reducible repeat'
    first | assumption | apply spdmError_kept | apply spdmSigned_kept | apply freshNonce_kept1 | apply iteK

theorem execChallenge_kept {e : Fin 3} {slot : BitVec 8} {nonce : BitVec 256} {s : State} (hk : Kept z s) : KeptOut z (execChallenge e slot nonce s) := by
  unfold execChallenge; with_reducible repeat' first | assumption | apply next_kept | apply challenge_kept

theorem getMeasurements_kept {e index : Nat} {signed : Bool} {nonce : Nat} {s : State} (hk : Kept z s) : Kept z (getMeasurements e index signed nonce s) := by
  unfold getMeasurements
  repeat' first
    | with_reducible assumption
    | (with_reducible first | apply setScript_kept | apply spdmError_kept | apply spdmSend_kept | apply spdmSigned_kept)
    | (with_reducible apply freshNonce_kept1)
    | (with_reducible refine ite_kept (fun _ => ?_) (fun _ => ?_))
    | (with_reducible apply Kept.of; dsimp only)
    | (with_reducible apply Kept.core)
    | split

theorem execGetMeasurements_kept {e : Fin 3} {index : BitVec 8} {signed : Bool} {nonce : BitVec 256} {s : State} (hk : Kept z s) : KeptOut z (execGetMeasurements e index signed nonce s) := by
  unfold execGetMeasurements; with_reducible repeat' first | assumption | apply next_kept | apply getMeasurements_kept

theorem execSpdmUnsupported_kept {e : Fin 3} {code : BitVec 8} {s : State} (hk : Kept z s) : KeptOut z (execSpdmUnsupported e code s) := by
  unfold execSpdmUnsupported; with_reducible repeat'
    first | assumption | apply next_kept | apply spdmError_kept | apply iteK

/-! ### VRows -/

theorem issueV_kept {c : Nat} {op level : Nat} {f : FmtD} {s : State} (hk : Kept z s) : Kept z (issueV c op level f s) := by
  unfold issueV; with_reducible repeat' first | assumption | apply issueD_kept

theorem execVadd_kept {c : Fin 256} {f : FmtD} {s : State} (hk : Kept z s) : KeptOut z (execVadd c f s) := by
  unfold execVadd; with_reducible repeat' first | assumption | apply next_kept | apply issueV_kept

theorem execVsub_kept {c : Fin 256} {f : FmtD} {s : State} (hk : Kept z s) : KeptOut z (execVsub c f s) := by
  unfold execVsub; with_reducible repeat' first | assumption | apply next_kept | apply issueV_kept

theorem execVmul_kept {c : Fin 256} {f : FmtD} {s : State} (hk : Kept z s) : KeptOut z (execVmul c f s) := by
  unfold execVmul; with_reducible repeat' first | assumption | apply next_kept | apply issueV_kept

theorem execVfma_kept {c : Fin 256} {f : FmtD} {s : State} (hk : Kept z s) : KeptOut z (execVfma c f s) := by
  unfold execVfma; with_reducible repeat' first | assumption | apply next_kept | apply issueV_kept

theorem execVmin_kept {c : Fin 256} {f : FmtD} {s : State} (hk : Kept z s) : KeptOut z (execVmin c f s) := by
  unfold execVmin; with_reducible repeat' first | assumption | apply next_kept | apply issueV_kept

theorem execVmax_kept {c : Fin 256} {f : FmtD} {s : State} (hk : Kept z s) : KeptOut z (execVmax c f s) := by
  unfold execVmax; with_reducible repeat' first | assumption | apply next_kept | apply issueV_kept

theorem execVcmp_kept {c : Fin 256} {f : FmtD} {s : State} (hk : Kept z s) : KeptOut z (execVcmp c f s) := by
  unfold execVcmp; with_reducible repeat' first | assumption | apply next_kept | apply issueV_kept

theorem execVexp2_kept {c : Fin 256} {f : FmtD} {s : State} (hk : Kept z s) : KeptOut z (execVexp2 c f s) := by
  unfold execVexp2; with_reducible repeat' first | assumption | apply next_kept | apply issueV_kept

theorem execVlog2_kept {c : Fin 256} {f : FmtD} {s : State} (hk : Kept z s) : KeptOut z (execVlog2 c f s) := by
  unfold execVlog2; with_reducible repeat' first | assumption | apply next_kept | apply issueV_kept

theorem execVrsqrt_kept {c : Fin 256} {f : FmtD} {s : State} (hk : Kept z s) : KeptOut z (execVrsqrt c f s) := by
  unfold execVrsqrt; with_reducible repeat' first | assumption | apply next_kept | apply issueV_kept

theorem execVrcp_kept {c : Fin 256} {f : FmtD} {s : State} (hk : Kept z s) : KeptOut z (execVrcp c f s) := by
  unfold execVrcp; with_reducible repeat' first | assumption | apply next_kept | apply issueV_kept

theorem execVpadd_kept {c : Fin 256} {f : FmtD} {s : State} (hk : Kept z s) : KeptOut z (execVpadd c f s) := by
  unfold execVpadd; with_reducible repeat' first | assumption | apply next_kept | apply issueV_kept

theorem execVpred_kept {c : Fin 256} {f : FmtD} {s : State} (hk : Kept z s) : KeptOut z (execVpred c f s) := by
  unfold execVpred; with_reducible repeat' first | assumption | apply next_kept | apply issueV_kept

theorem execVpfold_kept {c : Fin 256} {f : FmtD} {s : State} (hk : Kept z s) : KeptOut z (execVpfold c f s) := by
  unfold execVpfold; with_reducible repeat' first | assumption | apply next_kept | apply issueV_kept

theorem execVpack_kept {c : Fin 256} {f : FmtD} {s : State} (hk : Kept z s) : KeptOut z (execVpack c f s) := by
  unfold execVpack; with_reducible repeat' first | assumption | apply next_kept | apply issueV_kept

theorem execVunpack_kept {c : Fin 256} {f : FmtD} {s : State} (hk : Kept z s) : KeptOut z (execVunpack c f s) := by
  unfold execVunpack; with_reducible repeat' first | assumption | apply next_kept | apply issueV_kept

theorem execVres_kept {c : Fin 256} {f : FmtD} {s : State} (hk : Kept z s) : KeptOut z (execVres c f s) := by
  unfold execVres; with_reducible repeat' first | assumption | apply next_kept | apply issueV_kept

theorem execVresadd_kept {c : Fin 256} {f : FmtD} {s : State} (hk : Kept z s) : KeptOut z (execVresadd c f s) := by
  unfold execVresadd; with_reducible repeat' first | assumption | apply next_kept | apply issueV_kept

/-! ### XRows -/

theorem execXload_kept {c : Fin 256} {f : FmtD} {s : State} (hk : Kept z s) : KeptOut z (execXload c f s) := by
  unfold execXload; with_reducible repeat' first | assumption | apply next_kept | apply issueD_kept

theorem execXstore_kept {c : Fin 256} {f : FmtD} {s : State} (hk : Kept z s) : KeptOut z (execXstore c f s) := by
  unfold execXstore; with_reducible repeat' first | assumption | apply next_kept | apply issueD_kept

theorem execXgather_kept {c : Fin 256} {f : FmtD} {s : State} (hk : Kept z s) : KeptOut z (execXgather c f s) := by
  unfold execXgather; with_reducible repeat' first | assumption | apply next_kept | apply issueD_kept

theorem execXscatter_kept {c : Fin 256} {f : FmtD} {s : State} (hk : Kept z s) : KeptOut z (execXscatter c f s) := by
  unfold execXscatter; with_reducible repeat' first | assumption | apply next_kept | apply issueD_kept

theorem execXpose_kept {c : Fin 256} {f : FmtD} {s : State} (hk : Kept z s) : KeptOut z (execXpose c f s) := by
  unfold execXpose; with_reducible repeat' first | assumption | apply next_kept | apply issueD_kept

theorem execXcopy_kept {c : Fin 256} {f : FmtD} {s : State} (hk : Kept z s) : KeptOut z (execXcopy c f s) := by
  unfold execXcopy; with_reducible repeat' first | assumption | apply next_kept | apply issueD_kept

theorem execStagingRead_kept {c : Fin 256} {s : State} (hk : Kept z s) : KeptOut z (execStagingRead c s) := by
  unfold execStagingRead; with_reducible repeat' first | assumption | apply next_kept | apply stageRead_kept

theorem execXTransferComplete_kept {c : Fin 256} {s : State} (hk : Kept z s) : KeptOut z (execXTransferComplete c s) := by
  unfold execXTransferComplete; with_reducible repeat' first | assumption | apply next_kept | apply finishWhere_kept

theorem refuseX_kept {ci : Nat} {tag : BitVec 16} {code : BitVec 16} {addr : Nat} {s : State} (hk : Kept z s) : Kept z (refuseX ci tag code addr s) := by
  unfold refuseX
  repeat' first
    | with_reducible assumption
    | (with_reducible first | apply ackOwe_kept | apply flowAck_kept | apply pump_kept | apply txnTake_kept | apply xArriveFail_kept)
    | (with_reducible apply takeInbound_kept1)
    | (with_reducible apply Kept.of; dsimp only)
    | (with_reducible apply Kept.core)
    | split

theorem execRemoteRefusal_kept {c : Fin 256} {tag code : BitVec 16} {addr : Nat} {s : State} (hk : Kept z s) : KeptOut z (execRemoteRefusal c tag code addr s) := by
  unfold execRemoteRefusal; with_reducible repeat'
    first | assumption | apply next_kept | apply ordered_kept | apply refuseX_kept

end Sys2Proof.Machine
end

