-- ==== Sys2Proof/Laws/State.lean ====
section
/-! SUPPORT. What the named operations over the state leave as it is, one lemma for each field, and what a register field reads
after one of them. -/
namespace Sys2Proof.Machine

/-! ### `setReg` -/

@[simp] theorem setReg_pending (s : State) (a : Nat) (v : Word) : (setReg s a v).pending = s.pending := rfl
@[simp] theorem setReg_now (s : State) (a : Nat) (v : Word) : (setReg s a v).now = s.now := rfl
@[simp] theorem setReg_freeCtr (s : State) (a : Nat) (v : Word) : (setReg s a v).freeCtr = s.freeCtr := rfl
@[simp] theorem setReg_power (s : State) (a : Nat) (v : Word) : (setReg s a v).power = s.power := rfl
@[simp] theorem setReg_fuses (s : State) (a : Nat) (v : Word) : (setReg s a v).fuses = s.fuses := rfl
@[simp] theorem setReg_mem (s : State) (a : Nat) (v : Word) : (setReg s a v).mem = s.mem := rfl
@[simp] theorem setReg_img (s : State) (a : Nat) (v : Word) : (setReg s a v).img = s.img := rfl
@[simp] theorem setReg_lcores (s : State) (a : Nat) (v : Word) : (setReg s a v).lcores = s.lcores := rfl
@[simp] theorem setReg_pcores (s : State) (a : Nat) (v : Word) : (setReg s a v).pcores = s.pcores := rfl
@[simp] theorem setReg_frame (s : State) (a : Nat) (v : Word) : (setReg s a v).frame = s.frame := rfl
@[simp] theorem setReg_step (s : State) (a : Nat) (v : Word) : (setReg s a v).step = s.step := rfl
@[simp] theorem setReg_fab (s : State) (a : Nat) (v : Word) : (setReg s a v).fab = s.fab := rfl
@[simp] theorem setReg_kwyCache (s : State) (a : Nat) (v : Word) : (setReg s a v).kwyCache = s.kwyCache := rfl
@[simp] theorem setReg_lat (s : State) (a : Nat) (v : Word) : (setReg s a v).lat = s.lat := rfl
@[simp] theorem setReg_arc (s : State) (a : Nat) (v : Word) : (setReg s a v).arc = s.arc := rfl
@[simp] theorem setReg_peer (s : State) (a : Nat) (v : Word) : (setReg s a v).peer = s.peer := rfl
@[simp] theorem setReg_host (s : State) (a : Nat) (v : Word) : (setReg s a v).host = s.host := rfl
@[simp] theorem setReg_jnl (s : State) (a : Nat) (v : Word) : (setReg s a v).jnl = s.jnl := rfl
@[simp] theorem setReg_kpr (s : State) (a : Nat) (v : Word) : (setReg s a v).kpr = s.kpr := rfl
@[simp] theorem setReg_err (s : State) (a : Nat) (v : Word) : (setReg s a v).err = s.err := rfl
@[simp] theorem setReg_pwr (s : State) (a : Nat) (v : Word) : (setReg s a v).pwr = s.pwr := rfl
@[simp] theorem setReg_sec (s : State) (a : Nat) (v : Word) : (setReg s a v).sec = s.sec := rfl

/-! ### `setFld` -/

@[simp] theorem setFld_pending (f : Fld) (v : Nat) (s : State) : (setFld f v s).pending = s.pending := rfl
@[simp] theorem setFld_now (f : Fld) (v : Nat) (s : State) : (setFld f v s).now = s.now := rfl
@[simp] theorem setFld_freeCtr (f : Fld) (v : Nat) (s : State) : (setFld f v s).freeCtr = s.freeCtr := rfl
@[simp] theorem setFld_power (f : Fld) (v : Nat) (s : State) : (setFld f v s).power = s.power := rfl
@[simp] theorem setFld_fuses (f : Fld) (v : Nat) (s : State) : (setFld f v s).fuses = s.fuses := rfl
@[simp] theorem setFld_mem (f : Fld) (v : Nat) (s : State) : (setFld f v s).mem = s.mem := rfl
@[simp] theorem setFld_img (f : Fld) (v : Nat) (s : State) : (setFld f v s).img = s.img := rfl
@[simp] theorem setFld_lcores (f : Fld) (v : Nat) (s : State) : (setFld f v s).lcores = s.lcores := rfl
@[simp] theorem setFld_pcores (f : Fld) (v : Nat) (s : State) : (setFld f v s).pcores = s.pcores := rfl
@[simp] theorem setFld_frame (f : Fld) (v : Nat) (s : State) : (setFld f v s).frame = s.frame := rfl
@[simp] theorem setFld_step (f : Fld) (v : Nat) (s : State) : (setFld f v s).step = s.step := rfl
@[simp] theorem setFld_fab (f : Fld) (v : Nat) (s : State) : (setFld f v s).fab = s.fab := rfl
@[simp] theorem setFld_kwyCache (f : Fld) (v : Nat) (s : State) : (setFld f v s).kwyCache = s.kwyCache := rfl
@[simp] theorem setFld_lat (f : Fld) (v : Nat) (s : State) : (setFld f v s).lat = s.lat := rfl
@[simp] theorem setFld_arc (f : Fld) (v : Nat) (s : State) : (setFld f v s).arc = s.arc := rfl
@[simp] theorem setFld_peer (f : Fld) (v : Nat) (s : State) : (setFld f v s).peer = s.peer := rfl
@[simp] theorem setFld_host (f : Fld) (v : Nat) (s : State) : (setFld f v s).host = s.host := rfl
@[simp] theorem setFld_jnl (f : Fld) (v : Nat) (s : State) : (setFld f v s).jnl = s.jnl := rfl
@[simp] theorem setFld_kpr (f : Fld) (v : Nat) (s : State) : (setFld f v s).kpr = s.kpr := rfl
@[simp] theorem setFld_err (f : Fld) (v : Nat) (s : State) : (setFld f v s).err = s.err := rfl
@[simp] theorem setFld_pwr (f : Fld) (v : Nat) (s : State) : (setFld f v s).pwr = s.pwr := rfl
@[simp] theorem setFld_sec (f : Fld) (v : Nat) (s : State) : (setFld f v s).sec = s.sec := rfl

/-! ### `addFld` -/

@[simp] theorem addFld_pending (f : Fld) (n : Nat) (s : State) : (addFld f n s).pending = s.pending := rfl
@[simp] theorem addFld_now (f : Fld) (n : Nat) (s : State) : (addFld f n s).now = s.now := rfl
@[simp] theorem addFld_freeCtr (f : Fld) (n : Nat) (s : State) : (addFld f n s).freeCtr = s.freeCtr := rfl
@[simp] theorem addFld_power (f : Fld) (n : Nat) (s : State) : (addFld f n s).power = s.power := rfl
@[simp] theorem addFld_fuses (f : Fld) (n : Nat) (s : State) : (addFld f n s).fuses = s.fuses := rfl
@[simp] theorem addFld_mem (f : Fld) (n : Nat) (s : State) : (addFld f n s).mem = s.mem := rfl
@[simp] theorem addFld_img (f : Fld) (n : Nat) (s : State) : (addFld f n s).img = s.img := rfl
@[simp] theorem addFld_lcores (f : Fld) (n : Nat) (s : State) : (addFld f n s).lcores = s.lcores := rfl
@[simp] theorem addFld_pcores (f : Fld) (n : Nat) (s : State) : (addFld f n s).pcores = s.pcores := rfl
@[simp] theorem addFld_frame (f : Fld) (n : Nat) (s : State) : (addFld f n s).frame = s.frame := rfl
@[simp] theorem addFld_step (f : Fld) (n : Nat) (s : State) : (addFld f n s).step = s.step := rfl
@[simp] theorem addFld_fab (f : Fld) (n : Nat) (s : State) : (addFld f n s).fab = s.fab := rfl
@[simp] theorem addFld_kwyCache (f : Fld) (n : Nat) (s : State) : (addFld f n s).kwyCache = s.kwyCache := rfl
@[simp] theorem addFld_lat (f : Fld) (n : Nat) (s : State) : (addFld f n s).lat = s.lat := rfl
@[simp] theorem addFld_arc (f : Fld) (n : Nat) (s : State) : (addFld f n s).arc = s.arc := rfl
@[simp] theorem addFld_peer (f : Fld) (n : Nat) (s : State) : (addFld f n s).peer = s.peer := rfl
@[simp] theorem addFld_host (f : Fld) (n : Nat) (s : State) : (addFld f n s).host = s.host := rfl
@[simp] theorem addFld_jnl (f : Fld) (n : Nat) (s : State) : (addFld f n s).jnl = s.jnl := rfl
@[simp] theorem addFld_kpr (f : Fld) (n : Nat) (s : State) : (addFld f n s).kpr = s.kpr := rfl
@[simp] theorem addFld_err (f : Fld) (n : Nat) (s : State) : (addFld f n s).err = s.err := rfl
@[simp] theorem addFld_pwr (f : Fld) (n : Nat) (s : State) : (addFld f n s).pwr = s.pwr := rfl
@[simp] theorem addFld_sec (f : Fld) (n : Nat) (s : State) : (addFld f n s).sec = s.sec := rfl

/-! ### `freeStep` -/

@[simp] theorem freeStep_pending (s : State) : (freeStep s).pending = s.pending := rfl
@[simp] theorem freeStep_now (s : State) : (freeStep s).now = s.now := rfl
@[simp] theorem freeStep_power (s : State) : (freeStep s).power = s.power := rfl
@[simp] theorem freeStep_fuses (s : State) : (freeStep s).fuses = s.fuses := rfl
@[simp] theorem freeStep_regs (s : State) : (freeStep s).regs = s.regs := rfl
@[simp] theorem freeStep_mem (s : State) : (freeStep s).mem = s.mem := rfl
@[simp] theorem freeStep_img (s : State) : (freeStep s).img = s.img := rfl
@[simp] theorem freeStep_lcores (s : State) : (freeStep s).lcores = s.lcores := rfl
@[simp] theorem freeStep_pcores (s : State) : (freeStep s).pcores = s.pcores := rfl
@[simp] theorem freeStep_frame (s : State) : (freeStep s).frame = s.frame := rfl
@[simp] theorem freeStep_step (s : State) : (freeStep s).step = s.step := rfl
@[simp] theorem freeStep_fab (s : State) : (freeStep s).fab = s.fab := rfl
@[simp] theorem freeStep_kwyCache (s : State) : (freeStep s).kwyCache = s.kwyCache := rfl
@[simp] theorem freeStep_lat (s : State) : (freeStep s).lat = s.lat := rfl
@[simp] theorem freeStep_arc (s : State) : (freeStep s).arc = s.arc := rfl
@[simp] theorem freeStep_peer (s : State) : (freeStep s).peer = s.peer := rfl
@[simp] theorem freeStep_host (s : State) : (freeStep s).host = s.host := rfl
@[simp] theorem freeStep_jnl (s : State) : (freeStep s).jnl = s.jnl := rfl
@[simp] theorem freeStep_kpr (s : State) : (freeStep s).kpr = s.kpr := rfl
@[simp] theorem freeStep_err (s : State) : (freeStep s).err = s.err := rfl
@[simp] theorem freeStep_pwr (s : State) : (freeStep s).pwr = s.pwr := rfl
@[simp] theorem freeStep_sec (s : State) : (freeStep s).sec = s.sec := rfl

/-! ### `idle` -/

@[simp] theorem idle_pending (s : State) : (idle s).pending = s.pending := rfl
@[simp] theorem idle_freeCtr (s : State) : (idle s).freeCtr = s.freeCtr := rfl
@[simp] theorem idle_power (s : State) : (idle s).power = s.power := rfl
@[simp] theorem idle_fuses (s : State) : (idle s).fuses = s.fuses := rfl
@[simp] theorem idle_regs (s : State) : (idle s).regs = s.regs := rfl
@[simp] theorem idle_mem (s : State) : (idle s).mem = s.mem := rfl
@[simp] theorem idle_img (s : State) : (idle s).img = s.img := rfl
@[simp] theorem idle_lcores (s : State) : (idle s).lcores = s.lcores := rfl
@[simp] theorem idle_pcores (s : State) : (idle s).pcores = s.pcores := rfl
@[simp] theorem idle_frame (s : State) : (idle s).frame = s.frame := rfl
@[simp] theorem idle_step (s : State) : (idle s).step = s.step := rfl
@[simp] theorem idle_fab (s : State) : (idle s).fab = s.fab := rfl
@[simp] theorem idle_kwyCache (s : State) : (idle s).kwyCache = s.kwyCache := rfl
@[simp] theorem idle_lat (s : State) : (idle s).lat = s.lat := rfl
@[simp] theorem idle_arc (s : State) : (idle s).arc = s.arc := rfl
@[simp] theorem idle_peer (s : State) : (idle s).peer = s.peer := rfl
@[simp] theorem idle_host (s : State) : (idle s).host = s.host := rfl
@[simp] theorem idle_jnl (s : State) : (idle s).jnl = s.jnl := rfl
@[simp] theorem idle_kpr (s : State) : (idle s).kpr = s.kpr := rfl
@[simp] theorem idle_err (s : State) : (idle s).err = s.err := rfl
@[simp] theorem idle_pwr (s : State) : (idle s).pwr = s.pwr := rfl
@[simp] theorem idle_sec (s : State) : (idle s).sec = s.sec := rfl

/-! ### `setL` -/

@[simp] theorem setL_pending (c : Nat) (l : LCore) (s : State) : (setL c l s).pending = s.pending := rfl
@[simp] theorem setL_now (c : Nat) (l : LCore) (s : State) : (setL c l s).now = s.now := rfl
@[simp] theorem setL_freeCtr (c : Nat) (l : LCore) (s : State) : (setL c l s).freeCtr = s.freeCtr := rfl
@[simp] theorem setL_power (c : Nat) (l : LCore) (s : State) : (setL c l s).power = s.power := rfl
@[simp] theorem setL_fuses (c : Nat) (l : LCore) (s : State) : (setL c l s).fuses = s.fuses := rfl
@[simp] theorem setL_regs (c : Nat) (l : LCore) (s : State) : (setL c l s).regs = s.regs := rfl
@[simp] theorem setL_mem (c : Nat) (l : LCore) (s : State) : (setL c l s).mem = s.mem := rfl
@[simp] theorem setL_img (c : Nat) (l : LCore) (s : State) : (setL c l s).img = s.img := rfl
@[simp] theorem setL_pcores (c : Nat) (l : LCore) (s : State) : (setL c l s).pcores = s.pcores := rfl
@[simp] theorem setL_frame (c : Nat) (l : LCore) (s : State) : (setL c l s).frame = s.frame := rfl
@[simp] theorem setL_step (c : Nat) (l : LCore) (s : State) : (setL c l s).step = s.step := rfl
@[simp] theorem setL_fab (c : Nat) (l : LCore) (s : State) : (setL c l s).fab = s.fab := rfl
@[simp] theorem setL_kwyCache (c : Nat) (l : LCore) (s : State) : (setL c l s).kwyCache = s.kwyCache := rfl
@[simp] theorem setL_lat (c : Nat) (l : LCore) (s : State) : (setL c l s).lat = s.lat := rfl
@[simp] theorem setL_arc (c : Nat) (l : LCore) (s : State) : (setL c l s).arc = s.arc := rfl
@[simp] theorem setL_peer (c : Nat) (l : LCore) (s : State) : (setL c l s).peer = s.peer := rfl
@[simp] theorem setL_host (c : Nat) (l : LCore) (s : State) : (setL c l s).host = s.host := rfl
@[simp] theorem setL_jnl (c : Nat) (l : LCore) (s : State) : (setL c l s).jnl = s.jnl := rfl
@[simp] theorem setL_kpr (c : Nat) (l : LCore) (s : State) : (setL c l s).kpr = s.kpr := rfl
@[simp] theorem setL_err (c : Nat) (l : LCore) (s : State) : (setL c l s).err = s.err := rfl
@[simp] theorem setL_pwr (c : Nat) (l : LCore) (s : State) : (setL c l s).pwr = s.pwr := rfl
@[simp] theorem setL_sec (c : Nat) (l : LCore) (s : State) : (setL c l s).sec = s.sec := rfl

/-! ### `modL` -/

@[simp] theorem modL_pending (c : Nat) (f : LCore → LCore) (s : State) : (modL c f s).pending = s.pending := rfl
@[simp] theorem modL_now (c : Nat) (f : LCore → LCore) (s : State) : (modL c f s).now = s.now := rfl
@[simp] theorem modL_freeCtr (c : Nat) (f : LCore → LCore) (s : State) : (modL c f s).freeCtr = s.freeCtr := rfl
@[simp] theorem modL_power (c : Nat) (f : LCore → LCore) (s : State) : (modL c f s).power = s.power := rfl
@[simp] theorem modL_fuses (c : Nat) (f : LCore → LCore) (s : State) : (modL c f s).fuses = s.fuses := rfl
@[simp] theorem modL_regs (c : Nat) (f : LCore → LCore) (s : State) : (modL c f s).regs = s.regs := rfl
@[simp] theorem modL_mem (c : Nat) (f : LCore → LCore) (s : State) : (modL c f s).mem = s.mem := rfl
@[simp] theorem modL_img (c : Nat) (f : LCore → LCore) (s : State) : (modL c f s).img = s.img := rfl
@[simp] theorem modL_pcores (c : Nat) (f : LCore → LCore) (s : State) : (modL c f s).pcores = s.pcores := rfl
@[simp] theorem modL_frame (c : Nat) (f : LCore → LCore) (s : State) : (modL c f s).frame = s.frame := rfl
@[simp] theorem modL_step (c : Nat) (f : LCore → LCore) (s : State) : (modL c f s).step = s.step := rfl
@[simp] theorem modL_fab (c : Nat) (f : LCore → LCore) (s : State) : (modL c f s).fab = s.fab := rfl
@[simp] theorem modL_kwyCache (c : Nat) (f : LCore → LCore) (s : State) : (modL c f s).kwyCache = s.kwyCache := rfl
@[simp] theorem modL_lat (c : Nat) (f : LCore → LCore) (s : State) : (modL c f s).lat = s.lat := rfl
@[simp] theorem modL_arc (c : Nat) (f : LCore → LCore) (s : State) : (modL c f s).arc = s.arc := rfl
@[simp] theorem modL_peer (c : Nat) (f : LCore → LCore) (s : State) : (modL c f s).peer = s.peer := rfl
@[simp] theorem modL_host (c : Nat) (f : LCore → LCore) (s : State) : (modL c f s).host = s.host := rfl
@[simp] theorem modL_jnl (c : Nat) (f : LCore → LCore) (s : State) : (modL c f s).jnl = s.jnl := rfl
@[simp] theorem modL_kpr (c : Nat) (f : LCore → LCore) (s : State) : (modL c f s).kpr = s.kpr := rfl
@[simp] theorem modL_err (c : Nat) (f : LCore → LCore) (s : State) : (modL c f s).err = s.err := rfl
@[simp] theorem modL_pwr (c : Nat) (f : LCore → LCore) (s : State) : (modL c f s).pwr = s.pwr := rfl
@[simp] theorem modL_sec (c : Nat) (f : LCore → LCore) (s : State) : (modL c f s).sec = s.sec := rfl

/-! ### `modAllL` -/

@[simp] theorem modAllL_pending (f : LCore → LCore) (s : State) : (modAllL f s).pending = s.pending := rfl
@[simp] theorem modAllL_now (f : LCore → LCore) (s : State) : (modAllL f s).now = s.now := rfl
@[simp] theorem modAllL_freeCtr (f : LCore → LCore) (s : State) : (modAllL f s).freeCtr = s.freeCtr := rfl
@[simp] theorem modAllL_power (f : LCore → LCore) (s : State) : (modAllL f s).power = s.power := rfl
@[simp] theorem modAllL_fuses (f : LCore → LCore) (s : State) : (modAllL f s).fuses = s.fuses := rfl
@[simp] theorem modAllL_regs (f : LCore → LCore) (s : State) : (modAllL f s).regs = s.regs := rfl
@[simp] theorem modAllL_mem (f : LCore → LCore) (s : State) : (modAllL f s).mem = s.mem := rfl
@[simp] theorem modAllL_img (f : LCore → LCore) (s : State) : (modAllL f s).img = s.img := rfl
@[simp] theorem modAllL_pcores (f : LCore → LCore) (s : State) : (modAllL f s).pcores = s.pcores := rfl
@[simp] theorem modAllL_frame (f : LCore → LCore) (s : State) : (modAllL f s).frame = s.frame := rfl
@[simp] theorem modAllL_step (f : LCore → LCore) (s : State) : (modAllL f s).step = s.step := rfl
@[simp] theorem modAllL_fab (f : LCore → LCore) (s : State) : (modAllL f s).fab = s.fab := rfl
@[simp] theorem modAllL_kwyCache (f : LCore → LCore) (s : State) : (modAllL f s).kwyCache = s.kwyCache := rfl
@[simp] theorem modAllL_lat (f : LCore → LCore) (s : State) : (modAllL f s).lat = s.lat := rfl
@[simp] theorem modAllL_arc (f : LCore → LCore) (s : State) : (modAllL f s).arc = s.arc := rfl
@[simp] theorem modAllL_peer (f : LCore → LCore) (s : State) : (modAllL f s).peer = s.peer := rfl
@[simp] theorem modAllL_host (f : LCore → LCore) (s : State) : (modAllL f s).host = s.host := rfl
@[simp] theorem modAllL_jnl (f : LCore → LCore) (s : State) : (modAllL f s).jnl = s.jnl := rfl
@[simp] theorem modAllL_kpr (f : LCore → LCore) (s : State) : (modAllL f s).kpr = s.kpr := rfl
@[simp] theorem modAllL_err (f : LCore → LCore) (s : State) : (modAllL f s).err = s.err := rfl
@[simp] theorem modAllL_pwr (f : LCore → LCore) (s : State) : (modAllL f s).pwr = s.pwr := rfl
@[simp] theorem modAllL_sec (f : LCore → LCore) (s : State) : (modAllL f s).sec = s.sec := rfl

/-! ### `modP` -/

@[simp] theorem modP_pending (p : Nat) (f : PCore → PCore) (s : State) : (modP p f s).pending = s.pending := rfl
@[simp] theorem modP_now (p : Nat) (f : PCore → PCore) (s : State) : (modP p f s).now = s.now := rfl
@[simp] theorem modP_freeCtr (p : Nat) (f : PCore → PCore) (s : State) : (modP p f s).freeCtr = s.freeCtr := rfl
@[simp] theorem modP_power (p : Nat) (f : PCore → PCore) (s : State) : (modP p f s).power = s.power := rfl
@[simp] theorem modP_fuses (p : Nat) (f : PCore → PCore) (s : State) : (modP p f s).fuses = s.fuses := rfl
@[simp] theorem modP_regs (p : Nat) (f : PCore → PCore) (s : State) : (modP p f s).regs = s.regs := rfl
@[simp] theorem modP_mem (p : Nat) (f : PCore → PCore) (s : State) : (modP p f s).mem = s.mem := rfl
@[simp] theorem modP_img (p : Nat) (f : PCore → PCore) (s : State) : (modP p f s).img = s.img := rfl
@[simp] theorem modP_lcores (p : Nat) (f : PCore → PCore) (s : State) : (modP p f s).lcores = s.lcores := rfl
@[simp] theorem modP_frame (p : Nat) (f : PCore → PCore) (s : State) : (modP p f s).frame = s.frame := rfl
@[simp] theorem modP_step (p : Nat) (f : PCore → PCore) (s : State) : (modP p f s).step = s.step := rfl
@[simp] theorem modP_fab (p : Nat) (f : PCore → PCore) (s : State) : (modP p f s).fab = s.fab := rfl
@[simp] theorem modP_kwyCache (p : Nat) (f : PCore → PCore) (s : State) : (modP p f s).kwyCache = s.kwyCache := rfl
@[simp] theorem modP_lat (p : Nat) (f : PCore → PCore) (s : State) : (modP p f s).lat = s.lat := rfl
@[simp] theorem modP_arc (p : Nat) (f : PCore → PCore) (s : State) : (modP p f s).arc = s.arc := rfl
@[simp] theorem modP_peer (p : Nat) (f : PCore → PCore) (s : State) : (modP p f s).peer = s.peer := rfl
@[simp] theorem modP_host (p : Nat) (f : PCore → PCore) (s : State) : (modP p f s).host = s.host := rfl
@[simp] theorem modP_jnl (p : Nat) (f : PCore → PCore) (s : State) : (modP p f s).jnl = s.jnl := rfl
@[simp] theorem modP_kpr (p : Nat) (f : PCore → PCore) (s : State) : (modP p f s).kpr = s.kpr := rfl
@[simp] theorem modP_err (p : Nat) (f : PCore → PCore) (s : State) : (modP p f s).err = s.err := rfl
@[simp] theorem modP_pwr (p : Nat) (f : PCore → PCore) (s : State) : (modP p f s).pwr = s.pwr := rfl
@[simp] theorem modP_sec (p : Nat) (f : PCore → PCore) (s : State) : (modP p f s).sec = s.sec := rfl

/-! ### `sendMsi` -/

@[simp] theorem sendMsi_pending (n v : Nat) (s : State) : (sendMsi n v s).pending = s.pending := rfl
@[simp] theorem sendMsi_now (n v : Nat) (s : State) : (sendMsi n v s).now = s.now := rfl
@[simp] theorem sendMsi_freeCtr (n v : Nat) (s : State) : (sendMsi n v s).freeCtr = s.freeCtr := rfl
@[simp] theorem sendMsi_power (n v : Nat) (s : State) : (sendMsi n v s).power = s.power := rfl
@[simp] theorem sendMsi_fuses (n v : Nat) (s : State) : (sendMsi n v s).fuses = s.fuses := rfl
@[simp] theorem sendMsi_regs (n v : Nat) (s : State) : (sendMsi n v s).regs = s.regs := rfl
@[simp] theorem sendMsi_mem (n v : Nat) (s : State) : (sendMsi n v s).mem = s.mem := rfl
@[simp] theorem sendMsi_img (n v : Nat) (s : State) : (sendMsi n v s).img = s.img := rfl
@[simp] theorem sendMsi_lcores (n v : Nat) (s : State) : (sendMsi n v s).lcores = s.lcores := rfl
@[simp] theorem sendMsi_pcores (n v : Nat) (s : State) : (sendMsi n v s).pcores = s.pcores := rfl
@[simp] theorem sendMsi_frame (n v : Nat) (s : State) : (sendMsi n v s).frame = s.frame := rfl
@[simp] theorem sendMsi_step (n v : Nat) (s : State) : (sendMsi n v s).step = s.step := rfl
@[simp] theorem sendMsi_fab (n v : Nat) (s : State) : (sendMsi n v s).fab = s.fab := rfl
@[simp] theorem sendMsi_kwyCache (n v : Nat) (s : State) : (sendMsi n v s).kwyCache = s.kwyCache := rfl
@[simp] theorem sendMsi_lat (n v : Nat) (s : State) : (sendMsi n v s).lat = s.lat := rfl
@[simp] theorem sendMsi_arc (n v : Nat) (s : State) : (sendMsi n v s).arc = s.arc := rfl
@[simp] theorem sendMsi_peer (n v : Nat) (s : State) : (sendMsi n v s).peer = s.peer := rfl
@[simp] theorem sendMsi_jnl (n v : Nat) (s : State) : (sendMsi n v s).jnl = s.jnl := rfl
@[simp] theorem sendMsi_kpr (n v : Nat) (s : State) : (sendMsi n v s).kpr = s.kpr := rfl
@[simp] theorem sendMsi_err (n v : Nat) (s : State) : (sendMsi n v s).err = s.err := rfl
@[simp] theorem sendMsi_pwr (n v : Nat) (s : State) : (sendMsi n v s).pwr = s.pwr := rfl
@[simp] theorem sendMsi_sec (n v : Nat) (s : State) : (sendMsi n v s).sec = s.sec := rfl

/-! ### `jnlPut` -/

@[simp] theorem jnlPut_pending (k : Nat) (b : List Byte) (s : State) : (jnlPut k b s).pending = s.pending := rfl
@[simp] theorem jnlPut_now (k : Nat) (b : List Byte) (s : State) : (jnlPut k b s).now = s.now := rfl
@[simp] theorem jnlPut_freeCtr (k : Nat) (b : List Byte) (s : State) : (jnlPut k b s).freeCtr = s.freeCtr := rfl
@[simp] theorem jnlPut_power (k : Nat) (b : List Byte) (s : State) : (jnlPut k b s).power = s.power := rfl
@[simp] theorem jnlPut_fuses (k : Nat) (b : List Byte) (s : State) : (jnlPut k b s).fuses = s.fuses := rfl
@[simp] theorem jnlPut_mem (k : Nat) (b : List Byte) (s : State) : (jnlPut k b s).mem = s.mem := rfl
@[simp] theorem jnlPut_img (k : Nat) (b : List Byte) (s : State) : (jnlPut k b s).img = s.img := rfl
@[simp] theorem jnlPut_lcores (k : Nat) (b : List Byte) (s : State) : (jnlPut k b s).lcores = s.lcores := rfl
@[simp] theorem jnlPut_pcores (k : Nat) (b : List Byte) (s : State) : (jnlPut k b s).pcores = s.pcores := rfl
@[simp] theorem jnlPut_frame (k : Nat) (b : List Byte) (s : State) : (jnlPut k b s).frame = s.frame := rfl
@[simp] theorem jnlPut_step (k : Nat) (b : List Byte) (s : State) : (jnlPut k b s).step = s.step := rfl
@[simp] theorem jnlPut_fab (k : Nat) (b : List Byte) (s : State) : (jnlPut k b s).fab = s.fab := rfl
@[simp] theorem jnlPut_kwyCache (k : Nat) (b : List Byte) (s : State) : (jnlPut k b s).kwyCache = s.kwyCache := rfl
@[simp] theorem jnlPut_lat (k : Nat) (b : List Byte) (s : State) : (jnlPut k b s).lat = s.lat := rfl
@[simp] theorem jnlPut_arc (k : Nat) (b : List Byte) (s : State) : (jnlPut k b s).arc = s.arc := rfl
@[simp] theorem jnlPut_peer (k : Nat) (b : List Byte) (s : State) : (jnlPut k b s).peer = s.peer := rfl
@[simp] theorem jnlPut_host (k : Nat) (b : List Byte) (s : State) : (jnlPut k b s).host = s.host := rfl
@[simp] theorem jnlPut_kpr (k : Nat) (b : List Byte) (s : State) : (jnlPut k b s).kpr = s.kpr := rfl
@[simp] theorem jnlPut_err (k : Nat) (b : List Byte) (s : State) : (jnlPut k b s).err = s.err := rfl
@[simp] theorem jnlPut_pwr (k : Nat) (b : List Byte) (s : State) : (jnlPut k b s).pwr = s.pwr := rfl
@[simp] theorem jnlPut_sec (k : Nat) (b : List Byte) (s : State) : (jnlPut k b s).sec = s.sec := rfl

/-! ### `forgetRange` -/

@[simp] theorem forgetRange_pending (a n : Nat) (s : State) : (forgetRange a n s).pending = s.pending := rfl
@[simp] theorem forgetRange_now (a n : Nat) (s : State) : (forgetRange a n s).now = s.now := rfl
@[simp] theorem forgetRange_freeCtr (a n : Nat) (s : State) : (forgetRange a n s).freeCtr = s.freeCtr := rfl
@[simp] theorem forgetRange_power (a n : Nat) (s : State) : (forgetRange a n s).power = s.power := rfl
@[simp] theorem forgetRange_fuses (a n : Nat) (s : State) : (forgetRange a n s).fuses = s.fuses := rfl
@[simp] theorem forgetRange_regs (a n : Nat) (s : State) : (forgetRange a n s).regs = s.regs := rfl
@[simp] theorem forgetRange_img (a n : Nat) (s : State) : (forgetRange a n s).img = s.img := rfl
@[simp] theorem forgetRange_lcores (a n : Nat) (s : State) : (forgetRange a n s).lcores = s.lcores := rfl
@[simp] theorem forgetRange_pcores (a n : Nat) (s : State) : (forgetRange a n s).pcores = s.pcores := rfl
@[simp] theorem forgetRange_frame (a n : Nat) (s : State) : (forgetRange a n s).frame = s.frame := rfl
@[simp] theorem forgetRange_step (a n : Nat) (s : State) : (forgetRange a n s).step = s.step := rfl
@[simp] theorem forgetRange_fab (a n : Nat) (s : State) : (forgetRange a n s).fab = s.fab := rfl
@[simp] theorem forgetRange_kwyCache (a n : Nat) (s : State) : (forgetRange a n s).kwyCache = s.kwyCache := rfl
@[simp] theorem forgetRange_arc (a n : Nat) (s : State) : (forgetRange a n s).arc = s.arc := rfl
@[simp] theorem forgetRange_peer (a n : Nat) (s : State) : (forgetRange a n s).peer = s.peer := rfl
@[simp] theorem forgetRange_host (a n : Nat) (s : State) : (forgetRange a n s).host = s.host := rfl
@[simp] theorem forgetRange_jnl (a n : Nat) (s : State) : (forgetRange a n s).jnl = s.jnl := rfl
@[simp] theorem forgetRange_kpr (a n : Nat) (s : State) : (forgetRange a n s).kpr = s.kpr := rfl
@[simp] theorem forgetRange_err (a n : Nat) (s : State) : (forgetRange a n s).err = s.err := rfl
@[simp] theorem forgetRange_pwr (a n : Nat) (s : State) : (forgetRange a n s).pwr = s.pwr := rfl
@[simp] theorem forgetRange_sec (a n : Nat) (s : State) : (forgetRange a n s).sec = s.sec := rfl

/-! ### Register words and fields -/

@[simp] theorem getReg_setReg (s : State) (a : Nat) (v : Word) (b : Nat) :
    getReg (setReg s a v) b = if b = a then v else getReg s b := by
  simpa [getReg, setReg] using smGet_smSet (resetWord s.fuses) s.regs a v b

/-- A word whose field is replaced, by its parts above, in and below the field. -/
theorem putBits_eq (v lo w x : Nat) :
    putBits v lo w x = 2 ^ lo * (2 ^ w * (v / 2 ^ lo / 2 ^ w) + x % 2 ^ w) + v % 2 ^ lo := by
  have h1 := Nat.div_add_mod v (2 ^ lo)
  have h2 := Nat.div_add_mod (v / 2 ^ lo) (2 ^ w)
  simp only [putBits, bits, Nat.shiftRight_eq_div_pow, Nat.shiftLeft_eq]
  set h := v / 2 ^ lo / 2 ^ w with hh
  set m := v / 2 ^ lo % 2 ^ w with hm
  set r := v % 2 ^ lo with hr
  have h3 : v = 2 ^ lo * (2 ^ w * h) + m * 2 ^ lo + r := by
    rw [← h1, ← h2]; ring
  have h4 : v - m * 2 ^ lo = 2 ^ lo * (2 ^ w * h) + r := by omega
  rw [h4]; ring

theorem testBit_putBits (v lo w x i : Nat) :
    (putBits v lo w x).testBit i = if lo ≤ i ∧ i < lo + w then x.testBit (i - lo) else v.testBit i := by
  rw [putBits_eq, Nat.testBit_two_pow_mul_add _ (Nat.mod_lt _ (Nat.two_pow_pos lo))]
  by_cases h1 : i < lo
  · simp [h1, Nat.testBit_mod_two_pow, Nat.not_le.mpr h1]
  · rw [if_neg h1, Nat.testBit_two_pow_mul_add _ (Nat.mod_lt _ (Nat.two_pow_pos w))]
    by_cases h2 : i < lo + w
    · rw [if_pos (by omega), if_pos (by omega), Nat.testBit_mod_two_pow]; simp; omega
    · rw [if_neg (by omega), if_neg (by omega), Nat.testBit_div_two_pow, Nat.testBit_div_two_pow]
      congr 1; omega

theorem testBit_bits (v lo w i : Nat) : (bits v lo w).testBit i = (decide (i < w) && v.testBit (lo + i)) := by
  simp [bits, Nat.testBit_mod_two_pow]

theorem putBits_lt {v lo w : Nat} (x : Nat) (hv : v < 2 ^ 64) (h : lo + w ≤ 64) : putBits v lo w x < 2 ^ 64 := by
  refine Nat.lt_pow_two_of_testBit _ fun i hi => ?_
  rw [testBit_putBits, if_neg (by omega)]
  exact Nat.testBit_eq_false_of_lt (Nat.lt_of_lt_of_le hv (Nat.pow_le_pow_right (by omega) hi))

/-- A field reads as the value set, cut to its width. -/
theorem bits_putBits_same (v lo w x : Nat) : bits (putBits v lo w x) lo w = x % 2 ^ w := by
  refine Nat.eq_of_testBit_eq fun i => ?_
  simp only [testBit_bits, testBit_putBits, Nat.testBit_mod_two_pow]
  by_cases h : i < w
  · simp [h]
  · simp [h]

/-- A field apart from the one set reads as before. -/
theorem bits_putBits_other (v lo w x lo' w' : Nat) (h : lo' + w' ≤ lo ∨ lo + w ≤ lo') :
    bits (putBits v lo w x) lo' w' = bits v lo' w' := by
  refine Nat.eq_of_testBit_eq fun i => ?_
  simp only [testBit_bits, testBit_putBits]
  by_cases hi : i < w'
  · rw [if_neg (by omega)]
  · simp [hi]

theorem getReg_setFld (s : State) (f : Fld) (v : Nat) (hf : f.lo + f.w ≤ 64) :
    (getReg (setFld f v s) f.addr).toNat = putBits (getReg s f.addr).toNat f.lo f.w v := by
  rw [setFld, getReg_setReg, if_pos rfl, BitVec.toNat_ofNat]
  exact Nat.mod_eq_of_lt (putBits_lt _ (BitVec.isLt _) hf)

/-- A field reads as the value set, cut to its width. -/
theorem fld_setFld_same (s : State) (f : Fld) (v : Nat) (hf : f.lo + f.w ≤ 64) : fld (setFld f v s) f = v % 2 ^ f.w := by
  rw [fld, getReg_setFld s f v hf, bits_putBits_same]

/-- Fields that share no bit: of different registers, or apart in one. -/
def fldApart (f g : Fld) : Bool := f.addr != g.addr || decide (g.lo + g.w ≤ f.lo) || decide (f.lo + f.w ≤ g.lo)

/-- A field that shares no bit with the one set reads as before. -/
theorem fld_setFld_apart (s : State) {f g : Fld} (v : Nat) (hf : f.lo + f.w ≤ 64) (h : fldApart f g = true) :
    fld (setFld f v s) g = fld s g := by
  by_cases e : f.addr = g.addr
  · have := getReg_setFld s f v hf
    rw [fld, ← e, this, bits_putBits_other, fld, e]
    simp [fldApart, e] at h; omega
  · have e' : ¬ g.addr = f.addr := fun h => e h.symm
    rw [fld, setFld, getReg_setReg, if_neg e']; rfl

theorem fld_addFld_same (s : State) (f : Fld) (n : Nat) (hf : f.lo + f.w ≤ 64) :
    fld (addFld f n s) f = min (fld s f + n) (2 ^ f.w - 1) := by
  rw [addFld, fld_setFld_same s f _ hf, satAdd, Nat.mod_eq_of_lt]
  have := Nat.two_pow_pos f.w
  omega

theorem fld_addFld_apart (s : State) {f g : Fld} (n : Nat) (hf : f.lo + f.w ≤ 64) (h : fldApart f g = true) :
    fld (addFld f n s) g = fld s g := fld_setFld_apart s _ hf h

theorem fld_lt (s : State) (f : Fld) : fld s f < 2 ^ f.w := Nat.mod_lt _ (Nat.two_pow_pos _)

/-- Fields are read from the register words and the fuses alone. -/
theorem fld_congr {s t : State} (hr : t.regs = s.regs) (hf : t.fuses = s.fuses) (f : Fld) : fld t f = fld s f := by
  simp only [fld, getReg, hr, hf]

@[simp] theorem fld_freeStep (s : State) (g : Fld) : fld (freeStep s) g = fld s g := rfl
@[simp] theorem fld_idle (s : State) (g : Fld) : fld (idle s) g = fld s g := rfl
@[simp] theorem fld_setL (c : Nat) (l : LCore) (s : State) (g : Fld) : fld (setL c l s) g = fld s g := rfl
@[simp] theorem fld_modL (c : Nat) (f : LCore → LCore) (s : State) (g : Fld) : fld (modL c f s) g = fld s g := rfl
@[simp] theorem fld_modAllL (f : LCore → LCore) (s : State) (g : Fld) : fld (modAllL f s) g = fld s g := rfl
@[simp] theorem fld_modP (p : Nat) (f : PCore → PCore) (s : State) (g : Fld) : fld (modP p f s) g = fld s g := rfl
@[simp] theorem fld_sendMsi (n v : Nat) (s : State) (g : Fld) : fld (sendMsi n v s) g = fld s g := rfl
@[simp] theorem fld_forgetRange (a n : Nat) (s : State) (g : Fld) : fld (forgetRange a n s) g = fld s g := rfl

/-! ### The error ring -/

/-- Field values that are those of a state, apart from its register words, error ring, journal store and messages to hosts. -/
def ReportC (s : State) (v0 : List Instr) (v1 : Nat) (v2 : Nat) (v3 : PowerSt) (v4 : Fuses) (v5 : Mem) (v6 : Option Image) (v7 : List LCore) (v8 : SMap PCore) (v9 : FrameSt) (v10 : StepSt) (v11 : FabSt) (v12 : SMap Word) (v13 : LatSt) (v14 : ArcSt) (v15 : PeerSt) (v16 : KprSt) (v17 : PwrSt) (v18 : SecSt) : Prop :=
  v0 = s.pending ∧ v1 = s.now ∧ v2 = s.freeCtr ∧ v3 = s.power ∧ v4 = s.fuses ∧
  v5 = s.mem ∧ v6 = s.img ∧ v7 = s.lcores ∧ v8 = s.pcores ∧ v9 = s.frame ∧
  v10 = s.step ∧ v11 = s.fab ∧ v12 = s.kwyCache ∧ v13 = s.lat ∧ v14 = s.arc ∧
  v15 = s.peer ∧ v16 = s.kpr ∧ v17 = s.pwr ∧ v18 = s.sec

/-- Two states that differ at most in what reporting a code writes: register words, the error ring, the journal store, the
messages to the hosts. -/
def ReportFrame (s t : State) : Prop := ReportC s t.pending t.now t.freeCtr t.power t.fuses t.mem t.img t.lcores t.pcores t.frame t.step t.fab t.kwyCache t.lat t.arc t.peer t.kpr t.pwr t.sec

theorem ReportFrame.refl (s : State) : ReportFrame s s := by simp [ReportFrame, ReportC]
theorem ReportFrame.of {s t : State} (h : ReportC s t.pending t.now t.freeCtr t.power t.fuses t.mem t.img t.lcores t.pcores t.frame t.step t.fab t.kwyCache t.lat t.arc t.peer t.kpr t.pwr t.sec) : ReportFrame s t := h
theorem ReportFrame.core {s t : State} (h : ReportFrame s t) : ReportC s t.pending t.now t.freeCtr t.power t.fuses t.mem t.img t.lcores t.pcores t.frame t.step t.fab t.kwyCache t.lat t.arc t.peer t.kpr t.pwr t.sec := h
theorem ite_rf {c : Prop} [Decidable c] {s t u : State} (ht : ReportFrame s t) (hu : ReportFrame s u) :
    ReportFrame s (if c then t else u) := by
  split
  · exact ht
  · exact hu

theorem setFld_rf {s t : State} (h : ReportFrame s t) (f : Fld) (v : Nat) : ReportFrame s (setFld f v t) := h
theorem addFld_rf {s t : State} (h : ReportFrame s t) (f : Fld) (v : Nat) : ReportFrame s (addFld f v t) := h
theorem sendMsi_rf {s t : State} (h : ReportFrame s t) (n v : Nat) : ReportFrame s (sendMsi n v t) := h

theorem errSend_rf {s t : State} (h : ReportFrame s t) (b : Bool) (c : Nat) : ReportFrame s (errSend b c t) := by
  unfold errSend
  exact ite_rf (sendMsi_rf (sendMsi_rf h _ _) _ _) h

theorem errPendReg_rf {s t : State} (h : ReportFrame s t) : ReportFrame s (errPendReg t) := h

theorem errMark_rf {s t : State} (h : ReportFrame s t) (b : Bool) (c : Nat) : ReportFrame s (errMark b c t) := by
  unfold errMark
  refine ite_rf (ite_rf ?_ ?_) (ite_rf ?_ ?_)
  · exact h
  · apply errSend_rf; exact h
  · exact h
  · apply errSend_rf; exact h

theorem errLost_rf {s t : State} (h : ReportFrame s t) (c : Nat) : ReportFrame s (errLost c t) := h
theorem fatalCopy_rf {s t : State} (h : ReportFrame s t) (r : ERec) : ReportFrame s (fatalCopy r t) := h

/-- Reporting a code changes nothing but the error ring and what records it. -/
theorem report_changes (code : Code) (src : Nat) (d : Word) (s : State) : ReportFrame s (report code src d s) := by
  have h := ReportFrame.refl s
  unfold report
  repeat' first
    | with_reducible assumption
    | (with_reducible first | apply addFld_rf | apply errLost_rf | apply errMark_rf | apply fatalCopy_rf | apply setFld_rf)
    | (with_reducible refine ite_rf ?_ ?_)
    | (with_reducible apply ReportFrame.of; dsimp only)
    | (with_reducible apply ReportFrame.core)
    | split

@[simp] theorem report_pending (code : Code) (src : Nat) (d : Word) (s : State) : (report code src d s).pending = s.pending :=
  (report_changes code src d s).1
@[simp] theorem report_now (code : Code) (src : Nat) (d : Word) (s : State) : (report code src d s).now = s.now :=
  (report_changes code src d s).2.1
@[simp] theorem report_freeCtr (code : Code) (src : Nat) (d : Word) (s : State) : (report code src d s).freeCtr = s.freeCtr :=
  (report_changes code src d s).2.2.1
@[simp] theorem report_power (code : Code) (src : Nat) (d : Word) (s : State) : (report code src d s).power = s.power :=
  (report_changes code src d s).2.2.2.1
@[simp] theorem report_fuses (code : Code) (src : Nat) (d : Word) (s : State) : (report code src d s).fuses = s.fuses :=
  (report_changes code src d s).2.2.2.2.1
@[simp] theorem report_mem (code : Code) (src : Nat) (d : Word) (s : State) : (report code src d s).mem = s.mem :=
  (report_changes code src d s).2.2.2.2.2.1
@[simp] theorem report_img (code : Code) (src : Nat) (d : Word) (s : State) : (report code src d s).img = s.img :=
  (report_changes code src d s).2.2.2.2.2.2.1
@[simp] theorem report_lcores (code : Code) (src : Nat) (d : Word) (s : State) : (report code src d s).lcores = s.lcores :=
  (report_changes code src d s).2.2.2.2.2.2.2.1
@[simp] theorem report_pcores (code : Code) (src : Nat) (d : Word) (s : State) : (report code src d s).pcores = s.pcores :=
  (report_changes code src d s).2.2.2.2.2.2.2.2.1
@[simp] theorem report_frame (code : Code) (src : Nat) (d : Word) (s : State) : (report code src d s).frame = s.frame :=
  (report_changes code src d s).2.2.2.2.2.2.2.2.2.1
@[simp] theorem report_step (code : Code) (src : Nat) (d : Word) (s : State) : (report code src d s).step = s.step :=
  (report_changes code src d s).2.2.2.2.2.2.2.2.2.2.1
@[simp] theorem report_fab (code : Code) (src : Nat) (d : Word) (s : State) : (report code src d s).fab = s.fab :=
  (report_changes code src d s).2.2.2.2.2.2.2.2.2.2.2.1
@[simp] theorem report_kwyCache (code : Code) (src : Nat) (d : Word) (s : State) : (report code src d s).kwyCache = s.kwyCache :=
  (report_changes code src d s).2.2.2.2.2.2.2.2.2.2.2.2.1
@[simp] theorem report_lat (code : Code) (src : Nat) (d : Word) (s : State) : (report code src d s).lat = s.lat :=
  (report_changes code src d s).2.2.2.2.2.2.2.2.2.2.2.2.2.1
@[simp] theorem report_arc (code : Code) (src : Nat) (d : Word) (s : State) : (report code src d s).arc = s.arc :=
  (report_changes code src d s).2.2.2.2.2.2.2.2.2.2.2.2.2.2.1
@[simp] theorem report_peer (code : Code) (src : Nat) (d : Word) (s : State) : (report code src d s).peer = s.peer :=
  (report_changes code src d s).2.2.2.2.2.2.2.2.2.2.2.2.2.2.2.1
@[simp] theorem report_kpr (code : Code) (src : Nat) (d : Word) (s : State) : (report code src d s).kpr = s.kpr :=
  (report_changes code src d s).2.2.2.2.2.2.2.2.2.2.2.2.2.2.2.2.1
@[simp] theorem report_pwr (code : Code) (src : Nat) (d : Word) (s : State) : (report code src d s).pwr = s.pwr :=
  (report_changes code src d s).2.2.2.2.2.2.2.2.2.2.2.2.2.2.2.2.2.1
@[simp] theorem report_sec (code : Code) (src : Nat) (d : Word) (s : State) : (report code src d s).sec = s.sec :=
  (report_changes code src d s).2.2.2.2.2.2.2.2.2.2.2.2.2.2.2.2.2.2

end Sys2Proof.Machine
end

