-- ==== Sys2Proof/Laws/Sequencer.lean ====
section
/-! SUPPORT. The laws of the register files of a logical core, of the issue of a word, and of starting what the queues of an
otherwise empty logical core hold. -/
namespace Sys2Proof.Machine

/-! ### Register files (R102) -/

theorem readX_writeX (r q : BitVec 6) (v : Word) (l : LCore) :
    readX (writeX r v l) q = if q = r ∧ r ≠ 0 then v else readX l q := by
  by_cases hr : r = 0
  · simp only [writeX, hr, ite_true, ne_eq, not_true_eq_false, and_false, ite_false]
  · by_cases hq : q = 0
    · have h : ¬ (q = r ∧ r ≠ 0) := fun h => hr (h.1 ▸ hq)
      rw [if_neg h]
      simp only [readX, hq, ite_true]
    · by_cases e : q = r
      · subst e
        simp only [writeX, readX, hr, ne_eq, not_false_eq_true, and_self, ite_true, ite_false]
        exact Array.getElem_set_self (by simpa using q.isLt)
      · have h : r.toNat ≠ q.toNat := fun h => e (BitVec.eq_of_toNat_eq h.symm)
        simp only [writeX, readX, hr, hq, e, ite_false, false_and]
        exact Array.getElem_set_ne (by simpa using r.isLt) (by simp only [Vector.size_toArray]; exact q.isLt) h

theorem readD_writeD (r q : BitVec 5) (v : Desc) (l : LCore) : readD (writeD r v l) q = if q = r then v else readD l q := by
  unfold writeD readD
  by_cases e : q = r
  · subst e
    simp only [ite_true, Vector.get, Vector.toArray_set]
    exact Array.getElem_set_self _
  · have h : r.toNat ≠ q.toNat := fun h => e (BitVec.eq_of_toNat_eq h.symm)
    simp only [e, ite_false, Vector.get, Vector.toArray_set]
    exact Array.getElem_set_ne _ _ h

theorem setBit_get (p : BitVec 8) (r q : BitVec 3) (v : Bool) :
    (if v then p ||| (1#8 <<< r.toNat) else p &&& ~~~(1#8 <<< r.toNat)).getLsbD q.toNat =
      if q = r then v else p.getLsbD q.toNat := by
  have hb : (1#8 <<< r.toNat).getLsbD q.toNat = decide (q = r) := by
    revert r q; decide
  have hq : q.toNat < 8 := q.isLt
  cases v
  · simp only [Bool.false_eq_true, ite_false, BitVec.getLsbD_and, BitVec.getLsbD_not, hb]
    by_cases e : q = r <;> simp [e, hq]
  · simp only [ite_true, BitVec.getLsbD_or, hb]
    by_cases e : q = r <;> simp [e]

theorem readP_writeP (r q : BitVec 3) (v : Bool) (l : LCore) :
    readP (writeP r v l) q = if q = r ∧ r ≠ 0 then v else readP l q := by
  unfold writeP readP
  by_cases hr : r = 0#3
  · subst hr; by_cases hq : q = 0#3 <;> simp [hq]
  · by_cases hq : q = 0#3
    · have h0 : ¬ 0#3 = r := fun h => hr h.symm
      simp [hr, hq, h0]
    · by_cases e : q = r <;> simp [hr, hq, setBit_get, e]

/-! ### Logical cores by number -/

theorem getL_setL {c : Nat} {s : State} {l : LCore} (h : getL s c = some l) (l' : LCore) : getL (setL c l' s) c = some l' := by
  have hc : c < s.lcores.length := (List.getElem?_eq_some_iff.mp h).1
  simp [getL, setL, hc]

theorem setL_setL (c : Nat) (s : State) (l l' : LCore) : setL c l' (setL c l s) = setL c l' s := by
  simp [setL]

theorem setL_same {c : Nat} {s : State} {l : LCore} (h : getL s c = some l) : setL c l s = s := by
  have hc := List.getElem?_eq_some_iff.mp h
  have : s.lcores.set c l = s.lcores := by
    rw [← hc.2]; exact List.set_getElem_self hc.1
  simp [setL, this]

theorem listMod_eq {α : Type} (ls : List α) (n : Nat) (f : α → α) (a : α) (h : ls[n]? = some a) : listMod ls n f = ls.set n (f a) := by
  induction ls generalizing n with
  | nil => simp at h
  | cons b ls ih =>
    cases n with
    | zero => simp at h; simp [listMod, h]
    | succ n => simp at h; simp [listMod, ih n h]

theorem modL_eq {c : Nat} {s : State} {l : LCore} (h : getL s c = some l) (f : LCore → LCore) : modL c f s = setL c (f l) s := by
  simp only [modL, setL, listMod_eq _ _ f l h]

/-! ### Issue (R133) -/

theorem seqReady_of_atWord {c : Nat} {l : LCore} {s : State} (h : atWord c l s = true) :
    getL s c = some l ∧ seqReady s l = true ∧ l.pc + 8 ≤ l.codeBytes := by
  simp only [atWord, Bool.and_eq_true, beq_iff_eq, decide_eq_true_eq] at h
  simp only [seqReady, Bool.and_eq_true]
  tauto

/-- A word that can issue does what its operation does. -/
theorem seqIssue_acts {c : Nat} {l : LCore} {r : Req} {s : State} (h : canIssue c l r s = true) (act : LCore → State → State) :
    seqIssue c r act s = act l s := by
  simp only [canIssue, Bool.and_eq_true] at h
  obtain ⟨⟨⟨⟨ha, hw⟩, hp⟩, hst⟩, hr⟩ := h
  obtain ⟨hg, hs, hpc⟩ := seqReady_of_atWord ha
  simp only [wordOk, Bool.and_eq_true, Bool.not_eq_true', decide_eq_true_eq] at hw
  obtain ⟨⟨hu, hl⟩, ht⟩ := hw
  simp only [predOn] at hp
  have h1 : ¬ l.pc + 8 > l.codeBytes := by omega
  have h2 : ¬ imgLevel s < r.level := by omega
  have h3 : ((r.q == qT || r.q == qK) && !hasTumbler s.fuses) = false := by
    cases hh : hasTumbler s.fuses <;> simp_all
  have h4 : (r.q == qS && storeHeld l) = false := by simpa only [Bool.not_eq_true'] using hst
  have h5 : r.regs.any (regPending l) = false := by simpa only [Bool.not_eq_true'] using hr
  simp only [seqIssue, hg, hs, h1, hu, h2, h3, enabled, hp, h4, h5]
  simp

/-- A word whose predicate is off is passed (R98). -/
theorem seqIssue_off {c : Nat} {l : LCore} {r : Req} {s : State} (ha : atWord c l s = true) (hw : wordOk r s = true)
    (hp : predOn l r = false) (act : LCore → State → State) : seqIssue c r act s = setL c (nextWord l) s := by
  obtain ⟨hg, hs, hpc⟩ := seqReady_of_atWord ha
  simp only [wordOk, Bool.and_eq_true, Bool.not_eq_true', decide_eq_true_eq] at hw
  obtain ⟨⟨hu, hl⟩, ht⟩ := hw
  simp only [predOn] at hp
  have h1 : ¬ l.pc + 8 > l.codeBytes := by omega
  have h2 : ¬ imgLevel s < r.level := by omega
  have h3 : ((r.q == qT || r.q == qK) && !hasTumbler s.fuses) = false := by
    cases hh : hasTumbler s.fuses <;> simp_all
  simp only [seqIssue, hg, hs, h1, hu, h2, h3, enabled, hp]
  simp

/-- A word with an undefined encoding, or of a level above the image's, raises `UNDEF_OP` (R101, R133). -/
theorem seqIssue_undef {c : Nat} {l : LCore} {r : Req} {s : State} (ha : atWord c l s = true)
    (hu : (r.undef || decide (imgLevel s < r.level)) = true) (act : LCore → State → State) :
    seqIssue c r act s = programFault c r.q l.pc cUNDEF_OP s := by
  obtain ⟨hg, hs, hpc⟩ := seqReady_of_atWord ha
  have h1 : ¬ l.pc + 8 > l.codeBytes := by omega
  simp only [seqIssue, hg, hs, h1, hu]
  simp

theorem issueV_issues (c : Nat) (op level : Nat) (f : FmtD) (s : State) :
    ∃ act, issueV c op level f s = seqIssue c (issueOf.vReq op level f) act s := by
  simp only [issueV, issueD, dspec, issueOf.vReq]
  exact ⟨_, rfl⟩

/-- Every row of the instruction set issues its word with what R104 gives it. -/
theorem exec_issues {i : Instr} {c : Fin 256} {r : Req} {s : State} (hi : issueOf s i = some (c, r)) :
    ∃ act, exec i s = .next (seqIssue c r act s) := by
  cases i
  case vadd | vsub | vmul | vfma | vmin | vmax | vcmp | vexp2 | vlog2 | vrsqrt | vrcp | vpadd | vpred | vpfold | vpack | vunpack |
      vres | vresadd =>
    simp only [issueOf, Option.some.injEq, Prod.mk.injEq] at hi
    obtain ⟨rfl, rfl⟩ := hi
    exact (issueV_issues _ _ _ _ s).imp fun act h => congrArg Host.Outcome.next h
  case nop f =>
    cases f <;>
    · simp only [issueOf, Option.some.injEq, Prod.mk.injEq] at hi
      obtain ⟨rfl, rfl⟩ := hi
      exact ⟨_, rfl⟩
  all_goals simp only [issueOf, Option.some.injEq, Prod.mk.injEq, reduceCtorEq] at hi
  all_goals obtain ⟨rfl, rfl⟩ := hi; exact ⟨_, rfl⟩

/-! ### Starting what the queues hold (R64, R247) -/

section
variable {c : Nat} {s : State} {l : LCore}

theorem startM_empty (hg : getL s c = some l) (h : queue l qM = []) : startM c s = none := by
  simp only [startM, hg, headOf, h, enumFrom, List.find?_nil]; split <;> rfl
theorem startV_empty (hg : getL s c = some l) (h : queue l qV = []) : startV c s = none := by
  simp only [startV, hg, headOf, h, enumFrom, List.find?_nil]; split <;> rfl
theorem startT_empty (hg : getL s c = some l) (he : l.emptyAt = []) (h : queue l qT = []) : startT c s = none := by
  have : emptyDue l = l := by simp [emptyDue, he]
  simp only [startT, hg, this, headOf, h, enumFrom, List.find?_nil]; split <;> rfl
theorem startX_empty (hg : getL s c = some l) (h : queue l qX = []) : startX c s = none := by
  simp only [startX, hg, headOf, h, enumFrom, List.find?_nil]; (repeat' split) <;> rfl
theorem startC_empty (hg : getL s c = some l) (h : queue l qC = []) : startC c s = none := by
  simp only [startC, hg, h]; split <;> rfl
theorem startK_empty (hg : getL s c = some l) (h : queue l qK = []) : startK c s = none := by
  simp only [startK, hg, h]; split <;> rfl
theorem startG_empty (hg : getL s c = some l) (h : queue l qG = []) : startG c s = none := by
  simp only [startG, hg, h]; split <;> rfl
theorem startF_empty (hg : getL s c = some l) (h : queue l qF = []) : startF c s = none := by
  simp only [startF, hg, h]; split <;> rfl

/-- Nothing starts on a logical core whose queues other than S are empty. -/
theorem startOne_empty (hg : getL s c = some l) (he : l.emptyAt = []) (h : ∀ q, 1 ≤ q → q ≤ 8 → queue l q = []) :
    startOne c s = none := by
  simp only [startOne, List.findSome?_cons, List.findSome?_nil, startM_empty hg (h qM (by decide) (by decide)),
    startV_empty hg (h qV (by decide) (by decide)), startT_empty hg he (h qT (by decide) (by decide)),
    startX_empty hg (h qX (by decide) (by decide)), startC_empty hg (h qC (by decide) (by decide)),
    startK_empty hg (h qK (by decide) (by decide)), startG_empty hg (h qG (by decide) (by decide)),
    startF_empty hg (h qF (by decide) (by decide))]

/-- A logical core that has nothing to start, and does not halt, is left as it is. -/
theorem pump_none (hg : getL s c = some l) (he : l.emptyAt = []) (hb : l.block ≠ some .halt) (h : startOne c s = none) :
    pump c s = s := by
  have hd : emptyDue l = l := by simp [emptyDue, he]
  have hm : modL c emptyDue s = s := by rw [modL_eq hg, hd, setL_same hg]
  simp only [pump, hm, startAll, h, coreEnd, hg, hb, false_and, ite_false]

/-- A logical core that has one thing to start, and after it nothing. -/
theorem pump_one {t : State} (hg : getL s c = some l) (he : l.emptyAt = []) (h : startOne c s = some t)
    (ht : startOne c t = none) : pump c s = coreEnd c t := by
  have hd : emptyDue l = l := by simp [emptyDue, he]
  have hm : modL c emptyDue s = s := by rw [modL_eq hg, hd, setL_same hg]
  simp only [pump, hm, startAll, h, ht]

end

/-! ### Queues of an otherwise empty logical core -/

/-- What `coreEmpty` says. -/
theorem coreEmpty_iff {l : LCore} : coreEmpty l = true ↔ l.qs = List.replicate 9 [] ∧ l.waits = [] ∧ l.emptyAt = [] := by
  simp only [coreEmpty, Bool.and_eq_true, beq_iff_eq, and_assoc]

theorem queue_alone {l : LCore} {q : Nat} {e : QE} (h : l.qs = (List.replicate 9 []).set q [e]) (hq : q ≤ 8) (k : Nat) :
    queue l k = if k = q then [e] else [] := by
  simp only [queue, h]
  by_cases hk : k = q
  · subst hk
    have : k < 9 := by omega
    simp [List.getD_eq_getElem?_getD, this]
  · rw [List.getD_eq_getElem?_getD, List.getElem?_set_ne (fun h => hk h.symm), if_neg hk]
    rw [List.getElem?_replicate]
    split <;> rfl

theorem queue_none {l : LCore} (h : l.qs = List.replicate 9 []) (k : Nat) : queue l k = [] := by
  simp only [queue, h, List.getD_eq_getElem?_getD, List.getElem?_replicate]
  split <;> rfl

theorem pushQ_empty {l : LCore} (h : l.qs = List.replicate 9 []) {q : Nat} (hq : q ≤ 8) (e : QE) :
    pushQ q e l = { l with qs := (List.replicate 9 []).set q [e] } := by
  have hg : (List.replicate 9 ([] : List QE))[q]? = some [] := by
    rw [List.getElem?_replicate, if_pos (by omega)]
  simp only [pushQ, modQueue, h, listMod_eq _ _ _ _ hg, List.nil_append]

/-- A format D operation issued on an empty logical core stands alone in its queue, and starts if it can. -/
theorem issueD_empty {c : Nat} {f : FmtD} {d : DSpec} {s : State} {l : LCore} (adj : LCore → QE → QE × LCore)
    (h : canIssue c l (reqD d.q d.level f d.undef d.regs) s = true) (hc : coreEmpty l = true) (hq : d.q ≤ 8)
    (ho : operandErr l d.descs = none)
    (ha : (adj l (newEntry l (.ins (capD d.op l f d.ctrl)))).2.qs = l.qs) :
    issueD c f d adj s = pump c (setL c { nextWord (adj l (newEntry l (.ins (capD d.op l f d.ctrl)))).2 with
      qs := (List.replicate 9 []).set d.q [(adj l (newEntry l (.ins (capD d.op l f d.ctrl)))).1] } s) := by
  obtain ⟨hqs, -, -⟩ := coreEmpty_iff.mp hc
  have hr : queueRoom l d.q = true := by simp [queueRoom, queue_none hqs]
  have hp := pushQ_empty (l := nextWord (adj l (newEntry l (.ins (capD d.op l f d.ctrl)))).2)
    (by rw [← hqs, ← ha]; rfl) hq (adj l (newEntry l (.ins (capD d.op l f d.ctrl)))).1
  simp only [issueD, seqIssue_acts h, ho, hr, ite_true, hp]

theorem issueD_alone {c : Nat} {f : FmtD} {d : DSpec} {s : State} {l : LCore}
    (h : canIssue c l (reqD d.q d.level f d.undef d.regs) s = true) (hc : coreEmpty l = true) (hq : d.q ≤ 8)
    (ho : operandErr l d.descs = none) :
    issueD c f d plainD s = pump c (setL c (issuedCore d.q (newEntry l (.ins (capD d.op l f d.ctrl))) l) s) :=
  issueD_empty plainD h hc hq ho rfl

section
variable {c : Nat} {s : State} {l : LCore} {q : Nat} {e : QE}

/-- On a logical core whose only entry is in queue `q`, only that queue can start. -/
theorem startOne_alone (hg : getL s c = some l) (he : l.emptyAt = []) (hq : q ≤ 8) (h : l.qs = (List.replicate 9 []).set q [e]) :
    startOne c s = if q = qM then startM c s else if q = qT then startT c s else if q = qV then startV c s else
      if q = qX then startX c s else if q = qC then startC c s else if q = qK then startK c s else
      if q = qG then startG c s else if q = qF then startF c s else none := by
  have hk := queue_alone h hq
  have f1 : ∀ k, k ≠ q → queue l k = [] := fun k hne => by rw [hk, if_neg hne]
  have m : qM ≠ q → startM c s = none := fun hn => startM_empty hg (f1 _ hn)
  have t : qT ≠ q → startT c s = none := fun hn => startT_empty hg he (f1 _ hn)
  have v : qV ≠ q → startV c s = none := fun hn => startV_empty hg (f1 _ hn)
  have x : qX ≠ q → startX c s = none := fun hn => startX_empty hg (f1 _ hn)
  have cc : qC ≠ q → startC c s = none := fun hn => startC_empty hg (f1 _ hn)
  have k : qK ≠ q → startK c s = none := fun hn => startK_empty hg (f1 _ hn)
  have g : qG ≠ q → startG c s = none := fun hn => startG_empty hg (f1 _ hn)
  have ff : qF ≠ q → startF c s = none := fun hn => startF_empty hg (f1 _ hn)
  simp only [startOne, List.findSome?_cons, List.findSome?_nil]
  simp only [qM, qT, qV, qX, qC, qK, qG, qF] at *
  interval_cases q <;> simp_all <;> split <;> simp_all

end

theorem can_get {c : Nat} {l : LCore} {r : Req} {s : State} (h : canIssue c l r s = true) : getL s c = some l := by
  simp only [canIssue, Bool.and_eq_true] at h
  exact (seqReady_of_atWord h.1.1.1.1).1
theorem can_runs {c : Nat} {l : LCore} {r : Req} {s : State} (h : canIssue c l r s = true) : coreRuns s l = true ∧ l.block = none := by
  simp only [canIssue, Bool.and_eq_true] at h
  have := (seqReady_of_atWord h.1.1.1.1).2.1
  simp only [seqReady, Bool.and_eq_true, Option.isNone_iff_eq_none] at this
  simp only [coreRuns, Bool.and_eq_true]
  tauto

/-- A logical core that starts one thing, and after it nothing, and does not halt. -/
theorem start_alone {c : Nat} {s t : State} {l l2 : LCore} (hg : getL s c = some l) (he : l.emptyAt = [])
    (h1 : startOne c s = some t) (ht : startOne c t = none) (h2 : getL t c = some l2) (hb2 : l2.block ≠ some .halt) :
    pump c s = t := by
  rw [pump_one hg he h1 ht]
  simp only [coreEnd, h2, hb2, false_and, ite_false]

theorem takePort_empty {l : LCore} {xfer : Bool} {s : State} (h : ∀ q, q ≠ 0 → ∀ e ∈ queue l q, e.started = false) :
    takePort l xfer s = some (portTo xfer l s) := by
  simp only [takePort, portTo]
  split
  · rfl
  · have : sideBusy l (!xfer) = false := by
      simp only [sideBusy]
      rw [Bool.eq_false_iff]
      intro hh
      simp only [List.any_eq_true] at hh
      obtain ⟨q, hq, e, he, hs⟩ := hh
      have : q ≠ 0 := by
        cases xfer <;> simp [qM, qT, qV, qX, qK] at hq <;> omega
      rw [underWay, h q this e he] at hs; cases hs
    rw [this]; rfl

theorem getL_portTo {b : Bool} {l : LCore} {s : State} (c : Nat) : getL (portTo b l s) c = getL s c := by
  unfold portTo; split <;> rfl

theorem portTo_setL (b : Bool) (l : LCore) (c : Nat) (x : LCore) (s : State) : portTo b l (setL c x s) = setL c x (portTo b l s) := by
  unfold portTo
  show (if (getP s l.phys).xferSide = b then _ else _) = _
  split <;> rfl

theorem issued_alone {q : Nat} (hq : q ≤ 8) (e : QE) (l : LCore) (k : Nat) : queue (issuedCore q e l) k = if k = q then [e] else [] :=
  queue_alone rfl hq k

theorem port_new {q : Nat} (hq : q ≤ 8) {e : QE} (he : e.started = false) (l : LCore) (b : Bool) (s : State) :
    takePort (issuedCore q e l) b s = some (portTo b l s) := by
  refine takePort_empty fun k _ x hx => ?_
  rw [issued_alone hq] at hx
  split at hx
  · simp at hx; rw [hx, he]
  · cases hx

end Sys2Proof.Machine
end

