-- ==== Sys2Proof/Machine/Board.lean ====
section
/-! DEFINITION. The module at its board (R579 to R583, R586, R587, R594, R596): what each contact carries, the address on the management
bus, and the limits within which the manual defines the module's operation. -/
namespace Sys2Proof.Machine

/-! ### Contacts (R579 to R581) -/

inductive Connector where
  | ja | jb
  deriving DecidableEq, Repr

/-- The 14 rows of a connector. -/
inductive Row where
  | a | b | c | d | e | f | g | h | j | k | l | m | n | p
  deriving DecidableEq, Repr

/-- The signals of row P of J-A and J-B (R581). -/
inductive Sideband where
  | refClk (positive : Bool) | frameIn (positive : Bool) | hclk (port : Fin 2) (positive : Bool)
  | smbClk | smbDat | smbAlertN | bidClk | bidDat | perstN (port : Fin 2) | modRstN | pwrOk | modPresentN | sa (bit : Fin 2)
  | aclk (positive : Bool) | perstaN
  deriving DecidableEq, Repr

inductive Direction where
  | input | output | both
  deriving DecidableEq, Repr

/-- A port with lanes: fabric port, host port, archive port. -/
inductive LanePort where
  | fabric (n : Nat) | host (n : Nat) | archive
  deriving DecidableEq, Repr

/-- What a contact carries; a contact of an absent port is not driven, and ends at ground through 50 Ω (R580). -/
inductive Contact where
  | ground
  | lane (port : LanePort) (lane : Nat) (transmit positive : Bool)
  | undriven
  | signal (x : Sideband)
  deriving DecidableEq, Repr

/-- Number of a fabric row (A to H) on its connector. -/
def Row.fabric : Row → Option Nat
  | .a => some 0 | .b => some 1 | .c => some 2 | .d => some 3 | .e => some 4 | .f => some 5 | .g => some 6 | .h => some 7
  | _ => none

/-- The port of a lane row, and the first lane that the row carries. -/
def rowPort (x : Connector) (r : Row) : Option (LanePort × Nat) := match r.fabric, x, r with
  | some k, .ja, _ => some (.fabric k, 0)
  | some k, .jb, _ => some (.fabric (8 + k), 0)
  | none, .ja, .j => some (.host 0, 0)
  | none, .ja, .k => some (.host 0, 8)
  | none, .ja, .l => some (.host 1, 0)
  | none, .ja, .m => some (.host 1, 8)
  | none, .jb, .j => some (.archive, 0)
  | none, .jb, .k => some (.archive, 8)
  | _, _, _ => none

/-- Row P of J-A, by column. -/
def rowPA : Nat → Option Sideband
  | 2 => some (.refClk true) | 3 => some (.refClk false) | 5 => some (.frameIn true) | 6 => some (.frameIn false)
  | 8 => some (.hclk 0 true) | 9 => some (.hclk 0 false) | 11 => some (.hclk 1 true) | 12 => some (.hclk 1 false)
  | 14 => some .smbClk | 15 => some .smbDat | 16 => some .smbAlertN | 17 => some .bidClk | 18 => some .bidDat
  | 20 => some (.perstN 0) | 21 => some (.perstN 1) | 23 => some .modRstN | 25 => some .pwrOk | 27 => some .modPresentN
  | 29 => some (.sa 0) | 30 => some (.sa 1)
  | _ => none

/-- Row P of J-B, by column. -/
def rowPB : Nat → Option Sideband
  | 2 => some (.aclk true) | 3 => some (.aclk false) | 5 => some .perstaN
  | _ => none

/-- The direction of a signal of row P, as the module sees it. -/
def Sideband.direction : Sideband → Direction
  | .smbClk | .smbDat | .smbAlertN | .bidDat => .both
  | .bidClk | .pwrOk | .modPresentN | .aclk _ | .perstaN => .output
  | .refClk _ | .frameIn _ | .hclk _ _ | .perstN _ | .modRstN | .sa _ => .input

/-- What column `col` (1 to 60) of a row carries on a module with these fuses. -/
def contact (u : Fuses) (x : Connector) (r : Row) (col : Nat) : Contact := match rowPort x r with
  | some (p, l) =>
    if col = 0 ∨ 48 < col then .ground
    else
      let absent := match p with
        | .fabric n => !hasPort u n
        | _ => false
      let wire := fun (tx pos : Bool) => if absent then .undriven else .lane p (l + (col - 1) / 6) tx pos
      match (col - 1) % 6 with
      | 1 => wire true true
      | 2 => wire true false
      | 4 => wire false true
      | 5 => wire false false
      | _ => .ground
  | none => match r, x with
    | .p, .ja => ((rowPA col).map Contact.signal).getD .ground
    | .p, .jb => ((rowPB col).map Contact.signal).getD .ground
    | _, _ => .ground

/-! ### The management bus and the board identity bus (R583, R584) -/

/-- The module's 7-bit address on the management bus: an open strap reads as 1. -/
def smbAddress (s : State) : Nat := 0x68 + fld s HUB_RESET_STRAP

/-- The board device and the command that give a feed's `FEED_ID`. -/
def bidAddress : Nat := 0x50
def bidCommand (feedB : Bool) : Nat := if feedB then 2 else 0

/-! ### Limits (R582, R586, R594, R596) -/

/-- What stands at the module's inputs: feed voltages in mV, `REF_CLK` in Hz, coolant inlet and dew point in °C, flow in tenths of a litre
a minute, pressure in kPa, glycol in percent. -/
structure Supply where
  mvA : Int
  mvB : Int
  refHz : Nat
  inletC : Int
  dewC : Int
  flowDl : Nat
  kpa : Nat
  glycol : Nat
  deriving DecidableEq, Repr

/-- A feed at its operating voltage. -/
def feedOperates (mv : Int) : Prop := 40000 ≤ mv ∧ mv ≤ 60000

/-- The input bus, fed through diodes by the feeds, is high enough for the converters. -/
def busUp (x : Supply) : Prop := 36000 ≤ max x.mvA x.mvB

/-- `REF_CLK` is 100 MHz within 100 ppm. -/
def refGood (x : Supply) : Prop := 99990000 ≤ x.refHz ∧ x.refHz ≤ 100010000

/-- The requirements of the cold plate. -/
def coolantGood (x : Supply) : Prop :=
  5 ≤ x.inletC ∧ x.inletC ≤ 45 ∧ x.dewC + 2 ≤ x.inletC ∧ 80 ≤ x.flowDl ∧ x.kpa ≤ 600 ∧ 20 ≤ x.glycol ∧ x.glycol ≤ 30

/-- Within the limits of operation (R596), with the feeds that `s` has in use. -/
def withinLimits (s : State) (x : Supply) : Prop :=
  (s.pwr.feedA = true → feedOperates x.mvA) ∧ (s.pwr.feedB = true → feedOperates x.mvB) ∧ busUp x ∧ refGood x ∧ coolantGood x

/-- Beyond the absolute ratings of feeds and coolant, which damage the module (R596); a feed above 63 V for longer than 100 ms (`long`) is. -/
def damaged (x : Supply) (long : Bool) : Prop :=
  x.mvA < -60000 ∨ 80000 < x.mvA ∨ x.mvB < -60000 ∨ 80000 < x.mvB ∨ x.inletC < 0 ∨ 55 < x.inletC ∨
    (long = true ∧ (63000 < x.mvA ∨ 63000 < x.mvB))

end Sys2Proof.Machine
end

