-- ==== Sys2Proof/WellFormed.lean ====
section
/-! DEFINITION. Which commands can be sent: every operand that is wider in `Instr` than the field the manual gives it lies in that
field, and every list has the length it has on the wire. `exec` does not test this; it is what a sender keeps. -/
namespace Sys2Proof

/-- A module identifier: ward in bits 13 to 8, module in bits 7 to 0, bits 15 and 14 zero (R373). -/
def memberWf (m : Member) : Bool := decide (m.toNat < 2 ^ 14)

/-- A frame number (R31: bits 63 to 16 of the system time). -/
def frameWf (f : Nat) : Bool := decide (f < 2 ^ 48)

/-- An address of the module's 43-bit space (R19). -/
def addrWf (a : Nat) : Bool := decide (a < 2 ^ 43)

def framePktWf (p : FramePkt) : Bool := decide (p.hops < 256 ∧ p.period < 2 ^ 32 ∧ p.emit < 2 ^ 32)

def designationWf (d : Designation) : Bool := frameWf d.frame && d.escalated.all memberWf

def cutReqWf (c : CutReq) : Bool := frameWf c.frame

/-- A reduction packet (R306): 64 lanes, or 64 pairs when compensated; index below 2^17; CHECK and TAIL with bit 31 zero. -/
def redPktWf (p : RedPkt) : Bool :=
  decide (p.packet < 2 ^ 17 ∧ p.srcRank < 2 ^ 16 ∧ p.lanes.length = (if p.comp then 128 else 64) ∧ p.check.toNat < 2 ^ 31 ∧ p.tail.toNat < 2 ^ 31)

/-- A reduction packet that comes over a knuckle comes from another die of the module. -/
def redSrcWf (d : Fin 8) : RedSrc → Bool
  | .knuckle k => k != d
  | _ => true

/-- An undefined word is one that no table of R104 defines. -/
def nopWf (c : Fin 256) : NopWord → Bool
  | .nop _ => true
  | .undef w => (decodeWord c w).isNone

/-- A Keyway packet (R343): field widths, and a row for the dispatch and answer kinds alone. -/
def kwyPktWf (p : KwyPkt) : Bool :=
  decide (p.kind < 4 ∧ p.layer < 256 ∧ p.rank < 8 ∧ p.expert < 2 ^ 16 ∧ p.dWard < 256 ∧ p.dModule < 256 ∧ p.dLcore < 256 ∧
    p.sourceRank < 2 ^ 32 ∧ p.combine < 2 ^ 64 ∧ p.record < 2 ^ 32 ∧ p.slot < 2 ^ 32 ∧ p.inbox < 2 ^ 64) &&
  (decide (p.kind < 2) || p.row.isEmpty)

/-- Bytes of payload of a packet, as far as its body fixes them (R373). -/
def bodyBytes : Body → Nat
  | .write _ data _ => data.length
  | .readData data => data.length
  | .reduction p => if p.comp then 536 else 280
  | .keyway p => 64 + p.row.length
  | _ => 0

def bodyWf : Body → Bool
  | .write a data keep => addrWf a && keep.all fun k => decide (k.1 < data.length)
  | .readReq a _ => addrWf a
  | .refusal _ a => addrWf a
  | .reduction p => redPktWf p
  | .keyway p => kwyPktWf p
  | .frame p => framePktWf p
  | .deliveryAck cls _ _ => decide (cls < 4)
  | _ => true

/-- A packet (R373): HOPS in one byte, identifiers, and a payload of at most 4,160 bytes. -/
def packetWf (p : Packet) : Bool :=
  decide (p.hops < 256 ∧ bodyBytes p.body ≤ 4160) && memberWf p.dest && memberWf p.src && bodyWf p.body

/-- A bitting record (R378): one byte each for the versions, the kind and the port. -/
def bittingWf (r : Bitting) : Bool := decide (r.verMin < 256 ∧ r.verMax < 256 ∧ r.peerKind < 256 ∧ r.port < 256)

/-- What a tick reads (R499, R552): 8 quad sensors and one uncore sensor a die, 32 stacks, 4 hub sensors, and a draw and a
frequency for each die. -/
def tickInWf (t : TickIn) : Bool :=
  decide (t.quadC.length = 64 ∧ t.uncoreC.length = 8 ∧ t.stackC.length = 32 ∧ t.hubC.length = 4 ∧ t.dieDraw.length = 8 ∧ t.mhz.length = 8)

/-- A window access (R272) starts inside the 64 GiB window. -/
def mwWf : MwAccess → Bool
  | .read off _ => decide (off < 2 ^ 36)
  | .write off _ => decide (off < 2 ^ 36)

def snapInWf (x : SnapIn) : Bool := memberWf x.module && frameWf x.frame && decide (x.hash.length = 32)

/-- A register access names an address of register space and a value that fits its size (R11). -/
def regAccWf (size : Nat) (v : Word) : Bool := decide (v.toNat < 2 ^ (8 * size))

/-- Well-formedness of a command. Commands with no operand wider than its field have no condition. -/
def Instr.wf : Instr → Bool
  | .framePacket _ p => framePktWf p
  | .commitDesignation d => designationWf d
  | .repeatDesignation d => designationWf d
  | .resumeDesignation d => designationWf d
  | .readyVoteReceived m => memberWf m.member
  | .recoveryHold m => memberWf m.member
  | .recoveryRelease m => memberWf m.member
  | .deadlineReport m => memberWf m.member
  | .abortAcknowledgement m => memberWf m.member
  | .cutRequest r => cutReqWf r
  | .remoteRefusal _ _ _ a => addrWf a
  | .catchRefusal _ off => decide (off < 2 ^ 42)
  | .mwAccess _ a => mwWf a
  | .memCe a => addrWf a
  | .memUe a _ => addrWf a
  | .nop c f => nopWf c f
  | .reductionPacket d src p => redPktWf p && redSrcWf d src
  | .keywayResolve _ p => kwyPktWf p
  | .dispatchArrival _ p => kwyPktWf p
  | .closeArrival _ p => kwyPktWf p
  | .answerArrival _ p => kwyPktWf p
  | .keywayRefusal _ p => kwyPktWf p
  | .fastRetrainDone _ _ rs _ => rs.all bittingWf
  | .bittingRecord _ r => bittingWf r
  | .fabricPacket _ p => packetWf p
  | .remoteWrite _ p => packetWf p
  | .remoteRead _ p => packetWf p
  | .readData p => packetWf p
  | .writeAck p => packetWf p
  | .deliveryAck p => packetWf p
  | .firstTouch a data _ => addrWf a && decide (data.length ≤ 4096)
  | .tier1TransferDone _ x => snapInWf x
  | .heartbeat m => memberWf m
  | .heartbeatSilence m => memberWf m.member
  | .powerNotice m => memberWf m
  | .retirementNotice m => memberWf m
  | .adoptionPullDone m x _ => memberWf m && (x.map snapInWf).getD true
  | .slotDone k => decide (k < 256)
  | .keeperTick t => tickInWf t
  | .rsWrite _ _ v n => regAccWf n v
  | .registerWrite _ _ v n => regAccWf n v
  | .getCertificate _ _ off len => decide (off < 2 ^ 16 ∧ len < 2 ^ 16)
  | .ackGapExpiry _ m _ => memberWf m
  | .frameBoundary | .frameInEdge .. | .correctionWindowClose | .readyVote | .commitBoundary | .stepOpens | .poolWaitExpiry
  | .snapshotCut | .collectiveLaunch .. | .fwaitFires .. | .loopWindowOpen .. | .loopWindowClose .. | .queryDeadlineExpiry ..
  | .contributionDeadline .. | .abortRequest .. | .stepAbort .. | .collectionClose | .repeatOpen | .loadTicket ..
  | .postTicket .. | .stopTicket .. | .queryTicket .. | .doublingSwap .. | .add .. | .sub .. | .and .. | .or ..
  | .xor .. | .shl .. | .shr .. | .sra .. | .mul .. | .mulhu .. | .min .. | .max .. | .li .. | .lui .. | .cmp .. | .plog ..
  | .ld .. | .st .. | .br .. | .brr .. | .call .. | .dld .. | .dst .. | .dins .. | .dext .. | .dmov .. | .dadv .. | .halt ..
  | .detent .. | .detentRelease .. | .mma .. | .drain .. | .scaleRecordRead .. | .drainComplete .. | .hinge .. | .aclr ..
  | .tkeys .. | .tprobe .. | .tclr .. | .tcap .. | .vadd .. | .vsub .. | .vmul .. | .vfma .. | .vmin .. | .vmax .. | .vcmp ..
  | .vexp2 .. | .vlog2 .. | .vrsqrt .. | .vrcp .. | .vpadd .. | .vpred .. | .vpfold .. | .vpack .. | .vunpack .. | .vres ..
  | .vresadd .. | .xload .. | .xstore .. | .xgather .. | .xscatter .. | .xpose .. | .xcopy .. | .stagingRead ..
  | .xTransferComplete .. | .kroute .. | .ksendDispatch .. | .ksendAnswer .. | .kcomb .. | .kcombResumes .. | .kepoch ..
  | .kepochComplete .. | .gred .. | .gallg .. | .gbcast .. | .stepOpen .. | .stepCommit .. | .fwait .. | .fnow .. | .csig ..
  | .csigSend .. | .cwait .. | .cwaitEnds .. | .cset .. | .cread .. | .catchSignal .. | .arrayHw .. | .accEccCorr .. | .tbHw ..
  | .tbEccCorr .. | .scrEccCorr .. | .scrHw .. | .coreHw .. | .portTurnPass .. | .rowHammerRefresh .. | .gredComplete ..
  | .kwHw .. | .flitReceived .. | .retryTimeout .. | .progressTimeout .. | .laneFault .. | .bringupStageDone ..
  | .bringupTimeout .. | .linkDown .. | .retrain .. | .latchCopyDone .. | .latchRestore | .latchRestoreDone | .latCut ..
  | .tier1Completion .. | .archiveLinkDown | .nvmeCompletion .. | .uncoreHw .. | .ackSilence | .noPortUpTimeout | .sqTail ..
  | .ticketRead .. | .mirrorEntry .. | .mirrorAck .. | .mirrorTimeout .. | .cqHead .. | .msiGapExpiry .. | .hostHeartbeat ..
  | .hostHbSilence .. | .hostLinkLoss .. | .take .. | .resume .. | .kprLockstep | .keeperRestarted | .csOpen .. | .csCommit ..
  | .csAbandon .. | .restart .. | .swapMicrocode .. | .swapPortFw .. | .swapUncoreFw .. | .scrubPass .. | .cmdUndefined ..
  | .csApplyPoint | .csStrobe | .quiesceTimeout | .errorRingRelease .. | .refClkLost | .refClkRestored | .coastTimeout
  | .powerSample .. | .feedLoss .. | .feedRestored .. | .domainSwitchDone .. | .railTimeout .. | .thermTrip ..
  | .thermTripClear .. | .thermShutdown | .fwStage .. | .fwWrite .. | .fwSelect .. | .keygen .. | .svnCommit .. | .getVersion ..
  | .getCapabilities .. | .negotiateAlgorithms .. | .getDigests .. | .challenge .. | .getMeasurements .. | .spdmUnsupported ..
  | .powerUp .. | .perst .. | .modRstN | .powerLoss | .badRegisterAccess .. | .mmaComplete .. | .hingeComplete ..
  | .tkeysComplete .. | .tprobeComplete .. | .ksendComplete .. | .scalarLoadReturn .. | .hostLinkUp .. | .perstRelease ..
  | .modRstNRelease | .perstaNRelease | .archiveLinkUp .. | .clkBackupBad => true

end Sys2Proof
end

