-- ==== Sys2Proof/Tests/Slice0.lean ====
section
/-! SUPPORT. Tests: worked examples of the manual, a few small steps, commands that the well-formedness check refuses, and, for every
obligation with hypotheses, a state and operands that meet them. -/
namespace Sys2Proof.Tests
open Sys2Proof Sys2Proof.Machine
set_option Elab.async false

/-! ### The small states of the tests -/

/-- A window of 16 FP32 elements at `64 * b`, all valid, rank 1. -/
def tDesc (b : Nat) : Desc := BitVec.ofNat 256 (b + 2 ^ 41 + 16 * 2 ^ 92)

/-- A window of `n` rows of 16 FP32 elements at `64 * b`, all valid, rank 2, rows 16 elements apart. -/
def tDesc2 (b n : Nat) : Desc := BitVec.ofNat 256 (b + 2 * 2 ^ 41 + (n - 1) * 2 ^ 52 + 16 * 2 ^ 92 + n * 2 ^ 107 + 16 * 2 ^ 133)

/-- Scratch of core 0, in units of 64 bytes. -/
def tScr : Nat := 2 ^ 42 / 64

/-- A logical core on core 0: x1 = 8, x2 = 3, x3 = 64 KiB; d1 and d2 in own scratch, d3 in HBM, d4 of rank 0. -/
def tCore : LCore :=
  { pref := 0, phys := 0, loop := false, codeBytes := 4096, entry := 0, pc := 8, seq := 1,
    x := (((Vector.replicate 64 (0 : Word)).set 1 8).set 2 3).set 3 0x10000, p := 1,
    d := ((((Vector.replicate 32 (0 : Desc)).set 1 (tDesc tScr)).set 2 (tDesc (tScr + 1))).set 3 (tDesc 0)).set 5 (tDesc2 tScr 16),
    qs := List.replicate 9 [], waits := [], block := none, hinge := hingeReset, hingeIssued := hingeReset, acc := [], accDims := [],
    partStop := [], engStop := [], keyrings := List.replicate 2 keyringEmpty, cap := 512, emptyAt := [], streams := [],
    catches := [], greds := [], saved := none, inStep := false, opened := false, closing := false, ready := false, halted := false,
    stopped := false, resident := true }

/-- An image of one module at level 2, with one Keyway layer: 2 GiB of PERSISTENT, of TRANSIENT and of CONSTANT memory. -/
def tImg : Image :=
  { level := 2, loopImage := false, lcores := 1, hash := List.replicate 32 0, regions := [⟨0, 2 ^ 31, 0⟩, ⟨2 ^ 31, 2 ^ 31, 1⟩, ⟨2 ^ 32, 2 ^ 31, 2⟩],
    stepTree := [0], fanout := 0, streamKeys := [], layers := [⟨0, 0, 1, 1, 0, 1, 1, 1, 64, true⟩], q := 0, seq := 1, twin := none, postBase := 0, postN := 0,
    consumedAddr := 0, posts := [], postCount := 0, stopReq := none, faultPend := none }

/-- The module with that image and the logical cores given, quad 0 on. -/
def tWith (ls : List LCore) : State := setFld PWR_DOM_ON0_ON 1 { State.reset with img := some tImg, lcores := ls }
def tS : State := tWith [tCore]

/-- The module locked, at frame `f`. -/
def tLock (f : Nat) (s : State) : State := setFld FRM_STAT_STATE 2 (setFld FRM_STAT_LOCKED 1 { s with frame := { s.frame with f := f } })

def tA (xd xa xb : BitVec 6) (imm : BitVec 32) : FmtA := ⟨0, false, xd, xa, xb, imm⟩
def tD (dA dB dC dD : BitVec 5) (xa xb : BitVec 6) (ctrl : BitVec 18) : FmtD := ⟨0, false, dA, dB, dC, dD, xa, xb, ctrl⟩
def tY (q : BitVec 9) (xa xb : BitVec 6) (imm : BitVec 16) (ctrl : BitVec 13) : FmtY := ⟨0, false, q, xa, xb, imm, ctrl⟩
/-- The core with one entry in queue `q`. -/
def tHold (q : Nat) (e : QE) : LCore := { tCore with qs := (List.replicate 9 []).set q [e] }
/-- A started entry of operation `op` with the operands of `f`. -/
def tEnt (op : Nat) (f : FmtD) : QE := { entryD op tCore f with started := true }

/-- A window of `n` rows of `k` elements of type `ty` at `64 * b`, `u` units of 64 bytes each row. -/
def tRows (ty b u k n : Nat) : Desc :=
  BitVec.ofNat 256 (b + ty * 2 ^ 37 + 2 * 2 ^ 41 + (u - 1) * 2 ^ 46 + (n - 1) * 2 ^ 52 + k * 2 ^ 92 + n * 2 ^ 107 + k * 2 ^ 133)
/-- The core with descriptor registers 10 to 13 and x5 set. -/
def tCoreD (a b c d : Desc) (x : Word) : LCore :=
  { tCore with d := (((tCore.d.set 10 a).set 11 b).set 12 c).set 13 d, x := tCore.x.set 5 x }
/-- A core whose keyring 0 is loaded, and a memory with an empty tile of one line at the start of its scratch. -/
def tProbe : LCore := { tCoreD (BitVec.ofNat 256 (tScr + 8 * 2 ^ 37 + 2 ^ 41 + 2 ^ 45)) (tRows 8 (tScr + 64) 1 64 8) 0 (tRows 0 (tScr + 128) 8 128 1) 0 with
  keyrings := [⟨true, 8, 1, 0, []⟩, keyringEmpty] }
def tTile : Mem := State.reset.mem.writeBytes (2 ^ 42)
  ([0, 8, 0, 0] ++ leBytes 2 1 ++ leBytes 2 0 ++ leBytes 4 1 ++ leBytes 4 1 ++ leBytes 4 0 ++ leBytes 4 0 ++ leBytes 8 128 ++ leBytes 8 128)
/-- A core with a combine buffer of one record at 2 GiB, and memory holding its header. -/
def tComb : LCore := tCoreD (tDesc tScr) (tRows 0 (tScr + 128) 1 16 1) (tDesc (tScr + 1)) (tDesc2 (tScr + 16) 16) (2 ^ 31)
def tCombMem : Mem := State.reset.mem.writeBytes (2 ^ 31) (leBytes 4 0 ++ leBytes 4 0 ++ leBytes 4 1 ++ leBytes 4 64 ++ [1, 0])
/-- Memory in which the record waits for an answer. -/
def tKwyMem : Mem := tCombMem.writeBytes (2 ^ 31 + 66) [1]
/-- A core with a tensor of 64 FP32 words at 2 GiB, and memory with a bucket record of one packet and a group of two at 4 GiB. -/
def tGred : LCore := tCoreD (tRows 0 (2 ^ 25) 4 64 1) 0 0 0 (2 ^ 32)
def tGredMem : Mem := (State.reset.mem.writeBytes (2 ^ 32)
  (leBytes 4 9 ++ leBytes 4 1 ++ [0, 0] ++ leBytes 2 1 ++ leBytes 2 1 ++ leBytes 2 0 ++ leBytes 8 (2 ^ 32 + 64) ++ leBytes 2 2)).writeBytes (2 ^ 32 + 66) [1]
/-- The core with a step open and its share ready. -/
def tReady : LCore := { tCore with inStep := true, opened := true, ready := true }
/-- Step 1 of the module as root, locked at frame 3, in state `v`. -/
def tOpen (v : Nat) : State := setFld RDU_STEP_STAT_STATE v (setFld RDU_STEP_CTRL_ROOT 1 (tLock 3 (tWith [tReady])))
/-- The core with an executed STEP.OPEN of granule 0. -/
def tWaits : LCore := { tCore with opened := true, qs := (List.replicate 9 []).set qF [{ newEntry tCore (.stepOpen 1 0 1
  ⟨tCore.x, tCore.p, tCore.d, hingeReset, [], 16⟩) with started := true, flight := { flightNone with dst := [(0, granBytes)] } }] }

/-- Step 1 open with its number in the status register. -/
def tStep : State := setFld RDU_STEP_STAT_STEP 1 (tOpen 1)
/-- A reduction packet of bucket 9 whose check holds. -/
def tRed (step : BitVec 16) (check : BitVec 32) : RedPkt := ⟨9, step, 0, false, false, false, 0, 0, List.replicate 64 0, check, 0⟩
/-- A share of one packet of logical core 0, and its bucket. -/
def tShare (done : List Nat) : Share := ⟨0, 1, 0, tRows 0 (2 ^ 25) 4 64 1, tRows 0 (2 ^ 25) 4 64 1, done, false⟩
def tBucket (done : List Nat) : Bucket := ⟨9, 1, false, false, 100, 1, [0, 1], 2, 0, [tShare done], false, false, false, false⟩
/-- A Keyway packet of a layer, for an inbox at 2 GiB. -/
def tKwy (step : BitVec 16) (layer inbox : Nat) : KwyPkt :=
  ⟨0, 0, step, 0, layer, 0, true, 0, 0, 0, 0, 0, 0, 0, 2 ^ 31, 0, 0, inbox, 0, List.replicate 64 1⟩
/-- Two logical cores on core 0, the first halted. -/
def tTwo : State := tWith [{ tCore with halted := true }, { tCore with resident := false, pref := 0 }]
/-- The module with both host links up. -/
def tHost : State := { tS with host := { tS.host with linkUp := [true, true], perst := [false, false] } }
/-- Port 0 in bring-up state `v`, enabled, with an identity. -/
def tPort (v : Nat) : State := setFld FAB_ID_VALID 1 (setFld (pState 0) v (setFld (pEnable 0) 1 tS))
def tBit : Bitting := ⟨0x4254, 1, 1, 0, 0, 5, 255, 0⟩
/-- A packet of class `cls` for module `dest` on which `hops` hops were made. -/
def tPkt (cls : BitVec 2) (dest src : Member) (hops : Nat) (body : Body) : Packet := ⟨cls, false, hops, dest, 0, 0, src, 0, 0, 3, body⟩
/-- Ports 0 and 1 up, with module 5 of the own ward behind port 1. -/
def tFab : State := setFld (FAB_LOCAL_TABLE_PORTS 5) 2 (setFld (pState 1) 6 (setFld (pEnable 1) 1 (tPort 6)))
/-- At tick 8, with module 5 as partner and last heard at tick 0. -/
def tBeat : State := setFld KPR_STAT_TICK 8 (setFld LAT_PAIR_STAT_STATE 1 (setFld LAT_PAIR_PARTNER_MODULE 5
  { tS with peer := { tS.peer with beats := [(5, 0)] }, lat := { tS.lat with hold := { tS.lat.hold with held := some 5 } } }))
/-- Queues 3 and 4 read, ticket 77 in slot 0 of queue 3. -/
def tRing : State := modTQ 3 (fun x => { x with slots := [(0, 77)], tail := 1 }) (setFld TKT_CTRL_ENABLE 1 (setFld JNL_STAT_READY 1
  (setFld (TKT_Q_STAT_STATE 3) 1 (setFld (TKT_Q_STAT_STATE 4) 1 tHost))))
/-- A ticket of the kind given, of queue 3 with sequence number 7, and the journal that holds it accepted. -/
def tTicket (kind : Nat) : Ticket := BitVec.ofNat 1024 (kind + 3 * 2 ^ 16 + 7 * 2 ^ 64)
def tJnl (kind : Nat) : JnlSt := { State.reset.jnl with own := [(2048 * 3, ⟨tTicket kind, 1, false, false, 0, 0, 0, 0⟩)] }
def tWork (i : Option Image) (kind : Nat) : State := { tS with img := i, host := { tS.host with ready := [(3, 7)] }, jnl := tJnl kind }
def tAsk : State := setReg { tS with jnl := tJnl 3 } (rTKT_Q_ACCEPTED 3) 7
/-- Locked, in service window 0. -/
def tWin : State := setFld (TKT_LOOP_WIN_ENABLE 0) 1 (setFld (TKT_LOOP_WIN_CLOSE 0) 65535 (tLock 3 tS))
def tLateQ : State := setFld FRM_STAT_STATE 2 (setFld FRM_STAT_LOCKED 1 { tAsk with frame := { tAsk.frame with f := 3 } })
/-- Locked, window 0 open, a LOOP core, and query 7 of queue 3 accepted for frame 5. -/
def tServe : State :=
  let j : JnlSt := { State.reset.jnl with own := [(2048 * 3, ⟨tTicket 3 + 5 * 2 ^ 144, 1, false, false, 0, 0, 0, 0⟩)] }
  setFld TKT_LOOP_CFG_SLOTS 1 <| setReg { tWin with jnl := j, host := { tWin.host with winOpen := [0] }, lcores := [{ tCore with loop := true }] } (rTKT_Q_ACCEPTED 3) 7
/-- What a tick reads when all is well. -/
def tTick : TickIn :=
  ⟨List.replicate 64 40, List.replicate 8 40, List.replicate 32 40, List.replicate 4 40, 30, 35, 5000, List.replicate 8 500, List.replicate 8 1000, 0, some 1, some 2, true, none, 0, []⟩
def tDown : State := { tS with kpr := { tS.kpr with up := false } }
/-- A change set of port 0 open with nothing staged. -/
def tSet (v : Nat) (c : Option (BitVec 8 × Nat × Bool)) : State :=
  setFld KPR_CS_STAT_STATE v { tHost with kpr := { tHost.kpr with cs := some ⟨0, [], false, c, 0⟩ } }
/-- Endpoint 0 with its connection in state `v`. -/
def tConn (v : Nat) : State := { tS with sec := { tS.sec with conns := [v, 0, 0] } }
def tSwitch (d : Nat) (on : Bool) (s : State) : State := { s with pwr := { s.pwr with switching := [(d, on)] } }
/-- A GRED of `tGred` that waits for system time 8, at frame `f`. -/
def tQueuedE : QE := { entryD 0 tGred (tD 10 0 0 10 5 1 0) with checked := true }
def tQueuedL : LCore := { tGred with qs := (List.replicate 9 []).set qG [tQueuedE] }
def tQueued (f : Nat) : State := tLock f { tWith [tQueuedL] with mem := tGredMem }
/-- A GALLG that waits for system time 8, at frame 3. -/
def tMovedE : QE := { entryD 1 tGred (tD 10 0 0 10 5 1 0) with checked := true }
def tMovedL : LCore := { tGred with qs := (List.replicate 9 []).set qG [tMovedE] }
def tMoved : State := tLock 3 (tWith [tMovedL])

/-- At time 0 no replica lags. -/
theorem replicaTime_start {s : State} {d : Nat} (h : s.now = 0) :
    replicaTime s d = if s.frame.b ≤ 0 then timeWord s.frame.f (phaseAt s.frame.b s.frame.len0 s.frame.bNext s.frame.corr 0)
      else match s.frame.prev with
        | some (b, l, bn, corr) => timeWord (s.frame.f - 1) (phaseAt b l bn corr 0)
        | none => timeWord s.frame.f 0 := by
  simp only [replicaTime, h, Nat.zero_sub] <;> rfl

/-- A snapshot of module 5 with nothing in it, the module that holds module 5, and a seal in its first stage. -/
def tSnapIn : SnapIn := ⟨true, true, 1, 9, 5, 7, 1, List.replicate 32 0, 0, 0, [], [], [], []⟩
def tHolds : State := setFld LAT_PAIR_STAT_HOLDING 1 (setFld LAT_PAIR_STAT_HELD 5 { tS with lat := { tS.lat with hold := { tS.lat.hold with held := some 5 } } })
def tSeal : State := { tS with arc := { tS.arc with sealJob := some (0, true, 1), sealSnap := some (snapOf true tSnapIn), cmd := some ⟨.write, [], []⟩ } }

/-- A flit of zeros whose CRC field holds 1. -/
def tFlit : FlitBits := 1 <<< 4032

theorem crc64_zeros : ∀ n : Nat, crc64 (List.replicate n 0) = 0
  | 0 => rfl
  | n + 1 => crc64_zeros n

theorem tFlit_crc : bodyNat (leBytes 512 tFlit.toNat) 0x1F8 8 ≠ crc64 ((leBytes 512 tFlit.toNat).take 0x1F8) := by
  have h : (leBytes 512 tFlit.toNat).take 0x1F8 = List.replicate 504 0 := by decide +kernel
  rw [h, crc64_zeros]
  decide +kernel

theorem tZero_crc : bodyNat (leBytes 512 (0 : FlitBits).toNat) 0x1F8 8 = crc64 ((leBytes 512 (0 : FlitBits).toNat).take 0x1F8) := by
  have h : (leBytes 512 (0 : FlitBits).toNat).take 0x1F8 = List.replicate 504 0 := by decide +kernel
  rw [h, crc64_zeros]
  decide +kernel

/-! ### Worked examples of the manual -/

/-- Whether an outcome is a next state with a property. -/
def next (o : Host.Outcome State Fault Refusal) (p : State → Bool) : Bool := match o with
  | .next t => p t
  | _ => false

/-- The fuses of a TX8-3072K. -/
def tSmall : Fuses := ⟨2, 1, 0⟩

/-- R604, example "three registers on a TX8-3072K": addresses, and that M13 is present and F15 is not. -/
theorem test_register_addresses : rFAB_PORT_STAT 7 1 = 0x60007060108 ∧ rMEM_STACK_STAT 3 1 = 0x60003030140 ∧
    rTKT_CRING_CFG (32 + 5) = 0x60008090C58 ∧ stackMask tSmall = 0x77777777 ∧ hasStack tSmall 13 = true ∧ hasPort tSmall 15 = false := by
  decide +kernel

/-- R316, example "one plain packet through one adder": residues of 2^24, 1.0, 3.0, -0.5, 2.5, 0.75 and 2^-149. -/
theorem test_residues : ([0x4B800000, 0x3F800000, 0x40400000, 0xBF000000, 0x40200000, 0x3F400000, 1] : List F32).map residue =
    [0x00040000, 0x02000000, 0x06000000, 0x7EFFFFFF, 0x05000000, 0x01800000, 1] := by
  decide +kernel

/-- R176, example "a BF16 sum that plain accumulation loses": 2^24 + 1 keeps 2^24 and the error is 1. -/
theorem test_two_sum : twoSum 0x4B800000 0x3F800000 = (0x4B800000, 0x3F800000) := by decide +kernel

/-- R203, example "one stochastic E4M3 element": below the threshold 26,214 of 1.2999999523 the element is 1.375, at it 1.25. -/
theorem test_stochastic_rounding : fmtRound 3 (some 23100) 0xA66666 (-23) false = (11, -3) ∧ fmtRound 3 (some 26213) 0xA66666 (-23) false = (11, -3) ∧
    fmtRound 3 (some 26214) 0xA66666 (-23) false = (10, -3) := by
  decide +kernel

/-- R211, example "where the escape begins": 512 groups, and the escape form of 524,352 bytes. -/
theorem test_tile_escape : tileGroups 0 64 512 = 512 ∧ tileSize false 1 512 32512 = 524352 ∧ tileSize false 1 512 32513 = 524416 ∧
    tileSize true 1 512 (64 * 512) = 524352 := by
  decide +kernel

/-- R334, R335, example "one token, routed, cancelled and combined": the first five experts of its probe sequence. -/
theorem test_probe_experts : ([0, 1, 2, 3, 4].map fun j => 64 * ((0x9C400000 + j * 0x02000001) % 2 ^ 32) / 2 ^ 32) = [39, 39, 40, 40, 41] := by
  decide +kernel

/-- R580, example: lane 5 of F10 transmits on J-B C32 and C33 and receives on C35 and C36; F11 of a TX8-3072K is absent. -/
theorem test_contacts : contact fusesReset .jb .c 32 = .lane (.fabric 10) 5 true true ∧ contact fusesReset .jb .c 33 = .lane (.fabric 10) 5 true false ∧
    contact fusesReset .jb .c 35 = .lane (.fabric 10) 5 false true ∧ contact fusesReset .jb .c 36 = .lane (.fabric 10) 5 false false ∧
    contact tSmall .jb .d 32 = .undriven ∧ contact fusesReset .ja .p 23 = .signal .modRstN := by
  decide +kernel

/-! ### Small steps, with results by hand from R104 -/

/-- ADD wraps (R104), and pc goes on by 8. -/
theorem test_add_wraps : next (exec (.add 0 (tA 4 5 1 0)) (tWith [{ tCore with x := tCore.x.set 5 0xFFFFFFFFFFFFFFFF }])) (fun t =>
    t.lcores.map (fun l => (l.x[4], l.pc)) == [(7, 16)]) = true := by decide +kernel

/-- SRA keeps the sign and takes b mod 64. -/
theorem test_sra_sign : next (exec (.sra 0 (tA 4 5 6 0)) (tWith [{ tCore with x := (tCore.x.set 5 0x8000000000000000).set 6 65 }])) (fun t =>
    t.lcores.map (fun l => l.x[4]) == [0xC000000000000000]) = true := by decide +kernel

/-- MULHU is the high half of the unsigned product. -/
theorem test_mulhu : next (exec (.mulhu 0 (tA 4 5 5 0)) (tWith [{ tCore with x := tCore.x.set 5 0xFFFFFFFFFFFFFFFF }])) (fun t =>
    t.lcores.map (fun l => l.x[4]) == [0xFFFFFFFFFFFFFFFE]) = true := by decide +kernel

/-- x0 takes no write (R99). -/
theorem test_x0_constant : next (exec (.add 0 (tA 0 1 2 0)) tS) (fun t => t.lcores.map (fun l => (l.x[0], l.pc)) == [(0, 16)]) = true := by
  decide +kernel

/-- A write of one byte and its read, and that writing zero leaves nothing listed. -/
theorem test_memory_write : (State.reset.mem.writeBytes 0x1000 [7]).read 0x1000 = 7 ∧ (State.reset.mem.writeBytes 0x1000 [7]).read 0x1001 = 0 ∧
    (State.reset.mem.writeBytes 0x1000 [7]).writeBytes 0x1000 [0] = State.reset.mem := by
  decide +kernel

/-! ### Instruction words, written from R96, R97, R101 and R104 -/

/-- R137, the manual's example: `MMA` of d2 and d3 on partition 1 with ZERO 1, and the same under p3 = 0. -/
theorem test_word_mma : decodeTableWord 64 0x0002_4000_0018_8001 = some (.mma 0 ⟨0, false, 2, 3, 0, 0, 0, 0, 9⟩) ∧
    decodeTableWord 64 0x0002_4000_0018_AC01 = some (.mma 0 ⟨3, true, 2, 3, 0, 0, 0, 0, 9⟩) := by decide +kernel

/-- One word of every format: ADD x4 = x5 + x1 + 7 (A), LI x63 (L), BR back by 8 (B), DMOV (D), CSIG (Y), and the two rows of KSEND. -/
theorem test_word_formats :
    decodeTableWord 64 (1 * 2 ^ 4 + 4 * 2 ^ 14 + 5 * 2 ^ 20 + 1 * 2 ^ 26 + 7 * 2 ^ 32) = some (.add 0 ⟨0, false, 4, 5, 1, 7⟩) ∧
    decodeTableWord 64 (0x10 * 2 ^ 4 + 63 * 2 ^ 14 + 9 * 2 ^ 20) = some (.li 0 ⟨0, false, 63, 9⟩) ∧
    decodeTableWord 64 (0x28 * 2 ^ 4 + 0xFFFFFFFF * 2 ^ 14) = some (.br 0 ⟨0, false, 0xFFFFFFFF, 0⟩) ∧
    decodeTableWord 64 (0x34 * 2 ^ 4 + 31 * 2 ^ 14 + 30 * 2 ^ 19) = some (.dmov 0 ⟨0, false, 31, 30, 0, 0, 0, 0, 0⟩) ∧
    decodeTableWord 64 (5 + 3 * 2 ^ 14 + 1 * 2 ^ 23 + 2 * 2 ^ 29 + 6 * 2 ^ 35) = some (.csig 0 ⟨0, false, 3, 1, 2, 6, 0⟩) ∧
    decodeTableWord 64 (6 + 1 * 2 ^ 4) = some (.ksendDispatch 0 ⟨0, false, 0, 0, 0, 0, 0, 0, 0⟩) ∧
    decodeTableWord 64 (6 + 1 * 2 ^ 4 + 1 * 2 ^ 46) = some (.ksendAnswer 0 ⟨0, false, 0, 0, 0, 0, 0, 0, 1⟩) := by decide +kernel

/-- One word of each of the other queues: HINGE, TPROBE, VUNPACK, XCOPY, GBCAST, FNOW. -/
theorem test_word_queues :
    decodeTableWord 64 (1 + 2 * 2 ^ 4) = some (.hinge 0 ⟨0, false, 0, 0, 0, 0, 0, 0, 0⟩) ∧
    decodeTableWord 64 (2 + 1 * 2 ^ 4) = some (.tprobe 0 ⟨0, false, 0, 0, 0, 0, 0, 0, 0⟩) ∧
    decodeTableWord 64 (3 + 0x19 * 2 ^ 4) = some (.vunpack 0 ⟨0, false, 0, 0, 0, 0, 0, 0, 0⟩) ∧
    decodeTableWord 64 (4 + 5 * 2 ^ 4) = some (.xcopy 0 ⟨0, false, 0, 0, 0, 0, 0, 0, 0⟩) ∧
    decodeTableWord 64 (7 + 2 * 2 ^ 4) = some (.gbcast 0 ⟨0, false, 0, 0, 0, 0, 0, 0, 0⟩) ∧
    decodeTableWord 64 (8 + 3 * 2 ^ 4) = some (.fnow 0 ⟨0, false, 0, 0, 0, 0⟩) := by decide +kernel

/-- R97, R104: QUEUE 9, and OP 0x36 of the S queue, are defined by no table: the word is issued and raises `UNDEF_OP`; a word that is
not 64 bits long spells nothing. -/
theorem test_word_undefined : decodeTableWord 64 9 = some (.nop 0 (.undef 9)) ∧ decodeTableWord 64 0x360 = some (.nop 0 (.undef 0x360)) ∧
    next (exec (.nop 0 (.undef 9)) tS) (fun t => t.img == none) = true ∧ decodeTableWord 32 9 = none := by decide +kernel

/-- The word is placed at the front of the queue. -/
theorem test_fetch_word : (State.reset.withFetchWord 64 0x10).pending = [.add 0 ⟨0, false, 0, 0, 0, 0⟩] ∧
    State.reset.withFetchWord 32 0x10 = State.reset := ⟨rfl, rfl⟩

/-! ### Commands that the well-formedness check refuses, one for each check, beside one that it takes -/

theorem test_wf_takes : (Instr.framePacket 0 ⟨0, 255, 0, 0, true, 0⟩).wf = true ∧ (Instr.fabricPacket none (tPkt 3 0x3FFF 0 255 .writeAck)).wf = true ∧
    (Instr.reductionPacket 0 .adder (tRed 1 0)).wf = true ∧ (Instr.dispatchArrival 0 (tKwy 1 255 0)).wf = true ∧ (Instr.keeperTick tTick).wf = true ∧
    (Instr.bittingRecord 0 tBit).wf = true ∧ (Instr.memCe (2 ^ 43 - 1)).wf = true ∧ (Instr.registerWrite 0 0 0xFFFFFFFF 4).wf = true := by
  decide +kernel

theorem test_wf_refuses_fields : (Instr.framePacket 0 ⟨0, 256, 0, 0, true, 0⟩).wf = false ∧ (Instr.commitDesignation ⟨1, 0, 2 ^ 48, false, []⟩).wf = false ∧
    (Instr.repeatDesignation ⟨1, 0, 1, false, [0x4000]⟩).wf = false ∧ (Instr.resumeDesignation ⟨1, 0, 2 ^ 48, false, []⟩).wf = false ∧
    (Instr.readyVoteReceived ⟨0x4000, 1, 0⟩).wf = false ∧ (Instr.recoveryHold ⟨0x4000, 1, 0⟩).wf = false ∧ (Instr.recoveryRelease ⟨0x4000, 1, 0⟩).wf = false ∧
    (Instr.deadlineReport ⟨0x4000, 1, 0, .late, 0⟩).wf = false ∧ (Instr.abortAcknowledgement ⟨0x4000, 1, 0, .done, 0⟩).wf = false ∧
    (Instr.cutRequest ⟨2 ^ 48, true, true, 0⟩).wf = false ∧ (Instr.remoteRefusal 0 0 0 (2 ^ 43)).wf = false ∧ (Instr.catchRefusal 0 (2 ^ 42)).wf = false ∧
    (Instr.mwAccess 0 (.read (2 ^ 36) 1)).wf = false ∧ (Instr.mwAccess 0 (.write (2 ^ 36) [])).wf = false ∧ (Instr.memCe (2 ^ 43)).wf = false ∧ (Instr.memUe (2 ^ 43) none).wf = false := by
  decide +kernel

theorem test_wf_refuses_packets : (Instr.reductionPacket 0 .adder { tRed 1 0 with packet := 2 ^ 17 }).wf = false ∧
    (Instr.reductionPacket 0 .adder { tRed 1 0 with comp := true }).wf = false ∧ (Instr.reductionPacket 0 .adder (tRed 1 0x80000000)).wf = false ∧
    (Instr.keywayResolve 0 (tKwy 1 256 0)).wf = false ∧ (Instr.dispatchArrival 0 (tKwy 1 0 (2 ^ 64))).wf = false ∧
    (Instr.closeArrival 0 { tKwy 1 0 0 with kind := 2 }).wf = false ∧ (Instr.answerArrival 0 { tKwy 1 0 0 with rank := 8 }).wf = false ∧
    (Instr.keywayRefusal 0 { tKwy 1 0 0 with kind := 4 }).wf = false ∧ (Instr.bittingRecord 0 { tBit with verMax := 256 }).wf = false ∧
    (Instr.fastRetrainDone 0 255 [{ tBit with port := 256 }] []).wf = false ∧ (Instr.fabricPacket none (tPkt 0 0 0 256 .writeAck)).wf = false ∧
    (Instr.remoteWrite 0 (tPkt 0 0x4000 0 0 .writeAck)).wf = false ∧ (Instr.remoteRead 0 (tPkt 0 0 0 0 (.readReq (2 ^ 43) 1))).wf = false ∧
    (Instr.readData (tPkt 0 0 0 0 (.readData (List.replicate 4161 0)))).wf = false ∧ (Instr.writeAck (tPkt 0 0 0x4000 0 .writeAck)).wf = false ∧
    (Instr.deliveryAck (tPkt 3 0 0 0 (.deliveryAck 4 1 false))).wf = false ∧ (Instr.fabricPacket none (tPkt 0 0 0 0 (.write 0 [1] [(1, 0)]))).wf = false := by
  decide +kernel

theorem test_wf_refuses_others : (Instr.firstTouch (2 ^ 43) [] .host).wf = false ∧ (Instr.firstTouch 0 (List.replicate 4097 0) .host).wf = false ∧
    (Instr.tier1TransferDone true ⟨true, true, 1, 9, 5, 7, 1, [], 0, 0, [], [], [], []⟩).wf = false ∧ (Instr.heartbeat 0x4000).wf = false ∧
    (Instr.heartbeatSilence ⟨0x4000, false, false⟩).wf = false ∧ (Instr.powerNotice 0x4000).wf = false ∧ (Instr.retirementNotice 0x4000).wf = false ∧
    (Instr.adoptionPullDone 0x4000 none []).wf = false ∧ (Instr.slotDone 256).wf = false ∧ (Instr.keeperTick { tTick with quadC := [] }).wf = false ∧
    (Instr.rsWrite 0 0 (2 ^ 32) 4).wf = false ∧ (Instr.registerWrite 0 0 (2 ^ 32) 4).wf = false ∧ (Instr.getCertificate 0 0 65536 0).wf = false ∧
    (Instr.ackGapExpiry 0 0x4000 0).wf = false := by
  decide +kernel

/-! ### States and operands that meet the hypotheses of the obligations -/

theorem witness_StepRunsFrontCommand :
    (({ tS with pending := [Instr.frameBoundary, .readyVote] } : State).pending = Instr.frameBoundary :: [.readyVote] ∧ tS.pending = []) :=
  by decide +kernel

theorem witness_StepKeepsCanonicalForm :
    (smWf (resetWord tS.fuses) 0 tS.regs = true ∧ Memory.wf tS.mem = true) :=
  by decide +kernel

theorem witness_DisabledInstructionOnlyPasses :
    (issueOf tS (.add 0 { tA 1 2 3 0 with pneg := true }) = some (0, reqA { tA 1 2 3 0 with pneg := true } false [1, 2, 3]) ∧
    atWord 0 tCore tS = true ∧ wordOk (reqA { tA 1 2 3 0 with pneg := true } false [1, 2, 3]) tS = true ∧
    predOn tCore (reqA { tA 1 2 3 0 with pneg := true } false [1, 2, 3]) = false) ∧
    (issueOf tS (.cmp 0 (tA 48 2 3 0)) = some (0, reqA (tA 48 2 3 0) true [2, 3]) ∧ atWord 0 tCore tS = true ∧
    (reqA (tA 48 2 3 0) true [2, 3]).undef = true) ∧
    (let s : State := { tS with fuses := ⟨3, 1, 0⟩ }
    let r := reqD qT 2 (tD 0 1 0 0 0 0 0) false []
    issueOf s (.tkeys 0 (tD 0 1 0 0 0 0 0)) = some (0, r) ∧ atWord 0 tCore s = true ∧ r.undef = false ∧ r.level ≤ imgLevel s ∧
    (r.q = qT ∨ r.q = qK) ∧ hasTumbler s.fuses = false) :=
  ⟨by decide +kernel, by decide +kernel, by decide +kernel⟩

theorem witness_FetchFaultsAndPendingRegisters :
    (let l := { tCore with pc := 4096 }
    issueOf (tWith [l]) (.nop 0 (.nop (tA 0 0 0 0))) = some (0, reqA (tA 0 0 0 0) false []) ∧ getL (tWith [l]) (0 : Fin 256) = some l ∧
    seqReady (tWith [l]) l = true ∧ l.codeBytes < l.pc + 8) ∧
    (let l := tHold qS { newEntry tCore (.load 2 0) with started := true }
    let r := reqA (tA 1 2 3 0) false [1, 2, 3]
    issueOf (tWith [l]) (.add 0 (tA 1 2 3 0)) = some (0, r) ∧ atWord 0 l (tWith [l]) = true ∧ wordOk r (tWith [l]) = true ∧
    predOn l r = true ∧ r.regs.any (regPending l) = true) :=
  ⟨by decide +kernel, by decide +kernel⟩

theorem witness_ScalarAndPredicateOperations :
    (canIssue 0 tCore (reqA (tA 0 0 0 0) false []) tS = true) ∧
    (canIssue 0 tCore (reqA (tA 63 1 2 0xFFFFFFFF) false [63, 1, 2]) tS = true) ∧
    (canIssue 0 tCore (reqA (tA 0 1 2 0) false [0, 1, 2]) tS = true) ∧
    (canIssue 0 tCore ⟨qS, 0, false, false, 1, [1]⟩ tS = true) ∧
    (canIssue 0 tCore (reqA (tA 42 1 2 0) (decide ((42 : BitVec 6).toNat / 8 ≥ 6)) [1, 2]) tS = true) :=
  ⟨by decide +kernel, by decide +kernel, by decide +kernel, by decide +kernel, by decide +kernel⟩

theorem witness_Branches :
    (canIssue 0 tCore ⟨qS, 0, false, (0 : BitVec 18) != 0, 1, []⟩ tS = true ∧ (0 : Int) ≤ (tCore.pc : Int) + 8 * (510 : BitVec 32).toInt ∧
    (tCore.pc : Int) + 8 * (510 : BitVec 32).toInt < tCore.codeBytes ∧ ((tCore.pc : Int) + 8 * (510 : BitVec 32).toInt) % 8 = 0) ∧
    (canIssue 0 tCore ⟨qS, 0, false, (0 : BitVec 18) != 0, 1, []⟩ tS = true ∧ ¬ ((tCore.pc : Int) + 8 * (511 : BitVec 32).toInt < tCore.codeBytes)) ∧
    (canIssue 0 tCore (reqA (tA 0 1 0 0) false [1]) tS = true ∧ (readX tCore 1).toNat < tCore.codeBytes ∧ (readX tCore 1).toNat % 8 = 0) ∧
    (canIssue 0 tCore (reqA (tA 0 2 0 0) false [2]) tS = true ∧ (readX tCore 2).toNat % 8 ≠ 0) ∧
    (canIssue 0 tCore ⟨qS, 0, false, (0 : BitVec 18) != 0, 1, [63]⟩ tS = true ∧ (0 : Int) ≤ (tCore.pc : Int) + 8 * (-1 : BitVec 32).toInt) :=
  ⟨by decide +kernel, by decide +kernel, by decide +kernel, by decide +kernel, by decide +kernel⟩

theorem witness_ScalarLoads :
    (canIssue 0 tCore (reqA (tA 4 3 0 0) false [4, 3]) tS = true ∧ (readX tCore 3 + (0 : BitVec 32).signExtend 64).toNat % 8 = 0 ∧
    whereIs tS tCore 0x10000 8 = .hbm ∧ hbmBad tS 0x10000 8 = false ∧ (queue tCore qS).length < 16) ∧
    (canIssue 0 tCore (reqA (tA 4 3 0 1) false [4, 3]) tS = true ∧ (readX tCore 3 + (1 : BitVec 32).signExtend 64).toNat % 8 ≠ 0) ∧
    (canIssue 0 tCore (reqD qS 1 (tD 31 0 0 0 3 0 0) ((0 : BitVec 18) != 0) [3]) tS = true ∧ (readX tCore 3).toNat % 32 = 0 ∧
    whereIs tS tCore 0x10000 32 = .hbm ∧ hbmBad tS 0x10000 32 = false) ∧
    (canIssue 0 tCore (reqD qS 1 (tD 31 0 0 0 2 0 0) ((0 : BitVec 18) != 0) [2]) tS = true ∧ (readX tCore 2).toNat % 32 ≠ 0) ∧
    (canIssue 0 tCore (reqD qS 1 (tD 31 0 0 0 3 0 0) ((0 : BitVec 18) != 0) [3]) (markBad 0x10000 tS) = true ∧
    whereIs (markBad 0x10000 tS) tCore 0x10000 32 = .hbm ∧ hbmBad (markBad 0x10000 tS) 0x10000 32 = true) ∧
    (let e := { newEntry tCore (.load 4 7) with started := true, err := some (cMEM_UE, some 64) }
    let l := tHold qS e
    getL (tWith [l]) (0 : Fin 256) = some l ∧ coreEmpty { l with qs := l.qs.set qS [] } = true ∧ queue l qS = e :: [] ∧ e.err ≠ none) ∧
    (let e := { newEntry tCore (.load (63 : BitVec 6).toNat 7) with started := true }
    let l := tHold qS e
    getL (tWith [l]) (0 : Fin 256) = some l ∧ coreEmpty { l with qs := l.qs.set qS [] } = true ∧ l.block ≠ some .halt ∧
    queue l qS = e :: [] ∧ e.err = none ∧ e.pl = .load (63 : BitVec 6).toNat 7) :=
  ⟨by decide +kernel, by decide +kernel, by decide +kernel, by decide +kernel, by decide +kernel, by decide +kernel, by decide +kernel⟩

theorem witness_ScalarStores :
    (canIssue 0 tCore (reqA (tA 0 3 2 0x40) false [3, 2]) tS = true ∧ (readX tCore 3 + (0x40 : BitVec 32).signExtend 64).toNat % 8 = 0 ∧
    (queue tCore qS).length < 16 ∧ Memory.wf tS.mem = true ∧ whereIs (tWith [{ tCore with x := tCore.x.set 3 (2 ^ 42) }]) tCore (2 ^ 42) 8 = .own) ∧
    (let l := { tCore with x := tCore.x.set 3 (2 ^ 31) }
    let s := tWith [l]
    canIssue 0 l (reqA (tA 0 3 2 0) false [3, 2]) s = true ∧ whereIs s l (2 ^ 31) 8 = .hbm ∧ storeAllowed s (some l) (2 ^ 31) 8 = true ∧
    (getGran s (2 ^ 31 / granBytes)).st ≠ .copying ∧ needsCopy (getGran s (2 ^ 31 / granBytes)) = false) ∧
    (canIssue 0 tCore (reqA (tA 0 2 2 0) false [2, 2]) tS = true ∧ (readX tCore 2 + (0 : BitVec 32).signExtend 64).toNat % 8 ≠ 0) ∧
    (let l := { tCore with x := tCore.x.set 3 (2 ^ 31) }
    let s := tWith [l]
    canIssue 0 l (reqD qS 1 (tD 1 0 0 0 3 0 0) ((0 : BitVec 18) != 0) [3]) s = true ∧ (readX l 3).toNat % 32 = 0 ∧
    whereIs s l (2 ^ 31) 32 = .hbm ∧ operandErr l [1] = none ∧ storeAllowed s (some l) (2 ^ 31) 32 = true) ∧
    (canIssue 0 tCore (reqD qS 1 (tD 1 0 0 0 2 0 0) ((0 : BitVec 18) != 0) [2]) tS = true ∧ (readX tCore 2).toNat % 32 ≠ 0) :=
  ⟨by decide +kernel, by decide +kernel, by decide +kernel, by decide +kernel, by decide +kernel⟩

theorem witness_DescriptorOperations :
    (canIssue 0 tCore (reqD qS 1 (tD 1 4 0 0 0 2 4) (fieldUndef (tD 1 4 0 0 0 2 4)) [2]) tS = true) ∧
    (canIssue 0 tCore (reqD qS 1 (tD 1 0 0 0 4 0 4) (fieldUndef (tD 1 0 0 0 4 0 4)) [4]) tS = true ∧ operandErr tCore [1] = none) ∧
    (canIssue 0 tCore (reqD qS 1 (tD 7 1 0 0 0 0 0) ((0 : BitVec 18) != 0) []) tS = true ∧ operandErr tCore [1] = none) ∧
    (canIssue 0 { tCore with x := tCore.x.set 4 16 } (reqD qS 1 (tD 1 0 0 0 0 4 0) (!ctrlZero 3 (tD 1 0 0 0 0 4 0)) [4]) (tWith [{ tCore with x := tCore.x.set 4 16 }]) = true
    ∧ ((16 : Word).toInt * dStride (tDesc tScr) 0 * dBits (tDesc tScr)) % 512 = 0 ∧ 0 < dRank (tDesc tScr)) ∧
    (canIssue 0 tCore (reqD qS 1 (tD 1 0 0 0 0 2 0) (!ctrlZero 3 (tD 1 0 0 0 0 2 0)) [2]) tS = true ∧
    ((readX tCore 2).toInt * dStride (tDesc tScr) 0 * dBits (tDesc tScr)) % 512 ≠ 0) ∧
    (let l := { tCore with d := tCore.d.set 9 (BitVec.ofNat 256 (9 * 2 ^ 37 + 2 ^ 41)) }
    let f := tD 9 0 0 0 0 2 0
    let r := reqD qS 1 f (!ctrlZero 3 f) [f.xb]
    issueOf (tWith [l]) (.dadv 0 f) = some (0, r) ∧ canIssue 0 l r (tWith [l]) = true ∧ operandErr l [9] = some cTYPE_RESERVED) :=
  ⟨by decide +kernel, by decide +kernel, by decide +kernel, by decide +kernel, by decide +kernel, by decide +kernel⟩

theorem witness_HaltAndDetent :
    (canIssue 0 tCore (reqA (tA 0 0 0 0) false []) tS = true ∧ coreEmpty tCore = true ∧ tCore.inStep = false) ∧
    (canIssue 0 { tCore with inStep := true } (reqA (tA 0 0 0 0) false []) (tWith [{ tCore with inStep := true }]) = true) ∧
    (canIssue 0 tCore (reqY qS 1 (tY 511 1 0 0 0) ((0 : BitVec 13) != 0) [1]) tS = true ∧ coreEmpty tCore = true) ∧
    (let l := { tCore with block := some (.detent 511 0 8) }
    getL (tWith [l]) (0 : Fin 256) = some l ∧ coreRuns (tWith [l]) l = true ∧ coreEmpty l = true ∧ l.greds = [] ∧
    (swapPoint (tWith [l]) l && swapOwed (tWith [l]) l) = false) ∧
    (let l := { tHold qM (tEnt 0 (tD 1 1 1 1 0 0 0)) with block := some (.detent 2 5 8) }
    getL (tWith [l]) (0 : Fin 256) = some l ∧ queuesDone l 2 5 = false) ∧
    (let l := { tCore with block := some (.detent 511 0 8) }
    let s := tWith [l, { tCore with resident := false }]
    getL s (0 : Fin 256) = some l ∧ swapPoint s l = true ∧ swapOwed s l = true) :=
  ⟨by decide +kernel, by decide +kernel, by decide +kernel, by decide +kernel, by decide +kernel, by decide +kernel⟩

theorem witness_HingeAndClear :
    (let f := tD 0 0 0 0 1 0 5
    let r := reqD qM 2 f (!ctrlZero 3 f || decide (6 ≤ bits f.ctrl.toNat 0 3)) [f.xa]
    issueOf tS (.hinge 0 f) = some (0, r) ∧ canIssue 0 tCore r tS = true ∧ coreEmpty tCore = true) ∧
    (canIssue 0 tCore (reqD qM 1 (tD 0 0 0 0 0 0 0) (!ctrlZero 3 (tD 0 0 0 0 0 0 0)) []) tS = true ∧
    mPart (capD 3 tCore (tD 0 0 0 0 0 0 0) 0) < partCount (imgLevel tS) tCore.hinge.mode ∧ tCore.partStop.contains 0 = false) :=
  ⟨by decide +kernel, by decide +kernel⟩

theorem witness_SinglePassMma :
    (let f := tD 5 5 0 0 0 0 0
    let k := capD 0 tCore f f.ctrl.toNat
    let s1 := setL 0 (issuedCore qM (entryD 0 tCore f) tCore) tS
    let shape := partShape (imgLevel tS) tCore.hinge.mode
    (∃ r ∈ [reqD qM 1 f (!ctrlZero 8 f || partUndef tS f) []], issueOf tS (.mma 0 f) = some (0, r) ∧ canIssue 0 tCore r tS = true) ∧
    coreEmpty tCore = true ∧ operandErr tCore [5, 5] = none ∧ mPart k < partCount (imgLevel tS) tCore.hinge.mode ∧
    (match mmaOps s1 (issuedCore qM (entryD 0 tCore f) tCore) k with
    | .ok o => decide (o.m ≤ shape.1 ∧ o.n ≤ shape.2 ∧ passBad o 0 shape.1 = none)
    | .error _ => false) = true) ∧
    (let l := tCoreD (tRows 0 (tScr + 64) 33 513 32) (tRows 0 (tScr + 64) 33 513 32) 0 0 0
    let f := tD 10 11 0 0 0 0 0
    let r := reqD qM 1 f (!ctrlZero 8 f || partUndef (tWith [l]) f) []
    issueOf (tWith [l]) (.mma 0 f) = some (0, r) ∧ canIssue 0 l r (tWith [l]) = true ∧ coreEmpty l = true ∧ operandErr l [10, 11] = none ∧
    mPart (capD 0 l f f.ctrl.toNat) < partCount 2 l.hinge.mode ∧ l.partStop.contains 0 = false ∧
    mmaFolded (setL 0 (issuedCore qM (entryD 0 l f) l) (tWith [l])) (issuedCore qM (entryD 0 l f) l) (capD 0 l f f.ctrl.toNat) = true) ∧
    (let l := { tCore with hinge := ⟨5, [0, 0, 0, 0]⟩ }
    let f := tD 5 5 0 0 0 0 1
    let r := reqD qM 1 f (!ctrlZero 8 f || partUndef (tWith [l]) f) []
    issueOf (tWith [l]) (.mma 0 f) = some (0, r) ∧ canIssue 0 l r (tWith [l]) = true ∧ partCount 2 l.hinge.mode ≤ mPart (capD 0 l f f.ctrl.toNat)) :=
  ⟨by decide +kernel, by decide +kernel, by decide +kernel⟩

theorem witness_DrainStart :
    (let f := tD 0 0 0 5 1 0 0
    let r := reqD qM 1 f (!ctrlZero 6 f || bits f.ctrl.toNat 3 2 == 3 || partUndef tS f) (f.xa :: if f.ctrl.toNat.testBit 5 then [f.xb] else [])
    issueOf tS (.drain 0 f) = some (0, r) ∧ canIssue 0 tCore r tS = true ∧ operandErr tCore [5] = none ∧
    mPart (capD 1 tCore f 0) < partCount (imgLevel tS) tCore.hinge.mode ∧ (capD 1 tCore f 0).xa ≠ 0) ∧
    (let f := tD 0 0 0 5 0 0 8
    let l := { tCore with accDims := [(0, (16, 16))] }
    let k := capD 1 l f 8
    let e := entryD 1 l f
    let l1 := issuedCore qM e l
    let s1 := setL 0 l1 (tWith [l])
    let mn := drainDims (imgLevel (tWith [l])) l k
    let shape := partShape (imgLevel (tWith [l])) l.hinge.mode
    k.xa = 0 ∧ drainCheck (portTo false l s1) l1 k none mn.1 mn.2 = none ∧
    (drainDo (portTo false l s1) 0 l1 e k [(0, 0)] mn.1 mn.2 (max shape.1 mn.1) (max shape.2 mn.2) fun i j =>
    if i < shape.1 ∧ j < shape.2 then accGet l l.hinge.mode (mPart k) (mSet k) i j else pairZero).2.2 = none) ∧
    (let e := { entryD 1 tCore (tD 0 0 0 5 1 0 0) with srec := .unread }
    getL (tWith [tHold qM e]) (0 : Fin 256) = some (tHold qM e) ∧ soleEntry qM e (tHold qM e) = true ∧ e.srec = .unread) ∧
    (let e := { entryD 1 tCore (tD 0 0 0 5 1 0 0) with srec := .unread }
    ¬ (recPlaced (tWith [tHold qM e]) 8 = true ∧ hbmBad (tWith [tHold qM e]) 8 128 = true)) ∧
    (let e := { entryD 1 tCore (tD 0 0 0 5 3 0 0) with srec := .unread }
    let s := markBad 0x10000 (tWith [tHold qM e])
    getL s (0 : Fin 256) = some (tHold qM e) ∧ soleEntry qM e (tHold qM e) = true ∧ e.srec = .unread ∧ recPlaced s 0x10000 = true ∧ hbmBad s 0x10000 128 = true) ∧
    (let e := { tEnt 1 (tD 0 0 0 5 3 0 0) with recOut := some (List.replicate 128 0) }
    soleEntry qM e (tHold qM e) = true ∧ e.started = true ∧ e.paired = false ∧ e.streamOut = none ∧
    latHolds (memPut 0x10000 (List.replicate 128 0) (setL 0 (setEntry qM 0 { e with recOut := none, srec := .read (List.replicate 128 0) } (tHold qM e)) (tWith [tHold qM e]))) 0x10000 128 = false) :=
  ⟨by decide +kernel, by decide +kernel, by decide +kernel, by decide +kernel, by decide +kernel, by decide +kernel⟩

theorem witness_TumblerOperations :
    (let s := tWith [tProbe]
    canIssue 0 tProbe (reqD qT 2 (tD 0 11 0 0 0 0 1) (!ctrlZero 1 (tD 0 11 0 0 0 0 1)) []) s = true ∧ coreEmpty tProbe = true ∧
    operandErr tProbe [11] = none ∧ tProbe.engStop.contains 1 = false ∧ tkeysErr s.mem tProbe (readD tProbe 11) = none ∧
    (match tkeysLoad s.mem tProbe (readD tProbe 11) with | .ok _ => true | .error _ => false) = true) ∧
    (let s : State := { tWith [tProbe] with mem := tTile }
    let f := tD 10 0 0 13 0 0 0
    canIssue 0 tProbe (reqD qT 2 f (!ctrlZero 2 f) [f.xa]) s = true ∧ operandErr tProbe [10, 13] = none ∧
    tprobeErr s.mem tProbe (capD 1 tProbe f f.ctrl.toNat) = none ∧
    (match tprobeRun s.mem tProbe (capD 1 tProbe f f.ctrl.toNat) with | .ok _ => true | .error _ => false) = true) ∧
    (canIssue 0 tProbe (reqD qT 2 (tD 0 0 0 0 0 0 0) (!ctrlZero 1 (tD 0 0 0 0 0 0 0)) []) (tWith [tProbe]) = true ∧ coreEmpty tProbe = true) ∧
    (let l := tCoreD 0 0 0 0 64
    canIssue 0 l (reqD qT 2 (tD 0 0 0 0 5 0 0) ((0 : BitVec 18) != 0) [5]) (tWith [l]) = true ∧ coreEmpty l = true ∧ 64 ≤ (readX l 5).toNat) ∧
    (let l := tCoreD 0 0 0 0 63
    canIssue 0 l (reqD qT 2 (tD 0 0 0 0 5 0 0) ((0 : BitVec 18) != 0) [5]) (tWith [l]) = true ∧ ¬ (64 ≤ (readX l 5).toNat ∧ (readX l 5).toNat ≤ 4096)) :=
  ⟨by decide +kernel, by decide +kernel, by decide +kernel, by decide +kernel, by decide +kernel⟩

theorem witness_CatchesAndWaits :
    (canIssue 0 tCore (reqY qC 1 (tY 0 1 0 127 3) (!yZero 2 (tY 0 1 0 127 3)) [1]) tS = true ∧ coreEmpty tCore = true) ∧
    (canIssue 0 tCore (reqY qC 1 (tY 0 4 0 5 0) ((0 : BitVec 13) != 0) [4]) tS = true) ∧
    (canIssue 0 tCore (reqY qC 1 (tY 0 0 2 1 0) ((0 : BitVec 13) != 0) [0, 2]) tS = true ∧ csigBad tS (readX tCore 0) = false) ∧
    (canIssue 0 tCore (reqY qC 1 (tY 0 3 2 1 0) ((0 : BitVec 13) != 0) [3, 2]) tS = true ∧ csigBad tS (readX tCore 3) = true) ∧
    (let e := newEntry tCore (.csig 5 4 0)
    getL (tWith [tHold qC e]) (0 : Fin 256) = some (tHold qC e) ∧ coreRuns (tWith [tHold qC e]) (tHold qC e) = true ∧
    soleEntry qC e (tHold qC e) = true ∧ cwRemote 5 = false ∧ queuesDone (tHold qC e) 0 e.n = true) ∧
    (canIssue 0 tCore (reqY qC 1 (tY 0 0 0 3 0) ((0 : BitVec 13) != 0) []) tS = true ∧ (tY 0 0 0 3 0).qmask = 0) ∧
    (canIssue 0 tCore (reqY qF 2 (tY 0 1 0 3 0) ((0 : BitVec 13) != 0) [1]) tS = true) ∧
    (let e := { newEntry tCore (.wait (.reach 3) 0) with started := true }
    let l := setCatch 3 ⟨7, 5, true⟩ { tCore with waits := [e] }
    getL (tWith [l]) (0 : Fin 256) = some l ∧ coreRuns (tWith [l]) l = true ∧ l.qs = List.replicate 9 [] ∧ l.waits = [e] ∧ l.emptyAt = [] ∧
    l.block = none ∧ (catchOf l 3).target.toNat ≤ (catchOf l 3).counter.toNat) ∧
    (let e := { newEntry tCore (.wait (.reach 3) 0) with started := true }
    let l := setCatch 3 ⟨4, 5, true⟩ { tCore with waits := [e] }
    coreRuns (tWith [l]) l = true ∧ ¬ (catchOf l 3).target.toNat ≤ (catchOf l 3).counter.toNat) ∧
    (let e := { newEntry tCore (.wait (.time 0) 0) with started := true }
    let l := { tCore with waits := [e] }
    coreRuns (tLock 3 (tWith [l])) l = true ∧ isLocked (tLock 3 (tWith [l])) = true ∧ (0 : Word).toNat ≤ (replicaTime (tLock 3 (tWith [l])) l.die).toNat ∧ inTurn (tLock 3 (tWith [l])) 4 0 = true) ∧
    (let e := { newEntry tCore (.wait (.time 0) 0) with started := true }
    let l := { tCore with waits := [e] }
    coreRuns (tWith [l]) l = true ∧ isLocked (tWith [l]) = false) :=
  ⟨by decide +kernel, by decide +kernel, by decide +kernel, by decide +kernel, by decide +kernel, by decide +kernel, by decide +kernel, by decide +kernel, by decide +kernel, by decide +kernel, by decide +kernel⟩

theorem witness_CatchCounterSaturates :
    (let l := setCatch 5 ⟨0xFFFFFFFF, 1, false⟩ tCore
    (tWith [l]).fab.inbound = [] ∧ cwLcore 5 < lcoreCount (tWith [l]) ∧ getL (tWith [l]) (cwLcore 5) = some l ∧ 2 ^ 32 ≤ (catchOf l (cwIndex 5)).counter.toNat + (1 : BitVec 32).toNat) ∧
    (let l := setCatch 5 ⟨0xFFFFFFFF, 1, false⟩ tCore
    let p := tPkt 0 0 3 0 (.catchSig 5 1)
    let s : State := { tWith [l] with fab := { tS.fab with inbound := [p] } }
    s.fab.inbound = [p] ∧ p.body = .catchSig 5 1 ∧ p.src ≠ ownId s ∧ pktStale s p = false ∧ cwLcore 5 < lcoreCount s ∧ getL s (cwLcore 5) = some l ∧ 2 ^ 32 ≤ (catchOf l (cwIndex 5)).counter.toNat + (1 : BitVec 32).toNat) :=
  ⟨by decide +kernel, by decide +kernel⟩

theorem witness_SignalsAndRefusals :
    (tS.fab.inbound = [] ∧ cwLcore 5 < lcoreCount tS ∧ getL tS (cwLcore 5) = some tCore ∧ (catchOf tCore (cwIndex 5)).counter.toNat + (4 : BitVec 32).toNat < 2 ^ 32) ∧
    (let p := tPkt 0 0 3 0 (.catchSig 5 4)
    let q := tPkt 0 0 3 0 (.catchSig 0x100005 4)
    let s : State := { tS with fab := { tS.fab with inbound := [p] } }
    let o : State := { tStep with step := { tStep.step with abortedBelow := 1 }, fab := { tS.fab with inbound := [{ p with step := 1 }] } }
    p.src ≠ ownId s ∧ pktStale s p = false ∧ cwLcore 5 < lcoreCount s ∧ getL s (cwLcore 5) = some tCore ∧ lcoreCount s ≤ cwLcore 0x100005 ∧ pktStale o { p with step := 1 } = true ∧
    (catchOf tCore (cwIndex 5)).counter.toNat + (4 : BitVec 32).toNat < 2 ^ 32 ∧ q.body = .catchSig 0x100005 4) ∧
    (let p : Packet := { tPkt 0 0 3 0 (.refusal cCATCH_RANGE 0) with tag := 7 }
    let s : State := { tS with fab := { tS.fab with txns := [⟨7, 0, 1, false, 64⟩], inbound := [p] } }
    s.fab.inbound = [p] ∧ s.fab.txns = [⟨7, 0, 1, false, 64⟩] ∧ p.tag.toNat = 7 ∧ p.body = .refusal cCATCH_RANGE 0) ∧
    (let s : State := { tS with fab := { tS.fab with txns := [⟨7, 0, 1, false, 64⟩] } }
    s.fab.inbound = [] ∧ s.fab.txns = [⟨7, 0, 1, false, 64⟩]) ∧
    (let e := { tEnt 0 (tD 1 1 1 1 0 0 0) with n := 1 }
    let s : State := { tWith [tHold qX e] with fab := { tS.fab with txns := [⟨7, 0, 1, true, 64⟩] } }
    getL s (0 : Fin 256) = some (tHold qX e) ∧ soleEntry qX e (tHold qX e) = true ∧ (7 : Nat) < 65536) ∧
    (let e := { entryD 0 tCore (tD 1 1 1 1 0 0 0) with n := 1 }
    let s : State := { tWith [tHold qX e] with fab := { tS.fab with txns := [⟨7, 0, 1, true, 64⟩] } }
    getL s (0 : Fin 256) = some (tHold qX e) ∧ soleEntry qX e (tHold qX e) = true ∧ e.started = false) ∧
    (tS.fab.txns = []) :=
  ⟨by decide +kernel, by decide +kernel, by decide +kernel, by decide +kernel, by decide +kernel, by decide +kernel, by decide +kernel⟩

theorem witness_VectorOperations :
    (let f := tD 1 2 1 2 1 0 0
    ([(Instr.vadd 0 f, 0x0), (.vsub 0 f, 0x1), (.vmul 0 f, 0x2), (.vfma 0 f, 0x3), (.vmin 0 f, 0x4), (.vmax 0 f, 0x5), (.vcmp 0 f, 0x6)].all fun row =>
    (match issueOf tS row.1 with | some (_, r) => canIssue 0 tCore r tS | none => false) && (vErr tCore (capD row.2 tCore f 0)).isNone) = true ∧
    coreEmpty tCore = true ∧ operandErr tCore [1, 2, 2] = none) ∧
    (let f := tD 1 2 1 3 1 0 0
    (vErr tCore (capD 0 tCore f 0)).isSome = true ∧ operandErr tCore [1, 2, 3] = none) :=
  ⟨by decide +kernel, by decide +kernel⟩

theorem witness_LocalTransfers :
    (let f := tD 3 1 0 1 0 0 0
    let e := entryD 0 tCore f
    let s1 := setL 0 (issuedCore qX e tCore) tS
    (match issueOf tS (.xload 0 f) with | some (_, r) => canIssue 0 tCore r tS | none => false) = true ∧ operandErr tCore [3, 1] = none ∧
    csDie tS tCore.die 3 = false ∧ xRemote tS (capD 0 tCore f 0) = false ∧
    (match xCheck s1 (issuedCore qX e tCore) (capD 0 tCore f 0) tS.mem with | .ok rs => !xBad tS (capD 0 tCore f 0) rs | .error _ => false) = true) ∧
    (let l := tCoreD (tDesc (2 ^ 25)) (tDesc2 (2 ^ 25) 16) (tDesc2 (tScr + 16) 16) (tDesc2 (2 ^ 25 + 16) 16) 0
    let s := tWith [l]
    ([(Instr.xstore 0 (tD 1 0 0 10 0 0 0), 1, tD 1 0 0 10 0 0 0), (.xgather 0 (tD 11 1 0 12 0 0 1), 2, tD 11 1 0 12 0 0 1),
    (.xscatter 0 (tD 12 1 0 11 0 0 1), 3, tD 12 1 0 11 0 0 1), (.xpose 0 (tD 11 0 0 13 0 0 1), 4, tD 11 0 0 13 0 0 1),
    (.xcopy 0 (tD 11 0 0 13 0 0 0), 5, tD 11 0 0 13 0 0 0)].all fun row =>
    let k := capD row.2.1 l row.2.2 row.2.2.ctrl.toNat
    let l1 := issuedCore qX (entryD row.2.1 l row.2.2) l
    (match issueOf s row.1 with | some (_, r) => canIssue 0 l r s | none => false) && !csDie s l.die 3 && !xRemote s k &&
    ((xWrites 0 (xData s.mem k)).all fun w => decide (w.a < hbmEnd → mustHold s (w.a / granBytes) = false)) &&
    match xCheck (setL 0 l1 s) l1 k s.mem with | .ok rs => !xBad s k rs | .error _ => false) = true) :=
  ⟨by decide +kernel, by decide +kernel⟩

theorem witness_KeywayOperations :
    (let s : State := { tWith [tComb] with mem := tCombMem }
    ([(Instr.kroute 0 (tD 10 0 12 13 0 0 0), 0, tD 10 0 12 13 0 0 0, 0), (.ksendAnswer 0 (tD 11 13 0 0 0 0 1), 1, tD 11 13 0 0 0 0 1, 1),
    (.kcomb 0 (tD 0 0 0 11 5 0 0), 2, tD 0 0 0 11 5 0 0, 0), (.kepoch 0 (tD 0 0 0 0 5 0 0), 3, tD 0 0 0 0 5 0 0, 0)].all fun row =>
    let k := capD row.2.1 tComb row.2.2.1 row.2.2.2
    let e := newEntry tComb (.ins k)
    let l1 := issuedCore qK e tComb
    let s1 := portTo true tComb (setL 0 l1 s)
    (match issueOf s row.1 with | some (_, r) => canIssue 0 tComb r s | none => false) && (kErr s1 l1 k).isNone &&
    (latAwait (kWrites s1 k) s1).isNone && (startOne 0 (kDo 0 0 l1 e k s1)).isNone) = true) :=
  by decide +kernel

theorem witness_CollectiveOperations :
    (let s : State := { tWith [tGred] with mem := tGredMem }
    let f := tD 10 0 0 10 5 0 0
    let k := capD 0 tGred f 0
    let e' := { entryD 0 tGred f with checked := true }
    (match issueOf s (.gred 0 f) with | some (_, r) => canIssue 0 tGred r s | none => false) = true ∧ operandErr tGred [10, 10] = none ∧ k.xb = 0 ∧
    gredErr (setL 0 (issuedCore qG (entryD 0 tGred f) tGred) s) (issuedCore qG (entryD 0 tGred f) tGred) k = none ∧ tGred.greds.length < 64 ∧
    hbmBad s (extent k.dA).1 (extent k.dA).2 = false ∧ startOne 0 (gredLaunch 0 e' k (setL 0 (passedCore tGred) s)) = none) ∧
    (let s : State := { tWith [tGred] with mem := tGredMem }
    let f := tD 10 0 0 10 5 0 0
    let s1 := setL 0 (issuedCore qG (entryD 1 tGred f) tGred) s
    (match issueOf s (.gallg 0 f) with | some (_, r) => canIssue 0 tGred r s | none => false) = true ∧
    gmoveErr s1 (issuedCore qG (entryD 1 tGred f) tGred) (capD 1 tGred f 0) = none ∧ gOpen s (capD 1 tGred f 0) = false ∧
    ∀ w ∈ gWrites 0 (capD 1 tGred f 0) s.mem, w.a < hbmEnd → mustHold s (w.a / granBytes) = false) ∧
    (let s : State := { tWith [tGred] with mem := tGredMem, img := some { tImg with stepTree := [0, 5] } }
    let f := tD 10 0 0 10 5 0 0
    let s1 := setL 0 (issuedCore qG (entryD 2 tGred f) tGred) s
    (match issueOf s (.gbcast 0 f) with | some (_, r) => canIssue 0 tGred r s | none => false) = true ∧
    gmoveErr s1 (issuedCore qG (entryD 2 tGred f) tGred) (capD 2 tGred f 0) = none ∧ gOpen s (capD 2 tGred f 0) = true ∧
    latAwait [extent (gOut (capD 2 tGred f 0))] s = none) ∧
    (let s : State := { tWith [tGred] with mem := tGredMem }
    let f := tD 10 0 0 10 5 1 0
    (capD 0 tGred f 0).xb ≠ 0 ∧ gredErr (setL 0 (issuedCore qG (entryD 0 tGred f) tGred) s) (issuedCore qG (entryD 0 tGred f) tGred) (capD 0 tGred f 0) = none) ∧
    (let s := tWith [tGred]
    let f := tD 10 0 0 10 5 0 0
    (gredErr (setL 0 (issuedCore qG (entryD 0 tGred f) tGred) s) (issuedCore qG (entryD 0 tGred f) tGred) (capD 0 tGred f 0)).isSome = true) ∧
    (coreRuns (tQueued 3) tQueuedL = true ∧ soleEntry qG tQueuedE tQueuedL = true ∧ tQueuedE.checked = true ∧ isLocked (tQueued 3) = true ∧
    (8 : Word).toNat ≤ (replicaTime (tQueued 3) tQueuedL.die).toNat ∧ inTurn (tQueued 3) 4 8 = true ∧ tQueuedL.greds.length < 64 ∧
    hbmBad (tQueued 3) (extent (tRows 0 (2 ^ 25) 4 64 1)).1 (extent (tRows 0 (2 ^ 25) 4 64 1)).2 = false) ∧
    ((match gmoveStart 0 tMovedL tMovedE (capD 1 tGred (tD 10 0 0 10 5 1 0) 0) tMoved with | some _ => true | none => false) = true ∧
    tMovedE.checked = true ∧ soleEntry qG tMovedE tMovedL = true ∧ (8 : Word).toNat ≤ (replicaTime tMoved tMovedL.die).toNat) ∧
    (coreRuns (tQueued 0) tQueuedL = true ∧ isLocked (tQueued 0) = true ∧ ¬ (8 : Word).toNat ≤ (replicaTime (tQueued 0) tQueuedL.die).toNat) :=
  ⟨by decide +kernel, by decide +kernel, by decide +kernel, by decide +kernel, by decide +kernel, ⟨by decide +kernel, by decide +kernel, by decide +kernel, by decide +kernel, by rw [replicaTime_start rfl]; decide +kernel, by decide +kernel, by decide +kernel, by decide +kernel⟩, ⟨by decide +kernel, by decide +kernel, by decide +kernel, by rw [replicaTime_start rfl]; decide +kernel⟩, ⟨by decide +kernel, by decide +kernel, by rw [replicaTime_start rfl]; decide +kernel⟩⟩

theorem witness_QueuesMoveOn :
    (let e := tEnt 0 (tD 1 1 1 1 0 0 0)
    getL (tWith [tHold qM e]) (0 : Fin 256) = some (tHold qM e) ∧ e.started = true ∧ soleEntry qM e (tHold qM e) = true ∧ e.paired = false ∧
    soleEntry qT e (tHold qT e) = true ∧ soleEntry qX e (tHold qX e) = true ∧ xDone e = true) ∧
    (let e := tEnt 1 (tD 5 5 5 5 0 0 0)
    soleEntry qK e (tHold qK e) = true ∧ ((kWrites (tWith [tHold qK e]) (capD 1 tCore (tD 5 5 5 5 0 0 0) 0)).any fun w => latHolds (tWith [tHold qK e]) w.1 w.2) = false ∧
    ksendLeft (tWith [tHold qK e]) 0 = true) ∧
    (let e := tEnt 3 (tD 5 5 5 5 0 0 0)
    soleEntry qK e (tHold qK e) = true ∧ coreRuns (tWith [tHold qK e]) (tHold qK e) = true ∧
    kepochDrained (tWith [tHold qK e]) (capD 3 tCore (tD 5 5 5 5 0 0 0) 0) = true ∧
    ((kWrites (tWith [tHold qK e]) (capD 3 tCore (tD 5 5 5 5 0 0 0) 0)).any fun w => latHolds (tWith [tHold qK e]) w.1 w.2) = false) ∧
    (let e := tEnt 2 (tD 5 5 5 1 0 0 0)
    let k := capD 2 tCore (tD 5 5 5 1 0 0 0) 0
    soleEntry qK e (tHold qK e) = true ∧ kcombReady (tWith [tHold qK e]) k = true ∧
    (kcombRows (bufRead tS.mem k.xa.toNat) k (rowsOf k.dD) 0 tS.mem).2 = none) ∧
    (let e := { newEntry tComb (.ins (capD 2 tComb (tD 0 0 0 11 5 0 0) 0)) with started := true }
    let l := { tComb with qs := (List.replicate 9 []).set qK [e] }
    let s : State := { tWith [l] with mem := tKwyMem }
    coreRuns s l = true ∧ soleEntry qK e l = true ∧ kcombReady s (capD 2 tComb (tD 0 0 0 11 5 0 0) 0) = false) ∧
    (let e := entryD 0 tCore (tD 3 1 0 1 0 0 0)
    let k := capD 0 tCore (tD 3 1 0 1 0 0 0) 0
    let s := tWith [tHold qX e]
    coreRuns s (tHold qX e) = true ∧ soleEntry qX e (tHold qX e) = true ∧ e.started = false ∧ e.staged = none ∧ e.err = none ∧ e.flight = flightNone ∧
    xRemote s k = false ∧ (match xCheck s (tHold qX e) k s.mem with | .ok rs => !xBad s k rs | .error _ => false) = true) :=
  ⟨by decide +kernel, by decide +kernel, by decide +kernel, by decide +kernel, by decide +kernel, by decide +kernel⟩

theorem witness_StepInstructions :
    (canIssue 0 tCore (reqF 2 (tA 4 0 0 0) [4]) tS = true ∧ coreEmpty tCore = true) ∧
    (let l := { tCore with inStep := true, x := tCore.x.set 1 1 }
    canIssue 0 l (reqF 2 (tA 0 1 0 0) [1]) (tWith [l]) = true ∧ l.loop = false ∧ l.ready = false ∧ l.greds = [] ∧ (readX l 1).toNat = (tWith [l]).step.next) ∧
    (let l := { tCore with x := (tCore.x.set 1 1).set 2 (2 ^ 42) }
    let s : State := { tWith [l] with mem := tS.mem.writeBytes (2 ^ 42) (leBytes 8 0 ++ leBytes 4 1 ++ leBytes 4 0) }
    let e := newEntry l (.stepOpen 1 (2 ^ 42) 1 ⟨l.x, l.p, l.d, l.hingeIssued, [], 16⟩)
    canIssue 0 l (reqF 2 (tA 0 1 2 1) [1, 2]) s = true ∧ l.loop = false ∧ l.inStep = false ∧ (readX l 1).toNat = s.step.next ∧
    wsList (setL 0 (issuedCore qF e l) s) (issuedCore qF e l) (2 ^ 42) 1 = some [(0, 1)]) :=
  ⟨by decide +kernel, by decide +kernel, by decide +kernel⟩

theorem witness_RegisterFields :
    ((FRM_STAT_STATE).lo + (FRM_STAT_STATE).w ≤ 64 ∧ (FRM_STAT_STATE.addr ≠ FRM_STAT_LOCKED.addr ∨ FRM_STAT_LOCKED.lo + FRM_STAT_LOCKED.w ≤ FRM_STAT_STATE.lo ∨
    FRM_STAT_STATE.lo + FRM_STAT_STATE.w ≤ FRM_STAT_LOCKED.lo)) :=
  by decide +kernel

theorem witness_ReportRecordsCode :
    (Code.fatal cCATCH_OVERFLOW = false ∧ errMatch tS false cCATCH_OVERFLOW 7 = none ∧ errUsed tS false < 4032) ∧
    (let s := report cCATCH_OVERFLOW 7 9 tS
    errMatch s false cCATCH_OVERFLOW 7 = some 0 ∧ (smFind s.err.recs 0).isSome = true) ∧
    (let s := setFld ERR_GEN_TAIL 4032 tS
    errMatch s false cCATCH_OVERFLOW 7 = none ∧ 4032 ≤ errUsed s false ∧ cCATCH_OVERFLOW.toNat < 0x1000) :=
  ⟨by decide +kernel, by decide +kernel, by decide +kernel⟩

theorem witness_FramesBeginAndHoldOver :
    (live tS = true ∧ tS.frame.early = none) ∧
    (live (tLock 3 tS) = true ∧ (tLock 3 tS).frame.closed = false ∧ (tLock 3 tS).frame.corr = none ∧ 2 ≤ fld (tLock 3 tS) FRM_STAT_STATE ∧
    fld (tLock 3 tS) FRM_STAT_HOLD_COUNT + 1 ≤ holdLimit (tLock 3 tS) ∧ fld (tLock 3 tS) FRM_STAT_HOLD_COUNT < 31) ∧
    (let s : State := { tLock 3 tS with frame := { (tLock 3 tS).frame with corr := some (5, 0) } }
    live s = true ∧ s.frame.closed = false ∧ s.frame.corr.isSome = true) :=
  ⟨by decide +kernel, by decide +kernel, by decide +kernel⟩

theorem witness_FirstEstimateStartsAcquire :
    (let s := setFld FRM_CTRL_ENABLE 1 (setFld FRM_CTRL_ROLE 2 (setFld FRM_START_START_FRAME 40 tS))
    live s = true ∧ fldOn s FRM_CTRL_ENABLE = true ∧ fld s FRM_CTRL_ROLE ≠ 0 ∧ fld s FRM_STAT_STATE = 0 ∧ s.frame.corr = none ∧ fld s FRM_CTRL_ROLE = 2) ∧
    (live tS = true ∧ fldOn tS FRM_CTRL_ENABLE = false) ∧
    (let s := setFld FRM_CTRL_ENABLE 1 (setFld FRM_CTRL_PARENT_MASK 1 (setFld (pState 0) 6 (setFld (pVersion 0) 2 tS)))
    let p : FramePkt := ⟨77, 0, 1000000, 10, true, 1000⟩
    live s = true ∧ fldOn s FRM_CTRL_ENABLE = true ∧ fld s FRM_CTRL_ROLE = 0 ∧ portUp s (0 : Fin 16) = true ∧
    (fld s FRM_CTRL_PARENT_MASK).testBit 0 = true ∧ 2 ≤ fld s (pVersion 0) ∧ p.locked = true ∧ p.hops < 8 ∧ s.frame.senders = [] ∧
    fld s FRM_STAT_STATE = 0 ∧ s.frame.corr = none) ∧
    (live tS = true ∧ tS.fab.inbound = [] ∧ ((⟨77, 8, 1000000, 10, true, 1000⟩ : FramePkt).locked = false ∨ 8 ≤ (⟨77, 8, 1000000, 10, true, 1000⟩ : FramePkt).hops)) :=
  ⟨by decide +kernel, by decide +kernel, by decide +kernel, by decide +kernel⟩

theorem witness_StepsAreVotedAndCommit :
    (live (tOpen 1) = true ∧ shareReady (tOpen 1) = true ∧ shareReady (tS) = false) ∧
    (let m : MemberMsg := ⟨0, 1, 0⟩
    let s := tOpen 2
    let s2 : State := { s with step := { s.step with votes := [(0, 0)] } }
    live s = true ∧ inOrder (ctlIs (.vote m)) s = true ∧ m.step.toNat = s.step.next ∧ s.step.votes.contains (m.member, m.attempt.toNat) = false ∧ actsRoot s2 = true ∧ s.step.tallied = false ∧
    tallyOk s2 = true ∧ treeOf s ≠ []) ∧
    ((⟨0, 2, 0⟩ : MemberMsg).step.toNat ≠ (tOpen 2).step.next ∧ tallyOk (tOpen 2) = false ∧ (⟨0, 1, 1⟩ : MemberMsg).step.toNat = (tOpen 2).step.next ∧
    tallyOk { tOpen 2 with step := { (tOpen 2).step with votes := [(0, 1)] } } = false) ∧
    (let s := tOpen 2
    let d : Designation := ⟨1, 0, 4, false, []⟩
    live s = true ∧ inOrder (ctlIs (.commit d)) s = true ∧ stepState s = 2 ∧ d.step.toNat = s.step.next ∧ d.attempt.toNat = s.step.attempt ∧ s.step.commitF = none ∧
    s.frame.f < d.frame ∧ stepState tS ≠ 2) ∧
    (let s := tOpen 2
    let d : Designation := ⟨1, 0, 3, false, []⟩
    inOrder (ctlIs (.commit d)) s = true ∧ stepState s = 2 ∧ d.step.toNat = s.step.next ∧ isLocked s = true ∧ d.frame ≤ s.frame.f) ∧
    (let s : State := { tOpen 2 with step := { (tOpen 2).step with commitF := some (1, 3) } }
    live s = true ∧ isLocked s = true ∧ stepState s = 2 ∧ s.step.commitF = some (s.step.next, 3) ∧ 3 ≤ s.frame.f ∧ s.step.failedStacks = [] ∧
    (match s.img with | some i => i.faultPend.isNone && i.stopReq.isNone | none => false) = true) ∧
    (let s : State := { tOpen 2 with img := some { tImg with faultPend := some (cXF_ALIGN, 9) }, step := { (tOpen 2).step with commitF := some (1, 3) } }
    (s.img.bind (·.faultPend)) = some (cXF_ALIGN, 9) ∧ s.step.commitF = some (s.step.next, 3) ∧ stepState s = 2) ∧
    (let s : State := { tOpen 2 with img := some { tImg with stopReq := some (0, 5) }, step := { (tOpen 2).step with commitF := some (1, 3) } }
    (s.img.bind (·.stopReq)) ≠ none ∧ s.step.commitF = some (s.step.next, 3) ∧ stepState s = 2) :=
  ⟨by decide +kernel, by decide +kernel, by decide +kernel, by decide +kernel, by decide +kernel, by decide +kernel, by decide +kernel, by decide +kernel⟩

theorem witness_StepOpens :
    (let s : State := { tWith [tWaits] with frame := { tS.frame with f := 3 } }
    live s = true ∧ stepIsOpen s = false ∧ s.step.moves = [] ∧ loopCores s = [] ∧ s.step.any = false ∧ allOpened s = true ∧ resumeWaits s = false ∧ waitingOpens s ≠ [] ∧ openRoom s = .fits ∧
    stepIsOpen (applyMoves s) = false ∧ (applyMoves s).step.any = false ∧ allOpened (applyMoves s) = true ∧ resumeWaits (applyMoves s) = false ∧ waitingOpens (applyMoves s) ≠ [] ∧ openRoom (applyMoves s) = .fits) ∧
    (live tS = true ∧ stepIsOpen tS = false ∧ stepIsOpen (applyMoves tS) = false ∧ allOpened (applyMoves tS) = false ∧ tS.step.moves = [] ∧ loopCores tS = [] ∧ allOpened tS = false) ∧
    (stepIsOpen (tOpen 1) = true ∧ waitingOpens (tOpen 1) = []) ∧
    (let s := setFld RDU_STEP_STAT_STATE 1 (setFld RDU_STEP_CTRL_ROOT 1 (tLock 3 (tWith [tWaits])))
    stepIsOpen s = true ∧ waitingOpens s ≠ [] ∧ openRoom s = .fits) ∧
    (let s : State := { tS with step := { tS.step with waitFrames := some 0 } }
    live s = true ∧ s.step.waitFrames = some 0 ∧ tS.step.waitFrames ≠ some 0) :=
  ⟨by decide +kernel, by decide +kernel, by decide +kernel, by decide +kernel, by decide +kernel⟩

theorem witness_AttemptsAreAborted :
    (let b : Bucket := ⟨9, 1, false, false, 1, 1, [0, 1], 0, 0, [], false, false, false, false⟩
    let s : State := { tOpen 1 with step := { (tOpen 1).step with buckets := [b] } }
    live s = true ∧ isLocked s = true ∧ stepState s = 1 ∧ b.done = false ∧ b.reported = false ∧ (s.step.refFrame + b.deadline) * 65536 < (sysTime s).toNat ∧
    inTurn s 6 ((s.step.refFrame + b.deadline) * 65536 + 1) = true ∧ b.id ≠ 0) ∧
    (live (tOpen 2) = true ∧ stepState (tOpen 2) ≠ 1) ∧
    (inOrder (ctlIs (.abortAck ⟨0, 1, 0, .late, 9⟩)) (tOpen 1) = true ∧ (⟨0, 1, 0, .late, 9⟩ : KindMsg).step.toNat = (tOpen 1).step.next ∧
    (tOpen 1).step.acks.contains (0, .late, 0) = false ∧ (⟨0, 2, 0, .late, 9⟩ : KindMsg).step.toNat ≠ (tOpen 1).step.next) ∧
    (let m : KindMsg := ⟨0, 1, 0, .late, 9⟩
    inOrder (ctlIs (.report m)) (tOpen 1) = true ∧ canFlood (tOpen 1) = true ∧ msgNow (tOpen 1) m.step m.attempt = true ∧ canFlood (tOpen 3) = false) ∧
    (let m : AbortMsg := ⟨1, 0, 2, 0, 0, 0, 0, true⟩
    inOrder (ctlIs (.abort m)) (tOpen 1) = true ∧ canFlood (tOpen 1) = true ∧ msgNow (tOpen 1) m.step m.attempt = true) ∧
    (let m : AbortMsg := ⟨1, 0, 2, 0, 0, 0, 0, false⟩
    inOrder (ctlIs (.abort m)) (tOpen 1) = true ∧ (tOpen 1).img.isSome = true ∧ m.request = false ∧ m.step.toNat = (tOpen 1).step.next ∧ m.attempt.toNat = (tOpen 1).step.attempt ∧ stepState (tOpen 1) = 1) ∧
    (let m : AbortMsg := ⟨1, 0, 2, 0, 0, 0, 0, false⟩
    let s : State := { tOpen 3 with step := { (tOpen 3).step with abortedBelow := 1 } }
    inOrder (ctlIs (.abort m)) s = true ∧ m.step.toNat = s.step.next ∧ m.cause ≠ 3 ∧ m.attempt.toNat < s.step.abortedBelow ∧ stepState s ≠ 1 ∧ stepState s ≠ 2) ∧
    ((State.reset).img = none ∧ inOrder (ctlIs (.abort ⟨1, 0, 2, 0, 0, 0, 0, false⟩)) State.reset = true) ∧
    ((tOpen 1).step.deferred = [] ∧ (⟨1, 0, 2, 0, 0, 0, 0, false⟩ : AbortMsg).cause ≠ 3 ∧ (tOpen 1).step.attempt < 15) :=
  ⟨by decide +kernel, by decide +kernel, by decide +kernel, by decide +kernel, by decide +kernel, by decide +kernel, by decide +kernel, by decide +kernel, by decide +kernel⟩

theorem witness_RepeatsAreDesignated :
    (let s : State := { tOpen 3 with step := { (tOpen 3).step with closeF := some 3, acks := [(0, .done, 0)] } }
    live s = true ∧ actsRoot s = true ∧ isLocked s = true ∧ 3 ≤ s.frame.f ∧ lateMembers s = [] ∧ missingMembers s = [] ∧ tS.step.closeF = none) ∧
    (let s : State := { tOpen 1 with step := { (tOpen 1).step with attempt := 15 } }
    (⟨1, 15, 2, 0, 0, 0, 0, false⟩ : AbortMsg).cause ≠ 3 ∧ actsRoot s = true ∧ 15 ≤ s.step.attempt) ∧
    (let d : Designation := ⟨1, 1, 9, true, []⟩
    inOrder (ctlIs (.repeatD d)) (tOpen 3) = true ∧ stepState (tOpen 3) = 3 ∧ d.step.toNat = (tOpen 3).step.next ∧ d.attempt.toNat = (tOpen 3).step.attempt + 1 ∧
    (⟨2, 1, 9, true, []⟩ : Designation).step.toNat ≠ (tOpen 3).step.next ∧ desigSeen (tOpen 3) (.repeatD d) = false ∧
    desigSeen (tOpen 3) (.repeatD ⟨2, 1, 9, true, []⟩) = false ∧
    (let r : State := { tOpen 3 with fab := { (tOpen 3).fab with inbound := [mkPacket tS 3 0 15 8 floodTag (.control (.repeatD d))], seenDesig := [.repeatD d] } }
    inOrder (ctlIs (.repeatD d)) r = true ∧ desigSeen r (.repeatD d) = true)) :=
  ⟨by decide +kernel, by decide +kernel, by decide +kernel⟩

theorem witness_AttemptsAreRepeated :
    (live (tOpen 3) = true ∧ stepState (tOpen 3) = 3 ∧ (tOpen 3).lat.restoring = false ∧ stepState (tOpen 4) ≠ 3) ∧
    (let s : State := { tOpen 3 with lat := { (tOpen 3).lat with restoring := true } }
    stepState s = 3 ∧ s.lat.restoring = true ∧ s.step.repeatF = none) ∧
    (let s : State := { tOpen 4 with step := { (tOpen 4).step with repeatF := some (1, 3, false) } }
    isLocked s = true ∧ 3 ≤ s.frame.f ∧ stepState s = 4 ∧ tS.step.repeatF = none) ∧
    (let s : State := { tOpen 3 with step := { (tOpen 3).step with repeatF := some (1, 3, false) }, lat := { (tOpen 3).lat with restoring := true } }
    isLocked s = true ∧ stepState s = 3 ∧ s.lat.restoring = true) ∧
    (let m : MemberMsg := ⟨5, 1, 1⟩
    inOrder (ctlIs (.hold m)) (tOpen 3) = true ∧ m.step.toNat = (tOpen 3).step.next ∧ m.attempt.toNat = (tOpen 3).step.attempt + 1 ∧ (tOpen 3).step.repeatF = none ∧ (tOpen 3).step.holds.contains m.member = false ∧
    (⟨5, 1, 0⟩ : MemberMsg).attempt.toNat ≠ (tOpen 3).step.attempt + 1) ∧
    (let s : State := { tOpen 4 with step := { (tOpen 4).step with repeatF := some (1, 3, true), holds := [5] } }
    inOrder (ctlIs (.release ⟨5, 1, 1⟩)) s = true ∧ (⟨5, 1, 1⟩ : MemberMsg).step.toNat = s.step.next ∧ s.step.holds = [5] ∧ s.step.repeatF = some (1, 3, true) ∧ actsRoot { s with step := { s.step with holds := [] } } = true) ∧
    (let s : State := setFld RDU_STEP_CTRL_ROOT 0 { tOpen 4 with step := { (tOpen 4).step with repeatF := some (1, 3, true), holds := [5] } }
    actsRoot { s with step := { s.step with holds := [] } } = false ∧ s.step.holds = [5]) ∧
    (let s : State := { tOpen 4 with step := { (tOpen 4).step with repeatF := some (1, 3, true) } }
    let s' : State := { tOpen 4 with step := { (tOpen 4).step with repeatF := some (1, 3, false) } }
    let d : Designation := ⟨1, 1, 9, false, []⟩
    inOrder (ctlIs (.resume d)) s = true ∧ d.step.toNat = s.step.next ∧ d.attempt.toNat = 1 ∧ s'.step.repeatF = some (1, 3, false) ∧
    desigSeen s (.resume d) = false ∧ desigSeen s' (.resume d) = false ∧
    (let r : State := { s with fab := { s.fab with inbound := [mkPacket tS 3 0 15 8 floodTag (.control (.resume d))], seenDesig := [.resume d] } }
    inOrder (ctlIs (.resume d)) r = true ∧ desigSeen r (.resume d) = true)) ∧
    (let d : Designation := ⟨1, 1, 9, false, []⟩
    d.step.toNat = tS.step.next ∧ desigSeen tS (.resume d) = false ∧ tS.step.repeatF = none ∧ tS.step.any = false ∧ tS.img ≠ none) :=
  ⟨by decide +kernel, by decide +kernel, by decide +kernel, by decide +kernel, by decide +kernel, by decide +kernel, by decide +kernel, by decide +kernel, by decide +kernel⟩

theorem witness_FirstTouchIsCopied :
    (let s := setGran 1 { getGran tS 1 with st := .protect } tS
    live s = true ∧ hbmRange s.fuses 0x40000 8 = true ∧ 0x40000 % granBytes + 8 ≤ granBytes ∧ (getGran s (0x40000 / granBytes)).st = .protect) ∧
    (live tS = true ∧ (granulesOf 0x40000 8).any (fun g => needsCopy (getGran tS g)) = false) ∧
    (let s : State := hbmPut 0x40000 [1, 2] (setGran 1 { getGran tS 1 with st := .protect } tS)
    live s = true ∧ (s.lat.jobs.map fun j => (j.gran, j.running)) = [(1, true)] ∧ dieOfGran 1 = 0 ∧ tS.lat.jobs = [] ∧
    hbmBad s (1 * granBytes) granBytes = false ∧ hbmBad (markBad 0x40020 s) (1 * granBytes) granBytes = true ∧ (markBad 0x40020 s).lat.jobs = s.lat.jobs) :=
  ⟨by decide +kernel, by decide +kernel, by decide +kernel⟩

theorem witness_CutsAreAcceptedAndTaken :
    (let s := tLock 3 tS
    live s = true ∧ isLocked s = true ∧ s.frame.f + 2 ≤ (5 + 2 ^ 48 : Word).toNat % 2 ^ 48 ∧ (4 + 2 ^ 48 : Word).toNat % 2 ^ 48 < s.frame.f + 2) ∧
    (let s := tLock 3 tS
    let r : CutReq := ⟨4, true, false, 9⟩
    let s2 := floodCtl (.cut r) { s with fab := { s.fab with seenCuts := [9] } }
    inOrder (ctlIs (.cut r)) s = true ∧ s.fab.seenCuts.contains r.snapId = false ∧ isLocked s2 = true ∧ s2.frame.f < r.frame ∧ ({ s with fab := { s.fab with seenCuts := [9] } } : State).fab.seenCuts.contains r.snapId = true) ∧
    (inOrder (ctlIs (.cut ⟨3, true, false, 9⟩)) (tLock 3 tS) = true ∧ (tLock 3 tS).frame.f ≥ 3) ∧
    (let s : State := { tLock 5 tS with lat := { tS.lat with cuts := [⟨5, true, false, 9⟩] } }
    live s = true ∧ isLocked s = true ∧ s.lat.cuts = [⟨5, true, false, 9⟩] ∧ 5 ≤ s.frame.f ∧ tS.lat.cuts = [] ∧ s.step.commitF = none ∧ s.step.repeatF = none ∧ s.step.closeF = none ∧
    inTurn s 3 (5 * 65536) = true) ∧
    (let s : State := { tOpen 2 with step := { (tOpen 2).step with commitF := some (1, 3) }, lat := { tS.lat with cuts := [⟨3, true, false, 9⟩] } }
    isLocked s = true ∧ stepState s = 2 ∧ s.step.commitF = some (s.step.next, 3) ∧ 3 ≤ s.frame.f ∧ 3 * 65536 ≤ (sysTime s).toNat) :=
  ⟨by decide +kernel, by decide +kernel, by decide +kernel, by decide +kernel, by decide +kernel⟩

theorem witness_SnapshotsLeaveTheModule :
    (let x : SnapIn := tSnapIn
    live tS = true ∧ tHolds.lat.hold.held = some x.module ∧ stagingFits tHolds (snapOf true x) = true ∧ tS.lat.hold.held ≠ some x.module ∧ live tHolds = true) ∧
    (let x : Snap := snapOf true tSnapIn
    let s : State := { tS with lat := { tS.lat with t1 := some x } }
    s.lat.t1 = some x ∧ s.fab.inbound = [] ∧ x.id = 9 ∧ x.id ≠ 8) ∧
    (let x : Snap := snapOf true tSnapIn
    let p := tPkt 3 (ownId tS) 5 0 (.control (.tier1Failed 9))
    let s : State := { tS with lat := { tS.lat with t1 := some x }, fab := { tS.fab with inbound := [p] } }
    s.lat.t1 = some x ∧ s.fab.inbound = [p] ∧ p.body = .control (.tier1Failed 9) ∧ x.id = 9) ∧
    (let s : State := { tS with arc := { tS.arc with perst := false } }
    live s = true ∧ s.arc.perst = false ∧ tS.arc.perst = true ∧ fldOn (setFld ARC_STAT_LINK_UP 1 s) ARC_STAT_LINK_UP = true ∧
    fldOn (setFld ARC_CTRL_ENABLE 0 (setFld ARC_STAT_LINK_UP 1 s)) ARC_CTRL_ENABLE = false ∧ fldOn (setFld ARC_CTRL_ENABLE 1 (setFld ARC_STAT_LINK_UP 1 s)) ARC_CTRL_ENABLE = true ∧
    s.arc.cmd = none) ∧
    (live tSeal = true ∧ tSeal.arc.cmd ≠ none ∧ tSeal.arc.sealJob = some (0, true, 1) ∧ tSeal.arc.sealSnap ≠ none) :=
  ⟨by decide +kernel, by decide +kernel, by decide +kernel, by decide +kernel, by decide +kernel⟩

theorem witness_ReductionPacketsAndShares :
    (live tStep = true ∧ inOrder (fun k => k.body == .reduction (tRed 2 0)) tStep = true ∧ pktAge tStep 2 0 = .gt ∧ pktAge tStep 0 0 = .lt ∧ pktAge tStep 1 0 = .eq ∧ stepState tStep = 1 ∧
    redInvariant (tRed 1 0) = true ∧ redInvariant (tRed 1 1) = false ∧ getBucket tStep 9 = none ∧ heldBytes tStep 0 + 280 ≤ fld tStep (RDU_UNIT_HOLD_BUF_KIB 0) * 1024) ∧
    (let s : State := { tStep with step := { tStep.step with buckets := [tBucket []] } }
    pktAge s 1 0 = .eq ∧ getBucket s 9 = some (tBucket []) ∧ shareOf (tBucket []) 0 = some (tShare [])) ∧
    (let s : State := setFld (RDU_UNIT_HOLD_BUF_KIB 0) 0 tStep
    ¬ heldBytes s 0 + 280 ≤ fld s (RDU_UNIT_HOLD_BUF_KIB 0) * 1024) ∧
    (let s : State := { tStep with fab := { tStep.fab with inbound := [tPkt 1 0 5 0 .writeAck, tPkt 1 0 5 0 (.reduction (tRed 1 0))] } }
    inOrder (fun k => k.body == .reduction (tRed 1 0)) s = false) ∧
    (let b : Bucket := { tBucket [0] with statusAddr := 0 }
    let l : LCore := { tReady with greds := [⟨1, 9, 0, 8⟩] }
    let s : State := { tWith [l] with step := { tStep.step with buckets := [b] } }
    getL s 0 = some l ∧ coreEmpty l = true ∧ b.id = 9 ∧ (tShare [0]).n = 1 ∧ (tShare [0]).lcore = 0 ∧ shareDone s (tShare [0]) = true ∧ b.shares = 1 ∧ b.done = false ∧ b.failed = false ∧
    l.block = none ∧ cwLcore b.catchWord = 0 ∧ (catchOf l (cwIndex b.catchWord)).counter.toNat + 1 < 2 ^ 32 ∧ gredReady tS 0 tCore = none ∧ getL tS 0 = some tCore) :=
  ⟨by decide +kernel, by decide +kernel, by decide +kernel, by decide +kernel, by decide +kernel⟩

theorem witness_KeywayPackets :
    (live tStep = true ∧ hasTumbler tStep.fuses = true ∧ tStep.fab.inbound = [] ∧ pktAge tStep 2 0 = .gt ∧ pktAge tStep 0 0 = .lt ∧ pktAge tStep 1 0 = .eq) ∧
    (let p := tKwy 1 0 (2 ^ 31)
    let v : Layer := ⟨0, 0, 1, 1, 0, 1, 1, 1, 64, true⟩
    layerOf tStep 0 = some v ∧ inboxOk tStep (inboxSlotAt v p) (64 + v.rowBytes) = true ∧ latAwait [(inboxSlotAt v p, 64 + v.rowBytes), (srcEntryAt p, 4)] tStep = none ∧ inboxOk tStep (srcEntryAt p) 4 = true ∧ latAwait [(srcEntryAt p, 4)] tStep = none ∧ latAwait (combineRanges tStep p) tStep = none) ∧
    (layerOf tStep 1 = none ∧ inboxOk tStep (srcEntryAt (tKwy 1 0 0)) 4 = false ∧ fldOn tStep (KWY_WLT_ENABLE 0) = false) ∧
    (let g := fun step : BitVec 16 => ({ tStep with fab := { tStep.fab with inbound := [tPkt 2 0 5 0 (.keyway (tKwy step 0 (2 ^ 31)))] } } : State)
    live (g 0) = true ∧ pktAge (g 2) 2 0 = .gt ∧ pktAge (g 0) 0 0 = .lt ∧ (tPkt 2 0 5 0 (.keyway (tKwy 0 0 (2 ^ 31)))).destDie ≠ 14) ∧
    (({ tKwy 1 0 0 with record := closeRecord } : KwyPkt).record = closeRecord) :=
  ⟨by decide +kernel, by decide +kernel, by decide +kernel, by decide +kernel, by decide +kernel⟩

theorem witness_CoreFaultsAndSwaps :
    (live tStep = true ∧ (getP tStep 1).hwStopped = false ∧ (getP tStep 1).fenced = false ∧ levelOne tStep = false ∧ (getP (modP 1 (fun c => { c with fenced := true }) tStep) 1).fenced = true) ∧
    (let s : State := { tStep with img := some { tImg with level := 1 } }
    levelOne s = true ∧ s.lcores.any (fun l => decide (l.phys = 0 ∧ l.halted = false)) = true) ∧
    (live tStep = true ∧ hasTumbler tStep.fuses = true ∧ hasTumbler ({ tStep with fuses := ⟨3, 1, 0⟩ } : State).fuses = false) ∧
    (let l : LCore := { tCore with halted := true }
    let k : LCore := { tCore with resident := false, pref := 0 }
    tTwo.lcores = [l, k] ∧ l.phys = 0 ∧ k.phys = 0 ∧ l.resident = true ∧ k.halted = false ∧ l.stopped = false ∧ k.stopped = false ∧ swapPoint tTwo l = true ∧ runnable tTwo k = true ∧
    (takePort l true tTwo).isSome = true ∧ (getP (modP 0 (fun p => { p with xferSide := true }) tTwo) 0).xferSide = true ∧ swapPoint (tWith [tCore, k]) tCore = false) ∧
    (let l : LCore := { tCore with block := some (.detent 511 1 8) }
    let k : LCore := { tCore with resident := false, block := some (.detent 511 1 8) }
    let s := tWith [l, k]
    swapPoint s l = true ∧ runnable s k = true ∧ (takePort l true s).isSome = true ∧ detentDone k = true ∧ l.halted = false) :=
  ⟨by decide +kernel, by decide +kernel, by decide +kernel, by decide +kernel, by decide +kernel⟩

theorem witness_MemoryAccessesAndErrors :
    (let base := fld tHost (MEM_MW_BASE_BASE_GIB 0) * 2 ^ 30
    live tHost = true ∧ tHost.host.linkUp.getD 0 false = true ∧ hbmRange tHost.fuses (base + 8) 8 = true ∧ tS.host.linkUp.getD 0 false = false ∧ 2 ^ 36 < (2 ^ 36 - 4) + 8 ∧
    hbmRange tHost.fuses (base + (2 ^ 36 - 8)) 8 = true ∧ (2 ^ 36 - 8) + 8 ≤ 2 ^ 36 ∧ hbmBad tHost (base + (2 ^ 36 - 8)) 8 = false ∧ hbmBad (markBad (base + 8) tHost) (base + 8) 8 = true) ∧
    (let s := modP 0 (fun p => { p with xferSide := true }) (tWith [tHold qV (entryD 0 tCore (tD 1 2 1 2 1 0 0))])
    firstIdx (fun l : LCore => l.phys == 0 && l.resident) tS.lcores = some 0 ∧ getL tS 0 = some tCore ∧ (getP s 0).xferSide = true ∧
    sideReady 0 false (modP 0 (fun p => { p with xferSide := false }) s) = true ∧ sideReady 0 (!(getP tS 0).xferSide) (modP 0 (fun p => { p with xferSide := !(getP tS 0).xferSide }) tS) = false) ∧
    (hasStack tS.fuses (stackOf 4096) = true ∧ tS.lat.jobs = [] ∧ hasStack ({ tS with fuses := ⟨2, 1, 0⟩ } : State).fuses 3 = false) :=
  ⟨by decide +kernel, by decide +kernel, by decide +kernel⟩

theorem witness_PortsRetryAndComeUp :
    (live (tPort 6) = true ∧ portUp (tPort 6) 0 = true ∧ portUp (tPort 5) 0 = false ∧ (getPort (tPort 6) 0).retry = [] ∧ bodyNat (leBytes 512 tFlit.toNat) 0x1F8 8 ≠ crc64 ((leBytes 512 tFlit.toNat).take 0x1F8)) ∧
    (let s := modPort 0 (fun p => { p with rxNext := 0, txAck := 0 }) (tPort 6)
    let p := getPort s 0
    let b := leBytes 512 (0 : FlitBits).toNat
    bodyNat b 0x1F8 8 = crc64 (b.take 0x1F8) ∧ bodyNat b 0 2 / 4096 = 0 ∧ bodyNat b 0 2 % 4096 = p.rxNext ∧ bodyNat b 2 2 = p.txAck ∧ p.txAck < 4096) ∧
    (let p := { getPort (tPort 6) 0 with retry := [⟨List.replicate 8 0, [], []⟩], txNext := 1 }
    let s := { setPort 0 p (tPort 6) with now := 100000 }
    p.retry ≠ [] ∧ portUp s 0 = true ∧ p.lastAck + 4000 ≤ s.now ∧ p.lastProgress + 100000 ≤ s.now ∧ (fld (setFld (pWidth 0) 8 s) (pWidth 0) = 8) ∧
    ¬ p.lastProgress + 100000 ≤ ({ s with now := 99999 } : State).now ∧ ¬ p.lastAck + 4000 ≤ ({ s with now := 3999 } : State).now) ∧
    ((List.range 6).all (fun v => live (tPort v) && hasPort (tPort v).fuses 0 && fldOn (tPort v) (pEnable 0) && !(getPort (tPort v) 0).fast && fldOn (tPort v) FAB_ID_VALID && fld (tPort v) (pState 0) == v) = true ∧
    fldOn (setFld FAB_ID_VALID 0 (tPort 3)) FAB_ID_VALID = false ∧ fld (setFld (pVersion 0) 1 (tPort 4)) (pVersion 0) ≠ 0 ∧ linkDelay (getPort (tPort 5) 0).tries (List.replicate 16 82) = some 41 ∧ (41 : Nat) ≤ 1000) ∧
    (live (tPort 4) = true ∧ tBit.magic = 0x4254 ∧ fld (tPort 4) (pVersion 0) = 0 ∧ (getPort (tPort 4) 0).lastRec = none ∧ (getPort (modPort 0 (fun p => { p with lastRec := some tBit }) (tPort 4)) 0).lastRec = some tBit) ∧
    (let s := { modPort 0 (fun p => { p with stateAt := 0 }) (tPort 1) with now := 10000000000 }
    stageLimit s 0 = some 1000000 ∧ (getPort s 0).stateAt + 1000000 ≤ s.now ∧ stageLimit (tPort 1) 0 = some 1000000 ∧ ¬ (getPort (tPort 1) 0).stateAt + 1000000 ≤ (tPort 1).now ∧
    fld (tPort 1) (pState 0) ≠ 4 ∧ (getPort (tPort 4) 0).lastRec ≠ some tBit ∧ ({ tBit with magic := 0 } : Bitting).magic ≠ 0x4254) ∧
    (let s := modPort 0 (fun p => { p with fast := true }) (setFld (pGroup 0) 1 (setFld (pWidth 0) 4 (tPort 2)))
    (getPort s 0).fast = true ∧ fld s (pState 0) ≠ 7 ∧ bittingAgreed [tBit, tBit] = some tBit ∧ linkDelay (getPort s 0).tries (List.replicate 16 82) = some 41 ∧ 1 ≤ tBit.verMax ∧ tBit.verMin ≤ min 2 tBit.verMax ∧
    lanesWidth (0xFF &&& lanesInUse s 0 &&& tBit.lanesGood.toNat) = some (4, 1) ∧ fld s (pWidth 0) ≠ 8 ∧ (getPort (tPort 2) 0).fast = false ∧ bittingAgreed [tBit] = none) ∧
    (portLive (tPort 6) 0 = true ∧ portLive (tPort 0) 0 = false ∧ stepIsOpen (tPort 6) = false ∧ stepIsOpen (setFld (pState 0) 6 tStep) = true ∧ hasPort tStep.fuses 0 = true) :=
  ⟨⟨by decide +kernel, by decide +kernel, by decide +kernel, by decide +kernel, tFlit_crc⟩, ⟨tZero_crc, by decide +kernel, by decide +kernel, by decide +kernel, by decide +kernel⟩, by decide +kernel, by decide +kernel, by decide +kernel, by decide +kernel, by decide +kernel, by decide +kernel⟩

theorem witness_PacketsAreForwarded :
    (let p := tPkt 0 5 3 0 .writeAck
    let q : Packet := { p with vl := p.vl || fldOn tFab (FAB_PORT_CTRL_DATELINE 0 0) }
    live tFab = true ∧ portUp tFab 0 = true ∧ rxPlace (getPort tFab 0) p = some ([], ⟨p, laneIndex p, packetUnits p, false⟩) ∧ p.cls ≠ 2 ∧ forHere tFab q = false ∧ toResolve tFab q = false ∧ forAnyone q = false ∧ q.hops + 1 < 32 ∧ hashedPort { q with hops := 1 } (routeSet tFab { q with hops := 1 }) = some 1) ∧
    (let p := tPkt 0 5 3 31 .writeAck
    let z := tPkt 0 9 3 0 .writeAck
    forHere tFab p = false ∧ toResolve tFab p = false ∧ forAnyone p = false ∧ 32 ≤ p.hops + 1 ∧ (tPkt 0 5 3 30 .writeAck).hops + 1 < 32 ∧ (tPkt 2 5 3 0 .writeAck).cls = 2 ∧ hasTumbler ({ tFab with fuses := ⟨3, 1, 0⟩ } : State).fuses = false ∧
    portUp { tFab with fuses := ⟨3, 1, 0⟩ } 0 = true ∧ forHere tFab (tPkt 0 0 3 0 .writeAck) = true ∧ hashedPort { z with hops := 1 } (routeSet tFab { z with hops := 1 }) = none ∧ forHere tFab z = false) ∧
    (let p := tPkt 0 5 3 0 .writeAck
    let q := tPkt 0 5 3 0 (.readData [1])
    let s := modPort 0 (fun x => { x with rx := [⟨p, 0, 1, false⟩, ⟨q, 0, 1, false⟩] }) tFab
    rxPlace (getPort s 0) q = none ∧ portUp s 0 = true) ∧
    (let s : State := { tS with fab := { tS.fab with inbound := [tPkt 3 0 5 0 (.control (.heartbeat 5)), tPkt 3 0 5 0 (.control (.vote ⟨5, 1, 0⟩))] } }
    inOrder (ctlIs (.vote ⟨5, 1, 0⟩)) s = false) ∧
    (let s : State := { tS with fab := { tS.fab with inbound := [tPkt 0 0 5 0 (.readData [1]), tPkt 0 0 5 0 .writeAck] } }
    inOrder (fun k => k == tPkt 0 0 5 0 .writeAck) s = false) :=
  ⟨by decide +kernel, by decide +kernel, by decide +kernel, by decide +kernel, by decide +kernel⟩

theorem witness_RemoteAccesses :
    (let p := tPkt 0 0 3 0 (.write 0x1000 [1, 2] [])
    let o : State := { tStep with step := { tStep.step with abortedBelow := 1 } }
    live tS = true ∧ tS.fab.inbound = [] ∧ pktStale tS p = false ∧ hbmRange tS.fuses 0x1000 2 = true ∧ holdWrite tS p 0x1000 2 = false ∧ storeAllowed tS none (2 ^ 32) 2 = false ∧ hbmRange tS.fuses (2 ^ 32) 2 = true ∧ holdWrite tS p (2 ^ 32) 2 = false ∧ hbmRange tS.fuses hbmEnd 2 = false ∧
    pktStale tS (tPkt 0 0 3 0 (.write hbmEnd [1, 2] [])) = false ∧ storeAllowed tS none (2 ^ 31) 2 = true ∧ latHolds tS (2 ^ 31) 2 = false ∧ hbmBad tS (hbmEnd - 2) 2 = false ∧ pktStale o { p with step := 1 } = true ∧ hbmRange tS.fuses (hbmEnd - 2) 2 = true ∧ o.fab.inbound = []) ∧
    (let s := setGran (2 ^ 31 / granBytes) { getGran tS (2 ^ 31 / granBytes) with st := .protect } tS
    let p := tPkt 0 0 3 0 (.write (2 ^ 31) [1, 2] [])
    pktStale s p = false ∧ hbmRange s.fuses (2 ^ 31) 2 = true ∧ storeAllowed s none (2 ^ 31) 2 = true ∧ latHolds (hbmWrite ⟨2 ^ 31, [1, 2], [], false, .remote 3⟩ s) (2 ^ 31) 2 = true ∧
    hbmBad (markBad 0x1000 tS) 0x1000 2 = true) ∧
    (let f : Flow := ⟨1, 0, 3, 0, 2⟩
    tS.fab.txns = [] ∧ tS.fab.ackOwed = [] ∧ f.die = (tPkt 3 0 3 0 (.deliveryAck 1 2 false)).destDie.toNat ∧ f.dest = (3 : Member).toNat ∧ f.unacked - 2 = 0 ∧ f.unacked - 1 = 1 ∧ 0 + fld tS FAB_ROUTE_ACK_GAP_NS ≤ ({ tS with now := 1000000 } : State).now ∧
    0x10000 + memberWard 3 = 0x10000 ∧ ({ tS with now := 0 } : State).now < 0 + fld tS FAB_ROUTE_ACK_GAP_NS) ∧
    (let g := fun p : Packet => ({ tS with fab := { tS.fab with inbound := [p] } } : State)
    let r := tPkt 0 0 3 0 (.readReq 0x1000 2)
    live (g r) = true ∧ (g r).fab.inbound = [r] ∧ hbmBad (g r) 0x1000 2 = false ∧ hbmRange (g r).fuses 0x1000 2 = true ∧ hbmBad (markBad 0x1000 (g r)) 0x1000 2 = true) ∧
    (let p := tPkt 0 0 3 0 (.write (2 ^ 31) [1, 2] [])
    let g : State := { modPort 2 (fun q => { q with rx := [⟨p, 1, 2, true⟩] }) tS with fab := { (modPort 2 (fun q => { q with rx := [⟨p, 1, 2, true⟩] }) tS).fab with inbound := [p] } }
    let h := setGran (2 ^ 31 / granBytes) { getGran g (2 ^ 31 / granBytes) with st := .protect } g
    live g = true ∧ g.fab.inbound = [p] ∧ live h = true ∧ h.fab.inbound = [p] ∧ pktStale h p = false ∧ hbmRange h.fuses (2 ^ 31) 2 = true ∧ storeAllowed h none (2 ^ 31) 2 = true ∧
    latHolds (hbmWrite ⟨2 ^ 31, [1, 2], [], false, .remote 3⟩ (setAside p h)) (2 ^ 31) 2 = true ∧ creditBack p (setAside p g) ≠ setAside p g ∧ storeAllowed g none (2 ^ 32) 2 = false ∧ holdWrite g p (2 ^ 32) 2 = false) ∧
    (let p := tPkt 0 0 3 0 (.readData [1, 2, 3, 4])
    let q := tPkt 0 0 3 0 .writeAck
    let s : State := { tS with fab := { tS.fab with txns := [⟨3, 0, 1, true, 64⟩] } }
    let v : State := { tS with fab := { tS.fab with txns := [⟨3, 0, 1, false, 64⟩] } }
    s.fab.txns = [⟨3, 0, 1, true, 64⟩] ∧ p.tag.toNat = 3 ∧ v.fab.txns = [⟨3, 0, 1, false, 64⟩] ∧ q.body = .writeAck) :=
  ⟨by decide +kernel, by decide +kernel, by decide +kernel, by decide +kernel, by decide +kernel, by decide +kernel⟩

theorem witness_ModulesAreWatched :
    (let p := tPkt 3 0 5 0 (.control (.heartbeat 5))
    let s : State := { tS with fab := { tS.fab with inbound := [p] } }
    live s = true ∧ s.peer.retired = false ∧ s.fab.inbound = [p] ∧ p.body = .control (.heartbeat 5)) ∧
    (let p := tPkt 3 0 5 0 (.control (.heartbeatAck 5))
    let s : State := setFld LAT_PAIR_STAT_STATE 1 (setFld LAT_PAIR_PARTNER_MODULE 5 { tS with fab := { tS.fab with inbound := [p] } })
    live s = true ∧ s.peer.retired = false ∧ s.fab.inbound = [p] ∧ p.body = .control (.heartbeatAck 5) ∧ (rootOf s = some 5 ∨ partner s = some 5)) ∧
    (smFind tBeat.peer.beats 5 = some 0 ∧ (5 : Member) ≠ ownId tBeat ∧ tBeat.lat.hold.held = some 5 ∧ 0 + 8 ≤ tickNow tBeat ∧ tBeat.peer.retired = false ∧ tickNow (setFld KPR_STAT_TICK 7 tBeat) < 0 + 8 ∧
    beatTargets (setFld RDU_STEP_CTRL_ROOT 1 tBeat) ≠ [] ∧ tBeat.peer.ackTick + 4 ≤ tickNow (setFld RDU_STEP_CTRL_ROOT 1 tBeat) ∧ beatTargets (setFld RDU_STEP_CTRL_ROOT 1 tS) = [] ∧ tickNow (setFld KPR_STAT_TICK 3 tBeat) < tBeat.peer.ackTick + 4 ∧ actsRoot tBeat = false) ∧
    (let s : State := setFld RDU_STEP_CTRL_ROOT 1 (setFld KPR_STAT_TICK 8 { tS with img := some { tImg with stepTree := [0, 5] }, peer := { tS.peer with beats := [(5, 0)] } })
    smFind s.peer.beats 5 = some 0 ∧ (5 : Member) ≠ ownId s ∧ s.lat.hold.held ≠ some 5 ∧ actsRoot s = true ∧ (treeOf s).contains 5 = true ∧ 0 + 8 ≤ tickNow s) ∧
    (let s : State := { setFld KPR_STAT_TICK 4 tS with peer := { tS.peer with downSince := some 0 } }
    live s = true ∧ s.peer.downSince = some 0 ∧ ((List.range 16).all fun n => !portUp s n) = true ∧ 0 + 4 ≤ tickNow s ∧ tickNow (setFld KPR_STAT_TICK 3 s) < 0 + 4 ∧ s.peer.retired = false) ∧
    (let s : State := { tS with peer := { tS.peer with adopting := some (5, 1, 0, 1) } }
    live s = true ∧ s.peer.adopting.isSome = true ∧ tS.peer.adopting = none ∧ (7 : Member) ≠ ownId tS ∧ ownId tS = 0 ∧ ({ tS with lat := { tS.lat with hold := { tS.lat.hold with held := some 5 } } } : State).lat.hold.held = some 5) :=
  ⟨by decide +kernel, by decide +kernel, by decide +kernel, by decide +kernel, by decide +kernel, by decide +kernel⟩

theorem witness_RingsAndMirrors :
    (live tHost = true ∧ hostServed tHost 0 = true ∧ hostServed tHost 1 = true ∧ fld tHost (TKT_Q_STAT_OWNER 3) = 0 ∧ fld tHost (TKT_Q_STAT_OWNER 3) ≠ 1) ∧
    (ringReads tRing 3 = true ∧ fld tRing (TKT_Q_STAT_HEAD 3) = 0 ∧ (getTQ tRing 3).tail = 1 ∧ ringReads tRing 4 = true ∧ (getTQ tRing 4).tail = fld tRing (TKT_Q_STAT_HEAD 4) ∧ ringReads tS 3 = false) ∧
    (let r : CRing := { getRing tHost 0 3 with count := 3, head := 1 }
    r.lostOwed = 0 ∧ r.head ≤ r.count ∧ r.count ≤ r.head + ringSize tHost 0 3 ∧ getRing (setRing 0 3 r tHost) 0 3 = r) ∧
    (let s : State := { tHost with now := 1000000, host := { tHost.host with vecLast := [(64 * 1 + 5, 0)], vecOwed := [(1, 5)] } }
    smFind s.host.vecLast (64 * 1 + 5) = some 0 ∧ 0 + fld s TKT_CTRL_MSI_GAP_NS ≤ s.now ∧ ({ s with now := 0 } : State).now < 0 + fld s TKT_CTRL_MSI_GAP_NS) ∧
    (let p := tPkt 3 0 5 0 (.control (.mirror 3 1))
    let s : State := { tS with fab := { tS.fab with inbound := [p] } }
    s.fab.inbound = [p] ∧ s.jnl.mirror = [] ∧ fldOn s JNL_STAT_HOLDING = false ∧ tS.fab.inbound = []) ∧
    (let s : State := modTQ 3 (fun x => { x with wait := some ⟨77, 0⟩ }) { tS with now := 1000 * fld tS TKT_CTRL_MIRROR_WAIT_US }
    (getTQ s 3).wait = some ⟨77, 0⟩ ∧ 0 + 1000 * fld s TKT_CTRL_MIRROR_WAIT_US ≤ s.now ∧ ({ s with now := 0 } : State).now < 0 + 1000 * fld s TKT_CTRL_MIRROR_WAIT_US ∧ (getTQ tS 3).wait = none ∧
    (tPkt 3 0 5 0 (.control (.mirrorAck 3 (tSeq 77)))).body = .control (.mirrorAck 3 (tSeq 77))) :=
  ⟨by decide +kernel, by decide +kernel, by decide +kernel, by decide +kernel, by decide +kernel, by decide +kernel⟩

theorem witness_WorkTicketsTakeEffect :
    ((tWork none 1).img = none ∧ tktNext (tWork none 1) 3 7 1 = some (tTicket 1) ∧ tFlags (tTicket 1) = 0 ∧ tTier (tTicket 1) = 0 ∧ (tWork (some tImg) 1).img.isSome = true ∧ tktNext (tWork (some tImg) 1) 3 7 1 = some (tTicket 1) ∧
    (match loadPlan { tWork none 1 with host := { (tWork none 1).host with ready := [] } } 3 7 (tTicket 1) with | .error _ => true | .ok _ => false) = true ∧ tktNext tS 3 7 1 = none ∧ tktNext tS 3 7 2 = none ∧ tktNext tS 3 7 4 = none) ∧
    (tktNext (tWork none 2) 3 7 2 = some (tTicket 2) ∧ tktNext (tWork (some tImg) 2) 3 7 2 = some (tTicket 2) ∧ tktNext (tWork none 4) 3 7 4 = some (tTicket 4) ∧ tktNext (tWork (some tImg) 4) 3 7 4 = some (tTicket 4) ∧ tImg.stopReq = none) :=
  ⟨by decide +kernel, by decide +kernel⟩

theorem witness_LoopQueriesAreServed :
    (dispatchNow tS = tS ∧ tWin.host.slots = [] ∧ isLocked tWin = true ∧ inWindow tWin 0 = true ∧ tWin.host.winOpen.contains 0 = false ∧ tWin.host.queries = [] ∧ inTurn tWin 5 (tWin.frame.f * 65536 + fld tWin (TKT_LOOP_WIN_OPEN 0)) = true ∧ isLocked tS = false ∧ live tWin = true ∧ ({ tS with host := { tS.host with winOpen := [0] } } : State).host.winOpen = [0]) ∧
    ((match jFind tAsk 3 7 with | some (_, e) => decide (e.state = 1 ∧ tKind e.t = 3 ∧ e.dispatched = false ∧ tktLate tAsk e.t = false) | none => false) = true ∧ tAsk.host.queries.contains (3, 7) = false ∧ (7 : Word).toNat ≤ (getReg tAsk (rTKT_Q_ACCEPTED 3)).toNat ∧ tAsk.host.winOpen = []) ∧
    (let s := tServe
    isLocked s = true ∧ s.host.winOpen ≠ [] ∧ loopCores s ≠ [] ∧ s.host.queries = [] ∧ freeSlot s = some 1 ∧ (match jFind s 3 7 with | some (_, e) => decide (e.state = 1 ∧ tKind e.t = 3 ∧ e.dispatched = false ∧ tktLate s e.t = false ∧ e.t = tTicket 3 + 5 * 2 ^ 144) | none => false) = true ∧ s.host.queries.contains (3, 7) = false ∧ 7 ≤ (getReg s (rTKT_Q_ACCEPTED 3)).toNat) ∧
    ((match jFind tLateQ 3 7 with | some (_, e) => decide (e.state = 1 ∧ tKind e.t = 3 ∧ e.dispatched = false ∧ tktLate tLateQ e.t = true) | none => false) = true ∧ tLateQ.host.slots = [] ∧ inTurn tLateQ 6 ((tDeadline (tTicket 3)).toNat + 1) = true ∧ (7 : Word).toNat ≤ (getReg tLateQ (rTKT_Q_ACCEPTED 3)).toNat) ∧
    (let s : State := { tS with host := { tS.host with slots := [(0, ⟨3, 7, false, false⟩)] }, mem := tS.mem.writeBytes (slotAddr tS 0 + 0x0A) [2] }
    (smFind s.host.slots 0).isSome = true ∧ s.mem.read (slotAddr s 0 + 0x0A) = 2 ∧ tS.mem.read (slotAddr tS 0 + 0x0A) ≠ 2) :=
  ⟨by decide +kernel, by decide +kernel, by decide +kernel, by decide +kernel, by decide +kernel⟩

theorem witness_HostLossIsOneEvent :
    (live tHost = true ∧ tHost.host.linkUp.getD 1 false = true) :=
  by decide +kernel

theorem witness_HostsComeAndGo :
    (live tHost = true ∧ hostServed tHost 1 = true ∧ hostServed tS 1 = false ∧ fld (setFld (TKT_HOST_STATE 1) 1 tHost) (TKT_HOST_STATE 1) = 1 ∧
    (let s := setFld KPR_STAT_TICK (fld tHost TKT_CTRL_HB_TICKS) (setFld (TKT_HOST_STATE 1) 1 tHost)
    s.host.hbTick.getD 1 0 + fld s TKT_CTRL_HB_TICKS ≤ tickNow s ∧ tickNow (setFld KPR_STAT_TICK 0 s) < s.host.hbTick.getD 1 0 + fld s TKT_CTRL_HB_TICKS)) ∧
    (let s : State := { tS with host := { tS.host with perst := [false, false] } }
    live s = true ∧ s.host.perst.getD 1 true = false ∧ domOn s 74 = true ∧ s.host.linkUp.getD 1 false = false ∧ ((List.range 32).all fun q => !ringOn s 1 q) = true) ∧
    (let s := setFld (TKT_Q_STAT_STATE 3) 2 tHost
    fld tHost (TKT_Q_STAT_OWNER 3) = 0 ∧ fld tHost (TKT_Q_STAT_OWNER 3) ≠ 1 ∧ fld tHost (TKT_Q_STAT_STATE 3) ≠ 2 ∧ fldOn tHost (TKT_Q_CTRL_YIELD 3) = false ∧ fld s (TKT_Q_STAT_STATE 3) = 2 ∧ ringOn s 0 3 = false ∧ ringOn s 1 3 = false ∧
    fld tHost (TKT_Q_STAT_STATE 3) ≠ 3 ∧ fld (setFld (TKT_Q_STAT_STATE 3) 3 tHost) (TKT_Q_STAT_STATE 3) = 3 ∧ openLoad tHost 3 = none ∧ (jEntries tHost 3).length < 2048) :=
  ⟨by decide +kernel, by decide +kernel, by decide +kernel⟩

theorem witness_KeeperTicksAndRestarts :
    (live tDown = true ∧ tDown.kpr.up = false ∧ tDown.err.pendNf = [] ∧ tDown.err.pendF = [] ∧ fld tDown KPR_STAT_TICK + 1 < 2 ^ 32) ∧
    (live tS = true ∧ tS.kpr.up = true ∧ fld tS KPR_STAT_LOCKSTEP_RESTARTS = 0) ∧
    (tDown.kpr.up = false ∧ tDown.power.recovery = false ∧ tDown.kpr.lists = [] ∧ tDown.kpr.cmds = [] ∧ tDown.kpr.cs = none ∧ tDown.peer.adopting = none ∧ tDown.arc.sealJob = none ∧ tDown.lat.t1 = none ∧ tDown.lat.hold.recState ≠ 1) :=
  ⟨by decide +kernel, by decide +kernel, by decide +kernel⟩

theorem witness_KeeperCommands :
    (({ tHost with power := { tHost.power with recovery := true } } : State).power.recovery = true ∧ hostOn tHost 1 = true ∧ tHost.power.recovery = false ∧ cmdKnown (0x99 : BitVec 8).toNat = false ∧ fldOn (setFld (KPR_CMD_STAT_BUSY 1) 1 tHost) (KPR_CMD_STAT_BUSY 1) = true ∧ fldOn tHost (KPR_CMD_STAT_BUSY 1) = false ∧ tHost.kpr.up = true) ∧
    (fld tHost KPR_CS_STAT_STATE = 0 ∧ fld (tSet 1 none) KPR_CS_STAT_STATE = 1 ∧ fld (tSet 3 none) KPR_CS_STAT_STATE = 3 ∧ tHost.kpr.cs = none ∧ tHost.peer.retired = false ∧ tHost.power.recovery = false ∧
    (let s := tSet 1 none
    let c : ChangeSet := ⟨0, [], false, none, 0⟩
    setCode s c = 0 ∧ (getReg s (rKPR_CMD_ARG1 0)).getLsbD 0 = false ∧
    pairSet (setFld KPR_CS_STAT_STATE 2 { s with kpr := { s.kpr with cs := some { c with commit := some (7, s.step.next, imgLevel s == 2 && s.img.isSome && c.staged.any fun w => gapReg w.1) } } }) = none)) ∧
    (hasSwap { tHost with kpr := { tHost.kpr with lists := [⟨.swapPort, 4, 9, 0, [], none, 0, 0⟩] } } = true ∧ hasList { tHost with kpr := { tHost.kpr with lists := [⟨.scrub, 5, 9, 0, [], none, 0, 0⟩, ⟨.fwStage, 4, 9, 0, [], none, 0, 0⟩, ⟨.fwWrite, 4, 9, 0, [], none, 0, 0⟩] } } .scrub = true ∧ hasList tHost .scrub = false ∧ hasList tHost .keygen = false ∧ (match tHost.sec.running with | some b => decide (b.svn < 2 ^ 32) | none => false) = true ∧ svnFloor tHost < 2 ^ 32 ∧ cmdKnown 0 = false ∧ cmdKnown 255 = false) :=
  ⟨by decide +kernel, by decide +kernel, by decide +kernel⟩

theorem witness_ChangeSetsApply :
    (accessOk rLAT_PAIR 8 = true ∧ (accessParts rLAT_PAIR 5 8).any (hitsRs tHost) = true ∧ (accessParts (regBase + 0xFF0) 5 8).any (hitsRs tHost) = false ∧ accessOk (regBase + 0xFF0) 8 = true ∧ fld (tSet 1 none) KPR_CS_STAT_OWNER = 0 ∧ hostServed (tSet 1 none) 0 = true) ∧
    (let s := tSet 2 (some (7, 1, false))
    let z := setFld KPR_STAT_TICK (fld tS KPR_POLICY_QUIESCE_TICKS) (tSet 3 none)
    live s = true ∧ s.kpr.up = true ∧ csNoStep s = false ∧ csDue s = true ∧ pairSet s = none ∧ csPorts ⟨0, [], false, some (7, 1, false), 0⟩ = [] ∧ fld z KPR_CS_STAT_STATE = 3 ∧ csQuiet z = true ∧ pairSet z = none ∧ csPorts ⟨0, [], false, none, 0⟩ = [] ∧ tS.kpr.cs = none) ∧
    (let b : State := { setFld KPR_CS_STAT_STATE 3 tStep with kpr := { tStep.kpr with cs := some ⟨0, [(rRDU_STEP_CTRL, (1, 1))], false, none, 0⟩ } }
    let z := setFld KPR_STAT_TICK (fld tS KPR_POLICY_QUIESCE_TICKS) b
    csQuiet z = false ∧ csPorts ⟨0, [(rRDU_STEP_CTRL, (1, 1))], false, none, 0⟩ = [] ∧ 0 + fld z KPR_POLICY_QUIESCE_TICKS ≤ tickNow z ∧ ¬ 0 + fld b KPR_POLICY_QUIESCE_TICKS ≤ tickNow b ∧ csQuiet b = false) :=
  ⟨by decide +kernel, by decide +kernel, by decide +kernel⟩

theorem witness_RegisterAccesses :
    (accessOk rRDU_STEP_CTRL 8 = true ∧ accessOk rRDU_STEP_CTRL 4 = true ∧ accessOk rRDU_STEP_CTRL 2 = false ∧ accessOk (rRDU_STEP_CTRL + 2) 4 = false ∧ hostOn tHost 0 = true ∧ (accessParts rTKT_CTRL 1 8).length = 1 ∧ cwUnmapped rTKT_CTRL = false ∧ writeServed tHost 0 rTKT_CTRL = true ∧ cwUnmapped 0x60009000000 = true ∧ accessOk 0x60009000000 8 = true ∧ cwUnmapped 0x60008FFFFF8 = false ∧ yieldForeign tHost 0 rTKT_CTRL = false ∧
    (match regLookup rTKT_CTRL with | some (r, d) => !regAbsent tHost.fuses r d | none => false) = true ∧ (accessParts (regBase + 0xFF0) 1 8).all (fun p => (regLookup p.1).isNone) = true ∧ accessOk (regBase + 0xFF0) 8 = true) ∧
    (let s := report cMEM_CE 0 0 tS
    (((1 : BitVec 16).toNat + 65536 - errHead s false) % 65536 ≤ errUsed s false) ∧ errUsed s false < (((2 : BitVec 16).toNat + 65536 - errHead s false) % 65536) ∧ ((0 : BitVec 16).toNat + 65536 - errHead s true) % 65536 ≤ errUsed s true) :=
  ⟨by decide +kernel, by decide +kernel⟩

theorem witness_ClocksPowerAndTrips :
    (let d := setFld CLK_STAT_BACKUP_OK 1 tDown
    coasting d = false ∧ fldOn d CLK_STAT_BACKUP_OK = true ∧ d.kpr.up = false ∧ coasting (setFld CLK_STAT_COAST 1 tS) = true ∧ live d = true ∧
    (let c : State := setFld CLK_STAT_COAST 1 { tS with pwr := { tS.pwr with goodTicks := 1000000, coastTicks := 1024 } }
    coasting c = true ∧ c.kpr.up = true ∧ fld c CLK_CTRL_RETURN_TICKS ≤ c.pwr.goodTicks ∧ c.step.ownHolds = [] ∧ c.step.deferred = [] ∧ 1024 ≤ c.pwr.coastTicks) ∧ (tS.pwr.coastTicks < 1024)) ∧
    (let f : FeedSample := ⟨50000, 900, 50000, 900⟩
    live tS = true ∧ f.mvA ≤ 60000 ∧ f.mvB ≤ 60000 ∧ f.daA ≤ 65535 ∧ f.daB ≤ 65535 ∧ tS.pwr.capEpisode = false ∧ 100 * ((f.mvA * f.daA + f.mvB * f.daB) / 10000) ≤ 105 * fld tS PWR_STAT_CAP_W) ∧
    (let o := feedDown true tS
    feedIn tS true = true ∧ feedIn tS false = true ∧ feedIn o true = false ∧ feedIn o false = true ∧ live o = true ∧ o.pwr.backTicks.getD 1 0 < 16 ∧ 16 ≤ ({ o with pwr := { o.pwr with backTicks := [0, 16] } } : State).pwr.backTicks.getD 1 0) ∧
    (let z := tWith []
    live tS = true ∧ (tSwitch 5 true z).pwr.switching = [(5, true)] ∧ (tSwitch 5 true z).lcores = [] ∧ (tSwitch 76 false tS).pwr.switching = [(76, false)] ∧
    (tSwitch 5 true z).pwr.heldOn.contains 5 = false ∧ ({ tSwitch 5 true z with pwr := { (tSwitch 5 true z).pwr with heldOn := [5] } } : State).pwr.heldOn.contains 5 = true ∧ tS.pwr.switching.find? (fun x => x.1 == 5) = none ∧ (tSwitch 72 true tS).pwr.switching = [(72, true)]) ∧
    (live tS = true ∧ tS.pwr.trips.length = 9) ∧
    (let s : State := { tS with pwr := { tS.pwr with tripTicks := [(3, 4)] } }
    live s = true ∧ s.pwr.tripTicks = [(3, 4)] ∧ shutDomains s ≠ 0 ∧ tS.pwr.tripTicks.find? (fun x => decide (4 ≤ x.2)) = none) :=
  ⟨by decide +kernel, by decide +kernel, by decide +kernel, by decide +kernel, by decide +kernel, by decide +kernel⟩

theorem witness_PowerAndReset :
    (let o : State := { tS with power := { tS.power with powered := false } }
    let r : State := { tS with power := { tS.power with powered := false, inReset := true } }
    o.power.powered = false ∧ o.power.inReset = false ∧ r.power.powered = false ∧ r.power.inReset = true ∧ tS.power.powered = true) ∧
    (tS.power.inReset = false ∧ tS.power.powered = true) ∧
    (tS.power.pwrOk = true ∧ ({ tS with power := { tS.power with pwrOk := false } } : State).power.pwrOk = false ∧ domOn tS 75 = true) :=
  ⟨by decide +kernel, by decide +kernel, by decide +kernel⟩

theorem witness_SpdmAnswers :
    (((List.range 4).all fun v => spdmOn (tConn v) 0 && spdmConn (tConn v) 0 == v && (tConn v).sec.conns.length == 3) = true ∧ spdmKnown 0x85 = false ∧ spdmKnown 0x84 = true) :=
  by decide +kernel

theorem witness_StepLatchAndPacketCommandsComplete :
    (shareReady (tOpen 1) = true ∧ live (tOpen 1) = true) ∧
    (let s : State := { tWith [tWaits] with frame := { tS.frame with f := 3 } }
    live s = true ∧ stepIsOpen s = false ∧ s.step.moves = [] ∧ loopCores s = [] ∧ s.step.any = false ∧ allOpened s = true ∧ resumeWaits s = false ∧ openRoom s = .fits ∧ ({ tS with step := { tS.step with waitFrames := some 0 } } : State).step.waitFrames = some 0) ∧
    (let s : State := { tOpen 2 with step := { (tOpen 2).step with commitF := some (1, 3) } }
    live s = true ∧ isLocked s = true ∧ stepState s = 2 ∧ s.step.commitF = some (s.step.next, 3) ∧ 3 ≤ s.frame.f ∧ s.step.failedStacks = [] ∧ s.lat.cuts = [] ∧
    (match s.img with | some i => i.faultPend.isNone && i.stopReq.isNone | none => false) = true) ∧
    (let b : Bucket := ⟨9, 1, false, false, 1, 1, [0, 1], 0, 0, [], false, false, false, false⟩
    let s : State := { tOpen 1 with step := { (tOpen 1).step with buckets := [b] } }
    live s = true ∧ isLocked s = true ∧ stepState s = 1 ∧ b.done = false ∧ b.reported = false ∧ (s.step.refFrame + b.deadline) * 65536 < (sysTime s).toNat ∧
    inTurn s 6 ((s.step.refFrame + b.deadline) * 65536 + 1) = true ∧ b.id ≠ 0) ∧
    (let s : State := { tOpen 3 with step := { (tOpen 3).step with closeF := some 3, acks := [(0, .done, 0)] } }
    live s = true ∧ actsRoot s = true ∧ isLocked s = true ∧ 3 ≤ s.frame.f ∧ stepState s = 3 ∧ lateMembers s = [] ∧ missingMembers s = [] ∧ s.step.next < 2 ^ 64 ∧ s.step.attempt < 255) ∧
    (let s : State := { tOpen 4 with step := { (tOpen 4).step with repeatF := some (1, 3, false) } }
    live s = true ∧ isLocked s = true ∧ 3 ≤ s.frame.f ∧ stepState s = 4 ∧ s.step.repeatF = some (1, 3, false)) ∧
    (let s : State := setFld RDU_STEP_CTRL_ROOT 0 { tOpen 4 with step := { (tOpen 4).step with repeatF := some (1, 3, true), holds := [5] } }
    live s = true ∧ (⟨5, 1, 1⟩ : MemberMsg).step.toNat = s.step.next ∧ inOrder (ctlIs (.vote ⟨5, 1, 1⟩)) s = true ∧ inOrder (ctlIs (.hold ⟨5, 1, 1⟩)) s = true ∧ inOrder (ctlIs (.release ⟨5, 1, 1⟩)) s = true ∧
    actsRoot s = false ∧ (1 : BitVec 8).toNat = s.step.attempt + 1 ∧ s.step.holds = [5]) ∧
    (let c : Designation := ⟨1, 0, 4, false, []⟩
    let d : Designation := ⟨1, 1, 9, true, []⟩
    let r : Designation := ⟨1, 1, 9, false, []⟩
    let h : State := { tOpen 4 with step := { (tOpen 4).step with repeatF := some (1, 3, true) } }
    live (tOpen 2) = true ∧ inOrder (ctlIs (.commit c)) (tOpen 2) = true ∧ stepState (tOpen 2) = 2 ∧ c.step.toNat = (tOpen 2).step.next ∧ c.attempt.toNat = (tOpen 2).step.attempt ∧ (tOpen 2).step.commitF = none ∧ (tOpen 2).frame.f < c.frame ∧
    inOrder (ctlIs (.repeatD d)) (tOpen 3) = true ∧ stepState (tOpen 3) = 3 ∧ d.attempt.toNat = (tOpen 3).step.attempt + 1 ∧ inOrder (ctlIs (.resume r)) h = true ∧ h.step.repeatF = some (1, 3, true) ∧
    desigSeen (tOpen 3) (.repeatD d) = false ∧ desigSeen h (.resume r) = false) ∧
    (let s := tOpen 1
    let k : KindMsg := ⟨0, 1, 0, .late, 9⟩
    let m : AbortMsg := ⟨1, 0, 2, 0, 0, 0, 0, false⟩
    live s = true ∧ k.step.toNat = s.step.next ∧ inOrder (ctlIs (.abortAck k)) s = true ∧ inOrder (ctlIs (.report k)) s = true ∧ canFlood s = true ∧ k.attempt.toNat = s.step.attempt ∧ s.step.deferred = [] ∧ s.step.attempt < 15 ∧
    inOrder (ctlIs (.abort m)) s = true ∧ m.step.toNat = s.step.next ∧ m.attempt.toNat = s.step.attempt ∧ m.cause ≠ 3 ∧ m.request = false ∧ s.img.isSome = true ∧ stepState s = 1) ∧
    (let s := setGran 1 { getGran tS 1 with st := .protect } tS
    live s = true ∧ hbmRange s.fuses 0x40000 8 = true ∧ 0x40000 % granBytes + 8 ≤ granBytes ∧ (getGran s (0x40000 / granBytes)).st = .protect) ∧
    (let s : State := hbmPut 0x40000 [1, 2] (setGran 1 { getGran tS 1 with st := .protect } tS)
    live s = true ∧ (s.lat.jobs.map fun j => (j.gran, j.running)) = [(1, true)] ∧ dieOfGran 1 = 0 ∧ hbmBad s (1 * granBytes) granBytes = false ∧ (List.range 8).any (unitStopped s) = false) ∧
    (let r : State := { tOpen 3 with lat := { (tOpen 3).lat with restoring := true } }
    live (tOpen 3) = true ∧ stepState (tOpen 3) = 3 ∧ (tOpen 3).lat.restoring = false ∧ stepState r = 3 ∧ r.lat.restoring = true ∧ r.step.repeatF = none) ∧
    (let s := tLock 3 tS
    live s = true ∧ isLocked s = true ∧ s.frame.f + 2 ≤ (5 + 2 ^ 48 : Word).toNat % 2 ^ 48 ∧ inOrder (ctlIs (.cut ⟨4, true, false, 9⟩)) s = true ∧ s.frame.f < 4 ∧ s.fab.seenCuts.contains 9 = false) ∧
    (live tHolds = true ∧ tHolds.lat.hold.held = some tSnapIn.module ∧ stagingFits tHolds (snapOf true tSnapIn) = true) ∧
    (let x := snapOf true tSnapIn
    let p := tPkt 3 0 5 0 (.control (.tier1Done x.id))
    let s : State := { tS with lat := { tS.lat with t1 := some x }, fab := { tS.fab with inbound := [p] } }
    live s = true ∧ s.lat.t1 = some x ∧ s.fab.inbound = [p] ∧ p.body = .control (.tier1Done x.id)) ∧
    (let a : State := { tS with arc := { tS.arc with perst := false } }
    live a = true ∧ a.arc.perst = false ∧ fldOn (setFld ARC_STAT_LINK_UP 1 tS) ARC_STAT_LINK_UP = true) ∧
    (live tSeal = true ∧ tSeal.arc.sealJob = some (0, true, 1) ∧ tSeal.arc.sealSnap = some (snapOf true tSnapIn) ∧ tSeal.arc.cmd = some ⟨.write, [], []⟩) ∧
    (let p := tRed 1 0
    inOrder (fun k => k.body == .reduction p) tStep = true ∧ pktAge tStep p.step p.attempt = .eq ∧ stepState tStep = 1 ∧ redInvariant p = true ∧ RedSrc.knuckle 1 ≠ .hbm ∧ RedSrc.knuckle 1 ≠ .adder ∧
    ((getBucket tStep p.bucket).bind fun b => shareOf b p.packet) = none ∧ heldBytes tStep 0 + 280 ≤ fld tStep (RDU_UNIT_HOLD_BUF_KIB 0) * 1024) ∧
    (let b : Bucket := { tBucket [0] with statusAddr := 0 }
    let l : LCore := { tReady with greds := [⟨1, 9, 0, 8⟩] }
    let s : State := { tWith [l] with step := { tStep.step with buckets := [b] } }
    getL s 0 = some l ∧ coreEmpty l = true ∧ b.id = 9 ∧ (tShare [0]).n = 1 ∧ (tShare [0]).lcore = 0 ∧ shareDone s (tShare [0]) = true ∧ b.shares = 1 ∧ b.done = false ∧ b.failed = false ∧
    l.block = none ∧ cwLcore b.catchWord = 0 ∧ (catchOf l (cwIndex b.catchWord)).counter.toNat + 1 < 2 ^ 32) ∧
    (let p := tKwy 1 0 (2 ^ 31)
    let v : Layer := ⟨0, 0, 1, 1, 0, 1, 1, 1, 64, true⟩
    let k : Packet := tPkt 2 0 5 0 (.keyway p)
    let s : State := { tStep with fab := { tStep.fab with inbound := [k] } }
    let r : State := { tStep with fab := { tStep.fab with inbound := [{ k with destDie := 14 }] } }
    live s = true ∧ hasTumbler s.fuses = true ∧ k.destDie ≠ 14 ∧ pktAge s p.step p.attempt = .eq ∧ layerOf s 0 = some v ∧ inboxOk s (inboxSlotAt v p) (64 + v.rowBytes) = true ∧ latAwait [(inboxSlotAt v p, 64 + v.rowBytes), (srcEntryAt p, 4)] s = none ∧
    inboxOk s (srcEntryAt p) 4 = true ∧ latAwait [(srcEntryAt p, 4)] s = none ∧ latAwait (combineRanges s p) s = none ∧ fldOn r (KWY_WLT_ENABLE 0) = false) ∧
    (let w : Word := BitVec.ofNat 64 (2 ^ 23 + 2 ^ 25 * 2 ^ 24)
    let s : State := { setFld (KWY_WLT_ENABLE 0) 1 tStep with kwyCache := [(0, w)] }
    live s = true ∧ hasTumbler s.fuses = true ∧ s.fab.inbound = [] ∧ fldOn s (KWY_WLT_ENABLE 0) = true ∧ smFind s.kwyCache (0 * 2 ^ 20 + 0 * 4096 + 0) = some w ∧ w.getLsbD 23 = true ∧ w.toNat % 256 = fld s FAB_ID_MODULE) ∧
    (let r : State := { tHost with peer := { tHost.peer with retired := true }, sec := { tHost.sec with staged := some ([], 0, 0x40000) } }
    hostOn r 0 = true ∧ r.power.recovery = false ∧ fldOn r (KPR_CMD_STAT_BUSY 0) = false ∧ r.kpr.up = true ∧ r.peer.retired = true ∧ hasList r .fwStage = false ∧ hasList r .fwWrite = false ∧ hasList r .fwSelect = false ∧ r.sec.staged = some ([], 0, 0x40000) ∧ hasSwap r = false) :=
  ⟨by decide +kernel, by decide +kernel, by decide +kernel, by decide +kernel, by decide +kernel, by decide +kernel, by decide +kernel, by decide +kernel, by decide +kernel, by decide +kernel, by decide +kernel, by decide +kernel, by decide +kernel, by decide +kernel, by decide +kernel, by decide +kernel, by decide +kernel, by decide +kernel, by decide +kernel, by decide +kernel, by decide +kernel, by decide +kernel⟩

end Sys2Proof.Tests
end

section
/-! PROOF. The faults and the passing of a word at issue (R98, R133): settles O5. -/
namespace Sys2Proof.Machine

/-- A word of the Tumblers or of the Keyway raises `ABSENT_UNIT` on a part without Tumblers; the predicate is not looked at (R98,
R133). -/
theorem seqIssue_absent {c : Nat} {l : LCore} {r : Req} {s : State} (ha : atWord c l s = true) (hu : r.undef = false)
    (hl : r.level ≤ imgLevel s) (hq : r.q = qT ∨ r.q = qK) (ht : hasTumbler s.fuses = false) (act : LCore → State → State) :
    seqIssue c r act s = programFault c r.q l.pc cABSENT_UNIT s := by
  obtain ⟨hg, hs, hpc⟩ := seqReady_of_atWord ha
  have hin : ¬ l.pc + 8 > l.codeBytes := by omega
  have hlevel : ¬ imgLevel s < r.level := by omega
  have hunit : (r.q == qT || r.q == qK) = true := by simpa only [Bool.or_eq_true, beq_iff_eq] using hq
  simp [seqIssue, hg, hs, hin, hu, hlevel, hunit, ht]

/-- Settles O5: every row issues through `seqIssue` (`exec_issues`), whose checks come before the predicate. -/
theorem disabledInstructionOnlyPasses : Obligations.DisabledInstructionOnlyPasses := by
  unfold Obligations.DisabledInstructionOnlyPasses
  intro i c r s l hi ha
  obtain ⟨act, hact⟩ := exec_issues hi
  rw [hact]
  refine ⟨fun hw hp => ?_, fun hu => ?_, fun hu hl hq ht => ?_⟩
  · rw [seqIssue_off ha hw hp]
    rfl
  · rw [seqIssue_undef ha (by simpa using hu)]
  · rw [seqIssue_absent ha hu hl hq ht]

end Sys2Proof.Machine
end

section
/-! PROOF. Packets taken off those delivered here, and the signals that reach a catch (R120, R121, R375): settles O24. -/
namespace Sys2Proof.Machine

/-! ### Taking a packet -/

/-- Credits owed for a packet are fabric state only. -/
theorem creditBack_fab (p : Packet) (s : State) : ∃ fab, creditBack p s = { s with fab := fab } := by
  unfold creditBack
  split
  case h_1 => exact ⟨_, rfl⟩
  case h_2 => exact ⟨s.fab, rfl⟩

/-- Taking a packet changes fabric state only. -/
theorem takeInbound_fab (f : Packet → Bool) (s : State) : ∃ fab, (takeInbound f s).2 = { s with fab := fab } := by
  unfold takeInbound
  split
  case h_1 => exact ⟨s.fab, rfl⟩
  case h_2 i hi =>
    split
    case h_1 p hp =>
      obtain ⟨fab, h⟩ := creditBack_fab p { s with fab := { s.fab with inbound := dropAt s.fab.inbound i } }
      exact ⟨fab, h⟩
    case h_2 => exact ⟨_, rfl⟩

theorem takePacket_fab (p : Packet) (s : State) : ∃ fab, takePacket p s = { s with fab := fab } := takeInbound_fab _ s

@[simp] theorem lcoreCount_takePacket (p : Packet) (s : State) : lcoreCount (takePacket p s) = lcoreCount s := by
  obtain ⟨fab, h⟩ := takePacket_fab p s
  rw [h]
  rfl

@[simp] theorem getL_takePacket (p : Packet) (s : State) (c : Nat) : getL (takePacket p s) c = getL s c := by
  obtain ⟨fab, h⟩ := takePacket_fab p s
  rw [h]
  rfl

@[simp] theorem dieOf_takePacket (p : Packet) (s : State) (c : Nat) : dieOf (takePacket p s) c = dieOf s c := by
  simp only [dieOf, getL_takePacket]

@[simp] theorem ownId_takePacket (p : Packet) (s : State) : ownId (takePacket p s) = ownId s := by
  obtain ⟨fab, h⟩ := takePacket_fab p s
  rw [h]
  rfl

@[simp] theorem pktStale_takePacket (p q : Packet) (s : State) : pktStale (takePacket p s) q = pktStale s q := by
  obtain ⟨fab, h⟩ := takePacket_fab p s
  rw [h]
  rfl

/-! ### At most one packet delivered -/

theorem takeInbound_of_none {s : State} (h : s.fab.inbound = []) (f : Packet → Bool) : takeInbound f s = (none, s) := by
  simp only [takeInbound, h, firstIdx]

theorem takeInbound_of_single {p : Packet} {s : State} (h : s.fab.inbound = [p]) {f : Packet → Bool} (hf : f p = true) :
    takeInbound f s = (some p, takePacket p s) := by
  simp [takePacket, takeInbound, h, firstIdx, hf]

theorem inOrder_of_none {s : State} (h : s.fab.inbound = []) (f : Packet → Bool) : inOrder f s = true := by
  simp only [inOrder, h, firstIdx]

/-- The only packet delivered has none of its flow before it. -/
theorem inOrder_of_single {p : Packet} {s : State} (h : s.fab.inbound = [p]) {f : Packet → Bool} (hf : f p = true) :
    inOrder f s = true := by
  simp [inOrder, h, firstIdx, hf]

/-! ### Signals -/

/-- A signal is handled when it is its packet's turn (R374). -/
theorem exec_catchSignal (w : Word) (amount : BitVec 32) (s : State) : exec (.catchSignal w amount) s =
    .next (ordered (fun p => p.body == .catchSig w amount) s (catchSignal w amount s)) := rfl

/-- A signal that no packet brought adds to its catch at once. -/
theorem exec_catchSignal_local (w : Word) (amount : BitVec 32) {s : State} (h : s.fab.inbound = []) :
    exec (.catchSignal w amount) s = .next (signalHere w amount s) := by
  rw [exec_catchSignal, ordered, inOrder_of_none h, if_pos rfl]
  simp only [catchSignal, takeInbound_of_none h, Option.filter_none]

/-- A signal that a packet of another module brought, in the open attempt and for a logical core of the image, adds to its catch
and is acknowledged (R375). -/
theorem exec_catchSignal_remote {w : Word} {amount : BitVec 32} {p : Packet} {s : State} (h : s.fab.inbound = [p])
    (hb : p.body = .catchSig w amount) (hsrc : p.src ≠ ownId s) (hst : pktStale s p = false) (hc : cwLcore w < lcoreCount s) :
    exec (.catchSignal w amount) s =
      .next (answerPkt p (dieOf s (cwLcore w)) .writeAck (signalHere w amount (takePacket p s))) := by
  have hf : (p.body == .catchSig w amount) = true := by rw [hb, beq_self_eq_true]
  have hturn : inOrder (fun k => k.body == .catchSig w amount) s = true := inOrder_of_single h hf
  have htake : takeInbound (fun k => k.body == .catchSig w amount) s = (some p, takePacket p s) := takeInbound_of_single h hf
  have hother : (some p).filter (fun k => k.src != ownId (takePacket p s)) = some p := by simp [Option.filter, hsrc]
  have hin : ¬ lcoreCount s ≤ cwLcore w := by omega
  rw [exec_catchSignal, ordered, hturn, if_pos rfl]
  simp only [catchSignal, htake, hother, pktStale_takePacket, hst, Bool.false_eq_true, if_false, lcoreCount_takePacket, hin,
    dieOf_takePacket]

/-- A sum above 2^32 − 1 leaves the counter at 2^32 − 1 and is recorded (R121). -/
theorem signalHere_saturates {w : Word} {amount : BitVec 32} {s : State} {l : LCore} (hc : cwLcore w < lcoreCount s)
    (hg : getL s (cwLcore w) = some l) (hn : 2 ^ 32 ≤ (catchOf l (cwIndex w)).counter.toNat + amount.toNat) :
    signalHere w amount s = reportCore cCATCH_OVERFLOW 0 l.phys (BitVec.ofNat 64 (cwLcore w * 65536 + cwIndex w))
      (setL (cwLcore w) (setCatch (cwIndex w) { catchOf l (cwIndex w) with counter := 0xFFFFFFFF } l) s) := by
  have hmin : min ((catchOf l (cwIndex w)).counter.toNat + amount.toNat) (2 ^ 32 - 1) = 2 ^ 32 - 1 := by omega
  simp only [signalHere, hc, if_true, catchAdd, hg, ge_iff_le, hn, hmin]
  rfl

/-- Settles O24: a signal that no packet brought, and one that another module's packet brought, both add by `signalHere`, which
saturates. -/
theorem catchCounterSaturates : Obligations.CatchCounterSaturates := by
  unfold Obligations.CatchCounterSaturates
  refine ⟨?_, ?_, by decide⟩
  · intro w amount s l h hc hg k hn
    rw [exec_catchSignal_local w amount h, signalHere_saturates hc hg hn]
  · intro w amount p s l h hb hsrc hst hc hg k hn
    have hg' : getL (takePacket p s) (cwLcore w) = some l := by rw [getL_takePacket, hg]
    have hc' : cwLcore w < lcoreCount (takePacket p s) := by rw [lcoreCount_takePacket]; exact hc
    rw [exec_catchSignal_remote h hb hsrc hst hc, signalHere_saturates hc' hg' hn]

end Sys2Proof.Machine
end

section
/-! PROOF. The forwarding of packets in transit, those without a Keyway, and the waiting of a packet behind its flow (R374, R388 to
R391): settles O44. -/
namespace Sys2Proof.Machine

theorem liveNext_of_live {s : State} (h : live s = true) (t : State) : liveNext s t = .next t := by
  rw [liveNext, if_pos h]

/-! ### A packet waits its turn (R374) -/

theorem ordered_self (f : Packet → Bool) (s : State) : ordered f s s = s := by rw [ordered, ite_self]

/-- The command does to a state at most what is ordered behind the flow of the packet that `f` finds. -/
def ActsInTurn (i : Instr) (f : Packet → Bool) : Prop := ∀ s, ∃ t, exec i s = liveNext s (ordered f s t)

theorem exec_of_not_inOrder {i : Instr} {f : Packet → Bool} {s : State} (hi : ActsInTurn i f) (h : inOrder f s = false) :
    exec i s = .next s := by
  obtain ⟨t, ht⟩ := hi s
  have hwait : ordered f s t = s := by rw [ordered, h, if_neg Bool.false_ne_true]
  rw [ht, hwait, liveNext, ite_self]

theorem control_actsInTurn (a : MemberMsg) (b : KindMsg) (e : AbortMsg) (d : Designation) (r : CutReq) :
    ∀ row ∈ [(Instr.readyVoteReceived a, Ctl.vote a), (.commitDesignation d, .commit d), (.deadlineReport b, .report b),
      (.abortRequest e, .abort e), (.stepAbort e, .abort e), (.abortAcknowledgement b, .abortAck b), (.repeatDesignation d, .repeatD d),
      (.recoveryHold a, .hold a), (.recoveryRelease a, .release a), (.resumeDesignation d, .resume d), (.cutRequest r, .cut r)],
    ActsInTurn row.1 (ctlIs row.2) := by
  simp only [List.forall_mem_cons]
  exact ⟨fun _ => ⟨_, rfl⟩, fun _ => ⟨_, rfl⟩, fun _ => ⟨_, rfl⟩, fun _ => ⟨_, rfl⟩, fun _ => ⟨_, rfl⟩, fun _ => ⟨_, rfl⟩,
    fun _ => ⟨_, rfl⟩, fun _ => ⟨_, rfl⟩, fun _ => ⟨_, rfl⟩, fun _ => ⟨_, rfl⟩, fun _ => ⟨_, rfl⟩, List.forall_mem_nil _⟩

/-- Of its two cases, the packet with another body leaves the state as it is, in turn or not. -/
theorem readData_actsInTurn (p : Packet) : ActsInTurn (.readData p) (fun k => k == p) := by
  intro s
  show ∃ t, execReadData p s = _
  unfold execReadData
  split
  · exact ⟨_, rfl⟩
  · exact ⟨s, by rw [ordered_self]⟩

theorem writeAck_actsInTurn (p : Packet) : ActsInTurn (.writeAck p) (fun k => k == p) := by
  intro s
  show ∃ t, execWriteAck p s = _
  unfold execWriteAck
  split
  · exact ⟨_, rfl⟩
  · exact ⟨s, by rw [ordered_self]⟩

theorem access_actsInTurn (n : Fin 16) (p : Packet) :
    ∀ row ∈ [Instr.remoteWrite n p, .remoteRead n p, .readData p, .writeAck p, .deliveryAck p], ActsInTurn row (fun k => k == p) := by
  simp only [List.forall_mem_cons]
  exact ⟨fun _ => ⟨_, rfl⟩, fun _ => ⟨_, rfl⟩, readData_actsInTurn p, writeAck_actsInTurn p, fun _ => ⟨_, rfl⟩, List.forall_mem_nil _⟩

/-! ### Forwarding (R388, R389) -/

theorem forwardPkt_of_last_hop {p : Packet} (h : 32 ≤ p.hops + 1) (src : Nat) (s : State) :
    forwardPkt src p s = dropTransit FAB_COUNT_HOPS cFAB_HOPS src p s := by
  rw [forwardPkt, if_pos h]

theorem forwardPkt_of_route {p : Packet} {s : State} {m : Nat} (h : p.hops + 1 < 32)
    (hm : hashedPort { p with hops := p.hops + 1 } (routeSet s { p with hops := p.hops + 1 }) = some m) (src : Nat) :
    forwardPkt src p s = enqueue m { p with hops := p.hops + 1 } s := by
  rw [forwardPkt, if_neg (by omega)]
  simp only [hm]

theorem forwardPkt_of_no_route {p : Packet} {s : State} (h : p.hops + 1 < 32)
    (hm : hashedPort { p with hops := p.hops + 1 } (routeSet s { p with hops := p.hops + 1 }) = none) (src : Nat) :
    forwardPkt src p s = dropTransit FAB_COUNT_NOROUTE cFAB_NOROUTE src p s := by
  rw [forwardPkt, if_neg (by omega)]
  simp only [hm]
  rfl

/-! ### Arrival on a port (R370, R374, R386, R391) -/

theorem exec_fabricPacket {s : State} (h : live s = true) (arrivedOn : Option (Fin 16)) (p : Packet) :
    exec (.fabricPacket arrivedOn p) s = .next (routePacket (arrivedOn.map (·.val)) p s) :=
  liveNext_of_live h _

/-- The packet as it goes on from port `n`: past the dateline it takes the other virtual lane. -/
def pastDateline (n : Nat) (p : Packet) (s : State) : Packet :=
  { p with vl := p.vl || fldOn s (FAB_PORT_CTRL_DATELINE (n / 2) (n % 2)) }

/-- The packet `r` has left port `n`, where `rest` is left, and its credits are owed (R370). -/
def leftPort (n : Nat) (rest : List RxPkt) (r : RxPkt) (s : State) : State :=
  modPort n (fun x => { x with rx := rest, returns := listMod x.returns r.lane (· + r.units) }) s

/-- A route is read off the registers and the fuses, which a receive buffer is no part of. -/
theorem routeSet_leftPort (n : Nat) (rest : List RxPkt) (r : RxPkt) (s : State) (p : Packet) :
    routeSet (leftPort n rest r s) p = routeSet s p := rfl

/-- The packet `r` keeps its place in port `n`, as `q` (R370). -/
def keptAtPort (n : Nat) (rest : List RxPkt) (r : RxPkt) (q : Packet) (s : State) : State :=
  modPort n (fun x => { x with rx := rest ++ [{ r with p := q, routed := true }] }) s

/-- A packet behind another of its flow waits in its port. -/
theorem routePacket_of_waiting {n : Nat} {p : Packet} {s : State} (hup : portUp s n = true) (h : rxPlace (getPort s n) p = none) :
    routePacket (some n) p s = s := by
  simp only [routePacket, hup, h, Bool.not_true, Bool.false_eq_true, if_false]

/-- What becomes of a packet that is first of its flow in its port. -/
theorem routePacket_of_place {n : Nat} {p : Packet} {s : State} {rest : List RxPkt} {r : RxPkt} (hup : portUp s n = true)
    (h : rxPlace (getPort s n) p = some (rest, r)) :
    routePacket (some n) p s =
      if p.cls = 2 && !hasTumbler s.fuses then addFld (FAB_PORT_COUNT_KWY_ABSENT (n / 2) (n % 2)) 1 (leftPort n rest r s)
      else if forHere s (pastDateline n p s) || toResolve s (pastDateline n p s) || forAnyone (pastDateline n p s) then
        deliver (pastDateline n p s) (keptAtPort n rest r (pastDateline n p s) s)
      else forwardPkt (portSrc n) (pastDateline n p s) (leftPort n rest r s) := by
  simp only [routePacket, hup, h, Bool.not_true, Bool.false_eq_true, if_false]
  rfl

section
variable {n : Nat} {p : Packet} {s : State} {rest : List RxPkt} {r : RxPkt}

/-- A Keyway packet on a module without a Keyway is dropped, whether it is for this module or not (R391). -/
theorem routePacket_of_no_keyway (hup : portUp s n = true) (h : rxPlace (getPort s n) p = some (rest, r)) (hc : p.cls = 2)
    (ht : hasTumbler s.fuses = false) :
    routePacket (some n) p s = addFld (FAB_PORT_COUNT_KWY_ABSENT (n / 2) (n % 2)) 1 (leftPort n rest r s) := by
  rw [routePacket_of_place hup h, if_pos (by simp [hc, ht])]

/-- Any other packet is not dropped for its class. -/
theorem not_keyway_absent (hk : p.cls ≠ 2 ∨ hasTumbler s.fuses = true) : ¬ (p.cls = 2 && !hasTumbler s.fuses) = true := by
  intro h
  obtain ⟨hc, ht⟩ : p.cls = 2 ∧ hasTumbler s.fuses = false := by simpa using h
  rcases hk with hother | hon
  · exact hother hc
  · exact Bool.false_ne_true (ht.symm.trans hon)

theorem routePacket_of_here (hup : portUp s n = true) (h : rxPlace (getPort s n) p = some (rest, r))
    (hk : p.cls ≠ 2 ∨ hasTumbler s.fuses = true)
    (hq : forHere s (pastDateline n p s) = true ∨ toResolve s (pastDateline n p s) = true ∨ forAnyone (pastDateline n p s) = true) :
    routePacket (some n) p s = deliver (pastDateline n p s) (keptAtPort n rest r (pastDateline n p s) s) := by
  rw [routePacket_of_place hup h, if_neg (not_keyway_absent hk), if_pos (by simpa only [Bool.or_eq_true, or_assoc] using hq)]

theorem routePacket_of_transit (hup : portUp s n = true) (h : rxPlace (getPort s n) p = some (rest, r))
    (hk : p.cls ≠ 2 ∨ hasTumbler s.fuses = true) (hh : forHere s (pastDateline n p s) = false)
    (hr : toResolve s (pastDateline n p s) = false) (ha : forAnyone (pastDateline n p s) = false) :
    routePacket (some n) p s = forwardPkt (portSrc n) (pastDateline n p s) (leftPort n rest r s) := by
  rw [routePacket_of_place hup h, if_neg (not_keyway_absent hk), hh, hr, ha]
  rfl

end

/-- A packet that this module sends to itself is delivered. -/
theorem routePacket_own_of_here {p : Packet} {s : State} (h : forHere s p = true ∨ toResolve s p = true) :
    routePacket none p s = deliver p s := by
  simp only [routePacket]
  rw [if_pos (by simpa only [Bool.or_eq_true] using h)]

/-- Settles O44: by what `routePacket` does with a packet that waits, is dropped, stays or is forwarded; and the rows that take a packet
act in its turn. -/
theorem packetsAreForwarded : Obligations.PacketsAreForwarded := by
  unfold Obligations.PacketsAreForwarded
  refine ⟨?_, ?_, ?_, ?_⟩
  · intro n p s hl hup
    simp only [exec_fabricPacket hl, Option.map_some]
    refine ⟨fun hw => ?_, fun rest r hp => ⟨fun hc ht => ?_, fun hk hh hr ha => ?_, fun hk hq => ?_⟩⟩
    · rw [routePacket_of_waiting hup hw]
    · rw [routePacket_of_no_keyway hup hp hc ht]
      rfl
    · rw [routePacket_of_transit hup hp hk hh hr ha]
      refine ⟨fun h32 => ?_, fun m h32 hm => ?_, fun h32 hm => ?_⟩
      · rw [forwardPkt_of_last_hop (p := pastDateline n p s) h32]
        rfl
      · rw [← routeSet_leftPort n rest r] at hm
        rw [forwardPkt_of_route (p := pastDateline n p s) h32 hm]
        rfl
      · rw [← routeSet_leftPort n rest r] at hm
        rw [forwardPkt_of_no_route (p := pastDateline n p s) h32 hm]
        rfl
    · rw [routePacket_of_here hup hp hk hq]
      rfl
  · intro p s hl hq
    rw [exec_fabricPacket hl]
    exact congrArg Host.Outcome.next (routePacket_own_of_here hq)
  · intro a b e d r s _ row hrow hw
    exact exec_of_not_inOrder (control_actsInTurn a b e d r row hrow) hw
  · intro n p s _ hw row hrow
    exact exec_of_not_inOrder (access_actsInTurn n p row hrow) hw

end Sys2Proof.Machine
end

section
/-! PROOF. The loss of a host, and the accepted work that it leaves as it is (R459, R483): settles O50. -/
namespace Sys2Proof.Machine

/-- What accepted work consists of and runs on: the image, the cores, the steps, the memory, the power of the module, the entries of
the own journals, and the accepted tickets and queries that wait. -/
structure AcceptedWork where
  img : Option Image
  lcores : List LCore
  pcores : SMap PCore
  step : StepSt
  mem : Mem
  power : PowerSt
  journal : SMap JEntry
  ready : List (Nat × Word)
  queries : List (Nat × Word)

/-- The accepted work of a state. -/
def acceptedWork (s : State) : AcceptedWork :=
  ⟨s.img, s.lcores, s.pcores, s.step, s.mem, s.power, s.jnl.own, s.host.ready, s.host.queries⟩

theorem acceptedWork_eq_iff {s t : State} : acceptedWork t = acceptedWork s ↔
    t.img = s.img ∧ t.lcores = s.lcores ∧ t.pcores = s.pcores ∧ t.step = s.step ∧ t.mem = s.mem ∧ t.power = s.power ∧
      t.jnl.own = s.jnl.own ∧ t.host.ready = s.host.ready ∧ t.host.queries = s.host.queries := by
  simp only [acceptedWork, AcceptedWork.mk.injEq]

theorem acceptedWork_ite {c : Prop} [Decidable c] {s t u : State} (ht : acceptedWork t = acceptedWork s)
    (hu : acceptedWork u = acceptedWork s) : acceptedWork (if c then t else u) = acceptedWork s := by
  rw [apply_ite acceptedWork, ht, hu, ite_self]

/-! ### Registers, messages and the journal's records -/

section
variable (s : State)

@[simp] theorem acceptedWork_setFld (f : Fld) (v : Nat) : acceptedWork (setFld f v s) = acceptedWork s := rfl
@[simp] theorem acceptedWork_addFld (f : Fld) (n : Nat) : acceptedWork (addFld f n s) = acceptedWork s := rfl
@[simp] theorem acceptedWork_sendMsi (n v : Nat) : acceptedWork (sendMsi n v s) = acceptedWork s := rfl
@[simp] theorem acceptedWork_ctlBlock (q : Nat) : acceptedWork (ctlBlock q s) = acceptedWork s := rfl
@[simp] theorem acceptedWork_jnlPut (k : Nat) (b : List Byte) : acceptedWork (jnlPut k b s) = acceptedWork s := rfl
@[simp] theorem acceptedWork_setRing (n q : Nat) (r : CRing) : acceptedWork (setRing n q r s) = acceptedWork s := rfl
@[simp] theorem acceptedWork_modTQ (q : Nat) (f : TQueue → TQueue) : acceptedWork (modTQ q f s) = acceptedWork s := rfl

/-! ### The error ring -/

@[simp] theorem acceptedWork_errSend (fatal : Bool) (cls : Nat) : acceptedWork (errSend fatal cls s) = acceptedWork s := by
  simp [errSend, apply_ite acceptedWork]

/-- Marking a class writes the error ring's own state, and sends at most its vectors. -/
@[simp] theorem acceptedWork_errMark (fatal : Bool) (cls : Nat) : acceptedWork (errMark fatal cls s) = acceptedWork s := by
  unfold errMark
  exact acceptedWork_ite (acceptedWork_ite rfl (acceptedWork_errSend _ _ _)) (acceptedWork_ite rfl (acceptedWork_errSend _ _ _))

@[simp] theorem acceptedWork_errLost (cls : Nat) : acceptedWork (errLost cls s) = acceptedWork s := by
  rw [errLost, acceptedWork_addFld]

@[simp] theorem acceptedWork_withErr (e : ErrSt) : acceptedWork { s with err := e } = acceptedWork s := rfl

@[simp] theorem acceptedWork_withFatal (m : SMap Nat) :
    acceptedWork { s with jnl := { s.jnl with fatal := m } } = acceptedWork s := rfl

/-- The copies of fatal records are no queue entries. -/
@[simp] theorem acceptedWork_fatalCopy (r : ERec) : acceptedWork (fatalCopy r s) = acceptedWork s := by
  simp [fatalCopy]

/-- Reporting a code writes the error ring and, of a fatal code, its copy. -/
@[simp] theorem acceptedWork_report (code : Code) (src : Nat) (d : Word) : acceptedWork (report code src d s) = acceptedWork s := by
  unfold report
  dsimp only
  split
  case h_1 =>
    split
    case h_1 => rfl
    case h_2 =>
      rw [acceptedWork_errMark]
      exact acceptedWork_ite (acceptedWork_addFld _ _ _) rfl
  case h_2 =>
    refine acceptedWork_ite ?full ?room
    case full => simp only [apply_ite acceptedWork, acceptedWork_addFld, acceptedWork_errLost, acceptedWork_fatalCopy, ite_self]
    case room =>
      simp only [apply_ite acceptedWork, acceptedWork_errMark, acceptedWork_setFld, acceptedWork_withErr, acceptedWork_fatalCopy,
        ite_self]

/-! ### The completion rings -/

/-- A vector is sent, or owed until its gap ends, or owed already. -/
@[simp] theorem acceptedWork_raiseVec (n v : Nat) : acceptedWork (raiseVec n v s) = acceptedWork s := by
  unfold raiseVec
  exact acceptedWork_ite rfl (acceptedWork_ite rfl rfl)

@[simp] theorem acceptedWork_ringWrite (n q : Nat) (e : CEnt) : acceptedWork (ringWrite n q e s) = acceptedWork s := by
  simp [ringWrite]

@[simp] theorem acceptedWork_ringOverflow (n q : Nat) : acceptedWork (ringOverflow n q s) = acceptedWork s := by
  simp [ringOverflow, apply_ite acceptedWork]

@[simp] theorem acceptedWork_postOn (n q : Nat) (e : CEnt) : acceptedWork (postOn n q e s) = acceptedWork s := by
  simp [postOn, apply_ite acceptedWork]

/-! ### The loss of a host -/

/-- Orphaning a queue discards its unread slots, which are not accepted yet (R483). -/
@[simp] theorem acceptedWork_orphan (n q : Nat) : acceptedWork (orphan n s q) = acceptedWork s := by
  simp [orphan, apply_ite acceptedWork]

theorem acceptedWork_foldl_orphan (n : Nat) (qs : List Nat) : acceptedWork (qs.foldl (orphan n) s) = acceptedWork s := by
  induction qs generalizing s with
  | nil => rfl
  | cons q qs ih => rw [List.foldl_cons, ih, acceptedWork_orphan]

/-- The loss of a host stops no accepted work (R459). -/
theorem acceptedWork_hostLost (n : Nat) : acceptedWork (hostLost n s) = acceptedWork s := by
  unfold hostLost
  refine acceptedWork_ite rfl ?_
  rw [acceptedWork_foldl_orphan, acceptedWork_report, acceptedWork_addFld, acceptedWork_setFld]

end

/-- Port `n` has no link any more. -/
def withoutLink (n : Nat) (s : State) : State := { s with host := { s.host with linkUp := s.host.linkUp.set n false } }

theorem acceptedWork_withoutLink (n : Nat) (s : State) : acceptedWork (withoutLink n s) = acceptedWork s := rfl

/-- Whatever the cause, the port goes down and its host is lost. -/
theorem exec_hostLinkLoss {n : Fin 2} {s : State} (hl : live s = true) (hup : s.host.linkUp.getD n false = true)
    (cause : LossCause) : exec (.hostLinkLoss n cause) s = .next (hostLost n (withoutLink n s)) := by
  have hdown : hostDown n s = hostLost n (withoutLink n s) := by rw [hostDown, if_pos hup, withoutLink]
  have hrow : exec (.hostLinkLoss n cause) s = liveNext s (hostDown n s) := rfl
  rw [hrow, hdown, liveNext_of_live hl]

/-- Settles O50: every cause makes the port's host lost (`exec_hostLinkLoss`), and a loss keeps the accepted work. -/
theorem hostLossIsOneEvent : Obligations.HostLossIsOneEvent := by
  unfold Obligations.HostLossIsOneEvent
  intro n cause cause' s hl hup
  obtain ⟨himg, hlcores, hpcores, hstep, hmem, hpower, hjnl, hready, hqueries⟩ := acceptedWork_eq_iff.mp
    ((acceptedWork_hostLost (withoutLink n s) n).trans (acceptedWork_withoutLink n s))
  refine ⟨?_, exec_hostLinkLoss hl hup cause, _, exec_hostLinkLoss hl hup cause,
    himg, hlcores, hpcores, hstep, hmem, hjnl, hpower, hready, hqueries⟩
  rw [exec_hostLinkLoss hl hup, exec_hostLinkLoss hl hup]

end Sys2Proof.Machine
end

section
/-! PROOF. The steps of the module and the canonical forms (settles O1 to O4), and what reset leaves (settles O59). -/
namespace Sys2Proof.Machine

/-- Every command keeps the queue, the fuses and the canonical forms. -/
theorem exec_kept (i : Instr) (s : State) : KeptOut s (exec i s) := by
  cases i with
  | frameBoundary => exact execFrameBoundary_kept (.refl s)
  | frameInEdge => exact execFrameInEdge_kept (.refl s)
  | framePacket => exact execFramePacket_kept (.refl s)
  | correctionWindowClose => exact execCorrectionWindowClose_kept (.refl s)
  | readyVote => exact execReadyVote_kept (.refl s)
  | readyVoteReceived => exact execReadyVoteReceived_kept (.refl s)
  | commitDesignation => exact execCommitDesignation_kept (.refl s)
  | commitBoundary => exact execCommitBoundary_kept (.refl s)
  | stepOpens => exact execStepOpens_kept (.refl s)
  | poolWaitExpiry => exact execPoolWaitExpiry_kept (.refl s)
  | snapshotCut => exact execSnapshotCut_kept (.refl s)
  | collectiveLaunch => exact execCollectiveLaunch_kept (.refl s)
  | fwaitFires => exact execFwaitFires_kept (.refl s)
  | loopWindowOpen => exact execLoopWindowOpen_kept (.refl s)
  | loopWindowClose => exact execLoopWindowClose_kept (.refl s)
  | queryDeadlineExpiry => exact execQueryDeadlineExpiry_kept (.refl s)
  | contributionDeadline => exact execContributionDeadline_kept (.refl s)
  | deadlineReport => exact execDeadlineReport_kept (.refl s)
  | abortRequest => exact execAbortRequest_kept (.refl s)
  | stepAbort => exact execStepAbort_kept (.refl s)
  | abortAcknowledgement => exact execAbortAcknowledgement_kept (.refl s)
  | collectionClose => exact execCollectionClose_kept (.refl s)
  | repeatDesignation => exact execRepeatDesignation_kept (.refl s)
  | repeatOpen => exact execRepeatOpen_kept (.refl s)
  | recoveryHold => exact execRecoveryHold_kept (.refl s)
  | recoveryRelease => exact execRecoveryRelease_kept (.refl s)
  | resumeDesignation => exact execResumeDesignation_kept (.refl s)
  | loadTicket => exact execLoadTicket_kept (.refl s)
  | postTicket => exact execPostTicket_kept (.refl s)
  | stopTicket => exact execStopTicket_kept (.refl s)
  | queryTicket => exact execQueryTicket_kept (.refl s)
  | doublingSwap => exact execDoublingSwap_kept (.refl s)
  | nop => exact execNop_kept (.refl s)
  | add => exact execAdd_kept (.refl s)
  | sub => exact execSub_kept (.refl s)
  | and => exact execAnd_kept (.refl s)
  | or => exact execOr_kept (.refl s)
  | xor => exact execXor_kept (.refl s)
  | shl => exact execShl_kept (.refl s)
  | shr => exact execShr_kept (.refl s)
  | sra => exact execSra_kept (.refl s)
  | mul => exact execMul_kept (.refl s)
  | mulhu => exact execMulhu_kept (.refl s)
  | min => exact execMin_kept (.refl s)
  | max => exact execMax_kept (.refl s)
  | li => exact execLi_kept (.refl s)
  | lui => exact execLui_kept (.refl s)
  | cmp => exact execCmp_kept (.refl s)
  | plog => exact execPlog_kept (.refl s)
  | ld => exact execLd_kept (.refl s)
  | st => exact execSt_kept (.refl s)
  | br => exact execBr_kept (.refl s)
  | brr => exact execBrr_kept (.refl s)
  | call => exact execCall_kept (.refl s)
  | dld => exact execDld_kept (.refl s)
  | dst => exact execDst_kept (.refl s)
  | dins => exact execDins_kept (.refl s)
  | dext => exact execDext_kept (.refl s)
  | dmov => exact execDmov_kept (.refl s)
  | dadv => exact execDadv_kept (.refl s)
  | halt => exact execHalt_kept (.refl s)
  | detent => exact execDetent_kept (.refl s)
  | detentRelease => exact execDetentRelease_kept (.refl s)
  | mma => exact execMma_kept (.refl s)
  | drain => exact execDrain_kept (.refl s)
  | scaleRecordRead => exact execScaleRecordRead_kept (.refl s)
  | drainComplete => exact execDrainComplete_kept (.refl s)
  | hinge => exact execHinge_kept (.refl s)
  | aclr => exact execAclr_kept (.refl s)
  | tkeys => exact execTkeys_kept (.refl s)
  | tprobe => exact execTprobe_kept (.refl s)
  | tclr => exact execTclr_kept (.refl s)
  | tcap => exact execTcap_kept (.refl s)
  | vadd => exact execVadd_kept (.refl s)
  | vsub => exact execVsub_kept (.refl s)
  | vmul => exact execVmul_kept (.refl s)
  | vfma => exact execVfma_kept (.refl s)
  | vmin => exact execVmin_kept (.refl s)
  | vmax => exact execVmax_kept (.refl s)
  | vcmp => exact execVcmp_kept (.refl s)
  | vexp2 => exact execVexp2_kept (.refl s)
  | vlog2 => exact execVlog2_kept (.refl s)
  | vrsqrt => exact execVrsqrt_kept (.refl s)
  | vrcp => exact execVrcp_kept (.refl s)
  | vpadd => exact execVpadd_kept (.refl s)
  | vpred => exact execVpred_kept (.refl s)
  | vpfold => exact execVpfold_kept (.refl s)
  | vpack => exact execVpack_kept (.refl s)
  | vunpack => exact execVunpack_kept (.refl s)
  | vres => exact execVres_kept (.refl s)
  | vresadd => exact execVresadd_kept (.refl s)
  | xload => exact execXload_kept (.refl s)
  | xstore => exact execXstore_kept (.refl s)
  | xgather => exact execXgather_kept (.refl s)
  | xscatter => exact execXscatter_kept (.refl s)
  | xpose => exact execXpose_kept (.refl s)
  | xcopy => exact execXcopy_kept (.refl s)
  | stagingRead => exact execStagingRead_kept (.refl s)
  | xTransferComplete => exact execXTransferComplete_kept (.refl s)
  | remoteRefusal => exact execRemoteRefusal_kept (.refl s)
  | kroute => exact execKroute_kept (.refl s)
  | ksendDispatch => exact execKsendDispatch_kept (.refl s)
  | ksendAnswer => exact execKsendAnswer_kept (.refl s)
  | kcomb => exact execKcomb_kept (.refl s)
  | kcombResumes => exact execKcombResumes_kept (.refl s)
  | kepoch => exact execKepoch_kept (.refl s)
  | kepochComplete => exact execKepochComplete_kept (.refl s)
  | gred => exact execGred_kept (.refl s)
  | gallg => exact execGallg_kept (.refl s)
  | gbcast => exact execGbcast_kept (.refl s)
  | stepOpen => exact execStepOpen_kept (.refl s)
  | stepCommit => exact execStepCommit_kept (.refl s)
  | fwait => exact execFwait_kept (.refl s)
  | fnow => exact execFnow_kept (.refl s)
  | csig => exact execCsig_kept (.refl s)
  | csigSend => exact execCsigSend_kept (.refl s)
  | cwait => exact execCwait_kept (.refl s)
  | cwaitEnds => exact execCwaitEnds_kept (.refl s)
  | cset => exact execCset_kept (.refl s)
  | cread => exact execCread_kept (.refl s)
  | catchSignal => exact execCatchSignal_kept (.refl s)
  | catchRefusal => exact execCatchRefusal_kept (.refl s)
  | arrayHw => exact execArrayHw_kept (.refl s)
  | accEccCorr => exact execAccEccCorr_kept (.refl s)
  | tbHw => exact execTbHw_kept (.refl s)
  | tbEccCorr => exact execTbEccCorr_kept (.refl s)
  | scrEccCorr => exact execScrEccCorr_kept (.refl s)
  | scrHw => exact execScrHw_kept (.refl s)
  | coreHw => exact execCoreHw_kept (.refl s)
  | portTurnPass => exact execPortTurnPass_kept (.refl s)
  | mwAccess => exact execMwAccess_kept (.refl s)
  | memCe => exact execMemCe_kept (.refl s)
  | memUe => exact execMemUe_kept (.refl s)
  | rowHammerRefresh _ row => exact execRowHammerRefresh_kept (_row := row) (.refl s)
  | reductionPacket => exact execReductionPacket_kept (.refl s)
  | gredComplete => exact execGredComplete_kept (.refl s)
  | keywayResolve => exact execKeywayResolve_kept (.refl s)
  | dispatchArrival => exact execDispatchArrival_kept (.refl s)
  | closeArrival => exact execCloseArrival_kept (.refl s)
  | answerArrival => exact execAnswerArrival_kept (.refl s)
  | keywayRefusal => exact execKeywayRefusal_kept (.refl s)
  | kwHw => exact execKwHw_kept (.refl s)
  | flitReceived => exact execFlitReceived_kept (.refl s)
  | retryTimeout => exact execRetryTimeout_kept (.refl s)
  | progressTimeout => exact execProgressTimeout_kept (.refl s)
  | laneFault => exact execLaneFault_kept (.refl s)
  | fastRetrainDone => exact execFastRetrainDone_kept (.refl s)
  | bringupStageDone => exact execBringupStageDone_kept (.refl s)
  | bittingRecord => exact execBittingRecord_kept (.refl s)
  | bringupTimeout => exact execBringupTimeout_kept (.refl s)
  | linkDown => exact execLinkDown_kept (.refl s)
  | fabricPacket => exact execFabricPacket_kept (.refl s)
  | remoteWrite port => exact execRemoteWrite_kept (_port := port) (.refl s)
  | remoteRead port => exact execRemoteRead_kept (_port := port) (.refl s)
  | readData => exact execReadData_kept (.refl s)
  | writeAck => exact execWriteAck_kept (.refl s)
  | deliveryAck => exact execDeliveryAck_kept (.refl s)
  | retrain => exact execRetrain_kept (.refl s)
  | firstTouch => exact execFirstTouch_kept (.refl s)
  | latchCopyDone => exact execLatchCopyDone_kept (.refl s)
  | latchRestore => exact execLatchRestore_kept (.refl s)
  | latchRestoreDone => exact execLatchRestoreDone_kept (.refl s)
  | latCut => exact execLatCut_kept (.refl s)
  | cutRequest => exact execCutRequest_kept (.refl s)
  | tier1TransferDone => exact execTier1TransferDone_kept (.refl s)
  | tier1Completion => exact execTier1Completion_kept (.refl s)
  | archiveLinkDown => exact execArchiveLinkDown_kept (.refl s)
  | nvmeCompletion => exact execNvmeCompletion_kept (.refl s)
  | uncoreHw => exact execUncoreHw_kept (.refl s)
  | heartbeat => exact execHeartbeat_kept (.refl s)
  | heartbeatSilence => exact execHeartbeatSilence_kept (.refl s)
  | ackSilence => exact execAckSilence_kept (.refl s)
  | noPortUpTimeout => exact execNoPortUpTimeout_kept (.refl s)
  | powerNotice => exact execPowerNotice_kept (.refl s)
  | retirementNotice => exact execRetirementNotice_kept (.refl s)
  | adoptionPullDone => exact execAdoptionPullDone_kept (.refl s)
  | sqTail => exact execSqTail_kept (.refl s)
  | ticketRead => exact execTicketRead_kept (.refl s)
  | mirrorEntry => exact execMirrorEntry_kept (.refl s)
  | mirrorAck => exact execMirrorAck_kept (.refl s)
  | mirrorTimeout => exact execMirrorTimeout_kept (.refl s)
  | slotDone => exact execSlotDone_kept (.refl s)
  | cqHead => exact execCqHead_kept (.refl s)
  | msiGapExpiry => exact execMsiGapExpiry_kept (.refl s)
  | hostHeartbeat => exact execHostHeartbeat_kept (.refl s)
  | hostHbSilence => exact execHostHbSilence_kept (.refl s)
  | hostLinkLoss _ cause => exact execHostLinkLoss_kept (_cause := cause) (.refl s)
  | take => exact execTake_kept (.refl s)
  | resume => exact execResume_kept (.refl s)
  | keeperTick => exact execKeeperTick_kept (.refl s)
  | kprLockstep => exact execKprLockstep_kept (.refl s)
  | keeperRestarted => exact execKeeperRestarted_kept (.refl s)
  | csOpen => exact execCsOpen_kept (.refl s)
  | csCommit => exact execCsCommit_kept (.refl s)
  | csAbandon => exact execCsAbandon_kept (.refl s)
  | restart => exact execRestart_kept (.refl s)
  | swapMicrocode => exact execSwapMicrocode_kept (.refl s)
  | swapPortFw => exact execSwapPortFw_kept (.refl s)
  | swapUncoreFw => exact execSwapUncoreFw_kept (.refl s)
  | scrubPass => exact execScrubPass_kept (.refl s)
  | cmdUndefined => exact execCmdUndefined_kept (.refl s)
  | rsWrite => exact execRsWrite_kept (.refl s)
  | csApplyPoint => exact execCsApplyPoint_kept (.refl s)
  | csStrobe => exact execCsStrobe_kept (.refl s)
  | quiesceTimeout => exact execQuiesceTimeout_kept (.refl s)
  | errorRingRelease => exact execErrorRingRelease_kept (.refl s)
  | refClkLost => exact execRefClkLost_kept (.refl s)
  | refClkRestored => exact execRefClkRestored_kept (.refl s)
  | coastTimeout => exact execCoastTimeout_kept (.refl s)
  | powerSample => exact execPowerSample_kept (.refl s)
  | feedLoss => exact execFeedLoss_kept (.refl s)
  | feedRestored => exact execFeedRestored_kept (.refl s)
  | domainSwitchDone => exact execDomainSwitchDone_kept (.refl s)
  | railTimeout => exact execRailTimeout_kept (.refl s)
  | thermTrip => exact execThermTrip_kept (.refl s)
  | thermTripClear => exact execThermTripClear_kept (.refl s)
  | thermShutdown => exact execThermShutdown_kept (.refl s)
  | fwStage => exact execFwStage_kept (.refl s)
  | fwWrite => exact execFwWrite_kept (.refl s)
  | fwSelect => exact execFwSelect_kept (.refl s)
  | keygen => exact execKeygen_kept (.refl s)
  | svnCommit => exact execSvnCommit_kept (.refl s)
  | getVersion => exact execGetVersion_kept (.refl s)
  | getCapabilities => exact execGetCapabilities_kept (.refl s)
  | negotiateAlgorithms => exact execNegotiateAlgorithms_kept (.refl s)
  | getDigests => exact execGetDigests_kept (.refl s)
  | getCertificate => exact execGetCertificate_kept (.refl s)
  | challenge => exact execChallenge_kept (.refl s)
  | getMeasurements => exact execGetMeasurements_kept (.refl s)
  | spdmUnsupported => exact execSpdmUnsupported_kept (.refl s)
  | powerUp => exact execPowerUp_kept (.refl s)
  | perst => exact execPerst_kept (.refl s)
  | modRstN => exact execModRstN_kept (.refl s)
  | powerLoss => exact execPowerLoss_kept (.refl s)
  | registerWrite => exact execRegisterWrite_kept (.refl s)
  | badRegisterAccess => exact execBadRegisterAccess_kept (.refl s)
  | mmaComplete => exact execMmaComplete_kept (.refl s)
  | hingeComplete => exact execHingeComplete_kept (.refl s)
  | tkeysComplete => exact execTkeysComplete_kept (.refl s)
  | tprobeComplete => exact execTprobeComplete_kept (.refl s)
  | ksendComplete => exact execKsendComplete_kept (.refl s)
  | scalarLoadReturn => exact execScalarLoadReturn_kept (.refl s)
  | hostLinkUp => exact execHostLinkUp_kept (.refl s)
  | perstRelease => exact execPerstRelease_kept (.refl s)
  | modRstNRelease => exact execModRstNRelease_kept (.refl s)
  | perstaNRelease => exact execPerstaNRelease_kept (.refl s)
  | archiveLinkUp => exact execArchiveLinkUp_kept (.refl s)
  | ackGapExpiry => exact execAckGapExpiry_kept (.refl s)
  | clkBackupBad => exact execClkBackupBad_kept (.refl s)

theorem Kept.sameOutside {s t : State} (h : Kept s t) : SameOutside s t := ⟨h.1, h.2.1⟩

theorem Kept.stateWf {s t : State} (h : Kept s t) (hs : StateWf s) : StateWf t := by
  obtain ⟨-, hfuses, hregs, hmem⟩ := h
  exact ⟨by rw [hfuses]; exact hregs hs.1, hmem hs.2⟩

/-- Settles O2: each meaning keeps the relation `Kept` (`exec_kept`), which is the statement. -/
theorem everyCommandKeepsCanonicalForm : Obligations.EveryCommandKeepsCanonicalForm := by
  unfold Obligations.EveryCommandKeepsCanonicalForm
  intro i s
  obtain ⟨t, ht, hk⟩ := exec_kept i s
  exact ⟨t, ht, hk.sameOutside, hk.stateWf⟩

/-- Settles O1, by the two branches of `step`. -/
theorem stepRunsFrontCommand : Obligations.StepRunsFrontCommand := by
  unfold Obligations.StepRunsFrontCommand
  refine ⟨fun i rest s h => ?_, fun s h => ?_⟩
  · rw [step, h]
  · rw [step, h, idle, h]

/-- Settles O3: with a command waiting by O2, idle because only the time goes on. -/
theorem stepKeepsCanonicalForm : Obligations.StepKeepsCanonicalForm := by
  unfold Obligations.StepKeepsCanonicalForm
  intro s hs
  cases hp : s.pending with
  | nil => exact ⟨idle s, stepRunsFrontCommand.2 s hp, hs, rfl⟩
  | cons i rest =>
    obtain ⟨t, ht, ⟨-, hfuses⟩, hwf⟩ := everyCommandKeepsCanonicalForm i { s with pending := rest }
    exact ⟨t, (stepRunsFrontCommand.1 i rest s hp).trans ht, hwf hs, hfuses⟩

/-- Settles O4. -/
theorem resetCanonicalForm : Obligations.ResetCanonicalForm := ⟨by decide +kernel, by decide +kernel⟩

/-- Settles O59. -/
theorem resetState : Obligations.ResetState := by
  unfold Obligations.ResetState
  decide +kernel

end Sys2Proof.Machine
end

section
/-! PROOF. The S queue: the scalar operations and branches (settles O6 to O8). -/
namespace Sys2Proof.Machine

/-! ### Issue -/

/-- A word with a write pending on one of its registers waits (R100). -/
theorem seqIssue_pending {c : Nat} {l : LCore} {r : Req} {s : State} (ha : atWord c l s = true) (hw : wordOk r s = true)
    (hp : predOn l r = true) (hr : r.regs.any (regPending l) = true) (act : LCore → State → State) : seqIssue c r act s = s := by
  obtain ⟨hg, hs, hpc⟩ := seqReady_of_atWord ha
  simp only [wordOk, Bool.and_eq_true, Bool.not_eq_true', decide_eq_true_eq] at hw
  obtain ⟨⟨hu, hl⟩, ht⟩ := hw
  have hin : ¬ l.pc + 8 > l.codeBytes := by omega
  have hlevel : ¬ imgLevel s < r.level := by omega
  have hunit : ((r.q == qT || r.q == qK) && !hasTumbler s.fuses) = false := by
    cases hh : hasTumbler s.fuses <;> simp_all
  have hon : enabled l r = true := hp
  simp [seqIssue, hg, hs, hin, hu, hlevel, hunit, hon, hr]

/-- A sequencer past the last word of the CODE section raises `BRANCH_TARGET` (R105). -/
theorem seqIssue_past_code {c : Nat} {l : LCore} {s : State} (hg : getL s c = some l) (hs : seqReady s l = true)
    (hpc : l.codeBytes < l.pc + 8) (r : Req) (act : LCore → State → State) :
    seqIssue c r act s = programFault c qS l.pc cBRANCH_TARGET s := by
  simp [seqIssue, hg, hs, hpc]

/-- What a word that can issue has passed (R133). -/
theorem canIssue_wordOk {c : Nat} {l : LCore} {r : Req} {s : State} (h : canIssue c l r s = true) :
    r.undef = false ∧ r.level ≤ imgLevel s := by
  simp only [canIssue, wordOk, Bool.and_eq_true, Bool.not_eq_true', decide_eq_true_eq] at h
  obtain ⟨⟨⟨⟨-, ⟨hundef, hlevel⟩, -⟩, -⟩, -⟩, -⟩ := h
  exact ⟨hundef, hlevel⟩

/-- Settles O6: every row issues through `seqIssue` (`exec_issues`). -/
theorem fetchFaultsAndPendingRegisters : Obligations.FetchFaultsAndPendingRegisters := by
  unfold Obligations.FetchFaultsAndPendingRegisters
  refine ⟨fun i c r s l hi hg hs hpc => ?_, fun i c r s l hi ha hw hp hr => ?_⟩
  · obtain ⟨act, hact⟩ := exec_issues hi
    rw [hact, seqIssue_past_code hg hs hpc]
  · obtain ⟨act, hact⟩ := exec_issues hi
    rw [hact, seqIssue_pending ha hw hp hr]

/-! ### Register files after a passed word -/

theorem writeX_eq (r : BitVec 6) (v : Word) (l : LCore) : writeX r v l = { l with x := (writeX r v l).x } := by
  unfold writeX
  split <;> rfl

theorem writeP_eq (r : BitVec 3) (v : Bool) (l : LCore) : writeP r v l = { l with p := (writeP r v l).p } := by
  unfold writeP
  split <;> rfl

@[simp] theorem writeX_pc (r : BitVec 6) (v : Word) (l : LCore) : (writeX r v l).pc = l.pc := by rw [writeX_eq]
@[simp] theorem writeX_seq (r : BitVec 6) (v : Word) (l : LCore) : (writeX r v l).seq = l.seq := by rw [writeX_eq]
@[simp] theorem writeX_codeBytes (r : BitVec 6) (v : Word) (l : LCore) : (writeX r v l).codeBytes = l.codeBytes := by rw [writeX_eq]

/-- A word that is passed with a scalar register written. -/
theorem writesX_passed (c : Nat) (l : LCore) (rd : BitVec 6) (v : Word) (s : State) :
    WritesX c l rd v s (setL c (writeX rd v (nextWord l)) s) := by
  have he := writeX_eq rd v (nextWord l)
  exact ⟨_, ⟨rfl, by rw [he]; rfl⟩, by rw [he]; rfl, by rw [he]; rfl, fun r => readX_writeX rd r v (nextWord l)⟩

theorem writesP_passed (c : Nat) (l : LCore) (rd : BitVec 3) (v : Bool) (s : State) :
    WritesP c l rd v s (setL c (writeP rd v (nextWord l)) s) := by
  have he := writeP_eq rd v (nextWord l)
  exact ⟨_, ⟨rfl, by rw [he]; rfl⟩, by rw [he]; rfl, by rw [he]; rfl, fun r => readP_writeP rd r v (nextWord l)⟩

theorem writesD_passed (c : Nat) (l : LCore) (rd : BitVec 5) (v : Desc) (s : State) :
    WritesD c l rd v s (setL c (writeD rd v (nextWord l)) s) :=
  ⟨_, ⟨rfl, rfl⟩, rfl, rfl, fun r => readD_writeD rd r v (nextWord l)⟩

/-! ### Scalar and predicate operations (R104) -/

/-- A scalar operation that can issue writes its result. -/
theorem scalarOp_writes {c : Nat} {f : FmtA} {s : State} {l : LCore} (h : canIssue c l (reqA f false [f.xd, f.xa, f.xb]) s = true)
    {op : Word → Word → Word} {v : Word} (hv : op (readX l f.xa) (readX l f.xb + f.imm.signExtend 64) = v) :
    ∃ t, Host.Outcome.next (scalarOp c f op s) = (.next t : Out) ∧ WritesX c l f.xd v s t := by
  refine ⟨_, rfl, ?_⟩
  rw [scalarOp, seqIssue_acts h, opB, hv]
  exact writesX_passed c l f.xd v s

theorem shiftLeft_eq_ofNat (a : Word) (n : Nat) : a <<< n = BitVec.ofNat 64 (a.toNat * 2 ^ n) := by
  refine BitVec.eq_of_toNat_eq ?_
  rw [BitVec.toNat_shiftLeft, BitVec.toNat_ofNat, Nat.shiftLeft_eq]

theorem ushiftRight_eq_ofNat (a : Word) (n : Nat) : a >>> n = BitVec.ofNat 64 (a.toNat / 2 ^ n) := by
  refine BitVec.eq_of_toNat_eq ?_
  rw [BitVec.toNat_ushiftRight, BitVec.toNat_ofNat, Nat.shiftRight_eq_div_pow, Nat.mod_eq_of_lt]
  exact Nat.lt_of_le_of_lt (Nat.div_le_self _ _) a.isLt

theorem sshiftRight_eq_ofInt (a : Word) (n : Nat) : a.sshiftRight n = BitVec.ofInt 64 (a.toInt / 2 ^ n) := by
  have hlo : -(2 ^ 63 : Int) ≤ a.toInt := BitVec.le_toInt a
  have hhi : a.toInt < (2 ^ 63 : Int) := BitVec.toInt_lt
  have hpow : (0 : Int) < 2 ^ n := by positivity
  have hge : -(2 ^ 63 : Int) ≤ a.toInt / 2 ^ n := (Int.le_ediv_iff_mul_le hpow).mpr (by nlinarith)
  have hlt : a.toInt / 2 ^ n < (2 ^ 63 : Int) := Int.ediv_lt_of_lt_mul hpow (by nlinarith)
  refine BitVec.eq_of_toInt_eq ?_
  rw [BitVec.toInt_sshiftRight, Int.shiftRight_eq_div_pow, BitVec.toInt_ofInt, Int.bmod_eq_of_le]
  · push_cast
    rfl
  · exact_mod_cast hge
  · exact_mod_cast hlt

theorem mul_eq_ofNat (a b : Word) : a * b = BitVec.ofNat 64 (a.toNat * b.toNat) := by
  refine BitVec.eq_of_toNat_eq ?_
  rw [BitVec.toNat_mul, BitVec.toNat_ofNat]

theorem ofNat_toNat_lower {w : Nat} (v : BitVec w) : BitVec.ofNat 3 v.toNat = v.extractLsb' 0 3 := by
  refine BitVec.eq_of_toNat_eq ?_
  simp [BitVec.extractLsb'_toNat]

theorem lui_upper (i : BitVec 44) (a : Word) : (i ++ a.extractLsb' 0 20).extractLsb' 20 44 = i := by
  refine BitVec.eq_of_getLsbD_eq fun k hk => ?_
  rw [BitVec.getLsbD_extractLsb', BitVec.getLsbD_append]
  simp [hk]

theorem lui_lower (i : BitVec 44) (a : Word) : (i ++ a.extractLsb' 0 20).extractLsb' 0 20 = a.extractLsb' 0 20 := by
  refine BitVec.eq_of_getLsbD_eq fun k hk => ?_
  rw [BitVec.getLsbD_extractLsb', BitVec.getLsbD_append]
  simp [hk]

/-- CMP by the table of conditions; those past its end are undefined. -/
theorem cmpCond_eq_getD {i : Nat} (hi : ¬ 6 ≤ i) (a b : Word) : cmpCond i a b =
    some ([decide (a = b), decide (a ≠ b), decide (a.toInt < b.toInt), decide (a.toInt ≤ b.toInt), decide (a.toNat < b.toNat),
      decide (a.toNat ≤ b.toNat)].getD i false) := by
  have hlt : i < 6 := by omega
  interval_cases i
  · rfl
  · simp only [cmpCond, bne, List.getD_cons_succ, List.getD_cons_zero, decide_not]
    rfl
  · rfl
  · rfl
  · rfl
  · rfl

theorem plogOp_eq_getD (n : Nat) (a b : Bool) : plogOp (n % 4) a b = [a && b, a || b, a != b, a && !b].getD (n % 4) false := by
  have hlt : n % 4 < 4 := Nat.mod_lt _ (by decide)
  interval_cases n % 4 <;> rfl

/-- Settles O7: each operation that can issue writes its result (`writesX_passed`, `writesP_passed`). -/
theorem scalarAndPredicateOperations : Obligations.ScalarAndPredicateOperations := by
  unfold Obligations.ScalarAndPredicateOperations
  refine ⟨fun c f s l h => ?nop, fun c f s l h => ?scalar, fun c f s l h => ?load, fun c f s l h => ?cmp, fun c f s l h => ?plog⟩
  case nop => exact congrArg Host.Outcome.next (seqIssue_acts h _)
  case scalar =>
    refine ⟨scalarOp_writes h rfl, scalarOp_writes h rfl, scalarOp_writes h rfl, scalarOp_writes h rfl, scalarOp_writes h rfl,
      scalarOp_writes h (shiftLeft_eq_ofNat _ _), scalarOp_writes h (ushiftRight_eq_ofNat _ _),
      scalarOp_writes h (sshiftRight_eq_ofInt _ _), scalarOp_writes h (mul_eq_ofNat _ _), scalarOp_writes h rfl,
      scalarOp_writes h ?_, scalarOp_writes h ?_⟩
    · simp only [BitVec.sle_iff_toInt_le]
    · simp only [BitVec.sle_iff_toInt_le]
  case load =>
    refine ⟨⟨_, congrArg Host.Outcome.next (seqIssue_acts h _), writesX_passed c l _ _ s⟩,
      ⟨_, _, congrArg Host.Outcome.next (seqIssue_acts h _), writesX_passed c l _ _ s, lui_upper _ _, lui_lower _ _⟩⟩
  case cmp =>
    have hundef := (canIssue_wordOk h).1
    have hcond : ¬ 6 ≤ f.xd.toNat / 8 := by simpa [reqA] using hundef
    refine ⟨_, congrArg Host.Outcome.next (seqIssue_acts h _), ?_⟩
    simp only [opB, cmpCond_eq_getD hcond, ofNat_toNat_lower]
    exact writesP_passed c l _ _ s
  case plog =>
    refine ⟨_, congrArg Host.Outcome.next (seqIssue_acts h _), ?_⟩
    simp only [plogOp_eq_getD, ofNat_toNat_lower]
    exact writesP_passed c l _ _ s

/-! ### Branches (R104, R105) -/

section
variable {c : Nat} {l : LCore} {target : Int} {s : State}

theorem branchTo_code (h : 0 ≤ target ∧ target < l.codeBytes ∧ target % 8 = 0) :
    branchTo c l target s = setL c { nextWord l with pc := target.toNat } s := by rw [branchTo, if_pos h]

theorem branchTo_outside (h : ¬ (0 ≤ target ∧ target < l.codeBytes ∧ target % 8 = 0)) :
    branchTo c l target s = programFault c qS l.pc cBRANCH_TARGET s := by rw [branchTo, if_neg h]

end

/-- The target of a register branch as `branchTo` tests it. -/
theorem branch_target_iff (n m : Nat) : (0 ≤ (n : Int) ∧ (n : Int) < m ∧ (n : Int) % 8 = 0) ↔ (n < m ∧ n % 8 = 0) := by omega

/-- Settles O8, by the two outcomes of `branchTo`. -/
theorem branches : Obligations.Branches := by
  unfold Obligations.Branches
  refine ⟨fun c f s l h => ?br, fun c f s l h => ?brr, fun c f s l h => ?call⟩
  case br =>
    have hrow : exec (.br c f) s = .next (branchTo c l ((l.pc : Int) + 8 * f.off.toInt) s) :=
      congrArg Host.Outcome.next (seqIssue_acts h _)
    refine ⟨fun hin => ?_, fun hout => ?_⟩
    · rw [hrow, branchTo_code hin]
      rfl
    · rw [hrow, branchTo_outside hout]
  case brr =>
    have hrow : exec (.brr c f) s = .next (branchTo c l (readX l f.xa).toNat s) :=
      congrArg Host.Outcome.next (seqIssue_acts h _)
    refine ⟨fun hin => ?_, fun hout => ?_⟩
    · rw [hrow, branchTo_code ((branch_target_iff _ _).mpr hin)]
      rfl
    · rw [hrow, branchTo_outside (mt (branch_target_iff _ _).mp hout)]
  case call =>
    have hrow : exec (.call c f) s =
        .next (branchTo c (writeX 63 (BitVec.ofNat 64 (l.pc + 8)) l) ((l.pc : Int) + 8 * f.off.toInt) s) :=
      congrArg Host.Outcome.next (seqIssue_acts h _)
    refine ⟨fun hin => ?_, fun hout => ?_⟩
    · refine ⟨_, by rw [hrow, branchTo_code (by simpa using hin)], ?_, fun r => ?_⟩
      · rw [writeX_eq]
        rfl
      · exact (readX_writeX 63 r _ l).trans (if_congr (and_iff_left (by decide)) rfl rfl)
    · rw [hrow, branchTo_outside (by simpa using hout), writeX_pc]

end Sys2Proof.Machine
end

section
/-! PROOF. The S queue: loads, stores and descriptor operations (settles O9 to O11). -/
namespace Sys2Proof.Machine

/-! ### Where an access goes (R19 to R21, R241) -/

/-- A range of the own scratch window lies above HBM. -/
theorem not_hbm_of_own {s : State} {l : LCore} {a n : Nat} (hn : 0 < n) (h : whereIs s l a n = .own) : ¬ a < hbmEnd := by
  have hscr : inOwnScratch l a n = true := by
    unfold whereIs at h
    split at h
    · cases h
    · split at h
      · assumption
      · split at h <;> cases h
  have hend : hbmEnd = 0x40000000000 := rfl
  simp only [inOwnScratch, rangeIn, Bool.or_eq_true, beq_iff_eq] at hscr
  rcases hscr with hzero | hin
  · omega
  · have hlo := (of_decide_eq_true hin).1
    simp only [winBase] at hlo
    omega

theorem hbm_of_whereIs {s : State} {l : LCore} {a n : Nat} (hn : 0 < n) (h : whereIs s l a n = .hbm) : a < hbmEnd := by
  unfold whereIs at h
  split at h
  next hin =>
    simp only [Bool.and_eq_true, decide_eq_true_eq] at hin
    omega
  next =>
    split at h
    · cases h
    · split at h <;> cases h

/-- The access meets no half-line with an error: scratch has none. -/
theorem not_bad_of_clean {s : State} {l : LCore} {a n : Nat} (hn : 0 < n)
    (h : whereIs s l a n = .own ∨ whereIs s l a n = .hbm ∧ hbmBad s a n = false) : (decide (a < hbmEnd) && hbmBad s a n) = false := by
  rcases h with hown | ⟨-, hclean⟩
  · simp [not_hbm_of_own hn hown]
  · simp [hclean]

section
variable {s : State} {c : Nat} {l : LCore} {a n : Nat}

theorem accessErr_misaligned (h : a % n ≠ 0) (w : Bool) : accessErr s c l a n w = some cXF_ALIGN := by
  rw [accessErr, if_pos h]

theorem accessErr_own (ha : a % n = 0) (h : whereIs s l a n = .own) (w : Bool) : accessErr s c l a n w = none := by
  simp [accessErr, ha, h]

theorem accessErr_load (ha : a % n = 0) (h : whereIs s l a n = .own ∨ whereIs s l a n = .hbm) :
    accessErr s c l a n false = none := by
  rcases h with h | h <;> simp [accessErr, ha, h]

theorem accessErr_hbm_store (ha : a % n = 0) (hg : getL s c = some l) (h : whereIs s l a n = .hbm)
    (hst : storeAllowed s (some l) a n = true) : accessErr s c l a n true = none := by
  simp [accessErr, ha, h, hg, hst]

end

/-! ### Loads (R100, R104) -/

theorem ctrlZero_all (f : FmtD) : (!ctrlZero 0 f) = (f.ctrl != 0) := by
  have h : (f.ctrl.toNat == 0) = (f.ctrl == 0) := by
    rw [Bool.eq_iff_iff, beq_iff_eq, beq_iff_eq]
    exact ⟨fun h => BitVec.eq_of_toNat_eq h, fun h => congrArg BitVec.toNat h⟩
  rw [ctrlZero, Nat.shiftRight_zero, h, bne]

theorem exec_dld {c : Fin 256} {f : FmtD} {s : State} {l : LCore} (h : canIssue c l (reqD qS 1 f (f.ctrl != 0) [f.xa]) s = true) :
    exec (.dld c f) s = .next (match accessErr s c l (readX l f.xa).toNat 32 false with
      | some code => programFault c qS l.pc code s
      | none => if decide ((readX l f.xa).toNat < hbmEnd) && hbmBad s (readX l f.xa).toNat 32 then s
          else setL c (writeD f.dA (BitVec.ofNat 256 (s.mem.readN (readX l f.xa).toNat 32)) (nextWord l)) s) := by
  rw [← ctrlZero_all] at h
  exact congrArg Host.Outcome.next (seqIssue_acts h _)

/-- The oldest load of an S queue that holds one entry returns. -/
theorem loadReturn_alone {c : Nat} {s : State} {l : LCore} {e : QE} {xd : Nat} {v : Word} (hg : getL s c = some l)
    (hq : queue l qS = [e]) (hp : e.pl = .load xd v) (he : e.err = none) :
    loadReturn c s = pump c (setL c (writeX (BitVec.ofNat 6 xd) v (dropEntry qS 0 l)) s) := by
  simp [loadReturn, hg, hq, firstIdx, hp, he, writesReg]

theorem loadReturn_bad {c : Nat} {s : State} {l : LCore} {e : QE} (hg : getL s c = some l) (hq : queue l qS = [e])
    (he : e.err ≠ none) : loadReturn c s = s := by
  have hbad : e.err.isNone = false := by rwa [Option.isNone_eq_false_iff, Option.isSome_iff_ne_none]
  simp [loadReturn, hg, hq, firstIdx, hbad]

/-- The queues, of which all but one are known empty. -/
theorem qs_eq_of_set_empty {l : LCore} {q : Nat} {es : List QE} (hq : q ≤ 8) (h : l.qs.set q [] = List.replicate 9 [])
    (he : queue l q = es) : l.qs = (List.replicate 9 []).set q es := by
  have hlen : q < l.qs.length := by
    have := congrArg List.length h
    simp only [List.length_set, List.length_replicate] at this
    omega
  have hget : l.qs[q] = es := by rw [← he, queue, List.getD_eq_getElem?_getD, List.getElem?_eq_getElem hlen]; rfl
  rw [← h, List.set_set, ← hget, List.set_getElem_self]

/-- The only entry of an otherwise empty logical core leaves. -/
theorem dropEntry_alone {l : LCore} {q : Nat} {e : QE} (hq : q ≤ 8) (h : l.qs = (List.replicate 9 []).set q [e]) :
    dropEntry q 0 l = { l with qs := List.replicate 9 [] } := by
  have hget : l.qs[q]? = some [e] := by
    rw [h, List.getElem?_set_self (by simp only [List.length_replicate]; omega)]
  have hset : (List.replicate 9 ([] : List QE)).set q [] = List.replicate 9 [] := by interval_cases q <;> rfl
  simp only [dropEntry, modQueue, listMod_eq _ _ _ _ hget, dropAt]
  rw [h, List.set_set, hset]

/-- A logical core with empty queues starts nothing. -/
theorem pump_empty {c : Nat} {s : State} {l : LCore} (hg : getL s c = some l) (hq : l.qs = List.replicate 9 [])
    (he : l.emptyAt = []) (hb : l.block ≠ some .halt) : pump c s = s :=
  pump_none hg he hb (startOne_empty hg he fun q _ _ => queue_none hq q)

/-- Settles O9: DLD and LD by where the access goes; the return by the only entry of the queue. -/
theorem scalarLoads : Obligations.ScalarLoads := by
  unfold Obligations.ScalarLoads
  refine ⟨fun c f s l h => ?ld, fun c f s l h => ?dld, fun c s l e es rd v hg hc hb hq hes hp => ?back⟩
  case ld =>
    refine ⟨fun ha hw hroom => ?_, fun ha => ?_⟩
    · have herr := accessErr_load (c := c) ha (hw.imp_right And.left)
      refine (congrArg Host.Outcome.next (seqIssue_acts h _)).trans ?_
      simp only [herr, queueRoom, hroom, decide_true, if_true, not_bad_of_clean (by decide) hw]
      rfl
    · refine (congrArg Host.Outcome.next (seqIssue_acts h _)).trans ?_
      simp only [accessErr_misaligned ha]
  case dld =>
    refine ⟨fun ha hw => ?_, fun ha hw hbad => ?_, fun ha => ?_⟩
    · refine ⟨_, (exec_dld h).trans ?_, writesD_passed c l _ _ s⟩
      simp only [accessErr_load (c := c) ha (hw.imp_right And.left), not_bad_of_clean (by decide) hw]
      rfl
    · rw [exec_dld h]
      simp [accessErr_load (c := c) ha (.inr hw), hbm_of_whereIs (by decide) hw, hbad]
    · rw [exec_dld h]
      simp only [accessErr_misaligned ha]
  case back =>
    subst hes
    refine ⟨fun he => congrArg Host.Outcome.next (loadReturn_bad hg hq he), fun he => ?_⟩
    obtain ⟨hqs, -, hempty⟩ := coreEmpty_iff.mp hc
    have hrow : exec (.scalarLoadReturn c) s = .next (loadReturn c s) := rfl
    have hx := writeX_eq rd v { l with qs := List.replicate 9 [] }
    rw [hrow, loadReturn_alone hg hq hp he, dropEntry_alone (by decide) (qs_eq_of_set_empty (by decide) hqs hq), BitVec.ofNat_toNat,
      BitVec.setWidth_eq, pump_empty (getL_setL hg _) (by rw [hx]) (by rw [hx]; exact hempty) (by rw [hx]; exact hb)]
    exact ⟨_, rfl, hx, fun r => readX_writeX rd r v _⟩

/-! ### Stores (R104, R399) -/

theorem length_leBytes (n v : Nat) : (leBytes n v).length = n := by simp [leBytes]

/-- What is written reads back. -/
theorem bytes_writeBytes {m : Mem} (h : Memory.wf m = true) (a : Nat) (bs : List Byte) {n : Nat} (hn : bs.length = n) :
    (m.writeBytes a bs).bytes a n = bs := by
  subst hn
  refine List.ext_getElem (by simp [Mem.bytes]) fun i _ hi => ?_
  simp only [Mem.bytes, List.getElem_map, List.getElem_range]
  exact read_writeBytes_in h a bs hi

/-- A store leaves its bytes and no other. -/
theorem stored_writeBytes {m : Mem} (h : Memory.wf m = true) (a : Nat) {bs : List Byte} {n : Nat} (hn : bs.length = n) :
    (m.writeBytes a bs).bytes a n = bs ∧ ∀ b, ¬ (a ≤ b ∧ b < a + n) → (m.writeBytes a bs).read b = m.read b :=
  ⟨bytes_writeBytes h a bs hn, fun _ hb => read_writeBytes_other h a bs (by rwa [hn])⟩

/-- An aligned access lies in one granule. -/
theorem granulesOf_within {a n : Nat} (hn : 0 < n) (h : a % granBytes + n ≤ granBytes) : granulesOf a n = [a / granBytes] := by
  have hend : (a + n - 1) / granBytes = a / granBytes := by
    have hg : granBytes = 0x40000 := rfl
    rw [hg] at h ⊢
    omega
  simp [granulesOf, Nat.ne_of_gt hn, hend]

theorem within_granule {a n : Nat} (hn : n = 8 ∨ n = 32) (ha : a % n = 0) : a % granBytes + n ≤ granBytes := by
  have hg : granBytes = 0x40000 := rfl
  rw [hg]
  rcases hn with rfl | rfl <;> omega

/-- A write that lies in a granule is its own part of it. -/
theorem plainWrite_within {path : WritePath} {a : Nat} {bs : List Byte} (h : a % granBytes + bs.length ≤ granBytes) :
    (plainWrite path a bs).within (a / granBytes) = plainWrite path a bs := by
  have hg : granBytes = 0x40000 := rfl
  rw [hg] at h
  have hlo : max a (a / granBytes * granBytes) = a := by rw [hg]; omega
  have hhi : min (a + bs.length) ((a / granBytes + 1) * granBytes) = a + bs.length := by rw [hg]; omega
  simp [HWrite.within, plainWrite, hlo, hhi]

/-- A write without bits to keep is its bytes. -/
theorem plainWrite_bytes (path : WritePath) (a : Nat) (bs : List Byte) (m : Mem) : (plainWrite path a bs).bytes m = bs := by
  have hsnd : ∀ (n : Nat) (bs : List Byte), (enumFrom n bs).map (·.2) = bs := by
    intro n bs
    induction bs generalizing n with
    | nil => rfl
    | cons b bs ih => simp only [enumFrom, List.map_cons, ih]
  exact hsnd 0 bs

/-- A write to a granule that needs no copy lands (R399). -/
theorem granPut_free {g : Nat} {s : State} (h : mustHold s g = false) (w : HWrite) : granPut g w s = granLand w s := by
  simp only [mustHold, Bool.or_eq_false_iff, beq_eq_false_iff_ne] at h
  simp [granPut, h.1, h.2]

/-- A write of bytes inside a granule that needs no copy lands. -/
theorem hbmPut_free {a : Nat} {bs : List Byte} {s : State} (hb : 0 < bs.length) (h : a % granBytes + bs.length ≤ granBytes)
    (hg : mustHold s (a / granBytes) = false) : hbmPut a bs s = hbmLand a bs s := by
  simp only [hbmPut, hbmWrite]
  rw [show (plainWrite .unit a bs).a = a from rfl, show (plainWrite .unit a bs).bs = bs from rfl, granulesOf_within hb h]
  simp only [List.foldl_cons, List.foldl_nil, plainWrite_within h, granPut_free hg, granLand, plainWrite_bytes]
  rfl

/-- What landing leaves of a write inside one granule. -/
theorem hbmLand_within {a : Nat} {bs : List Byte} (hb : 0 < bs.length) (h : a % granBytes + bs.length ≤ granBytes) (s : State) :
    hbmLand a bs s = clearBad a bs.length (setGran (a / granBytes) { getGran s (a / granBytes) with dirty := true }
      { s with mem := s.mem.writeBytes a bs }) := by
  simp only [hbmLand, granulesOf_within hb h]
  rfl

theorem getGran_setGran (g : Nat) (e : Gran) (s : State) (k : Nat) :
    getGran (setGran g e s) k = if k = g then e else getGran s k := smGet_smSet _ _ g e k

/-- A core's store to its own scratch window. -/
theorem scalarStore_own {c : Nat} {l : LCore} {a : Nat} {bs : List Byte} {s : State} (h : ¬ a < hbmEnd) :
    scalarStore c l a bs s = setL c (nextWord l) { s with mem := s.mem.writeBytes a bs } := by
  simp [scalarStore, memPut, h]

/-- A core's store to HBM that needs no copy. -/
theorem scalarStore_hbm {c : Nat} {l : LCore} {a : Nat} {bs : List Byte} {s : State} (ha : a < hbmEnd) (hb : 0 < bs.length)
    (hin : a % granBytes + bs.length ≤ granBytes) (hg : mustHold s (a / granBytes) = false) :
    scalarStore c l a bs s = setL c (nextWord l) (clearBad a bs.length (setGran (a / granBytes)
      { getGran s (a / granBytes) with dirty := true } { s with mem := s.mem.writeBytes a bs })) := by
  have hput : memPut a bs s = clearBad a bs.length (setGran (a / granBytes) { getGran s (a / granBytes) with dirty := true }
      { s with mem := s.mem.writeBytes a bs }) := by
    rw [memPut, if_pos ha, hbmPut_free hb hin hg, hbmLand_within hb hin]
  have hst : (getGran s (a / granBytes)).st ≠ .copying := by
    simp only [mustHold, Bool.or_eq_false_iff, beq_eq_false_iff_ne] at hg
    exact hg.1
  have hheld : latHolds (memPut a bs s) a bs.length = false := by
    have hgran : ∀ t : State, getGran (clearBad a bs.length t) (a / granBytes) = getGran t (a / granBytes) := fun _ => rfl
    simp [latHolds, granulesOf_within hb hin, hput, hgran, getGran_setGran, hst]
  simp only [scalarStore, hheld, Bool.and_false, Bool.false_eq_true, if_false]
  rw [hput]

/-- What ST and DST have in common: a store of `n` bytes, 8 or 32, by a word that can issue. -/
theorem store_outcome {c : Nat} {l : LCore} {a n : Nat} {bs : List Byte} {s : State} (hn : n = 8 ∨ n = 32) (hlen : bs.length = n)
    (hg : getL s c = some l) (ha : a % n = 0) (hroom : (queue l qS).length < 16) (hwf : Memory.wf s.mem = true) :
    let act := match accessErr s c l a n true with
      | some code => programFault c qS l.pc code s
      | none => if queueRoom l qS then scalarStore c l a bs s else s
    let stored := fun m : Mem => m.bytes a n = bs ∧ ∀ b, ¬ (a ≤ b ∧ b < a + n) → m.read b = s.mem.read b
    (whereIs s l a n = .own → ∃ m, act = setL c (nextWord l) { s with mem := m } ∧ stored m) ∧
    (whereIs s l a n = .hbm → storeAllowed s (some l) a n = true → (getGran s (a / granBytes)).st ≠ .copying →
      needsCopy (getGran s (a / granBytes)) = false →
      ∃ m, act = setL c (nextWord l) (clearBad a n
        (setGran (a / granBytes) { getGran s (a / granBytes) with dirty := true } { s with mem := m })) ∧ stored m) := by
  have hpos : 0 < n := by omega
  subst hlen
  refine ⟨fun hown => ⟨_, ?_, stored_writeBytes hwf a rfl⟩, fun hhbm hst hcopy hneed => ⟨_, ?_, stored_writeBytes hwf a rfl⟩⟩
  · simp only [accessErr_own ha hown, queueRoom, hroom, decide_true, if_true, scalarStore_own (not_hbm_of_own hpos hown)]
  · have hfree : mustHold s (a / granBytes) = false := by simp [mustHold, hcopy, hneed]
    simp only [accessErr_hbm_store ha hg hhbm hst, queueRoom, hroom, decide_true, if_true,
      scalarStore_hbm (hbm_of_whereIs hpos hhbm) hpos (within_granule hn ha) hfree]

/-- The check of a descriptor operand that finds nothing lets the operation act. -/
theorem readsDesc_ok {l : LCore} {r : BitVec 5} (h : operandErr l [r] = none) (c : Nat) (act : LCore → State → State) (s : State) :
    readsDesc c r act l s = act l s := by rw [readsDesc, h]

theorem readsDesc_fault {l : LCore} {r : BitVec 5} {code : Code} (h : operandErr l [r] = some code) (c : Nat)
    (act : LCore → State → State) (s : State) : readsDesc c r act l s = programFault c qS l.pc code s := by rw [readsDesc, h]

/-- Settles O10: both stores by `store_outcome`. -/
theorem scalarStores : Obligations.ScalarStores := by
  unfold Obligations.ScalarStores
  refine ⟨fun c f s l h => ?st, fun c f s l h ho => ?dst⟩
  case st =>
    refine ⟨fun ha hroom hwf => ?_, fun ha => ?_⟩
    · obtain ⟨hown, hhbm⟩ := store_outcome (.inl rfl) (length_leBytes 8 (readX l f.xb).toNat) (can_get h) ha hroom hwf
      have hrow : exec (.st c f) s = .next _ := congrArg Host.Outcome.next (seqIssue_acts h _)
      exact ⟨fun hw => (hown hw).imp fun m hm => ⟨hrow.trans (congrArg _ hm.1), hm.2⟩,
        fun hw hst hc hd => (hhbm hw hst hc hd).imp fun m hm => ⟨hrow.trans (congrArg _ hm.1), hm.2⟩⟩
    · refine (congrArg Host.Outcome.next (seqIssue_acts h _)).trans ?_
      simp only [accessErr_misaligned ha]
  case dst =>
    rw [← ctrlZero_all] at h
    have hrow : exec (.dst c f) s = .next _ :=
      congrArg Host.Outcome.next ((seqIssue_acts h _).trans (readsDesc_ok ho _ _ _))
    refine ⟨fun ha hroom hwf => ?_, fun ha => ?_⟩
    · obtain ⟨hown, hhbm⟩ := store_outcome (.inr rfl) (length_leBytes 32 (readD l f.dA).toNat) (can_get h) ha hroom hwf
      exact ⟨fun hw => (hown hw).imp fun m hm => ⟨hrow.trans (congrArg _ hm.1), hm.2⟩,
        fun hw hst hc hd => (hhbm hw hst hc hd).imp fun m hm => ⟨hrow.trans (congrArg _ hm.1), hm.2⟩⟩
    · refine hrow.trans ?_
      simp only [accessErr_misaligned ha]

/-! ### Descriptor operations (R110, R111) -/

theorem getLsbD_ofNat_testBit (n x i : Nat) : (BitVec.ofNat n x).getLsbD i = (decide (i < n) && x.testBit i) :=
  BitVec.getLsbD_ofNat n x i

/-- The bits of a descriptor after a field is put. -/
theorem getLsbD_putField {p n : Nat} (h : p + n ≤ 256) (d : Desc) (x : Word) (i : Nat) :
    (BitVec.ofNat 256 (putBits d.toNat p n x.toNat)).getLsbD i =
      if p ≤ i ∧ i < p + n then x.getLsbD (i - p) else d.getLsbD i := by
  rw [getLsbD_ofNat_testBit, testBit_putBits]
  by_cases hi : i < 256
  · rw [decide_eq_true hi, Bool.true_and]
    rfl
  · have hout : ¬ (p ≤ i ∧ i < p + n) := by omega
    simp only [if_neg hout, decide_eq_false hi, Bool.false_and, BitVec.getLsbD_of_ge d i (by omega)]

theorem getLsbD_getField {n : Nat} (h : n ≤ 64) (d : Desc) (p i : Nat) :
    (BitVec.ofNat 64 (bits d.toNat p n)).getLsbD i = (decide (i < n) && d.getLsbD (p + i)) := by
  rw [getLsbD_ofNat_testBit, testBit_bits]
  by_cases hi : i < n
  · have h64 : i < 64 := by omega
    simp [hi, h64, BitVec.getLsbD]
  · simp [hi]

theorem fieldLen_le (f : FmtD) : fieldLen f ≤ 64 := by
  have := Nat.mod_lt (f.ctrl.toNat >>> 8) (Nat.two_pow_pos 6)
  simp only [fieldLen, bits]
  omega

theorem field_fits {f : FmtD} (h : fieldUndef f = false) : fieldPos f + fieldLen f ≤ 256 := by
  simp only [fieldUndef, Bool.or_eq_false_iff, decide_eq_false_iff_not] at h
  omega

/-- What DADV makes of a descriptor that it can move (R110). -/
theorem dadv_moves {d : Desc} {i : Nat} {x : Word} {adv : Int} (hadv : adv = x.toInt * dStride d i * dBits d)
    (hok : adv % 512 = 0 ∧ i < dRank d ∧ 0 ≤ (dBase d : Int) + adv / 8 ∧ (dBase d : Int) + adv / 8 < 2 ^ 43) :
    ∃ v, dadv d i x = some v ∧ (dBase v : Int) = dBase d + adv / 8 ∧ v.extractLsb' 37 219 = d.extractLsb' 37 219 := by
  subst hadv
  obtain ⟨hunit, hrank, hlo, hhi⟩ := hok
  refine ⟨_, by rw [dadv, if_neg (by omega)], ?_, ?_⟩
  · set a : Int := (dBase d : Int) + x.toInt * dStride d i * dBits d / 8 with ha
    have hmul : a % 64 = 0 := by
      simp only [ha, dBase]
      push_cast
      omega
    have hsmall : (a / 64).toNat < 2 ^ 37 := by omega
    have hfit : putBits d.toNat 0 37 (a / 64).toNat < 2 ^ 256 := by
      refine Nat.lt_pow_two_of_testBit _ fun j hj => ?_
      rw [testBit_putBits, if_neg (by omega)]
      exact Nat.testBit_eq_false_of_lt (Nat.lt_of_lt_of_le d.isLt (Nat.pow_le_pow_right (by omega) hj))
    have hbase : dBase (BitVec.ofNat 256 (putBits d.toNat 0 37 (a / 64).toNat)) = (a / 64).toNat * 64 := by
      rw [dBase, dF, BitVec.toNat_ofNat, Nat.mod_eq_of_lt hfit, bits_putBits_same, Nat.mod_eq_of_lt hsmall]
    rw [hbase]
    omega
  · refine BitVec.eq_of_getLsbD_eq fun j hj => ?_
    rw [BitVec.getLsbD_extractLsb', BitVec.getLsbD_extractLsb', getLsbD_ofNat_testBit, testBit_putBits, if_neg (by omega)]
    have h256 : 37 + j < 256 := by omega
    simp [hj, h256, BitVec.getLsbD]

theorem dadv_refuses {d : Desc} {i : Nat} {x : Word} {adv : Int} (hadv : adv = x.toInt * dStride d i * dBits d)
    (hbad : ¬ (adv % 512 = 0 ∧ i < dRank d ∧ 0 ≤ (dBase d : Int) + adv / 8 ∧ (dBase d : Int) + adv / 8 < 2 ^ 43)) :
    dadv d i x = none := by
  subst hadv
  rw [dadv, if_pos (by omega)]

/-- Settles O11: each operation by what it makes of the descriptor's bits; those that read one by its check. -/
theorem descriptorOperations : Obligations.DescriptorOperations := by
  unfold Obligations.DescriptorOperations
  refine ⟨fun c f s l h => ?dins, fun c f s l h ho => ?dext, fun c f s l h ho => ?dmov, fun c f s l h ho => ?dadv,
    fun c f s l row hrow r code hi h ho => ?faults⟩
  case dins =>
    exact ⟨_, _, congrArg Host.Outcome.next (seqIssue_acts h _), writesD_passed c l _ _ s,
      getLsbD_putField (field_fits (canIssue_wordOk h).1) _ _⟩
  case dext =>
    exact ⟨_, _, congrArg Host.Outcome.next ((seqIssue_acts h _).trans (readsDesc_ok ho _ _ _)), writesX_passed c l _ _ s,
      getLsbD_getField (fieldLen_le f) _ _⟩
  case dmov =>
    rw [← ctrlZero_all] at h
    exact ⟨_, congrArg Host.Outcome.next ((seqIssue_acts h _).trans (readsDesc_ok ho _ _ _)), writesD_passed c l _ _ s⟩
  case dadv =>
    have hact : exec (.dadv c f) s = .next _ := congrArg Host.Outcome.next ((seqIssue_acts h _).trans (readsDesc_ok ho _ _ _))
    refine ⟨fun hok => ?_, fun hbad => ?_⟩
    · obtain ⟨v, hv, hbase, hrest⟩ := dadv_moves rfl hok
      refine ⟨_, v, hact.trans ?_, writesD_passed c l _ _ s, hbase, hrest⟩
      rw [show bits f.ctrl.toNat 0 3 = f.ctrl.toNat % 8 from rfl, hv]
    · rw [hact, show bits f.ctrl.toNat 0 3 = f.ctrl.toNat % 8 from rfl, dadv_refuses rfl hbad]
  case faults =>
    simp only [List.mem_cons, List.not_mem_nil, or_false] at hrow
    rcases hrow with rfl | rfl | rfl | rfl
    all_goals
      obtain ⟨-, rfl⟩ := Prod.mk.inj (Option.some.inj hi)
      exact congrArg Host.Outcome.next ((seqIssue_acts h _).trans (readsDesc_fault ho _ _ _))

end Sys2Proof.Machine
end

section
/-! PROOF. Register fields (settles O27) and the records of the error ring (settles O28). -/
namespace Sys2Proof.Machine

/-! ### Register fields -/

theorem fldApart_of {f g : Fld} (h : f.addr ≠ g.addr ∨ g.lo + g.w ≤ f.lo ∨ f.lo + f.w ≤ g.lo) : fldApart f g = true := by
  rcases h with h | h | h <;> simp [fldApart, h]

/-- Settles O27: the laws of one field, for the field itself and for one that shares no bit with it. -/
theorem registerFields : Obligations.RegisterFields := fun f g v s hf =>
  ⟨fld_setFld_same s f v hf, fld_addFld_same s f v hf, fun h =>
    ⟨fld_setFld_apart s v hf (fldApart_of h), fld_addFld_apart s v hf (fldApart_of h)⟩⟩

/-! ### Sparse data by key -/

theorem smFind_smPut_same {α : Type} (m : SMap α) (k : Nat) (v : α) : smFind (smPut m k v) k = some v := by
  induction m with
  | nil => simp [smPut, smFind]
  | cons e m ih =>
    obtain ⟨k', v'⟩ := e
    simp only [smPut]
    split
    · simp [smFind]
    · split
      · simp [smFind]
      · rename_i h; simpa [smFind, h] using ih

theorem smFind_smPut_other {α : Type} (m : SMap α) {k j : Nat} (v : α) (h : j ≠ k) : smFind (smPut m k v) j = smFind m j := by
  induction m with
  | nil => simp [smPut, smFind, h]
  | cons e m ih =>
    obtain ⟨k', v'⟩ := e
    simp only [smPut]
    split
    · simp [smFind, h]
    · split
      · rename_i hk; subst hk; simp [smFind, h]
      · simp only [smFind, ih]

/-! ### What marking a class pending leaves of the ring -/


theorem fld_errSend (b : Bool) (cls : Nat) (s : State) (g : Fld) : fld (errSend b cls s) g = fld s g := by
  cases b
  · simp only [errSend, Bool.false_eq_true, if_false]; split <;> rfl
  · simp only [errSend, if_true]; split <;> rfl

theorem fld_errMark (b : Bool) (cls : Nat) (s : State) {g : Fld} (h : fldApart ERR_PEND_PENDING g = true) :
    fld (errMark b cls s) g = fld s g := by
  unfold errMark
  split <;> split
  · exact fld_setFld_apart _ _ (by decide) h
  · exact fld_errSend _ _ _ _
  · exact fld_setFld_apart _ _ (by decide) h
  · exact fld_errSend _ _ _ _

theorem errSend_err (b : Bool) (cls : Nat) (s : State) : (errSend b cls s).err = s.err := by
  cases b
  · simp only [errSend, Bool.false_eq_true, if_false]; split <;> rfl
  · simp only [errSend, if_true]; split <;> rfl

theorem errMark_recs (b : Bool) (cls : Nat) (s : State) : (errMark b cls s).err.recs = s.err.recs := by
  unfold errMark
  split <;> split
  · rfl
  · rw [errSend_err]
  · rfl
  · rw [errSend_err]

theorem errMark_written (b : Bool) (cls : Nat) (s : State) : (errMark b cls s).err.written = s.err.written := by
  unfold errMark
  split <;> split
  · rfl
  · rw [errSend_err]
  · rfl
  · rw [errSend_err]

/-! ### What a report of a non-fatal code does, case by case (R523 to R525) -/

section
variable {code : Code} {src : Nat} {detail : Word} {s : State} (hc : code.fatal = false)
include hc

/-- The record of a new non-fatal report. -/
def newRecord (code : Code) (src : Nat) (detail : Word) (s : State) : ERec :=
  { seq := fld s ERR_STAT_SEQ_NEXT, code := code, fatal := false, locked := isLocked s, journaled := false, coalesced := false,
    source := src, count := 1, firstTick := tickNow s, span := 0, time := sysTime s, detail := detail, copy := (copyNext s).1 }

theorem report_new (hm : errMatch s false code src = none) (hu : errUsed s false < 4032) :
    report code src detail s = errMark false (code.toNat / 256)
      (setFld ERR_STAT_SEQ_NEXT (fld s ERR_STAT_SEQ_NEXT + 1) (setFld ERR_GEN_TAIL (fld s ERR_GEN_TAIL + 1)
        { s with err := { s.err with recs := smPut s.err.recs (errSlot false s.err.written) (newRecord code src detail s),
                                     written := s.err.written + 1 } })) := by
  have hfull : ¬ genArea ≤ errUsed s false := by simp only [genArea]; omega
  simp only [report, hc, hm, Bool.false_eq_true, if_false, ge_iff_le, hfull]
  have e (u : State) (v : Nat) : fld (setFld ERR_GEN_TAIL v u) ERR_STAT_SEQ_NEXT = fld u ERR_STAT_SEQ_NEXT :=
    fld_setFld_apart u v (by decide) (by decide)
  rw [e]
  rfl

theorem report_coalesced {k : Nat} {r : ERec} (hm : errMatch s false code src = some k) (hr : smFind s.err.recs k = some r) :
    report code src detail s = errMark false (code.toNat / 256)
      { s with err := { s.err with recs := smPut s.err.recs k { r with
          count := satAdd 16 r.count 1, span := min (tickNow s - r.firstTick) 65535, detail := detail, coalesced := true } } } := by
  simp only [report, hc, hm, hr, Bool.false_eq_true, if_false]

theorem report_full (hm : errMatch s false code src = none) (hu : 4032 ≤ errUsed s false) :
    report code src detail s = errLost (code.toNat / 256) s := by
  have hfull : genArea ≤ errUsed s false := hu
  simp only [report, hc, hm, Bool.false_eq_true, if_false, ge_iff_le, hfull, if_true]

end

/-- The lost counters lie in registers of their own, above ERR_GEN. -/
theorem lost_apart_tail (cls : Nat) : fldApart ⟨rERR_LOST (cls / 4), 16 * (cls % 4), 16⟩ ERR_GEN_TAIL = true := by
  have h : rERR_LOST (cls / 4) ≠ rERR_GEN := by simp only [rERR_LOST, rERR_GEN]; omega
  exact fldApart_of (.inl h)

/-- Settles O28: the three cases of a non-fatal report, and `report_changes`. -/
theorem reportRecordsCode : Obligations.ReportRecordsCode := by
  unfold Obligations.ReportRecordsCode
  intro code src detail s hc
  refine ⟨fun hm hu => ?_, fun k r hm hr => ?_, fun hm hu => ?_, by simp⟩
  · rw [report_new hc hm hu]
    refine ⟨⟨newRecord code src detail s, ?_, rfl, rfl, rfl, rfl, rfl, rfl, rfl⟩, ?_, ?_, ?_⟩
    · rw [errMark_recs]
      exact smFind_smPut_same _ _ _
    · rw [errMark_written]; rfl
    · rw [fld_errMark _ _ _ (by decide), fld_setFld_apart _ _ (by decide) (by decide), fld_setFld_same _ _ _ (by decide)]
      rfl
    · rw [fld_errMark _ _ _ (by decide), fld_setFld_same _ _ _ (by decide)]
      rfl
  · rw [report_coalesced hc hm hr]
    refine ⟨⟨_, (congrArg (smFind · k) (errMark_recs _ _ _)).trans (smFind_smPut_same _ _ _), rfl⟩, fun j hj => ?_, ?_⟩
    · rw [errMark_recs]
      exact smFind_smPut_other _ _ hj
    · rw [fld_errMark _ _ _ (by decide)]
      rfl
  · rw [report_full hc hm hu]
    refine ⟨rfl, fld_addFld_apart _ _ ?_ (lost_apart_tail _), fun _ => fld_addFld_same _ _ _ ?_⟩ <;> dsimp only <;> omega

end Sys2Proof.Machine
end

section
/-! PROOF. What sending, posting and reporting leave unchanged: frames that the proofs of the module's commands cite. -/
namespace Sys2Proof.Machine

/-! ### Changes of the registers alone -/

/-- Two states that differ at most in the registers. -/
def RegFrame (s t : State) : Prop := t = { s with regs := t.regs }

theorem RegFrame.refl (s : State) : RegFrame s s := rfl

theorem RegFrame.setFld {z s : State} (h : RegFrame z s) (f : Fld) (v : Nat) : RegFrame z (setFld f v s) := by
  unfold RegFrame at *
  rw [h]
  rfl

theorem RegFrame.addFld {z s : State} (h : RegFrame z s) (f : Fld) (v : Nat) : RegFrame z (addFld f v s) := h.setFld f _

theorem RegFrame.ite {c : Prop} [Decidable c] {s t u : State} (ht : RegFrame s t) (hu : RegFrame s u) :
    RegFrame s (if c then t else u) := by
  split
  · exact ht
  · exact hu

/-! ### Changes of the fabric alone -/

/-- Two states that differ at most in the fabric's state. -/
def FabFrame (s t : State) : Prop := t = { s with fab := t.fab }

theorem FabFrame.refl (s : State) : FabFrame s s := rfl

theorem FabFrame.trans {s t u : State} (h : FabFrame s t) (k : FabFrame t u) : FabFrame s u := by
  unfold FabFrame at *
  rw [k, h]

/-- `trans` with the later change first, which names the state between. -/
theorem FabFrame.after {s t u : State} (k : FabFrame t u) (h : FabFrame s t) : FabFrame s u := h.trans k

theorem FabFrame.fld {s t : State} (h : FabFrame s t) (g : Fld) : fld t g = fld s g := by rw [h]; rfl

theorem FabFrame.ite {c : Prop} [Decidable c] {s t u : State} (ht : FabFrame s t) (hu : FabFrame s u) :
    FabFrame s (if c then t else u) := by
  split
  · exact ht
  · exact hu

theorem FabFrame.foldl {α : Type} {f : State → α → State} (h : ∀ s a, FabFrame s (f s a)) (l : List α) (s : State) :
    FabFrame s (l.foldl f s) := by
  induction l generalizing s with
  | nil => exact .refl s
  | cons a l ih => exact (h s a).trans (ih (f s a))

theorem enqueue_frame (n : Nat) (p : Packet) (s : State) : FabFrame s (enqueue n p s) := rfl

theorem sendFrom_frame {die : Nat} {p : Packet} {s t : State} (h : sendFrom die p s = some t) : FabFrame s t := by
  unfold sendFrom at h
  dsimp only at h
  repeat' split at h
  · cases h
  · cases h; rfl
  · cases h
  · cases h
  · cases h; rfl
  · obtain ⟨n, -, rfl⟩ := Option.map_eq_some_iff.mp h; rfl

theorem sendOrDrop_frame (die : Nat) (p : Packet) (s : State) : FabFrame s (sendOrDrop die p s) := by
  unfold sendOrDrop
  cases h : sendFrom die p s with
  | none => exact .refl s
  | some t => exact sendFrom_frame h

theorem sendCtl_frame (m : Member) (c : Ctl) (s : State) : FabFrame s (sendCtl m c s) := by
  unfold sendCtl
  exact .ite rfl (sendOrDrop_frame _ _ s)

theorem floodCtl_frame (c : Ctl) (s : State) : FabFrame s (floodCtl c s) :=
  .foldl (fun s n => .ite (enqueue_frame n _ s) (.refl s)) _ s

theorem sendRoot_frame (c : Ctl) (s : State) : FabFrame s (sendRoot c s) := by
  unfold sendRoot
  cases rootOf s with
  | none =>
    dsimp only
    split
    · exact sendCtl_frame _ _ s
    · exact .refl s
  | some m =>
    dsimp only
    split
    · exact (sendCtl_frame m c s).trans (sendCtl_frame _ _ _)
    · exact sendCtl_frame m c s

theorem sendChildren_frame (c : Ctl) (s : State) : FabFrame s (sendChildren c s) := by
  unfold sendChildren
  split
  · exact .foldl (fun _ _ => sendCtl_frame _ _ _) _ s
  · exact .refl s

theorem sendPlain_frame (m : Member) (d e : Nat) (b : Body) (s : State) : FabFrame s (sendPlain m d e b s) :=
  sendOrDrop_frame _ _ s

theorem ackSend_frame (k : AckKey) (s : State) : FabFrame s (ackSend k s) := by
  unfold ackSend
  split
  · exact .refl s
  · exact FabFrame.after (sendPlain_frame _ _ _ _ _) rfl

theorem ackOwe_frame (d : Nat) (p : Packet) (s : State) : FabFrame s (ackOwe d p s) := by
  unfold ackOwe
  refine .ite (.refl s) ?_
  dsimp only
  split
  · exact .ite (FabFrame.after (ackSend_frame _ _) rfl) rfl
  · exact FabFrame.after (ackSend_frame _ _) rfl

theorem creditBack_frame (p : Packet) (s : State) : FabFrame s (creditBack p s) := by
  unfold creditBack
  split
  · rfl
  · exact .refl s

theorem takeInbound_frame (f : Packet → Bool) (s : State) : FabFrame s (takeInbound f s).2 := by
  unfold takeInbound
  split
  · exact .refl s
  · dsimp only
    split
    · exact FabFrame.after (creditBack_frame _ _) rfl
    · rfl

theorem takeCtl_frame (c : Ctl) (s : State) : FabFrame s (takeCtl c s) := takeInbound_frame _ s

/-! ### Registers that reports do not write -/

/-- The registers in which reports are counted and shown: the error ring's own and `JNL_COUNT`. -/
def reportReg (a : Nat) : Bool := a == rJNL_COUNT || (decide (rERR_GEN ≤ a) && decide (a < rERR_LOST 64))

theorem apart_of_not_reportReg {f g : Fld} (hg : reportReg g.addr = false) (hf : reportReg f.addr = true) : fldApart f g = true :=
  fldApart_of (.inl fun h => by rw [h, hg] at hf; cases hf)

theorem reportReg_lost (c : Code) : reportReg (rERR_LOST (c.toNat / 256 / 4)) = true := by
  have := c.isLt
  have lo : rERR_GEN ≤ rERR_LOST (c.toNat / 256 / 4) := by simp only [rERR_GEN, rERR_LOST]; omega
  have hi : rERR_LOST (c.toNat / 256 / 4) < rERR_LOST 64 := by simp only [rERR_LOST]; omega
  simp [reportReg, lo, hi]

theorem fld_fatalCopy (r : ERec) (s : State) {g : Fld} (h : fldApart JNL_COUNT_WRITES g = true) :
    fld (fatalCopy r s) g = fld s g := by
  unfold fatalCopy jnlPut
  dsimp only
  rw [fld_addFld_apart _ _ (by decide) h]
  exact fld_addFld_apart _ _ (by decide) h

theorem fld_withErr (s : State) (e : ErrSt) (g : Fld) : fld { s with err := e } g = fld s g := rfl

theorem fld_report (code : Code) (src : Nat) (d : Word) (s : State) {g : Fld} (hg : reportReg g.addr = false) :
    fld (report code src d s) g = fld s g := by
  have apart {f : Fld} (hf : reportReg f.addr = true) : fldApart f g = true := apart_of_not_reportReg hg hf
  have hpend : fldApart ERR_PEND_PENDING g = true := apart (by decide)
  have hjnl : fldApart JNL_COUNT_WRITES g = true := apart (by decide)
  have htail (u : State) (v : Nat) : fld (setFld ERR_GEN_TAIL v u) g = fld u g :=
    fld_setFld_apart u v (by decide) (apart (by decide))
  have htailF (u : State) (v : Nat) : fld (setFld ERR_RSV_TAIL v u) g = fld u g :=
    fld_setFld_apart u v (by decide) (apart (by decide))
  have hseq (u : State) (v : Nat) : fld (setFld ERR_STAT_SEQ_NEXT v u) g = fld u g :=
    fld_setFld_apart u v (by decide) (apart (by decide))
  have hfl (u : State) : fld (addFld ERR_STAT_FATAL_LOST 1 u) g = fld u g :=
    fld_addFld_apart u 1 (by decide) (apart (by decide))
  have hlost (u : State) : fld (errLost (code.toNat / 256) u) g = fld u g :=
    fld_addFld_apart _ _ (by dsimp only; omega) (apart (reportReg_lost code))
  have hcopy (r : ERec) (u : State) := fld_fatalCopy r u hjnl
  unfold report
  dsimp only
  split
  · split
    · rfl
    · rw [fld_errMark _ _ _ hpend]
      split
      · exact fld_addFld_apart _ _ (by decide) hjnl
      · rfl
  · cases code.fatal with
    | true =>
      simp only [if_true]
      split
      · rw [hfl, hlost, hcopy]
      · rw [fld_errMark _ _ _ hpend, hseq, htailF, fld_withErr, fld_withErr, hcopy]
    | false =>
      simp only [Bool.false_eq_true, if_false]
      split
      · rw [hlost]
      · rw [fld_errMark _ _ _ hpend, hseq, htail, fld_withErr, fld_withErr]

/-! ### Changes of registers, fabric, hosts, journal and error ring -/

/-- Two states that differ at most in what sending, posting, journalling and reporting write. -/
def MsgFrame (s t : State) : Prop :=
  t = { s with regs := t.regs, fab := t.fab, host := t.host, jnl := t.jnl, err := t.err }

theorem MsgFrame.refl (s : State) : MsgFrame s s := rfl

theorem MsgFrame.trans {s t u : State} (h : MsgFrame s t) (k : MsgFrame t u) : MsgFrame s u := by
  unfold MsgFrame at *
  rw [k, h]

/-- `trans` with the later change first, which names the state between. -/
theorem MsgFrame.after {s t u : State} (k : MsgFrame t u) (h : MsgFrame s t) : MsgFrame s u := h.trans k

theorem FabFrame.msg {s t : State} (h : FabFrame s t) : MsgFrame s t := by
  unfold FabFrame MsgFrame at *
  rw [h]

theorem MsgFrame.ite {c : Prop} [Decidable c] {s t u : State} (ht : MsgFrame s t) (hu : MsgFrame s u) :
    MsgFrame s (if c then t else u) := by
  split
  · exact ht
  · exact hu

theorem MsgFrame.foldl {α : Type} {f : State → α → State} (h : ∀ s a, MsgFrame s (f s a)) (l : List α) (s : State) :
    MsgFrame s (l.foldl f s) := by
  induction l generalizing s with
  | nil => exact .refl s
  | cons a l ih => exact (h s a).trans (ih (f s a))

section
variable {s t : State} (h : MsgFrame s t)
include h
theorem MsgFrame.mem : t.mem = s.mem := by unfold MsgFrame at h; rw [h]
theorem MsgFrame.lcores : t.lcores = s.lcores := by unfold MsgFrame at h; rw [h]
theorem MsgFrame.pcores : t.pcores = s.pcores := by unfold MsgFrame at h; rw [h]
theorem MsgFrame.img : t.img = s.img := by unfold MsgFrame at h; rw [h]
theorem MsgFrame.step : t.step = s.step := by unfold MsgFrame at h; rw [h]
theorem MsgFrame.lat : t.lat = s.lat := by unfold MsgFrame at h; rw [h]
theorem MsgFrame.frame : t.frame = s.frame := by unfold MsgFrame at h; rw [h]
theorem MsgFrame.power : t.power = s.power := by unfold MsgFrame at h; rw [h]
theorem MsgFrame.fuses : t.fuses = s.fuses := by unfold MsgFrame at h; rw [h]
theorem MsgFrame.now : t.now = s.now := by unfold MsgFrame at h; rw [h]
theorem MsgFrame.peer : t.peer = s.peer := by unfold MsgFrame at h; rw [h]
theorem MsgFrame.arc : t.arc = s.arc := by unfold MsgFrame at h; rw [h]
theorem MsgFrame.kpr : t.kpr = s.kpr := by unfold MsgFrame at h; rw [h]
theorem MsgFrame.pwr : t.pwr = s.pwr := by unfold MsgFrame at h; rw [h]
theorem MsgFrame.sec : t.sec = s.sec := by unfold MsgFrame at h; rw [h]
end

/-- What messages write may be anything. -/
theorem MsgFrame.set {z s : State} (h : MsgFrame z s) (r : SMap Word) (f : FabSt) (o : HostSt) (j : JnlSt) (e : ErrSt) :
    MsgFrame z { s with regs := r, fab := f, host := o, jnl := j, err := e } := by
  unfold MsgFrame at *
  rw [h]

/-! One lemma per operation: it keeps the frame that its state had. -/

section
variable {z s : State}

theorem setReg_msg (h : MsgFrame z s) (a : Nat) (v : Word) : MsgFrame z (setReg s a v) := h.set _ _ _ _ _
theorem setFld_msg (h : MsgFrame z s) (f : Fld) (v : Nat) : MsgFrame z (setFld f v s) := h.set _ _ _ _ _
theorem addFld_msg (h : MsgFrame z s) (f : Fld) (v : Nat) : MsgFrame z (addFld f v s) := h.set _ _ _ _ _
theorem sendMsi_msg (h : MsgFrame z s) (n v : Nat) : MsgFrame z (sendMsi n v s) := h.set _ _ _ _ _
theorem jnlPut_msg (h : MsgFrame z s) (k : Nat) (b : List Byte) : MsgFrame z (jnlPut k b s) := h.set _ _ _ _ _
theorem withHost_msg (h : MsgFrame z s) (o : HostSt) : MsgFrame z { s with host := o } := h.set _ _ _ _ _
theorem withJnl_msg (h : MsgFrame z s) (j : JnlSt) : MsgFrame z { s with jnl := j } := h.set _ _ _ _ _
theorem withFab_msg (h : MsgFrame z s) (f : FabSt) : MsgFrame z { s with fab := f } := h.set _ _ _ _ _
theorem sendCtl_msg (h : MsgFrame z s) (m : Member) (c : Ctl) : MsgFrame z (sendCtl m c s) := h.trans (sendCtl_frame m c s).msg

/-- A state that agrees in every field but those of messages. -/
theorem ReportFrame.msg {t : State} (h : ReportFrame s t) : MsgFrame s t := by
  obtain ⟨h0, h1, h2, h3, h4, h5, h6, h7, h8, h9, h10, h11, h12, h13, h14, h15, h16, h17, h18⟩ := h
  cases s; cases t
  cases h0; cases h1; cases h2; cases h3; cases h4; cases h5; cases h6; cases h7; cases h8; cases h9
  cases h10; cases h11; cases h12; cases h13; cases h14; cases h15; cases h16; cases h17; cases h18
  rfl

theorem report_msg (h : MsgFrame z s) (c : Code) (src : Nat) (d : Word) : MsgFrame z (report c src d s) :=
  h.trans (report_changes c src d s).msg

theorem reportCore_msg (h : MsgFrame z s) (c : Code) (u p : Nat) (d : Word) : MsgFrame z (reportCore c u p d s) :=
  report_msg h _ _ _

theorem raiseVec_msg (h : MsgFrame z s) (n v : Nat) : MsgFrame z (raiseVec n v s) := by
  unfold raiseVec
  exact .ite (sendMsi_msg (withHost_msg h _) _ _) (.ite h (withHost_msg h _))

theorem setRing_msg (h : MsgFrame z s) (n q : Nat) (r : CRing) : MsgFrame z (setRing n q r s) := withHost_msg h _

theorem ringWrite_msg (h : MsgFrame z s) (n q : Nat) (e : CEnt) : MsgFrame z (ringWrite n q e s) := by
  unfold ringWrite
  exact raiseVec_msg (setFld_msg (setRing_msg h _ _ _) _ _) _ _

theorem ringOverflow_msg (h : MsgFrame z s) (n q : Nat) : MsgFrame z (ringOverflow n q s) := by
  unfold ringOverflow
  exact .ite (ringWrite_msg (setRing_msg h _ _ _) _ _ _) h

theorem postOn_msg (h : MsgFrame z s) (n q : Nat) (e : CEnt) : MsgFrame z (postOn n q e s) := by
  have ho := ringOverflow_msg h n q
  unfold postOn
  exact .ite h (.ite (ringWrite_msg ho _ _ _) (addFld_msg (setRing_msg ho _ _ _) _ _))

theorem post_msg (h : MsgFrame z s) (q : Nat) (e : CEnt) : MsgFrame z (post q e s) := postOn_msg (postOn_msg h _ _ _) _ _ _
theorem postNotice_msg (h : MsgFrame z s) (q k n : Nat) : MsgFrame z (postNotice q k n s) := post_msg h _ _

theorem jWrite_msg (h : MsgFrame z s) (k : Nat) (e : JEntry) : MsgFrame z (jWrite k e s) := by
  have hj := addFld_msg (withJnl_msg h { s.jnl with own := smPut s.jnl.own k e }) JNL_COUNT_WRITES 1
  unfold jWrite
  dsimp only
  split
  · exact .ite (sendCtl_msg hj _ _) hj
  · exact hj

theorem ctlBlock_msg (h : MsgFrame z s) (q : Nat) : MsgFrame z (ctlBlock q s) := jnlPut_msg h _ _

theorem jRetain_msg (h : MsgFrame z s) (q : Nat) : MsgFrame z (jRetain q s) := by
  unfold jRetain
  refine .ite (setFld_msg ?_ _ _) (.ite (setFld_msg ?_ _ _) ?_) <;> exact setFld_msg (withJnl_msg h _) _ _

theorem completeTicket_msg (h : MsgFrame z s) (q : Nat) (seq : Word) (c : Code) (d : Word) (r : Bool) :
    MsgFrame z (completeTicket q seq c d r s) := by
  unfold completeTicket
  split
  · exact h
  · refine .ite h (jRetain_msg (post_msg (.ite (addFld_msg ?_ _ _) ?_) _ _) _) <;>
      exact ctlBlock_msg (setReg_msg (jWrite_msg h _ _) _ _) _

theorem completeLoad_msg (h : MsgFrame z s) (i : Image) (c : Code) (d : Word) : MsgFrame z (completeLoad i c d s) := by
  have hc := completeTicket_msg h i.q i.seq c d false
  unfold completeLoad
  dsimp only
  split
  · exact completeTicket_msg hc _ _ _ _ _
  · exact hc

end

end Sys2Proof.Machine
end

section
/-! PROOF. The frame unit: a correction does not always only mark the window closed (refutes O29), and the first parent estimate
(settles O30). -/
namespace Sys2Proof.Machine

/-! ### The close of the window at a PULSE module without a parent -/

/-- A powered PULSE module in HOLDOVER without a parent that has had a correction in this frame: it awaits a packet of a new parent, so the
frame counts as a holdover frame all the same (assumption 55). -/
def parentless : State :=
  setFld FRM_STAT_STATE 3 (setFld FRM_CTRL_ROLE 1
    { State.reset with frame := { frameReset with corr := some (0, 0) } })

/-- Refutes O29 in its last clause: at `parentless` the close of the window counts a holdover frame, although a correction came. -/
theorem not_framesBeginAndHoldOver : ¬ Obligations.FramesBeginAndHoldOver := by
  unfold Obligations.FramesBeginAndHoldOver
  rintro ⟨-, -, hclose⟩
  have h := hclose parentless (by decide +kernel) (by decide +kernel) (by decide +kernel)
  have hnext : exec .correctionWindowClose parentless = .next (windowClose parentless) :=
    liveNext_of_live (by decide +kernel) _
  have hcount : fld (windowClose parentless) FRM_COUNT_HOLDOVER_FRAMES = 0 := by
    rw [Host.Outcome.next.inj (hnext.symm.trans h)]
    decide +kernel
  exact absurd hcount (by decide +kernel)

/-! ### The correction of a FREE unit -/

/-- A unit that has not come to lock fires no held event. -/
theorem lockFire_unlocked {before : Nat} {s : State} (h : fState s < 2) : lockFire before s = s :=
  if_neg fun hc => by omega

theorem fld_setFState_apart {g : Fld} (v : Nat) (s : State) (h1 : fldApart FRM_STAT_STATE g = true)
    (h2 : fldApart FRM_STAT_LOCKED g = true) : fld (setFState v s) g = fld s g :=
  (fld_setFld_apart _ _ (by decide) h2).trans (fld_setFld_apart _ _ (by decide) h1)

theorem fld_modFrame (f : FrameSt → FrameSt) (s : State) (g : Fld) : fld (modFrame f s) g = fld s g := rfl

/-- The registers that a correction writes besides the lock state: the measured period and the skew. -/
def corrRegs (p : Option Nat) (off : Int) (s : State) : State :=
  let s := match p with
    | some p => setFld FRM_PERIOD_MEASURED (min p (2 ^ 27 - 1)) s
    | none => s
  setFld FRM_SKEW_MAX_ABS (max (min off.natAbs 65535) (fld s FRM_SKEW_MAX_ABS)) (setFld FRM_SKEW_LAST_OFFSET (off % 65536).toNat s)

theorem fld_corrRegs {g : Fld} (p : Option Nat) (off : Int) (s : State) (h : g.addr = rFRM_STAT) :
    fld (corrRegs p off s) g = fld s g := by
  have apart {f : Fld} (hf : f.addr ≠ rFRM_STAT) : fldApart f g = true := fldApart_of (.inl fun e => hf (e.trans h))
  have skew (u : State) (a b : Nat) : fld (setFld FRM_SKEW_MAX_ABS a (setFld FRM_SKEW_LAST_OFFSET b u)) g = fld u g :=
    (fld_setFld_apart _ a (by decide) (apart (by decide))).trans (fld_setFld_apart u b (by decide) (apart (by decide)))
  unfold corrRegs
  dsimp only
  rw [skew]
  cases p with
  | none => rfl
  | some p =>
    dsimp only
    rw [fld_setFld_apart _ _ (by decide) (apart (by decide))]

theorem corrRegs_frame (p : Option Nat) (off : Int) (s : State) : RegFrame s (corrRegs p off s) := by
  refine RegFrame.setFld (RegFrame.setFld ?_ _ _) _ _
  cases p with
  | none => exact .refl s
  | some p => exact (RegFrame.refl s).setFld _ _

/-- The number that the frame to come will follow: at ROOT that before START_FRAME, else the parent's. -/
def firstNumber (num : Option Nat) (s : State) : Option Nat :=
  if fRole s = 2 then some ((fld s FRM_START_START_FRAME + 2 ^ 48 - 1) % 2 ^ 48) else num

/-- The first correction of a FREE unit takes it to ACQUIRE. -/
theorem frameCorrect_free (e t : Nat) (num : Option Nat) {s : State} (h : fState s = 0) :
    ∃ p off corr bNext, frameCorrect e t num s = corrRegs p off (modFrame (fun f =>
      { f with good := 0, sysF := firstNumber num s, est := some (e, f.f), corr := corr, bNext := bNext }) (setFState 1 s)) := by
  refine ⟨s.frame.est.map fun x => (e - x.1) / max 1 (s.frame.f - x.2), (e : Int) - s.frame.b,
    some (t, phaseAt s.frame.b s.frame.len0 s.frame.bNext none t),
    max (e + (s.frame.est.map fun x => (e - x.1) / max 1 (s.frame.f - x.2)).getD (frameLen s)) (t + 1), ?_⟩
  simp only [frameCorrect, lockStep, h, if_true, corrRegs, firstNumber]
  rfl

/-- An estimate that a FREE unit without a correction takes, with what it leaves. -/
theorem frameEstimate_free (e t : Nat) (num : Option Nat) {s : State} (h : fState s = 0) (hc : s.frame.corr = none) :
    ∃ u, frameEstimate e t num s = u ∧ fld u FRM_STAT_STATE = 1 ∧ fld u FRM_STAT_LOCKED = 0 ∧
      u.frame.est = some (e, s.frame.f) ∧ u.frame.f = s.frame.f ∧ u.frame.parent = s.frame.parent ∧
      u.frame.sysF = firstNumber num s ∧ u.now = max s.now t ∧ u.lcores = s.lcores ∧ u.mem = s.mem ∧
      fld u FRM_STAT_PARENT_PORT = fld s FRM_STAT_PARENT_PORT ∧ fld u FRM_STAT_HOPS = fld s FRM_STAT_HOPS := by
  have h0 : fState { s with now := max s.now t } = 0 := h
  obtain ⟨p, off, corr, bNext, hu⟩ := frameCorrect_free e (max s.now t) num h0
  have hest : frameEstimate e t num s = frameCorrect e (max s.now t) num { s with now := max s.now t } := by
    simp only [frameEstimate, h0, if_true, hc, Option.isSome_none, Bool.false_eq_true, if_false]
  rw [hest, hu]
  generalize hv : modFrame _ (setFState 1 { s with now := max s.now t }) = v
  have hf := corrRegs_frame p off v
  rw [RegFrame] at hf
  refine ⟨_, rfl, ?_⟩
  rw [fld_corrRegs _ _ _ rfl, fld_corrRegs _ _ _ rfl, fld_corrRegs _ _ _ rfl, fld_corrRegs _ _ _ rfl, hf, ← hv]
  simp only [fld_modFrame]
  refine ⟨?_, ?_, rfl, rfl, rfl, rfl, rfl, rfl, rfl, ?_, ?_⟩
  · exact (fld_setFld_apart _ _ (by decide) (by decide)).trans (fld_setFld_same _ _ _ (by decide))
  · exact fld_setFld_same _ _ _ (by decide)
  · exact fld_setFState_apart _ _ (by decide) (by decide)
  · exact fld_setFState_apart _ _ (by decide) (by decide)

/-! ### Edges and packets -/

/-- The status register of a port is none of the frame unit's. -/
theorem port_apart_frm (n : Nat) : rFRM_STAT ≠ rFAB_PORT_STAT (n / 2) (n % 2) := by
  simp only [rFRM_STAT, rFAB_PORT_STAT]
  omega

theorem frameTake_frame (p : FramePkt) (s : State) : FabFrame s (frameTake p s) := takeInbound_frame _ s

theorem frameInEdge_free (e : Nat) {s : State} (he : fldOn s FRM_CTRL_ENABLE = true) (hr : fld s FRM_CTRL_ROLE ≠ 0) :
    frameInEdge e s = lockFire (fState s) (frameEstimate e e none s) := by
  have hr' : (fRole s == 0) = false := beq_false_of_ne hr
  simp only [frameInEdge, fEnabled, he, hr', Bool.not_true, Bool.or_self, Bool.false_eq_true, if_false]

theorem frameInEdge_off (e : Nat) {s : State} (h : fldOn s FRM_CTRL_ENABLE = false ∨ fld s FRM_CTRL_ROLE = 0) :
    frameInEdge e s = s := by
  refine if_pos ?_
  rcases h with h | h
  · simp [fEnabled, h]
  · simp [fRole, h]

/-- A packet from an unlocked sender, or with 8 hops or more, is not taken into account. -/
theorem framePacket_refused (n : Nat) {p : FramePkt} (s : State) (h : p.locked = false ∨ 8 ≤ p.hops) : framePacket n p s = s := by
  refine if_pos ?_
  rcases h with h | h <;> simp [h]

/-- The first packet of a locked sender that a FOLLOW module without senders hears is its parent's. -/
theorem framePacket_first {n : Nat} {p : FramePkt} {s : State} (he : fldOn s FRM_CTRL_ENABLE = true)
    (hr : fld s FRM_CTRL_ROLE = 0) (hup : portUp s n = true) (hm : (fld s FRM_CTRL_PARENT_MASK).testBit n = true)
    (hv : 2 ≤ fld s (pVersion n)) (hl : p.locked = true) (hh : p.hops < 8) (hs : s.frame.senders = []) :
    framePacket n p s = lockFire (fState s) (frameEstimate (p.arrival - p.emit - fld s (pDelay n)) p.arrival (some p.frame.toNat)
      (setFld FRM_STAT_HOPS (p.hops + 1) (setFld FRM_STAT_PARENT_PORT n
        (modFrame (fun f => { f with senders := smPut f.senders n p.hops, parent := some n }) s)))) := by
  have hroot : (fRole s == 2) = false := by rw [fRole, hr]; rfl
  have hv' : ¬ fld s (pVersion n) < 2 := Nat.not_lt.mpr hv
  have hh' : ¬ 8 ≤ p.hops := Nat.not_le.mpr hh
  have hsend : modFrame (fun f => { f with senders := smPut f.senders n p.hops, parent := bestSender (smPut f.senders n p.hops) }) s =
      modFrame (fun f => { f with senders := smPut f.senders n p.hops, parent := some n }) s := by
    simp only [modFrame, hs, smPut, bestSender]
  unfold framePacket
  rw [if_neg (by simp [fEnabled, he, hroot, hup, hm, hv', hl, hh']), hsend]
  generalize hu : modFrame _ s = u
  have hpar : u.frame.parent = some n := by rw [← hu]; rfl
  have hfld (g : Fld) : fld u g = fld s g := by rw [← hu]; rfl
  have hrole : ¬ fRole (setFld FRM_STAT_PARENT_PORT n u) = 1 := by
    rw [fRole, fld_setFld_apart _ _ (by decide) (by decide), hfld, hr]
    decide
  have hstate : fState (setFld FRM_STAT_PARENT_PORT n u) = fState s :=
    (fld_setFld_apart _ _ (by decide) (by decide)).trans (hfld _)
  have hdelay : fld (setFld FRM_STAT_PARENT_PORT n u) (pDelay n) = fld s (pDelay n) :=
    (fld_setFld_apart _ _ (by decide) (fldApart_of (.inl (port_apart_frm n)))).trans (hfld _)
  simp only [hpar, ne_eq, not_true_eq_false, if_false, hrole, hstate, hdelay]

/-- At a FREE unit that packet is the first correction. -/
theorem framePacket_free {n : Nat} {p : FramePkt} {s : State} (he : fldOn s FRM_CTRL_ENABLE = true)
    (hr : fld s FRM_CTRL_ROLE = 0) (hup : portUp s n = true) (hm : (fld s FRM_CTRL_PARENT_MASK).testBit n = true)
    (hv : 2 ≤ fld s (pVersion n)) (hl : p.locked = true) (hh : p.hops < 8) (hs : s.frame.senders = [])
    (h0 : fld s FRM_STAT_STATE = 0) (hc : s.frame.corr = none) (hn : n < 16) :
    ∃ u, framePacket n p s = u ∧ fld u FRM_STAT_STATE = 1 ∧ u.frame.parent = some n ∧ u.frame.sysF = some p.frame.toNat ∧
      u.frame.est = some (p.arrival - p.emit - fld s (pDelay n), s.frame.f) ∧
      fld u FRM_STAT_PARENT_PORT = n ∧ fld u FRM_STAT_HOPS = p.hops + 1 ∧ u.mem = s.mem := by
  rw [framePacket_first he hr hup hm hv hl hh hs]
  generalize hv : modFrame _ s = v
  have hfld (g : Fld) : fld v g = fld s g := by rw [← hv]; rfl
  have hcorr : v.frame.corr = none := by rw [← hv]; exact hc
  have hf : v.frame.f = s.frame.f := by rw [← hv]; rfl
  have hpar : v.frame.parent = some n := by rw [← hv]; rfl
  have hmem : v.mem = s.mem := by rw [← hv]; rfl
  have hw0 : fState (setFld FRM_STAT_HOPS (p.hops + 1) (setFld FRM_STAT_PARENT_PORT n v)) = 0 := by
    rw [fState, fld_setFld_apart _ _ (by decide) (by decide), fld_setFld_apart _ _ (by decide) (by decide), hfld, h0]
  have hrole : ¬ fRole (setFld FRM_STAT_HOPS (p.hops + 1) (setFld FRM_STAT_PARENT_PORT n v)) = 2 := by
    rw [fRole, fld_setFld_apart _ _ (by decide) (by decide), fld_setFld_apart _ _ (by decide) (by decide), hfld, hr]
    decide
  obtain ⟨u, hu, hst, -, hest, -, hpar', hsys, -, -, hmem', hp, hho⟩ := frameEstimate_free
    (p.arrival - p.emit - fld s (pDelay n)) p.arrival (some p.frame.toNat) hw0 hcorr
  simp only [setFld_frame, setFld_mem] at hpar' hmem' hest
  refine ⟨u, ?_, hst, hpar'.trans hpar, by rw [hsys, firstNumber, if_neg hrole], ?_, ?_, ?_, hmem'.trans hmem⟩
  · rw [hu, lockFire_unlocked (by rw [fState, hst]; decide)]
  · rw [hest, ← hf]
  · rw [hp, fld_setFld_apart _ _ (by decide) (by decide), fld_setFld_same _ _ _ (by decide)]
    exact Nat.mod_eq_of_lt hn
  · rw [hho, fld_setFld_same _ _ _ (by decide)]
    exact Nat.mod_eq_of_lt (show p.hops + 1 < 16 by omega)

/-- Settles O30: the first estimate of a FREE unit is the correction of `frameCorrect_free`; all else is refused at the door. -/
theorem firstEstimateStartsAcquire : Obligations.FirstEstimateStartsAcquire := by
  unfold Obligations.FirstEstimateStartsAcquire
  refine ⟨fun e s hs he hr h0 hc => ?_, fun e s hs h => ?_, fun n p s hs he hr hup hm hv hl hh hsend h0 hc => ?_,
    fun n p s hs h => ?_⟩
  · obtain ⟨u, hu, hst, hlk, hest, hf, -, hsys, hnow, hlc, hmem, -, -⟩ := frameEstimate_free e e none h0 hc
    refine ⟨u, ?_, hst, hlk, hest, hf, hnow, fun h2 => hsys.trans (if_pos h2), hlc, hmem⟩
    refine (liveNext_of_live hs _).trans ?_
    rw [frameInEdge_free e he hr, hu, lockFire_unlocked (by rw [fState, hst]; decide)]
  · refine (liveNext_of_live hs _).trans ?_
    rw [frameInEdge_off e h]
  · have hf := frameTake_frame p s
    generalize hv0 : frameTake p s = v at hf
    have hfld := hf.fld
    have hfr : v.frame = s.frame := hf.msg.frame
    have hup' : portUp v n = true := by rw [hf]; exact hup
    obtain ⟨u, hu, hst, hpar, hsys, hest, hp, hh, hmem⟩ := framePacket_free (n := n) (p := p) (s := v)
      (by rw [fldOn, hfld]; exact he) (by rw [hfld, hr]) hup' (by rw [hfld, hm]) (by rw [hfld]; exact hv) hl hh
      (by rw [hfr, hsend]) (by rw [hfld, h0]) (by rw [hfr, hc]) n.isLt
    refine ⟨u, ?_, hst, hp, hh, hpar, ?_, hsys, hmem.trans hf.msg.mem⟩
    · refine (liveNext_of_live hs _).trans ?_
      rw [hv0, hu]
    · rw [hest, hfld, hfr]
  · have hf := frameTake_frame p s
    refine ⟨(liveNext_of_live hs _).trans ?_, hf, fun hi => ?_⟩
    · rw [framePacket_refused _ _ h]
    · rw [frameTake, takeInbound_of_none hi]

end Sys2Proof.Machine
end

section
/-! PROOF. What the latch's operations leave unchanged, and what ending an image leaves: frames for the proofs of the step commands. -/
namespace Sys2Proof.Machine

/-! ### Changes of registers, memory and the latch unit -/

/-- Two states that differ at most in registers, memory and the latch unit. -/
def MemFrame (s t : State) : Prop := t = { s with regs := t.regs, mem := t.mem, lat := t.lat }

theorem MemFrame.refl (s : State) : MemFrame s s := rfl

theorem MemFrame.trans {s t u : State} (h : MemFrame s t) (k : MemFrame t u) : MemFrame s u := by
  unfold MemFrame at *
  rw [k, h]

theorem MemFrame.ite {c : Prop} [Decidable c] {s t u : State} (ht : MemFrame s t) (hu : MemFrame s u) :
    MemFrame s (if c then t else u) := by
  split
  · exact ht
  · exact hu

/-- What the latch writes may be anything. -/
theorem MemFrame.set {z s : State} (h : MemFrame z s) (r : SMap Word) (m : Mem) (l : LatSt) :
    MemFrame z { s with regs := r, mem := m, lat := l } := by
  unfold MemFrame at *
  rw [h]

theorem MemFrame.foldl {α : Type} {z : State} {f : State → α → State} (h : ∀ s a, MemFrame z s → MemFrame z (f s a))
    (l : List α) {s : State} (hs : MemFrame z s) : MemFrame z (l.foldl f s) := by
  induction l generalizing s with
  | nil => exact hs
  | cons a l ih => exact ih (h s a hs)

section
variable {s t : State} (h : MemFrame s t)
include h
theorem MemFrame.lcores : t.lcores = s.lcores := by unfold MemFrame at h; rw [h]
theorem MemFrame.pcores : t.pcores = s.pcores := by unfold MemFrame at h; rw [h]
theorem MemFrame.img : t.img = s.img := by unfold MemFrame at h; rw [h]
theorem MemFrame.step : t.step = s.step := by unfold MemFrame at h; rw [h]
theorem MemFrame.frame : t.frame = s.frame := by unfold MemFrame at h; rw [h]
theorem MemFrame.power : t.power = s.power := by unfold MemFrame at h; rw [h]
theorem MemFrame.fuses : t.fuses = s.fuses := by unfold MemFrame at h; rw [h]
theorem MemFrame.fab : t.fab = s.fab := by unfold MemFrame at h; rw [h]
theorem MemFrame.host : t.host = s.host := by unfold MemFrame at h; rw [h]
theorem MemFrame.jnl : t.jnl = s.jnl := by unfold MemFrame at h; rw [h]
theorem MemFrame.peer : t.peer = s.peer := by unfold MemFrame at h; rw [h]
theorem MemFrame.kpr : t.kpr = s.kpr := by unfold MemFrame at h; rw [h]
theorem MemFrame.now : t.now = s.now := by unfold MemFrame at h; rw [h]
end

section
variable {z s : State}

theorem withMem_mf (h : MemFrame z s) (m : Mem) : MemFrame z { s with mem := m } := h.set _ _ _
theorem withLat_mf (h : MemFrame z s) (l : LatSt) : MemFrame z { s with lat := l } := h.set _ _ _
theorem setFld_mf (h : MemFrame z s) (f : Fld) (v : Nat) : MemFrame z (setFld f v s) := h.set _ _ _
theorem addFld_mf (h : MemFrame z s) (f : Fld) (v : Nat) : MemFrame z (addFld f v s) := h.set _ _ _
theorem setGran_mf (h : MemFrame z s) (g : Nat) (e : Gran) : MemFrame z (setGran g e s) := h.set _ _ _
theorem dirPut_mf (h : MemFrame z s) (k : Nat) (e : Option DirEnt) : MemFrame z (dirPut k e s) := h.set _ _ _
theorem clearBad_mf (h : MemFrame z s) (a n : Nat) : MemFrame z (clearBad a n s) := h.set _ _ _
theorem latStat_mf (h : MemFrame z s) (d : Nat) : MemFrame z (latStat d s) := setFld_mf (setFld_mf h _ _) _ _
theorem forgetRange_mf (h : MemFrame z s) (a n : Nat) : MemFrame z (forgetRange a n s) := h.set _ _ _

theorem jobsStart_mf (h : MemFrame z s) (d n : Nat) : MemFrame z (jobsStart d n s) := by
  induction n generalizing s with
  | zero => exact h
  | succ n ih =>
    unfold jobsStart
    refine .ite h ?_
    split
    · exact ih (withLat_mf h _)
    · exact h

theorem hbmLand_mf (h : MemFrame z s) (a : Nat) (bs : List Byte) : MemFrame z (hbmLand a bs s) := by
  unfold hbmLand
  exact clearBad_mf (withMem_mf (MemFrame.foldl (fun _ _ hs => setGran_mf hs _ _) _ h) _) _ _

theorem granLand_mf (h : MemFrame z s) (w : HWrite) : MemFrame z (granLand w s) := hbmLand_mf h _ _

theorem granCopy_mf (h : MemFrame z s) (g : Nat) (held : List HWrite) : MemFrame z (granCopy g held s) := by
  unfold granCopy
  exact latStat_mf (jobsStart_mf (withLat_mf (setGran_mf h _ _) _) _ _) _

theorem granPut_mf (h : MemFrame z s) (g : Nat) (w : HWrite) : MemFrame z (granPut g w s) := by
  unfold granPut
  exact .ite (setGran_mf h _ _) (.ite (granCopy_mf h _ _) (granLand_mf h _))

theorem hbmWrite_mf (h : MemFrame z s) (w : HWrite) : MemFrame z (hbmWrite w s) :=
  MemFrame.foldl (fun _ _ hs => granPut_mf hs _ _) _ h

theorem hbmPut_mf (h : MemFrame z s) (a : Nat) (bs : List Byte) : MemFrame z (hbmPut a bs s) := hbmWrite_mf h _

theorem memPut_mf (h : MemFrame z s) (a : Nat) (bs : List Byte) : MemFrame z (memPut a bs s) := .ite (hbmPut_mf h _ _) (withMem_mf h _)

theorem cutRelease_mf (h : MemFrame z s) (g : Nat) : MemFrame z (cutRelease g s) := by
  unfold cutRelease
  dsimp only
  split
  · exact h
  · exact .ite h (latStat_mf (jobsStart_mf (setGran_mf (.ite (dirPut_mf h _ _) (dirPut_mf h _ _)) _ _) _ _) _)

theorem cutClear_mf (h : MemFrame z s) (b : Bool) (g : Nat) : MemFrame z (cutClear b g s) := by
  unfold cutClear
  exact cutRelease_mf (setGran_mf h _ _) _

theorem granLands_mf (h : MemFrame z s) (l : List HWrite) : MemFrame z (l.foldl (fun s w => granLand w s) s) :=
  MemFrame.foldl (fun _ _ hs => granLand_mf hs _) _ h

theorem copyDone_mf (h : MemFrame z s) (j : CopyJob) : MemFrame z (copyDone j s) := by
  unfold copyDone
  dsimp only
  refine latStat_mf (jobsStart_mf (cutRelease_mf (.ite (setFld_mf ?_ _ _) ?_) _) _ _) _ <;>
    exact addFld_mf (granLands_mf (setGran_mf (dirPut_mf (clearBad_mf (h.set _ _ _) _ _) _ _) _ _) _) _ _

theorem copyDrop_mf (h : MemFrame z s) (g : Nat) : MemFrame z (copyDrop g s) := by
  unfold copyDrop
  exact granLands_mf (setGran_mf (withLat_mf h _) _ _) _

theorem latCommit_mf (h : MemFrame z s) : MemFrame z (latCommit s) := by
  unfold latCommit
  refine MemFrame.foldl (fun _ _ hs => latStat_mf (jobsStart_mf (setFld_mf hs _ _) _ _) _) _ (MemFrame.foldl (fun s p hs => ?_) _ h)
  have hd : MemFrame z (match (getGran s p.1).stepCopy with
      | none => s
      | some k => if (getGran s p.1).cutCopy = some k then dirPut k ((smFind s.lat.dir k).map fun x => { x with step := false }) s
                  else dirPut k none s) := by
    split
    · exact hs
    · exact .ite (dirPut_mf hs _ _) (dirPut_mf hs _ _)
  exact .ite (.ite (setGran_mf (withLat_mf hd _) _ _) (copyDrop_mf hd _)) (setGran_mf hd _ _)

theorem latCancel_mf (h : MemFrame z s) : MemFrame z (latCancel s) := by
  unfold latCancel
  exact MemFrame.foldl (fun _ _ hs => latStat_mf hs _) _ (withLat_mf (MemFrame.foldl (fun _ _ hs => setGran_mf hs _ _) _ h) _)

theorem latWriteBack_mf (h : MemFrame z s) : MemFrame z (latWriteBack s) := by
  unfold latWriteBack
  refine MemFrame.foldl (fun _ _ hs => .ite (addFld_mf hs _ _) hs) _ (MemFrame.foldl (fun s p hs => ?_) _ h)
  split
  · exact clearBad_mf (withMem_mf hs _) _ _
  · exact hs

theorem latProtect_mf (h : MemFrame z s) (old new : List (Nat × Nat)) : MemFrame z (latProtect old new s) := by
  unfold latProtect
  exact MemFrame.foldl (fun _ _ hs => .ite (withLat_mf hs _) (setGran_mf hs _ _)) _ (MemFrame.foldl (fun _ _ hs => setFld_mf hs _ _) _ h)

end

/-! ### Changes that the end of an image makes besides the image -/

/-- Two states that differ at most in registers, memory, the latch unit, the fabric, the hosts, the journal and the error ring. -/
def WorkFrame (s t : State) : Prop :=
  t = { s with regs := t.regs, mem := t.mem, lat := t.lat, fab := t.fab, host := t.host, jnl := t.jnl, err := t.err }

theorem WorkFrame.refl (s : State) : WorkFrame s s := rfl

theorem WorkFrame.trans {s t u : State} (h : WorkFrame s t) (k : WorkFrame t u) : WorkFrame s u := by
  unfold WorkFrame at *
  rw [k, h]

/-- What is written there may be anything. -/
theorem WorkFrame.set {z s : State} (h : WorkFrame z s) (r : SMap Word) (m : Mem) (l : LatSt) (f : FabSt) (o : HostSt) (j : JnlSt)
    (e : ErrSt) : WorkFrame z { s with regs := r, mem := m, lat := l, fab := f, host := o, jnl := j, err := e } := by
  unfold WorkFrame at *
  rw [h]

theorem MemFrame.work {s t : State} (h : MemFrame s t) : WorkFrame s t := by
  unfold MemFrame at h
  unfold WorkFrame
  rw [h]

theorem MsgFrame.work {s t : State} (h : MsgFrame s t) : WorkFrame s t := by
  unfold MsgFrame at h
  unfold WorkFrame
  rw [h]

theorem WorkFrame.foldl {α : Type} {z : State} {f : State → α → State} (h : ∀ s a, WorkFrame s (f s a))
    (l : List α) {s : State} (hs : WorkFrame z s) : WorkFrame z (l.foldl f s) := by
  induction l generalizing s with
  | nil => exact hs
  | cons a l ih => exact ih (hs.trans (h s a))

section
variable {s t : State} (h : WorkFrame s t)
include h
theorem WorkFrame.lcores : t.lcores = s.lcores := by unfold WorkFrame at h; rw [h]
theorem WorkFrame.pcores : t.pcores = s.pcores := by unfold WorkFrame at h; rw [h]
theorem WorkFrame.img : t.img = s.img := by unfold WorkFrame at h; rw [h]
theorem WorkFrame.step : t.step = s.step := by unfold WorkFrame at h; rw [h]
theorem WorkFrame.frame : t.frame = s.frame := by unfold WorkFrame at h; rw [h]
theorem WorkFrame.power : t.power = s.power := by unfold WorkFrame at h; rw [h]
theorem WorkFrame.fuses : t.fuses = s.fuses := by unfold WorkFrame at h; rw [h]
theorem WorkFrame.kpr : t.kpr = s.kpr := by unfold WorkFrame at h; rw [h]
theorem WorkFrame.peer : t.peer = s.peer := by unfold WorkFrame at h; rw [h]
end

theorem slotFree_work (k : Nat) (s : State) : WorkFrame s (slotFree k s) := (WorkFrame.refl s).set _ _ _ _ _ _ _

theorem slotEnd_work (k : Nat) (c : Code) (d : Word) (s : State) : WorkFrame s (slotEnd k c d s) := by
  unfold slotEnd
  split
  · exact .refl s
  · split
    · exact (post_msg (.refl s) _ _).work.trans (slotFree_work _ _)
    · exact (completeTicket_msg (.refl s) _ _ _ _ _).work.trans (slotFree_work _ _)

/-- An image that has ended is gone, and with it its logical cores. -/
theorem imageOff_img (s : State) : (imageOff s).img = none ∧ (imageOff s).lcores = [] := ⟨rfl, rfl⟩

/-- What ending an image does once it has stopped: it completes tickets and frees slots. -/
theorem imageEnd_work {i : Image} {s : State} (c : Code) (d : Word) (h : s.img = some i) : WorkFrame (imageOff s) (imageEnd c d s) := by
  have hl := (completeLoad_msg (.refl (imageOff s)) i c d).work
  have hp := WorkFrame.foldl (fun s (p : PostRef) => (completeTicket_msg (.refl s) p.q p.seq cNO_IMAGE 0 false).work) i.posts hl
  have hs := fun l => WorkFrame.foldl (fun s (p : Nat × SlotSt) => slotEnd_work p.1 cNO_IMAGE 0 s) l hp
  unfold imageEnd
  rw [h]
  dsimp only
  split
  · exact (hs _).trans (completeTicket_msg (.refl _) _ _ _ _ _).work
  · exact hs _

theorem imageEnd_img (c : Code) (d : Word) (s : State) : (imageEnd c d s).img = none := by
  cases h : s.img with
  | none => rw [imageEnd, h]; exact h
  | some i => rw [(imageEnd_work c d h).img]; rfl

end Sys2Proof.Machine
end

section
/-! PROOF. Votes, the tally and the commit of a step (settles O31). -/
namespace Sys2Proof.Machine

/-! ### Messages of the step tree -/

theorem desigFlood_frame (c : Ctl) (s : State) : FabFrame s (desigFlood c s) := FabFrame.after (floodCtl_frame _ _) rfl

theorem designate_frame (c : Ctl) (s : State) : FabFrame s (designate c s) := .ite (sendChildren_frame c s) (desigFlood_frame c s)

theorem passOn_frame (c : Ctl) (s : State) : FabFrame s (passOn c s) :=
  .ite ((takeCtl_frame c s).trans (desigFlood_frame c _)) ((takeCtl_frame c s).trans (sendChildren_frame c _))

theorem answerPkt_frame (p : Packet) (die : Nat) (b : Body) (s : State) : FabFrame s (answerPkt p die b s) := by
  unfold answerPkt
  exact .ite rfl (sendOrDrop_frame _ _ s)

theorem heldAcks_frame (s : State) : FabFrame s (heldAcks s) := by
  unfold heldAcks
  refine FabFrame.after (FabFrame.foldl (fun s p => ?_) _ _) rfl
  split
  · exact (creditBack_frame p s).trans (answerPkt_frame _ _ _ _)
  · exact .refl s

/-- A state that differs from another in the fabric alone, written out. -/
theorem FabFrame.exists {s t : State} (h : FabFrame s t) : ∃ f, t = { s with fab := f } := ⟨t.fab, h⟩

/-! ### What the open step reads -/

theorem fld_setStepState (v : Nat) (s : State) : fld (setStepState v s) RDU_STEP_STAT_STATE = v % 8 :=
  fld_setFld_same _ _ _ (by decide)

theorem isLocked_congr {s t : State} (h : ∀ g, fld t g = fld s g) : isLocked t = isLocked s := by simp only [isLocked, h]

/-! ### The tally (R53, R613) -/

theorem tally_waits {s : State} (h : actsRoot s = false ∨ tallyOk s = false) : tally s = s := by
  refine if_pos ?_
  rcases h with h | h <;> simp [h]

theorem tally_designates {s : State} (ha : actsRoot s = true) (ht : s.step.tallied = false) (hv : tallyOk s = true)
    (htree : treeOf s ≠ []) : tally s = commitTake ⟨BitVec.ofNat 64 s.step.next, BitVec.ofNat 8 s.step.attempt, commitFrame s, false, []⟩
      (designate (.commit ⟨BitVec.ofNat 64 s.step.next, BitVec.ofNat 8 s.step.attempt, commitFrame s, false, []⟩)
        { s with step := { s.step with tallied := true } }) :=
  if_neg (by simp [ha, ht, hv, htree])

theorem voteReceived_eq (m : MemberMsg) (s : State) :
    voteReceived m s = if m.step.toNat ≠ s.step.next then takeCtl (.vote m) s
      else tally (if s.step.votes.contains (m.member, m.attempt.toNat) then takeCtl (.vote m) s
        else { takeCtl (.vote m) s with step := { (takeCtl (.vote m) s).step with
          votes := (takeCtl (.vote m) s).step.votes ++ [(m.member, m.attempt.toNat)] } }) := by
  have hstep : (takeCtl (.vote m) s).step = s.step := (takeCtl_frame (.vote m) s).msg.step
  unfold voteReceived
  simp only [hstep]

/-! ### The designation of the commit (R54, R56) -/

theorem commitTake_eq {d : Designation} {s : State} (hst : stepState s = 2) (hn : d.step.toNat = s.step.next)
    (ha : d.attempt.toNat = s.step.attempt) (hc : s.step.commitF = none) :
    commitTake d s = if isLocked s && decide (d.frame ≤ s.frame.f) then
        commitDo (report cCOMMIT_LATE (srcOf 8 11 0) (BitVec.ofNat 64 s.step.next) (addFld FRM_COUNT_LATE_EVENTS 1
          { s with step := { s.step with commitF := some (s.step.next, d.frame) } }))
      else { s with step := { s.step with commitF := some (s.step.next, d.frame) } } := by
  have hm : msgNow s d.step d.attempt = true := by simp [msgNow, hn, ha]
  unfold commitTake
  rw [if_neg (by simp [hst, hm, hc])]
  rfl

theorem commitDesignation_eq {d : Designation} {s : State} (hst : stepState s = 2) (hn : d.step.toNat = s.step.next)
    (ha : d.attempt.toNat = s.step.attempt) (hc : s.step.commitF = none) :
    commitDesignation d s =
      let t := { passOn (.commit d) s with step := { s.step with commitF := some (s.step.next, d.frame) } }
      if isLocked s && decide (d.frame ≤ s.frame.f) then
        commitDo (report cCOMMIT_LATE (srcOf 8 11 0) (BitVec.ofNat 64 s.step.next) (addFld FRM_COUNT_LATE_EVENTS 1 t))
      else t := by
  have hf := passOn_frame (.commit d) s
  have hm : msgNow s d.step d.attempt = true := by simp [msgNow, hn, ha]
  unfold commitDesignation
  rw [if_pos (by simp [hm, hc, hst])]
  obtain ⟨f, hv⟩ := hf.exists
  rw [hv, commitTake_eq (s := { s with fab := f }) hst hn ha hc]
  rfl

theorem commitDesignation_refused {d : Designation} {s : State} (h : stepState s ≠ 2 ∨ d.step.toNat ≠ s.step.next ∨
    d.attempt.toNat ≠ s.step.attempt ∨ s.step.commitF ≠ none) : commitDesignation d s = takeCtl (.commit d) s := by
  refine if_neg ?_
  rcases h with h | h | h | h <;> simp [msgNow, h]

/-! ### What a commit leaves -/

theorem assignUnits_step (s : State) : (assignUnits s).step = { s.step with unitOf := unitAssign s } ∧
    (assignUnits s).img = s.img ∧ (assignUnits s).mem = s.mem := by
  have h {f : State → Nat → State} (hf : ∀ s u, ∃ fl v, f s u = setFld fl v s) (l : List Nat) (t : State) :
      (l.foldl f t).step = t.step ∧ (l.foldl f t).img = t.img ∧ (l.foldl f t).mem = t.mem := by
    induction l generalizing t with
    | nil => exact ⟨rfl, rfl, rfl⟩
    | cons u l ih =>
      obtain ⟨fl, v, e⟩ := hf t u
      rw [List.foldl_cons, e]
      obtain ⟨h1, h2, h3⟩ := ih (setFld fl v t)
      exact ⟨h1, h2, h3⟩
  exact h (fun s u => ⟨_, _, rfl⟩) _ _

/-- The state of the step after a commit: idle, the number one on, nothing collected. -/
theorem commitCore_step (s : State) : (commitCore s).step = { s.step with
      next := s.step.next + 1, attempt := 0, votes := [], acks := [], closeF := none, prevLate := [], gone := [], holds := [],
      tallied := false, commitF := none, unitOf := (commitCore s).step.unitOf } ∧ (commitCore s).img = s.img := by
  have hl := latCommit_mf (MemFrame.refl (modAllL commitDone s))
  have hstep : (latCommit (modAllL commitDone s)).step = s.step := hl.step
  have himg : (latCommit (modAllL commitDone s)).img = s.img := hl.img
  unfold commitCore stepIdle
  simp only [setFld_step, setFld_img]
  rw [(assignUnits_step _).1, (assignUnits_step _).2.1]
  simp only [hstep, himg, and_self]

theorem commitCore_regs (s : State) : fld (commitCore s) RDU_STEP_STAT_STATE = 0 ∧
    fld (commitCore s) RDU_STEP_STAT_STEP = s.step.next % 2 ^ 32 := by
  have hn := congrArg StepSt.next (commitCore_step s).1
  simp only [commitCore, stepIdle, setFld_step] at hn ⊢
  rw [hn]
  refine ⟨?_, fld_setFld_same _ _ _ (by decide)⟩
  rw [fld_setFld_apart _ _ (by decide) (by decide)]
  exact fld_setFld_same _ _ _ (by decide)

/-! ### The image through a commit (R474) -/

/-- An image with other posts. -/
def SamePosts (i : Image) (o : Option Image) : Prop := ∃ ps n, o = some { i with posts := ps, postCount := n }

theorem SamePosts.posts {i j : Image} (h : SamePosts i (some j)) (ps : List PostRef) (n : Nat) :
    SamePosts i (some { j with posts := ps, postCount := n }) := by
  obtain ⟨ps', n', e⟩ := h
  obtain rfl := Option.some.inj e
  exact ⟨_, _, rfl⟩

/-- Writing a post changes the image in its posts alone, and leaves the step as it is. -/
theorem postWrite_posts {i : Image} {st : StepSt} {s : State} (h : SamePosts i s.img ∧ s.step = st) :
    SamePosts i (postWrite s).img ∧ (postWrite s).step = st := by
  unfold postWrite
  split
  · exact h
  · refine List.foldlRecOn (motive := fun t : State => SamePosts i t.img ∧ t.step = st) _ _ h fun t ht p _ => ?_
    dsimp only
    split
    · rename_i j _ e _ hj _
      split
      · exact ⟨(hj ▸ ht.1).posts _ _, (hbmPut_mf (.refl t) _ _).step.trans ht.2⟩
      · exact ht
    · exact ht

/-- So do the posts that a commit answers. -/
theorem postsCommit_posts {i : Image} {st : StepSt} {s : State} (h : s.img = some i ∧ s.step = st) :
    SamePosts i (postsCommit s).img ∧ (postsCommit s).step = st := by
  obtain ⟨himg, hstep⟩ := h
  unfold postsCommit
  rw [himg]
  dsimp only
  generalize hd : i.posts.filter _ = done
  have hf : MsgFrame s (done.foldl (fun s p => completeTicket p.q p.seq cOK 0 false s) s) :=
    MsgFrame.foldl (fun s p => completeTicket_msg (.refl s) _ _ _ _ _) done s
  have himg' := hf.img.trans himg
  refine postWrite_posts ?_
  rw [himg']
  exact ⟨⟨_, _, rfl⟩, hf.step.trans hstep⟩

theorem storesLanded_img (s : State) : (storesLanded s).img = s.img := rfl
theorem storesLanded_step (s : State) : (storesLanded s).step = s.step := rfl

theorem stacksOut_none {s : State} (h : s.step.failedStacks = []) : stacksOut s = s := by
  unfold stacksOut
  split
  · rfl
  · rw [h, List.foldl_nil, ← h]

/-- A commit up to the point at which the fate of the image is decided: the image is that before it, but for its posts. -/
theorem committed_img {i : Image} {s : State} (hi : s.img = some i) (hs : s.step.failedStacks = []) :
    SamePosts i (postsCommit (heldAcks (storesLanded (commitCore s)))).img ∧
    (postsCommit (heldAcks (storesLanded (commitCore s)))).step.failedStacks = [] := by
  obtain ⟨hstep, himg⟩ := commitCore_step s
  generalize commitCore s = c at hstep himg
  have hh := (heldAcks_frame (storesLanded c)).msg
  have himg' : (heldAcks (storesLanded c)).img = some i := by rw [hh.img, storesLanded_img, himg, hi]
  obtain ⟨h1, h2⟩ := postsCommit_posts ⟨himg', rfl⟩
  refine ⟨h1, ?_⟩
  rw [h2, hh.step, storesLanded_step, hstep]
  exact hs

section
variable {s t : State} {i : Image} (ht : t = postsCommit (heldAcks (storesLanded (commitCore s))))
  (hs : t.step.failedStacks = []) (hi : t.img = some i)
include ht hs hi

/-- A fault after the vote ends the image at the commit. -/
theorem commitDo_fault {code : Code} {det : Word} (hf : i.faultPend = some (code, det)) :
    commitDo s = imageEnd code det (programFlood code t) := by
  unfold commitDo
  rw [← ht, stacksOut_none hs]
  simp only [hi, hf]

/-- So does a STOP. -/
theorem commitDo_stop (hf : i.faultPend = none) {x : Nat × Word} (hr : i.stopReq = some x) : commitDo s = imageEnd cSTOPPED 0 t := by
  unfold commitDo
  rw [← ht, stacksOut_none hs]
  simp only [hi, hf, hr]

/-- Else the module goes on: the cut, the fences, what the ports are owed, and the next step. -/
theorem commitDo_goesOn (hf : i.faultPend = none) (hr : i.stopReq = none) :
    commitDo s = pumpAll (openGap (portsOwed (ceFence ((cutDue t).elim t fun r => takeCut r t)))) := by
  unfold commitDo
  rw [← ht, stacksOut_none hs]
  simp only [hi, hf, hr]
  cases cutDue t <;> simp only [Option.elim]

end

theorem commitReady_of {s : State} {f : Nat} (hl : isLocked s = true) (hst : stepState s = 2)
    (hc : s.step.commitF = some (s.step.next, f)) (hf : f ≤ s.frame.f) : commitReady s = true := by
  simp [commitReady, hl, hst, hc, hf]

/-- Settles O31: each row on its conditions; a commit by `commitDo_eq`, whose image is that before but for its posts. -/
theorem stepsAreVotedAndCommit : Obligations.StepsAreVotedAndCommit := by
  unfold Obligations.StepsAreVotedAndCommit
  refine ⟨fun s hs => ⟨fun h => ⟨(liveNext_of_live hs _).trans ?_, fld_setStepState 2 s⟩, fun h => (liveNext_of_live hs _).trans ?_⟩,
    fun m s hs ho => ?_, fun d s hs ho => ?_, fun s i f hs hl hst hc hf hi hfs => ?_, fun s hs hc => (liveNext_of_live hs _).trans ?_⟩
  · rw [readyVote, if_neg (by simp [h])]; rfl
  · rw [readyVote, if_pos (by simp [h])]
  · have hexec : exec (.readyVoteReceived m) s = .next (voteReceived m s) :=
      (liveNext_of_live hs _).trans (by rw [ordered, if_pos ho])
    have hstep : (takeCtl (.vote m) s).step = s.step := (takeCtl_frame (.vote m) s).msg.step
    have htree : treeOf (takeCtl (.vote m) s) = treeOf s := by rw [treeOf, (takeCtl_frame (.vote m) s).msg.img]; rfl
    dsimp only
    rw [hexec, voteReceived_eq]
    refine ⟨fun hn => by rw [if_pos hn], fun hn h => ?_, fun hn ha ht hv htr => ?_⟩
    · rw [if_neg (not_not_intro hn), tally_waits h]
    · rw [if_neg (not_not_intro hn)]
      by_cases hc : s.step.votes.contains (m.member, m.attempt.toNat) = true
      · rw [if_pos hc] at ha hv ⊢
        rw [tally_designates ha (hstep ▸ ht) hv (htree ▸ htr), hstep]
      · rw [if_neg hc] at ha hv ⊢
        rw [tally_designates ha (hstep ▸ ht) hv (show treeOf _ ≠ [] from htree ▸ htr)]
        simp only [hstep]
  · have hexec : exec (.commitDesignation d) s = .next (commitDesignation d s) :=
      (liveNext_of_live hs _).trans (by rw [ordered, if_pos ho])
    dsimp only
    rw [hexec]
    refine ⟨fun hst hn ha hc => ?_, fun h => by rw [commitDesignation_refused h]⟩
    rw [commitDesignation_eq hst hn ha hc]
    refine ⟨fun h => ?_, fun hl hfr => ?_⟩
    · rw [if_neg]
      rcases h with h | h
      · simp [h]
      · simp only [Bool.and_eq_true, decide_eq_true_eq]; omega
    · rw [if_pos (by simp [hl, hfr])]
  · obtain ⟨⟨ps, n, himg⟩, hfail⟩ := committed_img hi hfs
    obtain ⟨hstep, -⟩ := commitCore_step s
    have hexec : exec .commitBoundary s = .next (commitDo s) :=
      (liveNext_of_live hs _).trans (by rw [if_pos (commitReady_of hl hst hc hf)])
    rw [hexec]
    refine ⟨fun h1 h2 => ?_, fun code det h => ?_, fun h1 h2 => ?_, by rw [hstep], by rw [hstep], by rw [hstep], (commitCore_regs s).1,
      (commitCore_regs s).2⟩
    · rw [commitDo_goesOn rfl hfail himg h1 h2]
      cases cutDue (postsCommit (heldAcks (storesLanded (commitCore s)))) <;> simp only [Option.elim]
    · rw [commitDo_fault rfl hfail himg h]
    · obtain ⟨x, hx⟩ := Option.ne_none_iff_exists'.mp h2
      rw [commitDo_stop rfl hfail himg h1 hx]
  · rw [if_neg]
    simp [commitReady, hc]

end Sys2Proof.Machine
end

section
/-! PROOF. A step opens (settles O32). -/
namespace Sys2Proof.Machine

/-! ### Trying to open (R129, R406) -/

theorem openTry_first {s : State} (ho : stepIsOpen s = false) (ha : s.step.any = false) (hall : allOpened s = true)
    (hr : resumeWaits s = false) (hw : waitingOpens s ≠ []) (hroom : openRoom s = .fits) :
    openTry s = runDeferred (takeOpens (stepBegin (s.frame.f + 1) s)) := by
  simp [openTry, ho, ha, hall, hr, hw, hroom]

theorem openTry_waits {s : State} (ho : stepIsOpen s = false) (h : s.step.any = true ∨ allOpened s = false ∨ resumeWaits s = true) :
    openTry s = s := by
  refine if_pos ?_
  rcases h with h | h | h <;> simp [ho, h]

theorem openTry_joins {s : State} (ho : stepIsOpen s = true) (hw : waitingOpens s ≠ []) (hroom : openRoom s = .fits) :
    openTry s = takeOpens s := by
  simp [openTry, ho, hw, hroom]

theorem openTry_open_alone {s : State} (ho : stepIsOpen s = true) (hw : waitingOpens s = []) : openTry s = s := by
  simp [openTry, ho, hw]

theorem exists_mem_enumFrom {α : Type} {a : α} {l : List α} (h : a ∈ l) (n : Nat) : ∃ k, (k, a) ∈ enumFrom n l := by
  induction l generalizing n with
  | nil => cases h
  | cons b l ih =>
    rcases List.mem_cons.mp h with rfl | h
    · exact ⟨n, List.mem_cons_self⟩
    · obtain ⟨k, hk⟩ := ih h (n + 1)
      exact ⟨k, List.mem_cons_of_mem _ hk⟩

/-- Where every core that takes part waits in its STEP.OPEN, some core does. -/
theorem waitingOpens_of_allOpened {s : State} (h : allOpened s = true) : waitingOpens s ≠ [] := by
  unfold allOpened at h
  simp only [Bool.and_eq_true, bne_iff_ne, List.all_eq_true] at h
  obtain ⟨hne, hall⟩ := h
  obtain ⟨l, hl⟩ := List.exists_mem_of_ne_nil _ hne
  obtain ⟨e, he⟩ := Option.isSome_iff_exists.mp (hall l hl)
  obtain ⟨k, hk⟩ := exists_mem_enumFrom (List.mem_filter.mp hl).1 0
  refine List.ne_nil_of_mem (a := (k, e)) ?_
  exact List.mem_filterMap.mpr ⟨(k, l), hk, by simp [he]⟩

/-- Nothing is dispatched where no LOOP core could serve. -/
theorem dispatchNow_of_no_server {s : State} (h : loopCores s = []) : dispatchNow s = s := by
  unfold dispatchNow dispatchAll
  rw [if_pos (by simp [h])]

theorem applyMoves_none {s : State} (hm : s.step.moves = []) (hl : loopCores s = []) : applyMoves s = s := by
  have hs : { s with step := { s.step with moves := [] } } = s := by rw [← hm]
  unfold applyMoves
  rw [hm]
  simp only [List.map_nil, List.eraseDups_nil, List.foldl_nil, hs, dispatchNow_of_no_server hl]

theorem stepOpens_eq {s : State} (hs : live s = true) (ho : stepIsOpen s = false) :
    exec .stepOpens s = .next (pumpAll (openTry (applyMoves s))) :=
  (liveNext_of_live hs _).trans (by rw [if_neg (by simp [ho])])

theorem stepOpens_open {s : State} (hs : live s = true) (ho : stepIsOpen s = true) :
    exec .stepOpens s = .next (pumpAll (openTry s)) :=
  (liveNext_of_live hs _).trans (by rw [if_pos ho])

/-- Settles O32: `openTry` in its cases, after the moves, which leave a state without moves and servers as it is. -/
theorem stepOpens : Obligations.StepOpens := by
  unfold Obligations.StepOpens
  refine ⟨fun s hs ho => ⟨fun h1 h2 h3 h4 h5 h6 => ?_, fun h1 h2 => ?_⟩,
    fun s hs ho hm hl => ⟨fun h2 h3 h4 h6 => ?_, fun h2 => ?_⟩, fun s hs ho => ⟨fun h => ?_, fun h1 h2 => ?_⟩,
    fun n s => ⟨fld_setStepState 1 _, rfl, rfl, rfl⟩, fun s hs hw => (liveNext_of_live hs _).trans (by rw [if_pos hw]),
    fun s hs hw => (liveNext_of_live hs _).trans (by rw [if_neg hw])⟩
  · rw [stepOpens_eq hs ho, openTry_first h1 h2 h3 h4 h5 h6]
  · rw [stepOpens_eq hs ho, openTry_waits h1 h2]
  · rw [stepOpens_eq hs ho, applyMoves_none hm hl, openTry_first ho h2 h3 h4 (waitingOpens_of_allOpened h3) h6]
  · rw [stepOpens_eq hs ho, applyMoves_none hm hl, openTry_waits ho h2]
  · rw [stepOpens_open hs ho, openTry_open_alone ho h]
  · rw [stepOpens_open hs ho, openTry_joins ho h1 h2]

end Sys2Proof.Machine
end

section
/-! PROOF. Deadlines, reports, requests and the abort of an attempt (settles O33). -/
namespace Sys2Proof.Machine

/-! ### Deadlines (R321) -/

theorem ownId_congr {s t : State} (h1 : fld t FAB_ID_WARD = fld s FAB_ID_WARD) (h2 : fld t FAB_ID_MODULE = fld s FAB_ID_MODULE) :
    ownId t = ownId s := by rw [ownId, h1, h2, ownId]

theorem ownId_report (c : Code) (src : Nat) (d : Word) (s : State) : ownId (report c src d s) = ownId s :=
  ownId_congr (fld_report _ _ _ _ (by decide)) (fld_report _ _ _ _ (by decide))

theorem ownKind_report (c : Code) (src : Nat) (d : Word) (s : State) (k : LateKind) (b : BitVec 32) :
    ownKind (report c src d s) k b = ownKind s k b := by
  simp only [ownKind, ownId_report, report_step]

/-- The kind of a report of the only bucket: WAITING where this module has launched all its shares. -/
theorem lateKind_only {s : State} {b : Bucket} (hst : stepState s = 1) (hb : s.step.buckets = [b]) (hid : b.id ≠ 0) :
    lateKind s b.id = if b.shares = b.launched.length then .waiting else .late := by
  unfold lateKind
  rw [if_neg (by omega), if_pos hid, hb]
  simp [bucketLaunched]

theorem contributionDeadline_only {s : State} {b : Bucket} (hl : isLocked s = true) (hst : stepState s = 1)
    (hb : s.step.buckets = [b]) (hd : b.done = false) (hr : b.reported = false)
    (hdue : (s.step.refFrame + b.deadline) * 65536 < (sysTime s).toNat) (hid : b.id ≠ 0) :
    contributionDeadline b.id s =
      let s1 := { s with step := { s.step with buckets := [{ b with reported := true }] } }
      let k := if b.shares = b.launched.length then LateKind.waiting else .late
      sendRoot (.report (ownKind s k b.id)) (if k = .late then report cSTEP_LATE (srcOf 8 8 0) (BitVec.ofNat 64 b.id.toNat) s1 else s1) := by
  have hst' : (stepState s != 1) = false := by simp [hst]
  unfold contributionDeadline
  simp only [hl, hst', hb, lateKind_only hst hb hid, List.find?_cons, beq_self_eq_true, hd, hr, hdue, Bool.not_true, Bool.or_self,
    Bool.false_eq_true, if_false, decide_true, List.map_cons, List.map_nil, if_true]
  generalize (if b.shares = b.launched.length then LateKind.waiting else .late) = k
  by_cases hk : k = .late
  · simp only [hk, if_true, ownKind_report]
    rfl
  · simp only [hk, if_false]
    rfl

/-! ### Reports, requests and acknowledgements at the root -/

theorem ackNote_eq (m : KindMsg) (s : State) : ackNote m s =
    if m.step.toNat ≠ s.step.next ∨ s.step.acks.contains (m.member, m.kind, m.attempt.toNat) then s
    else { s with step := { s.step with acks := s.step.acks ++ [(m.member, m.kind, m.attempt.toNat)] } } := rfl

/-- Noting a message leaves all that decides whether the attempt can be aborted. -/
theorem canFlood_ackNote (m : KindMsg) (s : State) : canFlood (ackNote m s) = canFlood s := by
  rw [ackNote_eq]
  split <;> rfl

theorem msgNow_ackNote (m : KindMsg) (s : State) (step : Word) (a : BitVec 8) : msgNow (ackNote m s) step a = msgNow s step a := by
  rw [ackNote_eq]
  split <;> rfl

theorem deadlineReport_eq (m : KindMsg) (s : State) : deadlineReport m s =
    let t := ackNote m (takeCtl (.report m) s)
    if canFlood s && msgNow s m.step m.attempt then
      abortHere (abortMsg t 1 0 (if m.kind = .late then m.member else noMember) m.bucket false) t
    else t := by
  obtain ⟨f, hv⟩ := (takeCtl_frame (.report m) s).exists
  unfold deadlineReport
  rw [hv]
  simp only [canFlood_ackNote, msgNow_ackNote]
  rfl

theorem abortRequest_eq (m : AbortMsg) (s : State) : abortRequest m s =
    if canFlood s && msgNow s m.step m.attempt then abortHere { m with request := false } (takeCtl (.abort m) s)
    else takeCtl (.abort m) s := by
  obtain ⟨f, hv⟩ := (takeCtl_frame (.abort m) s).exists
  unfold abortRequest
  rw [hv]
  rfl

/-! ### STEP_ABORT (R131, R136, R322, R324) -/

theorem stepAbort_eq (m : AbortMsg) (s : State) : stepAbort m s =
    let here := s.img.isSome && m.step.toNat == s.step.next
    let t := takeCtl (.abort m) s
    if m.request then t
    else if here && (m.cause == 3 || m.attempt.toNat == s.step.attempt && (stepState s == 1 || stepState s == 2)) then abortHere m t
    else if here && decide (m.attempt.toNat < s.step.abortedBelow) then addFld RDU_STEP_COUNT_DUP_ABORTS 1 t
    else if s.img.isSome && m.cause == 3 && m.step.toNat == s.step.next + 1 then abortFlood m (faultAtCommit m t)
    else abortFlood m t := by
  obtain ⟨f, hv⟩ := (takeCtl_frame (.abort m) s).exists
  unfold stepAbort
  rw [hv]
  rfl

/-! ### What an abort leaves (R324) -/

/-- Two states with the same cores and the same step, but for the aborts seen. -/
def SameStep (s t : State) : Prop := t.lcores = s.lcores ∧ ∃ seen, t.step = { s.step with seenAborts := seen }

theorem SameStep.refl (s : State) : SameStep s s := ⟨rfl, _, rfl⟩

theorem SameStep.trans {s t u : State} (h : SameStep s t) (k : SameStep t u) : SameStep s u := by
  obtain ⟨hl, seen, hs⟩ := h
  obtain ⟨kl, seen', ks⟩ := k
  exact ⟨kl.trans hl, seen', by rw [ks, hs]⟩

theorem SameStep.of_msg {s t : State} (h : MsgFrame s t) : SameStep s t := ⟨h.lcores, _, h.step⟩

theorem SameStep.ite {c : Prop} [Decidable c] {s t u : State} (ht : SameStep s t) (hu : SameStep s u) :
    SameStep s (if c then t else u) := by
  split
  · exact ht
  · exact hu

theorem withSeen_same (s : State) (seen : List (Nat × Nat × Bool)) :
    SameStep s { s with step := { s.step with seenAborts := seen } } := ⟨rfl, seen, rfl⟩

theorem abortFlood_same (m : AbortMsg) (s : State) : SameStep s (abortFlood m s) := by
  unfold abortFlood
  exact .ite (.refl s) ((withSeen_same s _).trans (.of_msg (floodCtl_frame _ _).msg))

/-- The abort of an attempt for another cause than PROGRAM: after the message and the counters, the state of the step. -/
theorem abortTake_eq {m : AbortMsg} {s : State} (hc : m.cause ≠ 3) (hd : s.step.deferred = []) :
    ∃ v, abortTake m s = setStepState 3 (latCancel v) ∧ v.lcores = s.lcores.map stopForAbort ∧ v.step.buckets = [] ∧
      v.step.commitF = none ∧ v.step.abortedBelow = s.step.attempt + 1 ∧ v.step.next = s.step.next ∧
      v.step.attempt = s.step.attempt := by
  unfold abortTake
  dsimp only
  generalize h1 : (if multiModule s = true then abortFlood m s else s) = s1
  generalize h2 : (if stepState s1 = 1 ∨ stepState s1 = 2 then addFld RDU_STEP_COUNT_ABORTS 1 s1 else s1) = s2
  generalize h3 : (if stepIsOpen s2 = true then setFld RDU_STEP_STAT_LAST_CAUSE m.cause.toNat s2 else s2) = s3
  have hs : SameStep s s3 := by
    have k1 : SameStep s s1 := h1 ▸ .ite (abortFlood_same m s) (.refl s)
    have k2 : SameStep s1 s2 := h2 ▸ .of_msg (.ite (addFld_msg (.refl s1) _ _) (.refl s1))
    have k3 : SameStep s2 s3 := h3 ▸ .of_msg (.ite (setFld_msg (.refl s2) _ _) (.refl s2))
    exact (k1.trans k2).trans k3
  obtain ⟨hl, seen, hst⟩ := hs
  rw [if_neg hc]
  generalize hu : ({ s3 with step := _ } : State) = u
  generalize hm : Ctl.abortAck _ = c
  obtain ⟨f, hf⟩ := (sendRoot_frame c u).exists
  have hud : u.step.deferred = [] := by rw [← hu]; simp only [hst, hd]
  rw [hf]
  have hdef : (dropStoppedTxns (modAllL stopForAbort { u with fab := f })).step.deferred = [] := hud
  rw [hdef, List.foldl_nil]
  refine ⟨_, rfl, ?_, rfl, rfl, ?_, ?_, ?_⟩
  · show u.lcores.map stopForAbort = _
    rw [← hu, ← hl]
  · show u.step.attempt + 1 = _
    simp only [← hu, hst]
  · show u.step.next = _
    simp only [← hu, hst]
  · show u.step.attempt = _
    simp only [← hu, hst]

@[simp] theorem setStepState_step (v : Nat) (s : State) : (setStepState v s).step = s.step := by
  simp only [setStepState, setFld_step]
@[simp] theorem setStepState_lcores (v : Nat) (s : State) : (setStepState v s).lcores = s.lcores := by
  simp only [setStepState, setFld_lcores]

theorem abortTake_state {m : AbortMsg} {s : State} (hc : m.cause ≠ 3) (hd : s.step.deferred = []) :
    let t := abortTake m s
    fld t RDU_STEP_STAT_STATE = 3 ∧ t.step.buckets = [] ∧ t.step.commitF = none ∧ t.step.abortedBelow = s.step.attempt + 1 ∧
    t.step.next = s.step.next ∧ t.step.attempt = s.step.attempt ∧ t.lcores = s.lcores.map stopForAbort := by
  obtain ⟨v, h, hl, hv⟩ := abortTake_eq hc hd
  have hf := latCancel_mf (.refl v)
  dsimp only
  rw [h, setStepState_step, setStepState_lcores, hf.step, hf.lcores, hl]
  obtain ⟨h1, h2, h3, h4, h5⟩ := hv
  exact ⟨fld_setStepState 3 _, h1, h2, h3, h4, h5, rfl⟩

theorem abortHere_below {m : AbortMsg} {s : State} (h : s.step.attempt < 15 ∨ actsRoot s = false) : abortHere m s = abortTake m s := by
  refine if_neg ?_
  rintro ⟨-, ha, hn⟩
  rcases h with h | h
  · omega
  · simp [h] at ha

/-! ### The rows -/

theorem exec_ordered_of {i : Instr} {f : Packet → Bool} {s t : State} (he : exec i s = liveNext s (ordered f s t)) (hs : live s = true)
    (ho : inOrder f s = true) : exec i s = .next t := by
  rw [he, liveNext_of_live hs, ordered, if_pos ho]

theorem contributionDeadline_off {s : State} (id : BitVec 32) (h : isLocked s = false ∨ stepState s ≠ 1) :
    contributionDeadline id s = s := by
  refine if_pos ?_
  rcases h with h | h <;> simp [h]

/-- Settles O33: each row by the equation of its function. -/
theorem attemptsAreAborted : Obligations.AttemptsAreAborted := by
  unfold Obligations.AttemptsAreAborted
  refine ⟨fun s b hs hl hst hb hd hr hdue hturn hid => ?_, fun id s hs h => ?_, fun m s hs ho => ?_, fun m s hs ho => ?_,
    fun m s hs ho => ?_, fun m s hs ho => ?_, fun m s hd hc h => ?_⟩
  · refine (liveNext_of_live hs _).trans ?_
    have hget : getBucket s b.id = some b := by simp [getBucket, hb]
    rw [hget, if_pos hturn, contributionDeadline_only hl hst hb hd hr hdue hid]
    rfl
  · refine (liveNext_of_live hs _).trans ?_
    rw [contributionDeadline_off id h, ite_self]
  · rw [exec_ordered_of (t := ackNote m (takeCtl (.abortAck m) s)) rfl hs ho]
    have hstep : (takeCtl (.abortAck m) s).step = s.step := (takeCtl_frame (.abortAck m) s).msg.step
    refine ⟨fun hn hc => ?_, fun hn => ?_⟩
    · rw [ackNote_eq, hstep, if_neg (by simp [hn]; simpa using hc)]
    · rw [ackNote_eq, hstep, if_pos (.inl hn)]
  · rw [exec_ordered_of (t := deadlineReport m s) rfl hs ho, deadlineReport_eq]
    refine ⟨fun h1 h2 => by rw [if_pos (by simp [h1, h2])]; rfl, fun h => ?_⟩
    rw [if_neg (by rcases h with h | h <;> simp [h])]
  · rw [exec_ordered_of (t := abortRequest m s) rfl hs ho, abortRequest_eq]
    refine ⟨fun h1 h2 => by rw [if_pos (by simp [h1, h2])], fun h => ?_⟩
    rw [if_neg (by rcases h with h | h <;> simp [h])]
  · rw [exec_ordered_of (t := stepAbort m s) rfl hs ho, stepAbort_eq]
    refine ⟨fun h => by rw [if_pos h], fun hr hi hn h => ?_, fun hr hi hn hc ha h => ?_, fun hr hi => ?_⟩
    · obtain ⟨i, hi⟩ := Option.ne_none_iff_exists'.mp hi
      rw [if_neg (by simp [hr]), if_pos]
      rcases h with h | ⟨h1, h2⟩
      · simp [hi, hn, h]
      · simp [hi, hn, h1, h2]
    · obtain ⟨i, hi⟩ := Option.ne_none_iff_exists'.mp hi
      rw [if_neg (by simp [hr]), if_neg, if_pos (by simp [hi, hn, ha])]
      rcases h with h | ⟨h1, h2⟩
      · simp [h, show ¬ m.cause = 3#8 from hc]
      · simp [h1, h2, show ¬ m.cause = 3#8 from hc]
    · rw [if_neg (by simp [hr]), if_neg (by simp [hi]), if_neg (by simp [hi]), if_neg (by simp [hi])]
  · dsimp only
    rw [abortHere_below h]
    exact abortTake_state hc hd

end Sys2Proof.Machine
end

section
/-! PROOF. The repeat of an attempt: its designation (settles O34), the restore, holds, releases and the resume (settles O35). -/
namespace Sys2Proof.Machine

/-! ### The designation of a repeat (R325 to R327, R440) -/

theorem collectionClose_all {s : State} {f : Nat} (hc : s.step.closeF = some f) (ha : actsRoot s = true) (hl : isLocked s = true)
    (hf : f ≤ s.frame.f) (h1 : lateMembers s = []) (h2 : missingMembers s = []) :
    collectionClose s =
      let s1 := { s with step := { s.step with closeF := none, prevLate := [] } }
      let d : Designation := ⟨BitVec.ofNat 64 s.step.next, BitVec.ofNat 8 (s.step.attempt + 1),
        s.frame.f + fld s RDU_STEP_CTRL_RESTART_LEAD, s.step.holds != [], []⟩
      repeatTake d (designate (.repeatD d) s1) := by
  unfold collectionClose
  rw [hc]
  dsimp only
  rw [if_neg (by simp [ha, hl]; omega), h1, h2]
  simp only [List.append_nil, List.eraseDups_nil, List.filter_nil, List.foldl_nil]
  rfl

theorem escalate_nobody (s : State) : escalate [] s = s := by
  unfold escalate
  rw [if_neg (by simp)]
  cases s.lat.hold.held with
  | none => rfl
  | some p => simp

/-- A module that still restores keeps a designation of its next attempt. -/
theorem repeatTake_restoring {d : Designation} {s : State} (hst : stepState s = 3) (hn : d.step.toNat = s.step.next)
    (ha : d.attempt.toNat = s.step.attempt + 1) (he : d.escalated = []) :
    repeatTake d s = { s with step := { s.step with repeatF := some (d.attempt.toNat, d.frame, d.held) } } := by
  unfold repeatTake
  dsimp only
  rw [if_pos (by simp [hn, hst, ha]), he, escalate_nobody]
  simp only [List.append_nil]
  have h4 (u : State) (hu : stepState u = 3) (r : Nat × Nat → State) :
      (match repeatDue u with
        | some (a, f) => if stepState u = 4 then r (a, f) else u
        | none => u) = u := by
    split
    · rw [hu, if_neg (by decide)]
    · rfl
  exact h4 { s with step := { s.step with repeatF := some (d.attempt.toNat, d.frame, d.held) } } hst (fun x => repeatOpen x.1 x.2 true _)

theorem repeatTake_other {d : Designation} {s : State} (hn : d.step.toNat ≠ s.step.next) : repeatTake d s = s := by
  unfold repeatTake
  dsimp only
  rw [if_neg (by simp [hn]), if_neg (by simp [hn])]

theorem desigOnce_first {c : Ctl} {s : State} (h : desigSeen s c = false) (t : State) : desigOnce c s t = t := if_neg (by simp [h])
theorem desigOnce_again {c : Ctl} {s : State} (h : desigSeen s c = true) (t : State) : desigOnce c s t = takeCtl c s := if_pos h

/-- An abort of cause PROGRAM ends the image. -/
theorem abortTake_program {m : AbortMsg} {s : State} (h : m.cause = 3) : (abortTake m s).img = none := by
  unfold abortTake
  dsimp only
  rw [if_pos h]
  exact imageEnd_img _ _ _

/-- Settles O34: the designation as the acting root makes it, and as a module that restores takes it. -/
theorem repeatsAreDesignated : Obligations.RepeatsAreDesignated := by
  unfold Obligations.RepeatsAreDesignated
  refine ⟨fun s f hs hc ha hl hf h1 h2 => (liveNext_of_live hs _).trans ?_, fun m s hc ha hn => ?_,
    fun s hs hc => (liveNext_of_live hs _).trans ?_, fun d s hs ho => ?_⟩
  · rw [collectionClose_all hc ha hl hf h1 h2]
  · have h : abortHere m s = abortTake (abortMsg (abortTake m s) 3 cSTEP_EXHAUSTED noMember 0 false) (abortTake m s) :=
      if_pos ⟨hc, ha, hn⟩
    exact ⟨h, h ▸ abortTake_program rfl⟩
  · rw [collectionClose, hc]
  · obtain ⟨f, hv⟩ := (passOn_frame (.repeatD d) s).exists
    rw [exec_ordered_of (t := desigOnce (.repeatD d) s (repeatTake d (passOn (.repeatD d) s))) rfl hs ho, hv]
    refine ⟨fun h => by rw [desigOnce_again h], fun h hst hn hat he => ?_, fun h hn => ?_⟩
    · rw [desigOnce_first h, repeatTake_restoring (s := { s with fab := f }) hst hn hat he]
    · rw [desigOnce_first h, repeatTake_other (s := { s with fab := f }) hn]

/-! ### Restore and repeat (R242, R327, R407) -/

theorem fld_setStepState_apart {g : Fld} (v : Nat) (s : State) (h : rRDU_STEP_STAT ≠ g.addr) : fld (setStepState v s) g = fld s g := by
  rw [setStepState, fld_setFld_apart _ _ (by decide) (fldApart_of (.inl h)), fld_setFld_apart _ _ (by decide) (fldApart_of (.inl h)),
    fld_setFld_apart _ _ (by decide) (fldApart_of (.inl h))]

theorem repeatDue_of {s : State} {a f : Nat} (hl : isLocked s = true) (hr : s.step.repeatF = some (a, f, false)) (hf : f ≤ s.frame.f) :
    repeatDue s = some (a, f) := by
  simp [repeatDue, hl, hr, hf]

theorem repeatDue_none {s : State} (hr : s.step.repeatF = none) : repeatDue s = none := by
  simp [repeatDue, hr]

theorem isLocked_restoreEnd (s : State) : isLocked (restoreEnd s) = isLocked s := by
  have h := fld_setStepState_apart (g := FRM_STAT_STATE) 4 { s with lat := { s.lat with restoring := false } } (by decide)
  rw [isLocked, restoreEnd, h]
  rfl

theorem restoreEnd_step (s : State) : (restoreEnd s).step = s.step := by rw [restoreEnd, setStepState_step]

theorem setStepState_frame (v : Nat) (s : State) : (setStepState v s).frame = s.frame := by
  simp only [setStepState, setFld_frame]

theorem latchRestoreDone_waits {s : State} (hst : stepState s = 3) (hr : s.lat.restoring = true) (hn : s.step.repeatF = none) :
    latchRestoreDone s = restoreEnd s := by
  have hd : repeatDue (restoreEnd s) = none := repeatDue_none (by rw [restoreEnd_step, hn])
  unfold latchRestoreDone
  rw [if_neg (by simp [hst, hr]), hd]

theorem latchRestoreDone_late {s : State} {a f : Nat} (hst : stepState s = 3) (hr : s.lat.restoring = true) (hl : isLocked s = true)
    (hn : s.step.repeatF = some (a, f, false)) (hf : f ≤ s.frame.f) : latchRestoreDone s = repeatOpen a f true (restoreEnd s) := by
  have hd : repeatDue (restoreEnd s) = some (a, f) := by
    refine repeatDue_of ((isLocked_restoreEnd s).trans hl) (by rw [restoreEnd_step, hn]) ?_
    rw [restoreEnd, setStepState_frame]
    exact hf
  unfold latchRestoreDone
  rw [if_neg (by simp [hst, hr]), hd]

/-! ### Holds, releases and the resume (R437, R438, R441) -/

theorem recoveryHold_noted {m : MemberMsg} {s : State} (hn : m.step.toNat = s.step.next) (ha : m.attempt.toNat = s.step.attempt + 1)
    (hr : s.step.repeatF = none) (hc : s.step.holds.contains m.member = false) :
    recoveryHold m s = { takeCtl (.hold m) s with step := { s.step with holds := s.step.holds ++ [m.member] } } := by
  obtain ⟨f, hv⟩ := (takeCtl_frame (.hold m) s).exists
  unfold recoveryHold
  rw [hv]
  dsimp only
  rw [if_neg (by simp [hn, ha]), hr, if_neg (ne_true_of_eq_false hc)]
  split
  · rename_i h; cases h
  · rfl

theorem recoveryHold_other {m : MemberMsg} {s : State} (h : m.step.toNat ≠ s.step.next ∨ m.attempt.toNat ≠ s.step.attempt + 1) :
    recoveryHold m s = takeCtl (.hold m) s := by
  obtain ⟨f, hv⟩ := (takeCtl_frame (.hold m) s).exists
  unfold recoveryHold
  rw [hv]
  exact if_pos h

theorem recoveryRelease_last {m : MemberMsg} {s : State} {a f : Nat} (hn : m.step.toNat = s.step.next)
    (hh : s.step.holds = [m.member]) (hr : s.step.repeatF = some (a, f, true)) :
    recoveryRelease m s =
      let s2 := { takeCtl (.release m) s with step := { s.step with holds := [] } }
      let d : Designation := ⟨BitVec.ofNat 64 s.step.next, BitVec.ofNat 8 a, s.frame.f + fld s RDU_STEP_CTRL_RESTART_LEAD, false, []⟩
      if actsRoot s2 then resumeTake d (designate (.resume d) s2) else s2 := by
  obtain ⟨f, hv⟩ := (takeCtl_frame (.release m) s).exists
  unfold recoveryRelease
  rw [hv]
  dsimp only
  have hfilter : s.step.holds.filter (· != m.member) = [] := by rw [hh]; simp
  rw [if_neg (by simp [hn, hh]), hfilter, hr]
  simp only [beq_self_eq_true, Bool.and_true]
  rfl

theorem resumeTake_held {d : Designation} {s : State} {a f : Nat} (hr : s.step.repeatF = some (a, f, true))
    (hn : d.step.toNat = s.step.next) (ha : d.attempt.toNat = a) :
    resumeTake d s = rootBack { s with step := { s.step with repeatF := some (a, d.frame, false) } } := by
  unfold resumeTake
  rw [hr]
  exact if_pos ⟨hn, ha⟩

theorem resumeTake_first {d : Designation} {s : State} (hr : s.step.repeatF = none) (hn : d.step.toNat = s.step.next)
    (ha : s.step.any = false) (hi : s.img ≠ none) :
    resumeTake d s = rootBack { s with step := { s.step with repeatF := some (d.attempt.toNat, d.frame, false) } } := by
  obtain ⟨i, hi⟩ := Option.ne_none_iff_exists'.mp hi
  unfold resumeTake
  rw [hr]
  exact if_pos ⟨hn, by simp [ha], by simp [hi]⟩

theorem resumeTake_free {d : Designation} {s : State} {a f : Nat} (hr : s.step.repeatF = some (a, f, false)) : resumeTake d s = s := by
  unfold resumeTake
  rw [hr]

/-- Settles O35: the restore and its end, the open at the frame, and the messages of R437 and R438, each by its equation. -/
theorem attemptsAreRepeated : Obligations.AttemptsAreRepeated := by
  unfold Obligations.AttemptsAreRepeated
  refine ⟨fun s hs hst hr => (liveNext_of_live hs _).trans ?_, fun s hs hst => (liveNext_of_live hs _).trans ?_,
    fun s hs hst hr hn => (liveNext_of_live hs _).trans ?_, fun s a f hs hl hn hf => ⟨fun hst => (liveNext_of_live hs _).trans ?_,
      fun hst hr => (liveNext_of_live hs _).trans ?_⟩, fun s hs hn => (liveNext_of_live hs _).trans ?_, fun m s hs hn ha hr hc ho => ?_,
    fun m s hs ho h => ?_, fun m s a f hs hn hh hr ho => ?_, fun d s a f hs ho hn => ?_, fun s => ⟨rfl, rfl, rfl, rfl⟩⟩
  · rw [if_pos (by simp [hst, hr])]
  · rw [if_neg (by simp [hst])]
  · rw [latchRestoreDone_waits hst hr hn, restoreEnd]
  · rw [repeatDue_of hl hn hf]
    simp only [hst, if_true]
  · rw [latchRestoreDone_late hst hr hl hn hf, restoreEnd]
  · rw [repeatDue_none hn]
  · have hstep : (takeCtl (.hold m) s).step = s.step := (takeCtl_frame (.hold m) s).msg.step
    rw [exec_ordered_of (t := recoveryHold m s) rfl hs ho, recoveryHold_noted hn ha hr hc]
    simp only [hstep]
  · rw [exec_ordered_of (t := recoveryHold m s) rfl hs ho, recoveryHold_other h]
  · have hstep : (takeCtl (.release m) s).step = s.step := (takeCtl_frame (.release m) s).msg.step
    rw [exec_ordered_of (t := recoveryRelease m s) rfl hs ho, recoveryRelease_last hn hh hr]
    dsimp only
    rw [hstep]
    exact ⟨fun h => by rw [if_pos h], fun h => by rw [if_neg (by simp [h])]⟩
  · obtain ⟨g, hv⟩ := (passOn_frame (.resume d) s).exists
    rw [exec_ordered_of (t := desigOnce (.resume d) s (resumeTake d (passOn (.resume d) s))) rfl hs ho, hv]
    refine ⟨fun h => by rw [desigOnce_again h], fun h hr ha => ?_, fun h hr hany hi => ?_, fun h hr => ?_⟩
    · rw [desigOnce_first h, resumeTake_held (s := { s with fab := g }) hr hn ha]
    · rw [desigOnce_first h, resumeTake_first (s := { s with fab := g }) hr hn hany hi]
    · rw [desigOnce_first h, resumeTake_free (s := { s with fab := g }) hr]

end Sys2Proof.Machine
end

section
/-! PROOF. First touches and the end of a copy (settles O36), and cuts (settles O37). -/
namespace Sys2Proof.Machine

/-! ### First touches (R399) -/

/-- Starting waiting copies changes which of the jobs run, and nothing of the map. -/
theorem jobsStart_map (d n : Nat) (s : State) : (jobsStart d n s).lat.map = s.lat.map ∧ (jobsStart d n s).mem = s.mem ∧
    (jobsStart d n s).lat.jobs.length = s.lat.jobs.length := by
  induction n generalizing s with
  | zero => exact ⟨rfl, rfl, rfl⟩
  | succ n ih =>
    unfold jobsStart
    split
    · exact ⟨rfl, rfl, rfl⟩
    · dsimp only
      split
      · obtain ⟨h1, h2, h3⟩ := ih _
        exact ⟨h1, h2, h3.trans (List.length_map ..)⟩
      · exact ⟨rfl, rfl, rfl⟩

theorem latStat_lat (d : Nat) (s : State) : (latStat d s).lat = s.lat ∧ (latStat d s).mem = s.mem := by
  unfold latStat
  dsimp only
  exact ⟨by rw [setFld_lat, setFld_lat], by rw [setFld_mem, setFld_mem]⟩

/-- A first touch: the granule copies with the write in it, and a job waits. -/
theorem granCopy_leaves (g : Nat) (held : List HWrite) (s : State) :
    getGran (granCopy g held s) g = { getGran s g with st := .copying, held := held } ∧ (granCopy g held s).mem = s.mem ∧
    (granCopy g held s).lat.jobs.length = s.lat.jobs.length + 1 ∧ (granCopy g held s).lcores = s.lcores := by
  have hl := (granCopy_mf (.refl s) g held).lcores
  unfold granCopy
  dsimp only
  generalize hu : setGran g { getGran s g with st := .copying, held := held } s = u
  generalize hv : { u with lat := { u.lat with jobs := _ } } = v
  obtain ⟨h1, h2⟩ := latStat_lat (dieOfGran g) (jobsStart (dieOfGran g) 8 v)
  obtain ⟨k1, k2, k3⟩ := jobsStart_map (dieOfGran g) 8 v
  refine ⟨?_, ?_, ?_, ?_⟩
  · have hmap : v.lat.map = u.lat.map := by rw [← hv]
    rw [getGran, h1, k1, hmap]
    exact hu ▸ (getGran_setGran g _ s g).trans (if_pos rfl)
  · rw [h2, k2, ← hv, ← hu]; rfl
  · rw [h1, k3, ← hv, ← hu]
    exact List.length_append
  · rw [← hv, ← hu]
    exact (latStat_mf (jobsStart_mf (withLat_mf (setGran_mf (.refl s) _ _) _) _ _) _).lcores

/-- A write that lies in one protected granule is a first touch. -/
theorem hbmWrite_firstTouch {path : WritePath} {a : Nat} {bs : List Byte} {s : State} (hb : 0 < bs.length)
    (h : a % granBytes + bs.length ≤ granBytes) (hp : (getGran s (a / granBytes)).st = .protect) :
    hbmWrite (plainWrite path a bs) s = granCopy (a / granBytes) [plainWrite path a bs] s := by
  have hg : granulesOf (plainWrite path a bs).a (plainWrite path a bs).bs.length = [a / granBytes] := granulesOf_within hb h
  rw [hbmWrite, hg, List.foldl_cons, List.foldl_nil, plainWrite_within h, granPut]
  rw [if_neg (by rw [hp]; decide), if_pos (by simp [needsCopy, hp])]

/-- Settles O36: the first touch by `granCopy_leaves`, the end of the only copy by its row. -/
theorem firstTouchIsCopied : Obligations.FirstTouchIsCopied := by
  unfold Obligations.FirstTouchIsCopied
  refine ⟨fun a bs path s hs hr hb hin => ?_, fun a bs path s hs h => (liveNext_of_live hs _).trans ?_,
    fun d g j s hs hj hg hrun hd => ⟨fun hbad => (liveNext_of_live hs _).trans ?_, fun hbad => (liveNext_of_live hs _).trans ?_⟩,
    fun d g s hs hj => (liveNext_of_live hs _).trans ?_⟩
  · dsimp only
    intro hp
    have hany : (granulesOf a bs.length).any (fun g => needsCopy (getGran s g)) = true := by
      rw [granulesOf_within hb hin]
      simp [needsCopy, hp]
    obtain ⟨h1, h2, h3, h4⟩ := granCopy_leaves (a / granBytes) [plainWrite path a bs] s
    refine ⟨_, (liveNext_of_live hs _).trans ?_, h1, h2, h3, h4⟩
    rw [if_pos (by rw [hr, hany]; rfl), hbmWrite_firstTouch hb hin hp]
  · rw [if_neg (by rw [h]; simp)]
  · have hfind : s.lat.jobs.find? (fun j => j.gran == g && j.running && dieOfGran j.gran == d.val) = some j := by
      rw [hj]; simp [hg, hrun, hd]
    rw [hfind]
    dsimp only
    rw [if_neg (by rw [hbad]; decide)]
  · have hfind : s.lat.jobs.find? (fun j => j.gran == g && j.running && dieOfGran j.gran == d.val) = some j := by
      rw [hj]; simp [hg, hrun, hd]
    rw [hfind]
    dsimp only
    rw [if_pos hbad]
  · rw [hj]
    rfl

/-! ### Cuts (R57, R409) -/

theorem bits_zero (v w : Nat) : bits v 0 w = v % 2 ^ w := by simp [bits]

theorem cutDue_only {s : State} {r : CutReq} (hl : isLocked s = true) (hc : s.lat.cuts = [r]) (hf : r.frame ≤ s.frame.f) :
    cutDue s = some r := by
  simp [cutDue, hl, hc, hf]

theorem cutDue_none {s : State} (hc : s.lat.cuts = []) : cutDue s = none := by
  simp [cutDue, hc]

/-- What is held of a core or of the loop service comes after the cuts in R51. -/
theorem heldCore_cls {s : State} {ci : Nat} {h : Held} (hh : h ∈ heldCore s ci) : h.cls = 4 := by
  unfold heldCore at hh
  split at hh
  · cases hh
  · rcases List.mem_append.mp hh with hh | hh
    · split at hh
      · split at hh
        · rw [List.mem_singleton.mp hh]
        · cases hh
      · cases hh
    · obtain ⟨e, -, he⟩ := List.mem_filterMap.mp hh
      split at he
      · rw [← Option.some.inj he]
      · cases he

theorem heldRest_cls {s : State} {h : Held} (hh : h ∈ heldRest s) : 5 ≤ h.cls := by
  unfold heldRest at hh
  simp only [List.mem_append, List.mem_map, List.mem_flatMap] at hh
  rcases hh with (⟨w, -, rfl⟩ | ⟨q, -, e, -, rfl⟩) | ⟨b, -, rfl⟩ <;> simp

/-- Without a commit, a repeat or a close to come, nothing held precedes a cut. -/
theorem inTurn_cut {s : State} {due : Nat} (h1 : s.step.commitF = none) (h2 : s.step.repeatF = none) (h3 : s.step.closeF = none) :
    inTurn s 3 due = true := by
  have hall : ∀ h ∈ heldAll s, ¬ h.cls < 3 := by
    intro h hh
    simp only [heldAll, List.mem_append, List.mem_flatMap] at hh
    rcases hh with (hh | ⟨ci, -, hh⟩) | hh
    · simp only [heldSteps, h1, h2, h3, List.nil_append, List.mem_map] at hh
      obtain ⟨r, -, rfl⟩ := hh
      simp
    · rw [heldCore_cls hh]; decide
    · have := heldRest_cls hh; omega
  simp only [inTurn, Bool.or_eq_true, List.all_eq_true]
  exact .inr fun h hh => by simp [hall h hh]

/-- A commit that is due comes before a cut. -/
theorem inTurn_commit {s : State} {f k : Nat} (hl : isLocked s = true) (hst : stepState s = 2)
    (hc : s.step.commitF = some (s.step.next, f)) (hf : f ≤ s.frame.f) (hnow : f * 65536 ≤ (sysTime s).toNat) (hk : f ≤ k) :
    inTurn s 3 (k * 65536) = false := by
  have hmem : (⟨f * 65536, 2, .commit⟩ : Held) ∈ heldAll s := by
    simp [heldAll, heldSteps, hc]
  simp only [inTurn, hl, Bool.not_true, Bool.false_or, List.all_eq_false]
  refine ⟨_, hmem, ?_⟩
  simp [Held.due, heldDue, commitReady_of hl hst hc hf, hnow]
  omega

theorem fld_withLat (s : State) (l : LatSt) (g : Fld) : fld { s with lat := l } g = fld s g := rfl

/-- A cut accepted is the last of those that wait, and shows in LAT_SNAP_STAT. -/
theorem cutAccept_leaves (r : CutReq) (s : State) : let t := cutAccept r s
    t.lat.cuts = s.lat.cuts ++ [r] ∧ fld t LAT_SNAP_STAT_SNAP_ID = r.snapId.toNat ∧ fld t LAT_SNAP_STAT_CUT_TAKEN = 0 ∧
    fld t LAT_SNAP_STAT_T1 = (if r.tier1 then 1 else 0) ∧ fld t LAT_SNAP_STAT_T2 = (if r.tier2 then 1 else 0) ∧ t.mem = s.mem := by
  unfold cutAccept
  dsimp only
  refine ⟨?_, ?_, ?_, ?_, ?_, ?_⟩
  · simp only [setFld_lat]
  · rw [fld_withLat, fld_setFld_apart _ _ (by decide) (by decide), fld_setFld_apart _ _ (by decide) (by decide),
      fld_setFld_apart _ _ (by decide) (by decide), fld_setFld_same _ _ _ (by decide)]
    exact Nat.mod_eq_of_lt r.snapId.isLt
  · rw [fld_withLat, fld_setFld_apart _ _ (by decide) (by decide), fld_setFld_apart _ _ (by decide) (by decide),
      fld_setFld_same _ _ _ (by decide)]
    rfl
  · rw [fld_withLat, fld_setFld_apart _ _ (by decide) (by decide), fld_setFld_same _ _ _ (by decide)]
    split <;> rfl
  · rw [fld_withLat, fld_setFld_same _ _ _ (by decide)]
    split <;> rfl
  · simp only [setFld_mem]

theorem cutRequest_eq (r : CutReq) (s : State) : cutRequest r s =
    let s1 := takeCtl (.cut r) s
    let s2 := floodCtl (.cut r) { s1 with fab := { s1.fab with seenCuts := r.snapId :: s1.fab.seenCuts } }
    if s1.fab.seenCuts.contains r.snapId then s1
    else if !isLocked s || r.frame ≤ s.frame.f then cutRefuse r s2 else cutAccept r s2 := by
  obtain ⟨f, hv⟩ := (takeCtl_frame (.cut r) s).exists
  unfold cutRequest
  rw [hv]
  dsimp only
  have hf : FabFrame s (floodCtl (.cut r) { s with fab := { f with seenCuts := r.snapId :: f.seenCuts } }) :=
    FabFrame.after (floodCtl_frame _ _) rfl
  generalize floodCtl (.cut r) _ = v at hf ⊢
  rw [isLocked_congr hf.fld, hf.msg.frame]

/-- Settles O37: requests by the test of the frame they name, cuts by the only one that is due. -/
theorem cutsAreAcceptedAndTaken : Obligations.CutsAreAcceptedAndTaken := by
  unfold Obligations.CutsAreAcceptedAndTaken
  refine ⟨fun v s hs => ⟨fun hl hf => (liveNext_of_live hs _).trans ?_, fun h => (liveNext_of_live hs _).trans ?_⟩,
    fun r s hs ho => ?_, cutAccept_leaves, fun r s hs hl hc hf => (liveNext_of_live hs _).trans ?_,
    fun s f k hl hst hc hf hnow hk => inTurn_commit hl hst hc hf hnow hk,
    fun r s hs hl hc hf h1 h2 h3 => (liveNext_of_live hs _).trans ?_, fun s hs hc => (liveNext_of_live hs _).trans ?_⟩
  · unfold latCut
    simp only [bits_zero]
    rw [if_neg (by simp [hl]; omega)]
  · unfold latCut
    simp only [bits_zero]
    rw [if_pos]
    · rfl
    · rcases h with h | h
      · simp [h]
      · simp only [Bool.or_eq_true, decide_eq_true_eq]
        exact .inr h
  · dsimp only
    rw [exec_ordered_of (t := cutRequest r s) rfl hs ho, cutRequest_eq]
    dsimp only
    refine ⟨fun h => by rw [if_pos h], fun h hl hf => ?_, fun h h' => ?_⟩
    · rw [if_neg (ne_true_of_eq_false h), if_neg (by simp [hl]; omega)]
    · rw [if_neg (ne_true_of_eq_false h), if_pos (by rcases h' with h' | h' <;> simp [h'])]
      rfl
  · rw [cutDue_only hl hc hf]
  · rw [cutDue_only hl hc hf]
    dsimp only
    rw [if_pos (inTurn_cut h1 h2 h3)]
  · rw [cutDue_none hc]

end Sys2Proof.Machine
end

section
/-! PROOF. Tier-1 transfers and the archive link (settles O38). -/
namespace Sys2Proof.Machine

/-! ### The latch's own state apart from its map, its jobs and its directory -/

/-- Two states whose latch units differ at most in the map, the jobs and the directory, and that agree in LAT_SNAP_STAT. -/
def CutFrame (s t : State) : Prop :=
  t.lat = { s.lat with map := t.lat.map, jobs := t.lat.jobs, dir := t.lat.dir } ∧ ∀ g : Fld, g.addr = rLAT_SNAP_STAT → fld t g = fld s g

theorem CutFrame.refl (s : State) : CutFrame s s := ⟨rfl, fun _ _ => rfl⟩

theorem CutFrame.trans {s t u : State} (h : CutFrame s t) (k : CutFrame t u) : CutFrame s u := by
  obtain ⟨h1, h2⟩ := h
  obtain ⟨k1, k2⟩ := k
  exact ⟨by rw [k1, h1], fun g hg => (k2 g hg).trans (h2 g hg)⟩

theorem CutFrame.ite {c : Prop} [Decidable c] {s t u : State} (ht : CutFrame s t) (hu : CutFrame s u) :
    CutFrame s (if c then t else u) := by
  split
  · exact ht
  · exact hu

theorem CutFrame.foldl {α : Type} {z : State} {f : State → α → State} (h : ∀ s a, CutFrame z s → CutFrame z (f s a))
    (l : List α) {s : State} (hs : CutFrame z s) : CutFrame z (l.foldl f s) := by
  induction l generalizing s with
  | nil => exact hs
  | cons a l ih => exact ih (h s a hs)

section
variable {z s : State} (h : CutFrame z s)
include h

theorem CutFrame.setFld {f : Fld} (hf : f.lo + f.w ≤ 64) (ha : f.addr ≠ rLAT_SNAP_STAT) (v : Nat) : CutFrame z (setFld f v s) := by
  obtain ⟨h1, h2⟩ := h
  refine ⟨h1, fun g hg => ?_⟩
  rw [fld_setFld_apart _ _ hf (fldApart_of (.inl fun e => ha (e.trans hg))), h2 g hg]

/-- The map, the jobs, the directory and memory may be anything. -/
theorem CutFrame.set (m : SMap Gran) (js : List CopyJob) (d : SMap DirEnt) (mem : Mem) :
    CutFrame z { s with mem := mem, lat := { s.lat with map := m, jobs := js, dir := d } } := by
  obtain ⟨h1, h2⟩ := h
  exact ⟨by rw [h1], h2⟩

theorem setGran_cut (g : Nat) (e : Gran) : CutFrame z (setGran g e s) := h.set _ _ _ _
theorem dirPut_cut (k : Nat) (e : Option DirEnt) : CutFrame z (dirPut k e s) := h.set _ _ _ _
theorem withJobs_cut (js : List CopyJob) : CutFrame z { s with lat := { s.lat with jobs := js } } := h.set _ _ _ _

theorem latStat_cut (d : Nat) : CutFrame z (latStat d s) := by
  have ha : rLAT_DIE_STAT d ≠ rLAT_SNAP_STAT := by simp only [rLAT_DIE_STAT, rLAT_SNAP_STAT]; omega
  exact (h.setFld (Nat.le_of_ble_eq_true rfl) ha _).setFld (Nat.le_of_ble_eq_true rfl) ha _

end

theorem jobsStart_cut {z s : State} (h : CutFrame z s) (d n : Nat) : CutFrame z (jobsStart d n s) := by
  induction n generalizing s with
  | zero => exact h
  | succ n ih =>
    unfold jobsStart
    refine .ite h ?_
    split
    · exact ih (withJobs_cut h _)
    · exact h

theorem cutRelease_cut {z s : State} (h : CutFrame z s) (g : Nat) : CutFrame z (cutRelease g s) := by
  unfold cutRelease
  dsimp only
  split
  · exact h
  · exact .ite h (latStat_cut (jobsStart_cut (setGran_cut (.ite (dirPut_cut h _ _) (dirPut_cut h _ _)) _ _) _ _) _)

theorem cutClear_cut {z s : State} (h : CutFrame z s) (b : Bool) (g : Nat) : CutFrame z (cutClear b g s) := by
  unfold cutClear
  exact cutRelease_cut (setGran_cut h _ _) _

theorem cutClearAll_cut {z s : State} (h : CutFrame z s) (a b : Bool) : CutFrame z (cutClearAll a b s) := by
  unfold cutClearAll
  exact CutFrame.foldl (fun s p hs => .ite hs (cutClear_cut (.ite (setGran_cut hs _ _) hs) _ _)) _ h

theorem listsReg_cut {z s : State} (h : CutFrame z s) : CutFrame z (listsReg s) := h.setFld (by decide) (by decide) _

theorem listEnd_cut {z s : State} (h : CutFrame z s) (op : ListOp) : CutFrame z (listEnd op s) := by
  unfold listEnd
  exact listsReg_cut ⟨h.1, h.2⟩

theorem jRetain_cut {z s : State} (h : CutFrame z s) (q : Nat) : CutFrame z (jRetain q s) := by
  have ha : rTKT_Q_STAT q ≠ rLAT_SNAP_STAT := by simp only [rTKT_Q_STAT, rLAT_SNAP_STAT]; omega
  have hs (f : Fld) (v : Nat) (hf : f.lo + f.w ≤ 64) (hfa : f.addr = rTKT_Q_STAT q) {t : State} (ht : CutFrame z t) :
      CutFrame z (setFld f v t) := ht.setFld hf (hfa ▸ ha) v
  unfold jRetain
  refine .ite (hs _ _ (Nat.le_of_ble_eq_true rfl) rfl ?_) (.ite (hs _ _ (Nat.le_of_ble_eq_true rfl) rfl ?_) ?_) <;> exact hs _ _ (Nat.le_of_ble_eq_true rfl) rfl ⟨h.1, h.2⟩

theorem retainAll_cut {z s : State} (h : CutFrame z s) : CutFrame z (retainAll s) := CutFrame.foldl (fun _ _ hs => jRetain_cut hs _) _ h

theorem report_cut {z s : State} (h : CutFrame z s) (c : Code) (src : Nat) (d : Word) : CutFrame z (report c src d s) := by
  refine ⟨by rw [report_lat]; exact h.1, fun g hg => ?_⟩
  rw [fld_report _ _ _ _ (by rw [hg]; decide), h.2 g hg]

/-! ### The completion of a transfer at its sender (R418) -/

theorem snapStat_lat {f : State → State} (hf : ∀ s, (f s).lat = s.lat) (id : BitVec 32) (s : State) : (snapStat id f s).lat = s.lat := by
  unfold snapStat
  split
  · exact hf s
  · rfl

/-- The state with the transfer taken off, complete or abandoned. -/
theorem t1Complete_leaves {x : Snap} {s : State} (ht : s.lat.t1 = some x) :
    let t := t1Complete x.id s
    t.lat.t1 = none ∧ t.lat.t1Left = none ∧ t.lat.t1Copy = some x ∧ t.lat.t1Holder = partner s ∧
    (fld s LAT_SNAP_STAT_SNAP_ID = x.id.toNat → fld t LAT_SNAP_STAT_T1 = 2) := by
  unfold t1Complete
  rw [ht]
  dsimp only
  rw [if_neg (not_not_intro rfl)]
  generalize hu : ({ s with lat := _ } : State) = u
  have hc := cutClearAll_cut (listEnd_cut (.refl u) .tier1) true false
  generalize cutClearAll true false _ = v at hc
  have hr := retainAll_cut (.refl (snapStat x.id (setFld LAT_SNAP_STAT_T1 2) v))
  have hlat : (retainAll (snapStat x.id (setFld LAT_SNAP_STAT_T1 2) v)).lat =
      { u.lat with map := (retainAll (snapStat x.id (setFld LAT_SNAP_STAT_T1 2) v)).lat.map,
                   jobs := (retainAll (snapStat x.id (setFld LAT_SNAP_STAT_T1 2) v)).lat.jobs,
                   dir := (retainAll (snapStat x.id (setFld LAT_SNAP_STAT_T1 2) v)).lat.dir } := by
    rw [hr.1, snapStat_lat (fun _ => setFld_lat _ _ _), hc.1]
  refine ⟨?_, ?_, ?_, ?_, fun hid => ?_⟩
  · rw [hlat, ← hu]
  · rw [hlat, ← hu]
  · rw [hlat, ← hu]
  · rw [hlat, ← hu]
  · rw [hr.2 _ rfl, snapStat, hc.2 _ rfl, if_pos (by rw [← hu]; exact hid), fld_setFld_same _ _ _ (by decide)]
    rfl

theorem t1Abandon_t1 (s : State) : (t1Abandon s).lat.t1 = none := by
  cases h : s.lat.t1 with
  | none => rw [t1Abandon, h]; exact h
  | some x =>
    unfold t1Abandon
    rw [h]
    dsimp only
    generalize s.lat.t1Sent.foldl _ s = u
    have hc := cutClearAll_cut (listEnd_cut (.refl { u with lat := { u.lat with t1 := none, t1Left := none, t1Sent := [] } }) .tier1)
      true true
    rw [report_lat, snapStat_lat (fun _ => setFld_lat _ _ _), hc.1]

/-! ### The holder's side (R417 to R419) -/

theorem stagedCopy_hold (s : State) (g : Nat × Nat) : (stagedCopy s g).lat.hold = s.lat.hold := rfl

theorem foldl_stagedCopy_hold (l : List (Nat × Nat)) (s : State) : (l.foldl stagedCopy s).lat.hold = s.lat.hold := by
  induction l generalizing s with
  | nil => rfl
  | cons g l ih => rw [List.foldl_cons, ih, stagedCopy_hold]

/-- The staged snapshot becomes the copy. -/
theorem stagedApply_leaves {y : Snap} {s : State} (h : s.lat.hold.staging = some y) :
    (stagedApply s).lat.hold = { s.lat.hold with copy := some y, staging := none, staged := [], recState := 2 } := by
  unfold stagedApply
  rw [h]
  dsimp only
  generalize hu : s.lat.hold.staged.foldl stagedCopy s = u
  have hhold : u.lat.hold = s.lat.hold := hu ▸ foldl_stagedCopy_hold _ s
  rw [(sendCtl_frame _ _ _).msg.lat, ← hhold]
  rfl

theorem t1TransferDone_applied {x : SnapIn} {s : State} (hh : s.lat.hold.held = some x.module)
    (hf : stagingFits s (snapOf true x) = true) : t1TransferDone true x s =
      stagedApply (t1Record (snapOf true x) 1 { s with lat := { s.lat with hold := { s.lat.hold with staging := some (snapOf true x) } } }) := by
  unfold t1TransferDone
  dsimp only
  rw [if_neg (show ¬ s.lat.hold.held ≠ some (snapOf true x).module from not_not_intro hh), if_neg (by simp [hf])]

theorem t1TransferDone_rejected {ok : Bool} {x : SnapIn} {s : State} (hh : s.lat.hold.held = some x.module)
    (hf : ok = false ∨ stagingFits s (snapOf ok x) = false) : t1TransferDone ok x s = stagedReject (snapOf ok x) s := by
  unfold t1TransferDone
  dsimp only
  rw [if_neg (show ¬ s.lat.hold.held ≠ some (snapOf ok x).module from not_not_intro hh),
    if_pos (by rcases hf with h | h <;> simp [h])]

/-! ### The archive link (R420 to R424) -/

theorem arcInbound_arc (s : State) (r : ArcReq) : (arcInbound s r).arc = s.arc := by
  unfold arcInbound
  dsimp only
  split
  · split
    · rfl
    · rw [report_arc]
  · split
    · have h := hbmPut_mf (.refl s)
      rename_i a bs _
      have := h a bs
      unfold MemFrame at this
      rw [this]
    · rw [report_arc]
  · rw [report_arc]

theorem foldl_arcInbound_arc (l : List ArcReq) (s : State) : (l.foldl arcInbound s).arc = s.arc := by
  induction l generalizing s with
  | nil => rfl
  | cons r l ih => rw [List.foldl_cons, ih, arcInbound_arc]

theorem nvmeCompletion_failed (reqs : List ArcReq) (s : State) : nvmeCompletion false reqs s =
    let s2 := report cARC_IO (srcOf 8 10 0) 0 (addFld ARC_COUNT_IO_ERRORS 1 (reqs.foldl arcInbound s))
    if s.arc.cmd.isSome then sealAbandon s2 else s2 := by
  unfold nvmeCompletion
  simp only [Bool.false_eq_true, if_false, report_arc, addFld_arc, foldl_arcInbound_arc]

theorem archiveDown_up {s : State} (h : fldOn s ARC_STAT_LINK_UP = true) : archiveDown s =
    let s1 := setFld ARC_STAT_READY 0 (setFld ARC_STAT_LINK_UP 0 { s with arc := { s.arc with retrainTick := tickNow s } })
    if fldOn s ARC_CTRL_ENABLE then sealAbandon (report cARC_IO (srcOf 8 10 0) 0 s1) else s1 := by
  have he : fldOn (setFld ARC_STAT_READY 0 (setFld ARC_STAT_LINK_UP 0 { s with arc := { s.arc with retrainTick := tickNow s } }))
      ARC_CTRL_ENABLE = fldOn s ARC_CTRL_ENABLE := by
    rw [fldOn, fld_setFld_apart _ _ (by decide) (by decide), fld_setFld_apart _ _ (by decide) (by decide)]
    rfl
  unfold archiveDown
  rw [if_neg (by simp [h])]
  dsimp only
  rw [he]

/-- What the seal's commands write leaves its snapshot and the cores. -/
theorem sealWritten_leaves (slot : Nat) (leafA : Bool) (stage : Nat) (c : NvmeCmd) (x : Snap) (s : State) :
    (sealWritten slot leafA stage c x s).arc.sealSnap = s.arc.sealSnap ∧ (sealWritten slot leafA stage c x s).lcores = s.lcores := by
  have harcWin (u : State) : (arcWin u).arc = u.arc ∧ (arcWin u).lcores = u.lcores := by
    unfold arcWin
    split <;> simp only [setFld_arc, setFld_lcores, and_self]
  unfold sealWritten
  dsimp only
  split
  · have h := MemFrame.foldl (fun s g hs => cutClear_mf hs false g) c.grans (.refl s)
    refine ⟨?_, h.lcores⟩
    unfold MemFrame at h
    rw [h]
  · exact ⟨rfl, rfl⟩
  · rw [(harcWin _).1, (harcWin _).2]
    exact ⟨rfl, rfl⟩
  · exact ⟨rfl, rfl⟩

/-- Settles O38: each row by the equation of its function. -/
theorem snapshotsLeaveTheModule : Obligations.SnapshotsLeaveTheModule := by
  unfold Obligations.SnapshotsLeaveTheModule
  refine ⟨fun ok x s hs => ⟨fun h => (liveNext_of_live hs _).trans ?_, fun hh hok hf => ?_, fun hh hf => ?_⟩,
    fun x id s hs ht hin => ?_, fun x id p s hs ht hin hb hid => ⟨?_, t1Abandon_t1 _⟩,
    fun n found reqs s hs => ⟨fun h => (liveNext_of_live hs _).trans ?_, fun h => (liveNext_of_live hs _).trans ?_⟩,
    fun s hs hup => ⟨fun h => (liveNext_of_live hs _).trans ?_, fun h => (liveNext_of_live hs _).trans ?_⟩,
    fun reqs s hs => ⟨(liveNext_of_live hs _).trans ?_, fun h => (liveNext_of_live hs _).trans ?_,
      fun h => (liveNext_of_live hs _).trans ?_⟩,
    fun slot stage leafA x c s hs hj hx hc => ⟨_, liveNext_of_live hs _, ?_⟩⟩
  · unfold t1TransferDone
    exact congrArg _ (if_pos h)
  · subst hok
    refine ⟨_, (liveNext_of_live hs _).trans (by rw [t1TransferDone_applied hh hf]), rfl, ?_⟩
    rw [stagedApply_leaves (y := snapOf true x) rfl]
    exact ⟨rfl, rfl, rfl, hh, rfl⟩
  · refine ⟨_, (liveNext_of_live hs _).trans (by rw [t1TransferDone_rejected hh hf]; rfl), rfl, ?_, ?_⟩
    · rw [(sendCtl_frame _ _ _).msg.lat, report_lat]
    · rw [(sendCtl_frame _ _ _).msg.mem, report_mem]
  · have hexec : exec (.tier1Completion id) s = .next (t1Complete id s) := by
      refine (liveNext_of_live hs _).trans ?_
      rw [ordered, if_pos (inOrder_of_none hin _), t1Answer, if_neg (by simp [hin]), takeCtl, takeInbound_of_none hin]
    refine ⟨fun h => ?_, fun h => ?_⟩
    · subst h
      exact ⟨_, hexec, t1Complete_leaves ht⟩
    · rw [hexec, t1Complete, ht]
      exact congrArg _ (if_pos h)
  · refine (liveNext_of_live hs _).trans ?_
    have hct : ctlIs (.tier1Failed id) p = true := by simp [ctlIs, hb]
    have hlat : (takeCtl (.tier1Failed id) s).lat = s.lat := (takeCtl_frame _ s).msg.lat
    rw [ordered, if_pos (inOrder_of_single hin (by simp [hct])), t1Answer, if_pos (by simp [hin, hct])]
    dsimp only
    rw [hlat, if_pos (by simp [ht, hid])]
  · rw [if_neg (by simp [h])]
  · rw [if_pos h]
  · rw [archiveDown_up hup]
    dsimp only
    rw [if_neg (by simp [h])]
  · rw [archiveDown_up hup]
    dsimp only
    rw [if_pos h]
  · rfl
  · rw [nvmeCompletion_failed]
    dsimp only
    rw [if_neg (by simp [h])]
  · rw [nvmeCompletion_failed]
    dsimp only
    rw [if_pos (Option.isSome_iff_ne_none.mpr h)]
  · obtain ⟨h1, h2⟩ := sealWritten_leaves slot leafA stage c x s
    have hn : nvmeCompletion true [] s = sealCompletion s := rfl
    show (nvmeCompletion true [] s).arc.cmd = none ∧ _
    rw [hn, sealCompletion, hj, hx, hc]
    exact ⟨rfl, rfl, h1.trans hx, h2⟩

end Sys2Proof.Machine
end

section
/-! PROOF. Reduction packets and the end of a GRED (settles O39). -/
namespace Sys2Proof.Machine

/-! ### A packet at its die (R307, R315, R320) -/

/-- The packet is of the open step and attempt. -/
def redOpen (p : RedPkt) (s : State) : Prop := pktAge s p.step p.attempt = .eq ∧ (stepState s = 1 ∨ stepState s = 2)

theorem reductionPacket_stale {d : Nat} {src : RedSrc} {p : RedPkt} {s : State} (h : ¬ redOpen p s) :
    reductionPacket d src p s = addFld (RDU_COUNT_STALE d) 1 (redConsume d (redFrom s p) s) := by
  unfold reductionPacket
  refine if_pos ?_
  by_cases ha : pktAge s p.step p.attempt = .eq
  · simpa [redOpen, ha] using h
  · simp [ha]

theorem reductionPacket_open {d : Nat} {src : RedSrc} {p : RedPkt} {s : State} (h : redOpen p s) :
    reductionPacket d src p s =
      if src = .adder then if stepCheckFails s p then redFailed d src p (redConsume d (redFrom s p) s) else s
      else if redInvariant p = false then redFailed d src p (redConsume d (redFrom s p) s)
      else if src = .hbm then s
      else if ((getBucket s p.bucket).bind fun b => shareOf b p.packet).isSome then
        pumpAll (redTake d src p (redConsume d (redFrom s p) s))
      else ((redHold d src p s).map (redConsume d (redFrom s p))).getD s := by
  have hn : (!(pktAge s p.step p.attempt == .eq && (stepState s == 1 || stepState s == 2))) = false := by
    obtain ⟨h1, h2⟩ := h
    rcases h2 with h2 | h2 <;> simp [h1, h2]
  unfold reductionPacket
  dsimp only
  rw [hn]
  cases hi : redInvariant p <;> cases hh : redHold d src p s <;> cases src <;> simp [hh]

/-! ### The end of a GRED (R304) -/

theorem modBucket_only {b : Bucket} {s : State} (hb : s.step.buckets = [b]) (f : Bucket → Bucket) :
    modBucket b.id f s = { s with step := { s.step with buckets := [f b] } } := by
  simp [modBucket, hb]

/-- The share that the only GRED of a logical core launched, alone in its bucket, is the one that is ready. -/
theorem gredReady_only {s : State} {ci : Nat} {l : LCore} {g : GredOut} {b : Bucket} {h : Share} (hgs : l.greds = [g])
    (hb : s.step.buckets = [b]) (hid : b.id = g.bucket) (hl : b.launched = [h]) (hn : h.n = g.n) (hc : h.lcore = ci)
    (hd : shareDone s h = true) : gredReady s ci l = some (g, b, h) := by
  have hbk : getBucket s g.bucket = some b := by simp [getBucket, hb, hid]
  simp [gredReady, hgs, hbk, hl, hn, hc, hd]

/-- A bucket whose only share is complete is done, and signals its catch, where it writes no status word. -/
theorem bucketDone_only {s : State} {b : Bucket} {h : Share} (hb : s.step.buckets = [b]) (hl : b.launched = [h]) (hn : b.shares = 1)
    (hd : b.done = false) (hf : b.failed = false) (hs : b.statusAddr = 0) (hc : h.complete = true) :
    bucketDone b.id s =
      catchAdd (cwLcore b.catchWord) (cwIndex b.catchWord) 1 { s with step := { s.step with buckets := [{ b with done := true }] } } := by
  have hbk : getBucket s b.id = some b := by simp [getBucket, hb]
  unfold bucketDone
  simp only [hbk, hd, hf, bucketLaunched, hn, hl, hc, hs, modBucket_only hb, List.length_singleton, List.any_cons, List.any_nil,
    Bool.not_true, Bool.or_false, beq_self_eq_true, Bool.false_eq_true, if_false, if_true]

/-- Adding to a counter that does not overflow. -/
theorem catchAdd_below {c i : Nat} {n : BitVec 32} {s : State} {l : LCore} (hg : getL s c = some l)
    (hn : (catchOf l i).counter.toNat + n.toNat < 2 ^ 32) :
    catchAdd c i n s = setL c (setCatch i { catchOf l i with counter := (catchOf l i).counter + n } l) s := by
  have hk : BitVec.ofNat 32 (min ((catchOf l i).counter.toNat + n.toNat) (2 ^ 32 - 1)) = (catchOf l i).counter + n := by
    apply BitVec.eq_of_toNat_eq
    simp only [BitVec.toNat_ofNat, BitVec.toNat_add]
    omega
  unfold catchAdd
  simp only [hg, hk, ge_iff_le, not_le.mpr hn, if_false]

/-- Settles O39: the packet by the order of its checks; the end of a GRED through the only bucket and the empty logical core. -/
theorem reductionPacketsAndShares : Obligations.ReductionPacketsAndShares := by
  unfold Obligations.ReductionPacketsAndShares
  refine ⟨fun d src p s hs => ?packet, fun d s => rfl, fun c s l g b h hg he hgs hb hid hl hn hc hd h1 hbd hbf hst hblk hcw hk => ?done,
    fun c s l hg hr => ?none⟩
  case packet =>
    refine ⟨fun ho => ?_, fun ho => ?_⟩
    · change liveNext s (ordered _ s _) = _
      rw [liveNext_of_live hs, ordered, ho, if_neg Bool.false_ne_true]
    have hx : ∀ t, reductionPacket d src p s = t → exec (.reductionPacket d src p) s = .next t :=
      fun t e => exec_ordered_of (t := t) (e ▸ rfl) hs ho
    refine ⟨fun hn => hx _ (reductionPacket_stale hn), fun hn ha => hx _ ?_, fun hn ha hi => hx _ ?_, fun hn ha hi => hx _ ?_,
      fun hn hi h1 h2 b h hb hh => hx _ ?_, fun hn hi h1 h2 hb => ⟨fun hr => hx _ ?_, fun hr => hx _ ?_⟩⟩
    all_goals rw [reductionPacket_open hn]
    · rw [if_pos ha]; rfl
    · rw [if_neg ha, if_pos hi]; rfl
    · simp [ha, hi]
    · simp only [hb, hh, hi, h1, h2, Option.bind_some, Option.isSome_some, Bool.true_eq_false, if_false, if_true]; rfl
    · have hh : redHold d src p s = some { s with step := { s.step with heldPkts := s.step.heldPkts ++ [(d.val, src, p)] } } := if_pos hr
      simp only [hb, hh, hi, h1, h2, Option.isSome_none, Bool.true_eq_false, Bool.false_eq_true, if_false, Option.map_some, Option.getD_some]
      rfl
    · have hh : redHold d src p s = none := if_neg hr
      simp only [hb, hh, hi, h1, h2, Option.isSome_none, Bool.true_eq_false, Bool.false_eq_true, if_false, Option.map_none, Option.getD_none]
  case done =>
    obtain ⟨hq, -, hem⟩ := coreEmpty_iff.mp he
    have hr := gredReady_only (ci := c) hgs hb hid hl hn hc hd
    have hms : modShare b.id h.n h.lcore (fun h => { h with complete := true }) s =
        { s with step := { s.step with buckets := [{ b with launched := [{ h with complete := true }] }] } } := by
      simp [modShare, modBucket_only hb, hl]
    have hgn : l.greds.filter (fun x => x != g) = [] := by simp [hgs]
    refine congrArg Host.Outcome.next ?_
    simp only [hg, hr, hms, hgn]
    have hgl : ∀ bs, getL { setL c { l with greds := [] } s with step := { s.step with buckets := bs } } c = some { l with greds := [] } :=
      fun bs => getL_setL hg _
    have hdone : bucketDone b.id (setL c { l with greds := [] } { s with step := { s.step with buckets := [_] } }) = _ :=
      bucketDone_only (b := { b with launched := [{ h with complete := true }] }) rfl rfl h1 hbd hbf hst rfl
    have hadd := catchAdd_below (c := c) (i := cwIndex b.catchWord) (n := 1)
      (hgl [{ b with launched := [{ h with complete := true }], done := true }]) hk
    have hpump : ∀ t (m k : LCore), getL t c = some m → k.qs = l.qs → k.emptyAt = l.emptyAt → k.block = none →
        pump c (setL c k t) = setL c k t := fun t m k hm h1 h2 h3 =>
      pump_empty (getL_setL hm k) (h1.trans hq) (h2.trans hem) (by simp [h3])
    calc _ = pump c (catchAdd c (cwIndex b.catchWord) 1 _) := congrArg (pump c) (hdone.trans (by rw [hcw]; rfl))
      _ = _ := (congrArg (pump c) hadd).trans ((hpump _ _ (setCatch _ _ { l with greds := [] }) (hgl _) rfl rfl hblk).trans (setL_setL c
          { s with step := { s.step with buckets := [{ b with launched := [{ h with complete := true }], done := true }] } } _ _))
  case none =>
    refine congrArg Host.Outcome.next ?_
    simp only [hg, hr]

end Sys2Proof.Machine
end

section
/-! PROOF. Keyway packets that reach the module (settles O40). -/
namespace Sys2Proof.Machine

/-- The arrivals of a Keyway packet at its die. -/
def kwyArrivals (d : Fin 8) (p : KwyPkt) : List Instr :=
  [.dispatchArrival d p, .closeArrival d p, .answerArrival d p, .keywayRefusal d p]

/-- Every arrival orders its packet and compares its attempt before it does anything of its own. -/
theorem exec_kwyArrival (d : Fin 8) (p : KwyPkt) (s : State) : ∀ row ∈ kwyArrivals d p,
    ∃ ranges act, exec row s = liveNext s (kwyArrive d p ranges act s) := by
  simp only [kwyArrivals, List.forall_mem_cons, List.not_mem_nil, false_implies, implies_true, and_true]
  refine ⟨?_, ?_, ⟨_, _, rfl⟩, ⟨_, _, rfl⟩⟩
  · change ∃ ranges act, execDispatchArrival d p s = _
    unfold execDispatchArrival
    cases layerOf s p.layer with
    | none => exact ⟨_, _, rfl⟩
    | some v =>
      by_cases h : (inboxOk s (inboxSlotAt v p) (64 + v.rowBytes) && inboxOk s (srcEntryAt p) 4) = true
      · exact ⟨_, _, congrArg (liveNext s) (if_pos h)⟩
      · exact ⟨_, _, congrArg (liveNext s) (if_neg h)⟩
  · change ∃ ranges act, execCloseArrival d p s = _
    unfold execCloseArrival
    by_cases h : inboxOk s (srcEntryAt p) 4 = true
    · exact ⟨_, _, congrArg (liveNext s) (if_pos h)⟩
    · exact ⟨_, _, congrArg (liveNext s) (if_neg h)⟩

/-- What takes the packet that brought a Keyway payload off those delivered. -/
def kwyTake (d : Nat) (p : KwyPkt) (s : State) : State := match kwyFrom s (fun k => k.destDie != 14) p with
  | some k => ackOwe d k (takePacket k s)
  | none => s

section
variable {d : Nat} {p : KwyPkt} {ranges : List (Nat × Nat)} {act : State → State} {s : State} (ht : hasTumbler s.fuses = true)
  (ho : inOrder (fun k => k.destDie != 14 && k.body == .keyway p) s = true)
include ht ho

theorem kwyArrive_waits (h : pktAge s p.step p.attempt = .gt) : kwyArrive d p ranges act s = s := by
  simp only [kwyArrive, ht, Bool.not_true, Bool.false_eq_true, if_false, ordered, ho, if_true, h]

theorem kwyArrive_stale (h : pktAge s p.step p.attempt = .lt) :
    kwyArrive d p ranges act s = addFld (KWY_STALE_ATTEMPT d) 1 (kwyTake d p s) := by
  simp only [kwyArrive, ht, Bool.not_true, Bool.false_eq_true, if_false, ordered, ho, if_true, h]
  rfl

theorem kwyArrive_acts (h : pktAge s p.step p.attempt = .eq) (hl : latAwait ranges s = none) :
    kwyArrive d p ranges act s = act (kwyTake d p s) := by
  simp only [kwyArrive, ht, Bool.not_true, Bool.false_eq_true, if_false, ordered, ho, if_true, h, hl]
  rfl

end

/-- A payload that no packet brought. -/
theorem kwyTake_none {s : State} (h : s.fab.inbound = []) (d : Nat) (p : KwyPkt) : kwyTake d p s = s := by
  simp only [kwyTake, kwyFrom, h, List.find?_nil]

theorem kwyTake_single {k : Packet} {p : KwyPkt} {s : State} (h : s.fab.inbound = [k]) (hb : k.body = .keyway p) (hd : k.destDie ≠ 14)
    (d : Nat) : kwyTake d p s = ackOwe d k (takePacket k s) := by
  have hf : (k.destDie != 14 && k.body == .keyway p) = true := by
    rw [hb, bne_iff_ne.mpr hd, Bool.true_and, beq_self_eq_true]
  simp only [kwyTake, kwyFrom, h, List.find?_cons, hf]

/-- No range is written, so nothing is awaited. -/
theorem latAwait_nil (s : State) : latAwait [] s = none := rfl

/-- A packet of this module is not acknowledged. -/
theorem ackOwe_own {d : Nat} {p : Packet} {s : State} (h : p.src = ownId s) : ackOwe d p s = s := if_pos h

/-- R359: a refusal of a close changes no record. -/
theorem combineApply_closeRefused {d : Nat} {p : KwyPkt} {s : State} (h : p.record = closeRecord) :
    combineApply d { p with kind := 3 } s = s := if_pos ⟨rfl, h⟩

/-- R344: an unresolved packet made here, on a die whose table is off. -/
theorem keywayResolve_off {d : Nat} {p : KwyPkt} {s : State} (ht : hasTumbler s.fuses = true) (hin : s.fab.inbound = [])
    (he : fldOn s (KWY_WLT_ENABLE d) = false) : keywayResolve d p s = kwyRefuse d p s := by
  have hk : kwyFrom s (fun k => k.destDie == 14) p = none := by simp only [kwyFrom, hin, List.find?_nil]
  have ht' : ∀ k, takePacket k s = s := fun k => by rw [takePacket, takeInbound_of_none hin]
  have h0 : (!(0 : Word).getLsbD 23) = true := by decide
  simp only [keywayResolve, ht, Bool.not_true, Bool.false_eq_true, if_false, hk, Option.getD_none, ht', he, h0, if_true]
  rw [ackOwe_own rfl]

/-- Settles O40: each arrival by its packet's age; the acts by where the packet points. -/
theorem keywayPackets : Obligations.KeywayPackets := by
  unfold Obligations.KeywayPackets
  refine ⟨fun d p s hs ht hin => ?made, fun d p k s hs ht hin hb hd row hr => ?brought⟩
  case made =>
    have ho : ∀ f, inOrder f s = true := inOrder_of_none hin
    have htake : kwyTake d p s = s := kwyTake_none hin d p
    have hx : ∀ {i : Instr} {t u}, exec i s = liveNext s t → t = u → exec i s = .next u := by
      rintro i t u h rfl
      exact h.trans (liveNext_of_live hs t)
    refine ⟨fun ha row hr => ?_, fun ha row hr => ?_, fun ha => ?_, fun he => ?_⟩
    · obtain ⟨ranges, act, h⟩ := exec_kwyArrival d p s row hr
      exact hx h (kwyArrive_waits ht (ho _) ha)
    · obtain ⟨ranges, act, h⟩ := exec_kwyArrival d p s row hr
      exact hx h (by rw [kwyArrive_stale ht (ho _) ha, htake])
    · have hact : ∀ {ranges act}, latAwait ranges s = none → kwyArrive d p ranges act s = act s :=
        fun hl => by rw [kwyArrive_acts ht (ho _) ha hl, htake]
      refine ⟨fun v hv h1 h2 hl => ?_, fun hv => ?_, fun h1 hl => ?_, fun h1 => ?_, fun hl => ⟨?_, ?_⟩,
        fun hc => ?_⟩
      · refine hx (t := kwyArrive d p [(inboxSlotAt v p, 64 + v.rowBytes), (srcEntryAt p, 4)] (fun s =>
          srcEntryApply d p none (hbmPut (inboxSlotAt v p) (kwyHeader p ++ p.row.take v.rowBytes) s)) s) ?_ (hact hl)
        change execDispatchArrival d p s = _
        simp only [execDispatchArrival, hv, h1, h2, Bool.and_self, if_true]
      · refine hx (t := kwyArrive d p [] (kwyRefuse d p) s) ?_ (hact (latAwait_nil s))
        change execDispatchArrival d p s = _
        simp only [execDispatchArrival, hv]
      · refine hx (t := kwyArrive d p [(srcEntryAt p, 4)] (srcEntryApply d p (some p.slot)) s) ?_ (hact hl)
        change execCloseArrival d p s = _
        rw [execCloseArrival, if_pos h1]
      · refine hx (t := kwyArrive d p [] (kwyRefuse d p) s) ?_ (hact (latAwait_nil s))
        change execCloseArrival d p s = _
        rw [execCloseArrival, h1, if_neg Bool.false_ne_true]
      · exact hx (t := kwyArrive d p (combineRanges s p) (combineApply d { p with kind := 1 }) s) rfl (hact hl)
      · exact hx (t := kwyArrive d p (combineRanges s p) (combineApply d { p with kind := 3 }) s) rfl (hact hl)
      · have hr : latAwait (combineRanges s p) s = none := by
          simp only [combineRanges, hc, if_true, latAwait_nil]
        exact hx (t := kwyArrive d p (combineRanges s p) (combineApply d { p with kind := 3 }) s) rfl ((hact hr).trans (combineApply_closeRefused hc))
    · refine hx (t := ordered _ s (keywayResolve d p s)) rfl ?_
      rw [ordered, ho, if_pos rfl, keywayResolve_off ht hin he]
  case brought =>
    have ho : inOrder (fun k => k.destDie != 14 && k.body == .keyway p) s = true :=
      inOrder_of_single hin (by rw [hb, bne_iff_ne.mpr hd, Bool.true_and, beq_self_eq_true])
    obtain ⟨ranges, act, h⟩ := exec_kwyArrival d p s row hr
    rw [h, liveNext_of_live hs]
    exact ⟨fun ha => by rw [kwyArrive_waits ht ho ha], fun ha => by rw [kwyArrive_stale ht ho ha, kwyTake_single hin hb hd]⟩

end Sys2Proof.Machine
end

section
/-! PROOF. Hardware faults of cores and dies, and the swap of a doubled core (settles O41). -/
namespace Sys2Proof.Machine

/-! ### Hardware faults (R174, R434, R445) -/

@[simp] theorem getP_modP (p : Nat) (f : PCore → PCore) (s : State) : getP (modP p f s) p = f (getP s p) := by
  simp [getP, modP, smGet_smSet]

theorem getP_report (c : Code) (src : Nat) (d : Word) (s : State) (p : Nat) : getP (report c src d s) p = getP s p := by
  simp only [getP, report_pcores]

theorem levelOne_report (c : Code) (src : Nat) (d : Word) (s : State) : levelOne (report c src d s) = levelOne s := by
  simp only [levelOne, imgLevel, report_img]

/-- The state in which a core's hardware fault is recorded and the core stopped. -/
def coreFaulted (p : Nat) (code : Code) (unit detail : Nat) (s : State) : State :=
  modP p (fun c => { c with hwStopped := true }) (report code (srcOf (p / 32) unit (p % 32)) (BitVec.ofNat 64 detail) s)

theorem coreFault_eq (p : Nat) (code : Code) (unit detail : Nat) (s : State) : coreFault p code unit detail s =
    if (getP s p).hwStopped || (getP s p).fenced then s
    else
      let u := coreFaulted p code unit detail s
      let t := if u.kpr.up then fenceCore p u else u
      if levelOne u && u.lcores.any (fun l => l.phys == p && !l.halted) then imageEnd code 0 t else t := rfl

theorem coreFault_again {p : Nat} {code : Code} {unit detail : Nat} {s : State}
    (h : (getP s p).hwStopped = true ∨ (getP s p).fenced = true) : coreFault p code unit detail s = s :=
  if_pos (by simpa using h)

theorem coreFault_first {p : Nat} {code : Code} {unit detail : Nat} {s : State} (h1 : (getP s p).hwStopped = false)
    (h2 : (getP s p).fenced = false) : coreFault p code unit detail s =
      let t := if s.kpr.up then fenceCore p (coreFaulted p code unit detail s) else coreFaulted p code unit detail s
      if levelOne s && s.lcores.any (fun l => l.phys == p && !l.halted) then imageEnd code 0 t else t := by
  have hkpr : (coreFaulted p code unit detail s).kpr = s.kpr := report_kpr _ _ _ s
  have hends : (levelOne (coreFaulted p code unit detail s) && (coreFaulted p code unit detail s).lcores.any fun l => l.phys == p && !l.halted) =
      (levelOne s && s.lcores.any fun l => l.phys == p && !l.halted) :=
    congrArg₂ and (levelOne_report _ _ _ s) (congrArg (List.any · _) (report_lcores _ _ _ s))
  rw [coreFault_eq, if_neg (by simp [h1, h2])]
  dsimp only
  rw [hends, hkpr]

theorem hwStopped_coreFaulted (p : Nat) (code : Code) (unit detail : Nat) (s : State) :
    (getP (coreFaulted p code unit detail s) p).hwStopped = true := by rw [coreFaulted, getP_modP]

/-- The row of a core's hardware fault, by what the fault does. -/
theorem coreFault_row {i : Instr} {p : Fin 256} {code : Code} {unit detail : Nat} {s : State}
    (he : exec i s = liveNext s (coreFault p code unit detail s)) (hs : live s = true) :
    ((getP s p).hwStopped = true ∨ (getP s p).fenced = true → exec i s = .next s) ∧
    ((getP s p).hwStopped = false → (getP s p).fenced = false →
      let s1 := coreFaulted p code unit detail s
      let s2 := if s.kpr.up then fenceCore p s1 else s1
      (levelOne s = false → exec i s = .next s2) ∧ (getP s1 p).hwStopped = true ∧
      (levelOne s = true → (∃ l ∈ s.lcores, l.phys = p.val ∧ l.halted = false) → exec i s = .next (imageEnd code 0 s2))) := by
  rw [he, liveNext_of_live hs]
  refine ⟨fun h => by rw [coreFault_again h], fun h1 h2 => ?_⟩
  rw [coreFault_first h1 h2]
  refine ⟨fun hl => by simp [hl], hwStopped_coreFaulted _ _ _ _ s, fun hl ⟨l, hm, hp, hh⟩ => ?_⟩
  have ha : s.lcores.any (fun l => l.phys == p.val && !l.halted) = true := List.any_eq_true.mpr ⟨l, hm, by simp [hp, hh]⟩
  simp only [hl, ha, Bool.and_self, if_true]

/-- A corrected error of a core is recorded, and its tick kept. -/
theorem coreCorrected_leaves (p : Nat) (code : Code) (unit : Nat) (s : State) :
    ∃ ts, smFind (coreCorrected p code unit s).kpr.ces p = some (tickNow s :: ts) ∧
      coreCorrected p code unit s = { report code (srcOf (p / 32) unit (p % 32)) 0 s with kpr := (coreCorrected p code unit s).kpr } := by
  have ht : tickNow (report code (srcOf (p / 32) unit (p % 32)) 0 s) = tickNow s := fld_report _ _ _ _ (by decide)
  refine ⟨_, (smFind_smPut_same _ p _).trans (congrArg (fun t => some (t :: _)) ht), rfl⟩

/-! ### The swap of a doubled core (R88 to R92) -/

theorem forgetRange_leaves (a n : Nat) (s : State) : ∃ m la, forgetRange a n s = { s with mem := m, lat := la } := ⟨_, _, rfl⟩

theorem swapOut_leaves (l : LCore) (s : State) : ∃ m la, swapOut l s = { s with mem := m, lat := la } := by
  unfold swapOut
  obtain ⟨m, la, h⟩ := forgetRange_leaves (saveArea s l.pref) (swapBytesOut l) s
  rw [h]
  generalize (List.range 48).filter (fun b => !(liveBanks l).testBit b) = bs
  suffices hs : ∀ t, (∃ m la, t = { s with mem := m, lat := la }) →
      ∃ m la, bs.foldl (fun s b => forgetRange (winBase l + b * bankBytes) bankBytes s) t = { s with mem := m, lat := la } from
    hs _ ⟨_, _, rfl⟩
  induction bs with
  | nil => exact fun t ht => ht
  | cons b bs ih =>
    rintro t ⟨m, la, rfl⟩
    exact ih _ ⟨_, _, rfl⟩

theorem swapOut_lcores (l : LCore) (s : State) : (swapOut l s).lcores = s.lcores := by
  obtain ⟨m, la, h⟩ := swapOut_leaves l s
  rw [h]

theorem swapOut_regs (l : LCore) (s : State) : (swapOut l s).regs = s.regs := by
  obtain ⟨m, la, h⟩ := swapOut_leaves l s
  rw [h]

theorem takePort_lcores {l : LCore} {x : Bool} {s t : State} (h : takePort l x s = some t) : t.lcores = s.lcores := by
  unfold takePort at h
  split at h
  · cases h; rfl
  · split at h
    · cases h
    · cases h; rfl

/-- The swap of the two logical cores of core `p`, the resident one first. -/
theorem doublingSwap_pair {p : Nat} {s : State} {l k : LCore} (hls : s.lcores = [l, k]) (hl : l.phys = p) (hk : k.phys = p)
    (hlr : l.resident = true) (hkr : k.resident = false) (hkh : k.halted = false) (hlp : l.stopped = false) (hkp : k.stopped = false) :
    doublingSwap p s = if swapPoint s l = false ∨ runnable s k = false then s else ((takePort l true s).map fun s1 =>
      pump 1 { (if l.halted then s1 else swapOut l s1) with lcores := [{ l with resident := false }, swapIn k] }).getD s := by
  have hswap : ∀ s1, takePort l true s = some s1 → pump 1 (modL 1 swapIn (modL 0 (fun l => { l with resident := false })
      (if l.halted then s1 else swapOut l s1))) =
      pump 1 { (if l.halted then s1 else swapOut l s1) with lcores := [{ l with resident := false }, swapIn k] } := by
    intro s1 ht
    have h1 : (if l.halted = true then s1 else swapOut l s1).lcores = [l, k] := by
      split
      · rw [takePort_lcores ht, hls]
      · rw [swapOut_lcores, takePort_lcores ht, hls]
    generalize (if l.halted = true then s1 else swapOut l s1) = t at h1 ⊢
    simp only [modL, h1, listMod]
  generalize hout : ({ l with resident := false } : LCore) = out at hswap ⊢
  unfold doublingSwap
  simp only [hls, enumFrom, List.filter_cons, hl, hk, beq_self_eq_true, if_true, List.filter_nil, List.find?_cons, hlr, hkr, hkh,
    Bool.not_true, Bool.not_false, Bool.and_self, Bool.false_and, hlp, hkp, Bool.false_or]
  by_cases hr : swapPoint s l = false ∨ runnable s k = false
  · rw [if_pos hr, if_pos (by simpa using hr)]
  · rw [if_neg hr, if_neg (by simpa using hr)]
    cases ht : takePort l true s with
    | none => rfl
    | some s1 => exact hswap s1 ht

theorem swapIn_leaves (k : LCore) : swapIn k = { k with resident := true, block := (swapIn k).block } ∧
    ((swapIn k).block = k.block ∨ (swapIn k).block = none ∧ detentDone k = true) := by
  refine ⟨rfl, ?_⟩
  by_cases h : detentDone k = true
  · exact .inr ⟨if_pos h, h⟩
  · exact .inl (if_neg h)

/-- Settles O41: the faults by whether the core is already stopped; the swap by the port. -/
theorem coreFaultsAndSwaps : Obligations.CoreFaultsAndSwaps := by
  unfold Obligations.CoreFaultsAndSwaps
  refine ⟨fun p st engine bank s hs => ?fault, fun p s hs => ?corrected, fun d part s hs => ⟨?_, fun h => ?_, fun h => ?_⟩,
    fun p s l k hls hl hk hlr hkr hkh hlp hkp => ?swap⟩
  case fault =>
    intro row hr
    simp only [List.mem_cons, List.not_mem_nil, or_false] at hr
    rcases hr with rfl | rfl | rfl | rfl
    · exact coreFault_row (i := .arrayHw p st) (code := cARRAY_HW) (unit := 1) (detail := st.toNat) rfl hs
    · exact coreFault_row (i := .tbHw p engine) (code := cTB_HW) (unit := 2) (detail := if engine then 1 else 0) rfl hs
    · exact coreFault_row (i := .scrHw p bank) (code := cSCR_HW) (unit := 3) (detail := bank) rfl hs
    · exact coreFault_row (i := .coreHw p) (code := cCORE_HW) (unit := 0) (detail := 0) rfl hs
  case corrected =>
    have hrow : ∀ (i : Instr) (code : Code) (unit : Nat), exec i s = liveNext s (coreCorrected p code unit s) →
        ∃ t, exec i s = .next t ∧ t = { report code (srcOf (p / 32) unit (p % 32)) 0 s with kpr := t.kpr } ∧
          (∃ ts, smFind t.kpr.ces p = some (tickNow s :: ts)) ∧ t.mem = s.mem ∧ t.lcores = s.lcores ∧ t.step = s.step := by
      intro i code unit he
      obtain ⟨ts, hts, ht⟩ := coreCorrected_leaves p code unit s
      refine ⟨_, he.trans (liveNext_of_live hs _), ht, ⟨ts, hts⟩, ?_, ?_, ?_⟩
      · rw [ht, ← report_mem code (srcOf (p / 32) unit (p % 32)) 0 s]
      · rw [ht, ← report_lcores code (srcOf (p / 32) unit (p % 32)) 0 s]
      · rw [ht, ← report_step code (srcOf (p / 32) unit (p % 32)) 0 s]
    intro row hr
    simp only [List.mem_cons, List.not_mem_nil, or_false] at hr
    rcases hr with rfl | rfl | rfl
    · exact hrow (.accEccCorr p) cACC_ECC_CORR 1 rfl
    · exact hrow (.tbEccCorr p) cTB_ECC_CORR 2 rfl
    · exact hrow (.scrEccCorr p) cSCR_ECC_CORR 3 rfl
  · exact liveNext_of_live hs _
  · exact (liveNext_of_live hs _).trans (congrArg Host.Outcome.next (if_pos h))
  · exact (liveNext_of_live hs _).trans (congrArg Host.Outcome.next (if_neg (by simp [h])))
  case swap =>
    have he : exec (.doublingSwap p) s = .next (doublingSwap p s) := rfl
    rw [he, doublingSwap_pair hls hl hk hlr hkr hkh hlp hkp]
    refine ⟨fun s1 h1 h2 ht => by simp [h1, h2, ht], fun h1 h2 hx => ?_, fun h => ?_, swapOut_lcores l s, swapOut_regs l s, swapIn_leaves k⟩
    · have ht : takePort l true s = some s := if_pos (by rw [hl, hx])
      simp [h1, h2, ht]
    · rcases h with h | h | h
      · rw [if_pos (.inl h)]
      · rw [if_pos (.inr h)]
      · simp [h]

end Sys2Proof.Machine
end

section
/-! PROOF. Host window accesses, memory errors, port turns and targeted refreshes (settles O42). -/
namespace Sys2Proof.Machine

/-! ### What a report leaves of the host interface -/

/-- Of the host interface only the interrupts sent are as in another state. -/
def MsixOnly (z s : State) : Prop := ∃ m, s.host = { z.host with msix := m }

section
variable {z s : State}

theorem MsixOnly.of_host {t : State} (h : MsixOnly z s) (ht : t.host = s.host) : MsixOnly z t := by
  obtain ⟨m, hm⟩ := h
  exact ⟨m, ht.trans hm⟩

theorem sendMsi_msix (h : MsixOnly z s) (n v : Nat) : MsixOnly z (sendMsi n v s) := by
  obtain ⟨m, hm⟩ := h
  refine ⟨if s.host.linkUp.getD n false then s.host.msix ++ [(n, v)] else s.host.msix, ?_⟩
  simp only [sendMsi, hm]

theorem MsixOnly.ite {c : Prop} [Decidable c] {t : State} (hs : MsixOnly z s) (ht : MsixOnly z t) : MsixOnly z (if c then s else t) := by
  split
  · exact hs
  · exact ht

theorem errSend_msix (h : MsixOnly z s) (f : Bool) (c : Nat) : MsixOnly z (errSend f c s) :=
  .ite (sendMsi_msix (sendMsi_msix h _ _) _ _) h

theorem errMark_msix (h : MsixOnly z s) (f : Bool) (c : Nat) : MsixOnly z (errMark f c s) := by
  unfold errMark
  split <;> split
  · exact h
  · exact errSend_msix (by exact h) _ _
  · exact h
  · exact errSend_msix (by exact h) _ _

theorem fatalCopy_host (r : ERec) (s : State) : (fatalCopy r s).host = s.host := rfl

/-- A write of error records and their copies, in a state whose host interface is as it was, then the mark of the class. -/
theorem report_msix (c : Code) (src : Nat) (d : Word) (s : State) : MsixOnly s (report c src d s) := by
  have hm : ∀ t : State, t.host = s.host → MsixOnly s (errMark c.fatal (c.toNat / 256) t) :=
    fun t ht => errMark_msix ⟨s.host.msix, ht⟩ _ _
  unfold report
  dsimp only
  split
  next k _ =>
    split
    next => exact ⟨s.host.msix, rfl⟩
    next r _ => exact hm _ (by simp only [apply_ite State.host, addFld_host, ite_self])
  next =>
    refine .ite ⟨s.host.msix, ?_⟩ (hm _ ?_)
    · simp only [apply_ite State.host, errLost, addFld_host, fatalCopy_host, ite_self]
    · simp only [apply_ite State.host, setFld_host, fatalCopy_host, ite_self]

theorem report_reads (c : Code) (src : Nat) (d : Word) (s : State) : (report c src d s).host.reads = s.host.reads := by
  obtain ⟨m, hm⟩ := report_msix c src d s
  rw [hm]

end

/-! ### The host's window (R272) -/

/-- Where the host's window of port `n` starts. -/
def mwBase (n : Nat) (s : State) : Nat := fld s (MEM_MW_BASE_BASE_GIB n) * 2 ^ 30

/-- The access lies in present HBM and in the window. -/
def mwInside (n off len : Nat) (s : State) : Bool := hbmRange s.fuses (mwBase n s + off) len && decide (off + len ≤ 2 ^ 36)

theorem mwAccess_unlinked {n : Nat} {s : State} (h : s.host.linkUp.getD n false = false) (a : MwAccess) : mwAccess n a s = s :=
  if_pos (by rw [h]; rfl)

theorem mwAccess_read {n : Nat} {s : State} (h : s.host.linkUp.getD n false = true) (off len : Nat) :
    mwAccess n (.read off len) s = if mwInside n off len s then
        if hbmBad s (mwBase n s + off) len then s else hostRead n (s.mem.bytes (mwBase n s + off) len) s
      else hostRead n (List.replicate len 0xFF)
        (report cADDR_UNMAPPED (srcOf 8 12 (32 + n)) (BitVec.ofNat 64 (mwBase n s + off)) s) :=
  if_neg (by rw [h]; decide)

theorem mwAccess_write {n : Nat} {s : State} (h : s.host.linkUp.getD n false = true) (off : Nat) (data : List Byte) :
    mwAccess n (.write off data) s = if mwInside n off data.length s then hbmWrite (plainWrite .host (mwBase n s + off) data) s
      else report cADDR_UNMAPPED (srcOf 8 12 (32 + n)) (BitVec.ofNat 64 (mwBase n s + off)) s :=
  if_neg (by rw [h]; decide)

theorem mwInside_of {n off len : Nat} {s : State} (h1 : hbmRange s.fuses (mwBase n s + off) len = true) (h2 : off + len ≤ 2 ^ 36) :
    mwInside n off len s = true := by rw [mwInside, h1, decide_eq_true h2, Bool.and_self]

theorem mwInside_not {n off len : Nat} {s : State} (h : hbmRange s.fuses (mwBase n s + off) len = false ∨ 2 ^ 36 < off + len) :
    mwInside n off len s = false := by
  rcases h with h | h
  · rw [mwInside, h, Bool.false_and]
  · rw [mwInside, decide_eq_false (not_le.mpr h), Bool.and_false]

/-! ### Turns of the scratch port (R245) -/

theorem firstIdx_getElem {α : Type} {p : α → Bool} {l : List α} {n : Nat} (h : firstIdx p l = some n) : ∃ a, l[n]? = some a ∧ p a = true := by
  induction l generalizing n with
  | nil => cases h
  | cons a l ih =>
    unfold firstIdx at h
    split at h
    next hp => cases h; exact ⟨a, rfl, hp⟩
    next =>
      obtain ⟨m, hm, rfl⟩ := Option.map_eq_some_iff.mp h
      exact ih hm

theorem portPass_resident {p c : Nat} {s : State} {l : LCore} (hc : firstIdx (fun l : LCore => l.phys == p && l.resident) s.lcores = some c)
    (hg : getL s c = some l) : portPass p s =
      let t := modP p (fun k => { k with xferSide := !(getP s p).xferSide }) s
      if sideReady c (!(getP s p).xferSide) t then pump c t else s := by
  have hp : l.phys = p := by
    obtain ⟨k, hk, hr⟩ := firstIdx_getElem hc
    cases hk.symm.trans hg
    exact of_decide_eq_true (Bool.and_eq_true_iff.mp hr).1
  simp only [portPass, hc, Option.bind_some, hg, hp]

/-! ### Errors of the stacks (R274, R275, assumption 69) -/

theorem hbmBad_iff {s : State} {a n : Nat} : hbmBad s a n = true ↔ n ≠ 0 ∧ ∃ h ∈ s.lat.badHalf, a / 32 ≤ h ∧ h ≤ (a + n - 1) / 32 := by
  simp [hbmBad]

theorem mem_markBad {addr h : Nat} {s : State} : h ∈ (markBad addr s).lat.badHalf ↔ h ∈ s.lat.badHalf ∨ h = addr / 32 := by
  simp only [markBad, List.mem_append, List.mem_cons, List.mem_filter, decide_eq_true_eq]
  constructor
  · rintro (⟨h1, -⟩ | rfl | ⟨h1, -⟩)
    · exact .inl h1
    · exact .inr rfl
    · exact .inl h1
  · rintro (h1 | rfl)
    · rcases Nat.lt_trichotomy h (addr / 32) with h2 | h2 | h2
      · exact .inl ⟨h1, h2⟩
      · exact .inr (.inl h2)
      · exact .inr (.inr ⟨h1, h2⟩)
    · exact .inr (.inl rfl)

theorem hbmBad_markBad {addr a n : Nat} {s : State} : hbmBad (markBad addr s) a n = true ↔
    hbmBad s a n = true ∨ n ≠ 0 ∧ a / 32 ≤ addr / 32 ∧ addr / 32 ≤ (a + n - 1) / 32 := by
  simp only [hbmBad_iff, mem_markBad]
  constructor
  · rintro ⟨hn, h, hm | rfl, hr⟩
    · exact .inl ⟨hn, h, hm, hr⟩
    · exact .inr ⟨hn, hr⟩
  · rintro (⟨hn, h, hm, hr⟩ | ⟨hn, hr⟩)
    · exact ⟨hn, h, .inl hm, hr⟩
    · exact ⟨hn, _, .inr rfl, hr⟩

theorem hbmBad_clearBad {addr a n : Nat} {s : State} (h1 : a ≤ addr / 32 * 32) (h2 : addr / 32 * 32 + 32 ≤ a + n) :
    hbmBad (clearBad a n s) addr 1 = false := by
  rw [← Bool.not_eq_true, hbmBad_iff]
  rintro ⟨-, h, hm, hl, hh⟩
  have hh' : h = addr / 32 := by omega
  have hc := (List.mem_filter.mp hm).2
  simp only [Bool.not_eq_true', decide_eq_false_iff_not] at hc
  omega

theorem ueCopy_none {s : State} (h : s.lat.jobs = []) (addr : Nat) : ueCopy addr s = s := by
  simp only [ueCopy, h, List.find?_nil]

/-- The registers that the latch part's place and the step state rest on stand apart from those a report writes. -/
theorem rollback_report (c : Code) (src : Nat) (d : Word) (addr : Nat) (s : State) :
    (stepState (report c src d s) == 3 && rangeIn addr 1 (latchBase (report c src d s) (dieOfAddr addr)) (latchBytes (report c src d s))) =
      (stepState s == 3 && rangeIn addr 1 (latchBase s (dieOfAddr addr)) (latchBytes s)) := by
  have h1 : fld (report c src d s) LAT_POOL_POOL_GIB = fld s LAT_POOL_POOL_GIB := fld_report _ _ _ _ (by decide)
  have h2 : fld (report c src d s) LAT_POOL_HOLD_GIB = fld s LAT_POOL_HOLD_GIB := fld_report _ _ _ _ (by decide)
  have h3 : stepState (report c src d s) = stepState s := fld_report _ _ _ _ (by decide)
  simp only [latchBase, latchBytes, poolBase, poolShare, holdShare, h1, h2, h3, report_fuses]

theorem memUe_plain {addr : Nat} {s : State} (hp : hasStack s.fuses (stackOf addr) = true) (hj : s.lat.jobs = []) :
    memUe addr none s =
      let j := stackOf addr
      stackError j (stepState s == 3 && rangeIn addr 1 (latchBase s (dieOfAddr addr)) (latchBytes s))
        (addFld (MEM_STACK_STAT_UE_COUNT (j / 4) (j % 4)) 1 (report cMEM_UE (srcOf (j / 4) 5 j) (BitVec.ofNat 64 addr) (markBad addr s))) := by
  have hr := rollback_report cMEM_UE (srcOf (stackOf addr / 4) 5 (stackOf addr)) (BitVec.ofNat 64 addr) addr (markBad addr s)
  have hu : ∀ f, (addFld f 1 (report cMEM_UE (srcOf (stackOf addr / 4) 5 (stackOf addr)) (BitVec.ofNat 64 addr) (markBad addr s))).lat.jobs = [] := by
    intro f
    rw [addFld_lat, report_lat]
    exact hj
  unfold memUe
  dsimp only
  rw [hp, Bool.not_true, if_neg Bool.false_ne_true, hr, ueCopy_none (hu _)]
  rfl

/-- Settles O42: the window by range and error; the errors by the half-lines they mark. -/
theorem memoryAccessesAndErrors : Obligations.MemoryAccessesAndErrors := by
  unfold Obligations.MemoryAccessesAndErrors
  refine ⟨fun n s hs => ⟨fun hl a => ?_, fun hl => ⟨fun off len h1 h2 => ⟨fun hb => ?_, fun hb => ?_⟩, fun off data h1 h2 => ?_,
    fun off len h => ?_, fun off data h => ?_⟩⟩, fun p c s l hc hg => ⟨fun h => ?_, fun h => ?_⟩,
    fun addr c s hs => ⟨fun hp => ⟨?_, fun hj hn => ?_⟩, fun hp => ⟨?_, ?_⟩⟩,
    fun addr a n s => ⟨hbmBad_markBad, hbmBad_clearBad⟩, fun j row s hs => ⟨fun h => ?_, fun h => ?_⟩⟩
  · exact (liveNext_of_live hs _).trans (congrArg Host.Outcome.next (mwAccess_unlinked hl a))
  · refine ⟨hostRead n (s.mem.bytes (mwBase n s + off) len) s,
      (liveNext_of_live hs (mwAccess n (.read off len) s)).trans (congrArg Host.Outcome.next ?_), rfl, rfl⟩
    rw [mwAccess_read hl, if_pos (mwInside_of h1 h2)]
    exact if_neg (by rw [mwBase, hb]; decide)
  · refine (liveNext_of_live hs (mwAccess n (.read off len) s)).trans (congrArg Host.Outcome.next ?_)
    rw [mwAccess_read hl, if_pos (mwInside_of h1 h2)]
    exact if_pos hb
  · refine (liveNext_of_live hs (mwAccess n (.write off data) s)).trans (congrArg Host.Outcome.next ?_)
    rw [mwAccess_write hl, if_pos (mwInside_of h1 h2)]
    rfl
  · have ht := mwAccess_read hl off len
    rw [mwInside_not h, if_neg Bool.false_ne_true] at ht
    refine ⟨_, liveNext_of_live hs (mwAccess n (.read off len) s), ?_, ?_⟩
    · rw [ht]
      exact congrArg (· ++ [(n.val, List.replicate len 0xFF)]) (report_reads _ _ _ s)
    · rw [ht]
      exact report_mem _ _ _ s
  · refine (liveNext_of_live hs (mwAccess n (.write off data) s)).trans (congrArg Host.Outcome.next ?_)
    rw [mwAccess_write hl, mwInside_not h, if_neg Bool.false_ne_true]
    rfl
  · exact congrArg Host.Outcome.next ((portPass_resident hc hg).trans (if_pos h))
  · exact congrArg Host.Outcome.next ((portPass_resident hc hg).trans (if_neg (by simpa using h)))
  · exact (liveNext_of_live hs _).trans (congrArg Host.Outcome.next (if_pos hp))
  · subst hn
    exact (liveNext_of_live hs _).trans (congrArg Host.Outcome.next (memUe_plain hp hj))
  · exact (liveNext_of_live hs _).trans (congrArg Host.Outcome.next (if_neg (by simp [hp])))
  · exact (liveNext_of_live hs (memUe addr c s)).trans (congrArg Host.Outcome.next (if_pos (by simp [hp])))
  · exact (liveNext_of_live hs _).trans (congrArg Host.Outcome.next (if_pos h))
  · exact (liveNext_of_live hs _).trans (congrArg Host.Outcome.next (if_neg (by simp [h])))

end Sys2Proof.Machine
end

section
/-! PROOF. The fabric ports: their status fields, their flits, and the states of a bring-up. -/
namespace Sys2Proof.Machine

/-- A row of a module that is live, by what it does. -/
theorem exec_live {i : Instr} {s t u : State} (he : exec i s = liveNext s t) (hs : live s = true) (h : t = u) : exec i s = .next u := by
  rw [he, liveNext_of_live hs, h]

/-! ### A port of the fabric unit -/

@[simp] theorem getPort_setPort (n : Nat) (p : Port) (s : State) : getPort (setPort n p s) n = p := by
  simp [getPort, setPort, smGet_smSet]

@[simp] theorem getPort_modPort (n : Nat) (f : Port → Port) (s : State) : getPort (modPort n f s) n = f (getPort s n) :=
  getPort_setPort n _ s

@[simp] theorem fld_modPort (n : Nat) (f : Port → Port) (s : State) (g : Fld) : fld (modPort n f s) g = fld s g := rfl

theorem modPort_mem (n : Nat) (f : Port → Port) (s : State) : (modPort n f s).mem = s.mem := rfl

theorem portState_mem (n v : Nat) (s : State) : (portState n v s).mem = s.mem := by rw [portState, modPort_mem, setFld_mem]

/-- A field is one of the status register of port `n`. -/
def portStat (n : Nat) (f : Fld) : Prop := f.addr = rFAB_PORT_STAT (n / 2) (n % 2) ∧ f.lo + f.w ≤ 64

theorem portStat_state (n : Nat) : portStat n (pState n) := ⟨rfl, Nat.le_of_ble_eq_true rfl⟩
theorem portStat_version (n : Nat) : portStat n (pVersion n) := ⟨rfl, Nat.le_of_ble_eq_true rfl⟩
theorem portStat_width (n : Nat) : portStat n (pWidth n) := ⟨rfl, Nat.le_of_ble_eq_true rfl⟩
theorem portStat_lanes (n : Nat) : portStat n (pLanes n) := ⟨rfl, Nat.le_of_ble_eq_true rfl⟩
theorem portStat_group (n : Nat) : portStat n (pGroup n) := ⟨rfl, Nat.le_of_ble_eq_true rfl⟩
theorem portStat_delay (n : Nat) : portStat n (pDelay n) := ⟨rfl, Nat.le_of_ble_eq_true rfl⟩

/-- Two fields whose bits stand apart, whatever their registers. -/
theorem apart_bits {f g : Fld} (h : Nat.ble (g.lo + g.w) f.lo || Nat.ble (f.lo + f.w) g.lo) : fldApart f g = true :=
  fldApart_of (.inr (by simpa using h))

/-- The status register of a port stands apart from any register of another address. -/
theorem portStat_apart {n : Nat} {f g : Fld} (hf : portStat n f) (h : rFAB_PORT_STAT (n / 2) (n % 2) ≠ g.addr) : fldApart f g = true :=
  fldApart_of (.inl (hf.1 ▸ h))

/-- The ports' status registers lie below the management region. -/
theorem portStat_below {n : Nat} (hn : n < 16) : rFAB_PORT_STAT (n / 2) (n % 2) < rCAPS_B := by
  simp only [rFAB_PORT_STAT, rCAPS_B]
  omega

theorem fld_report_portStat {n : Nat} (hn : n < 16) {f : Fld} (hf : portStat n f) (c : Code) (src : Nat) (d : Word) (s : State) :
    fld (report c src d s) f = fld s f := by
  refine fld_report c src d s ?_
  have h : f.addr < rJNL_COUNT := hf.1 ▸ Nat.lt_trans (portStat_below hn) (by decide)
  have h' : rJNL_COUNT < rERR_GEN := by decide
  rw [reportReg, beq_false_of_ne (Nat.ne_of_lt h), decide_eq_false (Nat.not_le.mpr (Nat.lt_trans h h')), Bool.false_and, Bool.or_false]

theorem fld_portState_same (n v : Nat) (s : State) : fld (portState n v s) (pState n) = v % 8 := by
  rw [portState, fld_modPort, fld_setFld_same _ _ _ (portStat_state n).2]
  rfl

theorem fld_portState_apart {n : Nat} {g : Fld} (v : Nat) (s : State) (h : fldApart (pState n) g = true) :
    fld (portState n v s) g = fld s g := by
  rw [portState, fld_modPort, fld_setFld_apart _ _ (portStat_state n).2 h]

@[simp] theorem getPort_setFld (f : Fld) (v : Nat) (s : State) (n : Nat) : getPort (setFld f v s) n = getPort s n := rfl

@[simp] theorem getPort_portState (n v : Nat) (s : State) : getPort (portState n v s) n = { getPort s n with stateAt := s.now } := by
  rw [portState, getPort_modPort, getPort_setFld]

/-! ### Flits (R366 to R368) -/

/-- The flit is bad: an uncorrectable codeword or a wrong CRC. -/
def flitBad (b : List Byte) (cws : List Codeword) : Bool :=
  cws.any (fun c => decide (15 < c.errors)) || bodyNat b 0x1F8 8 != crc64 (b.take 0x1F8)

theorem flitBad_iff {b : List Byte} {cws : List Codeword} : flitBad b cws = true ↔
    cws.any (fun c => decide (15 < c.errors)) = true ∨ bodyNat b 0x1F8 8 ≠ crc64 (b.take 0x1F8) := by
  rw [flitBad, Bool.or_eq_true, bne_iff_ne]

/-- A flit that leaves the retry buffer and the place in it as they are. -/
theorem flitReceived_of {n : Nat} {f : FlitBits} {cws : List Codeword} {s : State} {q : Port} (hu : portUp s n = true)
    (hq : flitTake s.now (leBytes 512 f.toNat) (flitBad (leBytes 512 f.toNat) cws) (getPort s n) = q)
    (hr : q.retry = (getPort s n).retry) (ht : q.txNext = (getPort s n).txNext) :
    flitReceived n f cws s = setPort n (flitSend s.now q) (fecCount n cws s) := by
  change (if (!portUp s n) = true then s else
    let q := flitTake s.now (leBytes 512 f.toNat) (flitBad (leBytes 512 f.toNat) cws) (getPort s n)
    if q.txNext < (getPort s n).txNext - ((getPort s n).retry.length - q.retry.length)
    then addFld (pRetries n) 1 (setPort n (flitSend s.now q) (fecCount n cws s)) else setPort n (flitSend s.now q) (fecCount n cws s)) = _
  rw [hu, Bool.not_true, if_neg Bool.false_ne_true]
  dsimp only
  rw [hq, hr, ht, Nat.sub_self, Nat.sub_zero, if_neg (Nat.lt_irrefl _)]

theorem flitTake_discards {now : Nat} {b : List Byte} {bad : Bool} {p : Port}
    (h : bad = true ∨ bodyNat b 0 2 / 4096 = 0 ∧ bodyNat b 0 2 % 4096 ≠ p.rxNext) : flitTake now b bad p = flitDiscard p :=
  if_pos (by rcases h with h | ⟨h1, h2⟩ <;> simp [*])

/-- An acknowledgement of what is acknowledged already. -/
theorem flitAck_same {now : Nat} {p : Port} (h : p.txAck < 4096) : flitAck now p.txAck p = p := by
  have h0 : (p.txAck % 4096 + 4096 - p.txAck) % 4096 = 0 := by omega
  have hb : p.txAck.testBit 12 = false := Nat.testBit_lt_two_pow h
  simp only [flitAck, h0, true_or, if_true, hb, Bool.false_eq_true, if_false]

theorem flitTake_takes {now : Nat} {b : List Byte} {p : Port} (h0 : bodyNat b 0 2 / 4096 = 0) (h1 : bodyNat b 0 2 % 4096 = p.rxNext)
    (h2 : bodyNat b 2 2 = p.txAck) (h3 : p.txAck < 4096) : flitTake now b false p =
      flitPackets now ((b.drop 0x14).take 484) { p with
        credits := (enumFrom 0 p.credits).map (fun x => x.2 + bodyNat b (4 + 2 * x.1) 2), rxNext := (p.rxNext + 1) % 4096,
        nakSent := false } := by
  have hi : decide (bodyNat b 0 2 / 4096 ≠ 0) = false := decide_eq_false (not_not.mpr h0)
  have hn : (bodyNat b 0 2 % 4096 != p.rxNext) = false := by rw [h1, bne_self_eq_false]
  unfold flitTake
  dsimp only
  rw [hi, hn, h2, flitAck_same h3]
  rfl

/-- Packing a flit leaves all but the packet under way, the queue and the credits. -/
theorem flitFill_leaves (fuel : Nat) (p : Port) (bs : List Byte) (ks : List Packet) :
    ∃ c q r, (flitFill fuel p bs ks).1 = { p with cur := c, txq := q, credits := r } := by
  induction fuel generalizing p bs ks with
  | zero => exact ⟨_, _, _, rfl⟩
  | succ fuel ih =>
    unfold flitFill
    split
    · exact ⟨_, _, _, rfl⟩
    · dsimp only
      split
      · obtain ⟨c, q, r, h⟩ := ih _ _ _
        exact ⟨c, q, r, h⟩
      · split
        · exact ⟨_, _, _, rfl⟩
        · split
          · exact ⟨_, _, _, rfl⟩
          · obtain ⟨c, q, r, h⟩ := ih _ _ _
            exact ⟨c, q, r, h⟩

theorem flitDiscard_leaves (p : Port) : (flitDiscard p).nakSent = true ∧ (p.nakSent = false → (flitDiscard p).nakDue = true) ∧
    flitDiscard p = { p with nakDue := (flitDiscard p).nakDue, nakSent := true } :=
  ⟨rfl, fun h => by simp [flitDiscard, h], rfl⟩

/-- What every flit that a port sends tells, and what sending it leaves. -/
def flitSent (p q : Port) : Prop := q.nakDue = false ∧ q.retry.length ≤ max 1024 p.retry.length ∧
  ∃ w, q.out = some w ∧ w.ack = (p.rxNext + 4095) % 4096 ∧ w.nak = p.nakDue ∧ (w.idle = true → w.credits = p.returns)

theorem flitSend_sent (now : Nat) (p : Port) : flitSent p (flitSend now p) := by
  unfold flitSend
  split
  · exact ⟨rfl, Nat.le_max_right _ _, _, rfl, rfl, rfl, fun h => nomatch h⟩
  · by_cases hl : p.retry.length < 1024
    · rw [if_pos hl]
      obtain ⟨c, q, r, h⟩ := flitFill_leaves 64 p [] []
      generalize flitFill 64 p [] [] = x at h ⊢
      obtain ⟨x, bs, ks⟩ := x
      subst h
      dsimp only
      split
      · exact ⟨rfl, Nat.le_max_right _ _, _, rfl, rfl, rfl, fun _ => rfl⟩
      · split
        · refine ⟨rfl, ?_, _, rfl, rfl, rfl, fun h => nomatch h⟩
          simp only [flitOut, List.length_append, List.length_singleton]
          omega
        · refine ⟨rfl, ?_, _, rfl, rfl, rfl, fun h => nomatch h⟩
          simp only [flitOut, List.length_append, List.length_singleton]
          omega
    · rw [if_neg hl]
      exact ⟨rfl, Nat.le_max_right _ _, _, rfl, rfl, rfl, fun _ => rfl⟩

/-! ### Bring-up (R377 to R382) -/

theorem fastStart_up {n : Nat} {s : State} (h : portUp s n = true) : (getPort (fastStart n s) n).fast = true ∧
    fld (fastStart n s) (pState n) = 2 := by
  rw [fastStart, if_pos h, getPort_modPort, fld_modPort, fld_portState_same]
  exact ⟨rfl, rfl⟩

theorem fastStart_down {n : Nat} {s : State} (h : portUp s n = false) : fastStart n s = s := if_neg (by rw [h]; decide)

/-- What a port sends of itself rests on no field of its status register but the lanes. -/
theorem ownBitting_setFld {n : Nat} (hn : n < 16) {f : Fld} (v : Nat) (s : State) (hf : portStat n f)
    (hl : fldApart f (pLanes n) = true) : ownBitting (setFld f v s) n = ownBitting s n := by
  have h : ∀ g : Fld, rCAPS_B ≤ g.addr → fld (setFld f v s) g = fld s g := fun g hg =>
    fld_setFld_apart s v hf.2 (portStat_apart hf (Nat.ne_of_lt (Nat.lt_of_lt_of_le (portStat_below hn) hg)))
  simp only [ownBitting, ownId, h KPR_VERSION_FABRIC_MIN (by decide), h KPR_VERSION_FABRIC_MAX (by decide), h CAPS_B_KEYWAY (by decide),
    h CAPS_B_COMP_WIRE (by decide), h FAB_ID_WARD (by decide), h FAB_ID_MODULE (by decide), fld_setFld_apart s v hf.2 hl]

theorem ownBitting_portState {n : Nat} (hn : n < 16) (v : Nat) (s : State) : ownBitting (portState n v s) n = ownBitting s n := by
  have h : ∀ f t, ownBitting (modPort n f t) n = ownBitting t n := fun f t => rfl
  rw [portState, h, ownBitting_setFld hn v s (portStat_state n) (apart_bits rfl)]

theorem bittingBegin_leaves (n : Nat) (s : State) : (getPort (bittingBegin n s) n).lastRec = none ∧
    (getPort (bittingBegin n s) n).recOut = List.replicate 8 (ownBitting s n) := by
  rw [bittingBegin, getPort_modPort]
  exact ⟨rfl, rfl⟩

/-- R377: the identity is there, so the port leaves ALIGN and sends its record. -/
theorem stageAlign_leaves {n : Nat} (hn : n < 16) (s : State) : let t := bittingBegin n (portState n 4 (setFld (pVersion n) 0 s))
    fld t (pState n) = 4 ∧ fld t (pVersion n) = 0 ∧ (getPort t n).lastRec = none ∧
      (getPort t n).recOut = List.replicate 8 (ownBitting s n) ∧ t.mem = s.mem := by
  have hb : fld (setFld (pVersion n) 0 s) (pVersion n) = 0 := by rw [fld_setFld_same _ _ _ (portStat_version n).2]; rfl
  obtain ⟨h1, h2⟩ := bittingBegin_leaves n (portState n 4 (setFld (pVersion n) 0 s))
  have ho : ownBitting (portState n 4 (setFld (pVersion n) 0 s)) n = ownBitting s n :=
    (ownBitting_portState hn 4 _).trans (ownBitting_setFld hn 0 s (portStat_version n) (apart_bits rfl))
  refine ⟨?_, ?_, h1, ?_, ?_⟩
  · rw [bittingBegin, fld_modPort, fld_portState_same]
  · rw [bittingBegin, fld_modPort, fld_portState_apart _ _ (apart_bits rfl), hb]
  · rw [h2, ho]
  · rw [bittingBegin, modPort_mem, portState_mem, setFld_mem]

/-- A port whose delay is within the limit is UP with it. -/
theorem portDelay_within {n d : Nat} (s : State) (hd : d ≤ 1000) : let t := portDelay n d s
    fld t (pState n) = 6 ∧ fld t (pDelay n) = d ∧ (getPort t n).retries = 0 ∧ (getPort t n).fast = false ∧
    (∀ g, fldApart (pState n) g = true → fldApart (pDelay n) g = true → fld t g = fld s g) ∧ t.mem = s.mem := by
  have hm : min d 1023 % 2 ^ (pDelay n).w = d := by
    change min d 1023 % 2 ^ 10 = d
    omega
  dsimp only
  rw [portDelay, if_neg (Nat.not_lt.mpr hd)]
  refine ⟨?_, ?_, ?_, ?_, fun g h1 h2 => ?_, ?_⟩
  · rw [fld_portState_same]
  · rw [fld_portState_apart _ _ (apart_bits rfl), fld_modPort, fld_setFld_same _ _ _ (portStat_delay n).2, hm]
  · rw [getPort_portState, getPort_modPort]
  · rw [getPort_portState, getPort_modPort]
  · rw [fld_portState_apart _ _ h1, fld_modPort, fld_setFld_apart _ _ (portStat_delay n).2 h2]
  · rw [portState_mem, modPort_mem, setFld_mem]

end Sys2Proof.Machine
end

section
/-! PROOF. The fabric ports: fast retrains, and the rows of the ports (settles O43). -/
namespace Sys2Proof.Machine

/-! ### The lanes of a fast retrain (R381, R382) -/

theorem lanesWidth_le {m : Nat} {w : Nat × Nat} (h : lanesWidth m = some w) : w.1 = 8 ∧ m = 255 ∨ w.1 = 4 := by
  unfold lanesWidth at h
  split at h
  next hm => cases h; exact .inl ⟨rfl, hm⟩
  next =>
    split at h
    next => cases h; exact .inr rfl
    next =>
      split at h
      · cases h; exact .inr rfl
      · cases h

/-- A port that does not carry all its lanes does not widen. -/
theorem lanesWidth_inUse {n m g : Nat} {s : State} {w : Nat × Nat} (h : lanesWidth (m &&& lanesInUse s n &&& g) = some w)
    (hw : fld s (pWidth n) ≠ 8) : w.1 = 4 := by
  rcases lanesWidth_le h with ⟨-, h8⟩ | h4
  · have h1 : m &&& lanesInUse s n &&& g ≤ lanesInUse s n := Nat.le_trans Nat.and_le_left Nat.and_le_right
    have h2 : lanesInUse s n ≤ 240 := by
      rw [lanesInUse, if_neg hw]
      split <;> omega
    omega
  · exact h4

/-- The partner's record is shown in the peer register of the port. -/
def peerShown (n : Nat) (r : Bitting) (s : State) : State :=
  setFld (FAB_PORT_PEER_KIND (n / 2) (n % 2)) r.peerKind (setFld (FAB_PORT_PEER_PORT (n / 2) (n % 2)) r.port
    (setFld (FAB_PORT_PEER_ID (n / 2) (n % 2)) r.id.toNat (setFld (FAB_PORT_PEER_VERSION_MAX (n / 2) (n % 2)) r.verMax
      (setFld (FAB_PORT_PEER_CAPS (n / 2) (n % 2)) r.caps.toNat s))))

theorem bittingAccept_eq {n : Nat} {r : Bitting} {s : State} {w g : Nat} (hv : ¬ min 2 r.verMax < max 1 r.verMin)
    (hw : lanesWidth (fld (peerShown n r s) (pLanes n) &&& r.lanesGood.toNat) = some (w, g)) : bittingAccept n r s =
    setFld (pVersion n) (min 2 r.verMax) (setFld (pWidth n) w (setFld (pGroup n) g (peerShown n r s))) := by
  unfold bittingAccept
  dsimp only
  rw [if_neg hv, ← peerShown, hw]

theorem peer_ne_stat (d k : Nat) : rFAB_PORT_PEER d k ≠ rFAB_PORT_STAT d k := by
  simp only [rFAB_PORT_PEER, rFAB_PORT_STAT]
  omega

theorem fld_setFld_peer {n : Nat} {f : Fld} (hf : portStat n f) (lo w v : Nat) (t : State) (hb : lo + w ≤ 64) :
    fld (setFld ⟨rFAB_PORT_PEER (n / 2) (n % 2), lo, w⟩ v t) f = fld t f :=
  fld_setFld_apart t v hb (fldApart_of (.inl (by rw [hf.1]; exact peer_ne_stat _ _)))

theorem fld_peerShown {n : Nat} {f : Fld} (hf : portStat n f) (r : Bitting) (s : State) : fld (peerShown n r s) f = fld s f := by
  rw [peerShown, FAB_PORT_PEER_KIND, fld_setFld_peer hf _ _ _ _ (by decide), FAB_PORT_PEER_PORT, fld_setFld_peer hf _ _ _ _ (by decide),
    FAB_PORT_PEER_ID, fld_setFld_peer hf _ _ _ _ (by decide), FAB_PORT_PEER_VERSION_MAX, fld_setFld_peer hf _ _ _ _ (by decide),
    FAB_PORT_PEER_CAPS, fld_setFld_peer hf _ _ _ _ (by decide)]

theorem getPort_peerShown (n : Nat) (r : Bitting) (s : State) : getPort (peerShown n r s) n = getPort s n := by
  rw [peerShown, getPort_setFld, getPort_setFld, getPort_setFld, getPort_setFld, getPort_setFld]

theorem peerShown_mem (n : Nat) (r : Bitting) (s : State) : (peerShown n r s).mem = s.mem := by
  rw [peerShown, setFld_mem, setFld_mem, setFld_mem, setFld_mem, setFld_mem]

/-- R378: the record of a partner of a common version, whose lanes meet the port's, is taken. -/
theorem bittingAccept_taken {n : Nat} {r : Bitting} {s : State} {w : Nat × Nat} (h1 : 1 ≤ r.verMax) (h2 : r.verMin ≤ min 2 r.verMax)
    (hw : lanesWidth (fld s (pLanes n) &&& r.lanesGood.toNat) = some w) : let t := bittingAccept n r s
    fld t (pState n) = fld s (pState n) ∧ fld t (pWidth n) = w.1 ∧ getPort t n = getPort s n ∧ t.mem = s.mem := by
  have hv : ¬ min 2 r.verMax < max 1 r.verMin := by omega
  have hm : w.1 % 2 ^ 4 = w.1 := by rcases lanesWidth_le hw with h | h <;> omega
  obtain ⟨w, g⟩ := w
  dsimp only
  rw [bittingAccept_eq hv (by rw [fld_peerShown (portStat_lanes n), hw])]
  refine ⟨?_, ?_, ?_, ?_⟩
  · rw [fld_setFld_apart _ _ (portStat_version n).2 (apart_bits rfl), fld_setFld_apart _ _ (portStat_width n).2 (apart_bits rfl),
      fld_setFld_apart _ _ (portStat_group n).2 (apart_bits rfl), fld_peerShown (portStat_state n)]
  · rw [fld_setFld_apart _ _ (portStat_version n).2 (apart_bits rfl), fld_setFld_same _ _ _ (portStat_width n).2]
    exact hm
  · rw [getPort_setFld, getPort_setFld, getPort_setFld, getPort_peerShown]
  · rw [setFld_mem, setFld_mem, setFld_mem, peerShown_mem]

theorem getPort_addFld (f : Fld) (k : Nat) (s : State) (n : Nat) : getPort (addFld f k s) n = getPort s n := rfl

/-- Sending again leaves the port's status and the fast retrain. -/
theorem resendAll_leaves (n : Nat) (s : State) : (∀ f, portStat n f → fld (resendAll n s) f = fld s f) ∧
    (getPort (resendAll n s) n).fast = (getPort s n).fast ∧ (resendAll n s).mem = s.mem := by
  unfold resendAll
  split
  · exact ⟨fun f _ => rfl, rfl, rfl⟩
  · refine ⟨fun f hf => ?_, ?_, by rw [addFld_mem, modPort_mem]⟩
    · rw [fld_addFld_apart _ _ (Nat.le_of_ble_eq_true rfl), fld_modPort]
      refine fldApart_of (.inl ?_)
      rw [hf.1]
      simp only [pRetries, FAB_PORT_ERR_RETRIES, rFAB_PORT_ERR, rFAB_PORT_STAT]
      omega
    · rw [getPort_addFld, getPort_modPort]

theorem lanesInUse_and (n m : Nat) (s : State) : m &&& lanesInUse s n < 2 ^ 8 := by
  refine Nat.lt_of_le_of_lt Nat.and_le_right ?_
  unfold lanesInUse
  split
  · omega
  · split <;> omega

/-- The state in which the partner's record is taken: the good lanes are shown, and the own record is sent again. -/
theorem fastDone_begins (n l : Nat) (s : State) (h : l < 2 ^ 8) :
    ∃ u, u = modPort n (fun p => { p with recOut := List.replicate 8 (ownBitting (setFld (pLanes n) l s) n) }) (setFld (pLanes n) l s) ∧
      fld u (pLanes n) = l ∧ fld u (pState n) = fld s (pState n) ∧ (getPort u n).fast = (getPort s n).fast ∧ u.mem = s.mem := by
  refine ⟨_, rfl, ?_, ?_, ?_, ?_⟩
  · rw [fld_modPort, fld_setFld_same _ _ _ (portStat_lanes n).2]
    exact Nat.mod_eq_of_lt h
  · rw [fld_modPort, fld_setFld_apart _ _ (portStat_lanes n).2 (apart_bits rfl)]
  · rw [getPort_modPort, getPort_setFld]
  · rw [modPort_mem, setFld_mem]

theorem fastDone_up {n m d : Nat} {rs : List Bitting} {ds : List Nat} {r : Bitting} {s : State} {w : Nat × Nat} (hn : n < 16)
    (hp : hasPort s.fuses n = true) (hf : (getPort s n).fast = true) (hs : fld s (pState n) ≠ 7) (hr : bittingAgreed rs = some r)
    (hd : linkDelay (getPort s n).tries ds = some d) (hd' : d ≤ 1000) (h1 : 1 ≤ r.verMax) (h2 : r.verMin ≤ min 2 r.verMax)
    (hw : lanesWidth (m &&& lanesInUse s n &&& r.lanesGood.toNat) = some w) : let t := fastDone n m rs ds s
    fld t (pState n) = 6 ∧ fld t (pWidth n) = w.1 ∧ fld t (pDelay n) = d ∧ (getPort t n).fast = false ∧ t.mem = s.mem := by
  obtain ⟨u, hu, hul, hup, huf, hum⟩ := fastDone_begins n (m &&& lanesInUse s n) s (lanesInUse_and n m s)
  obtain ⟨ha1, ha2, ha3, ha4⟩ := bittingAccept_taken (n := n) (r := r) (s := u) h1 h2 (by rw [hul]; exact hw)
  have he : ∃ v, (v = bittingAccept n r u ∨ v = report cFAB_LANE (portSrc n) 0 (bittingAccept n r u)) ∧
      fastDone n m rs ds s = portDelay n d (resendAll n v) := by
    refine ⟨if fld (bittingAccept n r u) (pWidth n) < fld s (pWidth n) then report cFAB_LANE (portSrc n) 0 (bittingAccept n r u)
      else bittingAccept n r u, ?_, ?_⟩
    · split
      · exact .inr rfl
      · exact .inl rfl
    · unfold fastDone
      rw [if_neg (by simp [hf, hp]), hr, hd]
      dsimp only
      rw [← hu, if_neg (by rw [ha1, ha3, hup, huf, hf]; simp [hs])]
  obtain ⟨v, hv, hv'⟩ := he
  have hvp : getPort v n = getPort u n ∧ v.mem = u.mem ∧ fld v (pWidth n) = w.1 := by
    rcases hv with rfl | rfl
    · exact ⟨ha3, ha4, ha2⟩
    · refine ⟨?_, (report_mem _ _ _ _).trans ha4, (fld_report_portStat hn (portStat_width n) _ _ _ _).trans ha2⟩
      rw [← ha3, getPort, report_fab, getPort]
  obtain ⟨hvp, hvm, hvw⟩ := hvp
  obtain ⟨hr1, -, hr3⟩ := resendAll_leaves n v
  obtain ⟨hp1, hp2, -, hp4, hp5, hp6⟩ := portDelay_within (n := n) (d := d) (resendAll n v) hd'
  dsimp only
  rw [hv']
  exact ⟨hp1, by rw [hp5 _ (apart_bits rfl) (apart_bits rfl), hr1 _ (portStat_width n), hvw], hp2, hp4, by rw [hp6, hr3, hvm, hum]⟩

/-! ### The rows -/

section
variable {n m : Nat} {ds : List Nat} {s : State} (hp : hasPort s.fuses n = true) (he : fldOn s (pEnable n) = true)
  (hf : (getPort s n).fast = false)
include hp he hf

theorem stageDone_detect (h : fld s (pState n) = 1) : stageDone n m ds s = portState n 2 s := by
  rw [stageDone, if_neg (by simp [hp, he, hf])]
  simp only [h]

theorem stageDone_train (h : fld s (pState n) = 2) : stageDone n m ds s = portState n 3 (setFld (pLanes n) m s) := by
  rw [stageDone, if_neg (by simp [hp, he, hf])]
  simp only [h]

theorem stageDone_align (h : fld s (pState n) = 3) : stageDone n m ds s =
    if fldOn s FAB_ID_VALID then bittingBegin n (portState n 4 (setFld (pVersion n) 0 s)) else s := by
  rw [stageDone, if_neg (by simp [hp, he, hf])]
  simp only [h]

theorem stageDone_bitting (h : fld s (pState n) = 4) : stageDone n m ds s = if fld s (pVersion n) ≠ 0 then portState n 5 s else s := by
  rw [stageDone, if_neg (by simp [hp, he, hf])]
  simp only [h]

theorem stageDone_delay {d : Nat} (h : fld s (pState n) = 5) (hd : linkDelay (getPort s n).tries ds = some d) :
    stageDone n m ds s = portDelay n d s := by
  rw [stageDone, if_neg (by simp [hp, he, hf])]
  simp only [h, hd]

end

theorem fastDone_idle {n m : Nat} {rs : List Bitting} {ds : List Nat} {s : State}
    (h : (getPort s n).fast = false ∨ bittingAgreed rs = none) : fastDone n m rs ds s = s := by
  unfold fastDone
  split
  next => rfl
  next hn =>
    rcases h with h | h
    · exact absurd (by simp [h]) hn
    · rw [h]

theorem exec_bringupTimeout {n : Fin 16} {limit : Nat} {s : State} (h : stageLimit s n = some limit) : exec (.bringupTimeout n) s =
    liveNext s (if (getPort s n).stateAt + limit ≤ s.now then portFail n 4 none s else s) := by
  change execBringupTimeout n s = _
  rw [execBringupTimeout, h]

/-- Settles O43: the rows of a port by its state; flits by what the port takes. -/
theorem portsRetryAndComeUp : Obligations.PortsRetryAndComeUp := by
  unfold Obligations.PortsRetryAndComeUp
  refine ⟨fun n s hs => ⟨fun hd => ?down, fun hu => ?up⟩, fun now p => ?flit, fun n s hs hp => ?bringup⟩
  case down =>
    refine ⟨fun f cws => exec_live (t := flitReceived n f cws s) rfl hs (if_pos (by rw [hd]; rfl)), exec_live rfl hs (if_neg (by simp [hd])),
      exec_live rfl hs (if_neg (by simp [hd])), fun l => exec_live rfl hs ?_⟩
    rw [fastStart_down hd, ite_self]
  case up =>
    refine ⟨fun f cws => ⟨fun h => ?_, fun h h0 h1 h2 h3 => ?_⟩, fun hr hl => exec_live rfl hs (if_pos (by simp [hu, hr, hl])),
      fun h => exec_live rfl hs (if_neg ?_), fun hr hl => ⟨exec_live rfl hs (if_pos (by simp [hu, hr, hl])), fastStart_up hu⟩,
      fun h => exec_live rfl hs (if_neg ?_), fun l h => exec_live rfl hs (if_pos h)⟩
    · have hq := flitTake_discards (now := s.now) (b := leBytes 512 f.toNat) (bad := flitBad (leBytes 512 f.toNat) cws) (p := getPort s n)
        (h.imp_left flitBad_iff.mpr)
      exact exec_live (t := flitReceived n f cws s) rfl hs (flitReceived_of hu hq rfl rfl)
    · have hb : flitBad (leBytes 512 f.toNat) cws = false := by rwa [← Bool.not_eq_true, flitBad_iff]
      have hq := flitTake_takes (now := s.now) h0 h1 h2 h3
      exact exec_live (t := flitReceived n f cws s) rfl hs (flitReceived_of hu (by rw [hb]; exact hq) rfl rfl)
    · rcases h with h | h <;> simp [h]
    · rcases h with h | h <;> simp [h]
  case flit =>
    obtain ⟨h1, h2, h3⟩ := flitDiscard_leaves p
    exact ⟨h1, h2, h3, flitSend_sent now p⟩
  case bringup =>
    refine ⟨fun he hf => ?stages, fun r h4 hm hv => ⟨fun hr => ?_, fun hr => ?_⟩, fun r h => ?_, fun limit hl => ⟨fun h => ?_, fun h => ?_⟩,
      fun m rs r ds d w hf h7 hr hd hd' h1 h2 hw => ⟨fun h8 => lanesWidth_inUse hw h8, ?_⟩, fun m rs ds h => ?_, fun h => ?_, fun h => ?_,
      fun h => ?_, fun h => ?_⟩
    case stages =>
      have hx : ∀ m ds u, stageDone n (BitVec.toNat m) ds s = u → exec (.bringupStageDone n m ds) s = .next u :=
        fun m ds u h => exec_live (t := stageDone n m.toNat ds s) rfl hs h
      refine ⟨fun m ds h => hx _ _ _ (stageDone_detect hp he hf h), fun m ds h => hx _ _ _ (stageDone_train hp he hf h),
        fun m ds h hv => hx _ _ _ ?_, fun m ds h hv => ?_, fun m ds h hv => hx _ _ _ ?_, fun m ds d h hd hd' => ?_⟩
      · rw [stageDone_align hp he hf h, hv, if_neg Bool.false_ne_true]
      · exact ⟨_, hx _ _ _ (by rw [stageDone_align hp he hf h, if_pos hv]), stageAlign_leaves n.isLt s⟩
      · rw [stageDone_bitting hp he hf h, if_pos hv]
      · obtain ⟨h1, h2, h3, -, -, h6⟩ := portDelay_within (n := n) s hd'
        exact ⟨portDelay n d s, hx _ _ _ (stageDone_delay hp he hf h hd), h1, h2, h3, h6⟩
    · refine exec_live (t := bittingRecord n r s) rfl hs ?_
      rw [bittingRecord, if_neg (by simp [h4, hp, hm, hv]), if_pos hr]
    · refine exec_live (t := bittingRecord n r s) rfl hs ?_
      rw [bittingRecord, if_neg (by simp [h4, hp, hm, hv]), if_neg hr]
    · refine exec_live (t := bittingRecord n r s) rfl hs (if_pos ?_)
      rcases h with h | h
      · exact .inl h
      · exact .inr (.inr (.inl h))
    · exact exec_live (exec_bringupTimeout hl) hs (if_pos h)
    · exact exec_live (exec_bringupTimeout hl) hs (if_neg h)
    · exact ⟨_, exec_live (t := fastDone n m.toNat rs ds s) rfl hs rfl, fastDone_up n.isLt hp hf h7 hr hd hd' h1 h2 hw⟩
    · exact exec_live (t := fastDone n m.toNat rs ds s) rfl hs (fastDone_idle h)
    · exact exec_live rfl hs (if_pos h)
    · exact exec_live rfl hs (if_neg (by simp [h]))
    · exact exec_live rfl hs (by rw [if_neg (by simp [hp]), if_pos h])
    · exact exec_live rfl hs (by rw [if_neg (by simp [hp]), if_neg (by simp [h])])

end Sys2Proof.Machine
end

section
/-! PROOF. Remote writes and reads, their answers and acknowledgements (settles O45). -/
namespace Sys2Proof.Machine

/-! ### A packet that a port delivered -/

theorem inFlow_single {p : Packet} {s : State} (h : s.fab.inbound = [p]) (t : State) : inFlow p s t = t := by
  rw [inFlow, ordered, inOrder_of_single h (f := fun k => k == p) (beq_self_eq_true p), if_pos rfl]

theorem inFlow_none {s : State} (h : s.fab.inbound = []) (p : Packet) (t : State) : inFlow p s t = t := by
  rw [inFlow, ordered, inOrder_of_none h, if_pos rfl]

theorem setAside_single {p : Packet} {s : State} (h : s.fab.inbound = [p]) :
    setAside p s = { s with fab := { s.fab with inbound := [] } } := by
  simp [setAside, h, firstIdx, dropAt]

theorem setAside_none {s : State} (h : s.fab.inbound = []) (p : Packet) : setAside p s = s := by
  simp only [setAside, h, firstIdx]

theorem takePacket_single {p : Packet} {s : State} (h : s.fab.inbound = [p]) : takePacket p s = creditBack p (setAside p s) := by
  simp [takePacket, takeInbound, setAside, h, firstIdx]

theorem takePacket_none {s : State} (h : s.fab.inbound = []) (p : Packet) : takePacket p s = s := by
  rw [takePacket, takeInbound_of_none h]

theorem creditBack_inbound (p : Packet) (s : State) : (creditBack p s).fab.inbound = s.fab.inbound := by
  unfold creditBack
  split <;> rfl

/-- The packet taken, nothing is delivered here, and only the fabric unit has changed. -/
theorem takePacket_leaves {p : Packet} {s : State} (h : s.fab.inbound = [p]) :
    ∃ f, takePacket p s = { s with fab := f } ∧ f.inbound = [] := by
  have hi : (takePacket p s).fab.inbound = [] := by rw [takePacket_single h, creditBack_inbound, setAside_single h]
  obtain ⟨f, hf⟩ := takePacket_fab p s
  rw [hf] at hi
  exact ⟨f, hf, hi⟩

/-- A row that comes to the same with its packet still delivered as with the packet taken. -/
theorem exec_taken {i : Instr} {p : Packet} {s : State} {f : State → State} (he : ∀ t, exec i t = liveNext t (inFlow p t (f t)))
    (hs : live s = true) (hin : s.fab.inbound = [p]) (h : f s = f (takePacket p s)) : exec i s = exec i (takePacket p s) := by
  obtain ⟨fab, ht, hf⟩ := takePacket_leaves hin
  have hs' : live (takePacket p s) = true := by rw [ht]; exact hs
  have hin' : (takePacket p s).fab.inbound = [] := by rw [ht]; exact hf
  rw [he, he, inFlow_single hin, inFlow_none hin', liveNext_of_live hs, liveNext_of_live hs', h]

theorem exec_made {i : Instr} {p : Packet} {s t u : State} (he : exec i s = liveNext s (inFlow p s t))
    (hs : live s = true) (hin : s.fab.inbound = []) (h : t = u) : exec i s = .next u := by
  rw [he, inFlow_none hin, liveNext_of_live hs, h]

/-! ### Writes (R71, R376, R387, R401) -/

/-- Why a write of another module is not made. -/
def writeRefused (s : State) (p : Packet) (a n : Nat) : Prop :=
  pktStale s p = true ∨ hbmRange s.fuses a n = false ∨ holdWrite s p a n = false ∧ storeAllowed s none a n = false

section
variable {p : Packet} {s : State} {a : Nat} {data : List Byte} {keep : List (Nat × Byte)} (hb : p.body = .write a data keep)
include hb

theorem remoteWrite_stale (h : pktStale s p = true) :
    remoteWrite p s = answerPkt p (dieOfAddr a % 8) .writeAck (addFld FAB_COUNT_STALE 1 (takePacket p s)) := by
  simp only [remoteWrite, hb, h, if_true]

theorem remoteWrite_unmapped (h : pktStale s p = false) (hr : hbmRange s.fuses a data.length = false) :
    remoteWrite p s = answerPkt p (dieOfAddr a % 8) (.refusal cADDR_UNMAPPED a) (takePacket p s) := by
  simp only [remoteWrite, hb, h, hr, Bool.not_false, Bool.false_eq_true, if_true, if_false]

theorem remoteWrite_region (h : pktStale s p = false) (hr : hbmRange s.fuses a data.length = true)
    (h1 : holdWrite s p a data.length = false) (h2 : storeAllowed s none a data.length = false) :
    remoteWrite p s = answerPkt p (dieOfAddr a % 8) (.refusal cSTEP_REGION a) (takePacket p s) := by
  simp only [remoteWrite, hb, h, hr, h1, h2, Bool.not_false, Bool.not_true, Bool.and_self, Bool.false_eq_true, if_true, if_false]

theorem remoteWrite_made (h : ¬ writeRefused s p a data.length) : remoteWrite p s =
    let t := holdNote p a data.length (hbmWrite ⟨a, data, keep, false, .remote p.src⟩ (setAside p s))
    if latHolds t a data.length then { t with fab := { t.fab with heldIn := t.fab.heldIn ++ [p] } }
    else answerPkt p (dieOfAddr a % 8) .writeAck (backIf p s t) := by
  obtain ⟨h1, h2, h3⟩ : pktStale s p = false ∧ hbmRange s.fuses a data.length = true ∧
      (!holdWrite s p a data.length && !storeAllowed s none a data.length) = false := by
    simpa [writeRefused] using h
  simp only [remoteWrite, hb, h1, h2, h3, Bool.not_true, Bool.false_eq_true, if_false]

/-- A refused write is answered alike with its packet taken before. -/
theorem remoteWrite_refused (hin : s.fab.inbound = [p]) (h : writeRefused s p a data.length) :
    remoteWrite p s = remoteWrite p (takePacket p s) := by
  obtain ⟨f, ht, hf⟩ := takePacket_leaves hin
  have htt : takePacket p (takePacket p s) = takePacket p s := takePacket_none (by rw [ht]; exact hf) p
  have h1 : pktStale (takePacket p s) p = pktStale s p := by rw [ht]; rfl
  have h2 : (takePacket p s).fuses = s.fuses := by rw [ht]
  have h3 : holdWrite (takePacket p s) p a data.length = holdWrite s p a data.length := by rw [ht]; rfl
  have h4 : storeAllowed (takePacket p s) none a data.length = storeAllowed s none a data.length := by rw [ht]; rfl
  by_cases hs : pktStale s p = true
  · rw [remoteWrite_stale hb hs, remoteWrite_stale hb (h1.trans hs), htt]
  · have hs' : pktStale s p = false := Bool.not_eq_true _ ▸ hs
    by_cases hr : hbmRange s.fuses a data.length = true
    · obtain ⟨hh, hx⟩ := (h.resolve_left hs).resolve_left (by simp [hr])
      rw [remoteWrite_region hb hs' hr hh hx,
        remoteWrite_region hb (h1.trans hs') (by rw [h2, hr]) (h3.trans hh) (h4.trans hx), htt]
    · have hr' : hbmRange s.fuses a data.length = false := Bool.not_eq_true _ ▸ hr
      rw [remoteWrite_unmapped hb hs' hr', remoteWrite_unmapped hb (h1.trans hs') (by rw [h2, hr']), htt]

end

/-! ### Reads (R275, R376) -/

section
variable {p : Packet} {s : State} {a n : Nat} (hb : p.body = .readReq a n)
include hb

theorem remoteRead_unmapped (h : hbmRange s.fuses a n = false) :
    remoteRead p s = answerPkt p (dieOfAddr a % 8) (.refusal cADDR_UNMAPPED a) (takePacket p s) := by
  simp only [remoteRead, hb, h, Bool.not_false, if_true]

theorem remoteRead_bad (h : hbmRange s.fuses a n = true) (h' : hbmBad s a n = true) : remoteRead p s = s := by
  simp only [remoteRead, hb, h, h', Bool.not_true, Bool.false_eq_true, if_true, if_false]

theorem remoteRead_answered (h : hbmRange s.fuses a n = true) (h' : hbmBad s a n = false) :
    remoteRead p s = answerPkt p (dieOfAddr a % 8) (.readData (s.mem.bytes a n)) (takePacket p s) := by
  simp only [remoteRead, hb, h, h', Bool.not_true, Bool.false_eq_true, if_false]

theorem remoteRead_taken (hin : s.fab.inbound = [p]) (h : hbmRange s.fuses a n = false ∨ hbmBad s a n = false) :
    remoteRead p s = remoteRead p (takePacket p s) := by
  obtain ⟨f, ht, hf⟩ := takePacket_leaves hin
  have htt : takePacket p (takePacket p s) = takePacket p s := takePacket_none (by rw [ht]; exact hf) p
  have h1 : hbmBad (takePacket p s) a n = hbmBad s a n := by rw [ht]; rfl
  have h2 : (takePacket p s).fuses = s.fuses := by rw [ht]
  have h3 : (takePacket p s).mem = s.mem := by rw [ht]
  by_cases hr : hbmRange s.fuses a n = true
  · have hx := h.resolve_left (by simp [hr])
    rw [remoteRead_answered hb hr hx, remoteRead_answered hb (by rw [h2, hr]) (h1.trans hx), htt, h3]
  · have hr' : hbmRange s.fuses a n = false := Bool.not_eq_true _ ▸ hr
    rw [remoteRead_unmapped hb hr', remoteRead_unmapped hb (by rw [h2, hr']), htt]

end

/-! ### Answers and acknowledgements (R375, R387) -/

/-- Accesses that this module has open are those of another state. -/
theorem sendOrDrop_txns (die : Nat) (p : Packet) (s : State) : (sendOrDrop die p s).fab.txns = s.fab.txns := by
  unfold sendOrDrop sendFrom
  dsimp only
  split
  · rfl
  · split
    · split
      · split <;> rfl
      · split <;> rfl
    · cases hashedPort p (routeSet s p) <;> rfl

theorem ackSend_txns (k : AckKey) (s : State) : (ackSend k s).fab.txns = s.fab.txns := by
  unfold ackSend
  split
  · rfl
  · exact sendOrDrop_txns _ _ _

theorem ackOwe_txns (d : Nat) (p : Packet) (s : State) : (ackOwe d p s).fab.txns = s.fab.txns := by
  have hsent : ∀ (k : AckKey) (t : State) (x : Option (AckKey × Nat)), t.fab.txns = s.fab.txns →
      (match x with
        | some x => if x.2 + fld t FAB_ROUTE_ACK_GAP_NS ≤ t.now then ackSend k t else t
        | none => ackSend k t).fab.txns = s.fab.txns := by
    intro k t x ht
    cases x with
    | none => exact (ackSend_txns k t).trans ht
    | some x =>
      dsimp only
      split
      · exact (ackSend_txns k t).trans ht
      · exact ht
  unfold ackOwe
  split
  · rfl
  · exact hsent _ _ _ rfl

/-- What an answer acknowledges, and that it is owed an acknowledgement of its own. -/
def answerTaken (p : Packet) (s : State) : State := ackOwe p.destDie.toNat p (flowAck 0 p.destDie.toNat p.src.toNat 1 s)

theorem answerTaken_txns (p : Packet) (s : State) : (answerTaken p s).fab.txns = s.fab.txns := ackOwe_txns _ _ _

section
variable {p : Packet} {read : Bool} {data : List Byte} {s : State} (hin : s.fab.inbound = [])
include hin

theorem answered_unknown (h : (s.fab.txns.find? fun t => t.tag == p.tag.toNat && t.read == read) = none) :
    answered p read data s = answerTaken p s := by
  unfold answered
  rw [takePacket_none hin]
  change (match (answerTaken p s).fab.txns.find? _ with | none => _ | some t => _) = _
  rw [answerTaken_txns, h]
  rfl

theorem answered_known {t : Txn} (h : (s.fab.txns.find? fun t => t.tag == p.tag.toNat && t.read == read) = some t) :
    answered p read data s = pump t.lcore (xAnswer t data (txnTake t.tag (answerTaken p s))) := by
  unfold answered
  rw [takePacket_none hin]
  change (match (answerTaken p s).fab.txns.find? _ with | none => _ | some t => _) = _
  rw [answerTaken_txns, h]
  rfl

end

theorem answered_taken {p : Packet} {read : Bool} {data : List Byte} {s : State} (hin : s.fab.inbound = [p]) :
    answered p read data s = answered p read data (takePacket p s) := by
  obtain ⟨f, ht, hf⟩ := takePacket_leaves hin
  have htt : takePacket p (takePacket p s) = takePacket p s := takePacket_none (by rw [ht]; exact hf) p
  rw [answered, answered, htt]

theorem deliveryAck_eq {p : Packet} {cls n : Nat} {ward : Bool} (hb : p.body = .deliveryAck cls n ward) (s : State) : deliveryAck p s =
    flowAck cls p.destDie.toNat (if ward then 0x10000 + memberWard p.src else p.src.toNat) n (takePacket p s) := by
  simp only [deliveryAck, hb]

/-- R387: an acknowledgement of the only flow. -/
theorem flowAck_only {f : Flow} {s : State} (h : s.fab.flows = [f]) (k : Nat) : flowAck f.cls f.die f.dest k s =
    { s with fab := { s.fab with flows := if f.unacked - k = 0 then [] else [{ f with unacked := f.unacked - k }] } } := by
  by_cases hk : f.unacked - k = 0
  · simp [flowAck, h, hk]
  · simp [flowAck, h, hk]

theorem ackGap_none {s : State} (h : s.fab.ackOwed = []) (d : Nat) (m : Member) (cls : Nat) : ackGap d m cls s = s := by
  simp only [ackGap, h, List.filter_nil, List.foldl_nil]

/-- The only acknowledgement owed, of a flow that had its last one at `t`. -/
theorem ackGap_only {d : Nat} {m : Member} {cls sd k t : Nat} {ward : Bool} {s : State} (h : s.fab.ackOwed = [(⟨d, m, cls, sd, ward⟩, k)])
    (hl : s.fab.ackLast = [(⟨d, m, cls, sd, ward⟩, t)]) : ackGap d m cls s =
      if t + fld s FAB_ROUTE_ACK_GAP_NS ≤ s.now then ackSend ⟨d, m, cls, sd, ward⟩ s else s := by
  simp [ackGap, h, hl]

/-- Settles O45: each row with its packet taken first, and then by what it finds. -/
theorem remoteAccesses : Obligations.RemoteAccesses := by
  unfold Obligations.RemoteAccesses
  refine ⟨fun n p s hs hin => ?taken, fun n p s hs hin => ⟨fun a data keep hb => ?write, fun a len hb => ?read, ⟨fun ht => ?unknown,
    fun t ht htag => ?known⟩, fun f k ward hb hf hd hdest => ?delivered, fun d m cls h => ?_, fun d m cls sd k t ward h hl => ⟨fun hn => ?_,
      fun hn => ?_⟩⟩⟩
  case taken =>
    have hw : ∀ t, exec (.remoteWrite n p) t = liveNext t (inFlow p t (remoteWrite p t)) := fun t => rfl
    have hr : ∀ t, exec (.remoteRead n p) t = liveNext t (inFlow p t (remoteRead p t)) := fun t => rfl
    refine ⟨fun a data keep hb => ⟨fun h => exec_taken hw hs hin (remoteWrite_refused hb hin h), fun h => ?_⟩, setAside_single hin,
      fun a len hb => ⟨fun h => exec_taken hr hs hin (remoteRead_taken hb hin h), fun h h' => ?_⟩, fun data hb => ?_, fun hb => ?_,
      fun cls k ward hb => ?_, ?_⟩
    · rw [hw, inFlow_single hin, liveNext_of_live hs, remoteWrite_made hb h]
      have hc : s.fab.inbound.contains p = true := by simp [hin]
      simp only [backIf, hc, if_true]
    · rw [hr, inFlow_single hin, liveNext_of_live hs, remoteRead_bad hb h h']
    · have he : ∀ t, exec (.readData p) t = liveNext t (inFlow p t (answered p true data t)) := by
        intro t
        change execReadData p t = _
        rw [execReadData, hb]
      exact exec_taken he hs hin (answered_taken hin)
    · have he : ∀ t, exec (.writeAck p) t = liveNext t (inFlow p t (answered p false [] t)) := by
        intro t
        change execWriteAck p t = _
        rw [execWriteAck, hb]
      exact exec_taken he hs hin (answered_taken hin)
    · obtain ⟨f, ht, hf⟩ := takePacket_leaves hin
      refine exec_taken (f := deliveryAck p) (fun t => rfl) hs hin ?_
      rw [deliveryAck_eq hb, deliveryAck_eq hb, takePacket_none (s := takePacket p s) (by rw [ht]; exact hf)]
    · obtain ⟨f, ht, hf⟩ := takePacket_leaves hin
      rw [ht]
      exact ⟨rfl, hf⟩
  case write =>
    have hx : ∀ u, remoteWrite p s = u → exec (.remoteWrite n p) s = .next u := fun u h => exec_made (t := remoteWrite p s) rfl hs hin h
    have ht : takePacket p s = s := takePacket_none hin p
    refine ⟨fun h => hx _ ?_, fun h h1 => hx _ ?_, fun h h1 h2 h3 => hx _ ?_, fun h h1 h2 => hx _ ?_⟩
    · rw [remoteWrite_stale hb h, ht]
    · rw [remoteWrite_unmapped hb h h1, ht]
    · rw [remoteWrite_region hb h h1 h2 h3, ht]
    · have hn : ¬ writeRefused s p a data.length := by
        rcases h2 with h2 | h2 <;> simp [writeRefused, h, h1, h2]
      have hc : s.fab.inbound.contains p = false := by simp [hin]
      rw [remoteWrite_made hb hn, setAside_none hin]
      simp only [backIf, hc, Bool.false_eq_true, if_false]
  case read =>
    have hx : ∀ u, remoteRead p s = u → exec (.remoteRead n p) s = .next u := fun u h => exec_made (t := remoteRead p s) rfl hs hin h
    have ht : takePacket p s = s := takePacket_none hin p
    refine ⟨fun h => hx _ ?_, fun h h1 => hx _ ?_, fun h h1 => hx _ (remoteRead_bad hb h h1)⟩
    · rw [remoteRead_unmapped hb h, ht]
    · rw [remoteRead_answered hb h h1, ht]
  case unknown =>
    have hf : ∀ read, (s.fab.txns.find? fun t => t.tag == p.tag.toNat && t.read == read) = none := fun read => by simp [ht]
    refine ⟨fun data hb => ?_, fun hb => ?_⟩
    · refine exec_made (p := p) (t := answered p true data s) ?_ hs hin (answered_unknown hin (hf true))
      change execReadData p s = _
      rw [execReadData, hb]
    · refine exec_made (p := p) (t := answered p false [] s) ?_ hs hin (answered_unknown hin (hf false))
      change execWriteAck p s = _
      rw [execWriteAck, hb]
  case known =>
    have hf : (s.fab.txns.find? fun u => u.tag == p.tag.toNat && u.read == t.read) = some t := by simp [ht, htag]
    refine ⟨fun data hb hr => ?_, fun hb hr => ?_⟩
    · refine exec_made (p := p) (t := answered p true data s) ?_ hs hin (answered_known hin (hr ▸ hf))
      change execReadData p s = _
      rw [execReadData, hb]
    · refine exec_made (p := p) (t := answered p false [] s) ?_ hs hin (answered_known hin (hr ▸ hf))
      change execWriteAck p s = _
      rw [execWriteAck, hb]
  case delivered =>
    refine exec_made (t := deliveryAck p s) rfl hs hin ?_
    rw [deliveryAck_eq hb, ← hd, ← hdest, takePacket_none hin]
    exact flowAck_only hf k
  · exact exec_live (t := ackGap d m cls.toNat s) rfl hs (ackGap_none h _ _ _)
  · exact exec_live (t := ackGap d m cls.toNat s) rfl hs ((ackGap_only h hl).trans (if_pos hn))
  · exact exec_live (t := ackGap d m cls.toNat s) rfl hs ((ackGap_only h hl).trans (if_neg (Nat.not_le.mpr hn)))

end Sys2Proof.Machine
end

section
/-! PROOF. Heartbeats, silence, notices, retirement and the adoption pull (settles O46). -/
namespace Sys2Proof.Machine

/-! ### A control message that a port delivered -/

theorem ctlIs_body {c : Ctl} {p : Packet} (h : p.body = .control c) : ctlIs c p = true := by rw [ctlIs, h, beq_self_eq_true]

theorem takeCtl_single {c : Ctl} {p : Packet} {s : State} (hin : s.fab.inbound = [p]) (hb : p.body = .control c) :
    takeCtl c s = takePacket p s := by
  rw [takeCtl, takeInbound_of_single hin (ctlIs_body hb)]

/-! ### Heartbeats (R447, R448) -/

theorem heartbeat_retired {m : Member} {s : State} (h : s.peer.retired = true) : heartbeat m s = s := if_pos h

/-- The heartbeat of a module is noted at its tick and acknowledged. -/
theorem heartbeat_noted {m : Member} {p : Packet} {s : State} (hr : s.peer.retired = false) (hin : s.fab.inbound = [p])
    (hb : p.body = .control (.heartbeat m)) : heartbeat m s =
      let s1 := takeCtl (.heartbeat m) s
      sendCtl m (.heartbeatAck (ownId s)) { s1 with peer := { s.peer with beats := smPut s.peer.beats m.toNat (tickNow s) } } := by
  obtain ⟨f, hf, -⟩ := takePacket_leaves hin
  unfold heartbeat
  rw [hr, if_neg Bool.false_ne_true, takeInbound_of_single hin (ctlIs_body hb), takeCtl_single hin hb, hf]
  rfl

theorem heartbeat_acknowledged {m : Member} {p : Packet} {s : State} (hr : s.peer.retired = false) (hin : s.fab.inbound = [p])
    (hb : p.body = .control (.heartbeatAck m)) (hm : rootOf s = some m ∨ partner s = some m) : heartbeat m s =
      { takeCtl (.heartbeatAck m) s with peer := { s.peer with ackTick := tickNow s } } := by
  obtain ⟨f, hf, -⟩ := takePacket_leaves hin
  have hc : ctlIs (.heartbeat m) p = false := by simp [ctlIs, hb]
  have hn : takeInbound (ctlIs (.heartbeat m)) s = (none, s) := by simp only [takeInbound, hin, firstIdx, hc]; rfl
  have hm' : (rootOf { s with fab := f } == some m || partner { s with fab := f } == some m) = true := by
    change (rootOf s == some m || partner s == some m) = true
    simpa using hm
  unfold heartbeat
  rw [hr, if_neg Bool.false_ne_true, hn]
  dsimp only
  rw [takeInbound_of_single hin (ctlIs_body hb), takeCtl_single hin hb, hf]
  exact if_pos hm'

theorem exec_heartbeat_single {m : Member} {p : Packet} {s t : State} (hs : live s = true) (hin : s.fab.inbound = [p])
    (hb : p.body = .control (.heartbeat m) ∨ p.body = .control (.heartbeatAck m)) (h : heartbeat m s = t) :
    exec (.heartbeat m) s = .next t := by
  refine exec_ordered_of (f := ctlIs (if s.fab.inbound.any (ctlIs (.heartbeat m)) then .heartbeat m else .heartbeatAck m)) (t := t)
    (h ▸ rfl) hs (inOrder_of_single hin ?_)
  rcases hb with hb | hb
  · simp [hin, ctlIs, hb]
  · simp [hin, ctlIs, hb]

/-! ### Silence, notices and retirement (R447 to R449) -/

theorem silenceCounts_iff {s : State} {m : Member} {silent paired : Bool} : silenceCounts s m silent paired = true ↔
    m ≠ ownId s ∧ (if s.lat.hold.held = some m then actsRoot s = true ∨ silent = true
      else actsRoot s = true ∧ (treeOf s).contains m = true ∧ paired = false) := by
  unfold silenceCounts mayDeclare
  by_cases hm : m = ownId s
  · simp [hm]
  · by_cases hh : s.lat.hold.held = some m
    · simp [hm, hh]
    · simp [hm, hh, and_assoc]

theorem retire_retired (s : State) : (retire s).peer.retired = true := by
  unfold retire
  split
  next h => exact h
  next => rw [report_peer]

/-! ### The adoption pull (R452, R454) -/

theorem adoptionPullDone_failed {m : Member} {es : List (Nat × Nat × Ticket × Code)} {s : State} (h : s.peer.adopting.isSome = true) :
    adoptionPullDone m none es s = adoptFail s := by
  obtain ⟨⟨m', id, q, seq⟩, ha⟩ := Option.isSome_iff_exists.mp h
  rw [adoptionPullDone, if_pos h, pullDone, ha]

/-- At a module that adopts nothing the end of a pull is that of its own hold. -/
theorem adoptionPullDone_partner {m : Member} {x : Option SnapIn} {es : List (Nat × Nat × Ticket × Code)} {s : State}
    (h : s.peer.adopting = none) : adoptionPullDone m x es s =
      if m = ownId s then if x.isNone then pullFailed s else (s.lat.hold.held.map fun l => lostDone l s).getD s else s := by
  unfold adoptionPullDone
  rw [h]
  cases s.lat.hold.held <;> rfl

/-- Settles O46: each row by its guard. -/
theorem modulesAreWatched : Obligations.ModulesAreWatched := by
  unfold Obligations.ModulesAreWatched
  refine ⟨fun m p s hs hr hin hb => ?beat, fun m p s hs hr hin hb hm => ?ack, fun m t s hs hr ht silent paired => ?silence,
    fun s hs => ⟨fun h1 h2 => ?_, fun h => ?_⟩, fun t s hs hd => ⟨fun h1 h2 => ?_, fun h => ?_⟩,
    fun m s hs => ⟨fun hr => ⟨fun ho => ?_, fun ho => ?_⟩, fun hr silent paired => ?retired⟩, retire_retired,
    fun m es s hs => ⟨fun h => ?_, fun x lost h hh hm => ?_, fun lost h hh hm => ?_, fun x h hm => ?_⟩⟩
  case beat =>
    obtain ⟨f, hf, hi⟩ := takePacket_leaves hin
    refine ⟨_, exec_heartbeat_single hs hin (.inl hb) (heartbeat_noted hr hin hb), ?_, rfl, ?_⟩
    · rw [takeCtl_single hin hb, hf]
      exact hi
    · obtain ⟨g, hg⟩ := (sendCtl_frame m (.heartbeatAck (ownId s)) { takeCtl (.heartbeat m) s with
        peer := { s.peer with beats := smPut s.peer.beats m.toNat (tickNow s) } }).exists
      rw [hg]
      exact smFind_smPut_same _ _ _
  case ack => exact exec_heartbeat_single hs hin (.inr hb) (heartbeat_acknowledged hr hin hb hm)
  case silence =>
    have he : exec (.heartbeatSilence ⟨m, silent, paired⟩) s = liveNext s (if silenceCounts s m silent paired = true ∧ t + 8 ≤ tickNow s
        then moduleGone true m s else s) := by
      change execHeartbeatSilence ⟨m, silent, paired⟩ s = _
      simp only [execHeartbeatSilence, hr, ht, Option.any_some, Bool.not_false, Bool.true_and, Bool.and_eq_true, decide_eq_true_eq]
    refine ⟨fun hc h => exec_live he hs (if_pos ⟨silenceCounts_iff.mpr hc, h⟩), fun h => exec_live he hs (if_neg fun hn => ?_)⟩
    rcases h with h | h
    · exact h (silenceCounts_iff.mp hn.1)
    · exact absurd hn.2 (Nat.not_le.mpr h)
  case retired =>
    intro row hrow
    simp only [List.mem_cons, List.not_mem_nil, or_false] at hrow
    rcases hrow with rfl | rfl | rfl | rfl
    · refine exec_live (t := ordered _ s (heartbeat m s)) rfl hs ?_
      rw [heartbeat_retired hr, ordered_self]
    · exact exec_live rfl hs (if_pos hr)
    · exact exec_live rfl hs (if_pos hr)
    · exact exec_live rfl hs (if_neg (by simp [hr]))
  · exact exec_live rfl hs (if_pos (by simp [h1, h2]))
  · refine exec_live rfl hs (if_neg ?_)
    rcases h with h | h <;> simp [h]
  · refine exec_live (t := if (List.range 16).all (fun n => !portUp s n) ∧ t + 4 ≤ tickNow s then retire s else s) ?_ hs
      (if_pos ⟨List.all_eq_true.mpr fun n hn => by rw [h1 n (List.mem_range.mp hn)]; rfl, h2⟩)
    change execNoPortUpTimeout s = _
    rw [execNoPortUpTimeout, hd]
  · refine exec_live (t := if (List.range 16).all (fun n => !portUp s n) ∧ t + 4 ≤ tickNow s then retire s else s) ?_ hs
      (if_neg fun hn => absurd hn.2 (Nat.not_le.mpr h))
    change execNoPortUpTimeout s = _
    rw [execNoPortUpTimeout, hd]
  · refine exec_live rfl hs ((if_neg (by simp [hr])).trans (if_pos ho))
  · refine exec_live rfl hs ((if_neg (by simp [hr])).trans (if_pos ho))
  · exact exec_live (t := adoptionPullDone m none _ s) rfl hs (adoptionPullDone_failed h)
  · refine exec_live (t := adoptionPullDone m (some x) _ s) rfl hs ?_
    rw [adoptionPullDone_partner h, if_pos hm, hh]
    rfl
  · refine exec_live (t := adoptionPullDone m none _ s) rfl hs ?_
    rw [adoptionPullDone_partner h, if_pos hm]
    simp only [pullFailed, hh, Option.isNone_none, if_true]
  · refine exec_live (t := adoptionPullDone m x _ s) rfl hs ?_
    rw [adoptionPullDone_partner h, if_neg hm]

end Sys2Proof.Machine
end

section
/-! PROOF. Submission and completion rings, interrupt gaps and mirror entries (settles O47). -/
namespace Sys2Proof.Machine

/-! ### Submission (R461, R464, R465) -/

theorem sqTail_served {n q : Nat} {s : State} (h : hostServed s n = true) (tail : BitVec 8) (slots : List (BitVec 8 × Ticket)) :
    sqTail n q tail slots s = if fld s (TKT_Q_STAT_OWNER q) ≠ n then report cTKT_NOT_OWNER (srcOf 8 12 q) (BitVec.ofNat 64 n) s
      else modTQ q (fun x => { x with slots := slots.foldl (fun m p => smPut m p.1.toNat p.2) x.slots, tail := tail.toNat }) s :=
  if_neg (by rw [h]; decide)

theorem ticketRead_reads {q : Nat} {s : State} (h : ringReads s q = true) (ht : fld s (TKT_Q_STAT_HEAD q) ≠ (getTQ s q).tail) :
    ticketRead q s = tktTake q ((smFind (getTQ s q).slots (fld s (TKT_Q_STAT_HEAD q))).getD 0)
      (modTQ q (fun x => { x with slots := smErase x.slots (fld s (TKT_Q_STAT_HEAD q)) })
        (setFld (TKT_Q_STAT_HEAD q) (fld s (TKT_Q_STAT_HEAD q) + 1) s)) :=
  if_neg (by rw [h, Bool.not_true, Bool.false_or, beq_false_of_ne ht]; exact Bool.false_ne_true)

theorem ticketRead_idle {q : Nat} {s : State} (h : ringReads s q = false ∨ fld s (TKT_Q_STAT_HEAD q) = (getTQ s q).tail) :
    ticketRead q s = s := by
  refine if_pos ?_
  rcases h with h | h
  · rw [h]; rfl
  · rw [h, beq_self_eq_true, Bool.or_true]

/-! ### Completion (R471, R472) -/

theorem getRing_setRing (n q : Nat) (r : CRing) (s : State) : getRing (setRing n q r s) n q = r := by
  simp [getRing, setRing, smGet_smSet]

theorem setRing_mem (n q : Nat) (r : CRing) (s : State) : (setRing n q r s).mem = s.mem := rfl

theorem setRing_regs (n q : Nat) (r : CRing) (s : State) : (setRing n q r s).regs = s.regs := rfl

theorem ringOverflow_paid {n q : Nat} {s : State} (h : (getRing s n q).lostOwed = 0) : ringOverflow n q s = s :=
  if_neg fun hn => hn.1 h

/-- Where a head doorbell of value `k` puts the head of a ring of `size` entries that has written `count`. -/
def headAfter (size count head k : Nat) : Nat := max head (count - (count % size + size - k % size) % size)

theorem headAfter_within {size count head k : Nat} (hz : 0 < size) (h : head ≤ count) :
    head ≤ headAfter size count head k ∧ headAfter size count head k ≤ count ∧
      (head < headAfter size count head k → headAfter size count head k % size = k % size) := by
  refine ⟨Nat.le_max_left _ _, Nat.max_le.mpr ⟨h, Nat.sub_le _ _⟩, fun hlt => ?_⟩
  have hk := Nat.mod_lt k hz
  have hc := Nat.mod_lt count hz
  have hdiv := Nat.div_add_mod count size
  unfold headAfter at hlt ⊢
  have hmax : max head (count - (count % size + size - k % size) % size) = count - (count % size + size - k % size) % size := by omega
  rw [hmax]
  rw [hmax] at hlt
  generalize count / size = m at hdiv
  by_cases hle : k % size ≤ count % size
  · have hb : (count % size + size - k % size) % size = count % size - k % size := by
      rw [show count % size + size - k % size = count % size - k % size + size by omega, Nat.add_mod_right, Nat.mod_eq_of_lt (by omega)]
    rw [hb, show count - (count % size - k % size) = size * m + k % size by omega, Nat.mul_add_mod, Nat.mod_mod]
  · have hb : (count % size + size - k % size) % size = count % size + size - k % size := Nat.mod_eq_of_lt (by omega)
    rw [hb] at hlt ⊢
    have hm : 0 < m := by
      rcases Nat.eq_zero_or_pos m with h0 | h0
      · rw [h0, Nat.mul_zero] at hdiv
        omega
      · exact h0
    obtain ⟨j, rfl⟩ : ∃ j, m = j + 1 := ⟨m - 1, by omega⟩
    rw [Nat.mul_add, Nat.mul_one] at hdiv
    rw [show count - (count % size + size - k % size) = size * j + k % size by omega, Nat.mul_add_mod, Nat.mod_mod]

theorem cqHead_served {n q k : Nat} {s : State} (h : hostServed s n = true) (hl : (getRing s n q).lostOwed = 0) : cqHead n q k s =
    setRing n q { getRing s n q with head := headAfter (ringSize s n q) (getRing s n q).count (getRing s n q).head k } s := by
  unfold cqHead
  rw [if_neg (by rw [h]; decide)]
  exact ringOverflow_paid (by rw [getRing_setRing]; exact hl)

theorem msiGap_due {n v t : Nat} {s : State} (ht : smFind s.host.vecLast (64 * n + v) = some t) (ho : s.host.vecOwed = [(n, v)])
    (h : t + fld s TKT_CTRL_MSI_GAP_NS ≤ s.now) : msiGap n v s = sendMsi n v
      { s with host := { s.host with vecOwed := [], vecLast := smPut s.host.vecLast (64 * n + v) s.now } } := by
  unfold msiGap
  simp [ht, ho, h]

theorem msiGap_early {n v t : Nat} {s : State} (ht : smFind s.host.vecLast (64 * n + v) = some t)
    (h : s.host.vecOwed.contains (n, v) = false ∨ s.now < t + fld s TKT_CTRL_MSI_GAP_NS) : msiGap n v s = s := by
  unfold msiGap
  simp only [ht]
  refine if_neg ?_
  rcases h with h | h
  · rw [h]; exact Bool.false_ne_true
  · rw [decide_eq_false (Nat.not_le.mpr h), Bool.and_false]; exact Bool.false_ne_true

theorem FabFrame.jnl {s t : State} (h : FabFrame s t) : t.jnl = s.jnl := by rw [h]

theorem FabFrame.mem {s t : State} (h : FabFrame s t) : t.mem = s.mem := by rw [h]

/-! ### Mirrors (R468, R476) -/

theorem isMirrorAck_body {q : Nat} {seq : Word} {p : Packet} (h : p.body = .control (.mirrorAck q seq)) : isMirrorAck q p = true := by
  simp only [isMirrorAck, h, beq_self_eq_true]

/-- The entry that the holder keeps of another module's. -/
def mirrorKept (t : Ticket) (state : Nat) (status : Code) (s : State) : JEntry := ⟨t, state, true, false, status, sysTime s, sysTime s, 0⟩

/-- The state in which an entry of the mirror area has been written. -/
def mirrorStored (key : Nat) (e : JEntry) (src : Member) (s : State) : State :=
  let z := setFld JNL_STAT_HOLDING 1 (setFld JNL_STAT_HELD src.toNat s)
  addFld JNL_COUNT_WRITES 1 { z with jnl := { z.jnl with mirror := smPut z.jnl.mirror key e } }

theorem fld_withJnl (s : State) (j : JnlSt) (f : Fld) : fld { s with jnl := j } f = fld s f := rfl

theorem mirrorStored_leaves {key : Nat} {e : JEntry} {src : Member} {s : State} (h : s.jnl.mirror = []) :
    (mirrorStored key e src s).jnl.mirror = [(key, e)] ∧ (mirrorStored key e src s).jnl.own = s.jnl.own ∧
    fld (mirrorStored key e src s) JNL_STAT_HOLDING = 1 ∧ (mirrorStored key e src s).mem = s.mem := by
  refine ⟨?_, ?_, ?_, ?_⟩
  · rw [mirrorStored, addFld_jnl, setFld_jnl, setFld_jnl, h]
    rfl
  · rw [mirrorStored, addFld_jnl, setFld_jnl, setFld_jnl]
  · rw [mirrorStored, fld_addFld_apart _ _ (by decide) (by decide), fld_withJnl, fld_setFld_same _ _ _ (by decide)]
    rfl
  · rw [mirrorStored, addFld_mem, setFld_mem, setFld_mem]

theorem find?_range_zero {n : Nat} {p : Nat → Bool} (h : p 0 = true) : (List.range (n + 1)).find? p = some 0 := by
  rw [List.range_succ_eq_map, List.find?_cons, h]

/-- The first entry of a mirror area is written and acknowledged. -/
theorem mirrorEntry_first {q : Nat} {seq : Word} {t : Ticket} {state : Nat} {status : Code} {p : Packet} {s : State}
    (hin : s.fab.inbound = [p]) (hb : p.body = .control (.mirror q seq)) (hm : s.jnl.mirror = [])
    (hh : fldOn s JNL_STAT_HOLDING = false ∨ fld s JNL_STAT_HELD = p.src.toNat % 16384) :
    ∃ f key e, key = 2048 * q ∧ e = mirrorKept t state status s ∧
      FabFrame (mirrorStored key e p.src { s with fab := f }) (mirrorEntry q seq t state status s) := by
  obtain ⟨f, hf, -⟩ := takePacket_leaves hin
  have hn : (fldOn { s with fab := f } JNL_STAT_HOLDING && fld { s with fab := f } JNL_STAT_HELD != p.src.toNat % 16384) = false := by
    change (fldOn s JNL_STAT_HOLDING && fld s JNL_STAT_HELD != p.src.toNat % 16384) = false
    rcases hh with h | h <;> simp [h]
  unfold mirrorEntry
  rw [takeInbound_of_single hin (f := fun p => p.body == .control (.mirror q seq)) (by rw [hb, beq_self_eq_true]), hf]
  dsimp only
  rw [if_neg (ne_true_of_eq_false hn)]
  refine ⟨f, _, _, ?_, ?_, sendCtl_frame _ _ _⟩
  · simp only [hm, List.filter_nil, List.find?_nil, List.map_nil]
    rw [find?_range_zero (n := 2047) (p := fun i => !([] : List Nat).contains i) rfl]
    rfl
  · rfl

/-- Settles O47: the rings by their doorbells; the mirror by the packet that brought the entry. -/
theorem ringsAndMirrors : Obligations.RingsAndMirrors := by
  unfold Obligations.RingsAndMirrors
  refine ⟨fun n q tail slots s hs hh => ⟨fun h => ?_, fun h => ?_⟩, fun q s hs => ⟨fun h h' => ?_, fun h => ?_⟩,
    fun n q k s hs hh hl h1 h2 => ?head, fun n v t s hs ht => ⟨fun ho h => ?_, fun h => ?_⟩,
    fun q seq t state status p s hs hin hb hm hh => ?mirror, fun q seq t state status s hs hin => ?_,
    fun q p w s hs hin hb hw => ?ack, fun q w s hs hw => ⟨fun h => ?_, fun h => ?_⟩, fun q s hs hw => ?_⟩
  case head =>
    have hz : 0 < ringSize s n q := Nat.two_pow_pos _
    obtain ⟨ha, hb, hc⟩ := headAfter_within (k := k.toNat) hz h1
    refine ⟨_, _, exec_live (t := cqHead n q k.toNat s) rfl hs (cqHead_served hh hl), getRing_setRing _ _ _ s, rfl, rfl, ha, hb, hc, rfl, rfl⟩
  case mirror =>
    obtain ⟨f, key, e, hkey, he, hf⟩ := mirrorEntry_first (t := t) (state := state.toNat) (status := status) hin hb hm hh
    obtain ⟨h1, h2, h3, h4⟩ := mirrorStored_leaves (key := key) (e := e) (src := p.src) (s := { s with fab := f }) hm
    subst hkey he
    have ho : inOrder (ctlIs (.mirror q seq)) s = true := inOrder_of_single hin (ctlIs_body hb)
    refine ⟨_, mirrorKept t state.toNat status s, exec_ordered_of (t := mirrorEntry q seq t state.toNat status s) rfl hs ho, ?_, rfl, rfl,
      rfl, ?_, (hf.fld JNL_STAT_HOLDING).trans h3, ?_⟩
    · rw [hf.jnl, h1]
    · rw [hf.jnl, h2]
    · rw [hf.mem, h4]
  case ack =>
    obtain ⟨f, hf, hi⟩ := takePacket_leaves hin
    have hp := isMirrorAck_body hb
    have hs1 : (takeInbound (isMirrorAck q) s).2 = takePacket p s := by rw [takeInbound_of_single hin hp]
    refine ⟨exec_ordered_of (f := isMirrorAck q) (t := tktAccept q w.t true (takeInbound (isMirrorAck q) s).2) ?_ hs
      (inOrder_of_single hin hp), by rw [hs1, hf]; exact hi, by rw [hs1, hf]⟩
    have hw' : (getTQ { s with fab := f } q).wait = some w := hw
    have ht : mirrorAck q s = tktAccept q w.t true (takeInbound (isMirrorAck q) s).2 := by
      unfold mirrorAck
      rw [takeInbound_of_single hin hp, hf]
      dsimp only
      rw [hb, hw']
      exact if_pos rfl
    exact congrArg (fun t => liveNext s (ordered (isMirrorAck q) s t)) ht
  · exact exec_live (t := sqTail n q tail slots s) rfl hs ((sqTail_served hh tail slots).trans (if_neg (not_not.mpr h)))
  · exact exec_live (t := sqTail n q tail slots s) rfl hs ((sqTail_served hh tail slots).trans (if_pos h))
  · exact exec_live (t := ticketRead q s) rfl hs (ticketRead_reads h h')
  · exact exec_live (t := ticketRead q s) rfl hs (ticketRead_idle h)
  · exact exec_live (t := msiGap n v s) rfl hs (msiGap_due ht ho h)
  · exact exec_live (t := msiGap n v s) rfl hs (msiGap_early ht h)
  · refine exec_live (t := ordered _ s (mirrorEntry q seq t state.toNat status s)) rfl hs ?_
    have hn : mirrorEntry q seq t state.toNat status s = s := by rw [mirrorEntry, takeInbound_of_none hin]
    rw [hn, ordered_self]
  · refine exec_live (t := mirrorTimeout q s) rfl hs ?_
    rw [mirrorTimeout, hw]
    exact if_neg (Nat.not_lt.mpr h)
  · refine exec_live (t := mirrorTimeout q s) rfl hs ?_
    rw [mirrorTimeout, hw]
    exact if_pos h
  · refine exec_live (t := mirrorTimeout q s) rfl hs ?_
    rw [mirrorTimeout, hw]

end Sys2Proof.Machine
end

section
/-! PROOF. LOAD, POST and STOP tickets take effect in turn (settles O48). -/
namespace Sys2Proof.Machine

section
variable {q : Nat} {seq : Word} {t : Ticket} {s : State}

theorem loadTicket_waits (h : tktNext s q seq 1 = none) : loadTicket q seq s = s := by rw [loadTicket, h]

theorem postTicket_waits (h : tktNext s q seq 2 = none) : postTicket q seq s = s := by rw [postTicket, h]

theorem stopTicket_waits (h : tktNext s q seq 4 = none) : stopTicket q seq s = s := by rw [stopTicket, h]

theorem loadTicket_turn (h : tktNext s q seq 1 = some t) : loadTicket q seq s =
    if s.img.isSome then completeTicket q seq cLOAD_BUSY 0 false (tktStart s)
    else if tFlags t = 1 then (if isLocked s then adoptStart q seq t (tktStart s) else s)
    else if tTier t = 0 then loadRun q seq t none none (tktStart s)
    else loadRun q seq t (some (tierSnaps s (tTier t) (some (BitVec.ofNat 32 (tSnapId t))))) (some (BitVec.ofNat 32 (tSnapId t)))
      (tktStart s) := by
  rw [loadTicket, h]

theorem loadTry_fresh {p : Plan} (h : loadPlan s q seq t = .ok p) : loadTry q seq t none none s = .ok (imageStart p t none s) := by
  unfold loadTry
  rw [h]

theorem loadTry_refused {c : Code} (h : loadPlan s q seq t = .error c) : loadTry q seq t none none s = .error c := by
  unfold loadTry
  rw [h]

/-- A load with nothing to restore. -/
theorem loadRun_fresh {p : Plan} (h : loadPlan s q seq t = .ok p) : loadRun q seq t none none s = imageStart p t none s := by
  unfold loadRun
  rw [loadTry_fresh h]

theorem loadRun_refused {c : Code} (h : loadPlan s q seq t = .error c) : loadRun q seq t none none s = loadFails q seq c s := by
  unfold loadRun
  rw [loadTry_refused h]

theorem postTicket_noImage (h : tktNext s q seq 2 = some t) (hi : s.img = none) :
    postTicket q seq s = completeTicket q seq cNO_IMAGE 0 false (tktStart s) := by rw [postTicket, h, hi]

theorem postTicket_turn {i : Image} (h : tktNext s q seq 2 = some t) (hi : s.img = some i) :
    postTicket q seq s = postWrite { tktStart s with img := some { i with posts := i.posts ++ [⟨q, seq, none⟩] } } := by
  rw [postTicket, h, hi]

theorem stopTicket_noImage (h : tktNext s q seq 4 = some t) (hi : s.img = none) :
    stopTicket q seq s = completeTicket q seq cNO_IMAGE 0 false (tktStart s) := by rw [stopTicket, h, hi]

theorem stopTicket_turn {i : Image} (h : tktNext s q seq 4 = some t) (hi : s.img = some i) (hr : i.stopReq = none) :
    stopTicket q seq s = let u := { tktStart s with img := some { i with stopReq := some (q, seq) } }
      if stepIsOpen s then u else imageEnd cSTOPPED 0 u := by
  rw [stopTicket, h, hi]
  exact if_neg (by simp [hr])

end

/-- Settles O48: each ticket by its turn and by the image. -/
theorem workTicketsTakeEffect : Obligations.WorkTicketsTakeEffect := by
  unfold Obligations.WorkTicketsTakeEffect
  intro q seq s hs
  have hl : ∀ u, loadTicket q seq s = u → exec (.loadTicket q seq) s = .next u := fun u h => exec_live (t := loadTicket q seq s) rfl hs h
  have hp : ∀ u, postTicket q seq s = u → exec (.postTicket q seq) s = .next u := fun u h => exec_live (t := postTicket q seq s) rfl hs h
  have ht : ∀ u, stopTicket q seq s = u → exec (.stopTicket q seq) s = .next u := fun u h => exec_live (t := stopTicket q seq s) rfl hs h
  refine ⟨fun h => hl _ (loadTicket_waits h), fun h => hp _ (postTicket_waits h), fun h => ht _ (stopTicket_waits h),
    fun t h => ⟨fun hi => hl _ ?_, fun hi hf h0 => ⟨fun p hpl => hl _ ?_, fun c hpl => hl _ ?_⟩, fun hi hf => hl _ ?_⟩,
    fun t h => ⟨fun hi => hp _ (postTicket_noImage h hi), fun i hi => hp _ (postTicket_turn h hi)⟩,
    fun t h => ⟨fun hi => ht _ (stopTicket_noImage h hi), fun i hi hr => ht _ (stopTicket_turn h hi hr)⟩⟩
  · rw [loadTicket_turn h, if_pos hi]; rfl
  · rw [loadTicket_turn h, if_neg (by simp [hi]), if_neg (by omega), if_pos h0]
    exact loadRun_fresh hpl
  · rw [loadTicket_turn h, if_neg (by simp [hi]), if_neg (by omega), if_pos h0]
    exact loadRun_refused hpl
  · rw [loadTicket_turn h, if_neg (by simp [hi]), if_pos hf]; rfl

end Sys2Proof.Machine
end

section
/-! PROOF. Loop queries: windows, dispatch, deadlines and slots (settles O49). -/
namespace Sys2Proof.Machine

/-! ### What a dispatch leaves of the host interface -/

theorem FabFrame.host {s t : State} (h : FabFrame s t) : t.host = s.host := by rw [h]

theorem jWrite_host (k : Nat) (e : JEntry) (s : State) : (jWrite k e s).host = s.host := by
  unfold jWrite
  dsimp only
  split
  · split
    · rw [(sendCtl_frame _ _ _).host, addFld_host]
    · rw [addFld_host]
  · rw [addFld_host]

theorem catchAdd_msix (c i : Nat) (n : BitVec 32) (s : State) : MsixOnly s (catchAdd c i n s) := by
  unfold catchAdd
  cases getL s c with
  | none => exact ⟨s.host.msix, rfl⟩
  | some l =>
    dsimp only
    split
    · exact report_msix _ _ _ (setL c _ s)
    · exact ⟨s.host.msix, rfl⟩

/-- The query stands in its slot, and waits no more. -/
def queryPlaced (k : Nat) (x : Nat × Word × Ticket) (s : State) : State :=
  let s := hbmPut (slotAddr s k) (slotBytes x.1 x.2.1 x.2.2) s
  { s with host := { s.host with slots := smPut s.host.slots k ⟨x.1, x.2.1, false, false⟩,
                                 queries := s.host.queries.filter (· != (x.1, x.2.1)) } }

/-- Its journal entry and the counters show the dispatch. -/
def queryShown (o : Option (Nat × JEntry)) (s : State) : State :=
  addFld TKT_LOOP_STAT_DISPATCHED 1 (slotBusy (o.elim s fun y => jWrite y.1 { y.2 with dispatched := true } s))

theorem queryShown_host (o : Option (Nat × JEntry)) (s : State) : (queryShown o s).host = s.host := by
  rw [queryShown, addFld_host, slotBusy, setFld_host]
  cases o with
  | none => rfl
  | some y => exact jWrite_host _ _ _

theorem queryDispatch_eq (k : Nat) (x : Nat × Word × Ticket) (s : State) : queryDispatch k x s =
    let v := queryPlaced k x s
    let u := queryShown (jFind v x.1 x.2.1) v
    (slotServer u k).elim u fun c => catchAdd c 127 1 u := by
  have hshown : ∀ o v, queryShown o v = addFld TKT_LOOP_STAT_DISPATCHED 1 (slotBusy (match o with
      | some (j, e) => jWrite j { e with dispatched := true } v
      | none => v)) := by
    intro o v
    cases o <;> rfl
  have hsignal : ∀ u, (match slotServer u k with
      | some c => catchAdd c 127 1 u
      | none => u) = (slotServer u k).elim u fun c => catchAdd c 127 1 u := by
    intro u
    cases slotServer u k <;> rfl
  dsimp only
  rw [hshown]
  exact hsignal _

/-- A dispatched query stands in its slot and is no longer among those that wait. -/
theorem queryDispatch_host (k : Nat) (x : Nat × Word × Ticket) (s : State) :
    (queryDispatch k x s).host.slots = smPut s.host.slots k ⟨x.1, x.2.1, false, false⟩ ∧
    (queryDispatch k x s).host.queries = s.host.queries.filter (· != (x.1, x.2.1)) := by
  have hp : (hbmPut (slotAddr s k) (slotBytes x.1 x.2.1 x.2.2) s).host = s.host := (hbmPut_mf (.refl s) _ _).host
  have hu := queryShown_host (jFind (queryPlaced k x s) x.1 x.2.1) (queryPlaced k x s)
  rw [queryDispatch_eq]
  dsimp only
  generalize queryShown (jFind (queryPlaced k x s) x.1 x.2.1) (queryPlaced k x s) = u at hu ⊢
  have hm : MsixOnly u ((slotServer u k).elim u fun c => catchAdd c 127 1 u) := by
    cases slotServer u k with
    | none => exact ⟨u.host.msix, rfl⟩
    | some c => exact catchAdd_msix _ _ _ _
  obtain ⟨m, hm⟩ := hm
  rw [hm, hu, queryPlaced, hp]
  exact ⟨rfl, rfl⟩

/-! ### Dispatch (R489) -/

/-- Nothing is dispatched now. -/
def dispatchOff (s : State) : Prop := isLocked s = false ∨ s.host.winOpen = [] ∨ loopCores s = []

theorem dispatchAll_off {s : State} (h : dispatchOff s) (n : Nat) : dispatchAll n s = s := by
  cases n with
  | zero => rfl
  | succ n =>
    refine if_pos ?_
    rcases h with h | h | h <;> simp [h]

/-- No slot is to be dispatched to again. -/
theorem againSlot_none {s : State} (h : ∀ x ∈ s.host.slots, x.2.again = false) : againSlot s = none := by
  unfold againSlot
  rw [List.findSome?_eq_none_iff]
  intro x hx
  split
  · simp [h x hx]
  · rfl

theorem queriesDue_nil {s : State} (h : s.host.queries = []) : queriesDue s = [] := by
  simp [queriesDue, h]

/-- The only query that waits, not late. -/
theorem queriesDue_only {s : State} {q k : Nat} {seq : Word} {e : JEntry} (h : s.host.queries = [(q, seq)]) (hj : jFind s q seq = some (k, e))
    (hl : tktLate s e.t = false) : queriesDue s = [(q, seq, e.t)] := by
  simp [queriesDue, h, hj, hl]

theorem dispatchAll_idle {s : State} (ha : ∀ x ∈ s.host.slots, x.2.again = false) (hq : s.host.queries = []) (n : Nat) :
    dispatchAll n s = s := by
  cases n with
  | zero => rfl
  | succ n =>
    unfold dispatchAll
    rw [againSlot_none ha, queriesDue_nil hq]
    exact ite_self _

theorem dispatchAll_only {s : State} {n k : Nat} {x : Nat × Word × Ticket} (ho : ¬ dispatchOff s)
    (ha : ∀ x ∈ s.host.slots, x.2.again = false) (hd : queriesDue s = [x]) (hf : freeSlot s = some k) :
    dispatchAll (n + 1) s = dispatchAll n (queryDispatch k x s) := by
  have hc : (!isLocked s || s.host.winOpen == [] || loopCores s == []) = false := by
    simpa [dispatchOff, and_assoc] using ho
  rw [dispatchAll, hc, if_neg Bool.false_ne_true, againSlot_none ha, hd, hf]

theorem dispatch_off {s : State} (h : dispatchOff s) : dispatch s = pumpAll s := by rw [dispatch, dispatchNow, dispatchAll_off h]

/-- The only query that waits goes to the lowest free slot, and nothing else does. -/
theorem dispatch_only {s : State} {q k n : Nat} {seq : Word} {e : JEntry} (ho : ¬ dispatchOff s)
    (ha : ∀ x ∈ s.host.slots, x.2.again = false) (hq : s.host.queries = [(q, seq)]) (hj : jFind s q seq = some (k, e))
    (hl : tktLate s e.t = false) (hf : freeSlot s = some n) : dispatch s = pumpAll (queryDispatch n (q, seq, e.t) s) := by
  obtain ⟨h1, h2⟩ := queryDispatch_host n (q, seq, e.t) s
  have hdone : ∀ m, dispatchAll m (queryDispatch n (q, seq, e.t) s) = queryDispatch n (q, seq, e.t) s := by
    refine dispatchAll_idle (fun x hx => ?_) ?_
    · rw [h1] at hx
      rcases mem_smPut hx with rfl | hx
      · rfl
      · exact ha x hx
    · simp [h2, hq]
  rw [dispatch, dispatchNow, dispatchAll_only ho ha (queriesDue_only hq hj hl) hf, hdone]

/-! ### The rows of a query (R489 to R491) -/

section
variable {q k : Nat} {seq : Word} {e : JEntry} {s : State} (hj : jFind s q seq = some (k, e))
include hj

theorem queryTicket_dispatched (hd : e.dispatched = true) : queryTicket q seq s = s := by
  rw [queryTicket, hj]
  exact if_pos (by simp [hd])

theorem queryExpiry_early (hl : tktLate s e.t = false) : queryExpiry q seq s = s := by
  rw [queryExpiry, hj]
  exact if_pos (by simp [hl])

theorem exec_queryDeadlineExpiry (q' : Fin 32) (hq : q'.val = q) : exec (.queryDeadlineExpiry q' seq) s =
    liveNext s (if inTurn s 6 ((tDeadline e.t).toNat + 1) then queryExpiry q seq s else s) := by
  subst hq
  change execQueryDeadlineExpiry q' seq s = _
  rw [execQueryDeadlineExpiry, hj]

variable (h1 : e.state = 1) (h3 : tKind e.t = 3)
include h1 h3

theorem queryTicket_waiting (hd : e.dispatched = false) (hc : s.host.queries.contains (q, seq) = false)
    (ha : seq.toNat ≤ (getReg s (rTKT_Q_ACCEPTED q)).toNat) : queryTicket q seq s =
      if tktLate s e.t then completeTicket q seq cLATE 0 false s
      else dispatch { s with host := { s.host with queries := s.host.queries ++ [(q, seq)] } } := by
  rw [queryTicket, hj]
  refine if_neg ?_
  rw [hd, hc, decide_eq_false (Nat.not_lt.mpr ha)]
  simp [h1, h3]

theorem queryExpiry_unslotted (hl : tktLate s e.t = true) (hs : s.host.slots = []) : queryExpiry q seq s =
    completeTicket q seq cLATE 0 false { s with host := { s.host with queries := s.host.queries.filter (· != (q, seq)) } } := by
  rw [queryExpiry, hj]
  dsimp only
  rw [if_neg (by simp [h1, h3, hl]), hs]
  rfl

theorem queryExpiry_slotted {n : Nat} {sl : SlotSt} (hl : tktLate s e.t = true) (hs : s.host.slots = [(n, sl)]) (hq : sl.q = q)
    (hsq : sl.seq = seq) : queryExpiry q seq s = if sl.again then slotFree n (completeTicket q seq cLATE 0 false s)
      else completeTicket q seq cLATE 0 true { s with host := { s.host with slots := [(n, { sl with running := true })] } } := by
  have hf : s.host.slots.find? (fun x => x.2.q == q && x.2.seq == seq) = some (n, sl) := by simp [hs, hq, hsq]
  have hp : smPut s.host.slots n { sl with running := true } = [(n, { sl with running := true })] := by simp [hs, smPut]
  rw [queryExpiry, hj]
  dsimp only
  rw [if_neg (by simp [h1, h3, hl]), hf]
  dsimp only
  rw [hp]

end

/-- Settles O49: the windows by lock and phase, the queries by `dispatchAll`, the slots by what they hold. -/
theorem loopQueriesAreServed : Obligations.LoopQueriesAreServed := by
  unfold Obligations.LoopQueriesAreServed
  refine ⟨fun w s hs => ⟨fun h1 h2 h3 h4 => ?_, fun h => ?_, fun ho h => ?_, fun h => ?_⟩,
    fun s => ⟨rfl, fun h => dispatchAll_off h _, fun hq hsl => dispatchAll_idle (by simp [hsl]) hq _⟩,
    fun q seq k e s hs hj h1 h3 => ⟨fun hd hc ha => ⟨fun hl => ?_, fun hl ho => ?_, fun n hl hlk hw hlc hq hag hf => ?_⟩, fun hd => ?_,
      fun hl ht hsl => ?_, fun n sl hl ht hsl hq hsq => ⟨fun hag => ?_, fun hag => ?_⟩, fun hl => ?_⟩,
    fun k s hs => ⟨fun sl hsl hag hr => ?_, fun hr => ?_⟩⟩
  · exact exec_live rfl hs ((if_pos h4).trans (if_neg (by rw [h1, h2, h3]; decide)))
  · refine exec_live rfl hs ((congrArg (ite _ · s) ?_).trans (ite_self s))
    refine if_pos ?_
    rcases h with h | h | h <;> rw [h] <;> simp
  · have hf : s.host.winOpen.filter (· != w.val) = [] := by simp [ho]
    have hi : inTurn s 5 (sysTime s).toNat = true := by
      rcases h with h | ⟨-, h⟩
      · rw [inTurn, h]; rfl
      · exact h
    refine exec_live rfl hs ((if_pos ?_).trans (by rw [hf]))
    rcases h with h | ⟨h, -⟩ <;> simp [ho, h, hi]
  · exact exec_live rfl hs (if_neg (by rw [h]; exact Bool.false_ne_true))
  · exact exec_live (t := queryTicket q seq s) rfl hs ((queryTicket_waiting hj h1 h3 hd hc ha).trans (if_pos hl))
  · refine exec_live (t := queryTicket q seq s) rfl hs ((queryTicket_waiting hj h1 h3 hd hc ha).trans ?_)
    rw [if_neg (by simp [hl])]
    exact dispatch_off ho
  · refine exec_live (t := queryTicket q seq s) rfl hs ((queryTicket_waiting hj h1 h3 hd hc ha).trans ?_)
    rw [if_neg (by simp [hl])]
    refine dispatch_only (k := k) (fun ho => ?_) hag (by rw [hq]; rfl) hj hl hf
    rcases ho with ho | ho | ho
    · exact Bool.false_ne_true (ho.symm.trans hlk)
    · exact hw ho
    · exact hlc ho
  · exact exec_live (t := queryTicket q seq s) rfl hs (queryTicket_dispatched hj hd)
  · exact exec_live (exec_queryDeadlineExpiry hj q rfl) hs ((if_pos ht).trans (queryExpiry_unslotted hj h1 h3 hl hsl))
  · exact exec_live (exec_queryDeadlineExpiry hj q rfl) hs
      ((if_pos ht).trans ((queryExpiry_slotted hj h1 h3 hl hsl hq hsq).trans (if_neg (by simp [hag]))))
  · exact exec_live (exec_queryDeadlineExpiry hj q rfl) hs
      ((if_pos ht).trans ((queryExpiry_slotted hj h1 h3 hl hsl hq hsq).trans (if_pos hag)))
  · refine exec_live (exec_queryDeadlineExpiry hj q rfl) hs ?_
    rw [queryExpiry_early hj hl, ite_self]
  · exact exec_live (t := slotDone k s) rfl hs (if_neg (by simp [hsl, hag] at hr ⊢; exact hr))
  · exact exec_live (t := slotDone k s) rfl hs (if_pos (by rw [bne_iff_ne.mpr hr, Bool.or_true]))

end Sys2Proof.Machine
end

section
/-! PROOF. Hosts that come and go: heartbeats, silence, link-up, TAKE and RESUME (settles O51). -/
namespace Sys2Proof.Machine

/-! ### Heartbeats and links (R483, R485) -/

theorem fld_hbSet (n : Nat) (s : State) (f : Fld) : fld (hbSet n s) f = fld s f := rfl

theorem hbSet_host (n : Nat) (s : State) : (hbSet n s).host = { s.host with hbTick := s.host.hbTick.set n (tickNow s) } := rfl

theorem hbSet_mem (n : Nat) (s : State) : (hbSet n s).mem = s.mem := rfl

theorem hbSet_lcores (n : Nat) (s : State) : (hbSet n s).lcores = s.lcores := rfl

/-- The host's registers stand below those of the Keeper's tick. -/
theorem host_ne_tick (n : Fin 2) : rTKT_HOST n ≠ rKPR_STAT := by
  simp only [rTKT_HOST, rKPR_STAT]
  omega

theorem tickNow_setFld_host {n : Fin 2} {f : Fld} (hf : f.addr = rTKT_HOST n) (hb : f.lo + f.w ≤ 64) (v : Nat) (s : State) :
    tickNow (setFld f v s) = tickNow s :=
  fld_setFld_apart s v hb (fldApart_of (.inl (hf ▸ host_ne_tick n)))

theorem hostHeartbeat_served {n : Fin 2} {s : State} (h : hostServed s n = true) (v : BitVec 32) :
    hostHeartbeat n v s = hbSet n (setFld (TKT_HOST_STATE n) 1 (setFld (TKT_HOST_HEARTBEAT n) v.toNat s)) :=
  if_neg (by rw [h]; decide)

theorem heartbeat_leaves (n : Fin 2) (v : BitVec 32) (s : State) :
    let t := hbSet n (setFld (TKT_HOST_STATE n) 1 (setFld (TKT_HOST_HEARTBEAT n) v.toNat s))
    fld t (TKT_HOST_STATE n) = 1 ∧ fld t (TKT_HOST_HEARTBEAT n) = v.toNat ∧
      t.host = { s.host with hbTick := s.host.hbTick.set n (tickNow s) } ∧ t.mem = s.mem := by
  have hs : (TKT_HOST_STATE n).lo + (TKT_HOST_STATE n).w ≤ 64 := Nat.le_of_ble_eq_true rfl
  have hh : (TKT_HOST_HEARTBEAT n).lo + (TKT_HOST_HEARTBEAT n).w ≤ 64 := Nat.le_of_ble_eq_true rfl
  dsimp only
  refine ⟨?_, ?_, ?_, ?_⟩
  · rw [fld_hbSet, fld_setFld_same _ _ _ hs]; rfl
  · rw [fld_hbSet, fld_setFld_apart _ _ hs (apart_bits rfl), fld_setFld_same _ _ _ hh]
    exact Nat.mod_eq_of_lt v.isLt
  · rw [hbSet_host, setFld_host, setFld_host, tickNow_setFld_host rfl hs, tickNow_setFld_host rfl hh]
  · rw [hbSet_mem, setFld_mem, setFld_mem]

/-- No ring is on, so no notice that one owes goes out. -/
theorem ringsOff_foldl {n : Nat} {s : State} {qs : List Nat} (h : ∀ q ∈ qs, ringOn s n q = false) :
    qs.foldl (fun s q => if ringOn s n q then ringOverflow n q s else s) s = s := by
  induction qs with
  | nil => rfl
  | cons q qs ih =>
    rw [List.foldl_cons, h q List.mem_cons_self, if_neg Bool.false_ne_true]
    exact ih fun k hk => h k (List.mem_cons_of_mem _ hk)

theorem fld_withHost (s : State) (o : HostSt) (f : Fld) : fld { s with host := o } f = fld s f := rfl

/-- R485: the port whose link comes up, its rings off. -/
def hostUp (n : Nat) (s : State) : State :=
  hbSet n (setFld (TKT_HOST_STATE n) 1 { s with host := { s.host with linkUp := s.host.linkUp.set n true } })

theorem ringOn_hostUp (n : Fin 2) (q : Nat) (s : State) : ringOn (hostUp n s) n q = ringOn s n q := by
  have hne : rTKT_HOST n ≠ rTKT_CRING_CFG (32 * n + q) := by
    simp only [rTKT_HOST, rTKT_CRING_CFG]
    omega
  rw [ringOn, fldOn, hostUp, fld_hbSet, fld_setFld_apart _ _ (Nat.le_of_ble_eq_true rfl) (fldApart_of (.inl hne)), fld_withHost]
  rfl

theorem hostLinkUp_ringsOff {n : Fin 2} {s : State} (hs : live s = true) (hp : s.host.perst.getD n true = false)
    (hd : domOn s (73 + n) = true) (hl : s.host.linkUp.getD n false = false) (hr : ∀ q, q < 32 → ringOn s n q = false) :
    hostLinkUp n s = hostUp n s := by
  obtain ⟨h1, h2⟩ : s.power.powered = true ∧ s.power.inReset = false := by simpa [live] using hs
  unfold hostLinkUp
  rw [h1, h2, hp, hd, hl]
  exact ringsOff_foldl fun q hq => (ringOn_hostUp n q s).trans (hr q (List.mem_range.mp hq))

theorem hostUp_leaves (n : Nat) (s : State) : (hostUp n s).host.linkUp = s.host.linkUp.set n true ∧
    fld (hostUp n s) (TKT_HOST_STATE n) = 1 ∧ (hostUp n s).mem = s.mem ∧ (hostUp n s).lcores = s.lcores := by
  refine ⟨?_, ?_, ?_, ?_⟩
  · rw [hostUp, hbSet_host, setFld_host]
  · rw [hostUp, fld_hbSet, fld_setFld_same _ _ _ (Nat.le_of_ble_eq_true rfl)]; rfl
  · rw [hostUp, hbSet_mem, setFld_mem]
  · rw [hostUp, hbSet_lcores, setFld_lcores]

/-! ### TAKE and RESUME (R481, R484) -/

theorem fld_ctlBlock (q : Nat) (s : State) {f : Fld} (hf : f.addr ≠ rJNL_COUNT) : fld (ctlBlock q s) f = fld s f := by
  rw [ctlBlock, jnlPut, fld_addFld_apart _ _ (by decide) (fldApart_of (.inl hf.symm)), fld_withJnl]

theorem ctlBlock_host (q : Nat) (s : State) : (ctlBlock q s).host = s.host := by rw [ctlBlock, jnlPut, addFld_host]

theorem ctlBlock_lcores (q : Nat) (s : State) : (ctlBlock q s).lcores = s.lcores := by rw [ctlBlock, jnlPut, addFld_lcores]

theorem ctlBlock_mem (q : Nat) (s : State) : (ctlBlock q s).mem = s.mem := by rw [ctlBlock, jnlPut, addFld_mem]

theorem ctlBlock_own (q : Nat) (s : State) : (ctlBlock q s).jnl.own = s.jnl.own := by rw [ctlBlock, jnlPut, addFld_jnl]

theorem postNotice_ringsOff {q : Nat} {s : State} (h0 : ringOn s 0 q = false) (h1 : ringOn s 1 q = false) (n k : Nat) :
    postNotice q n k s = s := by
  have h : ∀ p e, ringOn s p q = false → postOn p q e s = s := fun p e hp => if_pos (by rw [hp]; rfl)
  rw [postNotice, post, h 0 _ h0, h 1 _ h1]

/-- What holds of every value of `f` and of the default holds of the member that `listMod` changes. -/
theorem getD_listMod {α : Type} {p : α → Prop} {f : α → α} {d : α} (hd : p d) (hf : ∀ a, p (f a)) (ls : List α) (n : Nat) :
    p ((listMod ls n f).getD n d) := by
  induction ls generalizing n with
  | nil => exact hd
  | cons a ls ih =>
    cases n with
    | zero => exact hf a
    | succ n => exact ih n

/-- The registers and slots of a queue that port `n` has taken in state `st`. -/
def taken (n q st : Nat) (s : State) : State :=
  ctlBlock q (setFld (TKT_Q_STAT_STATE q) st (setFld (TKT_Q_STAT_OWNER q) n (setFld (TKT_Q_STAT_HEAD q) 0
    (setFld (TKT_Q_CTRL_YIELD q) 0 (modTQ q (fun x => { x with slots := [], tail := 0 }) s)))))

theorem fld_modTQ (q : Nat) (g : TQueue → TQueue) (s : State) (f : Fld) : fld (modTQ q g s) f = fld s f := rfl

theorem statCtrl_ne (q : Nat) : rTKT_Q_STAT q ≠ rTKT_Q_CTRL q := by
  simp only [rTKT_Q_STAT, rTKT_Q_CTRL]
  omega

/-- YIELD stands in another register than the queue's status. -/
theorem statCtrl_apart (q : Nat) {f : Fld} (hf : f.addr = rTKT_Q_STAT q) : fldApart f (TKT_Q_CTRL_YIELD q) = true :=
  fldApart_of (.inl (hf ▸ statCtrl_ne q))

theorem stat_ne_jnl (q : Fin 32) : rTKT_Q_STAT q ≠ rJNL_COUNT := by
  simp only [rTKT_Q_STAT, rJNL_COUNT]
  omega

theorem ctrl_ne_jnl (q : Fin 32) : rTKT_Q_CTRL q ≠ rJNL_COUNT := by
  simp only [rTKT_Q_CTRL, rJNL_COUNT]
  omega

/-- A field of a register that a TAKE does not write. -/
theorem fld_taken_apart {n st : Nat} {q : Fin 32} {f : Fld} (h1 : f.addr ≠ rJNL_COUNT) (h2 : rTKT_Q_STAT q ≠ f.addr)
    (h3 : rTKT_Q_CTRL q ≠ f.addr) (s : State) : fld (taken n q st s) f = fld s f := by
  rw [taken, fld_ctlBlock _ _ h1, fld_setFld_apart _ _ (Nat.le_of_ble_eq_true rfl) (fldApart_of (.inl h2)),
    fld_setFld_apart _ _ (Nat.le_of_ble_eq_true rfl) (fldApart_of (.inl h2)),
    fld_setFld_apart _ _ (Nat.le_of_ble_eq_true rfl) (fldApart_of (.inl h2)),
    fld_setFld_apart _ _ (Nat.le_of_ble_eq_true rfl) (fldApart_of (.inl h3)), fld_modTQ]

theorem ringOn_taken {n st k : Nat} {q : Fin 32} (hk : k < 2) (s : State) : ringOn (taken n q st s) k q = ringOn s k q := by
  have h1 : rTKT_CRING_CFG (32 * k + q) ≠ rJNL_COUNT := by
    simp only [rTKT_CRING_CFG, rJNL_COUNT]
    omega
  have h2 : rTKT_Q_STAT q ≠ rTKT_CRING_CFG (32 * k + q) := by
    simp only [rTKT_Q_STAT, rTKT_CRING_CFG]
    omega
  have h3 : rTKT_Q_CTRL q ≠ rTKT_CRING_CFG (32 * k + q) := by
    simp only [rTKT_Q_CTRL, rTKT_CRING_CFG]
    omega
  rw [ringOn, fldOn, fld_taken_apart h1 h2 h3]
  rfl

theorem taken_leaves {n st : Nat} {q : Fin 32} (hn : n < 2) (s : State) : fld (taken n q st s) (TKT_Q_STAT_OWNER q) = n ∧
    fld (taken n q st s) (TKT_Q_STAT_HEAD q) = 0 ∧ fldOn (taken n q st s) (TKT_Q_CTRL_YIELD q) = false ∧
    (getTQ (taken n q st s) q).slots = [] ∧ (taken n q st s).lcores = s.lcores := by
  have hst : (TKT_Q_STAT_STATE q).lo + (TKT_Q_STAT_STATE q).w ≤ 64 := Nat.le_of_ble_eq_true rfl
  have how : (TKT_Q_STAT_OWNER q).lo + (TKT_Q_STAT_OWNER q).w ≤ 64 := Nat.le_of_ble_eq_true rfl
  have hhd : (TKT_Q_STAT_HEAD q).lo + (TKT_Q_STAT_HEAD q).w ≤ 64 := Nat.le_of_ble_eq_true rfl
  have hyl : (TKT_Q_CTRL_YIELD q).lo + (TKT_Q_CTRL_YIELD q).w ≤ 64 := Nat.le_of_ble_eq_true rfl
  refine ⟨?_, ?_, ?_, ?_, ?_⟩
  · rw [taken, fld_ctlBlock _ _ (stat_ne_jnl q), fld_setFld_apart _ _ hst (apart_bits rfl), fld_setFld_same _ _ _ how]
    exact Nat.mod_eq_of_lt hn
  · rw [taken, fld_ctlBlock _ _ (stat_ne_jnl q), fld_setFld_apart _ _ hst (apart_bits rfl), fld_setFld_apart _ _ how (apart_bits rfl),
      fld_setFld_same _ _ _ hhd]
    exact Nat.zero_mod _
  · rw [fldOn, taken, fld_ctlBlock _ _ (ctrl_ne_jnl q), fld_setFld_apart _ _ hst (statCtrl_apart q rfl),
      fld_setFld_apart _ _ how (statCtrl_apart q rfl), fld_setFld_apart _ _ hhd (statCtrl_apart q rfl),
      fld_setFld_same _ _ _ hyl, Nat.zero_mod]
    rfl
  · have hq : ∀ u v : State, u.host = v.host → getTQ u q = getTQ v q := fun u v h => by rw [getTQ, h, getTQ]
    rw [taken, hq _ (modTQ q (fun x => { x with slots := [], tail := 0 }) s) (by
      rw [ctlBlock_host, setFld_host, setFld_host, setFld_host, setFld_host])]
    exact getD_listMod (p := fun x : TQueue => x.slots = []) rfl (fun _ => rfl) _ _
  · rw [taken, ctlBlock_lcores, setFld_lcores, setFld_lcores, setFld_lcores, setFld_lcores]
    rfl

theorem take_owner {n q : Nat} {s : State} (h : fld s (TKT_Q_STAT_OWNER q) = n) : take n q s = s :=
  if_pos (by rw [h, beq_self_eq_true, Bool.or_true])

theorem take_refused {n q : Nat} {s : State} (h2 : fld s (TKT_Q_STAT_STATE q) ≠ 2) (h3 : fldOn s (TKT_Q_CTRL_YIELD q) = false) :
    take n q s = s := by
  unfold take
  split
  · rfl
  · exact if_pos ⟨h2, by rw [h3]; rfl⟩

theorem take_taken {n : Nat} {q : Fin 32} {s : State} (hs : hostServed s n = true) (ho : fld s (TKT_Q_STAT_OWNER q) ≠ n)
    (h : fld s (TKT_Q_STAT_STATE q) = 2 ∨ fldOn s (TKT_Q_CTRL_YIELD q) = true) (h0 : ringOn s 0 q = false) (h1 : ringOn s 1 q = false) :
    ∃ st, take n q s = taken n q st s := by
  have hg : ¬ (fld s (TKT_Q_STAT_STATE q) ≠ 2 ∧ (!fldOn s (TKT_Q_CTRL_YIELD q)) = true) := by
    rcases h with h | h <;> simp [h]
  refine ⟨if s.host.refill.contains q.val then 3 else if fld s (TKT_Q_CFG_KIND q) = 0 then 0
    else if 2048 ≤ (jEntries s q).length then 4 else 1, ?_⟩
  unfold take
  rw [if_neg (by simp [hs, ho]), if_neg hg]
  exact postNotice_ringsOff ((ringOn_taken (by decide) s).trans h0) ((ringOn_taken (by decide) s).trans h1) _ _

/-- The queue whose REFILL its owner ends. -/
def resumed (q : Nat) (s : State) : State :=
  ctlBlock q (setFld (TKT_Q_STAT_STATE q) 1 { s with host := { s.host with refill := s.host.refill.filter (· != q) } })

theorem resumed_leaves (q : Fin 32) (s : State) : fld (resumed q s) (TKT_Q_STAT_STATE q) = 1 ∧ q.val ∉ (resumed q s).host.refill ∧
    (resumed q s).lcores = s.lcores ∧ (resumed q s).mem = s.mem := by
  refine ⟨?_, ?_, ?_, ?_⟩
  · rw [resumed, fld_ctlBlock _ _ (stat_ne_jnl q), fld_setFld_same _ _ _ (Nat.le_of_ble_eq_true rfl)]
    rfl
  · rw [resumed, ctlBlock_host, setFld_host]
    simp
  · rw [resumed, ctlBlock_lcores, setFld_lcores]
  · rw [resumed, ctlBlock_mem, setFld_mem]

theorem openLoad_congr {s t : State} (hj : t.jnl.own = s.jnl.own) (hr : t.host.ready = s.host.ready) (q : Nat) : openLoad t q = openLoad s q := by
  simp only [openLoad, openTickets, jEntries, hj, hr]

theorem resumeQueue_idle {n q : Nat} {s : State} (h : fld s (TKT_Q_STAT_OWNER q) ≠ n ∨ fld s (TKT_Q_STAT_STATE q) ≠ 3) :
    resumeQueue n q s = s := by
  refine if_pos ?_
  rcases h with h | h <;> simp [h]

/-- A queue without an open LOAD resumes. -/
theorem resumeQueue_resumed {n q : Nat} {s : State} (hs : hostServed s n = true) (ho : fld s (TKT_Q_STAT_OWNER q) = n)
    (h3 : fld s (TKT_Q_STAT_STATE q) = 3) (hl : openLoad s q = none) (hj : (jEntries s q).length < 2048) :
    resumeQueue n q s = resumed q s := by
  have hr : openLoad (resumed q s) q = none := by
    rw [openLoad_congr (s := s) ?_ ?_, hl]
    · rw [resumed, ctlBlock_own, setFld_jnl]
    · rw [resumed, ctlBlock_host, setFld_host]
  have hst : (if 2048 ≤ (jEntries { s with host := { s.host with refill := s.host.refill.filter (· != q) } } q).length then 4 else 1) = 1 :=
    if_neg (Nat.not_le.mpr hj)
  unfold resumeQueue
  rw [if_neg (by simp [hs, ho, h3])]
  dsimp only
  rw [hst, ← resumed, hr]

theorem live_of_hostServed {n : Nat} {s : State} (h : hostServed s n = true) : live s = true := by
  simp only [hostServed, hostOn, Bool.and_eq_true] at h
  obtain ⟨⟨⟨h1, h2⟩, -⟩, -⟩ := h
  rw [live, h1, h2, Bool.and_self]

/-- Settles O51: the port by its link, the queue by its owner and state. -/
theorem hostsComeAndGo : Obligations.HostsComeAndGo := by
  unfold Obligations.HostsComeAndGo
  refine ⟨fun n v s hs => ⟨fun h => ?_, fun h => ?_⟩, fun n s hs => ⟨fun h1 h2 => ?_, fun h => ?_⟩, fun n s hs hp hd hl hr => ?_,
    fun n q s hs => ⟨fun h => ?_, fun _ h2 h3 => ?_, fun ho h h0 h1 => ?_, fun h => ?_, fun ho h3 hl hj => ?_⟩⟩
  · exact ⟨_, exec_live (t := hostHeartbeat n v s) rfl hs (hostHeartbeat_served h v), heartbeat_leaves n v s⟩
  · exact exec_live (t := hostHeartbeat n v s) rfl hs (if_pos (by rw [h]; rfl))
  · exact exec_live rfl hs (if_pos ⟨h1, h2⟩)
  · refine exec_live rfl hs (if_neg fun hn => ?_)
    rcases h with h | h
    · exact h hn.1
    · exact absurd hn.2 (Nat.not_le.mpr h)
  · exact ⟨_, exec_live (t := hostLinkUp n s) rfl hs (hostLinkUp_ringsOff hs hp hd hl hr), hostUp_leaves n s⟩
  · exact exec_live (t := take n q s) rfl (live_of_hostServed hs) (take_owner h)
  · exact exec_live (t := take n q s) rfl (live_of_hostServed hs) (take_refused h2 h3)
  · obtain ⟨st, ht⟩ := take_taken hs ho h h0 h1
    exact ⟨_, exec_live (t := take n q s) rfl (live_of_hostServed hs) ht, taken_leaves n.isLt s⟩
  · exact exec_live (t := resumeQueue n q s) rfl (live_of_hostServed hs) (resumeQueue_idle h)
  · exact ⟨_, exec_live (t := resumeQueue n q s) rfl (live_of_hostServed hs) (resumeQueue_resumed hs ho h3 hl hj), resumed_leaves q s⟩

end Sys2Proof.Machine
end

section
/-! PROOF. The Keeper's ticks, its lockstep and its restart (settles O52). -/
namespace Sys2Proof.Machine

/-! ### The tick (R494, R495, R499, R527) -/

/-- The state of a tick boundary before the messages that were put off are sent: the time, its start, and one more tick counted. -/
def tickCounted (s : State) : State :=
  setFld KPR_STAT_TICK (tickNow s + 1)
    { s with now := max s.now (s.kpr.tickStart + 262144), kpr := { s.kpr with tickStart := max s.now (s.kpr.tickStart + 262144) } }

theorem tickCounted_msg (s : State) :
    MsgFrame { s with now := max s.now (s.kpr.tickStart + 262144), kpr := { s.kpr with tickStart := max s.now (s.kpr.tickStart + 262144) } }
      (tickCounted s) := setFld_msg (.refl _) _ _

theorem tickNow_tickCounted {s : State} (h : fld s KPR_STAT_TICK + 1 < 2 ^ 32) : tickNow (tickCounted s) = tickNow s + 1 :=
  (fld_setFld_same _ _ _ (by decide)).trans (Nat.mod_eq_of_lt h)

theorem errTick_nothing {s : State} (hnf : s.err.pendNf = []) (hf : s.err.pendF = []) :
    errTick s = errPendReg { s with err := { s.err with sentNf := [], sentF := [], pendNf := [], pendF := [] } } := by
  unfold errTick
  rw [hnf, hf]
  rfl

theorem errTick_nothing_msg {s : State} (hnf : s.err.pendNf = []) (hf : s.err.pendF = []) : MsgFrame s (errTick s) := by
  rw [errTick_nothing hnf hf]
  exact setFld_msg (MsgFrame.set (.refl _) _ _ _ _ _) _ _

theorem tickNow_errTick_nothing {s : State} (hnf : s.err.pendNf = []) (hf : s.err.pendF = []) : tickNow (errTick s) = tickNow s := by
  rw [errTick_nothing hnf hf]
  exact fld_setFld_apart _ _ (by decide) (by decide)

/-- The frame and the tick of a state in which the messages due have been sent. -/
theorem tickBegin_nothing {s : State} (hnf : s.err.pendNf = []) (hf : s.err.pendF = []) (h : fld s KPR_STAT_TICK + 1 < 2 ^ 32) :
    MsgFrame { s with now := max s.now (s.kpr.tickStart + 262144), kpr := { s.kpr with tickStart := max s.now (s.kpr.tickStart + 262144) } }
      (tickBegin s) ∧ tickNow (tickBegin s) = tickNow s + 1 :=
  ⟨(tickCounted_msg s).trans (errTick_nothing_msg (s := tickCounted s) hnf hf),
    (tickNow_errTick_nothing (s := tickCounted s) hnf hf).trans (tickNow_tickCounted h)⟩

theorem jnlBad_msg (s : State) (off : Nat) : MsgFrame s (jnlBad s off) := by
  unfold jnlBad
  dsimp only
  split
  · exact report_msg (withJnl_msg (.refl _) _) _ _ _
  · exact report_msg (.refl _) _ _ _

theorem tickNow_jnlBad (s : State) (off : Nat) : tickNow (jnlBad s off) = tickNow s := by
  unfold jnlBad tickNow
  dsimp only
  rw [fld_report _ _ _ _ (by decide)]
  split <;> rfl

theorem jnlBads_leave (l : List Nat) (s : State) : MsgFrame s (l.foldl jnlBad s) ∧ tickNow (l.foldl jnlBad s) = tickNow s := by
  induction l generalizing s with
  | nil => exact ⟨rfl, rfl⟩
  | cons off l ih =>
    obtain ⟨hm, ht⟩ := ih (jnlBad s off)
    exact ⟨(jnlBad_msg s off).trans hm, ht.trans (tickNow_jnlBad s off)⟩

theorem jnlErrors_msg (r : TickIn) (s : State) : MsgFrame s (jnlErrors r s) :=
  MsgFrame.trans (addFld_msg (.refl _) _ _) (jnlBads_leave _ _).1

theorem tickNow_jnlErrors (r : TickIn) (s : State) : tickNow (jnlErrors r s) = tickNow s :=
  (jnlBads_leave _ _).2.trans (fld_addFld_apart _ _ (by decide) (by decide))

theorem errSend_kpr (fatal : Bool) (c : Nat) (s : State) : (errSend fatal c s).kpr = s.kpr := by
  unfold errSend
  dsimp only
  cases Nat.testBit _ c <;> rfl

theorem foldl_errSend_kpr (fatal : Bool) (l : List Nat) (s : State) : (l.foldl (fun s c => errSend fatal c s) s).kpr = s.kpr := by
  induction l generalizing s with
  | nil => rfl
  | cons c l ih =>
    rw [List.foldl_cons, ih]
    exact errSend_kpr fatal c s

theorem tickBegin_kpr (s : State) :
    (tickBegin s).kpr = { s.kpr with tickStart := max s.now (s.kpr.tickStart + 262144) } := by
  unfold tickBegin errTick
  dsimp only
  rw [errPendReg, setFld_kpr, foldl_errSend_kpr, foldl_errSend_kpr]
  rfl

theorem keeperTick_down {r : TickIn} {s : State} (h : (jnlErrors r (tickBegin s)).kpr.up = false) :
    keeperTick r s = jnlErrors r (tickBegin s) := by
  unfold keeperTick
  dsimp only
  rw [h]
  rfl

theorem keeperTick_up {r : TickIn} {s : State} (h : (jnlErrors r (tickBegin s)).kpr.up = true) :
    keeperTick r s = dispatch (portsOwed (idsTick (cmdsHeld (t1Tick (arcRetrain (listTick r.stepOk (r.prevBad.map (·.val)) (scrubAuto
      (stacksOut (fenceTick (policyTick r (idTick r (setFld JNL_STAT_READY 1 (jnlErrors r (tickBegin s)))))))))))))) := by
  unfold keeperTick
  dsimp only
  rw [h]
  rfl

theorem tickStarts_up (r : TickIn) (s : State) : (jnlErrors r (tickBegin s)).kpr.up = s.kpr.up := by
  rw [(jnlErrors_msg r (tickBegin s)).kpr, tickBegin_kpr]

/-! ### Lockstep and restart (R501) -/

theorem lockstep_down {s : State} (h : s.kpr.up = false) : lockstep s = s := by
  rw [lockstep, h]
  rfl

/-- The state after a first mismatch: the record, its entry in the journal, and the Keeper stopped. -/
theorem lockstep_first {s : State} (hup : s.kpr.up = true) (h : fld s KPR_STAT_LOCKSTEP_RESTARTS = 0) :
    ∃ u, MsgFrame s u ∧ lockstep s = { u with kpr := { s.kpr with up := false } } := by
  have hm (b : List Byte) : MsgFrame s (jnlPut 35 b (report cKPR_LOCKSTEP (srcOf 8 13 0) 0 s)) :=
    jnlPut_msg (report_msg (.refl s) _ _ _) _ _
  refine ⟨_, hm (leBytes 4 (bodyNat ((jnlRec s 35).getD (leBytes 8 0)) 4 4) ++ leBytes 4 (tickNow s)), ?_⟩
  unfold lockstep
  dsimp only
  rw [hup, (hm _).kpr]
  exact (if_neg (by decide)).trans (if_neg fun hc => hc.1 h)

theorem listRestart_nil {s : State} (h : s.kpr.lists = []) : listRestart s = listsReg s := by
  have hs : { s with kpr := { s.kpr with lists := [] } } = s := by rw [← h]
  unfold listRestart
  rw [h]
  exact congrArg listsReg hs

theorem csRestart_none {s : State} (h : s.kpr.cs = none) : csRestart s = s := by
  rw [csRestart, h]

theorem cmdsHeld_nil {s : State} (h : s.kpr.cmds = []) : cmdsHeld s = s := by
  have hs : { s with kpr := { s.kpr with cmds := [] } } = s := by rw [← h]
  unfold cmdsHeld
  rw [h]
  exact hs

theorem sealAbandon_none {s : State} (h : s.arc.sealJob = none) : sealAbandon s = s := by rw [sealAbandon, h]
theorem t1Abandon_none {s : State} (h : s.lat.t1 = none) : t1Abandon s = s := by rw [t1Abandon, h]
theorem adoptFail_none {s : State} (h : s.peer.adopting = none) : adoptFail s = s := by rw [adoptFail, h]

/-- What a restart ends of a state that has just counted it. -/
def restartEnds (s : State) : State :=
  if (adoptFail (t1Abandon (sealAbandon s))).lat.hold.recState = 1 then stagedApply (adoptFail (t1Abandon (sealAbandon s)))
  else adoptFail (t1Abandon (sealAbandon s))

theorem keeperRestarted_eq {s : State} (hup : s.kpr.up = false) (hr : s.power.recovery = false) :
    keeperRestarted s = pumpAll (openGap (cmdsHeld (csRestart (listRestart (restartEnds
      (addFld KPR_STAT_LOCKSTEP_RESTARTS 1 { s with kpr := { s.kpr with up := true } })))))) := by
  have hcond : ¬ ((s.kpr.up || s.power.recovery) = true) := by simp [hup, hr]
  exact if_neg hcond

theorem restartEnds_none {s : State} (ha : s.peer.adopting = none) (hj : s.arc.sealJob = none) (h1 : s.lat.t1 = none)
    (hrec : s.lat.hold.recState ≠ 1) : restartEnds s = s := by
  rw [restartEnds, sealAbandon_none hj, t1Abandon_none h1, adoptFail_none ha, if_neg hrec]

theorem listsReg_kpr (s : State) : (listsReg s).kpr = s.kpr := by rw [listsReg, setFld_kpr]

theorem restart_nothingHeld {s : State} (hl : s.kpr.lists = []) (hc : s.kpr.cmds = []) (hcs : s.kpr.cs = none) :
    cmdsHeld (csRestart (listRestart s)) = listsReg s := by
  rw [listRestart_nil hl, csRestart_none (by rw [listsReg_kpr]; exact hcs), cmdsHeld_nil (by rw [listsReg_kpr]; exact hc)]

/-- A restart that finds nothing under way only counts itself, and lets go on what waited for the Keeper. -/
theorem keeperRestarted_idle {s : State} (hup : s.kpr.up = false) (hr : s.power.recovery = false) (hl : s.kpr.lists = [])
    (hc : s.kpr.cmds = []) (hcs : s.kpr.cs = none) (ha : s.peer.adopting = none) (hj : s.arc.sealJob = none) (h1 : s.lat.t1 = none)
    (hrec : s.lat.hold.recState ≠ 1) :
    keeperRestarted s = pumpAll (openGap (listsReg (addFld KPR_STAT_LOCKSTEP_RESTARTS 1 { s with kpr := { s.kpr with up := true } }))) := by
  rw [keeperRestarted_eq hup hr, restartEnds_none (by rw [addFld_peer]; exact ha) (by rw [addFld_arc]; exact hj)
    (by rw [addFld_lat]; exact h1) (by rw [addFld_lat]; exact hrec),
    restart_nothingHeld (by rw [addFld_kpr]; exact hl) (by rw [addFld_kpr]; exact hc) (by rw [addFld_kpr]; exact hcs)]

/-- Settles O52: the tick's counts are followed through the messages and the journal errors, which write neither the Keeper's state nor
memory; the rest is the tick, the lockstep and the restart by their cases. -/
theorem keeperTicksAndRestarts : Obligations.KeeperTicksAndRestarts := by
  unfold Obligations.KeeperTicksAndRestarts
  refine ⟨?ticks, ?passes, ?restarts⟩
  case ticks =>
    intro r s hs hup hnf hf hbound
    obtain ⟨hm, ht⟩ := tickBegin_nothing hnf hf hbound
    have hj := jnlErrors_msg r (tickBegin s)
    refine ⟨_, exec_live rfl hs (keeperTick_down ((tickStarts_up r s).trans hup)), (tickNow_jnlErrors r _).trans ht, hj.now.trans hm.now,
      ?_, hj.mem.trans hm.mem, hj.lcores.trans hm.lcores, hj.step.trans hm.step⟩
    rw [hj.kpr, hm.kpr, hj.now, hm.now]
  case passes =>
    intro r s hs hup
    have hu := (tickStarts_up r s).trans hup
    exact ⟨exec_live rfl hs (keeperTick_up hu), hu⟩
  case restarts =>
    intro s hs
    refine ⟨fun hup => exec_live rfl hs (lockstep_down hup), fun hup h0 => ?_, fun h => exec_live rfl hs (if_pos ?_),
      fun hup hr hl hc hcs ha hj h1 hrec => exec_live rfl hs (keeperRestarted_idle hup hr hl hc hcs ha hj h1 hrec)⟩
    · obtain ⟨u, hm, he⟩ := lockstep_first hup h0
      exact ⟨_, exec_live rfl hs he, rfl, hm.mem, hm.lcores, hm.step, hm.img, hm.peer⟩
    · rcases h with h | h <;> simp [h]

end Sys2Proof.Machine
end

section
/-! PROOF. Commands to the Keeper: how they reach it, and what it does with each (settles O53). -/
namespace Sys2Proof.Machine

/-! ### A command's way to the Keeper (R501, R504, R567) -/

/-- A command written by port `n`, with its port shown busy under its tag. -/
def cmdBusy (n : Nat) (tag : BitVec 8) (s : State) : State := setFld (KPR_CMD_STAT_BUSY n) 1 (setFld (KPR_CMD_STAT_TAG n) tag.toNat s)

theorem cmdRow_overrun {n c : Nat} {tag : BitVec 8} {s : State} (hon : hostOn s n = true) (hrec : s.power.recovery = false)
    (hb : fldOn s (KPR_CMD_STAT_BUSY n) = true) : cmdRow n c tag s = setFld (KPR_CMD_STAT_OVERRUN n) 1 s := by
  unfold cmdRow
  rw [hon, hrec, Bool.false_and, Bool.false_and, if_neg (by decide), if_neg (by decide), if_pos hb]

theorem cmdRow_free {n c : Nat} {tag : BitVec 8} {s : State} (hon : hostOn s n = true) (hrec : s.power.recovery = false)
    (hb : fldOn s (KPR_CMD_STAT_BUSY n) = false) :
    cmdRow n c tag s = if s.kpr.up then cmdRun (cmdBusy n tag s) ⟨n, BitVec.ofNat 8 c, tag⟩
      else { cmdBusy n tag s with kpr := { s.kpr with cmds := s.kpr.cmds ++ [⟨n, BitVec.ofNat 8 c, tag⟩] } } := by
  have hb' : ¬ fldOn s (KPR_CMD_STAT_BUSY n) = true := by simp [hb]
  unfold cmdRow
  rw [hon, hrec, Bool.false_and, Bool.false_and, if_neg (by decide), if_neg (by decide), if_neg hb']
  dsimp only
  rw [← cmdBusy]
  have hr : (cmdBusy n tag s).power.recovery = false := hrec
  rw [hr, if_neg (by decide)]
  rfl

theorem cmdRow_recovery {n c : Nat} {tag : BitVec 8} {s : State} (hrec : s.power.recovery = true) (h30 : c ≠ 0x30) (h31 : c ≠ 0x31) :
    cmdRow n c tag s = s := by
  have hc : (s.power.recovery && c != 0x30 && c != 0x31) = true := by simp [hrec, h30, h31]
  unfold cmdRow
  rw [if_pos hc, ite_self]

/-- The rows of the commands with their codes. -/
def cmdRows (n : Fin 2) (tag : BitVec 8) : List (Instr × Nat) :=
  [(.csOpen n tag, 0x01), (.csCommit n tag, 0x02), (.csAbandon n tag, 0x03), (.restart n tag, 0x04), (.swapMicrocode n tag, 0x10),
    (.swapPortFw n tag, 0x11), (.swapUncoreFw n tag, 0x12), (.scrubPass n tag, 0x20), (.fwStage n tag, 0x30), (.fwWrite n tag, 0x31),
    (.fwSelect n tag, 0x32), (.keygen n tag, 0x33), (.svnCommit n tag, 0x34)]

theorem exec_cmdRows (n : Fin 2) (tag : BitVec 8) (s : State) :
    ∀ row ∈ cmdRows n tag, exec row.1 s = .next (cmdRow n row.2 tag s) := by
  intro row hrow
  simp only [cmdRows, List.mem_cons, List.not_mem_nil, or_false] at hrow
  rcases hrow with rfl | rfl | rfl | rfl | rfl | rfl | rfl | rfl | rfl | rfl | rfl | rfl | rfl <;> rfl

theorem exec_cmdUndefined (n : Fin 2) {cmd : BitVec 8} (tag : BitVec 8) (s : State) (h : cmdKnown cmd.toNat = false) :
    exec (.cmdUndefined n cmd tag) s = .next (cmdRow n cmd.toNat tag s) := by
  have hc : ¬ cmdKnown cmd.toNat = true := by simp [h]
  exact congrArg Host.Outcome.next (if_neg hc)

/-! ### Change sets (R507 to R510) -/

theorem cmdDone_mem (n : Nat) (c : Code) (s : State) : (cmdDone n c s).mem = s.mem := by
  rw [cmdDone, sendMsi_mem, setFld_mem, setFld_mem]

theorem cmdDone_kpr (n : Nat) (c : Code) (s : State) : (cmdDone n c s).kpr = s.kpr := by
  rw [cmdDone, sendMsi_kpr, setFld_kpr, setFld_kpr]

/-- A command's completion touches its port's status register alone. -/
theorem fld_cmdDone {n : Nat} (c : Code) (s : State) {f : Fld} (hn : n < 2) (hf : ∀ k, k < 2 → f.addr ≠ rKPR_CMD_STAT k) :
    fld (cmdDone n c s) f = fld s f := by
  have hb (u : State) (v : Nat) : fld (setFld (KPR_CMD_STAT_BUSY n) v u) f = fld u f :=
    fld_setFld_apart _ _ (Nat.le_of_ble_eq_true rfl) (fldApart_of (.inl (Ne.symm (hf n hn))))
  have hs (u : State) (v : Nat) : fld (setFld (KPR_CMD_STAT_STATUS n) v u) f = fld u f :=
    fld_setFld_apart _ _ (Nat.le_of_ble_eq_true rfl) (fldApart_of (.inl (Ne.symm (hf n hn))))
  rw [cmdDone, fld_sendMsi, hb, hs]

theorem fld_cmdDone_busy (n : Nat) (c : Code) (s : State) : fld (cmdDone n c s) (KPR_CMD_STAT_BUSY n) = 0 := by
  rw [cmdDone, fld_sendMsi]
  exact fld_setFld_same _ _ _ (Nat.le_of_ble_eq_true rfl)

/-- CS_OPEN with no set open: the empty set of its port. -/
def csOpened (n : Nat) (s : State) : State :=
  csReg (setFld KPR_CS_ID_CS_ID ((getReg s (rKPR_CMD_ARG0 n)).toNat % 2 ^ 32) (setFld KPR_CS_STAT_OWNER n
    (setFld KPR_CS_STAT_STATE 1 { s with kpr := { s.kpr with cs := some ⟨n, [], false, none, 0⟩ } })))

theorem csOpen_free {n : Nat} {s : State} (h : fld s KPR_CS_STAT_STATE = 0) : csOpen n s = cmdDone n cOK (csOpened n s) := by
  have hn : ¬ fld s KPR_CS_STAT_STATE ≠ 0 := by simp [h]
  exact if_neg hn

/-- The words staged and the full mark are shown; the other fields stay. -/
theorem csReg_leaves (s : State) :
    (csReg s).mem = s.mem ∧ (csReg s).kpr = s.kpr ∧
      ∀ f : Fld, fldApart KPR_CS_STAT_STAGED f = true → fldApart KPR_CS_STAT_FULL f = true → fld (csReg s) f = fld s f := by
  unfold csReg
  cases s.kpr.cs with
  | none => exact ⟨rfl, rfl, fun f hs hf => (fld_setFld_apart _ _ (by decide) hs).trans (fld_setFld_apart _ _ (by decide) hf)⟩
  | some c => exact ⟨rfl, rfl, fun f hs hf => (fld_setFld_apart _ _ (by decide) hs).trans (fld_setFld_apart _ _ (by decide) hf)⟩

theorem csOpened_fields {n : Nat} (hn : n < 2) (s : State) :
    fld (csOpened n s) KPR_CS_STAT_STATE = 1 ∧ fld (csOpened n s) KPR_CS_STAT_OWNER = n ∧
      (csOpened n s).kpr.cs = some ⟨n, [], false, none, 0⟩ ∧ (csOpened n s).mem = s.mem := by
  obtain ⟨hmem, hkpr, hfld⟩ := csReg_leaves (setFld KPR_CS_ID_CS_ID ((getReg s (rKPR_CMD_ARG0 n)).toNat % 2 ^ 32)
    (setFld KPR_CS_STAT_OWNER n (setFld KPR_CS_STAT_STATE 1 { s with kpr := { s.kpr with cs := some ⟨n, [], false, none, 0⟩ } })))
  refine ⟨?_, ?_, (congrArg (fun k => k.cs) hkpr :), hmem⟩
  · exact (hfld _ (by decide) (by decide)).trans ((fld_setFld_apart _ _ (by decide) (by decide)).trans
      ((fld_setFld_apart _ _ (by decide) (by decide)).trans (fld_setFld_same _ _ _ (by decide))))
  · exact (hfld _ (by decide) (by decide)).trans ((fld_setFld_apart _ _ (by decide) (by decide)).trans
      ((fld_setFld_same _ _ _ (by decide)).trans (Nat.mod_eq_of_lt hn)))

/-- The set waits for the boundary of the next step, or at level 2 for the end of the open one. -/
def csWaiting (tag : BitVec 8) (c : ChangeSet) (s : State) : State :=
  setFld KPR_CS_STAT_STATE 2 { s with kpr := { s.kpr with cs := some { c with
    commit := some (tag, s.step.next, imgLevel s == 2 && s.img.isSome && c.staged.any fun w => gapReg w.1) } } }

theorem csCommit_now {n : Nat} {tag : BitVec 8} {s : State} {c : ChangeSet} (hc : s.kpr.cs = some c) (ho : c.owner = n)
    (hst : fld s KPR_CS_STAT_STATE = 1) (hfull : c.full = false) (hcode : setCode s c = 0)
    (harg : (getReg s (rKPR_CMD_ARG1 n)).getLsbD 0 = false) (hpair : pairSet (csWaiting tag c s) = none) :
    csCommit n tag s = csWaiting tag c s := by
  have hown : ¬ (c.owner ≠ n ∨ fld s KPR_CS_STAT_STATE ≠ 1) := by simp [ho, hst]
  unfold csCommit
  rw [hc]
  dsimp only
  rw [if_neg hown, harg]
  refine (if_neg (by rw [hfull, hcode]; decide)).trans ((if_neg Bool.false_ne_true).trans ((if_neg Bool.false_ne_true).trans ?_))
  rw [if_neg Bool.false_ne_true]
  change (match pairSet (csWaiting tag c s) with
    | some v => sendIds 0 (pairMember v) (csWaiting tag c s)
    | none => csWaiting tag c s) = _
  rw [hpair]

theorem csAbandon_applying {n : Nat} {s : State} (h : fld s KPR_CS_STAT_STATE = 3) : csAbandon n s = cmdDone n cCS_BUSY s := by
  unfold csAbandon
  simp only [h]

theorem csAbandon_open {n : Nat} {s : State} {c : ChangeSet} (hc : s.kpr.cs = some c) (hn : c.commit = none)
    (h : fld s KPR_CS_STAT_STATE = 1) : csAbandon n s = cmdDone n cOK (csEnd cOK s) := by
  unfold csAbandon
  simp only [h, hc, hn]
  rfl

/-! ### Lists (R514, R569) -/

theorem swapStart_busy {op : ListOp} {n : Nat} {tag : BitVec 8} {s : State} (h : hasSwap s = true) :
    swapStart op n tag s = cmdDone n cKPR_BUSY s := if_pos h

theorem secStart_busy {op : ListOp} {n : Nat} {tag : BitVec 8} {s : State}
    (h : hasList s op = true ∨ (op = .fwWrite ∨ op = .fwSelect) ∧ (hasList s .fwWrite = true ∨ hasList s .fwSelect = true)) :
    secStart op n tag s = cmdDone n cKPR_BUSY s := by
  refine if_pos ?_
  rcases h with h | ⟨rfl | rfl, h | h⟩ <;> simp [h]

theorem secStart_keygen {n : Nat} {tag : BitVec 8} {s : State} (h : hasList s .keygen = false) :
    secStart .keygen n tag s = listStart .keygen 4 1 (some (n, tag)) (getReg s (rKPR_CMD_ARG0 n)) (getReg s (rKPR_CMD_ARG1 n)) s := by
  refine if_neg ?_
  rw [h]
  exact Bool.false_ne_true

/-! ### The security version (R568) -/

theorem leNat_leBytes (n v : Nat) : leNat (leBytes n v) = v % 256 ^ n := by
  induction n generalizing v with
  | zero => simp [leBytes, leNat, Nat.mod_one]
  | succ n ih =>
    have htail : leBytes (n + 1) v = BitVec.ofNat 8 v :: leBytes n (v / 256) := by
      simp only [leBytes, List.range_succ_eq_map, List.map_cons, List.map_map, Nat.mul_zero, Nat.shiftRight_zero, List.cons.injEq, true_and]
      refine List.map_congr_left fun i _ => ?_
      have h8 : v / 256 = v >>> 8 := (Nat.shiftRight_eq_div_pow v 8).symm
      simp only [Function.comp_apply, h8, ← Nat.shiftRight_add]
      congr 2
      omega
    have hhead : (BitVec.ofNat 8 v).toNat = v % 256 := BitVec.toNat_ofNat v 8
    rw [htail, leNat, ih, hhead, Nat.pow_succ', Nat.mod_mul]

theorem bodyNat_leBytes {n v : Nat} (h : v < 256 ^ n) : bodyNat (leBytes n v) 0 n = v := by
  have hlen : (leBytes n v).length = n := length_leBytes n v
  rw [bodyNat, List.drop_zero, List.take_of_length_le (Nat.le_of_eq hlen), leNat_leBytes, Nat.mod_eq_of_lt h]

/-- The leaf that a record's write leaves as the winner holds what was written (R518). -/
theorem recWinner_recPut (r : Rec2) (b : List Byte) : (recWinner (recPut r b)).map (·.body) = some b := by
  obtain ⟨a, c⟩ := r
  cases a with
  | none =>
    cases c with
    | none => simp [recWinner, recPut]
    | some c => cases hc : c.ok <;> simp [recWinner, recPut, recAWins, hc]
  | some a =>
    cases c with
    | none => cases ha : a.ok <;> simp [recWinner, recPut, recAWins, ha]
    | some c =>
      cases ha : a.ok <;> cases hc : c.ok
      · simp [recWinner, recPut, ha, hc]
      · simp [recWinner, recPut, recAWins, ha, hc]
      · simp [recWinner, recPut, recAWins, ha, hc]
      · rcases Nat.lt_or_ge a.seq c.seq with h | h
        · have hne : a.seq ≠ c.seq := Nat.ne_of_lt h
          simp [recWinner, recPut, recAWins, ha, hc, Nat.not_le.2 h, hne]
        · have hn : ¬ a.seq + 1 ≤ a.seq := by omega
          simp [recWinner, recPut, recAWins, ha, hc, h, hn]

theorem jnlRec_jnlPut (k : Nat) (b : List Byte) (s : State) : jnlRec (jnlPut k b s) k = some b := by
  have h : smGet (fun _ => recEmpty) (jnlPut k b s).jnl.recs k = recPut (smGet (fun _ => recEmpty) s.jnl.recs k) b :=
    smGet_smPut_same _ _ _ _
  rw [jnlRec, h, recWinner_recPut]

theorem jnlRec_setFld (f : Fld) (v : Nat) (s : State) (k : Nat) : jnlRec (setFld f v s) k = jnlRec s k := by
  rw [jnlRec, setFld_jnl, jnlRec]

theorem svnCommit_raises {s : State} {b : Bundle} (hb : s.sec.running = some b) (hf : svnFloor s < 2 ^ 32) (hv : b.svn < 2 ^ 32) :
    fld (svnCommit s) SEC_SVN_FLOOR = max (svnFloor s) b.svn ∧ svnFloor (svnCommit s) = max (svnFloor s) b.svn := by
  have hm : max (svnFloor s) b.svn < 2 ^ 32 := Nat.max_lt.2 ⟨hf, hv⟩
  have he : svnCommit s = setFld SEC_SVN_FLOOR (max (svnFloor s) b.svn) (jnlPut 38 (leBytes 4 (max (svnFloor s) b.svn)) s) := by
    rw [svnCommit, hb]
  rw [he]
  refine ⟨(fld_setFld_same _ _ _ (by decide)).trans (Nat.mod_eq_of_lt hm), ?_⟩
  unfold svnFloor
  rw [jnlRec_setFld, jnlRec_jnlPut]
  exact bodyNat_leBytes hm

/-! ### The obligation -/

section
variable (s : State) (n : Nat) (tag : BitVec 8)

theorem cmdRun_csOpen : cmdRun s ⟨n, BitVec.ofNat 8 0x01, tag⟩ = csOpen n s := rfl
theorem cmdRun_csCommit : cmdRun s ⟨n, BitVec.ofNat 8 0x02, tag⟩ = csCommit n tag s := rfl
theorem cmdRun_csAbandon : cmdRun s ⟨n, BitVec.ofNat 8 0x03, tag⟩ = csAbandon n s := rfl
theorem cmdRun_restart : cmdRun s ⟨n, BitVec.ofNat 8 0x04, tag⟩ = restart n s := rfl
theorem cmdRun_swapMicro : cmdRun s ⟨n, BitVec.ofNat 8 0x10, tag⟩ = swapStart .swapMicro n tag s := rfl
theorem cmdRun_swapPort : cmdRun s ⟨n, BitVec.ofNat 8 0x11, tag⟩ = swapStart .swapPort n tag s := rfl
theorem cmdRun_swapUncore : cmdRun s ⟨n, BitVec.ofNat 8 0x12, tag⟩ = swapStart .swapUncore n tag s := rfl
theorem cmdRun_scrub : cmdRun s ⟨n, BitVec.ofNat 8 0x20, tag⟩ =
    if hasList s .scrub then cmdDone n cKPR_BUSY s else cmdDone n cOK (scrubStart 255 s) := rfl
theorem cmdRun_fwStage : cmdRun s ⟨n, BitVec.ofNat 8 0x30, tag⟩ = secStart .fwStage n tag s := rfl
theorem cmdRun_fwWrite : cmdRun s ⟨n, BitVec.ofNat 8 0x31, tag⟩ = secStart .fwWrite n tag s := rfl
theorem cmdRun_fwSelect : cmdRun s ⟨n, BitVec.ofNat 8 0x32, tag⟩ = secStart .fwSelect n tag s := rfl
theorem cmdRun_keygen : cmdRun s ⟨n, BitVec.ofNat 8 0x33, tag⟩ = secStart .keygen n tag s := rfl
theorem cmdRun_svnCommit : cmdRun s ⟨n, BitVec.ofNat 8 0x34, tag⟩ = cmdDone n cOK (svnCommit s) := rfl

end

theorem restart_refused {n : Nat} {s : State} (h : s.peer.retired = false) : restart n s = cmdDone n cKPR_NOT_RETIRED s :=
  if_pos (by rw [h]; rfl)

theorem cmdRun_undefined {n c : Nat} {tag : BitVec 8} {s : State} (hc : c < 256) (h : cmdKnown c = false) :
    cmdRun s ⟨n, BitVec.ofNat 8 c, tag⟩ = cmdDone n cKPR_CMD_UNDEF s := by
  have hv : (BitVec.ofNat 8 c).toNat = c := Nat.mod_eq_of_lt hc
  unfold cmdRun
  dsimp only
  rw [hv]
  split
  case h_14 => rfl
  all_goals exact absurd h (by decide)

/-- Settles O53, by the cases of a command's row, and by the code of the command taken. -/
theorem keeperCommands : Obligations.KeeperCommands := by
  unfold Obligations.KeeperCommands
  refine ⟨?rows, ?taken, ?recovery⟩
  case rows =>
    intro n cmd tag s hon hrec hk row hrow
    have he : exec row.1 s = .next (cmdRow n row.2 tag s) := by
      have hsplit : row ∈ cmdRows n tag ++ [(Instr.cmdUndefined n cmd tag, cmd.toNat)] := hrow
      rcases List.mem_append.1 hsplit with h | h
      · exact exec_cmdRows n tag s row h
      · rw [List.mem_singleton.1 h]
        exact exec_cmdUndefined n tag s hk
    dsimp only
    refine ⟨fun hb => ?_, fun hb hup => ?_, fun hb hup => ?_⟩
    · rw [he, cmdRow_overrun hon hrec hb]
    · exact he.trans (congrArg Host.Outcome.next ((cmdRow_free hon hrec hb).trans (if_neg (by simp [hup]))))
    · exact he.trans (congrArg Host.Outcome.next ((cmdRow_free hon hrec hb).trans (if_pos hup)))
  case taken =>
    intro n tag s _
    dsimp only
    have harg (k : Nat) (hk : k < 2) : KPR_CS_STAT_STATE.addr ≠ rKPR_CMD_STAT k := by
      simp only [KPR_CS_STAT_STATE, rKPR_CS_STAT, rKPR_CMD_STAT]
      omega
    have hown (k : Nat) (hk : k < 2) : KPR_CS_STAT_OWNER.addr ≠ rKPR_CMD_STAT k := harg k hk
    refine ⟨fun h => (cmdRun_csOpen s n tag).trans (if_pos h), fun h => ?opened, fun h => ?noSet,
      fun c hc ho hst hfull hcode ha hpair => (cmdRun_csCommit s n tag).trans (csCommit_now hc ho hst hfull hcode ha hpair),
      fun h => (cmdRun_csAbandon s n tag).trans (csAbandon_applying h),
      fun c hc hn h => (cmdRun_csAbandon s n tag).trans (csAbandon_open hc hn h),
      fun h => (cmdRun_restart s n tag).trans (restart_refused h),
      fun h => ⟨(cmdRun_swapMicro s n tag).trans (swapStart_busy h), (cmdRun_swapPort s n tag).trans (swapStart_busy h),
        (cmdRun_swapUncore s n tag).trans (swapStart_busy h)⟩,
      fun h => (cmdRun_scrub s n tag).trans (if_pos h), fun h => (cmdRun_scrub s n tag).trans (if_neg (by simp [h])),
      fun h => (cmdRun_fwStage s n tag).trans (secStart_busy (.inl h)),
      fun h => ⟨(cmdRun_fwWrite s n tag).trans (secStart_busy (.inr ⟨.inl rfl, h⟩)),
        (cmdRun_fwSelect s n tag).trans (secStart_busy (.inr ⟨.inr rfl, h⟩))⟩,
      fun h => (cmdRun_keygen s n tag).trans (secStart_keygen h), cmdRun_svnCommit s n tag,
      fun b hb hf hv => svnCommit_raises hb hf hv, fun c hc h => cmdRun_undefined hc h⟩
    case opened =>
      obtain ⟨hst, ho, hcs, hmem⟩ := csOpened_fields n.isLt s
      rw [cmdRun_csOpen, csOpen_free h]
      exact ⟨(fld_cmdDone _ _ n.isLt harg).trans hst, (fld_cmdDone _ _ n.isLt hown).trans ho, by rw [cmdDone_kpr]; exact hcs,
        fld_cmdDone_busy _ _ _, by rw [cmdDone_mem]; exact hmem⟩
    case noSet => rw [cmdRun_csCommit, csCommit, h]
  case recovery =>
    intro n tag s hrec row hrow
    simp only [List.mem_cons, List.not_mem_nil, or_false] at hrow
    rcases hrow with rfl | rfl | rfl | rfl | rfl | rfl | rfl | rfl | rfl | rfl | rfl <;>
      exact congrArg Host.Outcome.next (cmdRow_recovery hrec (by decide) (by decide))

end Sys2Proof.Machine
end

section
/-! PROOF. Register accesses of a host, and releases of the error ring (settles O55). -/
namespace Sys2Proof.Machine

/-! ### Register writes (R11, R13, R599) -/

theorem RegFrame.setReg {z s : State} (h : RegFrame z s) (a : Nat) (v : Word) : RegFrame z (setReg s a v) := by
  unfold RegFrame at *
  rw [h]
  rfl

theorem RegFrame.trans {s t u : State} (h : RegFrame s t) (k : RegFrame t u) : RegFrame s u := by
  unfold RegFrame at *
  rw [k, h]

theorem regWrite_leaves (s : State) (p : Nat × Nat × Nat) :
    RegFrame s (regWrite s p) ∧ ∀ a, p.1 ≠ a → getReg (regWrite s p) a = getReg s a := by
  unfold regWrite
  cases regLookup p.1 with
  | none => exact ⟨rfl, fun a _ => rfl⟩
  | some x =>
    obtain ⟨r, d⟩ := x
    dsimp only
    split
    · exact ⟨rfl, fun a _ => rfl⟩
    · exact ⟨rfl, fun a ha => by rw [getReg_setReg, if_neg (Ne.symm ha)]⟩

/-- Writes reach no register but those of their parts. -/
theorem regWrites_leave (l : List (Nat × Nat × Nat)) (s : State) :
    RegFrame s (l.foldl regWrite s) ∧
      ∀ a, (∀ p ∈ l, p.1 ≠ a) → getReg (l.foldl regWrite s) a = getReg s a := by
  induction l generalizing s with
  | nil => exact ⟨rfl, fun a _ => rfl⟩
  | cons p l ih =>
    obtain ⟨hs, hr⟩ := regWrite_leaves s p
    obtain ⟨ht, hrest⟩ := ih (regWrite s p)
    exact ⟨hs.trans ht, fun a ha => (hrest a fun q hq => ha q (List.mem_cons_of_mem _ hq)).trans (hr a (ha p List.mem_cons_self))⟩

theorem regWrite_none {s : State} {p : Nat × Nat × Nat} (h : regLookup p.1 = none) : regWrite s p = s := by
  rw [regWrite, h]

theorem regWrite_present {s : State} {a m x d : Nat} {r : RegAt} (h : regLookup a = some (r, d)) (ha : regAbsent s.fuses r d = false) :
    regWrite s (a, m, x) = setReg s a (BitVec.ofNat 64 (r.name.desc.foldl (fieldWrite r.name m x) (getReg s a).toNat)) := by
  rw [regWrite, h]
  exact if_neg (by simp [ha])

theorem regWrites_none {l : List (Nat × Nat × Nat)} {s : State} (h : ∀ p ∈ l, regLookup p.1 = none) : l.foldl regWrite s = s := by
  induction l with
  | nil => rfl
  | cons p l ih => rw [List.foldl_cons, regWrite_none (h p List.mem_cons_self), ih fun q hq => h q (List.mem_cons_of_mem _ hq)]

/-- The parts of a write that the port reaches. -/
def partsServed (s : State) (n addr v size : Nat) : List (Nat × Nat × Nat) :=
  (accessParts addr v size).filter fun p => !yieldForeign s n p.1 && writeServed s n p.1

theorem registerWrite_taken {n addr v size : Nat} {s : State} (hon : hostOn s n = true) (hok : accessOk addr size = true)
    (hun : cwUnmapped addr = false) : registerWrite n addr v size s = (partsServed s n addr v size).foldl regWrite s := by
  unfold registerWrite
  rw [hon, hok, hun]
  rfl

theorem mem_partsServed {s : State} {n addr v size : Nat} {p : Nat × Nat × Nat} (h : p ∈ partsServed s n addr v size) :
    p ∈ accessParts addr v size ∧ writeServed s n p.1 = true := by
  obtain ⟨hp, hs⟩ := List.mem_filter.1 h
  exact ⟨hp, (Bool.and_eq_true _ _ ▸ hs).2⟩

theorem registerWrite_misplaced {n addr v size : Nat} {s : State} (hok : accessOk addr size = false) : registerWrite n addr v size s = s := by
  refine if_pos ?_
  rw [hok, Bool.not_false, Bool.or_true]

theorem registerWrite_unmapped {n addr v size : Nat} {s : State} (hon : hostOn s n = true) (hok : accessOk addr size = true)
    (hun : cwUnmapped addr = true) : registerWrite n addr v size s = accessRefused n addr size true s := by
  unfold registerWrite
  rw [hon, hok, hun]
  rfl

theorem badAccess_fine {n addr size : Nat} {w : Bool} {s : State} (hok : accessOk addr size = true) (hun : cwUnmapped addr = false) :
    badAccess n addr size w s = s := by
  refine if_pos ?_
  rw [hok, hun, Bool.not_false, Bool.and_true, Bool.or_true]

theorem badAccess_refused {n addr size : Nat} {w : Bool} {s : State} (hon : hostOn s n = true)
    (h : accessOk addr size = false ∨ cwUnmapped addr = true) : badAccess n addr size w s = accessRefused n addr size w s := by
  refine if_neg ?_
  rcases h with h | h <;> simp [hon, h]

theorem accessRefused_read (n addr size : Nat) (s : State) :
    (accessRefused n addr size false s).mem = s.mem ∧
      (accessRefused n addr size false s).host.reads = s.host.reads ++ [(n, List.replicate size 0xFF)] := by
  unfold accessRefused
  exact ⟨by rw [report_mem]; rfl, by rw [report_reads]; rfl⟩

/-! ### The obligation -/

/-- Settles O55: a write is the fold of its parts, each of which writes its own register; the release is its one case split. -/
theorem registerAccesses : Obligations.RegisterAccesses := by
  unfold Obligations.RegisterAccesses
  refine ⟨fun n addr v size s hon => ?access, fun head s hs => ?release⟩
  case access =>
    dsimp only
    refine ⟨fun hok hun => ?_, fun hok => congrArg Host.Outcome.next (registerWrite_misplaced hok),
      fun hok hun => congrArg Host.Outcome.next (registerWrite_unmapped hon hok hun), fun h => ⟨congrArg Host.Outcome.next (badAccess_refused hon h), ?_⟩⟩
    · have he : exec (.registerWrite n addr v size) s = .next ((partsServed s n addr v.toNat size).foldl regWrite s) :=
        congrArg Host.Outcome.next (registerWrite_taken hon hok hun)
      obtain ⟨hregs, hother⟩ := regWrites_leave (partsServed s n addr v.toNat size) s
      refine ⟨⟨_, he, hregs, fun a ha => hother a fun p hp => ?_⟩, fun a m x r d hparts hy hw hlook habs => ?_, fun hnone => ?_,
        fun w => congrArg Host.Outcome.next (badAccess_fine hok hun)⟩
      · obtain ⟨hmem, hserved⟩ := mem_partsServed hp
        rcases ha with ha | ha
        · exact ha p hmem
        · rintro rfl
          rw [hserved] at ha
          exact absurd ha (by decide)
      · have hone : partsServed s n addr v.toNat size = [(a, m, x)] := by
          rw [partsServed, hparts]
          exact List.filter_cons_of_pos (by simp [hy, hw])
        rw [he, hone]
        exact congrArg Host.Outcome.next (regWrite_present hlook habs)
      · rw [he, regWrites_none fun p hp => hnone p (mem_partsServed hp).1]
    · obtain ⟨hmem, hreads⟩ := accessRefused_read n addr size s
      exact ⟨_, congrArg Host.Outcome.next (badAccess_refused hon h), hmem, hreads⟩
  case release =>
    exact ⟨fun h => exec_live rfl hs (if_pos h), fun h => exec_live rfl hs (if_neg (Nat.not_le.2 h)),
      fun h => exec_live rfl hs (if_pos h), fun h => exec_live rfl hs (if_neg (Nat.not_le.2 h))⟩

end Sys2Proof.Machine
end

section
/-! PROOF. The step in force, the reference clock and the feeds (the first part of O56). -/
namespace Sys2Proof.Machine

/-! ### The step in force (R535) -/

/-- Registers that the step in force writes. -/
def stepReg (a : Nat) : Bool :=
  (List.range 8).any fun d => a == rCLK_DIE_STAT d || a == rCLK_DIE_COUNT d || a == rPWR_DIE_STAT d

/-- A register that the step of die `d` does not write. -/
def stepApart (d : Nat) (a : Nat) : Prop := rCLK_DIE_STAT d ≠ a ∧ rCLK_DIE_COUNT d ≠ a ∧ rPWR_DIE_STAT d ≠ a

theorem stepApart_of {a : Nat} (ha : stepReg a = false) {d : Nat} (hd : d < 8) : stepApart d a := by
  have h := List.any_eq_false.1 ha d (List.mem_range.2 hd)
  simp only [Bool.or_eq_true, beq_iff_eq, not_or] at h
  obtain ⟨⟨hs, hc⟩, hp⟩ := h
  exact ⟨Ne.symm hs, Ne.symm hc, Ne.symm hp⟩

theorem stepDie_regs (s : State) (d : Nat) : RegFrame s (stepDie s d) := by
  unfold stepDie
  dsimp only
  exact ((((((RegFrame.ite (.refl s) ((RegFrame.refl s).addFld _ _)).setFld _ _).setFld _ _).setFld _ _).setFld _ _).setFld _ _)

theorem fld_stepDie (s : State) {d : Nat} {g : Fld} (hg : stepApart d g.addr) : fld (stepDie s d) g = fld s g := by
  obtain ⟨hstat, hcount, hpwr⟩ := hg
  have apart {f : Fld} (hf : f.addr ≠ g.addr) (hw : f.lo + f.w ≤ 64) (u : State) (v : Nat) : fld (setFld f v u) g = fld u g :=
    fld_setFld_apart u v hw (fldApart_of (.inl hf))
  unfold stepDie
  dsimp only
  rw [apart (by exact hpwr) (Nat.le_of_ble_eq_true rfl), apart (by exact hpwr) (Nat.le_of_ble_eq_true rfl),
    apart (by exact hstat) (Nat.le_of_ble_eq_true rfl), apart (by exact hstat) (Nat.le_of_ble_eq_true rfl),
    apart (by exact hstat) (Nat.le_of_ble_eq_true rfl)]
  split
  · rfl
  · exact fld_addFld_apart _ _ (Nat.le_of_ble_eq_true rfl) (fldApart_of (.inl hcount))

theorem stepDies_leave (l : List Nat) (hl : ∀ d ∈ l, d < 8) (s : State) :
    RegFrame s (l.foldl stepDie s) ∧ ∀ g : Fld, stepReg g.addr = false → fld (l.foldl stepDie s) g = fld s g := by
  induction l generalizing s with
  | nil => exact ⟨.refl s, fun _ _ => rfl⟩
  | cons d l ih =>
    obtain ⟨hr, hf⟩ := ih (fun e he => hl e (List.mem_cons_of_mem _ he)) (stepDie s d)
    exact ⟨(stepDie_regs s d).trans hr, fun g hg => (hf g hg).trans (fld_stepDie s (stepApart_of hg (hl d List.mem_cons_self)))⟩

theorem stepsUpdate_regs (s : State) : RegFrame s (stepsUpdate s) := (stepDies_leave _ (fun _ => List.mem_range.1) s).1

theorem fld_stepsUpdate (s : State) {g : Fld} (hg : stepReg g.addr = false) : fld (stepsUpdate s) g = fld s g :=
  (stepDies_leave _ (fun _ => List.mem_range.1) s).2 g hg

section
variable (s : State)
theorem stepsUpdate_mem : (stepsUpdate s).mem = s.mem := by rw [stepsUpdate_regs s]
theorem stepsUpdate_lcores : (stepsUpdate s).lcores = s.lcores := by rw [stepsUpdate_regs s]
theorem stepsUpdate_step : (stepsUpdate s).step = s.step := by rw [stepsUpdate_regs s]
theorem stepsUpdate_peer : (stepsUpdate s).peer = s.peer := by rw [stepsUpdate_regs s]
theorem stepsUpdate_pwr : (stepsUpdate s).pwr = s.pwr := by rw [stepsUpdate_regs s]
theorem stepsUpdate_kpr : (stepsUpdate s).kpr = s.kpr := by rw [stepsUpdate_regs s]
end

/-! ### Messages and the journal's records beside a field -/

theorem fld_jnlPut (k : Nat) (b : List Byte) (s : State) {g : Fld} (hg : reportReg g.addr = false) : fld (jnlPut k b s) g = fld s g :=
  fld_addFld_apart _ _ (by decide) (apart_of_not_reportReg hg (by decide))

theorem fld_withPwr (s : State) (p : PwrSt) (f : Fld) : fld { s with pwr := p } f = fld s f := rfl

/-! ### The reference (R537 to R539) -/

theorem refLost_coasting {s : State} (h : coasting s = true) : refLost s = s := if_pos h

/-- A coast as the clock's registers show it. -/
def coastShown (s : State) : State :=
  addFld CLK_STAT_COASTS 1 (setFld CLK_STAT_COAST_EVENT 1 (setFld CLK_STAT_COAST 1 (setFld CLK_STAT_REF_OK 0 s)))

theorem coastShown_kpr (s : State) : (coastShown s).kpr = s.kpr := by
  rw [coastShown, addFld_kpr, setFld_kpr, setFld_kpr, setFld_kpr]

/-- The state of a coast that has begun: its ticks at zero and the steps lowered. -/
def coastBegun (s : State) : State :=
  stepsUpdate { coastShown s with pwr := { (coastShown s).pwr with coastTicks := 0, goodTicks := 0 } }

def coastNoted (s : State) : State := noteCoast (report cCLK_REF_LOST (srcOf 8 14 0x52) 0 (coastBegun s))

theorem coastNoted_msg (s : State) : MsgFrame (coastBegun s) (coastNoted s) := jnlPut_msg (report_msg (.refl _) _ _ _) _ _

theorem fld_coastNoted (s : State) {g : Fld} (hr : reportReg g.addr = false) (hs : stepReg g.addr = false) :
    fld (coastNoted s) g = fld (coastShown s) g := by
  unfold coastNoted noteCoast coastBegun
  rw [fld_jnlPut _ _ _ hr, fld_report _ _ _ _ hr, fld_stepsUpdate _ hs]
  exact fld_withPwr (coastShown s) _ g

theorem refLost_begins {s : State} (h : coasting s = false) (hb : fldOn s CLK_STAT_BACKUP_OK = true) (hk : s.kpr.up = false) :
    refLost s = coastNoted s := by
  have hc : ¬ coasting s = true := by simp [h]
  have hup : ¬ (coastNoted s).kpr.up = true := by
    rw [(coastNoted_msg s).kpr, coastBegun, stepsUpdate_kpr]
    show ¬ (coastShown s).kpr.up = true
    rw [coastShown_kpr, hk]
    decide
  have hok : ¬ (!fldOn s CLK_STAT_BACKUP_OK) = true := by rw [hb]; decide
  unfold refLost
  rw [if_neg hc]
  unfold coastNoted coastBegun coastShown at hup ⊢
  rw [if_neg hok, if_neg hup]

/-- The state with the reference taken again. -/
def coastOver (s : State) : State :=
  stepsUpdate (report cCLK_REF_RESTORED (srcOf 8 14 0x52) 0 (setFld CLK_STAT_REF_OK 1 (setFld CLK_STAT_COAST 0 s)))

theorem holdRelease_none {why : HoldWhy} {s : State} (ho : s.step.ownHolds = []) (hd : s.step.deferred = []) : holdRelease why s = s := by
  have hm (f : Option HoldWhy × Option Member → Option HoldWhy × Option Member) : s.step.deferred.map f = s.step.deferred := by
    rw [hd]
    rfl
  have hn : ¬ s.step.ownHolds.contains why = true := by simp [ho]
  unfold holdRelease
  dsimp only
  rw [hm]
  exact if_neg hn

theorem fld_coastOver (s : State) {g : Fld} (hr : reportReg g.addr = false) (hs : stepReg g.addr = false) :
    fld (coastOver s) g = fld (setFld CLK_STAT_REF_OK 1 (setFld CLK_STAT_COAST 0 s)) g := by
  unfold coastOver
  rw [fld_stepsUpdate _ hs, fld_report _ _ _ _ hr]

/-! ### Feeds (R546 to R551) -/

/-- The fields of a feed's register are in their places (R560). -/
theorem feed_width (b : Bool) :
    (fPresent b).lo + (fPresent b).w ≤ 64 ∧ (fMv b).lo + (fMv b).w ≤ 64 ∧ (fDa b).lo + (fDa b).w ≤ 64 ∧ (fOv b).lo + (fOv b).w ≤ 64 ∧
      (fLoss b).lo + (fLoss b).w ≤ 64 := by cases b <;> decide

theorem feed_apart (b : Bool) :
    fldApart (fPresent b) (fMv b) = true ∧ fldApart (fPresent b) (fDa b) = true ∧ fldApart (fPresent b) (fOv b) = true ∧
      fldApart (fMv b) (fDa b) = true ∧ fldApart (fMv b) (fOv b) = true ∧ fldApart (fDa b) (fOv b) = true := by cases b <;> decide

theorem feedIn_congr {s t : State} (h : t.pwr = s.pwr) (b : Bool) : feedIn t b = feedIn s b := by rw [feedIn, h, feedIn]

theorem feedIn_setFld (f : Fld) (v : Nat) (s : State) (b : Bool) : feedIn (setFld f v s) b = feedIn s b :=
  feedIn_congr (setFld_pwr f v s) b

theorem feedIn_setFeed_same (b v : Bool) (s : State) : feedIn (setFeed b v s) b = v := by
  unfold setFeed
  rw [feedIn_setFld]
  cases b <;> rfl

theorem feedIn_setFeed_other (b v : Bool) (s : State) : feedIn (setFeed b v s) (!b) = feedIn s (!b) := by
  unfold setFeed
  rw [feedIn_setFld]
  cases b <;> rfl

/-- The fields of a feed that a sample writes. -/
theorem feedSample_within {b : Bool} {mv da : Nat} {s : State} (hmv : mv ≤ 60000) :
    feedSample b mv da s = setFld (fPresent b) (if feedIn s b then 1 else 0)
      (setFld (fMv b) (min mv 65535) (setFld (fDa b) (min da 65535) (setFld (fOv b) 0 s))) := by
  have hov : decide (60000 < mv) = false := by simp [Nat.not_lt.2 hmv]
  unfold feedSample
  dsimp only
  rw [hov, Bool.and_false, Bool.false_and, if_neg Bool.false_ne_true, if_neg Bool.false_ne_true]
  rw [feedIn_setFld, feedIn_setFld, feedIn_setFld]

theorem feedSample_regs {b : Bool} {mv da : Nat} {s : State} (hmv : mv ≤ 60000) : RegFrame s (feedSample b mv da s) := by
  rw [feedSample_within hmv]
  exact ((((RegFrame.refl s).setFld _ _).setFld _ _).setFld _ _).setFld _ _

theorem fld_feedSample_other {b : Bool} {mv da : Nat} {s : State} (hmv : mv ≤ 60000) {g : Fld} (hg : (fMv b).addr ≠ g.addr) :
    fld (feedSample b mv da s) g = fld s g := by
  obtain ⟨wp, wm, wd, wo, -⟩ := feed_width b
  have apart {f : Fld} (hf : f.addr = (fMv b).addr) : fldApart f g = true := fldApart_of (.inl (hf ▸ hg))
  rw [feedSample_within hmv, fld_setFld_apart _ _ wp (apart (by cases b <;> rfl)), fld_setFld_apart _ _ wm (apart rfl),
    fld_setFld_apart _ _ wd (apart (by cases b <;> rfl)), fld_setFld_apart _ _ wo (apart (by cases b <;> rfl))]

theorem fld_feedSample_same {b : Bool} {mv da : Nat} {s : State} (hmv : mv ≤ 60000) (hda : da ≤ 65535) :
    fld (feedSample b mv da s) (fMv b) = mv ∧ fld (feedSample b mv da s) (fDa b) = da ∧ fld (feedSample b mv da s) (fOv b) = 0 := by
  obtain ⟨wp, wm, wd, wo, -⟩ := feed_width b
  obtain ⟨pm, pd, po, md, mo, do'⟩ := feed_apart b
  have hm : min mv 65535 % 2 ^ (fMv b).w = mv := by cases b <;> exact (by omega : min mv 65535 % 2 ^ 16 = mv)
  have hd : min da 65535 % 2 ^ (fDa b).w = da := by cases b <;> exact (by omega : min da 65535 % 2 ^ 16 = da)
  rw [feedSample_within hmv]
  refine ⟨?_, ?_, ?_⟩
  · rw [fld_setFld_apart _ _ wp pm, fld_setFld_same _ _ _ wm, hm]
  · rw [fld_setFld_apart _ _ wp pd, fld_setFld_apart _ _ wm md, fld_setFld_same _ _ _ wd, hd]
  · rw [fld_setFld_apart _ _ wp po, fld_setFld_apart _ _ wm mo, fld_setFld_apart _ _ wd do', fld_setFld_same _ _ _ wo, Nat.zero_mod]

/-- A sample under the limit, outside an episode, changes the limiter's count alone. -/
theorem limiterSample_under {w : Nat} {s : State} (he : s.pwr.capEpisode = false) (hw : 100 * w ≤ 105 * fld s PWR_STAT_CAP_W) :
    limiterSample w s = { s with pwr := { s.pwr with overCap := 0 } } := by
  have hn : ¬ 105 * fld s PWR_STAT_CAP_W < 100 * w := Nat.not_lt.2 hw
  unfold limiterSample
  dsimp only
  rw [he, if_neg Bool.false_ne_true, if_neg hn, if_pos (by decide)]
  rfl

end Sys2Proof.Machine
end

section
/-! PROOF. Feed losses and power domains (the second part of O56). -/
namespace Sys2Proof.Machine

/-! ### A feed lost and taken again (R546 to R551) -/

section
variable (b : Bool) (s : State)

theorem feedIn_withPwr_other {p : PwrSt} (ha : p.feedA = s.pwr.feedA) (hb : p.feedB = s.pwr.feedB) (x : Bool) :
    feedIn { s with pwr := p } x = feedIn s x := by
  cases x
  · exact ha
  · exact hb

theorem feedDown_pwr : (feedDown b s).pwr =
    (setFeed b false { s with pwr := { s.pwr with backTicks := s.pwr.backTicks.set (if b then 1 else 0) 0 } }).pwr := by
  unfold feedDown noteFeedLoss
  rw [jnlPut_pwr, addFld_pwr, setFld_pwr]

theorem feedIn_feedDown_same : feedIn (feedDown b s) b = false :=
  (feedIn_congr (feedDown_pwr b s) b).trans (feedIn_setFeed_same b false _)

theorem feedIn_feedDown_other : feedIn (feedDown b s) (!b) = feedIn s (!b) :=
  (feedIn_congr (feedDown_pwr b s) (!b)).trans ((feedIn_setFeed_other b false _).trans (feedIn_withPwr_other s rfl rfl (!b)))

theorem fld_feedDown_loss : fld (feedDown b s) (fLoss b) = 1 := by
  obtain ⟨-, -, -, -, wl⟩ := feed_width b
  have hr : reportReg (fLoss b).addr = false := by cases b <;> decide
  have hc : fldApart PWR_COUNT_FEED_LOSSES (fLoss b) = true := by cases b <;> decide
  have hw : 1 % 2 ^ (fLoss b).w = 1 := by cases b <;> decide
  unfold feedDown noteFeedLoss
  rw [fld_jnlPut _ _ _ hr, fld_addFld_apart _ _ (by decide) hc, fld_setFld_same _ _ _ wl, hw]

theorem setFeed_mem (v : Bool) : (setFeed b v s).mem = s.mem := by rw [setFeed, setFld_mem]
theorem setFeed_lcores (v : Bool) : (setFeed b v s).lcores = s.lcores := by rw [setFeed, setFld_lcores]

theorem feedDown_mem : (feedDown b s).mem = s.mem := by
  unfold feedDown noteFeedLoss
  rw [(jnlPut_msg (.refl _) _ _).mem, addFld_mem, setFld_mem, setFeed_mem]

theorem feedDown_lcores : (feedDown b s).lcores = s.lcores := by
  unfold feedDown noteFeedLoss
  rw [(jnlPut_msg (.refl _) _ _).lcores, addFld_lcores, setFld_lcores, setFeed_lcores]

end

theorem capUpdate_regs (s : State) : RegFrame s (capUpdate s) := (RegFrame.refl s).setFld _ _

theorem fld_capUpdate (s : State) {g : Fld} (h : fldApart PWR_STAT_CAP_W g = true) : fld (capUpdate s) g = fld s g :=
  fld_setFld_apart _ _ (by decide) h

/-- The feed cap of the limit's state, in force or not, with the cap that follows from it. -/
def capSet (v : Nat) (s : State) : State := capUpdate (setFld PWR_STAT_FEED_CAP v s)

theorem capSet_regs (v : Nat) (s : State) : RegFrame s (capSet v s) := ((RegFrame.refl s).setFld _ _).trans (capUpdate_regs _)
theorem capSet_pwr (v : Nat) (s : State) : (capSet v s).pwr = s.pwr := by rw [capSet_regs v s]

theorem fld_capSet_same (v : Nat) (s : State) : fld (capSet v s) PWR_STAT_FEED_CAP = v % 2 := by
  rw [capSet, fld_capUpdate _ (by decide), fld_setFld_same _ _ _ (by decide)]
  rfl

theorem fld_capSet_other (v : Nat) (s : State) {g : Fld} (hg : rPWR_STAT ≠ g.addr) : fld (capSet v s) g = fld s g := by
  rw [capSet, fld_capUpdate _ (fldApart_of (.inl hg)), fld_setFld_apart _ _ (by decide) (fldApart_of (.inl hg))]

/-- The steps after a change of the power state that leaves the feeds as they are. -/
theorem stepsUpdate_withPwr (s : State) {p : PwrSt} (ha : p.feedA = s.pwr.feedA) (hb : p.feedB = s.pwr.feedB) :
    (stepsUpdate { s with pwr := p }).mem = s.mem ∧ (stepsUpdate { s with pwr := p }).lcores = s.lcores ∧
      (∀ x, feedIn (stepsUpdate { s with pwr := p }) x = feedIn s x) ∧
      ∀ g : Fld, stepReg g.addr = false → fld (stepsUpdate { s with pwr := p }) g = fld s g :=
  ⟨stepsUpdate_mem _, stepsUpdate_lcores _, fun x => (feedIn_congr (stepsUpdate_pwr _) x).trans (feedIn_withPwr_other s ha hb x),
    fun _ hg => (fld_stepsUpdate _ hg).trans (fld_withPwr s p _)⟩

/-- The power state with one feed: every die's policy target at most `FEED_STEP`. -/
def feedHeld (f : Nat) (p : PwrSt) : PwrSt := { p with feedHold := true, policy := p.policy.map (min f) }

theorem feedHeld_feedA (f : Nat) (p : PwrSt) : (feedHeld f p).feedA = p.feedA := rfl
theorem feedHeld_feedB (f : Nat) (p : PwrSt) : (feedHeld f p).feedB = p.feedB := rfl

theorem feedLimit_eq (s : State) : feedLimit s =
    stepsUpdate { capSet 1 s with pwr := feedHeld (fld s PWR_CTRL_FEED_STEP) (capSet 1 s).pwr } := by
  unfold feedLimit feedHeld capSet
  rfl

/-- The cap's registers, and the power state, after the other feed's loss. -/
theorem feedLimit_leaves (s : State) :
    (feedLimit s).mem = s.mem ∧ (feedLimit s).lcores = s.lcores ∧ fld (feedLimit s) PWR_STAT_FEED_CAP = 1 ∧
      (∀ x, feedIn (feedLimit s) x = feedIn s x) ∧ ∀ g : Fld, stepReg g.addr = false → rPWR_STAT ≠ g.addr → fld (feedLimit s) g = fld s g := by
  have hp : (capSet 1 s).pwr = s.pwr := capSet_pwr 1 s
  obtain ⟨hm, hl, hf, hg⟩ := stepsUpdate_withPwr (capSet 1 s) (feedHeld_feedA (fld s PWR_CTRL_FEED_STEP) _) (feedHeld_feedB _ _)
  rw [feedLimit_eq]
  have hcm : (capSet 1 s).mem = s.mem := by rw [capSet_regs 1 s]
  have hcl : (capSet 1 s).lcores = s.lcores := by rw [capSet_regs 1 s]
  refine ⟨hm.trans hcm, hl.trans hcl, ?_, fun x => (hf x).trans (feedIn_congr hp x), fun g hs hr => ?_⟩
  · exact (hg PWR_STAT_FEED_CAP (by decide)).trans (fld_capSet_same 1 s)
  · exact (hg g hs).trans (fld_capSet_other 1 s hr)

theorem feedLost_one {b : Bool} {s : State} (h : feedIn s b = true) (ho : feedIn s (!b) = true) :
    feedLost b s = report cPWR_FEED_LOST (srcOf 8 14 (if b then 0x51 else 0x50)) 0 (feedLimit (feedDown b s)) := by
  unfold feedLost
  rw [h, feedIn_feedDown_other, ho]
  exact (if_neg (by decide)).trans (if_pos rfl)

theorem feedLost_last {b : Bool} {s : State} (h : feedIn s b = true) (ho : feedIn s (!b) = false) :
    feedLost b s = floodCtl (.powerNotice (ownId s)) (feedDown b s) := by
  unfold feedLost
  rw [h, feedIn_feedDown_other, ho]
  exact (if_neg (by decide)).trans (if_neg (by decide))

theorem heldStart_leaves (s : State) : ∃ p : PwrSt, heldStart s = { s with pwr := p } ∧ p.feedA = s.pwr.feedA ∧ p.feedB = s.pwr.feedB := by
  unfold heldStart
  split
  · exact ⟨s.pwr, rfl, rfl, rfl⟩
  · exact ⟨_, rfl, rfl, rfl⟩

/-- The feed cap ends with the second feed. -/
def capEnd (s : State) : State := stepsUpdate (capSet 0 { s with pwr := { s.pwr with feedHold := false } })

theorem capEnd_leaves (s : State) :
    (capEnd s).mem = s.mem ∧ (capEnd s).lcores = s.lcores ∧ fld (capEnd s) PWR_STAT_FEED_CAP = 0 ∧ ∀ x, feedIn (capEnd s) x = feedIn s x := by
  unfold capEnd
  refine ⟨?_, ?_, (fld_stepsUpdate _ (by decide)).trans (fld_capSet_same 0 _), fun x => ?_⟩
  · rw [stepsUpdate_mem, capSet_regs]
  · rw [stepsUpdate_lcores, capSet_regs]
  · exact (feedIn_congr ((stepsUpdate_pwr _).trans (capSet_pwr 0 _)) x).trans (feedIn_withPwr_other s rfl rfl x)

/-- What a feed taken beside the other ends. -/
def capEndWith (b : Bool) (s : State) : State := if feedIn s (!b) then capEnd s else s

theorem capEndWith_leaves (b : Bool) (s : State) :
    (capEndWith b s).mem = s.mem ∧ (capEndWith b s).lcores = s.lcores ∧ (∀ x, feedIn (capEndWith b s) x = feedIn s x) ∧
      (feedIn s (!b) = true → fld (capEndWith b s) PWR_STAT_FEED_CAP = 0) := by
  obtain ⟨hm, hl, hc, hf⟩ := capEnd_leaves s
  unfold capEndWith
  split
  next => exact ⟨hm, hl, hf, fun _ => hc⟩
  next hn => exact ⟨rfl, rfl, fun _ => rfl, fun h => absurd h hn⟩

theorem feedBack_taken {b : Bool} {s : State} (h : feedIn s b = false) (ht : 16 ≤ s.pwr.backTicks.getD (if b then 1 else 0) 0) :
    feedBack b s = report cPWR_FEED_RESTORED (srcOf 8 14 (if b then 0x51 else 0x50)) 0 (heldStart (capEndWith b (setFeed b true s))) := by
  refine if_neg ?_
  rw [h, Bool.false_or]
  exact fun hc => Nat.not_lt.2 ht (of_decide_eq_true hc)

theorem feedTaken_leaves (b : Bool) (s : State) :
    (heldStart (capEndWith b (setFeed b true s))).mem = s.mem ∧ (heldStart (capEndWith b (setFeed b true s))).lcores = s.lcores ∧
      feedIn (heldStart (capEndWith b (setFeed b true s))) b = true ∧
      (feedIn s (!b) = true → fld (heldStart (capEndWith b (setFeed b true s))) PWR_STAT_FEED_CAP = 0) := by
  obtain ⟨hm, hl, hf, hc⟩ := capEndWith_leaves b (setFeed b true s)
  obtain ⟨p, hp, ha, hb⟩ := heldStart_leaves (capEndWith b (setFeed b true s))
  rw [hp]
  exact ⟨hm.trans (setFeed_mem b s true), hl.trans (setFeed_lcores b s true),
    (feedIn_withPwr_other _ ha hb b).trans ((hf b).trans (feedIn_setFeed_same b true s)),
    fun h => (fld_withPwr _ _ _).trans (hc ((feedIn_setFeed_other b true s).trans h))⟩

/-! ### Domains (R541 to R545) -/

theorem testBit_clear (v k j : Nat) : (v - (v &&& 2 ^ k)).testBit j = (v.testBit j && j != k) := by
  have hb : bits v k 1 = (v.testBit k).toNat := by
    rw [bits, Nat.shiftRight_eq_div_pow, Nat.toNat_testBit, Nat.pow_one]
  have he : v - (v &&& 2 ^ k) = putBits v k 1 0 := by
    rw [Nat.and_two_pow, putBits, hb, Nat.shiftLeft_eq, Nat.zero_mod, Nat.zero_shiftLeft, Nat.add_zero]
  rw [he, testBit_putBits]
  by_cases h : j = k
  · subst h
    simp
  · have hn : ¬ (k ≤ j ∧ j < k + 1) := by omega
    rw [if_neg hn]
    simp [h]

/-- A bit set or cleared in a word of domains. -/
theorem testBit_domBit (on : Bool) (v k j : Nat) :
    (if on then v ||| 2 ^ k else v - (v &&& 2 ^ k)).testBit j = if j = k then on else v.testBit j := by
  cases on
  · rw [if_neg Bool.false_ne_true, testBit_clear]
    by_cases h : j = k <;> simp [h]
  · rw [if_pos rfl, Nat.testBit_or, Nat.testBit_two_pow]
    by_cases h : j = k
    · simp [h]
    · simp [h, Ne.symm h]

theorem domOn_setDom {d : Nat} (hd : d < 80) (on : Bool) (s : State) {e : Nat} (he : e < 80) :
    domOn (setDom d on s) e = if e = d then on else domOn s e := by
  unfold setDom
  dsimp only
  by_cases h1 : d < 64
  · rw [if_pos h1]
    by_cases h2 : e < 64
    · unfold domOn
      rw [if_pos h2, if_pos h2, fld_setFld_same _ _ _ (by decide), PWR_DOM_ON0_ON, Nat.testBit_mod_two_pow, testBit_domBit]
      simp [h2]
    · unfold domOn
      rw [if_neg h2, if_neg h2, fld_setFld_apart _ _ (by decide) (by decide), if_neg (by omega)]
  · rw [if_neg h1]
    by_cases h2 : e < 64
    · unfold domOn
      rw [if_pos h2, if_pos h2, fld_setFld_apart _ _ (by decide) (by decide), if_neg (by omega)]
    · unfold domOn
      have hw : e - 64 < 16 := by omega
      have hk : (e - 64 = d - 64) ↔ e = d := by omega
      rw [if_neg h2, if_neg h2, fld_setFld_same _ _ _ (by decide), PWR_DOM_ON1_ON, Nat.testBit_mod_two_pow, testBit_domBit]
      simp [hw, hk]

theorem domOn_congr {s t : State} (h0 : fld t PWR_DOM_ON0_ON = fld s PWR_DOM_ON0_ON) (h1 : fld t PWR_DOM_ON1_ON = fld s PWR_DOM_ON1_ON)
    (d : Nat) : domOn t d = domOn s d := by rw [domOn, h0, h1, domOn]

theorem setDom_regs (d : Nat) (on : Bool) (s : State) : RegFrame s (setDom d on s) := by
  unfold setDom
  dsimp only
  exact .ite ((RegFrame.refl s).setFld _ _) ((RegFrame.refl s).setFld _ _)

/-- The switch of a domain has ended: its state is shown and counted. -/
def domSwitched (d : Nat) (on : Bool) (s : State) : State :=
  addFld PWR_COUNT_SWITCHES 1 (setDom d on { s with pwr := { s.pwr with switching := [] } })

theorem domSwitched_regs (d : Nat) (on : Bool) (s : State) : RegFrame { s with pwr := { s.pwr with switching := [] } } (domSwitched d on s) :=
  (setDom_regs d on _).addFld _ _

theorem domSwitched_pwr (d : Nat) (on : Bool) (s : State) : (domSwitched d on s).pwr = { s.pwr with switching := [] } := by
  rw [domSwitched_regs d on s]

theorem domSwitched_mem (d : Nat) (on : Bool) (s : State) : (domSwitched d on s).mem = s.mem := by rw [domSwitched_regs d on s]
theorem domSwitched_lcores (d : Nat) (on : Bool) (s : State) : (domSwitched d on s).lcores = s.lcores := by rw [domSwitched_regs d on s]

theorem domOn_domSwitched {d : Nat} (hd : d < 80) (on : Bool) (s : State) {e : Nat} (he : e < 80) :
    domOn (domSwitched d on s) e = if e = d then on else domOn s e := by
  have h : domOn (domSwitched d on s) e = domOn (setDom d on { s with pwr := { s.pwr with switching := [] } }) e :=
    domOn_congr (fld_addFld_apart _ _ (by decide) (by decide)) (fld_addFld_apart _ _ (by decide) (by decide)) e
  exact h.trans (domOn_setDom hd on _ he)

theorem domDone_only {d : Nat} {on : Bool} {s : State} (h : s.pwr.switching = [(d, on)]) (hh : s.pwr.heldOn.contains d = false) :
    domDone d s = domEffect d on (domSwitched d on s) := by
  have hf : s.pwr.switching.find? (fun x => x.1 == d) = some (d, on) := by rw [h]; exact List.find?_cons_of_pos (beq_self_eq_true d)
  have he : s.pwr.switching.filter (fun x => x.1 != d) = [] := by rw [h]; exact List.filter_cons_of_neg (by simp)
  have hn : ¬ s.pwr.heldOn.contains d = true := by rw [hh]; exact Bool.false_ne_true
  unfold domDone
  rw [hf]
  dsimp only
  rw [if_neg hn, he]
  rfl

theorem domDone_none {d : Nat} {s : State} (h : s.pwr.switching.find? (fun x => x.1 == d) = none) : domDone d s = s := by
  rw [domDone, h]

theorem domDone_held {d : Nat} {s : State} (h : s.pwr.heldOn.contains d = true) : domDone d s = s := by
  unfold domDone
  cases s.pwr.switching.find? (fun x => x.1 == d) with
  | none => rfl
  | some x =>
    obtain ⟨e, on⟩ := x
    exact if_pos h

theorem domEffect_off {d : Nat} (hd : d < 73 ∨ 76 ≤ d) (s : State) : domEffect d false s = s := by
  have h73 : d ≠ 73 := by omega
  have h74 : d ≠ 74 := by omega
  have h75 : d ≠ 75 := by omega
  simp [domEffect, h73, h74, h75]

theorem pumpAll_nil {s : State} (h : s.lcores = []) : pumpAll s = s := by
  rw [pumpAll, h]
  rfl

/-- A quad that comes on finds its scratch zero and, without a logical core, starts nothing. -/
theorem domEffect_on {d : Nat} {s : State} (h : s.lcores = []) : ∃ m, domEffect d true s = { s with mem := m } ∧ (64 ≤ d → m = s.mem) := by
  by_cases hd : d < 64
  · refine ⟨_, (if_pos hd).trans (pumpAll_nil h), fun h64 => absurd hd (Nat.not_lt.2 h64)⟩
  · exact ⟨s.mem, (if_neg hd).trans rfl, fun _ => rfl⟩

theorem railTimeout_off {d : Nat} {s : State} (h : s.pwr.switching.contains (d, true) = false ∨ s.pwr.heldOn.contains d = true) :
    railTimeout d s = s := by
  refine if_pos ?_
  rcases h with h | h <;> simp only [h, Bool.not_false, Bool.true_or, Bool.or_true]

theorem domFail_regs (d : Nat) (s : State) : RegFrame s (domFail d s) :=
  .ite ((RegFrame.refl s).setFld _ _) ((RegFrame.refl s).setFld _ _)

theorem domOn_domFail (d : Nat) (s : State) (e : Nat) : domOn (domFail d s) e = domOn s e := by
  unfold domFail
  split <;> exact domOn_congr (fld_setFld_apart _ _ (by decide) (by decide)) (fld_setFld_apart _ _ (by decide) (by decide)) e

/-- The power state with a domain that did not come up: out of service, its switch over. -/
def domFenced (d : Nat) (p : PwrSt) : PwrSt :=
  { p with switching := [], fencedDoms := if p.fencedDoms.contains d then p.fencedDoms else p.fencedDoms ++ [d] }

theorem domFenced_contains (d : Nat) (p : PwrSt) : (domFenced d p).fencedDoms.contains d = true := by
  have h : (if p.fencedDoms.contains d then p.fencedDoms else p.fencedDoms ++ [d]).contains d = true := by
    split
    next h => exact h
    next => simp
  exact h

theorem railTimeout_hub {d : Nat} {s : State} (h : s.pwr.switching = [(d, true)]) (hh : s.pwr.heldOn.contains d = false) (hd : 72 ≤ d) :
    railTimeout d s = report cPWR_DOMAIN (srcOf 8 14 d) (BitVec.ofNat 64 d) (domFail d { s with pwr := domFenced d s.pwr }) := by
  have he : s.pwr.switching.filter (fun x => x.1 != d) = [] := by rw [h]; exact List.filter_cons_of_neg (by simp)
  have hn : ¬ (!s.pwr.switching.contains (d, true) || s.pwr.heldOn.contains d) = true := by rw [h, hh]; simp
  unfold railTimeout
  rw [if_neg hn]
  dsimp only
  rw [he, if_neg (by omega), if_neg (by omega)]
  rfl

end Sys2Proof.Machine
end

section
/-! PROOF. Trips and the thermal shutdown (settles O56). -/
namespace Sys2Proof.Machine

/-! ### Trips (R555, R556) -/

theorem lowest_le {l : List (Nat × Nat)} {x : Nat × Nat} (h : x ∈ l) : (lowest l).2 ≤ x.2 := by
  fun_induction lowest l with
  | case1 => cases h
  | case2 y =>
    rw [List.mem_singleton.1 h]
  | case3 y ys hne z hlt ih =>
    rcases List.mem_cons.1 h with rfl | h
    · exact Nat.le_of_lt hlt
    · exact ih h
  | case4 y ys hne z hlt ih =>
    rcases List.mem_cons.1 h with rfl | h
    · exact Nat.le_refl _
    · exact Nat.le_trans (Nat.le_of_not_lt hlt) (ih h)

theorem limitOf_tripped {s : State} {d : Nat} (h : dieTripped s d = true) : (limitOf s d).2 ≤ 4 := by
  have hmem : (5, 4) ∈ otherLimits s d := by simp [otherLimits, h]
  have hle : (lowest (otherLimits s d)).2 ≤ 4 := lowest_le hmem
  unfold limitOf
  dsimp only
  rw [if_pos (.inr hle)]
  exact hle

theorem dieTripped_congr {s t : State} (h : t.pwr = s.pwr) (d : Nat) : dieTripped t d = dieTripped s d := by rw [dieTripped, h, dieTripped]

/-- A die shown tripped, at step 4 or below. -/
def tripShown (s : State) (d : Nat) : Prop := fldOn s (PWR_DIE_STAT_TRIPPED d) = true ∧ fld s (CLK_DIE_STAT_STEP d) ≤ 4

theorem tripShown_congr {s t : State} {d : Nat} (h1 : fld t (PWR_DIE_STAT_TRIPPED d) = fld s (PWR_DIE_STAT_TRIPPED d))
    (h2 : fld t (CLK_DIE_STAT_STEP d) = fld s (CLK_DIE_STAT_STEP d)) (h : tripShown s d) : tripShown t d := by
  obtain ⟨ht, hs⟩ := h
  exact ⟨by rw [fldOn, h1]; exact ht, h2 ▸ hs⟩

theorem stepDie_tripped {s : State} {d : Nat} (h : dieTripped s d = true) : tripShown (stepDie s d) d := by
  have hlim := limitOf_tripped h
  have hregs : rPWR_DIE_STAT d ≠ rCLK_DIE_STAT d := by simp only [rPWR_DIE_STAT, rCLK_DIE_STAT]; omega
  unfold stepDie
  dsimp only
  generalize hu : setFld (CLK_DIE_STAT_POLICY_STEP d) _ (setFld (CLK_DIE_STAT_LIMIT_BY d) _ (setFld (CLK_DIE_STAT_STEP d) _ _)) = u
  have hp : u.pwr = s.pwr := by
    rw [← hu, setFld_pwr, setFld_pwr, setFld_pwr]
    split
    · rfl
    · exact addFld_pwr _ _ _
  have hstep : fld u (CLK_DIE_STAT_STEP d) ≤ 4 := by
    rw [← hu, fld_setFld_apart _ _ (Nat.le_of_ble_eq_true rfl) (apart_bits rfl), fld_setFld_apart _ _ (Nat.le_of_ble_eq_true rfl) (apart_bits rfl),
      fld_setFld_same _ _ _ (Nat.le_of_ble_eq_true rfl)]
    exact Nat.le_trans (Nat.mod_le _ _) hlim
  rw [dieTripped_congr hp, h, if_pos rfl]
  refine ⟨?_, ?_⟩
  · rw [fldOn, fld_setFld_same _ _ _ (Nat.le_of_ble_eq_true rfl)]
    rfl
  · rw [fld_setFld_apart _ _ (Nat.le_of_ble_eq_true rfl) (fldApart_of (.inl hregs)),
      fld_setFld_apart _ _ (Nat.le_of_ble_eq_true rfl) (fldApart_of (.inl hregs))]
    exact hstep

theorem stepApart_dies {d e : Nat} (_ : d < 8) (_ : e < 8) (hne : e ≠ d) :
    stepApart e (rPWR_DIE_STAT d) ∧ stepApart e (rCLK_DIE_STAT d) := by
  simp only [stepApart, rPWR_DIE_STAT, rCLK_DIE_STAT, rCLK_DIE_COUNT]
  omega

theorem stepDies_tripped {d : Nat} (hd : d < 8) (l : List Nat) (hl : ∀ e ∈ l, e < 8) {s : State} (ht : dieTripped s d = true)
    (h : d ∈ l ∨ tripShown s d) : tripShown (l.foldl stepDie s) d := by
  induction l generalizing s with
  | nil => exact h.resolve_left List.not_mem_nil
  | cons e l ih =>
    have hpwr : (stepDie s e).pwr = s.pwr := by rw [stepDie_regs s e]
    have ht' : dieTripped (stepDie s e) d = true := (dieTripped_congr hpwr d).trans ht
    refine ih (fun x hx => hl x (List.mem_cons_of_mem _ hx)) ht' ?_
    by_cases hed : e = d
    · exact .inr (hed ▸ stepDie_tripped (hed ▸ ht))
    · obtain ⟨ha, hb⟩ := stepApart_dies hd (hl e List.mem_cons_self) hed
      rcases h with h | h
      · exact .inl ((List.mem_cons.1 h).resolve_left (Ne.symm hed))
      · exact .inr (tripShown_congr (fld_stepDie s ha) (fld_stepDie s hb) h)

theorem stepsUpdate_tripped {d : Nat} (hd : d < 8) {s : State} (ht : dieTripped s d = true) : tripShown (stepsUpdate s) d :=
  stepDies_tripped hd _ (fun _ => List.mem_range.1) ht (.inl (List.mem_range.2 hd))

/-- The number of a trip: of its die, or of the hub. -/
def tripNo (x : Option (Fin 8)) : Nat := match x with
  | some d => d.val
  | none => 8

theorem tripNo_le (x : Option (Fin 8)) : tripNo x < 9 := by
  cases x with
  | none => decide
  | some d => exact Nat.lt_of_lt_of_le d.isLt (by decide)

/-- The steps with a trip noted. -/
def tripSet (k : Nat) (s : State) : State := stepsUpdate { s with pwr := { s.pwr with trips := s.pwr.trips.set k true } }

theorem thermTrip_eq (x : Option (Fin 8)) (sensor : Nat) (s : State) :
    thermTrip x sensor s = noteTrip (report cTHERM_TRIP (srcOf (tripNo x) 14 sensor) 0 (tripSet (tripNo x) s)) := by
  cases x <;> rfl

theorem thermTrip_msg (x : Option (Fin 8)) (sensor : Nat) (s : State) : MsgFrame (tripSet (tripNo x) s) (thermTrip x sensor s) := by
  rw [thermTrip_eq]
  exact jnlPut_msg (report_msg (.refl _) _ _ _) _ _

theorem dieTripped_set {s : State} {d k : Nat} (hlen : s.pwr.trips.length = 9) (hd : d < 8) (hk : d = k ∨ k = 8) :
    dieTripped { s with pwr := { s.pwr with trips := s.pwr.trips.set k true } } d = true := by
  have hget (k : Nat) (hk : k < 9) : (s.pwr.trips.set k true).getD k false = true := by
    rw [List.getD_eq_getElem _ _ (by rw [List.length_set, hlen]; exact hk), List.getElem_set_self]
  unfold dieTripped
  rcases hk with rfl | rfl
  · exact Bool.or_eq_true_iff.2 (.inl (hget d (by omega)))
  · exact Bool.or_eq_true_iff.2 (.inr (hget 8 (by omega)))

theorem reportReg_die {d : Nat} (hd : d < 8) : reportReg (rPWR_DIE_STAT d) = false ∧ reportReg (rCLK_DIE_STAT d) = false := by
  have h : ∀ d, d < 8 → reportReg (rPWR_DIE_STAT d) = false ∧ reportReg (rCLK_DIE_STAT d) = false := by decide
  exact h d hd

theorem thermTrip_shown {x : Option (Fin 8)} {sensor : Nat} {s : State} (hlen : s.pwr.trips.length = 9) {d : Nat} (hd : d < 8)
    (hk : d = tripNo x ∨ tripNo x = 8) : tripShown (thermTrip x sensor s) d := by
  obtain ⟨hp, hc⟩ := reportReg_die hd
  have hrep {g : Fld} (hg : reportReg g.addr = false) : fld (thermTrip x sensor s) g = fld (tripSet (tripNo x) s) g := by
    rw [thermTrip_eq, noteTrip, fld_jnlPut _ _ _ hg, fld_report _ _ _ _ hg]
  exact tripShown_congr (hrep hp) (hrep hc) (stepsUpdate_tripped hd (dieTripped_set hlen hd hk))

/-- The steps with a trip cleared. -/
def tripCleared (k : Nat) (s : State) : State := stepsUpdate { s with pwr := { s.pwr with trips := s.pwr.trips.set k false } }

theorem tripCleared_regs (k : Nat) (s : State) :
    RegFrame { s with pwr := { s.pwr with trips := s.pwr.trips.set k false } } (tripCleared k s) := stepsUpdate_regs _

theorem tripCleared_pwr (k : Nat) (s : State) : (tripCleared k s).pwr = { s.pwr with trips := s.pwr.trips.set k false } := by
  rw [tripCleared_regs k s]

theorem domHeld_tripCleared (k : Nat) (s : State) :
    domHeld (tripCleared k s) = (fldOn s PWR_STAT_FEED_CAP || (s.pwr.trips.set k false).any id) := by
  have hf : fld (tripCleared k s) PWR_STAT_FEED_CAP = fld s PWR_STAT_FEED_CAP := by
    rw [tripCleared, fld_stepsUpdate _ (by decide), fld_withPwr]
  rw [domHeld, fldOn, hf, tripCleared_pwr, fldOn]

theorem heldStart_eq (s : State) :
    heldStart s = { s with pwr := { s.pwr with heldOn := if domHeld s then s.pwr.heldOn else [] } } := by
  unfold heldStart
  split <;> rfl

theorem withPwr_of_regs {s u : State} {p : PwrSt} (h : RegFrame { s with pwr := p } u) (q : PwrSt) :
    ({ u with pwr := q } : State) = { s with regs := u.regs, pwr := q } := by
  unfold RegFrame at h
  rw [h]

/-- The power state after a trip is cleared: what was held for it alone is held no longer. -/
def pwrCleared (k : Nat) (s : State) : PwrSt :=
  { s.pwr with
    trips := s.pwr.trips.set k false,
    heldOn := if fldOn s PWR_STAT_FEED_CAP || (s.pwr.trips.set k false).any id then s.pwr.heldOn else [] }

theorem heldStart_tripCleared (k : Nat) (s : State) :
    heldStart (tripCleared k s) = { s with regs := (tripCleared k s).regs, pwr := pwrCleared k s } := by
  rw [heldStart_eq, domHeld_tripCleared, tripCleared_pwr]
  exact withPwr_of_regs (tripCleared_regs k s) (pwrCleared k s)

/-! ### The thermal shutdown (R556) -/

theorem moduleLoss_retired (s : State) : (moduleLoss s).peer.retired = true := by
  unfold moduleLoss
  split
  next h => exact h
  next => exact retire_retired _

theorem orphan_msg {z s : State} (h : MsgFrame z s) (n q : Nat) : MsgFrame z (orphan n s q) := by
  unfold orphan
  exact .ite h (postOn_msg (ctlBlock_msg (setFld_msg (withHost_msg h _) _ _) _) _ _ _)

theorem hostLost_msg {z s : State} (h : MsgFrame z s) (n : Nat) : MsgFrame z (hostLost n s) := by
  unfold hostLost
  refine .ite h ?_
  dsimp only
  have hr := report_msg (addFld_msg (setFld_msg h (TKT_HOST_STATE n) 2) (TKT_HOST_LOSSES n) 1) cHOST_LOST (srcOf 8 12 (32 + n)) 0
  revert hr
  generalize report cHOST_LOST (srcOf 8 12 (32 + n)) 0 (addFld (TKT_HOST_LOSSES n) 1 (setFld (TKT_HOST_STATE n) 2 s)) = u
  intro hr
  generalize List.range 32 = l
  induction l generalizing u with
  | nil => exact hr
  | cons q l ih => exact ih _ (orphan_msg hr n q)

theorem hostDown_msg {z s : State} (h : MsgFrame z s) (n : Nat) : MsgFrame z (hostDown n s) := by
  unfold hostDown
  exact .ite (hostLost_msg (withHost_msg h _) n) h

theorem cutClearAll_mf {z s : State} (h : MemFrame z s) (a b : Bool) : MemFrame z (cutClearAll a b s) := by
  unfold cutClearAll
  exact MemFrame.foldl (fun s p hs => .ite hs (cutClear_mf (.ite (setGran_mf hs _ _) hs) _ _)) _ h

theorem listEnd_peer (op : ListOp) (s : State) : (listEnd op s).peer = s.peer := by rw [listEnd, listsReg, setFld_peer]

theorem sealAbandon_peer (s : State) : (sealAbandon s).peer = s.peer := by
  unfold sealAbandon
  cases s.arc.sealJob with
  | none => rfl
  | some x =>
    obtain ⟨slot, leafA, stage⟩ := x
    dsimp only
    rw [report_peer]
    generalize hu : listEnd .tier2 _ = u
    have hc : (cutClearAll false false u).peer = u.peer := (cutClearAll_mf (.refl u) false false).peer
    have hup : u.peer = s.peer := by
      rw [← hu, listEnd_peer, setFld_peer, addFld_peer]
      split
      · exact (jnlPut_msg (.refl _) _ _).peer
      · rfl
    split
    · exact (setFld_peer _ _ _).trans (hc.trans hup)
    · exact hc.trans hup

theorem archiveDown_peer (s : State) : (archiveDown s).peer = s.peer := by
  unfold archiveDown
  split
  · rfl
  · dsimp only
    split
    · rw [sealAbandon_peer, report_peer, setFld_peer, setFld_peer]
    · rw [setFld_peer, setFld_peer]

theorem domOn_shutdown (u : State) (p : PwrSt) {d : Nat} (hd : d < 80) :
    domOn (setFld PWR_DOM_ON0_ON 0 (setFld PWR_DOM_ON1_ON 0x1100 { u with pwr := p })) d = (d == 72 || d == 76) := by
  have h0 : fld (setFld PWR_DOM_ON0_ON 0 (setFld PWR_DOM_ON1_ON 0x1100 { u with pwr := p })) PWR_DOM_ON0_ON = 0 :=
    fld_setFld_same _ _ _ (by decide)
  have h1 : fld (setFld PWR_DOM_ON0_ON 0 (setFld PWR_DOM_ON1_ON 0x1100 { u with pwr := p })) PWR_DOM_ON1_ON = 0x1100 := by
    rw [fld_setFld_apart _ _ (by decide) (by decide), fld_setFld_same _ _ _ (by decide)]
    rfl
  have hbits : ∀ d, d < 80 → (if d < 64 then (0 : Nat).testBit d else (0x1100 : Nat).testBit (d - 64)) = (d == 72 || d == 76) := by
    decide
  rw [domOn, h0, h1]
  exact hbits d hd

/-- The state in which the shutdown has ended the module, both hosts and the archive. -/
def shutDown (d i : Nat) (s : State) : State :=
  archiveDown (hostDown 1 (hostDown 0 (addFld PWR_COUNT_SWITCHES
    (shutDomains (moduleLoss (noteShutdown (report cTHERM_SHUTDOWN (srcOf d 14 i) 0 s))))
    (moduleLoss (noteShutdown (report cTHERM_SHUTDOWN (srcOf d 14 i) 0 s))))))

theorem shutDown_retired (d i : Nat) (s : State) : (shutDown d i s).peer.retired = true := by
  have hm (u : State) : (hostDown 1 (hostDown 0 u)).peer = u.peer := (hostDown_msg (hostDown_msg (.refl u) 0) 1).peer
  rw [shutDown, archiveDown_peer, hm, addFld_peer]
  exact moduleLoss_retired _

/-- The shutdown's switches: everything off but PD72 and PD76. -/
def domainsOff (u : State) : State :=
  setFld PWR_DOM_ON0_ON 0 (setFld PWR_DOM_ON1_ON 0x1100 { u with pwr := { u.pwr with switching := [], heldOn := [] } })

theorem thermShutdown_due {s : State} {k : Nat} (h : s.pwr.tripTicks = [(k, 4)]) (hd : shutDomains s ≠ 0) :
    ∃ d i, thermShutdown s = { domainsOff (shutDown d i s) with arc := { (domainsOff (shutDown d i s)).arc with perst := true } } := by
  have hf : s.pwr.tripTicks.find? (fun x => decide (4 ≤ x.2)) = some (k, 4) := by rw [h]; rfl
  refine ⟨if k < 128 then k / 16 else 8,
    if 128 ≤ k then 0x80 + (k - 128) else if k % 16 < 9 then 0x60 + k % 16 else 0x70 + (k % 16 - 9), ?_⟩
  unfold thermShutdown
  rw [hf]
  exact if_neg hd

/-! ### The rows -/

theorem coastShown_regs (s : State) : RegFrame s (coastShown s) := ((((RegFrame.refl s).setFld _ _).setFld _ _).setFld _ _).addFld _ _

theorem coastShown_fields (s : State) :
    fld (coastShown s) CLK_STAT_COAST = 1 ∧ fld (coastShown s) CLK_STAT_REF_OK = 0 ∧ fld (coastShown s) CLK_STAT_COAST_EVENT = 1 := by
  unfold coastShown
  refine ⟨?_, ?_, ?_⟩
  · rw [fld_addFld_apart _ _ (by decide) (by decide), fld_setFld_apart _ _ (by decide) (by decide), fld_setFld_same _ _ _ (by decide)]
    rfl
  · rw [fld_addFld_apart _ _ (by decide) (by decide), fld_setFld_apart _ _ (by decide) (by decide),
      fld_setFld_apart _ _ (by decide) (by decide), fld_setFld_same _ _ _ (by decide)]
    rfl
  · rw [fld_addFld_apart _ _ (by decide) (by decide), fld_setFld_same _ _ _ (by decide)]
    rfl

/-- What a coast's begin leaves as it was, and its ticks. -/
theorem coastNoted_leaves (s : State) :
    (coastNoted s).pwr.coastTicks = 0 ∧ (coastNoted s).mem = s.mem ∧ (coastNoted s).lcores = s.lcores ∧ (coastNoted s).step = s.step ∧
      (coastNoted s).peer = s.peer := by
  have hm := coastNoted_msg s
  have hr := coastShown_regs s
  rw [hm.pwr, hm.mem, hm.lcores, hm.step, hm.peer, coastBegun, stepsUpdate_pwr, stepsUpdate_mem, stepsUpdate_lcores, stepsUpdate_step,
    stepsUpdate_peer]
  unfold RegFrame at hr
  rw [hr]
  exact ⟨rfl, rfl, rfl, rfl, rfl⟩

theorem coastOver_leaves (s : State) :
    (coastOver s).mem = s.mem ∧ (coastOver s).lcores = s.lcores ∧ (coastOver s).step = s.step ∧
      fld (coastOver s) CLK_STAT_COAST = 0 ∧ fld (coastOver s) CLK_STAT_REF_OK = 1 := by
  refine ⟨?_, ?_, ?_, ?_, ?_⟩
  · rw [coastOver, stepsUpdate_mem, report_mem, setFld_mem, setFld_mem]
  · rw [coastOver, stepsUpdate_lcores, report_lcores, setFld_lcores, setFld_lcores]
  · rw [coastOver, stepsUpdate_step, report_step, setFld_step, setFld_step]
  · rw [fld_coastOver _ (by decide) (by decide), fld_setFld_apart _ _ (by decide) (by decide), fld_setFld_same _ _ _ (by decide)]
    rfl
  · rw [fld_coastOver _ (by decide) (by decide), fld_setFld_same _ _ _ (by decide)]
    rfl

/-- Both feeds' parts of a sample. -/
def feedsSampled (f : FeedSample) (s : State) : State := feedSample true f.mvB f.daB (feedSample false f.mvA f.daA s)

theorem feedsSampled_regs {f : FeedSample} {s : State} (ha : f.mvA ≤ 60000) (hb : f.mvB ≤ 60000) : RegFrame s (feedsSampled f s) :=
  (feedSample_regs ha).trans (feedSample_regs hb)

theorem limiterSample_feeds {f : FeedSample} {w : Nat} {s : State} (ha : f.mvA ≤ 60000) (hb : f.mvB ≤ 60000) (he : s.pwr.capEpisode = false)
    (hw : 100 * w ≤ 105 * fld s PWR_STAT_CAP_W) :
    limiterSample w (feedsSampled f s) = { feedsSampled f s with pwr := { s.pwr with overCap := 0 } } := by
  have hp : (feedsSampled f s).pwr = s.pwr := by rw [feedsSampled_regs ha hb]
  have hc : fld (feedsSampled f s) PWR_STAT_CAP_W = fld s PWR_STAT_CAP_W :=
    (fld_feedSample_other hb (by decide)).trans (fld_feedSample_other ha (by decide))
  rw [limiterSample_under (by rw [hp]; exact he) (by rw [hc]; exact hw), hp]

theorem feedsSampled_fields {f : FeedSample} {s : State} (ha : f.mvA ≤ 60000) (hb : f.mvB ≤ 60000) (hda : f.daA ≤ 65535)
    (hdb : f.daB ≤ 65535) :
    fld (feedsSampled f s) (fMv false) = f.mvA ∧ fld (feedsSampled f s) (fMv true) = f.mvB ∧ fld (feedsSampled f s) (fDa false) = f.daA ∧
      fld (feedsSampled f s) (fDa true) = f.daB ∧ fld (feedsSampled f s) (fOv false) = 0 ∧ fld (feedsSampled f s) (fOv true) = 0 := by
  obtain ⟨hmv, hd, hov⟩ := fld_feedSample_same (b := false) (s := s) ha hda
  obtain ⟨hmv', hd', hov'⟩ := fld_feedSample_same (b := true) (s := feedSample false f.mvA f.daA s) hb hdb
  have hother {g : Fld} (hg : (fMv true).addr ≠ g.addr) : fld (feedsSampled f s) g = fld (feedSample false f.mvA f.daA s) g :=
    fld_feedSample_other hb hg
  exact ⟨(hother (by decide)).trans hmv, hmv', (hother (by decide)).trans hd, hd', (hother (by decide)).trans hov, hov'⟩

theorem fldOn_of_one {s : State} {f : Fld} (h : fld s f = 1) : fldOn s f = true := by rw [fldOn, h]; rfl
theorem fldOn_of_zero {s : State} {f : Fld} (h : fld s f = 0) : fldOn s f = false := by rw [fldOn, h]; rfl

/-- The row of a feed's loss with the other feed in. -/
theorem feedLoss_row {b : Bool} {s : State} (h : feedIn s b = true) (ho : feedIn s (!b) = true) :
    feedIn (feedLost b s) b = false ∧ feedIn (feedLost b s) (!b) = true ∧ fldOn (feedLost b s) PWR_STAT_FEED_CAP = true ∧
      fldOn (feedLost b s) (fLoss b) = true ∧ (feedLost b s).mem = s.mem ∧ (feedLost b s).lcores = s.lcores := by
  obtain ⟨hm, hl, hc, hf, hg⟩ := feedLimit_leaves (feedDown b s)
  have hloss : reportReg (fLoss b).addr = false ∧ stepReg (fLoss b).addr = false ∧ rPWR_STAT ≠ (fLoss b).addr := by cases b <;> decide
  obtain ⟨hlr, hls, hlp⟩ := hloss
  rw [feedLost_one h ho]
  have hin (x : Bool) : feedIn (report cPWR_FEED_LOST (srcOf 8 14 (if b then 0x51 else 0x50)) 0 (feedLimit (feedDown b s))) x =
      feedIn (feedDown b s) x := (feedIn_congr (report_pwr _ _ _ _) x).trans (hf x)
  refine ⟨(hin b).trans (feedIn_feedDown_same b s), (hin (!b)).trans ((feedIn_feedDown_other b s).trans ho), fldOn_of_one ?_, fldOn_of_one ?_,
    ?_, ?_⟩
  · rw [fld_report _ _ _ _ (by decide), hc]
  · rw [fld_report _ _ _ _ hlr, hg _ hls hlp, fld_feedDown_loss]
  · rw [report_mem, hm, feedDown_mem]
  · rw [report_lcores, hl, feedDown_lcores]

theorem feedBack_off {b : Bool} {s : State} (h : feedIn s b = true ∨ s.pwr.backTicks.getD (if b then 1 else 0) 0 < 16) :
    feedBack b s = s := by
  refine if_pos ?_
  rcases h with h | h
  · rw [h, Bool.true_or]
  · rw [decide_eq_true h, Bool.or_true]

/-- The row of a feed taken again. -/
theorem feedRestored_row {b : Bool} {s : State} (h : feedIn s b = false) (ht : 16 ≤ s.pwr.backTicks.getD (if b then 1 else 0) 0) :
    feedIn (feedBack b s) b = true ∧ (feedIn s (!b) = true → fldOn (feedBack b s) PWR_STAT_FEED_CAP = false) ∧
      (feedBack b s).mem = s.mem ∧ (feedBack b s).lcores = s.lcores := by
  obtain ⟨hm, hl, hin, hc⟩ := feedTaken_leaves b s
  rw [feedBack_taken h ht]
  refine ⟨(feedIn_congr (report_pwr _ _ _ _) b).trans hin, fun ho => fldOn_of_zero ?_, ?_, ?_⟩
  · rw [fld_report _ _ _ _ (by decide), hc ho]
  · rw [report_mem, hm]
  · rw [report_lcores, hl]

/-- The rows of a trip and of its clearing. -/
theorem trip_rows (x : Option (Fin 8)) (sensor : BitVec 8) {s : State} (hs : live s = true) (hlen : s.pwr.trips.length = 9) :
    (∃ t, exec (.thermTrip x sensor) s = .next t ∧ t.pwr.trips = s.pwr.trips.set (tripNo x) true ∧ t.mem = s.mem ∧ t.lcores = s.lcores ∧
      ∀ d, d < 8 → (d = tripNo x ∨ tripNo x = 8) → fldOn t (PWR_DIE_STAT_TRIPPED d) = true ∧ fld t (CLK_DIE_STAT_STEP d) ≤ 4) ∧
    ∃ t, exec (.thermTripClear x) s = .next t ∧ t.pwr = pwrCleared (tripNo x) s ∧ t = { s with regs := t.regs, pwr := t.pwr } := by
  refine ⟨⟨_, exec_live rfl hs rfl, ?_, ?_, ?_, fun d hd hk => thermTrip_shown hlen hd hk⟩, heldStart (tripCleared (tripNo x) s), ?_, ?_, ?_⟩
  · rw [(thermTrip_msg x _ s).pwr, tripSet, stepsUpdate_pwr]
  · rw [(thermTrip_msg x _ s).mem, tripSet, stepsUpdate_mem]
  · rw [(thermTrip_msg x _ s).lcores, tripSet, stepsUpdate_lcores]
  · cases x <;> exact exec_live rfl hs rfl
  · rw [heldStart_tripCleared]
  · rw [heldStart_tripCleared]

/-- The row of a switch-on that ends. -/
theorem domOn_row {d : Nat} {s : State} (h : s.pwr.switching = [(d, true)]) (hh : s.pwr.heldOn.contains d = false) (hl : s.lcores = [])
    (hd : d < 80) :
    ∃ m, domDone d s = { domSwitched d true s with mem := m } ∧ domOn { domSwitched d true s with mem := m } d = true ∧
      ({ domSwitched d true s with mem := m } : State).pwr.switching = [] ∧ (64 ≤ d → m = s.mem) := by
  obtain ⟨m, he, hm⟩ := domEffect_on (d := d) ((domSwitched_lcores d true s).trans hl)
  have hon : domOn (domSwitched d true s) d = true := by rw [domOn_domSwitched hd _ _ hd, if_pos rfl]
  have hp := domSwitched_pwr d true s
  have hmem := domSwitched_mem d true s
  rw [domDone_only h hh, he]
  revert hon hp hmem hm
  generalize domSwitched d true s = u
  intro hm hon hp hmem
  exact ⟨m, rfl, (domOn_congr rfl rfl d).trans hon, by rw [hp], fun h64 => (hm h64).trans hmem⟩

theorem domOn_withArc (u : State) (a : ArcSt) (e : Nat) : domOn { u with arc := a } e = domOn u e := rfl

theorem domainsOff_leaves (u : State) :
    (domainsOff u).peer.retired = u.peer.retired ∧ (domainsOff u).pwr.switching = [] ∧
      ∀ d, d < 80 → domOn (domainsOff u) d = (d == 72 || d == 76) := by
  unfold domainsOff
  refine ⟨?_, ?_, fun d hd => domOn_shutdown u _ hd⟩
  · rw [setFld_peer, setFld_peer]
  · rw [setFld_pwr, setFld_pwr]

/-! ### The obligation -/

theorem coasting_ne {s : State} (h : coasting s = false) : ¬ coasting s = true := by simp [h]

/-- Settles O56, row by row: a field is followed through the messages, the journal and the steps in force, which write registers of
their own. -/
theorem clocksPowerAndTrips : Obligations.ClocksPowerAndTrips := by
  unfold Obligations.ClocksPowerAndTrips
  refine ⟨?refs, ?samples, ?feeds, ?domains, ?trips, ?shutdown⟩
  case refs =>
    intro s hs
    refine ⟨fun h => exec_live rfl hs (refLost_coasting h), fun h hb hk => ?_, fun h hk ht ho hd => ?_, fun h => exec_live rfl hs (if_neg ?_),
      fun h ht => exec_live rfl hs (if_pos ?_), fun h => exec_live rfl hs (if_neg ?_), exec_live rfl hs rfl⟩
    · obtain ⟨hc, hr, he⟩ := coastShown_fields s
      have hf {g : Fld} (hg : reportReg g.addr = false) (hg' : stepReg g.addr = false) := fld_coastNoted s hg hg'
      exact ⟨_, exec_live rfl hs (refLost_begins h hb hk), fldOn_of_one ((hf (by decide) (by decide)).trans hc),
        (hf (by decide) (by decide)).trans hr, (hf (by decide) (by decide)).trans he, coastNoted_leaves s⟩
    · obtain ⟨hm, hl, hst, hc, hr⟩ := coastOver_leaves s
      have he := holdRelease_none (why := .coast) (s := coastOver s) (by rw [hst]; exact ho) (by rw [hst]; exact hd)
      exact ⟨coastOver s, exec_live rfl hs ((if_pos (by simp [h, hk, ht])).trans he), fldOn_of_zero hc, hr, hm, hl⟩
    · rintro hc
      simp only [Bool.and_eq_true, decide_eq_true_eq] at hc
      obtain ⟨⟨hc, -⟩, ht⟩ := hc
      rcases h with h | h
      · exact coasting_ne h hc
      · exact Nat.not_lt.2 ht h
    · simp [h, ht]
    · rintro hc
      simp only [Bool.and_eq_true, decide_eq_true_eq] at hc
      obtain ⟨hc, ht⟩ := hc
      rcases h with h | h
      · exact coasting_ne h hc
      · exact Nat.not_lt.2 ht h
  case samples =>
    intro f s hs ha hb hda hdb he hw
    obtain ⟨h1, h2, h3, h4, h5, h6⟩ := feedsSampled_fields (s := s) ha hb hda hdb
    exact ⟨_, exec_live rfl hs (limiterSample_feeds ha hb he hw), h1, h2, h3, h4, h5, h6, rfl,
      withPwr_of_regs (p := s.pwr) (feedsSampled_regs ha hb) _⟩
  case feeds =>
    intro b s hs
    exact ⟨fun h => exec_live rfl hs (if_pos (by rw [h]; rfl)), fun h ho => ⟨_, exec_live rfl hs rfl, feedLoss_row h ho⟩,
      fun h ho => ⟨exec_live rfl hs (feedLost_last h ho), feedIn_feedDown_same b s⟩, fun h => exec_live rfl hs (feedBack_off h),
      fun h ht => ⟨_, exec_live rfl hs rfl, feedRestored_row h ht⟩⟩
  case domains =>
    intro d s hs
    refine ⟨fun h => exec_live rfl hs (domDone_none h), fun h => ⟨exec_live rfl hs (domDone_held h), exec_live rfl hs (railTimeout_off (.inr h))⟩,
      fun h hh hd => ?_, fun h hh hl => ?_, fun h => exec_live rfl hs (railTimeout_off (.inl h)), fun h hh hd => ?_⟩
    · refine ⟨_, exec_live rfl hs ((domDone_only h hh).trans (domEffect_off hd _)), ?_, ?_, domSwitched_mem _ _ _, domSwitched_lcores _ _ _,
        fun e he hne => ?_⟩
      · rw [domOn_domSwitched d.isLt _ _ d.isLt, if_pos rfl]
      · rw [domSwitched_pwr]
      · rw [domOn_domSwitched d.isLt _ _ he, if_neg hne]
    · obtain ⟨m, he, hdom, hsw, hm⟩ := domOn_row (d := d) h hh hl d.isLt
      exact ⟨_, exec_live rfl hs he, hdom, hsw, hm⟩
    · have hr := domFail_regs d { s with pwr := domFenced d s.pwr }
      refine ⟨_, exec_live rfl hs (railTimeout_hub h hh hd), ?_, ?_, ?_, ?_, ?_⟩
      · rw [report_pwr, hr]
        rfl
      · rw [report_pwr, hr]
        exact domFenced_contains d s.pwr
      · exact (domOn_congr (fld_report _ _ _ _ (by decide)) (fld_report _ _ _ _ (by decide)) d).trans
          ((domOn_domFail d _ d).trans (domOn_congr (fld_withPwr s _ _) (fld_withPwr s _ _) d))
      · rw [report_mem, hr]
      · rw [report_lcores, hr]
  case trips =>
    intro x sensor s hs hlen
    cases x with
    | none => exact trip_rows none sensor hs hlen
    | some d => exact trip_rows (some d) sensor hs hlen
  case shutdown =>
    intro s hs
    refine ⟨fun h => exec_live rfl hs (by rw [thermShutdown, h]), fun k h hd => ?_⟩
    obtain ⟨d, i, he⟩ := thermShutdown_due h hd
    obtain ⟨hr, hsw, hdom⟩ := domainsOff_leaves (shutDown d i s)
    exact ⟨_, exec_live rfl hs he, (hr.trans (shutDown_retired d i s) :), hsw, rfl, fun e hlt => (domOn_withArc _ _ e).trans (hdom e hlt)⟩

end Sys2Proof.Machine
end

section
/-! PROOF. Power-up, the reset inputs, and the loss of power (settles O57). -/
namespace Sys2Proof.Machine

/-! ### Changes of registers and of the power state alone -/

/-- Two states that differ at most in the registers and in the clock, power and sensor state. -/
def PwrFrame (s t : State) : Prop := t = { s with regs := t.regs, pwr := t.pwr }

theorem RegFrame.toPwr {s t : State} (h : RegFrame s t) : PwrFrame s t := by
  unfold RegFrame at h
  unfold PwrFrame
  rw [h]

theorem PwrFrame.trans {s t u : State} (h : PwrFrame s t) (k : PwrFrame t u) : PwrFrame s u := by
  unfold PwrFrame at *
  rw [k, h]

theorem PwrFrame.setFld {z s : State} (h : PwrFrame z s) (f : Fld) (v : Nat) : PwrFrame z (setFld f v s) :=
  h.trans ((RegFrame.refl s).setFld f v).toPwr

theorem setFeed_frame (b v : Bool) (s : State) : PwrFrame s (setFeed b v s) :=
  (show PwrFrame s { s with pwr := if b then { s.pwr with feedB := v } else { s.pwr with feedA := v } } from rfl).setFld _ _

/-! ### Power-up (R588) -/

/-- A powered module, its feeds shown. -/
def poweredOn (a b : Bool) (s : State) : State :=
  setFeed true b (setFeed false a { s with power := { s.power with powered := true, cold := true } })

/-- The module at the 21 ms row: the power-ups counted and the straps read. -/
def strapsRead (straps : Nat) (s : State) : State :=
  setFld HUB_RESET_STRAP straps (setFld HUB_RESET_POWER_UPS (satAdd 16 (bodyNat (pwrHist s) 0x22 2) 1)
    (jnlPut 36 (putSlice (pwrHist s) 0x22 2 (satAdd 16 (bodyNat (pwrHist s) 0x22 2) 1)) s))

theorem powerUp_off {straps : Nat} {a b : Bool} {s : State} (h : s.power.powered = true ∨ (a = false ∧ b = false)) :
    powerUp straps a b s = s := by
  refine if_pos ?_
  rcases h with h | ⟨rfl, rfl⟩
  · rw [h, Bool.true_or]
  · exact Bool.or_true _

theorem powerUp_first {straps : Nat} {a b : Bool} {s : State} (h : s.power.powered = false) (hab : a = true ∨ b = true) :
    powerUp straps a b s = if (strapsRead straps (poweredOn a b s)).power.inReset then strapsRead straps (poweredOn a b s)
      else powerSeq (strapsRead straps (poweredOn a b s)) := by
  refine if_neg ?_
  rw [h]
  rcases hab with rfl | rfl <;> simp

theorem strapsRead_msg (straps : Nat) (s : State) : MsgFrame s (strapsRead straps s) :=
  setFld_msg (setFld_msg (jnlPut_msg (.refl s) _ _) _ _) _ _

theorem fld_strapsRead (straps : BitVec 2) (s : State) : fld (strapsRead straps.toNat s) HUB_RESET_STRAP = straps.toNat :=
  (fld_setFld_same _ _ _ (by decide)).trans (Nat.mod_eq_of_lt straps.isLt)

theorem poweredOn_frame (a b : Bool) (s : State) :
    PwrFrame { s with power := { s.power with powered := true, cold := true } } (poweredOn a b s) :=
  (setFeed_frame _ _ _).trans (setFeed_frame _ _ _)

theorem poweredOn_feeds (a b : Bool) (s : State) : feedIn (poweredOn a b s) false = a ∧ feedIn (poweredOn a b s) true = b :=
  ⟨(feedIn_setFeed_other true b _).trans (feedIn_setFeed_same false a _), feedIn_setFeed_same true b _⟩

/-- What the module is after power-up, before its sequence goes on. -/
theorem powerUp_leaves (straps : BitVec 2) (a b : Bool) (s : State) :
    let t := strapsRead straps.toNat (poweredOn a b s)
    t.power = { s.power with powered := true, cold := true } ∧ feedIn t false = a ∧ feedIn t true = b ∧
      fld t HUB_RESET_STRAP = straps.toNat ∧ t.mem = s.mem ∧ t.lcores = s.lcores := by
  have hm := strapsRead_msg straps.toNat (poweredOn a b s)
  have hp := poweredOn_frame a b s
  obtain ⟨hfa, hfb⟩ := poweredOn_feeds a b s
  refine ⟨?_, (feedIn_congr hm.pwr false).trans hfa, (feedIn_congr hm.pwr true).trans hfb, fld_strapsRead _ _, ?_, ?_⟩
  · rw [hm.power, hp]
  · rw [hm.mem, hp]
  · rw [hm.lcores, hp]

/-! ### Resets (R591) -/

theorem resetParts_kpr (m : Mem) (s : State) : (resetParts m s).kpr.up = false := by
  unfold resetParts
  dsimp only
  rw [(setFeed_frame _ _ _), (setFeed_frame _ _ _), setFld_kpr, setFld_kpr]

theorem resetParts_fab (m : Mem) (s : State) : (resetParts m s).fab = State.reset.fab := by
  unfold resetParts
  dsimp only
  rw [(setFeed_frame _ _ _), (setFeed_frame _ _ _), setFld_fab, setFld_fab]

theorem resetParts_keeps (m : Mem) (s : State) :
    (resetParts m s).mem = m ∧ (resetParts m s).lcores = [] ∧ (resetParts m s).jnl = s.jnl ∧ (resetParts m s).sec.bundles = s.sec.bundles ∧
      (resetParts m s).sec.leafA = s.sec.leafA ∧ (resetParts m s).sec.leafB = s.sec.leafB ∧ (resetParts m s).arc.spaces = s.arc.spaces ∧
      (resetParts m s).host.perst = s.host.perst := by
  unfold resetParts
  dsimp only
  rw [(setFeed_frame _ _ _), (setFeed_frame _ _ _), setFld_mem, setFld_mem, setFld_lcores, setFld_lcores, setFld_jnl, setFld_jnl, setFld_sec,
    setFld_sec, setFld_arc, setFld_arc, setFld_host, setFld_host]
  exact ⟨rfl, rfl, rfl, rfl, rfl, rfl, rfl, rfl⟩

theorem imageHeld_leaves (o s : State) : (imageHeld o s).kpr = s.kpr ∧ (imageHeld o s).fab = s.fab := by
  unfold imageHeld
  cases o.img with
  | none => exact ⟨rfl, rfl⟩
  | some i =>
    dsimp only
    split
    · unfold setStepState
      exact ⟨by rw [setFld_kpr, setFld_kpr, setFld_kpr], by rw [setFld_fab, setFld_fab, setFld_fab]⟩
    · unfold stepIdle
      exact ⟨by rw [setFld_kpr, setFld_kpr], by rw [setFld_fab, setFld_fab]⟩

theorem latStat_regs (d : Nat) (s : State) : RegFrame s (latStat d s) := ((RegFrame.refl s).setFld _ _).setFld _ _

theorem RegFrame.foldl {α : Type} {z : State} {f : State → α → State} (h : ∀ s a, RegFrame s (f s a)) (l : List α) {s : State}
    (hs : RegFrame z s) : RegFrame z (l.foldl f s) := by
  induction l generalizing s with
  | nil => exact hs
  | cons a l ih => exact ih (hs.trans (h s a))

theorem moduleReset_leaves (o : State) : (moduleReset o).kpr.up = false ∧ (moduleReset o).fab = State.reset.fab := by
  unfold moduleReset
  dsimp only
  generalize (if o.img.isSome && imgLevel o == 2 && stepIsOpen o then latchRestart o else latClear (latCancel o)) = u
  obtain ⟨hk, hf⟩ := imageHeld_leaves u (resetParts (hbmOnly u.mem) u)
  rw [RegFrame.foldl (fun s d => (((RegFrame.refl s).setFld _ _).setFld _ _).trans (latStat_regs d _)) (List.range 8) (.refl _)]
  exact ⟨by rw [hk]; exact resetParts_kpr _ _, by rw [hf]; exact resetParts_fab _ _⟩

theorem hubRegs_regs (o : State) (cause : Nat) (retained : Bool) (n : Nat) (s : State) : RegFrame s (hubRegs o cause retained n s) :=
  (((((RegFrame.refl s).setFld _ _).setFld _ _).setFld _ _).setFld _ _).setFld _ _

/-- A module held in reset, its parts being reset. -/
def heldWith (p : PowerSt) (u : State) : State := { u with power := { p with inReset := true, pwrOk := false }, arc := { u.arc with perst := true } }

section
variable (p : PowerSt) (u : State)
theorem heldWith_power : (heldWith p u).power = { p with inReset := true, pwrOk := false } := rfl
theorem heldWith_arc : (heldWith p u).arc = { u.arc with perst := true } := rfl
theorem heldWith_kpr : (heldWith p u).kpr = u.kpr := rfl
theorem heldWith_fab : (heldWith p u).fab = u.fab := rfl
end

theorem fld_hubRegs (o : State) (n : Nat) (s : State) :
    fld (hubRegs o 2 true n s) HUB_RESET_CAUSE = 2 ∧ fld (hubRegs o 2 true n s) HUB_RESET_HBM_RETAINED = 1 := by
  unfold hubRegs
  dsimp only
  rw [fld_setFld_same _ _ _ (by decide), fld_setFld_apart _ _ (by decide) (by decide), fld_setFld_same _ _ _ (by decide)]
  exact ⟨rfl, rfl⟩

theorem modRst_powered {s : State} (hr : s.power.inReset = false) (hp : s.power.powered = true) :
    modRst s = hubRegs s 2 true (satAdd 16 (fld s HUB_RESET_MODULE_RESETS) 1) (heldWith s.power (moduleReset s)) := by
  unfold modRst
  rw [hr, hp]
  rfl

theorem modRst_leaves {s : State} (hr : s.power.inReset = false) (hp : s.power.powered = true) :
    (modRst s).power = { s.power with inReset := true, pwrOk := false } ∧ (modRst s).arc.perst = true ∧ fld (modRst s) HUB_RESET_CAUSE = 2 ∧
      fld (modRst s) HUB_RESET_HBM_RETAINED = 1 ∧ (modRst s).kpr.up = false ∧ (modRst s).fab = State.reset.fab := by
  obtain ⟨hk, hf⟩ := moduleReset_leaves s
  have hreg := hubRegs_regs s 2 true (satAdd 16 (fld s HUB_RESET_MODULE_RESETS) 1) (heldWith s.power (moduleReset s))
  rw [modRst_powered hr hp]
  obtain ⟨hc, hh⟩ := fld_hubRegs s (satAdd 16 (fld s HUB_RESET_MODULE_RESETS) 1) (heldWith s.power (moduleReset s))
  refine ⟨?_, ?_, hc, hh, ?_, ?_⟩
  · rw [hreg, heldWith_power]
  · rw [hreg, heldWith_arc]
  · rw [hreg, heldWith_kpr]
    exact hk
  · rw [hreg, heldWith_fab]
    exact hf

/-! ### PERST (R589) -/

/-- A change of the host's state that leaves its reset inputs. -/
def PerstKept (z s : State) : Prop := s.host.perst = z.host.perst

theorem PerstKept.ite {c : Prop} [Decidable c] {z s t : State} (hs : PerstKept z s) (ht : PerstKept z t) :
    PerstKept z (if c then s else t) := by
  split
  · exact hs
  · exact ht

section
variable {z s : State} (h : PerstKept z s)
include h

theorem MsixOnly.perst {t : State} (k : MsixOnly s t) : PerstKept z t := by
  obtain ⟨m, hm⟩ := k
  unfold PerstKept at *
  rw [hm]
  exact h

theorem setFld_perst (f : Fld) (v : Nat) : PerstKept z (setFld f v s) := by rw [PerstKept, setFld_host]; exact h
theorem addFld_perst (f : Fld) (v : Nat) : PerstKept z (addFld f v s) := by rw [PerstKept, addFld_host]; exact h
theorem jnlPut_perst (k : Nat) (b : List Byte) : PerstKept z (jnlPut k b s) := by rw [PerstKept, jnlPut_host]; exact h
theorem setRing_perst (n q : Nat) (r : CRing) : PerstKept z (setRing n q r s) := h
theorem modTQ_perst (q : Nat) (f : TQueue → TQueue) : PerstKept z (modTQ q f s) := h
theorem report_perst (c : Code) (src : Nat) (d : Word) : PerstKept z (report c src d s) := MsixOnly.perst h (report_msix c src d s)

theorem raiseVec_perst (n v : Nat) : PerstKept z (raiseVec n v s) := by
  unfold raiseVec
  exact .ite (by exact h) (.ite h (by exact h))

theorem ringWrite_perst (n q : Nat) (e : CEnt) : PerstKept z (ringWrite n q e s) := by
  unfold ringWrite
  exact raiseVec_perst (setFld_perst (setRing_perst h _ _ _) _ _) _ _

theorem ringOverflow_perst (n q : Nat) : PerstKept z (ringOverflow n q s) := by
  unfold ringOverflow
  exact .ite (ringWrite_perst (setRing_perst h _ _ _) _ _ _) h

theorem postOn_perst (n q : Nat) (e : CEnt) : PerstKept z (postOn n q e s) := by
  have ho := ringOverflow_perst h n q
  unfold postOn
  exact .ite h (.ite (ringWrite_perst ho _ _ _) (addFld_perst (setRing_perst ho _ _ _) _ _))

theorem orphan_perst (n q : Nat) : PerstKept z (orphan n s q) := by
  unfold orphan
  exact .ite h <| postOn_perst (jnlPut_perst (setFld_perst (modTQ_perst h _ _) _ _) _ _) _ _ _

end

theorem orphans_perst {z : State} (n : Nat) (l : List Nat) {s : State} (h : PerstKept z s) : PerstKept z (l.foldl (orphan n) s) := by
  induction l generalizing s with
  | nil => exact h
  | cons q l ih => exact ih (orphan_perst h n q)

theorem hostDown_perst (n : Nat) (s : State) : (hostDown n s).host.perst = s.host.perst := by
  have hup : PerstKept s { s with host := { s.host with linkUp := s.host.linkUp.set n false } } := rfl
  unfold hostDown hostLost
  exact PerstKept.ite (.ite hup (orphans_perst n _ (report_perst (addFld_perst (setFld_perst hup _ _) _ _) _ _ _))) rfl

/-- The host interface of port `n` in reset. -/
def hostInReset (n : Nat) (u : State) : State := { u with host := { u.host with perst := u.host.perst.set n true } }

theorem hostInReset_perst (n : Nat) (u : State) : (hostInReset n u).host.perst = u.host.perst.set n true := rfl

/-- What the resets of the host side leave: the hosts lose their port, memory and the logical cores stay. -/
theorem perst_leaves (n : Nat) (s : State) :
    (if live s then hostDown n s else s).host.perst = s.host.perst ∧ (if live s then hostDown n s else s).mem = s.mem ∧
      (if live s then hostDown n s else s).lcores = s.lcores := by
  have hm := hostDown_msg (.refl s) n
  split
  · exact ⟨hostDown_perst n s, hm.mem, hm.lcores⟩
  · exact ⟨rfl, rfl, rfl⟩

/-! ### The loss of power (R591) -/

/-- What a loss of power starts from: no feed, no partner's copy, both hosts in reset. -/
def powerGone (s : State) : State :=
  { s with
    pwr := { s.pwr with feedA := false, feedB := false },
    lat := { s.lat with hold := latReset.hold },
    peer := { s.peer with retired := false },
    host := { s.host with perst := [true, true] } }

/-- A module without power, its parts being reset: a level-1 image is known from its ticket in the journal. -/
def lostWith (s u : State) : State :=
  { u with
    power := { powered := false, inReset := s.power.inReset, pwrOk := false, recovery := false, cold := false,
               lossInReset := s.power.inReset && !s.power.cold },
    img := if imgLevel s = 1 then s.img else none,
    arc := { u.arc with perst := true } }

def powerLost (s : State) : State := lostWith s (resetParts ⟨[], []⟩ (powerGone s))

theorem powerLoss_powered {s : State} (h : s.power.powered = true) : powerLoss s = powerLost s := by
  refine if_neg ?_
  rw [h]
  decide

theorem powerLost_leaves (s : State) :
    (powerLost s).mem = ⟨[], []⟩ ∧ (powerLost s).lcores = [] ∧ (powerLost s).jnl = s.jnl ∧ (powerLost s).sec.bundles = s.sec.bundles ∧
      (powerLost s).sec.leafA = s.sec.leafA ∧ (powerLost s).sec.leafB = s.sec.leafB ∧ (powerLost s).arc.spaces = s.arc.spaces ∧
      (powerLost s).host.perst = [true, true] ∧ (powerLost s).arc.perst = true := by
  obtain ⟨hm, hl, hj, hb, ha, hb', hs, hp⟩ := resetParts_keeps ⟨[], []⟩ (powerGone s)
  unfold powerLost
  generalize resetParts ⟨[], []⟩ (powerGone s) = u at hm hl hj hb ha hb' hs hp
  exact ⟨hm, hl, hj, hb, ha, hb', hs, hp, rfl⟩

/-! ### The obligation -/

/-- Settles O57, row by row; a reset's state is the reset of its parts, which keeps the stores. -/
theorem powerAndReset : Obligations.PowerAndReset := by
  unfold Obligations.PowerAndReset
  refine ⟨fun straps a b s => ?powerUp, fun s => ?resets, fun n s => ?perst⟩
  case powerUp =>
    obtain ⟨hp, ha, hb, hst, hm, hl⟩ := powerUp_leaves straps a b s
    have hin : (strapsRead straps.toNat (poweredOn a b s)).power.inReset = s.power.inReset := by rw [hp]
    refine ⟨fun h => congrArg Host.Outcome.next (powerUp_off h), fun h hab hr => ?_, fun h hab hr => ?_⟩
    · exact ⟨_, congrArg Host.Outcome.next ((powerUp_first h hab).trans (if_pos (hin.trans hr))), hp, ha, hb, hst, hm, hl⟩
    · refine ⟨_, congrArg Host.Outcome.next ((powerUp_first h hab).trans (if_neg ?_)), hp, hst⟩
      rw [hin, hr]
      exact Bool.false_ne_true
  case resets =>
    refine ⟨fun h => congrArg Host.Outcome.next (if_pos h), fun hr hp => ?_, fun hr hp => ⟨_, rfl, modRst_leaves hr hp⟩, fun h => ?_,
      fun hr hp => ?_, fun h => ?_, fun h => ?_⟩
    · exact congrArg Host.Outcome.next ((if_neg (by simp [hr])).trans (if_pos (by simp [hp])))
    · exact congrArg Host.Outcome.next (if_pos (by simp [h]))
    · exact congrArg Host.Outcome.next ((if_neg (by simp [hr])).trans (if_neg (by simp [hp])))
    · exact congrArg Host.Outcome.next (if_pos (by simp [h]))
    · exact ⟨_, congrArg Host.Outcome.next (powerLoss_powered h), rfl, rfl, powerLost_leaves s⟩
  case perst =>
    obtain ⟨hp, hm, hl⟩ := perst_leaves n s
    have ho (h : s.power.pwrOk = false) : ¬ s.power.pwrOk = true := by simp [h]
    have hset := hostInReset_perst n (if live s then hostDown n s else s)
    refine ⟨⟨hostInReset n (if live s then hostDown n s else s), rfl, hset.trans (by rw [hp]), hm, hl⟩, fun h => congrArg Host.Outcome.next (if_pos h),
      fun h => ⟨congrArg Host.Outcome.next (if_neg (ho h)), congrArg Host.Outcome.next (if_neg (by simp [h]))⟩,
      fun h hd => congrArg Host.Outcome.next (if_pos (by simp [h, hd]))⟩

end Sys2Proof.Machine
end

section
/-! PROOF. The SPDM responder answers each request with one response (settles O58). -/
namespace Sys2Proof.Machine

/-! ### One response to one request (R575, R576) -/

/-- The state before a response: nothing but the responder's state and free values has changed, and nothing has been sent or counted. -/
structure SpdmReady (s u : State) : Prop where
  frame : u = { s with sec := u.sec, freeCtr := u.freeCtr }
  out : u.sec.out = s.sec.out

/-- What the request `i` is answered with: one response of `code`, which leaves the connection in state `conn`. -/
def SpdmAnswered (e : Nat) (i : Instr) (code conn : Nat) (s : State) : Prop :=
  ∃ t r, exec i s = .next t ∧ t.sec.out = s.sec.out ++ [r] ∧ r.endpoint = e ∧ r.code = code ∧ spdmConn t e = conn ∧
    fld t SEC_COUNT_SPDM_REQUESTS = min (fld s SEC_COUNT_SPDM_REQUESTS + 1) (2 ^ SEC_COUNT_SPDM_REQUESTS.w - 1) ∧
    t = { s with regs := t.regs, sec := t.sec, freeCtr := t.freeCtr }

section
variable {s u : State}

theorem SpdmReady.refl (s : State) : SpdmReady s s := ⟨rfl, rfl⟩

theorem SpdmReady.trans {v : State} (h : SpdmReady s u) (k : SpdmReady u v) : SpdmReady s v := by
  obtain ⟨hf, ho⟩ := h
  obtain ⟨kf, ko⟩ := k
  exact ⟨by rw [kf, hf], ko.trans ho⟩

theorem SpdmReady.script (h : SpdmReady s u) (e : Nat) (b : List Byte) : SpdmReady s (setScript e b u) := h.trans ⟨rfl, rfl⟩
theorem SpdmReady.conn (h : SpdmReady s u) (e v : Nat) : SpdmReady s (setConn e v u) := h.trans ⟨rfl, rfl⟩
theorem SpdmReady.nonce (h : SpdmReady s u) : SpdmReady s (freshNonce u).2 := h.trans ⟨rfl, rfl⟩
theorem SpdmReady.sign (h : SpdmReady s u) (text : List Byte) : SpdmReady s (aliasSign text u).2 := h.trans ⟨rfl, rfl⟩

theorem SpdmReady.count (h : SpdmReady s u) : fld u SEC_COUNT_SPDM_REQUESTS = fld s SEC_COUNT_SPDM_REQUESTS := by
  rw [h.frame]
  rfl

/-- The response of a state that is ready. -/
theorem spdmSend_answered {e code conn : Nat} {i : Instr} {p : List Byte} (h : SpdmReady s u) (hc : spdmConn u e = conn)
    (he : exec i s = .next (spdmSend e code p u)) : SpdmAnswered e i code conn s := by
  refine ⟨_, ⟨e, code, p⟩, he, ?_, rfl, rfl, hc, ?_, ?_⟩
  · exact congrArg (· ++ _) h.out
  · exact (fld_addFld_same _ _ _ (by decide)).trans (by rw [← h.count]; rfl)
  · have hf := h.frame
    unfold spdmSend
    generalize u.sec.out ++ [⟨e, code, p⟩] = o
    rw [hf]
    rfl

end

theorem spdmConn_setConn {e v : Nat} {s : State} (h : e < s.sec.conns.length) : spdmConn (setConn e v s) e = v := by
  have hl : e < (s.sec.conns.set e v).length := by rw [List.length_set]; exact h
  exact (List.getD_eq_getElem _ _ hl).trans (List.getElem_set_self _)

/-- A response in a connection that goes on to the state `v`. -/
theorem setConn_spdmSend (e v code : Nat) (p : List Byte) (s : State) :
    setConn e v (spdmSend e code p s) = spdmSend e code p (setConn e v s) := rfl

section
variable {e need code : Nat} {req : List Byte} {payload : State → List Byte} {s : State}

theorem spdmAnswer_due (hon : spdmOn s e = true) (hc : spdmConn s e = need) :
    spdmAnswer e need req code payload s =
      spdmSend e code (payload s) (setScript e (spdmScript s e ++ req ++ leBytes 1 code ++ payload s) s) := by
  unfold spdmAnswer
  rw [hon]
  exact (if_neg (by decide)).trans (if_neg (not_not.2 hc))

theorem spdmAnswer_early (hon : spdmOn s e = true) (hc : spdmConn s e ≠ need) :
    spdmAnswer e need req code payload s = spdmError e errUnexpected 0 s := by
  unfold spdmAnswer
  rw [hon]
  exact (if_neg (by decide)).trans (if_pos hc)

end

/-- An error is a response as well, and leaves the connection as it was. -/
theorem spdmError_answered {e err data : Nat} {i : Instr} {s : State} (he : exec i s = .next (spdmError e err data s)) :
    SpdmAnswered e i 0x7F (spdmConn s e) s := spdmSend_answered (.refl s) rfl he

theorem spdmError_answered_in {e err data conn : Nat} {i : Instr} {s : State} (hc : spdmConn s e = conn)
    (he : exec i s = .next (spdmError e err data s)) : SpdmAnswered e i 0x7F conn s := spdmSend_answered (.refl s) hc he

/-! ### The requests -/

theorem challenge_early {e slot nonce : Nat} {s : State} (hon : spdmOn s e = true) (hc : spdmConn s e ≠ 3) :
    challenge e slot nonce s = spdmError e errUnexpected 0 s := by
  unfold challenge
  rw [hon]
  exact (if_neg (by decide)).trans (if_pos hc)

theorem getMeasurements_early {e index nonce : Nat} {signed : Bool} {s : State} (hon : spdmOn s e = true) (hc : spdmConn s e ≠ 3) :
    getMeasurements e index signed nonce s = spdmError e errUnexpected 0 s := by
  unfold getMeasurements
  rw [hon]
  exact (if_neg (by decide)).trans (if_pos hc)

theorem spdmSigned_eq (e : Nat) (req : List Byte) (code : Nat) (payload : List Byte) (s : State) :
    ∃ p text, spdmSigned e req code payload s = spdmSend e code p (aliasSign text s).2 :=
  ⟨_, spdmScript s e ++ req ++ leBytes 1 code ++ payload, rfl⟩

theorem challenge_due {e nonce : Nat} {s : State} (hon : spdmOn s e = true) (hc : spdmConn s e = 3) :
    ∃ p text, challenge e 0 nonce s = spdmSend e 0x03 p (aliasSign text (freshNonce s).2).2 := by
  have he : challenge e 0 nonce s = spdmSigned e (spdmMsg 0x83 0 0 (leBytes 32 nonce)) 0x03
      (leBytes 1 0 ++ leBytes 1 1 ++ sha256 (chain s) ++ (freshNonce s).1 ++ leBytes 2 0) (freshNonce s).2 := by
    unfold challenge
    rw [hon]
    exact (if_neg (by decide)).trans ((if_neg (not_not.2 hc)).trans (if_neg (by decide)))
  rw [he]
  exact spdmSigned_eq _ _ _ _ _

theorem measBlocks_reported {i : BitVec 8} (h : i.toNat ≤ 7 ∨ i = 255) (s : State) : ∃ nb, measBlocks s i.toNat = some nb := by
  unfold measBlocks
  split
  · exact ⟨_, rfl⟩
  · split
    · exact ⟨_, rfl⟩
    · rcases h with h | rfl
      · exact ⟨_, if_pos h⟩
      · rename_i hne
        exact absurd rfl hne

theorem measBlocks_none {i : BitVec 8} (h : 7 < i.toNat) (hne : i ≠ 255) (s : State) : measBlocks s i.toNat = none := by
  have h0 : ¬ i.toNat = 0 := by omega
  have h255 : ¬ i.toNat = 255 := fun hi => hne (BitVec.eq_of_toNat_eq hi)
  exact (if_neg h0).trans ((if_neg h255).trans (if_neg (Nat.not_le.2 h)))

theorem getMeasurements_none {e index nonce : Nat} {signed : Bool} {s : State} (hon : spdmOn s e = true) (hc : spdmConn s e = 3)
    (h : measBlocks s index = none) : getMeasurements e index signed nonce s = spdmError e errInvalid 0 s := by
  unfold getMeasurements
  rw [hon, h]
  exact (if_neg (by decide)).trans (if_neg (not_not.2 hc))

/-- A measurement's response, signed or not, leaves a state that was ready. -/
theorem getMeasurements_due {e index nonce : Nat} {signed : Bool} {s : State} (hon : spdmOn s e = true) (hc : spdmConn s e = 3)
    (h : ∃ nb, measBlocks s index = some nb) :
    ∃ p u, getMeasurements e index signed nonce s = spdmSend e 0x60 p u ∧ SpdmReady s u ∧ spdmConn u e = 3 := by
  obtain ⟨⟨n, b⟩, hnb⟩ := h
  unfold getMeasurements
  rw [hon, hnb, if_neg (by decide), if_neg (not_not.2 hc)]
  cases signed with
  | true =>
    obtain ⟨p, text, he⟩ := spdmSigned_eq e (spdmMsg 0xE0 1 index (leBytes 32 nonce ++ leBytes 1 0)) 0x60
      (leBytes 1 (if index = 0 then 7 else 0) ++ leBytes 1 0 ++ leBytes 1 n ++ leBytes 3 b.length ++ b ++ (freshNonce s).1 ++ leBytes 2 0)
      (freshNonce s).2
    exact ⟨p, _, he, (SpdmReady.refl s).nonce.sign text, hc⟩
  | false => exact ⟨_, _, rfl, (SpdmReady.refl s).nonce.script _ _, hc⟩

/-! ### The obligation -/

/-- Settles O58: every row sends one response from a state that differs in the responder's own state alone. -/
theorem spdmAnswers : Obligations.SpdmAnswers := by
  unfold Obligations.SpdmAnswers
  intro e s hon hlen
  have hlt : e.val < s.sec.conns.length := by rw [hlen]; exact e.isLt
  have hknown (code : BitVec 8) (h : spdmKnown code.toNat = true) : ¬ (spdmOn s e && !spdmKnown code.toNat) = true := by
    rw [h, Bool.not_true, Bool.and_false]
    exact Bool.false_ne_true
  refine ⟨?version, fun hc => ?caps, fun hc => ?algs, fun hc => ⟨?digests, fun off len => ?cert, fun nonce => ?challenge, fun i sg nonce hi => ?meas,
    fun slot off len hs => ?badSlot, fun i sg nonce hi hne => ?badMeas⟩, fun hc => ?capsEarly, fun hc => ?algsEarly, fun hc => ⟨?digestsEarly,
    fun slot nonce => spdmError_answered (congrArg Host.Outcome.next (challenge_early hon hc)),
    fun i sg nonce => spdmError_answered (congrArg Host.Outcome.next (getMeasurements_early hon hc))⟩,
    fun code h => spdmError_answered (congrArg Host.Outcome.next (if_pos (by rw [hon, h]; rfl))),
    fun code h => congrArg Host.Outcome.next (if_neg (hknown code h))⟩
  case version =>
    exact spdmSend_answered (((SpdmReady.refl s).script _ _).conn e 1) (spdmConn_setConn hlt)
      (congrArg Host.Outcome.next (if_neg (by rw [hon]; decide)))
  case caps =>
    have hgo : (spdmOn s e && spdmConn s e == 1) = true := by rw [hon, hc]; rfl
    exact spdmSend_answered (((SpdmReady.refl s).script e _).conn e 2) (spdmConn_setConn hlt)
      (congrArg Host.Outcome.next ((if_pos hgo).trans (by rw [spdmAnswer_due hon hc, setConn_spdmSend])))
  case algs =>
    have hgo : (spdmOn s e && spdmConn s e == 2) = true := by rw [hon, hc]; rfl
    exact spdmSend_answered (((SpdmReady.refl s).script e _).conn e 3) (spdmConn_setConn hlt)
      (congrArg Host.Outcome.next ((if_pos hgo).trans (by rw [spdmAnswer_due hon hc, setConn_spdmSend])))
  case digests => exact spdmSend_answered ((SpdmReady.refl s).script e _) hc (congrArg Host.Outcome.next (spdmAnswer_due hon hc))
  case cert =>
    have hz : ¬ (spdmOn s e && spdmConn s e == 3 && (0 : BitVec 8).toNat != 0) = true := by rw [hon, hc]; decide
    exact spdmSend_answered ((SpdmReady.refl s).script e _) hc (congrArg Host.Outcome.next ((if_neg hz).trans (spdmAnswer_due hon hc)))
  case challenge =>
    obtain ⟨p, text, he⟩ := challenge_due (nonce := nonce.toNat) hon hc
    exact spdmSend_answered ((SpdmReady.refl s).nonce.sign text) hc (congrArg Host.Outcome.next he)
  case meas =>
    obtain ⟨p, u, he, hr, hu⟩ := getMeasurements_due (signed := sg) (nonce := nonce.toNat) hon hc (measBlocks_reported hi s)
    exact spdmSend_answered hr hu (congrArg Host.Outcome.next he)
  case badSlot =>
    have hne : slot.toNat ≠ 0 := fun h => hs (BitVec.eq_of_toNat_eq h)
    have hbad : (spdmOn s e && spdmConn s e == 3 && slot.toNat != 0) = true := by rw [hon, hc]; simp [hne]
    exact spdmError_answered_in hc (congrArg Host.Outcome.next (if_pos hbad))
  case badMeas =>
    exact spdmError_answered_in hc (congrArg Host.Outcome.next (getMeasurements_none hon hc (measBlocks_none hi hne s)))
  case capsEarly =>
    have hno : ¬ (spdmOn s e && spdmConn s e == 1) = true := by simp [hc]
    exact spdmError_answered (congrArg Host.Outcome.next ((if_neg hno).trans (spdmAnswer_early hon hc)))
  case algsEarly =>
    have hno : ¬ (spdmOn s e && spdmConn s e == 2) = true := by simp [hc]
    exact spdmError_answered (congrArg Host.Outcome.next ((if_neg hno).trans (spdmAnswer_early hon hc)))
  case digestsEarly => exact spdmError_answered (congrArg Host.Outcome.next (spdmAnswer_early hon hc))

end Sys2Proof.Machine
end

section
/-! PROOF. What the latch's operations leave of the accepted cuts and of a register elsewhere (for O60). -/
namespace Sys2Proof.Machine

/-- The accepted cuts stand, and the fields of the register at `a`. -/
def CutsStand (a : Nat) (z s : State) : Prop := s.lat.cuts = z.lat.cuts ∧ ∀ g : Fld, g.addr = a → fld s g = fld z g

theorem CutsStand.refl (a : Nat) (s : State) : CutsStand a s s := ⟨rfl, fun _ _ => rfl⟩

theorem CutsStand.trans {a : Nat} {s t u : State} (h : CutsStand a s t) (k : CutsStand a t u) : CutsStand a s u := by
  obtain ⟨hc, hf⟩ := h
  obtain ⟨kc, kf⟩ := k
  exact ⟨kc.trans hc, fun g hg => (kf g hg).trans (hf g hg)⟩

theorem CutsStand.ite {a : Nat} {c : Prop} [Decidable c] {z s t : State} (hs : CutsStand a z s) (ht : CutsStand a z t) :
    CutsStand a z (if c then s else t) := by
  split
  · exact hs
  · exact ht

theorem CutsStand.foldl {α : Type} {a : Nat} {z : State} {f : State → α → State} (h : ∀ s x, CutsStand a z s → CutsStand a z (f s x))
    (l : List α) {s : State} (hs : CutsStand a z s) : CutsStand a z (l.foldl f s) := by
  induction l generalizing s with
  | nil => exact hs
  | cons x l ih => exact ih (h s x hs)

section
variable {a : Nat} {z s : State} (h : CutsStand a z s)
include h

/-- What changes neither registers nor the cuts. -/
theorem CutsStand.same {t : State} (hc : t.lat.cuts = s.lat.cuts) (hr : ∀ g, fld t g = fld s g) : CutsStand a z t :=
  h.trans ⟨hc, fun g _ => hr g⟩

theorem CutsStand.setFld {f : Fld} (hf : f.lo + f.w ≤ 64) (ha : f.addr ≠ a) (v : Nat) : CutsStand a z (setFld f v s) :=
  h.trans ⟨by rw [setFld_lat], fun _ hg => fld_setFld_apart _ _ hf (fldApart_of (.inl (hg ▸ ha)))⟩

theorem setGran_stand (g : Nat) (e : Gran) : CutsStand a z (setGran g e s) := h.same rfl fun _ => rfl
theorem dirPut_stand (k : Nat) (e : Option DirEnt) : CutsStand a z (dirPut k e s) := h.same rfl fun _ => rfl
theorem withJobs_stand (js : List CopyJob) : CutsStand a z { s with lat := { s.lat with jobs := js } } := h.same rfl fun _ => rfl
theorem withMem_stand (m : Mem) : CutsStand a z { s with mem := m } := h.same rfl fun _ => rfl
theorem clearBad_stand (b n : Nat) : CutsStand a z (clearBad b n s) := h.same rfl fun _ => rfl

theorem hbmLand_stand (b : Nat) (bs : List Byte) : CutsStand a z (hbmLand b bs s) := by
  unfold hbmLand
  exact clearBad_stand (withMem_stand (CutsStand.foldl (fun _ _ hs => setGran_stand hs _ _) _ h) _) _ _

theorem granLand_stand (w : HWrite) : CutsStand a z (granLand w s) := hbmLand_stand h _ _

theorem jobsStart_stand (d n : Nat) : CutsStand a z (jobsStart d n s) := by
  induction n generalizing s with
  | zero => exact h
  | succ n ih =>
    unfold jobsStart
    refine .ite h ?_
    split
    · exact ih (withJobs_stand h _)
    · exact h

theorem copyDrop_stand (g : Nat) : CutsStand a z (copyDrop g s) := by
  unfold copyDrop
  exact CutsStand.foldl (fun _ _ hs => granLand_stand hs _) _ (setGran_stand (withJobs_stand h _) _ _)

end

/-! The operations that show a die's copies write `LAT_DIE_STAT` of the die. -/

section
variable {a : Nat} (ha : ∀ d, rLAT_DIE_STAT d ≠ a) {z s : State} (h : CutsStand a z s)
include ha h

theorem latStat_stand (d : Nat) : CutsStand a z (latStat d s) := by
  unfold latStat
  exact (h.setFld (Nat.le_of_ble_eq_true rfl) (ha d) _).setFld (Nat.le_of_ble_eq_true rfl) (ha d) _

theorem granCopy_stand (g : Nat) (held : List HWrite) : CutsStand a z (granCopy g held s) := by
  unfold granCopy
  exact latStat_stand ha (jobsStart_stand (withJobs_stand (setGran_stand h _ _) _) _ _) _

theorem granPut_stand (g : Nat) (w : HWrite) : CutsStand a z (granPut g w s) := by
  unfold granPut
  exact .ite (setGran_stand h _ _) (.ite (granCopy_stand ha h _ _) (granLand_stand h _))

theorem hbmPut_stand (b : Nat) (bs : List Byte) : CutsStand a z (hbmPut b bs s) :=
  CutsStand.foldl (fun _ _ hs => granPut_stand ha hs _ _) _ h

theorem cutRelease_stand (g : Nat) : CutsStand a z (cutRelease g s) := by
  unfold cutRelease
  dsimp only
  split
  · exact h
  · exact .ite h (latStat_stand ha (jobsStart_stand (setGran_stand (.ite (dirPut_stand h _ _) (dirPut_stand h _ _)) _ _) _ _) _)

theorem cutClear_stand (b : Bool) (g : Nat) : CutsStand a z (cutClear b g s) := by
  unfold cutClear
  exact cutRelease_stand ha (setGran_stand h _ _) _

theorem cutClearAll_stand (b c : Bool) : CutsStand a z (cutClearAll b c s) := by
  unfold cutClearAll
  exact CutsStand.foldl (fun s p hs => .ite hs (cutClear_stand ha (.ite (setGran_stand hs _ _) hs) _ _)) _ h

theorem latCommit_stand : CutsStand a z (latCommit s) := by
  unfold latCommit
  refine CutsStand.foldl (fun s d hs => latStat_stand ha (jobsStart_stand (hs.setFld (Nat.le_of_ble_eq_true rfl) (ha d) _) _ _) _) _
    (CutsStand.foldl (fun s p hs => ?_) _ h)
  have hd : CutsStand a z (match (getGran s p.1).stepCopy with
      | none => s
      | some k => if (getGran s p.1).cutCopy = some k then dirPut k ((smFind s.lat.dir k).map fun x => { x with step := false }) s
                  else dirPut k none s) := by
    cases (getGran s p.1).stepCopy with
    | none => exact hs
    | some k => exact .ite (dirPut_stand hs _ _) (dirPut_stand hs _ _)
  exact .ite (.ite (setGran_stand (withJobs_stand hd _) _ _) (copyDrop_stand hd _)) (setGran_stand hd _ _)

end

/-! ### A commit leaves the accepted cuts -/

theorem rLAT_DIE_STAT_ne_step (d : Nat) : rLAT_DIE_STAT d ≠ rRDU_STEP_STAT := by
  simp only [rLAT_DIE_STAT, rRDU_STEP_STAT]
  omega

theorem foldl_lat {α : Type} {f : State → α → State} (h : ∀ s x, (f s x).lat = s.lat) (l : List α) (s : State) : (l.foldl f s).lat = s.lat := by
  induction l generalizing s with
  | nil => rfl
  | cons x l ih => exact (ih _).trans (h s x)

theorem assignUnits_lat (s : State) : (assignUnits s).lat = s.lat := by
  unfold assignUnits
  exact foldl_lat (fun s u => setFld_lat _ _ s) _ _

theorem commitCore_lat (s : State) : (commitCore s).lat = (latCommit (modAllL commitDone s)).lat := by
  unfold commitCore
  dsimp only
  rw [stepIdle, setFld_lat, setFld_lat, assignUnits_lat]

theorem commitCore_cuts (s : State) : (commitCore s).lat.cuts = s.lat.cuts := by
  obtain ⟨hc, -⟩ := latCommit_stand rLAT_DIE_STAT_ne_step (.refl _ (modAllL commitDone s))
  rw [commitCore_lat]
  exact hc

theorem postWrite_cuts (s : State) : (postWrite s).lat.cuts = s.lat.cuts := by
  unfold postWrite
  cases s.img with
  | none => rfl
  | some i =>
    refine (CutsStand.foldl (a := rRDU_STEP_STAT) (z := s) (fun t p ht => ?_) _ (.refl _ s)).1
    dsimp only
    split
    · refine .ite ?_ ht
      exact (hbmPut_stand rLAT_DIE_STAT_ne_step ht _ _).same rfl fun _ => rfl
    · exact ht

theorem completeTickets_lat (l : List PostRef) (s : State) : (l.foldl (fun s p => completeTicket p.q p.seq cOK 0 false s) s).lat = s.lat := by
  induction l generalizing s with
  | nil => rfl
  | cons p l ih => exact (ih _).trans (completeTicket_msg (.refl s) _ _ _ _ _).lat

theorem postsCommit_cuts (s : State) : (postsCommit s).lat.cuts = s.lat.cuts := by
  unfold postsCommit
  split
  · rfl
  · dsimp only
    rw [postWrite_cuts]
    generalize hu : List.foldl _ s _ = u
    have hl : u.lat = s.lat := by rw [← hu]; exact completeTickets_lat _ s
    cases u.img with
    | none => rw [hl]
    | some i => exact congrArg LatSt.cuts hl

theorem storesLanded_lat (s : State) : (storesLanded s).lat = s.lat := rfl

/-- The cuts that wait at a commit are those that waited before it. -/
theorem committed_cuts (s : State) : (postsCommit (heldAcks (storesLanded (commitCore s)))).lat.cuts = s.lat.cuts := by
  have hh : (heldAcks (storesLanded (commitCore s))).lat = (storesLanded (commitCore s)).lat := (heldAcks_frame _).msg.lat
  rw [postsCommit_cuts, hh, storesLanded_lat, commitCore_cuts]

theorem committed_next {s : State} {i : Image} (hi : s.img = some i) :
    (postsCommit (heldAcks (storesLanded (commitCore s)))).step.next = s.step.next + 1 := by
  obtain ⟨hstep, himg⟩ := commitCore_step s
  generalize commitCore s = c at hstep himg
  have hh := (heldAcks_frame (storesLanded c)).msg
  have himg' : (heldAcks (storesLanded c)).img = some i := by rw [hh.img, storesLanded_img, himg, hi]
  obtain ⟨-, hst⟩ := postsCommit_posts ⟨himg', rfl⟩
  have hnext : c.step.next = s.step.next + 1 := by rw [hstep]
  rw [hst, hh.step, storesLanded_step, hnext]

end Sys2Proof.Machine
end

section
/-! PROOF. The step's commands at their plainest: votes, designations, aborts and repeats (for O60). -/
namespace Sys2Proof.Machine

theorem setStepState_mem (v : Nat) (s : State) : (setStepState v s).mem = s.mem := by
  rw [setStepState, setFld_mem, setFld_mem, setFld_mem]

theorem readyVote_votes {s : State} (h : shareReady s = true) : fld (readyVote s) RDU_STEP_STAT_STATE = 2 ∧
    (readyVote s).mem = s.mem ∧ (readyVote s).lcores = s.lcores := by
  have he : readyVote s = sendRoot (.vote (ownMsg s)) (setStepState 2 s) := by rw [readyVote, if_neg (by simp [h])]
  have hf := sendRoot_frame (.vote (ownMsg s)) (setStepState 2 s)
  rw [he, hf.fld, hf.msg.mem, hf.msg.lcores, setStepState_mem, setStepState_lcores]
  exact ⟨fld_setStepState 2 s, rfl, rfl⟩

/-! ### The step's boundaries -/

section
variable {s : State} (hs : live s = true)
include hs

theorem readyVote_row (h : shareReady s = true) : ∃ t, exec .readyVote s = .next t ∧ fld t RDU_STEP_STAT_STATE = 2 ∧
    t.mem = s.mem ∧ t.lcores = s.lcores :=
  ⟨_, exec_live rfl hs rfl, readyVote_votes h⟩

theorem commitBoundary_row {i : Image} {f : Nat} (hl : isLocked s = true) (hst : stepState s = 2)
    (hc : s.step.commitF = some (s.step.next, f)) (hf : f ≤ s.frame.f) (hi : s.img = some i) (hp : i.faultPend = none)
    (hr : i.stopReq = none) (hfs : s.step.failedStacks = []) (hcut : s.lat.cuts = []) :
    exec .commitBoundary s = .next (pumpAll (openGap (portsOwed (ceFence (postsCommit (heldAcks (storesLanded (commitCore s)))))))) := by
  obtain ⟨⟨ps, n, himg⟩, hfail⟩ := committed_img hi hfs
  have hnone : cutDue (postsCommit (heldAcks (storesLanded (commitCore s)))) = none := cutDue_none ((committed_cuts s).trans hcut)
  have he : commitDo s = pumpAll (openGap (portsOwed (ceFence (postsCommit (heldAcks (storesLanded (commitCore s))))))) := by
    rw [commitDo_goesOn rfl hfail himg hp hr, hnone, Option.elim_none]
  exact exec_live rfl hs ((if_pos (commitReady_of hl hst hc hf)).trans he)

theorem contributionDeadline_row {b : Bucket} (hl : isLocked s = true) (hst : stepState s = 1) (hb : s.step.buckets = [b])
    (hd : b.done = false) (hr : b.reported = false) (hdue : (s.step.refFrame + b.deadline) * 65536 < (sysTime s).toNat)
    (hturn : inTurn s 6 ((s.step.refFrame + b.deadline) * 65536 + 1) = true) (hid : b.id ≠ 0) :
    ∃ t, exec (.contributionDeadline b.id) s = .next t ∧ t.step.buckets = [{ b with reported := true }] ∧ t.mem = s.mem ∧
      t.lcores = s.lcores := by
  have hget : getBucket s b.id = some b := by simp [getBucket, hb]
  have he : exec (.contributionDeadline b.id) s = .next (contributionDeadline b.id s) := by
    refine (liveNext_of_live hs _).trans ?_
    rw [hget, if_pos hturn]
  have hm (k : LateKind) (c : Ctl) (u : State) : MsgFrame u
      (sendRoot c (if k = .late then report cSTEP_LATE (srcOf 8 8 0) (BitVec.ofNat 64 b.id.toNat) u else u)) :=
    MsgFrame.trans (.ite (report_msg (.refl u) _ _ _) (.refl u)) (sendRoot_frame _ _).msg
  rw [contributionDeadline_only hl hst hb hd hr hdue hid] at he
  dsimp only at he
  have hm := hm (if b.shares = b.launched.length then LateKind.waiting else .late)
    (.report (ownKind s (if b.shares = b.launched.length then LateKind.waiting else .late) b.id))
    { s with step := { s.step with buckets := [{ b with reported := true }] } }
  exact ⟨_, he, by rw [hm.step], hm.mem, hm.lcores⟩

theorem collectionClose_row {f : Nat} (hc : s.step.closeF = some f) (ha : actsRoot s = true) (hl : isLocked s = true) (hf : f ≤ s.frame.f)
    (hst : stepState s = 3) (h1 : lateMembers s = []) (h2 : missingMembers s = []) (hn : s.step.next < 2 ^ 64) (hat : s.step.attempt < 255) :
    ∃ t, exec .collectionClose s = .next t ∧
      t.step.repeatF = some (s.step.attempt + 1, s.frame.f + fld s RDU_STEP_CTRL_RESTART_LEAD, s.step.holds != []) ∧
      t.step.closeF = none ∧ t.lcores = s.lcores := by
  have hnext : (BitVec.ofNat 64 s.step.next).toNat = s.step.next := Nat.mod_eq_of_lt hn
  have hatt : (BitVec.ofNat 8 (s.step.attempt + 1)).toNat = s.step.attempt + 1 := Nat.mod_eq_of_lt (by omega)
  have he := exec_live (t := collectionClose s) (i := .collectionClose) rfl hs (collectionClose_all hc ha hl hf h1 h2)
  dsimp only at he
  generalize hd : Designation.mk (BitVec.ofNat 64 s.step.next) (BitVec.ofNat 8 (s.step.attempt + 1))
    (s.frame.f + fld s RDU_STEP_CTRL_RESTART_LEAD) (s.step.holds != []) [] = d at he
  obtain ⟨g, hv⟩ := (designate_frame (.repeatD d) { s with step := { s.step with closeF := none, prevLate := [] } }).exists
  rw [hv, repeatTake_restoring (by exact hst) (by rw [← hd]; exact hnext) (by rw [← hd]; exact hatt) (by rw [← hd])] at he
  refine ⟨_, he, ?_, rfl, rfl⟩
  rw [← hd]
  simp only [hatt]

end

/-! ### The messages of members -/

/-- The members whose holds are noted when one more comes. -/
def holdsWith (m : Member) (hs : List Member) : List Member := if hs.contains m then hs else hs ++ [m]

theorem mem_holdsWith (m : Member) (hs : List Member) : m ∈ holdsWith m hs := by
  unfold holdsWith
  split
  next h => exact List.elem_iff.1 h
  next => exact List.mem_append_right _ List.mem_cons_self

section
variable {m : MemberMsg} {s : State} (hs : live s = true) (hn : m.step.toNat = s.step.next)
include hs hn

theorem readyVoteReceived_row (ho : inOrder (ctlIs (.vote m)) s = true) (ha : actsRoot s = false ∨ s.step.tallied = true) :
    ∃ t, exec (.readyVoteReceived m) s = .next t ∧ (m.member, m.attempt.toNat) ∈ t.step.votes ∧ (∀ v ∈ s.step.votes, v ∈ t.step.votes) ∧
      t.mem = s.mem ∧ t.lcores = s.lcores := by
  obtain ⟨f, hv⟩ := (takeCtl_frame (.vote m) s).exists
  have hwait (u : State) (hu : actsRoot u = actsRoot s) (ht : u.step.tallied = s.step.tallied) : tally u = u := by
    refine if_pos ?_
    rcases ha with ha | ha
    · simp [hu, ha]
    · simp [ht, ha]
  have he := exec_ordered_of (t := voteReceived m s) (i := .readyVoteReceived m) rfl hs ho
  rw [voteReceived_eq, if_neg (not_not_intro hn), hv] at he
  by_cases hc : s.step.votes.contains (m.member, m.attempt.toNat) = true
  · rw [if_pos hc, hwait _ (by rfl) (by rfl)] at he
    exact ⟨_, he, List.elem_iff.1 hc, fun v h => h, rfl, rfl⟩
  · rw [if_neg hc, hwait _ (by rfl) (by rfl)] at he
    exact ⟨_, he, List.mem_append_right _ List.mem_cons_self, fun v h => List.mem_append_left _ h, rfl, rfl⟩

theorem recoveryHold_row (ho : inOrder (ctlIs (.hold m)) s = true) (ha : m.attempt.toNat = s.step.attempt + 1) :
    ∃ t, exec (.recoveryHold m) s = .next t ∧ m.member ∈ t.step.holds ∧ t.mem = s.mem ∧ t.lcores = s.lcores := by
  obtain ⟨f, hv⟩ := (takeCtl_frame (.hold m) s).exists
  have he := exec_ordered_of (t := recoveryHold m s) (i := .recoveryHold m) rfl hs ho
  refine ⟨_, he, ?_⟩
  have hm := mem_holdsWith m.member s.step.holds
  unfold recoveryHold
  rw [hv]
  dsimp only
  rw [if_neg (by simp [hn, ha]), ← holdsWith]
  split
  · split
    · generalize Ctl.repeatD _ = c
      generalize hu : State.mk _ _ _ _ _ _ _ _ _ _ _ _ _ _ _ _ _ _ _ _ _ _ _ = u
      have hd := (designate_frame c u).msg
      rw [hd.step, hd.mem, hd.lcores, ← hu]
      exact ⟨hm, rfl, rfl⟩
    · exact ⟨hm, rfl, rfl⟩
  · exact ⟨hm, rfl, rfl⟩

theorem recoveryRelease_row (ho : inOrder (ctlIs (.release m)) s = true) (hh : s.step.holds = [m.member]) (ha : actsRoot s = false) :
    ∃ t, exec (.recoveryRelease m) s = .next t ∧ t.step = { s.step with holds := [] } ∧ t.mem = s.mem ∧ t.lcores = s.lcores := by
  obtain ⟨f, hv⟩ := (takeCtl_frame (.release m) s).exists
  have he := exec_ordered_of (t := recoveryRelease m s) (i := .recoveryRelease m) rfl hs ho
  have hfilter : s.step.holds.filter (· != m.member) = [] := by rw [hh]; simp
  have hr : recoveryRelease m s = { s with fab := f, step := { s.step with holds := [] } } := by
    have hroot : actsRoot { s with fab := f, step := { s.step with holds := [] } } = false := ha
    unfold recoveryRelease
    rw [hv]
    dsimp only
    rw [if_neg (by simp [hn, hh]), hfilter]
    split
    · exact if_neg (by rw [hroot, Bool.false_and]; exact Bool.false_ne_true)
    · rfl
  rw [hr] at he
  exact ⟨_, he, rfl, rfl, rfl⟩

end

/-! ### Designations -/

section
variable {d : Designation} {s : State} (hs : live s = true) (hn : d.step.toNat = s.step.next)
include hs hn

theorem commitDesignation_row (ho : inOrder (ctlIs (.commit d)) s = true) (hst : stepState s = 2) (ha : d.attempt.toNat = s.step.attempt)
    (hc : s.step.commitF = none) (hf : isLocked s = false ∨ s.frame.f < d.frame) :
    ∃ t, exec (.commitDesignation d) s = .next t ∧ t.step = { s.step with commitF := some (s.step.next, d.frame) } ∧ t.mem = s.mem ∧
      t.lcores = s.lcores := by
  have hp := (passOn_frame (.commit d) s).msg
  have he := exec_ordered_of (t := commitDesignation d s) (i := .commitDesignation d) rfl hs ho
  have hlate : ¬ (isLocked s && decide (d.frame ≤ s.frame.f)) = true := by
    rcases hf with h | h
    · simp [h]
    · simp only [Bool.and_eq_true, decide_eq_true_eq]
      omega
  rw [commitDesignation_eq hst hn ha hc] at he
  dsimp only at he
  rw [if_neg hlate] at he
  exact ⟨_, he, rfl, hp.mem, hp.lcores⟩

theorem repeatDesignation_row (ho : inOrder (ctlIs (.repeatD d)) s = true) (hseen : desigSeen s (.repeatD d) = false)
    (hst : stepState s = 3) (ha : d.attempt.toNat = s.step.attempt + 1) (hesc : d.escalated = []) :
    ∃ t, exec (.repeatDesignation d) s = .next t ∧ t.step = { s.step with repeatF := some (d.attempt.toNat, d.frame, d.held) } ∧
      t.mem = s.mem ∧ t.lcores = s.lcores := by
  obtain ⟨f, hv⟩ := (passOn_frame (.repeatD d) s).exists
  have he := exec_ordered_of (t := desigOnce (.repeatD d) s (repeatTake d (passOn (.repeatD d) s))) (i := .repeatDesignation d) rfl hs ho
  rw [desigOnce_first hseen, hv, repeatTake_restoring (s := { s with fab := f }) hst hn ha hesc] at he
  exact ⟨_, he, rfl, rfl, rfl⟩

theorem resumeDesignation_row {a f : Nat} (ho : inOrder (ctlIs (.resume d)) s = true) (hseen : desigSeen s (.resume d) = false)
    (hr : s.step.repeatF = some (a, f, true)) (ha : d.attempt.toNat = a) :
    ∃ t, exec (.resumeDesignation d) s = .next t ∧ t.step = { s.step with repeatF := some (a, d.frame, false) } ∧ t.mem = s.mem ∧
      t.lcores = s.lcores := by
  obtain ⟨g, hv⟩ := (passOn_frame (.resume d) s).exists
  have he := exec_ordered_of (t := desigOnce (.resume d) s (resumeTake d (passOn (.resume d) s))) (i := .resumeDesignation d) rfl hs ho
  rw [desigOnce_first hseen, hv, resumeTake_held (s := { s with fab := g }) hr hn ha] at he
  exact ⟨_, he, rfl, rfl, rfl⟩

end

/-! ### Reports and aborts -/

section
variable {m : KindMsg} {s : State} (hs : live s = true) (hn : m.step.toNat = s.step.next)
include hs hn

theorem abortAcknowledgement_row (ho : inOrder (ctlIs (.abortAck m)) s = true) :
    ∃ t, exec (.abortAcknowledgement m) s = .next t ∧ (m.member, m.kind, m.attempt.toNat) ∈ t.step.acks ∧ t.mem = s.mem ∧
      t.lcores = s.lcores := by
  obtain ⟨f, hv⟩ := (takeCtl_frame (.abortAck m) s).exists
  have he := exec_ordered_of (t := ackNote m (takeCtl (.abortAck m) s)) (i := .abortAcknowledgement m) rfl hs ho
  rw [hv, ackNote_eq] at he
  by_cases hc : s.step.acks.contains (m.member, m.kind, m.attempt.toNat) = true
  · rw [if_pos (.inr hc)] at he
    exact ⟨_, he, List.elem_iff.1 hc, rfl, rfl⟩
  · rw [if_neg (by rintro (h | h); exacts [h hn, hc h])] at he
    exact ⟨_, he, List.mem_append_right _ List.mem_cons_self, rfl, rfl⟩

end

/-- The attempt of `s` is aborted in `t`. -/
def attemptAborted (s t : State) : Prop :=
  fld t RDU_STEP_STAT_STATE = 3 ∧ t.step.buckets = [] ∧ t.step.abortedBelow = s.step.attempt + 1 ∧ t.lcores = s.lcores.map stopForAbort

theorem abortHere_aborts {m : AbortMsg} {s u : State} (hc : m.cause ≠ 3) (hd : s.step.deferred = []) (hat : s.step.attempt < 15)
    (hstep : u.step = { s.step with acks := u.step.acks }) (hl : u.lcores = s.lcores) : attemptAborted s (abortHere m u) := by
  have hdu : u.step.deferred = [] := by rw [hstep]; exact hd
  have hau : u.step.attempt = s.step.attempt := by rw [hstep]
  obtain ⟨hst, hb, -, hbelow, -, -, hlc⟩ := abortTake_state hc hdu
  rw [abortHere_below (.inl (by rw [hau]; exact hat))]
  exact ⟨hst, hb, hbelow.trans (by rw [hau]), hlc.trans (by rw [hl])⟩

theorem deadlineReport_row {m : KindMsg} {s : State} (hs : live s = true) (hn : m.step.toNat = s.step.next)
    (ho : inOrder (ctlIs (.report m)) s = true) (hf : canFlood s = true) (ha : m.attempt.toNat = s.step.attempt) (hd : s.step.deferred = [])
    (hat : s.step.attempt < 15) : ∃ t, exec (.deadlineReport m) s = .next t ∧ attemptAborted s t := by
  have hnow : (canFlood s && msgNow s m.step m.attempt) = true := by simp [hf, msgNow, hn, ha]
  obtain ⟨f, hv⟩ := (takeCtl_frame (.report m) s).exists
  have he := exec_ordered_of (t := deadlineReport m s) (i := .deadlineReport m) rfl hs ho
  rw [deadlineReport_eq] at he
  dsimp only at he
  rw [if_pos hnow] at he
  have hnote : (ackNote m (takeCtl (.report m) s)).step = { s.step with acks := (ackNote m (takeCtl (.report m) s)).step.acks } ∧
      (ackNote m (takeCtl (.report m) s)).lcores = s.lcores := by
    rw [hv, ackNote_eq]
    split <;> exact ⟨rfl, rfl⟩
  obtain ⟨hstep, hl⟩ := hnote
  exact ⟨_, he, abortHere_aborts (by exact (by decide : (1 : BitVec 8) ≠ 3)) hd hat hstep hl⟩

theorem abort_rows {m : AbortMsg} {s : State} (hs : live s = true) (ho : inOrder (ctlIs (.abort m)) s = true)
    (hn : m.step.toNat = s.step.next) (ha : m.attempt.toNat = s.step.attempt) (hc : m.cause ≠ 3) (hd : s.step.deferred = [])
    (hat : s.step.attempt < 15) :
    (canFlood s = true → ∃ t, exec (.abortRequest m) s = .next t ∧ attemptAborted s t) ∧
    (m.request = false → s.img.isSome = true → stepState s = 1 ∨ stepState s = 2 →
      ∃ t, exec (.stepAbort m) s = .next t ∧ attemptAborted s t) := by
  have hm := (takeCtl_frame (.abort m) s).msg
  have hstep : (takeCtl (.abort m) s).step = { s.step with acks := (takeCtl (.abort m) s).step.acks } := by rw [hm.step]
  refine ⟨fun hf => ?_, fun hr hi hst => ?_⟩
  · have hnow : (canFlood s && msgNow s m.step m.attempt) = true := by simp [hf, msgNow, hn, ha]
    have he := exec_ordered_of (t := abortRequest m s) (i := .abortRequest m) rfl hs ho
    rw [abortRequest_eq, if_pos hnow] at he
    exact ⟨_, he, abortHere_aborts (by exact hc) hd hat hstep hm.lcores⟩
  · have he := exec_ordered_of (t := stepAbort m s) (i := .stepAbort m) rfl hs ho
    rw [stepAbort_eq] at he
    dsimp only at he
    rw [if_neg (by simp [hr]), if_pos (by simp [hi, hn, ha, hst])] at he
    exact ⟨_, he, abortHere_aborts hc hd hat hstep hm.lcores⟩

end Sys2Proof.Machine
end

section
/-! PROOF. The opening step, the latch and its cuts, and the archive link at their plainest (for O60). -/
namespace Sys2Proof.Machine

/-! ### What the operations leave -/

theorem cutAccept_lcores (r : CutReq) (s : State) : (cutAccept r s).lcores = s.lcores := by
  unfold cutAccept
  simp only [setFld_lcores]

theorem creditBack_seenCuts (p : Packet) (s : State) : (creditBack p s).fab.seenCuts = s.fab.seenCuts := by
  unfold creditBack
  split <;> rfl

theorem takeCtl_seenCuts (c : Ctl) (s : State) : (takeCtl c s).fab.seenCuts = s.fab.seenCuts := by
  unfold takeCtl takeInbound
  split
  next => rfl
  next =>
    dsimp only
    split
    · exact creditBack_seenCuts _ _
    · rfl

/-- The end of a restore leaves the module in AWAIT, and nothing else of the step or memory. -/
theorem restoreEnd_leaves (s : State) : fld (restoreEnd s) RDU_STEP_STAT_STATE = 4 ∧ (restoreEnd s).lat.restoring = false ∧
    (restoreEnd s).mem = s.mem ∧ (restoreEnd s).step = s.step ∧ (restoreEnd s).lcores = s.lcores := by
  rw [restoreEnd_step, restoreEnd, setStepState_lcores, setStepState_mem]
  refine ⟨fld_setStepState 4 _, ?_, rfl, rfl, rfl⟩
  simp only [setStepState, setFld_lat]

section
variable {s : State} (hs : live s = true)
include hs

/-! ### The step opens and repeats -/

theorem stepOpens_row (hm : s.step.moves = []) (hl : loopCores s = []) (ho : stepIsOpen s = false) (ha : s.step.any = false)
    (hall : allOpened s = true) (hr : resumeWaits s = false) (hroom : openRoom s = .fits) :
    exec .stepOpens s = .next (pumpAll (runDeferred (takeOpens (stepBegin (s.frame.f + 1) s)))) := by
  rw [stepOpens_eq hs ho, applyMoves_none hm hl, openTry_first ho ha hall hr (waitingOpens_of_allOpened hall) hroom]

theorem poolWaitExpiry_row (hw : s.step.waitFrames = some 0) : exec .poolWaitExpiry s = .next (pumpAll (poolAbandon 2 s)) :=
  exec_live rfl hs (if_pos hw)

theorem repeatOpen_row {a f : Nat} (hl : isLocked s = true) (hr : s.step.repeatF = some (a, f, false)) (hf : f ≤ s.frame.f)
    (hst : stepState s = 4) : exec .repeatOpen s = .next (repeatOpen a f false s) := by
  refine (liveNext_of_live hs _).trans ?_
  rw [repeatDue_of hl hr hf]
  exact congrArg Host.Outcome.next (if_pos hst)

/-! ### First touches, copies and the restore -/

theorem firstTouch_row {a : Nat} {bs : List Byte} (path : WritePath) (hr : hbmRange s.fuses a bs.length = true) (hb : 0 < bs.length)
    (hin : a % granBytes + bs.length ≤ granBytes) (hp : (getGran s (a / granBytes)).st = .protect) :
    ∃ t, exec (.firstTouch a bs path) s = .next t ∧ (getGran t (a / granBytes)).st = .copying ∧ t.mem = s.mem ∧ t.lcores = s.lcores := by
  have hany : (granulesOf a bs.length).any (fun g => needsCopy (getGran s g)) = true := by
    rw [granulesOf_within hb hin]
    simp [needsCopy, hp]
  obtain ⟨hg, hm, -, hl⟩ := granCopy_leaves (a / granBytes) [plainWrite path a bs] s
  refine ⟨_, (liveNext_of_live hs _).trans ?_, congrArg Gran.st hg, hm, hl⟩
  rw [if_pos (by rw [hr, hany]; rfl), hbmWrite_firstTouch hb hin hp]

theorem latchCopyDone_row {d : Fin 8} {j : CopyJob} (hj : s.lat.jobs = [j]) (hrun : j.running = true) (hd : dieOfGran j.gran = d.val)
    (hbad : hbmBad s (j.gran * granBytes) granBytes = false) (hu : (List.range 8).any (unitStopped s) = false) :
    exec (.latchCopyDone d j.gran) s = .next (pumpAll (heldAcks (storesLanded (copyDone j s)))) := by
  have hfind : s.lat.jobs.find? (fun k => k.gran == j.gran && k.running && dieOfGran k.gran == d.val) = some j := by
    rw [hj]; simp [hrun, hd]
  refine (liveNext_of_live hs _).trans ?_
  rw [hfind]
  dsimp only
  rw [if_neg (ne_true_of_eq_false hbad), if_neg (ne_true_of_eq_false hu)]

theorem latchRestore_row (hst : stepState s = 3) (hr : s.lat.restoring = false) :
    ∃ t, exec .latchRestore s = .next t ∧ t.lat.restoring = true ∧ t.step = s.step ∧ t.lcores = s.lcores := by
  have hm := latWriteBack_mf (.refl s)
  have hc : (stepState s == 3 && !s.lat.restoring) = true := by simp [hst, hr]
  have he : exec .latchRestore s = .next { latWriteBack s with lat := { (latWriteBack s).lat with restoring := true } } :=
    (liveNext_of_live hs _).trans (congrArg Host.Outcome.next (if_pos hc))
  generalize latWriteBack s = u at he hm
  exact ⟨_, he, rfl, hm.step, hm.lcores⟩

theorem latchRestoreDone_row (hst : stepState s = 3) (hr : s.lat.restoring = true) (hn : s.step.repeatF = none) :
    ∃ t, exec .latchRestoreDone s = .next t ∧ fld t RDU_STEP_STAT_STATE = 4 ∧ t.lat.restoring = false ∧ t.mem = s.mem ∧
      t.step = s.step ∧ t.lcores = s.lcores := by
  exact ⟨_, exec_live rfl hs (latchRestoreDone_waits hst hr hn), restoreEnd_leaves s⟩

/-! ### Cuts -/

theorem latCut_row {v : Word} (hl : isLocked s = true) (hf : s.frame.f + 2 ≤ v.toNat % 2 ^ 48) : ∃ t, exec (.latCut v) s = .next t ∧
    t.lat.cuts = s.lat.cuts ++ [⟨v.toNat % 2 ^ 48, v.getLsbD 48, v.getLsbD 49, BitVec.ofNat 32 (fld s LAT_CUT_ID_SNAP_ID)⟩] ∧
    t.mem = s.mem ∧ t.lcores = s.lcores := by
  have he : latCut v s =
      let r := ⟨v.toNat % 2 ^ 48, v.getLsbD 48, v.getLsbD 49, BitVec.ofNat 32 (fld s LAT_CUT_ID_SNAP_ID)⟩
      cutAccept r (floodCtl (.cut r) { s with fab := { s.fab with seenCuts := r.snapId :: s.fab.seenCuts } }) := by
    unfold latCut
    simp only [bits_zero]
    rw [if_neg (by simp [hl]; omega)]
  refine ⟨_, exec_live rfl hs he, ?_⟩
  dsimp only
  generalize (⟨_, _, _, _⟩ : CutReq) = r
  generalize hu : State.mk _ _ _ _ _ _ _ _ _ _ _ _ _ _ _ _ _ _ _ _ _ _ _ = u
  have hm := (floodCtl_frame (.cut r) u).msg
  obtain ⟨hcut, -, -, -, -, hmem⟩ := cutAccept_leaves r (floodCtl (.cut r) u)
  rw [hcut, hmem, cutAccept_lcores, hm.lat, hm.mem, hm.lcores, ← hu]
  exact ⟨rfl, rfl, rfl⟩

theorem cutRequest_row {r : CutReq} (ho : inOrder (ctlIs (.cut r)) s = true) (hl : isLocked s = true) (hf : s.frame.f < r.frame)
    (hc : s.fab.seenCuts.contains r.snapId = false) : ∃ t, exec (.cutRequest r) s = .next t ∧ t.lat.cuts = s.lat.cuts ++ [r] ∧
      t.mem = s.mem ∧ t.lcores = s.lcores := by
  have he := exec_ordered_of (t := cutRequest r s) (i := .cutRequest r) rfl hs ho
  rw [cutRequest_eq] at he
  dsimp only at he
  rw [if_neg (by rw [takeCtl_seenCuts, hc]; exact Bool.false_ne_true), if_neg (by simp [hl]; omega)] at he
  refine ⟨_, he, ?_⟩
  have hm := (takeCtl_frame (.cut r) s).msg
  generalize takeCtl (.cut r) s = v at hm
  generalize hu : State.mk _ _ _ _ _ _ _ _ _ _ _ _ _ _ _ _ _ _ _ _ _ _ _ = u
  have hn := (floodCtl_frame (.cut r) u).msg
  obtain ⟨hcut, -, -, -, -, hmem⟩ := cutAccept_leaves r (floodCtl (.cut r) u)
  rw [hcut, hmem, cutAccept_lcores, hn.lat, hn.mem, hn.lcores, ← hu]
  exact ⟨congrArg (·.cuts ++ [r]) hm.lat, hm.mem, hm.lcores⟩

end

end Sys2Proof.Machine
end

section
/-! PROOF. Tier-1 transfers and the archive link at their plainest (for O60). -/
namespace Sys2Proof.Machine

/-! ### Tier 1 -/

theorem foldl_stagedCopy_lcores (l : List (Nat × Nat)) (s : State) : (l.foldl stagedCopy s).lcores = s.lcores := by
  induction l generalizing s with
  | nil => rfl
  | cons g l ih => exact ih (stagedCopy s g)

theorem stagedApply_lcores (s : State) : (stagedApply s).lcores = s.lcores := by
  unfold stagedApply
  split
  next => rfl
  next x _ =>
    dsimp only
    rw [(sendCtl_frame _ _ _).msg.lcores]
    exact foldl_stagedCopy_lcores _ s

theorem tier1TransferDone_row {x : SnapIn} {s : State} (hs : live s = true) (hh : s.lat.hold.held = some x.module)
    (hf : stagingFits s (snapOf true x) = true) : ∃ t, exec (.tier1TransferDone true x) s = .next t ∧
      t.lat.hold.copy = some (snapOf true x) ∧ t.lat.hold.staging = none ∧ t.lat.hold.recState = 2 ∧ t.lcores = s.lcores := by
  refine ⟨_, exec_live rfl hs (t1TransferDone_applied hh hf), ?_⟩
  rw [stagedApply_leaves (y := snapOf true x) rfl, stagedApply_lcores]
  exact ⟨rfl, rfl, rfl, rfl⟩

theorem tier1Completion_row {x : Snap} {p : Packet} {s : State} (hs : live s = true) (ht : s.lat.t1 = some x)
    (hin : s.fab.inbound = [p]) (hb : p.body = .control (.tier1Done x.id)) :
    ∃ t, exec (.tier1Completion x.id) s = .next t ∧ t.lat.t1 = none ∧ t.lat.t1Copy = some x := by
  have hdone : ctlIs (.tier1Done x.id) p = true := by simp [ctlIs, hb]
  have hfail : ctlIs (.tier1Failed x.id) p = false := by simp [ctlIs, hb]
  have hlat : (takeCtl (.tier1Done x.id) s).lat = s.lat := (takeCtl_frame _ s).msg.lat
  have ha : t1Answer x.id s = t1Complete x.id (takeCtl (.tier1Done x.id) s) := if_neg (by simp [hin, hfail])
  have ho : ordered (fun p => ctlIs (.tier1Done x.id) p || ctlIs (.tier1Failed x.id) p) s (t1Answer x.id s) = t1Answer x.id s :=
    if_pos (inOrder_of_single hin (by simp [hdone]))
  obtain ⟨h1, -, h2, -, -⟩ := t1Complete_leaves ((congrArg LatSt.t1 hlat).trans ht)
  exact ⟨_, exec_live rfl hs (ho.trans ha), h1, h2⟩

/-! ### The archive link -/

/-- The link's fields LINK_UP and READY stand, and the cores. -/
def LinkKept (z s : State) : Prop :=
  fld s ARC_STAT_LINK_UP = fld z ARC_STAT_LINK_UP ∧ fld s ARC_STAT_READY = fld z ARC_STAT_READY ∧ s.lcores = z.lcores

theorem LinkKept.refl (s : State) : LinkKept s s := ⟨rfl, rfl, rfl⟩

theorem LinkKept.trans {s t u : State} (h : LinkKept s t) (k : LinkKept t u) : LinkKept s u := by
  obtain ⟨hu, hr, hl⟩ := h
  obtain ⟨ku, kr, kl⟩ := k
  exact ⟨ku.trans hu, kr.trans hr, kl.trans hl⟩

theorem LinkKept.of_stand {s t : State} (h : CutsStand rARC_STAT s t) (hl : t.lcores = s.lcores) : LinkKept s t :=
  ⟨h.2 _ rfl, h.2 _ rfl, hl⟩

section
variable {z s : State} (h : LinkKept z s)
include h

theorem LinkKept.setFld {f : Fld} (hf : f.lo + f.w ≤ 64) (hup : fldApart f ARC_STAT_LINK_UP = true)
    (hr : fldApart f ARC_STAT_READY = true) (v : Nat) : LinkKept z (setFld f v s) :=
  h.trans ⟨fld_setFld_apart _ _ hf hup, fld_setFld_apart _ _ hf hr, setFld_lcores _ _ _⟩

theorem report_link (c : Code) (src : Nat) (d : Word) : LinkKept z (report c src d s) :=
  h.trans ⟨fld_report _ _ _ _ rfl, fld_report _ _ _ _ rfl, report_lcores _ _ _ _⟩

theorem jnlPut_link (k : Nat) (b : List Byte) : LinkKept z (jnlPut k b s) :=
  h.trans ⟨fld_jnlPut _ _ _ rfl, fld_jnlPut _ _ _ rfl, rfl⟩

theorem cutClearAll_link (a b : Bool) : LinkKept z (cutClearAll a b s) :=
  h.trans (.of_stand (cutClearAll_stand (fun d => by simp only [rLAT_DIE_STAT, rARC_STAT]; omega) (.refl _ s) a b) (cutClearAll_mf (.refl s) a b).lcores)

theorem hbmPut_link (a : Nat) (bs : List Byte) : LinkKept z (hbmPut a bs s) :=
  h.trans (.of_stand (hbmPut_stand (fun d => by simp only [rLAT_DIE_STAT, rARC_STAT]; omega) (.refl _ s) a bs) (hbmPut_mf (.refl s) a bs).lcores)

theorem withArc_link (x : ArcSt) : LinkKept z { s with arc := x } := h.trans ⟨rfl, rfl, rfl⟩

theorem listEnd_link (op : ListOp) : LinkKept z (listEnd op s) :=
  LinkKept.setFld (h.trans ⟨rfl, rfl, rfl⟩ : LinkKept z { s with kpr := _ }) (by decide) (by decide) (by decide) _

theorem LinkKept.ite {t : State} (k : LinkKept z t) {c : Prop} [Decidable c] : LinkKept z (if c then s else t) := by
  split
  · exact h
  · exact k

theorem sealAbandon_link : LinkKept z (sealAbandon s) := by
  unfold sealAbandon
  split
  next => exact h
  next slot leafA stage _ =>
    dsimp only
    have hr : LinkKept z (if 2 ≤ stage then sealRecord slot leafA false { s with arc := { s.arc with sealJob := none, sealSnap := none, cmd := none } }
        else { s with arc := { s.arc with sealJob := none, sealSnap := none, cmd := none } }) :=
      (jnlPut_link (withArc_link h _) _ _).ite (withArc_link h _)
    have hc := cutClearAll_link (listEnd_link ((hr.setFld (by decide) (by decide) (by decide) _ : LinkKept z (addFld ARC_COUNT_ABANDONED 1 _)).setFld
      (f := ARC_STAT_SEALING) (by decide) (by decide) (by decide) 0) .tier2) false false
    exact report_link ((hc.setFld (f := LAT_SNAP_STAT_T2) (by decide) (by decide) (by decide) 3).ite hc) _ _ _

theorem arcInbound_link (r : ArcReq) : LinkKept z (arcInbound s r) := by
  unfold arcInbound
  cases r with
  | read a n => exact h.ite (report_link h _ _ _)
  | write a bs => exact (hbmPut_link h a bs).ite (report_link h _ _ _)
  | error => exact report_link h _ _ _

theorem foldl_arcInbound_link (l : List ArcReq) : LinkKept z (l.foldl arcInbound s) := by
  induction l generalizing s with
  | nil => exact h
  | cons r l ih => exact ih (arcInbound_link h r)

theorem arcWin_link : LinkKept z (arcWin s) := by
  unfold arcWin
  split
  · exact (((h.setFld (by decide) (by decide) (by decide) _).setFld (by decide) (by decide) (by decide) _).setFld (by decide) (by decide)
      (by decide) _).setFld (by decide) (by decide) (by decide) _
  · exact h.setFld (by decide) (by decide) (by decide) _

end

/-- The window's enabling changes nothing of LINK_UP and of the cores. -/
theorem arcEnable_leaves (s : State) : fld (arcEnable s) ARC_STAT_LINK_UP = fld s ARC_STAT_LINK_UP ∧ (arcEnable s).lcores = s.lcores ∧
    (arcEnable s).arc = s.arc := by
  have hset (v : Nat) : fld (setFld ARC_STAT_READY v s) ARC_STAT_LINK_UP = fld s ARC_STAT_LINK_UP := fld_setFld_apart _ _ (by decide) (by decide)
  unfold arcEnable
  split
  · exact ⟨hset 0, setFld_lcores _ _ _, setFld_arc _ _ _⟩
  split
  · obtain ⟨hu, -, hl⟩ := arcWin_link (.refl (setFld ARC_STAT_READY 1 s))
    refine ⟨hu.trans (hset 1), hl.trans (setFld_lcores _ _ _), ?_⟩
    unfold arcWin
    split <;> simp only [setFld_arc]
  · rw [fld_report _ _ _ _ rfl, report_lcores, report_arc, setFld_lcores, setFld_arc]
    exact ⟨hset 0, rfl, rfl⟩

theorem archiveLinkUp_row (n : Nat) (found : List NsInfo) (reqs : List ArcReq) {s : State} (hs : live s = true) (hp : s.arc.perst = false) :
    ∃ t, exec (.archiveLinkUp n found reqs) s = .next t ∧ fld t ARC_STAT_LINK_UP = 1 ∧ t.arc.ctrls = n ∧ t.arc.found = found ∧
      t.lcores = s.lcores := by
  have he := exec_live (i := .archiveLinkUp n found reqs) rfl hs (if_neg (ne_true_of_eq_false hp))
  refine ⟨_, he, ?_⟩
  generalize hu : setFld ARC_STAT_LINK_UP 1 _ = u
  have hu1 : fld u ARC_STAT_LINK_UP = 1 := by rw [← hu, fld_setFld_same _ _ _ (by decide)]; rfl
  have hu2 : u.arc = { s.arc with ctrls := n, found := found } := by rw [← hu, setFld_arc]
  have hu3 : u.lcores = s.lcores := by rw [← hu, setFld_lcores]
  have hf := foldl_arcInbound_link (.refl u) reqs
  obtain ⟨h1, h2, h3⟩ := arcEnable_leaves (reqs.foldl arcInbound u)
  rw [h1, h2, h3, hf.1, hf.2.2, foldl_arcInbound_arc, hu1, hu2, hu3]
  exact ⟨rfl, rfl, rfl, rfl⟩

theorem archiveLinkDown_row {s : State} (hs : live s = true) (hup : fldOn s ARC_STAT_LINK_UP = true) :
    ∃ t, exec .archiveLinkDown s = .next t ∧ fld t ARC_STAT_LINK_UP = 0 ∧ fld t ARC_STAT_READY = 0 ∧ t.lcores = s.lcores := by
  have he := exec_live (i := .archiveLinkDown) rfl hs (archiveDown_up hup)
  refine ⟨_, he, ?_⟩
  dsimp only
  generalize hu : setFld ARC_STAT_READY 0 _ = u
  have hu1 : fld u ARC_STAT_LINK_UP = 0 := by
    rw [← hu, fld_setFld_apart _ _ (by decide) (by decide), fld_setFld_same _ _ _ (by decide)]; rfl
  have hu2 : fld u ARC_STAT_READY = 0 := by rw [← hu, fld_setFld_same _ _ _ (by decide)]; rfl
  have hu3 : u.lcores = s.lcores := by rw [← hu, setFld_lcores, setFld_lcores]
  obtain ⟨h1, h2, h3⟩ : LinkKept u (if fldOn s ARC_CTRL_ENABLE = true then sealAbandon (report cARC_IO (srcOf 8 10 0) 0 u) else u) :=
    (sealAbandon_link (report_link (.refl u) _ _ _)).ite (.refl u)
  exact ⟨h1.trans hu1, h2.trans hu2, h3.trans hu3⟩

theorem nvmeCompletion_row {slot stage : Nat} {leafA : Bool} {x : Snap} {c : NvmeCmd} {s : State} (hs : live s = true)
    (hj : s.arc.sealJob = some (slot, leafA, stage)) (hx : s.arc.sealSnap = some x) (hc : s.arc.cmd = some c) :
    ∃ t, exec (.nvmeCompletion ⟨true, []⟩) s = .next t ∧ t.arc.cmd = none ∧
      t.arc.sealJob = some (slot, leafA, if stage = 3 then 3 else stage + 1) := by
  have hn : nvmeCompletion true [] s = sealCompletion s := rfl
  refine ⟨_, exec_live (i := .nvmeCompletion ⟨true, []⟩) rfl hs hn, ?_⟩
  rw [sealCompletion, hj, hx, hc]
  exact ⟨rfl, rfl⟩

end Sys2Proof.Machine
end

section
/-! PROOF. Reduction and Keyway packets at their plainest (for O60). -/
namespace Sys2Proof.Machine

/-! ### Reduction packets -/

theorem redConsume_frame (d : Nat) (k : Option Packet) (s : State) : FabFrame s (redConsume d k s) := by
  cases k with
  | none => exact .refl s
  | some k => exact (takeInbound_frame (fun q => q == k) s).trans (ackOwe_frame d k _)

theorem reductionPacket_row {d : Fin 8} {src : RedSrc} {p : RedPkt} {s : State} (hs : live s = true)
    (ho : inOrder (fun k => k.body == .reduction p) s = true) (hage : pktAge s p.step p.attempt = .eq)
    (hst : stepState s = 1 ∨ stepState s = 2) (hi : redInvariant p = true) (h1 : src ≠ .hbm) (h2 : src ≠ .adder)
    (hb : ((getBucket s p.bucket).bind fun b => shareOf b p.packet) = none)
    (hroom : heldBytes s d + (if p.comp then 536 else 280) ≤ fld s (RDU_UNIT_HOLD_BUF_KIB d) * 1024) :
    ∃ t, exec (.reductionPacket d src p) s = .next t ∧ t.step = { s.step with heldPkts := s.step.heldPkts ++ [(d.val, src, p)] } ∧
      t.mem = s.mem ∧ t.lcores = s.lcores := by
  obtain ⟨hpkt, -, -, -⟩ := reductionPacketsAndShares
  obtain ⟨-, hrow⟩ := hpkt d src p s hs
  obtain ⟨-, -, -, -, -, hheld⟩ := hrow ho
  have hm := (redConsume_frame d (s.fab.inbound.find? fun k => k.body == .reduction p)
    { s with step := { s.step with heldPkts := s.step.heldPkts ++ [(d.val, src, p)] } }).msg
  exact ⟨_, (hheld ⟨hage, hst⟩ hi h1 h2 hb).1 hroom, hm.step, hm.mem, hm.lcores⟩

theorem gredComplete_row {c : Fin 256} {s : State} {l : LCore} {g : GredOut} {b : Bucket} {h : Share} (hg : getL s c = some l)
    (he : coreEmpty l = true) (hgs : l.greds = [g]) (hb : s.step.buckets = [b]) (hid : b.id = g.bucket) (hl : b.launched = [h])
    (hn : h.n = g.n) (hc : h.lcore = c.val) (hd : shareDone s h = true) (h1 : b.shares = 1) (hbd : b.done = false) (hbf : b.failed = false)
    (hst : b.statusAddr = 0) (hblk : l.block = none) (hcw : cwLcore b.catchWord = c.val)
    (hk : (catchOf l (cwIndex b.catchWord)).counter.toNat + 1 < 2 ^ 32) :
    ∃ t, exec (.gredComplete c) s = .next t ∧
      t.step.buckets = [{ b with launched := [{ h with complete := true }], done := true }] ∧ t.mem = s.mem := by
  obtain ⟨-, -, hdone, -⟩ := reductionPacketsAndShares
  exact ⟨_, hdone c s l g b h hg he hgs hb hid hl hn hc hd h1 hbd hbf hst hblk hcw hk, rfl, rfl⟩

/-! ### Keyway packets -/

section
variable {d : Fin 8} {p : KwyPkt} {k : Packet} {s : State} (hs : live s = true) (ht : hasTumbler s.fuses = true)
  (hin : s.fab.inbound = [k]) (hb : k.body = .keyway p)
include hs ht hin hb

/-- R344: an unresolved packet that a port brought, on a die whose table is off. -/
theorem keywayResolve_brought (hd : k.destDie = 14) (he : fldOn s (KWY_WLT_ENABLE d) = false) :
    exec (.keywayResolve d p) s = .next (kwyRefuse d p (ackOwe d k (takePacket k s))) := by
  have hf : (k.destDie == 14 && k.body == .keyway p) = true := by rw [hb, hd, beq_self_eq_true, beq_self_eq_true]; rfl
  have ho : inOrder (fun k => k.destDie == 14 && k.body == .keyway p) s = true := inOrder_of_single hin hf
  have hk : kwyFrom s (fun k => k.destDie == 14) p = some k := by simp only [kwyFrom, hin, List.find?_cons, hf]
  have hoff : fldOn (takePacket k s) (KWY_WLT_ENABLE d) = false := by
    rw [fldOn, takePacket, (takeInbound_frame _ s).fld]
    exact he
  have hr : keywayResolve d p s = kwyRefuse d p (ackOwe d k (takePacket k s)) := by
    have h0 : (!(0 : Word).getLsbD 23) = true := by decide
    simp only [keywayResolve, ht, Bool.not_true, Bool.false_eq_true, if_false, hk, Option.getD_some, hoff, h0, if_true]
  exact exec_live rfl hs ((if_pos ho).trans hr)

section
variable (hd : k.destDie ≠ 14) (ha : pktAge s p.step p.attempt = .eq)
include hd ha

/-- The arrival of a packet of the attempt, with no granule held of those it writes, does what it does once its packet is taken. -/
theorem exec_kwyArrive_brought {i : Instr} {ranges : List (Nat × Nat)} {act : State → State} (hl : latAwait ranges s = none)
    (h : exec i s = liveNext s (kwyArrive d p ranges act s)) : exec i s = .next (act (ackOwe d k (takePacket k s))) := by
  have ho : inOrder (fun k => k.destDie != 14 && k.body == .keyway p) s = true :=
    inOrder_of_single hin (by rw [hb, bne_iff_ne.mpr hd, Bool.true_and, beq_self_eq_true])
  rw [h, liveNext_of_live hs, kwyArrive_acts ht ho ha hl, kwyTake_single hin hb hd]

theorem dispatchArrival_brought {v : Layer} (hv : layerOf s p.layer = some v) (h1 : inboxOk s (inboxSlotAt v p) (64 + v.rowBytes) = true)
    (h2 : inboxOk s (srcEntryAt p) 4 = true) (hl : latAwait [(inboxSlotAt v p, 64 + v.rowBytes), (srcEntryAt p, 4)] s = none) :
    exec (.dispatchArrival d p) s = .next (srcEntryApply d p none (hbmPut (inboxSlotAt v p) (kwyHeader p ++ p.row.take v.rowBytes)
      (ackOwe d k (takePacket k s)))) := by
  refine exec_kwyArrive_brought (act := fun s => srcEntryApply d p none (hbmPut (inboxSlotAt v p) (kwyHeader p ++ p.row.take v.rowBytes) s))
    hs ht hin hb hd ha hl ?_
  change execDispatchArrival d p s = _
  simp only [execDispatchArrival, hv, h1, h2, Bool.and_self, if_true]

theorem closeArrival_brought (h1 : inboxOk s (srcEntryAt p) 4 = true) (hl : latAwait [(srcEntryAt p, 4)] s = none) :
    exec (.closeArrival d p) s = .next (srcEntryApply d p (some p.slot) (ackOwe d k (takePacket k s))) := by
  refine exec_kwyArrive_brought (act := srcEntryApply d p (some p.slot)) hs ht hin hb hd ha hl ?_
  change execCloseArrival d p s = _
  rw [execCloseArrival, if_pos h1]

theorem answers_brought (hl : latAwait (combineRanges s p) s = none) :
    exec (.answerArrival d p) s = .next (combineApply d { p with kind := 1 } (ackOwe d k (takePacket k s))) ∧
    exec (.keywayRefusal d p) s = .next (combineApply d { p with kind := 3 } (ackOwe d k (takePacket k s))) :=
  ⟨exec_kwyArrive_brought (act := combineApply d { p with kind := 1 }) hs ht hin hb hd ha hl rfl,
    exec_kwyArrive_brought (act := combineApply d { p with kind := 3 }) hs ht hin hb hd ha hl rfl⟩

end
end

/-- An unresolved packet made here. -/
def kwyMade (d : Nat) (p : KwyPkt) (s : State) : Packet := mkPacket s 2 (BitVec.ofNat 16 (fld s FAB_ID_WARD * 256)) 14 d 0 (.keyway p)

/-- The payload with what a table entry says of its expert's place. -/
def kwyPlaced (w : Word) (p : KwyPkt) : KwyPkt :=
  { p with
    resolved := true
    dModule := w.toNat % 256
    dLcore := w.toNat / 256 % 256
    inbox := w.toNat / 2 ^ 24 % 2 ^ 37 * 64 }

/-- The packet on its way to the expert's place. -/
def kwySentTo (w : Word) (p : KwyPkt) (q : Packet) (s : State) : Packet :=
  { q with
    dest := BitVec.ofNat 16 (fld s FAB_ID_WARD * 256 + w.toNat % 256)
    destDie := BitVec.ofNat 4 (dieOfAddr (w.toNat / 2 ^ 24 % 2 ^ 37 * 64) % 8)
    body := .keyway (kwyPlaced w p) }

theorem kwySentTo_forHere {w : Word} {s : State} (hm : w.toNat % 256 = fld s FAB_ID_MODULE) (p : KwyPkt) (q : Packet) :
    forHere s (kwySentTo w p q s) = true := by
  have hward : fld s FAB_ID_WARD < 2 ^ 6 := fld_lt _ _
  have hdie (n : Nat) : BitVec.ofNat 4 (n % 8) ≠ 14 := by
    intro h
    have h : n % 8 % 16 = 14 := congrArg BitVec.toNat h
    omega
  simp only [forHere, kwySentTo, memberWard, memberModule, bits, BitVec.toNat_ofNat, Bool.and_eq_true, beq_iff_eq, bne_iff_ne]
  exact ⟨⟨by omega, hdie _⟩, by omega⟩

/-- R344: an unresolved packet made here whose expert the table places in this module. -/
theorem keywayResolve_here {d : Fin 8} {p : KwyPkt} {w : Word} {s : State} (ht : hasTumbler s.fuses = true)
    (hin : s.fab.inbound = []) (he : fldOn s (KWY_WLT_ENABLE d) = true)
    (hw : smFind s.kwyCache (d * 2 ^ 20 + p.layer * 4096 + p.expert) = some w) (hv : w.getLsbD 23 = true)
    (hm : w.toNat % 256 = fld s FAB_ID_MODULE) : keywayResolve d p s = deliver (kwySentTo w p (kwyMade d p s) s) s := by
  have hk : kwyFrom s (fun k => k.destDie == 14) p = none := by simp only [kwyFrom, hin, List.find?_nil]
  have hentry : kwyEntry d p.layer p.expert s = (w, s) := by
    unfold kwyEntry
    dsimp only
    rw [hw]
  have hhere := kwySentTo_forHere hm p (kwyMade d p s)
  simp only [kwySentTo, kwyMade, kwyPlaced, Nat.reducePow] at hhere
  simp only [keywayResolve, ht, Bool.not_true, Bool.false_eq_true, if_false, hk, Option.getD_none, takePacket_none hin, he, if_true,
    hentry, hv, bits, Nat.shiftRight_eq_div_pow, Nat.pow_zero, Nat.div_one, Nat.reducePow, kwySentTo, kwyMade, kwyPlaced]
  exact if_pos hhere

theorem keywayResolve_row {d : Fin 8} {p : KwyPkt} {w : Word} {s : State} (hs : live s = true) (ht : hasTumbler s.fuses = true)
    (hin : s.fab.inbound = []) (he : fldOn s (KWY_WLT_ENABLE d) = true)
    (hw : smFind s.kwyCache (d * 2 ^ 20 + p.layer * 4096 + p.expert) = some w) (hv : w.getLsbD 23 = true)
    (hm : w.toNat % 256 = fld s FAB_ID_MODULE) : ∃ t q, exec (.keywayResolve d p) s = .next t ∧ t.fab.inbound = [q] ∧
      q.body = .keyway (kwyPlaced w p) ∧ t.mem = s.mem ∧ t.lcores = s.lcores := by
  have ho : inOrder (fun k => k.destDie == 14 && k.body == .keyway p) s = true := inOrder_of_none hin _
  refine ⟨_, kwySentTo w p (kwyMade d p s) s, exec_live rfl hs ((if_pos ho).trans (keywayResolve_here ht hin he hw hv hm)), ?_, rfl, rfl, rfl⟩
  exact congrArg (· ++ [_]) hin

end Sys2Proof.Machine
end

section
/-! PROOF. Keeper commands that start a list (for O60), and the completing commands together (settles O60). -/
namespace Sys2Proof.Machine

/-! ### A command that its port makes busy -/

theorem getReg_setFld_apart {f : Fld} {a : Nat} (v : Nat) (s : State) (h : a ≠ f.addr) :
    getReg (setFld f v s) a = getReg s a := by
  rw [setFld, getReg_setReg, if_neg h]

theorem cmdBusy_args (n : Nat) (tag : BitVec 8) (s : State) :
    getReg (cmdBusy n tag s) (rKPR_CMD_ARG0 n) = getReg s (rKPR_CMD_ARG0 n) ∧
    getReg (cmdBusy n tag s) (rKPR_CMD_ARG1 n) = getReg s (rKPR_CMD_ARG1 n) := by
  have hn (a : Nat) (h : a ≠ rKPR_CMD_STAT n) : getReg (cmdBusy n tag s) a = getReg s a := by
    rw [cmdBusy, getReg_setFld_apart _ _ h, getReg_setFld_apart _ _ h]
  refine ⟨hn _ ?_, hn _ ?_⟩ <;> simp only [rKPR_CMD_ARG0, rKPR_CMD_ARG1, rKPR_CMD_STAT] <;> omega

theorem cmdBusy_leaves (n : Nat) (tag : BitVec 8) (s : State) : fld (cmdBusy n tag s) (KPR_CMD_STAT_BUSY n) = 1 ∧
    (cmdBusy n tag s).kpr = s.kpr ∧ (cmdBusy n tag s).mem = s.mem ∧ (cmdBusy n tag s).lcores = s.lcores ∧
    (cmdBusy n tag s).sec = s.sec ∧ (cmdBusy n tag s).peer = s.peer := by
  refine ⟨fld_setFld_same _ _ _ (Nat.le_of_ble_eq_true rfl), ?_, ?_, ?_, ?_, ?_⟩
  · rw [cmdBusy, setFld_kpr, setFld_kpr]
  · rw [cmdBusy, setFld_mem, setFld_mem]
  · rw [cmdBusy, setFld_lcores, setFld_lcores]
  · rw [cmdBusy, setFld_sec, setFld_sec]
  · rw [cmdBusy, setFld_peer, setFld_peer]

theorem hasList_congr {s t : State} (h : t.kpr.lists = s.kpr.lists) (op : ListOp) : hasList t op = hasList s op := by
  rw [hasList, hasList, h]

/-- A list that a command of a port started, the port busy with it. -/
def listStarted (n : Nat) (tag : BitVec 8) (op : ListOp) (cls k : Nat) (s t : State) : Prop :=
  t.kpr.lists = s.kpr.lists ++ [⟨op, cls, k, 0, [], some (n, tag), getReg s (rKPR_CMD_ARG0 n), getReg s (rKPR_CMD_ARG1 n)⟩] ∧
  fld t (KPR_CMD_STAT_BUSY n) = 1 ∧ t.mem = s.mem ∧ t.lcores = s.lcores

theorem listStart_leaves (op : ListOp) (cls k : Nat) (port : Option (Nat × BitVec 8)) (a0 a1 : Word) (s : State) :
    let t := listStart op cls k port a0 a1 s
    t.kpr.lists = s.kpr.lists ++ [⟨op, cls, k, 0, [], port, a0, a1⟩] ∧ (∀ g : Fld, g.addr ≠ rKPR_STAT → fld t g = fld s g) ∧
      t.mem = s.mem ∧ t.lcores = s.lcores := by
  dsimp only
  rw [listStart, listsReg, setFld_kpr, setFld_mem, setFld_lcores]
  exact ⟨rfl, fun g hg => fld_setFld_apart _ _ (by decide) (fldApart_of (.inl hg.symm)), rfl, rfl⟩

theorem listStart_started {n : Nat} {tag : BitVec 8} {op : ListOp} {cls k : Nat} {s u : State} (hk : u.kpr.lists = s.kpr.lists)
    (hb : fld u (KPR_CMD_STAT_BUSY n) = 1) (hm : u.mem = s.mem) (hl : u.lcores = s.lcores) :
    listStarted n tag op cls k s (listStart op cls k (some (n, tag)) (getReg s (rKPR_CMD_ARG0 n)) (getReg s (rKPR_CMD_ARG1 n)) u) := by
  obtain ⟨h1, h2, h3, h4⟩ := listStart_leaves op cls k (some (n, tag)) (getReg s (rKPR_CMD_ARG0 n)) (getReg s (rKPR_CMD_ARG1 n)) u
  refine ⟨by rw [h1, hk], (h2 _ ?_).trans hb, h3.trans hm, h4.trans hl⟩
  simp only [KPR_CMD_STAT_BUSY, rKPR_CMD_STAT, rKPR_STAT]
  omega

theorem slotErase_keeps {n : Nat} {s u : State} (k : Nat)
    (h : u.kpr.lists = s.kpr.lists ∧ fld u (KPR_CMD_STAT_BUSY n) = 1 ∧ u.mem = s.mem ∧ u.lcores = s.lcores) :
    (slotErase k u).kpr.lists = s.kpr.lists ∧ fld (slotErase k u) (KPR_CMD_STAT_BUSY n) = 1 ∧ (slotErase k u).mem = s.mem ∧
      (slotErase k u).lcores = s.lcores := h

section
variable {n : Fin 2} {s : State} (hon : hostOn s n = true) (hrec : s.power.recovery = false)
  (hb : fldOn s (KPR_CMD_STAT_BUSY n) = false) (hup : s.kpr.up = true)
include hon hrec hb hup

/-- A command of a free port that the running Keeper takes at once. -/
theorem exec_cmdRow_runs (tag : BitVec 8) {row : Instr × Nat} (hrow : row ∈ cmdRows n tag) :
    exec row.1 s = .next (cmdRun (cmdBusy n tag s) ⟨n, BitVec.ofNat 8 row.2, tag⟩) :=
  (exec_cmdRows n tag s row hrow).trans (congrArg Host.Outcome.next ((cmdRow_free hon hrec hb).trans (if_pos hup)))

theorem restart_row (tag : BitVec 8) (hr : s.peer.retired = true) : exec (.restart n tag) s = .next (moduleStart true
    (hubRegs (cmdBusy n tag s) 3 true (fld (cmdBusy n tag s) HUB_RESET_MODULE_RESETS)
      { moduleReset (cmdBusy n tag s) with arc := { (moduleReset (cmdBusy n tag s)).arc with perst := true } })) := by
  obtain ⟨-, -, -, -, -, hp⟩ := cmdBusy_leaves n tag s
  have hret : restart n (cmdBusy n tag s) = _ := if_neg (by rw [hp, hr]; exact Bool.false_ne_true)
  exact (exec_cmdRow_runs hon hrec hb hup tag (row := (.restart n tag, 0x04)) (by simp [cmdRows])).trans (congrArg Host.Outcome.next hret)

/-- A firmware command that starts its list, on the busy port's state `u`. -/
theorem secStart_starts {i : Instr} {c : Nat} {op : ListOp} {k : Nat} {t : State} (tag : BitVec 8) (hrow : (i, c) ∈ cmdRows n tag)
    (hrun : ∀ u, cmdRun u ⟨n, BitVec.ofNat 8 c, tag⟩ = secStart op n tag u)
    (ht : t.kpr.lists = s.kpr.lists ∧ fld t (KPR_CMD_STAT_BUSY n) = 1 ∧ t.mem = s.mem ∧ t.lcores = s.lcores)
    (hs : secStart op n tag (cmdBusy n tag s) =
      listStart op 4 k (some (n.val, tag)) (getReg s (rKPR_CMD_ARG0 n)) (getReg s (rKPR_CMD_ARG1 n)) t) :
    ∃ t, exec i s = .next t ∧ listStarted n tag op 4 k s t := by
  obtain ⟨hk, hbusy, hm, hl⟩ := ht
  exact ⟨_, (exec_cmdRow_runs hon hrec hb hup tag hrow).trans (congrArg Host.Outcome.next ((hrun _).trans hs)),
    listStart_started hk hbusy hm hl⟩

theorem fwStage_row (tag : BitVec 8) (hl : hasList s .fwStage = false) : ∃ t, exec (.fwStage n tag) s = .next t ∧
    listStarted n tag .fwStage 4 (ceilSteps (getReg s (rKPR_CMD_ARG1 n)).toNat 0x100000) s t := by
  obtain ⟨h0, h1⟩ := cmdBusy_args n tag s
  obtain ⟨hbusy, hk, hm, hlc, -, -⟩ := cmdBusy_leaves n tag s
  have hl' := (hasList_congr (congrArg KprSt.lists hk) .fwStage).trans hl
  refine secStart_starts hon hrec hb hup tag (by simp [cmdRows]) (fun u => cmdRun_fwStage u n tag)
    ⟨congrArg KprSt.lists hk, hbusy, hm, hlc⟩ ?_
  rw [secStart, h0, h1, hl']
  rfl

section
variable (tag : BitVec 8) (hw : hasList s .fwWrite = false) (hl : hasList s .fwSelect = false)
include hw hl

theorem fwSelect_row : ∃ t, exec (.fwSelect n tag) s = .next t ∧ listStarted n tag .fwSelect 4 1 s t := by
  obtain ⟨h0, h1⟩ := cmdBusy_args n tag s
  obtain ⟨hbusy, hk, hm, hlc, -, -⟩ := cmdBusy_leaves n tag s
  have hw' := (hasList_congr (congrArg KprSt.lists hk) .fwWrite).trans hw
  have hl' := (hasList_congr (congrArg KprSt.lists hk) .fwSelect).trans hl
  refine secStart_starts hon hrec hb hup tag (by simp [cmdRows]) (fun u => cmdRun_fwSelect u n tag)
    ⟨congrArg KprSt.lists hk, hbusy, hm, hlc⟩ ?_
  rw [secStart, h0, h1, hl', hw']
  rfl

theorem fwWrite_row {h : List Byte} {a m : Nat} (hst : s.sec.staged = some (h, a, m)) :
    ∃ t, exec (.fwWrite n tag) s = .next t ∧ listStarted n tag .fwWrite 4 (ceilSteps m 0x40000) s t := by
  obtain ⟨h0, h1⟩ := cmdBusy_args n tag s
  obtain ⟨hbusy, hk, hm, hlc, hsec, -⟩ := cmdBusy_leaves n tag s
  have hw' := (hasList_congr (congrArg KprSt.lists hk) .fwWrite).trans hw
  have hl' := (hasList_congr (congrArg KprSt.lists hk) .fwSelect).trans hl
  refine secStart_starts (t := slotErase (otherSlot (cmdBusy n tag s)) (cmdBusy n tag s)) hon hrec hb hup tag (by simp [cmdRows])
    (fun u => cmdRun_fwWrite u n tag) (slotErase_keeps _ ⟨congrArg KprSt.lists hk, hbusy, hm, hlc⟩) ?_
  rw [secStart, h0, h1, hl', hw', hsec, hst]
  rfl

end

/-- The code of the check that a swap's bundle undergoes. -/
def swapCheck (op : ListOp) (a0 a1 : Word) (s : State) : Code := match bundleIn s a0.toNat (swapBytes s op a0.toNat a1.toNat) with
  | some b => swapCode s (swapKind op) b
  | none => cSEC_FORMAT

/-- What a swap command does with its port's state `u` when no swap runs. -/
def swapBegun (op : ListOp) (n : Nat) (tag : BitVec 8) (a0 a1 : Word) (u : State) : State :=
  if swapCheck op a0 a1 u = 0 then
    listStart op 1 (max 1 (swapParts u op a1.toNat).length) (some (n, tag)) a0 a1
      (setFld KPR_SWAP_STAT_KIND (swapKind op - 1) (setFld KPR_SWAP_STAT_ACTIVE 1 u))
  else cmdDone n (swapCheck op a0 a1 u) (setFld KPR_SWAP_STAT_LAST_STATUS (swapCheck op a0 a1 u).toNat
    (if swapCheck op a0 a1 u = cSWAP_VERSION then u else secCode (swapCheck op a0 a1 u) u))

omit hon hrec hb hup in
theorem swapStart_free {op : ListOp} {n : Nat} {tag : BitVec 8} {u : State} (h : hasSwap u = false) :
    swapStart op n tag u = swapBegun op n tag (getReg u (rKPR_CMD_ARG0 n)) (getReg u (rKPR_CMD_ARG1 n)) u := by
  unfold swapStart swapBegun
  rw [h, if_neg Bool.false_ne_true]
  exact ite_not _ _ _

theorem swap_rows (tag : BitVec 8) (h : hasSwap s = false) : ∀ row ∈ [(Instr.swapMicrocode n tag, ListOp.swapMicro),
    (.swapPortFw n tag, .swapPort), (.swapUncoreFw n tag, .swapUncore)], exec row.1 s =
      .next (swapBegun row.2 n tag (getReg s (rKPR_CMD_ARG0 n)) (getReg s (rKPR_CMD_ARG1 n)) (cmdBusy n tag s)) := by
  obtain ⟨h0, h1⟩ := cmdBusy_args n tag s
  obtain ⟨-, hk, -, -, -, -⟩ := cmdBusy_leaves n tag s
  have hfree : hasSwap (cmdBusy n tag s) = false := by
    rw [hasSwap, hasList_congr (congrArg KprSt.lists hk), hasList_congr (congrArg KprSt.lists hk), hasList_congr (congrArg KprSt.lists hk)]
    exact h
  have hrun {i : Instr} {c : Nat} {op : ListOp} (hrow : (i, c) ∈ cmdRows n tag)
      (hr : ∀ u, cmdRun u ⟨n, BitVec.ofNat 8 c, tag⟩ = swapStart op n tag u) : exec i s =
        .next (swapBegun op n tag (getReg s (rKPR_CMD_ARG0 n)) (getReg s (rKPR_CMD_ARG1 n)) (cmdBusy n tag s)) := by
    rw [exec_cmdRow_runs hon hrec hb hup tag hrow, hr, swapStart_free hfree, h0, h1]
  simp only [List.forall_mem_cons, List.not_mem_nil, false_implies, implies_true, and_true]
  exact ⟨hrun (c := 0x10) (by simp [cmdRows]) (fun u => cmdRun_swapMicro u n tag),
    hrun (c := 0x11) (by simp [cmdRows]) (fun u => cmdRun_swapPort u n tag),
    hrun (c := 0x12) (by simp [cmdRows]) (fun u => cmdRun_swapUncore u n tag)⟩

end

/-- Settles O60: every clause by its row. -/
theorem stepLatchAndPacketCommandsComplete : Obligations.StepLatchAndPacketCommandsComplete := by
  unfold Obligations.StepLatchAndPacketCommandsComplete
  refine ⟨fun s hs => ⟨readyVote_row hs, stepOpens_row hs, poolWaitExpiry_row hs,
      fun i f hl hst hc hf hi hp hr hfs hcut => ⟨commitBoundary_row hs hl hst hc hf hi hp hr hfs hcut, committed_next hi⟩,
      fun b hl hst hb hd hr hdue hturn hid => contributionDeadline_row hs hl hst hb hd hr hdue hturn hid,
      fun f hc ha hl hf hst h1 h2 hn hat => collectionClose_row hs hc ha hl hf hst h1 h2 hn hat,
      fun a f hl hr hf hst => repeatOpen_row hs hl hr hf hst⟩,
    fun m s hs hn => ⟨readyVoteReceived_row hs hn, recoveryHold_row hs hn, recoveryRelease_row hs hn⟩,
    fun d s hs hn => ⟨commitDesignation_row hs hn, repeatDesignation_row hs hn, fun a f => resumeDesignation_row hs hn⟩,
    fun m s hs hn => ⟨abortAcknowledgement_row hs hn, fun ho hf ha hd hat => deadlineReport_row hs hn ho hf ha hd hat⟩,
    fun m s hs ho hn ha hc hd hat => abort_rows hs ho hn ha hc hd hat,
    fun a bs path s hs hr hb hin hp => firstTouch_row hs path hr hb hin hp,
    fun d j s hs hj hrun hd hbad hu => latchCopyDone_row hs hj hrun hd hbad hu,
    fun s hs hst => ⟨latchRestore_row hs hst, latchRestoreDone_row hs hst⟩,
    fun v s hs hl hf => latCut_row hs hl hf, fun r s hs ho hl hf hc => cutRequest_row hs ho hl hf hc,
    fun x s hs hh hf => tier1TransferDone_row hs hh hf, fun x p s hs ht hin hb => tier1Completion_row hs ht hin hb,
    fun n found reqs s hs hp => archiveLinkUp_row n found reqs hs hp, fun s hs hup => archiveLinkDown_row hs hup,
    fun slot stage leafA x c s hs hj hx hc => nvmeCompletion_row hs hj hx hc,
    fun d src p s hs ho ha hst hi h1 h2 hb hroom => reductionPacket_row hs ho ha hst hi h1 h2 hb hroom,
    fun c s l g b h hg he hgs hb hid hl hn hc hd h1 hbd hbf hst hblk hcw hk =>
      gredComplete_row hg he hgs hb hid hl hn hc hd h1 hbd hbf hst hblk hcw hk,
    fun d p k s hs ht hin hb => ⟨keywayResolve_brought hs ht hin hb, fun hd ha =>
      ⟨fun v => dispatchArrival_brought hs ht hin hb hd ha, closeArrival_brought hs ht hin hb hd ha, answers_brought hs ht hin hb hd ha⟩⟩,
    fun d p w s hs ht hin he hw hv hm => keywayResolve_row hs ht hin he hw hv hm,
    fun n tag s hon hrec hb hup => ⟨restart_row hon hrec hb hup tag, fwStage_row hon hrec hb hup tag,
      fun hw hl => ⟨fwSelect_row hon hrec hb hup tag hw hl, fun h a m hst => fwWrite_row hon hrec hb hup tag hw hl hst⟩,
      swap_rows hon hrec hb hup tag⟩⟩

end Sys2Proof.Machine
end

section
/-! PROOF. When nothing starts: cores that do not run, and what a fault leaves of a core and its queues. -/
namespace Sys2Proof.Machine

/-! ### A core that does not run starts nothing -/

section
variable {c : Nat} {s : State} {l : LCore}

theorem startOne_absent (h : getL s c = none) : startOne c s = none := by
  simp [startOne, startM, startT, startV, startX, startC, startK, startG, startF, h]

theorem startOne_stopped (hg : getL s c = some l) (hr : coreRuns s l = false) : startOne c s = none := by
  simp [startOne, startM, startT, startV, startX, startC, startK, startG, startF, hg, hr]

end

theorem coreRuns_no_image {s : State} (h : s.img = none) (l : LCore) : coreRuns s l = false := by simp [coreRuns, h]

theorem coreRuns_stopped {l : LCore} (h : l.stopped = true) (s : State) : coreRuns s l = false := by simp [coreRuns, h]

/-- Logical core `c` starts nothing: it is absent, does not run, or holds nothing. -/
def Still (c : Nat) (s : State) : Prop :=
  ∀ l, getL s c = some l → coreRuns s l = false ∨ l.qs = List.replicate 9 [] ∧ l.emptyAt = []

theorem startOne_still {c : Nat} {s : State} (h : Still c s) : startOne c s = none := by
  cases hg : getL s c with
  | none => exact startOne_absent hg
  | some l =>
    rcases h l hg with hr | ⟨hq, he⟩
    · exact startOne_stopped hg hr
    · exact startOne_empty hg he fun q _ _ => queue_none hq q

/-! ### Faults stop the core (R135) -/

theorem getElem?_listMod {α : Type} (l : List α) (n : Nat) (f : α → α) : (listMod l n f)[n]? = l[n]?.map f := by
  induction l generalizing n with
  | nil => rfl
  | cons a l ih =>
    cases n with
    | zero => rfl
    | succ n => simpa [listMod] using ih n

theorem getL_modL (c : Nat) (f : LCore → LCore) (s : State) : getL (modL c f s) c = (getL s c).map f := getElem?_listMod _ _ _

/-- The state with logical core `c` stopped by a fault of code `code` in a voted step. -/
def faultStopped (c q pc : Nat) (code : Code) (s : State) : State :=
  let s := sendRoot (.abort (abortMsg (modL c (fun l => { l with stopped := true }) s) 3 code noMember 0 true))
    (modL c (fun l => { l with stopped := true }) s)
  match s.img with
  | some i => match i.faultPend with
    | some _ => s
    | none => { s with img := some { i with faultPend := some (code, faultDetail c q pc) } }
  | none => s

theorem faultStopped_lcores (c q pc : Nat) (code : Code) (s : State) :
    (faultStopped c q pc code s).lcores = (modL c (fun l => { l with stopped := true }) s).lcores := by
  have hm := (sendRoot_frame (.abort (abortMsg (modL c (fun l => { l with stopped := true }) s) 3 code noMember 0 true))
    (modL c (fun l => { l with stopped := true }) s)).msg
  unfold faultStopped
  dsimp only
  split
  · split
    · exact hm.lcores
    · exact hm.lcores
  · exact hm.lcores

/-- A fault stops its core, or ends the image. -/
theorem programFaultAux_still (c q pc : Nat) (code : Code) (aux : Nat) (s : State) : Still c (programFaultAux c q pc code aux s) := by
  have hcases (u : State) : Still c (if stepState u = 2 then faultStopped c q pc code u
      else imageEnd code (faultDetail c q pc) (if stepIsOpen (programFlood code u) then
        addFld RDU_STEP_COUNT_ABORTS 1 (setFld RDU_STEP_STAT_LAST_CAUSE 3 (programFlood code u)) else programFlood code u)) := by
    intro l hl
    left
    split
    next h =>
      rw [if_pos h, getL, faultStopped_lcores] at hl
      have hmod := hl.symm.trans (getL_modL c (fun l => { l with stopped := true }) u)
      obtain ⟨x, -, hx⟩ := Option.map_eq_some_iff.1 hmod.symm
      exact coreRuns_stopped (by rw [← hx]) _
    next => exact coreRuns_no_image (imageEnd_img _ _ _) l
  exact hcases _

theorem programFault_still (c q pc : Nat) (code : Code) (s : State) : Still c (programFault c q pc code s) := programFaultAux_still _ _ _ _ _ _

/-! ### Faults of a loop query's server (R270, R490) -/

/-- What a logical core holds in its queues, and the keyrings' owed emptyings. -/
def held (l : LCore) : List (List QE) × List Nat := (l.qs, l.emptyAt)

/-- The queues of every logical core stand. -/
def QueuesKept (s t : State) : Prop := t.lcores.map held = s.lcores.map held

theorem QueuesKept.of_lcores {s t : State} (h : t.lcores = s.lcores) : QueuesKept s t := congrArg (List.map held) h

theorem QueuesKept.trans {s t u : State} (h : QueuesKept s t) (k : QueuesKept t u) : QueuesKept s u := Eq.trans k h

theorem QueuesKept.get {s t : State} (h : QueuesKept s t) (c : Nat) : (getL t c).map held = (getL s c).map held := by
  have hk := congrArg (·[c]?) h
  rwa [List.getElem?_map, List.getElem?_map] at hk

theorem setL_queues {c : Nat} {l l' : LCore} {s : State} (hg : getL s c = some l) (h : held l' = held l) : QueuesKept s (setL c l' s) := by
  have hc : s.lcores[c]? = some l := hg
  obtain ⟨hlt, he⟩ := List.getElem?_eq_some_iff.1 hc
  refine List.ext_getElem? fun k => ?_
  simp only [setL, List.getElem?_map, List.getElem?_set]
  split
  next hk => rw [← hk, hc]; exact congrArg some h
  next => rfl

theorem catchAdd_queues (c i : Nat) (n : BitVec 32) (s : State) : QueuesKept s (catchAdd c i n s) := by
  unfold catchAdd
  split
  next => rfl
  next l hg =>
    have hs (k : Catch) : QueuesKept s (setL c (setCatch i k l) s) := setL_queues hg rfl
    dsimp only
    split
    · exact (hs _).trans (.of_lcores (report_lcores _ _ _ _))
    · exact hs _

theorem queryDispatch_queues (k : Nat) (x : Nat × Word × Ticket) (s : State) : QueuesKept s (queryDispatch k x s) := by
  have hput := (hbmPut_mf (.refl s) (slotAddr s k) (slotBytes x.1 x.2.1 x.2.2)).lcores
  unfold queryDispatch
  dsimp only
  generalize hu : addFld TKT_LOOP_STAT_DISPATCHED 1 _ = u
  have hl : u.lcores = s.lcores := by
    rw [← hu, addFld_lcores, slotBusy, setFld_lcores]
    split
    · exact (jWrite_msg (.refl _) _ _).lcores.trans hput
    · exact hput
  split
  · exact (QueuesKept.of_lcores hl).trans (catchAdd_queues _ _ _ _)
  · exact .of_lcores hl

theorem dispatchAll_queues (n : Nat) (s : State) : QueuesKept s (dispatchAll n s) := by
  induction n generalizing s with
  | zero => rfl
  | succ n ih =>
    unfold dispatchAll
    split
    · rfl
    · split
      · exact (queryDispatch_queues _ _ s).trans (ih _)
      · exact (queryDispatch_queues _ _ s).trans (ih _)
      · rfl

theorem slotOver_queues (k : Nat) (code : Code) (d : Word) (s : State) : QueuesKept s (slotOver k code d s) :=
  (QueuesKept.of_lcores (slotEnd_work k code d s).lcores).trans (dispatchAll_queues _ _)

/-- A fault of a unit, on a core whose queues are empty, leaves the core nothing to start. -/
theorem unitFault_still {c q pc : Nat} {code : Code} {s : State}
    (h : ∀ l, getL s c = some l → held l = (List.replicate 9 [], [])) : Still c (unitFault c q pc code s) := by
  unfold unitFault unitFaultAux
  cases hg : getL s c with
  | none =>
    intro l hl
    rw [hg] at hl
    cases hl
  | some x =>
    dsimp only
    split
    next k _ =>
      intro l hl
      right
      have hk : QueuesKept s (slotFault k c q pc code 0 s) := by
        unfold slotFault
        rw [hg]
        exact (QueuesKept.of_lcores (report_lcores _ _ _ _)).trans (slotOver_queues _ _ _ _)
      have hx := hk.get c
      rw [hl, hg] at hx
      have hx : held l = (List.replicate 9 [], []) := (Option.some.inj hx).trans (h x hg)
      exact ⟨congrArg Prod.fst hx, congrArg Prod.snd hx⟩
    next => exact programFaultAux_still _ _ _ _ _ _

theorem xfLast_lcores (phys op : Nat) (code : Code) (a : Option Nat) (s : State) : (xfLast phys op code a s).lcores = s.lcores := by
  have hset (k a : Nat) (u : State) : (setFld (MEM_XF_ADDR_ADDR (phys / 32)) a (addFld (MEM_XF_LAST_FAULTS (phys / 32)) 1
      (setFld (MEM_XF_LAST_OP (phys / 32)) op (setFld (MEM_XF_LAST_CORE (phys / 32)) (phys % 32)
        (setFld (MEM_XF_LAST_CODE (phys / 32)) k u))))).lcores = u.lcores := by
    rw [setFld_lcores, addFld_lcores, setFld_lcores, setFld_lcores, setFld_lcores]
  unfold xfLast
  cases xfCode code <;> cases a <;> dsimp only <;> rw [hset] <;> rfl

/-- A fault of the stream or vector engine, on a core whose queues are empty, leaves the core nothing to start. -/
theorem streamFault_still {c q pc op : Nat} {code : Code} {a : Option Nat} {s : State}
    (h : ∀ l, getL s c = some l → held l = (List.replicate 9 [], [])) : Still c (streamFault c q pc op code a s) := by
  unfold streamFault
  cases hg : getL s c with
  | none =>
    intro l hl
    rw [hg] at hl
    cases hl
  | some x => exact unitFault_still fun l hl => h l (by rwa [getL, xfLast_lcores] at hl)

end Sys2Proof.Machine
end

section
/-! PROOF. An instruction issued on an empty logical core, and the V queue (settles O17, O18). -/
namespace Sys2Proof.Machine

/-! ### Issue on an empty logical core -/

theorem ready_of_canIssue {c : Nat} {l : LCore} {r : Req} {s : State} (h : canIssue c l r s = true) :
    getL s c = some l ∧ coreRuns s l = true ∧ l.block = none := by
  simp only [canIssue, Bool.and_eq_true] at h
  obtain ⟨⟨⟨⟨ha, -⟩, -⟩, -⟩, -⟩ := h
  obtain ⟨hg, hs, -⟩ := seqReady_of_atWord ha
  simp only [seqReady, Bool.and_eq_true, Option.isNone_iff_eq_none] at hs
  simp only [coreRuns, Bool.and_eq_true]
  tauto

theorem coreRuns_setL (c : Nat) (x : LCore) (s : State) (l : LCore) : coreRuns (setL c x s) l = coreRuns s l := rfl

theorem coreRuns_issued (q : Nat) (e : QE) (l : LCore) (s : State) : coreRuns s (issuedCore q e l) = coreRuns s l := rfl

/-- The entry of a core that was empty before it has left. -/
theorem dropEntry_issued {q : Nat} (hq : q ≤ 8) (e : QE) {l : LCore} (h : l.qs = List.replicate 9 []) :
    dropEntry q 0 (issuedCore q e l) = passedCore l := by
  rw [dropEntry_alone hq (l := issuedCore q e l) rfl, ← h]
  rfl

/-- The only entry of an otherwise empty logical core changes. -/
theorem setEntry_alone {l : LCore} {q : Nat} {e : QE} (hq : q ≤ 8) (h : l.qs = (List.replicate 9 []).set q [e]) (e' : QE) :
    setEntry q 0 e' l = { l with qs := (List.replicate 9 []).set q [e'] } := by
  have hget : l.qs[q]? = some [e] := by
    rw [h, List.getElem?_set_self (by simp only [List.length_replicate]; omega)]
  simp only [setEntry, modQueue, listMod_eq _ _ _ _ hget]
  rw [h, List.set_set]
  rfl

theorem setEntry_issued {q : Nat} (hq : q ≤ 8) (e e' : QE) (l : LCore) : setEntry q 0 e' (issuedCore q e l) = issuedCore q e' l :=
  setEntry_alone hq (l := issuedCore q e l) rfl e'

theorem headOf_issued {q : Nat} (hq : q ≤ 8) {e : QE} (he : e.started = false) (l : LCore) : headOf (issuedCore q e l) q = some (0, e) := by
  rw [headOf, issued_alone hq, if_pos rfl]
  simp [enumFrom, he]

/-- A core with nothing blocked is not ended. -/
theorem coreEnd_unblocked {c : Nat} {s : State} {l : LCore} (hg : getL s c = some l) (hb : l.block = none) : coreEnd c s = s := by
  simp only [coreEnd, hg, hb, reduceCtorEq, false_and, if_false]

/-- What an instruction that starts at once, and leaves nothing to start, comes to. -/
theorem pump_starts {c : Nat} {s t : State} {l : LCore} (hg : getL s c = some l) (he : l.emptyAt = []) (h : startOne c s = some t)
    (hs : Still c t) : pump c s = coreEnd c t := pump_one hg he h (startOne_still hs)

theorem still_of_get {c : Nat} {s : State} {l : LCore} (hg : getL s c = some l) (hq : l.qs = List.replicate 9 []) (he : l.emptyAt = []) :
    Still c s := by
  intro x hx
  rw [Option.some.inj (hx.symm.trans hg)]
  exact .inr ⟨hq, he⟩

/-! ### The V queue (R608 to R610) -/

theorem startV_new {c : Nat} {s : State} {l l1 : LCore} {k : CapD} {e : QE} (hg : getL s c = some l) (hl1 : l1 = issuedCore qV e l)
    (hr : coreRuns s l = true) (hq : l.qs = List.replicate 9 []) (hk : e.pl = .ins k) (hs : e.started = false) :
    startV c (setL c l1 s) = some (match vErr l1 k with
      | some err => streamFault c qV e.pc k.op err.1 err.2 (portTo false l (setL c (passedCore l) s))
      | none => { portTo false l (setL c (passedCore l) s) with
          mem := (vWrites s.mem k).foldl (fun m w => putElem k.dD w.1 w.2 m) s.mem }) := by
  have hport : takePort l1 false (setL c l1 s) = some (portTo false l (setL c l1 s)) := hl1 ▸ port_new (by decide) hs l false _
  have hmem : ∀ u, (portTo false l (setL c u s)).mem = s.mem := fun u => by unfold portTo; split <;> rfl
  unfold startV
  rw [getL_setL hg]
  dsimp only
  rw [coreRuns_setL, hl1, coreRuns_issued, hr, headOf_issued (by decide) hs]
  simp only [hk, ← hl1, hport, Bool.not_true, Bool.false_eq_true, if_false]
  rw [hl1, dropEntry_issued (by decide) e hq, portTo_setL, setL_setL, ← portTo_setL]
  cases vErr (issuedCore qV e l) k with
  | none => simp only [hmem]
  | some err => rfl

theorem vErr_issued (q : Nat) (e : QE) (l : LCore) (k : CapD) : vErr (issuedCore q e l) k = vErr l k := rfl

theorem getL_portTo_setL {b : Bool} {l x y : LCore} {c : Nat} {s : State} (hg : getL s c = some y) :
    getL (portTo b l (setL c x s)) c = some x := by
  rw [getL_portTo, getL_setL hg]

/-- The descriptor registers that a V operation reads. -/
def vReads (op : Nat) (k : CapD) (f : FmtD) : List (BitVec 5) :=
  [f.dA] ++ (if vReadsB op && !vScalar k then [f.dB] else []) ++ (if vReadsC op then [f.dC] else []) ++ [f.dD]

/-- What a V instruction with operands `k` does to the state `s'` in which it has passed: it writes, or it faults. -/
def vDone (c pc : Nat) (l : LCore) (k : CapD) (m : Mem) (s' : State) : State := match vErr l k with
  | some err => coreEnd c (streamFault c qV pc k.op err.1 err.2 s')
  | none => { s' with mem := (vWrites m k).foldl (fun m w => putElem k.dD w.1 w.2 m) m }

section
variable {c op level : Nat} {f : FmtD} {s : State} {l : LCore} (h : canIssue c l (issueOf.vReq op level f) s = true)
  (he : coreEmpty l = true) (ho : operandErr l (vReads op (capD op l f f.ctrl.toNat) f) = none)
include h he ho

/-- A V instruction issued on an empty logical core starts at once, and is complete or faults. -/
theorem issueV_row : issueV c op level f s =
    vDone c l.pc l (capD op l f f.ctrl.toNat) s.mem (portTo false l (setL c (passedCore l) s)) := by
  obtain ⟨hg, hr, hb⟩ := ready_of_canIssue h
  obtain ⟨hq, -, hem⟩ := coreEmpty_iff.mp he
  have hi : issueV c op level f s = pump c (setL c (issuedCore qV (entryD op l f) l) s) := issueD_alone h he (show qV ≤ 8 by decide) ho
  have hg1 := getL_setL hg (issuedCore qV (entryD op l f) l)
  have hstart := (startOne_alone (q := qV) hg1 hem (by decide) rfl).trans
    (startV_new (e := entryD op l f) (k := capD op l f f.ctrl.toNat) hg rfl hr hq rfl rfl)
  have hpass : getL (portTo false l (setL c (passedCore l) s)) c = some (passedCore l) := getL_portTo_setL hg
  rw [hi]
  unfold vDone
  rw [vErr_issued] at hstart
  cases hv : vErr l (capD op l f f.ctrl.toNat) with
  | none =>
    rw [hv] at hstart
    exact (pump_starts hg1 hem hstart (still_of_get (l := passedCore l) hpass hq hem)).trans (coreEnd_unblocked (l := passedCore l) hpass hb)
  | some err =>
    rw [hv] at hstart
    refine pump_starts hg1 hem hstart (streamFault_still fun x hx => ?_)
    rw [Option.some.inj (hx.symm.trans hpass)]
    exact Prod.ext hq hem

/-- What O17 says of a row whose command issues operation `op`. -/
theorem vRow {i : Instr} (hx : exec i s = .next (issueV c op level f s)) :
    (vErr l (capD op l f f.ctrl.toNat) = none → exec i s = .next { portTo false l (setL c (passedCore l) s) with
      mem := (vWrites s.mem (capD op l f f.ctrl.toNat)).foldl (fun m w => putElem (capD op l f f.ctrl.toNat).dD w.1 w.2 m) s.mem }) ∧
    (∀ err, vErr l (capD op l f f.ctrl.toNat) = some err →
      exec i s = .next (coreEnd c (streamFault c qV l.pc op err.1 err.2 (portTo false l (setL c (passedCore l) s))))) := by
  rw [hx, issueV_row h he ho, vDone]
  refine ⟨fun hv => ?_, fun err hv => ?_⟩
  · rw [hv]
  · rw [hv]
    rfl

end

/-- Settles O17: each row issues its operation, and all operations start alike. -/
theorem vectorOperations : Obligations.VectorOperations := by
  unfold Obligations.VectorOperations
  intro c f s l he
  have hrow {i : Instr} {op level : Nat} (hi : issueOf s i = some (c, issueOf.vReq op level f))
      (hx : exec i s = .next (issueV c op level f s)) (r : Req) (hr : issueOf s i = some (c, r)) (h : canIssue c l r s = true)
      (ho : operandErr l (vReads op (capD op l f f.ctrl.toNat) f) = none) :=
    vRow (by rw [← (Prod.mk.inj (Option.some.inj (hr.symm.trans hi))).2]; exact h) he ho hx
  simp only [List.forall_mem_cons, List.not_mem_nil, false_implies, implies_true, and_true]
  exact ⟨hrow rfl rfl, hrow rfl rfl, hrow rfl rfl, hrow rfl rfl, hrow rfl rfl, hrow rfl rfl, hrow rfl rfl, hrow rfl rfl, hrow rfl rfl,
    hrow rfl rfl, hrow rfl rfl, hrow rfl rfl, hrow rfl rfl, hrow rfl rfl, hrow rfl rfl, hrow rfl rfl, hrow rfl rfl, hrow rfl rfl⟩

/-! ### Values of the operations that work position by position (R610) -/

theorem residue_lt (a : F32) : residue a < 2 ^ 31 := by
  have hr (n : Nat) : n % resMod < 2 ^ 31 := lt_of_lt_of_le (Nat.mod_lt n (by decide)) (by decide)
  unfold residue
  dsimp only
  split
  · decide
  · split
    · split
      · exact lt_of_le_of_lt (Nat.sub_le _ _) (by decide)
      · exact hr _
    · split
      · exact lt_of_le_of_lt (Nat.sub_le _ _) (by decide)
      · exact hr _

theorem toNat_ofNat_residue (a : F32) : (BitVec.ofNat 32 (residue a)).toNat = residue a := by
  have := residue_lt a
  rw [BitVec.toNat_ofNat]
  omega

/-- Settles O18: `vWrites` at each of the operations. -/
theorem vectorResults : Obligations.VectorResults := by
  unfold Obligations.VectorResults
  intro m k
  have hres (w : List Nat) : (BitVec.ofNat 32 (residue (srcWord m k.dA w))).toNat = residue (srcWord m k.dA w) := toNat_ofNat_residue _
  refine ⟨?_, ?_, ?_, ?_, ?_, ?_, ?_, ?_, ?_, ?_, ?_, ?_, ?_⟩ <;> intro hop <;>
    simp only [vWrites, hop, vReadsB, vReadsC, vScalarOk, vBinary, vUnary, vSel, hres] <;> rfl

end Sys2Proof.Machine
end

section
/-! PROOF. HALT and DETENT (settles O12), HINGE and ACLR (settles O13). -/
namespace Sys2Proof.Machine

/-! ### A core whose queues are empty -/

theorem mmFold_empty {l : LCore} (h : l.qs = List.replicate 9 []) : mmFold l = l := by
  simp [mmFold, queue_none h]

theorem stepOpenIssued_empty {l : LCore} (h : l.qs = List.replicate 9 []) : stepOpenIssued l = l.inStep := by
  simp [stepOpenIssued, queue_none h]

theorem yZero_all (f : FmtY) : (!yZero 0 f) = (f.ctrl != 0) := by
  simp [yZero, bne, BitVec.toNat_eq]

/-- Owed emptyings of the keyrings whose T queue holds nothing come first. -/
theorem emptyDue_empty {l : LCore} (hq : queue l qT = []) (he : l.emptyAt ≠ []) : emptyDue l = emptyKeyrings { l with emptyAt := [] } := by
  have hd : l.emptyAt.filter (fun n => !(queue l qT).any fun e => decide (e.n < n)) = l.emptyAt := by simp [hq]
  have hf : l.emptyAt.filter (fun n => !l.emptyAt.contains n) = [] := by simp
  unfold emptyDue
  rw [hd, if_neg he, hf]

theorem pump_emptied {c : Nat} {s : State} {l : LCore} (hg : getL s c = some l) (hq : queue l qT = []) (he : l.emptyAt ≠ []) :
    pump c s = pump c (setL c (emptyKeyrings { l with emptyAt := [] }) s) := by
  have h1 : modL c emptyDue s = setL c (emptyKeyrings { l with emptyAt := [] }) s := by rw [modL_eq hg, emptyDue_empty hq he]
  have h2 : modL c emptyDue (setL c (emptyKeyrings { l with emptyAt := [] }) s) = setL c (emptyKeyrings { l with emptyAt := [] }) s := by
    rw [modL_eq (getL_setL hg _), setL_setL]
    rfl
  rw [pump, pump, h1, h2]

/-- A core that halts with empty queues ends, and the image with the last of them. -/
theorem pump_halts {c : Nat} {s : State} {l : LCore} (hg : getL s c = some l) (hq : l.qs = List.replicate 9 []) (he : l.emptyAt = [])
    (hb : l.block = some .halt) (hs : l.stopped = false) : pump c s =
      if (setL c { l with halted := true, block := none } s).lcores.all (fun l => l.halted) then
        imageEnd cOK 0 (setL c { l with halted := true, block := none } s)
      else openTry (setL c { l with halted := true, block := none } s) := by
  have hd : modL c emptyDue s = s := by rw [modL_eq hg, emptyDue, he]; exact setL_same hg
  have h0 : startOne c s = none := startOne_empty hg he fun q _ _ => queue_none hq q
  have hall : l.qs.all List.isEmpty = true := by rw [hq]; rfl
  simp only [pump, hd, startAll, h0, coreEnd, hg, hb, hs, hall, Bool.not_false, and_self, if_true]

/-! ### HALT and DETENT -/

theorem halt_row {c : Fin 256} {f : FmtA} {s : State} {l : LCore} (h : canIssue c l (reqA f false []) s = true) (he : coreEmpty l = true)
    (hi : l.inStep = false) : exec (.halt c f) s = .next
      (if (setL c { passedCore l with halted := true, block := none } s).lcores.all (fun l => l.halted) then
        imageEnd cOK 0 (setL c { passedCore l with halted := true, block := none } s)
      else openTry (setL c { passedCore l with halted := true, block := none } s)) := by
  obtain ⟨hg, hr, -⟩ := ready_of_canIssue h
  obtain ⟨hq, -, hem⟩ := coreEmpty_iff.mp he
  have hst : l.stopped = false := by
    simp only [coreRuns, Bool.and_eq_true, Bool.not_eq_true'] at hr
    tauto
  have hx : execHalt c f s = .next (pump c (setL c { passedCore l with block := some .halt } s)) := by
    rw [execHalt, seqIssue_acts h, stepOpenIssued_empty hq, hi, if_neg Bool.false_ne_true, mmFold_empty hq]
    rfl
  refine hx.trans (congrArg Host.Outcome.next ?_)
  refine (pump_halts (l := { passedCore l with block := some .halt }) (getL_setL hg _) hq hem rfl hst).trans ?_
  rw [setL_setL]

theorem halt_in_step {c : Fin 256} {f : FmtA} {s : State} {l : LCore} (h : canIssue c l (reqA f false []) s = true)
    (he : coreEmpty l = true) (hi : l.inStep = true) : exec (.halt c f) s = .next (programFault c qS l.pc cSTEP_SEQUENCE s) := by
  obtain ⟨hq, -, -⟩ := coreEmpty_iff.mp he
  have hx : execHalt c f s = .next (programFault c qS l.pc cSTEP_SEQUENCE s) := by
    rw [execHalt, seqIssue_acts h, stepOpenIssued_empty hq, hi, if_pos rfl]
  exact hx

/-- The core stands at the detent, with its keyrings emptied. -/
theorem detent_row {c : Fin 256} {f : FmtY} {s : State} {l : LCore} (h : canIssue c l (reqY qS 1 f (f.ctrl != 0) [f.xa]) s = true)
    (he : coreEmpty l = true) : exec (.detent c f) s = .next (setL c { emptyKeyrings (passedCore l) with
      block := some (.detent f.qmask.toNat l.seq ((readX l f.xa).toNat % 2 ^ 48)) } s) := by
  obtain ⟨hg, -, -⟩ := ready_of_canIssue h
  obtain ⟨hq, -, hem⟩ := coreEmpty_iff.mp he
  generalize hb : Block.detent f.qmask.toNat l.seq ((readX l f.xa).toNat % 2 ^ 48) = b
  have hx : execDetent c f s = .next (pump c (setL c { passedCore l with block := some b, emptyAt := [l.seq] } s)) := by
    rw [execDetent, yZero_all, seqIssue_acts h, mmFold_empty hq, ite_self, hem, hb]
    rfl
  have hne : b ≠ .halt := by rw [← hb]; exact Block.noConfusion
  refine hx.trans (congrArg Host.Outcome.next ?_)
  have hkeep : { passedCore l with block := some b, emptyAt := [] } = { passedCore l with block := some b } := by
    rw [← hem]
    rfl
  refine (pump_emptied (l := { passedCore l with block := some b, emptyAt := [l.seq] }) (getL_setL hg _) (queue_none hq qT)
    (List.cons_ne_nil _ _)).trans ?_
  rw [setL_setL]
  refine (pump_empty (l := emptyKeyrings { passedCore l with block := some b, emptyAt := [] }) (getL_setL hg _) hq rfl
    (fun e => hne (Option.some.inj e))).trans ?_
  rw [hkeep]
  rfl

theorem detentRelease_rows {c : Fin 256} {s : State} {l : LCore} {mask n banks : Nat} (hg : getL s c = some l)
    (hb : l.block = some (.detent mask n banks)) :
    (coreRuns s l = true → coreEmpty l = true → (mask.testBit qG = true → l.greds = []) → (swapPoint s l && swapOwed s l) = false →
      exec (.detentRelease c) s = .next (setL c { l with block := none } s)) ∧
    (swapPoint s l = true → swapOwed s l = true → exec (.detentRelease c) s = .next s) ∧
    (queuesDone l mask n = false → exec (.detentRelease c) s = .next s) := by
  have hd : detentDone l = queuesDone l mask n := by rw [detentDone, hb]
  have hx : exec (.detentRelease c) s = .next (if coreRuns s l && queuesDone l mask n && !(swapPoint s l && swapOwed s l) then
      pump c (setL c { l with block := none } s) else s) := by
    refine congrArg Host.Outcome.next ?_
    rw [detentRelease, hg, ← hd]
  rw [hx]
  refine ⟨fun hr he hgr hsw => ?_, fun h1 h2 => ?_, fun h => ?_⟩
  · obtain ⟨hq, hw, hem⟩ := coreEmpty_iff.mp he
    have hdone : queuesDone l mask n = true := by
      simp only [queuesDone, Bool.and_eq_true]
      refine ⟨⟨by rw [hq]; simp [enumFrom, List.replicate], by rw [hw]; rfl⟩, ?_⟩
      cases hm : mask.testBit qG with
      | false => rfl
      | true => rw [hgr hm]; rfl
    rw [hr, hdone, hsw]
    exact congrArg Host.Outcome.next (pump_empty (l := { l with block := none }) (getL_setL hg _) hq hem (by simp))
  · rw [h1, h2, if_neg (by simp)]
  · rw [h, if_neg (by simp)]

/-- Settles O12: an issue on the empty core, and the release by its three tests. -/
theorem haltAndDetent : Obligations.HaltAndDetent := by
  unfold Obligations.HaltAndDetent
  exact ⟨fun c f s l h he => ⟨halt_row h he, halt_in_step h he⟩, fun c f s l h he => detent_row h he,
    fun c s l mask n banks hg hb => detentRelease_rows hg hb⟩

/-! ### What has started waits for its completion -/

section
variable {c q : Nat} {s : State} {l : LCore} {e : QE}

theorem headOf_started (h : queue l q = [e]) (he : e.started = true) : headOf l q = none := by
  rw [headOf, h]
  simp [enumFrom, he]

theorem startM_started (hg : getL s c = some l) (h : queue l qM = [e]) (he : e.started = true) : startM c s = none := by
  simp only [startM, hg, headOf_started h he, ite_self]

theorem startT_started (hg : getL s c = some l) (hem : l.emptyAt = []) (h : queue l qT = [e]) (he : e.started = true) :
    startT c s = none := by
  have hd : emptyDue l = l := by simp [emptyDue, hem]
  simp only [startT, hg, hd, headOf_started h he, ite_self]

/-- The only entry of the M or the T queue has started: nothing starts. -/
theorem startOne_started (hg : getL s c = some l) (hem : l.emptyAt = []) (hq : q = qM ∨ q = qT)
    (h : l.qs = (List.replicate 9 []).set q [e]) (he : e.started = true) : startOne c s = none := by
  rcases hq with rfl | rfl
  · exact (startOne_alone hg hem (by decide) h).trans (startM_started hg (by rw [queue_alone h (by decide), if_pos rfl]) he)
  · exact (startOne_alone hg hem (by decide) h).trans (startT_started hg hem (by rw [queue_alone h (by decide), if_pos rfl]) he)

end

/-- What an instruction that starts and stays in its queue comes to. -/
theorem pump_begins {c : Nat} {s t : State} {l l' : LCore} (hg : getL s c = some l) (hem : l.emptyAt = []) (h : startOne c s = some t)
    (ht : startOne c t = none) (hg' : getL t c = some l') (hb : l'.block = none) : pump c s = t :=
  (pump_one hg hem h ht).trans (coreEnd_unblocked hg' hb)

/-! ### HINGE and ACLR -/

theorem capD_op (op : Nat) (l : LCore) (f : FmtD) (ctrl : Nat) : (capD op l f ctrl).op = op := rfl

theorem startM_head {c : Nat} {s : State} {l : LCore} {e : QE} {k : CapD} (hg : getL s c = some l) (hr : coreRuns s l = true)
    (hq : l.qs = (List.replicate 9 []).set qM [e]) (hs : e.started = false) (hk : e.pl = .ins k) :
    startM c s = if k.op = 2 then startHinge c 0 l e k s
      else if partCount (imgLevel s) l.hinge.mode ≤ mPart k then some (programFault c qM e.pc cMM_PART s)
      else if k.op = 0 then startMma c 0 l e k s
      else if k.op = 1 then startDrain c 0 l e k s
      else startAclr c 0 l k s := by
  have hh : headOf l qM = some (0, e) := by
    rw [headOf, queue_alone hq (by decide), if_pos rfl]
    simp [enumFrom, hs]
  simp only [startM, hg, hr, hh, hk, List.take_zero, List.any_nil, Bool.not_true, Bool.false_eq_true, if_false]

/-- The core as a HINGE of word `h` leaves it. -/
def hingedCore (h : Hinge) (e : QE) (l : LCore) : LCore :=
  { emptyKeyrings (issuedCore qM { e with started := true } l) with
    hinge := h
    hingeIssued := h
    acc := []
    accDims := []
    partStop := []
    engStop := [] }

/-- The word of a HINGE. -/
def hingeWord (f : FmtD) (l : LCore) : Hinge := ⟨f.ctrl.toNat % 8, (List.range 4).map fun k => bits (readX l f.xa).toNat (16 * k) 16⟩

/-- The core on which a HINGE of word `h` stands issued, its keyrings emptied. -/
def hingeCore (h : Hinge) (e : QE) (l : LCore) : LCore := { emptyKeyrings (issuedCore qM e l) with hingeIssued := h }

/-- A HINGE at the head of the queue starts: it clears the accumulators and sets the mode. -/
theorem startOne_hinge {c : Nat} {f : FmtD} {s : State} {l : LCore} (hg : getL s c = some (hingeCore (hingeWord f l) (entryD 2 l f) l))
    (hr : coreRuns s l = true) (hem : l.emptyAt = []) :
    startOne c s = some (setL c (hingedCore (hingeWord f l) (entryD 2 l f) l) s) := by
  have hbits : bits f.ctrl.toNat 0 3 = f.ctrl.toNat % 8 := bits_zero _ _
  have hstart := startM_head (k := capD 2 l f f.ctrl.toNat) hg (by exact hr) rfl rfl rfl
  refine ((startOne_alone (q := qM) hg hem (by decide) rfl).trans hstart).trans ?_
  have hset (h : Hinge) (e' : QE) : setEntry qM 0 e' { accClearAll (hingeCore (hingeWord f l) (entryD 2 l f) l) with hinge := h } =
      { accClearAll (hingeCore (hingeWord f l) (entryD 2 l f) l) with
        hinge := h
        qs := (List.replicate 9 []).set qM [e'] } :=
    setEntry_alone (e := entryD 2 l f) (l := { accClearAll (hingeCore (hingeWord f l) (entryD 2 l f) l) with hinge := h }) (by decide) rfl e'
  rw [capD_op, if_pos rfl, startHinge, if_neg (not_not_intro rfl)]
  dsimp only
  rw [hset]
  simp only [capD, hbits]
  rfl

theorem hinge_row {c : Fin 256} {f : FmtD} {s : State} {l : LCore}
    (h : canIssue c l (reqD qM 2 f (!ctrlZero 3 f || decide (6 ≤ bits f.ctrl.toNat 0 3)) [f.xa]) s = true) (he : coreEmpty l = true) :
    exec (.hinge c f) s = .next (setL c (hingedCore (hingeWord f l) (entryD 2 l f) l) s) := by
  obtain ⟨hg, hr, hb⟩ := ready_of_canIssue h
  obtain ⟨hq, -, hem⟩ := coreEmpty_iff.mp he
  have hbits : bits f.ctrl.toNat 0 3 = f.ctrl.toNat % 8 := bits_zero _ _
  have hx : exec (.hinge c f) s = .next (pump c (setL c { issuedCore qM (entryD 2 l f) l with
      hingeIssued := hingeWord f l
      emptyAt := [l.seq] } s)) := by
    refine congrArg Host.Outcome.next ((issueD_empty hingeEntry h he (show qM ≤ 8 by decide) rfl rfl).trans ?_)
    simp only [hingeEntry, newEntry, capD, hem, hbits, dspec]
    rfl
  have hdue : emptyKeyrings { issuedCore qM (entryD 2 l f) l with
      hingeIssued := hingeWord f l
      emptyAt := [] } = hingeCore (hingeWord f l) (entryD 2 l f) l := by
    rw [← hem]
    rfl
  refine hx.trans (congrArg Host.Outcome.next ?_)
  refine (pump_emptied (l := { issuedCore qM (entryD 2 l f) l with
      hingeIssued := hingeWord f l
      emptyAt := [l.seq] }) (getL_setL hg _) (queue_alone rfl (show qM ≤ 8 by decide) qT) (List.cons_ne_nil _ _)).trans ?_
  rw [hdue, setL_setL]
  have hg1 := getL_setL hg (hingeCore (hingeWord f l) (entryD 2 l f) l)
  have hg2 := getL_setL hg1 (hingedCore (hingeWord f l) (entryD 2 l f) l)
  refine (pump_begins hg1 hem (startOne_hinge hg1 hr hem) (startOne_started hg2 hem (.inl rfl) rfl rfl) hg2 hb).trans ?_
  rw [setL_setL]

theorem aclr_row {c : Fin 256} {f : FmtD} {s : State} {l : LCore} (h : canIssue c l (reqD qM 1 f (!ctrlZero 3 f) []) s = true)
    (he : coreEmpty l = true) (hp : mPart (capD 3 l f f.ctrl.toNat) < partCount (imgLevel s) l.hinge.mode)
    (hstop : l.partStop.contains (mPart (capD 3 l f f.ctrl.toNat)) = false) :
    exec (.aclr c f) s = .next (setL c (accClear (if imgLevel s = 1 then [0] else
      partArrays (imgLevel s) l.hinge.mode (mPart (capD 3 l f f.ctrl.toNat))) (mSet (capD 3 l f f.ctrl.toNat)) (passedCore l)) s) := by
  obtain ⟨hg, hr, hb⟩ := ready_of_canIssue h
  obtain ⟨hq, -, hem⟩ := coreEmpty_iff.mp he
  have hi : exec (.aclr c f) s = .next (pump c (setL c (issuedCore qM (entryD 3 l f) l) s)) :=
    congrArg Host.Outcome.next (issueD_alone h he (show qM ≤ 8 by decide) rfl)
  have hg1 := getL_setL hg (issuedCore qM (entryD 3 l f) l)
  have hcl (arrays : List Nat) (set : Nat) : dropEntry qM 0 (accClear arrays set (issuedCore qM (entryD 3 l f) l)) =
      accClear arrays set (passedCore l) := by
    rw [dropEntry_alone (e := entryD 3 l f) (by decide) rfl, ← hq]
    rfl
  have hstart := (startOne_alone (q := qM) hg1 hem (by decide) rfl).trans
    (startM_head (k := capD 3 l f f.ctrl.toNat) hg1 (by exact hr) rfl rfl rfl)
  rw [capD_op, if_neg (by decide), if_neg (by exact not_le.mpr hp), if_neg (by decide), if_neg (by decide), startAclr] at hstart
  dsimp only at hstart
  rw [if_neg (by exact ne_true_of_eq_false hstop), if_neg (by simp [mBlocked]), hcl, setL_setL] at hstart
  refine hi.trans (congrArg Host.Outcome.next ?_)
  have hg2 := getL_setL hg (accClear (if imgLevel s = 1 then [0] else partArrays (imgLevel s) l.hinge.mode (mPart (capD 3 l f f.ctrl.toNat)))
    (mSet (capD 3 l f f.ctrl.toNat)) (passedCore l))
  exact (pump_starts hg1 hem hstart (still_of_get hg2 hq hem)).trans (coreEnd_unblocked hg2 hb)

/-- Settles O13: HINGE stays in its queue, started; ACLR leaves at once. -/
theorem hingeAndClear : Obligations.HingeAndClear := by
  unfold Obligations.HingeAndClear
  exact ⟨fun c f s l _ h he => hinge_row h he, fun c f s l h he hp hstop => aclr_row h he hp hstop⟩

end Sys2Proof.Machine
end

section
/-! PROOF. The T queue on an otherwise empty logical core (settles O16). -/
namespace Sys2Proof.Machine

theorem startT_head {c : Nat} {s : State} {l : LCore} {e : QE} {k : CapD} (hg : getL s c = some l) (hr : coreRuns s l = true)
    (hem : l.emptyAt = []) (hq : l.qs = (List.replicate 9 []).set qT [e]) (hs : e.started = false) (hk : e.pl = .ins k) :
    startT c s = if k.op = 0 then startTkeys c 0 l e k s
      else if k.op = 1 then startTprobe c 0 l e k s
      else if k.op = 2 then
        if l.engStop.contains (tEng k) then some (setL c (dropEntry qT 0 l) s)
        else if engBusy l (tEng k) 0 then none
        else some (setL c (setKeyring (tEng k) keyringEmpty (dropEntry qT 0 l)) s)
      else if 64 ≤ k.xa.toNat ∧ k.xa.toNat ≤ 4096 then some (setL c { dropEntry qT 0 l with cap := k.xa.toNat } s)
      else some (programFault c qT e.pc cTB_CAP s) := by
  have hh : headOf l qT = some (0, e) := by
    rw [headOf, queue_alone hq (by decide), if_pos rfl]
    simp [enumFrom, hs]
  have hd : emptyDue l = l := by simp [emptyDue, hem]
  simp only [startT, hg, hr, hd, setL_same hg, hh, hk, hem, List.any_nil, Bool.not_true, Bool.false_eq_true, if_false]

theorem engBusy_first (l : LCore) (n : Nat) : engBusy l n 0 = false := rfl

theorem portTo_mem (b : Bool) (l : LCore) (s : State) : (portTo b l s).mem = s.mem := by
  unfold portTo
  split <;> rfl

/-- The engine that a T instruction names. -/
theorem tEng_capD (op : Nat) (l : LCore) (f : FmtD) : tEng (capD op l f f.ctrl.toNat) = f.ctrl.toNat % 2 := bits_zero _ _

/-! ### Instructions that start -/

section
variable {c : Nat} {l : LCore} {e : QE} {k : CapD} {s t : State} (hst : l.engStop.contains (tEng k) = false)
  (hport : takePort l false s = some t)
include hst hport

theorem startTkeys_loads {kr : Keyring} (herr : tkeysErr t.mem l k.dB = none) (hk : tkeysLoad t.mem l k.dB = .ok kr) :
    startTkeys c 0 l e k s = some (setL c (setEntry qT 0 { e with started := true } (setKeyring (tEng k) kr l)) t) := by
  simp only [startTkeys, hst, engBusy_first, hport, herr, hk, Bool.false_eq_true, if_false]

theorem startTprobe_writes {m : Mem} (herr : tprobeErr t.mem l k = none) (hm : tprobeRun t.mem l k = .ok m) :
    startTprobe c 0 l e k s = some (setL c (setEntry qT 0 { e with started := true } l) { t with mem := m }) := by
  simp only [startTprobe, hst, engBusy_first, hport, herr, hm, Bool.false_eq_true, if_false]

end

section
variable {c : Fin 256} {f : FmtD} {s : State} {l : LCore} {r : Req} {op : Nat}

/-- A T instruction issued on an empty logical core that starts and stays in its queue. -/
theorem issuedT_begins {i : Instr} {x : LCore} {t : State} (h : canIssue c l r s = true) (he : coreEmpty l = true)
    (hx : exec i s = .next (pump c (setL c (issuedCore qT (entryD op l f) l) s)))
    (hstart : startT c (setL c (issuedCore qT (entryD op l f) l) s) = some t) (hg' : getL t c = some x)
    (hqx : x.qs = (List.replicate 9 []).set qT [{ entryD op l f with started := true }]) (hex : x.emptyAt = []) (hbx : x.block = none) :
    exec i s = .next t := by
  obtain ⟨hg, -, -⟩ := ready_of_canIssue h
  obtain ⟨-, -, hem⟩ := coreEmpty_iff.mp he
  have hg1 := getL_setL hg (issuedCore qT (entryD op l f) l)
  refine hx.trans (congrArg Host.Outcome.next ?_)
  exact pump_begins hg1 hem ((startOne_alone (q := qT) hg1 hem (by decide) rfl).trans hstart)
    (startOne_started hg' hex (.inr rfl) hqx rfl) hg' hbx

/-- A T instruction issued on an empty logical core that starts and leaves, or faults. -/
theorem issuedT_leaves {i : Instr} {t : State} (h : canIssue c l r s = true) (he : coreEmpty l = true)
    (hx : exec i s = .next (pump c (setL c (issuedCore qT (entryD op l f) l) s)))
    (hstart : startT c (setL c (issuedCore qT (entryD op l f) l) s) = some t) (ht : Still c t) : exec i s = .next (coreEnd c t) := by
  obtain ⟨hg, -, -⟩ := ready_of_canIssue h
  obtain ⟨-, -, hem⟩ := coreEmpty_iff.mp he
  have hg1 := getL_setL hg (issuedCore qT (entryD op l f) l)
  exact hx.trans (congrArg Host.Outcome.next (pump_starts hg1 hem ((startOne_alone (q := qT) hg1 hem (by decide) rfl).trans hstart) ht))

theorem tkeys_row {k : Keyring} (h : canIssue c l (reqD qT 2 f (!ctrlZero 1 f) []) s = true) (he : coreEmpty l = true)
    (ho : operandErr l [f.dB] = none) (hst : l.engStop.contains (f.ctrl.toNat % 2) = false)
    (herr : tkeysErr s.mem l (readD l f.dB) = none) (hk : tkeysLoad s.mem l (readD l f.dB) = .ok k) :
    exec (.tkeys c f) s = .next (setL c (setKeyring (f.ctrl.toNat % 2) k (issuedCore qT { entryD 0 l f with started := true } l))
      (portTo false l s)) := by
  obtain ⟨hg, hr, hb⟩ := ready_of_canIssue h
  obtain ⟨-, -, hem⟩ := coreEmpty_iff.mp he
  have hx : exec (.tkeys c f) s = .next (pump c (setL c (issuedCore qT (entryD 0 l f) l) s)) :=
    congrArg Host.Outcome.next (issueD_alone h he (show qT ≤ 8 by decide) ho)
  have hg1 := getL_setL hg (issuedCore qT (entryD 0 l f) l)
  have hport := port_new (show qT ≤ 8 by decide) (e := entryD 0 l f) rfl l false (setL c (issuedCore qT (entryD 0 l f) l) s)
  have hmem : (portTo false l (setL c (issuedCore qT (entryD 0 l f) l) s)).mem = s.mem := portTo_mem _ _ _
  have hset (e' : QE) : setEntry qT 0 e' (setKeyring (f.ctrl.toNat % 2) k (issuedCore qT (entryD 0 l f) l)) =
      setKeyring (f.ctrl.toNat % 2) k (issuedCore qT e' l) :=
    setEntry_alone (l := setKeyring _ k (issuedCore qT (entryD 0 l f) l)) (e := entryD 0 l f) (by decide) rfl e'
  have hstart := (startT_head (k := capD 0 l f f.ctrl.toNat) hg1 hr hem rfl rfl rfl).trans ((if_pos rfl).trans
    (startTkeys_loads (l := issuedCore qT (entryD 0 l f) l) (by rw [tEng_capD]; exact hst) hport (by rw [hmem]; exact herr)
      (by rw [hmem]; exact hk)))
  rw [tEng_capD, hset, portTo_setL, setL_setL] at hstart
  exact issuedT_begins h he hx hstart (x := setKeyring (f.ctrl.toNat % 2) k (issuedCore qT { entryD 0 l f with started := true } l))
    (getL_setL (by rw [getL_portTo]; exact hg) _) rfl hem hb

theorem tprobe_row {m : Mem} (h : canIssue c l (reqD qT 2 f (!ctrlZero 2 f) [f.xa]) s = true) (he : coreEmpty l = true)
    (ho : operandErr l [f.dA, f.dD] = none) (hst : l.engStop.contains (f.ctrl.toNat % 2) = false)
    (herr : tprobeErr s.mem l (capD 1 l f f.ctrl.toNat) = none) (hm : tprobeRun s.mem l (capD 1 l f f.ctrl.toNat) = .ok m) :
    exec (.tprobe c f) s =
      .next { portTo false l (setL c (issuedCore qT { entryD 1 l f with started := true } l) s) with mem := m } := by
  obtain ⟨hg, hr, hb⟩ := ready_of_canIssue h
  obtain ⟨-, -, hem⟩ := coreEmpty_iff.mp he
  have hx : exec (.tprobe c f) s = .next (pump c (setL c (issuedCore qT (entryD 1 l f) l) s)) :=
    congrArg Host.Outcome.next (issueD_alone h he (show qT ≤ 8 by decide) ho)
  have hg1 := getL_setL hg (issuedCore qT (entryD 1 l f) l)
  have hport := port_new (show qT ≤ 8 by decide) (e := entryD 1 l f) rfl l false (setL c (issuedCore qT (entryD 1 l f) l) s)
  have hmem : (portTo false l (setL c (issuedCore qT (entryD 1 l f) l) s)).mem = s.mem := portTo_mem _ _ _
  have hstart := (startT_head (k := capD 1 l f f.ctrl.toNat) hg1 hr hem rfl rfl rfl).trans ((if_neg (show ¬ (1 : Nat) = 0 by decide)).trans ((if_pos rfl).trans
    (startTprobe_writes (l := issuedCore qT (entryD 1 l f) l) (by rw [tEng_capD]; exact hst) hport (by rw [hmem]; exact herr)
      (by rw [hmem]; exact hm))))
  have hput : setL c (setEntry qT 0 { entryD 1 l f with started := true } (issuedCore qT (entryD 1 l f) l))
      { portTo false l (setL c (issuedCore qT (entryD 1 l f) l) s) with mem := m } =
      { portTo false l (setL c (issuedCore qT { entryD 1 l f with started := true } l) s) with mem := m } := by
    rw [setEntry_issued (by decide), portTo_setL, portTo_setL]
    exact congrArg (fun u : State => { u with mem := m }) (setL_setL c (portTo false l s) _ _)
  rw [hput] at hstart
  refine issuedT_begins h he hx hstart (x := issuedCore qT { entryD 1 l f with started := true } l) ?_ rfl hem hb
  exact getL_portTo_setL (b := false) (l := l) hg

theorem tclr_row (h : canIssue c l (reqD qT 2 f (!ctrlZero 1 f) []) s = true) (he : coreEmpty l = true)
    (hst : l.engStop.contains (f.ctrl.toNat % 2) = false) :
    exec (.tclr c f) s = .next (setL c (setKeyring (f.ctrl.toNat % 2) keyringEmpty (passedCore l)) s) := by
  obtain ⟨hg, hr, hb⟩ := ready_of_canIssue h
  obtain ⟨hq, -, hem⟩ := coreEmpty_iff.mp he
  have hx : exec (.tclr c f) s = .next (pump c (setL c (issuedCore qT (entryD 2 l f) l) s)) :=
    congrArg Host.Outcome.next (issueD_alone h he (show qT ≤ 8 by decide) rfl)
  have hg1 := getL_setL hg (issuedCore qT (entryD 2 l f) l)
  have hstart := startT_head (k := capD 2 l f f.ctrl.toNat) hg1 hr hem rfl rfl rfl
  rw [capD_op, if_neg (by decide), if_neg (by decide), if_pos rfl, tEng_capD, if_neg (by exact ne_true_of_eq_false hst), engBusy_first,
    if_neg Bool.false_ne_true, dropEntry_issued (by decide) _ hq, setL_setL] at hstart
  have hg2 := getL_setL hg (setKeyring (f.ctrl.toNat % 2) keyringEmpty (passedCore l))
  exact (issuedT_leaves h he hx hstart (still_of_get hg2 hq hem)).trans (congrArg Host.Outcome.next (coreEnd_unblocked hg2 hb))

theorem tcap_row (h : canIssue c l (reqD qT 2 f (f.ctrl != 0) [f.xa]) s = true) (he : coreEmpty l = true) :
    (64 ≤ (readX l f.xa).toNat ∧ (readX l f.xa).toNat ≤ 4096 →
      exec (.tcap c f) s = .next (setL c { passedCore l with cap := (readX l f.xa).toNat } s)) ∧
    (¬ (64 ≤ (readX l f.xa).toNat ∧ (readX l f.xa).toNat ≤ 4096) →
      exec (.tcap c f) s = .next (coreEnd c (programFault c qT l.pc cTB_CAP (setL c (issuedCore qT (entryD 3 l f) l) s)))) := by
  rw [← ctrlZero_all] at h
  obtain ⟨hg, hr, hb⟩ := ready_of_canIssue h
  obtain ⟨hq, -, hem⟩ := coreEmpty_iff.mp he
  have hx : exec (.tcap c f) s = .next (pump c (setL c (issuedCore qT (entryD 3 l f) l) s)) :=
    congrArg Host.Outcome.next (issueD_alone h he (show qT ≤ 8 by decide) rfl)
  have hg1 := getL_setL hg (issuedCore qT (entryD 3 l f) l)
  have hstart := startT_head (k := capD 3 l f f.ctrl.toNat) hg1 hr hem rfl rfl rfl
  rw [capD_op, if_neg (by decide), if_neg (by decide), if_neg (by decide), dropEntry_issued (by decide) _ hq, setL_setL] at hstart
  refine ⟨fun hv => ?_, fun hv => ?_⟩
  · rw [if_pos (by exact hv)] at hstart
    have hg2 := getL_setL hg { passedCore l with cap := (readX l f.xa).toNat }
    exact (issuedT_leaves h he hx hstart (still_of_get hg2 hq hem)).trans (congrArg Host.Outcome.next (coreEnd_unblocked hg2 hb))
  · rw [if_neg (by exact hv)] at hstart
    exact issuedT_leaves h he hx hstart (programFault_still _ _ _ _ _)

end

/-- Settles O16: every T instruction starts as soon as it is issued. -/
theorem tumblerOperations : Obligations.TumblerOperations := by
  unfold Obligations.TumblerOperations
  exact ⟨fun c f s l k h he ho hst herr hk => tkeys_row h he ho hst herr hk,
    fun c f s l m h he ho hst herr hm => tprobe_row h he ho hst herr hm, fun c f s l h he hst => tclr_row h he hst,
    fun c f s l h he => tcap_row h he⟩

end Sys2Proof.Machine
end

section
/-! PROOF. MMAs of one pass (settles O14), and DRAINs (settles O15). -/
namespace Sys2Proof.Machine

/-! ### What an MMA's checks say of M and N -/

theorem ok_of_ite_error {α : Type} {p : Prop} [Decidable p] {e : Code} {x : Except Code α} {a : α}
    (h : (if p then .error e else x) = .ok a) : ¬ p ∧ x = .ok a := by
  by_cases hp : p
  · rw [if_pos hp] at h
    cases h
  · rw [if_neg hp] at h
    exact ⟨hp, h⟩

/-- An MMA that passes its checks has the M and N that its operands name. -/
theorem mmaExtent_of_ops {s : State} {l : LCore} {k : CapD} {o : MmaOps} (h : mmaOps s l k = .ok o) : mmaExtent s l k = some (o.m, o.n) := by
  unfold mmaOps at h
  unfold mmaExtent
  dsimp only at h
  obtain ⟨-, h⟩ := ok_of_ite_error h
  cases hB : operandShape k.dB (mTB k) true with
  | none =>
    rw [hB] at h
    cases h
  | some b =>
    rw [hB] at h
    dsimp only at h ⊢
    obtain ⟨hA, h⟩ := ok_of_ite_error h
    obtain ⟨-, h⟩ := ok_of_ite_error h
    obtain ⟨-, h⟩ := ok_of_ite_error h
    obtain ⟨hconv, h⟩ := ok_of_ite_error h
    obtain ⟨-, h⟩ := ok_of_ite_error h
    cases hc : mConv k with
    | true =>
      rw [hc, if_pos rfl] at h hconv
      cases hr : convRead s.mem l k.xa (dRank k.dA) with
      | none =>
        rw [hr] at hconv
        exact absurd (by simp) hconv
      | some r =>
        rw [hr] at h
        cases h
        rfl
    | false =>
      rw [hc, if_neg Bool.false_ne_true] at h
      cases hs : operandShape k.dA (mTA k) false with
      | none =>
        rw [hc, hs] at hA
        exact absurd (by simp) hA
      | some a =>
        rw [hs] at h
        dsimp only at h
        split at h <;> cases h <;> rfl

theorem mmaFolded_of_ops {s : State} {l : LCore} {k : CapD} {o : MmaOps} (h : mmaOps s l k = .ok o)
    (hm : o.m ≤ (partShape (imgLevel s) l.hinge.mode).1) (hn : o.n ≤ (partShape (imgLevel s) l.hinge.mode).2) : mmaFolded s l k = false := by
  rw [mmaFolded, mmaExtent_of_ops h]
  simp only [decide_eq_false_iff_not]
  omega

/-! ### An MMA of one pass (R152, R153) -/

/-- A single pass changes only the accumulators. -/
theorem mmaSingle_acc (l : LCore) (k : CapD) (o : MmaOps) (level lim : Nat) : ∃ acc, mmaSingle l k o level lim = { l with acc := acc } := by
  have hput (mode part set i j : Nat) (v : Pair) (x : LCore) (hx : ∃ acc, x = { l with acc := acc }) :
      ∃ acc, accPut mode part set i j v x = { l with acc := acc } := by
    obtain ⟨acc, rfl⟩ := hx
    exact ⟨_, rfl⟩
  have hfold (f : LCore → Nat × Nat → LCore) (hf : ∀ x p, (∃ acc, x = { l with acc := acc }) → ∃ acc, f x p = { l with acc := acc })
      (ps : List (Nat × Nat)) : ∀ x, (∃ acc, x = { l with acc := acc }) → ∃ acc, ps.foldl f x = { l with acc := acc } := by
    induction ps with
    | nil => exact fun x hx => hx
    | cons p ps ih => exact fun x hx => ih _ (hf x p hx)
  unfold mmaSingle
  refine hfold _ (fun x p hx => hput _ _ _ _ _ _ _ hx) _ _ ?_
  split
  · exact ⟨_, rfl⟩
  · exact ⟨l.acc, rfl⟩

section
variable {c : Nat} {s : State} {l : LCore} {e : QE} {k : CapD} (hstop : l.partStop.contains (mPart k) = false)
include hstop

theorem startMma_single {o : MmaOps} {t : State} (ho : mmaOps s l k = .ok o) (hm : o.m ≤ (partShape (imgLevel s) l.hinge.mode).1)
    (hn : o.n ≤ (partShape (imgLevel s) l.hinge.mode).2) (hbad : passBad o 0 (partShape (imgLevel s) l.hinge.mode).1 = none)
    (hport : takePort l false s = some t) (hone : (queue l qM)[1]? = none) :
    startMma c 0 l e k s = some (setL c (setEntry qM 0 { e with started := true }
      (setDims (mPart k) (mSet k) (o.m, o.n) (mmaSingle l k o (imgLevel s) (ceilDiv o.k o.g)))) t) := by
  have hblk (b : Bool) : mBlocked l k b 0 = false := by simp [mBlocked]
  simp only [startMma, hstop, mmaFolded_of_ops ho hm hn, hblk, hone, ho, startSingle, hport, hbad, Bool.false_eq_true, if_false,
    Bool.not_false, if_true, Nat.zero_add]

theorem startMma_folded (hf : mmaFolded s l k = true) (hone : (queue l qM)[1]? = none) (herr : e.err = none) :
    startMma c 0 l e k s = none := by
  have hblk (b : Bool) : mBlocked l k b 0 = false := by simp [mBlocked]
  simp only [startMma, hstop, hf, hblk, hone, herr, Bool.false_eq_true, if_false, Option.isSome_none, Nat.zero_add]

end

/-- An M instruction alone in its queue that starts and stays there. -/
theorem pumpM_begins {c : Nat} {s t : State} {l x y : LCore} {e e' : QE} (hg : getL s c = some l) (hem : l.emptyAt = [])
    (hq : l.qs = (List.replicate 9 []).set qM [e]) (hst : startM c s = some (setL c (setEntry qM 0 e' x) t)) (ht : getL t c = some y)
    (hx : x.qs = (List.replicate 9 []).set qM [e]) (hxe : x.emptyAt = []) (hxb : x.block = none) (he : e'.started = true) :
    pump c s = setL c (setEntry qM 0 e' x) t := by
  rw [setEntry_alone (by decide) hx e'] at hst ⊢
  have hg2 := getL_setL ht { x with qs := (List.replicate 9 []).set qM [e'] }
  exact pump_begins hg hem ((startOne_alone (q := qM) hg hem (by decide) hq).trans hst) (startOne_started hg2 hxe (.inl rfl) rfl he) hg2 hxb

/-- Settles O14: an MMA alone in its queue starts at once when one pass holds it. -/
theorem singlePassMma : Obligations.SinglePassMma := by
  unfold Obligations.SinglePassMma
  intro c f s l r hi h he hop
  obtain ⟨hg, hr, hb⟩ := ready_of_canIssue h
  obtain ⟨hq, -, hem⟩ := coreEmpty_iff.mp he
  have hreq := (Prod.mk.inj (Option.some.inj hi)).2
  have hx : exec (.mma c f) s = .next (pump c (setL c (issuedCore qM (entryD 0 l f) l) s)) :=
    congrArg Host.Outcome.next (issueD_alone (hreq ▸ h) he (show qM ≤ 8 by decide) hop)
  have hg1 := getL_setL hg (issuedCore qM (entryD 0 l f) l)
  have hone : (queue (issuedCore qM (entryD 0 l f) l) qM)[1]? = none := by rw [issued_alone (by decide)]; rfl
  have hstart := startM_head (k := capD 0 l f f.ctrl.toNat) hg1 hr rfl rfl rfl
  have hone' := startOne_alone (q := qM) hg1 hem (by decide) rfl
  dsimp only
  refine ⟨fun o hp ho hstop hm hn hbad => ?_, fun hp hstop hf => ?_, fun hp => ?_⟩
  · have hport := port_new (show qM ≤ 8 by decide) (e := entryD 0 l f) rfl l false (setL c (issuedCore qM (entryD 0 l f) l) s)
    rw [capD_op, if_neg (by decide), if_neg (by exact not_le.mpr hp), if_pos rfl] at hstart
    have hst := hstart.trans (startMma_single (by exact hstop) ho hm hn hbad hport hone)
    obtain ⟨acc, hacc⟩ := mmaSingle_acc (issuedCore qM (entryD 0 l f) l) (capD 0 l f f.ctrl.toNat) o (imgLevel s) (ceilDiv o.k o.g)
    refine hx.trans (congrArg Host.Outcome.next (pumpM_begins hg1 hem rfl hst ((getL_portTo _).trans hg1) (e := entryD 0 l f) ?_ ?_ ?_ rfl))
    · exact (congrArg LCore.qs hacc :)
    · exact (congrArg LCore.emptyAt hacc).trans hem
    · exact (congrArg LCore.block hacc).trans hb
  · rw [capD_op, if_neg (by decide), if_neg (by exact not_le.mpr hp), if_pos rfl] at hstart
    exact hx.trans (congrArg Host.Outcome.next (pump_none hg1 hem (by rw [show (issuedCore qM (entryD 0 l f) l).block = none from hb]; simp)
      (hone'.trans (hstart.trans (startMma_folded (by exact hstop) hf hone rfl)))))
  · rw [capD_op, if_neg (by decide), if_pos (by exact hp)] at hstart
    exact hx.trans (congrArg Host.Outcome.next (pump_starts hg1 hem (hone'.trans hstart) (programFault_still _ _ _ _ _)))

end Sys2Proof.Machine
end

section
/-! PROOF. DRAINs, their scale records and their completion (settles O15). -/
namespace Sys2Proof.Machine

/-! ### The issue of a DRAIN (R186) -/

theorem drainEntry_plain {l : LCore} {e : QE} {k : CapD} (hk : e.pl = .ins k) (hx : k.xa = 0) : drainEntry l e = (e, l) := by
  simp only [drainEntry, hk, hx, if_true]

theorem drainEntry_record {l : LCore} {e : QE} {k : CapD} (hk : e.pl = .ins k) (hx : k.xa ≠ 0) (hq : queue l qM = []) :
    drainEntry l e = ({ e with srec := .unread }, l) := by
  have hb : recordBehind l k.xa = none := by simp [recordBehind, hq]
  simp only [drainEntry, hk, hx, hb, if_false]

section
variable {c : Nat} {s : State} {l : LCore} {e : QE} {k : CapD} (hstop : l.partStop.contains (mPart k) = false)
include hstop

/-- A DRAIN whose record has not been read does not start. -/
theorem startDrain_waits (hr : e.srec = .unread) : startDrain c 0 l e k s = none := by
  have hb : mBlocked l k false 0 = false := by simp [mBlocked]
  have hrr : recReady e = false := by rw [recReady, hr]
  simp only [startDrain, hstop, hb, hrr, Bool.false_eq_true, if_false, Bool.not_false, Bool.or_true, if_true]

/-- The output pair of a DRAIN at row `i` and column `j`. -/
def drainPair (level : Nat) (l : LCore) (k : CapD) (i j : Nat) : Pair :=
  if i < (partShape level l.hinge.mode).1 ∧ j < (partShape level l.hinge.mode).2 then accGet l l.hinge.mode (mPart k) (mSet k) i j else pairZero

/-- A DRAIN without a record that passes its checks and meets no trap stores its outputs. -/
theorem startDrain_stores {t u : State} {e' : QE} (hr : e.srec = .none) (hport : takePort l false s = some t)
    (hc : drainCheck t l k none (drainDims (imgLevel s) l k).1 (drainDims (imgLevel s) l k).2 = none)
    (hd : drainDo t c l e k [(0, 0)] (drainDims (imgLevel s) l k).1 (drainDims (imgLevel s) l k).2
      (max (partShape (imgLevel s) l.hinge.mode).1 (drainDims (imgLevel s) l k).1)
      (max (partShape (imgLevel s) l.hinge.mode).2 (drainDims (imgLevel s) l k).2) (drainPair (imgLevel s) l k) = (u, e', none)) :
    startDrain c 0 l e k s = some (setL c (setEntry qM 0 e' l) u) := by
  have hb : mBlocked l k false 0 = false := by simp [mBlocked]
  have hrr : recReady e = true := by rw [recReady, hr]
  have hro : recOf e = none := by rw [recOf, hr]
  have hout : (fun r k' => if decide (r < (partShape (imgLevel s) l.hinge.mode).1 ∧ k' < (partShape (imgLevel s) l.hinge.mode).2) = true then
      accGet l l.hinge.mode (mPart k) (mSet k) r k' else pairZero) = drainPair (imgLevel s) l k := by
    funext i j
    simp only [drainPair, decide_eq_true_eq]
  simp only [startDrain, hstop, hb, hrr, hro, hport, hc, hout, hd, Bool.false_eq_true, if_false, Bool.not_true, Bool.or_false]

end

theorem drainDo_leaves (s : State) (c : Nat) (l : LCore) (e : QE) (k : CapD) (bs : List (Nat × Nat)) (m n pm pn : Nat)
    (out : Nat → Nat → Pair) : (drainDo s c l e k bs m n pm pn out).1.lcores = s.lcores ∧
      (drainDo s c l e k bs m n pm pn out).2.1.started = true := ⟨rfl, rfl⟩

section
variable {c : Fin 256} {f : FmtD} {s : State} {l : LCore} {r : Req} (hi : issueOf s (.drain c f) = some (c, r))
  (h : canIssue c l r s = true) (he : coreEmpty l = true) (ho : operandErr l [f.dD] = none)
  (hp : mPart (capD 1 l f f.ctrl.toNat) < partCount (imgLevel s) l.hinge.mode)
  (hstop : l.partStop.contains (mPart (capD 1 l f f.ctrl.toNat)) = false)
include hi h he ho

/-- A DRAIN issued on an empty logical core stands alone in the M queue, with its record as `drainEntry` has it. -/
theorem drain_issued {e : QE} (hadj : drainEntry l (entryD 1 l f) = (e, l)) :
    exec (.drain c f) s = .next (pump c (setL c (issuedCore qM e l) s)) := by
  have hreq := (Prod.mk.inj (Option.some.inj hi)).2
  have hi := issueD_empty (d := dspec qM 1 1 f (!ctrlZero 6 f || bits f.ctrl.toNat 3 2 == 3 || partUndef s f)
    (f.xa :: if f.ctrl.toNat.testBit 5 then [f.xb] else []) [f.dD]) drainEntry (hreq ▸ h) he (show qM ≤ 8 by decide) ho
    (congrArg (fun p => p.2.qs) hadj)
  refine congrArg Host.Outcome.next (hi.trans ?_)
  change pump c (setL c { nextWord (drainEntry l (entryD 1 l f)).2 with
    qs := (List.replicate 9 []).set qM [(drainEntry l (entryD 1 l f)).1] } s) = _
  rw [hadj]
  rfl

include hp hstop

theorem drain_waits (hx : (capD 1 l f f.ctrl.toNat).xa ≠ 0) :
    exec (.drain c f) s = .next (setL c (issuedCore qM { entryD 1 l f with srec := .unread } l) s) := by
  obtain ⟨hg, hr, hb⟩ := ready_of_canIssue h
  obtain ⟨hq, -, hem⟩ := coreEmpty_iff.mp he
  have hx := drain_issued hi h he ho (drainEntry_record (e := entryD 1 l f) rfl hx (queue_none hq qM))
  have hg1 := getL_setL hg (issuedCore qM { entryD 1 l f with srec := .unread } l)
  have hstart := startM_head (k := capD 1 l f f.ctrl.toNat) hg1 hr rfl rfl rfl
  rw [capD_op, if_neg (by decide), if_neg (by exact not_le.mpr hp), if_neg (by decide), if_pos rfl] at hstart
  refine hx.trans (congrArg Host.Outcome.next (pump_none hg1 hem (by rw [show (issuedCore qM _ l).block = none from hb]; simp) ?_))
  exact (startOne_alone (q := qM) hg1 hem (by decide) rfl).trans (hstart.trans (startDrain_waits (by exact hstop) rfl))

theorem drain_stores {t u : State} {e' : QE} (ht : portTo false l (setL c (issuedCore qM (entryD 1 l f) l) s) = t)
    (hx : (capD 1 l f f.ctrl.toNat).xa = 0)
    (hc : drainCheck t (issuedCore qM (entryD 1 l f) l) (capD 1 l f f.ctrl.toNat) none (drainDims (imgLevel s) l (capD 1 l f f.ctrl.toNat)).1
      (drainDims (imgLevel s) l (capD 1 l f f.ctrl.toNat)).2 = none)
    (hd : drainDo t c (issuedCore qM (entryD 1 l f) l) (entryD 1 l f) (capD 1 l f f.ctrl.toNat) [(0, 0)]
      (drainDims (imgLevel s) l (capD 1 l f f.ctrl.toNat)).1 (drainDims (imgLevel s) l (capD 1 l f f.ctrl.toNat)).2
      (max (partShape (imgLevel s) l.hinge.mode).1 (drainDims (imgLevel s) l (capD 1 l f f.ctrl.toNat)).1)
      (max (partShape (imgLevel s) l.hinge.mode).2 (drainDims (imgLevel s) l (capD 1 l f f.ctrl.toNat)).2)
      (drainPair (imgLevel s) l (capD 1 l f f.ctrl.toNat)) = (u, e', none)) :
    exec (.drain c f) s = .next (setL c (issuedCore qM e' l) u) := by
  obtain ⟨hg, hr, hb⟩ := ready_of_canIssue h
  obtain ⟨hq, -, hem⟩ := coreEmpty_iff.mp he
  have hx := drain_issued hi h he ho (drainEntry_plain (l := l) (e := entryD 1 l f) rfl hx)
  have hg1 := getL_setL hg (issuedCore qM (entryD 1 l f) l)
  have hport := port_new (show qM ≤ 8 by decide) (e := entryD 1 l f) rfl l false (setL c (issuedCore qM (entryD 1 l f) l) s)
  have hstart := startM_head (k := capD 1 l f f.ctrl.toNat) hg1 hr rfl rfl rfl
  rw [capD_op, if_neg (by decide), if_neg (by exact not_le.mpr hp), if_neg (by decide), if_pos rfl] at hstart
  rw [ht] at hport
  have hst := hstart.trans (startDrain_stores (by exact hstop) rfl hport hc hd)
  obtain ⟨hlc, hs⟩ := drainDo_leaves t c (issuedCore qM (entryD 1 l f) l) (entryD 1 l f) (capD 1 l f f.ctrl.toNat) [(0, 0)]
    (drainDims (imgLevel s) l (capD 1 l f f.ctrl.toNat)).1 (drainDims (imgLevel s) l (capD 1 l f f.ctrl.toNat)).2
    (max (partShape (imgLevel s) l.hinge.mode).1 (drainDims (imgLevel s) l (capD 1 l f f.ctrl.toNat)).1)
    (max (partShape (imgLevel s) l.hinge.mode).2 (drainDims (imgLevel s) l (capD 1 l f f.ctrl.toNat)).2)
    (drainPair (imgLevel s) l (capD 1 l f f.ctrl.toNat))
  rw [hd] at hlc hs
  have hu : getL u c = some (issuedCore qM (entryD 1 l f) l) := by
    rw [getL, hlc, ← ht]
    exact (getL_portTo _).trans hg1
  have hrow := pumpM_begins hg1 hem rfl hst hu (e := entryD 1 l f) rfl hem hb hs
  rw [setEntry_issued (by decide)] at hrow
  exact hx.trans (congrArg Host.Outcome.next hrow)

end

/-! ### The scale record -/

theorem soleEntry_iff {q : Nat} {e : QE} {l : LCore} : soleEntry q e l = true ↔
    l.qs = (List.replicate 9 []).set q [e] ∧ l.waits = [] ∧ l.emptyAt = [] ∧ l.block ≠ some .halt := by
  simp only [soleEntry, Bool.and_eq_true, beq_iff_eq, bne_iff_ne, and_assoc]

theorem recordRead_only {c : Nat} {s : State} {l : LCore} {e : QE} {k : CapD} (hg : getL s c = some l)
    (hq : l.qs = (List.replicate 9 []).set qM [e]) (hk : e.pl = .ins k) (hr : e.srec = .unread) :
    recordRead c s = if recPlaced s k.xa.toNat && hbmBad s k.xa.toNat 128 then s
      else pump c (setL c { l with qs := (List.replicate 9 []).set qM [{ e with
        srec := .read (if recPlaced s k.xa.toNat then s.mem.bytes k.xa.toNat 128 else []) }] } s) := by
  have hm : queue l qM = [e] := by rw [queue_alone hq (by decide), if_pos rfl]
  have hf : firstIdx (fun e : QE => e.srec == .unread) [e] = some 0 := by simp [firstIdx, hr]
  simp only [recordRead, hg, hm, hf, List.getElem?_cons_zero, hk, setEntry_alone (show qM ≤ 8 by decide) hq]

theorem unbehind_empty {l : LCore} (h : l.qs = List.replicate 9 []) (n : Nat) (r : RecSt) : unbehind n r l = l := by
  have hmod : listMod (List.replicate 9 ([] : List QE)) qM (fun es => es.map fun e => if e.srec = .behind n then { e with srec := r } else e) =
      List.replicate 9 [] := rfl
  rw [unbehind, modQueue, h, hmod, ← h]

theorem drainFinish_only {c : Nat} {s : State} {l : LCore} {e : QE} {k : CapD} {bs : List Byte} (hg : getL s c = some l)
    (hq : l.qs = (List.replicate 9 []).set qM [e]) (hem : l.emptyAt = []) (hb : l.block ≠ some .halt) (hk : e.pl = .ins k) (hop : k.op = 1)
    (hs : e.started = true) (hp : e.paired = false) (hso : e.streamOut = none) (hro : e.recOut = some bs)
    (hl : latHolds (memPut k.xa.toNat bs (setL c (setEntry qM 0 { e with recOut := none, srec := .read bs } l) s)) k.xa.toNat 128 = false) :
    drainFinish c s = setL c { l with qs := List.replicate 9 [] }
      (memPut k.xa.toNat bs (setL c (setEntry qM 0 { e with recOut := none, srec := .read bs } l) s)) := by
  obtain ⟨pl, n, pc, st, sr, ro, so, pa, sg, fl, ch, er⟩ := e
  dsimp only at hk hs hp hso hro
  subst hk hs hp hso hro
  generalize he : QE.mk (.ins k) n pc true sr (some bs) none false sg fl ch er = e at hq
  generalize he' : QE.mk (.ins k) n pc true (.read bs) none none false sg fl ch er = e' at hl ⊢
  have hm : queue l qM = [e] := by rw [queue_alone hq (by decide), if_pos rfl]
  have hf : firstIdx (startedOp 1) [e] = some 0 := by simp [firstIdx, startedOp, ← he, hop]
  have hset := setEntry_alone (show qM ≤ 8 by decide) hq e'
  have hdrop : dropEntry qM 0 (setEntry qM 0 e' l) = { l with qs := List.replicate 9 [] } := by
    rw [hset]
    exact dropEntry_alone (l := { l with qs := (List.replicate 9 []).set qM [e'] }) (by decide) rfl
  have hun (n : Nat) (r : RecSt) := unbehind_empty (l := { l with qs := List.replicate 9 [] }) rfl n r
  unfold drainFinish
  rw [hg]
  dsimp only
  rw [hm, hf]
  dsimp only [List.getElem?_cons_zero]
  rw [← he]
  dsimp only
  rw [he', if_neg (ne_true_of_eq_false hl)]
  generalize hs' : memPut _ _ _ = s' at hl ⊢
  have hg' : getL s' c = some (setEntry qM 0 e' l) := by
    rw [← hs', getL, (memPut_mf (.refl _) _ _).lcores]
    exact getL_setL hg _
  have hso' : e'.streamOut = none := by rw [← he']
  have hp' : e'.paired = false := by rw [← he']
  unfold drainPop
  rw [hso', hp']
  dsimp only
  rw [hdrop, hun, if_neg Bool.false_ne_true]
  exact pump_empty (l := { l with qs := List.replicate 9 [] }) (getL_setL hg' _) rfl hem hb

/-- Settles O15: the DRAIN by its record, the read and the completion by the only entry of the queue. -/
theorem drainStart : Obligations.DrainStart := by
  unfold Obligations.DrainStart
  refine ⟨fun c f s l r hi h he ho => ?_, fun c s l e k hg hsole hk hr => ?_, fun c s l e k bs hg hsole hk hop hs hp hso hro hl => ?_⟩
  · dsimp only
    refine fun hp hstop => ⟨drain_waits hi h he ho hp hstop, fun hx hc hd => ⟨_, _, Prod.ext rfl (Prod.ext rfl hd), ?_⟩⟩
    exact drain_stores hi h he ho hp hstop rfl hx hc (Prod.ext rfl (Prod.ext rfl hd))
  · obtain ⟨hq, -, -, -⟩ := soleEntry_iff.1 hsole
    have hx := recordRead_only hg hq hk hr
    refine ⟨fun hn => congrArg Host.Outcome.next (hx.trans (if_neg ?_)), fun h1 h2 => congrArg Host.Outcome.next (hx.trans (if_pos ?_))⟩
    · rw [Bool.and_eq_true]
      exact hn
    · rw [h1, h2]
      rfl
  · obtain ⟨hq, -, hem, hb⟩ := soleEntry_iff.1 hsole
    exact congrArg Host.Outcome.next (drainFinish_only hg hq hem hb hk hop hs hp hso hro hl)

end Sys2Proof.Machine
end

section
/-! PROOF. The C queue and the waits on an empty logical core (settles O23). -/
namespace Sys2Proof.Machine

/-! ### Issue of one entry -/

/-- An entry placed on an empty logical core stands alone in its queue. -/
theorem placeEntry_empty {c q : Nat} {l : LCore} (hl : l.qs = List.replicate 9 []) (hq : q ≤ 8) (pl : Payload) (s : State) :
    placeEntry c q l pl s = pump c (setL c (issuedCore q (newEntry l pl) l) s) := by
  have hroom : queueRoom l q = true := by simp [queueRoom, queue_none hl]
  rw [placeEntry, if_pos hroom, pushQ_empty (l := nextWord l) hl hq]
  rfl

/-- A wait that names no other queue is placed like any other entry. -/
theorem placeWaitIn_empty {c q : Nat} {l : LCore} (hl : l.qs = List.replicate 9 []) (hb : l.block = none) (hq : q ≤ 8) (on : WaitOn)
    (s : State) : placeWaitIn c q l on 0 s = pump c (setL c (issuedCore q (newEntry l (.wait on 0)) l) s) := by
  have hroom (k : Nat) : queueRoom l k = true := by simp [queueRoom, queue_none hl]
  have hm : markedQueues q 0 = [] := by simp [markedQueues]
  have hp : placeWait l q on 0 = some (issuedCore q (newEntry l (.wait on 0)) l) := by
    simp only [placeWait, hm, List.all_cons, List.all_nil, hroom, Bool.and_self, if_true, List.foldl_nil, Nat.zero_testBit,
      Bool.false_eq_true, if_false, pushQ_empty hl hq]
    rw [← hb]
    rfl
  rw [placeWaitIn, hp]

/-! ### The head of the C and the F queue -/

section
variable {c : Nat} {s : State} {l : LCore} {e : QE} (hg : getL s c = some l) (hr : coreRuns s l = true)
include hg hr

section
variable (hq : queue l qC = [e])
include hq

theorem startC_cset {i : Nat} {t : BitVec 32} {rearm clear : Bool} (hk : e.pl = .cset i t rearm clear) : startC c s =
    some (setL c (dropEntry qC 0 (setCatch i ⟨if clear then 0 else (catchOf l i).counter, t, rearm⟩ l)) s) := by
  simp only [startC, hg, hr, hq, hk, Bool.not_true, Bool.false_eq_true, if_false]

theorem startC_cread {xd i : Nat} (hk : e.pl = .cread xd i) : startC c s =
    some (setL c (writeX (BitVec.ofNat 6 xd) ((catchOf l i).counter.zeroExtend 64) (dropEntry qC 0 l)) s) := by
  simp only [startC, hg, hr, hq, hk, Bool.not_true, Bool.false_eq_true, if_false]

theorem startC_csig {w : Word} {amount : BitVec 32} {mask : Nat} (hk : e.pl = .csig w amount mask) : startC c s = none := by
  simp only [startC, hg, hr, hq, hk, Bool.not_true, Bool.false_eq_true, if_false]

theorem startC_wait {on : WaitOn} {mask : Nat} (hk : e.pl = .wait on mask) (he : e.started = false) :
    startC c s = some (armWait c qC 0 l e s) := by
  simp only [startC, hg, hr, hq, hk, he, Bool.not_true, Bool.false_eq_true, if_false]

end

section
variable (hq : queue l qF = [e])
include hq

theorem startF_fnow {xd : Nat} (hk : e.pl = .fnow xd) : startF c s =
    some (setL c (writeX (BitVec.ofNat 6 xd) (replicaTime s l.die) (dropEntry qF 0 l)) s) := by
  simp only [startF, hg, hr, hq, hk, Bool.not_true, Bool.false_eq_true, if_false]

theorem startF_wait {on : WaitOn} {mask : Nat} (hk : e.pl = .wait on mask) (he : e.started = false) :
    startF c s = some (armWait c qF 0 l e s) := by
  simp only [startF, hg, hr, hq, hk, he, Bool.not_true, Bool.false_eq_true, if_false]

end

end

theorem queue_issued {q : Nat} (hq : q ≤ 8) (e : QE) (l : LCore) : queue (issuedCore q e l) q = [e] := by
  rw [queue_alone (l := issuedCore q e l) rfl hq, if_pos rfl]

/-- An armed wait that names no queue leaves its queue. -/
theorem armWait_issued {c q : Nat} {l : LCore} {e : QE} (hq : q ≤ 8) (hl : l.qs = List.replicate 9 []) (hw : l.waits = [])
    (hm : waitMask e.pl = 0) (s : State) : armWait c q 0 (issuedCore q e l) e s =
      setL c { passedCore l with waits := [{ e with started := true }] } s := by
  rw [armWait, hm, Nat.zero_testBit, if_neg Bool.false_ne_true, dropEntry_issued hq e hl]
  have hws : (issuedCore q e l).waits ++ [{ e with started := true }] = [{ e with started := true }] := by
    rw [show (issuedCore q e l).waits = [] from hw]
    rfl
  rw [hws]

/-- An entry that starts as soon as it is issued, and leaves the queues empty. -/
theorem issued_leaves {c q : Nat} {l x : LCore} {e : QE} {s : State} {r : Req} (h : canIssue c l r s = true) (he : coreEmpty l = true)
    (hstart : startOne c (setL c (issuedCore q e l) s) = some (setL c x (setL c (issuedCore q e l) s)))
    (hx : x.qs = l.qs) (hem : x.emptyAt = l.emptyAt) (hb : x.block = l.block) :
    pump c (setL c (issuedCore q e l) s) = setL c x s := by
  obtain ⟨hg, -, hbl⟩ := ready_of_canIssue h
  obtain ⟨hl, -, hel⟩ := coreEmpty_iff.mp he
  rw [setL_setL] at hstart
  have hg2 := getL_setL hg x
  exact (pump_starts (l := issuedCore q e l) (getL_setL hg _) hel hstart (still_of_get hg2 (hx.trans hl) (hem.trans hel))).trans
    (coreEnd_unblocked hg2 (hb.trans hbl))

section
variable {c : Nat} {s : State} {l : LCore} {r : Req} (h : canIssue c l r s = true) (he : coreEmpty l = true)
include h he

theorem startOne_issuedC (e : QE) : startOne c (setL c (issuedCore qC e l) s) = startC c (setL c (issuedCore qC e l) s) := by
  obtain ⟨hg, -, -⟩ := ready_of_canIssue h
  obtain ⟨-, -, hem⟩ := coreEmpty_iff.mp he
  exact startOne_alone (q := qC) (getL_setL hg _) hem (by decide) rfl

theorem startOne_issuedF (e : QE) : startOne c (setL c (issuedCore qF e l) s) = startF c (setL c (issuedCore qF e l) s) := by
  obtain ⟨hg, -, -⟩ := ready_of_canIssue h
  obtain ⟨-, -, hem⟩ := coreEmpty_iff.mp he
  exact startOne_alone (q := qF) (getL_setL hg _) hem (by decide) rfl

theorem cset_passes (i : Nat) (t : BitVec 32) (rearm clear : Bool) :
    pump c (setL c (issuedCore qC (newEntry l (.cset i t rearm clear)) l) s) =
      setL c (setCatch i ⟨if clear then 0 else (catchOf l i).counter, t, rearm⟩ (passedCore l)) s := by
  obtain ⟨hg, hr, -⟩ := ready_of_canIssue h
  obtain ⟨hl, -, -⟩ := coreEmpty_iff.mp he
  have hs := startC_cset (getL_setL hg _) (by exact hr) (queue_issued (by decide) (newEntry l (.cset i t rearm clear)) l) rfl
  have hdrop (k : Catch) (e : QE) : dropEntry qC 0 (setCatch i k (issuedCore qC e l)) = setCatch i k (passedCore l) := by
    rw [dropEntry_alone (by decide) (l := setCatch i k (issuedCore qC e l)) rfl, ← hl]
    rfl
  rw [hdrop] at hs
  exact issued_leaves h he ((startOne_issuedC h he _).trans hs) rfl rfl rfl

theorem cread_passes (xa : BitVec 6) (i : Nat) :
    pump c (setL c (issuedCore qC (newEntry l (.cread xa.toNat i)) l) s) =
      setL c (writeX xa ((catchOf l i).counter.zeroExtend 64) (passedCore l)) s := by
  obtain ⟨hg, hr, -⟩ := ready_of_canIssue h
  obtain ⟨hl, -, -⟩ := coreEmpty_iff.mp he
  have hs := startC_cread (getL_setL hg _) (by exact hr) (queue_issued (by decide) (newEntry l (.cread xa.toNat i)) l) rfl
  rw [dropEntry_issued (by decide) _ hl, BitVec.ofNat_toNat, BitVec.setWidth_eq] at hs
  have hw := writeX_eq xa ((catchOf l i).counter.zeroExtend 64) (passedCore l)
  exact issued_leaves h he ((startOne_issuedC h he _).trans hs) (by rw [hw]; rfl) (by rw [hw]; rfl) (by rw [hw]; rfl)

theorem fnow_passes (xd : BitVec 6) :
    pump c (setL c (issuedCore qF (newEntry l (.fnow xd.toNat)) l) s) = setL c (writeX xd (replicaTime s l.die) (passedCore l)) s := by
  obtain ⟨hg, hr, -⟩ := ready_of_canIssue h
  obtain ⟨hl, -, -⟩ := coreEmpty_iff.mp he
  have hs := startF_fnow (getL_setL hg _) (by exact hr) (queue_issued (by decide) (newEntry l (.fnow xd.toNat)) l) rfl
  rw [dropEntry_issued (by decide) _ hl, BitVec.ofNat_toNat, BitVec.setWidth_eq] at hs
  have hw := writeX_eq xd (replicaTime s l.die) (passedCore l)
  exact issued_leaves h he ((startOne_issuedF h he _).trans hs) (by rw [hw]; rfl) (by rw [hw]; rfl) (by rw [hw]; rfl)

theorem csig_stands (w : Word) (amount : BitVec 32) (mask : Nat) :
    pump c (setL c (issuedCore qC (newEntry l (.csig w amount mask)) l) s) =
      setL c (issuedCore qC (newEntry l (.csig w amount mask)) l) s := by
  obtain ⟨hg, hr, hb⟩ := ready_of_canIssue h
  obtain ⟨-, -, hem⟩ := coreEmpty_iff.mp he
  have hs := startC_csig (getL_setL hg _) (by exact hr) (queue_issued (by decide) (newEntry l (.csig w amount mask)) l) rfl
  exact pump_none (getL_setL hg _) hem (show l.block ≠ some .halt by simp [hb]) ((startOne_issuedC h he _).trans hs)

theorem wait_arms {q : Nat} (hq : q = qC ∨ q = qF) (on : WaitOn) : pump c (setL c (issuedCore q (newEntry l (.wait on 0)) l) s) =
    setL c { passedCore l with waits := [{ newEntry l (.wait on 0) with started := true }] } s := by
  obtain ⟨hg, hr, -⟩ := ready_of_canIssue h
  obtain ⟨hl, hw, -⟩ := coreEmpty_iff.mp he
  rcases hq with rfl | rfl
  · have hs := startC_wait (getL_setL hg _) (by exact hr) (queue_issued (by decide) (newEntry l (.wait on 0)) l) rfl rfl
    rw [armWait_issued (by decide) hl hw rfl] at hs
    exact issued_leaves h he ((startOne_issuedC h he _).trans hs) rfl rfl rfl
  · have hs := startF_wait (getL_setL hg _) (by exact hr) (queue_issued (by decide) (newEntry l (.wait on 0)) l) rfl rfl
    rw [armWait_issued (by decide) hl hw rfl] at hs
    exact issued_leaves h he ((startOne_issuedF h he _).trans hs) rfl rfl rfl

end

section
variable {c : Fin 256} {f : FmtY} {s : State} {l : LCore}

theorem cset_row (h : canIssue c l (reqY qC 1 f (!yZero 2 f) [f.xa]) s = true) (he : coreEmpty l = true) :
    exec (.cset c f) s = .next (setL c (setCatch (f.imm.toNat % 128) ⟨if f.ctrl.getLsbD 1 then 0 else
      (catchOf l (f.imm.toNat % 128)).counter, (readX l f.xa).truncate 32, f.ctrl.getLsbD 0⟩ (passedCore l)) s) := by
  obtain ⟨hl, -, -⟩ := coreEmpty_iff.mp he
  have hx : execCset c f s = .next _ := congrArg Host.Outcome.next ((seqIssue_acts h _).trans
    ((placeEntry_empty hl (by decide) _ s).trans (cset_passes h he _ _ _ _)))
  exact hx

theorem cread_row (h : canIssue c l (reqY qC 1 f (f.ctrl != 0) [f.xa]) s = true) (he : coreEmpty l = true) :
    ∃ t, exec (.cread c f) s = .next t ∧ WritesX c l f.xa ((catchOf l (f.imm.toNat % 128)).counter.zeroExtend 64) s t := by
  rw [← yZero_all] at h
  obtain ⟨hl, -, -⟩ := coreEmpty_iff.mp he
  have hx : execCread c f s = .next _ := congrArg Host.Outcome.next ((seqIssue_acts h _).trans
    ((placeEntry_empty hl (by decide) _ s).trans (cread_passes h he _ _)))
  exact ⟨_, hx, writesX_passed _ _ _ _ _⟩

theorem csig_row (h : canIssue c l (reqY qC 1 f (f.ctrl != 0) [f.xa, f.xb]) s = true) (he : coreEmpty l = true) :
    (csigBad s (readX l f.xa) = false → exec (.csig c f) s = .next (setL c (issuedCore qC (newEntry l
      (.csig (readX l f.xa) ((readX l f.xb + f.imm.zeroExtend 64).truncate 32) f.qmask.toNat)) l) s)) ∧
    (csigBad s (readX l f.xa) = true → exec (.csig c f) s = .next (programFault c qC l.pc cCATCH_RANGE s)) := by
  rw [← yZero_all] at h
  obtain ⟨hl, -, -⟩ := coreEmpty_iff.mp he
  refine ⟨fun hb => ?_, fun hb => ?_⟩
  · have hx : execCsig c f s = .next _ := congrArg Host.Outcome.next ((seqIssue_acts h _).trans
      ((if_neg (ne_true_of_eq_false hb)).trans ((placeEntry_empty hl (by decide) _ s).trans (csig_stands h he _ _ _))))
    exact hx
  · have hx : execCsig c f s = .next _ := congrArg Host.Outcome.next ((seqIssue_acts h _).trans (if_pos hb))
    exact hx

theorem wait_rows (he : coreEmpty l = true) (hm : f.qmask = 0) :
    (canIssue c l (reqY qC 1 f (f.ctrl != 0) []) s = true → exec (.cwait c f) s = .next (setL c { passedCore l with
      waits := [{ newEntry l (.wait (.reach (f.imm.toNat % 128)) 0) with started := true }] } s)) ∧
    (canIssue c l (reqY qF 2 f (f.ctrl != 0) [f.xa]) s = true → exec (.fwait c f) s = .next (setL c { passedCore l with
      waits := [{ newEntry l (.wait (.time (readX l f.xa + f.imm.zeroExtend 64)) 0) with started := true }] } s)) := by
  obtain ⟨hl, -, -⟩ := coreEmpty_iff.mp he
  have hq0 : f.qmask.toNat = 0 := by rw [hm]; rfl
  rw [← yZero_all]
  refine ⟨fun h => ?_, fun h => ?_⟩
  · obtain ⟨-, -, hb⟩ := ready_of_canIssue h
    have hx : execCwait c f s = .next _ := congrArg Host.Outcome.next ((seqIssue_acts h _).trans
      ((congrArg (fun m => placeWaitIn c qC l (.reach (f.imm.toNat % 128)) m s) hq0).trans
        ((placeWaitIn_empty hl hb (by decide) _ s).trans (wait_arms h he (.inl rfl) _))))
    exact hx
  · obtain ⟨-, -, hb⟩ := ready_of_canIssue h
    have hx : execFwait c f s = .next _ := congrArg Host.Outcome.next ((seqIssue_acts h _).trans
      ((congrArg (fun m => placeWaitIn c qF l (.time (readX l f.xa + f.imm.zeroExtend 64)) m s) hq0).trans
        ((placeWaitIn_empty hl hb (by decide) _ s).trans (wait_arms h he (.inr rfl) _))))
    exact hx

end

/-! ### A signal is sent -/

theorem csigSend_row {c : Nat} {s : State} {l : LCore} {e : QE} {w : Word} {amount : BitVec 32} {mask : Nat} (hg : getL s c = some l)
    (hr : coreRuns s l = true) (he : soleEntry qC e l = true) (hk : e.pl = .csig w amount mask) (hw : cwRemote w = false) :
    (queuesDone l mask e.n = true → csigSend c s = deliver (mkPacket s 0 (ownId s) 15 l.die s.fab.nextTag
      (.catchSig w amount)) (setL c { l with qs := List.replicate 9 [] } s)) ∧
    (queuesDone l mask e.n = false → csigSend c s = s) := by
  obtain ⟨hq, -, hem, hb⟩ := soleEntry_iff.mp he
  have hqC : queue l qC = [e] := by rw [queue_alone hq (by decide), if_pos rfl]
  refine ⟨fun hd => ?_, fun hd => ?_⟩
  · have hsend : csigSend c s = pump c (deliver (mkPacket s 0 (ownId s) 15 l.die s.fab.nextTag (.catchSig w amount))
        (setL c (dropEntry qC 0 l) s)) := by
      simp only [csigSend, hg, hr, hqC, hk, hd, hw, Bool.not_true, Bool.not_false, Bool.true_or, Bool.false_eq_true, if_false, if_true]
      rfl
    rw [hsend, dropEntry_alone (by decide) hq]
    exact pump_empty (l := { l with qs := List.replicate 9 [] }) (getL_setL hg _) rfl hem hb
  · simp only [csigSend, hg, hr, hqC, hk, hd, Bool.not_true, Bool.not_false, Bool.false_eq_true, if_false, if_true]

/-! ### The end of a wait -/

section
variable {c : Nat} {s : State} {l : LCore} {e : QE} (hq : l.qs = List.replicate 9 []) (hw : l.waits = [e]) (hb : l.block = none)
include hq hw

theorem armedWaits_single : armedWaits l = [e] := by
  simp [armedWaits, hw, queue_none hq]

include hb

theorem endWait_single : endWait e.n l = { l with waits := [] } := by
  have hqs (p : QE → Bool) : (List.replicate 9 ([] : List QE)).map (fun es => es.filter p) = List.replicate 9 [] := rfl
  rw [endWait, hw, hq, hqs, hb, if_neg (by simp)]
  simp only [List.filter_cons, bne_self_eq_false, Bool.false_eq_true, if_false, List.filter_nil, ← hq, ← hb]

end

theorem pump_waitOver {c : Nat} {s : State} {l : LCore} {e : QE} (hg : (getL s c).isSome) (hq : l.qs = List.replicate 9 []) (hw : l.waits = [e])
    (hem : l.emptyAt = []) (hb : l.block = none) : pump c (setL c (endWait e.n l) s) = setL c { l with waits := [] } s := by
  obtain ⟨x, hx⟩ := Option.isSome_iff_exists.mp hg
  rw [endWait_single hq hw hb]
  exact pump_empty (l := { l with waits := [] }) (getL_setL hx _) hq hem (by simp [hb])

section
variable {c : Nat} {s : State} {l : LCore} {e : QE} (hg : getL s c = some l) (hr : coreRuns s l = true)
  (hq : l.qs = List.replicate 9 []) (hw : l.waits = [e]) (hem : l.emptyAt = []) (hb : l.block = none)
include hg hr hq hw

omit hg hr in
theorem reachedWait_single {i : Nat} (hk : e.pl = .wait (.reach i) 0) :
    reachedWait l i = if (catchOf l i).target.toNat ≤ (catchOf l i).counter.toNat then some e else none := by
  rw [reachedWait, armedWaits_single hq hw]
  by_cases hc : (catchOf l i).target.toNat ≤ (catchOf l i).counter.toNat
  · simp [catchReached, hc, hk]
  · simp [catchReached, hc]

include hem hb

theorem cwaitEnds_reached {i : Nat} (hk : e.pl = .wait (.reach i) 0) (hc : (catchOf l i).target.toNat ≤ (catchOf l i).counter.toNat) :
    cwaitEnds c i s = setL c { (if (catchOf l i).rearm then setCatch i { catchOf l i with
      counter := (catchOf l i).counter - (catchOf l i).target } l else l) with waits := [] } s := by
  have hends : cwaitEnds c i s = pump c (setL c (endWait e.n (if (catchOf l i).rearm then setCatch i { catchOf l i with
      counter := (catchOf l i).counter - (catchOf l i).target } l else l)) s) := by
    simp only [cwaitEnds, hg, hr, reachedWait_single hq hw hk, if_pos hc, Bool.not_true, Bool.false_eq_true, if_false]
  rw [hends]
  cases (catchOf l i).rearm with
  | true => exact pump_waitOver (by simp [hg]) hq hw hem hb
  | false => exact pump_waitOver (by simp [hg]) hq hw hem hb

omit hem hb in
theorem cwaitEnds_below {i : Nat} (hk : e.pl = .wait (.reach i) 0) (hc : ¬ (catchOf l i).target.toNat ≤ (catchOf l i).counter.toNat) :
    cwaitEnds c i s = s := by
  simp only [cwaitEnds, hg, hr, reachedWait_single hq hw hk, if_neg hc, Bool.not_true, Bool.false_eq_true, if_false]

omit hg hr hem hb in
theorem reachedTimes_single {t : Word} (hk : e.pl = .wait (.time t) 0) :
    reachedTimes s l = if timeReached s l.die t then [e] else [] := by
  simp only [reachedTimes, armedWaits_single hq hw, List.filter_cons, List.filter_nil, hk]

theorem fwaitFires_reached {t : Word} (hk : e.pl = .wait (.time t) 0) (hl : isLocked s = true)
    (ht : t.toNat ≤ (replicaTime s l.die).toNat) (hi : inTurn s 4 t.toNat = true) : fwaitFires c s = setL c { l with waits := [] } s := by
  have hre : reachedTimes s l = [e] := by
    rw [reachedTimes_single hq hw hk, if_pos]
    simp [timeReached, hl, ht]
  have hf : (getL s c).bind (firedWait s) = some e := by
    rw [hg, Option.bind_some, firedWait, hre]
    rfl
  have hwt : waitTime e = t.toNat := by rw [waitTime, hk]
  rw [fwaitFires, hf]
  dsimp only
  rw [hwt, if_pos hi, fwaitEnd, hg]
  dsimp only
  rw [hre, hr, if_pos (by simp)]
  exact pump_waitOver (by simp [hg]) hq hw hem hb

omit hem hb hr in
theorem fwaitFires_unlocked {t : Word} (hk : e.pl = .wait (.time t) 0) (hl : isLocked s = false) : fwaitFires c s = s := by
  have hf : (getL s c).bind (firedWait s) = none := by
    rw [hg, Option.bind_some, firedWait, reachedTimes_single hq hw hk, if_neg]
    · rfl
    · simp [timeReached, hl]
  rw [fwaitFires, hf]

end

/-- Settles O23: each row as an issue on the empty core, and the waits as the only ones armed. -/
theorem catchesAndWaits : Obligations.CatchesAndWaits := by
  unfold Obligations.CatchesAndWaits
  refine ⟨fun c f s l h he => cset_row h he, fun c f s l h he => cread_row h he, fun c f s l h he => csig_row h he,
    fun c s l e w amount mask hg hr he hk hw => ?_, fun c f s l he hm => wait_rows he hm,
    fun c s l e hg hr hq hw hem hb => ⟨fun i hk => ⟨fun hc => ?_, fun hc => ?_⟩, fun t hk => ⟨fun hl ht hi => ?_, fun hl => ?_⟩⟩⟩
  · obtain ⟨hd, hn⟩ := csigSend_row hg hr he hk hw
    exact ⟨fun h => congrArg Host.Outcome.next (hd h), fun h => congrArg Host.Outcome.next (hn h)⟩
  · exact congrArg Host.Outcome.next (cwaitEnds_reached hg hr hq hw hem hb hk hc)
  · exact congrArg Host.Outcome.next (cwaitEnds_below hg hr hq hw hk hc)
  · exact congrArg Host.Outcome.next (fwaitFires_reached hg hr hq hw hem hb hk hl ht hi)
  · exact congrArg Host.Outcome.next (fwaitFires_unlocked hg hq hw hk hl)

end Sys2Proof.Machine
end

section
/-! PROOF. The F queue on an otherwise empty logical core (settles O26). -/
namespace Sys2Proof.Machine

/-- Two starts, one after the other, after which nothing can start. -/
theorem pump_two {c : Nat} {s t u : State} {l : LCore} (hg : getL s c = some l) (he : l.emptyAt = []) (h : startOne c s = some t)
    (ht : startOne c t = some u) (hu : startOne c u = none) : pump c s = coreEnd c u := by
  have hd : emptyDue l = l := by simp [emptyDue, he]
  have hm : modL c emptyDue s = s := by rw [modL_eq hg, hd, setL_same hg]
  simp only [pump, hm, startAll, h, ht, hu]

section
variable {c : Nat} {s : State} {l : LCore} {e : QE} (hg : getL s c = some l) (hr : coreRuns s l = true) (hq : queue l qF = [e])
include hg hr hq

theorem startF_open {step list : Word} {n : Nat} {sv : Saved} (hk : e.pl = .stepOpen step list n sv) (hs : e.started = false) :
    startF c s = openHead c l e step list n sv s := by
  simp only [startF, hg, hr, hq, hk, hs, Bool.not_true, Bool.false_eq_true, if_false]

theorem startF_commit {step : Word} (hk : e.pl = .stepCommit step) : startF c s = commitHead c l e step s := by
  simp only [startF, hg, hr, hq, hk, Bool.not_true, Bool.false_eq_true, if_false]

end

theorem fnow_row {c : Fin 256} {f : FmtA} {s : State} {l : LCore} (h : canIssue c l (reqF 2 f [f.xd]) s = true)
    (he : coreEmpty l = true) : ∃ t, exec (.fnow c f) s = .next t ∧ WritesX c l f.xd (replicaTime s l.die) s t := by
  obtain ⟨hl, -, -⟩ := coreEmpty_iff.mp he
  have hx : execFnow c f s = .next _ := congrArg Host.Outcome.next ((seqIssue_acts h _).trans
    ((placeEntry_empty hl (by decide) _ s).trans (fnow_passes h he _)))
  exact ⟨_, hx, writesX_passed _ _ _ _ _⟩

/-! ### STEP.OPEN -/

/-- The entry of an executed STEP.OPEN, which holds its write set. -/
def openedEntry (e : QE) (ws : List (Nat × Nat)) : QE :=
  { e with
    started := true
    flight := { flightNone with dst := ws.map fun w => (w.1, w.2 * granBytes) } }

/-- A STEP.OPEN alone at the head of the F queue passes its checks. -/
theorem openHead_issued {c : Nat} {s : State} {l : LCore} {e : QE} {step list : Word} {n : Nat} {sv : Saved} {ws : List (Nat × Nat)}
    (hloop : l.loop = false) (hin : l.inStep = false) (hstep : step.toNat = s.step.next)
    (hws : wsList (setL c (issuedCore qF e l) s) (issuedCore qF e l) list n = some ws) :
    openHead c (issuedCore qF e l) e step list n sv (setL c (issuedCore qF e l) s) =
      some (openTry (cutStreams c s.step.next sv.streams (setL c { issuedCore qF (openedEntry e ws) l with
        opened := true
        saved := some (step, sv) } s))) := by
  have hd : drainsDone (issuedCore qF e l) e.n = true := by
    rw [drainsDone, queue_alone (l := issuedCore qF e l) rfl (by decide), if_neg (by decide)]
    rfl
  have hc : ((issuedCore qF e l).loop || (issuedCore qF e l).inStep) = false := by
    show (l.loop || l.inStep) = false
    rw [hloop, hin]
    rfl
  have hn : ¬ step.toNat ≠ (setL c (issuedCore qF e l) s).step.next := fun hne => hne hstep
  simp only [openHead, hd, hc, if_neg hn, hws, Bool.not_true, Bool.false_eq_true, if_false, setEntry_issued (q := qF) (by decide), setL_setL]
  rw [hstep]
  rfl

theorem stepOpen_row {c : Fin 256} {f : FmtA} {s : State} {l : LCore} {ws : List (Nat × Nat)}
    (h : canIssue c l (reqF 2 f [f.xa, f.xb]) s = true) (he : coreEmpty l = true) (hloop : l.loop = false) (hin : l.inStep = false)
    (hstep : (readX l f.xa).toNat = s.step.next) {sv : Saved} (hsv : sv = ⟨l.x, l.p, l.d, l.hingeIssued, l.streams, l.pc + 8⟩) {e : QE}
    (hee : e = newEntry l (.stepOpen (readX l f.xa) (readX l f.xb) f.imm.toNat sv))
    (hws : wsList (setL c (issuedCore qF e l) s) (issuedCore qF e l) (readX l f.xb) f.imm.toNat = some ws) {t : State}
    (ht : t = openTry (cutStreams c s.step.next sv.streams (setL c { issuedCore qF (openedEntry e ws) l with
      opened := true
      saved := some (readX l f.xa, sv) } s))) (hstill : startOne c t = none) : exec (.stepOpen c f) s = .next (coreEnd c t) := by
  obtain ⟨hg, hr, -⟩ := ready_of_canIssue h
  obtain ⟨hl, -, hem⟩ := coreEmpty_iff.mp he
  have hx : execStepOpen c f s = .next (pump c (setL c (issuedCore qF e l) s)) := by
    rw [hee, hsv]
    exact congrArg Host.Outcome.next ((seqIssue_acts h _).trans (placeEntry_empty hl (by decide) _ s))
  have hs : startOne c (setL c (issuedCore qF e l) s) = some t := by
    rw [ht]
    refine (startOne_issuedF h he e).trans ((startF_open (getL_setL hg _) (by exact hr) (queue_issued (by decide) e l)
      (by rw [hee]; rfl) (by rw [hee]; rfl)).trans ?_)
    exact openHead_issued hloop hin hstep hws
  exact hx.trans (congrArg Host.Outcome.next (pump_one (l := issuedCore qF e l) (getL_setL hg _) hem hs hstill))

/-! ### STEP.COMMIT -/

/-- The core on which a STEP.COMMIT stands in the F queue, its keyrings emptied. -/
def commitCoreOf (e : QE) (b : Option Block) (ready : Bool) (l : LCore) : LCore :=
  { emptyKeyrings (issuedCore qF e l) with
    closing := true
    ready := ready
    block := b }

section
variable {c : Nat} {s : State} {l : LCore} {e : QE} {step : Word} {b : Option Block}
  (hr : coreRuns s l = true) (hk : e.pl = .stepCommit step)
include hr hk

theorem commit_starts (hg : getL s c = some (commitCoreOf e b false l)) (hem : l.emptyAt = []) (hs : e.started = false)
    (hloop : l.loop = false) (hin : l.inStep = true) (hstep : step.toNat = s.step.next) :
    startOne c s = some (setL c (commitCoreOf { e with started := true } b false l) s) := by
  have hq : queue (commitCoreOf e b false l) qF = [e] := queue_issued (by decide) e l
  refine (startOne_alone (q := qF) hg hem (by decide) rfl).trans ((startF_commit hg hr hq hk).trans ?_)
  have hc : ((commitCoreOf e b false l).loop || !(commitCoreOf e b false l).inStep) = false := by
    show (l.loop || !l.inStep) = false
    rw [hloop, hin]
    rfl
  have hset : setEntry qF 0 { e with started := true } (commitCoreOf e b false l) = commitCoreOf { e with started := true } b false l :=
    setEntry_alone (q := qF) (l := commitCoreOf e b false l) (by decide) rfl _
  simp only [commitHead, hs, hc, hstep, modL_eq hg, hset, Bool.not_false, Bool.false_eq_true, if_false, if_true, ne_eq, not_true_eq_false]

theorem commit_ready (hg : getL s c = some (commitCoreOf e (some (.commit e.n)) false l)) (hem : l.emptyAt = []) (hw : l.waits = [])
    (hgr : l.greds = []) (hs : e.started = true) : startOne c s = some (setL c (commitCoreOf e none true l) s) := by
  have hq : queue (commitCoreOf e (some (.commit e.n)) false l) qF = [e] := queue_issued (by decide) e l
  refine (startOne_alone (q := qF) hg hem (by decide) rfl).trans ((startF_commit hg hr hq hk).trans ?_)
  have hdone : queuesDone (commitCoreOf e (some (.commit e.n)) false l) 0x1FF e.n = true := by
    have hqs : (commitCoreOf e (some (.commit e.n)) false l).qs = (List.replicate 9 []).set qF [e] := rfl
    have hws : (commitCoreOf e (some (.commit e.n)) false l).waits = [] := hw
    have hgs : (commitCoreOf e (some (.commit e.n)) false l).greds = [] := hgr
    simp [queuesDone, hqs, hws, hgs, enumFrom, List.replicate, qF]
  have hrd : (!(commitCoreOf e (some (.commit e.n)) false l).ready) = true := rfl
  simp only [commitHead, hs, hrd, hdone, modL_eq hg, Bool.not_true, Bool.false_eq_true, if_false, Bool.and_self, if_true]
  exact congrArg (fun x => some (setL c x s)) (congrArg (fun b => commitCoreOf e b true l) (if_pos rfl))

theorem commit_waits (hg : getL s c = some (commitCoreOf e b true l)) (hem : l.emptyAt = []) (hs : e.started = true) :
    startOne c s = none := by
  have hq : queue (commitCoreOf e b true l) qF = [e] := queue_issued (by decide) e l
  refine (startOne_alone (q := qF) hg hem (by decide) rfl).trans ((startF_commit hg hr hq hk).trans ?_)
  have hrd : (!(commitCoreOf e b true l).ready) = false := rfl
  simp only [commitHead, hs, hrd, Bool.false_and, Bool.not_true, Bool.false_eq_true, if_false]

end

theorem stepCommit_row {c : Fin 256} {f : FmtA} {s : State} {l : LCore} (h : canIssue c l (reqF 2 f [f.xa]) s = true)
    (he : coreEmpty l = true) (hloop : l.loop = false) (hin : l.inStep = true) (hrd : l.ready = false) (hgr : l.greds = [])
    (hstep : (readX l f.xa).toNat = s.step.next) : exec (.stepCommit c f) s = .next (setL c (commitCoreOf
      { newEntry l (.stepCommit (readX l f.xa)) with started := true } none true l) s) := by
  obtain ⟨hg, hr, -⟩ := ready_of_canIssue h
  obtain ⟨hl, hw, hem⟩ := coreEmpty_iff.mp he
  have hroom : queueRoom l qF = true := by simp [queueRoom, queue_none hl]
  generalize hee : newEntry l (.stepCommit (readX l f.xa)) = e
  have hk : e.pl = .stepCommit (readX l f.xa) := by rw [← hee]; rfl
  have hn : e.n = l.seq := by rw [← hee]; rfl
  have hs0 : e.started = false := by rw [← hee]; rfl
  have hx : execStepCommit c f s = .next (pump c (setL c { issuedCore qF e l with
      closing := true
      block := some (.commit e.n)
      emptyAt := [l.seq] } s)) := by
    rw [execStepCommit, seqIssue_acts h, if_pos hroom, mmFold_empty hl, hem, hn, ← hee]
    exact congrArg (fun x => Host.Outcome.next (pump c (setL c x s))) (pushQ_empty (q := qF) (l := nextWord { l with
      closing := true
      block := some (.commit l.seq)
      emptyAt := [l.seq] }) hl (by decide) _)
  have hdue : emptyKeyrings { issuedCore qF e l with
      closing := true
      block := some (.commit e.n)
      emptyAt := [] } = commitCoreOf e (some (.commit e.n)) false l := by
    rw [commitCoreOf, ← hrd, ← hem]
    rfl
  refine hx.trans (congrArg Host.Outcome.next ?_)
  refine (pump_emptied (l := { issuedCore qF e l with
      closing := true
      block := some (.commit e.n)
      emptyAt := [l.seq] }) (getL_setL hg _) (queue_alone (q := qF) rfl (by decide) qT) (List.cons_ne_nil _ _)).trans ?_
  rw [hdue, setL_setL]
  have hg1 := getL_setL hg (commitCoreOf e (some (.commit e.n)) false l)
  have hg2 := getL_setL hg (commitCoreOf { e with started := true } (some (.commit e.n)) false l)
  have hg3 := getL_setL hg (commitCoreOf { e with started := true } none true l)
  have h1 := commit_starts (by exact hr) hk hg1 hem hs0 hloop hin hstep
  have h2 := commit_ready (e := { e with started := true }) (by exact hr) hk hg2 hem hw hgr rfl
  have h3 := commit_waits (e := { e with started := true }) (by exact hr) hk hg3 hem rfl
  rw [setL_setL] at h1 h2
  exact (pump_two hg1 hem h1 h2 h3).trans (coreEnd_unblocked hg3 rfl)

/-- Settles O26: STEP.OPEN starts once; STEP.COMMIT starts and, with nothing before it, is ready. -/
theorem stepInstructions : Obligations.StepInstructions := by
  unfold Obligations.StepInstructions
  refine ⟨fun c f s l h he => fnow_row h he, fun c f s l ws h he hloop hin hstep => ?_,
    fun c f s l h he hloop hin hrd hgr hstep => stepCommit_row h he hloop hin hrd hgr hstep⟩
  intro sv e s1 hws e' l' t ht
  exact stepOpen_row h he hloop hin hstep rfl rfl hws rfl ht

end Sys2Proof.Machine
end

section
/-! PROOF. Signals that arrive, and the refusals of signals and transfers (settles O25). -/
namespace Sys2Proof.Machine

/-! ### Signals -/

theorem signalHere_below {w : Word} {amount : BitVec 32} {s : State} {l : LCore} (hc : cwLcore w < lcoreCount s)
    (hg : getL s (cwLcore w) = some l) (hn : (catchOf l (cwIndex w)).counter.toNat + amount.toNat < 2 ^ 32) :
    signalHere w amount s = setL (cwLcore w) (setCatch (cwIndex w) { catchOf l (cwIndex w) with
      counter := (catchOf l (cwIndex w)).counter + amount } l) s := by
  rw [signalHere, if_pos hc, catchAdd_below hg hn]

section
variable {w : Word} {amount : BitVec 32} {p : Packet} {s : State} (h : s.fab.inbound = [p]) (hb : p.body = .catchSig w amount)
  (hsrc : p.src ≠ ownId s)
include h hb hsrc

/-- A signal that another module's packet brought. -/
theorem exec_catchSignal_brought : exec (.catchSignal w amount) s = .next
    (if pktStale s p then answerPkt p (dieOf s (cwLcore w)) .writeAck (addFld FAB_COUNT_STALE 1 (takePacket p s))
      else if lcoreCount s ≤ cwLcore w then answerPkt p (dieOf s (cwLcore w)) (.refusal cCATCH_RANGE 0) (takePacket p s)
      else answerPkt p (dieOf s (cwLcore w)) .writeAck (signalHere w amount (takePacket p s))) := by
  have hf : (p.body == .catchSig w amount) = true := by rw [hb, beq_self_eq_true]
  have hturn : inOrder (fun k => k.body == .catchSig w amount) s = true := inOrder_of_single h hf
  have htake : takeInbound (fun k => k.body == .catchSig w amount) s = (some p, takePacket p s) := takeInbound_of_single h hf
  have hother : (some p).filter (fun k => k.src != ownId (takePacket p s)) = some p := by simp [Option.filter, hsrc]
  rw [exec_catchSignal, ordered, hturn, if_pos rfl]
  simp only [catchSignal, htake, hother, pktStale_takePacket, lcoreCount_takePacket, dieOf_takePacket]

end

/-! ### The refusal of a signal (R122) -/

section
variable {c : Fin 256} {s : State} {t : Txn}

theorem sentSignal_only (ht : s.fab.txns = [t]) (hc : t.lcore = c.val) (hr : t.read = false) : sentSignal c t.addr s = some t := by
  simp [sentSignal, ht, hc, hr]

theorem catchRefusal_local (hin : s.fab.inbound = []) (ht : s.fab.txns = [t]) (hc : t.lcore = c.val) (hr : t.read = false) :
    exec (.catchRefusal c t.addr) s = .next (programFault c qC t.addr cCATCH_RANGE (txnTake t.tag s)) := by
  have hx : exec (.catchRefusal c t.addr) s = .next (ordered (refusedSignal c t.addr s) s (catchRefusal c t.addr s)) := rfl
  rw [hx, ordered, inOrder_of_none hin, if_pos rfl, catchRefusal, sentSignal_only ht hc hr]
  dsimp only
  rw [takeInbound_of_none hin]

theorem catchRefusal_brought {p : Packet} (hin : s.fab.inbound = [p]) (ht : s.fab.txns = [t]) (hc : t.lcore = c.val)
    (hr : t.read = false) (htag : p.tag.toNat = t.tag) (hb : p.body = .refusal cCATCH_RANGE 0) :
    exec (.catchRefusal c t.addr) s = .next (programFault c qC t.addr cCATCH_RANGE
      (txnTake t.tag (ackOwe (dieOf s c) p (flowAck 0 (dieOf s c) p.src.toNat 1 (takePacket p s))))) := by
  have hx : exec (.catchRefusal c t.addr) s = .next (ordered (refusedSignal c t.addr s) s (catchRefusal c t.addr s)) := rfl
  have hf : refusedSignal c t.addr s p = true := by
    rw [refusedSignal, sentSignal_only ht hc hr, Option.any_some, htag, hb, beq_self_eq_true, beq_self_eq_true]
    rfl
  rw [hx, ordered, inOrder_of_single hin hf, if_pos rfl, catchRefusal, sentSignal_only ht hc hr]
  dsimp only
  rw [takeInbound_of_single hin hf]
  dsimp only
  rw [dieOf_takePacket]

theorem catchRefusal_unknown (off : Nat) (ht : s.fab.txns = []) : exec (.catchRefusal c off) s = .next s := by
  have hs : catchRefusal c off s = s := by simp [catchRefusal, sentSignal, ht]
  have hx : exec (.catchRefusal c off) s = .next (ordered (refusedSignal c off s) s (catchRefusal c off s)) := rfl
  rw [hx, hs, ordered_self]

end

/-! ### The refusal of a transfer's access (R269, R375) -/

theorem sendOrDrop_inbound (die : Nat) (p : Packet) (s : State) : (sendOrDrop die p s).fab.inbound = s.fab.inbound := by
  unfold sendOrDrop sendFrom
  dsimp only
  split
  · rfl
  · split
    · split
      · split <;> rfl
      · split <;> rfl
    · cases hashedPort p (routeSet s p) <;> rfl

theorem ackSend_inbound (k : AckKey) (s : State) : (ackSend k s).fab.inbound = s.fab.inbound := by
  unfold ackSend
  split
  · rfl
  · exact sendOrDrop_inbound _ _ _

theorem ackOwe_inbound (d : Nat) (p : Packet) (s : State) : (ackOwe d p s).fab.inbound = s.fab.inbound := by
  have hsent : ∀ (k : AckKey) (t : State) (x : Option (AckKey × Nat)), t.fab.inbound = s.fab.inbound →
      (match x with
        | some x => if x.2 + fld t FAB_ROUTE_ACK_GAP_NS ≤ t.now then ackSend k t else t
        | none => ackSend k t).fab.inbound = s.fab.inbound := by
    intro k t x ht
    cases x with
    | none => exact (ackSend_inbound k t).trans ht
    | some x =>
      dsimp only
      split
      · exact (ackSend_inbound k t).trans ht
      · exact ht
  unfold ackOwe
  split
  · rfl
  · exact hsent _ _ _ rfl

/-- A refused access's answer is taken: its flow goes on, and it is owed an acknowledgement. -/
theorem answerTaken_inbound (p : Packet) (s : State) : (answerTaken p s).fab.inbound = s.fab.inbound := ackOwe_inbound _ _ _

/-- The instruction of the refused access, in a state in which the access has been taken off the list, raises the code. -/
def refusedIn (c : Nat) (t : Txn) (code : BitVec 16) (addr : Nat) (s : State) : State :=
  match getL s c with
  | none => s
  | some l =>
    match xEntry l t.n with
    | none => s
    | some (i, e) =>
      match e.pl with
      | .ins k => pump c (xArriveFail c i e k (code, some (xGlobal k addr))
          { s with fab := { s.fab with txns := s.fab.txns.filter fun u => !(u.lcore == c && u.n == t.n) } })
      | _ => s

section
variable {c : Fin 256} {s : State} {t : Txn} {tag : BitVec 16} (code : BitVec 16) (addr : Nat)

theorem exec_remoteRefusal (h : inOrder (refusalOf tag) s = true) :
    exec (.remoteRefusal c tag code addr) s = .next (refuseX c tag code addr s) := by
  have hx : exec (.remoteRefusal c tag code addr) s = .next (ordered (refusalOf tag) s (refuseX c tag code addr s)) := rfl
  rw [hx, ordered, h, if_pos rfl]

theorem remoteRefusal_unknown (ht : s.fab.txns = []) : exec (.remoteRefusal c tag code addr) s = .next s := by
  have hs : refuseX c tag code addr s = s := by simp [refuseX, ht]
  have hx : exec (.remoteRefusal c tag code addr) s = .next (ordered (refusalOf tag) s (refuseX c tag code addr s)) := rfl
  rw [hx, hs, ordered_self]

variable (ht : s.fab.txns = [t]) (hc : t.lcore = c.val) (htag : tag.toNat = t.tag)
include ht hc htag

theorem accessOpen : (s.fab.txns.find? fun u => u.tag == tag.toNat && u.lcore == c.val) = some t := by simp [ht, hc, htag]

theorem refuseX_local (hin : s.fab.inbound = []) : refuseX c tag code addr s = refusedIn c t code addr (txnTake t.tag s) := by
  unfold refuseX
  rw [accessOpen ht hc htag]
  dsimp only
  rw [takeInbound_of_none hin]
  rfl

theorem refuseX_brought {p : Packet} (hin : s.fab.inbound = [p]) (hf : refusalOf tag p = true) : refuseX c tag code addr s =
    refusedIn c t code addr (txnTake t.tag (answerTaken p (takePacket p s))) := by
  unfold refuseX
  rw [accessOpen ht hc htag]
  dsimp only
  rw [takeInbound_of_single hin hf]
  rfl

/-- The packet that brings the refusal is taken and acknowledged first. -/
theorem remoteRefusal_taken {p : Packet} (hin : s.fab.inbound = [p]) (hf : refusalOf tag p = true) :
    exec (.remoteRefusal c tag code addr) s = exec (.remoteRefusal c tag code addr) (answerTaken p (takePacket p s)) := by
  obtain ⟨f, htake, hf0⟩ := takePacket_leaves hin
  have hin' : (answerTaken p (takePacket p s)).fab.inbound = [] := by
    rw [answerTaken_inbound, htake]
    exact hf0
  have htx : (answerTaken p (takePacket p s)).fab.txns = [t] := by
    rw [answerTaken_txns, takePacket_single hin, ← ht]
    unfold creditBack
    rw [setAside_single hin]
    split <;> rfl
  rw [exec_remoteRefusal code addr (inOrder_of_single hin hf), exec_remoteRefusal code addr (inOrder_of_none hin' _),
    refuseX_brought code addr ht hc htag hin hf, refuseX_local code addr htx hc htag hin']

end

section
variable {c : Fin 256} {s : State} {l : LCore} {e : QE} {k : CapD} {t : Txn} {code : BitVec 16} {addr : Nat}
  (ht : s.fab.txns = [t]) (hg : getL s c = some l) (he : soleEntry qX e l = true) (hn : e.n = t.n)
  (hk : e.pl = .ins k)
include ht hg he hn hk

theorem refusedIn_only : refusedIn c t code addr (txnTake t.tag s) =
    pump c (xArriveFail c 0 e k (code, some (xGlobal k addr)) { s with fab := { s.fab with txns := [] } }) := by
  obtain ⟨hq, -, -, -⟩ := soleEntry_iff.mp he
  have htx : (txnTake t.tag s).fab.txns = [] := by simp [txnTake, ht]
  have hst : txnTake t.tag s = { s with fab := { s.fab with txns := [] } } := by simp [txnTake, ht]
  have hx : xEntry l t.n = some (0, e) := by
    rw [xEntry, queue_alone hq (by decide), if_pos rfl]
    simp [enumFrom, hn]
  have hg' : getL (txnTake t.tag s) c = some l := hg
  rw [refusedIn, hg']
  dsimp only
  rw [hx]
  dsimp only
  rw [hk]
  dsimp only
  rw [htx, List.filter_nil, hst]

theorem refused_started (hs : e.started = true) : refusedIn c t code addr (txnTake t.tag s) =
    pump c (xFail c 0 e k (code, some (xGlobal k addr)) { s with fab := { s.fab with txns := [] } }) := by
  rw [refusedIn_only ht hg he hn hk, xArriveFail, if_pos hs]

theorem refused_unstarted (hs : e.started = false) : refusedIn c t code addr (txnTake t.tag s) =
    pump c (setL c { l with qs := (List.replicate 9 []).set qX [{ e with
      err := some (code, some (xGlobal k addr))
      flight := flightNone }] } { s with fab := { s.fab with txns := [] } }) := by
  obtain ⟨hq, -, -, -⟩ := soleEntry_iff.mp he
  rw [refusedIn_only ht hg he hn hk, xArriveFail, if_neg (by simp [hs])]
  have hm : modL c (setEntry qX 0 { e with
      err := some (code, some (xGlobal k addr))
      flight := flightNone }) { s with fab := { s.fab with txns := [] } } = _ :=
    modL_eq (s := { s with fab := { s.fab with txns := [] } }) (l := l) (by exact hg) _
  exact congrArg (pump c) (hm.trans (by rw [setEntry_alone (by decide) hq]))

end

/-- Settles O25: signals by what brought them; refusals by the only access open. -/
theorem signalsAndRefusals : Obligations.SignalsAndRefusals := by
  unfold Obligations.SignalsAndRefusals
  refine ⟨?_, ?_, ?_, ?_, ?_, ?_, ?_⟩
  · intro w amount s l h hc hg k hn
    rw [exec_catchSignal_local w amount h, signalHere_below hc hg hn]
  · intro w amount p s h hb hsrc die s1
    have hx := exec_catchSignal_brought h hb hsrc
    refine ⟨fun hst => ?_, fun hst hc => ?_, ?_⟩
    · rw [hx, if_pos hst]
    · rw [hx, if_neg (by simp [hst]), if_pos hc]
    · intro l hst hc hg k hn
      rw [hx, if_neg (by simp [hst]), if_neg (by omega),
        signalHere_below (by rw [lcoreCount_takePacket]; exact hc) (by rw [getL_takePacket]; exact hg) hn]
  · intro c p s t hin ht hc htag
    refine ⟨fun hr hb => catchRefusal_brought hin ht hc hr htag hb, fun code addr hb => ?_⟩
    have hf : refusalOf p.tag p = true := by rw [refusalOf, hb, beq_self_eq_true]; rfl
    exact remoteRefusal_taken code addr ht hc htag hin hf
  · exact fun c s t hin ht hc hr => catchRefusal_local hin ht hc hr
  · exact fun c off s ht => catchRefusal_unknown off ht
  · intro c s l e k t code addr hin ht hc htag hg he hn hk s'
    have htag' : (BitVec.ofNat 16 t.tag).toNat = t.tag := by
      rw [BitVec.toNat_ofNat]
      exact Nat.mod_eq_of_lt htag
    rw [exec_remoteRefusal code addr (inOrder_of_none hin _), refuseX_local code addr ht hc htag' hin]
    exact ⟨fun hs => congrArg Host.Outcome.next (refused_started ht hg he hn hk hs),
      fun hs => congrArg Host.Outcome.next (refused_unstarted ht hg he hn hk hs)⟩
  · exact fun c tag code addr s ht => remoteRefusal_unknown code addr ht

end Sys2Proof.Machine
end

section
/-! PROOF. Completions, KCOMB_RESUMES and STAGING_READ (settles O22). -/
namespace Sys2Proof.Machine

/-! ### Completions -/

/-- The completion of the only entry, which it is for, empties the queues. -/
theorem finishWhere_only {c q : Nat} {s : State} {l : LCore} {e : QE} {p : QE → Bool} (hg : getL s c = some l)
    (he : soleEntry q e l = true) (hq : q ≤ 8) (hp : p e = true) :
    finishWhere c q p s = setL c { l with qs := List.replicate 9 [] } s := by
  obtain ⟨hqs, -, hem, hb⟩ := soleEntry_iff.mp he
  have hf : firstIdx p (queue l q) = some 0 := by
    rw [queue_alone hqs hq, if_pos rfl]
    simp [firstIdx, hp]
  rw [finishWhere, hg]
  dsimp only
  rw [hf]
  dsimp only
  rw [dropEntry_alone hq hqs]
  exact pump_empty (l := { l with qs := List.replicate 9 [] }) (getL_setL hg _) rfl hem hb

theorem startedOp_ins {e : QE} {k : CapD} (hs : e.started = true) (hk : e.pl = .ins k) (op : Nat) :
    startedOp op e = (k.op == op) := by
  rw [startedOp, hs, hk]
  rfl

section
variable {c : Nat} {s : State} {l : LCore} {e : QE} {k : CapD} (hg : getL s c = some l) (hr : coreRuns s l = true)
  (he : soleEntry qK e l = true) (hs : e.started = true) (hk : e.pl = .ins k)
include hg hr he hs hk

theorem kHead_only (op : Nat) (ho : k.op = op) : kHead s c op = some (e, k) := by
  obtain ⟨hqs, -, -, -⟩ := soleEntry_iff.mp he
  have hq : queue l qK = [e] := by rw [queue_alone hqs (by decide), if_pos rfl]
  simp only [kHead, hg, hr, hq, hk, hs, ho, beq_self_eq_true, Bool.and_self, Bool.not_true, Bool.false_eq_true, if_false, if_true]

theorem kepochComplete_only {c' : Fin 256} (hc : c'.val = c) (ho : k.op = 3) (hd : kepochDrained s k = true)
    (hw : ((kWrites s k).any fun w => latHolds s w.1 w.2) = false) :
    exec (.kepochComplete c') s = .next (setL c { l with qs := List.replicate 9 [] } s) := by
  obtain ⟨hqs, -, hem, hb⟩ := soleEntry_iff.mp he
  have hx : execKepochComplete c' s = .next (pump c (modL c (dropEntry qK 0) s)) := by
    rw [execKepochComplete, hc, kHead_only hg hr he hs hk 3 ho]
    dsimp only
    rw [hd, hw, if_pos (by rfl)]
  refine Eq.trans (b := execKepochComplete c' s) rfl (hx.trans (congrArg Host.Outcome.next ?_))
  rw [modL_eq hg, dropEntry_alone (by decide) hqs]
  exact pump_empty (l := { l with qs := List.replicate 9 [] }) (getL_setL hg _) rfl hem hb

/-! ### KCOMB_RESUMES -/

theorem kcombResumes_ready {c' : Fin 256} (hc : c'.val = c) (ho : k.op = 2) (hrd : kcombReady s k = true)
    (hok : (kcombRows (bufRead s.mem k.xa.toNat) k (rowsOf k.dD) 0 s.mem).2 = none) :
    exec (.kcombResumes c') s = .next (setL c { l with qs := List.replicate 9 [] }
      { s with mem := (kcombRows (bufRead s.mem k.xa.toNat) k (rowsOf k.dD) 0 s.mem).1 }) := by
  obtain ⟨hqs, -, hem, hb⟩ := soleEntry_iff.mp he
  generalize hres : kcombRows (bufRead s.mem k.xa.toNat) k (rowsOf k.dD) 0 s.mem = res at hok ⊢
  obtain ⟨m, code⟩ := res
  have hcode : code = none := hok
  subst hcode
  have hdo : kcombDo c 0 e k s = modL c (dropEntry qK 0) { s with mem := m } := by
    unfold kcombDo
    dsimp only
    rw [hres]
  have hx : execKcombResumes c' s = .next (pump c (kcombDo c 0 e k s)) := by
    rw [execKcombResumes, hc, kHead_only hg hr he hs hk 2 ho]
    dsimp only
    rw [hrd, if_pos rfl]
  refine Eq.trans (b := execKcombResumes c' s) rfl (hx.trans (congrArg Host.Outcome.next ?_))
  have hm := modL_eq (s := { s with mem := m }) (l := l) (c := c) (by exact hg) (dropEntry qK 0)
  rw [hdo, hm, dropEntry_alone (by decide) hqs]
  exact pump_empty (l := { l with qs := List.replicate 9 [] }) (getL_setL (by exact hg) _) rfl hem hb

theorem kcombResumes_waits {c' : Fin 256} (hc : c'.val = c) (ho : k.op = 2) (hrd : kcombReady s k = false) :
    exec (.kcombResumes c') s = .next s := by
  have hx : execKcombResumes c' s = .next s := by
    rw [execKcombResumes, hc, kHead_only hg hr he hs hk 2 ho]
    dsimp only
    rw [hrd, if_neg Bool.false_ne_true]
  exact hx

end

/-! ### STAGING_READ (R248) -/

theorem takeLines_sum (rs : List (Nat × Nat)) (n : Nat) : ((takeLines n rs).map (·.2)).sum ≤ n := by
  induction rs generalizing n with
  | nil => simp [takeLines]
  | cons r rs ih =>
    obtain ⟨a, k⟩ := r
    by_cases h : k ≤ n
    · have := ih (n - k)
      simp only [takeLines, h, if_true, List.map_cons, List.sum_cons]
      omega
    · by_cases h' : a < (a + n) / 64 * 64
      · simp only [takeLines, h, h', if_true, if_false, List.map_cons, List.map_nil, List.sum_cons, List.sum_nil]
        omega
      · simp [takeLines, h, h']

/-- The ranges of a checked instruction. -/
theorem xCheck_ranges {s : State} {l : LCore} {k : CapD} {m : Mem} {rs : List XRange} (h : xCheck s l k m = .ok rs) :
    rs = xRanges m k (readableOf s l k) (xRemote s k) := by
  unfold xCheck at h
  dsimp only at h
  split at h
  · cases h
  · split at h
    · cases h
    · exact (Except.ok.inj h).symm

section
variable {c : Nat} {s : State} {l : LCore} {e : QE} {k : CapD}

/-- Nothing stands before the first instruction of the queue. -/
theorem stageClear_first (src : List (Nat × Nat)) : stageClear s l 0 src = true := by simp [stageClear]

theorem stagedBytes_only (hq : queue l qX = [e]) (hst : e.staged = none) (hf : e.flight = flightNone) : stagedBytes l = 0 := by
  simp [stagedBytes, hq, readAhead, hst, hf, flightNone]

/-- What STAGING_READ asks HBM for. -/
def stageSource (s : State) (l : LCore) (k : CapD) : List (Nat × Nat) :=
  ((xRanges s.mem k (readableOf s l k) false).filter fun r => !r.dst && (r.side == .hbm || r.side == .remote)).map fun r => (r.a, r.n)

/-- The only transfer, a local one whose checks pass, is read ahead. -/
theorem stageFor_local {rs : List XRange} (hg : getL s c = some l) (hq : queue l qX = [e]) (hst : e.staged = none)
    (hf : e.flight = flightNone) (hrem : xRemote s k = false) (hck : xCheck s l k s.mem = .ok rs) (hbad : xBad s k rs = false) :
    stageFor c 0 l e k s = setL c (setEntry qX 0 { e with
      staged := some ((takeLines 65536 (stageSource s l k)).map fun r => (r.1, s.mem.bytes r.1 r.2)) } l) s := by
  have hroom : 65536 - stagedBytes l = 65536 := by rw [stagedBytes_only hq hst hf]
  have hpre : xAsksPreamble s l e k = false := by simp [xAsksPreamble, hrem]
  have hrs := xCheck_ranges hck
  rw [hrem] at hrs
  unfold stageFor
  dsimp only
  rw [hroom, hpre, hrem, ← hrs, hbad, stageClear_first, stageClear_first, if_neg (by simp), if_neg Bool.false_ne_true, hck]
  dsimp only
  rw [if_neg Bool.false_ne_true, modL_eq hg, stageSource, ← hrs]

theorem stageRead_only (hg : getL s c = some l) (hr : coreRuns s l = true) (hq : queue l qX = [e]) (hs : e.started = false)
    (hst : e.staged = none) (herr : e.err = none) (hf : e.flight = flightNone) (hk : e.pl = .ins k) (ho : k.op = 0 ∨ k.op = 2) :
    stageRead c s = stageFor c 0 l e k s := by
  have hn : stageNext e = true := by
    rw [stageNext, hk]
    rcases ho with ho | ho <;> simp [hs, hst, herr, hf, flightNone, ho]
  have hfind : ((enumFrom 0 [e]).find? fun p => stageNext p.2) = some (0, e) := by simp [enumFrom, hn]
  simp only [stageRead, hg, hr, hq, hfind, hk, Bool.not_true, Bool.false_eq_true, if_false]

end

theorem stagingRead_row {c : Fin 256} {s : State} {l : LCore} {e : QE} {k : CapD} {rs : List XRange} (hg : getL s c = some l)
    (hr : coreRuns s l = true) (he : soleEntry qX e l = true) (hs : e.started = false) (hst : e.staged = none) (herr : e.err = none)
    (hf : e.flight = flightNone) (hk : e.pl = .ins k) (ho : k.op = 0 ∨ k.op = 2) (hrem : xRemote s k = false)
    (hck : xCheck s l k s.mem = .ok rs) (hbad : xBad s k rs = false) :
    ∃ bs, exec (.stagingRead c) s = .next (setL c { l with qs := (List.replicate 9 []).set qX [{ e with staged := some bs }] } s) ∧
      (∀ p ∈ bs, p.2 = s.mem.bytes p.1 p.2.length) ∧ (bs.map fun p => p.2.length).sum ≤ 65536 := by
  obtain ⟨hqs, -, -, -⟩ := soleEntry_iff.mp he
  have hq : queue l qX = [e] := by rw [queue_alone hqs (by decide), if_pos rfl]
  have hlen (a n : Nat) : (s.mem.bytes a n).length = n := by simp [Mem.bytes]
  refine ⟨(takeLines 65536 (stageSource s l k)).map fun r => (r.1, s.mem.bytes r.1 r.2), ?_, fun p hp => ?_, ?_⟩
  · refine congrArg Host.Outcome.next ?_
    rw [stageRead_only hg hr hq hs hst herr hf hk ho, stageFor_local hg hq hst hf hrem hck hbad, setEntry_alone (by decide) hqs]
  · obtain ⟨r, -, rfl⟩ := List.mem_map.mp hp
    rw [hlen]
  · simpa only [List.map_map, Function.comp_def, hlen] using takeLines_sum (stageSource s l k) 65536

/-- Settles O22: each completion by the only entry, KCOMB by its records, and the read ahead by the sources' extents. -/
theorem queuesMoveOn : Obligations.QueuesMoveOn := by
  unfold Obligations.QueuesMoveOn
  refine ⟨?_, ?_, ?_⟩
  · intro c s l e k hg hs hk t
    have hop (op : Nat) (ho : k.op = op) : startedOp op e = true := by rw [startedOp_ins hs hk, ho, beq_self_eq_true]
    refine ⟨fun he ho hp => ?_, fun he ho => ?_, fun he ho => ?_, fun he ho => ?_, fun he hd => ?_, fun he ho hw hl => ?_,
      fun he ho hr hd hw => kepochComplete_only hg hr he hs hk rfl ho hd hw⟩
    · exact congrArg Host.Outcome.next (finishWhere_only hg he (by decide) (by rw [hop 0 ho, hp]; rfl))
    · exact congrArg Host.Outcome.next (finishWhere_only hg he (by decide) (hop 2 ho))
    · exact congrArg Host.Outcome.next (finishWhere_only hg he (by decide) (hop 0 ho))
    · exact congrArg Host.Outcome.next (finishWhere_only hg he (by decide) (hop 1 ho))
    · exact congrArg Host.Outcome.next (finishWhere_only hg he (by decide) hd)
    · refine congrArg Host.Outcome.next (finishWhere_only hg he (by decide) ?_)
      rw [hop 1 ho, hl, hk]
      dsimp only
      rw [hw]
      rfl
  · exact fun c s l e k hg hr he hs hk ho =>
      ⟨kcombResumes_ready hg hr he hs hk rfl ho, kcombResumes_waits hg hr he hs hk rfl ho⟩
  · exact fun c s l e k rs hg hr he hs hst herr hf hk ho hrem hck hbad => stagingRead_row hg hr he hs hst herr hf hk ho hrem hck hbad

end Sys2Proof.Machine
end

section
/-! PROOF. Writes of a transfer, and the X queue on an otherwise empty logical core (settles O19). -/
namespace Sys2Proof.Machine

/-! ### Which writes the latch holds -/

/-- Two states hold the writes to the same granules. -/
def SameHolds (s t : State) : Prop := ∀ g, mustHold t g = mustHold s g

theorem SameHolds.of_lat {s t : State} (h : t.lat = s.lat) : SameHolds s t := fun g => by
  rw [mustHold, mustHold, getGran, getGran, h]

theorem SameHolds.trans {s t u : State} (h : SameHolds s t) (k : SameHolds t u) : SameHolds s u := fun g => (k g).trans (h g)

theorem setGran_dirty_holds (g : Nat) (s : State) : SameHolds s (setGran g { getGran s g with dirty := true } s) := by
  intro k
  rw [mustHold, mustHold, getGran_setGran]
  by_cases hk : k = g
  · rw [if_pos hk, hk]
    rfl
  · rw [if_neg hk]

theorem dirties_holds (gs : List Nat) (s : State) :
    SameHolds s (gs.foldl (fun s g => setGran g { getGran s g with dirty := true } s) s) := by
  induction gs generalizing s with
  | nil => exact fun _ => rfl
  | cons g gs ih => exact (setGran_dirty_holds g s).trans (ih _)

/-- A write that lands leaves every granule as it was, but dirty. -/
theorem granLand_holds (w : HWrite) (s : State) : SameHolds s (granLand w s) := by
  refine (dirties_holds (granulesOf w.a (w.bytes s.mem).length) s).trans fun g => ?_
  rfl

theorem portTo_lat (b : Bool) (l : LCore) (s : State) : (portTo b l s).lat = s.lat := by
  unfold portTo
  split <;> rfl

theorem xCount_lat (d : Nat) (x : XData) (s : State) : (xCount d x s).lat = s.lat := by
  unfold xCount
  rw [addFld_lat, addFld_lat]

theorem xCount_lcores (d : Nat) (x : XData) (s : State) : (xCount d x s).lcores = s.lcores := by
  unfold xCount
  rw [addFld_lcores, addFld_lcores]

/-! ### What a push of writes comes to (R399, R401) -/

/-- A held write leaves its granule copying. -/
theorem granPut_held {g : Nat} {s : State} (w : HWrite) (h : mustHold s g = true) : (getGran (granPut g w s) g).st = .copying := by
  unfold granPut
  dsimp only
  by_cases hc : (getGran s g).st = .copying
  · rw [if_pos hc, getGran_setGran, if_pos rfl, hc]
  · have hn : needsCopy (getGran s g) = true := by
      rw [mustHold, Bool.or_eq_true, beq_iff_eq] at h
      exact h.resolve_left hc
    obtain ⟨hgr, -, -, -⟩ := granCopy_leaves g [w] s
    rw [if_neg hc, if_pos hn, hgr]

/-- The writes end all made, or with one held by a granule that copies. -/
theorem xPush_ends (ws : List HWrite) (s : State) :
    (xPush ws s).1 = ([], none) ∨ ∃ left g, (xPush ws s).1 = (left, some g) ∧ (getGran (xPush ws s).2 g).st = .copying := by
  induction ws generalizing s with
  | nil => exact .inl rfl
  | cons w ws ih =>
    rw [xPush]
    split
    · exact ih _
    · split
      next _ hm => exact .inr ⟨ws, w.a / granBytes, rfl, granPut_held w hm⟩
      · exact ih _

theorem xPush_mf (ws : List HWrite) (s : State) : MemFrame s (xPush ws s).2 := by
  induction ws generalizing s with
  | nil => exact .refl s
  | cons w ws ih =>
    rw [xPush]
    split
    · exact (withMem_mf (.refl s) _).trans (ih _)
    · split
      · exact granPut_mf (.refl s) _ _
      · exact (granLand_mf (.refl s) _).trans (ih _)

/-- A write of which nothing is held. -/
def landOne (s : State) (w : HWrite) : State := if hbmEnd ≤ w.a then { s with mem := w.put s.mem } else granLand w s

/-- Writes none of which the latch holds all land. -/
theorem xPush_lands {ws : List HWrite} {z s : State} (hs : SameHolds z s)
    (h : ∀ w ∈ ws, w.a < hbmEnd → mustHold z (w.a / granBytes) = false) : xPush ws s = (([], none), ws.foldl landOne s) := by
  induction ws generalizing s with
  | nil => rfl
  | cons w ws ih =>
    have hws : ∀ x ∈ ws, x.a < hbmEnd → mustHold z (x.a / granBytes) = false := fun x hx => h x (List.mem_cons_of_mem _ hx)
    rw [xPush, List.foldl_cons, landOne]
    by_cases hw : hbmEnd ≤ w.a
    · rw [if_pos hw, if_pos hw]
      exact ih (hs.trans (.of_lat rfl)) hws
    · have hm : mustHold s (w.a / granBytes) = false := (hs _).trans (h w List.mem_cons_self (Nat.lt_of_not_le hw))
      rw [if_neg hw, if_neg hw, if_neg (by simp [hm])]
      exact ih (hs.trans (granLand_holds w s)) hws

/-! ### The X queue -/

/-- The entry of a transfer whose writes have come as far as `r` says. -/
def pushedEntry (e : QE) (r : List HWrite × Option Nat) : QE :=
  { e with flight := { e.flight with
    got := []
    left := r.1
    hold := r.2 } }

section
variable {c : Nat} {s : State} {l : LCore} {e : QE} {ws : List HWrite}

theorem getL_of_lcores {s t : State} (h : t.lcores = s.lcores) (c : Nat) : getL t c = getL s c := by
  rw [getL, getL, h]

theorem getL_xPush : getL (xPush ws s).2 c = getL s c := getL_of_lcores (xPush_mf ws s).lcores c

/-- A transfer alone in the X queue makes its writes. -/
theorem xWrite_issued {e₀ : QE} (hg : getL s c = some (issuedCore qX e₀ l)) :
    xWrite c 0 e ws s = setL c (issuedCore qX (pushedEntry e (xPush ws s).1) l) (xPush ws s).2 := by
  unfold xWrite
  dsimp only
  rw [modL_eq (l := issuedCore qX e₀ l) (getL_xPush.trans hg), setEntry_issued (by decide)]
  rfl

/-- A transfer whose writes have gone as far as they can does not go on. -/
theorem startOne_pushed (he : e.started = true) (hem : l.emptyAt = []) {x : LCore} (hg : getL (xPush ws s).2 c = some x) :
    startOne c (setL c (issuedCore qX (pushedEntry e (xPush ws s).1) l) (xPush ws s).2) = none := by
  generalize hp : pushedEntry e (xPush ws s).1 = e'
  have hs' : e'.started = true := by
    rw [← hp]
    exact he
  have hg' := getL_setL hg (issuedCore qX e' l)
  refine (startOne_alone (q := qX) hg' hem (by decide) rfl).trans ?_
  rw [if_neg (by decide), if_neg (by decide), if_neg (by decide), if_pos rfl]
  have hq : queue (issuedCore qX e' l) qX = [e'] := queue_issued (by decide) e' l
  unfold startX
  rw [hg']
  dsimp only
  split
  · rfl
  · rcases xPush_ends ws s with hdone | ⟨left, g, hheld, hcopy⟩
    · have hh : xHolding e' = false := by
        rw [← hp, hdone]
        rfl
      have hfind : ((enumFrom 0 (queue (issuedCore qX e' l) qX)).find? fun p => xHolding p.2) = none := by
        rw [hq]
        simp [enumFrom, hh]
      rw [hfind, headOf_started hq hs']
      dsimp only
      split <;> rfl
    · have hho : e'.flight.hold = some g := by
        rw [← hp, hheld]
        rfl
      have hh : xHolding e' = true := by rw [xHolding, hho, Option.isSome_some, Bool.or_true]
      have hfind : ((enumFrom 0 (queue (issuedCore qX e' l) qX)).find? fun p => xHolding p.2) = some (0, e') := by
        rw [hq]
        simp [enumFrom, hh]
      rw [hfind]
      dsimp only
      rw [xResume, hho]
      exact if_pos hcopy

end

section
variable {c : Nat} {s : State} {l : LCore} {e : QE} {k : CapD} {rs : List XRange}

/-- A new transfer of this module that passes its checks starts. -/
theorem startX_new (hg : getL s c = some (issuedCore qX e l)) (hr : coreRuns s l = true) (hs : e.started = false) (herr : e.err = none)
    (hst : e.staged = none) (hf : e.flight = flightNone) (hk : e.pl = .ins k) (hcs : csDie s l.die 3 = false)
    (hrem : xRemote s k = false) (hck : xCheck s (issuedCore qX e l) k s.mem = .ok rs) (hbad : xBad s k rs = false) :
    startX c s = some (xWrite c 0 (xBegun e [] false (xDstLocal rs)) (xWrites c (xData s.mem k))
      (xCount l.die (xData s.mem k) (if rs.any (·.side == .scratch) then portTo true l s else s))) := by
  have hq : queue (issuedCore qX e l) qX = [e] := queue_issued (by decide) e l
  have hh : xHolding e = false := by
    rw [xHolding, hf]
    rfl
  have hfind : ((enumFrom 0 (queue (issuedCore qX e l) qX)).find? fun p => xHolding p.2) = none := by
    rw [hq]
    simp [enumFrom, hh]
  have hrun : (!coreRuns s (issuedCore qX e l)) = false := by
    show (!coreRuns s l) = false
    rw [hr]
    rfl
  have hpre : xAsksPreamble s (issuedCore qX e l) e k = false := by rw [xAsksPreamble, hrem]; rfl
  have hbehind : xBehind (issuedCore qX e l) 0 rs = false := rfl
  have hport : takePort (issuedCore qX e l) true s = some (portTo true l s) := port_new (by decide) hs l true s
  have hrem' : xRemote (portTo true l s) k = false := by
    rw [← hrem]
    unfold portTo
    split <;> rfl
  unfold startX
  rw [hg]
  dsimp only
  rw [hrun, if_neg Bool.false_ne_true, hfind]
  dsimp only
  rw [if_neg (by exact ne_true_of_eq_false hcs), headOf_issued (by decide) hs]
  dsimp only
  rw [hk]
  dsimp only
  unfold xBegin
  rw [herr]
  dsimp only
  rw [hf, hpre, hst, if_neg (by decide), if_neg Bool.false_ne_true, if_neg (by decide)]
  have hmem : overlay s.mem ((none : Option (List (Nat × List Byte))).getD []) = s.mem := rfl
  rw [hmem, hck]
  dsimp only
  unfold xStart
  rw [hbehind, hbad, if_neg (by decide)]
  by_cases hsc : (rs.any (·.side == .scratch)) = true
  · rw [if_pos hsc, if_pos hsc, hport, Option.map_some]
    dsimp only
    rw [hrem']
    rfl
  · rw [if_neg hsc, if_neg hsc, Option.map_some]
    dsimp only
    rw [hrem]
    rfl

end

/-- What O19 says of a row whose command issues operation `op`. -/
theorem xRow {c : Fin 256} {f : FmtD} {s : State} {l : LCore} {i : Instr} {op level : Nat} {undef : Bool} {regs : List (BitVec 6)}
    {descs : List (BitVec 5)} {rs : List XRange} (he : coreEmpty l = true)
    (hx : exec i s = .next (issueD c f (dspec qX op level f undef regs descs) plainD s))
    (h : canIssue c l (reqD qX level f undef regs) s = true) (ho : operandErr l descs = none) {k : CapD}
    (hk : k = capD op l f f.ctrl.toNat) {e : QE} (hee : e = entryD op l f) {s1 : State} (hs1 : s1 = setL c (issuedCore qX e l) s)
    {s2 : State} (hs2 : s2 = xCount l.die (xData s.mem k) (if rs.any (·.side == .scratch) then portTo true l s1 else s1))
    (hcs : csDie s l.die 3 = false) (hrem : xRemote s k = false) (hck : xCheck s1 (issuedCore qX e l) k s.mem = .ok rs)
    (hbad : xBad s k rs = false) :
    exec i s = .next (xWrite c 0 (xBegun e [] false (xDstLocal rs)) (xWrites c (xData s.mem k)) s2) ∧
    ((∀ w ∈ xWrites c (xData s.mem k), w.a < hbmEnd → mustHold s (w.a / granBytes) = false) →
      exec i s = .next (setL c (issuedCore qX (xBegun e [] false (xDstLocal rs)) l) ((xWrites c (xData s.mem k)).foldl landOne s2))) := by
  obtain ⟨hg, hr, hb⟩ := ready_of_canIssue h
  obtain ⟨-, -, hem⟩ := coreEmpty_iff.mp he
  have hi : exec i s = .next (pump c s1) := by
    rw [hx, hs1, hee]
    exact congrArg Host.Outcome.next (issueD_alone h he (show qX ≤ 8 by decide) ho)
  have hg1 : getL s1 c = some (issuedCore qX e l) := by rw [hs1]; exact getL_setL hg _
  have hstart : startX c s1 = some (xWrite c 0 (xBegun e [] false (xDstLocal rs)) (xWrites c (xData s.mem k)) s2) := by
    rw [hs2]
    subst hs1
    subst hee
    subst hk
    exact startX_new hg1 hr rfl rfl rfl rfl rfl hcs hrem hck hbad
  have hg2 : getL s2 c = some (issuedCore qX e l) := by
    rw [hs2, getL_of_lcores (xCount_lcores _ _ _)]
    split
    · rw [getL_portTo, hg1]
    · exact hg1
  have hlat : SameHolds s s2 := .of_lat (by
    rw [hs2, xCount_lat, apply_ite State.lat, portTo_lat, ite_self, hs1]
    rfl)
  generalize xWrites c (xData s.mem k) = ws at hstart ⊢
  have hgp : getL (xPush ws s2).2 c = some (issuedCore qX e l) := getL_xPush.trans hg2
  have hw := xWrite_issued (e := xBegun e [] false (xDstLocal rs)) (ws := ws) hg2
  have hrow : exec i s = .next (xWrite c 0 (xBegun e [] false (xDstLocal rs)) ws s2) := by
    rw [hi, hw]
    rw [hw] at hstart
    refine congrArg Host.Outcome.next (pump_begins hg1 hem
      ((startOne_alone (q := qX) hg1 hem (by decide) rfl).trans hstart) (startOne_pushed rfl hem hgp) (getL_setL hgp _) hb)
  refine ⟨hrow, fun hfree => ?_⟩
  rw [hrow, hw, xPush_lands hlat hfree]
  rfl

/-- Settles O19: each row issues its operation, and all operations start alike. -/
theorem localTransfers : Obligations.LocalTransfers := by
  unfold Obligations.LocalTransfers
  intro c f s l he
  have hrow {i : Instr} {op level : Nat} {undef : Bool} {regs : List (BitVec 6)} {descs : List (BitVec 5)}
      (hi : issueOf s i = some (c, reqD qX level f undef regs))
      (hx : exec i s = .next (issueD c f (dspec qX op level f undef regs descs) plainD s)) (r : Req) (rs : List XRange)
      (hr : issueOf s i = some (c, r)) (h : canIssue c l r s = true) (ho : operandErr l descs = none) :=
    xRow (rs := rs) he hx (by rw [← (Prod.mk.inj (Option.some.inj (hr.symm.trans hi))).2]; exact h) ho rfl rfl rfl rfl
  simp only [List.forall_mem_cons, List.not_mem_nil, false_implies, implies_true, and_true]
  exact ⟨hrow rfl rfl, hrow rfl rfl, hrow rfl rfl, hrow rfl rfl, hrow rfl rfl, hrow rfl rfl⟩

end Sys2Proof.Machine
end

section
/-! PROOF. The K queue on an otherwise empty logical core (settles O20). -/
namespace Sys2Proof.Machine

/-- A new K instruction that passes its checks, and waits for no copy, runs. -/
theorem startK_new {c : Nat} {s s' : State} {l : LCore} {e : QE} {k : CapD} (hg : getL s c = some (issuedCore qK e l))
    (hr : coreRuns s l = true) (hs : e.started = false) (hk : e.pl = .ins k) (hs' : s' = portTo true l s)
    (herr : kErr s' (issuedCore qK e l) k = none) (hw : latAwait (kWrites s' k) s' = none) :
    startK c s = some (kDo c 0 (issuedCore qK e l) e k s') := by
  have hq : queue (issuedCore qK e l) qK = [e] := queue_issued (by decide) e l
  have hrun : (!coreRuns s (issuedCore qK e l)) = false := by
    show (!coreRuns s l) = false
    rw [hr]
    rfl
  have hport : takePort (issuedCore qK e l) true s = some s' := hs' ▸ port_new (by decide) hs l true s
  unfold startK
  rw [hg]
  dsimp only
  rw [hrun, if_neg Bool.false_ne_true, hq]
  dsimp only
  rw [hk]
  dsimp only
  rw [hs, if_neg Bool.false_ne_true, hport]
  dsimp only
  rw [herr]
  dsimp only
  rw [hw]

/-- What O20 says of a row whose command issues operation `op`. -/
theorem kRow {c : Fin 256} {f : FmtD} {s : State} {l : LCore} {i : Instr} {op level ctrl : Nat} {undef : Bool} {regs : List (BitVec 6)}
    {descs : List (BitVec 5)} (he : coreEmpty l = true)
    (hx : exec i s = .next (issueD c f ⟨qK, op, level, undef, regs, descs, ctrl⟩ plainD s))
    (h : canIssue c l (reqD qK level f undef regs) s = true) (ho : operandErr l descs = none) {k : CapD} (hk : k = capD op l f ctrl)
    {e : QE} (hee : e = newEntry l (.ins (capD op l f ctrl))) {s1 : State}
    (hs1 : s1 = portTo true l (setL c (issuedCore qK e l) s)) (herr : kErr s1 (issuedCore qK e l) k = none)
    (hw : latAwait (kWrites s1 k) s1 = none) (hstill : startOne c (kDo c 0 (issuedCore qK e l) e k s1) = none) :
    exec i s = .next (coreEnd c (kDo c 0 (issuedCore qK e l) e k s1)) := by
  obtain ⟨hg, hr, -⟩ := ready_of_canIssue h
  obtain ⟨-, -, hem⟩ := coreEmpty_iff.mp he
  have hi : exec i s = .next (pump c (setL c (issuedCore qK e l) s)) := by
    rw [hx, hee]
    exact congrArg Host.Outcome.next (issueD_alone h he (show qK ≤ 8 by decide) ho)
  have hg1 := getL_setL hg (issuedCore qK e l)
  have hstart := startK_new (k := k) hg1 (by exact hr) (by rw [hee]; rfl) (by rw [hee, hk]; rfl) hs1 herr hw
  exact hi.trans (congrArg Host.Outcome.next
    (pump_one hg1 hem ((startOne_alone (q := qK) hg1 hem (by decide) rfl).trans hstart) hstill))

/-- Settles O20: each row issues its operation, and all operations start alike. -/
theorem keywayOperations : Obligations.KeywayOperations := by
  unfold Obligations.KeywayOperations
  intro c f s l he
  have hrow {i : Instr} {op level ctrl : Nat} {undef : Bool} {regs : List (BitVec 6)} {descs : List (BitVec 5)}
      (hi : issueOf s i = some (c, reqD qK level f undef regs))
      (hx : exec i s = .next (issueD c f ⟨qK, op, level, undef, regs, descs, ctrl⟩ plainD s)) (r : Req)
      (hr : issueOf s i = some (c, r)) (h : canIssue c l r s = true) (ho : operandErr l descs = none) :=
    kRow he hx (by rw [← (Prod.mk.inj (Option.some.inj (hr.symm.trans hi))).2]; exact h) ho rfl rfl rfl
  simp only [List.forall_mem_cons, List.not_mem_nil, false_implies, implies_true, and_true]
  exact ⟨hrow rfl rfl, hrow rfl rfl, hrow rfl rfl, hrow rfl rfl, hrow rfl rfl⟩

end Sys2Proof.Machine
end

section
/-! PROOF. The G queue on an otherwise empty logical core (settles O21). -/
namespace Sys2Proof.Machine

/-! ### The head of the G queue -/

/-- What a G operation is checked for at the head of its queue. -/
def gErr (s : State) (l : LCore) (k : CapD) : Option Code := if k.op = 0 then gredErr s l k else gmoveErr s l k

section
variable {c : Nat} {s : State} {l : LCore} {e : QE} {k : CapD} (hg : getL s c = some l) (hr : coreRuns s l = true)
  (hq : queue l qG = [e]) (hk : e.pl = .ins k) (hs : e.started = false)
include hg hr hq hk hs

theorem startG_refused (hc : e.checked = false) {code : Code} (herr : gErr s l k = some code) :
    startG c s = some (programFault c qG e.pc code (modL c (dropEntry qG 0) s)) := by
  have h : (if k.op = 0 then gredErr s l k else gmoveErr s l k) = some code := herr
  simp only [startG, hg, hr, hq, hk, hs, hc, h, Bool.not_true, Bool.not_false, Bool.false_eq_true, if_false, if_true]

theorem startG_checked (hc : e.checked = false) (herr : gErr s l k = none) :
    startG c s = some (modL c (setEntry qG 0 { e with checked := true }) s) := by
  have h : (if k.op = 0 then gredErr s l k else gmoveErr s l k) = none := herr
  simp only [startG, hg, hr, hq, hk, hs, hc, h, Bool.not_true, Bool.not_false, Bool.false_eq_true, if_false, if_true]

theorem startG_starts (hc : e.checked = true) (hxb : k.xb = 0) : startG c s = gStart c l e k s := by
  simp only [startG, hg, hr, hq, hk, hs, hc, hxb, Bool.not_true, Bool.false_eq_true, if_false, if_true]

theorem startG_timed (hc : e.checked = true) (hxb : k.xb ≠ 0) : startG c s = none := by
  simp only [startG, hg, hr, hq, hk, hs, hc, hxb, Bool.not_true, Bool.false_eq_true, if_false]

end

/-! ### The port, and states that differ in a logical core -/

/-- The scratch port as a GALLG or GBCAST takes it. -/
def gPort (k : CapD) (l : LCore) (s : State) : State :=
  if [k.dA, gOut k].any (fun d => xScratchKind (extent d).1) then portTo true l s else s

theorem gPort_setL (k : CapD) (l : LCore) (c : Nat) (x : LCore) (s : State) : gPort k l (setL c x s) = setL c x (gPort k l s) := by
  unfold gPort
  rw [portTo_setL]
  split <;> rfl

theorem getL_gPort (k : CapD) (l : LCore) (s : State) (c : Nat) : getL (gPort k l s) c = getL s c := by
  unfold gPort
  split
  · exact getL_portTo c
  · rfl

theorem gPort_lat (k : CapD) (l : LCore) (s : State) : (gPort k l s).lat = s.lat := by
  unfold gPort
  split
  · exact portTo_lat _ _ _
  · rfl

theorem gPort_mem (k : CapD) (l : LCore) (s : State) : (gPort k l s).mem = s.mem := by
  unfold gPort
  split
  · exact portTo_mem _ _ _
  · rfl

theorem gOpen_gPort (k : CapD) (l : LCore) (s : State) : gOpen (gPort k l s) k = gOpen s k := by
  unfold gPort portTo
  split
  · split <;> rfl
  · rfl

theorem latAwait_none_of_lat {rs : List (Nat × Nat)} {s t : State} (h : t.lat = s.lat) (hn : latAwait rs s = none) :
    latAwait rs t = none := by
  have hgran (g : Nat) : getGran t g = getGran s g := by rw [getGran, getGran, h]
  unfold latAwait at hn ⊢
  dsimp only at hn ⊢
  simp only [hgran]
  split at hn
  next hgs => exact if_pos hgs
  · split at hn <;> cases hn

theorem forgetValid_mf (d : Desc) (s : State) : MemFrame s (forgetValid d s) :=
  MemFrame.foldl (fun _ _ hs => forgetRange_mf (.ite (MemFrame.foldl (fun _ _ hs => setGran_mf hs _ _) _ hs) hs) _ _) _ (.refl s)

/-- A write that lands does not read the logical cores. -/
theorem landOne_setL (c : Nat) (x : LCore) (s : State) (w : HWrite) : landOne (setL c x s) w = setL c x (landOne s w) := by
  have hdirty (gs : List Nat) (s : State) : gs.foldl (fun s g => setGran g { getGran s g with dirty := true } s) (setL c x s) =
      setL c x (gs.foldl (fun s g => setGran g { getGran s g with dirty := true } s) s) := by
    induction gs generalizing s with
    | nil => rfl
    | cons g gs ih => exact ih (setGran g { getGran s g with dirty := true } s)
  unfold landOne
  split
  · rfl
  · show hbmLand w.a (w.bytes s.mem) (setL c x s) = setL c x (hbmLand w.a (w.bytes s.mem) s)
    unfold hbmLand
    dsimp only
    rw [hdirty]
    rfl

theorem lands_setL (ws : List HWrite) (c : Nat) (x : LCore) (s : State) :
    ws.foldl landOne (setL c x s) = setL c x (ws.foldl landOne s) := by
  induction ws generalizing s with
  | nil => rfl
  | cons w ws ih =>
    rw [List.foldl_cons, List.foldl_cons, landOne_setL]
    exact ih _

/-! ### GALLG and GBCAST -/

section
variable {c : Nat} {s : State} {l : LCore} {e : QE} {k : CapD}

theorem gPort_issued (hs : e.started = false) :
    (if [k.dA, gOut k].any (fun d => xScratchKind (extent d).1) then takePort (issuedCore qG e l) true s else some s) =
      some (gPort k l s) := by
  unfold gPort
  split
  · exact port_new (by decide) hs l true s
  · rfl

theorem gmoveStart_open (hg : getL s c = some (issuedCore qG e l)) (hl : l.qs = List.replicate 9 []) (hs : e.started = false)
    (ho : gOpen s k = true) (hw : latAwait [extent (gOut k)] s = none) :
    gmoveStart c (issuedCore qG e l) e k s = some (forgetValid (gOut k) (setL c (passedCore l) (gPort k l s))) := by
  have hm : modL c (dropEntry qG 0) (gPort k l s) = setL c (passedCore l) (gPort k l s) := by
    rw [modL_eq (l := issuedCore qG e l) ((getL_gPort k l s c).trans hg), dropEntry_issued (by decide) e hl]
  unfold gmoveStart
  dsimp only
  rw [if_pos ho, hw]
  dsimp only
  rw [gPort_issued hs, Option.map_some, gOpen_gPort, if_pos ho, hm]

theorem gmoveStart_own (hs : e.started = false) (ho : gOpen s k = false) :
    gmoveStart c (issuedCore qG e l) e k s = some (gWrite c e (gWrites c k s.mem) (gPort k l s)) := by
  have hn : ¬ gOpen s k = true := ne_true_of_eq_false ho
  unfold gmoveStart
  dsimp only
  rw [if_neg hn]
  dsimp only
  rw [gPort_issued hs, Option.map_some, gOpen_gPort, if_neg hn, gPort_mem]

/-- The entry of a GALLG or GBCAST whose writes have come as far as `r` says, the rest being held. -/
def heldEntry (e : QE) (r : List HWrite × Option Nat) : QE :=
  { e with
    started := true
    flight := { e.flight with
      left := r.1
      hold := r.2 } }

/-- A GALLG or GBCAST that has made its writes leaves; one that holds at a write stays. -/
theorem gWrite_issued {e₀ : QE} {ws : List HWrite} (hg : getL s c = some (issuedCore qG e₀ l)) (hl : l.qs = List.replicate 9 []) :
    (xPush ws s).1 = ([], none) ∧ gWrite c e ws s = setL c (passedCore l) (xPush ws s).2 ∨
    ∃ left g, (xPush ws s).1 = (left, some g) ∧ (getGran (xPush ws s).2 g).st = .copying ∧
      gWrite c e ws s = setL c (issuedCore qG (heldEntry e (left, some g)) l) (xPush ws s).2 := by
  have hg' : getL (xPush ws s).2 c = some (issuedCore qG e₀ l) := getL_xPush.trans hg
  rcases xPush_ends ws s with hdone | ⟨left, g, hheld, hcopy⟩
  · refine .inl ⟨hdone, ?_⟩
    generalize ht : (xPush ws s).2 = t at hg' ⊢
    have hpush : xPush ws s = (([], none), t) := Prod.ext hdone ht
    rw [gWrite, hpush]
    dsimp only
    rw [if_pos ⟨rfl, rfl⟩, modL_eq (l := issuedCore qG e₀ l) hg', dropEntry_issued (by decide) e₀ hl]
  · refine .inr ⟨left, g, hheld, hcopy, ?_⟩
    generalize ht : (xPush ws s).2 = t at hg' ⊢
    have hpush : xPush ws s = ((left, some g), t) := Prod.ext hheld ht
    rw [gWrite, hpush]
    dsimp only
    rw [if_neg (by simp), modL_eq (l := issuedCore qG e₀ l) hg', setEntry_issued (by decide)]
    rfl

/-- The head of the G queue that holds at a write of its own does not go on. -/
theorem startOne_held {g : Nat} {left : List HWrite} (hg : getL s c = some (issuedCore qG (heldEntry e (left, some g)) l))
    (hem : l.emptyAt = []) (hk : e.pl = .ins k) (hcopy : (getGran s g).st = .copying) : startOne c s = none := by
  have hk' : (heldEntry e (left, some g)).pl = .ins k := hk
  have hs' : (heldEntry e (left, some g)).started = true := rfl
  have hh' : (heldEntry e (left, some g)).flight.hold = some g := rfl
  generalize heldEntry e (left, some g) = e' at hg hk' hs' hh'
  have hq : queue (issuedCore qG e' l) qG = [e'] := queue_issued (by decide) e' l
  refine (startOne_alone (q := qG) hg hem (by decide) rfl).trans ?_
  rw [if_neg (by decide), if_neg (by decide), if_neg (by decide), if_neg (by decide), if_neg (by decide), if_neg (by decide), if_pos rfl]
  unfold startG
  rw [hg]
  dsimp only
  split
  · rfl
  · rw [hq]
    dsimp only
    rw [hk']
    dsimp only
    rw [if_pos hs', gResume, hh']
    exact if_pos hcopy

/-- After the writes of a GALLG or GBCAST nothing starts, and nothing is ended. -/
theorem gWrite_still {e₀ : QE} {ws : List HWrite} (hg : getL s c = some (issuedCore qG e₀ l)) (hl : l.qs = List.replicate 9 [])
    (hem : l.emptyAt = []) (hb : l.block = none) (hk : e.pl = .ins k) :
    startOne c (gWrite c e ws s) = none ∧ coreEnd c (gWrite c e ws s) = gWrite c e ws s := by
  have hg' : getL (xPush ws s).2 c = some (issuedCore qG e₀ l) := getL_xPush.trans hg
  rcases gWrite_issued (e := e) (ws := ws) hg hl with ⟨-, hw⟩ | ⟨left, g, -, hcopy, hw⟩
  · have hg2 := getL_setL hg' (passedCore l)
    rw [hw]
    exact ⟨startOne_still (still_of_get hg2 hl hem), coreEnd_unblocked hg2 hb⟩
  · have hg2 := getL_setL hg' (issuedCore qG (heldEntry e (left, some g)) l)
    rw [hw]
    exact ⟨startOne_held hg2 hem hk hcopy, coreEnd_unblocked hg2 hb⟩

end

/-! ### The rows -/

section
variable {c : Fin 256} {f : FmtD} {s : State} {l : LCore} {i : Instr} {op level : Nat} {undef : Bool} {regs : List (BitVec 6)}
  {descs : List (BitVec 5)} (he : coreEmpty l = true)
  (hx : exec i s = .next (issueD c f (dspec qG op level f undef regs descs) plainD s))
  (h : canIssue c l (reqD qG level f undef regs) s = true) (ho : operandErr l descs = none) {k : CapD}
  (hk : k = capD op l f f.ctrl.toNat) {e : QE} (hee : e = entryD op l f)
include he hx h ho hee

theorem gIssued : exec i s = .next (pump c (setL c (issuedCore qG e l) s)) := by
  rw [hx, hee]
  exact congrArg Host.Outcome.next (issueD_alone h he (show qG ≤ 8 by decide) ho)

include hk

/-- A G operation that fails its check faults. -/
theorem gRow_refused {code : Code} (herr : gErr (setL c (issuedCore qG e l) s) (issuedCore qG e l) k = some code) :
    exec i s = .next (coreEnd c (programFault c qG l.pc code (setL c (passedCore l) s))) := by
  obtain ⟨hg, hr, -⟩ := ready_of_canIssue h
  obtain ⟨hl, -, hem⟩ := coreEmpty_iff.mp he
  have hg1 := getL_setL hg (issuedCore qG e l)
  have hpc : e.pc = l.pc := by rw [hee]; rfl
  have hstart := startG_refused hg1 (by exact hr) (queue_issued (by decide) e l) (by rw [hee, hk]; rfl) (by rw [hee]; rfl)
    (by rw [hee]; rfl) herr
  rw [modL_eq hg1, dropEntry_issued (by decide) e hl, setL_setL, hpc] at hstart
  exact (gIssued he hx h ho hee).trans (congrArg Host.Outcome.next
    (pump_starts hg1 hem ((startOne_alone (q := qG) hg1 hem (by decide) rfl).trans hstart) (programFault_still _ _ _ _ _)))

variable (herr : gErr (setL c (issuedCore qG e l) s) (issuedCore qG e l) k = none)
include herr

omit hx ho in
/-- A G operation that passes its check stands checked. -/
theorem gChecked : startOne c (setL c (issuedCore qG e l) s) = some (setL c (issuedCore qG { e with checked := true } l) s) := by
  obtain ⟨hg, hr, -⟩ := ready_of_canIssue h
  obtain ⟨-, -, hem⟩ := coreEmpty_iff.mp he
  have hg1 := getL_setL hg (issuedCore qG e l)
  have hstart := startG_checked hg1 (by exact hr) (queue_issued (by decide) e l) (by rw [hee, hk]; rfl) (by rw [hee]; rfl)
    (by rw [hee]; rfl) herr
  rw [modL_eq hg1, setEntry_issued (by decide), setL_setL] at hstart
  exact (startOne_alone (q := qG) hg1 hem (by decide) rfl).trans hstart

/-- One that names a time waits for it. -/
theorem gRow_timed (hxb : k.xb ≠ 0) : exec i s = .next (setL c (issuedCore qG { e with checked := true } l) s) := by
  obtain ⟨hg, hr, hb⟩ := ready_of_canIssue h
  obtain ⟨-, -, hem⟩ := coreEmpty_iff.mp he
  have hg2 := getL_setL hg (issuedCore qG { e with checked := true } l)
  have hwait := startG_timed hg2 (by exact hr) (queue_issued (by decide) _ l) (by rw [hee, hk]; rfl) (by rw [hee]; rfl) rfl hxb
  exact (gIssued he hx h ho hee).trans (congrArg Host.Outcome.next (pump_begins (l := issuedCore qG e l) (getL_setL hg _) hem
    (gChecked he h hk hee herr) ((startOne_alone (q := qG) hg2 hem (by decide) rfl).trans hwait) hg2 hb))

/-- One that names no time starts at once. -/
theorem gRow_starts (hxb : k.xb = 0) {t : State} (hstart : gStart c (issuedCore qG { e with checked := true } l) { e with checked := true } k
    (setL c (issuedCore qG { e with checked := true } l) s) = some t) (hstill : startOne c t = none) : exec i s = .next (coreEnd c t) := by
  obtain ⟨hg, hr, -⟩ := ready_of_canIssue h
  obtain ⟨-, -, hem⟩ := coreEmpty_iff.mp he
  have hg2 := getL_setL hg (issuedCore qG { e with checked := true } l)
  have hs := startG_starts hg2 (by exact hr) (queue_issued (by decide) _ l) (by rw [hee, hk]; rfl) (by rw [hee]; rfl) rfl hxb
  exact (gIssued he hx h ho hee).trans (congrArg Host.Outcome.next (pump_two (l := issuedCore qG e l) (getL_setL hg _) hem
    (gChecked he h hk hee herr) ((startOne_alone (q := qG) hg2 hem (by decide) rfl).trans (hs.trans hstart)) hstill))

theorem gRow_gred (hxb : k.xb = 0) (hop : k.op = 0) (hlen : l.greds.length < 64)
    (hbad : hbmBad s (extent k.dA).1 (extent k.dA).2 = false)
    (hstill : startOne c (gredLaunch c { e with checked := true } k (setL c (passedCore l) s)) = none) :
    exec i s = .next (coreEnd c (gredLaunch c { e with checked := true } k (setL c (passedCore l) s))) := by
  obtain ⟨hg, -, -⟩ := ready_of_canIssue h
  obtain ⟨hl, -, -⟩ := coreEmpty_iff.mp he
  refine gRow_starts he hx h ho hk hee herr hxb ?_ hstill
  have hfree : ¬ (decide (64 ≤ l.greds.length) || hbmBad s (extent k.dA).1 (extent k.dA).2) = true := by
    rw [hbad, Bool.or_false, decide_eq_true_eq]
    omega
  unfold gStart
  rw [if_pos hop, if_neg (by exact hfree), modL_eq (getL_setL hg _), dropEntry_issued (by decide) _ hl, setL_setL]

theorem gRow_open (hxb : k.xb = 0) (hop : k.op ≠ 0) (hopen : gOpen s k = true) (hw : latAwait [extent (gOut k)] s = none) :
    exec i s = .next (forgetValid (gOut k) (setL c (passedCore l) (gPort k l s))) := by
  obtain ⟨hg, -, hb⟩ := ready_of_canIssue h
  obtain ⟨hl, -, hem⟩ := coreEmpty_iff.mp he
  have hg2 := getL_setL hg (issuedCore qG { e with checked := true } l)
  have hstart := gmoveStart_open hg2 hl (by rw [hee]; rfl) (by exact hopen) 
    (latAwait_none_of_lat (s := s) (t := setL c (issuedCore qG { e with checked := true } l) s) rfl hw)
  rw [gPort_setL, setL_setL] at hstart
  have hg3 : getL (forgetValid (gOut k) (setL c (passedCore l) (gPort k l s))) c = some (passedCore l) := by
    rw [getL_of_lcores (forgetValid_mf _ _).lcores]
    exact getL_setL ((getL_gPort k l s c).trans hg) _
  exact (gRow_starts he hx h ho hk hee herr hxb ((if_neg hop).trans hstart) (startOne_still (still_of_get hg3 hl hem))).trans
    (congrArg Host.Outcome.next (coreEnd_unblocked hg3 hb))

theorem gRow_own (hxb : k.xb = 0) (hop : k.op ≠ 0) (hopen : gOpen s k = false) :
    exec i s = .next (gWrite c { e with checked := true } (gWrites c k s.mem)
      (gPort k l (setL c (issuedCore qG { e with checked := true } l) s))) := by
  obtain ⟨hg, -, hb⟩ := ready_of_canIssue h
  obtain ⟨hl, -, hem⟩ := coreEmpty_iff.mp he
  have hg2 := (getL_gPort k l _ c).trans (getL_setL hg (issuedCore qG { e with checked := true } l))
  have hstart : gmoveStart c (issuedCore qG { e with checked := true } l) { e with checked := true } k
      (setL c (issuedCore qG { e with checked := true } l) s) = _ := gmoveStart_own (by rw [hee]; rfl) (by exact hopen)
  obtain ⟨hstill, hend⟩ := gWrite_still (e := { e with checked := true }) (k := k) (ws := gWrites c k s.mem) hg2 hl hem hb (by rw [hee, hk]; rfl)
  exact (gRow_starts he hx h ho hk hee herr hxb ((if_neg hop).trans hstart) hstill).trans (congrArg Host.Outcome.next hend)

theorem gRow_lands (hxb : k.xb = 0) (hop : k.op ≠ 0) (hopen : gOpen s k = false)
    (hfree : ∀ w ∈ gWrites c k s.mem, w.a < hbmEnd → mustHold s (w.a / granBytes) = false) :
    exec i s = .next (setL c (passedCore l) ((gWrites c k s.mem).foldl landOne (gPort k l s))) := by
  obtain ⟨hg, -, -⟩ := ready_of_canIssue h
  obtain ⟨hl, -, -⟩ := coreEmpty_iff.mp he
  have hg2 := (getL_gPort k l _ c).trans (getL_setL hg (issuedCore qG { e with checked := true } l))
  have hpush := xPush_lands (s := gPort k l (setL c (issuedCore qG { e with checked := true } l) s)) (.of_lat (gPort_lat _ _ _)) hfree
  rw [gRow_own he hx h ho hk hee herr hxb hop hopen]
  refine congrArg Host.Outcome.next ?_
  rcases gWrite_issued (e := { e with checked := true }) (ws := gWrites c k s.mem) hg2 hl with ⟨-, hw⟩ | ⟨left, g, hheld, -, -⟩
  · rw [hw, hpush]
    dsimp only
    rw [gPort_setL, lands_setL, setL_setL]
  · rw [hpush] at hheld
    cases hheld

end

/-! ### COLLECTIVE_LAUNCH -/

section
variable {c : Fin 256} {s : State} {l : LCore} {e : QE} {k : CapD} (hg : getL s c = some l) (hr : coreRuns s l = true)
  (he : soleEntry qG e l = true) (hk : e.pl = .ins k) (hc : e.checked = true) (hs : e.started = false) (hl : isLocked s = true)
include hg hr he hk hc hs hl

theorem launchDue_reached (ht : k.xb.toNat ≤ (replicaTime s l.die).toNat) : launchDue s c = some (l, e, k) := by
  obtain ⟨hqs, -, -, -⟩ := soleEntry_iff.mp he
  have hq : queue l qG = [e] := by rw [queue_alone hqs (by decide), if_pos rfl]
  have htime : timeReached s l.die k.xb = true := by rw [timeReached, hl, Bool.true_and, decide_eq_true_eq]; exact ht
  simp only [launchDue, hg, hr, hq, hk, hc, hs, htime, Bool.not_true, Bool.not_false, Bool.and_self, Bool.false_eq_true, if_false, if_true]

omit hc hs in
theorem launch_early (ht : ¬ k.xb.toNat ≤ (replicaTime s l.die).toNat) : exec (.collectiveLaunch c) s = .next s := by
  obtain ⟨hqs, -, -, -⟩ := soleEntry_iff.mp he
  have hq : queue l qG = [e] := by rw [queue_alone hqs (by decide), if_pos rfl]
  have htime : timeReached s l.die k.xb = false := by rw [timeReached, hl, Bool.true_and, decide_eq_false_iff_not]; exact ht
  have hdue : launchDue s c = none := by
    simp only [launchDue, hg, hr, hq, hk, htime, Bool.and_false, Bool.not_true, Bool.false_eq_true, if_false]
  refine congrArg Host.Outcome.next ?_
  rw [hdue]

theorem launch_starts (ht : k.xb.toNat ≤ (replicaTime s l.die).toNat) (hi : inTurn s 4 k.xb.toNat = true) {t : State}
    (hstart : gStart c l e k s = some t) : exec (.collectiveLaunch c) s = .next (pump c t) := by
  have hdue := launchDue_reached hg hr he hk hc hs hl ht
  refine congrArg Host.Outcome.next ?_
  rw [hdue]
  dsimp only
  rw [if_pos hi, collectiveLaunch, hdue]
  dsimp only
  rw [hstart]

end

/-- Settles O21: each row issues its operation, all are checked alike, and GRED runs apart from GALLG and GBCAST. -/
theorem collectiveOperations : Obligations.CollectiveOperations := by
  unfold Obligations.CollectiveOperations
  refine ⟨fun c f s l he => ?_, fun c s l e k hg hr he hk hc hs hl => ⟨fun ht hi hop hlen hbad => ?_, fun ht hi hop t hstart => ?_,
    fun ht => launch_early hg hr he hk hl ht⟩⟩
  · have hrow {i : Instr} {op level : Nat} {undef : Bool} {regs : List (BitVec 6)} {descs : List (BitVec 5)}
        (hi : issueOf s i = some (c, reqD qG level f undef regs))
        (hx : exec i s = .next (issueD c f (dspec qG op level f undef regs descs) plainD s)) (r : Req)
        (hr : issueOf s i = some (c, r)) (h' : canIssue c l r s = true) (ho : operandErr l descs = none) := by
      have h : canIssue c l (reqD qG level f undef regs) s = true := by
        rw [← (Prod.mk.inj (Option.some.inj (hr.symm.trans hi))).2]
        exact h'
      have herr {t : State} {x : LCore} (hop : op ≠ 0) (hm : gmoveErr t x (capD op l f f.ctrl.toNat) = none) :
        gErr t x (capD op l f f.ctrl.toNat) = none := (if_neg hop).trans hm
      have hgred (hxb : (capD op l f f.ctrl.toNat).xb = 0) (hop : op = 0) hm hlen hbad :=
        gRow_gred he hx h ho rfl rfl ((if_pos hop).trans hm) hxb hop hlen hbad
      have hopen (hxb : (capD op l f f.ctrl.toNat).xb = 0) (hop : op ≠ 0) hm hgo hw :=
        gRow_open he hx h ho rfl rfl (herr hop hm) hxb hop hgo hw
      have hown (hxb : (capD op l f f.ctrl.toNat).xb = 0) (hop : op ≠ 0) hm hgo :=
        And.intro (gRow_own he hx h ho rfl rfl (herr hop hm) hxb hop hgo) (gRow_lands he hx h ho rfl rfl (herr hop hm) hxb hop hgo)
      have htimed (hxb : (capD op l f f.ctrl.toNat).xb ≠ 0) hm := gRow_timed he hx h ho rfl rfl hm hxb
      have hrefused (code : Code) hm := gRow_refused (code := code) he hx h ho rfl rfl hm
      exact And.intro hgred (And.intro hopen (And.intro hown (And.intro htimed hrefused)))
    exact List.forall_mem_cons.mpr ⟨hrow rfl rfl, List.forall_mem_cons.mpr ⟨hrow rfl rfl, List.forall_mem_singleton.mpr (hrow rfl rfl)⟩⟩
  · obtain ⟨hqs, -, -, -⟩ := soleEntry_iff.mp he
    have hfree : ¬ (decide (64 ≤ l.greds.length) || hbmBad s (extent k.dA).1 (extent k.dA).2) = true := by
      rw [hbad, Bool.or_false, decide_eq_true_eq]
      omega
    refine launch_starts hg hr he hk hc hs hl ht hi ?_
    unfold gStart
    rw [if_pos hop, if_neg (by exact hfree), modL_eq hg, dropEntry_alone (by decide) hqs]
  · exact launch_starts hg hr he hk hc hs hl ht hi ((if_neg hop).trans hstart)

end Sys2Proof.Machine
end
